-- ==== Sys2Proof/Word.lean ====
section
/-! DEFINITION. The word, byte and lane types of R4, the 512-bit payload of a beat as eight lanes, and the plain
arithmetic on them that every other file uses. -/

namespace Sys2Proof

/-- A word and a lane are 64 bits (R4). -/
abbrev Word := BitVec 64

/-- One byte of memory. -/
abbrev Byte := BitVec 8

/-- The payload of one beat: lanes 0 to 7 (R4). -/
structure Lanes where
  l0 : Word
  l1 : Word
  l2 : Word
  l3 : Word
  l4 : Word
  l5 : Word
  l6 : Word
  l7 : Word
  deriving DecidableEq, Repr

/-- Lane `i` of a beat; an index of 8 or more names no lane and reads as zero. -/
def Lanes.get (l : Lanes) : Nat → Word
  | 0 => l.l0
  | 1 => l.l1
  | 2 => l.l2
  | 3 => l.l3
  | 4 => l.l4
  | 5 => l.l5
  | 6 => l.l6
  | 7 => l.l7
  | _ => 0

/-- The beat whose lane `i` is `f i`. -/
def Lanes.ofFn (f : Nat → Word) : Lanes := ⟨f 0, f 1, f 2, f 3, f 4, f 5, f 6, f 7⟩

/-- One word in every lane. -/
def Lanes.splat (w : Word) : Lanes := ⟨w, w, w, w, w, w, w, w⟩

/-- The beat of zeros. -/
def Lanes.zero : Lanes := Lanes.splat 0

/-- The beat with lane `i` replaced. -/
def Lanes.set (l : Lanes) (i : Nat) (w : Word) : Lanes := Lanes.ofFn fun j => if j = i then w else l.get j

/-- The lanes in order. -/
def Lanes.toList (l : Lanes) : List Word := [l.l0, l.l1, l.l2, l.l3, l.l4, l.l5, l.l6, l.l7]

/-- The beat of a list's first eight words, zero where the list is shorter. -/
def Lanes.ofList (ws : List Word) : Lanes := Lanes.ofFn fun i => ws.getD i 0

/-- The unsigned field `x[h:l]` of the manual's pseudocode (R7). -/
def fld (w : Word) (h l : Nat) : Nat := w.toNat / 2 ^ l % 2 ^ (h + 1 - l)

/-- Bit `i` of a word. -/
def bit (w : Word) (i : Nat) : Bool := w.getLsbD i

/-- The unsigned field `x[h:l]` of a natural number (R7). -/
def nfld (x h l : Nat) : Nat := x / 2 ^ l % 2 ^ (h + 1 - l)

/-- A natural number as a word, modulo 2^64. -/
def w64 (n : Nat) : Word := BitVec.ofNat 64 n

/-- A field value placed at bit `l` of a word. -/
def place (n l : Nat) : Word := BitVec.ofNat 64 (n * 2 ^ l)

/-- A truth value as one bit. -/
def b01 (b : Bool) : Nat := if b then 1 else 0

/-- The low `n` bits of a word read as an `n`-bit two's complement number. -/
def sextBits (x : Nat) (n : Nat) : Int :=
  let y := x % 2 ^ n
  if n = 0 then 0 else if y < 2 ^ (n - 1) then y else (y : Int) - 2 ^ n

end Sys2Proof
end

