-- ==== Sys2Proof/Syntax.lean ====
section
/-! DEFINITION. The instructions of the HX9-A: the operand specifiers and fields of a triggered word (R93 to R98),
the tokens that flow between slots (R123), what the steps of the device act on, and the one inductive `Instr` with
one constructor per row of the opcode table. -/

namespace Sys2Proof

/-- The three pools of a tile (R21), coded 0, 1, 2 in the place word of R92. -/
inductive Pool where
  | pe
  | mx
  | ag
  deriving DecidableEq, Repr

/-- The pool's code in R39 and R92. -/
def Pool.code : Pool → Nat
  | .pe => 0
  | .mx => 1
  | .ag => 2

/-- The pool of a code; 3 is no pool (R39). -/
def Pool.ofCode : Nat → Option Pool
  | 0 => some .pe
  | 1 => some .mx
  | 2 => some .ag
  | _ => none

/-- A source specifier (R97). -/
inductive Src where
  /-- `vN`: read, presence ignored. -/
  | rd (n : Fin 16)
  /-- `^vN`: take. -/
  | take (n : Fin 16)
  /-- `iN`: consume. -/
  | inp (c : Fin 4)
  /-- `~iN`: peek. -/
  | peek (c : Fin 4)
  /-- `aN`, zero-extended to every lane. -/
  | areg (n : Fin 8)
  /-- `kN`, in every lane. -/
  | const (n : Fin 8)
  /-- `#n`, in every lane. -/
  | imm (n : Fin 8)
  deriving DecidableEq, Repr

/-- A destination specifier (R98). -/
inductive Dst where
  /-- `vN`: write. -/
  | wr (n : Fin 16)
  /-- `^vN`: put. -/
  | put (n : Fin 16)
  /-- `oN`. -/
  | out (c : Fin 4)
  /-- `aN`. -/
  | areg (n : Fin 8)
  /-- `pN`. -/
  | pred (n : Fin 8)
  /-- `_`: discard. -/
  | none
  deriving DecidableEq, Repr

/-- The fields of a triggered word other than its opcode (R93), with the operand specifiers decoded. -/
structure Fields where
  /-- predicate care mask -/
  pm : BitVec 8
  /-- required predicate values -/
  pv : BitVec 8
  /-- inputs that must hold a head -/
  ir : BitVec 4
  /-- outputs that must have space -/
  os : BitVec 4
  /-- tag-test enable -/
  te : Bool
  /-- input whose head KIND is tested -/
  tc : BitVec 2
  /-- required head KIND -/
  tk : BitVec 3
  /-- destination -/
  d : Dst
  /-- first source -/
  a : Src
  /-- second source -/
  b : Src
  /-- predicate-update enable -/
  pe : Bool
  /-- predicate updated -/
  pi : BitVec 3
  /-- value written to it -/
  pval : Bool
  /-- modifier -/
  md : BitVec 3
  deriving DecidableEq, Repr

/-- A token: one beat with the header of R123. A v register holds the payload and header of one, without its TAG
and KIND (R117). -/
structure Tok where
  lanes : Lanes
  /-- circuit tag -/
  tag : BitVec 12
  side : BitVec 24
  /-- poison -/
  psn : Bool
  /-- LMASK -/
  mask : BitVec 8
  /-- generation tag -/
  gen : BitVec 8
  fmt : BitVec 4
  kind : BitVec 3
  deriving DecidableEq, Repr

/-- An endpoint of the squash network (R323): a pool with its registers, inputs and request places; the slots of one
circuit (an entry queue among them); the copy queues of one core; the bisque buffers of one L2 slice; the KV areas of
one die; the draft heap; the mirror of one die; a saved block (R352); a peer package (R332). -/
inductive Endpoint where
  | pool (tile : Nat) (p : Pool)
  | chan (ch : Nat)
  | copyQueues (core : Nat)
  | bisque (slice : Nat)
  | kv (die : Nat)
  | heap
  | mirror (die : Nat)
  | saved (frame : Nat)
  | peer (node : Nat)
  deriving DecidableEq, Repr

/-- Where an uncorrectable error strikes (R356). -/
inductive UeSite where
  /-- a word of an on-chip memory or of global memory, by its flat word address -/
  | mem (word : Nat)
  /-- a word of L2 -/
  | l2 (word : Nat)
  /-- a v register -/
  | reg (tile : Nat) (p : Pool) (n : Fin 16)
  /-- an entry of an input buffer -/
  | token (tile : Nat) (p : Pool) (inp : Fin 4) (pos : Nat)
  /-- a slot word of a live configuration, with the word as read -/
  | slot (tile : Nat) (p : Pool) (n : Fin 16) (word : Word)
  /-- a tile image in an image cache -/
  | cache (die : Fin 8) (idx : Nat)
  /-- the shadow store of a tile -/
  | shadow (tile : Nat)
  /-- an entry of a slice's bisque buffers -/
  | bisque (slice : Fin 64) (idx : Nat)
  /-- a scale word of a tile's scale array -/
  | scale (tile : Nat) (idx : Fin 2048)
  deriving DecidableEq, Repr

/-- Where an error that SECDED has corrected stood (R356): the die that counts it, and its physical address if it stood in HBM
(R409). -/
structure CeSite where
  die : Fin 8
  hbm : Option Nat
  deriving DecidableEq, Repr

/-- What the return of the rails brings (R360): how long they were off in µs, and which chiplets attest. -/
structure RailsBack where
  us : Nat
  attest : BitVec 26
  deriving DecidableEq, Repr

/-- A flit as it arrives from outside the package (R371), without its authentication tag. -/
structure Flit where
  fseq : BitVec 16
  aseq : BitVec 16
  kp : Bool
  ftype : BitVec 3
  /-- bit n of the body is bit n of this number (R372) -/
  body : BitVec 3904
  /-- markers of the squash network in the private slots of their circuits: DNODE, XCID and SEQ (R298, R326, R332) -/
  marks : List (Nat × Nat × Nat)
  deriving DecidableEq, Repr

/-- The SPDM request messages (R395); `other` is every request outside the supported subset. -/
inductive SpdmMsg where
  | getVersion
  | getCapabilities
  | negotiateAlgorithms
  | getDigests
  | getCertificate
  | challenge
  | getMeasurements
  | keyExchange
  | finish
  | keyUpdate
  | endSession
  | other
  deriving DecidableEq, Repr

/-- What the kiln controller finds in a staged firmware image (R405): its version, its anti-rollback number, the digests of
the image and of its reference manifest (R396), whether its form is right and whether its signature verifies. -/
structure FwCheck where
  version : BitVec 32
  rollback : Nat
  image : BitVec 512
  manifest : BitVec 512
  formOk : Bool
  sigOk : Bool
  deriving DecidableEq, Repr


/-- The instructions of the three pools: one name per slot row of the opcode table, with its mnemonic and the rule that defines it. -/
inductive Op where
  /-- NOP, R137: Fires and does nothing. -/
  | nop
  /-- MOV, R137: Copies A to D with its header, or sends an admitted control token whole. -/
  | mov
  /-- EMIT, R138: Forms one control token whose KIND and SIDE are chosen by MD and sends it on an output. -/
  | emit
  /-- DROP, R137: Consumes the head of an input and discards it. -/
  | drop
  /-- PSET, R139: Writes 1 to a predicate. -/
  | pset
  /-- PCLR, R139: Writes 0 to a predicate. -/
  | pclr
  /-- PLOG, R139: Writes a logic function of two predicates to a predicate. -/
  | plog
  /-- CSET, R140: Sets counter n0 or n1 from A lane 0. -/
  | cset
  /-- CINC, R140: Adds to a counter, compares the sum with B, optionally wraps, and writes the hit or the new count. -/
  | cinc
  /-- QPOST, R191: Posts one token to a named copy queue of the core. -/
  | qpost
  /-- FENCE, R268: Fires once the pool's earlier accesses are performed at the scope it names. -/
  | fence
  /-- TRAP, R279: Raises the fault TRAP carrying A lane 0 and stops the pool. -/
  | trap
  /-- EVT, R279: Posts a program event at once, or when its generation is ratified. -/
  | evt
  /-- YIELD, R348: Sends YIELD tokens on its bound outputs while a pre-emption request stands, and leaves the pool yielded. -/
  | yield
  /-- SEL, R142: Chooses A or B by a predicate. -/
  | sel
  /-- STEER, R143: Sends a token to one of two outputs, or drops it, by a selector. -/
  | steer
  /-- MERGE, R144: Takes the arm chosen by the head control token and emits its token. -/
  | merge
  /-- DUP, R145: Sends one source to up to four outputs. -/
  | dup
  /-- BARJ, R146: Joins BARRIER heads on every joined input and emits one BARRIER on each bound output. -/
  | barj
  /-- PERM, R147: Consumes one PERMIT head. -/
  | perm
  /-- REQ, R148: Sends requests up a pull channel. -/
  | req
  /-- LPERM, R149: Permutes the lanes of A. -/
  | lperm
  /-- LROT, R149: Rotates the lanes of A. -/
  | lrot
  /-- LBC, R149: Broadcasts one lane of A. -/
  | lbc
  /-- LINS, R149: Inserts A lane 0 into one lane of vD. -/
  | lins
  /-- LEXT, R149: Extracts one lane of A into lane 0. -/
  | lext
  /-- TAGSET, R150: Rewrites one header field of a token. -/
  | tagset
  /-- KINDP, R151: Writes a predicate from whether the head's KIND equals MD. -/
  | kindp
  /-- IADD, R153: Lane-wise integer add. -/
  | iadd
  /-- ISUB, R153: Lane-wise integer subtract. -/
  | isub
  /-- IMUL, R153: Lane-wise integer multiply, low part. -/
  | imul
  /-- IMULH, R153: Lane-wise integer multiply, high part. -/
  | imulh
  /-- IMAD, R153: Lane-wise integer multiply-add into vD. -/
  | imad
  /-- INEG, R153: Lane-wise integer negate. -/
  | ineg
  /-- IABS, R153: Lane-wise integer absolute value. -/
  | iabs
  /-- IMIN, R153: Lane-wise integer minimum. -/
  | imin
  /-- IMAX, R153: Lane-wise integer maximum. -/
  | imax
  /-- ICLAMP, R153: Lane-wise integer clamp between B and the old D. -/
  | iclamp
  /-- IADDS, R153: Lane-wise saturating integer add. -/
  | iadds
  /-- ISUBS, R153: Lane-wise saturating integer subtract. -/
  | isubs
  /-- AND, R153: Bitwise and. -/
  | and
  /-- OR, R153: Bitwise or. -/
  | or
  /-- XOR, R153: Bitwise exclusive or. -/
  | xor
  /-- ANDN, R153: Bitwise and with the complement of B. -/
  | andn
  /-- NOT, R153: Bitwise complement. -/
  | not
  /-- SHL, R153: Lane-wise shift left. -/
  | shl
  /-- SHR, R153: Lane-wise logical shift right. -/
  | shr
  /-- SAR, R153: Lane-wise arithmetic shift right. -/
  | sar
  /-- ROT, R153: Lane-wise rotate left. -/
  | rot
  /-- CLZ, R153: Counts leading zero bits. -/
  | clz
  /-- POPC, R153: Counts one bits. -/
  | popc
  /-- BFX, R153: Extracts a bit field. -/
  | bfx
  /-- BFI, R153: Inserts a bit field into the old D. -/
  | bfi
  /-- SEXT, R153: Sign-extends from a given bit. -/
  | sext
  /-- ICMP, R154: Lane-wise integer compare to a mask or a predicate. -/
  | icmp
  /-- MOVA, R155: Moves a value into an a register. -/
  | mova
  /-- ADDA, R155: Adds into an a register modulo 2^32. -/
  | adda
  /-- WRAPA, R155: Steps a circular index in an a register. -/
  | wrapa
  /-- CMPA, R156: Unsigned 32-bit compare of lane 0 values. -/
  | cmpa
  /-- PLANE, R157: Turns lanes of A into a predicate. -/
  | plane
  /-- FADD, R215: WF add with one rounding. -/
  | fadd
  /-- FSUB, R215: WF subtract. -/
  | fsub
  /-- FMUL, R215: WF multiply. -/
  | fmul
  /-- FMA, R215: WF fused multiply-add into vD, rounded once. -/
  | fma
  /-- FNEG, R215: WF negate. -/
  | fneg
  /-- FABS, R215: WF absolute value. -/
  | fabs
  /-- FMIN, R216: WF minimum by ranking key. -/
  | fmin
  /-- FMAX, R216: WF maximum by ranking key. -/
  | fmax
  /-- FCMP, R217: Lane-wise WF compare. -/
  | fcmp
  /-- FCLAMP, R216: WF clamp between B and the old D. -/
  | fclamp
  /-- FSCL, R218: Scales a WF value by a power of two. -/
  | fscl
  /-- FXP, R218: Gives the binary exponent of a WF value. -/
  | fxp
  /-- FMANT, R218: Gives the mantissa of a WF value in [1, 2). -/
  | fmant
  /-- FRND, R218: Rounds a WF value to an integer. -/
  | frnd
  /-- FRCP, R220: Reciprocal by the defined table-and-cubic algorithm. -/
  | frcp
  /-- FRSQ, R220: Reciprocal square root. -/
  | frsq
  /-- FSQRT, R220: Square root. -/
  | fsqrt
  /-- FEXP2, R220: Power of two. -/
  | fexp2
  /-- FLOG2, R220: Base-2 logarithm. -/
  | flog2
  /-- FEXP, R220: Natural exponential. -/
  | fexp
  /-- FTANH, R220: Hyperbolic tangent. -/
  | ftanh
  /-- CVTIF, R221: Converts integers to WF. -/
  | cvtif
  /-- CVTFI, R221: Converts WF to saturated integers. -/
  | cvtfi
  /-- QBLK, R222: Forms an aligned block token from a WF beat. -/
  | qblk
  /-- DQBLK, R222: Widens eight elements of an ALN8 token to WF. -/
  | dqblk
  /-- FMTQ, R223: Rounds WF values to the grid of a storage format. -/
  | fmtq
  /-- RSUM, R224: Sums the lanes in a fixed rounding tree. -/
  | rsum
  /-- RMAX, R224: Lane maximum by key. -/
  | rmax
  /-- RMIN, R224: Lane minimum by key. -/
  | rmin
  /-- RARGMX, R224: Best value-id pair of the lanes. -/
  | rargmx
  /-- SMUP, R226: Adds a beat of scores to an online-softmax state. -/
  | smup
  /-- SMRG, R227: Merges a partial softmax state into D. -/
  | smrg
  /-- SMRG_ORD, R228: Merges the buffered partial whose key is one above D's key. -/
  | smrgOrd
  /-- SMFIN, R229: Finishes a softmax state into 1/s and log-sum-exp. -/
  | smfin
  /-- HASH, R230: Mixes two 64-bit patterns per lane. -/
  | hash
  /-- GUMB, R232: Adds Gumbel noise from a draw to a logit. -/
  | gumb
  /-- TOPKI, R233: Keeps the four best value-id pairs. -/
  | topki
  /-- TKOUT, R234: Extracts ids, values or the best pair from a TOPKI state. -/
  | tkout
  /-- ARGMC, R235: Joins the candidate pairs of two shards. -/
  | argmc
  /-- LD, R261: Loads a beat or gathers words on chip. -/
  | ld
  /-- ST, R261: Stores a beat or scatters words on chip. -/
  | st
  /-- LDX, R262: Loads eight 32-bit elements. -/
  | ldx
  /-- STX, R262: Stores eight 32-bit elements. -/
  | stx
  /-- LDCH, R263: Loads a node and steps its a register to the next node. -/
  | ldch
  /-- LLS, R264: Loads from the lane slices. -/
  | lls
  /-- SLS, R264: Stores to the lane slices. -/
  | sls
  /-- LDF, R265: Waits for a full beat and reads it, leaving it full. -/
  | ldf
  /-- LDE, R265: Waits for a full beat, reads it and empties it. -/
  | lde
  /-- STF, R265: Waits for empty words, writes them and sets them full. -/
  | stf
  /-- STE, R265: Writes words and sets them full without waiting. -/
  | ste
  /-- FEQ, R267: Tests full-empty bits of a beat. -/
  | feq
  /-- FECLR, R267: Sets a run of full-empty bits empty or full. -/
  | feclr
  /-- GLD, R273: Task-memory load under the bound timestamp. -/
  | gld
  /-- GST, R273: Task-memory store into the bisque buffers. -/
  | gst
  /-- GATOM, R271: Global atomic as a load and store of the bound unit. -/
  | gatom
  /-- SATOM, R270: Scratchpad atomic, one read-modify-write per lane. -/
  | satom
  /-- FORK, R274: Writes p7-p4 from A lane 0. -/
  | fork
  /-- RDV, R129: Fires once the MX and AG pools are quiescent. -/
  | rdv
  /-- WAITWP, R275: Fires once a write pointer reaches a value. -/
  | waitwp
  /-- IMGSYNC, R276: Sends an image-cache invalidation to the arbiter. -/
  | imgsync
  /-- TSGET, R272: Binds a unit timestamp and generation to the pool. -/
  | tsget
  /-- TSNEW, R272: Mints a timestamp within a unit's interval. -/
  | tsnew
  /-- CSRR, R278: Reads a control and status register. -/
  | csrr
  /-- CSRW, R278: Writes a control and status register, RETV as a unit store. -/
  | csrw
  /-- HALT, R280: Stops the pool until the tile swaps or installs. -/
  | halt
  /-- GUESS, R318: Sends a successor proposal to the squash network root. -/
  | guess
  /-- RATIFY, R319: Sends the final token of a position to the root. -/
  | ratify
  /-- GENGET, R320: Mints a token carrying a live or ratified generation. -/
  | genget
  /-- SQREQ, R321: Requests a squash of a generation and its descendants. -/
  | sqreq
  /-- DHPUSH, R322: Pushes a node with a named parent into the draft heap. -/
  | dhpush
  /-- DHPUSH_CFG, R322: Sets up the package's speculation domain. -/
  | dhpushCfg
  /-- DHPUSH_JOIN, R322: Joins the speculation domain of another package. -/
  | dhpushJoin
  /-- KVROW_CFG, R328: Defines a KV area of the die. -/
  | kvrowCfg
  /-- KVROW_OPEN, R329: Opens a KV slot for a position under the request's generation. -/
  | kvrowOpen
  /-- KVROW_PUT, R328: Writes words of a KV row segment. -/
  | kvrowPut
  /-- MXCFG, R240: Sets the pass configuration. -/
  | mxcfg
  /-- MXMODE, R238: Sets the matrix engine's mode. -/
  | mxmode
  /-- MXSCB, R241: Writes block scales into the scale array. -/
  | mxscb
  /-- MXROW, R242: Starts one compute-in-memory pass. -/
  | mxrow
  /-- MXACC, R246: Joins partial results with one rounding. -/
  | mxacc
  /-- MXOUT, R241: Reads scales, checksums or engine status. -/
  | mxout
  /-- MXZ, R241: Starts zeroing the bank, checksums and scales. -/
  | mxz
  /-- MXCHK, R247: Starts a scrub of rows against their checksums. -/
  | mxchk
  /-- GRLD, R250: Sets the grammar window. -/
  | grld
  /-- GRX, R250: Exchanges a beat of the input-vector file. -/
  | grx
  /-- GRRUN, R251: Starts a grammar run. -/
  | grrun
  /-- GREMIT, R250: Starts streaming the output rows of a finished grammar run. -/
  | gremit
  /-- GRDEPTH, R250: Sets the grammar depth limit. -/
  | grdepth
  /-- DRAFT, R252: Declares one burst interval. -/
  | draft
  /-- DRAFTX, R252: Declares a repeating burst. -/
  | draftx
  /-- AGSET, R181: Checks and snapshots a parameter block into a stream. -/
  | agset
  /-- AGRD, R181: Starts or resumes a read stream onto an owned output. -/
  | agrd
  /-- AGCH, R181: Starts a linked-node chase stream. -/
  | agch
  /-- AGWR, R181: Writes A at the stream's position. -/
  | agwr
  /-- AGGTH, R181: Gathers elements at given positions. -/
  | aggth
  /-- AGSCT, R181: Scatters elements at given positions. -/
  | agsct
  /-- AGSTOP, R181: Stops a running stream. -/
  | agstop
  /-- AGPOS, R181: Reads a stream's position or state. -/
  | agpos
  /-- WPRD, R181: Reads a write pointer of the core. -/
  | wprd
  /-- WCNT_BIND, R188: Binds an arrival counter to a completion tag and zeroes it. -/
  | wcntBind
  /-- WCNT, R188: Waits until an arrival counter reaches B and subtracts it. -/
  | wcnt
  /-- TARM, R190: Checks and snapshots a copy block into a template, optionally binding a queue. -/
  | tarm
  /-- TBIND, R190: Binds a template to a queue. -/
  | tbind
  /-- TMC, R190: Assigns or releases a template's SPACE output. -/
  | tmc
  deriving DecidableEq, Repr

/-- Every row of the opcode table: the triggered instructions, each with the fields of its word (R93), then the device's own steps and the host's writes, each with what it acts on. -/
inductive Instr where
  /-- NOP (R137). -/
  | nop (f : Fields)
  /-- MOV (R137). -/
  | mov (f : Fields)
  /-- EMIT (R138). -/
  | emit (f : Fields)
  /-- DROP (R137). -/
  | drop (f : Fields)
  /-- PSET (R139). -/
  | pset (f : Fields)
  /-- PCLR (R139). -/
  | pclr (f : Fields)
  /-- PLOG (R139). -/
  | plog (f : Fields)
  /-- CSET (R140). -/
  | cset (f : Fields)
  /-- CINC (R140). -/
  | cinc (f : Fields)
  /-- QPOST (R191). -/
  | qpost (f : Fields)
  /-- FENCE (R268). -/
  | fence (f : Fields)
  /-- TRAP (R279). -/
  | trap (f : Fields)
  /-- EVT (R279). -/
  | evt (f : Fields)
  /-- YIELD (R348). -/
  | yield (f : Fields)
  /-- SEL (R142). -/
  | sel (f : Fields)
  /-- STEER (R143). -/
  | steer (f : Fields)
  /-- MERGE (R144). -/
  | merge (f : Fields)
  /-- DUP (R145). -/
  | dup (f : Fields)
  /-- BARJ (R146). -/
  | barj (f : Fields)
  /-- PERM (R147). -/
  | perm (f : Fields)
  /-- REQ (R148). -/
  | req (f : Fields)
  /-- LPERM (R149). -/
  | lperm (f : Fields)
  /-- LROT (R149). -/
  | lrot (f : Fields)
  /-- LBC (R149). -/
  | lbc (f : Fields)
  /-- LINS (R149). -/
  | lins (f : Fields)
  /-- LEXT (R149). -/
  | lext (f : Fields)
  /-- TAGSET (R150). -/
  | tagset (f : Fields)
  /-- KINDP (R151). -/
  | kindp (f : Fields)
  /-- IADD (R153). -/
  | iadd (f : Fields)
  /-- ISUB (R153). -/
  | isub (f : Fields)
  /-- IMUL (R153). -/
  | imul (f : Fields)
  /-- IMULH (R153). -/
  | imulh (f : Fields)
  /-- IMAD (R153). -/
  | imad (f : Fields)
  /-- INEG (R153). -/
  | ineg (f : Fields)
  /-- IABS (R153). -/
  | iabs (f : Fields)
  /-- IMIN (R153). -/
  | imin (f : Fields)
  /-- IMAX (R153). -/
  | imax (f : Fields)
  /-- ICLAMP (R153). -/
  | iclamp (f : Fields)
  /-- IADDS (R153). -/
  | iadds (f : Fields)
  /-- ISUBS (R153). -/
  | isubs (f : Fields)
  /-- AND (R153). -/
  | and (f : Fields)
  /-- OR (R153). -/
  | or (f : Fields)
  /-- XOR (R153). -/
  | xor (f : Fields)
  /-- ANDN (R153). -/
  | andn (f : Fields)
  /-- NOT (R153). -/
  | not (f : Fields)
  /-- SHL (R153). -/
  | shl (f : Fields)
  /-- SHR (R153). -/
  | shr (f : Fields)
  /-- SAR (R153). -/
  | sar (f : Fields)
  /-- ROT (R153). -/
  | rot (f : Fields)
  /-- CLZ (R153). -/
  | clz (f : Fields)
  /-- POPC (R153). -/
  | popc (f : Fields)
  /-- BFX (R153). -/
  | bfx (f : Fields)
  /-- BFI (R153). -/
  | bfi (f : Fields)
  /-- SEXT (R153). -/
  | sext (f : Fields)
  /-- ICMP (R154). -/
  | icmp (f : Fields)
  /-- MOVA (R155). -/
  | mova (f : Fields)
  /-- ADDA (R155). -/
  | adda (f : Fields)
  /-- WRAPA (R155). -/
  | wrapa (f : Fields)
  /-- CMPA (R156). -/
  | cmpa (f : Fields)
  /-- PLANE (R157). -/
  | plane (f : Fields)
  /-- FADD (R215). -/
  | fadd (f : Fields)
  /-- FSUB (R215). -/
  | fsub (f : Fields)
  /-- FMUL (R215). -/
  | fmul (f : Fields)
  /-- FMA (R215). -/
  | fma (f : Fields)
  /-- FNEG (R215). -/
  | fneg (f : Fields)
  /-- FABS (R215). -/
  | fabs (f : Fields)
  /-- FMIN (R216). -/
  | fmin (f : Fields)
  /-- FMAX (R216). -/
  | fmax (f : Fields)
  /-- FCMP (R217). -/
  | fcmp (f : Fields)
  /-- FCLAMP (R216). -/
  | fclamp (f : Fields)
  /-- FSCL (R218). -/
  | fscl (f : Fields)
  /-- FXP (R218). -/
  | fxp (f : Fields)
  /-- FMANT (R218). -/
  | fmant (f : Fields)
  /-- FRND (R218). -/
  | frnd (f : Fields)
  /-- FRCP (R220). -/
  | frcp (f : Fields)
  /-- FRSQ (R220). -/
  | frsq (f : Fields)
  /-- FSQRT (R220). -/
  | fsqrt (f : Fields)
  /-- FEXP2 (R220). -/
  | fexp2 (f : Fields)
  /-- FLOG2 (R220). -/
  | flog2 (f : Fields)
  /-- FEXP (R220). -/
  | fexp (f : Fields)
  /-- FTANH (R220). -/
  | ftanh (f : Fields)
  /-- CVTIF (R221). -/
  | cvtif (f : Fields)
  /-- CVTFI (R221). -/
  | cvtfi (f : Fields)
  /-- QBLK (R222). -/
  | qblk (f : Fields)
  /-- DQBLK (R222). -/
  | dqblk (f : Fields)
  /-- FMTQ (R223). -/
  | fmtq (f : Fields)
  /-- RSUM (R224). -/
  | rsum (f : Fields)
  /-- RMAX (R224). -/
  | rmax (f : Fields)
  /-- RMIN (R224). -/
  | rmin (f : Fields)
  /-- RARGMX (R224). -/
  | rargmx (f : Fields)
  /-- SMUP (R226). -/
  | smup (f : Fields)
  /-- SMRG (R227). -/
  | smrg (f : Fields)
  /-- SMRG_ORD (R228). -/
  | smrgOrd (f : Fields)
  /-- SMFIN (R229). -/
  | smfin (f : Fields)
  /-- HASH (R230). -/
  | hash (f : Fields)
  /-- GUMB (R232). -/
  | gumb (f : Fields)
  /-- TOPKI (R233). -/
  | topki (f : Fields)
  /-- TKOUT (R234). -/
  | tkout (f : Fields)
  /-- ARGMC (R235). -/
  | argmc (f : Fields)
  /-- LD (R261). -/
  | ld (f : Fields)
  /-- ST (R261). -/
  | st (f : Fields)
  /-- LDX (R262). -/
  | ldx (f : Fields)
  /-- STX (R262). -/
  | stx (f : Fields)
  /-- LDCH (R263). -/
  | ldch (f : Fields)
  /-- LLS (R264). -/
  | lls (f : Fields)
  /-- SLS (R264). -/
  | sls (f : Fields)
  /-- LDF (R265). -/
  | ldf (f : Fields)
  /-- LDE (R265). -/
  | lde (f : Fields)
  /-- STF (R265). -/
  | stf (f : Fields)
  /-- STE (R265). -/
  | ste (f : Fields)
  /-- FEQ (R267). -/
  | feq (f : Fields)
  /-- FECLR (R267). -/
  | feclr (f : Fields)
  /-- GLD (R273). -/
  | gld (f : Fields)
  /-- GST (R273). -/
  | gst (f : Fields)
  /-- GATOM (R271). -/
  | gatom (f : Fields)
  /-- SATOM (R270). -/
  | satom (f : Fields)
  /-- FORK (R274). -/
  | fork (f : Fields)
  /-- RDV (R129). -/
  | rdv (f : Fields)
  /-- WAITWP (R275). -/
  | waitwp (f : Fields)
  /-- IMGSYNC (R276). -/
  | imgsync (f : Fields)
  /-- TSGET (R272). -/
  | tsget (f : Fields)
  /-- TSNEW (R272). -/
  | tsnew (f : Fields)
  /-- CSRR (R278). -/
  | csrr (f : Fields)
  /-- CSRW (R278). -/
  | csrw (f : Fields)
  /-- HALT (R280). -/
  | halt (f : Fields)
  /-- GUESS (R318). -/
  | guess (f : Fields)
  /-- RATIFY (R319). -/
  | ratify (f : Fields)
  /-- GENGET (R320). -/
  | genget (f : Fields)
  /-- SQREQ (R321). -/
  | sqreq (f : Fields)
  /-- DHPUSH (R322). -/
  | dhpush (f : Fields)
  /-- DHPUSH_CFG (R322). -/
  | dhpushCfg (f : Fields)
  /-- DHPUSH_JOIN (R322). -/
  | dhpushJoin (f : Fields)
  /-- KVROW_CFG (R328). -/
  | kvrowCfg (f : Fields)
  /-- KVROW_OPEN (R329). -/
  | kvrowOpen (f : Fields)
  /-- KVROW_PUT (R328). -/
  | kvrowPut (f : Fields)
  /-- MXCFG (R240). -/
  | mxcfg (f : Fields)
  /-- MXMODE (R238). -/
  | mxmode (f : Fields)
  /-- MXSCB (R241). -/
  | mxscb (f : Fields)
  /-- MXROW (R242). -/
  | mxrow (f : Fields)
  /-- MXACC (R246). -/
  | mxacc (f : Fields)
  /-- MXOUT (R241). -/
  | mxout (f : Fields)
  /-- MXZ (R241). -/
  | mxz (f : Fields)
  /-- MXCHK (R247). -/
  | mxchk (f : Fields)
  /-- GRLD (R250). -/
  | grld (f : Fields)
  /-- GRX (R250). -/
  | grx (f : Fields)
  /-- GRRUN (R251). -/
  | grrun (f : Fields)
  /-- GREMIT (R250). -/
  | gremit (f : Fields)
  /-- GRDEPTH (R250). -/
  | grdepth (f : Fields)
  /-- DRAFT (R252). -/
  | draft (f : Fields)
  /-- DRAFTX (R252). -/
  | draftx (f : Fields)
  /-- AGSET (R181). -/
  | agset (f : Fields)
  /-- AGRD (R181). -/
  | agrd (f : Fields)
  /-- AGCH (R181). -/
  | agch (f : Fields)
  /-- AGWR (R181). -/
  | agwr (f : Fields)
  /-- AGGTH (R181). -/
  | aggth (f : Fields)
  /-- AGSCT (R181). -/
  | agsct (f : Fields)
  /-- AGSTOP (R181). -/
  | agstop (f : Fields)
  /-- AGPOS (R181). -/
  | agpos (f : Fields)
  /-- WPRD (R181). -/
  | wprd (f : Fields)
  /-- WCNT_BIND (R188). -/
  | wcntBind (f : Fields)
  /-- WCNT (R188). -/
  | wcnt (f : Fields)
  /-- TARM (R190). -/
  | tarm (f : Fields)
  /-- TBIND (R190). -/
  | tbind (f : Fields)
  /-- TMC (R190). -/
  | tmc (f : Fields)
  /-- PACKET_FETCH (R57): A read of a packet slot completes; the seal and fields are checked and the packet is checked or rejected. -/
  | packetFetch (q : Fin 16)
  /-- SEAL_REREAD (R56): After 250 ns a relaxed-ordering fetch reads the slot again while the seal does not match. -/
  | sealReread (q : Fin 16)
  /-- ACCEPT_LAUNCH (R58): The arbiter accepts the next checked packet, assigning its LSEQ and creating its graph and phase. -/
  | acceptLaunch
  /-- RELEASE_LAUNCH (R58): The arbiter releases a launch whose awaits hold, stamps WMARK and sends the release record. -/
  | releaseLaunch
  /-- PLACE_LAUNCH (R69): A die applies a release record: checks WMARK, runs placement, claims regions and tags, or holds the launch. -/
  | placeLaunch (die : Fin 8)
  /-- APPLY_RETIREMENT_RECORD (R412): A die applies a retirement record: blocks leave, tags are freed, held launches are retried. -/
  | applyRetirementRecord (die : Fin 8)
  /-- APPLY_INVALIDATION (R89): A die applies an invalidation record, clearing its image cache. -/
  | applyInvalidation (die : Fin 8)
  /-- DAVAIL_CHANGE (R68): The kiln controller writes a new die-availability value to every die while release is held. -/
  | davailChange (v : BitVec 8)
  /-- THREAD_TOKEN_ENQUEUE (R34): The launch unit places a unit's thread token in the first block's entry queue when there is room. -/
  | threadTokenEnqueue (lseq : Nat)
  /-- CHOOSE_BLOCK (R75): At a choosing point the scheduler picks the block to hold the region. -/
  | chooseBlock (rid : Nat)
  /-- SHADOW_LOAD (R78): The setter finishes fetching and checking a tile image and writes its shadow; the last one arms the region or the load aborts. -/
  | shadowLoad (rid : Nat)
  /-- SWITCH (R80): A tile receives the SWITCH command and swaps block-wide. -/
  | switch (tile : Nat)
  /-- WAVEFRONT_SWAP (R82): A tile with swap tokens on every bound input of an armed region swaps and emits swap tokens. -/
  | wavefrontSwap (tile : Nat)
  /-- DEPTH_TOKEN (R88): A depth token reaches the head and the input's depth changes or DEPTH_POOL is reported. -/
  | depthToken (tile : Nat) (pool : Pool) (inp : Fin 4)
  /-- TOKEN_ARRIVE (R120): A token arrives at an input buffer, or a wire run is expanded into entries. -/
  | tokenArrive (ch : Nat)
  /-- CREDIT_RETURN (R121): A returned credit reaches a producer's output. -/
  | creditReturn (ch : Nat)
  /-- REQUEST_RETURN (R122): A pull request reaches a producer's output. -/
  | requestReturn (ch : Nat)
  /-- EPOCH_END (R118): After 1,024 cycles the occupancy arbiter computes the next epoch's shares. -/
  | epochEnd (tile : Nat) (pool : Pool)
  /-- UNIT_FINISH (R35): An END reaches the done sink and finishes the oldest unfinished unit or its generation's run. -/
  | unitFinish (lseq : Nat) (blk : Nat)
  /-- STREAM_BEAT (R182): A running stream delivers its next beat once a credit is free. -/
  | streamBeat (tile : Nat) (stream : Fin 4)
  /-- STREAM_WRITE (R183): A stream write of AGWR or AGSCT is performed element by element. -/
  | streamWrite (tile : Nat)
  /-- XLATE_REPLAY (R204): A held access walks again once a covering invalidation completes. -/
  | xlateReplay (hold : Nat)
  /-- XINV_COMPLETE (R203): The invalidation completes when no cache or stream holds the translation; BUSY clears. -/
  | xinvComplete
  /-- COPY_START (R192): A free copy engine takes the next queue's head token and runs the copy. -/
  | copyStart (core : Fin 64) (eng : Fin 4)
  /-- COPY_END (R192): A copy ends; its token leaves the queue and the next starts. -/
  | copyEnd (core : Fin 64) (eng : Fin 4)
  /-- BRANCH_COMPLETE (R194): A multicast branch completes and a SPACE token is sent when a credit allows. -/
  | branchComplete (core : Fin 64) (eng : Fin 4)
  /-- MEM_PERFORM (R258): A memory request is performed at its home and its place released. -/
  | memPerform (tile : Nat) (idx : Nat)
  /-- FE_WAKE (R266): A request waiting on full-empty bits proceeds when its condition holds. -/
  | feWake (tile : Nat) (idx : Nat)
  /-- STORE_ENTRY (R290): A task store enters the bisque buffers and aborts later readers of older values. -/
  | storeEntry (tile : Nat) (idx : Nat)
  /-- TASK_LOAD (R289): A task load returns the latest store in its lineage or the committed value and leaves a read mark. -/
  | taskLoad (tile : Nat) (idx : Nat)
  /-- UNIT_COMMIT (R293): The commit sequencer commits the next unit in task order, possibly retiring its launch. -/
  | unitCommit
  /-- ROOT_GUESS (R318): The root handles a GUESS request, squashing rivals and pushing a heap node. -/
  | rootGuess
  /-- ROOT_RATIFY (R319): The root handles a RATIFY request, confirming, squashing or queuing a relaunch. -/
  | rootRatify
  /-- ROOT_SQREQ (R321): The root squashes a named live generation. -/
  | rootSqreq
  /-- ROOT_DHPUSH (R322): The root handles a push, domain set-up or join request. -/
  | rootDhpush
  /-- LAUNCH_GENERATION (R315): The launch unit launches a relaunch or heap node under the lowest free tag and writes its ring record. -/
  | launchGeneration
  /-- MSG_LAUNCH (R324): An endpoint applies a LAUNCH message, ratifying at once when bit 16 is set. -/
  | msgLaunch (ep : Endpoint)
  /-- MSG_RATIFY (R324): An endpoint applies RATIFY, relabelling entries and rows and delivering held records. -/
  | msgRatify (ep : Endpoint)
  /-- MSG_SQUASH (R324): An endpoint applies SQUASH, dropping tokens, registers, requests, entries and rows of dead tags. -/
  | msgSquash (ep : Endpoint)
  /-- MSG_FREE (R324): An endpoint applies FREE, relabelling ratified tags to 0 or clearing dead ones. -/
  | msgFree (ep : Endpoint)
  /-- SQUASH_MARKER (R326): A marker arrives on a hop; the endpoint acknowledges once markers came on every hop. -/
  | squashMarker (ch : Nat)
  /-- FREE_COMPLETE (R326): Every endpoint has acknowledged a FREE and its tags become free. -/
  | freeComplete (seq : Nat)
  /-- KV_OPEN_PROCEED (R329): A waiting row open proceeds once its slot may be replaced. -/
  | kvOpenProceed (tile : Nat) (idx : Nat)
  /-- PASS_SERIAL_END (R239): A pass's serial phase ends and held bank writes are applied. -/
  | passSerialEnd (tile : Nat)
  /-- PASS_CHECK (R245): Block sums complete and are checked against the checksum columns. -/
  | passCheck (tile : Nat)
  /-- PASS_BEAT (R244): A pass sends its next result beat once its accumulator and a credit are present. -/
  | passBeat (tile : Nat)
  /-- MX_BUSY_END (R238): A checksum recomputation or zeroing ends and held writes are applied. -/
  | mxBusyEnd (tile : Nat)
  /-- SCRUB_END (R247): A scrub completes and its result lands. -/
  | scrubEnd (tile : Nat)
  /-- GRAMMAR_RUN_END (R251): A grammar run reaches its end word, or faults. -/
  | grammarRunEnd (tile : Nat)
  /-- GREMIT_BEAT (R250): A GREMIT stream sends its next row beat when a credit is free. -/
  | gremitBeat (tile : Nat)
  /-- QWC (R345): The quiet count reaches QWCW; QWC is raised with a snapshot. -/
  | qwc (rid : Nat)
  /-- PREEMPT_REQUEST (R347): A pre-emption request is made to a region. -/
  | preemptRequest (rid : Nat)
  /-- DRAIN_END (R349): After 256 quiet cycles the region is drained and its state is scanned into a frame. -/
  | drainEnd (rid : Nat)
  /-- YIELD_OVERRUN (R349): The yield bound expires and the region is saved by full scan. -/
  | yieldOverrun (rid : Nat)
  /-- RESTORE_BLOCK (R352): The scheduler chooses a saved block; it is reinstalled and its state scanned in. -/
  | restoreBlock (rid : Nat)
  /-- THERM_CRIT (R358): A sensor reaches the critical mark; the device saves everything and removes compute rails. -/
  | thermCrit (die : Fin 8) (temp : BitVec 8)
  /-- THERM_RESUME (R360): All sensors reach the resume mark; the device restores and resumes. -/
  | thermResume (back : RailsBack)
  /-- EVENT_WRITE (R63): The device writes a held event into a free ring entry and may raise an interrupt. -/
  | eventWrite
  /-- FLIT_RECEIVE (R373): A flit arrives and is accepted and decoded, or discarded with a retry request. -/
  | flitReceive (l : Nat) (dir : Bool) (ext : Option Flit) (tagOk : Bool)
  /-- RETRY_REQUEST (R373): A retry request arrives and the sender replays from ASEQ + 1. -/
  | retryRequest (l : Nat) (dir : Bool) (aseq : BitVec 16)
  /-- KEY_SWITCH (R401): After acknowledgement the transmitter switches key phase at a flit boundary. -/
  | keySwitch (l : Nat) (dir : Bool)
  /-- KEY_RETIRE (R401): An end retires the old key once the new phase is accepted. -/
  | keyRetire (l : Nat) (dir : Bool) (tx : Bool)
  /-- CLOCK_STEP (R386): Each µs the core moves its clock one setting toward REQ. -/
  | clockStep (c : Fin 64)
  /-- CONTROL_PERIOD (R388): Every 10 µs the kiln controller updates the reserve, throttle factor and alarm. -/
  | controlPeriod (p : Nat) (eb : Nat)
  /-- BALLAST_SLICE (R391): At each 32-cycle slice the core injects ballast up to the load floor. -/
  | ballastSlice (core : Fin 64)
  /-- DAMPER_WINDOW (R306): A damper window begins; waiting tokens are admitted and new limits take effect. -/
  | damperWindow (rid : Nat)
  /-- DIE_RESET (R402): A single-die reset saves and quarantines a die, then re-places and restores its work. -/
  | dieReset (v : Word) (host : Bool)
  /-- DIE_FAILED (R403): 100 ms after reset a die has not attested; held launches are cancelled. -/
  | dieFailed (chiplet : Fin 26)
  /-- FW_HANDOVER (R405): At a quiescent point the new firmware takes over. -/
  | fwHandover
  /-- TILE_FENCE (R408): A failing tile is fenced and a spare takes its coordinates. -/
  | tileFence (tile : Nat)
  /-- KEY_INSTALL (R401): A receiver accepts a next link key and acknowledges it. -/
  | keyInstall (l : Nat) (dir : Bool)
  /-- ROW_REPAIRED (R409): A base die repairs an HBM row. -/
  | rowRepaired (stack : Fin 16) (chan : Fin 32) (row : Nat)
  /-- HBM_SPARED (R409): A base die finishes copying a channel into the spare channel. -/
  | hbmSpared (stack : Fin 16) (chan : Fin 32)
  /-- HBM_EXHAUSTED (R409): A failure in a stack whose spare is in use. -/
  | hbmExhausted (stack : Fin 16) (chan : Fin 32)
  /-- FEAT_ACCEPT_WRITE (R48): Host writes accepted features; the register keeps the AND with the offer and flags a mismatch. -/
  | featAcceptWrite (f : Fin 4) (v : Word)
  /-- ENABLE (R49): Host writes DEV_CTL.ENABLE, locking features and opening the launch queues, or is refused. -/
  | enable (v : Word)
  /-- JOB_CREATE (R51): JOB_CTL create command makes a free job live with its priority and page-table root. -/
  | jobCreate (j : Fin 64) (v : Word)
  /-- JOB_TEARDOWN (R51): JOB_CTL tear-down command cancels the job and marks it tearing down. -/
  | jobTeardown (j : Fin 64) (v : Word)
  /-- LQ_CFG_WRITE (R52): Writing a queue's configuration while enabled resets its head and discards unfetched packets. -/
  | lqCfgWrite (q : Fin 16) (v : Word)
  /-- LQ_NOTIFY (R54): Notify word starts or extends the fetch of a queue's packets, or is dropped. -/
  | lqNotify (q : Fin 16) (v : Word) (port : Bool) (ro : Bool)
  /-- RESULT_COMPLETE (R115): An instruction's result completes into its register, predicate or output after its latency. -/
  | resultComplete (tile : Nat) (pool : Pool) (idx : Nat)
  /-- XINV (R203): Host writes a translation invalidation. -/
  | xinv (v : Word)
  /-- QWC_ACK (R353): Host frees snapshot slots. -/
  | qwcAck (v : Word)
  /-- JOB_SUSPEND (R353): JOB_SUSP suspend command stops release and requests pre-emption of the job's regions. -/
  | jobSuspend (v : Word)
  /-- JOB_RESUME (R353): JOB_SUSP resume command lets the job's launches be released and chosen again. -/
  | jobResume (v : Word)
  /-- SOFT_CE (R356): A corrected error is rewritten and counted. -/
  | softCe (site : CeSite)
  /-- SOFT_UE (R356): An uncorrectable error poisons its word or value. -/
  | softUe (site : UeSite)
  /-- EVQ_HEAD_WRITE (R63): Host advances the event head, freeing entries and re-arming the interrupt. -/
  | evqHeadWrite (v : Word)
  /-- CANCEL_LAUNCH (R415): CANCEL at launch level cancels one launch. -/
  | cancelLaunch (v : Word)
  /-- CANCEL_GRAPH (R415): CANCEL at graph level cancels a graph. -/
  | cancelGraph (v : Word)
  /-- CANCEL_PHASE (R415): CANCEL at phase level cancels a phase. -/
  | cancelPhase (v : Word)
  /-- CANCEL_JOB (R414): CANCEL at job level tears the job down. -/
  | cancelJob (v : Word)
  /-- LINK_RETRAIN (R373): Eight failed attempts retrain the link, sparing lanes as needed. -/
  | linkRetrain (l : Nat) (dir : Bool) (bad : List Nat) (ok : Bool)
  /-- XMAP_WRITE (R375): Host writes an XMAP entry, checked and possibly ignored; invalidation discards stored tokens. -/
  | xmapWrite (e : Fin 1024) (hi : Bool) (v : Word)
  /-- CXL_DOWN (R384): A CXL port goes down. -/
  | cxlDown (p : Fin 8)
  /-- BAR2_READ (R383): Host reads device memory through BAR2 as committed. -/
  | bar2Read (off : Nat)
  /-- BAR2_WRITE (R383): Host writes device memory through BAR2. -/
  | bar2Write (off : Nat) (bytes : List Byte)
  /-- CLK_CTL_WRITE (R386): Host requests a core clock. -/
  | clkCtlWrite (c : Fin 64) (v : Word)
  /-- COLD_RESET (R397): Cold start measures, attests and keys the chiplets. -/
  | coldReset (attest : BitVec 26) (fwOk : Bool)
  /-- SPDM_REQUEST (R395): An SPDM request message is taken and answered or refused. -/
  | spdmRequest (msg : SpdmMsg)
  /-- ALARM_A (R404): A class-A alarm erases keys and halts every chiplet. -/
  | alarmA (src : Fin 3)
  /-- ALARM_B (R404): A class-B alarm quarantines the offending chiplet. -/
  | alarmB (chiplet : Fin 26) (idx : Fin 16)
  /-- DIE_ATTESTED (R403): A reset die re-attests and re-enters DAVAIL. -/
  | dieAttested (chiplet : Fin 26)
  /-- FW_GO (R405): Host writes FW_CTL.GO and the kiln controller verifies the staged image. -/
  | fwGo (v : Word) (check : FwCheck)
  /-- FW_DONE (R405): The image is written to flash and the result is reported. -/
  | fwDone (flashOk : Bool)
  /-- FW_RECOVERY (R406): The recovery loader boots when the flash image fails verification. -/
  | fwRecovery
  /-- REGISTER_WRITE (R48): A host write to a register with no behaviour of its own. -/
  | registerWrite (off : Nat) (v : Word)
  /-- LINK_UP (R381): A link that went down comes back up and restarts from reset, with FSEQ 0, fresh exponent tables and no flit to replay. -/
  | linkUp (l : Nat)
  /-- CXL_PORT_RETURN (R384): A CXL port that was down returns, and L2 writes back the dirty lines of its window that it kept. -/
  | cxlPortReturn (p : Fin 8)
  /-- FUNCTION_RESET (R49): A function reset clears DEV_CTL.ENABLE and ends the accepted features, returning the device to the pre-ENABLE state. -/
  | functionReset
  deriving DecidableEq, Repr

/-- The triggered instruction of an opcode with the fields of its word. -/
def Op.mk : Op → Fields → Instr
  | .nop, f => .nop f
  | .mov, f => .mov f
  | .emit, f => .emit f
  | .drop, f => .drop f
  | .pset, f => .pset f
  | .pclr, f => .pclr f
  | .plog, f => .plog f
  | .cset, f => .cset f
  | .cinc, f => .cinc f
  | .qpost, f => .qpost f
  | .fence, f => .fence f
  | .trap, f => .trap f
  | .evt, f => .evt f
  | .yield, f => .yield f
  | .sel, f => .sel f
  | .steer, f => .steer f
  | .merge, f => .merge f
  | .dup, f => .dup f
  | .barj, f => .barj f
  | .perm, f => .perm f
  | .req, f => .req f
  | .lperm, f => .lperm f
  | .lrot, f => .lrot f
  | .lbc, f => .lbc f
  | .lins, f => .lins f
  | .lext, f => .lext f
  | .tagset, f => .tagset f
  | .kindp, f => .kindp f
  | .iadd, f => .iadd f
  | .isub, f => .isub f
  | .imul, f => .imul f
  | .imulh, f => .imulh f
  | .imad, f => .imad f
  | .ineg, f => .ineg f
  | .iabs, f => .iabs f
  | .imin, f => .imin f
  | .imax, f => .imax f
  | .iclamp, f => .iclamp f
  | .iadds, f => .iadds f
  | .isubs, f => .isubs f
  | .and, f => .and f
  | .or, f => .or f
  | .xor, f => .xor f
  | .andn, f => .andn f
  | .not, f => .not f
  | .shl, f => .shl f
  | .shr, f => .shr f
  | .sar, f => .sar f
  | .rot, f => .rot f
  | .clz, f => .clz f
  | .popc, f => .popc f
  | .bfx, f => .bfx f
  | .bfi, f => .bfi f
  | .sext, f => .sext f
  | .icmp, f => .icmp f
  | .mova, f => .mova f
  | .adda, f => .adda f
  | .wrapa, f => .wrapa f
  | .cmpa, f => .cmpa f
  | .plane, f => .plane f
  | .fadd, f => .fadd f
  | .fsub, f => .fsub f
  | .fmul, f => .fmul f
  | .fma, f => .fma f
  | .fneg, f => .fneg f
  | .fabs, f => .fabs f
  | .fmin, f => .fmin f
  | .fmax, f => .fmax f
  | .fcmp, f => .fcmp f
  | .fclamp, f => .fclamp f
  | .fscl, f => .fscl f
  | .fxp, f => .fxp f
  | .fmant, f => .fmant f
  | .frnd, f => .frnd f
  | .frcp, f => .frcp f
  | .frsq, f => .frsq f
  | .fsqrt, f => .fsqrt f
  | .fexp2, f => .fexp2 f
  | .flog2, f => .flog2 f
  | .fexp, f => .fexp f
  | .ftanh, f => .ftanh f
  | .cvtif, f => .cvtif f
  | .cvtfi, f => .cvtfi f
  | .qblk, f => .qblk f
  | .dqblk, f => .dqblk f
  | .fmtq, f => .fmtq f
  | .rsum, f => .rsum f
  | .rmax, f => .rmax f
  | .rmin, f => .rmin f
  | .rargmx, f => .rargmx f
  | .smup, f => .smup f
  | .smrg, f => .smrg f
  | .smrgOrd, f => .smrgOrd f
  | .smfin, f => .smfin f
  | .hash, f => .hash f
  | .gumb, f => .gumb f
  | .topki, f => .topki f
  | .tkout, f => .tkout f
  | .argmc, f => .argmc f
  | .ld, f => .ld f
  | .st, f => .st f
  | .ldx, f => .ldx f
  | .stx, f => .stx f
  | .ldch, f => .ldch f
  | .lls, f => .lls f
  | .sls, f => .sls f
  | .ldf, f => .ldf f
  | .lde, f => .lde f
  | .stf, f => .stf f
  | .ste, f => .ste f
  | .feq, f => .feq f
  | .feclr, f => .feclr f
  | .gld, f => .gld f
  | .gst, f => .gst f
  | .gatom, f => .gatom f
  | .satom, f => .satom f
  | .fork, f => .fork f
  | .rdv, f => .rdv f
  | .waitwp, f => .waitwp f
  | .imgsync, f => .imgsync f
  | .tsget, f => .tsget f
  | .tsnew, f => .tsnew f
  | .csrr, f => .csrr f
  | .csrw, f => .csrw f
  | .halt, f => .halt f
  | .guess, f => .guess f
  | .ratify, f => .ratify f
  | .genget, f => .genget f
  | .sqreq, f => .sqreq f
  | .dhpush, f => .dhpush f
  | .dhpushCfg, f => .dhpushCfg f
  | .dhpushJoin, f => .dhpushJoin f
  | .kvrowCfg, f => .kvrowCfg f
  | .kvrowOpen, f => .kvrowOpen f
  | .kvrowPut, f => .kvrowPut f
  | .mxcfg, f => .mxcfg f
  | .mxmode, f => .mxmode f
  | .mxscb, f => .mxscb f
  | .mxrow, f => .mxrow f
  | .mxacc, f => .mxacc f
  | .mxout, f => .mxout f
  | .mxz, f => .mxz f
  | .mxchk, f => .mxchk f
  | .grld, f => .grld f
  | .grx, f => .grx f
  | .grrun, f => .grrun f
  | .gremit, f => .gremit f
  | .grdepth, f => .grdepth f
  | .draft, f => .draft f
  | .draftx, f => .draftx f
  | .agset, f => .agset f
  | .agrd, f => .agrd f
  | .agch, f => .agch f
  | .agwr, f => .agwr f
  | .aggth, f => .aggth f
  | .agsct, f => .agsct f
  | .agstop, f => .agstop f
  | .agpos, f => .agpos f
  | .wprd, f => .wprd f
  | .wcntBind, f => .wcntBind f
  | .wcnt, f => .wcnt f
  | .tarm, f => .tarm f
  | .tbind, f => .tbind f
  | .tmc, f => .tmc f

/-- The opcode and fields of a triggered instruction; none for a step of the device. -/
def Instr.op? : Instr → Option (Op × Fields)
  | .nop f => some (.nop, f)
  | .mov f => some (.mov, f)
  | .emit f => some (.emit, f)
  | .drop f => some (.drop, f)
  | .pset f => some (.pset, f)
  | .pclr f => some (.pclr, f)
  | .plog f => some (.plog, f)
  | .cset f => some (.cset, f)
  | .cinc f => some (.cinc, f)
  | .qpost f => some (.qpost, f)
  | .fence f => some (.fence, f)
  | .trap f => some (.trap, f)
  | .evt f => some (.evt, f)
  | .yield f => some (.yield, f)
  | .sel f => some (.sel, f)
  | .steer f => some (.steer, f)
  | .merge f => some (.merge, f)
  | .dup f => some (.dup, f)
  | .barj f => some (.barj, f)
  | .perm f => some (.perm, f)
  | .req f => some (.req, f)
  | .lperm f => some (.lperm, f)
  | .lrot f => some (.lrot, f)
  | .lbc f => some (.lbc, f)
  | .lins f => some (.lins, f)
  | .lext f => some (.lext, f)
  | .tagset f => some (.tagset, f)
  | .kindp f => some (.kindp, f)
  | .iadd f => some (.iadd, f)
  | .isub f => some (.isub, f)
  | .imul f => some (.imul, f)
  | .imulh f => some (.imulh, f)
  | .imad f => some (.imad, f)
  | .ineg f => some (.ineg, f)
  | .iabs f => some (.iabs, f)
  | .imin f => some (.imin, f)
  | .imax f => some (.imax, f)
  | .iclamp f => some (.iclamp, f)
  | .iadds f => some (.iadds, f)
  | .isubs f => some (.isubs, f)
  | .and f => some (.and, f)
  | .or f => some (.or, f)
  | .xor f => some (.xor, f)
  | .andn f => some (.andn, f)
  | .not f => some (.not, f)
  | .shl f => some (.shl, f)
  | .shr f => some (.shr, f)
  | .sar f => some (.sar, f)
  | .rot f => some (.rot, f)
  | .clz f => some (.clz, f)
  | .popc f => some (.popc, f)
  | .bfx f => some (.bfx, f)
  | .bfi f => some (.bfi, f)
  | .sext f => some (.sext, f)
  | .icmp f => some (.icmp, f)
  | .mova f => some (.mova, f)
  | .adda f => some (.adda, f)
  | .wrapa f => some (.wrapa, f)
  | .cmpa f => some (.cmpa, f)
  | .plane f => some (.plane, f)
  | .fadd f => some (.fadd, f)
  | .fsub f => some (.fsub, f)
  | .fmul f => some (.fmul, f)
  | .fma f => some (.fma, f)
  | .fneg f => some (.fneg, f)
  | .fabs f => some (.fabs, f)
  | .fmin f => some (.fmin, f)
  | .fmax f => some (.fmax, f)
  | .fcmp f => some (.fcmp, f)
  | .fclamp f => some (.fclamp, f)
  | .fscl f => some (.fscl, f)
  | .fxp f => some (.fxp, f)
  | .fmant f => some (.fmant, f)
  | .frnd f => some (.frnd, f)
  | .frcp f => some (.frcp, f)
  | .frsq f => some (.frsq, f)
  | .fsqrt f => some (.fsqrt, f)
  | .fexp2 f => some (.fexp2, f)
  | .flog2 f => some (.flog2, f)
  | .fexp f => some (.fexp, f)
  | .ftanh f => some (.ftanh, f)
  | .cvtif f => some (.cvtif, f)
  | .cvtfi f => some (.cvtfi, f)
  | .qblk f => some (.qblk, f)
  | .dqblk f => some (.dqblk, f)
  | .fmtq f => some (.fmtq, f)
  | .rsum f => some (.rsum, f)
  | .rmax f => some (.rmax, f)
  | .rmin f => some (.rmin, f)
  | .rargmx f => some (.rargmx, f)
  | .smup f => some (.smup, f)
  | .smrg f => some (.smrg, f)
  | .smrgOrd f => some (.smrgOrd, f)
  | .smfin f => some (.smfin, f)
  | .hash f => some (.hash, f)
  | .gumb f => some (.gumb, f)
  | .topki f => some (.topki, f)
  | .tkout f => some (.tkout, f)
  | .argmc f => some (.argmc, f)
  | .ld f => some (.ld, f)
  | .st f => some (.st, f)
  | .ldx f => some (.ldx, f)
  | .stx f => some (.stx, f)
  | .ldch f => some (.ldch, f)
  | .lls f => some (.lls, f)
  | .sls f => some (.sls, f)
  | .ldf f => some (.ldf, f)
  | .lde f => some (.lde, f)
  | .stf f => some (.stf, f)
  | .ste f => some (.ste, f)
  | .feq f => some (.feq, f)
  | .feclr f => some (.feclr, f)
  | .gld f => some (.gld, f)
  | .gst f => some (.gst, f)
  | .gatom f => some (.gatom, f)
  | .satom f => some (.satom, f)
  | .fork f => some (.fork, f)
  | .rdv f => some (.rdv, f)
  | .waitwp f => some (.waitwp, f)
  | .imgsync f => some (.imgsync, f)
  | .tsget f => some (.tsget, f)
  | .tsnew f => some (.tsnew, f)
  | .csrr f => some (.csrr, f)
  | .csrw f => some (.csrw, f)
  | .halt f => some (.halt, f)
  | .guess f => some (.guess, f)
  | .ratify f => some (.ratify, f)
  | .genget f => some (.genget, f)
  | .sqreq f => some (.sqreq, f)
  | .dhpush f => some (.dhpush, f)
  | .dhpushCfg f => some (.dhpushCfg, f)
  | .dhpushJoin f => some (.dhpushJoin, f)
  | .kvrowCfg f => some (.kvrowCfg, f)
  | .kvrowOpen f => some (.kvrowOpen, f)
  | .kvrowPut f => some (.kvrowPut, f)
  | .mxcfg f => some (.mxcfg, f)
  | .mxmode f => some (.mxmode, f)
  | .mxscb f => some (.mxscb, f)
  | .mxrow f => some (.mxrow, f)
  | .mxacc f => some (.mxacc, f)
  | .mxout f => some (.mxout, f)
  | .mxz f => some (.mxz, f)
  | .mxchk f => some (.mxchk, f)
  | .grld f => some (.grld, f)
  | .grx f => some (.grx, f)
  | .grrun f => some (.grrun, f)
  | .gremit f => some (.gremit, f)
  | .grdepth f => some (.grdepth, f)
  | .draft f => some (.draft, f)
  | .draftx f => some (.draftx, f)
  | .agset f => some (.agset, f)
  | .agrd f => some (.agrd, f)
  | .agch f => some (.agch, f)
  | .agwr f => some (.agwr, f)
  | .aggth f => some (.aggth, f)
  | .agsct f => some (.agsct, f)
  | .agstop f => some (.agstop, f)
  | .agpos f => some (.agpos, f)
  | .wprd f => some (.wprd, f)
  | .wcntBind f => some (.wcntBind, f)
  | .wcnt f => some (.wcnt, f)
  | .tarm f => some (.tarm, f)
  | .tbind f => some (.tbind, f)
  | .tmc f => some (.tmc, f)
  | _ => none

end Sys2Proof
end

