-- ==== Sys2Proof/Machine/Encoding.lean ====
section
/-! DEFINITION. Which words are instructions: the opcode maps (R107 to R110), the operand shapes (R106), the defined
MD values (R96) and the checks of R111 on one word. Each check has a name, in R111's order. The check of R111 item 11,
which needs the pool's binding word, stands in the setter (Machine/Setter.lean). -/

namespace Sys2Proof

/-- Why a slot word is not an instruction: the items of R111. -/
inductive Reject where
  /-- item 1 -/
  | unassigned
  /-- item 2 -/
  | pvWithoutPm
  /-- item 3 -/
  | unusedTestOrUpdate
  /-- item 4 -/
  | testsSwitch
  /-- item 5 -/
  | neverAdmitted
  /-- item 6 -/
  | illegalDestination
  /-- item 7 -/
  | shape
  /-- item 8 -/
  | unusedField
  /-- item 9 -/
  | narrowPool
  /-- item 10 -/
  | conflict
  /-- item 11 -/
  | unbound
  /-- item 12 -/
  | modifier
  deriving DecidableEq, Repr

/-- The operand shapes of R106. -/
inductive Shape where
  | a | b | c | d | e | f | g | h | i | j | k | l | m | n | q | s | t
  deriving DecidableEq, Repr

/-- A D of class data: `vN`, `^vN`, `oN` or `_` (R106). -/
def Dst.isData : Dst → Bool
  | .wr _ => true
  | .put _ => true
  | .out _ => true
  | .none => true
  | _ => false

/-- D names a predicate. -/
def Dst.isPred : Dst → Bool
  | .pred _ => true
  | _ => false

/-- D names an output. -/
def Dst.isOut : Dst → Bool
  | .out _ => true
  | _ => false

/-- D writes a v register by a plain write. -/
def Dst.isWr : Dst → Bool
  | .wr _ => true
  | _ => false

/-- D writes a v register by a write or a put. -/
def Dst.isV : Dst → Bool
  | .wr _ => true
  | .put _ => true
  | _ => false

/-- D names an a register. -/
def Dst.isA : Dst → Bool
  | .areg _ => true
  | _ => false

/-- The source is an immediate. -/
def Src.isImm : Src → Bool
  | .imm _ => true
  | _ => false

/-- The source consumes an input. -/
def Src.isInp : Src → Bool
  | .inp _ => true
  | _ => false

/-- The source names an a register. -/
def Src.isA : Src → Bool
  | .areg _ => true
  | _ => false

/-- The input a source consumes or peeks. -/
def Src.input? : Src → Option (Fin 4)
  | .inp c => some c
  | .peek c => some c
  | _ => .none

/-- The input a source consumes. -/
def Src.consumes? : Src → Option (Fin 4)
  | .inp c => some c
  | _ => .none

/-- The v register a source reads or takes. -/
def Src.vreg? : Src → Option (Fin 16)
  | .rd n => some n
  | .take n => some n
  | _ => .none

/-- An unused source field holds 0b111000, the code of `#0` (R100). -/
def Src.unused (s : Src) : Bool := s == .imm 0

/-- An unused D holds 0b111000, the code of discard (R100). -/
def Dst.unused (d : Dst) : Bool := d == .none

/-- The classes each field may hold (R106), unused fields left to `shapeUnused`. -/
def shapeClasses (sh : Shape) (d : Dst) (a b : Src) : Bool :=
  match sh with
  | .a => d.isData
  | .b => d.isData
  | .c => d.isWr
  | .d => d.isData || d.isPred
  | .e => true
  | .f => true
  | .g => true
  | .h => d.isA
  | .i => d.isA
  | .j => d.isPred && a.isImm && b.isImm
  | .k => d.isPred
  | .l => d.isOut
  | .m => d.isOut
  | .n => a.isInp
  | .q => d.isPred && a.input?.isSome
  | .s => d.isData && a.isInp && b.isInp
  | .t => d.isPred

/-- The fields a shape leaves unused hold 0b111000 (R100, R106). -/
def shapeUnused (sh : Shape) (d : Dst) (a b : Src) : Bool :=
  match sh with
  | .a => true
  | .b => b.unused
  | .c => true
  | .d => true
  | .e => d.unused && a.unused && b.unused
  | .f => d.unused
  | .g => d.unused && b.unused
  | .h => true
  | .i => b.unused
  | .j => true
  | .k => a.unused && b.unused
  | .l => true
  | .m => b.unused
  | .n => d.unused && b.unused
  | .q => b.unused
  | .s => true
  | .t => true

/-- The operand shape of each opcode (R107 to R110). -/
def Op.shape : Op → Shape
  | .nop => .e
  | .mov => .b
  | .emit => .b
  | .drop => .n
  | .pset => .k
  | .pclr => .k
  | .plog => .j
  | .cset => .g
  | .cinc => .d
  | .qpost => .f
  | .fence => .e
  | .trap => .g
  | .evt => .f
  | .yield => .e
  | .sel => .a
  | .steer => .l
  | .merge => .s
  | .dup => .m
  | .barj => .e
  | .perm => .n
  | .req => .g
  | .lperm => .a
  | .lrot => .a
  | .lbc => .a
  | .lins => .c
  | .lext => .a
  | .tagset => .a
  | .kindp => .q
  | .iadd => .a
  | .isub => .a
  | .imul => .a
  | .imulh => .a
  | .imad => .c
  | .ineg => .b
  | .iabs => .b
  | .imin => .a
  | .imax => .a
  | .iclamp => .c
  | .iadds => .a
  | .isubs => .a
  | .and => .a
  | .or => .a
  | .xor => .a
  | .andn => .a
  | .not => .b
  | .shl => .a
  | .shr => .a
  | .sar => .a
  | .rot => .a
  | .clz => .b
  | .popc => .b
  | .bfx => .a
  | .bfi => .c
  | .sext => .a
  | .icmp => .d
  | .mova => .i
  | .adda => .h
  | .wrapa => .h
  | .cmpa => .d
  | .plane => .t
  | .fadd => .a
  | .fsub => .a
  | .fmul => .a
  | .fma => .c
  | .fneg => .b
  | .fabs => .b
  | .fmin => .a
  | .fmax => .a
  | .fcmp => .d
  | .fclamp => .c
  | .fscl => .a
  | .fxp => .b
  | .fmant => .b
  | .frnd => .b
  | .frcp => .b
  | .frsq => .b
  | .fsqrt => .b
  | .fexp2 => .b
  | .flog2 => .b
  | .fexp => .b
  | .ftanh => .b
  | .cvtif => .b
  | .cvtfi => .b
  | .qblk => .b
  | .dqblk => .b
  | .fmtq => .b
  | .rsum => .b
  | .rmax => .b
  | .rmin => .b
  | .rargmx => .b
  | .smup => .c
  | .smrg => .c
  | .smrgOrd => .c
  | .smfin => .b
  | .hash => .a
  | .gumb => .a
  | .topki => .c
  | .tkout => .b
  | .argmc => .a
  | .ld => .a
  | .st => .f
  | .ldx => .a
  | .stx => .f
  | .ldch => .a
  | .lls => .a
  | .sls => .f
  | .ldf => .a
  | .lde => .a
  | .stf => .f
  | .ste => .f
  | .feq => .d
  | .feclr => .f
  | .gld => .a
  | .gst => .f
  | .gatom => .a
  | .satom => .a
  | .fork => .g
  | .rdv => .e
  | .waitwp => .f
  | .imgsync => .e
  | .tsget => .b
  | .tsnew => .a
  | .csrr => .b
  | .csrw => .f
  | .halt => .e
  | .guess => .f
  | .ratify => .f
  | .genget => .b
  | .sqreq => .g
  | .dhpush => .f
  | .dhpushCfg => .f
  | .dhpushJoin => .f
  | .kvrowCfg => .f
  | .kvrowOpen => .f
  | .kvrowPut => .f
  | .mxcfg => .f
  | .mxmode => .g
  | .mxscb => .f
  | .mxrow => .a
  | .mxacc => .c
  | .mxout => .b
  | .mxz => .e
  | .mxchk => .d
  | .grld => .f
  | .grx => .a
  | .grrun => .a
  | .gremit => .b
  | .grdepth => .g
  | .draft => .f
  | .draftx => .f
  | .agset => .f
  | .agrd => .a
  | .agch => .a
  | .agwr => .f
  | .aggth => .a
  | .agsct => .f
  | .agstop => .g
  | .agpos => .b
  | .wprd => .b
  | .wcntBind => .d
  | .wcnt => .d
  | .tarm => .f
  | .tbind => .f
  | .tmc => .f

/-- The opcode number (R107 to R110). -/
def Op.code : Op → Nat
  | .nop => 0x00
  | .mov => 0x01
  | .emit => 0x02
  | .drop => 0x03
  | .pset => 0x04
  | .pclr => 0x05
  | .plog => 0x06
  | .cset => 0x08
  | .cinc => 0x09
  | .qpost => 0x0A
  | .fence => 0x0B
  | .trap => 0x0C
  | .evt => 0x0D
  | .yield => 0x0E
  | .sel => 0x20
  | .steer => 0x21
  | .merge => 0x22
  | .dup => 0x23
  | .barj => 0x24
  | .perm => 0x25
  | .req => 0x26
  | .lperm => 0x28
  | .lrot => 0x29
  | .lbc => 0x2A
  | .lins => 0x2B
  | .lext => 0x2C
  | .tagset => 0x30
  | .kindp => 0x31
  | .iadd => 0x40
  | .isub => 0x41
  | .imul => 0x42
  | .imulh => 0x43
  | .imad => 0x44
  | .ineg => 0x45
  | .iabs => 0x46
  | .imin => 0x47
  | .imax => 0x48
  | .iclamp => 0x49
  | .iadds => 0x4A
  | .isubs => 0x4B
  | .and => 0x4C
  | .or => 0x4D
  | .xor => 0x4E
  | .andn => 0x4F
  | .not => 0x50
  | .shl => 0x51
  | .shr => 0x52
  | .sar => 0x53
  | .rot => 0x54
  | .clz => 0x55
  | .popc => 0x56
  | .bfx => 0x57
  | .bfi => 0x58
  | .sext => 0x59
  | .icmp => 0x5A
  | .mova => 0x60
  | .adda => 0x61
  | .wrapa => 0x62
  | .cmpa => 0x63
  | .plane => 0x64
  | .fadd => 0x70
  | .fsub => 0x71
  | .fmul => 0x72
  | .fma => 0x73
  | .fneg => 0x74
  | .fabs => 0x75
  | .fmin => 0x76
  | .fmax => 0x77
  | .fcmp => 0x78
  | .fclamp => 0x79
  | .fscl => 0x7A
  | .fxp => 0x7B
  | .fmant => 0x7C
  | .frnd => 0x7D
  | .frcp => 0x80
  | .frsq => 0x81
  | .fsqrt => 0x82
  | .fexp2 => 0x83
  | .flog2 => 0x84
  | .fexp => 0x85
  | .ftanh => 0x86
  | .cvtif => 0x88
  | .cvtfi => 0x89
  | .qblk => 0x8A
  | .dqblk => 0x8B
  | .fmtq => 0x8C
  | .rsum => 0x90
  | .rmax => 0x91
  | .rmin => 0x92
  | .rargmx => 0x93
  | .smup => 0x94
  | .smrg => 0x95
  | .smrgOrd => 0x95
  | .smfin => 0x96
  | .hash => 0x98
  | .gumb => 0x99
  | .topki => 0x9A
  | .tkout => 0x9B
  | .argmc => 0x9C
  | .ld => 0xA0
  | .st => 0xA1
  | .ldx => 0xA2
  | .stx => 0xA3
  | .ldch => 0xA4
  | .lls => 0xA5
  | .sls => 0xA6
  | .ldf => 0xA8
  | .lde => 0xA9
  | .stf => 0xAA
  | .ste => 0xAB
  | .feq => 0xAC
  | .feclr => 0xAD
  | .gld => 0xB0
  | .gst => 0xB1
  | .gatom => 0xB2
  | .satom => 0xB4
  | .fork => 0xC0
  | .rdv => 0xC1
  | .waitwp => 0xC2
  | .imgsync => 0xC4
  | .tsget => 0xC5
  | .tsnew => 0xC6
  | .csrr => 0xC8
  | .csrw => 0xC9
  | .halt => 0xCF
  | .guess => 0xD0
  | .ratify => 0xD1
  | .genget => 0xD2
  | .sqreq => 0xD3
  | .dhpush => 0xD4
  | .dhpushCfg => 0xD4
  | .dhpushJoin => 0xD4
  | .kvrowCfg => 0xD5
  | .kvrowOpen => 0xD5
  | .kvrowPut => 0xD5
  | .mxcfg => 0x20
  | .mxmode => 0x21
  | .mxscb => 0x22
  | .mxrow => 0x23
  | .mxacc => 0x24
  | .mxout => 0x25
  | .mxz => 0x26
  | .mxchk => 0x27
  | .grld => 0x40
  | .grx => 0x41
  | .grrun => 0x42
  | .gremit => 0x43
  | .grdepth => 0x44
  | .draft => 0x50
  | .draftx => 0x51
  | .agset => 0x20
  | .agrd => 0x21
  | .agch => 0x25
  | .agwr => 0x22
  | .aggth => 0x23
  | .agsct => 0x24
  | .agstop => 0x32
  | .agpos => 0x33
  | .wprd => 0x30
  | .wcntBind => 0x31
  | .wcnt => 0x31
  | .tarm => 0x28
  | .tbind => 0x29
  | .tmc => 0x2A

/-- The pools whose map assigns the opcode (R107 to R110). -/
def Op.pools : Op → List Pool
  | .nop => [.pe, .mx, .ag]
  | .mov => [.pe, .mx, .ag]
  | .emit => [.pe, .mx, .ag]
  | .drop => [.pe, .mx, .ag]
  | .pset => [.pe, .mx, .ag]
  | .pclr => [.pe, .mx, .ag]
  | .plog => [.pe, .mx, .ag]
  | .cset => [.pe, .mx, .ag]
  | .cinc => [.pe, .mx, .ag]
  | .qpost => [.pe, .mx, .ag]
  | .fence => [.pe, .mx, .ag]
  | .trap => [.pe, .mx, .ag]
  | .evt => [.pe, .mx, .ag]
  | .yield => [.pe, .mx, .ag]
  | .sel => [.pe]
  | .steer => [.pe]
  | .merge => [.pe]
  | .dup => [.pe]
  | .barj => [.pe]
  | .perm => [.pe]
  | .req => [.pe]
  | .lperm => [.pe]
  | .lrot => [.pe]
  | .lbc => [.pe]
  | .lins => [.pe]
  | .lext => [.pe]
  | .tagset => [.pe]
  | .kindp => [.pe]
  | .iadd => [.pe]
  | .isub => [.pe]
  | .imul => [.pe]
  | .imulh => [.pe]
  | .imad => [.pe]
  | .ineg => [.pe]
  | .iabs => [.pe]
  | .imin => [.pe]
  | .imax => [.pe]
  | .iclamp => [.pe]
  | .iadds => [.pe]
  | .isubs => [.pe]
  | .and => [.pe]
  | .or => [.pe]
  | .xor => [.pe]
  | .andn => [.pe]
  | .not => [.pe]
  | .shl => [.pe]
  | .shr => [.pe]
  | .sar => [.pe]
  | .rot => [.pe]
  | .clz => [.pe]
  | .popc => [.pe]
  | .bfx => [.pe]
  | .bfi => [.pe]
  | .sext => [.pe]
  | .icmp => [.pe]
  | .mova => [.pe]
  | .adda => [.pe]
  | .wrapa => [.pe]
  | .cmpa => [.pe]
  | .plane => [.pe]
  | .fadd => [.pe]
  | .fsub => [.pe]
  | .fmul => [.pe]
  | .fma => [.pe]
  | .fneg => [.pe]
  | .fabs => [.pe]
  | .fmin => [.pe]
  | .fmax => [.pe]
  | .fcmp => [.pe]
  | .fclamp => [.pe]
  | .fscl => [.pe]
  | .fxp => [.pe]
  | .fmant => [.pe]
  | .frnd => [.pe]
  | .frcp => [.pe]
  | .frsq => [.pe]
  | .fsqrt => [.pe]
  | .fexp2 => [.pe]
  | .flog2 => [.pe]
  | .fexp => [.pe]
  | .ftanh => [.pe]
  | .cvtif => [.pe]
  | .cvtfi => [.pe]
  | .qblk => [.pe]
  | .dqblk => [.pe]
  | .fmtq => [.pe]
  | .rsum => [.pe]
  | .rmax => [.pe]
  | .rmin => [.pe]
  | .rargmx => [.pe]
  | .smup => [.pe]
  | .smrg => [.pe]
  | .smrgOrd => [.pe]
  | .smfin => [.pe]
  | .hash => [.pe]
  | .gumb => [.pe]
  | .topki => [.pe]
  | .tkout => [.pe]
  | .argmc => [.pe]
  | .ld => [.pe]
  | .st => [.pe]
  | .ldx => [.pe]
  | .stx => [.pe]
  | .ldch => [.pe]
  | .lls => [.pe]
  | .sls => [.pe]
  | .ldf => [.pe]
  | .lde => [.pe]
  | .stf => [.pe]
  | .ste => [.pe]
  | .feq => [.pe]
  | .feclr => [.pe]
  | .gld => [.pe]
  | .gst => [.pe]
  | .gatom => [.pe]
  | .satom => [.pe]
  | .fork => [.pe]
  | .rdv => [.pe]
  | .waitwp => [.pe]
  | .imgsync => [.pe]
  | .tsget => [.pe]
  | .tsnew => [.pe]
  | .csrr => [.pe]
  | .csrw => [.pe]
  | .halt => [.pe]
  | .guess => [.pe]
  | .ratify => [.pe]
  | .genget => [.pe]
  | .sqreq => [.pe]
  | .dhpush => [.pe]
  | .dhpushCfg => [.pe]
  | .dhpushJoin => [.pe]
  | .kvrowCfg => [.pe]
  | .kvrowOpen => [.pe]
  | .kvrowPut => [.pe]
  | .mxcfg => [.mx]
  | .mxmode => [.mx]
  | .mxscb => [.mx]
  | .mxrow => [.mx]
  | .mxacc => [.mx]
  | .mxout => [.mx]
  | .mxz => [.mx]
  | .mxchk => [.mx]
  | .grld => [.mx]
  | .grx => [.mx]
  | .grrun => [.mx]
  | .gremit => [.mx]
  | .grdepth => [.mx]
  | .draft => [.mx]
  | .draftx => [.mx]
  | .agset => [.ag]
  | .agrd => [.ag]
  | .agch => [.ag]
  | .agwr => [.ag]
  | .aggth => [.ag]
  | .agsct => [.ag]
  | .agstop => [.ag]
  | .agpos => [.ag]
  | .wprd => [.ag]
  | .wcntBind => [.ag]
  | .wcnt => [.ag]
  | .tarm => [.ag]
  | .tbind => [.ag]
  | .tmc => [.ag]

/-- The defined MD values of each opcode, as its definition lists them (R96). -/
def Op.mds : Op → List Nat
  | .nop => [0]
  | .mov => [0]
  | .emit => [0, 1, 2, 3, 4, 5, 6]
  | .drop => [0]
  | .pset => [0]
  | .pclr => [0]
  | .plog => [0, 1, 2, 3, 4, 5, 6]
  | .cset => [0, 1]
  | .cinc => [0, 1, 2, 3]
  | .qpost => [0]
  | .fence => [0, 1, 2, 3, 4, 5]
  | .trap => [0]
  | .evt => [0]
  | .yield => [0]
  | .sel => [0, 1, 2, 3, 4, 5, 6, 7]
  | .steer => [0, 1, 2, 3, 4]
  | .merge => [0, 1, 2, 3]
  | .dup => [0, 1, 2, 3, 4, 5, 6, 7]
  | .barj => [0]
  | .perm => [0]
  | .req => [0, 1, 2, 3]
  | .lperm => [0, 1]
  | .lrot => [0]
  | .lbc => [0]
  | .lins => [0]
  | .lext => [0]
  | .tagset => [0, 1, 2, 3]
  | .kindp => [0, 1, 2, 3, 4, 5, 7]
  | .iadd => [0, 1]
  | .isub => [0, 1]
  | .imul => [0, 1]
  | .imulh => [0, 1, 2, 3]
  | .imad => [0, 1]
  | .ineg => [0, 1]
  | .iabs => [0, 1]
  | .imin => [0, 1, 2, 3]
  | .imax => [0, 1, 2, 3]
  | .iclamp => [0, 1, 2, 3]
  | .iadds => [0, 1, 2, 3]
  | .isubs => [0, 1, 2, 3]
  | .and => [0]
  | .or => [0]
  | .xor => [0]
  | .andn => [0]
  | .not => [0]
  | .shl => [0, 1]
  | .shr => [0, 1]
  | .sar => [0, 1]
  | .rot => [0, 1]
  | .clz => [0, 1]
  | .popc => [0, 1]
  | .bfx => [0, 2]
  | .bfi => [0]
  | .sext => [0]
  | .icmp => [0, 1, 2, 3, 4, 5, 6, 7]
  | .mova => [0]
  | .adda => [0]
  | .wrapa => [0]
  | .cmpa => [0, 1, 2, 3]
  | .plane => [0, 1, 2, 3]
  | .fadd => [0, 1, 2, 3]
  | .fsub => [0, 1, 2, 3]
  | .fmul => [0, 1, 2, 3]
  | .fma => [0, 1, 2, 3]
  | .fneg => [0]
  | .fabs => [0]
  | .fmin => [0]
  | .fmax => [0]
  | .fcmp => [0, 1, 2, 3, 4, 5]
  | .fclamp => [0]
  | .fscl => [0]
  | .fxp => [0]
  | .fmant => [0]
  | .frnd => [0, 1, 2, 3]
  | .frcp => [0]
  | .frsq => [0]
  | .fsqrt => [0]
  | .fexp2 => [0]
  | .flog2 => [0]
  | .fexp => [0]
  | .ftanh => [0]
  | .cvtif => [0, 1, 2, 3, 4, 5, 6, 7]
  | .cvtfi => [0, 1, 2, 3, 4, 5, 6, 7]
  | .qblk => [0, 1, 2, 3, 4, 5, 6, 7]
  | .dqblk => [0, 1, 2, 3, 4, 5, 6, 7]
  | .fmtq => [0, 1, 2, 3, 4, 5, 6, 7]
  | .rsum => [0, 1, 2, 3, 4, 5, 6, 7]
  | .rmax => [0, 4]
  | .rmin => [0, 4]
  | .rargmx => [0]
  | .smup => [0, 1]
  | .smrg => [0]
  | .smrgOrd => [2]
  | .smfin => [0]
  | .hash => [0]
  | .gumb => [0]
  | .topki => [0, 1, 2, 3]
  | .tkout => [0, 1, 2]
  | .argmc => [0]
  | .ld => [0, 1, 2, 3, 4, 5, 6, 7]
  | .st => [0, 1, 2, 3, 4, 5, 6, 7]
  | .ldx => [0, 1, 2, 3, 4, 5, 6, 7]
  | .stx => [0, 1, 2, 3, 4, 5, 6, 7]
  | .ldch => [0, 1, 2, 3]
  | .lls => [0]
  | .sls => [0]
  | .ldf => [0, 1, 2, 3]
  | .lde => [0, 1, 2, 3]
  | .stf => [0, 1, 2, 3]
  | .ste => [0, 1, 2, 3]
  | .feq => [0, 1, 2, 3, 4, 5, 6, 7]
  | .feclr => [0, 1, 2, 3, 4, 5, 6, 7]
  | .gld => [0, 4]
  | .gst => [0, 4]
  | .gatom => [0, 1, 2, 3, 4, 5, 6, 7]
  | .satom => [0, 1, 2, 3, 4, 5, 6, 7]
  | .fork => [0, 1]
  | .rdv => [0]
  | .waitwp => [0]
  | .imgsync => [0]
  | .tsget => [0]
  | .tsnew => [0]
  | .csrr => [0]
  | .csrw => [0]
  | .halt => [0]
  | .guess => [0, 1]
  | .ratify => [0]
  | .genget => [0, 1]
  | .sqreq => [0]
  | .dhpush => [0]
  | .dhpushCfg => [1]
  | .dhpushJoin => [2]
  | .kvrowCfg => [0]
  | .kvrowOpen => [1]
  | .kvrowPut => [2]
  | .mxcfg => [0]
  | .mxmode => [0]
  | .mxscb => [0]
  | .mxrow => [0, 1]
  | .mxacc => [0, 1, 2, 3]
  | .mxout => [0, 1, 2]
  | .mxz => [0]
  | .mxchk => [0]
  | .grld => [0]
  | .grx => [0]
  | .grrun => [0]
  | .gremit => [0, 1]
  | .grdepth => [0]
  | .draft => [0]
  | .draftx => [0]
  | .agset => [0, 1, 2, 3]
  | .agrd => [0, 1, 2, 3, 4, 5, 6, 7]
  | .agch => [0, 1, 2, 3, 4, 5, 6, 7]
  | .agwr => [0, 1, 2, 3]
  | .aggth => [0, 1, 2, 3]
  | .agsct => [0, 1, 2, 3]
  | .agstop => [0, 1, 2, 3]
  | .agpos => [0, 1, 2, 3]
  | .wprd => [0]
  | .wcntBind => [4, 5, 6, 7]
  | .wcnt => [0, 1, 2, 3]
  | .tarm => [0]
  | .tbind => [0]
  | .tmc => [0, 1, 2, 3]

/-- The opcodes marked † in the maps (R99, R107, R108). -/
def Op.dagger : Op → Bool
  | .mov => true
  | .drop => true
  | .steer => true
  | .merge => true
  | .dup => true
  | .perm => true
  | _ => false

/-- The fields that R135 and the definitions call not defined in combination, so that item 12 of R111 rejects them:
each line is the sentence of the instruction's own rule. -/
def Op.combo (o : Op) (f : Fields) : Bool :=
  match o with
  | .emit => f.d.isOut || f.d == .none                                     -- R138
  | .plog => f.md.toNat < 5 || f.b == .imm 0                               -- R139
  | .steer =>                                                              -- R143
      match f.d with
      | .out t => f.md.toNat == 4 || (f.md.toNat < 4 && f.md.toNat ≠ t.val)
      | _ => false
  | .merge =>                                                              -- R144
      f.a.input?.map (·.val) != some f.md.toNat && f.b.input?.map (·.val) != some f.md.toNat &&
        (!f.te || f.tc.toNat == f.md.toNat)
  | .perm => !(f.te && f.a.input?.map (·.val) == some f.tc.toNat) || f.tk == 3   -- R147
  | .tagset => !(f.md.toNat == 0 && f.d.isV)                               -- R150
  | .plane => f.md.toNat < 2 || f.b == .imm 0                              -- R157
  | .smup => f.md.toNat == 1 || f.b == .imm 0                              -- R226
  | .smrg => f.b == .imm 0                                                 -- R227
  | .smrgOrd => f.b == .imm 0 && f.a.isInp                                 -- R227
  | .topki => f.md.toNat < 2 || f.b == .imm 0                              -- R233
  | .ldch => f.a.isA                                                       -- R263
  | .dhpushJoin => f.b == .imm 0                                           -- R322
  | .mxrow =>                                                              -- R242
      f.d.isOut && f.a.isInp && (f.b == .imm 0 || f.b.isInp) &&
        (f.md.toNat == 0 ||
          match f.b with
          | .inp c => f.a.input?.map (·.val) != some ((c.val + 1) % 4)
          | _ => true)
  | .mxout => f.md.toNat < 2 || f.a == .imm 0                              -- R241
  | .gremit => f.d.isOut                                                   -- R250
  | .agrd => f.d.isOut                                                     -- R180
  | .agch => f.d.isOut                                                     -- R180
  | .wcntBind => f.d == .none && f.b == .imm 0                             -- R188
  | .wcnt => f.a == .imm 0                                                 -- R188
  | _ => true

/-- Item 5 of R111: the slot could never fire, by R99. A PERM admits a PERMIT head in place of DATA (R147). -/
def Op.admits (o : Op) (f : Fields) : Bool :=
  let consumesTc := f.a.consumes?.map (·.val) == some f.tc.toNat || f.b.consumes?.map (·.val) == some f.tc.toNat
  !(f.te && consumesTc && f.tk != 0 && !o.dagger &&
    !(o == .kindp && f.a.input?.map (·.val) == some f.tc.toNat))

/-- Item 9 of R111: the MX and AG pools hold only v0 to v3 and a0 to a3 (R100). -/
def narrowOk (p : Pool) (f : Fields) : Bool :=
  let srcOk : Src → Bool := fun x => match x with
    | .rd n => n.val < 4
    | .take n => n.val < 4
    | .areg n => n.val < 4
    | _ => true
  let dstOk : Dst → Bool := fun x => match x with
    | .wr n => n.val < 4
    | .put n => n.val < 4
    | .areg n => n.val < 4
    | _ => true
  p == .pe || (dstOk f.d && srcOk f.a && srcOk f.b)

/-- Item 10 of R111: the combinations that R101 calls illegal. -/
def conflictFree (f : Fields) : Bool :=
  let takes : Src → Fin 16 → Bool := fun x n => x == .take n
  let putTake := match f.d with
    | .put n => takes f.a n || takes f.b n
    | _ => false
  let sameInput := match f.a.input?, f.b.input? with
    | some x, some y => x == y && (f.a.isInp || f.b.isInp)
    | _, _ => false
  let samePred := match f.d with
    | .pred n => f.pe && f.pi.toNat == n.val
    | _ => false
  !putTake && !sameInput && !samePred

/-- The first check of R111 that a word fails, its opcode, D and fields already read. -/
def firstReject (p : Pool) (o : Op) (f : Fields) : Option Reject :=
  if !o.pools.contains p then some .unassigned
  else if f.pv &&& ~~~f.pm != 0 then some .pvWithoutPm
  else if (!f.te && (f.tc != 0 || f.tk != 0)) || (!f.pe && (f.pi != 0 || f.pval)) then some .unusedTestOrUpdate
  else if f.te && f.tk == 6 then some .testsSwitch
  else if !o.admits f then some .neverAdmitted
  else if !shapeClasses o.shape f.d f.a f.b then some .shape
  else if !shapeUnused o.shape f.d f.a f.b then some .unusedField
  else if !narrowOk p f then some .narrowPool
  else if !conflictFree f then some .conflict
  else if !(o.mds.contains f.md.toNat && o.combo f) then some .modifier
  else none

/-- Items 2 to 5 of R111, which stand before the check of D's code (item 6). -/
def Reject.beforeDst : Reject → Bool
  | .pvWithoutPm => true
  | .unusedTestOrUpdate => true
  | .testsSwitch => true
  | .neverAdmitted => true
  | _ => false

end Sys2Proof
end

