-- ==== Sys2Proof/WellFormed.lean ====
section
/-! DEFINITION. Which instructions are well-formed: a triggered instruction that the setter would accept in a pool, and
a step of the device that names tiles and links that exist. The checks themselves stand in Machine/Encoding.lean. -/

namespace Sys2Proof

/-- A triggered instruction that the setter accepts in a pool (R111, item 11 apart). -/
def wfOp (p : Pool) (o : Op) (f : Fields) : Bool := (firstReject p o f).isNone

/-- The link indices of R385 that carry flits: the fabric ring, the I/O die links and the Craxon ports. -/
def flitLink (l : Nat) : Bool := l < 12 || (16 ≤ l && l < 52)

/-- What a step of the device names exists: a tile index below 8,192, a link of R385. A triggered instruction is
well-formed in a pool of its map. -/
def Instr.wf (p : Pool) : Instr → Bool
  | .switch t => t < 8192
  | .wavefrontSwap t => t < 8192
  | .tileFence t => t < 8192
  | .flitReceive l _ _ _ => flitLink l
  | .retryRequest l _ _ => flitLink l
  | .linkRetrain l _ _ _ => flitLink l
  | .keyInstall l _ => flitLink l
  | .keySwitch l _ => flitLink l
  | .keyRetire l _ _ => flitLink l
  | .linkUp l => flitLink l
  | i => match i.op? with
    | some (o, f) => wfOp p o f
    | none => true

end Sys2Proof
end

