-- ==== Sys2Proof/Decode.lean ====
section
/-! DEFINITION. Reading a triggered word (R93, R97, R98) under the map of its pool, with every word that is not an
instruction rejected by a named item of R111, and the encoder written from the same tables. -/

namespace Sys2Proof

/-- The source of a 6-bit code; the patterns of R97 cover all 64. -/
def Src.decode (c : BitVec 6) : Src :=
  let n := c.toNat
  let low8 : Fin 8 := ⟨n % 8, Nat.mod_lt _ (by decide)⟩
  if n < 16 then .rd ⟨n % 16, Nat.mod_lt _ (by decide)⟩
  else if n < 32 then .take ⟨n % 16, Nat.mod_lt _ (by decide)⟩
  else if n < 36 then .inp ⟨n % 4, Nat.mod_lt _ (by decide)⟩
  else if n < 40 then .peek ⟨n % 4, Nat.mod_lt _ (by decide)⟩
  else if n < 48 then .areg low8
  else if n < 56 then .const low8
  else .imm low8

/-- The code of a source (R97). -/
def Src.encode : Src → BitVec 6
  | .rd n => BitVec.ofNat 6 n.val
  | .take n => BitVec.ofNat 6 (16 + n.val)
  | .inp c => BitVec.ofNat 6 (32 + c.val)
  | .peek c => BitVec.ofNat 6 (36 + c.val)
  | .areg n => BitVec.ofNat 6 (40 + n.val)
  | .const n => BitVec.ofNat 6 (48 + n.val)
  | .imm n => BitVec.ofNat 6 (56 + n.val)

/-- The destination of a 6-bit code; the codes that R98 calls illegal give none. -/
def Dst.decode (c : BitVec 6) : Option Dst :=
  let n := c.toNat
  let low8 : Fin 8 := ⟨n % 8, Nat.mod_lt _ (by decide)⟩
  if n < 16 then some (.wr ⟨n % 16, Nat.mod_lt _ (by decide)⟩)
  else if n < 32 then some (.put ⟨n % 16, Nat.mod_lt _ (by decide)⟩)
  else if n < 36 then some (.out ⟨n % 4, Nat.mod_lt _ (by decide)⟩)
  else if n < 40 then Option.none
  else if n < 48 then some (.areg low8)
  else if n < 56 then some (.pred low8)
  else if n = 56 then some .none
  else Option.none

/-- The code of a destination (R98). -/
def Dst.encode : Dst → BitVec 6
  | .wr n => BitVec.ofNat 6 n.val
  | .put n => BitVec.ofNat 6 (16 + n.val)
  | .out c => BitVec.ofNat 6 (32 + c.val)
  | .areg n => BitVec.ofNat 6 (40 + n.val)
  | .pred n => BitVec.ofNat 6 (48 + n.val)
  | .none => BitVec.ofNat 6 56

/-- The opcode field of a triggered word (R93). -/
def wordOp (w : Word) : Nat := (w.extractLsb' 26 8).toNat

/-- The MD field of a triggered word (R93). -/
def wordMd (w : Word) : Nat := (w.extractLsb' 0 3).toNat

/-- The fields of a triggered word, its D already read (R93). -/
def readFields (w : Word) (d : Dst) : Fields where
  pm := w.extractLsb' 56 8
  pv := w.extractLsb' 48 8
  ir := w.extractLsb' 44 4
  os := w.extractLsb' 40 4
  te := w.getLsbD 39
  tc := w.extractLsb' 37 2
  tk := w.extractLsb' 34 3
  d := d
  a := Src.decode (w.extractLsb' 14 6)
  b := Src.decode (w.extractLsb' 8 6)
  pe := w.getLsbD 7
  pi := w.extractLsb' 4 3
  pval := w.getLsbD 3
  md := w.extractLsb' 0 3

/-- The common block of R107, the same in every pool. -/
def commonOp : Nat → Option Op
  | 0x00 => some .nop
  | 0x01 => some .mov
  | 0x02 => some .emit
  | 0x03 => some .drop
  | 0x04 => some .pset
  | 0x05 => some .pclr
  | 0x06 => some .plog
  | 0x08 => some .cset
  | 0x09 => some .cinc
  | 0x0A => some .qpost
  | 0x0B => some .fence
  | 0x0C => some .trap
  | 0x0D => some .evt
  | 0x0E => some .yield
  | _ => none

/-- The PE map of R108; MD chooses among the rows that the table keeps apart under one opcode (R227, R322, R328). -/
def peOp (md : Nat) : Nat → Option Op
  | 0x20 => some .sel
  | 0x21 => some .steer
  | 0x22 => some .merge
  | 0x23 => some .dup
  | 0x24 => some .barj
  | 0x25 => some .perm
  | 0x26 => some .req
  | 0x28 => some .lperm
  | 0x29 => some .lrot
  | 0x2A => some .lbc
  | 0x2B => some .lins
  | 0x2C => some .lext
  | 0x30 => some .tagset
  | 0x31 => some .kindp
  | 0x40 => some .iadd
  | 0x41 => some .isub
  | 0x42 => some .imul
  | 0x43 => some .imulh
  | 0x44 => some .imad
  | 0x45 => some .ineg
  | 0x46 => some .iabs
  | 0x47 => some .imin
  | 0x48 => some .imax
  | 0x49 => some .iclamp
  | 0x4A => some .iadds
  | 0x4B => some .isubs
  | 0x4C => some .and
  | 0x4D => some .or
  | 0x4E => some .xor
  | 0x4F => some .andn
  | 0x50 => some .not
  | 0x51 => some .shl
  | 0x52 => some .shr
  | 0x53 => some .sar
  | 0x54 => some .rot
  | 0x55 => some .clz
  | 0x56 => some .popc
  | 0x57 => some .bfx
  | 0x58 => some .bfi
  | 0x59 => some .sext
  | 0x5A => some .icmp
  | 0x60 => some .mova
  | 0x61 => some .adda
  | 0x62 => some .wrapa
  | 0x63 => some .cmpa
  | 0x64 => some .plane
  | 0x70 => some .fadd
  | 0x71 => some .fsub
  | 0x72 => some .fmul
  | 0x73 => some .fma
  | 0x74 => some .fneg
  | 0x75 => some .fabs
  | 0x76 => some .fmin
  | 0x77 => some .fmax
  | 0x78 => some .fcmp
  | 0x79 => some .fclamp
  | 0x7A => some .fscl
  | 0x7B => some .fxp
  | 0x7C => some .fmant
  | 0x7D => some .frnd
  | 0x80 => some .frcp
  | 0x81 => some .frsq
  | 0x82 => some .fsqrt
  | 0x83 => some .fexp2
  | 0x84 => some .flog2
  | 0x85 => some .fexp
  | 0x86 => some .ftanh
  | 0x88 => some .cvtif
  | 0x89 => some .cvtfi
  | 0x8A => some .qblk
  | 0x8B => some .dqblk
  | 0x8C => some .fmtq
  | 0x90 => some .rsum
  | 0x91 => some .rmax
  | 0x92 => some .rmin
  | 0x93 => some .rargmx
  | 0x94 => some .smup
  | 0x95 => if md = 2 then some .smrgOrd else some .smrg
  | 0x96 => some .smfin
  | 0x98 => some .hash
  | 0x99 => some .gumb
  | 0x9A => some .topki
  | 0x9B => some .tkout
  | 0x9C => some .argmc
  | 0xA0 => some .ld
  | 0xA1 => some .st
  | 0xA2 => some .ldx
  | 0xA3 => some .stx
  | 0xA4 => some .ldch
  | 0xA5 => some .lls
  | 0xA6 => some .sls
  | 0xA8 => some .ldf
  | 0xA9 => some .lde
  | 0xAA => some .stf
  | 0xAB => some .ste
  | 0xAC => some .feq
  | 0xAD => some .feclr
  | 0xB0 => some .gld
  | 0xB1 => some .gst
  | 0xB2 => some .gatom
  | 0xB4 => some .satom
  | 0xC0 => some .fork
  | 0xC1 => some .rdv
  | 0xC2 => some .waitwp
  | 0xC4 => some .imgsync
  | 0xC5 => some .tsget
  | 0xC6 => some .tsnew
  | 0xC8 => some .csrr
  | 0xC9 => some .csrw
  | 0xCF => some .halt
  | 0xD0 => some .guess
  | 0xD1 => some .ratify
  | 0xD2 => some .genget
  | 0xD3 => some .sqreq
  | 0xD4 => if md = 1 then some .dhpushCfg else if md = 2 then some .dhpushJoin else some .dhpush
  | 0xD5 => if md = 1 then some .kvrowOpen else if md = 2 then some .kvrowPut else some .kvrowCfg
  | _ => none

/-- The MX map of R109. -/
def mxOp : Nat → Option Op
  | 0x20 => some .mxcfg
  | 0x21 => some .mxmode
  | 0x22 => some .mxscb
  | 0x23 => some .mxrow
  | 0x24 => some .mxacc
  | 0x25 => some .mxout
  | 0x26 => some .mxz
  | 0x27 => some .mxchk
  | 0x40 => some .grld
  | 0x41 => some .grx
  | 0x42 => some .grrun
  | 0x43 => some .gremit
  | 0x44 => some .grdepth
  | 0x50 => some .draft
  | 0x51 => some .draftx
  | _ => none

/-- The AG map of R110; MD bit 2 of opcode 0x31 chooses between the two forms of WCNT (R188). -/
def agOp (md : Nat) : Nat → Option Op
  | 0x20 => some .agset
  | 0x21 => some .agrd
  | 0x22 => some .agwr
  | 0x23 => some .aggth
  | 0x24 => some .agsct
  | 0x25 => some .agch
  | 0x28 => some .tarm
  | 0x29 => some .tbind
  | 0x2A => some .tmc
  | 0x30 => some .wprd
  | 0x31 => if md < 4 then some .wcnt else some .wcntBind
  | 0x32 => some .agstop
  | 0x33 => some .agpos
  | _ => none

/-- The opcode that a pool's map assigns to a number, with MD where one number names several rows of the table. -/
def opOf (p : Pool) (code md : Nat) : Option Op :=
  if code < 0x20 then commonOp code
  else match p with
    | .pe => peOp md code
    | .mx => mxOp code
    | .ag => agOp md code

/-- The instruction a word holds in a pool, or the item of R111 that rejects it. -/
def decode (p : Pool) (w : Word) : Except Reject Instr :=
  match opOf p (wordOp w) (wordMd w) with
  | none => .error .unassigned
  | some o =>
    match Dst.decode (w.extractLsb' 20 6) with
    | none => .error (((firstReject p o (readFields w .none)).filter Reject.beforeDst).getD .illegalDestination)
    | some d =>
      match firstReject p o (readFields w d) with
      | some r => .error r
      | none => .ok (o.mk (readFields w d))

/-- The word of an opcode and its fields (R93). -/
def encodeFields (o : Op) (f : Fields) : Word :=
  f.pm ++ f.pv ++ f.ir ++ f.os ++ BitVec.ofBool f.te ++ f.tc ++ f.tk ++ BitVec.ofNat 8 o.code ++ f.d.encode ++
    f.a.encode ++ f.b.encode ++ BitVec.ofBool f.pe ++ f.pi ++ BitVec.ofBool f.pval ++ f.md

/-- The word of a triggered instruction; a step of the device has none. -/
def encode (i : Instr) : Option Word :=
  match i.op? with
  | some (o, f) => some (encodeFields o f)
  | none => none

/-- The instruction of a decoded word, none where the word is rejected. -/
def decode? (p : Pool) (w : Word) : Option Instr :=
  match decode p w with
  | .ok i => some i
  | .error _ => none

/-- The pool whose map reads a table word: bits 65:64 above the 64-bit word name it as R92 codes it. With no such
bits the first of the PE, AG and MX maps that accepts the word reads it. Log entry 2. -/
def tablePool (nbits w : Nat) : Pool :=
  if nbits ≤ 64 then
    if (decode? .pe (w64 w)).isSome then .pe else if (decode? .ag (w64 w)).isSome then .ag else .mx
  else (Pool.ofCode (w / 2 ^ 64 % 4)).getD .pe

/-- The instruction of a table word (a slot word is one 64-bit word, its bits numbered as R93 numbers them). -/
def decodeTableWord (nbits w : Nat) : Option Instr := decode? (tablePool nbits w) (w64 w)

end Sys2Proof
end

