-- ==== Sys2Proof/Config.lean ====
section
/-! DEFINITION. What the manual leaves open for a value: the free values, which nothing in Lean can evaluate, and
the constants of the part that are not stored anywhere in the machine. -/

namespace Sys2Proof.Config

/-- A fresh value that the manual leaves open: the n-th one taken in a run (`State.freeCtr` counts them). It has no
body, so no proof can see what it is. Log entry 3. -/
opaque freeValue : Nat → BitVec 64

/-- A fresh choice that the manual leaves open (R203: which of two translations an access uses). Log entry 3. -/
def freeBit (n : Nat) : Bool := (freeValue n).getLsbD 0

/-- The Ed448 key pair fused in a chiplet, public then private, by chiplet index (R393). Log entry 93. -/
opaque chipKey : Nat → Nat × Nat

/-- The certificate of a chiplet's public key (R393). Log entry 93. -/
opaque chipCert : Nat → Nat

/-- The package root's fused key pair, public then private, and its certificate (R394). Log entry 93. -/
opaque rootKey : Nat × Nat
opaque rootCert : Nat

/-- The key pair that the saggar derives from the root's private key and the measurement of the firmware (R394). Log entry
93. -/
opaque deriveKey : Nat → BitVec 512 → Nat × Nat

/-- An Ed448 signature under a private key (R394). Log entry 93. -/
opaque sign : Nat → List Nat → Nat

/-- Digests over a chiplet's ROM and over its microcode (R396), and over its fuse configuration with the spare maps of the
repair paths. Log entry 93. -/
opaque romDigest : Nat → BitVec 512
opaque ucodeDigest : Nat → BitVec 512
opaque fuseDigest : Nat → List Nat → BitVec 512

/-- Where a physical address of HBM lies in its stack: channel, bank group and row (R409). Log entry 94. -/
opaque hbmPlace : Nat → Nat × Nat × Nat

/-- Spare rows of a bank group (R409). Log entry 94. -/
opaque spareRows : Nat

/-- The saved block to which a word of the full save's area belongs, by its place in the area, as the key of its frame: its layout is
one that only the device reads (R354). Log entry 98. -/
opaque savePlace : Nat → Nat

/-- Whether the home package of a domain that this package has joined serves a node as a peer: the node of the home, the LSEQ of
the launch that joined, and the node. R377 asks it of a peer, and no message tells a peer of another (log entry 96). -/
opaque coPeer : Nat → Nat → Nat → Bool

/-- The slope bound of the HX9-A reference board, in macro-cycles per slice (R387). -/
def pwrSlope : Nat := 128

/-- The highest core clock setting, 1.7 GHz in units of 25 MHz (R20). -/
def clockTop : Nat := 68

/-- The lowest core clock setting, 400 MHz in units of 25 MHz (R20). -/
def clockBottom : Nat := 16

/-- Cycles of the 1.7 GHz reference in the 250 ns between two reads of a slot (R56). -/
def sealSpacing : Nat := 425

/-- Entry-queue places of one die (R34). -/
def entryPlaces : Nat := 16384

/-- Beat slots that the inputs of one tile share (R22). -/
def beatSlots : Nat := 64

/-- Request places of one PE pool (R257). -/
def requestPlaces : Nat := 16

/-- Unretired launches the arbiter accepts (R58). -/
def maxLaunches : Nat := 1024

/-- Events the device holds while the ring is full (R64). -/
def eventHold : Nat := 4096

/-- Quiet cycles that end a drain (R349). -/
def drainCycles : Nat := 256

/-- Entries of one slice's bisque buffers, and those reserved for each live job (R287, R292). -/
def bisqueEntries : Nat := 32768

/-- Entries reserved for one job, and the limit of one run in one slice (R287, R292). -/
def bisqueReserve : Nat := 256

/-- Leaf entries of one die's translation cache (R203). -/
def tlbEntries : Nat := 16384

/-- Images of the arbiter's block-table cache (R67). -/
def tableCacheImages : Nat := 256

/-- Whole tile images of 67 words in a 1 MiB image cache (R40, R76). -/
def imageCacheTiles : Nat := 1048576 / (67 * 8)

/-- Bytes of the expander on a CXL port (R384): the whole window of a port. Log entry 12. -/
def cxlCapacity : Nat := 0x3000000000

/-- The HBM4 stack that holds a device physical address of HBM: 48 GiB each, in order. Log entry 13. -/
def stackOf (pa : Nat) : Nat := pa / 0xC00000000

end Sys2Proof.Config
end

