-- ==== Sys2Proof/Machine/State.lean ====
section
/-! DEFINITION. The state of the HX9-A as plain data, with the machine right after reset. INVENTORY.md lists every piece
with the rule that names it. -/

namespace Sys2Proof.Machine

open Sys2Proof

/-- A sparse table of plain data: keys strictly rising, a key that is absent stands for the reset value that the reader
names. -/
abbrev Tab (α : Type) := List (Nat × α)

/-- The entry of a key. -/
def Tab.get? {α : Type} (t : Tab α) (k : Nat) : Option α :=
  match t with
  | [] => none
  | (i, a) :: rest => if i = k then some a else Tab.get? rest k

/-- The entry of a key, or the value an absent key stands for. -/
def Tab.get {α : Type} (t : Tab α) (k : Nat) (dflt : α) : α := (Tab.get? t k).getD dflt

/-- The table with one entry written, in key order. -/
def Tab.set {α : Type} (t : Tab α) (k : Nat) (a : α) : Tab α :=
  match t with
  | [] => [(k, a)]
  | (i, b) :: rest =>
    if k < i then (k, a) :: (i, b) :: rest else if i = k then (k, a) :: rest else (i, b) :: Tab.set rest k a

/-- The table without one key. -/
def Tab.del {α : Type} (t : Tab α) (k : Nat) : Tab α :=
  match t with
  | [] => []
  | (i, b) :: rest => if i = k then Tab.del rest k else (i, b) :: Tab.del rest k

/-- The first key from `n` on that the table does not hold: its keys rise strictly, so one pass finds it. -/
def Tab.freeFrom {α : Type} (t : Tab α) (n : Nat) : Nat :=
  match t with
  | [] => n
  | (i, _) :: rest => if i = n then Tab.freeFrom rest (n + 1) else Tab.freeFrom rest n

/-- A v register: payload, header fields of R117 (SIDE with an aligned payload, log entry 5) and presence. -/
structure VReg where
  tok : Tok
  present : Bool
  deriving DecidableEq, Repr

/-- The destination of a result in flight (R116): a register, a predicate or an output of the pool, or nothing. -/
structure InFlight where
  dst : Dst
  /-- the result, absent until a memory access or an engine's work has produced it -/
  val : Option Tok
  /-- the core cycle at whose end it completes at the earliest -/
  due : Nat
  gen : BitVec 8
  slot : Nat
  /-- the request or run that produces it, 0 for a result computed at the firing -/
  ticket : Nat
  /-- the D code that POISON_CTL reports (R136) -/
  dcode : Nat
  deriving DecidableEq, Repr

/-- An input of a pool (R22, R42): its binding code, mode, depth and the tokens that stand in it. -/
structure InPort where
  code : Nat
  pull : Bool
  depth : Nat
  chan : Option Nat
  queue : List Tok
  /-- requests sent and not yet answered by a token (R122) -/
  reqOut : Nat
  deriving DecidableEq, Repr

/-- An unbound input. -/
def InPort.none : InPort := ⟨0, false, 0, Option.none, [], 0⟩

/-- Who owns an output (R180, R190, R242, R250). -/
inductive Owner where
  | stream (s : Nat)
  | pass (id : Nat)
  | gremit
  | template (t : Nat)
  deriving DecidableEq, Repr

/-- An output of a pool: its binding code, the channel it starts, the credits it holds (R121), the requests that have
arrived (R122) and its owner. -/
structure OutPort where
  code : Nat
  pull : Bool
  chan : Option Nat
  credits : Int
  reqs : Nat
  owner : Option Owner
  deriving DecidableEq, Repr

/-- An unbound output. -/
def OutPort.none : OutPort := ⟨0, false, Option.none, 0, 0, Option.none⟩

/-- An operator group (R43, R118): weight, slot range, occupancy sum of the epoch and credit. -/
structure Group where
  w : Nat
  first : Nat
  last : Nat
  occ : Nat
  credit : Int
  deriving DecidableEq, Repr

/-- Whether a pool fires (R280, R340, R348); a pool whose record a SQUASH has discarded fires again from the next cycle
(R341). -/
inductive PoolRun where
  | running
  | resuming
  | faulted
  | halted
  | yielded
  deriving DecidableEq, Repr

/-- A fault record (R340): code, GEN, slot and payload words. -/
structure FaultRec where
  code : Nat
  gen : BitVec 8
  slot : Nat
  w3 : Word
  w4 : Word
  w5 : Word
  /-- its event has been posted (R341) -/
  posted : Bool
  deriving DecidableEq, Repr

/-- A program event that waits for the ratification of its generation, in firing order (R279). -/
structure HeldEvt where
  gen : BitVec 8
  w3 : Word
  w4 : Word
  slot : Nat
  deriving DecidableEq, Repr

/-- A pool's binding to a unit (R272). -/
structure TsBind where
  ts : Nat
  gen : BitVec 8
  lseq : Nat
  unit : Nat
  deriving DecidableEq, Repr

/-- One access of a memory request: the lane it serves, its space (0 to 3 of R260, 4 a lane slice, 5 global) and its
address in that space (a word address; a byte address in global memory). -/
structure Acc where
  lane : Nat
  space : Nat
  addr : Nat
  deriving DecidableEq, Repr

/-- A memory request that holds a request place (R257). -/
structure Req where
  op : Op
  md : Nat
  slot : Nat
  gen : BitVec 8
  psn : Bool
  /-- the data source and the second source, converted -/
  dat : Tok
  opb : Tok
  dst : Dst
  /-- the a register that LDCH steps (R263) -/
  areg : Option Nat
  /-- accesses still to perform, in order; a beat access names its first word -/
  accs : List Acc
  beat : Bool
  /-- the result collected so far -/
  res : Tok
  ticket : Nat
  firedAt : Nat
  /-- waits at the home of its words, with its order of arrival there (R266) -/
  waiting : Option Nat
  /-- the XLATE hold it stands in (R204) -/
  held : Option Nat
  /-- bank writes of it that are held (R239) -/
  inHold : Nat
  unit : Option TsBind
  deriving DecidableEq, Repr

/-- The state of a stream (R179, R181). -/
inductive StreamSt where
  | idle
  | set
  | running
  | held
  | faulted
  deriving DecidableEq, Repr

/-- A beat that a stream has read and that waits for the damper (R306), with what the stream holds once it has passed. -/
structure Formed where
  tok : Tok
  pos : Nat
  left : Option Nat
  node : Nat
  endDue : Bool
  missDue : Option Tok
  deriving DecidableEq, Repr

/-- A stream of an AG pool (R179) with what its running AGRD or AGCH needs. -/
structure Stream where
  st : StreamSt
  /-- the parameter block of R176 -/
  blk : Lanes
  pos : Nat
  ts : Nat
  gen : BitVec 8
  /-- 0 an AGRD, 1 an AGCH -/
  chase : Bool
  out : Nat
  endTok : Bool
  /-- beats or nodes left, none when unlimited -/
  left : Option Nat
  /-- byte address of the next node, and the link lane and step of AGCH -/
  node : Nat
  link : Nat
  step : Word
  /-- AGSTOP asks it to stop, and to send END -/
  stop : Bool
  stopEnd : Bool
  /-- the L2 slice whose streamer runs it (R185) -/
  slice : Option Nat
  hold : Option Nat
  /-- a beat read and not yet admitted by the damper -/
  formed : Option Formed
  /-- the END token that remains to be sent -/
  endDue : Bool
  /-- the CTL token of a tier miss that remains to be sent (R205) -/
  missDue : Option Tok
  /-- the virtual and physical page it has translated (R203), with the page size -/
  page : Option (Nat × Nat × Nat)
  unit : Option (Nat × Nat)
  slot : Nat
  /-- words written by the current run of an AGWR and not yet set full: run and word of the space (R186) -/
  dirty : List (Nat × Nat)
  deriving DecidableEq, Repr

/-- A pending access of AGWR, AGSCT or AGGTH (R181, R183): what it still has to do, element by element. -/
structure AgAcc where
  kind : Op
  stream : Nat
  blk : Lanes
  ts : Nat
  gen : BitVec 8
  unit : Option (Nat × Nat)
  /-- elements still to access, in order: position, lane and value of the lane -/
  items : List (Nat × Nat × Nat)
  dat : Tok
  res : Tok
  ticket : Nat
  hold : Option Nat
  slot : Nat
  /-- CONV_NAN has been reported for the firing (R174) -/
  nan : Bool
  deriving DecidableEq, Repr

/-- An arrival counter (R188). -/
structure ArrCtr where
  tag : Option (BitVec 12)
  count : Nat
  deriving DecidableEq, Repr

/-- The state of one pool (R21). -/
structure PoolSt where
  kind : Pool
  slots : List (Option Word)
  k : List Word
  v : List VReg
  a : List (BitVec 32)
  n0 : BitVec 32
  n1 : BitVec 32
  /-- p0 to p3, private to the pool -/
  p : BitVec 4
  groups : List Group
  ins : List InPort
  outs : List OutPort
  inflight : List InFlight
  /-- the predicate update of the slot fired in this cycle (R95) -/
  upd : Option (BitVec 3 × Bool)
  run : PoolRun
  frec : Option FaultRec
  evts : List HeldEvt
  /-- the core cycle of the last firing -/
  firedAt : Option Nat
  epochAt : Nat
  reqs : List Req
  tickets : Nat
  bind : Option TsBind
  streams : List Stream
  agq : List AgAcc
  ctrs : List ArrCtr
  /-- tags whose squash, and whose ratification, this pool has applied and no FREE has cleared (R324) -/
  dead : List (BitVec 8)
  ratified : List (BitVec 8)
  /-- messages of the squash network applied (R323) -/
  seq : Nat
  deriving DecidableEq, Repr

/-- The words of a tile image (R40), 67 of them. -/
abbrev TileImg := List Word

/-- The configuration of a pass (R240). -/
structure MxCfg where
  ncbm1 : Nat
  kbm1 : Nat
  a4 : Bool
  rm : Nat
  col0 : Nat
  deriving DecidableEq, Repr

/-- A pass in flight (R242 to R244). -/
structure Pass where
  id : Nat
  cfg : MxCfg
  row : List Tok
  gen : BitVec 8
  psn : Bool
  /-- the input of its accumulator beats, none for `#0` -/
  acc : Option Nat
  out : Nat
  x2 : Bool
  slot : Nat
  /-- 0 serial, 1 sums latched, 2 sending -/
  phase : Nat
  /-- cycles of the serial phase that remain -/
  left : Nat
  /-- block sums of each result column, and the scales latched with them -/
  sums : List (List Int)
  scales : List (List Int)
  /-- lowest K-block whose check failed, and lowest bad scale word read -/
  badBlk : Option Nat
  badScale : Option Nat
  /-- next result beat -/
  beat : Nat
  deriving DecidableEq, Repr

/-- Work that makes the matrix engine busy (R238, R241, R247, R251). -/
inductive MxWork where
  | recompute
  | zeroing
  | scrub (k0 m : Nat) (psn : Bool) (gen : BitVec 8) (ticket : Nat)
  /-- with the cycles of the run, and those in which it reads no word -/
  | grammar (rm n : Nat) (ticket : Nat) (slot : Nat) (time : Nat) (waits : List Nat)
  deriving DecidableEq, Repr

/-- A GREMIT stream (R250). -/
structure Gremit where
  nrow : Nat
  out : Nat
  endTok : Bool
  beat : Nat
  gen : BitVec 8
  psn : Bool
  deriving DecidableEq, Repr

/-- The grammar state (R236). -/
inductive GrSt where
  | ready
  | running
  | done
  | faulted
  deriving DecidableEq, Repr

/-- A DRAFT or DRAFTX declaration (R252). -/
structure Draft where
  start : Nat
  rate : Nat
  len : Nat
  period : Nat
  count : Nat
  deriving DecidableEq, Repr

/-- Whose access a bank holds (R239): a request of a tile's PE pool by its ticket, a stream of its AG pool with its GEN, or
a branch of a copy of a core's engine. -/
inductive HeldBy where
  | req (tile ticket : Nat)
  | stream (tile n : Nat) (gen : BitVec 8)
  | copy (core eng branch : Nat)
  deriving DecidableEq, Repr

/-- What a bank holds (R239): bytes of a word with their poison, that may set it full; a whole access of a request, which
reads and writes at one instant (SATOM, STF); or the completion of a word that a stream has passed, with what it reports
(R186, R188). -/
inductive HeldOp where
  | store (bytes : BitVec 8) (data : Word) (psn full : Bool)
  | access
  | complete (core ntile ctag : Nat)
  deriving DecidableEq, Repr

/-- A held access of a bank: its flat word address, whose it is, and what it does. -/
structure HeldWrite where
  addr : Nat
  who : HeldBy
  op : HeldOp
  deriving DecidableEq, Repr

/-- The matrix engine of a tile (R236), its bank apart. -/
structure MxEng where
  /-- S12 scales by index; an absent index holds −2,047 -/
  scales : Tab Int
  /-- scale words that SECDED cannot correct (R243) -/
  badScales : List Nat
  /-- checksum columns; an absent row holds 0 -/
  chk : Tab Int
  mode : Nat
  cfg : MxCfg
  bucket : Nat
  xv : Tab Tok
  rules : Tab (Word × Nat)
  outRows : Tab Nat
  gstart : Nat
  glen : Nat
  depthLim : Nat
  gst : GrSt
  ggen : BitVec 8
  gpsn : Bool
  passesDone : Nat
  mismatches : Nat
  passes : List Pass
  work : Option (MxWork × Nat)
  gremit : Option Gremit
  heldWrites : List HeldWrite
  draft : Option Draft
  /-- MXROW slots that have had a true trigger but for the bucket, and whether the undeclared rate has been in force in a
  cycle after the first such (R255) -/
  waitRows : Tab Bool
  nextId : Nat
  /-- macro-cycles of its work in the slice in progress, and of ballast in the last whole slice (R390, R391) -/
  macros : Nat
  ballast : Nat
  deriving DecidableEq, Repr

/-- One tile (R17, R21). -/
structure Tile where
  pe : PoolSt
  mx : PoolSt
  ag : PoolSt
  /-- p4 to p7, seen by all three pools (R21) -/
  ps : BitVec 4
  eng : MxEng
  /-- the block instance whose configuration is live -/
  block : Option Nat
  region : Option Nat
  gated : Bool
  /-- due to be gated once the ballast of its core has ended (R391) -/
  gateDue : Bool
  /-- the shadow store: a tile image of a block instance (R77) -/
  shadow : Option (Nat × TileImg)
  /-- an error that SECDED cannot correct stands in the shadow store -/
  shadowBad : Bool
  /-- the core cycle at which the configuration became live (R277 CYCLE) -/
  liveAt : Nat
  /-- the tile stopped at STRANDED (R86) -/
  stranded : Bool
  /-- served by a spare after a fence (R408) -/
  fenced : Bool
  deriving DecidableEq, Repr

/-- An exact value: NaN, an infinity, or m × 2^e. -/
inductive Val where
  | nan
  | inf (neg : Bool)
  | fin (m : Int) (e : Int)
  deriving DecidableEq, Repr

/-- A token posted to a copy queue, with the launch of the pool that posted it (R189). -/
structure Posted where
  tok : Tok
  lseq : Nat
  job : Nat
  /-- index of the block whose pool fired the QPOST, for the place of the copy's events (R206) -/
  blk : Nat
  deriving DecidableEq, Repr

/-- A named copy queue with its write pointer (R187, R189). -/
structure CopyQueue where
  bound : Option Nat
  toks : List Posted
  wp : Nat
  deriving DecidableEq, Repr

/-- A copy template (R189, R190): block and program snapshots, firings since TARM, and the tile and AG output that TMC
assigned. -/
structure Template where
  blk : Lanes
  prog : List (BitVec 32)
  armed : Bool
  count : Nat
  spaceOut : Option (Nat × Nat)
  deriving DecidableEq, Repr

/-- The pugmill run of a copy (R196): slab with the poison of each value, shape and place in its program, and the cycles
that its next word has taken so far (R199). -/
structure PmRun where
  rows : Nat
  cols : Nat
  slab : List (Val × Bool)
  pc : Nat
  took : Nat
  emitted : Nat
  fin : Bool
  deriving DecidableEq, Repr

/-- A running copy (R192 to R194). -/
structure CopyRun where
  queue : Nat
  tmpl : Nat
  /-- the block with the posted token's parameters applied -/
  blk : Lanes
  prog : List (BitVec 32)
  tok : Posted
  /-- next element of the source, and elements written -/
  pos : Nat
  written : Nat
  pm : Option PmRun
  moved : Bool
  /-- words whose writes have all been made, and which are completed once no bank holds one of them, in order (R187) -/
  pend : List Int
  /-- branches that have not completed all their words, and those whose SPACE token is still to be sent, in completion
  order (R194) -/
  owed : List Nat
  spaces : List Nat
  count : Nat
  hold : Option Nat
  nanSeen : Bool
  /-- order of start, which the pugmill of the cluster follows -/
  start : Nat
  deriving DecidableEq, Repr

/-- A copy engine: its run and the queue it last served. -/
structure CopyEng where
  run : Option CopyRun
  last : Nat
  deriving DecidableEq, Repr

/-- One core (R17): its clock (R386), copy resources (R189), power slices (R390) and spare tiles (R19). -/
structure Core where
  cyc : Nat
  phase : Nat
  cur : Nat
  req : Nat
  queues : Tab CopyQueue
  tmpls : Tab Template
  engs : List CopyEng
  /-- load of the last whole slice, of the slice in progress, and ballast of the slice in progress -/
  lastLoad : Nat
  load : Nat
  ballast : Nat
  /-- the declared load toward which its regulator moves (R390) -/
  regulator : Nat
  sparesUsed : Nat
  exhausted : Bool
  deriving DecidableEq, Repr

/-- What an XLATE hold stops (R204). -/
inductive HoldSite where
  | req (tile : Nat) (ticket : Nat)
  | stream (tile : Nat) (s : Nat)
  | agAcc (tile : Nat)
  | copy (core : Nat) (eng : Nat)
  | load (rid : Nat)
  | table (lseq : Nat)
  deriving DecidableEq, Repr

/-- A held access (R204): the fault's address, the level at which its walk stopped, and whether a covering invalidation
has completed. A hold of a quarantined die (R398) has no level. -/
structure Hold where
  job : Nat
  lseq : Nat
  va : Nat
  level : Option Nat
  site : HoldSite
  ready : Bool
  deriving DecidableEq, Repr

/-- A cached translation (R203): job, virtual page, log2 of its size, physical page and the W bits of its walk. -/
structure TlbEnt where
  job : Nat
  va : Nat
  shift : Nat
  pa : Nat
  w : Bool
  tier : Bool
  deriving DecidableEq, Repr

/-- A place in task order (R288): a unit's timestamp, launch and index, its order among the late units placed after that
unit, and the timestamp of an access within the unit. -/
structure Pos where
  ts : Nat
  lseq : Nat
  idx : Nat
  ord : Nat
  acc : Nat
  deriving DecidableEq, Repr

/-- A run of a unit (R316): its generation, the blocks of the launch that have finished it, and whether it was aborted. -/
structure Run where
  gen : BitVec 8
  fin : List Nat
  aborted : Bool
  deriving DecidableEq, Repr

/-- A unit that has state of its own (R29): its runs, its pending RETV writes by generation, and its end. -/
structure UnitSt where
  runs : List Run
  retv : List (BitVec 8 × Word)
  committed : Bool
  deriving DecidableEq, Repr

/-- The tables of an image that the arbiter reads (R67). -/
structure ImgTab where
  vstamp : BitVec 32
  nblk : Nat
  toff : Nat
  ntile : Nat
  /-- the CRC of the words read, and the one that the header holds -/
  crc : BitVec 32
  hcrc : BitVec 32
  /-- the header passes the first check of R45, and its reserved fields are zero -/
  headOk : Bool
  resOk : Bool
  blocks : List (Word × Word × Word)
  chans : List Word
  deriving DecidableEq, Repr

/-- Where a launch stands. -/
inductive LaunchSt where
  | accepted
  | released
  | held
  | placed
  | retired
  deriving DecidableEq, Repr

/-- An accepted launch (R29, R58). -/
structure Launch where
  lseq : Nat
  /-- w0 to w15 of R55, with the arbiter's WMARK -/
  words : List Word
  /-- queue sequence number of its packet -/
  seq : Nat
  st : LaunchSt
  /-- the CAUSE of a cancel that has taken effect -/
  cause : Option Nat
  /-- held by a fault (R342) -/
  faulted : Bool
  count : Nat
  aborts : Nat
  retv : Word
  img : Option ImgTab
  /-- placements computed: block index, die, x, y -/
  places : List (Nat × Nat × Nat × Nat)
  /-- next unit whose thread token is to be placed, and thread tokens of aborted units with their fresh generation -/
  nextTok : Nat
  reTok : List (Nat × BitVec 8 × Nat)
  /-- units below this index are late (R288), placed after this position -/
  late : Option (Nat × Pos)
  units : Tab UnitSt
  undeclSeen : Bool
  deriving DecidableEq, Repr

/-- A graph (R29, R30). -/
structure Graph where
  job : Nat
  phase : Nat
  id : Nat
  count : Nat
  launches : List Nat
  last : Option Nat
  retired : Bool
  cancelled : Bool
  /-- records of the arbiter's stream up to the retirement that completed it -/
  doneAt : Nat
  deriving DecidableEq, Repr

/-- A phase (R29, R30); its graphs in order of creation. -/
structure Phase where
  job : Nat
  id : Nat
  count : Nat
  graphs : List Nat
  lastGraph : Option Nat
  retired : Bool
  cancelled : Bool
  doneAt : Nat
  deriving DecidableEq, Repr

/-- A job (R51), with its power and undeclared-burst registers (R387). -/
structure Job where
  /-- STATE of R51: 0 free, 1 live, 2 tearing down -/
  st : Nat
  prio : Nat
  ptroot : Nat
  count : Nat
  suspended : Bool
  suspPosted : Bool
  lastCommit : Option Pos
  lateCtr : Nat
  dampN : Nat
  dampW : Nat
  undecl : Nat
  deriving DecidableEq, Repr

/-- A launch queue (R48, R52, R54). -/
structure LaunchQ where
  base : Word
  cfg : Word
  head : BitVec 32
  /-- ranges still to fetch: one past the last sequence number, and whether its notify was relaxed-ordering (R56) -/
  ranges : List (BitVec 32 × Bool)
  reads : Nat
  /-- reference cycle of the last read that found no matching seal (R56) -/
  readAt : Nat
  checked : List (BitVec 32 × List Word)
  deriving DecidableEq, Repr

/-- A record of the arbiter's stream (R59). -/
inductive StreamRec where
  | release (lseq : Nat)
  | retire (lseq : Nat)
  | inval
  deriving DecidableEq, Repr

/-- One item on a channel's way: a token with its repeat count (R126), or a marker of the squash network (R326). -/
inductive Item where
  | tok (t : Tok) (run : Nat)
  | marker (seq : Nat)
  deriving DecidableEq, Repr

/-- The source end of a channel. -/
inductive ChanSrc where
  | out (tile : Nat) (p : Pool) (o : Nat)
  | entry (bid : Nat)
  | ingress (e : Nat)
  deriving DecidableEq, Repr

/-- The destination end of a channel. -/
inductive ChanDst where
  | inp (tile : Nat) (p : Pool) (i : Nat)
  | done (bid : Nat)
  | egress (e : Nat)
  deriving DecidableEq, Repr

/-- A channel (R120): its ends, its circuit tag, the tokens on their way, and the credits and requests on their way
back. A channel that crosses dies names the link directions it crosses, and how many of them its items have passed. -/
structure Chan where
  src : ChanSrc
  dst : ChanDst
  bid : Nat
  tag : BitVec 12
  pull : Bool
  items : List Item
  credBack : Nat
  reqBack : Nat
  path : List (Nat × Bool)
  /-- items that wait before each crossing of the path, in path order -/
  stages : List (List Item)
  dead : List (BitVec 8)
  ratified : List (BitVec 8)
  seq : Nat
  /-- the highest marker that has arrived at its end -/
  marked : Nat
  deriving DecidableEq, Repr

/-- A block instance on its region (R33, R71, R74). -/
structure Block where
  lseq : Nat
  idx : Nat
  rid : Nat
  job : Nat
  die : Nat
  x : Nat
  y : Nat
  /-- the three words of its block-table entry (R38) -/
  entry : Word × Word × Word
  vstamp : BitVec 32
  /-- its configured tiles in tile-image order, once its load has armed it -/
  tiles : List Nat
  /-- tokens that have reached the done sink -/
  doneQ : List Tok
  /-- units finished by an END of GEN 0 -/
  finished : Nat
  /-- region cycle from which it has waited with a thread token, not resident (R75) -/
  waitFrom : Option Nat
  /-- the frame that holds its saved state (R352); 2^20 and above lie in the full save (R359) -/
  saved : Option Nat
  cancelled : Bool
  deriving DecidableEq, Repr

/-- A load in progress (R78): the block, and the tile images taken so far. -/
structure LoadSt where
  bid : Nat
  imgs : List TileImg
  hold : Option Nat
  deriving DecidableEq, Repr

/-- A pre-emption request that stands (R347): when it was made (device time in ns), whether it saves by full scan (R350),
whether it has reported that no frame is free (R354), and whom it is for: 0 another block, 1 a suspension, 2 a cancel or a
fence, 3 a single-die reset, 4 the thermal sequence. -/
structure PreReq where
  since : Nat
  scan : Bool
  full : Bool
  why : Nat
  deriving DecidableEq, Repr

/-- A region (R71) with its scheduler (R74), QWC detector (R345) and damper (R306, R389). -/
structure Region where
  die : Nat
  x : Nat
  y : Nat
  wm1 : Nat
  hm1 : Nat
  blocks : List Nat
  resident : Option Nat
  armed : Option Nat
  loading : Option LoadSt
  quantumAt : Nat
  pre : Option PreReq
  quiet : Nat
  /-- quiet cycles of the drain since the pre-emption request (R349) -/
  calm : Nat
  qwcRaised : Bool
  active : Bool
  waveBegun : Bool
  swapped : List Nat
  /-- the next block that a SWITCH in progress installs -/
  switching : Option Nat
  /-- damper: window start, limits in force (N 0 is no limit), tokens admitted, sources waiting and admitted (twice a
  channel, or one more than twice a stream of the region) -/
  winAt : Nat
  dampN : Nat
  dampW : Nat
  admitted : Nat
  dampWait : List Nat
  dampOk : List Nat
  deriving DecidableEq, Repr

/-- A KV area of a die (R328): its job, base word, slots, segments per slot and window. -/
structure KvArea where
  job : Nat
  base : Nat
  nslot : Nat
  nseg : Nat
  w : Nat
  deriving DecidableEq, Repr

/-- A slot of a KV area: its TAG, POS and the words put since its open, free when absent (R328). -/
structure KvSlot where
  tag : BitVec 8
  pos : Nat
  put : List Nat
  deriving DecidableEq, Repr

/-- The state of a generation (R311). -/
inductive GenSt where
  | free
  | live
  | ratified
  | squashing
  deriving DecidableEq, Repr

/-- An entry of the generation table (R311). -/
structure GenEnt where
  st : GenSt
  conf : Bool
  parent : BitVec 8
  pos : Nat
  tokid : Nat
  cump : Word
  lseq : Nat
  job : Nat
  /-- RSEQ of its launch record, none for an abort generation -/
  rseq : Option Nat
  /-- launched by the home root that this package has joined (R332) -/
  remote : Bool
  deriving DecidableEq, Repr

/-- A die's own copies (R68, R69): its DAVAIL, its region table over all dies, circuit tags, held launches and its place
in the arbiter's stream; its image cache (R76); its translation cache (R203); its KV areas (R328); its mirror of the
generation table (R311); its counts of soft errors (R356, R402). -/
structure Die where
  davail : BitVec 8
  /-- region table: region key to the blocks placed there -/
  table : Tab (List Nat)
  /-- circuit tag in use by a channel: its destination die and tag -/
  tags : Tab (Nat × Nat)
  fencedTiles : List Nat
  heldL : List Nat
  applied : Nat
  retired : Nat
  desync : Bool
  /-- image cache, most recently used first: job, address, words, and whether an error stands in it -/
  icache : List (Nat × Nat × TileImg × Bool)
  tlb : List TlbEnt
  kv : Tab KvArea
  kvSlots : Tab KvSlot
  mirror : Tab GenEnt
  ceCount : Nat
  slotUe : List Nat
  deriving DecidableEq, Repr

/-- A node of the draft heap (R313), and a relaunch that RATIFY has queued (R319). -/
structure HeapNode where
  parent : BitVec 8
  pos : Nat
  tokid : Nat
  cump : Word
  push : Nat
  deriving DecidableEq, Repr

/-- A speculation domain (R314). -/
structure Domain where
  lseq : Nat
  job : Nat
  unit : Nat
  die : Nat
  base : Nat
  log2 : Nat
  budget : Nat
  rseq : Nat
  deriving DecidableEq, Repr

/-- The kinds of message of the squash network (R323). -/
inductive MsgKind where
  | launch
  | ratify
  | squash
  | free
  deriving DecidableEq, Repr

/-- A message of the squash network (R323); its SEQ is its place in the root's log. A LAUNCH carries its entry. -/
structure Msg where
  kind : MsgKind
  job : Nat
  tags : List (BitVec 8)
  ent : Option GenEnt
  ratifies : Bool
  /-- its SEQ at the home root, for a message that a peer has received (R332) -/
  home : Option Nat
  deriving DecidableEq, Repr

/-- A request to the root (R317), with the launch and job of the firing pool, its GEN and its scalar operands. -/
structure RootReq where
  op : Op
  md : Nat
  gen : BitVec 8
  lseq : Nat
  job : Nat
  unit : Nat
  a0 : Word
  a1 : Word
  b0 : Word
  b1 : Word
  deriving DecidableEq, Repr

/-- The squash network root (R311 to R326). -/
structure Root where
  gens : Tab GenEnt
  heap : List HeapNode
  pushes : Nat
  relaunch : List HeapNode
  domain : Option Domain
  /-- launches whose domain has ended -/
  ended : List Nat
  /-- packages joined as peers (home side), and the home this package has joined -/
  peers : List Nat
  joined : Option (Nat × Nat)
  log : List Msg
  reqs : List RootReq
  /-- units that wait for a fresh generation: launch, unit, token id (R291) -/
  abortQ : List (Nat × Nat × Nat)
  /-- FREE messages not yet acknowledged by every endpoint -/
  frees : List Nat
  /-- SEQ acknowledged by each peer -/
  peerAck : Tab Nat
  deriving DecidableEq, Repr

/-- An entry of the bisque buffers (R287): stored bytes with their order of entry, poison marks, and for each word read
the source it returned (none inside is COMMITTED). -/
structure BEntry where
  job : Nat
  lseq : Nat
  unit : Nat
  ts : Nat
  gen : BitVec 8
  line : Nat
  bytes : Tab (Byte × Nat)
  psn : List Nat
  marks : Tab (Option Pos)
  deriving DecidableEq, Repr

/-- An event before it is written (R65): CODE, LSEQ, JOB, TIME and w2 to w7. -/
structure Event where
  code : Nat
  lseq : BitVec 32
  job : BitVec 6
  time : Nat
  w2 : Word
  w3 : Word
  w4 : Word
  w5 : Word
  w6 : Word
  w7 : Word
  deriving DecidableEq, Repr

/-- The event queue (R62 to R64): events held, events written so far, the lost count, whether the next write may
interrupt and the interrupts raised. The ring itself lies in host memory. The first `settled` of the events held arose in
earlier cycles: those of one cycle are put in order of place when it ends (R343). -/
structure EventQ where
  held : List Event
  settled : Nat
  written : Nat
  lost : Nat
  armed : Bool
  interrupts : Nat
  deriving DecidableEq, Repr

/-- Host-facing registers with state of their own (R48, R353, R375). -/
structure HostRegs where
  accept : List Word
  mismatch : Bool
  enabled : Bool
  dropped : BitVec 32
  saveShort : Bool
  lqRetry : BitVec 8
  evqBase : Word
  evqCfg : Word
  evqHead : Word
  saveBase : Word
  saveLen : BitVec 8
  yieldBound : BitVec 16
  thermCrit : BitVec 8
  thermResume : BitVec 8
  xnode : BitVec 10
  xinv : Option (Nat × Bool × Nat)
  /-- snapshot slots in use (R346) -/
  snapBusy : BitVec 8
  /-- what the last BAR2 read returned, with its poison (R383) -/
  bar2 : Word × Bool
  deriving DecidableEq, Repr

/-- The launch arbiter (R58, R59, R67). -/
structure Arbiter where
  nextLseq : Nat
  published : Nat
  hold : Bool
  stream : List StreamRec
  /-- block-table cache, most recently used first (R67) -/
  cache : List (Nat × Nat × ImgTab)
  deriving DecidableEq, Repr

/-- A segment of a flit body (R372) before it is coded: link-local channel or Craxon circuit. -/
inductive Seg where
  | tok (ch : Nat) (dnode : Nat) (xcid : Nat) (t : Tok) (run : Nat)
  | credit (ch : Nat) (dnode : Nat) (xcid : Nat) (n : Nat)
  | request (ch : Nat) (dnode : Nat) (xcid : Nat) (n : Nat)
  | marker (ch : Nat) (dnode : Nat) (xcid : Nat) (seq : Nat)
  deriving DecidableEq, Repr

/-- One direction of a link (R371 to R374, R379 to R381, R400, R401). -/
structure LinkDir where
  up : Bool
  /-- next FSEQ to send; the last 128 flits sent; flits on the wire with the segments they carry -/
  fseq : BitVec 16
  window : List Flit
  wire : List Flit
  segs : List (BitVec 16 × List Seg)
  pending : List Seg
  /-- receiver: next FSEQ expected; any other flit is discarded -/
  expect : BitVec 16
  retryAsked : Bool
  attempts : Nat
  failedTrains : Nat
  retrains : BitVec 32
  /-- by module (R15), or of a port: lanes in use and spares used -/
  mods : List (Nat × Nat)
  txTab : List Int
  rxTab : List Int
  /-- keys: key numbers held by transmitter and receiver, key phase of each, progress of a rollover -/
  txKey : Nat
  rxKey : Nat
  txOld : Option Nat
  rxNext : Option Nat
  txKp : Bool
  rxKp : Bool
  acked : Bool
  switchAt : Option (BitVec 16)
  /-- wraps of FSEQ at the transmitter and at the receiver, which the nonces are formed from (R371) -/
  epoch : Word
  rxEpoch : Word
  /-- the last ASEQ that the transmitter has received (R371) -/
  aseq : BitVec 16
  /-- flits sent under the key in use (R400) -/
  used : Nat
  deriving DecidableEq, Repr

/-- Power registers of the module (R387, R388); the reserve in µJ. -/
structure Power where
  cap : Nat
  reserve : Nat
  f : Nat
  alarm : Bool
  last : Nat
  undeclRate : Nat
  deriving DecidableEq, Repr

/-- A single-die reset in progress (R402): its step (0 the die has not left DAVAIL, 1 its regions are being saved, 2 it is in
quarantine), who asked for it, and when the die went into quarantine (device time in ns). -/
structure DieReset where
  chiplet : Nat
  step : Nat
  host : Bool
  since : Nat
  deriving DecidableEq, Repr

/-- The image slot of the flash (R405): the header's version, the digests of the image and of its manifest (indices 4 and 5 of
R396), and whether the slot holds an image that was written whole. -/
structure FlashImg where
  version : BitVec 32
  image : BitVec 512
  manifest : BitVec 512
  good : Bool
  deriving DecidableEq, Repr

/-- Trust and service (R393 to R410). -/
structure Trust where
  attested : BitVec 26
  quarantined : BitVec 26
  /-- every chiplet is halted until a cold reset: by a class-A alarm, or because IOD[0] failed its own measurement -/
  halted : Bool
  keysErased : Bool
  /-- the saggar's alias key pair, public then private, with its certificate, while it stands (R394) -/
  aliasKey : Option (Nat × Nat × Nat)
  /-- indices 4 and 5 as last measured: the running image and its manifest (R396) -/
  image : BitVec 512
  manifest : BitVec 512
  flash : FlashImg
  /-- the blocks of the last measurement report, by chiplet and index, and its signature (R396) -/
  report : List (Nat × Nat × BitVec 512)
  reportSig : Nat
  fwVersion : BitVec 32
  fwState : Nat
  fwResult : Nat
  fwStaged : Option (BitVec 64 × FwCheck)
  fused : Nat
  /-- the flash image has failed verification at a cold start; the recovery loader runs (R406) -/
  noFw : Bool
  recovery : Bool
  /-- an SPDM session: 0 none, 1 its key exchange is in progress, 2 open; the last reply: 0 none, 1 answered,
  2 UnsupportedRequest -/
  session : Nat
  spdmReply : Nat
  resets : List DieReset
  failed : List Nat
  cxlDown : List Nat
  /-- by stack: its spare channel is in use, repaired rows, exhausted -/
  hbm : Tab (Bool × Nat × Bool)
  /-- errors of a row of a stack, uncorrectable and corrected, with its bank group; spare rows used, by bank group; times of the last
  corrected errors of a channel in ns (R409) -/
  rows : Tab (Nat × Nat × Nat)
  rowSpares : Tab Nat
  chanCe : Tab (List Nat)
  /-- tiles with one uncorrectable error in their bank, and tiles to be fenced (R408) -/
  bankUe : List Nat
  fencing : List Nat
  deriving DecidableEq, Repr

/-- The thermal sequence (R358 to R360): off while the rails are removed, with the cancels recorded meanwhile; resuming
from their return until release resumes, with the time off in µs. -/
structure Thermal where
  off : Bool
  resuming : Bool
  critDies : List Nat
  cancels : List Word
  us : Nat
  /-- tiles awake with a shadow alone when the rails were removed: their banks and lasting state are in the full save, and are
  theirs again when the shadow is loaded again (R359) -/
  kept : List Nat
  deriving DecidableEq, Repr

/-- Memory (Machine/Ops.lean): listed bytes in address order, the words whose full-empty bit is full, and the poisoned
words, each in rising order. Log entry 4. -/
structure Mem where
  cells : List Host.Cell
  full : List Nat
  poison : List Nat
  deriving DecidableEq, Repr

/-- A saved block (R351, R352): its tiles' saved state and what a frame header tells. -/
structure Saved where
  bid : Nat
  rid : Nat
  tiles : List (Nat × Tile)
  /-- lane slices of the tiles, and in the full save their banks too -/
  slices : Mem
  cyc : Nat
  deriving DecidableEq, Repr

/-- What the schedule holds next: a firing chance of a pool, the end of a core's cycle, or a step of the device. -/
inductive Action where
  | fire (tile : Nat) (p : Pool)
  | tick (core : Nat)
  | op (i : Instr)
  deriving DecidableEq, Repr

/-- The slot that is firing: its tile, pool and number. -/
structure Focus where
  tile : Nat
  pool : Pool
  slot : Nat
  deriving DecidableEq, Repr

/-- Why a step stops. No rule of the manual stops the machine; the one fault guards states no run reaches. -/
inductive Fault where
  /-- a live slot holds a word that the setter's checks (R111) reject: raised by `step` only; R113 says no such slot
  exists. Safe. -/
  | badSlot (tile : Nat) (p : Pool) (slot : Nat)
  deriving DecidableEq, Repr

/-- Why an instruction has no meaning. -/
inductive Refusal where
  /-- raised by an arm of Machine/Dispatch.lean whose instruction has no meaning yet. Safe. -/
  | notModelled (mnemonic : String)
  deriving DecidableEq, Repr

/-- The state of the machine. The first group is the model's own: the schedule, the firing slot and the count of free
values taken. Every table's absent key stands for the reset value that Machine/Ops.lean names. -/
structure State where
  /-- what the schedule runs next (log entry 1) -/
  agenda : List Action
  focus : Focus
  /-- how many free values have been taken (log entry 3) -/
  freeCtr : Nat
  /-- cycles of the 1.7 GHz reference since reset, from which device time is told (R65) -/
  refCyc : Nat
  /-- arrivals at the homes of full-empty words, starts of copies and entries to the bisque buffers so far -/
  order : Nat
  host : HostRegs
  evq : EventQ
  arb : Arbiter
  lqs : Tab LaunchQ
  jobs : Tab Job
  launches : Tab Launch
  graphs : List Graph
  phases : List Phase
  dies : Tab Die
  regions : Tab Region
  blocks : Tab Block
  chans : Tab Chan
  tiles : Tab Tile
  /-- the four streams s0 to s3 that the AG pool of an L2 slice's streamer has of its own, by slice (R179); idle when absent -/
  streamers : Tab (List Stream)
  cores : Tab Core
  root : Root
  /-- messages applied by the endpoints that have no home elsewhere in the state (R323) -/
  epSeq : List (Endpoint × Nat)
  bisque : Tab (List BEntry)
  holds : Tab Hold
  ucaches : Tab (List TlbEnt)
  mem : Mem
  /-- host memory, which the event ring lies in -/
  hostMem : List Host.Cell
  links : Tab LinkDir
  xmap : Tab (Word × Word)
  /-- tokens in a Craxon port's store, by ingress entry; credits of an egress entry -/
  stores : Tab (List Item)
  xcredits : Tab Nat
  /-- credits and requests that came for a circuit before its egress entry was valid (R376) -/
  xearly : Tab (Nat × Nat)
  /-- circuit tag of an I/O die under which it carries a speculation circuit, by XMAP entry (R378) -/
  specTags : Tab (Nat × Nat)
  power : Power
  trust : Trust
  thermal : Thermal
  frames : Tab Saved
  deriving DecidableEq, Repr

/-- The registers of the host right after reset (R48, R353). -/
def HostRegs.reset : HostRegs where
  accept := [0, 0, 0, 0]
  mismatch := false
  enabled := false
  dropped := 0
  saveShort := false
  lqRetry := 16
  evqBase := 0
  evqCfg := 0
  evqHead := 0
  saveBase := 0
  saveLen := 0
  yieldBound := 200
  thermCrit := 105
  thermResume := 85
  xnode := 0
  xinv := none
  snapBusy := 0
  bar2 := (0, false)

/-- A die at reset: nothing placed, nothing cached, and DAVAIL clear until its chiplets attest (R397, R398). -/
def Die.reset : Die where
  davail := 0
  table := []
  tags := []
  fencedTiles := []
  heldL := []
  applied := 0
  retired := 0
  desync := false
  icache := []
  tlb := []
  kv := []
  kvSlots := []
  mirror := []
  ceCount := 0
  slotUe := []

/-- The squash network root at reset: every tag free (R311). -/
def Root.reset : Root where
  gens := []
  heap := []
  pushes := 0
  relaunch := []
  domain := none
  ended := []
  peers := []
  joined := none
  log := []
  reqs := []
  abortQ := []
  frees := []
  peerAck := []

/-- Trust at reset: no chiplet attested, every one but IOD[0] quarantined (R398). -/
def Trust.reset : Trust where
  attested := 0
  quarantined := 0x3FFFEFF
  halted := false
  keysErased := false
  aliasKey := none
  image := 0
  manifest := 0
  flash := ⟨0, 0, 0, true⟩
  report := []
  reportSig := 0
  fwVersion := 0
  fwState := 0
  fwResult := 0
  fwStaged := none
  fused := 0
  noFw := false
  recovery := false
  session := 0
  spdmReply := 0
  resets := []
  failed := []
  cxlDown := []
  hbm := []
  rows := []
  rowSpares := []
  chanCe := []
  bankUe := []
  fencing := []

/-- The machine right after reset: no job, launch, region or token; memory with nothing listed; the power registers of
R387 and R388. Where the manual states no value the log names it. -/
def State.reset : State where
  agenda := []
  focus := ⟨0, .pe, 0⟩
  freeCtr := 0
  refCyc := 0
  order := 0
  host := HostRegs.reset
  evq := ⟨[], 0, 0, 0, true, 0⟩
  arb := ⟨0, 0, false, [], []⟩
  lqs := []
  jobs := []
  launches := []
  graphs := []
  phases := []
  dies := []
  regions := []
  blocks := []
  chans := []
  tiles := []
  streamers := []
  cores := []
  root := Root.reset
  epSeq := []
  bisque := []
  holds := []
  ucaches := []
  mem := ⟨[], [], []⟩
  hostMem := []
  links := []
  xmap := []
  stores := []
  xcredits := []
  xearly := []
  specTags := []
  power := ⟨3000, 500000, 256, false, 0, 2⟩
  trust := Trust.reset
  thermal := ⟨false, false, [], [], 0, []⟩
  frames := []

end Sys2Proof.Machine
end

