-- ==== Sys2Proof/Machine/Ops.lean ====
section
/-! DEFINITION. The named operations over the state: memory (R23, R186, R260), the tables with the value an absent key
stands for, host events (R64, R65), the place word (R92), lineage (R312), and taking a fault with what resumes from
it (R340 to R342). -/

namespace Sys2Proof.Machine

open Sys2Proof

/-! ### Memory -/

/-- What a byte that nothing has written reads as (R237 for a bank on waking; elsewhere log entry 4). -/
def unlisted : Byte := 0

/-- Cells with one byte written, in canonical form: addresses strictly rising, no cell equal to `unlisted`. -/
def putCell (cs : List Host.Cell) (a : Nat) (b : Byte) : List Host.Cell :=
  match cs with
  | [] => if b = unlisted then [] else [(a, b)]
  | (i, c) :: rest =>
    if a < i then (if b = unlisted then (i, c) :: rest else (a, b) :: (i, c) :: rest)
    else if a = i then (if b = unlisted then rest else (a, b) :: rest)
    else (i, c) :: putCell rest a b

/-- The byte at an address. -/
def getCell (cs : List Host.Cell) (a : Nat) : Byte :=
  match cs with
  | [] => unlisted
  | (i, c) :: rest => if i = a then c else getCell rest a

/-- Cells above an address, strictly rising and none equal to `unlisted`. -/
def cellsFrom (lo : Nat) (cs : List Host.Cell) : Bool :=
  match cs with
  | [] => true
  | (i, c) :: rest => decide (lo ≤ i) && decide (c ≠ unlisted) && cellsFrom (i + 1) rest

/-- A rising list of numbers with one put in. -/
def putNat (xs : List Nat) (a : Nat) : List Nat :=
  match xs with
  | [] => [a]
  | x :: rest => if a < x then a :: x :: rest else if a = x then x :: rest else x :: putNat rest a

/-- A rising list of numbers with one taken out. -/
def delNat (xs : List Nat) (a : Nat) : List Nat :=
  match xs with
  | [] => []
  | x :: rest => if x = a then rest else x :: delNat rest a

/-- Strictly rising from a bound. -/
def natsFrom (lo : Nat) (xs : List Nat) : Bool :=
  match xs with
  | [] => true
  | x :: rest => decide (lo ≤ x) && natsFrom (x + 1) rest

/-- The canonical form of memory. -/
def Mem.wf (m : Mem) : Bool := cellsFrom 0 m.cells && natsFrom 0 m.full && natsFrom 0 m.poison

/-- One byte. -/
def Mem.byte (m : Mem) (a : Nat) : Byte := getCell m.cells a

/-- One byte written. -/
def Mem.setByte (m : Mem) (a : Nat) (b : Byte) : Mem := { m with cells := putCell m.cells a b }

/-- The word whose first byte is at a word address times eight, little-endian (R4). -/
def Mem.word (m : Mem) (w : Nat) : Word :=
  m.byte (8 * w + 7) ++ m.byte (8 * w + 6) ++ m.byte (8 * w + 5) ++ m.byte (8 * w + 4) ++
    m.byte (8 * w + 3) ++ m.byte (8 * w + 2) ++ m.byte (8 * w + 1) ++ m.byte (8 * w)

/-- Byte `i` of a word. -/
def byteOf (w : Word) (i : Nat) : Byte := w.extractLsb' (8 * i) 8

/-- The bytes of a word that a mask names, written in byte order from byte `i` on, `n` of them looked at. -/
def Mem.putBytes (m : Mem) (w : Nat) (mask : BitVec 8) (v : Word) (i n : Nat) : Mem :=
  match n with
  | 0 => m
  | n + 1 =>
    Mem.putBytes (if mask.getLsbD i then m.setByte (8 * w + i) (byteOf v i) else m) w mask v (i + 1) n

/-- The full-empty bit of a word (R186). -/
def Mem.isFull (m : Mem) (w : Nat) : Bool := m.full.contains w

/-- The full-empty bit written. -/
def Mem.setFull (m : Mem) (w : Nat) (b : Bool) : Mem :=
  { m with full := if b then putNat m.full w else delNat m.full w }

/-- The poison mark of a word (R260). -/
def Mem.isPsn (m : Mem) (w : Nat) : Bool := m.poison.contains w

/-- The poison mark written. -/
def Mem.setPsn (m : Mem) (w : Nat) (b : Bool) : Mem :=
  { m with poison := if b then putNat m.poison w else delNat m.poison w }

/-- A write of some bytes of a word with the poison of its data: a whole-word write sets the mark to it, a partial one
only raises it (R260). -/
def Mem.write (m : Mem) (w : Nat) (mask : BitVec 8) (v : Word) (psn : Bool) : Mem :=
  let m' := m.putBytes w mask v 0 8
  if mask = 0xFF then m'.setPsn w psn else if psn && mask != 0 then m'.setPsn w true else m'

/-- A whole word written. -/
def Mem.writeWord (m : Mem) (w : Nat) (v : Word) (psn : Bool) : Mem := m.write w 0xFF v psn

/-- Words from a word address on. -/
def Mem.words (m : Mem) (w n : Nat) : List Word := (List.range n).map fun i => m.word (w + i)

/-! The flat byte addresses of the memories: device physical addresses stand at themselves (R200); every on-chip memory
has a base above them. Log entry 4. -/

/-- First byte of a tile bank (64 KiB each). -/
def bankBase (tile : Nat) : Nat := 2 ^ 44 + tile * 2 ^ 16

/-- First byte of a cluster's shared memory (8 MiB each). -/
def cluBase (cluster : Nat) : Nat := 2 ^ 45 + cluster * 2 ^ 23

/-- First byte of a die's chip scratchpad (64 MiB each). -/
def chipBase (die : Nat) : Nat := 2 ^ 46 + die * 2 ^ 26

/-- First byte of a lane slice (2 KiB each). -/
def laneBase (tile lane : Nat) : Nat := 2 ^ 47 + tile * 2 ^ 14 + lane * 2 ^ 11

/-- First byte of a cluster's pugmill program store (R196). -/
def pmBase (cluster : Nat) : Nat := 2 ^ 48 + cluster * 2 ^ 10

/-! ### Units and their keys -/

/-- Die of a tile key. -/
def tileDie (k : Nat) : Nat := k / 1024

/-- x of a tile key. -/
def tileX (k : Nat) : Nat := k % 32

/-- y of a tile key. -/
def tileY (k : Nat) : Nat := k / 32 % 32

/-- The key of a tile (R18). -/
def tileKey (die x y : Nat) : Nat := die * 1024 + y * 32 + x

/-- The package-wide core of a tile: 8 × die + core (R18, R386). -/
def tileCore (k : Nat) : Nat := tileDie k * 8 + (tileX k / 8 + 4 * (tileY k / 16))

/-- The package-wide cluster of a core (R18). -/
def coreCluster (c : Nat) : Nat := c / 2

/-- The index of a tile in its core (R18). -/
def tileIdx (k : Nat) : Nat := tileX k % 8 + 8 * (tileY k % 16)

/-- The tile of an index in a core. -/
def coreTile (c t : Nat) : Nat :=
  tileKey (c / 8) (c % 4 * 8 + t % 8) (c / 4 % 2 * 16 + t / 8)

/-- An idle stream (R179). -/
def Stream.reset : Stream where
  st := .idle
  blk := Lanes.zero
  pos := 0
  ts := 0
  gen := 0
  chase := false
  out := 0
  endTok := false
  left := none
  node := 0
  link := 0
  step := 0
  stop := false
  stopEnd := false
  slice := none
  hold := none
  formed := none
  endDue := false
  missDue := none
  page := none
  unit := none
  slot := 0
  dirty := []

/-- A pool of a given kind as it is before any install (R83, log entry 6). -/
def PoolSt.reset (p : Pool) : PoolSt :=
  let wide := if p = .pe then 16 else 8
  let regs := if p = .pe then 16 else 4
  let aregs := if p = .pe then 8 else 4
  { kind := p
    slots := List.replicate wide none
    k := List.replicate 8 0
    v := List.replicate regs ⟨⟨Lanes.zero, 0, 0, false, 0, 0, 0, 0⟩, false⟩
    a := List.replicate aregs 0
    n0 := 0
    n1 := 0
    p := 0
    groups := []
    ins := List.replicate 4 InPort.none
    outs := List.replicate 4 OutPort.none
    inflight := []
    upd := none
    run := .running
    frec := none
    evts := []
    firedAt := none
    epochAt := 0
    reqs := []
    tickets := 0
    bind := none
    streams := List.replicate 4 Stream.reset
    agq := []
    ctrs := List.replicate 4 ⟨none, 0⟩
    dead := []
    ratified := []
    seq := 0 }

/-- The matrix engine on waking (R237). -/
def MxEng.reset : MxEng where
  scales := []
  badScales := []
  chk := []
  mode := 0
  cfg := ⟨31, 7, false, 0, 0⟩
  bucket := 512
  xv := []
  rules := []
  outRows := []
  gstart := 0
  glen := 0
  depthLim := 8
  gst := .ready
  ggen := 0
  gpsn := false
  passesDone := 0
  mismatches := 0
  passes := []
  work := none
  gremit := none
  heldWrites := []
  draft := none
  waitRows := []
  nextId := 1
  macros := 0
  ballast := 0

/-- A power-gated tile (R91, R237). -/
def Tile.reset : Tile where
  pe := PoolSt.reset .pe
  mx := PoolSt.reset .mx
  ag := PoolSt.reset .ag
  ps := 0
  eng := MxEng.reset
  block := none
  region := none
  gated := true
  gateDue := false
  shadow := none
  shadowBad := false
  liveAt := 0
  stranded := false
  fenced := false

/-- A core at reset, at its top clock (R386). -/
def Core.reset : Core where
  cyc := 0
  phase := 0
  cur := 68
  req := 68
  queues := []
  tmpls := []
  engs := List.replicate 4 ⟨none, 63⟩
  lastLoad := 0
  load := 0
  ballast := 0
  regulator := 0
  sparesUsed := 0
  exhausted := false

/-- A job that is free (R51, R387). -/
def Job.reset : Job where
  st := 0
  prio := 0
  ptroot := 0
  count := 0
  suspended := false
  suspPosted := false
  lastCommit := none
  lateCtr := 0
  dampN := 0
  dampW := 256
  undecl := 0

/-- A launch queue at reset. -/
def LaunchQ.reset : LaunchQ := ⟨0, 0, 0, [], 0, 0, []⟩

/-- Modules of a link between chiplets (R15); a Craxon port counts as one. -/
def linkModules (l : Nat) : Nat := if l < 8 then 4 else if l < 12 then 10 else 1

/-- Lanes in use of a module with every lane whole (R15, R374), or four of a Craxon port. -/
def linkLanes (l : Nat) : Nat := if l < 12 then 64 else 4

/-- A fresh exponent table: entry i holds −i (R381). -/
def freshTab : List Int := (List.range 16).map fun i : Nat => -(i : Int)

/-- A link direction at reset (R381). -/
def LinkDir.reset (l : Nat) : LinkDir where
  up := true
  fseq := 0
  window := []
  wire := []
  segs := []
  pending := []
  expect := 0
  retryAsked := false
  attempts := 0
  failedTrains := 0
  retrains := 0
  mods := List.replicate (linkModules l) (linkLanes l, 0)
  txTab := freshTab
  rxTab := freshTab
  txKey := 0
  rxKey := 0
  txOld := none
  rxNext := none
  txKp := false
  rxKp := false
  acked := false
  switchAt := none
  epoch := 0
  rxEpoch := 0
  aseq := 0xFFFF
  used := 0

/-- An empty copy queue (R189). -/
def CopyQueue.reset : CopyQueue := ⟨none, [], 0⟩

/-- A template that was never armed (R190). -/
def Template.reset : Template := ⟨Lanes.zero, [], false, 0, none⟩

/-- A free generation-table entry (R311). -/
def GenEnt.reset : GenEnt := ⟨.free, false, 0, 0, 0, 0, 0, 0, none, false⟩

/-- A unit that has not begun to run under any generation but 0 (R29). -/
def UnitSt.reset : UnitSt := ⟨[], [], false⟩

/-! ### Reading and writing the tables of the state -/

def State.tile (s : State) (k : Nat) : Tile := Tab.get s.tiles k Tile.reset
def State.setTile (s : State) (k : Nat) (t : Tile) : State := { s with tiles := Tab.set s.tiles k t }
def State.core (s : State) (c : Nat) : Core := Tab.get s.cores c Core.reset
def State.setCore (s : State) (c : Nat) (k : Core) : State := { s with cores := Tab.set s.cores c k }
def State.die (s : State) (d : Nat) : Die := Tab.get s.dies d Die.reset
def State.setDie (s : State) (d : Nat) (x : Die) : State := { s with dies := Tab.set s.dies d x }
def State.job (s : State) (j : Nat) : Job := Tab.get s.jobs j Job.reset
def State.setJob (s : State) (j : Nat) (x : Job) : State := { s with jobs := Tab.set s.jobs j x }
def State.lq (s : State) (q : Nat) : LaunchQ := Tab.get s.lqs q LaunchQ.reset
def State.setLq (s : State) (q : Nat) (x : LaunchQ) : State := { s with lqs := Tab.set s.lqs q x }
def State.link (s : State) (l : Nat) (dir : Bool) : LinkDir := Tab.get s.links (2 * l + b01 dir) (LinkDir.reset l)
def State.setLink (s : State) (l : Nat) (dir : Bool) (x : LinkDir) : State :=
  { s with links := Tab.set s.links (2 * l + b01 dir) x }
def State.setChan (s : State) (c : Nat) (x : Chan) : State := { s with chans := Tab.set s.chans c x }
def State.setRegion (s : State) (r : Nat) (x : Region) : State := { s with regions := Tab.set s.regions r x }
def State.setBlock (s : State) (b : Nat) (x : Block) : State := { s with blocks := Tab.set s.blocks b x }
def State.setLaunch (s : State) (l : Nat) (x : Launch) : State := { s with launches := Tab.set s.launches l x }

/-- A channel changed where it exists. -/
def State.modChan (s : State) (c : Nat) (f : Chan → Chan) : State :=
  match Tab.get? s.chans c with
  | some x => s.setChan c (f x)
  | none => s

/-- A region changed where it exists. -/
def State.modRegion (s : State) (r : Nat) (f : Region → Region) : State :=
  match Tab.get? s.regions r with
  | some x => s.setRegion r (f x)
  | none => s

/-- A block changed where it exists. -/
def State.modBlock (s : State) (b : Nat) (f : Block → Block) : State :=
  match Tab.get? s.blocks b with
  | some x => s.setBlock b (f x)
  | none => s

/-- A launch changed where it exists. -/
def State.modLaunch (s : State) (l : Nat) (f : Launch → Launch) : State :=
  match Tab.get? s.launches l with
  | some x => s.setLaunch l (f x)
  | none => s

/-- A pool of a tile. -/
def Tile.pool (t : Tile) : Pool → PoolSt
  | .pe => t.pe
  | .mx => t.mx
  | .ag => t.ag

/-- A tile with one pool replaced. -/
def Tile.setPool (t : Tile) (p : Pool) (x : PoolSt) : Tile :=
  match p with
  | .pe => { t with pe := x }
  | .mx => { t with mx := x }
  | .ag => { t with ag := x }

/-- A tile with one pool changed. -/
def Tile.modPool (t : Tile) (p : Pool) (f : PoolSt → PoolSt) : Tile := t.setPool p (f (t.pool p))

/-- The state with one pool of a tile changed. -/
def State.modPool (s : State) (k : Nat) (p : Pool) (f : PoolSt → PoolSt) : State :=
  s.setTile k ((s.tile k).modPool p f)

/-- The state with memory replaced. -/
def State.setMem (s : State) (m : Mem) : State := { s with mem := m }

/-- The next free value that the manual leaves open (log entry 3), and the state that has taken it. -/
def State.takeFree (s : State) : BitVec 64 × State := (Config.freeValue s.freeCtr, { s with freeCtr := s.freeCtr + 1 })

/-- The next number of an order of arrival. -/
def State.takeOrder (s : State) : Nat × State := (s.order, { s with order := s.order + 1 })

/-! ### Launches and blocks -/

/-- Word n of a launch packet (R55). -/
def Launch.w (l : Launch) (n : Nat) : Word := l.words.getD n 0

def Launch.prio (l : Launch) : Nat := fld (l.w 0) 63 60
def Launch.job (l : Launch) : Nat := fld (l.w 0) 43 38
def Launch.unitCount (l : Launch) : Nat := fld (l.w 0) 31 0
def Launch.imgva (l : Launch) : Nat := fld (l.w 1) 51 0
def Launch.phase (l : Launch) : Nat := fld (l.w 2) 63 48
def Launch.tsbase (l : Launch) : Nat := fld (l.w 2) 47 0
def Launch.graph (l : Launch) : Nat := fld (l.w 3) 63 32
def Launch.stride (l : Launch) : Nat := fld (l.w 3) 31 0
def Launch.firstBlk (l : Launch) : Nat := fld (l.w 4) 63 56
def Launch.lastBlk (l : Launch) : Nat := fld (l.w 4) 55 48
def Launch.dieMask (l : Launch) : Nat := fld (l.w 4) 47 40
def Launch.place (l : Launch) : Nat := fld (l.w 4) 39 38
def Launch.wmark (l : Launch) : Nat := fld (l.w 4) 31 0
def Launch.quiet (l : Launch) : Bool := bit (l.w 0) 55
def Launch.lastP (l : Launch) : Bool := bit (l.w 0) 54
def Launch.lastG (l : Launch) : Bool := bit (l.w 0) 53
def Launch.inval (l : Launch) : Bool := bit (l.w 0) 52

/-- Unit `i`'s timestamp (R36). -/
def Launch.ts (l : Launch) (i : Nat) : Nat := l.tsbase + l.stride * i

/-- State of unit `i` of a launch. -/
def Launch.unit (l : Launch) (i : Nat) : UnitSt := Tab.get l.units i UnitSt.reset

/-- The block whose configuration is live in a tile. -/
def State.blockOf (s : State) (k : Nat) : Option Block := (s.tile k).block.bind fun b => Tab.get? s.blocks b

/-- The launch of the block whose configuration is live in a tile. -/
def State.launchOf (s : State) (k : Nat) : Option Launch := (s.blockOf k).bind fun b => Tab.get? s.launches b.lseq

/-! ### Events -/

/-- Device time in ns since reset (R65). -/
def State.time (s : State) : Nat := s.refCyc * 10 / 17

/-- An event with its header fields (R65). -/
def mkEvent (s : State) (code : Nat) (lseq : Option Nat) (job : Nat) (w2 w3 w4 w5 w6 w7 : Word) : Event :=
  ⟨code, BitVec.ofNat 32 (lseq.getD 0xFFFFFFFF), BitVec.ofNat 6 job, s.time, w2, w3, w4, w5, w6, w7⟩

/-- An event that is never dropped joins the events held (R64). The manual does not say what happens when 4,096 events are
held already: the model keeps it all the same, DESIGN CHOICE of log entry 92. -/
def State.post (s : State) (e : Event) : State := { s with evq := { s.evq with held := s.evq.held ++ [e] } }

/-- An event of the device with its code and words; words not given are zero. -/
def State.report (s : State) (code : Nat) (lseq : Option Nat) (job : Nat) (w2 w3 w4 w5 : Word) : State :=
  s.post (mkEvent s code lseq job w2 w3 w4 w5 0 0)

/-- A program event: dropped and counted when the buffer is more than half full (R64). -/
def State.postEvt (s : State) (e : Event) : State :=
  if Config.eventHold / 2 < s.evq.held.length then { s with evq := { s.evq with lost := s.evq.lost + 1 } }
  else s.post e

/-- All ones, for a place word of an event that has no place (R385). -/
def ones : Word := BitVec.allOnes 64

/-- The place word of R92. -/
def placeWord (die x y : Nat) (pool slot : Nat) (blk : Nat) : Word :=
  place slot 36 ||| place pool 34 ||| place y 29 ||| place x 24 ||| place blk 16 ||| place die 0

/-- The place word of a slot or input of a pool. -/
def State.placeOf (s : State) (k : Nat) (p : Pool) (slot : Nat) : Word :=
  placeWord (tileDie k) (tileX k) (tileY k) p.code slot ((s.blockOf k).elim 0xFF fun b => b.idx)

/-- The place word of a block without a tile: TILE, POOL and SLOT all ones (R420). -/
def blockPlace (die blk : Nat) : Word := placeWord die 31 31 3 15 blk

/-- The place word of a copy engine's event (R206): the core's south-west tile, POOL all ones, the queue in SLOT and
QHI; the block is that of the pool which posted the copy. -/
def State.placeOfCopy (c q blk : Nat) : Word :=
  let k := coreTile c 0
  place (q / 16) 40 ||| placeWord (tileDie k) (tileX k) (tileY k) 3 (q % 16) blk

/-! ### Lineage (R289, R312) -/

/-- Whether `h` is reached from `g` through PARENT, in at most `n` steps. -/
def reaches (m : Tab GenEnt) (h : Nat) : Nat → Nat → Bool
  | 0, _ => false
  | n + 1, g =>
    if g = h then true
    else if g = 0 then false
    else reaches m h n (Tab.get m g GenEnt.reset).parent.toNat

/-- `h` lies in the lineage of `g`: it is 0, it is `g`, or it is an ancestor of `g`. -/
def inLineage (m : Tab GenEnt) (h g : BitVec 8) : Bool := h == 0 || reaches m h.toNat 257 g.toNat

/-- Whichever of two tags descends from the other (R133); none where neither does. -/
def younger (m : Tab GenEnt) (g h : BitVec 8) : Option (BitVec 8) :=
  if inLineage m h g then some g else if inLineage m g h then some h else none

/-- A tag as an endpoint that has applied its RATIFY counts it (R324). -/
def asRatified (rs : List (BitVec 8)) (g : BitVec 8) : BitVec 8 := if rs.contains g then 0 else g

/-- The younger of two tags at an endpoint that counts the tags `rs` as 0 where their lineage is no longer told apart
(R133, R324). -/
def youngerAt (m : Tab GenEnt) (rs : List (BitVec 8)) (g h : BitVec 8) : Option (BitVec 8) :=
  (younger m g h).orElse fun _ => younger m (asRatified rs g) (asRatified rs h)

/-! ### Taking a fault, and resuming from one (R340 to R342) -/

/-- A held launch keeps its regions, units and state until a cancel (R342). -/
def State.holdLaunch (s : State) (lseq : Nat) : State := s.modLaunch lseq fun l => { l with faulted := true }

/-- A launch has retired: every fault event of it precedes its retirement event, so none follows (R343). -/
def State.isRetired (s : State) (lseq : Nat) : Bool := (Tab.get? s.launches lseq).any fun l => l.st == .retired

/-- Posts the event of a pool's fault record and holds its launch (R341); nothing of a launch that has retired (R343). -/
def State.deliverFault (s : State) (k : Nat) (p : Pool) (r : FaultRec) : State :=
  let lseq := (s.blockOf k).map (·.lseq)
  if lseq.any s.isRetired then s
  else
    let s1 := s.report r.code lseq ((s.blockOf k).elim 0 (·.job)) (s.placeOf k p r.slot) r.w3 r.w4 r.w5
    match lseq with
    | some l => s1.holdLaunch l
    | none => s1

/-- The fault record of a pool that stops (R340). A pool that has halted or yielded stays so, whatever becomes of the record
(R280, R348). -/
def PoolSt.stop (x : PoolSt) (r : FaultRec) : PoolSt :=
  { x with run := if x.run = .halted || x.run = .yielded then x.run else .faulted, frec := some r }

/-- Whether a fault of generation `g` is delivered at once: GEN 0, or ratified in the pool or in the mirror of its die
(R324, R341). -/
def State.deliversNow (s : State) (k : Nat) (p : Pool) (g : BitVec 8) : Bool :=
  asRatified ((s.tile k).pool p).ratified g == 0 || (Tab.get (s.die (tileDie k)).mirror g.toNat GenEnt.reset).st == .ratified

/-- Takes a fault (R340): the pool stops with its record; by the state of the record's GEN the event is posted and the
launch held, or the record waits (R341). A stopped pool raises no further fault. -/
def State.raise (s : State) (k : Nat) (p : Pool) (slot : Nat) (code : Nat) (gen : BitVec 8) (w3 w4 w5 : Word) : State :=
  if ((s.tile k).pool p).frec.isSome then s
  else
    let now := s.deliversNow k p gen
    let r : FaultRec := ⟨code, gen, slot, w3, w4, w5, now⟩
    let s1 := s.modPool k p (·.stop r)
    if now then s1.deliverFault k p r else s1

/-- A pool's fault record is discarded: at its application of a SQUASH of the record's GEN (R341). A pool that the record
stopped fires again from the next cycle; one that has halted or yielded does not. -/
def PoolSt.resume (x : PoolSt) : PoolSt :=
  { x with run := if x.run = .faulted then .resuming else x.run, frec := none }

/-- The cycle in which a record was discarded has ended (R341). -/
def PoolSt.awaken (x : PoolSt) : PoolSt := if x.run = .resuming then { x with run := .running } else x

end Sys2Proof.Machine
end

