-- ==== Sys2Proof/Machine/Flags.lean ====
section
/-! DEFINITION. The predicates of a pool and their writes (R21, R95, R102), and the counters n0 and n1 (R140). -/

namespace Sys2Proof.Machine

open Sys2Proof

/-- p7 to p0 as a pool sees them: p4 to p7 are the tile's, p0 to p3 its own (R21). -/
def Tile.preds (t : Tile) (p : Pool) : BitVec 8 := t.ps ++ (t.pool p).p

/-- Predicate n as a pool sees it. -/
def Tile.pred (t : Tile) (p : Pool) (n : Nat) : Bool := (t.preds p).getLsbD n

/-- A four-bit set with one bit written. -/
def setBit4 (x : BitVec 4) (i : Nat) (v : Bool) : BitVec 4 :=
  if v then x ||| BitVec.ofNat 4 (2 ^ i) else x &&& ~~~BitVec.ofNat 4 (2 ^ i)

/-- Predicate n written by a pool (R102): p4 to p7 in the tile, p0 to p3 in the pool. -/
def Tile.setPred (t : Tile) (p : Pool) (n : Nat) (v : Bool) : Tile :=
  if 4 ≤ n then { t with ps := setBit4 t.ps (n - 4) v } else t.modPool p fun x => { x with p := setBit4 x.p n v }

/-- The update of the slot that fired in the cycle, applied after the pool's results (R95, R102). -/
def Tile.applyUpd (t : Tile) (p : Pool) : Tile :=
  match (t.pool p).upd with
  | some (n, v) => (t.setPred p n.toNat v).modPool p fun x => { x with upd := none }
  | none => t

/-- The predicate part of a trigger (R94): every cared-for predicate has its required value. -/
def predsHold (preds pm pv : BitVec 8) : Bool := preds &&& pm == pv

/-- Counter nC of a pool (R140). -/
def PoolSt.counter (x : PoolSt) (c : Bool) : BitVec 32 := if c then x.n1 else x.n0

/-- Counter nC written. -/
def PoolSt.setCounter (x : PoolSt) (c : Bool) (v : BitVec 32) : PoolSt :=
  if c then { x with n1 := v } else { x with n0 := v }

end Sys2Proof.Machine
end

