-- ==== Sys2Proof/Machine/Numbers.lean ====
section
/-! DEFINITION. Numbers: WF (R158 to R161), block scales and aligned blocks (R162 to R164), storage formats (R168 to
R173, R419), and the sum inside a macro (R175, R246). Values are exact dyadic numbers until the one rounding. -/

namespace Sys2Proof.Machine

open Sys2Proof

/-- floor(log2 |m × 2^e|), m nonzero. -/
def ilog2 (m e : Int) : Int := (Nat.log2 m.natAbs : Int) + e

/-- rnd_int(m / 2^k) under a rounding mode (R161). -/
def rndDiv (m : Int) (k : Nat) (rm : Nat) : Int :=
  let d : Int := 2 ^ k
  let q := m / d
  let r := m % d
  match rm with
  | 0 => if 2 * r < d then q else if d < 2 * r then q + 1 else if q % 2 = 0 then q else q + 1
  | 1 => if m < 0 && r != 0 then q + 1 else q
  | 2 => q
  | _ => if r = 0 then q else q + 1

/-- rnd_int(m × 2^e) under a rounding mode (R161). -/
def rndInt (m e : Int) (rm : Nat) : Int := if 0 ≤ e then m * 2 ^ e.toNat else rndDiv m (-e).toNat rm

/-- The WF encoding with exponent E and significand S (R158). -/
def wfWord (e s : Int) : Word := BitVec.ofInt 14 e ++ BitVec.ofInt 50 s

/-- The exponent of a WF encoding. -/
def wfE (w : Word) : Int := (w.extractLsb' 50 14).toInt

/-- The significand of a WF encoding. -/
def wfS (w : Word) : Int := (w.extractLsb' 0 50).toInt

def wfNaN : Word := 0x8000000000000000
def wfPInf : Word := 0x8000000000000001
def wfNInf : Word := 0x8003FFFFFFFFFFFF
def wfOne : Word := 0x0001000000000000

/-- The value a WF source is read as (R160). -/
def Val.ofWf (w : Word) : Val :=
  if wfE w = -8192 then (if wfS w = 1 then .inf false else if wfS w = -1 then .inf true else .nan)
  else .fin (wfS w) (wfE w - 48)

/-- round_wf of m × 2^e (R161). -/
def roundWf (m e : Int) (rm : Nat) : Word :=
  if m = 0 then 0
  else
    let ex := if 0 < m then ilog2 m e
      else if m = -1 then e - 1 else (Nat.log2 (m.natAbs - 1) : Int) + e
    let n := rndInt m (e - ex + 48) rm
    let (n, ex) := if n = 2 ^ 49 then (2 ^ 48, ex + 1) else if n = -2 ^ 48 then (-2 ^ 49, ex - 1) else (n, ex)
    if 8191 < ex then (if 0 < m then wfPInf else wfNInf)
    else if ex < -8191 then 0
    else wfWord ex n

/-- The WF encoding of a value, rounded once. -/
def Val.toWf (v : Val) (rm : Nat) : Word :=
  match v with
  | .nan => wfNaN
  | .inf false => wfPInf
  | .inf true => wfNInf
  | .fin m e => roundWf m e rm

/-- Whether a value is zero. -/
def Val.isZero : Val → Bool
  | .fin m _ => m = 0
  | _ => false

/-- Whether a value is NaN. -/
def Val.isNan : Val → Bool
  | .nan => true
  | _ => false

/-- m × 2^e < n × 2^f. -/
def dyLt (m e n f : Int) : Bool :=
  let g := min e f
  m * 2 ^ (e - g).toNat < n * 2 ^ (f - g).toNat

/-- m × 2^e + n × 2^f as a dyadic pair. -/
def dyAdd (m e n f : Int) : Int × Int :=
  let g := min e f
  (m * 2 ^ (e - g).toNat + n * 2 ^ (f - g).toNat, g)

/-- The order of values that are not NaN. -/
def Val.lt : Val → Val → Bool
  | .inf true, .inf true => false
  | .inf true, _ => true
  | _, .inf true => false
  | .inf false, _ => false
  | _, .inf false => true
  | .fin m e, .fin n f => dyLt m e n f
  | _, _ => false

/-- i_to_wf of a lane (R166). -/
def iToWf (w : Word) : Word := roundWf w.toInt 0 0

/-- An integer clamped to a signed range of n bits. -/
def clampS (n : Nat) (x : Int) : Int := min (max x (-(2 ^ (n - 1)))) (2 ^ (n - 1) - 1)

/-- wf_to_i64 of a lane (R166). -/
def wfToI64 (w : Word) : Word :=
  match Val.ofWf w with
  | .nan => 0
  | .inf false => BitVec.ofInt 64 (2 ^ 63 - 1)
  | .inf true => BitVec.ofInt 64 (-(2 ^ 63))
  | .fin m e => BitVec.ofInt 64 (clampS 64 (rndInt m e 0))

/-! ### Aligned blocks (R162 to R164) -/

/-- One step of align_block's loop at scale x: the significands. -/
def alignQ (v : List Val) (f x : Int) (rm : Nat) : List Int :=
  v.map fun a => match a with
    | .fin m e => rndInt m (e + f - x) rm
    | _ => 0

/-- align_block (R164): the S12 scale and the significands. -/
def alignBlock (v : List Val) (bits : Nat) (rm : Nat) (sat : Bool) : Int × List Int :=
  let f : Int := if bits = 8 then 6 else 2
  let lo : Int := -(2 ^ (bits - 1))
  let hi : Int := 2 ^ (bits - 1) - 1
  let zeros := v.map fun _ => (0 : Int)
  if v.any (fun a => match a with | .fin _ _ => false | _ => true) then (-2048, zeros)
  else if v.all Val.isZero then (-2047, zeros)
  else
    let top := v.foldl (fun acc a => match a with
      | .fin m e => if m = 0 then acc else max acc (ilog2 m e)
      | _ => acc) (-100000)
    let attempt : Int → Option (Int × List Int) := fun x0 =>
      let x := max x0 (-2047)
      if 2047 < x then
        some (if sat then (2047, (alignQ v f 2047 rm).map fun q => min (max q lo) hi) else (-2048, zeros))
      else
        let q := alignQ v f x rm
        if q.all (fun a => lo ≤ a && a ≤ hi) then some (x, q) else none
    match attempt top with
    | some r => r
    | none => match attempt (max top (-2047) + 1) with
      | some r => r
      | none => (attempt (max top (-2047) + 2)).getD (-2048, zeros)

/-- The elements of a 64-bit lane as n-bit two's complement numbers. -/
def laneElems (w : Word) (n : Nat) : List Int :=
  (List.range (64 / n)).map fun i => sextBits (w.toNat / 2 ^ (n * i)) n

/-- A lane packed from n-bit elements. -/
def packLane (qs : List Int) (n : Nat) : Word :=
  qs.foldr (fun q acc => (acc <<< n) ||| (BitVec.ofInt 64 q &&& BitVec.ofNat 64 (2 ^ n - 1))) 0

/-- The scale of the block that lane i of an aligned token belongs to (R124). -/
def tokScale (t : Tok) (lane : Nat) : Int := sextBits (t.side.toNat / 2 ^ (if lane < 4 then 0 else 12)) 12

/-- SIDE of an aligned token, from its two scales. -/
def sideOfScales (lo hi : Int) : BitVec 24 := BitVec.ofInt 12 hi ++ BitVec.ofInt 12 lo

/-- The exact value of one aligned element with its scale (R163). -/
def alnVal (q x : Int) (bits : Nat) : Val := if x = -2048 then .nan else .fin q (x - (if bits = 8 then 6 else 2))

/-- The exact values of lane i of an aligned token; an invalid lane's elements read as zero (R163). -/
def alnLane (t : Tok) (i : Nat) : List Val :=
  let bits := if t.fmt = 4 then 8 else 4
  (laneElems (t.lanes.get i) bits).map fun q => alnVal (if t.mask.getLsbD i then q else 0) (tokScale t i) bits

/-! ### Storage formats (R168 to R173, R419) -/

/-- A floating storage format (R169): sign, exponent width, trailing width, bias, bits of an element, and its special
codes. -/
structure FloatFmt where
  signed : Bool
  w : Nat
  t : Nat
  bias : Int
  bits : Nat
  nan : Option Nat
  /-- every NaN code lies at e = all ones with f nonzero, or is listed -/
  ieee : Bool
  nans : List Nat
  pinf : Option Nat
  ninf : Option Nat
  maxCode : Nat
  deriving DecidableEq, Repr

/-- A P3109 binary8 format (R168, R169). -/
def p3109 (u x : Bool) (p : Nat) : FloatFmt :=
  if u then ⟨false, 9 - p, p - 1, 2 ^ (8 - p), 8, some 0xFF, false, [0xFF], if x then some 0xFE else none, none,
    if x then 0xFD else 0xFE⟩
  else ⟨true, 8 - p, p - 1, 2 ^ (7 - p), 8, some 0x80, false, [0x80], if x then some 0x7F else none,
    if x then some 0xFF else none, if x then 0x7E else 0x7F⟩

/-- The floating formats by code. -/
def floatFmt (c : Nat) : Option FloatFmt :=
  match c with
  | 0x08 => some ⟨true, 8, 7, 127, 16, some 0x7FC0, true, [], some 0x7F80, some 0xFF80, 0x7F7F⟩
  | 0x09 => some ⟨true, 5, 10, 15, 16, some 0x7E00, true, [], some 0x7C00, some 0xFC00, 0x7BFF⟩
  | 0x0A => some ⟨true, 8, 23, 127, 32, some 0x7FC00000, true, [], some 0x7F800000, some 0xFF800000, 0x7F7FFFFF⟩
  | 0x10 => some ⟨true, 5, 2, 15, 8, some 0x7E, true, [], some 0x7C, some 0xFC, 0x7B⟩
  | 0x11 => some ⟨true, 4, 3, 7, 8, some 0x7F, false, [0x7F, 0xFF], none, none, 0x7E⟩
  | 0x12 => some ⟨true, 3, 2, 3, 6, none, false, [], none, none, 0x1F⟩
  | 0x13 => some ⟨true, 2, 3, 1, 6, none, false, [], none, none, 0x1F⟩
  | 0x14 => some ⟨true, 2, 1, 1, 4, none, false, [], none, none, 0x7⟩
  | _ => if 0x20 ≤ c && c < 0x40 && c % 8 != 0 then some (p3109 (c / 16 % 2 = 1) (c / 8 % 2 = 1) (c % 8)) else none

/-- The integer formats by code: bits and signedness (R168). -/
def intFmt (c : Nat) : Option (Nat × Bool) :=
  match c with
  | 0 => some (8, true)
  | 1 => some (8, false)
  | 2 => some (16, true)
  | 3 => some (16, false)
  | 4 => some (32, true)
  | 5 => some (32, false)
  | 6 => some (64, true)
  | 7 => some (64, false)
  | _ => none

/-- RAW64. -/
def fmtRaw : Nat := 0x0B

/-- E8M0. -/
def fmtE8m0 : Nat := 0x15

/-- Bits of an element of a storage format; none for a reserved code (R168, R170). -/
def fmtBits (c : Nat) : Option Nat :=
  if c = fmtRaw then some 64
  else if c = fmtE8m0 then some 8
  else match intFmt c with
    | some (n, _) => some n
    | none => (floatFmt c).map (·.bits)

/-- The exact value of a code of a floating format (R169, R171). -/
def FloatFmt.decode (f : FloatFmt) (c : Nat) : Val :=
  let fr := c % 2 ^ f.t
  let e := c / 2 ^ f.t % 2 ^ f.w
  let neg := f.signed && c / 2 ^ (f.bits - 1) % 2 = 1
  if f.pinf = some c then .inf false
  else if f.ninf = some c then .inf true
  else if (f.ieee && e = 2 ^ f.w - 1) || f.nans.contains c then .nan
  else
    let (m, x) : Int × Int := if e = 0 then ((fr : Int), 1 - f.bias - f.t)
      else ((2 ^ f.t + fr : Nat), (e : Int) - f.bias - f.t)
    .fin (if neg then -m else m) x

/-- The code of ±M. -/
def FloatFmt.maxOf (f : FloatFmt) (neg : Bool) : Nat :=
  if neg then f.maxCode + 2 ^ (f.bits - 1) else f.maxCode

/-- to_fmt (R172): the code, and whether a NaN was written as zero. -/
def FloatFmt.encode (f : FloatFmt) (v : Val) (rm : Nat) (sat : Bool) : Nat × Bool :=
  match v with
  | .nan => match f.nan with
    | some c => (c, false)
    | none => (0, true)
  | .inf neg =>
    if !f.signed && neg then (if sat then (0, false) else (f.nan.getD 0, false))
    else match (if neg then f.ninf else f.pinf), sat with
      | some c, false => (c, false)
      | _, _ => if sat || f.nan.isNone then (f.maxOf neg, false) else (f.nan.getD 0, false)
  | .fin m e =>
    if m = 0 then (0, false)
    else
      let q := max (ilog2 m e) (1 - f.bias)
      let n := rndInt m (e - (q - f.t)) rm
      if !f.signed && m < 0 then (if sat || n = 0 then (0, false) else (f.nan.getD 0, false))
      else if n = 0 then (0, false)
      else
        let tooBig := match f.decode f.maxCode with
          | .fin mm me => dyLt mm me n.natAbs (q - f.t)
          | _ => false
        let neg := decide (n < 0)
        if tooBig then
          (if sat || (f.nan.isNone && f.pinf.isNone) then (f.maxOf neg, false)
           else match (if neg then f.ninf else f.pinf) with
             | some c => (c, false)
             | none => (f.nan.getD 0, false))
        else
          let mag := n.natAbs
          let body : Nat :=
            if mag < 2 ^ f.t then mag
            else
              let (mag, q) := if mag = 2 ^ (f.t + 1) then (2 ^ f.t, q + 1) else (mag, q)
              (q + f.bias).toNat * 2 ^ f.t + (mag - 2 ^ f.t)
          (if neg then body + 2 ^ (f.bits - 1) else body, false)

/-- An integer written into an integer format: clamped or cut to its low bits (R173). -/
def encodeInt (n : Nat) (signed : Bool) (x : Int) (sat : Bool) : Nat :=
  let lo : Int := if signed then -(2 ^ (n - 1)) else 0
  let hi : Int := if signed then 2 ^ (n - 1) - 1 else 2 ^ n - 1
  let y := if sat then min (max x lo) hi else x
  (y % 2 ^ n).toNat

/-- An E8M0 byte of a value (R419). -/
def encodeE8m0 (v : Val) (rm : Nat) (sat : Bool) : Nat :=
  match v with
  | .nan => 0xFF
  | .inf neg => if sat then (if neg then 0x00 else 0xFE) else 0xFF
  | .fin m e =>
    let n := rndInt m e rm
    if (dyAdd m e 2048 0).1 = 0 then 0xFF
    else if -127 ≤ n && n ≤ 127 then (n + 127).toNat
    else if sat then (if n < 0 then 0x00 else 0xFE) else 0xFF

/-- The integer an E8M0 byte reads as (R419). -/
def decodeE8m0 (c : Nat) : Int := if c = 0xFF then -2048 else (c : Int) - 127

/-- The exact value of a stored element as a copy or a stream of TFMT WF decodes it; a RAW64 word is read as a WF
encoding (R171, R193, R419). -/
def decodeElem (fmt c : Nat) : Val :=
  if fmt = fmtRaw then Val.ofWf (w64 c)
  else if fmt = fmtE8m0 then .fin (decodeE8m0 c) 0
  else match intFmt fmt with
    | some (n, signed) => .fin (if signed then sextBits c n else (c : Int)) 0
    | none => match floatFmt fmt with
      | some f => f.decode c
      | none => .nan

/-- The code of a value in a storage format, and whether a NaN was written as zero (R172, R173, R193, R419). -/
def encodeElem (fmt : Nat) (v : Val) (rm : Nat) (sat : Bool) : Nat × Bool :=
  if fmt = fmtRaw then ((v.toWf rm).toNat, false)
  else if fmt = fmtE8m0 then (encodeE8m0 v rm sat, false)
  else match intFmt fmt with
    | some (n, signed) => match v with
      | .nan => (0, true)
      | .inf neg =>
        (if neg then encodeInt n signed (-(2 ^ 70)) true else encodeInt n signed (2 ^ 70) true, false)
      | .fin m e => (encodeInt n signed (rndInt m e rm) sat, false)
    | none => match floatFmt fmt with
      | some f => f.encode v rm sat
      | none => (0, false)

/-- A value multiplied by the E8M0 scale byte of its block (R171). -/
def scaleVal (v : Val) (c : Nat) : Val :=
  if c = 0xFF then .nan
  else match v with
    | .fin m e => .fin m (e + (c : Int) - 127)
    | v => v

/-! ### The sums of the macro (R175, R246) -/

/-- floor(t / g) for a term m × 2^e on the grid 2^k. -/
def floorTerm (k : Int) (t : Int × Int) : Int := rndInt t.1 (t.2 - k) 2

/-- The sum of dyadic terms floored on the grid 64 bits below the largest leading bit, rounded once (R175). -/
def gridSum (ts : List (Int × Int)) (rm : Nat) : Word :=
  match ts.filter (fun t => t.1 != 0) with
  | [] => 0
  | t :: rest =>
    let l := rest.foldl (fun acc u => max acc (ilog2 u.1 u.2)) (ilog2 t.1 t.2)
    roundWf (((t :: rest).map (floorTerm (l - 64))).foldl (· + ·) 0) (l - 64) rm

/-- fused_sum (R246). -/
def fusedSum (vs : List Val) (rm : Nat) : Word :=
  let hasP := vs.any fun v => v == .inf false
  let hasN := vs.any fun v => v == .inf true
  if vs.any Val.isNan || (hasP && hasN) then wfNaN
  else if hasP then wfPInf
  else if hasN then wfNInf
  else gridSum (vs.filterMap fun v => match v with | .fin m e => some (m, e) | _ => none) rm

/-- macro_dot (R175) from the block sums: `sums`, `xa` and `xb` by K-block, `fA` the fraction bits of A. -/
def macroDot (sums xa xb : List Int) (fA : Int) (c : Word) (rm : Nat) : Word :=
  match Val.ofWf c with
  | .nan => wfNaN
  | v =>
    if xa.contains (-2048) || xb.contains (-2048) then wfNaN
    else match v with
      | .inf false => wfPInf
      | .inf true => wfNInf
      | .fin m e =>
        gridSum ((m, e) :: (List.range sums.length).map fun j =>
          (sums.getD j 0, xa.getD j 0 - fA + xb.getD j 0 - 6)) rm
      | .nan => wfNaN

/-- The exact product (R215, R251). -/
def Val.mul : Val → Val → Val
  | .nan, _ => .nan
  | _, .nan => .nan
  | .inf a, .inf b => .inf (a != b)
  | .inf a, .fin m _ => if m = 0 then .nan else .inf (a != decide (m < 0))
  | .fin m _, .inf b => if m = 0 then .nan else .inf (b != decide (m < 0))
  | .fin m e, .fin n f => .fin (m * n) (e + f)

end Sys2Proof.Machine
end

