-- ==== Sys2Proof/Machine/Operands.lean ====
section
/-! DEFINITION. Operand forms: the visible head of an input (R81, R88, R125), sources and their headers (R97, R133),
conversion to the class that reads a source (R134, R166, R167), the result header (R133), and the results an
instruction leaves (R98, R117). -/

namespace Sys2Proof.Machine

open Sys2Proof

/-! ### Heads -/

/-- A swap token (R81): SWITCH, or an END whose SIDE bit 0 is 1. -/
def isSwap (t : Tok) : Bool := t.kind == 6 || (t.kind == 1 && t.side.getLsbD 0)

/-- A depth token (R88): CTL of subtype 0b0001. -/
def isDepth (t : Tok) : Bool := t.kind == 5 && t.side.toNat / 2 ^ 20 == 1

/-- A DATA token that no slot may see, its FMT being 7 to 14 (R125). -/
def isFmtTag (t : Tok) : Bool := t.kind == 0 && decide (7 ≤ t.fmt.toNat) && decide (t.fmt.toNat ≤ 14)

/-- SIDE with the bits that the table of R124 marks zero cleared, for a token of a KIND and FMT. -/
def normSide (kind : BitVec 3) (fmt : BitVec 4) (side : BitVec 24) : BitVec 24 :=
  match kind.toNat with
  | 0 => if fmt == 4 || fmt == 5 then side else 0
  | 1 => side &&& 1
  | 3 => 0
  | 6 => 0
  | _ => side

/-- A token as it is sent: the bits that R124 marks zero are sent as zero. -/
def sentTok (t : Tok) : Tok := { t with side := normSide t.kind t.fmt t.side }

/-- A head as slots see it (R124): marked bits are ignored, and a CTL token of a subtype from 0b0010 on is one of subtype
0b0000. -/
def seenTok (t : Tok) : Tok :=
  if t.kind == 5 && decide (2 ≤ t.side.toNat / 2 ^ 20) then { t with side := t.side &&& 0xFFFFF } else sentTok t

/-- The head that slots see: none while a swap token, a depth token or a token of a reserved FMT stands there. -/
def InPort.head (i : InPort) : Option Tok :=
  match i.queue with
  | t :: _ => if isSwap t || isDepth t || isFmtTag t then Option.none else some (seenTok t)
  | [] => Option.none

/-- Input c of a pool. -/
def PoolSt.inp (x : PoolSt) (c : Nat) : InPort := x.ins.getD c InPort.none

/-- Output c of a pool. -/
def PoolSt.out (x : PoolSt) (c : Nat) : OutPort := x.outs.getD c OutPort.none

/-- A v register of a pool. -/
def PoolSt.vreg (x : PoolSt) (n : Nat) : VReg :=
  x.v.getD n ⟨⟨Lanes.zero, 0, 0, false, 0, 0, 0, 0⟩, false⟩

/-- An output has space (R121), a pending request in pull mode (R122); the done sink always has (log entry 11). -/
def OutPort.space (o : OutPort) : Bool :=
  if o.code = 6 then true else if o.pull then decide (0 < o.reqs) else decide (0 < o.credits)

/-! ### Sources -/

/-- The class that reads a source (R134, R165). -/
inductive Cls where
  | any
  | int
  | wf
  | aligned
  | vid
  deriving DecidableEq, Repr

/-- The class code of FMT_CONV (R167). -/
def Cls.code : Cls → Nat
  | .any => 0
  | .int => 1
  | .wf => 2
  | .aligned => 3
  | .vid => 4

/-- The token that carries a scalar to every lane: aN and `#n` as I64, kN as BITS (R97, R133). -/
def scalarTok (w : Word) (fmt : BitVec 4) : Tok := ⟨Lanes.splat w, 0, 0, false, 0xFF, 0, fmt, 0⟩

/-- The DATA token of zeros. -/
def zeroTok : Tok := ⟨Lanes.zero, 0, 0, false, 0, 0, 0, 0⟩

/-- What a source field reads (R97). -/
def PoolSt.source (x : PoolSt) (s : Src) : Tok :=
  match s with
  | .rd n => (x.vreg n).tok
  | .take n => (x.vreg n).tok
  | .inp c => ((x.inp c).head).getD zeroTok
  | .peek c => ((x.inp c).head).getD zeroTok
  | .areg n => scalarTok ((x.a.getD n 0).setWidth 64) 1
  | .const n => scalarTok (x.k.getD n 0) 3
  | .imm n => scalarTok (w64 n.val) 1

/-- A source field that contributes LMASK, PSN and GEN to the result header (R133). -/
def isHeaderSrc : Src → Bool
  | .rd _ => true
  | .take _ => true
  | .inp _ => true
  | .peek _ => true
  | _ => false

/-- Lanes that are not valid read as zero (R133). -/
def maskLanes (t : Tok) : Lanes := Lanes.ofFn fun i => if t.mask.getLsbD i then t.lanes.get i else 0

/-- The lanes of a token converted to a class (R166); none where the table marks FMT_CONV. -/
def convLanes (cls : Cls) (t : Tok) : Option (Lanes × BitVec 4) :=
  let l := maskLanes t
  let f := t.fmt.toNat
  match cls with
  | .any => some (l, t.fmt)
  | .int =>
    if f = 0 then some (Lanes.ofFn fun i => wfToI64 (l.get i), 1)
    else if f = 4 || f = 5 then none
    else if f = 6 then some (Lanes.ofFn fun i => if i % 2 = 0 then wfToI64 (l.get i) else l.get i, 1)
    else if f = 15 then some (l, 3)
    else some (l, t.fmt)
  | .wf =>
    if f = 1 || f = 2 then some (Lanes.ofFn fun i => iToWf (l.get i), 0)
    else if f = 4 || f = 5 then none
    else if f = 6 then some (Lanes.ofFn fun i => if i % 2 = 0 then l.get i else iToWf (l.get i), 0)
    else some (l, 0)
  | .aligned => if f = 4 || f = 5 then some (l, t.fmt) else none
  | .vid => if f = 6 then some (l, t.fmt) else none

/-- A fault that suppresses a firing (R136): its CODE, the slot or input it names, its GEN and its payload. -/
structure Flt where
  code : Nat
  slot : Nat
  gen : BitVec 8
  w3 : Word
  w4 : Word
  w5 : Word
  deriving DecidableEq, Repr

/-! ### The context of a firing -/

/-- What one firing sees: where it fires, its fields, the tile, the core cycle and the die's mirror of the generation
table at the start. -/
structure Ctx where
  k : Nat
  p : Pool
  slot : Nat
  o : Op
  f : Fields
  t : Tile
  cyc : Nat
  mirror : Tab GenEnt
  deriving DecidableEq, Repr

/-- The firing pool. -/
def Ctx.x (c : Ctx) : PoolSt := c.t.pool c.p

/-- Source A, as it stands. -/
def Ctx.a (c : Ctx) : Tok := c.x.source c.f.a

/-- Source B, as it stands. -/
def Ctx.b (c : Ctx) : Tok := c.x.source c.f.b

/-- The D register of shape c as its third source (R106). -/
def Ctx.d (c : Ctx) : Tok :=
  match c.f.d with
  | .wr n => (c.x.vreg n).tok
  | _ => zeroTok

/-! ### Headers -/

/-- A result header (R133). -/
structure Hdr where
  mask : BitVec 8
  psn : Bool
  gen : BitVec 8
  deriving DecidableEq, Repr

/-- The header of no source. -/
def Hdr.none : Hdr := ⟨0xFF, false, 0⟩

/-- GEN_SPLIT with the two GEN values, delivered as GEN 0 (R136, R341). -/
def genSplit (slot : Nat) (g h : BitVec 8) : Flt := ⟨0x20, slot, 0, w64 (g.toNat + h.toNat * 256), 0, 0⟩

/-- One more header source (R133), in a pool that has applied the RATIFY of the tags `rs` (R324). -/
def Hdr.join (m : Tab GenEnt) (rs : List (BitVec 8)) (slot : Nat) (h : Hdr) (t : Tok) : Except Flt Hdr :=
  match youngerAt m rs h.gen t.gen with
  | some g => .ok ⟨h.mask &&& t.mask, h.psn || t.psn, g⟩
  | .none => .error (genSplit slot h.gen t.gen)

/-- The header over a list of tokens. -/
def Ctx.headerOf (c : Ctx) (ts : List Tok) : Except Flt Hdr :=
  ts.foldlM (fun h t => Hdr.join c.mirror c.x.ratified c.slot h t) Hdr.none

/-- The header sources among A and B, and D for shape c (R133). -/
def Ctx.headerToks (c : Ctx) : List Tok :=
  (if isHeaderSrc c.f.a then [c.a] else []) ++ (if isHeaderSrc c.f.b then [c.b] else []) ++
    (if c.o.shape = .c then [c.d] else [])

/-- The result header (R133). -/
def Ctx.header (c : Ctx) : Except Flt Hdr := c.headerOf c.headerToks

/-- The firing's GEN (R340): the one R133 forms, 0 where its sources split. -/
def Ctx.gen (c : Ctx) : BitVec 8 :=
  match c.header with
  | .ok h => h.gen
  | .error _ => 0

/-- A fault of the firing at its slot (R136, R340). -/
def Ctx.flt (c : Ctx) (code : Nat) (w3 w4 w5 : Word) : Flt := ⟨code, c.slot, c.gen, w3, w4, w5⟩

/-! ### Conversions -/

/-- The place that a conversion fault of a source names, and its GEN: the input and the token's GEN where the source is
an input (R340, R344), the slot and the firing's GEN otherwise. -/
def Ctx.convFlt (c : Ctx) (s : Option Src) (t : Tok) (cls : Cls) : Flt :=
  let w3 := w64 (t.fmt.toNat + cls.code * 256)
  match s.bind Src.input? with
  | some i => ⟨0x30, i.val, t.gen, w3, 0, 0⟩
  | .none => ⟨0x30, c.slot, c.gen, w3, 0, 0⟩

/-- A source converted to the class that reads it, or FMT_CONV (R166, R167). -/
def Ctx.conv (c : Ctx) (s : Option Src) (t : Tok) (cls : Cls) : Except Flt Tok :=
  match convLanes cls t with
  | some (l, f) => .ok { t with lanes := l, fmt := f }
  | none => .error (c.convFlt s t cls)

def Ctx.convA (c : Ctx) (cls : Cls) : Except Flt Tok := c.conv (some c.f.a) c.a cls
def Ctx.convB (c : Ctx) (cls : Cls) : Except Flt Tok := c.conv (some c.f.b) c.b cls
def Ctx.convD (c : Ctx) (cls : Cls) : Except Flt Tok := c.conv none c.d cls

/-- Lane 0 of a converted source; a lane that is not valid has been zeroed (R133, R134). -/
def lane0 (t : Tok) : Word := t.lanes.l0

/-- Lane 0 of A as an integer (R134). -/
def Ctx.intA (c : Ctx) : Except Flt Word := (c.convA .int).map lane0

/-- Lane 0 of B as an integer (R134). -/
def Ctx.intB (c : Ctx) : Except Flt Word := (c.convB .int).map lane0

/-- Lane 0 of a source as an integer where a trigger reads it; zero where it would not convert, which the firing then
reports. -/
def PoolSt.peekInt (x : PoolSt) (s : Src) : Word :=
  match convLanes .int (x.source s) with
  | some (l, _) => l.l0
  | none => 0

/-! ### Results -/

/-- A DATA token with its header: lanes whose mask bit is 0 are written as zero (R133). -/
def dataTok (l : Lanes) (h : Hdr) (fmt : BitVec 4) : Tok :=
  ⟨Lanes.ofFn fun i => if h.mask.getLsbD i then l.get i else 0, 0, 0, h.psn, h.mask, h.gen, fmt, 0⟩

/-- A result whose lane 0 alone is valid, as I64. -/
def scalarRes (w : Word) (h : Hdr) : Tok := dataTok (Lanes.ofList [w]) { h with mask := 1 } 1

/-- A predicate result. -/
def predRes (v : Bool) (h : Hdr) : Tok := scalarRes (w64 (b01 v)) h

/-- A control token: LMASK 0, FMT 15 (R138). -/
def ctlTok (kind : BitVec 3) (side : BitVec 24) (psn : Bool) (gen : BitVec 8) : Tok :=
  ⟨Lanes.zero, 0, side, psn, 0, gen, 15, kind⟩

/-- The D code of a destination as POISON_CTL reports it (R136). -/
def dstCode (d : Dst) : Nat :=
  match d with
  | .wr n => n.val
  | .put n => 16 + n.val
  | .out c => 32 + c.val
  | .areg n => 40 + n.val
  | .pred n => 48 + n.val
  | .none => 56

/-- Two destinations that are one for R116: one vN, aN, pN or oN. -/
def sameDst (d e : Dst) : Bool :=
  match d, e with
  | .wr m, .wr n => m == n
  | .wr m, .put n => m == n
  | .put m, .wr n => m == n
  | .put m, .put n => m == n
  | .out m, .out n => m == n
  | .areg m, .areg n => m == n
  | .pred m, .pred n => m == n
  | _, _ => false

end Sys2Proof.Machine
end

