-- ==== Sys2Proof/Machine/Translate.lean ====
section
/-! DEFINITION. Translation (R200 to R204): page-table walks, translation caches, the home slice of a line (R286),
quarantined lines (R398), and the holds of XLATE. -/

namespace Sys2Proof.Machine

open Sys2Proof

/-- A device physical address of the CXL tier (R200). -/
def inCxl (pa : Nat) : Bool := 0x10000000000 ≤ pa && pa < 0x28000000000

/-- A device physical address that is backed (R200, R384). -/
def backed (pa : Nat) : Bool :=
  pa < 0xC000000000 || (inCxl pa && (pa - 0x10000000000) % 0x3000000000 < Config.cxlCapacity)

/-- log2 of the span of an entry of a level (R201, R204). -/
def levelShift : Nat → Nat
  | 0 => 39
  | 1 => 30
  | 2 => 21
  | _ => 16

/-- Entries of a table of a level (R201). -/
def levelEntries : Nat → Nat
  | 0 => 8192
  | 3 => 32
  | _ => 512

/-- A translation, or the cause and level at which a walk failed (R202). -/
inductive Xl where
  | ok (pa shift : Nat) (w tier : Bool)
  | fault (cause level : Nat)
  deriving DecidableEq, Repr

/-- One entry examined: its first failing cause in the order 0, 3, 2, 1 (R202), W not yet looked at. -/
def entryCause (e : Word) (level : Nat) (cxlt : Bool) : Option Nat :=
  let leaf := bit e 62
  let addr := fld e 51 8 * 256
  if !bit e 63 then some 0
  else if fld e 59 52 != 0 || fld e 7 0 != 0 || (leaf && level = 0) || (!leaf && level = 3) ||
      (leaf && addr % 2 ^ levelShift level != 0) then some 3
  else if bit e 61 != inCxl addr || !backed addr || (bit e 61 && !cxlt) then some 2
  else none

/-- The walk of R202 from a table on, `n` levels left; `w` is the AND of the W bits read. -/
def walkFrom (m : Mem) (cxlt wr : Bool) (va : Nat) : (n level table : Nat) → (w : Bool) → Xl
  | 0, level, _, _ => .fault 3 level
  | n + 1, level, table, w =>
    let sh := levelShift level
    let e := m.word (table / 8 + va / 2 ^ sh % levelEntries level)
    let addr := fld e 51 8 * 256
    match entryCause e level cxlt with
    | some c => .fault c level
    | none =>
      if wr && !bit e 60 then .fault 1 level
      else if bit e 62 then .ok (addr + va % 2 ^ sh) sh (w && bit e 60) (bit e 61)
      else walkFrom m cxlt wr va n (level + 1) addr (w && bit e 60)

/-- CXLT is accepted (R50). -/
def State.cxlt (s : State) : Bool := bit (s.host.accept.getD 0 0) 2

/-- The walk of a job's page table for a virtual address (R201, R202). -/
def State.walk (s : State) (job va : Nat) (wr : Bool) : Xl :=
  walkFrom s.mem s.cxlt wr va 4 0 ((s.job job).ptroot * 4096) true

/-- The cached translation that covers an address (R203). -/
def tlbFind (t : List TlbEnt) (job va : Nat) : Option TlbEnt :=
  t.find? fun e => e.job = job && e.va / 2 ^ e.shift = va / 2 ^ e.shift

/-- A cache with an entry used: first in the order of use, at most `n` entries (R203). -/
def tlbUse (t : List TlbEnt) (e : TlbEnt) (n : Nat) : List TlbEnt :=
  (e :: t.filter fun x => !(x.job = e.job && x.va = e.va && x.shift = e.shift)).take n

/-- The micro-cache of a key (R203): an AG pool by its tile, a delegated stream and a copy engine above them. -/
def State.ucache (s : State) (uc : Option Nat) : List TlbEnt := uc.elim [] fun k => Tab.get s.ucaches k []

/-- The micro-cache key of a delegated stream's place. -/
def ucStream (tile strm : Nat) : Nat := 16384 + tile * 4 + strm

/-- The micro-cache key of a copy engine. -/
def ucCopy (core eng : Nat) : Nat := 65536 + core * 4 + eng

/-- Both caches with an entry used. -/
def State.tlbTouch (s : State) (d : Nat) (uc : Option Nat) (e : TlbEnt) : State :=
  let s1 := s.setDie d { s.die d with tlb := tlbUse (s.die d).tlb e Config.tlbEntries }
  match uc with
  | some k => { s1 with ucaches := Tab.set s1.ucaches k (tlbUse (s1.ucache uc) e 4) }
  | none => s1

/-- One translation (R202, R203). A cached entry that the tables no longer give is used or not as a free choice, until
an invalidation drops it; a write that a cached entry does not allow walks. -/
def State.translate (s : State) (d : Nat) (uc : Option Nat) (job va : Nat) (wr : Bool) : Xl × State :=
  let fresh := s.walk job va wr
  let install : State → State := fun s1 => match fresh with
    | .ok pa sh w tier => s1.tlbTouch d uc ⟨job, va / 2 ^ sh * 2 ^ sh, sh, pa / 2 ^ sh * 2 ^ sh, w, tier⟩
    | .fault _ _ => s1
  match (tlbFind (s.ucache uc) job va).orElse fun _ => tlbFind (s.die d).tlb job va with
  | some e =>
    let old := Xl.ok (e.pa + va % 2 ^ e.shift) e.shift e.w e.tier
    if fresh = old || (wr && !e.w) then (fresh, install s)
    else
      let s1 := s.takeFree.2
      if Config.freeBit s.freeCtr then (old, s1.tlbTouch d uc e) else (fresh, install s1)
  | none => (fresh, install s)

/-- The home slice of a line by its physical address (R286). -/
def homeSlice (pa : Nat) : Nat := (pa / 64 % 64) ^^^ (pa / 4096 % 64)

/-- A line homed on a quarantined die, or in the stack of a quarantined base die (R398). -/
def State.quarantinedLine (s : State) (pa : Nat) : Bool :=
  s.trust.quarantined.getLsbD (homeSlice pa / 8) ||
    (!inCxl pa && s.trust.quarantined.getLsbD (10 + Config.stackOf pa))

/-- A new hold of an access (R204). -/
def State.addHold (s : State) (h : Hold) : Nat × State :=
  let n := Tab.freeFrom s.holds 0
  (n, { s with holds := Tab.set s.holds n h })

/-- An XLATE hold, reported once (R204, R206). -/
def State.xlate (s : State) (site : HoldSite) (job lseq va cause level : Nat) (w2 w4 w5 : Word) : Nat × State :=
  s.report 0x40 (some lseq) job w2 (w64 va ||| place cause 60) w4 w5
    |>.addHold ⟨job, lseq, va, some level, site, false⟩

/-- What an access finds before it touches its line: its physical address, or a fault of its walk, or a quarantined
line (R398). -/
inductive Reach where
  | line (pa shift : Nat) (tier : Bool)
  | fault (cause level : Nat)
  | quarantined
  deriving DecidableEq, Repr

/-- The line of a virtual address. -/
def State.reach (s : State) (d : Nat) (uc : Option Nat) (job va : Nat) (wr : Bool) : Reach × State :=
  match s.translate d uc job va wr with
  | (.ok pa sh _ tier, s1) => (if s1.quarantinedLine pa then .quarantined else .line pa sh tier, s1)
  | (.fault c l, s1) => (.fault c l, s1)

/-- Whether an XINV covers a hold (R204). -/
def Hold.covered (h : Hold) (job : Nat) (all : Bool) (page : Nat) : Bool :=
  h.job = job && match h.level with
    | some l => all || h.va / 2 ^ levelShift l = page * 65536 / 2 ^ levelShift l
    | none => false

end Sys2Proof.Machine
end

