-- ==== Sys2Proof/Machine/Block.lean ====
section
/-! DEFINITION. Parameter blocks (R176 to R178): their fields, the address of an element (R170, R177), the checks that
AGSET and TARM make, and the spaces an engine reaches (R176, R180). -/

namespace Sys2Proof.Machine

open Sys2Proof

/-! The fields of R176; a block is the eight words of a beat. -/

def bSfmt (b : Lanes) : Nat := fld b.l0 63 58
def bSsp (b : Lanes) : Nat := fld b.l0 54 52
def bSaddr (b : Lanes) : Nat := fld b.l0 51 0
def bN1 (b : Lanes) : Nat := fld b.l1 63 32
def bN0 (b : Lanes) : Nat := fld b.l1 31 0
def bSs1 (b : Lanes) : Int := sextBits (fld b.l2 63 32) 32
def bN2 (b : Lanes) : Nat := fld b.l2 31 0
def bSs2 (b : Lanes) : Int := sextBits (fld b.l3 63 32) 32
def bScen (b : Lanes) : Bool := bit b.l3 31
def bScoff (b : Lanes) : Nat := fld b.l3 30 0
def bDfmt (b : Lanes) : Nat := fld b.l4 63 58
def bDsp (b : Lanes) : Nat := fld b.l4 54 52
def bDaddr (b : Lanes) : Nat := fld b.l4 51 0
def bDs1 (b : Lanes) : Int := sextBits (fld b.l5 63 32) 32
def bDs2 (b : Lanes) : Int := sextBits (fld b.l5 31 0) 32
def bTfmt (b : Lanes) : Nat := fld b.l6 63 60
def bRm (b : Lanes) : Nat := fld b.l6 59 58
def bSat (b : Lanes) : Bool := bit b.l6 57
def bTierm (b : Lanes) : Bool := bit b.l6 56
def bDeleg (b : Lanes) : Bool := bit b.l6 55
def bPmen (b : Lanes) : Bool := bit b.l6 54
def bPmp (b : Lanes) : Nat := fld b.l6 53 51
def bMcn (b : Lanes) : Nat := fld b.l6 47 44
def bMcstep (b : Lanes) : Int := sextBits (fld b.l6 43 32) 12
def bCtag (b : Lanes) : Nat := fld b.l6 31 20
def bNtile (b : Lanes) : Nat := fld b.l6 19 13
def bWprst (b : Lanes) : Bool := bit b.l6 0
def bUser (b : Lanes) : Word := b.l7

/-- The number of elements of a block (R177). -/
def bN (b : Lanes) : Nat := bN0 b * bN1 b * bN2 b

/-- The bit address of the element at a position, in the space of the address (R170, R177); a stride may lead below
zero. -/
def elemBit (addr : Nat) (s1 s2 : Int) (fmt n0 n1 p : Nat) : Int :=
  let i0 := p % n0
  let i1 := p / n0 % n1
  let i2 := p / (n0 * n1)
  ((addr : Int) + i2 * s2 + i1 * s1) * 8 + i0 * (fmtBits fmt).getD 8

/-- The bit address of a source element. -/
def srcBit (b : Lanes) (p : Nat) : Int := elemBit (bSaddr b) (bSs1 b) (bSs2 b) (bSfmt b) (bN0 b) (bN1 b) p

/-- The bit address of a destination element. -/
def dstBit (b : Lanes) (p : Nat) : Int := elemBit (bDaddr b) (bDs1 b) (bDs2 b) (bDfmt b) (bN0 b) (bN1 b) p

/-- The byte address of the scale of an element (R177). -/
def scaleByte (b : Lanes) (p : Nat) : Nat := bSaddr b + bScoff b + p / 32

/-- An integer format of R168. -/
def isIntFmt (f : Nat) : Bool := f < 8

/-- A floating format of R168. -/
def isFloatFmt (f : Nat) : Bool := (floatFmt f).isSome

/-- TFMT admitted for SFMT (R178). -/
def tfmtOk (t f : Nat) : Bool :=
  match t with
  | 0 => isFloatFmt f || isIntFmt f || f = fmtE8m0
  | 1 => isIntFmt f || f = fmtE8m0
  | 2 => isIntFmt f || f = fmtE8m0
  | 3 => f = fmtRaw
  | 4 => isFloatFmt f
  | 5 => isFloatFmt f
  | _ => false

/-- Runs of a packed format start or end inside a group of bytes (R170, R178): of three bytes for a 6-bit format, of one
for a 4-bit format. -/
def splitsGroup (fmt n0 : Nat) (at' : List Int) : Bool :=
  (fmtBits fmt = some 6 && (n0 % 4 != 0 || at'.any fun x => x % 3 != 0)) || (fmtBits fmt = some 4 && n0 % 2 != 0)

/-- Checks 1 and 3 to 5 of R178, which streams and copies share, with the index that PARAM_FORMAT reports. -/
def checkShared (b : Lanes) : Option Nat :=
  let f := bSfmt b
  if fld b.l0 57 55 != 0 || fld b.l4 57 55 != 0 || fld b.l6 50 48 != 0 || fld b.l6 12 1 != 0 ||
      (fmtBits f).isNone || (fmtBits (bDfmt b)).isNone then some 0
  else if 4 ≤ bSsp b then some 1
  else if bN0 b = 0 || bN1 b = 0 || bN2 b = 0 then some 2
  else if splitsGroup f (bN0 b) [bSaddr b, bSs1 b, bSs2 b] then some 3
  else if bScen b && !((0x10 ≤ f && f ≤ 0x14) || 0x20 ≤ f) then some 4
  else none

/-- The least of two check indices. -/
def firstCheck : Option Nat → Option Nat → Option Nat
  | some a, some b => some (min a b)
  | some a, none => some a
  | none, x => x

/-- The first failing check of a stream's block (R178). -/
def checkStream (b : Lanes) : Option Nat :=
  let c2 := if 5 ≤ bDsp b || (bDeleg b && bSsp b != 0) then some 1 else none
  let c6 := if !tfmtOk (bTfmt b) (bSfmt b) || bDfmt b != 0 || bDsp b != 0 || bDaddr b != 0 || b.l5 != 0 || bPmen b ||
      bPmp b != 0 || bMcn b != 0 || bMcstep b != 0 || bWprst b then some 5 else none
  firstCheck (firstCheck (checkShared b) c2) c6

/-- Last destination byte of a copy without strides below zero, for the bound of the pugmill store (R178). -/
def dstEnd (b : Lanes) : Int :=
  let corner : Int → Nat → Int := fun s n => max 0 (s * (n - 1 : Nat))
  (bDaddr b : Int) + corner (bDs2 b) (bN2 b) + corner (bDs1 b) (bN1 b) + 8 * bN0 b

/-- The first failing check of a copy's block (R178). Check 4 holds of the destination's format with the destination's
address and steps too, since R170 has a copy start and end on a group (DEDUCED: log entry 95). -/
def checkCopy (b : Lanes) : Option Nat :=
  let c2 := if bDsp b = 0 || 5 ≤ bDsp b then some 1 else none
  let c7 := if bTfmt b != 0 || bTierm b || bDeleg b || (bPmen b && b.l5 != 0) ||
      (bMcn b != 0 && !(1 ≤ bDsp b && bDsp b ≤ 3)) ||
      (bDsp b = 4 && (bSfmt b != fmtRaw || bDfmt b != fmtRaw || bMcn b != 0 || bPmen b || 1024 < dstEnd b)) then some 6
    else none
  let c4 := if splitsGroup (bDfmt b) (bN0 b) [bDaddr b, bDs1 b, bDs2 b] then some 3 else none
  firstCheck (firstCheck (firstCheck (checkShared b) c2) c4) c7

/-- The flat byte address of byte `a` of a space that an engine of a core reaches (R176): none outside the space, or in
a power-gated tile's bank. -/
def State.engByte (s : State) (core space : Nat) (a : Int) : Option Nat :=
  if a < 0 then none
  else
    let n := a.toNat
    match space with
    | 1 => if n < 2 ^ 26 then some (chipBase (core / 8) + n) else none
    | 2 => if n < 2 ^ 23 then some (cluBase (coreCluster core) + n) else none
    | 3 =>
      if n < 2 ^ 23 then
        let k := coreTile core (n / 2 ^ 16)
        if (s.tile k).gated then none else some (bankBase k + n % 2 ^ 16)
      else none
    | 4 => if n < 1024 then some (pmBase (coreCluster core) + n) else none
    | _ => none

end Sys2Proof.Machine
end

