-- ==== Sys2Proof/Machine/Issue.lean ====
section
/-! DEFINITION. Issue: when a slot's trigger holds (R94, R97 to R101 and the conditions that each instruction adds), the
latencies of R115, quiescence (R129), the choice of a slot (R114, R118, R119), and one firing as one act (R95, R116,
R117, R136), which every triggered instruction's meaning calls. -/

namespace Sys2Proof.Machine

open Sys2Proof

/-! ### Contexts -/

/-- The context of a firing of a slot with its instruction's fields. -/
def State.ctx (s : State) (fo : Focus) (o : Op) (f : Fields) : Ctx :=
  ⟨fo.tile, fo.pool, fo.slot, o, f, s.tile fo.tile, (s.core (tileCore fo.tile)).cyc, (s.die (tileDie fo.tile)).mirror⟩

/-- The region that a tile serves. -/
def State.regionOf (s : State) (k : Nat) : Option Region := (s.tile k).region.bind fun r => Tab.get? s.regions r

/-! ### Latency (R115, R257) -/

/-- The latency of an instruction whose result completes after a fixed time (R115); none for one whose result waits for
a memory access, a scrub or a run. -/
def opLatency (o : Op) : Option Nat :=
  match o with
  | .imul => some 3
  | .imulh => some 3
  | .imad => some 3
  | .ld => none
  | .ldx => none
  | .ldch => none
  | .lls => none
  | .ldf => none
  | .lde => none
  | .feq => none
  | .gld => none
  | .gatom => none
  | .satom => none
  | .csrr => some 2
  | .genget => some 8
  | .mxacc => some 2
  | .mxout => some 2
  | .mxz => some 2
  | .mxchk => none
  | .grrun => none
  | .aggth => none
  | _ =>
    if o.pools = [.pe] then
      let c := o.code
      if 0x70 ≤ c && c ≤ 0x7D then some 4
      else if 0x80 ≤ c && c ≤ 0x86 then some 12
      else if 0x88 ≤ c && c ≤ 0x8C then some 4
      else if 0x90 ≤ c && c ≤ 0x96 then some 6
      else if 0x98 ≤ c && c ≤ 0x9C then some 12
      else some 1
    else some 1

/-- The memory instructions, each firing of which takes a request place (R257, R317). -/
def isMemOp (o : Op) : Bool :=
  match o with
  | .ld => true
  | .st => true
  | .ldx => true
  | .stx => true
  | .ldch => true
  | .lls => true
  | .sls => true
  | .ldf => true
  | .lde => true
  | .stf => true
  | .ste => true
  | .feq => true
  | .feclr => true
  | .gld => true
  | .gst => true
  | .gatom => true
  | .satom => true
  | .kvrowCfg => true
  | .kvrowOpen => true
  | .kvrowPut => true
  | _ => false

/-! ### Operand conditions (R97 to R100) -/

/-- A head's KIND is admitted on input c of an instruction (R99, R147, R151); the selector of a STEER is a DATA head
whatever its tag test says (R143). -/
def kindOk (o : Op) (f : Fields) (isA : Bool) (c : Fin 4) (kind : BitVec 3) : Bool :=
  if o = .kindp && isA then true
  else if o = .steer && !isA then kind == 0
  else if o = .perm && isA then kind == 3
  else if o.dagger && f.te && f.tc.toNat == c.val then kind == f.tk
  else kind == 0

/-- A result to an a register is in flight (R263). -/
def PoolSt.aAwaits (x : PoolSt) (n : Nat) : Bool := x.inflight.any fun e => match e.dst with
  | .areg m => m.val == n
  | _ => false

/-- A result to a v register is in flight (R117). -/
def PoolSt.vAwaits (x : PoolSt) (n : Nat) : Bool := x.inflight.any fun e => match e.dst with
  | .wr m => m.val == n
  | .put m => m.val == n
  | _ => false

/-- What a source adds to the trigger (R97). -/
def PoolSt.srcReady (x : PoolSt) (o : Op) (f : Fields) (isA : Bool) (s : Src) : Bool :=
  match s with
  | .take n => (x.vreg n).present
  | .inp c => (x.inp c).head.elim false fun t => kindOk o f isA c t.kind
  | .peek c => (x.inp c).head.elim false fun t => kindOk o f isA c t.kind
  | .areg n => !x.aAwaits n
  | _ => true

/-- What D adds to the trigger (R98, R180): an output needs space and must be unowned. -/
def PoolSt.dstReady (x : PoolSt) (o : Op) (d : Dst) : Bool :=
  match d with
  | .put n => !(x.vreg n).present && !x.vAwaits n
  | .out c => (x.out c).space && (x.out c).owner.isNone
  | .areg n => o != .wrapa || !x.aAwaits n
  | _ => true

/-- The conditions of IR, OS and the tag test (R94). -/
def PoolSt.guards (x : PoolSt) (f : Fields) : Bool :=
  ([0, 1, 2, 3].all fun c =>
    (!f.ir.getLsbD c || (x.inp c).head.isSome) && (!f.os.getLsbD c || (x.out c).space)) &&
  (!f.te || (x.inp f.tc.toNat).head.elim false fun t => t.kind == f.tk)

/-- No earlier result to a destination would complete after cycle `due` (R116). The time of a result that has no value yet
is known where the engine's work of ticket `sure` brings it. -/
def PoolSt.inOrder (x : PoolSt) (d : Dst) (due : Nat) (sure : Option Nat) : Bool :=
  x.inflight.all fun e => !sameDst e.dst d || ((e.val.isSome || sure == some e.ticket) && e.due ≤ due)

/-- Bound with a code of a channel or an intra-tile link. -/
def linkCode (c : Nat) : Bool := 1 ≤ c && c ≤ 4

/-- The permit return input of R128: PE input i3 of the tile that holds the entry input of a block with permits. -/
def State.permitInput (s : State) (k : Nat) (p : Pool) (c : Nat) : Bool :=
  let t := s.tile k
  p = .pe && c = 3 && (s.blockOf k).elim false (fun b => fld b.entry.1 40 35 != 0) &&
    [Pool.pe, .mx, .ag].any fun q => (t.pool q).ins.any fun i => i.code = 5

/-- The inputs that BARJ joins (R146). -/
def State.joined (s : State) (k : Nat) (p : Pool) : List Nat :=
  [0, 1, 2, 3].filter fun c => linkCode ((s.tile k).pool p |>.inp c).code && !s.permitInput k p c

/-- The outputs on which BARJ sends (R146). -/
def PoolSt.barOuts (x : PoolSt) : List Nat :=
  [0, 1, 2, 3].filter fun c => linkCode (x.out c).code || (x.out c).code = 6

/-- The outputs on which YIELD sends (R348). -/
def PoolSt.yieldOuts (x : PoolSt) : List Nat := [0, 1, 2, 3].filter fun c => linkCode (x.out c).code

/-- The outputs that DUP sends to (R145). -/
def dupOuts (f : Fields) : List Nat :=
  match f.d with
  | .out t => t.val :: ([0, 1, 2].filter fun k => f.md.getLsbD k).map fun k => (t.val + 1 + k) % 4
  | _ => []

/-- Lane 0 of a source as it stands, for a source of class any; zero where the lane is not valid (R133, R134). -/
def PoolSt.rawLane0 (x : PoolSt) (s : Src) : Word := (maskLanes (x.source s)).l0

/-- The outputs that a STEER would send on (R143): the head's KIND and the selector as they stand; the selector is of class
any (R134). -/
def Ctx.steerOuts (c : Ctx) : List Nat :=
  match c.f.d with
  | .out t =>
    let fo := if c.f.md.toNat = 4 then [] else [c.f.md.toNat % 4]
    if c.a.kind != 0 then t.val :: fo else if (c.x.rawLane0 c.f.b).getLsbD 0 then [t.val] else fo
  | _ => []

/-- The arm of a MERGE without a tag test that its control head chooses (R144). -/
def Ctx.mergeArm (c : Ctx) : Src :=
  if ((c.x.inp c.f.md.toNat).head.getD zeroTok).side.getLsbD 0 then c.f.a else c.f.b

/-- The head's KIND on the input of a source. -/
def PoolSt.headKind (x : PoolSt) (s : Src) : Option (BitVec 3) :=
  match s with
  | .inp c => (x.inp c).head.map (·.kind)
  | .peek c => (x.inp c).head.map (·.kind)
  | _ => none

/-- MERGE's trigger in place of the conditions of R97 (R144). -/
def Ctx.mergeReady (c : Ctx) : Bool :=
  match (c.x.inp c.f.md.toNat).head with
  | some t =>
    if c.f.te then
      t.kind == c.f.tk && c.x.headKind c.f.a == some c.f.tk && c.x.headKind c.f.b == some c.f.tk
    else t.kind == 5 && c.x.headKind c.mergeArm == some 0
  | none => false

/-! ### Conditions of the matrix engine (ch. 12) -/

/-- A pass in its serial phase (R244). -/
def Pass.serial (q : Pass) : Bool := q.phase = 0

/-- A grammar run is in flight. -/
def MxEng.running (e : MxEng) : Bool := match e.work with
  | some (.grammar _ _ _ _ _ _, _) => true
  | _ => false

/-- The ticket of the work in flight whose result completes at a known time: a scrub or a grammar run (R247, R251). -/
def MxEng.sureTicket (e : MxEng) : Option Nat := match e.work with
  | some (.scrub _ _ _ _ n, _) => some n
  | some (.grammar _ _ n _ _ _, _) => some n
  | _ => none

/-- The engine recomputes its checksums or zeroes its bank (R238, R241). -/
def MxEng.rebuilding (e : MxEng) : Bool := match e.work with
  | some (.recompute, _) => true
  | some (.zeroing, _) => true
  | _ => false

/-- Beats of a row of A (R240). -/
def MxCfg.nA (c : MxCfg) : Nat := if c.a4 then (c.kbm1 + 1 + 3) / 4 else (c.kbm1 + 1 + 1) / 2

/-- Cycles of a serial phase (R244). -/
def MxCfg.cycles (c : MxCfg) : Nat := if c.a4 then 16 else 32

/-- The first `n` entries of an input are DATA beats that slots see (R242). -/
def InPort.dataRow (i : InPort) (n : Nat) : Bool :=
  decide (n ≤ i.queue.length) && (i.queue.take n).all fun t => t.kind == 0 && !isFmtTag t

/-- An output is owned by a pass. -/
def ownedByPass (o : OutPort) : Bool := match o.owner with
  | some (.pass _) => true
  | _ => false

/-- MXROW's trigger but for the bucket (R242). -/
def Ctx.rowReady (c : Ctx) : Bool :=
  let e := c.t.eng
  let out : Nat → Bool := fun n => ((c.x.out n).owner.isNone && (c.x.out n).space) || ownedByPass (c.x.out n)
  (match c.f.a with
    | .inp i => (c.x.inp i).dataRow e.cfg.nA
    | _ => false) &&
  e.passes.all (fun q => !q.serial || decide (q.left ≤ 1)) && decide (e.passes.length ≤ 1) && !e.rebuilding &&
  (match c.f.d with
    | .out n => out n && (c.f.md.toNat = 0 || (c.x.out ((n.val + 1) % 4)).owner.isNone ||
        ownedByPass (c.x.out ((n.val + 1) % 4)))
    | _ => false)

/-- The bucket holds the pass's cost (R254). -/
def Ctx.rowPaid (c : Ctx) : Bool := decide (16 * c.t.eng.cfg.cycles ≤ c.t.eng.bucket)

/-- What an MX instruction adds to the trigger. -/
def Ctx.mxReady (c : Ctx) : Bool :=
  let e := c.t.eng
  match c.o with
  | .mxcfg => e.passes.isEmpty
  | .mxmode => e.passes.isEmpty && e.work.isNone
  | .mxscb => e.passes.all fun q => !q.serial
  | .mxrow => c.rowReady && c.rowPaid
  | .mxz => e.mode != 2 && e.passes.isEmpty && e.work.isNone && e.gremit.isNone
  | .mxchk => e.mode = 1 && e.passes.isEmpty && e.work.isNone
  | .grld => e.mode = 2 && !e.running
  | .grx => !e.running
  | .grrun => (e.gst = .ready || e.gst = .done) && e.gremit.isNone && !e.running
  | .gremit => e.gst = .done && e.gremit.isNone && (match c.f.d with
    | .out n => (c.x.out n).owner.isNone
    | _ => false)
  | .grdepth => !e.running
  | _ => true

/-! ### Conditions of the AG pool and of the copy queues (ch. 09) -/

/-- A stream of a pool. -/
def PoolSt.stream (x : PoolSt) (n : Nat) : Stream := x.streams.getD n Stream.reset

/-- A copy queue of a core. -/
def Core.queue (k : Core) (q : Nat) : CopyQueue := Tab.get k.queues q CopyQueue.reset

/-- A template of a core. -/
def Core.tmpl (k : Core) (t : Nat) : Template := Tab.get k.tmpls t Template.reset

/-- A template is busy (R190). -/
def Core.tmplBusy (k : Core) (t : Nat) : Bool :=
  k.queues.any (fun q => q.2.bound == some t && !q.2.toks.isEmpty) ||
    k.engs.any fun e => e.run.elim false fun r => r.tmpl = t

/-- A queue is busy (R190). -/
def Core.queueBusy (k : Core) (q : Nat) : Bool :=
  !(k.queue q).toks.isEmpty || k.engs.any fun e => e.run.elim false fun r => r.queue = q

/-- The position at which an AGRD or AGCH begins (R181): AGRD skips, but not beyond N. -/
def Ctx.startPos (c : Ctx) : Nat :=
  let st := c.x.stream (c.f.md.toNat % 4)
  if c.o = .agrd then min (st.pos + fld (c.x.peekInt c.f.b) 47 0) (bN st.blk) else st.pos

/-- The byte address at which a delegated start begins. -/
def Ctx.startAddr (c : Ctx) : Nat :=
  let st := c.x.stream (c.f.md.toNat % 4)
  if c.o = .agrd then (srcBit st.blk c.startPos / 8 % 2 ^ 52).toNat else bSaddr st.blk

/-- The firing delivers an element (R185): AGRD's POS is below N after the skip. -/
def Ctx.startsAny (c : Ctx) : Bool :=
  let st := c.x.stream (c.f.md.toNat % 4)
  c.o != .agrd || decide (c.startPos < bN st.blk)

/-- The slice whose streamer runs a delegated start (R185): the home of its first element, where the tables give one. -/
def State.startSlice (s : State) (c : Ctx) : Option Nat :=
  let st := c.x.stream (c.f.md.toNat % 4)
  if bDeleg st.blk && c.startsAny then
    match s.walk ((s.launchOf c.k).elim 0 (·.job)) c.startAddr false with
    | .ok pa _ _ _ => some (homeSlice pa)
    | .fault _ _ => some (homeSlice c.startAddr)
  else none

/-- Delegated streams that a slice's streamer runs (R185). -/
def State.delegated (s : State) (sl : Nat) : Nat :=
  s.tiles.foldl (fun n kt => n + (kt.2.ag.streams.filter fun st => st.slice == some sl).length) 0

/-- What an AG instruction adds to the trigger (R181, R188, R190). -/
def State.agReady (s : State) (c : Ctx) : Bool :=
  let k := s.core (tileCore c.k)
  let st := c.x.stream (c.f.md.toNat % 4)
  let a := c.x.peekInt c.f.a
  let b := c.x.peekInt c.f.b
  let unowned : Bool := match c.f.d with
    | .out n => (c.x.out n).owner.isNone
    | _ => false
  let place : Bool := match s.startSlice c with
    | some sl => decide (s.delegated sl < 8)
    | none => true
  match c.o with
  | .agset => st.st = .idle || st.st = .set || st.st = .faulted
  | .agrd => st.st = .set && unowned && place
  | .agch => st.st = .set && unowned && place
  | .agwr => st.st = .set
  | .aggth => st.st = .set
  | .agsct => st.st = .set
  | .wcnt => decide (fld b 47 0 ≤ (c.x.ctrs.getD (c.f.md.toNat % 4) ⟨none, 0⟩).count)
  | .tarm => !k.tmplBusy (fld b 5 0) && (!bit b 16 || !k.queueBusy (fld b 13 8))
  | .tbind => !k.queueBusy (fld b 5 0)
  | .tmc => !k.tmplBusy (fld a 5 0) && (!bit b 0 || (c.x.out (c.f.md.toNat % 4)).owner.isNone)
  | _ => true

/-- The narrowest scope of R283 that covers an access of a tile's PE pool: 0 its lane slices, 1 its own bank, 2 the core
scratchpad, 3 the cluster's memory, 4 the chip scratchpad with its KV rows, 5 global memory. -/
def accScope (k : Nat) (a : Acc) : Nat :=
  match a.space with
  | 0 => 1
  | 1 => if coreTile (tileCore k) (a.addr / 8192) = k then 1 else 2
  | 2 => 3
  | 4 => 0
  | 5 => 5
  | _ => 4

/-- A request has performed every access that a scope covers (R258, R283); its held writes lie in banks. -/
def Ctx.reqDone (c : Ctx) (r : Req) : Bool :=
  let m := c.f.md.toNat
  let own := (c.t.eng.heldWrites.filter fun h => h.who = .req c.k r.ticket).length
  r.accs.all (fun a => decide (m < accScope c.k a)) && (m < 1 || own = 0) && (m < 2 || r.inHold ≤ own)

/-- The scope that covers an element access of a stream (R176, R283): its own bank only where every byte of the element
lies there. -/
def elemScope (k : Nat) (b : Lanes) (p : Nat) : Nat :=
  match bSsp b with
  | 0 => 5
  | 1 => 4
  | 2 => 3
  | _ =>
    let last := srcBit b p + ((fmtBits (bSfmt b)).getD 8 : Nat) - 1
    if srcBit b p / 8 / 65536 = tileIdx k && last / 8 / 65536 = tileIdx k then 1 else 2

/-- FENCE's condition for its pool (R268). A held stream is not running: what waits is its element of global memory, which
the widest scope alone covers. -/
def Ctx.fenceReady (c : Ctx) : Bool :=
  match c.p with
  | .pe => c.x.reqs.all fun r => decide (c.cyc ≤ r.firedAt) || c.reqDone r
  | .ag => c.x.streams.all (fun st => st.st != .running && (st.st != .held || decide (c.f.md.toNat < 5))) &&
      c.x.agq.all fun q => q.items.all fun i => decide (c.f.md.toNat < elemScope c.k q.blk i.1)
  | .mx => true

/-- FENCE's condition on writes of the AG pool that a bank holds: no write that the scope covers is held (R239, R268). -/
def State.fenceHeld (s : State) (c : Ctx) : Bool :=
  c.p != .ag || s.tiles.all fun kt =>
    decide (c.f.md.toNat < (if kt.1 = c.k then 1 else 2)) || kt.2.eng.heldWrites.all fun h => match h.who with
      | .stream k _ _ => k != c.k
      | _ => true

/-! ### Triggers -/

/-! ### The search of an ordered merge (R228) -/

/-- Lane 4 of a token of class WF: the key of a softmax state (R225). -/
def softKey (t : Tok) : Option Val := if isFmtTag t then none else (convLanes .wf t).map fun l => Val.ofWf (l.1.get 4)

/-- x is y + 1. -/
def Val.follows (x y : Val) : Bool :=
  match x, y with
  | .fin m e, .fin n f =>
    let z := dyAdd n f 1 0
    !dyLt m e z.1 z.2 && !dyLt z.1 z.2 m e
  | _, _ => false

/-- SMRG.ORD's beat (R228): the input, and the place and token of the oldest beat whose key is D's key + 1, looked for
ahead of the first token that is not DATA. -/
def Ctx.ordMatch (c : Ctx) : Option (Nat × Nat × Tok) :=
  match c.f.a.input?, softKey c.d with
  | some i, some k =>
    let q := ((c.x.inp i.val).queue.takeWhile fun t => t.kind == 0)
    (q.zipIdx.find? fun t => (softKey t.1).any fun x => x.follows k).map fun t => (i.val, t.2, t.1)
  | _, _ => none

/-- The conditions that operands and the instruction's own definition add (R94, last item), RDV's apart. -/
def State.operandsReady (s : State) (c : Ctx) : Bool :=
  let x := c.x
  let a := x.srcReady c.o c.f true c.f.a
  let b := x.srcReady c.o c.f false c.f.b
  let d := x.dstReady c.o c.f.d
  let sp : Nat → Bool := fun n => (x.out n).space
  match c.o with
  | .steer => a && (c.a.kind != 0 || b) && c.steerOuts.all sp
  | .merge => c.mergeReady && d
  | .dup => a && (dupOuts c.f).all sp
  | .barj =>
    let js := s.joined c.k c.p
    !js.isEmpty && js.all (fun i => ((x.inp i).head.map (·.kind)) == some 2) && x.barOuts.all sp
  | .req =>
    let i := x.inp (c.f.md.toNat % 4)
    a && decide (i.reqOut + i.queue.length + 1 ≤ i.depth)
  | .qpost => a && b && decide (((s.core (tileCore c.k)).queue (fld (x.peekInt c.f.b) 5 0)).toks.length < 16)
  | .fence => c.fenceReady && s.fenceHeld c
  | .yield => (s.regionOf c.k).elim false (fun r => r.pre.isSome) && x.yieldOuts.all sp
  | .waitwp => a && b && decide (fld (x.peekInt c.f.b) 47 0 ≤
      ((s.core (tileCore c.k)).queue (fld (x.peekInt c.f.a) 5 0)).wp)
  | .smrgOrd => c.ordMatch.isSome && d
  | .mxrow => c.mxReady
  | .gremit => a && c.mxReady
  | .agrd => a && b && s.agReady c
  | .agch => a && b && s.agReady c
  | _ => a && b && d && (!isMemOp c.o || decide (x.reqs.length < Config.requestPlaces)) &&
      (match c.p with
        | .pe => true
        | .mx => c.mxReady
        | .ag => s.agReady c)

/-- The destinations whose order R116 keeps, for the outputs that the firing would send on. -/
def dests (c : Ctx) : List Dst :=
  let outs : List Nat → List Dst := fun ns => ns.map fun n => Dst.out ⟨n % 4, Nat.mod_lt _ (by decide)⟩
  match c.o with
  | .steer => outs c.steerOuts
  | .dup => outs (dupOuts c.f)
  | .barj => outs c.x.barOuts
  | .yield => outs c.x.yieldOuts
  | .fork => [.pred 4, .pred 5, .pred 6, .pred 7]
  | .mxrow => c.f.d :: (match c.f.d with
      | .out n => if c.f.md.getLsbD 0 then outs [n.val + 1] else []
      | _ => [])
  | _ => [c.f.d]

/-- The cycle at whose end a firing's result completes, where the firing fixes it (R115); the first beat of a pass enters
its output T + 2 cycles after the firing (R244), and a stream's at the earliest in the next. -/
def Ctx.resultDue (c : Ctx) : Option Nat :=
  if c.o = .mxrow then some (c.cyc + c.t.eng.cfg.cycles + 1) else (opLatency c.o).map fun l => c.cyc + l - 1

/-- A slot's trigger, RDV's own condition apart. -/
def State.slotReady (s : State) (c : Ctx) : Bool :=
  c.x.run = .running && predsHold (c.t.preds c.p) c.f.pm c.f.pv && c.x.guards c.f && s.operandsReady c &&
    (match c.resultDue with
      | some due => (dests c).all fun d => c.x.inOrder d due (if c.p = .mx then c.t.eng.sureTicket else none)
      | none => true)

/-- The decoded instruction of a slot of a pool. -/
def PoolSt.instr (x : PoolSt) (n : Nat) : Option (Op × Fields) :=
  (x.slots.getD n none).bind fun w =>
    match opOf x.kind (wordOp w) (wordMd w) with
    | some o => (Dst.decode (w.extractLsb' 20 6)).map fun d => (o, readFields w d)
    | none => none

/-- The trigger of slot n of a pool, for the MX and AG pools, which hold no RDV. -/
def State.readyAt (s : State) (k : Nat) (p : Pool) (n : Nat) : Bool :=
  match ((s.tile k).pool p).instr n with
  | some (o, f) => s.slotReady (s.ctx ⟨k, p, n⟩ o f)
  | none => false

/-- Work that a firing of the pool started and that has not ended (R129). -/
def Tile.busyWork (t : Tile) (p : Pool) : Bool :=
  let x := t.pool p
  !x.inflight.isEmpty || match p with
    | .pe => !x.reqs.isEmpty
    | .mx => !t.eng.passes.isEmpty || t.eng.work.isSome || t.eng.gremit.isSome
    | .ag => !x.agq.isEmpty || x.streams.any fun st => st.st = .running || st.st = .held

/-- The MX or AG pool is quiescent in the current cycle (R129). -/
def State.quiescent (s : State) (k : Nat) (p : Pool) : Bool :=
  let t := s.tile k
  let x := t.pool p
  let cyc := (s.core (tileCore k)).cyc
  !t.busyWork p && (x.firedAt.elim true fun c => decide (c + 1 < cyc)) &&
    (List.range x.slots.length).all fun n => !s.readyAt k p n

/-- A slot's trigger holds (R94). -/
def State.trigger (s : State) (fo : Focus) (o : Op) (f : Fields) : Bool :=
  s.slotReady (s.ctx fo o f) && (o != .rdv || (s.quiescent fo.tile .mx && s.quiescent fo.tile .ag))

/-! ### Choosing (R114, R118, R119) -/

/-- Slots whose trigger holds, lowest first. -/
def State.eligible (s : State) (k : Nat) (p : Pool) : List Nat :=
  (List.range ((s.tile k).pool p).slots.length).filter fun n =>
    match ((s.tile k).pool p).instr n with
    | some (o, f) => s.trigger ⟨k, p, n⟩ o f
    | none => false

/-- A used group holds a slot. -/
def Group.holds (g : Group) (n : Nat) : Bool := g.w != 0 && g.first ≤ n && n ≤ g.last

/-- The used group with the largest credit among those that hold an eligible slot; the lower number on a tie. -/
def bestGroup (gs : List Group) (es : List Nat) : Option Group :=
  gs.foldl (fun acc g =>
    if es.any g.holds then
      match acc with
      | some h => if h.credit < g.credit then some g else acc
      | none => some g
    else acc) none

/-- The slot that a pool fires (R114). -/
def State.choose (s : State) (k : Nat) (p : Pool) : Option Nat :=
  let es := s.eligible k p
  if ((s.tile k).pool p).groups.all (fun g => g.w = 0) then es.head?
  else (bestGroup ((s.tile k).pool p).groups es).bind fun g => (es.filter g.holds).head?

/-- The inputs of an instruction for R118. -/
def State.instrInputs (s : State) (k : Nat) (p : Pool) (o : Op) (f : Fields) : List Nat :=
  [0, 1, 2, 3].filter fun c =>
    f.ir.getLsbD c || (f.te && f.tc.toNat = c) || (f.a.input?.map (·.val)) == some c ||
      (f.b.input?.map (·.val)) == some c || (o = .merge && f.md.toNat % 4 = c) ||
      (o = .barj && (s.joined k p).contains c)

/-- Beats that stand in the inputs of a group (R118). -/
def State.groupBeats (s : State) (k : Nat) (p : Pool) (g : Group) : Nat :=
  let x := (s.tile k).pool p
  let ins := (List.range x.slots.length).flatMap fun n =>
    if g.holds n then
      match x.instr n with
      | some (o, f) => s.instrInputs k p o f
      | none => []
    else []
  ([0, 1, 2, 3].filter fun c => ins.contains c).foldl (fun n c => n + (x.inp c).queue.length) 0

/-- The sums of R118 with the beats that the triggers of this cycle see. -/
def State.countBeats (s : State) (k : Nat) (p : Pool) : State :=
  s.modPool k p fun x => { x with groups := x.groups.map fun g =>
    if g.w = 0 then g else { g with occ := g.occ + s.groupBeats k p g } }

/-- MXROW slots with a true trigger but for the bucket (R255): noted in the first such cycle, marked in a later one in which
the undeclared rate is in force, and forgotten once their row no longer stands. -/
def State.noteRows (s : State) (k : Nat) (undecl : Bool) : State :=
  let t := s.tile k
  let waits := (List.range t.mx.slots.length).filter fun n =>
    match t.mx.instr n with
    | some (.mxrow, f) =>
      let c := s.ctx ⟨k, .mx, n⟩ .mxrow f
      c.x.run = .running && predsHold (t.preds .mx) f.pm f.pv && c.x.guards f && c.rowReady
    | _ => false
  let stands : Nat → Bool := fun n => match t.mx.instr n with
    | some (.mxrow, f) => match f.a with
      | .inp i => (t.mx.inp i).dataRow t.eng.cfg.nA
      | _ => false
    | _ => false
  let rows := (t.eng.waitRows.filter fun r => stands r.1).map fun r => (r.1, r.2 || undecl)
  let rows' := waits.foldl (fun m n => if (Tab.get? m n).isSome then m else Tab.set m n false) rows
  if rows' = t.eng.waitRows then s else s.setTile k { t with eng := { t.eng with waitRows := rows' } }

/-! ### One firing -/

/-- A result of a firing: where it goes, the value where the firing computes it, the latency (0 for a result that a
ticket's work brings), and the ticket. -/
structure Res where
  dst : Dst
  tok : Option Tok
  lat : Nat
  ticket : Nat
  deriving DecidableEq, Repr

/-- What one firing does once its checks have passed (R95). -/
structure Done where
  res : List Res := []
  /-- inputs that lose their head, in order; an input may lose several -/
  pops : List Nat := []
  /-- v registers taken -/
  takes : List Nat := []
  /-- outputs that lose a unit of space (R116) -/
  outs : List Nat := []
  /-- what the instruction's definition changes in the tile, and beyond it -/
  tile : Tile → Tile := id
  eff : State → State := id
  /-- a fault of a firing that completes (POISON_CTL of a counter, TRAP) -/
  after : Option Flt := none

/-- Inputs consumed by the operand fields (R97). -/
def popsOf (f : Fields) : List Nat :=
  (f.a.consumes?.map (·.val)).toList ++ (f.b.consumes?.map (·.val)).toList

/-- Registers taken by the operand fields (R97). -/
def takesOf (f : Fields) : List Nat :=
  let t : Src → List Nat := fun s => match s with
    | .take n => [n.val]
    | _ => []
  t f.a ++ t f.b

/-- The output named by D. -/
def outsOf (f : Fields) : List Nat := match f.d with
  | .out c => [c.val]
  | _ => []

/-- A firing that does what its operand fields say and leaves no result. -/
def Ctx.plain (c : Ctx) : Done := { pops := popsOf c.f, takes := takesOf c.f }

/-- A firing whose result goes to D after the instruction's latency. -/
def Ctx.result (c : Ctx) (t : Tok) : Done :=
  { c.plain with outs := outsOf c.f, res := [⟨c.f.d, some t, (opLatency c.o).getD 1, 0⟩] }

/-- One token sent on each output of a list, latency 1. -/
def Ctx.send (_ : Ctx) (outs : List Nat) (t : Tok) : List Res :=
  outs.map fun n => ⟨.out ⟨n % 4, Nat.mod_lt _ (by decide)⟩, some t, 1, 0⟩

/-- The first head of an input consumed. -/
def PoolSt.popInput (x : PoolSt) (c : Nat) : PoolSt :=
  { x with ins := x.ins.modify c fun i => { i with queue := i.queue.drop 1 } }

/-- A unit of an output's space taken: a request in pull mode, a credit otherwise; the done sink holds none. -/
def OutPort.spend (o : OutPort) : OutPort :=
  if o.code = 6 then o else if o.pull then { o with reqs := o.reqs - 1 } else { o with credits := o.credits - 1 }

/-- A pool after its part of a firing (R95, R116, R117, R119). -/
def PoolSt.fire (x : PoolSt) (c : Ctx) (d : Done) : PoolSt :=
  let x1 := d.pops.foldl PoolSt.popInput x
  let x2 : PoolSt := { x1 with
    v := d.takes.foldl (fun v n => v.modify n fun r => { r with present := false }) x1.v
    outs := d.outs.foldl (fun os n => os.modify n OutPort.spend) x1.outs }
  { x2 with
    inflight := x2.inflight ++ d.res.filterMap fun r =>
      if r.dst = .none then none
      else some ⟨r.dst, r.tok, c.cyc + r.lat - 1, (r.tok.elim c.gen fun t => t.gen), c.slot, r.ticket, dstCode r.dst⟩
    upd := if c.f.pe then some (c.f.pi, c.f.pval) else none
    firedAt := some c.cyc
    groups := x2.groups.map fun g => if g.holds c.slot then { g with credit := max (g.credit - 1) (-1024) } else g }

/-- A consumed head's credit starts back toward its producer (R121); a pull input has none to return (R122). -/
def State.creditFor (s : State) (x : PoolSt) (i : Nat) : State :=
  let p := x.inp i
  match p.chan with
  | some ch => if p.pull then s else s.modChan ch fun y => { y with credBack := y.credBack + 1 }
  | none => s

/-- A fault of a firing raised in its pool (R136, R340). -/
def State.raiseFlt (s : State) (c : Ctx) (e : Flt) : State := s.raise c.k c.p e.slot e.code e.gen e.w3 e.w4 e.w5

/-- The region in which a firing or a movement happens is not quiet (R345). -/
def State.markActive (s : State) (k : Nat) : State :=
  match (s.tile k).region with
  | some r => s.modRegion r fun x => if x.active then x else { x with active := true }
  | none => s

/-- A firing done (R95). -/
def State.commit (s : State) (c : Ctx) (d : Done) : State :=
  let t := d.tile (c.t.modPool c.p fun x => x.fire c d)
  let s1 := d.pops.foldl (fun s i => s.creditFor c.x i) (s.setTile c.k t)
  let s2 := d.eff (s1.markActive c.k)
  match d.after with
  | some e => s2.raiseFlt c e
  | none => s2

/-- One firing of the slot in focus, if its trigger holds: `body` computes from the context what it does, or the fault
that suppresses it. A slot whose trigger does not hold does nothing. A firing that a fault suppresses leaves its group's
credit as it is; R119 is silent on it, DESIGN CHOICE of log entry 92. -/
def issue (o : Op) (f : Fields) (s : State) (body : Ctx → Except Flt Done) : Host.Outcome State Fault Refusal :=
  if s.trigger s.focus o f then
    let c := s.ctx s.focus o f
    match body c with
    | .ok d => .next (s.commit c d)
    | .error e => .next ((s.markActive c.k).raiseFlt c e)
  else .next s

end Sys2Proof.Machine
end

