-- ==== Sys2Proof/Machine/Common.lean ====
section
/-! DEFINITION. The common block of the three pools (R137 to R141, R191, R268, R279, R348). -/

namespace Sys2Proof.Machine

open Sys2Proof

/-- POISON_CTL of a counter written by a poisoned result (R136). -/
def Ctx.counterPoison (c : Ctx) (psn : Bool) : Option Flt :=
  if psn then some (c.flt 0x21 (w64 (dstCode c.f.d + 256)) 0 0) else none

/-- NOP (R137). -/
def execNop (f : Fields) (s : State) : Host.Outcome State Fault Refusal :=
  issue .nop f s fun c => .ok c.plain

/-- The token that MOV and DUP send: A with its header by R133; a head of another KIND that the tag test admits goes whole
(R137, R145). -/
def Ctx.moved (c : Ctx) (h : Hdr) : Tok :=
  if c.a.kind != 0 then c.a else { c.a with lanes := maskLanes c.a, mask := h.mask, psn := h.psn, gen := h.gen }

/-- MOV (R137): the token with its header; a control token admitted by the tag test goes whole to an output. -/
def execMov (f : Fields) (s : State) : Host.Outcome State Fault Refusal :=
  issue .mov f s fun c => do
    let h ← c.header
    .ok (c.result (c.moved h))

/-- KIND and SIDE of an EMIT by MD (R138); x is lane 0 of A. -/
def emitKind (md : Nat) (x : Nat) : BitVec 3 × BitVec 24 :=
  match md with
  | 0 => (1, 0)
  | 1 => (1, 1)
  | 2 => (2, BitVec.ofNat 24 x)
  | 3 => (3, 0)
  | 4 => (5, BitVec.ofNat 24 (x % 2 ^ 20))
  | 5 => (5, BitVec.ofNat 24 (2 ^ 20 + x % 32))
  | _ => (6, 0)

/-- EMIT (R138). -/
def execEmit (f : Fields) (s : State) : Host.Outcome State Fault Refusal :=
  issue .emit f s fun c => do
    let h ← c.header
    let (kind, side) := emitKind f.md.toNat (maskLanes c.a).l0.toNat
    .ok (c.result (ctlTok kind side h.psn h.gen))

/-- DROP (R137). -/
def execDrop (f : Fields) (s : State) : Host.Outcome State Fault Refusal :=
  issue .drop f s fun c => .ok c.plain

/-- PSET (R139). -/
def execPset (f : Fields) (s : State) : Host.Outcome State Fault Refusal :=
  issue .pset f s fun c => .ok (c.result (predRes true Hdr.none))

/-- PCLR (R139). -/
def execPclr (f : Fields) (s : State) : Host.Outcome State Fault Refusal :=
  issue .pclr f s fun c => .ok (c.result (predRes false Hdr.none))

/-- The logic function of PLOG by MD (R139). -/
def plogFn (md : Nat) (pa pb : Bool) : Bool :=
  match md with
  | 0 => pa && pb
  | 1 => pa || pb
  | 2 => pa != pb
  | 3 => pa && !pb
  | 4 => pa == pb
  | 5 => pa
  | _ => !pa

/-- The predicate that an immediate names. -/
def Ctx.immPred (c : Ctx) (s : Src) : Bool :=
  match s with
  | .imm n => c.t.pred c.p n.val
  | _ => false

/-- PLOG (R139): the predicates as they stand at the start of the firing cycle. -/
def execPlog (f : Fields) (s : State) : Host.Outcome State Fault Refusal :=
  issue .plog f s fun c => .ok (c.result (predRes (plogFn f.md.toNat (c.immPred f.a) (c.immPred f.b)) Hdr.none))

/-- CSET (R140). -/
def execCset (f : Fields) (s : State) : Host.Outcome State Fault Refusal :=
  issue .cset f s fun c => do
    let a ← c.intA
    let h ← c.header
    .ok { c.plain with
      tile := fun t => t.modPool c.p fun x => x.setCounter (f.md.getLsbD 0) (a.setWidth 32)
      after := c.counterPoison h.psn }

/-- CINC (R140). -/
def execCinc (f : Fields) (s : State) : Host.Outcome State Fault Refusal :=
  issue .cinc f s fun c => do
    let a ← c.intA
    let b ← c.intB
    let h ← c.header
    let n := c.x.counter (f.md.getLsbD 0) + a.setWidth 32
    let hit := n == b.setWidth 32
    let r := if f.d.isPred then predRes hit h else scalarRes (n.setWidth 64) h
    .ok { c.result r with
      tile := fun t => t.modPool c.p fun x => x.setCounter (f.md.getLsbD 0) (if f.md.getLsbD 1 && hit then 0 else n)
      after := c.counterPoison h.psn }

/-- A core with a token posted to a queue (R191). -/
def Core.postTok (k : Core) (q : Nat) (t : Posted) : Core :=
  { k with queues := Tab.set k.queues q { k.queue q with toks := (k.queue q).toks ++ [t] } }

/-- QPOST (R141, R191). -/
def execQpost (f : Fields) (s : State) : Host.Outcome State Fault Refusal :=
  issue .qpost f s fun c => do
    let b ← c.intB
    let h ← c.header
    let q := fld b 5 0
    let core := tileCore c.k
    if ((s.core core).queue q).bound.isNone then .error (c.flt 0x43 (w64 q) 0 0)
    else
      let t : Tok := { c.a with lanes := maskLanes c.a, psn := h.psn, gen := h.gen, kind := 0, tag := 0 }
      let lseq := (s.blockOf c.k).elim 0 (·.lseq)
      let job := (s.blockOf c.k).elim 0 (·.job)
      let blk := (s.blockOf c.k).elim 0xFF (·.idx)
      .ok { c.plain with eff := fun s1 => s1.setCore core ((s1.core core).postTok q ⟨t, lseq, job, blk⟩) }

/-- FENCE (R268): its trigger is its whole effect. -/
def execFence (f : Fields) (s : State) : Host.Outcome State Fault Refusal :=
  issue .fence f s fun c => .ok c.plain

/-- TRAP (R279). -/
def execTrap (f : Fields) (s : State) : Host.Outcome State Fault Refusal :=
  issue .trap f s fun c => do
    let h ← c.header
    .ok { c.plain with after := some (c.flt 0x63 (maskLanes c.a).l0 (w64 h.gen.toNat) 0) }

/-- Posts a program event of a pool (R279, R281). -/
def State.postHeld (s : State) (k : Nat) (p : Pool) (e : HeldEvt) : State :=
  s.postEvt (mkEvent s 0x64 ((s.blockOf k).map (·.lseq)) ((s.blockOf k).elim 0 (·.job)) (s.placeOf k p e.slot) e.w3 e.w4
    (w64 e.gen.toNat) 0 0)

/-- The held events that wait for no ratification any more, posted in firing order (R279); `n` are looked at. -/
def State.flushEvts (s : State) (k : Nat) (p : Pool) : (n : Nat) → State
  | 0 => s
  | n + 1 =>
    let x := (s.tile k).pool p
    match x.evts with
    | [] => s
    | e :: rest =>
      if asRatified x.ratified e.gen = 0 then
        ((s.modPool k p fun y => { y with evts := rest }).postHeld k p e).flushEvts k p n
      else s

/-- An EVT joins its pool's events, which are posted in firing order, each once its generation is 0 or ratified there
(R279, R324). -/
def State.evt (s : State) (k : Nat) (p : Pool) (e : HeldEvt) : State :=
  let s1 := s.modPool k p fun x => { x with evts := x.evts ++ [e] }
  s1.flushEvts k p ((s1.tile k).pool p).evts.length

/-- EVT (R279). -/
def execEvt (f : Fields) (s : State) : Host.Outcome State Fault Refusal :=
  issue .evt f s fun c => do
    let h ← c.header
    .ok { c.plain with
      eff := fun s1 => s1.evt c.k c.p ⟨h.gen, (maskLanes c.a).l0, (maskLanes c.b).l0, c.slot⟩ }

/-- SIDE of the token of a YIELD (R348). -/
def yieldSide (k : Nat) (p : Pool) (slot : Nat) : BitVec 24 :=
  BitVec.ofNat 24 (tileX k + tileY k * 32 + p.code * 1024 + slot * 4096)

/-- YIELD (R348). -/
def execYield (f : Fields) (s : State) : Host.Outcome State Fault Refusal :=
  issue .yield f s fun c =>
    .ok { c.plain with
      outs := c.x.yieldOuts
      res := c.send c.x.yieldOuts (ctlTok 7 (yieldSide c.k c.p c.slot) false 0)
      tile := fun t => t.modPool c.p fun x => { x with run := .yielded } }

end Sys2Proof.Machine
end

