-- ==== Sys2Proof/Machine/Deliver.lean ====
section
/-! DEFINITION. Where results and beats go: completion of a result (R115 to R117, R136), a token sent into an output's
channel (R120), request places released (R257), and writes to banks and scratchpads with the checksum upkeep and the
held writes of R239. -/

namespace Sys2Proof.Machine

open Sys2Proof

/-! ### Results -/

/-- What a v register keeps of a token (R117): no TAG and no KIND; SIDE with an aligned payload (log entry 5). -/
def regTok (t : Tok) : Tok :=
  { t with tag := 0, kind := 0, side := if t.kind == 0 && (t.fmt == 4 || t.fmt == 5) then t.side else 0 }

/-- A channel that an item enters at its source end: before its first crossing, or on its last stretch. -/
def Chan.push (y : Chan) (it : Item) : Chan :=
  match y.stages with
  | [] => { y with items := y.items ++ [it] }
  | st :: rest => { y with stages := (st ++ [it]) :: rest }

/-- A token enters the channel of an output, with the channel's circuit tag (R123) and the bits of SIDE that R124 marks zero
as zero. -/
def State.sendOut (s : State) (k : Nat) (p : Pool) (n : Nat) (t : Tok) : State :=
  match (((s.tile k).pool p).out n).chan with
  | some ch => s.modChan ch fun y => y.push (.tok { sentTok t with tag := y.tag } 0)
  | none => s

/-- A unit of an output's space taken (R116, R121). -/
def State.spendOut (s : State) (k : Nat) (p : Pool) (n : Nat) : State :=
  s.modPool k p fun x => { x with outs := x.outs.modify n OutPort.spend }

/-- A unit of an output's space given back: the result that had taken it is discarded (R324; log entry 24). -/
def OutPort.refund (o : OutPort) : OutPort :=
  if o.code = 6 then o else if o.pull then { o with reqs := o.reqs + 1 } else { o with credits := o.credits + 1 }

/-- A pool without a result that a squash discards (R324). -/
def PoolSt.discard (x : PoolSt) (e : InFlight) : PoolSt :=
  match e.dst with
  | .out c => { x with outs := x.outs.modify c.val OutPort.refund }
  | _ => x

/-- Results in flight that will never come: their destinations stop awaiting; `g` changes the rest of the pool. -/
def PoolSt.dropInflight (x : PoolSt) (gone : InFlight → Bool) (g : PoolSt → PoolSt) : PoolSt :=
  let y := (x.inflight.filter gone).foldl PoolSt.discard x
  g { y with inflight := y.inflight.filter fun e => !gone e }

/-- POISON_CTL of a completed result (R136). -/
def State.poisonCtl (s : State) (k : Nat) (p : Pool) (e : InFlight) (psn : Bool) : State :=
  if psn then s.raise k p e.slot 0x21 e.gen (w64 e.dcode) 0 0 else s

/-- A result at its destination. -/
def State.deliver (s : State) (k : Nat) (p : Pool) (e : InFlight) (t : Tok) : State :=
  match e.dst with
  | .wr n => s.modPool k p fun x => { x with v := x.v.modify n.val fun _ => ⟨regTok t, true⟩ }
  | .put n => s.modPool k p fun x => { x with v := x.v.modify n.val fun _ => ⟨regTok t, true⟩ }
  | .out c => s.sendOut k p c.val t
  | .areg n => (s.modPool k p fun x => { x with a := x.a.modify n.val fun _ => t.lanes.l0.setWidth 32 }).poisonCtl k p e t.psn
  | .pred n => (s.setTile k ((s.tile k).setPred p n.val (t.lanes.l0.getLsbD 0))).poisonCtl k p e t.psn
  | .none => s

/-- A request has been performed: no access remains and no bank write of it is held (R257, R258). -/
def Req.performed (r : Req) : Bool := r.accs.isEmpty && r.inHold = 0

/-- The place of a request that has been performed and whose results have completed is released (R257). -/
def PoolSt.releasePlace (x : PoolSt) (ticket : Nat) : PoolSt :=
  if x.inflight.any fun e => e.ticket = ticket then x
  else { x with reqs := x.reqs.filter fun r => !(r.ticket = ticket && r.performed) }

/-- The entry at an index in flight has its value, its time has come, and no earlier result goes to the same destination
(R115, R116). -/
def PoolSt.isDue (x : PoolSt) (i cyc : Nat) : Bool :=
  match x.inflight[i]? with
  | some e => e.val.isSome && e.due ≤ cyc && (x.inflight.take i).all fun d => !sameDst d.dst e.dst
  | none => false

/-- The entry at an index in flight can complete: it is due, and so is every other result of its request, for the results of
an LDCH complete together (R263). -/
def PoolSt.canComplete (x : PoolSt) (i cyc : Nat) : Bool :=
  x.isDue i cyc && match x.inflight[i]? with
    | some e => e.ticket = 0 || (List.range x.inflight.length).all fun j =>
        (x.inflight[j]?).all fun d => d.ticket != e.ticket || x.isDue j cyc
    | none => false

/-- One result completes (R115); one of a generation dead in its pool is discarded (R324). -/
def State.complete (s : State) (k : Nat) (p : Pool) (i : Nat) : State :=
  let x := (s.tile k).pool p
  if x.canComplete i (s.core (tileCore k)).cyc then
    match x.inflight[i]? with
    | some e =>
      let s1 := s.modPool k p fun y => { y with inflight := y.inflight.eraseIdx i }
      let s2 := match e.val with
        | some t => if x.dead.contains e.gen then s1.modPool k p fun y => y.discard e else s1.deliver k p e t
        | none => s1
      if e.ticket = 0 then s2 else s2.modPool k p fun y => y.releasePlace e.ticket
    | none => s
  else s

/-- The results of a pool that complete in the current cycle, in firing order; `n` entries are looked at. -/
def State.completeDue (s : State) (k : Nat) (p : Pool) : (i n : Nat) → State
  | _, 0 => s
  | i, n + 1 =>
    if ((s.tile k).pool p).canComplete i (s.core (tileCore k)).cyc then (s.complete k p i).completeDue k p i n
    else s.completeDue k p (i + 1) n

/-- The value of a result that work brings (R257, R247, R251), completing at `due` at the earliest. -/
def PoolSt.fill (x : PoolSt) (ticket due : Nat) (g : Dst → Option Tok) : PoolSt :=
  { x with inflight := x.inflight.map fun e =>
      if e.ticket = ticket then
        match g e.dst with
        | some t => { e with val := some t, due := due, gen := t.gen }
        | none => e
      else e }

/-! ### Banks and scratchpads -/

/-- The tile and word of a flat word address in a tile bank. -/
def bankOf (w : Nat) : Option (Nat × Nat) :=
  if bankBase 0 / 8 ≤ w && w < bankBase 8192 / 8 then
    some ((w - bankBase 0 / 8) / 8192, (w - bankBase 0 / 8) % 8192)
  else none

/-- The sum of the eight significands of a word (R236). -/
def byteSum (w : Word) : Int := (laneElems w 8).foldl (· + ·) 0

/-- A checksum read (R236). -/
def MxEng.chkOf (e : MxEng) (row : Nat) : Int := Tab.get e.chk row 0

/-- A write to an on-chip or global word that takes effect now, with the checksum upkeep of a bank in CIM mode (R239). -/
def State.putWord (s : State) (w : Nat) (mask : BitVec 8) (v : Word) (psn : Bool) : State :=
  let m := s.mem.write w mask v psn
  match bankOf w with
  | some (k, i) =>
    let t := s.tile k
    if t.eng.mode = 1 then
      let row := i / 32
      let c := t.eng.chkOf row + byteSum (m.word w) - byteSum (s.mem.word w)
      (s.setMem m).setTile k { t with eng := { t.eng with chk := Tab.set t.eng.chk row (sextBits (c % 65536).toNat 16) } }
    else s.setMem m
  | none => s.setMem m

/-- A full-empty bit set or cleared (R186, R267). -/
def State.putFull (s : State) (w : Nat) (full : Bool) : State := s.setMem (s.mem.setFull w full)

/-- The bank of a tile holds writes (R239): a pass in its serial phase, a scrub, a zeroing, a recomputation or a
grammar run. -/
def MxEng.holds (e : MxEng) : Bool :=
  e.work.isSome || e.passes.any fun q => q.serial && decide (q.left ≤ q.cfg.cycles)

/-- Writes to a word are held. -/
def State.wordHeld (s : State) (w : Nat) : Bool := (bankOf w).elim false fun b => (s.tile b.1).eng.holds

/-- An access of a bank word joins the accesses that its tile's bank holds (R239). -/
def State.queueHeld (s : State) (w : Nat) (who : HeldBy) (op : HeldOp) : State :=
  match bankOf w with
  | some (k, _) =>
    let t := s.tile k
    s.setTile k { t with eng := { t.eng with heldWrites := t.eng.heldWrites ++ [⟨w, who, op⟩] } }
  | none => s

/-- Some bank holds an access that a test singles out. -/
def State.anyHeld (s : State) (test : HeldWrite → Bool) : Bool := s.tiles.any fun kt => kt.2.eng.heldWrites.any test

/-- A completed word of a stream or a copy is reported to the counters that are bound to its tag (R188). -/
def State.countTag (s : State) (core ntile ctag : Nat) : State :=
  if ctag = 0 then s
  else s.modPool (coreTile core ntile) .ag fun x =>
    { x with
      ctrs := x.ctrs.map fun c =>
        if c.tag = some (BitVec.ofNat 12 ctag) then { c with count := (c.count + 1) % 2 ^ 48 } else c }

end Sys2Proof.Machine
end

