-- ==== Sys2Proof/Machine/Task.lean ====
section
/-! DEFINITION. Task memory (R286 to R296): positions of units in task order, the bisque buffers with their capacity,
task loads and stores, conflicts and aborts, and the squash that an abort sends (R312). -/

namespace Sys2Proof.Machine

open Sys2Proof

/-! ### Units (R29, R35, R36, R288, R316) -/

/-- The position of unit i of a launch in task order (R288). -/
def Launch.pos (l : Launch) (i : Nat) : Pos :=
  match l.late with
  | some (m, p) => if i < m then { p with ord := p.ord + i } else ⟨l.ts i, l.lseq, i, 0, 0⟩
  | none => ⟨l.ts i, l.lseq, i, 0, 0⟩

/-- One position precedes another in task order. -/
def Pos.lt (p q : Pos) : Bool :=
  p.ts < q.ts || (p.ts = q.ts && (p.lseq < q.lseq || (p.lseq = q.lseq && (p.idx < q.idx || (p.idx = q.idx &&
    (p.ord < q.ord || (p.ord = q.ord && p.acc < q.acc)))))))

/-- The position of a unit, without the timestamp of an access. -/
def Pos.unit (p : Pos) : Pos := { p with acc := 0 }

/-- The unit of a launch whose interval holds a timestamp (R272). -/
def Launch.unitAt (l : Launch) (ts : Nat) : Option Nat :=
  if ts < l.tsbase || l.stride = 0 then none
  else
    let i := (ts - l.tsbase) / l.stride
    if i < l.unitCount then some i else none

/-- The blocks of a launch (R55). -/
def Launch.blks (l : Launch) : List Nat := (List.range (l.lastBlk + 1 - l.firstBlk)).map fun i => l.firstBlk + i

/-- The run of a unit under a generation (R316). -/
def UnitSt.run? (u : UnitSt) (g : BitVec 8) : Option Run := u.runs.find? fun r => r.gen == g

/-- A unit with the run of a generation changed, begun if it had not. -/
def UnitSt.modRun (u : UnitSt) (g : BitVec 8) (f : Run → Run) : UnitSt :=
  match u.run? g with
  | some r => { u with runs := u.runs.map fun x => if x.gen == g then f r else x }
  | none => { u with runs := u.runs ++ [f ⟨g, [], false⟩] }

/-- A unit of a launch changed. -/
def State.modUnit (s : State) (lseq i : Nat) (f : UnitSt → UnitSt) : State :=
  s.modLaunch lseq fun l => { l with units := Tab.set l.units i (f (l.unit i)) }

/-- The units that a block of a launch has finished under GEN 0 (R35). -/
def State.finishedBy (s : State) (lseq blk : Nat) : Nat := (Tab.get? s.blocks (lseq * 256 + blk)).elim 0 (·.finished)

/-- Whether a run of a unit has finished (R35, R316; log entry 8). -/
def State.runFinished (s : State) (l : Launch) (i : Nat) (g : BitVec 8) : Bool :=
  (l.unit i).committed || l.blks.all fun b =>
    if g == 0 then decide (i < s.finishedBy l.lseq b) else ((l.unit i).run? g).elim false fun r => r.fin.contains b

/-- The oldest unit of a launch that has not committed. -/
def Launch.oldest (l : Launch) : Option Nat :=
  if l.count < l.unitCount then some l.count else none

/-- The oldest uncommitted unit of a job in task order, over its placed launches: placement creates the units of a launch
(R29, R288; log entry 28). -/
def State.oldestUnit (s : State) (job : Nat) : Option (Launch × Nat) :=
  s.launches.foldl (fun acc kl =>
    let l := kl.2
    if l.job = job && l.st = .placed then
      match l.oldest, acc with
      | some i, some (m, j) => some (if (l.pos i).lt (m.pos j) then (l, i) else (m, j))
      | some i, none => some (l, i)
      | none, a => a
    else acc) none

/-- Its position. -/
def State.oldestOf (s : State) (job : Nat) : Option Pos := (s.oldestUnit job).map fun u => u.1.pos u.2

/-! ### The squash that a conflict sends (R312, R323) -/

/-- Tags that descend from one of a list, themselves included. -/
def descendants (m : Tab GenEnt) (tags : List Nat) : List Nat :=
  (List.range 256).filter fun t => t != 0 && tags.any fun g => reaches m g 257 t

/-- The root issues a message (R323). -/
def Root.issue (r : Root) (m : Msg) : Root := { r with log := r.log ++ [m] }

/-- The state of a tag at the root. -/
def Root.ent (r : Root) (t : Nat) : GenEnt := Tab.get r.gens t GenEnt.reset

/-- A tag's state set at the root. -/
def Root.setSt (r : Root) (t : Nat) (st : GenSt) : Root := { r with gens := Tab.set r.gens t { r.ent t with st := st } }

/-- SQUASH of live tags and their descendants (R312). -/
def State.issueSquash (s : State) (tags : List Nat) : State :=
  let r := s.root
  let live := (descendants r.gens tags).filter fun t => (r.ent t).st = .live
  if live.isEmpty then s
  else
    let r1 := live.foldl (fun r t => r.setSt t .squashing) r
    { s with root := r1.issue ⟨.squash, (r.ent (live.headD 0)).job, live.map (BitVec.ofNat 8), none, false, none⟩ }

/-- How many messages an endpoint without a home elsewhere has applied (R323). -/
def State.epAt (s : State) (e : Endpoint) : Nat := (s.epSeq.find? fun x => x.1 = e).elim 0 (·.2)

/-- Dead tags and ratified tags after a list of messages (R324): named by a SQUASH, or ratified, and not yet freed. -/
def deadRat (ms : List Msg) : List (BitVec 8) × List (BitVec 8) :=
  ms.foldl (fun acc m => match m.kind with
    | .squash => (acc.1 ++ m.tags, acc.2)
    | .ratify => (acc.1, acc.2 ++ m.tags)
    | .launch => if m.ratifies then (acc.1, acc.2 ++ m.tags) else acc
    | .free => (acc.1.filter fun t => !m.tags.contains t, acc.2.filter fun t => !m.tags.contains t)) ([], [])

/-- Dead and ratified tags at such an endpoint. -/
def State.tagsAt (s : State) (e : Endpoint) : List (BitVec 8) × List (BitVec 8) :=
  deadRat (s.root.log.take (s.epAt e))

/-- The endpoint that a slice's buffers are. -/
def sliceEp (sl : Nat) : Endpoint := .bisque sl

/-! ### The bisque buffers (R287 to R292) -/

/-- An access's unit: its launch, its index, the timestamp and the generation. -/
structure Acr where
  job : Nat
  lseq : Nat
  unit : Nat
  ts : Nat
  gen : BitVec 8
  deriving DecidableEq, Repr

/-- Entries of a slice. -/
def State.entries (s : State) (sl : Nat) : List BEntry := Tab.get s.bisque sl []

/-- Entries of a slice written. -/
def State.setEntries (s : State) (sl : Nat) (es : List BEntry) : State := { s with bisque := Tab.set s.bisque sl es }

/-- An entry belongs to a run of a unit. -/
def BEntry.ofRun (e : BEntry) (lseq unit : Nat) (g : BitVec 8) : Bool := e.lseq = lseq && e.unit = unit && e.gen == g

/-- An entry is the one of an access and its line. -/
def BEntry.is (e : BEntry) (a : Acr) (line : Nat) : Bool :=
  e.ofRun a.lseq a.unit a.gen && e.ts = a.ts && e.line = line

/-- The position of a unit of a live launch. -/
def State.unitPos (s : State) (lseq unit : Nat) : Pos :=
  match Tab.get? s.launches lseq with
  | some l => l.pos unit
  | none => ⟨0, lseq, unit, 0, 0⟩

/-- The position of the accesses of an entry. -/
def State.entPos (s : State) (e : BEntry) : Pos := { s.unitPos e.lseq e.unit with acc := e.ts }

/-- The position of an access. -/
def State.acrPos (s : State) (a : Acr) : Pos := { s.unitPos a.lseq a.unit with acc := a.ts }

/-- The mirror of the die that homes a slice (R312). -/
def State.homeMirror (s : State) (sl : Nat) : Tab GenEnt := (s.die (sl / 8)).mirror

/-- The access as a slice enters it: a tag that the slice has ratified counts as 0 (R324). -/
def State.atSlice (s : State) (sl : Nat) (a : Acr) : Acr :=
  { a with gen := asRatified (s.tagsAt (sliceEp sl)).2 a.gen }

/-- Accesses that a slice discards at entry: of an aborted run (R291), of a tag dead there (R295, R324), or of a launch that
has retired (R31). -/
def State.discards (s : State) (sl : Nat) (a : Acr) : Bool :=
  (s.tagsAt (sliceEp sl)).1.contains a.gen ||
    match Tab.get? s.launches a.lseq with
    | some l => l.st = .retired || ((l.unit a.unit).run? a.gen).elim false (·.aborted)
    | none => true

/-- A tag is 0 or ratified at the root. -/
def State.ratGen (s : State) (g : BitVec 8) : Bool := g == 0 || (s.root.ent g.toNat).st = .ratified

/-- The generations whose entries are one unit's under GEN `g` once a ratification has relabelled them (R290): a ratified
one stands for GEN 0 and for every ratified one of the unit. -/
def State.runClass (s : State) (lseq unit : Nat) (g : BitVec 8) : List (BitVec 8) :=
  if s.ratGen g then
    0 :: (s.root.gens.filter fun e => e.1 != 0 && e.2.lseq = lseq && e.2.pos = unit && decide (e.2.st = .ratified)).map
      fun e => BitVec.ofNat 8 e.1
  else [g]

/-- An aborted unit waits for a fresh generation, under which its thread token is placed again (R291). -/
def State.replaceLater (s : State) (lseq unit : Nat) (g : BitVec 8) : State :=
  { s with root := { s.root with abortQ := s.root.abortQ ++ [(lseq, unit, (s.root.ent g.toNat).tokid)] } }

/-- One run aborted (R291, steps 1 and 3 to 5): entries of sibling runs, which are separate runs of the unit, stay until their
own squash (R316; log entry 28). A run of GEN 0 or of a ratified generation, which no squash can withdraw,
runs on to its END, and its unit is placed again once it has ended. -/
def State.abortRun (s : State) (lseq unit : Nat) (g : BitVec 8) : State :=
  let cls := s.runClass lseq unit g
  let s1 := { s with bisque := s.bisque.map fun (b : Nat × List BEntry) => (b.1, b.2.filter fun e =>
    !(e.lseq = lseq && e.unit = unit && cls.contains e.gen)) }
  let s2 := s1.modLaunch lseq fun l => { l with aborts := (l.aborts + 1) % 2 ^ 32 }
  let s3 := s2.modUnit lseq unit fun u =>
    let v := cls.foldl (fun (u : UnitSt) h => u.modRun h fun r => { r with aborted := true }) u
    { v with retv := v.retv.filter fun x => !cls.contains x.1 }
  if s.ratGen g then
    let fresh : Launch → BitVec 8 → Bool := fun l h => !((l.unit unit).run? h).elim false (·.aborted)
    match (Tab.get? s.launches lseq).bind fun l => cls.find? fun h => fresh l h && s.runFinished l unit h with
    | some h => s3.replaceLater lseq unit h
    | none => s3
  else (s3.issueSquash [g.toNat]).replaceLater lseq unit g

/-- The runs of other units that hold a read mark whose SRC is a store of a unit's run (R291 step 2). -/
def State.readersOf (s : State) (lseq unit : Nat) (g : BitVec 8) : List (Nat × Nat × BitVec 8) :=
  let p := s.unitPos lseq unit
  let cls := s.runClass lseq unit g
  (s.bisque.flatMap fun (b : Nat × List BEntry) => b.2.filterMap fun (e : BEntry) =>
    if !(e.lseq = lseq && e.unit = unit) && (cls.any fun h => inLineage (s.homeMirror b.1) h e.gen) &&
        e.marks.any (fun m => m.2.elim false fun q => q.unit = p) then some (e.lseq, e.unit, e.gen)
    else none).eraseDups

/-- The run that a generation names, with those that a ratification has joined to it, has been aborted already: none of them is
a fresh one (R290, R291). -/
def State.isAborted (s : State) (lseq unit : Nat) (g : BitVec 8) : Bool :=
  (Tab.get? s.launches lseq).elim false fun x =>
    (s.runClass lseq unit g).all fun h => ((x.unit unit).run? h).elim false (·.aborted)

/-- Runs aborted with every reader of their stores (R291); each run is aborted once, so `fuel` is the number of entries. -/
def State.abortAll (s : State) : (fuel : Nat) → List (Nat × Nat × BitVec 8) → State
  | 0, _ => s
  | _, [] => s
  | fuel + 1, (l, u, g) :: rest =>
    let more := s.readersOf l u g
    if s.isAborted l u g then s.abortAll fuel rest
    else (s.abortRun l u g).abortAll fuel (rest ++ more.filter fun m => !rest.contains m)

/-- Number of entries in all slices. -/
def State.bisqueCount (s : State) : Nat := s.bisque.foldl (fun n b => n + b.2.length) 0

/-- Abort of one run and of what read it (R291). -/
def State.abort (s : State) (lseq unit : Nat) (g : BitVec 8) : State :=
  s.abortAll (2 * s.bisqueCount + 2) [(lseq, unit, g)]

/-- Live jobs (R51). -/
def State.liveJobs (s : State) : Nat := s.jobs.foldl (fun n j => if j.2.st = 1 then n + 1 else n) 0

/-- An entry that a job's reserve can hold: of the GEN-0 run of the job's oldest uncommitted unit (R292). -/
def State.reservable (s : State) (e : BEntry) : Bool :=
  e.gen == 0 && s.oldestOf e.job = some (s.unitPos e.lseq e.unit)

/-- Entries of the general pool in use in a slice: those that no reserve holds (R292; log entry 20). -/
def State.generalUsed (s : State) (sl : Nat) : Nat :=
  let es := s.entries sl
  let held := s.jobs.foldl (fun n j =>
    n + min Config.bisqueReserve (es.filter fun e => e.job = j.1 && s.reservable e).length) 0
  es.length - held

/-- The size of the general pool. -/
def State.generalSize (s : State) : Nat := Config.bisqueEntries - Config.bisqueReserve * s.liveJobs

/-- The unit latest in task order among those of a list of entries. -/
def State.latestOf (s : State) (es : List BEntry) : Option BEntry :=
  es.foldl (fun acc e => match acc with
    | some x => if (s.entPos x).unit.lt (s.entPos e).unit then some e else acc
    | none => some e) none

/-- What an access that needs an entry meets. -/
inductive Room where
  | ok (s : State)
  | overflow
  | wait

/-- A free entry for an access, with an eviction where R292 makes one. -/
def State.roomFor (s : State) (sl : Nat) (a : Acr) : Room :=
  let es := s.entries sl
  let mine := es.filter fun e => e.ofRun a.lseq a.unit a.gen && e.ts = a.ts
  let pos := s.unitPos a.lseq a.unit
  let first := a.gen == 0 && s.oldestOf a.job = some pos
  let own := (es.filter fun e => e.job = a.job && s.reservable e).length
  if Config.bisqueReserve ≤ mine.length then .overflow
  else if (first && own < Config.bisqueReserve) || s.generalUsed sl < s.generalSize then .ok s
  else
    let oldest := ((Tab.get? s.launches a.lseq).bind (·.oldest)) = some a.unit
    let cand := es.filter fun e => (if oldest then e.job = a.job else e.lseq = a.lseq) && pos.lt (s.entPos e).unit
    match s.latestOf cand with
    | some e => .ok (s.abort e.lseq e.unit e.gen)
    | none => .wait

/-- The entry of an access taken where it has none (R287). -/
def State.takeEntry (s : State) (sl : Nat) (a : Acr) (line : Nat) : Room :=
  if (s.entries sl).any fun e => e.is a line then .ok s
  else match s.roomFor sl a with
    | .ok s1 => .ok (s1.setEntries sl (s1.entries sl ++ [⟨a.job, a.lseq, a.unit, a.ts, a.gen, line, [], [], []⟩]))
    | .overflow => .overflow
    | .wait => .wait

/-- A stored byte that a load may take: its value, its position and its order of entry. -/
structure Cand where
  val : Byte
  pos : Pos
  order : Nat
  psn : Bool
  deriving DecidableEq, Repr

/-- The later of two candidates (R289). -/
def Cand.later (x y : Cand) : Cand := if x.pos.lt y.pos || (x.pos = y.pos && x.order < y.order) then y else x

/-- The candidate stores of one byte of a line for an access (R289): in the access's lineage, and earlier in task order,
or of the same unit and timestamp. -/
def State.candidate (s : State) (sl : Nat) (a : Acr) (line byte : Nat) : Option Cand :=
  let here := s.acrPos a
  (s.entries sl).foldl (fun acc e =>
    let p := s.entPos e
    let same : Bool := e.lseq = a.lseq && e.unit = a.unit && e.ts = a.ts
    if e.job = a.job && e.line = line && inLineage (s.homeMirror sl) e.gen a.gen && (same || p.lt here) then
      match Tab.get? e.bytes byte with
      | some (v, o) =>
        let c : Cand := ⟨v, p, o, e.psn.contains (byte / 8)⟩
        some (acc.elim c fun x => x.later c)
      | none => acc
    else acc) none

/-- A CXL port is down, by itself or with its I/O die (R384, R398). -/
def State.cxlPortDown (s : State) (p : Nat) : Bool :=
  s.trust.cxlDown.contains p || (4 ≤ p && s.trust.quarantined.getLsbD 9)

/-- The poison with which a committed word of global memory is read: one in the window of a CXL port that is down reads
poisoned (R260, R384). -/
def State.globalPsn (s : State) (w : Nat) : Bool :=
  s.mem.isPsn w || (inCxl (8 * w) && s.cxlPortDown ((8 * w - 0x10000000000) / 0x3000000000))

/-- A word as a task load returns it (R289): its value, its poison, and the source that its read mark keeps. -/
def State.taskWord (s : State) (sl : Nat) (a : Acr) (pa : Nat) : Word × Bool × Option Pos :=
  let w := pa / 8
  let cs := (List.range 8).map fun i => s.candidate sl a (pa / 64) (pa % 64 / 8 * 8 + i)
  let bytes := (List.range 8).map fun i => match cs.getD i none with
    | some c => c.val
    | none => s.mem.byte (8 * w + i)
  let v := bytes.foldr (fun (b : Byte) (acc : Word) => (acc <<< 8) ||| b.setWidth 64) 0
  let psn := cs.any (fun c => c.elim false (·.psn)) || (cs.any Option.isNone && s.globalPsn w)
  let src := if cs.any Option.isNone then none
    else cs.foldl (fun acc c => match acc, c with
      | some p, some c => some (if c.pos.lt p then c.pos else p)
      | none, some c => some c.pos
      | x, none => x) none
  (v, psn, src)

/-- The entry of an access changed. -/
def State.modEntry (s : State) (sl : Nat) (a : Acr) (line : Nat) (f : BEntry → BEntry) : State :=
  s.setEntries sl ((s.entries sl).map fun e => if e.is a line then f e else e)

/-- What a task access answers: done with a word and its poison, the fault TASK_OVERFLOW, or a wait for an entry. -/
inductive TaskRes where
  | done (v : Word) (psn : Bool) (s : State)
  | overflow
  | wait

/-- A task load of a word at a physical address, with its read mark (R289). -/
def State.taskLoad (s : State) (a0 : Acr) (pa : Nat) : TaskRes :=
  let sl := homeSlice pa
  let a := s.atSlice sl a0
  if s.discards sl a0 then
    let (v, psn, _) := s.taskWord sl a pa
    .done v psn s
  else match s.takeEntry sl a (pa / 64) with
    | .ok s1 =>
      let (v, psn, src) := s1.taskWord sl a pa
      .done v psn (s1.modEntry sl a (pa / 64) fun e => { e with marks := Tab.set e.marks (pa % 64 / 8) src })
    | .overflow => .overflow
    | .wait => .wait

/-- The runs that a store entering makes wrong (R290): another unit's read mark of the word, later in task order and in
the store's lineage, that returned an older value. -/
def State.conflicts (s : State) (sl : Nat) (a : Acr) (line word : Nat) : List (Nat × Nat × BitVec 8) :=
  let here := s.acrPos a
  ((s.entries sl).filterMap fun e =>
    if e.job = a.job && e.line = line && !(e.lseq = a.lseq && e.unit = a.unit) && here.lt (s.entPos e) &&
        inLineage (s.homeMirror sl) a.gen e.gen then
      match Tab.get? e.marks word with
      | some none => some (e.lseq, e.unit, e.gen)
      | some (some p) => if p.lt here then some (e.lseq, e.unit, e.gen) else none
      | none => none
    else none).eraseDups

/-- The bytes of a word that a mask names entered in an entry, with the poison mark of R260. -/
def BEntry.store (e : BEntry) (word : Nat) (mask : BitVec 8) (v : Word) (psn : Bool) (order : Nat) : BEntry :=
  let bytes := (List.range 8).foldl (fun t i =>
    if mask.getLsbD i then Tab.set t (8 * word + i) (byteOf v i, order) else t) e.bytes
  let marked := if psn then putNat e.psn word else if mask = 0xFF then delNat e.psn word else e.psn
  { e with bytes := bytes, psn := marked }

/-- A task store of some bytes of a word at a physical address (R290). -/
def State.taskStore (s : State) (a0 : Acr) (pa : Nat) (mask : BitVec 8) (v : Word) (psn : Bool) : TaskRes :=
  let sl := homeSlice pa
  let a := s.atSlice sl a0
  let word := pa % 64 / 8
  if s.discards sl a0 then .done v psn s
  else match s.takeEntry sl a (pa / 64) with
    | .ok s1 =>
      let (o, s2) := s1.takeOrder
      let s3 := s2.modEntry sl a (pa / 64) fun e => e.store word mask v psn o
      .done v psn (s3.abortAll (2 * s3.bisqueCount + 2) (s3.conflicts sl a (pa / 64) word))
    | .overflow => .overflow
    | .wait => .wait

end Sys2Proof.Machine
end

