-- ==== Sys2Proof/Machine/Memory.lean ====
section
/-! DEFINITION. The memory instructions of the PE pool (R257 to R273) and KV rows (R328 to R330): their checks and
requests at the firing, and the steps that perform their accesses. -/

namespace Sys2Proof.Machine

open Sys2Proof

/-! ### Addresses (R260) -/

/-- Words of a space: the four of R260, and a lane slice. -/
def spaceWords : Nat → Nat
  | 0 => 8192
  | 1 => 2 ^ 20
  | 2 => 2 ^ 20
  | 3 => 2 ^ 23
  | _ => 256

/-- The tile that holds a word of the core scratchpad of a tile's core (R18). -/
def scratchTile (k a : Nat) : Nat := coreTile (tileCore k) (a / 8192)

/-- The flat word address of an access of a tile's PE pool; global words, and the KV slots that stand for rows not yet
configured, above all memories. -/
def flatWord (k : Nat) (a : Acc) : Nat :=
  match a.space with
  | 0 => bankBase k / 8 + a.addr
  | 1 => bankBase (scratchTile k a.addr) / 8 + a.addr % 8192
  | 2 => cluBase (coreCluster (tileCore k)) / 8 + a.addr
  | 3 => chipBase (tileDie k) / 8 + a.addr
  | 4 => laneBase k a.lane / 8 + a.addr
  | 5 => 2 ^ 50 + a.addr / 8
  | _ => 2 ^ 60 + a.addr

/-- BANK_RANGE (R260, R281). -/
def Ctx.bankRange (c : Ctx) (sp a cause lane : Nat) : Flt :=
  c.flt 0x60 (w64 (a % 2 ^ 32) ||| place (sp % 4) 32 ||| place cause 36) (w64 lane) 0

/-- `n` words from word address `a` of a space lie in it, and in no gated tile (R260). -/
def State.inRange (s : State) (c : Ctx) (sp a n lane : Nat) : Except Flt Unit :=
  if spaceWords sp < a + n then .error (c.bankRange sp a 0 lane)
  else if sp = 1 && [a, a + n - 1].any fun w => (s.tile (scratchTile c.k w)).gated then
    .error (c.bankRange sp a 1 lane)
  else .ok ()

/-- A beat address (R260). -/
def State.beatOk (s : State) (c : Ctx) (sp w : Nat) : Except Flt Unit := do
  s.inRange c sp w 8 0
  if w % 8 != 0 then .error (c.flt 0x61 (w64 w) 0 0) else .ok ()

/-- ADDR_PSN: an address source with PSN 1 (R260). -/
def Ctx.noPsn (c : Ctx) (a b : Bool) : Except Flt Unit :=
  if a && c.a.psn then .error (c.flt 0x65 (w64 c.o.code) 0 0)
  else if b && c.b.psn then .error (c.flt 0x65 (w64 (c.o.code + 256)) 0 0)
  else .ok ()

/-- Lane i of a source as it stands, zero where the lane is not valid (R260). -/
def laneOf (t : Tok) (i : Nat) : Nat := ((maskLanes t).get i).toNat

/-! ### KV areas (R328, R330) -/

/-- The key of area n of a job, and of slot j of it. -/
def kvKey (job n : Nat) : Nat := job * 4 + n
def kvSlotKey (key j : Nat) : Nat := key * 4096 + j

/-- Words of an area. -/
def KvArea.size (a : KvArea) : Nat := 2 * a.nseg * a.nslot

/-- The area of a die that holds a chip scratchpad word. -/
def Die.kvAt (d : Die) (w : Nat) : Option (Nat × KvArea) :=
  d.kv.find? fun e => e.2.base ≤ w && w < e.2.base + e.2.size

/-- A tag as the KV areas of a die count it (R324). -/
def State.kvTag (s : State) (d : Nat) (g : BitVec 8) : BitVec 8 := asRatified (s.tagsAt (.kv d)).2 g

/-- A request of generation g reads a chip scratchpad word (R330). -/
def State.kvSeen (s : State) (d w : Nat) (g : BitVec 8) : Bool :=
  match (s.die d).kvAt w with
  | none => true
  | some (key, a) => (Tab.get? (s.die d).kvSlots (kvSlotKey key ((w - a.base) / (2 * a.nseg)))).elim false fun sl =>
      inLineage (s.die d).mirror sl.tag (s.kvTag d g) && (List.range (2 * a.nseg)).all sl.put.contains

/-- KV_ACCESS on the first of some words of a space that lies in an area (R330). -/
def State.noKv (s : State) (c : Ctx) (sp : Nat) (ws : List Nat) : Except Flt Unit :=
  if sp = 3 then
    match ws.find? fun w => ((s.die (tileDie c.k)).kvAt w).isSome with
    | some w => .error (c.flt 0x86 (w64 w ||| place c.o.code 32) 0 0)
    | none => .ok ()
  else .ok ()

/-! ### Requests (R257) -/

/-- Router hops between two tiles of a core. -/
def tileHops (j k : Nat) : Nat :=
  (max (tileX j) (tileX k) - min (tileX j) (tileX k)) + (max (tileY j) (tileY k) - min (tileY j) (tileY k))

/-- The minimum latency of an access (R257). -/
def accLatency (k : Nat) (a : Acc) : Nat :=
  match a.space with
  | 0 => 2
  | 1 => 2 + 2 * tileHops k (scratchTile k a.addr)
  | 2 => 10
  | 4 => 2
  | 5 => 48
  | _ => 16

/-- The request of a firing; what an instruction does not need stands at zero. -/
def Ctx.req (c : Ctx) (h : Hdr) (accs : List Acc) (beat : Bool) (dat opb res : Tok) : Req :=
  ⟨c.o, c.f.md.toNat, c.slot, h.gen, h.psn, dat, opb, c.f.d, none, accs, beat, res, c.x.tickets + 1, c.cyc, none, none,
    0, c.x.bind⟩

/-- The result of a request that has nothing left to access, at a destination: the loaded token, a predicate for FEQ,
the next node for LDCH (R263, R267). -/
def Req.answer (r : Req) (d : Dst) : Tok :=
  match d with
  | .pred _ => predRes ((List.range 8).all fun i => r.res.lanes.get i != 0) ⟨1, r.res.psn, r.res.gen⟩
  | .areg _ =>
    let link := fld (r.res.lanes.get (fld r.opb.lanes.l0 2 0)) 31 0
    scalarRes (if link = 0 then 0 else w64 ((link + fld r.opb.lanes.l0 63 32) % 2 ^ 32)) ⟨1, r.res.psn, r.res.gen⟩
  | _ => r.res

/-- A firing that takes a request place (R257); a request that accesses nothing has its result at once. -/
def Ctx.request (c : Ctx) (r : Req) (ds : List Dst) : Done :=
  let lat := r.accs.foldl (fun n a => max n (accLatency c.k a)) 2
  { c.plain with
    outs := outsOf c.f
    res := ds.map fun d => ⟨d, if r.accs.isEmpty then some (r.answer d) else none, lat, r.ticket⟩
    tile := fun t => t.modPool .pe fun x =>
      let y : PoolSt := { x with tickets := r.ticket, reqs := x.reqs ++ [r] }
      y.releasePlace r.ticket }

/-- A result of zeros to be filled, BITS. -/
def bitsRes (h : Hdr) (mask : BitVec 8) : Tok := dataTok Lanes.zero { h with mask := mask } 3

/-- The lanes of a mask, lowest first. -/
def maskList (m : BitVec 8) : List Nat := (List.range 8).filter fun i => m.getLsbD i

/-- Word accesses of some lanes, every one checked first (R260, R261). -/
def State.wordAccs (s : State) (c : Ctx) (sp : Nat) (lanes : List Nat) (addr : Nat → Nat) : Except Flt (List Acc) :=
  lanes.mapM fun i => do
    let w := addr i % 2 ^ 32
    s.inRange c sp w 1 i
    .ok ⟨i, sp, w⟩

/-- LD (R261). -/
def execLd (f : Fields) (s : State) : Host.Outcome State Fault Refusal :=
  issue .ld f s fun c => do
    let h ← c.header
    c.noPsn true true
    let sp := f.md.toNat % 4
    if f.md.getLsbD 2 then
      let accs ← s.wordAccs c sp (maskList c.a.mask) fun i => laneOf c.a i + laneOf c.b 0
      .ok (c.request (c.req h accs false zeroTok zeroTok (bitsRes h c.a.mask)) [f.d])
    else
      let w := (laneOf c.a 0 + laneOf c.b 0) % 2 ^ 32
      s.beatOk c sp w
      .ok (c.request (c.req h [⟨0, sp, w⟩] true zeroTok zeroTok (bitsRes h 0xFF)) [f.d])

/-- ST (R261). -/
def execSt (f : Fields) (s : State) : Host.Outcome State Fault Refusal :=
  issue .st f s fun c => do
    let h ← c.header
    c.noPsn false true
    let sp := f.md.toNat % 4
    if f.md.getLsbD 2 then
      let accs ← s.wordAccs c sp (maskList (c.a.mask &&& c.b.mask)) fun i => laneOf c.b i
      s.noKv c sp (accs.map (·.addr))
      .ok (c.request (c.req h accs false c.a zeroTok zeroTok) [])
    else
      let w := laneOf c.b 0 % 2 ^ 32
      s.beatOk c sp w
      s.noKv c sp ((maskList c.a.mask).map (w + ·))
      .ok (c.request (c.req h (if c.a.mask = 0 then [] else [⟨0, sp, w⟩]) true c.a zeroTok zeroTok) [])

/-- The words that eight elements of 32 bits from element e on touch, each once (R262). -/
def elemWords (e : Nat) (lanes : List Nat) : List Nat := (lanes.map fun i => (e + i) / 2).eraseDups

/-- Elements e to e+7 lie in the space; BANK_RANGE names the word of element e (R262). -/
def State.elemsOk (s : State) (c : Ctx) (sp e : Nat) : Except Flt Unit :=
  s.inRange c sp (e / 2) ((e + 7) / 2 - e / 2 + 1) 0

/-- The element address of an LDX or STX, kept for its accesses. -/
def elemTok (e : Nat) : Tok := scalarTok (w64 e) 1

/-- LDX (R262). -/
def execLdx (f : Fields) (s : State) : Host.Outcome State Fault Refusal :=
  issue .ldx f s fun c => do
    let h ← c.header
    c.noPsn true true
    let sp := f.md.toNat % 4
    let e := (laneOf c.a 0 + laneOf c.b 0) % 2 ^ 32
    s.elemsOk c sp e
    let accs := (elemWords e (List.range 8)).map fun w => (⟨0, sp, w⟩ : Acc)
    let res := dataTok Lanes.zero { h with mask := 0xFF } (if f.md.getLsbD 2 then 1 else 2)
    .ok (c.request (c.req h accs false zeroTok (elemTok e) res) [f.d])

/-- STX (R262). -/
def execStx (f : Fields) (s : State) : Host.Outcome State Fault Refusal :=
  issue .stx f s fun c => do
    let a ← c.convA .int
    let h ← c.header
    c.noPsn false true
    let sp := f.md.toNat % 4
    let e := laneOf c.b 0 % 2 ^ 32
    s.elemsOk c sp e
    let ws := elemWords e (maskList a.mask)
    s.noKv c sp ws
    .ok (c.request (c.req h (ws.map fun w => ⟨0, sp, w⟩) false a (elemTok e) zeroTok) [])

/-- LDCH (R263). -/
def execLdch (f : Fields) (s : State) : Host.Outcome State Fault Refusal :=
  issue .ldch f s fun c => do
    let h ← c.header
    c.noPsn true true
    let sp := f.md.toNat % 4
    let w := laneOf c.a 0 % 2 ^ 32
    s.beatOk c sp w
    let step : List Dst := match f.a with
      | .areg n => [.areg n]
      | _ => []
    .ok (c.request (c.req h [⟨0, sp, w⟩] true zeroTok { c.b with lanes := maskLanes c.b } (bitsRes h 0xFF)) (f.d :: step))

/-- Checks of lane-slice addresses (R264). -/
def State.sliceAccs (s : State) (c : Ctx) (lanes : List Nat) (addr : Nat → Nat) : Except Flt (List Acc) :=
  s.wordAccs c 4 lanes addr

/-- LLS (R264). -/
def execLls (f : Fields) (s : State) : Host.Outcome State Fault Refusal :=
  issue .lls f s fun c => do
    let h ← c.header
    c.noPsn true true
    let accs ← s.sliceAccs c (maskList c.a.mask) fun i => laneOf c.a i + laneOf c.b 0
    .ok (c.request (c.req h accs false zeroTok zeroTok (bitsRes h c.a.mask)) [f.d])

/-- SLS (R264). -/
def execSls (f : Fields) (s : State) : Host.Outcome State Fault Refusal :=
  issue .sls f s fun c => do
    let h ← c.header
    c.noPsn false true
    let accs ← s.sliceAccs c (maskList (c.a.mask &&& c.b.mask)) fun i => laneOf c.b i
    .ok (c.request (c.req h accs false c.a zeroTok zeroTok) [])

/-- A synchronising load of a beat (R265). -/
def syncLoad (o : Op) (f : Fields) (s : State) : Host.Outcome State Fault Refusal :=
  issue o f s fun c => do
    let h ← c.header
    c.noPsn true true
    let sp := f.md.toNat % 4
    let w := (laneOf c.a 0 + laneOf c.b 0) % 2 ^ 32
    s.beatOk c sp w
    s.noKv c sp ((List.range 8).map (w + ·))
    .ok (c.request (c.req h [⟨0, sp, w⟩] true zeroTok zeroTok (bitsRes h 0xFF)) [f.d])

/-- LDF (R265). -/
def execLdf (f : Fields) (s : State) : Host.Outcome State Fault Refusal := syncLoad .ldf f s

/-- LDE (R265). -/
def execLde (f : Fields) (s : State) : Host.Outcome State Fault Refusal := syncLoad .lde f s

/-- A synchronising store of a beat (R265). -/
def syncStore (o : Op) (f : Fields) (s : State) : Host.Outcome State Fault Refusal :=
  issue o f s fun c => do
    let h ← c.header
    c.noPsn false true
    let sp := f.md.toNat % 4
    let w := laneOf c.b 0 % 2 ^ 32
    s.beatOk c sp w
    s.noKv c sp ((List.range 8).map (w + ·))
    .ok (c.request (c.req h (if c.a.mask = 0 then [] else [⟨0, sp, w⟩]) true c.a zeroTok zeroTok) [])

/-- STF (R265). -/
def execStf (f : Fields) (s : State) : Host.Outcome State Fault Refusal := syncStore .stf f s

/-- STE (R265). -/
def execSte (f : Fields) (s : State) : Host.Outcome State Fault Refusal := syncStore .ste f s

/-- FEQ (R267). -/
def execFeq (f : Fields) (s : State) : Host.Outcome State Fault Refusal :=
  issue .feq f s fun c => do
    let h ← c.header
    c.noPsn true true
    let sp := f.md.toNat % 4
    let w := (laneOf c.a 0 + laneOf c.b 0) % 2 ^ 32
    s.beatOk c sp w
    s.noKv c sp ((List.range 8).map (w + ·))
    let res := dataTok Lanes.zero { h with mask := 0xFF } 1
    .ok (c.request (c.req h [⟨0, sp, w⟩] true zeroTok zeroTok res) [f.d])

/-- FECLR (R267). -/
def execFeclr (f : Fields) (s : State) : Host.Outcome State Fault Refusal :=
  issue .feclr f s fun c => do
    let h ← c.header
    c.noPsn true true
    let sp := f.md.toNat % 4
    let w := laneOf c.a 0 % 2 ^ 32
    let n := laneOf c.b 0 % 2048
    if n = 0 || 2048 ≤ laneOf c.b 0 then .error (c.bankRange sp w 0 0)
    else
      s.inRange c sp w n 0
      let ws := (List.range n).map (w + ·)
      s.noKv c sp ws
      .ok (c.request (c.req h (ws.map fun a => ⟨0, sp, a⟩) false zeroTok zeroTok zeroTok) [])

/-- The class that reads B of an atomic (R269). -/
def atomCls (md : Nat) : Cls := if md = 7 then .wf else .int

/-- SATOM (R270). -/
def execSatom (f : Fields) (s : State) : Host.Outcome State Fault Refusal :=
  issue .satom f s fun c => do
    let b ← c.convB (atomCls f.md.toNat)
    let h ← c.header
    c.noPsn true false
    let accs ← (maskList (c.a.mask &&& c.b.mask)).mapM fun i => do
      let x := (maskLanes c.a).get i
      let sp := fld x 63 62
      if fld x 61 32 != 0 then .error (c.bankRange sp (fld x 31 0) 0 i)
      else
        s.inRange c sp (fld x 31 0) 1 i
        s.noKv c sp [fld x 31 0]
        .ok (⟨i, sp, fld x 31 0⟩ : Acc)
    let res := dataTok Lanes.zero { h with mask := c.a.mask &&& c.b.mask } (if f.md = 7 then 0 else 1)
    .ok (c.request (c.req h accs false b zeroTok res) [f.d])

/-! ### Global requests (R271 to R273) -/

/-- STREAM_TS (R206, R273). -/
def Ctx.streamTs (c : Ctx) (t user : Word) : Flt := c.flt 0x46 t 0 user

/-- The bound unit of a firing, which has not finished (R273). -/
def State.boundUnit (s : State) (c : Ctx) : Except Flt TsBind :=
  match c.x.bind with
  | none => .error (c.streamTs ones 0)
  | some b =>
    match Tab.get? s.launches b.lseq with
    | some l => if s.runFinished l b.unit b.gen then .error (c.streamTs (w64 b.ts) 0) else .ok b
    | none => .error (c.streamTs (w64 b.ts) 0)

/-- The header with the GEN that TSGET bound (R259). -/
def Ctx.globalHdr (c : Ctx) (h : Hdr) (b : TsBind) : Except Flt Hdr :=
  Hdr.join c.mirror c.x.ratified c.slot h { zeroTok with mask := 0xFF, gen := b.gen }

/-- MEM_ALIGN of a global address (R281). -/
def Ctx.globalAlign (c : Ctx) (va lane n : Nat) : Except Flt Unit :=
  if va % n != 0 then .error (c.flt 0x61 (w64 va ||| place 1 63) (w64 lane) 0) else .ok ()

/-- Global word accesses of some lanes. -/
def Ctx.globalAccs (c : Ctx) (lanes : List Nat) (addr : Nat → Nat) : Except Flt (List Acc) :=
  lanes.mapM fun i => do
    let va := addr i % 2 ^ 52
    c.globalAlign va i 8
    .ok ⟨i, 5, va⟩

/-- GLD (R273). -/
def execGld (f : Fields) (s : State) : Host.Outcome State Fault Refusal :=
  issue .gld f s fun c => do
    let h0 ← c.header
    let u ← s.boundUnit c
    let h ← c.globalHdr h0 u
    c.noPsn true true
    if f.md.getLsbD 2 then
      let accs ← c.globalAccs (maskList c.a.mask) fun i => laneOf c.a i + laneOf c.b 0
      .ok (c.request (c.req h accs false zeroTok zeroTok (bitsRes h c.a.mask)) [f.d])
    else
      let va := (laneOf c.a 0 + laneOf c.b 0) % 2 ^ 52
      c.globalAlign va 0 64
      .ok (c.request (c.req h [⟨0, 5, va⟩] true zeroTok zeroTok (bitsRes h 0xFF)) [f.d])

/-- GST (R273). -/
def execGst (f : Fields) (s : State) : Host.Outcome State Fault Refusal :=
  issue .gst f s fun c => do
    let h0 ← c.header
    let u ← s.boundUnit c
    let h ← c.globalHdr h0 u
    c.noPsn false true
    if f.md.getLsbD 2 then
      let accs ← c.globalAccs (maskList (c.a.mask &&& c.b.mask)) fun i => laneOf c.b i
      .ok (c.request (c.req h accs false c.a zeroTok zeroTok) [])
    else
      let va := laneOf c.b 0 % 2 ^ 52
      c.globalAlign va 0 64
      .ok (c.request (c.req h (if c.a.mask = 0 then [] else [⟨0, 5, va⟩]) true c.a zeroTok zeroTok) [])

/-- GATOM (R271). -/
def execGatom (f : Fields) (s : State) : Host.Outcome State Fault Refusal :=
  issue .gatom f s fun c => do
    let b ← c.convB (atomCls f.md.toNat)
    let h0 ← c.header
    let u ← s.boundUnit c
    let h ← c.globalHdr h0 u
    c.noPsn true false
    let accs ← c.globalAccs (maskList (c.a.mask &&& c.b.mask)) fun i => laneOf c.a i
    let res := dataTok Lanes.zero { h with mask := c.a.mask &&& c.b.mask } (if f.md = 7 then 0 else 1)
    .ok (c.request (c.req h accs false b zeroTok res) [f.d])

/-! ### KVROW (R317, R328) -/

/-- POISON_CTL of an instruction whose poisoned sources suppress it (R317). -/
def Ctx.noPoison (c : Ctx) (a b : Bool) : Except Flt Unit :=
  if (a && c.a.psn) || (b && c.b.psn) then .error (c.flt 0x21 (w64 (dstCode c.f.d)) 0 0) else .ok ()

/-- The scalar words of a KVROW, kept for its access at the area's home. -/
def pairTok (a b : Word) : Tok := ⟨Lanes.ofList [b, a], 0, 0, false, 3, 0, 1, 0⟩

/-- KVROW_CFG (R328); an overlap is found where the area is made. -/
def execKvrowCfg (f : Fields) (s : State) : Host.Outcome State Fault Refusal :=
  issue .kvrowCfg f s fun c => do
    let a ← c.intA
    let b ← c.intB
    let h ← c.header
    c.noPoison true true
    let size := 2 * (fld b 21 16 + 1) * fld b 15 0
    if h.gen != 0 || fld a 23 23 != 0 || fld a 63 26 != 0 || fld b 23 22 != 0 || fld b 63 48 != 0 || fld a 2 0 != 0 ||
        fld b 15 0 = 0 || 4096 < fld b 15 0 || 2 ^ 23 < fld a 22 0 + size then .error (c.flt 0x83 a b 0)
    else .ok (c.request (c.req h [⟨0, 6, kvSlotKey (fld a 25 24) 0⟩] false zeroTok (pairTok a b) zeroTok) [])

/-- KVROW_OPEN (R328, R329). -/
def execKvrowOpen (f : Fields) (s : State) : Host.Outcome State Fault Refusal :=
  issue .kvrowOpen f s fun c => do
    let a ← c.intA
    let b ← c.intB
    let h ← c.header
    c.noPoison true true
    .ok (c.request (c.req h [⟨0, 6, kvSlotKey (fld a 25 24) (fld a 15 0)⟩] false zeroTok (pairTok a b) zeroTok) [])

/-- KVROW_PUT (R328). -/
def execKvrowPut (f : Fields) (s : State) : Host.Outcome State Fault Refusal :=
  issue .kvrowPut f s fun c => do
    let b ← c.intB
    let h ← c.header
    c.noPoison false true
    .ok (c.request (c.req h [⟨0, 6, kvSlotKey (fld b 25 24) (fld b 15 0)⟩] false c.a
      (pairTok (maskLanes c.a).l0 b) zeroTok) [])

/-! ### Performing accesses (R258, R259) -/

/-- A request writes words. -/
def Req.writes (r : Req) : Bool :=
  match r.op with
  | .st => true
  | .stx => true
  | .stf => true
  | .ste => true
  | .gst => true
  | _ => false

/-- Area, slot and words of a KV request's row, where the area is configured. -/
def State.kvRow (s : State) (k : Nat) (r : Req) : Option (Nat × KvArea × Nat) :=
  let w := if r.op = .kvrowPut then r.opb.lanes.l0 else r.opb.lanes.get 1
  let key := kvKey ((s.blockOf k).elim 0 (·.job)) (fld w 25 24)
  (Tab.get? (s.die (tileDie k)).kv key).bind fun a =>
    if fld w 15 0 < a.nslot then some (key, a, fld w 15 0) else none

/-- The word by which two accesses of global memory are told apart (R259, R273): the physical word where the tables map its
address, and its virtual address where they do not. -/
def State.globalWord (s : State) (k va : Nat) : Nat :=
  match s.walk ((s.launchOf k).elim 0 (·.job)) va false with
  | .ok pa _ _ _ => 2 ^ 51 + pa / 8
  | .fault _ _ => 2 ^ 50 + va / 8

/-- The lanes and flat words that an access of a request touches. -/
def State.touches (s : State) (k : Nat) (r : Req) (a : Acc) : List (Nat × Nat) :=
  let w := if a.space = 5 then s.globalWord k a.addr else flatWord k a
  if a.space = 6 then
    (0, w) :: (s.kvRow k r).elim [] fun (_, x, j) =>
      (List.range (2 * x.nseg)).map fun i => (0, chipBase (tileDie k) / 8 + x.base + 2 * x.nseg * j + i)
  else if r.beat then
    ((List.range 8).filter fun i => !r.writes || r.dat.mask.getLsbD i).map fun i => (i, w + i)
  else if r.op = .ldx || r.op = .stx then
    ((List.range 8).filter fun i => (r.op = .ldx || r.dat.mask.getLsbD i) &&
      (r.opb.lanes.l0.toNat + i) / 2 = a.addr).map fun i => (i, w)
  else [(a.lane, w)]

/-- Two accesses of one pool that are kept in firing order: to one word (R259), for global words under one timestamp
(R273), and any two to its lane slices (R264). -/
def State.sameWord (s : State) (k : Nat) (q : Req) (b : Acc) (r : Req) (a : Acc) : Bool :=
  (a.space = 4 && b.space = 4) || ((a.space != 5 || q.unit.map (·.ts) = r.unit.map (·.ts)) &&
    (s.touches k q b).any fun x => (s.touches k r a).any fun y => x.2 = y.2)

/-- A bank write is of an earlier request of a tile's PE pool, or of an earlier access of the same. -/
def HeldWrite.before (h : HeldWrite) (k ticket : Nat) : Bool := match h.who with
  | .req j n => j = k && decide (n ≤ ticket)
  | _ => false

/-- An earlier access of the pool to one of the words has not been performed (R259). -/
def State.orderedBehind (s : State) (k : Nat) (r : Req) (a : Acc) : Bool :=
  (s.tile k).pe.reqs.any (fun q => decide (q.ticket < r.ticket) && q.accs.any fun b => s.sameWord k q b r a) ||
    (s.touches k r a).any fun y => (bankOf y.2).elim false fun b =>
      (s.tile b.1).eng.heldWrites.any fun h => h.before k r.ticket && h.addr = y.2

/-- The full-empty condition of a request's beat (R265). -/
def State.feHolds (s : State) (k : Nat) (r : Req) (a : Acc) : Bool :=
  let ws := s.touches k r a
  match r.op with
  | .ldf => ws.all fun x => s.mem.isFull x.2
  | .lde => ws.all fun x => s.mem.isFull x.2
  | .stf => ws.all fun x => !s.mem.isFull x.2
  | _ => true

/-- A waiting request of a tile can proceed (R266). -/
def State.canWake (s : State) (k : Nat) (r : Req) : Bool :=
  r.waiting.isSome && !isMemOpKv r.op && match r.accs with
    | a :: _ => s.feHolds k r a
    | [] => false
where
  /-- KV requests wait for their slot instead (R329). -/
  isMemOpKv (o : Op) : Bool := o = .kvrowOpen

/-- Some waiting request can proceed: it does so at the instant its condition holds, before any other access (R266). -/
def State.wakeDue (s : State) : Bool := s.tiles.any fun kt => kt.2.pe.reqs.any fun r => s.canWake kt.1 r

/-- A word read for a lane by a load: its value, its poison, and whether it is seen (R260, R330). -/
def State.loadWord (s : State) (k : Nat) (r : Req) (w : Nat) : Word × Bool × Bool :=
  let chip := chipBase (tileDie k) / 8
  let filter : Bool := r.op = .ld || r.op = .ldx || r.op = .ldch
  if filter && chip ≤ w && w < chip + 2 ^ 23 && !s.kvSeen (tileDie k) (w - chip) r.gen then (0, false, false)
  else (s.mem.word w, s.mem.isPsn w, true)

/-- The lane of an LDX from its word (R262). -/
def ldxLane (v : Word) (e : Nat) (u : Bool) : Word :=
  let h := v.extractLsb' (if e % 2 = 0 then 0 else 32) 32
  if u then h.setWidth 64 else h.signExtend 64

/-- A loaded lane put into a result. -/
def putLane (t : Tok) (i : Nat) (v : Word) (psn seen : Bool) : Tok :=
  { t with
    lanes := t.lanes.set i v
    psn := t.psn || psn
    mask := if seen then t.mask else t.mask &&& ~~~BitVec.ofNat 8 (2 ^ i) }

/-- The words of an access read into the request's result. -/
def State.loadAcc (s : State) (k : Nat) (r : Req) (a : Acc) : Tok :=
  (s.touches k r a).foldl (fun t x =>
    let (v, psn, seen) := s.loadWord k r x.2
    let v' := if r.op = .ldx && seen then ldxLane v (r.opb.lanes.l0.toNat + x.1) (r.md / 4 = 1) else v
    putLane t x.1 v' psn seen) r.res

/-- A write of some bytes of a word that takes effect, and may set the word full. -/
def State.writeNow (s : State) (w : Nat) (mask : BitVec 8) (v : Word) (psn full : Bool) : State :=
  let s1 := s.putWord w mask v psn
  if full then s1.putFull w true else s1

/-- A write of a request to one word: at once, or held at a bank that holds writes (R239), unless it is made in its turn
among the held ones; how many are held. -/
def State.storeWord (s : State) (k : Nat) (r : Req) (turn : Bool) (w : Nat) (mask : BitVec 8) (v : Word) (full : Bool) :
    State × Nat :=
  if !turn && s.wordHeld w then (s.queueHeld w (.req k r.ticket) (.store mask v r.dat.psn full), 1)
  else (s.writeNow w mask v r.dat.psn full, 0)

/-- What STX stores of a lane (R262). -/
def stxHalf (v : Word) (sat : Bool) : Word :=
  let x := if sat then BitVec.ofInt 64 (clampS 32 v.toInt) else v
  w64 (x.toNat % 2 ^ 32)

/-- The words of an access written. -/
def State.storeAcc (s : State) (k : Nat) (r : Req) (turn : Bool) (a : Acc) : State × Nat :=
  let full : Bool := r.op = .stf || r.op = .ste
  (s.touches k r a).foldl (fun (sn : State × Nat) x =>
    let v := r.dat.lanes.get x.1
    let hi : Bool := (r.opb.lanes.l0.toNat + x.1) % 2 = 1
    let (s1, n) :=
      if r.op = .stx then
        let h := stxHalf v (r.md / 4 = 1)
        if hi then sn.1.storeWord k r turn x.2 0xF0 (h <<< 32) false else sn.1.storeWord k r turn x.2 0x0F h false
      else sn.1.storeWord k r turn x.2 0xFF v full
    (s1, sn.2 + n)) (s, 0)

/-- The operations of R269. -/
def atomOp (md : Nat) (m y : Word) : Word :=
  match md with
  | 0 => m + y
  | 1 => if m.toInt ≤ y.toInt then m else y
  | 2 => if m.toInt ≤ y.toInt then y else m
  | 3 => if m.toNat ≤ y.toNat then m else y
  | 4 => m &&& y
  | 5 => m ||| y
  | 6 => y
  | _ => fusedSum [Val.ofWf m, Val.ofWf y] 0

/-- The full-empty bits of a beat as lanes (R267). -/
def State.feqAcc (s : State) (k : Nat) (r : Req) (a : Acc) : Tok :=
  (s.touches k r a).foldl (fun t x =>
    putLane t x.1 (if s.mem.isFull x.2 != (r.md / 4 = 1) then BitVec.allOnes 64 else 0) false true) r.res

/-- The words of an access set full or empty. -/
def State.fullAcc (s : State) (k : Nat) (r : Req) (a : Acc) (full : Bool) : State :=
  (s.touches k r a).foldl (fun s x => s.putFull x.2 full) s

/-- One on-chip access of a request performed: the state and the result after it, and how many of its writes are
held; `turn` says that it is made in its turn among the held accesses of a bank. -/
def State.doAcc (s : State) (k : Nat) (r : Req) (turn : Bool) (a : Acc) : State × Tok × Nat :=
  match r.op with
  | .feq => (s, s.feqAcc k r a, 0)
  | .feclr => (s.fullAcc k r a (r.md / 4 = 1), r.res, 0)
  | .lde => (s.fullAcc k r a false, s.loadAcc k r a, 0)
  | .satom =>
    let w := flatWord k a
    let m := s.mem.word w
    let psn := s.mem.isPsn w || r.dat.psn
    (s.putWord w 0xFF (atomOp r.md m (r.dat.lanes.get a.lane)) psn, putLane r.res a.lane m psn true, 0)
  | _ =>
    if r.writes || r.op = .sls then
      let (s1, n) := s.storeAcc k r turn a
      (s1, r.res, n)
    else (s, s.loadAcc k r a, 0)

/-- A pool with one request replaced, by its ticket. -/
def PoolSt.setReq (x : PoolSt) (r : Req) : PoolSt :=
  { x with reqs := x.reqs.map fun q => if q.ticket = r.ticket then r else q }

/-- A request of a tile's PE pool replaced; one with nothing left to access has its results, and its place is released
once they complete (R257). -/
def State.putReq (s : State) (k : Nat) (r : Req) : State :=
  s.modPool k .pe fun x =>
    let y := x.setReq r
    if r.accs.isEmpty then
      let z : PoolSt := { y with inflight := y.inflight.map fun e =>
        if e.ticket = r.ticket then { e with val := some (r.answer e.dst), gen := r.gen } else e }
      z.releasePlace r.ticket
    else y

/-- A request that ends without being performed: its place is free and its destinations stop awaiting (R259). -/
def PoolSt.dropReq (x : PoolSt) (ticket : Nat) : PoolSt :=
  x.dropInflight (fun e => e.ticket = ticket) fun y => { y with reqs := y.reqs.filter fun r => r.ticket != ticket }

/-- A fault found where an access is performed: the request ends and its pool stops. -/
def State.failReq (s : State) (k : Nat) (r : Req) (code : Nat) (w3 w4 w5 : Word) : State :=
  (s.modPool k .pe fun x => x.dropReq r.ticket).raise k .pe r.slot code r.gen w3 w4 w5

/-- An access that reads and writes, or tests and writes, at one instant (R265, R269): a bank that holds writes holds it
whole. -/
def Req.whole (r : Req) : Bool := r.op = .satom || r.op = .stf

/-- A whole access of a request stands among those that a bank holds. -/
def State.standsHeld (s : State) (k : Nat) (r : Req) : Bool :=
  s.anyHeld fun h => h.who = .req k r.ticket && h.op = .access

/-- The first on-chip access of a request performed, or held at its bank (R239). -/
def State.performFirst (s : State) (k : Nat) (r : Req) (turn : Bool) : State :=
  match r.accs with
  | [] => s.putReq k r
  | a :: rest =>
    if !turn && r.whole && (s.touches k r a).any fun x => s.wordHeld x.2 then
      (s.queueHeld (flatWord k a) (.req k r.ticket) .access).putReq k { r with waiting := none }
    else
      let (s1, t, n) := s.doAcc k r turn a
      (s1.putReq k { r with accs := rest, res := t, inHold := r.inHold + n, waiting := none }).markActive k

/-- The first access of a request tried at its home: performed if its full-empty condition holds, else it begins to wait
(R265, R266). -/
def State.tryFirst (s : State) (k : Nat) (r : Req) (turn : Bool) : State :=
  match r.accs with
  | [] => s.putReq k r
  | a :: _ =>
    if s.feHolds k r a then s.performFirst k r turn
    else
      let (o, s1) := s.takeOrder
      s1.putReq k { r with waiting := some o }

/-- Word 3 of KV_TAG (R333). -/
def kvTagWord (j n : Nat) (tag gen : BitVec 8) : Word :=
  w64 j ||| place n 16 ||| place tag.toNat 24 ||| place gen.toNat 32

/-- The area that KVROW_CFG makes, at its home (R328). -/
def State.kvCfg (s : State) (k : Nat) (r : Req) : State :=
  let d := tileDie k
  let a := r.opb.lanes.get 1
  let b := r.opb.lanes.l0
  let job := (s.blockOf k).elim 0 (·.job)
  let key := kvKey job (fld a 25 24)
  let area : KvArea := ⟨job, fld a 22 0, fld b 15 0, fld b 21 16 + 1, fld b 47 24⟩
  let clash := (s.die d).kv.any fun e =>
    e.1 != key && decide (e.2.base < area.base + area.size) && decide (area.base < e.2.base + e.2.size)
  if clash then s.failReq k r 0x83 a b 0
  else
    let x := s.die d
    let s1 := s.setDie d { x with
      kv := Tab.set x.kv key area
      kvSlots := x.kvSlots.filter fun e => e.1 / 4096 != key }
    (s1.putReq k { r with accs := [] }).markActive k

/-- What a KVROW_OPEN finds (R329). -/
inductive KvOpen where
  | proceeds
  | waits
  | tagged
  deriving DecidableEq, Repr

/-- Whether a slot may be replaced (R329). -/
def State.kvOpenTest (s : State) (d slotKey w q : Nat) (gen : BitVec 8) : KvOpen :=
  match Tab.get? (s.die d).kvSlots slotKey with
  | none => .proceeds
  | some sl =>
    let t := s.kvTag d sl.tag
    let g := s.kvTag d gen
    let final : Bool := g = 0 || (Tab.get (s.die d).mirror g.toNat GenEnt.reset).st = .ratified
    if t != 0 then (if t = g then .proceeds else .waits)
    else if q < sl.pos + w then .tagged
    else if final then .proceeds else .waits

/-- KVROW_OPEN at the area's home; `o` is its order of arrival if it has to wait. -/
def State.kvOpen (s : State) (k : Nat) (r : Req) : State :=
  let d := tileDie k
  let a := r.opb.lanes.get 1
  let q := fld r.opb.lanes.l0 31 0
  match s.kvRow k r with
  | none => s.failReq k r 0x85 a r.opb.lanes.l0 0
  | some (key, x, j) =>
    let sk := kvSlotKey key j
    match s.kvOpenTest d sk x.w q r.gen with
    | .proceeds =>
      let y := s.die d
      let s1 := s.setDie d { y with kvSlots := Tab.set y.kvSlots sk ⟨s.kvTag d r.gen, q, []⟩ }
      (s1.putReq k { r with accs := [], waiting := none }).markActive k
    | .waits =>
      if r.waiting.isSome then s
      else
        let (o, s1) := s.takeOrder
        s1.putReq k { r with waiting := some o }
    | .tagged =>
      let sl := Tab.get (s.die d).kvSlots sk ⟨0, 0, []⟩
      s.failReq k r 0x84 (kvTagWord j (key % 4) sl.tag r.gen) (w64 sl.pos) 0

/-- The words of a KVROW_PUT written, as partial writes (R260). -/
def State.kvWrite (s : State) (base : Nat) (r : Req) : State :=
  (maskList r.dat.mask).foldl (fun s i =>
    let v := r.dat.lanes.get i
    (s.putWord (base + i) 0x0F v r.dat.psn).putWord (base + i) 0xF0 v r.dat.psn) s

/-- KVROW_PUT at the area's home (R328). -/
def State.kvPut (s : State) (k : Nat) (r : Req) : State :=
  let d := tileDie k
  let b := r.opb.lanes.l0
  let e := fld b 37 32
  let bad : Flt → State := fun x => s.failReq k r x.code x.w3 x.w4 0
  match s.kvRow k r with
  | none => bad ⟨0x85, 0, 0, r.opb.lanes.get 1, b, 0⟩
  | some (key, x, j) =>
    if (maskList r.dat.mask).any fun i => decide (2 * x.nseg ≤ 2 * e + i) then bad ⟨0x85, 0, 0, r.opb.lanes.get 1, b, 0⟩
    else
      let sk := kvSlotKey key j
      let sl := Tab.get (s.die d).kvSlots sk ⟨0, 0, []⟩
      if (Tab.get? (s.die d).kvSlots sk).isNone || s.kvTag d sl.tag != s.kvTag d r.gen then
        bad ⟨0x84, 0, 0, kvTagWord j (key % 4) sl.tag r.gen, w64 sl.pos, 0⟩
      else
        let s1 := s.kvWrite (chipBase d / 8 + x.base + 2 * x.nseg * j + 2 * e) r
        let y := s1.die d
        let put := (maskList r.dat.mask).foldl (fun p i => putNat p (2 * e + i)) sl.put
        ((s1.setDie d { y with kvSlots := Tab.set y.kvSlots sk { sl with put := put } }).putReq k
          { r with accs := [] }).markActive k

/-- A tag dead at a KV area: an access under it is discarded (R324, R328). -/
def State.kvDead (s : State) (d : Nat) (g : BitVec 8) : Bool := (s.tagsAt (.kv d)).1.contains g

/-- MEM_PERFORM (R257 to R270, R328): the next on-chip access of a request at its home. A request whose full-empty
condition does not hold begins to wait. -/
def execMemPerform (tile idx : Nat) (s : State) : Host.Outcome State Fault Refusal :=
  match (s.tile tile).pe.reqs[idx]? with
  | none => .next s
  | some r =>
    match r.accs with
    | [] => .next s
    | a :: _ =>
      if a.space = 5 || r.waiting.isSome || s.orderedBehind tile r a || s.standsHeld tile r || s.wakeDue then .next s
      else if a.space = 6 then
        if s.kvDead (tileDie tile) r.gen then .next (s.modPool tile .pe fun x => x.dropReq r.ticket)
        else if r.op = .kvrowCfg then .next (s.kvCfg tile r)
        else if r.op = .kvrowOpen then .next (s.kvOpen tile r)
        else .next (s.kvPut tile r)
      else if r.whole && (s.touches tile r a).any fun x => s.wordHeld x.2 then .next (s.performFirst tile r false)
      else .next (s.tryFirst tile r false)

/-- Waiting requests that can proceed and share a word with a request, with their order of arrival. -/
def State.rivals (s : State) (k : Nat) (r : Req) : List Nat :=
  let mine := r.accs.flatMap fun a => (s.touches k r a).map (·.2)
  s.tiles.flatMap fun kt => kt.2.pe.reqs.filterMap fun q =>
    if s.canWake kt.1 q && q.accs.any fun a => (s.touches kt.1 q a).any fun x => mine.contains x.2 then q.waiting
    else none

/-- FE_WAKE (R266): a waiting request proceeds, the first to have arrived among those that can. -/
def execFeWake (tile idx : Nat) (s : State) : Host.Outcome State Fault Refusal :=
  match (s.tile tile).pe.reqs[idx]? with
  | some r =>
    if s.canWake tile r && (s.rivals tile r).all fun o => decide (r.waiting.getD 0 ≤ o) then
      .next (s.performFirst tile r false)
    else .next s
  | none => .next s

/-! ### Accesses that a bank has held (R239) -/

/-- The waiting request that proceeds first: of those whose condition holds, the first to have arrived (R266). -/
def State.firstWake (s : State) : Option (Nat × Req) :=
  let all := s.tiles.flatMap fun kt => (kt.2.pe.reqs.filter fun r => s.canWake kt.1 r).map fun r => (kt.1, r)
  all.find? fun x => all.all fun y => decide (x.2.waiting.getD 0 ≤ y.2.waiting.getD 0)

/-- The waiting requests that a change lets proceed, one at a time (R266); at most `n`. -/
def State.wakeUp (s : State) : (n : Nat) → State
  | 0 => s
  | n + 1 => match s.firstWake with
    | some (k, r) => (s.performFirst k r false).wakeUp n
    | none => s

/-- Requests that wait on full-empty bits. -/
def State.waiters (s : State) : Nat :=
  s.tiles.foldl (fun n kt => n + (kt.2.pe.reqs.filter fun r => r.waiting.isSome).length) 0

/-- A held access is made (R239), and the requests that it lets proceed do so at that instant (R266). -/
def State.applyHeld (s : State) (h : HeldWrite) : State :=
  let s1 := match h.op, h.who with
    | .store bytes v psn full, _ => s.writeNow h.addr bytes v psn full
    | .complete core ntile ctag, _ => (s.putFull h.addr true).countTag core ntile ctag
    | .access, .req k n => match (s.tile k).pe.reqs.find? fun (r : Req) => r.ticket = n with
      | some r => s.tryFirst k r true
      | none => s
    | .access, _ => s
  let s2 := match h.op, h.who with
    | .store _ _ _ _, .req k n => s1.modPool k .pe fun x =>
        let y : PoolSt := { x with reqs := x.reqs.map fun (r : Req) => if r.ticket = n then { r with inHold := r.inHold - 1 } else r }
        y.releasePlace n
    | _, _ => s1
  s2.wakeUp s2.waiters

/-- The accesses that a tile's bank holds, made in their order of arrival (R239). -/
def State.releaseHeld (s : State) (k : Nat) : State :=
  let t := s.tile k
  let s1 := s.setTile k { t with eng := { t.eng with heldWrites := [] } }
  t.eng.heldWrites.foldl State.applyHeld s1

/-- KV_OPEN_PROCEED (R329): a waiting KVROW_OPEN tests its slot again; one whose tag is dead at the area is discarded
(R324, R328). -/
def execKvOpenProceed (tile idx : Nat) (s : State) : Host.Outcome State Fault Refusal :=
  match (s.tile tile).pe.reqs[idx]? with
  | some r =>
    if r.op = .kvrowOpen && r.waiting.isSome then
      .next (if s.kvDead (tileDie tile) r.gen then s.modPool tile .pe fun x => x.dropReq r.ticket else s.kvOpen tile r)
    else .next s
  | none => .next s

/-! ### Task accesses of the PE pool (R273, R289, R290) -/

/-- The access of a request for the bisque buffers. -/
def State.reqAcr (s : State) (k : Nat) (r : Req) : Acr :=
  let b := r.unit.getD ⟨0, 0, 0, 0⟩
  ⟨(s.blockOf k).elim 0 (·.job), b.lseq, b.unit, b.ts, r.gen⟩

/-- A request held at its place (R204, R398). -/
def State.holdReq (s : State) (k : Nat) (r : Req) (n : Nat) : State :=
  s.modPool k .pe fun x => x.setReq { r with held := some n }

/-- TASK_OVERFLOW (R296). -/
def State.overflowReq (s : State) (k : Nat) (r : Req) (pa : Nat) : State :=
  s.failReq k r 0x70 (w64 (pa / 64 * 64 + homeSlice pa)) (w64 (s.reqAcr k r).unit) 0

/-- Words of a line at a physical address, read for lanes: `n` of them from lane `i` on. -/
def State.taskLoads (s : State) (a : Acr) (pa : Nat) : (lanes : List Nat) → Tok → TaskRes × Tok
  | [], t => (.done 0 false s, t)
  | i :: rest, t =>
    match s.taskLoad a (pa + 8 * i) with
    | .done v psn s1 => s1.taskLoads a pa rest (putLane t i v psn true)
    | x => (x, t)

/-- Words of a line at a physical address, stored from lanes. -/
def State.taskStores (s : State) (a : Acr) (pa : Nat) (dat : Tok) : (lanes : List Nat) → TaskRes
  | [] => .done 0 false s
  | i :: rest =>
    match s.taskStore a (pa + 8 * i) 0xFF (dat.lanes.get i) dat.psn with
    | .done _ _ s1 => s1.taskStores a pa dat rest
    | x => x

/-- One lane of GATOM: a load, then a store (R271, R290). -/
def State.taskAtom (s : State) (a : Acr) (pa : Nat) (r : Req) (lane : Nat) : TaskRes × Tok :=
  match s.taskLoad a pa with
  | .done m psn s1 =>
    let p := psn || r.dat.psn
    (s1.taskStore a pa 0xFF (atomOp r.md m (r.dat.lanes.get lane)) p, putLane r.res lane m p true)
  | x => (x, r.res)

/-- One global access of a request at its line. -/
def State.taskAcc (s : State) (k : Nat) (r : Req) (a : Acc) (pa : Nat) : TaskRes × Tok :=
  let u := s.reqAcr k r
  match r.op with
  | .gatom => s.taskAtom u pa r a.lane
  | .gst =>
    if r.beat then (s.taskStores u pa r.dat (maskList r.dat.mask), r.res)
    else (s.taskStore u pa 0xFF (r.dat.lanes.get a.lane) r.dat.psn, r.res)
  | _ =>
    if r.beat then s.taskLoads u pa (List.range 8) r.res
    else match s.taskLoad u pa with
      | .done v psn s1 => (.done v psn s1, putLane r.res a.lane v psn true)
      | x => (x, r.res)

/-- The next global access of a request: translated, then made, held or refused for want of an entry. -/
def State.globalNext (s : State) (k : Nat) (r : Req) : State :=
  match r.accs with
  | [] => s
  | a :: rest =>
    if a.space != 5 || r.held.isSome || s.orderedBehind k r a then s
    else
      let u := s.reqAcr k r
      match s.reach (tileDie k) none u.job a.addr (r.op != .gld) with
      | (.line pa _ _, s1) =>
        match s1.taskAcc k r a pa with
        | (.done _ _ s2, t) => (s2.putReq k { r with accs := rest, res := t }).markActive k
        | (.overflow, _) => s1.overflowReq k r pa
        | (.wait, _) => s
      | (.fault c l, s1) =>
        let (n, s2) := s1.xlate (.req k r.ticket) u.job u.lseq a.addr c l (s1.placeOf k .pe r.slot) (w64 a.lane) 0
        s2.holdReq k r n
      | (.quarantined, s1) =>
        let (n, s2) := s1.addHold ⟨u.job, u.lseq, a.addr, none, .req k r.ticket, false⟩
        s2.holdReq k r n

/-- TASK_LOAD (R273, R289): the next access of a GLD. -/
def execTaskLoad (tile idx : Nat) (s : State) : Host.Outcome State Fault Refusal :=
  match (s.tile tile).pe.reqs[idx]? with
  | some r => .next (if r.op = .gld then s.globalNext tile r else s)
  | none => .next s

/-- STORE_ENTRY (R271, R273, R290): the next access of a GST, or of a GATOM, which loads and stores. -/
def execStoreEntry (tile idx : Nat) (s : State) : Host.Outcome State Fault Refusal :=
  match (s.tile tile).pe.reqs[idx]? with
  | some r => .next (if r.op = .gst || r.op = .gatom then s.globalNext tile r else s)
  | none => .next s

end Sys2Proof.Machine
end

