-- ==== Sys2Proof/Machine/Routing.lean ====
section
/-! DEFINITION. Routing, lanes and header instructions of the PE pool (R142 to R151). -/

namespace Sys2Proof.Machine

open Sys2Proof

/-- SEL (R142). -/
def execSel (f : Fields) (s : State) : Host.Outcome State Fault Refusal :=
  issue .sel f s fun c => do
    let h ← c.header
    let t := if c.t.pred c.p f.md.toNat then c.a else c.b
    .ok (c.result { t with lanes := maskLanes t, gen := h.gen })

/-- STEER (R143). A control head goes whole, and B is then not consumed. -/
def execSteer (f : Fields) (s : State) : Host.Outcome State Fault Refusal :=
  issue .steer f s fun c =>
    if c.a.kind != 0 then
      .ok { pops := (f.a.consumes?.map (·.val)).toList
            outs := c.steerOuts
            res := c.send c.steerOuts c.a }
    else do
      let h ← c.header
      let l := Lanes.ofFn fun i => if h.mask.getLsbD i then c.a.lanes.get i else 0
      let t : Tok := { c.a with lanes := l, mask := h.mask, psn := h.psn, gen := h.gen }
      .ok { c.plain with outs := c.steerOuts, res := c.send c.steerOuts t }

/-- MERGE (R144). -/
def execMerge (f : Fields) (s : State) : Host.Outcome State Fault Refusal :=
  issue .merge f s fun c => do
    let ctl := (c.x.inp f.md.toNat).head.getD zeroTok
    if f.te then
      let h ← c.headerOf [c.a, c.b, ctl]
      .ok { c.result (ctlTok f.tk ctl.side h.psn h.gen) with pops := popsOf f ++ [f.md.toNat] }
    else
      let t := c.x.source c.mergeArm
      let h ← c.headerOf [t, ctl]
      .ok { c.result { t with psn := h.psn, gen := h.gen } with
        pops := (c.mergeArm.consumes?.map (·.val)).toList ++ [f.md.toNat] }

/-- DUP (R145). -/
def execDup (f : Fields) (s : State) : Host.Outcome State Fault Refusal :=
  issue .dup f s fun c => do
    let h ← c.header
    .ok { c.plain with outs := dupOuts f, res := c.send (dupOuts f) (c.moved h) }

/-- BARJ (R127, R146). -/
def execBarj (f : Fields) (s : State) : Host.Outcome State Fault Refusal :=
  issue .barj f s fun c => do
    let js := s.joined c.k c.p
    let hs := js.map fun i => (c.x.inp i).head.getD zeroTok
    let h ← c.headerOf hs
    let t := ctlTok 2 ((hs.head?).getD zeroTok).side false h.gen
    .ok { pops := js, outs := c.x.barOuts, res := c.send c.x.barOuts t }

/-- PERM (R147). -/
def execPerm (f : Fields) (s : State) : Host.Outcome State Fault Refusal :=
  issue .perm f s fun c => .ok c.plain

/-- Requests that a REQ sends (R148). -/
def reqCount (n : Nat) (i : InPort) : Nat := max 1 (min n (i.depth - i.reqOut - i.queue.length))

/-- REQ (R148, R122); its source is of class any (R134). -/
def execReq (f : Fields) (s : State) : Host.Outcome State Fault Refusal :=
  issue .req f s fun c =>
    let i := c.x.inp (f.md.toNat % 4)
    let k := reqCount (fld (c.x.rawLane0 f.a) 5 0) i
    .ok { c.plain with
      tile := fun t => t.modPool c.p fun x =>
        { x with ins := x.ins.modify (f.md.toNat % 4) fun y => { y with reqOut := y.reqOut + k } }
      eff := fun s1 => match i.chan with
        | some ch => s1.modChan ch fun y => { y with reqBack := y.reqBack + k }
        | none => s1 }

/-! ### Lanes (R149) -/

/-- A mask built lane by lane. -/
def maskOf (g : Nat → Bool) : BitVec 8 :=
  (List.range 8).foldl (fun m i => if g i then m ||| BitVec.ofNat 8 (2 ^ i) else m) 0

/-- A lane result: A's FMT and SIDE, PSN and GEN of the header, its own mask. -/
def Ctx.laneRes (c : Ctx) (h : Hdr) (m : BitVec 8) (g : Nat → Word) : Done :=
  c.result { dataTok (Lanes.ofFn g) { h with mask := m } c.a.fmt with side := c.a.side }

/-- The lane number that B names. -/
def Ctx.laneNum (c : Ctx) : Nat := fld (maskLanes c.b).l0 2 0

/-- LPERM (R149). -/
def execLperm (f : Fields) (s : State) : Host.Outcome State Fault Refusal :=
  issue .lperm f s fun c => do
    let h ← c.header
    let b := maskLanes c.b
    let v := f.md.getLsbD 0
    let sel : Nat → Nat := fun i => if v then fld (b.get i) 2 0 else fld b.l0 (3 * i + 2) (3 * i)
    .ok (c.laneRes h (maskOf fun i => c.a.mask.getLsbD (sel i) && c.b.mask.getLsbD (if v then i else 0))
      fun i => c.a.lanes.get (sel i))

/-- LROT (R149). -/
def execLrot (f : Fields) (s : State) : Host.Outcome State Fault Refusal :=
  issue .lrot f s fun c => do
    let h ← c.header
    let l := c.laneNum
    .ok (c.laneRes h (maskOf fun i => c.a.mask.getLsbD ((i + l) % 8) && c.b.mask.getLsbD 0)
      fun i => c.a.lanes.get ((i + l) % 8))

/-- LBC (R149). -/
def execLbc (f : Fields) (s : State) : Host.Outcome State Fault Refusal :=
  issue .lbc f s fun c => do
    let h ← c.header
    let l := c.laneNum
    .ok (c.laneRes h (if c.a.mask.getLsbD l then 0xFF else 0) fun _ => c.a.lanes.get l)

/-- LINS (R149): the old vD with one lane replaced. -/
def execLins (f : Fields) (s : State) : Host.Outcome State Fault Refusal :=
  issue .lins f s fun c => do
    let h ← c.header
    let l := c.laneNum
    .ok (c.laneRes h (maskOf fun i => if i = l then c.a.mask.getLsbD 0 else c.d.mask.getLsbD i)
      fun i => if i = l then c.a.lanes.l0 else c.d.lanes.get i)

/-- LEXT (R149). -/
def execLext (f : Fields) (s : State) : Host.Outcome State Fault Refusal :=
  issue .lext f s fun c => do
    let h ← c.header
    let l := c.laneNum
    .ok (c.laneRes h (if c.a.mask.getLsbD l then 1 else 0) fun i => if i = 0 then c.a.lanes.get l else 0)

/-! ### Headers (R150, R151) -/

/-- TAGSET (R150): the payload passes as it stands, also in lanes that are not valid; SIDE is written as R124 states. B is
no header source. -/
def execTagset (f : Fields) (s : State) : Host.Outcome State Fault Refusal :=
  issue .tagset f s fun c =>
    let a := c.a
    let x := (maskLanes c.b).l0
    let t : Tok := match f.md.toNat with
      | 0 => ({ a with kind := x.extractLsb' 0 3, side := x.extractLsb' 3 24 } : Tok)
      | 1 => { a with mask := x.extractLsb' 0 8 }
      | 2 => { a with fmt := x.extractLsb' 0 4 }
      | _ => { a with psn := x.getLsbD 0 }
    if f.md.toNat = 2 && 7 ≤ t.fmt.toNat && t.fmt.toNat ≤ 14 then
      .error ⟨0x32, c.slot, a.gen, w64 t.fmt.toNat, 0, 0⟩
    else .ok (c.result (sentTok t))

/-- KINDP (R151). -/
def execKindp (f : Fields) (s : State) : Host.Outcome State Fault Refusal :=
  issue .kindp f s fun c => .ok (c.result (predRes (c.a.kind == f.md) ⟨0xFF, false, c.a.gen⟩))

end Sys2Proof.Machine
end

