-- ==== Sys2Proof/Machine/Stream.lean ====
section
/-! DEFINITION. Element access by the engines (R176, R177, R180, R183, R330), the streams of the AG pool with the steps
that deliver and write their elements (R179 to R188, R205, R209), and the arrival counters. -/

namespace Sys2Proof.Machine

open Sys2Proof

/-! ### Words of elements -/

/-- An engine that reaches elements: its die and core, the place of its micro-cache, the unit of its task accesses (none
for committed reads, R192), and the page that a running stream has translated (R203). -/
structure Agent where
  die : Nat
  core : Nat
  uc : Nat
  job : Nat
  acr : Option Acr
  page : Option (Nat × Nat × Nat)
  deriving DecidableEq, Repr

/-- The words of a space that `wd` bits from a bit address on touch. -/
def bitWords (bit : Int) (wd : Nat) : List Int :=
  let lo := bit / 64
  let hi := (bit + wd - 1) / 64
  (List.range (hi - lo + 1).toNat).map fun (i : Nat) => lo + i

/-- Bits of an element of a format. -/
def widthOf (fmt : Nat) : Nat := (fmtBits fmt).getD 8

/-- The words that the element of a block at a position is read from, with its scale byte (R177). -/
def srcWords (b : Lanes) (p : Nat) : List Int :=
  bitWords (srcBit b p) (widthOf (bSfmt b)) ++ if bScen b then [((scaleByte b p : Nat) : Int) / 8] else []

/-- The word of a space as a table names it: modulo 2^52 bytes in global memory (R273). -/
def wordKey (space : Nat) (w : Int) : Nat := if space = 0 then (w % 2 ^ 49).toNat else w.toNat

/-- The virtual address of a global word. -/
def wordVa (w : Int) : Nat := wordKey 0 w * 8

/-- A translation of an engine through the caches, and the page it enters. -/
def State.locateFresh (s : State) (g : Agent) (va : Nat) (wr : Bool) : Reach × State × Option (Nat × Nat × Nat) :=
  match s.reach g.die (some g.uc) g.job va wr with
  | (.line pa sh tier, s1) =>
    (.line pa sh tier, s1, some (va / 2 ^ sh * 2 ^ sh, pa / 2 ^ sh * 2 ^ sh, 2 ^ sh))
  | (x, s1) => (x, s1, g.page)

/-- The physical address of a global word for an engine: through the page it holds, or a translation (R203). -/
def State.locate (s : State) (g : Agent) (va : Nat) (wr : Bool) : Reach × State × Option (Nat × Nat × Nat) :=
  match g.page with
  | some (v, p, sz) =>
    if v ≤ va && va < v + sz && !wr then
      let pa := p + (va - v)
      (if s.quarantinedLine pa then .quarantined else .line pa (Nat.log2 sz) (inCxl pa), s, g.page)
    else s.locateFresh g va wr
  | none => s.locateFresh g va wr

/-- What an engine's access of some words answers. -/
inductive Got where
  /-- the words read, with their poison, and the page last entered -/
  | ok (ws : Tab (Word × Bool)) (page : Option (Nat × Nat × Nat)) (s : State)
  | range (w : Int)
  | fault (va cause level : Nat) (s : State)
  | quarantined (va : Nat) (s : State)
  | overflow (pa : Nat) (s : State)
  | wait

/-- The flat word of an on-chip word that an engine of a core reaches (R176). -/
def State.engWord (s : State) (core space : Nat) (w : Int) : Option Nat := (s.engByte core space (8 * w)).map (· / 8)

/-- An on-chip word as an engine reads it: a KV row of a tag other than 0 reads as zero (R330). -/
def State.chipRead (s : State) (core space : Nat) (w : Int) : Option (Word × Bool) :=
  (s.engWord core space w).map fun x =>
    if space = 1 && !s.kvSeen (core / 8) w.toNat 0 then (0, false) else (s.mem.word x, s.mem.isPsn x)

/-- On-chip words read into a table. -/
def State.chipFetch (s : State) (core space : Nat) : List Int → Tab (Word × Bool) → Got
  | [], t => .ok t none s
  | w :: rest, t => match s.chipRead core space w with
    | some x => s.chipFetch core space rest (Tab.set t w.toNat x)
    | none => .range w

/-- Physical addresses of global words, before any of them is read. -/
inductive Located where
  | ok (pas : Tab Nat) (g : Agent) (s : State)
  | fault (va cause level : Nat) (s : State)
  | quarantined (va : Nat) (s : State)

def State.locateAll (s : State) (g : Agent) (wr : Bool) : List Int → Tab Nat → Located
  | [], t => .ok t g s
  | w :: rest, t =>
    if (Tab.get? t (wordKey 0 w)).isSome then s.locateAll g wr rest t
    else match s.locate g (wordVa w) wr with
      | (.line pa _ _, s1, page) => s1.locateAll { g with page := page } wr rest (Tab.set t (wordKey 0 w) pa)
      | (.fault c l, s1, _) => .fault (wordVa w) c l s1
      | (.quarantined, s1, _) => .quarantined (wordVa w) s1

/-- Global words read: task loads of the engine's unit, or committed memory (R180, R192, R294). -/
def State.globalRead (s : State) (g : Agent) : List (Nat × Nat) → Tab (Word × Bool) → Got
  | [], t => .ok t g.page s
  | (k, pa) :: rest, t =>
    match g.acr with
    | none => s.globalRead g rest (Tab.set t k (s.mem.word (pa / 8), s.globalPsn (pa / 8)))
    | some a => match s.taskLoad a pa with
      | .done v psn s1 => s1.globalRead g rest (Tab.set t k (v, psn))
      | .overflow => .overflow pa s
      | .wait => .wait

/-- Words of a space read by an engine. -/
def State.fetch (s : State) (g : Agent) (space : Nat) (ws : List Int) : Got :=
  if space = 0 then
    match s.locateAll g false ws [] with
    | .ok pas g1 s1 => s1.globalRead g1 pas []
    | .fault va c l s1 => .fault va c l s1
    | .quarantined va s1 => .quarantined va s1
  else s.chipFetch g.core space ws []

/-- The bits of an element from the words read, and whether one of them is poisoned. -/
def bitsFrom (space : Nat) (t : Tab (Word × Bool)) (bit : Int) (wd : Nat) : Nat × Bool :=
  let xs := (bitWords bit wd).map fun w => Tab.get t (wordKey space w) (0, false)
  let all := xs.foldr (fun (x : Word × Bool) (acc : Nat) => acc * 2 ^ 64 + x.1.toNat) 0
  (all / 2 ^ (bit % 64).toNat % 2 ^ wd, xs.any (·.2))

/-- An element as it is read: its code, its exact value with its scale (R171, R177), and its poison. -/
def elemFrom (b : Lanes) (t : Tab (Word × Bool)) (p : Nat) : Nat × Val × Bool :=
  let (raw, psn) := bitsFrom (bSsp b) t (srcBit b p) (widthOf (bSfmt b))
  let v := decodeElem (bSfmt b) raw
  if bScen b then
    let (c, psn') := bitsFrom (bSsp b) t (8 * (scaleByte b p : Nat)) 8
    (raw, scaleVal v c, psn || psn')
  else (raw, v, psn)

/-! ### Beats (R182) -/

/-- The exact integer of an element of an integer format or E8M0. -/
def Val.toInt : Val → Int
  | .fin m e => if 0 ≤ e then m * 2 ^ e.toNat else m / 2 ^ (-e).toNat
  | _ => 0

/-- A lane of a beat of TFMT WF, I64, I32 or BITS (R182). -/
def beatLane (b : Lanes) (raw : Nat) (v : Val) : Word :=
  match bTfmt b with
  | 0 => v.toWf (bRm b)
  | 1 => BitVec.ofInt 64 v.toInt
  | 2 => BitVec.ofInt 64 (if bSat b then clampS 32 v.toInt else sextBits (v.toInt % 2 ^ 32).toNat 32)
  | _ => w64 raw

/-- Elements that a beat of a token format holds. -/
def perBeat (tfmt : Nat) : Nat := if tfmt = 4 then 64 else if tfmt = 5 then 128 else 8

/-- The elements of the beat at a position: no further than its run and N (R182, R209). -/
def beatCount (b : Lanes) (per p : Nat) : Nat := min per (min (bN0 b - p % bN0 b) (bN b - p))

/-- The beat of some elements (R182). -/
def formBeat (b : Lanes) (gen : BitVec 8) (es : List (Nat × Val × Bool)) : Tok :=
  let psn := es.any (·.2.2)
  let f := BitVec.ofNat 4 (bTfmt b)
  if bTfmt b = 4 || bTfmt b = 5 then
    let bits := if bTfmt b = 4 then 8 else 4
    let per := 64 / bits
    let vs := es.map (·.2.1) ++ List.replicate (8 * per - es.length) (Val.fin 0 0)
    let lo := alignBlock (vs.take (4 * per)) bits (bRm b) (bSat b)
    let hi := alignBlock (vs.drop (4 * per)) bits (bRm b) (bSat b)
    let qs := lo.2 ++ hi.2
    { dataTok (Lanes.ofFn fun i => packLane ((qs.drop (i * per)).take per) bits)
        ⟨maskOf fun i => decide (i * per < es.length), psn, gen⟩ f with side := sideOfScales lo.1 hi.1 }
  else
    dataTok (Lanes.ofFn fun i => match es[i]? with
      | some (raw, v, _) => beatLane b raw v
      | none => 0) ⟨maskOf fun i => decide (i < es.length), psn, gen⟩ f

/-! ### Streams (R179, R180) -/

/-- A stream of a tile's AG pool changed. -/
def State.modStream (s : State) (k n : Nat) (f : Stream → Stream) : State :=
  s.modPool k .ag fun x => { x with streams := x.streams.modify n f }

/-- The output that a stream owns is free. -/
def State.disown (s : State) (k n : Nat) : State :=
  s.modPool k .ag fun x =>
    { x with
      outs := x.outs.map fun o => if o.owner = some (.stream n) then { o with owner := none } else o }

/-- A stream that no longer runs. -/
def Stream.rest (st : Stream) (after : StreamSt) : Stream := { st with
  st := after
  stop := false
  formed := none
  endDue := false
  missDue := none
  slice := none
  hold := none
  page := none }

/-- The four streams of the AG pool in the streamer of an L2 slice (R179). -/
def State.streamer (s : State) (slice : Nat) : List Stream := Tab.get s.streamers slice (List.replicate 4 Stream.reset)

/-- The damper's name for a stream. -/
def dampStream (k n : Nat) : Nat := 2 * (k * 4 + n) + 1

/-- A token that stood at the damper of a region is gone (R306). -/
def State.undamp (s : State) (rid : Option Nat) (key : Nat) : State :=
  rid.elim s fun r => s.modRegion r fun x => { x with
    dampWait := x.dampWait.erase key
    dampOk := x.dampOk.erase key }

/-- A stream stops in a state, and its output is free. -/
def State.endStream (s : State) (k n : Nat) (after : StreamSt) : State :=
  ((s.modStream k n fun st => st.rest after).disown k n).undamp (s.tile k).region (dampStream k n)

/-- The unit that a timestamp names in the launch of a tile's block (R272). -/
def State.unitOfTs (s : State) (k ts : Nat) : Option (Nat × Nat) :=
  (s.launchOf k).bind fun l => (l.unitAt ts).map fun i => (l.lseq, i)

/-- The task access of a unit under a timestamp and generation; none when the unit is unnamed or finished (R180). -/
def State.agAcr (s : State) (u : Option (Nat × Nat)) (ts : Nat) (g : BitVec 8) : Option Acr :=
  u.bind fun (lseq, i) => (Tab.get? s.launches lseq).bind fun l =>
    if s.runFinished l i g then none else some ⟨l.job, lseq, i, ts, g⟩

/-- A destination word completed by a stream: full where it is on chip, and reported (R186, R188), behind the writes of it
that its bank holds (R239). -/
def State.wordDone (s : State) (who : HeldBy) (core : Nat) (b : Lanes) (w : Nat) : State :=
  match s.engWord core (bSsp b) w with
  | some x =>
    if s.wordHeld x then s.queueHeld x who (.complete core (bNtile b) (bCtag b))
    else (s.putFull x true).countTag core (bNtile b) (bCtag b)
  | none => s.countTag core (bNtile b) (bCtag b)

/-- A fault of a stream: the stream is faulted and its pool stops (R180). -/
def State.failStream (s : State) (k n : Nat) (slot code : Nat) (gen : BitVec 8) (w3 w4 w5 : Word) : State :=
  (s.endStream k n .faulted).raise k .ag slot code gen w3 w4 w5

/-- A firing of an AG instruction on a stream; PARAM_FORMAT, STREAM_TS, AG_RANGE and KV_ACCESS fault the stream too
(R180). -/
def issueStream (o : Op) (f : Fields) (s : State) (body : Ctx → Except Flt Done) : Host.Outcome State Fault Refusal :=
  if s.trigger s.focus o f then
    let c := s.ctx s.focus o f
    match body c with
    | .ok d => .next (s.commit c d)
    | .error e =>
      let s1 := (s.markActive c.k).raiseFlt c e
      .next (if [0x42, 0x44, 0x46, 0x86].contains e.code then
        s1.modStream c.k (f.md.toNat % 4) fun st => { st with st := .faulted } else s1)
  else .next s

/-- The stream that an AG instruction names. -/
def Ctx.strm (c : Ctx) : Stream := c.x.stream (c.f.md.toNat % 4)

/-- The tile with the named stream changed. -/
def Ctx.withStream (c : Ctx) (g : Stream → Stream) : Tile → Tile :=
  fun t => t.modPool .ag fun x => { x with streams := x.streams.modify (c.f.md.toNat % 4) g }

/-- PARAM_FORMAT (R206). -/
def Ctx.paramFormat (c : Ctx) (i : Nat) (user : Word) : Flt := c.flt 0x44 (w64 i) 0 user

/-- AGSET (R181). -/
def execAgset (f : Fields) (s : State) : Host.Outcome State Fault Refusal :=
  issueStream .agset f s fun c => do
    let b ← c.intB
    let _ ← c.header
    let blk := maskLanes c.a
    match checkStream blk with
    | some i => .error (c.paramFormat i (bUser blk))
    | none =>
      let ts := fld b 47 0
      let old := c.strm
      .ok { c.plain with
        tile := c.withStream fun _ =>
          { Stream.reset with st := .set, blk := blk, ts := ts, gen := c.b.gen, unit := s.unitOfTs c.k ts }
        eff := fun s1 => old.dirty.foldl (fun s2 rw =>
          s2.wordDone (.stream c.k (f.md.toNat % 4) old.gen) (tileCore c.k) old.blk rw.2) s1 }

/-- The output of D. -/
def Ctx.outD (c : Ctx) : Nat := (outsOf c.f).headD 0

/-- A stream started on the output of D (R180, R181). -/
def Ctx.startStream (c : Ctx) (g : Stream → Stream) : Done :=
  { c.plain with
    tile := fun t =>
      (c.withStream (fun st => g { st with st := .running, out := c.outD, endTok := c.f.md.getLsbD 2, slot := c.slot }) t).modPool
        .ag fun x => { x with outs := x.outs.modify c.outD fun o => { o with owner := some (.stream (c.f.md.toNat % 4)) } } }

/-- A limit of beats or nodes; 0 is none. -/
def limitOf (w : Word) : Option Nat := if fld w 31 0 = 0 then none else some (fld w 31 0)

/-- AGRD (R181, R185). -/
def execAgrd (f : Fields) (s : State) : Host.Outcome State Fault Refusal :=
  issueStream .agrd f s fun c => do
    let a ← c.intA
    let _ ← c.intB
    let _ ← c.header
    let slice := s.startSlice c
    .ok (c.startStream fun st => { st with chase := false, pos := c.startPos % 2 ^ 48, left := limitOf a, slice := slice })

/-- Lane 1 of A as an integer. -/
def Ctx.lane1A (c : Ctx) : Except Flt Word := (c.convA .int).map fun t => t.lanes.l1

/-- AGCH (R181). -/
def execAgch (f : Fields) (s : State) : Host.Outcome State Fault Refusal :=
  issueStream .agch f s fun c => do
    let a ← c.intA
    let l ← c.lane1A
    let b ← c.intB
    let _ ← c.header
    let st := c.strm
    let fmtOk : Bool := (bSfmt st.blk = fmtRaw || bSfmt st.blk = 6 || bSfmt st.blk = 7) &&
      (bTfmt st.blk = 1 || bTfmt st.blk = 3)
    if !fmtOk then .error (c.paramFormat 7 (bUser st.blk))
    else
      let slice := s.startSlice c
      .ok (c.startStream fun st => { st with
        chase := true
        left := limitOf a
        node := bSaddr st.blk
        link := fld l 2 0
        step := b
        slice := slice })

/-! ### Firing-time checks of AGWR, AGGTH and AGSCT -/

/-- The first failing element of a firing: AG_RANGE outside an on-chip space, STREAM_TS without an unfinished unit
(R180). -/
def State.elemsReach (s : State) (c : Ctx) (st : Stream) (ps : List Nat) : Except Flt Unit :=
  let b := st.blk
  if bSsp b = 0 then
    if ps.isEmpty || (s.agAcr st.unit st.ts st.gen).isSome then .ok () else .error (c.streamTs (w64 st.ts) (bUser b))
  else
    match ps.find? fun p => (srcWords b p).any fun w => (s.engWord (tileCore c.k) (bSsp b) w).isNone with
    | some p => .error (c.flt 0x42 (BitVec.ofInt 64 (srcBit b p / 8)) (w64 p) (bUser b))
    | none => .ok ()

/-- KV_ACCESS of a stream write (R330). -/
def State.elemsNoKv (s : State) (c : Ctx) (b : Lanes) (ps : List Nat) : Except Flt Unit :=
  if bSsp b = 1 then
    s.noKv c 3 (ps.flatMap fun p => (bitWords (srcBit b p) (widthOf (bSfmt b))).map Int.toNat)
  else .ok ()

/-- Values that one lane of a token supplies to a write: 8 or 16 of an aligned lane, else one; RAW64 takes the lane's
bits whatever its FMT (R183). -/
def perLane (b : Lanes) (t : Tok) : Nat :=
  if bSfmt b = fmtRaw then 1 else if t.fmt = 4 then 8 else if t.fmt = 5 then 16 else 1

/-- The code of value `j` of lane `i` of a token in the storage format of a block, and whether a NaN was written as zero
(R183); an integer lane is unsigned for U64 (R173). -/
def writeCode (b : Lanes) (t : Tok) (i j : Nat) : Nat × Bool :=
  let x := t.lanes.get i
  if bSfmt b = fmtRaw then (x.toNat, false)
  else
    let v := if t.fmt = 4 || t.fmt = 5 then (alnLane t i).getD j (Val.fin 0 0)
      else if t.fmt = 0 then Val.ofWf x
      else if intFmt (bSfmt b) = some (64, false) then Val.fin x.toNat 0 else Val.fin x.toInt 0
    encodeElem (bSfmt b) v (bRm b) (bSat b)

/-- FMT_CONV of a token that no write encodes (R183). -/
def Ctx.writable (c : Ctx) (b : Lanes) : Except Flt Unit :=
  if bSfmt b != fmtRaw && (c.a.fmt = 6 || c.a.fmt = 15) then .error (c.convFlt (some c.f.a) c.a .any) else .ok ()

/-- An access joins the queue of the AG pool. -/
def Ctx.enqueue (c : Ctx) (st : Stream) (g : BitVec 8) (items : List (Nat × Nat × Nat)) (dat res : Tok) (ticket : Nat) :
    Tile → Tile :=
  fun t => t.modPool .ag fun x =>
    { x with
      tickets := max x.tickets ticket
      agq := x.agq ++ [⟨c.o, c.f.md.toNat % 4, st.blk, st.ts, g, st.unit, items, dat, res, ticket, none, c.slot, false⟩] }

/-- AGWR (R181, R183, R209): the elements of the beat from POS, no further than its run. -/
def execAgwr (f : Fields) (s : State) : Host.Outcome State Fault Refusal :=
  issueStream .agwr f s fun c => do
    let skip ← c.intB
    let _ ← c.header
    let st := c.strm
    let b := st.blk
    c.writable b
    let per := perLane b c.a
    let p := st.pos + fld skip 47 0
    if bN b ≤ p then .error (c.flt 0x42 (BitVec.ofInt 64 (srcBit b p / 8)) (w64 p) (bUser b))
    else
      let items := (List.range (beatCount b (8 * per) p)).map fun j => (p + j, j / per, j % per)
      let ps := (items.filter fun x => c.a.mask.getLsbD x.2.1).map (·.1)
      s.elemsReach c st ps
      s.elemsNoKv c b ps
      let dat := { c.a with lanes := maskLanes c.a }
      let moved : Tile → Tile := c.withStream fun st => { st with pos := (p + items.length) % 2 ^ 48 }
      .ok { c.plain with tile := fun t => moved (c.enqueue st st.gen items dat zeroTok 0 t) }

/-- AGSCT (R181, R183). -/
def execAgsct (f : Fields) (s : State) : Host.Outcome State Fault Refusal :=
  issueStream .agsct f s fun c => do
    let _ ← c.header
    let st := c.strm
    let b := st.blk
    c.writable b
    let per := perLane b c.a
    let items := (maskList (c.a.mask &&& c.b.mask)).flatMap fun i =>
      (List.range per).map fun j => ((laneOf c.b i + j) % 2 ^ 64, i, j)
    let ps := items.map (·.1)
    s.elemsReach c st ps
    s.elemsNoKv c b ps
    .ok { c.plain with tile := c.enqueue st st.gen items { c.a with lanes := maskLanes c.a } zeroTok 0 }

/-- AGGTH (R181); the stream's GEN joins the header, since the elements are read in its lineage. -/
def execAggth (f : Fields) (s : State) : Host.Outcome State Fault Refusal :=
  issueStream .aggth f s fun c => do
    let base ← c.intB
    let st := c.strm
    let b := st.blk
    let h0 ← c.header
    let h ← Hdr.join c.mirror c.x.ratified c.slot h0 { zeroTok with mask := 0xFF, gen := st.gen }
    if bTfmt b = 4 || bTfmt b = 5 then .error (c.paramFormat 7 (bUser b))
    else
      let items := (maskList c.a.mask).map fun i => ((laneOf c.a i + base.toNat) % 2 ^ 64, i, 0)
      s.elemsReach c st (items.map (·.1))
      let id := c.x.tickets + 1
      let res := dataTok Lanes.zero { h with mask := c.a.mask } (BitVec.ofNat 4 (bTfmt b))
      .ok { c.plain with
        outs := outsOf f
        res := [⟨f.d, if items.isEmpty then some res else none, 1, if items.isEmpty then 0 else id⟩]
        tile := fun t => if items.isEmpty then t else c.enqueue st h.gen items zeroTok res id t }

/-- AGSTOP (R181): a beat already read is still delivered before the stream stops. -/
def execAgstop (f : Fields) (s : State) : Host.Outcome State Fault Refusal :=
  issueStream .agstop f s fun c => do
    let a ← c.intA
    let _ ← c.header
    .ok { c.plain with tile := c.withStream fun st =>
      if st.st = .running then { st with stop := true, stopEnd := bit a 0 } else st }

/-- The code of a stream's state (R181). -/
def StreamSt.code : StreamSt → Nat
  | .idle => 0
  | .set => 1
  | .running => 2
  | .held => 3
  | .faulted => 4

/-- AGPOS (R181). -/
def execAgpos (f : Fields) (s : State) : Host.Outcome State Fault Refusal :=
  issueStream .agpos f s fun c => do
    let a ← c.intA
    let h ← c.header
    let st := c.strm
    .ok (c.result (scalarRes (w64 (if bit a 0 then st.st.code else st.pos % 2 ^ 48)) h))

/-- WPRD (R181, R187). -/
def execWprd (f : Fields) (s : State) : Host.Outcome State Fault Refusal :=
  issue .wprd f s fun c => do
    let a ← c.intA
    let h ← c.header
    .ok (c.result (scalarRes (w64 ((s.core (tileCore c.k)).queue (fld a 5 0)).wp) h))

/-- A pool with an arrival counter changed. -/
def PoolSt.modCtr (x : PoolSt) (n : Nat) (g : ArrCtr → ArrCtr) : PoolSt := { x with ctrs := x.ctrs.modify n g }

/-- WCNT_BIND (R188). -/
def execWcntBind (f : Fields) (s : State) : Host.Outcome State Fault Refusal :=
  issue .wcntBind f s fun c => do
    let a ← c.intA
    let _ ← c.header
    let bound : ArrCtr := ⟨some (BitVec.ofNat 12 (fld a 11 0)), 0⟩
    .ok { c.plain with tile := fun t => t.modPool .ag fun x => x.modCtr (f.md.toNat % 4) fun _ => bound }

/-- WCNT (R188). -/
def execWcnt (f : Fields) (s : State) : Host.Outcome State Fault Refusal :=
  issue .wcnt f s fun c => do
    let b ← c.intB
    let h ← c.header
    let n := (c.x.ctrs.getD (f.md.toNat % 4) ⟨none, 0⟩).count - fld b 47 0
    .ok { c.result (if f.d.isPred then predRes true h else scalarRes (w64 n) h) with
      tile := fun t => t.modPool .ag fun x => x.modCtr (f.md.toNat % 4) fun r => { r with count := n } }

/-! ### The damper (R306, R389) -/

/-- A counted token passes the damper of a region, or waits for its next window in the order of arrival. -/
def State.damp (s : State) (rid : Option Nat) (key : Nat) : Bool × State :=
  match rid.bind fun r => (Tab.get? s.regions r).map fun x => (r, x) with
  | none => (true, s)
  | some (r, x) =>
    if x.dampN = 0 then (true, s)
    else if x.dampOk.contains key then (true, s.setRegion r { x with dampOk := x.dampOk.erase key })
    else if x.dampWait.contains key then (false, s)
    else if x.dampWait.isEmpty && x.admitted < x.dampN then (true, s.setRegion r { x with admitted := x.admitted + 1 })
    else (false, s.setRegion r { x with dampWait := x.dampWait ++ [key] })

/-! ### Beats delivered -/

/-- The engine that runs a stream: the tile's pool, or the streamer of a slice (R185). -/
def State.streamAgent (s : State) (k n : Nat) (st : Stream) : Agent :=
  let core := tileCore k
  let job := st.unit.elim ((s.blockOf k).elim 0 (·.job)) fun u => (Tab.get? s.launches u.1).elim 0 (·.job)
  let acr := s.agAcr st.unit st.ts st.gen
  match st.slice with
  | some sl => ⟨sl / 8, core, ucStream k n, job, acr, st.page⟩
  | none => ⟨tileDie k, core, k, job, acr, st.page⟩

/-- A token of a stream enters its output. -/
def State.streamSend (s : State) (k out : Nat) (t : Tok) : State :=
  ((s.spendOut k .ag out).sendOut k .ag out t).markActive k

/-- An access of a stream held (R204, R398). -/
def State.holdStream (s : State) (k n : Nat) (st : Stream) (va p : Nat) (fault : Option (Nat × Nat)) : State :=
  let u := st.unit.getD (0, 0)
  let job := (Tab.get? s.launches u.1).elim 0 (·.job)
  let (h, s1) := match fault with
    | some (c, l) => s.xlate (.stream k n) job u.1 va c l (s.placeOf k .ag st.slot) (w64 p) (bUser st.blk)
    | none => s.addHold ⟨job, u.1, va, none, .stream k n, false⟩
  s1.modStream k n fun x => { x with st := .held, hold := some h, page := none }

/-- TASK_OVERFLOW of a stream (R296). -/
def State.overflowStream (s : State) (k n : Nat) (st : Stream) (pa : Nat) : State :=
  s.failStream k n st.slot 0x70 st.gen (w64 (pa / 64 * 64 + homeSlice pa)) (w64 (st.unit.getD (0, 0)).2) 0

/-- The page of the element at a position in tier-miss mode, when its page is of TIER 1: its first byte and size
(R205). -/
def State.missPage (s : State) (g : Agent) (b : Lanes) (p : Nat) : Option (Nat × Nat) :=
  if bTierm b && bSsp b = 0 then
    match s.locate g (wordKey 0 (srcBit b p / 64) * 8) false with
    | (.line _ sh true, _, _) =>
      let va := ((srcBit b p / 8) % 2 ^ 52).toNat
      some (va / 2 ^ sh * 2 ^ sh, 2 ^ sh)
    | _ => none
  else none

/-- The first position from `p` on, at most N, whose element does not lie in a page. -/
def pastPage (b : Lanes) (va size : Nat) : (fuel p : Nat) → Nat
  | 0, p => p
  | fuel + 1, p =>
    let a := ((srcBit b p / 8) % 2 ^ 52).toNat
    if p < bN b && va ≤ a && a < va + size then pastPage b va size fuel (p + 1) else p

/-- The CTL token of a tier miss (R366). -/
def missTok (va size : Nat) (gen : BitVec 8) : Tok :=
  ⟨Lanes.ofList [w64 va, w64 size], 0, BitVec.ofNat 24 (va / 65536 % 2 ^ 20), false, 3, gen, 1, 5⟩

/-- What a running stream does next. -/
inductive StreamNext where
  | finish
  | sendEnd
  | sendMiss (t : Tok)
  | beat

def Stream.next (st : Stream) : StreamNext :=
  match st.formed, st.missDue with
  | some _, _ => .beat
  | none, some t => .sendMiss t
  | none, none =>
    if st.stop then (if st.stopEnd then .sendEnd else .finish)
    else if st.endDue then .sendEnd
    else if st.chase then (if st.left = some 0 then .finish else .beat)
    else if bN st.blk ≤ st.pos then (if st.endTok then .sendEnd else .finish)
    else if st.left = some 0 then .finish
    else .beat

/-- A fault of the access of some words of a stream at a position. -/
def State.streamTrouble (s : State) (k n : Nat) (st : Stream) (p : Nat) (addr : Nat → Int) : Got → State
  | .range _ => s.failStream k n st.slot 0x42 st.gen (BitVec.ofInt 64 (addr p)) (w64 p) (bUser st.blk)
  | .fault va c l s1 => s1.holdStream k n st va p (some (c, l))
  | .quarantined va s1 => s1.holdStream k n st va p none
  | .overflow pa s1 => s1.overflowStream k n st pa
  | .wait => s
  | .ok _ _ _ => s

/-- The first of some positions whose own words cannot all be reached, to name in a fault. -/
def State.firstBad (s : State) (g : Agent) (b : Lanes) (ps : List Nat) : Nat :=
  (ps.find? fun p => match s.fetch g (bSsp b) (srcWords b p) with
    | .ok _ _ _ => false
    | _ => true).getD (ps.headD 0)

/-- A beat that a stream has read is delivered once the damper lets it pass (R306). -/
def State.passFormed (s : State) (k n out : Nat) (fm : Formed) : State :=
  let (pass, s1) := s.damp (s.tile k).region (dampStream k n)
  if pass then
    (s1.streamSend k out fm.tok).modStream k n fun x => { x with
      pos := fm.pos % 2 ^ 48
      left := fm.left
      node := fm.node
      endDue := fm.endDue
      missDue := fm.missDue
      formed := none }
  else s1.modStream k n fun x => { x with formed := some fm }

/-- The beat of some elements of a stream, with what the stream holds after it; `miss` is the CTL token that follows. -/
def Stream.form (st : Stream) (ws : Tab (Word × Bool)) (ps : List Nat) (miss : Option Tok) : Formed :=
  ⟨formBeat st.blk st.gen (ps.map (elemFrom st.blk ws)), st.pos + ps.length, st.left.map (· - 1), st.node, false, miss⟩

/-- The beat of an AGRD stream cannot be read whole: the elements before the first one that is held are delivered in a
beat of their own (R204; log entry 48), and the access of that one is held at the next attempt. -/
def State.rdTrouble (s : State) (k n : Nat) (st : Stream) (g : Agent) (ps : List Nat) (x : Got) : State :=
  let b := st.blk
  let bad := s.firstBad g b ps
  let before := ps.takeWhile (· != bad)
  let holds : Bool := match x with
    | .fault _ _ _ _ => true
    | .quarantined _ _ => true
    | _ => false
  match (if holds && !before.isEmpty then s.fetch g (bSsp b) (before.flatMap (srcWords b)) else .wait) with
  | .ok ws page s1 => (s1.modStream k n fun y => { y with page := page }).passFormed k n st.out (st.form ws before none)
  | _ => s.streamTrouble k n st bad (fun p => srcBit b p / 8) x

/-- A beat of an AGRD stream (R182, R205), once the damper lets it pass. -/
def State.rdBeat (s : State) (k n : Nat) (st : Stream) : State :=
  let b := st.blk
  let g := s.streamAgent k n st
  let want := (List.range (beatCount b (perBeat (bTfmt b)) st.pos)).map (st.pos + ·)
  let ps := want.takeWhile fun p => (s.missPage g b p).isNone
  let miss := (want.drop ps.length).head?.bind fun p => s.missPage g b p
  let missed := miss.map fun m => missTok m.1 m.2 st.gen
  if bSsp b = 0 && g.acr.isNone && !ps.isEmpty then
    s.failStream k n st.slot 0x46 st.gen (w64 st.ts) 0 (bUser b)
  else if ps.isEmpty then s.modStream k n fun x => { x with missDue := missed }
  else match s.fetch g (bSsp b) (ps.flatMap (srcWords b)) with
    | .ok ws page s1 => (s1.modStream k n fun y => { y with page := page }).passFormed k n st.out (st.form ws ps missed)
    | x => s.rdTrouble k n st g ps x

/-- A node of an AGCH stream (R181). -/
def State.chBeat (s : State) (k n : Nat) (st : Stream) : State :=
  let b := st.blk
  let g := s.streamAgent k n st
  let word : Nat → Int := fun i => 8 * (st.node : Int) + 64 * i
  if bSsp b = 0 && g.acr.isNone then s.failStream k n st.slot 0x46 st.gen (w64 st.ts) 0 (bUser b)
  else match s.fetch g (bSsp b) ((List.range 8).flatMap fun i => bitWords (word i) 64) with
    | .ok ws page s1 =>
      let xs := (List.range 8).map fun i => bitsFrom (bSsp b) ws (word i) 64
      let lanes := Lanes.ofList (xs.map fun x => w64 x.1)
      let t := dataTok lanes ⟨0xFF, xs.any (·.2), st.gen⟩ (BitVec.ofNat 4 (bTfmt b))
      let next := lanes.get st.link
      let ends : Bool := next = 0
      (s1.modStream k n fun y => { y with page := page }).passFormed k n st.out
        ⟨t, st.pos + 1, if ends then some 0 else st.left.map (· - 1), (next + st.step).toNat % 2 ^ 52, ends && st.endTok, none⟩
    | x => s.streamTrouble k n st st.pos (fun _ => st.node) x

/-- STREAM_BEAT (R181, R182, R205, R366): the next token of a running stream, when its output holds a credit. -/
def execStreamBeat (tile : Nat) (stream : Fin 4) (s : State) : Host.Outcome State Fault Refusal :=
  let x := (s.tile tile).ag
  let st := x.stream stream.val
  if st.st ≠ .running || s.wakeDue then .next s
  else
    let space := (x.out st.out).space
    match st.next with
    | .finish => .next ((s.endStream tile stream.val .set).markActive tile)
    | .sendEnd =>
      if space then .next ((s.streamSend tile st.out (ctlTok 1 0 false st.gen)).endStream tile stream.val .set)
      else .next s
    | .sendMiss t =>
      if space then
        let va := t.lanes.l0
        let s1 := s.streamSend tile st.out t
        let s2 := s1.report 0x41 ((s.blockOf tile).map (·.lseq)) ((s.blockOf tile).elim 0 (·.job))
          (s.placeOf tile .ag st.slot) va (w64 st.pos) (bUser st.blk)
        .next (s2.modStream tile stream.val fun y =>
          { y with missDue := none, pos := pastPage st.blk va.toNat t.lanes.l1.toNat (bN st.blk - st.pos) st.pos })
      else .next s
    | .beat =>
      if !space then .next s
      else match st.formed with
        | some fm => .next (s.passFormed tile stream.val st.out fm)
        | none => .next (if st.chase then s.chBeat tile stream.val st else s.rdBeat tile stream.val st)

/-! ### Queued accesses (R183, R184) -/

/-- One word's share of an element write: bytes and their values, and the bits that replace the old ones. -/
def wordShare (bit : Int) (wd raw : Nat) (w : Int) : BitVec 8 × Word × Word :=
  let off := bit - 64 * w
  let ones := 2 ^ wd - 1
  let sh : Nat → Nat := fun x => if 0 ≤ off then x * 2 ^ off.toNat % 2 ^ 64 else x / 2 ^ (-off).toNat % 2 ^ 64
  let bits := sh ones
  let mask := maskOf fun i => decide (bits / 2 ^ (8 * i) % 256 ≠ 0)
  (mask, w64 (sh raw), w64 bits)

/-- A word's old value with the bits of an element replaced. -/
def mergeBits (old v bits : Word) : Word := (old &&& ~~~bits) ||| (v &&& bits)

/-- The bits of the bytes of a mask. -/
def byteBits (m : BitVec 8) : Word :=
  (List.range 8).foldr (fun i acc => (acc <<< 8) ||| (if m.getLsbD i then 0xFF else 0)) 0

/-- A bank word as the writes that its bank holds will leave it (R239): what a write of part of a byte keeps. -/
def State.heldView (s : State) (x : Nat) : Word :=
  ((bankOf x).elim [] fun b => (s.tile b.1).eng.heldWrites).foldl (fun v h => match h.op with
    | .store bytes d _ _ => if h.addr = x then mergeBits v d (byteBits bytes) else v
    | _ => v) (s.mem.word x)

/-- An element written to on-chip words (R183, R260): none when a word lies outside the space. A write of a bank that is
held waits there, in order of arrival (R239). -/
def State.chipStore (s : State) (who : HeldBy) (core space : Nat) (bit : Int) (wd raw : Nat) (psn : Bool) :
    List Int → Option State
  | [] => some s
  | w :: rest => match s.engWord core space w with
    | some x =>
      let (mask, v, bits) := wordShare bit wd raw w
      let new := mergeBits (s.heldView x) v bits
      (if s.wordHeld x then s.queueHeld x who (.store mask new psn false) else s.putWord x mask new psn).chipStore who core
        space bit wd raw psn rest
    | none => none

/-- What the write of one element leads to. -/
inductive PutRes where
  | ok (s : State)
  | range
  | fault (va cause level : Nat) (s : State)
  | quarantined (va : Nat) (s : State)
  | overflow (pa : Nat) (s : State)
  | noUnit
  | wait

/-- An element written to global words as stores of a unit; bits of a byte that the element does not cover keep what the
unit would load. An overflow names the word that overflows (R296). -/
def State.globalStore (s : State) (a : Acr) (bit : Int) (wd raw : Nat) (psn : Bool) : List (Int × Nat) → PutRes
  | [] => .ok s
  | (w, pa) :: rest =>
    let (mask, v, bits) := wordShare bit wd raw w
    let sl := homeSlice pa
    let old := (s.taskWord sl (s.atSlice sl a) pa).1
    match s.taskStore a pa mask (mergeBits old v bits) psn with
    | .done _ _ s1 => s1.globalStore a bit wd raw psn rest
    | .overflow => .overflow pa s
    | .wait => .wait

/-- The queue of a tile's AG pool with its entry at an index replaced. -/
def State.setAgAcc (s : State) (k i : Nat) (q : AgAcc) : State :=
  s.modPool k .ag fun x => { x with agq := x.agq.set i q }

/-- The queue without an entry. -/
def State.dropAgAcc (s : State) (k i : Nat) : State := s.modPool k .ag fun x => { x with agq := x.agq.eraseIdx i }

/-- Words that the current run of an AGWR has written and passed: set full and reported (R186). -/
def State.passWords (s : State) (k n : Nat) (b : Lanes) (p : Nat) : State :=
  let st := (s.tile k).ag.stream n
  let here : List (Nat × Nat) := if p < bN b then
    (bitWords (srcBit b p) (widthOf (bSfmt b))).map fun w => (p / bN0 b, wordKey (bSsp b) w) else []
  let s1 := s.modStream k n fun x => { x with dirty := x.dirty.filter here.contains }
  (st.dirty.filter fun d => !here.contains d).foldl (fun s2 d => s2.wordDone (.stream k n st.gen) (tileCore k) b d.2) s1

/-- CONV_NAN of a firing (R174). -/
def State.convNan (s : State) (k : Nat) (q : AgAcc) (i : Nat) : State :=
  s.report 0x31 ((s.blockOf k).map (·.lseq)) ((s.blockOf k).elim 0 (·.job)) (s.placeOf k .ag q.slot)
    (w64 (bSfmt q.blk) ||| place i 32) 0 0

/-- One element written at its place (R183). -/
def State.putElem (s : State) (who : HeldBy) (g : Agent) (b : Lanes) (p raw : Nat) (psn : Bool) : PutRes :=
  let bit := srcBit b p
  let wd := widthOf (bSfmt b)
  let ws := bitWords bit wd
  if bSsp b = 0 then
    match g.acr with
    | none => .noUnit
    | some a => match s.locateAll g true ws [] with
      | .ok pas _ s1 =>
        match s1.globalStore a bit wd raw psn (ws.map fun w => (w, Tab.get pas (wordKey 0 w) 0)) with
        | .overflow pa _ => .overflow pa s1
        | x => x
      | .fault va c l s1 => .fault va c l s1
      | .quarantined va s1 => .quarantined va s1
  else match s.chipStore who g.core (bSsp b) bit wd raw psn ws with
    | some s1 => .ok s1
    | none => .range

/-- The engine of a queued access. -/
def State.accAgent (s : State) (k : Nat) (q : AgAcc) : Agent :=
  let job := q.unit.elim ((s.blockOf k).elim 0 (·.job)) fun u => (Tab.get? s.launches u.1).elim 0 (·.job)
  ⟨tileDie k, tileCore k, k, job, s.agAcr q.unit q.ts q.gen, none⟩

/-- A queued access held (R204, R398); its stream, when it stands set, is held. XLATE tells the element's position of an
AGWR, and the POS of the stream of any other (R206). -/
def State.holdAcc (s : State) (k i : Nat) (q : AgAcc) (va p : Nat) (fault : Option (Nat × Nat)) : State :=
  let u := q.unit.getD (0, 0)
  let job := (Tab.get? s.launches u.1).elim 0 (·.job)
  let pos := if q.kind = .agwr then p else ((s.tile k).ag.stream q.stream).pos
  let (h, s1) := match fault with
    | some (c, l) => s.xlate (.agAcc k) job u.1 va c l (s.placeOf k .ag q.slot) (w64 pos) (bUser q.blk)
    | none => s.addHold ⟨job, u.1, va, none, .agAcc k, false⟩
  (s1.setAgAcc k i { q with hold := some h }).modStream k q.stream fun st =>
    if st.st = .set then { st with st := .held, hold := some h } else st

/-- A queued access that ends in a fault. -/
def State.failAcc (s : State) (k i : Nat) (q : AgAcc) (code : Nat) (w3 w4 w5 : Word) : State :=
  let s1 := (s.dropAgAcc k i).modPool k .ag fun x =>
    if q.ticket = 0 then x else { x with inflight := x.inflight.filter fun e => e.ticket != q.ticket }
  s1.failStream k q.stream q.slot code q.gen w3 w4 w5

/-- An element of a queued access is done; the last one ends the access, and gives AGGTH its result. -/
def State.stepAcc (s : State) (k i : Nat) (q : AgAcc) : State :=
  if q.items.isEmpty then
    let s1 := s.dropAgAcc k i
    if q.kind = .aggth then
      s1.modPool k .ag fun x => x.fill q.ticket (s.core (tileCore k)).cyc fun _ => some q.res
    else s1
  else s.setAgAcc k i q

/-- The next element of a queued gather. -/
def State.gatherNext (s : State) (k i : Nat) (q : AgAcc) (p lane : Nat) (rest : List (Nat × Nat × Nat)) : State :=
  let b := q.blk
  let g := s.accAgent k q
  if bSsp b = 0 && g.acr.isNone then s.failAcc k i q 0x46 (w64 q.ts) 0 (bUser b)
  else match s.fetch g (bSsp b) (srcWords b p) with
    | .ok ws _ s1 =>
      let (raw, v, psn) := elemFrom b ws p
      (s1.stepAcc k i { q with items := rest, res := putLane q.res lane (beatLane b raw v) psn true }).markActive k
    | .range _ => s.failAcc k i q 0x42 (BitVec.ofInt 64 (srcBit b p / 8)) (w64 p) (bUser b)
    | .fault va c l s1 => s1.holdAcc k i q va p (some (c, l))
    | .quarantined va s1 => s1.holdAcc k i q va p none
    | .overflow pa s1 => s1.failAcc k i q 0x70 (w64 (pa / 64 * 64 + homeSlice pa)) (w64 (q.unit.getD (0, 0)).2) 0
    | .wait => s

/-- The words of an element of a write noted as written: an AGWR keeps them until its run has passed them, a scatter
completes them at once (R186). -/
def State.noteWords (s : State) (k : Nat) (q : AgAcc) (p : Nat) : State :=
  let b := q.blk
  let ws := (bitWords (srcBit b p) (widthOf (bSfmt b))).map (wordKey (bSsp b))
  if q.kind = .agwr then
    s.modStream k q.stream fun st =>
      { st with dirty := st.dirty ++ (ws.map fun w => (p / bN0 b, w)).filter fun d => !st.dirty.contains d }
  else ws.foldl (fun s w => s.wordDone (.stream k q.stream q.gen) (tileCore k) b w) s

/-- The next element of a queued write. -/
def State.writeNext (s : State) (k i : Nat) (q : AgAcc) (p lane j : Nat) (rest : List (Nat × Nat × Nat)) : State :=
  let b := q.blk
  let wr : Bool := q.kind = .agwr
  let s0 := if wr then s.passWords k q.stream b p else s
  let after : State → AgAcc → State := fun s1 q1 =>
    let s2 := s1.stepAcc k i { q1 with items := rest }
    (if wr then s2.passWords k q.stream b (p + 1) else s2).markActive k
  if !q.dat.mask.getLsbD lane then after s0 q
  else
    let (raw, nan) := writeCode b q.dat lane j
    match s0.putElem (.stream k q.stream q.gen) (s0.accAgent k q) b p raw q.dat.psn with
    | .ok s1 =>
      let s2 := s1.noteWords k q p
      if nan && !q.nan then after (s2.convNan k q (lane * perLane b q.dat + j)) { q with nan := true } else after s2 q
    | .range => s.failAcc k i q 0x42 (BitVec.ofInt 64 (srcBit b p / 8)) (w64 p) (bUser b)
    | .fault va c l s1 => s1.holdAcc k i q va p (some (c, l))
    | .quarantined va s1 => s1.holdAcc k i q va p none
    | .overflow pa s1 => s1.failAcc k i q 0x70 (w64 (pa / 64 * 64 + homeSlice pa)) (w64 (q.unit.getD (0, 0)).2) 0
    | .noUnit => s.failAcc k i q 0x46 (w64 q.ts) 0 (bUser b)
    | .wait => s

/-- The first queued access that can go on: none held, and none of its stream held before it (R184, R204). -/
def nextAcc (qs : List AgAcc) : Option (Nat × AgAcc) :=
  let held := (qs.filter fun q => q.hold.isSome).map (·.stream)
  (qs.zipIdx.find? fun qi => qi.1.hold.isNone && !held.contains qi.1.stream).map fun qi => (qi.2, qi.1)

/-- STREAM_WRITE (R183, R184): the next element of a queued access of AGWR, AGSCT or AGGTH. -/
def execStreamWrite (tile : Nat) (s : State) : Host.Outcome State Fault Refusal :=
  if s.wakeDue then .next s
  else match nextAcc (s.tile tile).ag.agq with
  | some (i, q) =>
    match q.items with
    | (p, lane, j) :: rest =>
      .next (if q.kind = .aggth then s.gatherNext tile i q p lane rest else s.writeNext tile i q p lane j rest)
    | [] => .next (s.stepAcc tile i q)
  | none => .next s

end Sys2Proof.Machine
end

