-- ==== Sys2Proof/Machine/Copy.lean ====
section
/-! DEFINITION. Copies (R189 to R199): templates, the pugmill and its programs, and the copy engines with the steps
that start a copy, send its SPACE tokens and end it. -/

namespace Sys2Proof.Machine

open Sys2Proof

/-! ### Pugmill programs (R197, R198) -/

/-- A pugmill word is of 32 bits. -/
def pmField (w : BitVec 32) (h l : Nat) : Nat := nfld w.toNat h l

/-- Opcode of a pugmill word. -/
def pmOp (w : BitVec 32) : Nat := pmField w 31 27

/-- A reserved bit of a pugmill word is set, or its opcode is unassigned (R197, R198). -/
def pmReserved (w : BitVec 32) : Bool :=
  match pmOp w with
  | 1 => pmField w 26 22 != 0
  | 2 => pmField w 26 0 != 0
  | 3 => pmField w 26 0 != 0
  | 4 => pmField w 26 12 != 0
  | 5 => pmField w 26 24 != 0
  | 6 => pmField w 26 11 != 0
  | 7 => pmField w 26 22 != 0
  | 8 => pmField w 26 22 != 0
  | 9 => pmField w 26 22 != 0
  | 10 => pmField w 26 9 != 0
  | 11 => pmField w 26 5 != 0
  | 12 => pmField w 26 0 != 0
  | _ => true

/-- The shape after a word, along the straight-line order; none where a shape rule fails (R198). -/
def pmShape (w : BitVec 32) (rows cols : Nat) : Option (Nat × Nat) :=
  let hi := pmField w 21 11
  let lo := pmField w 10 0
  match pmOp w with
  | 1 => if 1 ≤ hi && hi ≤ 1024 && 1 ≤ lo && lo ≤ 1024 && hi * lo ≤ 1024 then some (hi, lo) else none
  | 3 => some (cols, rows)
  | 5 => if cols % 8 = 0 then some (rows, cols) else none
  | 6 => if cols % 2 = 0 && lo != 0 && cols / 2 % lo = 0 then some (rows, cols) else none
  | 7 => if hi = 0 || cols < lo + hi then none else some (rows, hi)
  | 8 => if hi < rows || lo < cols || 1024 < hi * lo then none else some (hi, lo)
  | 9 => if hi = 0 || cols ≤ lo then none else some (rows, (cols - lo + hi - 1) / hi)
  | _ => some (rows, cols)

/-- PMCVT's format is reserved, RAW64 or E8M0 (R198). -/
def pmBadFmt (w : BitVec 32) : Bool :=
  let f := pmField w 5 0
  pmOp w = 10 && ((fmtBits f).isNone || f = fmtRaw || f = fmtE8m0)

/-- The index of the first word at which a program fails, from word `i` on with `n` words left (R198). A program without
PMHALT fails at its last word. -/
def pmCheckFrom (prog : List (BitVec 32)) : (n i rows cols : Nat) → Option Nat
  | 0, i, _, _ => some (i - 1)
  | n + 1, i, rows, cols =>
    let w := prog.getD i 0
    if pmReserved w then some i
    else if pmOp w != 1 && rows = 0 then some i
    else if pmOp w = 11 && !(pmField w 4 0 < i && pmOp (prog.getD (pmField w 4 0) 0) = 1) then some i
    else if pmBadFmt w then some i
    else if pmOp w = 12 then none
    else match pmShape w rows cols with
      | some (r, c) => pmCheckFrom prog n (i + 1) r c
      | none => some i

/-- The first failing word of a program (R198). -/
def pmCheck (prog : List (BitVec 32)) : Option Nat := pmCheckFrom prog 32 0 0 0

/-- Program p of a cluster's store (R196). -/
def State.pmProgram (s : State) (cluster p : Nat) : List (BitVec 32) :=
  (List.range 32).map fun i =>
    let w := s.mem.word (pmBase cluster / 8 + 16 * p + i / 2)
    w.extractLsb' (if i % 2 = 0 then 0 else 32) 32

/-- A slab value. -/
abbrev PmVal := Val × Bool

/-- The value at row r and column c of a slab. -/
def pmAt (a : List PmVal) (cols r c : Nat) : PmVal := a.getD (r * cols + c) (Val.fin 0 0, false)

/-- The slab of a shape whose value at (r, c) is `f r c`. -/
def pmOf (rows cols : Nat) (f : Nat → Nat → PmVal) : List PmVal :=
  (List.range (rows * cols)).map fun i => f (i / cols) (i % cols)

/-- What PMCVT makes of a value (R197), and whether a NaN has been written as zero on the way (R172 to R174). -/
def pmCvt (w : BitVec 32) (raw : Bool) (v : Val) : Val × Bool :=
  let x := if raw then (match v with
    | .fin m _ => Val.ofWf (BitVec.ofInt 64 m)
    | y => y) else v
  let f := pmField w 5 0
  let (code, nan) := encodeElem f x (pmField w 7 6) (pmField w 8 8 = 1)
  let y := decodeElem f code
  (if raw then .fin (y.toWf (pmField w 7 6)).toNat 0 else y, nan)

/-- The index in the slab of the first value that a word turns from NaN into zero. -/
def pmNan (w : BitVec 32) (raw : Bool) (slab : List PmVal) : Option Nat :=
  if pmOp w = 10 then slab.findIdx? fun x => (pmCvt w raw x.1).2 else none

/-- A pugmill word that rearranges the slab (R197): its new rows, columns and values. `raw` says that the values are words
of a copy from RAW64 to RAW64. -/
def pmArrange (w : BitVec 32) (raw : Bool) (r : PmRun) : PmRun :=
  let hi := pmField w 21 11
  let lo := pmField w 10 0
  let a := r.slab
  let n := r.cols
  let mk : Nat → Nat → (Nat → Nat → PmVal) → PmRun := fun rows cols f =>
    { r with rows := rows, cols := cols, slab := pmOf rows cols f }
  match pmOp w with
  | 3 => mk r.cols r.rows fun i j => pmAt a n j i
  | 4 => if pmField w 11 11 = 0 then mk r.rows n fun i j => pmAt a n i ((j + lo) % n)
    else mk r.rows n fun i j => pmAt a n ((i + lo) % r.rows) j
  | 5 => mk r.rows n fun i j => pmAt a n i (j / 8 * 8 + pmField w (3 * (j % 8) + 2) (3 * (j % 8)))
  | 6 => mk r.rows n fun i j =>
      pmAt a n i ((if j / lo % 2 = 0 then 0 else n / 2) + j / (2 * lo) * lo + j % lo)
  | 7 => mk r.rows hi fun i j => pmAt a n i (lo + j)
  | 8 => mk hi lo fun i j => if i < r.rows && j < n then pmAt a n i j else (Val.fin 0 0, false)
  | 9 => mk r.rows ((n - lo + hi - 1) / hi) fun i j => pmAt a n i (lo + j * hi)
  | 10 => { r with slab := a.map fun x => ((pmCvt w raw x.1).1, x.2) }
  | _ => r

/-! ### Templates (R190) -/

/-- A core with a template changed. -/
def Core.modTmpl (k : Core) (t : Nat) (f : Template → Template) : Core :=
  { k with tmpls := Tab.set k.tmpls t (f (k.tmpl t)) }

/-- A core with a queue changed. -/
def Core.modQueue (k : Core) (q : Nat) (f : CopyQueue → CopyQueue) : Core :=
  { k with queues := Tab.set k.queues q (f (k.queue q)) }

/-- A template bound to a queue, with its WPRST applied (R187, R190). -/
def Core.bindQueue (k : Core) (q t : Nat) : Core :=
  k.modQueue q fun x => { x with bound := some t, wp := if bWprst (k.tmpl t).blk then 0 else x.wp }

/-- TARM (R190). -/
def execTarm (f : Fields) (s : State) : Host.Outcome State Fault Refusal :=
  issue .tarm f s fun c => do
    let b ← c.intB
    let _ ← c.header
    let blk := maskLanes c.a
    let core := tileCore c.k
    match checkCopy blk with
    | some i => .error (c.paramFormat i (bUser blk))
    | none =>
      let prog := if bPmen blk then s.pmProgram (coreCluster core) (bPmp blk) else []
      match if bPmen blk then pmCheck prog else none with
      | some i => .error (c.flt 0x45 (w64 (bPmp blk + i * 256)) ((prog.getD i 0).setWidth 64) 0)
      | none =>
        let t := fld b 5 0
        let arm : Core → Core := fun k =>
          let k1 := k.modTmpl t fun x => { x with blk := blk, prog := prog, armed := true, count := 0 }
          if bit b 16 then k1.bindQueue (fld b 13 8) t else k1
        .ok { c.plain with eff := fun s1 => s1.setCore core (arm (s1.core core)) }

/-- TBIND (R190). -/
def execTbind (f : Fields) (s : State) : Host.Outcome State Fault Refusal :=
  issue .tbind f s fun c => do
    let a ← c.intA
    let b ← c.intB
    let _ ← c.header
    let core := tileCore c.k
    let t := fld a 5 0
    if !((s.core core).tmpl t).armed then .error (c.paramFormat 8 0)
    else .ok { c.plain with eff := fun s1 => s1.setCore core ((s1.core core).bindQueue (fld b 5 0) t) }

/-- The output that a template owns is free. -/
def State.freeSpaceOut (s : State) (core t : Nat) : State :=
  match ((s.core core).tmpl t).spaceOut with
  | some (k, o) =>
    let s1 := s.modPool k .ag fun x =>
      { x with outs := x.outs.modify o fun y => if y.owner = some (.template t) then { y with owner := none } else y }
    s1.setCore core ((s1.core core).modTmpl t fun x => { x with spaceOut := none })
  | none => s

/-- TMC (R190). -/
def execTmc (f : Fields) (s : State) : Host.Outcome State Fault Refusal :=
  issue .tmc f s fun c => do
    let a ← c.intA
    let b ← c.intB
    let _ ← c.header
    let core := tileCore c.k
    let t := fld a 5 0
    let o := f.md.toNat % 4
    let assign : State → State := fun s1 =>
      let s2 := s1.modPool c.k .ag fun x => { x with outs := x.outs.modify o fun y => { y with owner := some (.template t) } }
      s2.setCore core ((s2.core core).modTmpl t fun x => { x with spaceOut := some (c.k, o) })
    let eff : State → State := fun s1 => if bit b 0 then assign (s1.freeSpaceOut core t) else s1.freeSpaceOut core t
    .ok { c.plain with eff := eff }

/-! ### Copies (R191 to R196) -/

/-- A copy engine of a core. -/
def Core.eng (k : Core) (e : Nat) : CopyEng := k.engs.getD e ⟨none, 63⟩

/-- The run of a copy engine changed. -/
def State.modRun (s : State) (core e : Nat) (f : CopyRun → CopyRun) : State :=
  s.setCore core { s.core core with
    engs := (s.core core).engs.modify e fun x => { x with run := x.run.map f } }

/-- A 52-bit byte address moved by a signed offset. -/
def moveAddr (w : Word) (off : Word) : Word :=
  (w &&& ~~~w64 (2 ^ 52 - 1)) ||| w64 ((w + off).toNat % 2 ^ 52)

/-- A template's block with the parameters of a posted token (R191). -/
def paramBlock (b : Lanes) (t : Tok) : Lanes :=
  let b0 := if t.mask.getLsbD 0 then b.set 0 (moveAddr b.l0 t.lanes.l0) else b
  let b1 := if t.mask.getLsbD 1 then b0.set 4 (moveAddr b0.l4 t.lanes.l1) else b0
  if t.mask.getLsbD 2 && t.lanes.get 2 != 0 then b1.set 1 (t.lanes.get 2) else b1

/-- An event of a copy engine (R206). -/
def State.copyEvent (s : State) (core : Nat) (r : CopyRun) (code : Nat) (w3 w4 w5 : Word) : State :=
  s.report code (some r.tok.lseq) r.tok.job (State.placeOfCopy core r.queue r.tok.blk) w3 w4 w5

/-- The queue that an engine takes next (R192): rotating from the one after the queue it last served. -/
def Core.nextQueue (k : Core) (e : Nat) : Option Nat :=
  ((List.range 64).map fun i => ((k.eng e).last + 1 + i) % 64).find? fun q =>
    !(k.queue q).toks.isEmpty && !k.engs.any fun x => x.run.elim false fun r => r.queue = q

/-- Branches of a copy (R194). -/
def branches (b : Lanes) : Nat := bMcn b + 1

/-- COPY_START (R191, R192, R194, R195). -/
def execCopyStart (core : Fin 64) (eng : Fin 4) (s : State) : Host.Outcome State Fault Refusal :=
  let k := s.core core.val
  if (k.eng eng.val).run.isSome then .next s
  else match k.nextQueue eng.val with
  | none => .next s
  | some q =>
    match (k.queue q).toks, (k.queue q).bound with
    | p :: _, some t =>
      let tm := k.tmpl t
      let count := tm.count + 1
      let (o, s1) := s.takeOrder
      let blk := paramBlock tm.blk p.tok
      let pm : Option PmRun := if bPmen blk then some ⟨0, 0, [], 0, 0, 0, false⟩ else none
      let run : CopyRun := ⟨q, t, blk, tm.prog, p, 0, 0, pm, false, [], [], [], count, none, false, o⟩
      let k1 := k.modTmpl t fun x => { x with count := count }
      if 1 < branches blk && tm.spaceOut.isNone then
        let k2 : Core := { k1 with engs := k1.engs.modify eng.val fun x => { x with last := q } }
        let k3 := k2.modQueue q fun x => { x with toks := x.toks.drop 1 }
        .next ((s1.setCore core.val k3).copyEvent core.val run 0x44 9 0 (bUser blk))
      else
        .next (s1.setCore core.val { k1 with engs := k1.engs.modify eng.val fun _ => ⟨some run, q⟩ })
    | _, _ => .next s

/-- The engine of a copy, as it reaches words. -/
def copyAgent (core e : Nat) (r : CopyRun) : Agent := ⟨core / 8, core, ucCopy core e, r.tok.job, none, none⟩

/-- A copy has moved everything, and owes a SPACE token for each branch whose words are all complete (R194). -/
def CopyRun.moves (r : CopyRun) : CopyRun :=
  { r with moved := true, owed := if bMcn r.blk = 0 then [] else List.range (branches r.blk) }

/-- A copy that moves nothing more and owes no SPACE token. -/
def CopyRun.stops (r : CopyRun) : CopyRun := { r with moved := true, owed := [], spaces := [], hold := none }

/-- A copy that a fault ends (R192). -/
def State.failCopy (s : State) (core e : Nat) (r : CopyRun) (code : Nat) (w3 w4 w5 : Word) : State :=
  (s.modRun core e CopyRun.stops).copyEvent core r code w3 w4 w5

/-- A copy held (R204, R398); one of a launch that has been cancelled is discarded. -/
def State.holdCopy (s : State) (core e : Nat) (r : CopyRun) (va p : Nat) (fault : Option (Nat × Nat)) : State :=
  if (Tab.get? s.launches r.tok.lseq).elim false (·.cause.isSome) then s.modRun core e CopyRun.stops
  else
    let (h, s1) := match fault with
      | some (c, l) =>
        s.xlate (.copy core e) r.tok.job r.tok.lseq va c l (State.placeOfCopy core r.queue r.tok.blk) (w64 p) (bUser r.blk)
      | none => s.addHold ⟨r.tok.job, r.tok.lseq, va, none, .copy core e, false⟩
    s1.modRun core e fun x => { x with hold := some h }

/-- A destination bit address as a branch sees it (R194). -/
def branchBit (b : Lanes) (bit : Int) (j : Nat) : Int := bit + j * bMcstep b * 524288

/-- A destination word as a branch sees it. -/
def branchWord (b : Lanes) (w : Int) (j : Nat) : Int := w + j * bMcstep b * 8192

/-- The words of every branch that an element at a destination bit address touches (R194). -/
def branchWords (b : Lanes) (bit : Int) : List Int :=
  (List.range (branches b)).flatMap fun j => bitWords (branchBit b bit j) (widthOf (bDfmt b))

/-- An element written in every branch, or the byte address of the first branch in which a word of it lies outside the
space. -/
def State.storeBranches (s : State) (core e : Nat) (b : Lanes) (bit : Int) (raw : Nat) (psn : Bool) :
    List Nat → Except Int State
  | [] => .ok s
  | j :: rest =>
    let at' := branchBit b bit j
    let wd := widthOf (bDfmt b)
    match s.chipStore (.copy core e j) core (bDsp b) at' wd raw psn (bitWords at' wd) with
    | some s1 => s1.storeBranches core e b bit raw psn rest
    | none => .error (at' / 8)

/-- A destination word completed in every branch: full, reported, and counted once in WP (R186 to R188). -/
def State.copyWordDone (s : State) (core q : Nat) (b : Lanes) (w : Int) : State :=
  let s1 := (List.range (branches b)).foldl (fun s1 j =>
    let s2 := match s1.engWord core (bDsp b) (branchWord b w j) with
      | some a => if bDsp b = 4 then s1 else s1.putFull a true
      | none => s1
    s2.countTag core (bNtile b) (bCtag b)) s
  s1.setCore core ((s1.core core).modQueue q fun x => { x with wp := (x.wp + 1) % 2 ^ 48 })

/-- A bank holds a write that a copy has made to a destination word, in some branch (R239). -/
def State.wordOpen (s : State) (core e : Nat) (b : Lanes) (w : Int) : Bool :=
  (List.range (branches b)).any fun j => match s.engWord core (bDsp b) (branchWord b w j) with
    | some a => (bankOf a).elim false fun k => (s.tile k.1).eng.heldWrites.any fun h => h.addr = a && h.who = .copy core e j
    | none => false

/-- Words of a copy completed in order, up to the first with a write that a bank holds (R187, R239). -/
def State.flushWords (s : State) (core e q : Nat) (b : Lanes) : List Int → List Int × State
  | [] => ([], s)
  | w :: rest => if s.wordOpen core e b w then (w :: rest, s) else (s.copyWordDone core q b w).flushWords core e q b rest

/-- A bank holds a write of a copy, in one branch or in any. -/
def State.branchHeld (s : State) (core e : Nat) (branch : Option Nat) : Bool :=
  s.anyHeld fun h => match h.who with
    | .copy c n j => c = core && n = e && branch.elim true (j = ·)
    | _ => false

/-- The words of a copy that are complete are counted, and once it has moved everything its complete branches join those
whose SPACE token is to be sent (R187, R194). -/
def State.settleCopy (s : State) (core e : Nat) : State :=
  match ((s.core core).eng e).run with
  | some r =>
    let (pend, s1) := s.flushWords core e r.queue r.blk r.pend
    let sent := if r.moved then r.owed.filter fun j => !s.branchHeld core e (some j) else []
    s1.modRun core e fun x =>
      { x with pend := pend, owed := x.owed.filter fun j => !sent.contains j, spaces := x.spaces ++ sent }
  | none => s

/-- What the write of one copied element leads to. -/
inductive CopyPut where
  | ok (s : State)
  | range (addr : Int)
  | kv (w : Nat)

/-- One element of a copy written at a bit address of its destination; `next` is the bit address of the element after it
in its run, if any (R186, R193). -/
def State.copyPut (s : State) (core e : Nat) (r : CopyRun) (bit : Int) (next : Option Int) (raw : Nat) (psn : Bool) :
    CopyPut :=
  let b := r.blk
  let wd := widthOf (bDfmt b)
  let kvHit := if bDsp b = 1 then
    (branchWords b bit).find? fun w => 0 ≤ w && ((s.die (core / 8)).kvAt w.toNat).isSome else none
  match kvHit with
  | some w => .kv w.toNat
  | none => match s.storeBranches core e b bit raw psn (List.range (branches b)) with
    | .error a => .range a
    | .ok s1 =>
      let later : List Int := next.elim [] fun n => bitWords n wd
      let done := (bitWords bit wd).filter fun w => !later.contains w
      .ok ((s1.modRun core e fun x => { x with pend := x.pend ++ done }).settleCopy core e)

/-- The code that a copy writes of a value (R193): `raw` is the source word. -/
def copyCode (b : Lanes) (raw : Nat) (v : Val) : Nat × Bool :=
  if bSfmt b = fmtRaw && bDfmt b = fmtRaw then (raw, false) else encodeElem (bDfmt b) v (bRm b) (bSat b)

/-- CONV_NAN of a copy, once (R174): the format that was encoded into and the index of the element. -/
def State.copyNan (s : State) (core e : Nat) (r : CopyRun) (fmt i : Nat) : State :=
  if r.nanSeen then s
  else (s.copyEvent core r 0x31 (w64 fmt ||| place i 32) 0 0).modRun core e fun x => { x with nanSeen := true }

/-- The outcome of a write of a copy: the state, and whether the copy goes on in this cycle. -/
def State.copyWrote (s : State) (core e : Nat) (r : CopyRun) (p : Nat) (nan : Bool) : CopyPut → Bool × State
  | .ok s1 => (true, if nan then s1.copyNan core e r (bDfmt r.blk) p else s1)
  | .range a => (false, s.failCopy core e r 0x42 (BitVec.ofInt 64 a) (w64 p) (bUser r.blk))
  | .kv w => (false, s.failCopy core e r 0x86 (w64 w) 0 0)

/-- A trouble of a copy's reads. -/
def State.copyTrouble (s : State) (core e : Nat) (r : CopyRun) (p : Nat) : Got → State
  | .range _ => s.failCopy core e r 0x42 (BitVec.ofInt 64 (srcBit r.blk p / 8)) (w64 p) (bUser r.blk)
  | .fault va c l s1 => s1.holdCopy core e r va p (some (c, l))
  | .quarantined va s1 => s1.holdCopy core e r va p none
  | _ => s

/-- One element of a copy without pugmill, read, converted and written. -/
def State.copyElem (s : State) (core e : Nat) (r : CopyRun) : Bool × State :=
  let b := r.blk
  let p := r.pos
  match s.fetch (copyAgent core e r) (bSsp b) (srcWords b p) with
  | .ok ws _ s1 =>
    let (raw, v, psn) := elemFrom b ws p
    let (code, nan) := copyCode b raw v
    let next := if p % bN0 b + 1 < bN0 b then some (dstBit b (p + 1)) else none
    let (go, s2) := s1.copyWrote core e r p nan (s1.copyPut core e r (dstBit b p) next code (psn || r.tok.tok.psn))
    if go then
      (true, s2.modRun core e fun x =>
        let y : CopyRun := { x with pos := p + 1, written := x.written + 1 }
        if p + 1 = bN b then y.moves else y)
    else (false, s2)
  | x => (false, s.copyTrouble core e r p x)

/-- Elements of one beat of a copy (R192; log entry 9). -/
def copyBeatLen (b : Lanes) : Nat := max 1 (512 / widthOf (bDfmt b))

/-- At most `n` elements of a copy. -/
def State.copyElems (s : State) (core e : Nat) : (n : Nat) → State
  | 0 => s
  | n + 1 =>
    match ((s.core core).eng e).run with
    | some r =>
      if r.moved || r.hold.isSome then s
      else if bN r.blk ≤ r.pos then s.modRun core e CopyRun.moves
      else
        let (go, s1) := s.copyElem core e r
        if go then s1.copyElems core e n else s1
    | none => s

/-- PMLOAD (R196, R197): the next source elements; those beyond N read as zero. -/
def State.pmLoad (s : State) (core e : Nat) (r : CopyRun) (m : PmRun) (w : BitVec 32) : State :=
  let b := r.blk
  let rows := pmField w 21 11
  let cols := pmField w 10 0
  let ps := ((List.range (rows * cols)).map (r.pos + ·)).filter fun p => decide (p < bN b)
  let g := copyAgent core e r
  match s.fetch g (bSsp b) (ps.flatMap (srcWords b)) with
  | .ok ws _ s1 =>
    let raw : Bool := bSfmt b = fmtRaw && bDfmt b = fmtRaw
    let vs := ps.map fun p =>
      let (x, v, psn) := elemFrom b ws p
      ((if raw then Val.fin x 0 else v, psn) : PmVal)
    let slab := vs ++ List.replicate (rows * cols - vs.length) (Val.fin 0 0, false)
    s1.modRun core e fun x => { x with
      pos := r.pos + ps.length
      pm := some { m with rows := rows, cols := cols, slab := slab, pc := m.pc + 1, took := 0 } }
  | x => s.copyTrouble core e r (s.firstBad g b ps) x

/-- The bit address of the n-th value that a pugmill copy emits: one packed run from DADDR (R196). -/
def pmBit (b : Lanes) (n : Nat) : Int := 8 * (bDaddr b : Int) + n * widthOf (bDfmt b)

/-- Values emitted (R196): each with the one after it, but for the last, whose word is completed by a later value or by
PMHALT. -/
def State.pmEmit (s : State) (core e : Nat) (r : CopyRun) : List PmVal → (n : Nat) → Bool × State
  | [], _ => (true, s)
  | (v, psn) :: rest, n =>
    let b := r.blk
    let raw := match v with
      | .fin m _ => m.toNat
      | _ => 0
    let (code, nan) := copyCode b raw v
    let (go, s1) := s.copyWrote core e r n nan
      (s.copyPut core e r (pmBit b n) (some (pmBit b (n + 1))) code (psn || r.tok.tok.psn))
    if go then s1.pmEmit core e { r with nanSeen := r.nanSeen || nan } rest (n + 1) else (false, s1)

/-- PMSTORE (R197). -/
def State.pmStore (s : State) (core e : Nat) (r : CopyRun) (m : PmRun) : State :=
  let (go, s1) := s.pmEmit core e r m.slab m.emitted
  if go then
    let n := m.emitted + m.slab.length
    s1.modRun core e fun x => { x with written := n, pm := some { m with pc := m.pc + 1, took := 0, emitted := n } }
  else s1

/-- PMHALT (R196): a word that the last value covers only in part is complete. -/
def State.pmHalt (s : State) (core e : Nat) (r : CopyRun) (m : PmRun) : State :=
  let open' : Bool := pmBit r.blk m.emitted % 64 ≠ 0 && m.emitted ≠ 0
  s.modRun core e fun x => CopyRun.moves { x with
    pm := some { m with fin := true }
    pend := x.pend ++ if open' then [pmBit r.blk m.emitted / 64] else [] }

/-- One word of a copy's pugmill program (R197). -/
def State.pmStep (s : State) (core e : Nat) (r : CopyRun) (m : PmRun) : State :=
  let w := r.prog.getD m.pc 0
  let raw : Bool := bSfmt r.blk = fmtRaw && bDfmt r.blk = fmtRaw
  match pmOp w with
  | 1 => s.pmLoad core e r m w
  | 2 => s.pmStore core e r m
  | 11 =>
    let pc := if r.pos < bN r.blk then pmField w 4 0 else m.pc + 1
    s.modRun core e fun x => { x with pm := some { m with pc := pc, took := 0 } }
  | 12 => s.pmHalt core e r m
  | _ =>
    let s1 := s.modRun core e fun x => { x with pm := some { pmArrange w raw m with pc := m.pc + 1, took := 0 } }
    match pmNan w raw m.slab with
    | some i => s1.copyNan core e r (pmField w 5 0) i
    | none => s1

/-- Cycles that a word takes: one for every 16 values in the slab after it, and at least one (R199). -/
def pmCycles (w : BitVec 32) (m : PmRun) : Nat :=
  let (rows, cols) := (pmShape w m.rows m.cols).getD (m.rows, m.cols)
  max 1 ((rows * cols + 15) / 16)

/-- A copy that the pugmill serves. -/
def CopyRun.inMill (r : CopyRun) : Bool := r.pm.isSome && !r.moved

/-- The copy that the pugmill of a cluster serves: the first to have started (R196). -/
def State.millRun (s : State) (cluster : Nat) : Option (Nat × Nat × CopyRun) :=
  let all := [2 * cluster, 2 * cluster + 1].flatMap fun c => [0, 1, 2, 3].filterMap fun e =>
    ((s.core c).eng e).run.bind fun r => if r.inMill then some (c, e, r) else none
  all.find? fun x => all.all fun y => decide (x.2.2.start ≤ y.2.2.start)

/-- One cycle of the lower-numbered core of a cluster for its pugmill (R199): a word takes its cycles, and its effect comes
with the last of them; the word after a PMSTORE waits until every write of the copy has been made. -/
def State.millCycle (s : State) (cluster : Nat) : State :=
  match s.millRun cluster with
  | some (core, e, r) => match r.pm with
    | some m =>
      if r.hold.isSome || s.wakeDue || s.branchHeld core e none then s
      else if m.took + 1 < pmCycles (r.prog.getD m.pc 0) m then
        s.modRun core e fun x => { x with pm := some { m with took := m.took + 1 } }
      else s.pmStep core e r m
    | none => s
  | none => s

/-- One cycle of a copy engine (R192). -/
def State.copyCycle (s0 : State) (core e : Nat) : State :=
  let s := s0.settleCopy core e
  match ((s.core core).eng e).run with
  | some r =>
    if r.moved || r.hold.isSome || r.pm.isSome || s.wakeDue then s
    else s.copyElems core e (copyBeatLen r.blk)
  | none => s

/-- SIDE of a SPACE token (R194). -/
def spaceSide (j count : Nat) : BitVec 24 := BitVec.ofNat 24 (j * 2 ^ 20 + count % 2 ^ 16)

/-- BRANCH_COMPLETE (R194): the SPACE token of the next completed branch, once its output holds a credit. -/
def execBranchComplete (core : Fin 64) (eng : Fin 4) (s : State) : Host.Outcome State Fault Refusal :=
  match ((s.core core.val).eng eng.val).run with
  | some r =>
    match r.spaces, ((s.core core.val).tmpl r.tmpl).spaceOut with
    | j :: rest, some (k, o) =>
      if ((s.tile k).ag.out o).space then
        let s1 := s.streamSend k o (ctlTok 4 (spaceSide j r.count) false 0)
        .next (s1.modRun core.val eng.val fun x => { x with spaces := rest })
      else .next s
    | _, _ => .next s
  | none => .next s

/-- COPY_END (R192): a copy that has moved everything, has no write that a bank holds, and has sent its SPACE tokens leaves
its engine, and its token the queue. -/
def execCopyEnd (core : Fin 64) (eng : Fin 4) (s : State) : Host.Outcome State Fault Refusal :=
  match ((s.core core.val).eng eng.val).run with
  | some r =>
    if r.moved && r.pend.isEmpty && r.owed.isEmpty && r.spaces.isEmpty && !s.branchHeld core.val eng.val none then
      let k := s.core core.val
      let k1 : Core := { k with engs := k.engs.modify eng.val fun x => { x with run := none } }
      .next (s.setCore core.val (k1.modQueue r.queue fun x => { x with toks := x.toks.drop 1 }))
    else .next s
  | none => .next s

end Sys2Proof.Machine
end

