-- ==== Sys2Proof/Machine/Matrix.lean ====
section
/-! DEFINITION. The matrix engine: modes and the side arrays (R238 to R241), the pass and its phases (R242 to R245),
fused accumulation and scrubbing (R246, R247), draft hints and admission (R252 to R255). -/

namespace Sys2Proof.Machine

open Sys2Proof

/-! ### Instructions that set the engine -/

/-- MX_CFG: the opcode, the source at fault and its lane 0 (R256). -/
def Ctx.mxCfg (c : Ctx) (src : Nat) (v : Word) : Flt := c.flt 0x50 (w64 (c.o.code + src * 256)) v 0

/-- MX_MODE (R256). -/
def Ctx.mxMode (c : Ctx) : Flt := c.flt 0x51 (w64 (c.t.eng.mode + c.o.code * 256)) 0 0

/-- The engine of a tile changed. -/
def Tile.modEng (t : Tile) (g : MxEng → MxEng) : Tile := { t with eng := g t.eng }

/-- The pass configuration that MXCFG's operands hold, or the source at fault (R240). -/
def mxCfgOf (a b : Word) : Except Nat MxCfg :=
  let ncbm1 := fld a 4 0
  let kbm1 := fld a 10 8
  let a4 := bit a 13
  let col0 := fld b 7 0
  if fld a 63 16 != 0 || fld a 12 11 != 0 || fld a 7 5 != 0 || (a4 && kbm1 % 2 = 0) then .error 0
  else if fld b 63 8 != 0 || col0 % 8 != 0 || 256 < col0 + 8 * (ncbm1 + 1) then .error 1
  else .ok ⟨ncbm1, kbm1, a4, fld a 15 14, col0⟩

/-- MXCFG (R240). -/
def execMxcfg (f : Fields) (s : State) : Host.Outcome State Fault Refusal :=
  issue .mxcfg f s fun c => do
    let a ← c.intA
    let b ← c.intB
    let _ ← c.header
    match mxCfgOf a b with
    | .error i => .error (c.mxCfg i (if i = 0 then a else b))
    | .ok cfg => .ok { c.plain with tile := fun t => t.modEng fun e => { e with cfg := cfg } }

/-- The engine with its mode set (R238): nothing changes where the mode is the one it is in. -/
def MxEng.setMode (e : MxEng) (m : Nat) : MxEng :=
  if e.mode = m then e
  else if m = 1 then { e with mode := 1, work := some (.recompute, 257) }
  else if m = 2 then { e with mode := 2, rules := [], outRows := [], gst := .ready }
  else { e with mode := m }

/-- MXMODE (R238). -/
def execMxmode (f : Fields) (s : State) : Host.Outcome State Fault Refusal :=
  issue .mxmode f s fun c => do
    let a ← c.intA
    let _ ← c.header
    if 3 ≤ a.toNat then .error (c.mxCfg 0 a)
    else .ok { c.plain with tile := fun t => t.modEng fun e => e.setMode a.toNat }

/-- Scale s0 + 4i + j from bits 12j+11:12j of each valid lane i (R241). -/
def MxEng.setScales (e : MxEng) (s0 : Nat) (a : Tok) : MxEng :=
  (List.range 8).foldl (fun e i =>
    if a.mask.getLsbD i then
      (List.range 4).foldl (fun e j =>
        let n := s0 + 4 * i + j
        { e with scales := Tab.set e.scales n (sextBits ((a.lanes.get i).toNat / 2 ^ (12 * j)) 12)
                 badScales := e.badScales.filter fun m => m != n }) e
    else e) e

/-- MXSCB (R241). -/
def execMxscb (f : Fields) (s : State) : Host.Outcome State Fault Refusal :=
  issue .mxscb f s fun c => do
    let b ← c.intB
    let _ ← c.header
    if fld b 63 11 != 0 || fld b 10 0 % 32 != 0 then .error (c.mxCfg 1 b)
    else .ok { c.plain with tile := fun t => t.modEng fun e => e.setScales (fld b 10 0) c.a }

/-- A scale as MXOUT and a pass read it: −2,048 for a word that SECDED cannot correct (R243). -/
def MxEng.scale (e : MxEng) (n : Nat) : Int := if e.badScales.contains n then -2048 else Tab.get e.scales n (-2047)

/-- Grammar state code (R241). -/
def GrSt.code : GrSt → Nat
  | .ready => 0
  | .running => 1
  | .done => 2
  | .faulted => 3

/-- MXOUT (R241). -/
def execMxout (f : Fields) (s : State) : Host.Outcome State Fault Refusal :=
  issue .mxout f s fun c => do
    let a ← c.intA
    let h ← c.header
    let e := c.t.eng
    match f.md.toNat with
    | 0 =>
      let i := fld a 10 0
      if 2040 < i then .error (c.mxCfg 0 a)
      else .ok (c.result (dataTok (Lanes.ofFn fun j => BitVec.ofInt 64 (e.scale (i + j))) { h with mask := 0xFF } 1))
    | 1 =>
      let i := fld a 7 0
      if 248 < i then .error (c.mxCfg 0 a)
      else .ok (c.result (dataTok (Lanes.ofFn fun j => BitVec.ofInt 64 (e.chkOf (i + j))) { h with mask := 0xFF } 1))
    | _ =>
      let l := Lanes.ofList [w64 e.passesDone, w64 e.mismatches, w64 e.mode, w64 e.bucket, w64 e.gst.code]
      .ok (c.result (dataTok l { h with mask := 0x1F } 1))

/-- The bank, the checksums and the scales of a tile cleared (R241). -/
def State.zeroBank (s : State) (k : Nat) : State :=
  let lo := bankBase k
  let m : Mem := { s.mem with
    cells := s.mem.cells.filter fun c => !(lo ≤ c.1 && c.1 < lo + 65536)
    poison := s.mem.poison.filter fun w => !(lo / 8 ≤ w && w < lo / 8 + 8192) }
  (s.setMem m).setTile k ((s.tile k).modEng fun e => { e with
    chk := []
    scales := []
    badScales := [] })

/-- MXZ (R241): the arrays are cleared, and the engine is busy for the 256 cycles that follow. -/
def execMxz (f : Fields) (s : State) : Host.Outcome State Fault Refusal :=
  issue .mxz f s fun c => .ok { c.plain with
    tile := fun t => t.modEng fun e => { e with work := some (.zeroing, 257) }
    eff := fun s1 => s1.zeroBank c.k }

/-- MXACC (R246). -/
def execMxacc (f : Fields) (s : State) : Host.Outcome State Fault Refusal :=
  issue .mxacc f s fun c => do
    let a ← c.convA .wf
    let b ← c.convB .wf
    let d ← c.convD .wf
    let h ← c.header
    let sum : Nat → Word := fun i =>
      fusedSum [Val.ofWf (d.lanes.get i), Val.ofWf (a.lanes.get i), Val.ofWf (b.lanes.get i)] (f.md.toNat % 4)
    .ok (c.result (dataTok (Lanes.ofFn sum) h 0))

/-- MXCHK (R247): the rows are checked when the scrub ends. -/
def execMxchk (f : Fields) (s : State) : Host.Outcome State Fault Refusal :=
  issue .mxchk f s fun c => do
    let a ← c.intA
    let b ← c.intB
    let h ← c.header
    let k0 := fld a 7 0
    let m := fld b 8 0
    if fld a 63 8 != 0 then .error (c.mxCfg 0 a)
    else if fld b 63 9 != 0 || m = 0 || 256 < k0 + m then .error (c.mxCfg 1 b)
    else
      let n := c.x.tickets + 1
      .ok { c.plain with
        outs := outsOf f
        res := [⟨f.d, none, m + 4, n⟩]
        tile := fun t => (t.modPool .mx fun x => { x with tickets := n }).modEng fun e =>
          { e with work := some (.scrub k0 m h.psn h.gen n, m + 4) } }

/-! ### Draft hints (R252, R253) -/

/-- DRAFT's fields, or the source at fault (R252). -/
def draftOf (a b : Word) (repeating : Bool) (cyc idx : Nat) : Except Nat Draft :=
  let onset := fld a 15 0
  let int := fld a 20 16
  let start := cyc + max onset 64 + 2 * (idx % 16)
  if fld a 63 21 != 0 || int = 0 || 16 < int then .error 0
  else if repeating then
    (if fld b 23 0 = 0 || fld b 47 24 = 0 || fld b 63 48 = 0 then .error 1
     else .ok ⟨start, int, fld b 23 0, fld b 47 24, fld b 63 48⟩)
  else if fld b 63 24 != 0 || fld b 23 0 = 0 then .error 1
  else .ok ⟨start, int, fld b 23 0, 1, 1⟩

/-- A draft hint (R252). -/
def draftOp (o : Op) (repeating : Bool) (f : Fields) (s : State) : Host.Outcome State Fault Refusal :=
  issue o f s fun c => do
    let a ← c.intA
    let b ← c.intB
    let _ ← c.header
    match draftOf a b repeating c.cyc (tileIdx c.k) with
    | .error i => .error (c.mxCfg i (if i = 0 then a else b))
    | .ok d => .ok { c.plain with tile := fun t => t.modEng fun e => { e with draft := some d } }

/-- DRAFT (R252). -/
def execDraft (f : Fields) (s : State) : Host.Outcome State Fault Refusal := draftOp .draft false f s

/-- DRAFTX (R252). -/
def execDraftx (f : Fields) (s : State) : Host.Outcome State Fault Refusal := draftOp .draftx true f s

/-- A cycle lies in a declared interval: the last interval begun decides, for it ends last. -/
def Draft.covers (d : Draft) (cyc : Nat) : Bool :=
  decide (d.start ≤ cyc) && decide (cyc < d.start + min ((cyc - d.start) / d.period) (d.count - 1) * d.period + d.len)

/-- The declared rate of a cycle, none where the undeclared rate is in force (R253). -/
def MxEng.declared (e : MxEng) (cyc : Nat) : Option Nat :=
  e.draft.bind fun d => if d.covers cyc then some d.rate else none

/-! ### The pass -/

/-- The beats of a row, the header over them, and the first beat of the wrong format (R242). -/
def Ctx.rowBeats (c : Ctx) : List Tok :=
  match c.f.a with
  | .inp i => (c.x.inp i).queue.take c.t.eng.cfg.nA
  | _ => []

/-- The input number of a source. -/
def inputNum (x : Src) : Nat := x.input?.elim 0 (·.val)

/-- A firing counted against the undeclared burst (R255): the undeclared rate was in force in some cycle after the first in
which its trigger held but for the bucket. Row 21 of the table of R255 fires in that first cycle and is not counted. -/
def Ctx.rowCounted (c : Ctx) : Bool := (Tab.get? c.t.eng.waitRows c.slot).getD false

/-- The undeclared-burst count of the firing's job, and MX_UNDECL at the launch's first counted firing (R255). -/
def State.countUndecl (s : State) (c : Ctx) : State :=
  match s.launchOf c.k with
  | some l =>
    let j := s.job l.job
    let n := (j.undecl + 1) % 2 ^ 48
    let s1 := s.setJob l.job { j with undecl := n }
    if l.undeclSeen then s1
    else (s1.setLaunch l.lseq { l with undeclSeen := true }).report 0x56 (some l.lseq) l.job (s.placeOf c.k c.p c.slot)
      (w64 s.power.undeclRate) (w64 n) 0
  | none => s

/-- MXROW (R242, R244, R254, R255). -/
def execMxrow (f : Fields) (s : State) : Host.Outcome State Fault Refusal :=
  issue .mxrow f s fun c => do
    let e := c.t.eng
    let row := c.rowBeats
    let out := (outsOf f).headD 0
    let x2 := f.md.getLsbD 0
    let want : BitVec 4 := if e.cfg.a4 then 5 else 4
    if e.mode ≠ 1 then .error c.mxMode
    else match row.find? fun t => t.fmt != want with
    | some t => .error ⟨0x30, inputNum f.a, t.gen, w64 (t.fmt.toNat + 3 * 256), 0, 0⟩
    | none =>
      let h ← c.headerOf row
      let q : Pass := ⟨e.nextId, e.cfg, row, h.gen, h.psn, f.b.consumes?.map (·.val), out, x2, c.slot, 0, e.cfg.cycles + 1,
        [], [], none, none, 0⟩
      .ok { pops := row.map fun _ => inputNum f.a
            tile := fun t =>
              let t1 := t.modEng fun e => { e with
                passes := e.passes ++ [q]
                nextId := e.nextId + 1
                bucket := e.bucket - 16 * e.cfg.cycles
                waitRows := Tab.del e.waitRows c.slot }
              let owned := if x2 then [out, (out + 1) % 4] else [out]
              t1.modPool .mx fun x => { x with
                outs := owned.foldl (fun os n => os.modify n fun o => { o with owner := some (.pass q.id) }) x.outs }
            eff := fun s1 => if c.rowCounted then s1.countUndecl c else s1 }

/-- The words of a bank. -/
def State.bankWords (s : State) (k w n : Nat) : List Word := s.mem.words (bankBase k / 8 + w) n

/-- Row k of the bank as 256 significands (R236). -/
def State.bankRow (s : State) (k row : Nat) : List Int := (s.bankWords k (32 * row) 32).flatMap fun w => laneElems w 8

/-- The elements of a row of A, in K order, an invalid lane's as zero (R163, R243). -/
def Pass.elems (q : Pass) : List Int :=
  let bits := if q.cfg.a4 then 4 else 8
  q.row.flatMap fun t => (List.range 8).flatMap fun i =>
    laneElems (if t.mask.getLsbD i then t.lanes.get i else 0) bits

/-- XA[j], the scale of the block of A that holds K-block j (R243). -/
def Pass.xa (q : Pass) (j : Nat) : Int :=
  let blk := if q.cfg.a4 then j / 2 else j
  let beat := q.row.getD (blk / 2) zeroTok
  tokScale beat (if blk % 2 = 0 then 0 else 4)

/-- Lists of integers added place by place. -/
def addRows (x y : List Int) : List Int := List.zipWith (· + ·) x y

/-- The sums s[j][n] of K-block j over all 256 columns, and the right-hand side of its check (R243, R245). -/
def State.blockSums (s : State) (k : Nat) (q : Pass) (j : Nat) : List Int × Int :=
  let a := q.elems
  let e := (s.tile k).eng
  (List.range 32).foldl (fun acc i =>
    let r := 32 * j + i
    let x := a.getD r 0
    if x = 0 then acc
    else (addRows acc.1 ((s.bankRow k r).map fun b => x * b), acc.2 + x * e.chkOf r)) (List.replicate 256 0, 0)

/-- A pass at the end of its serial phase: the block sums of its result columns, the scales it uses, the lowest K-block
whose check fails and the lowest bad scale word it reads (R241, R243, R245). -/
def State.latchPass (s : State) (k : Nat) (q : Pass) : Pass :=
  let e := (s.tile k).eng
  let nblk := q.cfg.kbm1 + 1
  let ncol := 8 * (q.cfg.ncbm1 + 1)
  let all := (List.range nblk).map fun j => s.blockSums k q j
  let cols := (List.range ncol).map fun i => q.cfg.col0 + i
  { q with
    phase := 1
    left := 1
    sums := cols.map fun n => all.map fun r => r.1.getD n 0
    scales := cols.map fun n => (List.range nblk).map fun j => e.scale (8 * n + j)
    badBlk := (List.range nblk).find? fun j => ((all.getD j ([], 0)).1.foldl (· + ·) 0) != (all.getD j ([], 0)).2
    badScale := (cols.flatMap fun n => (List.range nblk).map fun j => 8 * n + j).find? fun i => e.badScales.contains i }

/-- The passes with the first that satisfies a test changed. -/
def modFirst {α : Type} (xs : List α) (test : α → Bool) (g : α → α) : List α :=
  match xs with
  | [] => []
  | x :: rest => if test x then g x :: rest else x :: modFirst rest test g

/-- PASS_SERIAL_END (R239, R243). -/
def execPassSerialEnd (tile : Nat) (s : State) : Host.Outcome State Fault Refusal :=
  let t := s.tile tile
  let ended : Pass → Bool := fun q => q.serial && q.left = 0
  match t.eng.passes.find? ended with
  | some _ =>
    let s1 := s.setTile tile (t.modEng fun e => { e with passes := modFirst e.passes ended (s.latchPass tile) })
    .next (if (s1.tile tile).eng.work.isSome then s1 else s1.releaseHeld tile)
  | none => .next s

/-- An event of the engine at a slot of the MX pool. -/
def State.mxEvent (s : State) (k slot code : Nat) (w3 w4 : Word) : State :=
  s.report code ((s.blockOf k).map (·.lseq)) ((s.blockOf k).elim 0 (·.job)) (s.placeOf k .mx slot) w3 w4 0

/-- PASS_CHECK (R243, R245). -/
def execPassCheck (tile : Nat) (s : State) : Host.Outcome State Fault Refusal :=
  let t := s.tile tile
  let due : Pass → Bool := fun q => q.phase = 1
  match t.eng.passes.find? due with
  | some q =>
    let done := w64 t.eng.passesDone
    let s1 := s.setTile tile (t.modEng fun e => { e with
      passes := modFirst e.passes due fun q => { q with phase := 2, psn := q.psn || q.badBlk.isSome }
      mismatches := if q.badBlk.isSome then (e.mismatches + 1) % 2 ^ 48 else e.mismatches })
    let s2 := match q.badBlk with
      | some j => s1.mxEvent tile q.slot 0x52 (w64 (j * 256)) done
      | none => s1
    .next (match q.badScale with
      | some i => s2.mxEvent tile q.slot 0x52 (w64 (1 + i % 8 * 256 + i * 65536)) done
      | none => s2)
  | none => .next s

/-- The input from which accumulator beat g of a pass comes (R242). -/
def Pass.accInput (q : Pass) : Option Nat :=
  q.acc.map fun i => if q.x2 && q.beat % 2 = 1 then (i + 1) % 4 else i

/-- The output on which result beat g of a pass goes (R242). -/
def Pass.outNum (q : Pass) : Nat := if q.x2 && q.beat % 2 = 1 then (q.out + 1) % 4 else q.out

/-- A result beat (R243). -/
def Pass.result (q : Pass) (acc : Tok) (h : Hdr) : Tok :=
  let fA : Int := if q.cfg.a4 then 2 else 6
  let xa := (List.range (q.cfg.kbm1 + 1)).map q.xa
  dataTok (Lanes.ofFn fun i =>
    let n := 8 * q.beat + i
    macroDot (q.sums.getD n []) xa (q.scales.getD n []) fA (acc.lanes.get i) q.cfg.rm) { h with mask := 0xFF } 0

/-- The outputs on which a pass sends (R242). -/
def Pass.outputs (q : Pass) : List Nat := if q.x2 then [q.out, (q.out + 1) % 4] else [q.out]

/-- A pass ends (R242, R243): it leaves the engine, is counted, and gives up its outputs; one on which another pass has still
to send remains owned by that pass. -/
def Tile.endPass (t : Tile) (id : Nat) (counted : Bool) : Tile :=
  let t1 := t.modEng fun e => { e with
    passes := e.passes.filter (fun q => q.id != id)
    passesDone := if counted then (e.passesDone + 1) % 2 ^ 48 else e.passesDone }
  let next : Nat → Option Owner := fun n => (t1.eng.passes.find? fun q => q.outputs.contains n).map fun q => .pass q.id
  t1.modPool .mx fun x => { x with
    outs := x.outs.zipIdx.map fun o =>
      if ownedByPass o.1 then { o.1 with owner := next o.2 } else o.1 }

/-- Whether the first pass can send its next beat: its accumulator beat and a unit of space are there (R244). -/
def Tile.beatReady (t : Tile) : Bool :=
  match t.eng.passes with
  | q :: _ => q.phase = 2 && q.left = 0 && (t.mx.out q.outNum).space &&
      (match q.accInput with
        | some i => t.mx.headKind (.peek ⟨i % 4, Nat.mod_lt _ (by decide)⟩) == some 0
        | none => true)
  | [] => false

/-- PASS_BEAT (R243, R244): a pass goes on in a pool that has stopped, for results in flight complete (R340). -/
def execPassBeat (tile : Nat) (s : State) : Host.Outcome State Fault Refusal :=
  let t := s.tile tile
  match t.eng.passes with
  | q :: _ =>
    if t.beatReady then
      let raw := q.accInput.elim zeroTok fun i => (t.mx.inp i).head.getD zeroTok
      match convLanes .wf raw with
      | none => .next (s.raise tile .mx (q.accInput.getD 0) 0x30 raw.gen (w64 (raw.fmt.toNat + 2 * 256)) 0 0)
      | some (l, _) =>
        match youngerAt (s.die (tileDie tile)).mirror t.mx.ratified q.gen (if q.acc.isSome then raw.gen else 0) with
        | none => .next (s.raise tile .mx q.slot 0x20 0 (w64 (q.gen.toNat + raw.gen.toNat * 256)) 0 0)
        | some g =>
          let res := q.result { raw with lanes := l } ⟨0xFF, q.psn || raw.psn, g⟩
          let s1 := match q.accInput with
            | some i => (s.modPool tile .mx fun x => x.popInput i).creditFor t.mx i
            | none => s
          let s2 := (s1.spendOut tile .mx q.outNum).sendOut tile .mx q.outNum res
          let pace := if q.x2 && q.beat % 2 = 0 then 0 else 1
          let s3 := s2.setTile tile ((s2.tile tile).modEng fun e => { e with
            passes := modFirst e.passes (fun r => r.id = q.id) fun r => { r with beat := r.beat + 1, left := pace } })
          .next ((if q.beat = q.cfg.ncbm1 then s3.setTile tile ((s3.tile tile).endPass q.id true) else s3).markActive tile)
    else .next s
  | [] => .next s

/-! ### Busy work -/

/-- The checksum of a row recomputed from the bank (R238). -/
def State.rowSum (s : State) (k : Nat) (chk : Tab Int) (row : Nat) : Tab Int :=
  Tab.set chk row ((s.bankRow k row).foldl (· + ·) 0)

/-- Every checksum recomputed from its row. -/
def State.recompute (s : State) (k : Nat) : State :=
  s.setTile k ((s.tile k).modEng fun e => { e with chk := (List.range 256).foldl (s.rowSum k) e.chk })

/-- One cycle of a recomputation: one row (R238). -/
def State.recomputeRow (s : State) (k : Nat) : State :=
  match (s.tile k).eng.work with
  | some (.recompute, n) =>
    if n < 256 then s.setTile k ((s.tile k).modEng fun e => { e with chk := s.rowSum k e.chk (255 - n) }) else s
  | _ => s

/-- The engine's work is over, and its held writes are applied, unless a serial phase still holds them (R239). -/
def State.endWork (s : State) (k : Nat) : State :=
  let s1 := s.setTile k ((s.tile k).modEng fun e => { e with work := none })
  if (s1.tile k).eng.holds then s1 else s1.releaseHeld k

/-- MX_BUSY_END (R238, R241, R247): a recomputation or a zeroing ends with its 256th cycle, a scrub with the cycle in which
its result completes. -/
def execMxBusyEnd (tile : Nat) (s : State) : Host.Outcome State Fault Refusal :=
  match (s.tile tile).eng.work with
  | some (.recompute, 0) => .next (s.endWork tile)
  | some (.zeroing, 0) => .next (s.endWork tile)
  | some (.scrub _ _ _ _ _, 0) => .next (s.endWork tile)
  | _ => .next s

/-- The rows of a scrub whose sum differs from their checksum (R247). -/
def State.badRows (s : State) (k k0 m : Nat) : List Nat :=
  ((List.range m).map fun i => k0 + i).filter fun r => (s.bankRow k r).foldl (· + ·) 0 != (s.tile k).eng.chkOf r

/-- SCRUB_END (R247): the rows are checked, and the result completes with the scrub's last cycle. -/
def execScrubEnd (tile : Nat) (s : State) : Host.Outcome State Fault Refusal :=
  match (s.tile tile).eng.work with
  | some (.scrub k0 m psn gen n, left) =>
    if left = 1 then
      let bad := s.badRows tile k0 m
      let rows := dataTok (Lanes.ofList [w64 bad.length, (bad.head?).elim ones w64]) ⟨3, psn, gen⟩ 1
      let s1 := s.modPool tile .mx fun x => x.fill n (s.core (tileCore tile)).cyc fun d =>
        some (if d.isPred then predRes bad.isEmpty ⟨0xFF, psn, gen⟩ else rows)
      .next s1
    else .next s
  | _ => .next s

end Sys2Proof.Machine
end

