-- ==== Sys2Proof/Machine/Grammar.lean ====
section
/-! DEFINITION. Grammar matrices (R249 to R251): the window, the input vector, the run and its rows. -/

namespace Sys2Proof.Machine

open Sys2Proof

/-- GRLD (R250). -/
def execGrld (f : Fields) (s : State) : Host.Outcome State Fault Refusal :=
  issue .grld f s fun c => do
    let a ← c.intA
    let b ← c.intB
    let _ ← c.header
    if fld a 63 13 != 0 then .error (c.mxCfg 0 a)
    else if fld b 63 14 != 0 || fld b 13 0 = 0 || 8192 < fld a 12 0 + fld b 13 0 then .error (c.mxCfg 1 b)
    else .ok { c.plain with tile := fun t => t.modEng fun e => { e with gstart := fld a 12 0, glen := fld b 13 0 } }

/-- A beat of XV. -/
def MxEng.xvBeat (e : MxEng) (i : Nat) : Tok := Tab.get e.xv i zeroTok

/-- GRX (R250): an XV beat exchanged with A. -/
def execGrx (f : Fields) (s : State) : Host.Outcome State Fault Refusal :=
  issue .grx f s fun c => do
    let a ← c.convA .wf
    let b ← c.intB
    let _ ← c.header
    let i := fld b 6 0
    if fld b 63 7 != 0 then .error (c.mxCfg 1 b)
    else .ok { c.result (c.t.eng.xvBeat i) with
      tile := fun t => t.modEng fun e => { e with xv := Tab.set e.xv i { a with tag := 0, side := 0, kind := 0 } } }

/-- GRDEPTH (R250). -/
def execGrdepth (f : Fields) (s : State) : Host.Outcome State Fault Refusal :=
  issue .grdepth f s fun c => do
    let a ← c.intA
    let _ ← c.header
    if fld a 63 4 != 0 || fld a 3 0 = 0 then .error (c.mxCfg 0 a)
    else .ok { c.plain with tile := fun t => t.modEng fun e => { e with depthLim := fld a 3 0 } }

/-! ### The run (R251) -/

/-- The value of a pair word (R249). -/
def pairVal (u : Word) : Val :=
  let x := sextBits (fld u 27 16) 12
  if x = -2048 then .nan else .fin (sextBits (fld u 15 0) 16) (x - 14)

/-- What a grammar run has done so far. -/
structure GrRun where
  /-- bank word index of the next word -/
  w : Nat
  /-- cycle of the run in which the next word can be read -/
  cycle : Nat
  rules : Tab (Word × Nat)
  /-- cycle in which the last term of a rule was read -/
  lastAt : Tab Nat
  /-- cycles in which a reference waits and no word is read -/
  waits : List Nat
  outRows : Tab Nat
  count : Nat
  deepest : Nat
  words : Nat
  deriving DecidableEq, Repr

/-- A fault of a run: CODE, and w3 and w4 of R256, with what the run has done before it and the cycle in which it ends. -/
structure GrFault where
  code : Nat
  w3 : Word
  w4 : Word
  run : GrRun
  time : Nat
  deriving DecidableEq, Repr

/-- GR_FORMAT at a word that a run reads in its next cycle. -/
def GrRun.format (r : GrRun) (w cause : Nat) (u : Word) : GrFault :=
  ⟨0x55, w64 (w % 8192) ||| place cause 32, u, r, r.cycle⟩

/-- The terms of a rule from word index `w` on, `n` of them left: the terms, the depth, and the run after them. -/
def grTerms (rd : Nat → Word) (x : Nat → Word) (stop n lim rule : Nat) :
    (left : Nat) → GrRun → List Val → Nat → Except GrFault (List Val × Nat × GrRun)
  | 0, r, ts, d => .ok (ts.reverse, d, r)
  | left + 1, r, ts, d =>
    let u := rd r.w
    let next : GrRun := { r with w := r.w + 1, cycle := r.cycle + 1, words := r.words + 1 }
    if stop ≤ r.w then .error (r.format r.w 0 u)
    else if fld u 63 62 = 0 && fld u 41 32 < n && fld u 61 42 = 0 && fld u 31 28 = 0 then
      grTerms rd x stop n lim rule left next ((pairVal u).mul (Val.ofWf (x (fld u 41 32))) :: ts) d
    else if fld u 63 62 = 1 && fld u 61 10 = 0 then
      let g := fld u 9 0
      match Tab.get? r.rules g with
      | none => .error ⟨0x53, w64 (r.w % 8192 + g * 65536), u, r, r.cycle⟩
      | some (v, dg) =>
        let d' := max d (dg + 1)
        let at' := max r.cycle (Tab.get r.lastAt g 0 + 3)
        let waits := r.waits ++ (List.range (at' - r.cycle)).map (r.cycle + ·)
        if lim < d' then .error ⟨0x54, w64 (r.w % 8192 + rule * 65536) ||| place d' 32 ||| place lim 36, u,
          { r with waits := waits }, at'⟩
        else grTerms rd x stop n lim rule left { next with cycle := at' + 1, waits := waits } (Val.ofWf v :: ts) d'
    else .error (r.format r.w 3 u)

/-- The rules of a grammar, at most `fuel` of them (R251). -/
def grRules (rd : Nat → Word) (x : Nat → Word) (stop n lim rm : Nat) : (fuel : Nat) → GrRun → Except GrFault GrRun
  | 0, r => .ok r
  | fuel + 1, r =>
    let h := rd r.w
    let next : GrRun := { r with w := r.w + 1, cycle := r.cycle + 1, words := r.words + 1 }
    if stop ≤ r.w then .error (r.format r.w 0 h)
    else if fld h 63 62 = 3 then .ok next
    else if fld h 63 62 != 2 || fld h 25 16 = 0 || fld h 61 43 != 0 || fld h 31 26 != 0 || fld h 15 10 != 0 then
      .error (r.format r.w 1 h)
    else
      let g := fld h 9 0
      if (Tab.get? r.rules g).isSome then .error (r.format r.w 2 h)
      else
        match grTerms rd x stop n lim g (fld h 25 16) next [] 1 with
        | .error e => .error e
        | .ok (ts, d, r2) =>
          let r3 : GrRun := { r2 with
            rules := Tab.set r2.rules g (fusedSum ts rm, d)
            lastAt := Tab.set r2.lastAt g (r2.cycle - 1)
            count := r2.count + 1
            deepest := max r2.deepest d }
          if bit h 42 then
            if (Tab.get? r3.outRows (fld h 41 32)).isSome then .error { r3.format r.w 4 h with time := r3.cycle - 1 }
            else grRules rd x stop n lim rm fuel { r3 with outRows := Tab.set r3.outRows (fld h 41 32) g }
          else grRules rd x stop n lim rm fuel r3

/-- A run of the grammar of a tile's bank (R251): cycles count from 1, one word a cycle. -/
def State.grRun (s : State) (k rm n : Nat) : Except GrFault GrRun :=
  let e := (s.tile k).eng
  let rd : Nat → Word := fun w => if w < 8192 then s.mem.word (bankBase k / 8 + w) else 0
  let x : Nat → Word := fun j => (e.xvBeat (j / 8)).lanes.get (j % 8)
  grRules rd x (e.gstart + e.glen) n e.depthLim rm 8193 ⟨e.gstart, 1, [], [], [], [], 0, 0, 0⟩

/-- The cycles that a run takes; a faulted run ends at the word of the fault. -/
def runCycles : Except GrFault GrRun → Nat
  | .ok r => r.cycle - 1
  | .error e => e.time

/-- The cycles of a run in which a reference waits. -/
def runWaits : Except GrFault GrRun → List Nat
  | .ok r => r.waits
  | .error e => e.run.waits

/-- GRRUN (R250, R251). -/
def execGrrun (f : Fields) (s : State) : Host.Outcome State Fault Refusal :=
  issue .grrun f s fun c => do
    let a ← c.intA
    let b ← c.intB
    let e := c.t.eng
    let n := fld b 10 0
    if e.mode ≠ 2 then .error c.mxMode
    else if fld a 63 2 != 0 then .error (c.mxCfg 0 a)
    else if fld b 63 11 != 0 || n = 0 || 1024 < n then .error (c.mxCfg 1 b)
    else
      let h ← c.headerOf (c.headerToks ++ (List.range ((n + 7) / 8)).map e.xvBeat)
      let id := c.x.tickets + 1
      let run := s.grRun c.k (fld a 1 0) n
      let time := runCycles run
      .ok { c.plain with
        outs := outsOf f
        res := [⟨f.d, none, time + 1, id⟩]
        tile := fun t => (t.modPool .mx fun x => { x with tickets := id }).modEng fun e => { e with
          work := some (.grammar (fld a 1 0) n id c.slot time (runWaits run), time + 1)
          gst := .running
          rules := []
          outRows := []
          ggen := h.gen
          gpsn := h.psn } }

/-- GRAMMAR_RUN_END (R251): with the last cycle of a run its result completes, and after it the run's values stand,
or its fault; the rules that a faulted run has evaluated stay in the rule-value file and reach no output (R310). -/
def execGrammarRunEnd (tile : Nat) (s : State) : Host.Outcome State Fault Refusal :=
  let e := (s.tile tile).eng
  match e.work with
  | some (.grammar rm n id slot _ _, left) =>
    if 1 < left then .next s
    else match s.grRun tile rm n with
    | .ok r =>
      let t := dataTok (Lanes.ofList [w64 r.count, w64 r.deepest, w64 r.words]) ⟨7, e.gpsn, e.ggen⟩ 1
      let s1 := s.modPool tile .mx fun x => x.fill id (s.core (tileCore tile)).cyc fun _ => some t
      if left = 1 then .next s1
      else
        let s2 := s1.setTile tile ((s1.tile tile).modEng fun e =>
          { e with gst := .done, rules := r.rules, outRows := r.outRows })
        .next (s2.endWork tile)
    | .error g =>
      if left = 1 then .next s
      else
        let s1 := s.modPool tile .mx fun x => { x with inflight := x.inflight.filter fun r => r.ticket != id }
        let s2 := s1.setTile tile ((s1.tile tile).modEng fun e =>
          { e with gst := .faulted, rules := g.run.rules, outRows := g.run.outRows })
        .next ((s2.endWork tile).raise tile .mx slot g.code e.ggen g.w3 g.w4 0)
  | _ => .next s

/-! ### GREMIT (R250) -/

/-- GREMIT (R250): the stream that sends the output rows. -/
def execGremit (f : Fields) (s : State) : Host.Outcome State Fault Refusal :=
  issue .gremit f s fun c => do
    let a ← c.intA
    let _ ← c.header
    let n := fld a 10 0
    if fld a 63 11 != 0 || n = 0 || 1024 < n then .error (c.mxCfg 0 a)
    else
      let out := (outsOf f).headD 0
      .ok { c.plain with
        tile := fun t =>
          (t.modEng fun e => { e with gremit := some ⟨n, out, f.md.getLsbD 0, 0, e.ggen, e.gpsn⟩ }).modPool .mx fun x =>
            { x with outs := x.outs.modify out fun o => { o with owner := some .gremit } } }

/-- The value of an output row, zero where no rule has it (R250). -/
def MxEng.rowVal (e : MxEng) (i : Nat) : Word := (Tab.get? e.outRows i).elim 0 fun g => (Tab.get e.rules g (0, 0)).1

/-- A beat of output rows (R250). -/
def MxEng.rowBeat (e : MxEng) (g : Gremit) : Tok :=
  dataTok (Lanes.ofFn fun i => e.rowVal (8 * g.beat + i)) ⟨maskOf fun i => decide (8 * g.beat + i < g.nrow), g.psn, g.gen⟩ 0

/-- The end of a GREMIT stream: its output is free and the grammar is ready (R250). -/
def Tile.endGremit (t : Tile) : Tile :=
  (t.modEng fun e => { e with gremit := none, gst := .ready }).modPool .mx fun x =>
    { x with outs := x.outs.map fun o => if o.owner = some .gremit then { o with owner := none } else o }

/-- GREMIT_BEAT (R250): the next beat, or the END after the last. -/
def execGremitBeat (tile : Nat) (s : State) : Host.Outcome State Fault Refusal :=
  let t := s.tile tile
  match t.eng.gremit with
  | some g =>
    if !(t.mx.out g.out).space then .next s
    else
      let last := (g.nrow + 7) / 8
      let tok := if g.beat < last then t.eng.rowBeat g else ctlTok 1 0 g.psn g.gen
      let s1 := (s.spendOut tile .mx g.out).sendOut tile .mx g.out tok
      let fin : Bool := decide (last ≤ g.beat + 1) && !(g.endTok && decide (g.beat < last))
      let t1 := (s1.tile tile).modEng fun e => { e with gremit := some { g with beat := g.beat + 1 } }
      .next ((s1.setTile tile (if fin then t1.endGremit else t1)).markActive tile)
  | none => .next s

end Sys2Proof.Machine
end

