-- ==== Sys2Proof/Machine/System.lean ====
section
/-! DEFINITION. Fork and rendezvous, write pointers, images, task timestamps, the control and status registers and HALT
(R129, R272, R274 to R278, R280). -/

namespace Sys2Proof.Machine

open Sys2Proof

/-- FORK (R129, R274): the four predicates p4 to p7, with `.or` only those whose bit is 1. -/
def execFork (f : Fields) (s : State) : Host.Outcome State Fault Refusal :=
  issue .fork f s fun c => do
    let a ← c.intA
    let h ← c.header
    let one : Fin 4 → List Res := fun n =>
      let b := bit a n.val
      if f.md.getLsbD 0 && !b then [] else [⟨.pred ⟨4 + n.val, by omega⟩, some (predRes b { h with psn := false }), 1, 0⟩]
    .ok { c.plain with
      res := one 0 ++ one 1 ++ one 2 ++ one 3
      after := if h.psn then some (c.flt 0x21 (w64 (dstCode f.d)) 0 0) else none }

/-- RDV (R129, R274): its trigger is its whole effect. -/
def execRdv (f : Fields) (s : State) : Host.Outcome State Fault Refusal :=
  issue .rdv f s fun c => .ok c.plain

/-- WAITWP (R275): its trigger is its whole effect. -/
def execWaitwp (f : Fields) (s : State) : Host.Outcome State Fault Refusal :=
  issue .waitwp f s fun c => do
    let _ ← c.intA
    let _ ← c.intB
    let _ ← c.header
    .ok c.plain

/-- IMGSYNC (R276): the arbiter's block-table cache is cleared, and an invalidation record joins its stream (R89). -/
def execImgsync (f : Fields) (s : State) : Host.Outcome State Fault Refusal :=
  issue .imgsync f s fun c =>
    .ok { c.plain with
      eff := fun s1 => { s1 with arb := { s1.arb with
        cache := []
        stream := s1.arb.stream ++ [.inval] } } }

/-- TSGET (R272). -/
def execTsget (f : Fields) (s : State) : Host.Outcome State Fault Refusal :=
  issue .tsget f s fun c => do
    let a ← c.intA
    let h ← c.header
    let t := fld a 47 0
    let bad : Flt := c.streamTs (w64 t) 0
    match s.launchOf c.k with
    | none => .error bad
    | some l => match l.unitAt t with
      | none => .error bad
      | some i =>
        if s.runFinished l i c.a.gen then .error bad
        else
          let tok := { c.a with lanes := maskLanes c.a, mask := h.mask, psn := h.psn, gen := h.gen }
          .ok { c.result tok with
            tile := fun t' => t'.modPool .pe fun x => { x with bind := some ⟨t, c.a.gen, l.lseq, i⟩ } }

/-- TSNEW (R272). -/
def execTsnew (f : Fields) (s : State) : Host.Outcome State Fault Refusal :=
  issue .tsnew f s fun c => do
    let a ← c.intA
    let b ← c.intB
    let h ← c.header
    let t := fld a 47 0
    let n := t + fld b 47 0
    let units := (s.launchOf c.k).map fun l => (l.unitAt t, l.unitAt n)
    match units with
    | some (some i, some j) =>
      if i = j && n < 2 ^ 48 then .ok (c.result (scalarRes (w64 n) h)) else .error (c.streamTs (w64 n) 0)
    | _ => .error (c.streamTs (w64 n) 0)

/-! ### Control and status registers (R277, R278) -/

/-- A register of R277, readable but unwritable unless it is RETV. -/
inductive Csr where
  | place | block | ts | unit | cycle | time | work | clock
  | k (n : Fin 8)
  | tsbase | stride | units | retv | damperN | damperW | qwcw
  deriving DecidableEq, Repr

/-- The register of a number (R277). -/
def Csr.ofNum (n : Nat) : Option Csr :=
  match n with
  | 0x000 => some .place
  | 0x001 => some .block
  | 0x002 => some .ts
  | 0x003 => some .unit
  | 0x004 => some .cycle
  | 0x005 => some .time
  | 0x006 => some .work
  | 0x007 => some .clock
  | 0x018 => some .tsbase
  | 0x019 => some .stride
  | 0x01A => some .units
  | 0x020 => some .retv
  | 0x100 => some .damperN
  | 0x101 => some .damperW
  | 0x102 => some .qwcw
  | n => if 0x010 ≤ n && n < 0x018 then some (.k ⟨n % 8, Nat.mod_lt _ (by decide)⟩) else none

/-- The QWC window of a block (R38). -/
def qwcWindow (b : Block) : Nat := if fld b.entry.2.2 31 0 = 0 then 65536 else fld b.entry.2.2 31 0

/-- PLACE of a tile (R277). -/
def placeCsr (k : Nat) : Word :=
  let core := tileX k / 8 + 4 * (tileY k / 16)
  w64 (tileDie k) ||| place (tileX k) 3 ||| place (tileY k) 8 ||| place core 13 ||| place (core / 2) 16 |||
    place (tileIdx k) 18

/-- A value taken from the launch of a tile's block, zero without one. -/
def State.ofLaunch (s : State) (k : Nat) (g : Launch → Word) : Word := (s.launchOf k).elim 0 g

/-- What a register reads (R208, R277). -/
def State.csrRead (s : State) (k : Nat) (r : Csr) : Word :=
  let x := (s.tile k).pe
  match r with
  | .place => placeCsr k
  | .block => (s.blockOf k).elim 0 fun b => w64 b.idx ||| place (b.lseq % 2 ^ 32) 32
  | .ts => x.bind.elim 0 fun b => w64 b.ts ||| place b.gen.toNat 48 ||| place 1 63
  | .unit => x.bind.elim ones fun b => w64 b.unit
  | .cycle => w64 (((s.core (tileCore k)).cyc - (s.tile k).liveAt) % 2 ^ 48)
  | .time => w64 s.time
  | .work => s.ofLaunch k fun l => w64 l.job ||| place l.phase 16 ||| place l.graph 32
  | .clock => w64 (s.core (tileCore k)).cur
  | .k n => s.ofLaunch k fun l => l.w (7 + n.val)
  | .tsbase => s.ofLaunch k fun l => w64 l.tsbase
  | .stride => s.ofLaunch k fun l => w64 l.stride
  | .units => s.ofLaunch k fun l => w64 l.unitCount
  | .retv => s.ofLaunch k fun l => l.retv
  | .damperN => (s.regionOf k).elim 0 fun g => w64 g.dampN
  | .damperW => (s.regionOf k).elim 0 fun g => w64 g.dampW
  | .qwcw => (s.blockOf k).elim 0 fun b => w64 (qwcWindow b)

/-- CSR_ACCESS (R278, R281). -/
def Ctx.csrAccess (c : Ctx) (a : Word) (cause : Nat) (w4 : Word) : Flt :=
  c.flt 0x62 (w64 (fld a 11 0) ||| place cause 32) w4 0

/-- The register that A names, or CSR_ACCESS for a poisoned operand or an undefined number (R278). -/
def Ctx.csr (c : Ctx) (a : Word) (psn : Bool) (w4 : Word) : Except Flt Csr :=
  if psn then .error (c.csrAccess a 2 w4)
  else if fld a 63 12 != 0 then .error (c.csrAccess a 0 w4)
  else match Csr.ofNum (fld a 11 0) with
    | some r => .ok r
    | none => .error (c.csrAccess a 0 w4)

/-- CSRR (R278): its result carries no header of A. -/
def execCsrr (f : Fields) (s : State) : Host.Outcome State Fault Refusal :=
  issue .csrr f s fun c => do
    let a ← c.intA
    let _ ← c.header
    let r ← c.csr a c.a.psn 0
    .ok (c.result (scalarRes (s.csrRead c.k r) Hdr.none))

/-- A RETV write of a run; one of an aborted or dead run is discarded (R278, R291). -/
def UnitSt.writeRetv (u : UnitSt) (g : BitVec 8) (v : Word) : UnitSt :=
  if (u.run? g).elim false (·.aborted) then u else { u with retv := u.retv ++ [(g, v)] }

/-- CSRW (R278). -/
def execCsrw (f : Fields) (s : State) : Host.Outcome State Fault Refusal :=
  issue .csrw f s fun c => do
    let a ← c.intA
    let b ← c.intB
    let h ← c.header
    let r ← c.csr a (c.a.psn || c.b.psn) b
    if r ≠ .retv then .error (c.csrAccess a 1 b)
    else match c.x.bind with
      | none => .error (c.streamTs ones 0)
      | some u =>
        let h' ← c.globalHdr h u
        .ok { c.plain with eff := fun s1 => s1.modUnit u.lseq u.unit fun x => x.writeRetv h'.gen b }

/-- HALT (R280). -/
def execHalt (f : Fields) (s : State) : Host.Outcome State Fault Refusal :=
  issue .halt f s fun c =>
    .ok { c.plain with tile := fun t => t.modPool .pe fun x => { x with run := .halted } }

end Sys2Proof.Machine
end

