-- ==== Sys2Proof/Machine/Squash.lean ====
section
/-! DEFINITION. The squash network (R323 to R326): what each endpoint does with a message, markers, acknowledgement, and
the end of a FREE; with KV rows (R329), copy queues (R195), the bisque buffers (R290, R295), held faults and events
(R279, R341), saved blocks (R352) and peers (R332, R378). Log entry 25. -/

namespace Sys2Proof.Machine

open Sys2Proof

abbrev Tag := BitVec 8

/-! ### Relabelling at a FREE -/

/-- A tag as a FREE of ratified tags leaves it (R324). -/
def freed (fs : List Tag) (g : Tag) : Tag := if fs.contains g then 0 else g

def Tok.freed (fs : List Tag) (t : Tok) : Tok := { t with gen := Machine.freed fs t.gen }

def Item.freed (fs : List Tag) : Item → Item
  | .tok t r => .tok (Tok.freed fs t) r
  | .marker n => .marker n

def Req.freed (fs : List Tag) (r : Req) : Req := { r with
  gen := Machine.freed fs r.gen
  dat := Tok.freed fs r.dat
  opb := Tok.freed fs r.opb
  res := Tok.freed fs r.res
  unit := r.unit.map fun b => { b with gen := Machine.freed fs b.gen } }

def AgAcc.freed (fs : List Tag) (q : AgAcc) : AgAcc := { q with
  gen := Machine.freed fs q.gen
  dat := Tok.freed fs q.dat
  res := Tok.freed fs q.res }

def Pass.freed (fs : List Tag) (q : Pass) : Pass := { q with
  gen := Machine.freed fs q.gen
  row := q.row.map (Tok.freed fs) }

def MxWork.freed (fs : List Tag) : MxWork → MxWork
  | .scrub a b p g n => .scrub a b p (Machine.freed fs g) n
  | w => w

def MxEng.freed (fs : List Tag) (e : MxEng) : MxEng := { e with
  xv := e.xv.map fun x => (x.1, Tok.freed fs x.2)
  ggen := Machine.freed fs e.ggen
  passes := e.passes.map (Pass.freed fs)
  work := e.work.map fun w => (MxWork.freed fs w.1, w.2)
  gremit := e.gremit.map fun g => { g with gen := Machine.freed fs g.gen } }

/-- A pool whose registers, results, requests, streams and records of ratified tags go to GEN 0; its input buffers apart
(R324). -/
def PoolSt.freed (fs : List Tag) (x : PoolSt) : PoolSt := { x with
  v := x.v.map fun r => { r with tok := Tok.freed fs r.tok }
  inflight := x.inflight.map fun e => { e with gen := Machine.freed fs e.gen, val := e.val.map (Tok.freed fs) }
  frec := x.frec.map fun r => { r with gen := Machine.freed fs r.gen }
  evts := x.evts.map fun e => { e with gen := Machine.freed fs e.gen }
  reqs := x.reqs.map (Req.freed fs)
  bind := x.bind.map fun b => { b with gen := Machine.freed fs b.gen }
  streams := x.streams.map fun st => { st with
    gen := Machine.freed fs st.gen
    missDue := st.missDue.map (Tok.freed fs)
    formed := st.formed.map fun m => { m with tok := Tok.freed fs m.tok, missDue := m.missDue.map (Tok.freed fs) } }
  agq := x.agq.map (AgAcc.freed fs) }

/-! ### Pools -/

/-- A hold whose access is discarded is gone. -/
def State.dropHold (s : State) (h : Option Nat) : State :=
  match h with
  | some n => { s with holds := Tab.del s.holds n }
  | none => s

/-- Requests of dead generations that have not been performed are discarded (R259). -/
def State.dropReqs (s : State) (k : Nat) (p : Pool) (test : Req → Bool) : State :=
  (((s.tile k).pool p).reqs.filter test).foldl (fun s r =>
    (s.dropHold r.held).modPool k p fun x => x.dropReq r.ticket) s

/-- Pending accesses of AGGTH, AGWR and AGSCT discarded as requests are. -/
def State.dropAccs (s : State) (k : Nat) (test : AgAcc → Bool) : State :=
  ((s.tile k).ag.agq.filter test).foldl (fun s q =>
    (s.dropHold q.hold).modPool k .ag fun x => x.dropInflight (fun e => e.ticket = q.ticket) fun y =>
      { y with agq := y.agq.filter fun z => z.ticket != q.ticket }) s

/-- Streams of dead generations become idle (R324). -/
def State.idleStreams (s : State) (k : Nat) (test : Stream → Bool) : State :=
  (List.range 4).foldl (fun s n =>
    let st := (s.tile k).ag.stream n
    if test st then (s.dropHold st.hold).endStream k n .idle else s) s

/-- The engine's part of a squash (R248). -/
def State.squashEng (s : State) (k : Nat) (dead : List Tag) : State :=
  let t0 := s.tile k
  let t1 := (t0.eng.passes.filter fun q => dead.contains q.gen).foldl (fun t q => t.endPass q.id false) t0
  let t2 :=
    if !dead.contains t1.eng.ggen then t1
    else
      let t := match t1.eng.work with
        | some (.grammar _ _ n _ _ _, _) =>
          (t1.modEng fun e => { e with work := none }).modPool .mx fun x => x.dropInflight (fun e => e.ticket = n) id
        | _ => t1
      t.endGremit.modEng fun e => { e with rules := [] }
  let s1 := s.setTile k t2
  if t2.eng.holds then s1 else s1.releaseHeld k

/-- Accesses that banks hold, dropped where a test singles them out (R239, R259). -/
def State.dropHeld (s : State) (test : HeldWrite → Bool) : State :=
  { s with tiles := s.tiles.map fun kt =>
      if kt.2.eng.heldWrites.any test then (kt.1, kt.2.modEng fun e => { e with heldWrites := e.heldWrites.filter fun h => !test h })
      else kt }

/-- A held access of a request of a tile that a squash strikes. -/
def HeldWrite.ofReqs (k : Nat) (rs : List Req) (h : HeldWrite) : Bool :=
  rs.any fun r => h.who = .req k r.ticket

/-- A held write of a stream of a tile under a dead tag. -/
def HeldWrite.ofStreams (k : Nat) (dead : List Tag) (h : HeldWrite) : Bool :=
  match h.who with
  | .stream j _ g => j = k && dead.contains g
  | _ => false

/-- A pool applies SQUASH (R248, R259, R279, R324, R341): an access that a bank still holds has not been performed. -/
def State.squashPool (s : State) (k : Nat) (p : Pool) (dead : List Tag) : State :=
  let hit : Tag → Bool := dead.contains
  let gone : Req → Bool := fun r => hit r.gen && (!r.accs.isEmpty || 0 < r.inHold)
  let s1 := (s.dropHeld (HeldWrite.ofReqs k (((s.tile k).pool p).reqs.filter gone))).dropReqs k p gone
  let s2 := match p with
    | .pe => s1
    | .mx => s1.squashEng k dead
    | .ag => ((s1.dropHeld (HeldWrite.ofStreams k dead)).dropAccs k fun q => hit q.gen).idleStreams k fun st =>
        decide (st.st ≠ StreamSt.idle) && hit st.gen
  let s3 := s2.modPool k p fun x =>
    let y : PoolSt := { x with
      v := x.v.map fun (r : VReg) => if hit r.tok.gen then { r with present := false } else r
      evts := x.evts.filter fun e => !hit e.gen
      dead := x.dead ++ dead }
    if decide (y.run = PoolRun.faulted) && y.frec.any (fun (r : FaultRec) => !r.posted && hit r.gen) then y.resume else y
  s3.flushEvts k p ((s3.tile k).pool p).evts.length

/-- A pool applies RATIFY (R279, R341). -/
def State.ratifyPool (s : State) (k : Nat) (p : Pool) (tags : List Tag) : State :=
  let s1 := s.modPool k p fun x => { x with ratified := x.ratified ++ tags }
  let s2 := match ((s1.tile k).pool p).frec with
    | some r =>
      if !r.posted && tags.contains r.gen then
        (s1.modPool k p fun x => { x with frec := some { r with posted := true } }).deliverFault k p r
      else s1
    | none => s1
  s2.flushEvts k p ((s2.tile k).pool p).evts.length

/-- Tags that a FREE takes from the dead and the ratified of an endpoint, with those to relabel. -/
def freePool (tags : List Tag) (x : PoolSt) : PoolSt :=
  { x.freed (x.ratified.filter tags.contains) with
    dead := x.dead.filter fun g => !tags.contains g
    ratified := x.ratified.filter fun g => !tags.contains g }

/-- Writes of a pool's streams that banks hold, with their tags relabelled. -/
def State.relabelHeld (s : State) (k : Nat) (fs : List Tag) : State :=
  { s with tiles := s.tiles.map fun kt => (kt.1, kt.2.modEng fun e => { e with
      heldWrites := e.heldWrites.map fun h => match h.who with
        | .stream j n g => if j = k then { h with who := .stream j n (freed fs g) } else h
        | _ => h }) }

/-- A pool applies one message. -/
def State.poolMsg (s : State) (k : Nat) (p : Pool) (m : Msg) : State :=
  match m.kind with
  | .squash => s.squashPool k p m.tags
  | .ratify => s.ratifyPool k p m.tags
  | .launch => if m.ratifies then s.ratifyPool k p m.tags else s
  | .free =>
    let fs := ((s.tile k).pool p).ratified.filter m.tags.contains
    let s1 := s.modPool k p (freePool m.tags)
    match p with
    | .mx => s1.setTile k ((s1.tile k).modEng (MxEng.freed fs))
    | .ag => if fs.isEmpty then s1 else s1.relabelHeld k fs
    | .pe => s1

/-- A SQUASH or a FREE, behind which every hop sends a marker (R326). -/
def MsgKind.marks : MsgKind → Bool
  | .squash => true
  | .free => true
  | _ => false

/-- A pool that has applied the `n`th message, counted from 1, sends its marker on the channels of its outputs (R326). -/
def State.markOuts (s : State) (k : Nat) (p : Pool) (n : Nat) (m : Msg) : State :=
  if m.kind.marks then
    (((s.tile k).pool p).outs.filterMap (·.chan)).foldl (fun s c => s.modChan c fun y => y.push (.marker n)) s
  else s

/-! ### Channels and input buffers -/

/-- Beats that an item stands for (R126). -/
def Item.beats : Item → Nat
  | .tok _ r => r + 1
  | .marker _ => 0

def Item.deadIn (dead : List Tag) : Item → Bool
  | .tok t _ => dead.contains t.gen
  | .marker _ => false

/-- An input buffer changed, where it is the end of the channel. -/
def State.modInput (s : State) (ch k : Nat) (p : Pool) (i : Nat) (f : InPort → InPort) : State :=
  s.modPool k p fun x => { x with ins := x.ins.modify i fun q => if q.chan = some ch then f q else q }

/-- The tokens of an input buffer (none where another block holds the tile). -/
def State.inputOf (s : State) (ch k : Nat) (p : Pool) (i : Nat) : List Tok :=
  let q := ((s.tile k).pool p).inp i
  if q.chan = some ch then q.queue else []

/-- Credits for dropped beats start back as if the beats had been consumed, those of a Craxon circuit from the port; a pull
input counts them as answers, and requests that came from another package stand again (R324, R376). -/
def State.dropped (s : State) (ch n : Nat) (arrived : Bool) : State :=
  if n = 0 then s
  else match Tab.get? s.chans ch with
    | none => s
    | some y =>
      if !y.pull then match y.dst with
        | .egress e => { s with xcredits := Tab.set s.xcredits e (Tab.get s.xcredits e 0 + n) }
        | _ => s.setChan ch { y with credBack := y.credBack + n }
      else match y.dst with
        | .inp k p i => if arrived then s else s.modInput ch k p i fun q => { q with reqOut := q.reqOut - n }
        | .egress _ => s.setChan ch { y with reqBack := y.reqBack + n }
        | _ => s

/-- The key of a direction of a link between chiplets; those of Craxon ports name no channel of the package. -/
def innerKey (key : Nat) : Bool := key < 32

/-- The tokens of a channel on the links between chiplets, changed. -/
def State.mapLinks (s : State) (ch : Nat) (f : Tok → Tok) : State :=
  let g : Seg → Seg := fun x => match x with
    | .tok c d x t r => .tok c d x (if c = ch then f t else t) r
    | y => y
  { s with links := s.links.map fun l => if innerKey l.1 then (l.1, { l.2 with
      pending := l.2.pending.map g
      segs := l.2.segs.map fun y => (y.1, y.2.map g) }) else l }

/-- The link of a Craxon port; direction false leaves the package. -/
def portLink (p : Nat) : Nat := 16 + p

/-- A segment waits for a flit of a link direction (R372). -/
def State.queueSeg (s : State) (l : Nat) (dir : Bool) (x : Seg) : State :=
  s.setLink l dir { s.link l dir with pending := (s.link l dir).pending ++ [x] }

/-- Credits for beats that have left the store of an ingress entry start back to the other package (R376). -/
def State.storeCredit (s : State) (e n : Nat) : State :=
  let w := Tab.get s.xmap e (0, 0)
  if n = 0 then s
  else s.queueSeg (portLink (fld w.1 55 48)) false (.credit 0 (fld w.2 51 42) (fld w.1 47 32) n)

/-- The key of a circuit at a Craxon port, by its XMAP entry. -/
def State.circuitKey (s : State) (e : Nat) : Nat :=
  let w := (Tab.get s.xmap e (0, 0)).1
  fld w 55 48 * 65536 + fld w 47 32

/-- Credits, or requests of a pull channel, that a block leaves unused go back to the egress entry of its circuit (R376). -/
def State.egressBack (s : State) (e : Nat) (pull : Bool) (n : Nat) : State :=
  let k := s.circuitKey e
  let x := Tab.get s.xearly k (0, 0)
  if n = 0 then s
  else if pull then { s with xearly := Tab.set s.xearly k (x.1, x.2 + n) }
  else { s with xcredits := Tab.set s.xcredits e (Tab.get s.xcredits e 0 + n) }

/-- Tokens of dead generations leave a port's store; the credits of a push circuit start back, and a pull input counts the beats
as answers. -/
def State.squashStore (s : State) (e : Nat) (dead : List Tag) (pull : Option Nat) : State :=
  let its := Tab.get s.stores e []
  let n := ((its.filter (Item.deadIn dead)).map Item.beats).sum
  if n = 0 then s
  else
    let s1 := { s with stores := Tab.set s.stores e (its.filter fun it => !Item.deadIn dead it) }
    match pull with
    | some ch => s1.dropped ch n false
    | none => s1.storeCredit e n

/-- Tokens of a port's store relabelled. -/
def State.freeStore (s : State) (e : Nat) (fs : List Tag) : State :=
  let its := Tab.get s.stores e []
  if its.isEmpty then s else { s with stores := Tab.set s.stores e (its.map (Item.freed fs)) }

/-- Tokens of dead generations leave the end of a channel: an input buffer, the done sink or a port's store. -/
def State.squashEnd (s : State) (ch : Nat) (y : Chan) (dead : List Tag) : State :=
  let hit : Tok → Bool := fun t => dead.contains t.gen
  let s1 := match y.dst with
    | .inp k p i =>
      let n := ((s.inputOf ch k p i).filter hit).length
      (s.modInput ch k p i fun q => { q with queue := q.queue.filter fun t => !hit t }).dropped ch n true
    | .done b => s.modBlock b fun x => { x with doneQ := x.doneQ.filter fun t => !hit t }
    | .egress _ => s
  match y.src with
  | .ingress e => s1.squashStore e dead (if y.pull then some ch else none)
  | _ => s1

/-- A node belongs to the speculation domain of this package, as home or as peer (R332, R377); whether the home of a domain
that this package has joined serves a node as a peer is a free value (log entry 96). -/
def State.inDomain (s : State) (node : Nat) : Bool :=
  s.root.peers.contains node || s.root.joined.any fun j => j.1 = node || Config.coPeer j.1 j.2 node

/-- The node of an XMAP entry. -/
def State.entryNode (s : State) (e : Nat) : Nat := fld (Tab.get s.xmap e (0, 0)).2 51 42

/-- The SEQ at the home root of the `n`th message counted from 1, where a node at the other end of a Craxon circuit applies
it too and so sends its own marker (R332). -/
def State.sharedSeq (s : State) (node n : Nat) : Option Nat :=
  match (s.root.log[n - 1]?).bind (·.home) with
  | some h => if s.inDomain node then some h else none
  | none => if s.root.peers.contains node && Tab.get s.root.peerAck node 0 < n then some (n - 1) else none

/-- A message of the log as this package counts it, by its SEQ at the home root (R332). -/
def State.localSeq (s : State) (h : Nat) : Option Nat :=
  if s.root.log.any (·.home.isSome) then (s.root.log.findIdx? fun m => m.home = some h).map (· + 1)
  else if h < s.root.log.length then some (h + 1) else none

/-- The channel itself sends the marker of the `n`th message: where no live pool feeds it, which sends its own (`markOuts`), and
no other package's port does. -/
def State.marksItself (s : State) (ch n : Nat) (y : Chan) : Bool :=
  match y.src with
  | .out k p o => (((s.tile k).pool p).out o).chan ≠ some ch
  | .entry _ => true
  | .ingress e => (s.sharedSeq (s.entryNode e) n).isNone

/-- A channel with a marker pushed where it sends its own. -/
def State.pushMarker (s : State) (ch n : Nat) (y : Chan) : Chan := if s.marksItself ch n y then y.push (.marker n) else y

/-- The damper's name for a channel. -/
def dampChan (ch : Nat) : Nat := 2 * ch

/-- A channel applies SQUASH (R324): every dead token on its way and in its end's buffer is dropped, and a marker
follows the tokens sent (R326). -/
def State.squashChan (s : State) (ch : Nat) (y : Chan) (dead : List Tag) (n : Nat) : State :=
  let hit := Item.deadIn dead
  let gone := ((y.items ++ y.stages.flatten).filter hit).foldl (fun m it => m + it.beats) 0
  let y1 : Chan := { y with
    items := y.items.filter fun it => !hit it
    stages := y.stages.map fun st => st.filter fun it => !hit it
    dead := y.dead ++ dead }
  let first : Option Item := match y.src with
    | .ingress e => (Tab.get s.stores e []).head?
    | _ => y.items.head?
  let s1 := ((s.setChan ch (s.pushMarker ch n y1)).dropped ch gone false).squashEnd ch y dead
  match y.dst with
  | .inp k _ _ => if first.any hit then s1.undamp (s1.tile k).region (dampChan ch) else s1
  | _ => s1

/-- Tokens relabelled at the end of a channel. -/
def State.freeEnd (s : State) (ch : Nat) (y : Chan) (fs : List Tag) : State :=
  let g := Tok.freed fs
  let s1 := match y.dst with
    | .inp k p i => s.modInput ch k p i fun q => { q with queue := q.queue.map g }
    | .done b => s.modBlock b fun x => { x with doneQ := x.doneQ.map g }
    | .egress _ => s
  match y.src with
  | .ingress e => s1.freeStore e fs
  | _ => s1

/-- A channel applies FREE (R324, R326). -/
def State.freeChan (s : State) (ch : Nat) (y : Chan) (tags : List Tag) (n : Nat) : State :=
  let fs := y.ratified.filter tags.contains
  let y1 : Chan := { y with
    items := y.items.map (Item.freed fs)
    stages := y.stages.map fun st => st.map (Item.freed fs)
    dead := y.dead.filter fun g => !tags.contains g
    ratified := y.ratified.filter fun g => !tags.contains g }
  ((s.setChan ch (s.pushMarker ch n y1)).mapLinks ch (Tok.freed fs)).freeEnd ch y fs

/-- A token as it arrives at the end of a channel: one sent under a ratified tag whose FREE the channel has applied, and its
sender had not, is relabelled (R324). -/
def State.arriving (s : State) (y : Chan) (t : Tok) : Tok :=
  let late := s.root.frees.any fun n => n < y.seq && (s.root.log[n]?).elim false fun m =>
    decide (m.kind = .free) && m.tags.contains t.gen && decide ((s.root.ent t.gen.toNat).st = .ratified)
  if late then { t with gen := 0 } else t

/-- A channel applies one message, the `n`th counted from 1. -/
def State.chanMsg (s : State) (ch n : Nat) (m : Msg) : State :=
  match Tab.get? s.chans ch with
  | none => s
  | some y0 =>
    let y : Chan := { y0 with seq := n }
    match m.kind with
    | .squash => s.squashChan ch y m.tags n
    | .free => s.freeChan ch y m.tags n
    | .ratify => s.setChan ch { y with ratified := y.ratified ++ m.tags }
    | .launch => s.setChan ch (if m.ratifies then { y with ratified := y.ratified ++ m.tags } else y)

/-- The valid entries of Craxon circuits, speculation circuits apart, that no placed block holds, in one direction. -/
def State.idleEntries (s : State) (ingress : Bool) : List (Nat × Word × Word) :=
  s.xmap.filter fun e => bit e.2.1 63 && !bit e.2.2 28 && bit e.2.1 62 == ingress &&
    s.chans.all fun c => c.2.src ≠ .ingress e.1 && c.2.dst ≠ .egress e.1

/-- Craxon link slots that no placed block holds apply the `n`th message (R332): their stores drop or relabel tokens, and a
marker crosses each port on whose circuit the other end waits for one. -/
def State.idlePorts (s : State) (n : Nat) (m : Msg) : State :=
  let s1 := (s.idleEntries true).foldl (fun s e => match m.kind with
    | .squash => s.squashStore e.1 m.tags none
    | .free => s.freeStore e.1 (m.tags.filter fun g => decide ((s.root.ent g.toNat).st = .ratified))
    | _ => s) s
  if m.kind.marks then
    (s.idleEntries false).foldl (fun s e => match s.sharedSeq (fld e.2.2 51 42) n with
      | some q => s.queueSeg (portLink (fld e.2.1 55 48)) false (.marker 0 (fld e.2.2 51 42) (fld e.2.1 47 32) q)
      | none => s) s1
  else s1

/-! ### Copy queues, slices, KV areas -/

/-- A core's copy queues apply one message (R195, R324); a token whose copy has started stays. -/
def Core.copyMsg (k : Core) (m : Msg) (fs : List Tag) : Core :=
  let started : Nat → Nat := fun q => if k.engs.any fun e => e.run.any fun r => r.queue = q then 1 else 0
  match m.kind with
  | .squash => { k with queues := k.queues.map fun e => (e.1, { e.2 with
      toks := e.2.toks.take (started e.1) ++ (e.2.toks.drop (started e.1)).filter fun t => !m.tags.contains t.tok.gen }) }
  | .free =>
    let g : Posted → Posted := fun t => { t with tok := Tok.freed fs t.tok }
    { k with
      queues := k.queues.map fun e => (e.1, { e.2 with toks := e.2.toks.map g })
      engs := k.engs.map fun e => { e with run := e.run.map fun r => { r with tok := g r.tok } } }
  | _ => k

/-- Each store of a slice's entries that a ratification relabels checks the read marks of its words (R290). -/
def State.recheck (s : State) (sl : Nat) (es : List BEntry) : State :=
  es.foldl (fun s e =>
    (List.range 8).foldl (fun s w =>
      if e.bytes.any fun b => b.1 / 8 = w then
        let a : Acr := ⟨e.job, e.lseq, e.unit, e.ts, 0⟩
        s.abortAll (2 * s.bisqueCount + 2) (s.conflicts sl a e.line w)
      else s) s) s

/-- A slice's bisque buffers apply one message (R290, R295, R324). -/
def State.sliceMsg (s : State) (sl : Nat) (m : Msg) : State :=
  let ratify : State :=
    let es := s.entries sl
    let hit := es.filter fun e => m.tags.contains e.gen
    (s.setEntries sl (es.map fun e => if m.tags.contains e.gen then { e with gen := 0 } else e)).recheck sl hit
  match m.kind with
  | .squash => s.setEntries sl ((s.entries sl).filter fun e => !m.tags.contains e.gen)
  | .ratify => ratify
  | .launch => if m.ratifies then ratify else s
  | .free => s

/-- A die's KV areas apply one message (R329). -/
def Die.kvMsg (d : Die) (m : Msg) : Die :=
  let ratify : Die := { d with kvSlots := d.kvSlots.map fun e =>
    (e.1, if m.tags.contains e.2.tag then { e.2 with tag := 0 } else e.2) }
  match m.kind with
  | .squash => { d with kvSlots := d.kvSlots.filter fun e => !m.tags.contains e.2.tag }
  | .ratify => ratify
  | .launch => if m.ratifies then ratify else d
  | .free => d

/-! ### The root's heap and the mirrors -/

/-- Tags named, as keys of the generation table. -/
def Msg.keys (m : Msg) : List Nat := m.tags.map (·.toNat)

/-- Entries whose parent is freed have parent 0 (R311). -/
def orphan (tags : List Tag) (g : Tab GenEnt) : Tab GenEnt :=
  g.map fun e => (e.1, if tags.contains e.2.parent then { e.2 with parent := 0 } else e.2)

/-- Nodes of the draft heap or relaunch queue after a message (R313). -/
def nodesMsg (m : Msg) (ns : List HeapNode) : List HeapNode :=
  match m.kind with
  | .squash => ns.filter fun n => !m.tags.contains n.parent
  | .free => ns.map fun n => if m.tags.contains n.parent then { n with parent := 0 } else n
  | _ => ns

/-- The root's draft heap, relaunch queue and waiting thread tokens apply a message (R311, R313, R324). -/
def State.heapMsg (s : State) (m : Msg) : State :=
  let r := s.root
  let r1 : Root := { r with
    heap := nodesMsg m r.heap
    relaunch := nodesMsg m r.relaunch
    gens := if m.kind = .free then orphan m.tags r.gens else r.gens }
  let s1 := { s with root := r1 }
  if m.kind = .squash then
    { s1 with launches := s1.launches.map fun e => (e.1, { e.2 with
        reTok := e.2.reTok.filter fun x => !m.tags.contains x.2.1 }) }
  else s1

/-- The state of tags set in a mirror. -/
def setStates (g : Tab GenEnt) (ks : List Nat) (st : GenSt) : Tab GenEnt :=
  ks.foldl (fun g t => Tab.set g t { Tab.get g t GenEnt.reset with st := st }) g

/-- A mirror of the generation table applies a message (R311, R312, R324). -/
def mirrorMsg (g : Tab GenEnt) (m : Msg) : Tab GenEnt :=
  match m.kind with
  | .launch => match m.ent with
    | some e => m.keys.foldl (fun g t => Tab.set g t { e with st := if m.ratifies then .ratified else .live }) g
    | none => g
  | .ratify => setStates g m.keys .ratified
  | .squash => setStates g m.keys .squashing
  | .free => orphan m.tags (m.keys.foldl Tab.del g)

/-! ### Saved blocks (R352) -/

/-- A change of a saved tile, made as if it stood in its place. -/
def State.onSaved (s : State) (k : Nat) (t : Tile) (f : State → State) : Tile × State :=
  let s1 := f (s.setTile k t)
  (s1.tile k, { s1 with tiles := s.tiles })

/-- The input buffers of a saved pool apply a message, with their channels' credits. -/
def State.savedInputs (s : State) (k : Nat) (p : Pool) (m : Msg) (fs : List Tag) : State :=
  (List.range 4).foldl (fun s i =>
    let q := ((s.tile k).pool p).inp i
    match q.chan, m.kind with
    | some ch, .squash =>
      let n := (q.queue.filter fun t => m.tags.contains t.gen).length
      (s.modInput ch k p i fun q => { q with queue := q.queue.filter fun t => !m.tags.contains t.gen }).dropped ch n true
    | some ch, .free => s.modInput ch k p i fun q => { q with queue := q.queue.map (Tok.freed fs) }
    | _, _ => s) s

/-- A saved tile applies the `n`th message (R352). -/
def State.savedTile (s : State) (k n : Nat) (m : Msg) : State :=
  [Pool.pe, Pool.mx, Pool.ag].foldl (fun s p =>
    let fs := ((s.tile k).pool p).ratified.filter m.tags.contains
    ((s.savedInputs k p m fs).poolMsg k p m).markOuts k p n m) s

/-- A saved block applies a message, the `q`th counted from 1. -/
def State.savedMsg (s : State) (n q : Nat) (m : Msg) : State :=
  match Tab.get? s.frames n with
  | none => s
  | some f =>
    let (ts, s1) := f.tiles.foldl (fun acc kt =>
      let (t, s2) := acc.2.onSaved kt.1 kt.2 fun s => s.savedTile kt.1 q m
      (acc.1 ++ [(kt.1, t)], s2)) (([] : List (Nat × Tile)), s)
    { s1 with frames := Tab.set s1.frames n { f with tiles := ts } }

/-! ### Speculation circuits (R378) -/

/-- The XMAP entry of the speculation circuit with a node for a job, in one direction (R378). -/
def State.specEntry (s : State) (node job : Nat) (ingress : Bool) : Option Nat :=
  (s.xmap.find? fun e => bit e.2.1 63 && bit e.2.2 28 && bit e.2.1 62 == ingress && fld e.2.2 51 42 = node &&
    fld e.2.1 61 56 = job).map (·.1)

/-- A token sent on the speculation circuit to a node, under the circuit's credits; none where it has to wait. -/
def State.specSend (s : State) (node job : Nat) (t : Tok) : Option State :=
  (s.specEntry node job false).bind fun e =>
    let n := Tab.get s.xcredits e 0
    if n = 0 then none
    else
      let w := (Tab.get s.xmap e (0, 0)).1
      some ({ s with xcredits := Tab.set s.xcredits e (n - 1) }.queueSeg (portLink (fld w 55 48)) false
        (.tok 0 node (fld w 47 32) t 0))

/-- A token of a speculation circuit: form in lane 7, payload in the low lanes (R378). -/
def specTok (form : Nat) (ws : List Word) : Tok :=
  let l := Lanes.ofFn fun i => if i = 7 then w64 form else ws.getD i 0
  ⟨l, 0, BitVec.ofNat 24 (14 * 2 ^ 20), false, 0xFF, 0, 15, 5⟩

def MsgKind.code : MsgKind → Nat
  | .launch => 0
  | .ratify => 1
  | .squash => 2
  | .free => 3

/-- MASK of a message (R323). -/
def Msg.maskBits (m : Msg) : Nat :=
  match m.kind with
  | .launch => (m.tags.headD 0).toNat + ((m.ent.elim 0 (·.parent)) : Tag).toNat * 256 + b01 m.ratifies * 65536
  | _ => m.tags.eraseDups.foldl (fun n t => n ||| 2 ^ t.toNat) 0

/-- The 300 bits of a message with its SEQ, as lanes 0 to 4 (R323, R378). -/
def Msg.lanes (m : Msg) (seq : Nat) : List Word :=
  let n := m.maskBits + m.job * 2 ^ 259 + m.kind.code * 2 ^ 265 + seq % 2 ^ 32 * 2 ^ 268
  (List.range 5).map fun i => BitVec.ofNat 64 (n / 2 ^ (64 * i))

/-! ### Messages at endpoints (R323 to R325) -/

/-- How many messages an endpoint has applied. -/
def State.seqOf (s : State) (e : Endpoint) : Nat :=
  match e with
  | .pool k p => ((s.tile k).pool p).seq
  | .chan c => (Tab.get? s.chans c).elim 0 (·.seq)
  | x => s.epAt x

/-- The number of applied messages of an endpoint without a home elsewhere, set. -/
def State.setEp (s : State) (e : Endpoint) (n : Nat) : State :=
  { s with epSeq := (e, n) :: s.epSeq.filter fun x => x.1 ≠ e }

/-- Die of a region key. -/
def ridDie (rid : Nat) : Nat := rid / 2 ^ 20

/-- The dies of the ends of a channel. -/
def State.chanDies (s : State) (y : Chan) : List Nat :=
  let ofBlock : Nat → List Nat := fun b => ((Tab.get? s.blocks b).map (·.die)).toList
  (match y.src with
    | .out k _ _ => [tileDie k]
    | .entry b => ofBlock b
    | .ingress _ => []) ++
  (match y.dst with
    | .inp k _ _ => [tileDie k]
    | .done b => ofBlock b
    | .egress _ => [])

/-- The dies whose mirror applies a message before the endpoint does (R311). -/
def State.epDies (s : State) (e : Endpoint) : List Nat :=
  match e with
  | .pool k _ => [tileDie k]
  | .chan c => (Tab.get? s.chans c).elim [] s.chanDies
  | .copyQueues c => [c / 8]
  | .bisque sl => [sl / 8]
  | .kv d => [d]
  | .heap => []
  | .mirror _ => []
  | .saved f => ((Tab.get? s.frames f).map fun x => ridDie x.rid).toList
  | .peer _ => []

/-- Whether an endpoint is there. A power-gated tile holds nothing; a tile that wakes has applied every message. -/
def State.epLive (s : State) (e : Endpoint) : Bool :=
  match e with
  | .pool k _ => !(s.tile k).gated
  | .chan c => (Tab.get? s.chans c).isSome
  | .copyQueues c => c < 64
  | .bisque sl => sl < 64
  | .kv d => d < 8
  | .heap => true
  | .mirror d => d < 8
  | .saved f => (Tab.get? s.frames f).isSome
  | .peer n => s.root.peers.contains n

/-- A tile lies west of another in its row of a die. -/
def westOf (j k : Nat) : Bool := tileDie j = tileDie k && tileY j = tileY k && decide (tileX j < tileX k)

/-- The pools of the awake tiles that a test singles out, and the channels that end there, have applied message `n`. -/
def State.tilesPast (s : State) (n : Nat) (which : Nat → Bool) : Bool :=
  (s.tiles.all fun kt => !which kt.1 || kt.2.gated || [kt.2.pe, kt.2.mx, kt.2.ag].all fun x => n < x.seq) &&
    s.chans.all fun c => match c.2.dst with
      | .inp k _ _ => !which k || n < c.2.seq
      | _ => true

/-- Message `n` may be delivered to an endpoint: to the tiles of a row from west to east, and to a die's KV areas and slices
after every tile of it (R334). -/
def State.delivered (s : State) (e : Endpoint) (n : Nat) : Bool :=
  match e with
  | .pool k _ => s.tilesPast n (westOf · k)
  | .chan c => (Tab.get? s.chans c).elim true fun y => match y.dst with
    | .inp k _ _ => s.tilesPast n (westOf · k)
    | _ => true
  | .kv d => s.tilesPast n fun k => tileDie k = d
  | .bisque sl => s.tilesPast n fun k => tileDie k = sl / 8
  | _ => true

/-- The next message of an endpoint, where it may apply it now: the heap first, then the mirrors, then the rest
(R311, R323, R334). -/
def State.nextMsg (s : State) (e : Endpoint) : Option Msg :=
  let n := s.seqOf e
  (s.root.log[n]?).bind fun m =>
    let inner : Bool := e = .heap || (n < s.epAt .heap && ((s.epDies e).all fun d => n < s.epAt (.mirror d)) &&
      s.delivered e n)
    if s.epLive e && inner then some m else none

/-- An endpoint applies a message, its `n`th counted from 1 (R324). -/
def State.applyMsg (s : State) (e : Endpoint) (n : Nat) (m : Msg) : State :=
  let fs := (s.tagsAt e).2.filter m.tags.contains
  match e with
  | .pool k p => ((s.poolMsg k p m).markOuts k p n m).modPool k p fun x => { x with seq := n }
  | .chan c => s.chanMsg c n m
  | .copyQueues c => (s.setCore c ((s.core c).copyMsg m fs)).setEp e n
  | .bisque sl => (s.setEp e n).sliceMsg sl m
  | .kv d => (s.setDie d ((s.die d).kvMsg m)).setEp e n
  | .heap => ((s.heapMsg m).idlePorts n m).setEp e n
  | .mirror d => (s.setDie d { s.die d with mirror := mirrorMsg (s.die d).mirror m }).setEp e n
  | .saved f => (s.savedMsg f n m).setEp e n
  | .peer node => match s.specSend node m.job (specTok 0 (m.lanes (n - 1))) with
    | some s1 => s1.setEp e n
    | none => s

/-- An endpoint applies its next message if it is of a kind. -/
def State.takeMsg (s : State) (e : Endpoint) (kd : MsgKind) : State :=
  match s.nextMsg e with
  | some m => if m.kind = kd then s.applyMsg e (s.seqOf e + 1) m else s
  | none => s

/-- MSG_LAUNCH (R324). -/
def execMsgLaunch (ep : Endpoint) (s : State) : Host.Outcome State Fault Refusal := .next (s.takeMsg ep .launch)

/-- MSG_RATIFY (R324). -/
def execMsgRatify (ep : Endpoint) (s : State) : Host.Outcome State Fault Refusal := .next (s.takeMsg ep .ratify)

/-- MSG_SQUASH (R324). -/
def execMsgSquash (ep : Endpoint) (s : State) : Host.Outcome State Fault Refusal := .next (s.takeMsg ep .squash)

/-- MSG_FREE (R324). -/
def execMsgFree (ep : Endpoint) (s : State) : Host.Outcome State Fault Refusal := .next (s.takeMsg ep .free)

/-! ### Markers and acknowledgement (R326) -/

/-- A marker reaches the end of a channel; from the end of a Craxon egress it goes on to a package that applies the message too
(R332). -/
def State.markerEnd (s : State) (ch n : Nat) (y : Chan) : State :=
  let s1 := s.setChan ch { y with marked := max y.marked n }
  match y.dst with
  | .egress e =>
    let w := Tab.get s.xmap e (0, 0)
    (s.sharedSeq (fld w.2 51 42) n).elim s1 fun q =>
      s1.queueSeg (portLink (fld w.1 55 48)) false (.marker 0 (fld w.2 51 42) (fld w.1 47 32) q)
  | _ => s1

/-- SQUASH_MARKER (R326): the marker at the head of a channel reaches its end. -/
def execSquashMarker (ch : Nat) (s : State) : Host.Outcome State Fault Refusal :=
  match Tab.get? s.chans ch with
  | some y => match y.items with
    | .marker n :: rest => .next (s.markerEnd ch n { y with items := rest })
    | _ => .next s
  | none => .next s

/-- Beats of a list of items. -/
def beatsIn (items : List Item) : Nat := items.foldl (fun n it => n + it.beats) 0

/-- Beats of a channel on the links between chiplets. -/
def State.linkBeats (s : State) (ch : Nat) : Nat :=
  let g : Seg → Nat := fun x => match x with
    | .tok c _ _ _ r => if c = ch then r + 1 else 0
    | _ => 0
  s.links.foldl (fun n l => if innerKey l.1 then n + ((l.2.pending ++ (l.2.segs.map (·.2)).flatten).map g).sum else n) 0

/-- The marker of message `n` has arrived at the end of a channel; none comes any more from a pool that has let go of it, once
nothing stands on its way, or from a package that has left the domain (R326, R332). -/
def State.markedPast (s : State) (ch n : Nat) (y : Chan) : Bool :=
  n < y.marked || match y.src with
    | .out k p o => (((s.tile k).pool p).out o).chan ≠ some ch && y.items.isEmpty && y.stages.all (·.isEmpty) &&
        s.linkBeats ch = 0
    | .entry _ => false
    | .ingress e => !s.inDomain (s.entryNode e)

/-- A pool holds no result in flight of a generation that a message names. -/
def PoolSt.clearOf (x : PoolSt) (tags : List Tag) : Bool := x.inflight.all fun e => !(x.dead.contains e.gen && tags.contains e.gen)

/-- Every endpoint has acknowledged message `n` of the log (R326, R332). -/
def State.acked (s : State) (n : Nat) : Bool :=
  match s.root.log[n]? with
  | none => false
  | some m =>
    let past : Endpoint → Bool := fun e => n < s.epAt e
    past .heap && ((List.range 8).all fun d => past (.mirror d) && past (.kv d)) &&
      ((List.range 64).all fun i => past (.bisque i) && past (.copyQueues i) &&
        (s.core i).engs.all fun e => e.run.all fun r => !m.tags.contains r.tok.tok.gen) &&
      (s.tiles.all fun kt => kt.2.gated || [kt.2.pe, kt.2.mx, kt.2.ag].all fun x => n < x.seq && x.clearOf m.tags) &&
      (s.chans.all fun c => n < c.2.seq && s.markedPast c.1 n c.2) &&
      (s.frames.all fun f => past (.saved f.1)) &&
      (s.root.peers.all fun p => n < Tab.get s.root.peerAck p 0)

/-- FREE_COMPLETE (R326, R332): the tags of a FREE become free; a peer acknowledges a message to its home. -/
def execFreeComplete (seq : Nat) (s : State) : Host.Outcome State Fault Refusal :=
  match s.root.log[seq]? with
  | none => .next s
  | some m =>
    if s.root.frees.contains seq && s.acked seq then
      let r := s.root
      let gens := if m.kind = .free then m.keys.foldl Tab.del r.gens else r.gens
      let s1 := { s with root := { r with frees := r.frees.erase seq, gens := gens } }
      match m.home, r.joined with
      | some h, some (node, _) => .next ((s1.specSend node m.job (specTok 1 [w64 h])).getD s)
      | _, _ => .next s1
    else .next s

end Sys2Proof.Machine
end

