-- ==== Sys2Proof/Machine/Speculation.lean ====
section
/-! DEFINITION. Speculation: the instructions that guess, ratify and withdraw (R317 to R322), the root that handles their
requests (R312 to R314, R318, R319), and the launch unit (R315, R291). Log entry 26. -/

namespace Sys2Proof.Machine

open Sys2Proof

/-! ### Requests (R317) -/

/-- A unit of a launch has finished, by a run of GEN 0 or of a ratified generation (R35, R293, R316). -/
def State.unitFinished (s : State) (l : Launch) (i : Nat) : Bool :=
  s.runFinished l i 0 ||
    (l.unit i).runs.any fun r => r.gen != 0 && decide ((s.root.ent r.gen.toNat).st = .ratified) && s.runFinished l i r.gen

/-- The first unit from `i` on that has not finished; `n` are looked at. -/
def State.unfinishedFrom (s : State) (l : Launch) (i : Nat) : (n : Nat) → Nat
  | 0 => i
  | n + 1 => if s.unitFinished l i then s.unfinishedFrom l (i + 1) n else i

/-- The unit of a firing (R314): the one its pool has bound, else the lowest unfinished unit of its launch. -/
def State.firingUnit (s : State) (c : Ctx) : Nat :=
  match c.x.bind with
  | some b => b.unit
  | none => (s.launchOf c.k).elim 0 fun l =>
    let low := (l.blks.map (s.finishedBy l.lseq)).foldl min l.unitCount
    s.unfinishedFrom l (max l.count low) (l.units.length + 1)

/-- A request to the root (R317). -/
def State.rootReq (s : State) (c : Ctx) (g : BitVec 8) (a0 a1 b0 b1 : Word) : State :=
  let q : RootReq := ⟨c.o, c.f.md.toNat, g, (s.blockOf c.k).elim 0 (·.lseq), (s.blockOf c.k).elim 0 (·.job),
    s.firingUnit c, a0, a1, b0, b1⟩
  { s with root := { s.root with reqs := s.root.reqs ++ [q] } }

/-- A firing that sends a request, or POISON_CTL in its place where a source is poisoned (R317). -/
def Ctx.ask (c : Ctx) (h : Hdr) (sends : Bool) (a0 a1 b0 b1 : Word) : Done :=
  if h.psn then { c.plain with after := some (c.flt 0x21 (w64 (dstCode c.f.d)) 0 0) }
  else if sends then { c.plain with eff := fun s => s.rootReq c h.gen a0 a1 b0 b1 }
  else c.plain

/-- SPEC is accepted (R50). -/
def State.specOn (s : State) : Bool := bit (s.host.accept.getD 0 0) 1

/-- An entry of the mirror that a firing sees. -/
def Ctx.ent (c : Ctx) (t : Nat) : GenEnt := Tab.get c.mirror t GenEnt.reset

/-- SPEC_POS (R318): a firing of a generation names the position after its own. -/
def Ctx.checkPos (c : Ctx) (h : Hdr) (v : Nat) : Except Flt Unit :=
  let p := (c.ent h.gen.toNat).pos
  if !h.psn && h.gen != 0 && v != p + 1 then .error (c.flt 0x80 (w64 v ||| place h.gen.toNat 32) (w64 p) 0) else .ok ()

/-- A proposal of a token for a position, lanes 0 and 1 of A: the handler reads the token id in bits 31:0 of the second, which a
request carries whole (R318, R378). -/
def Ctx.vid (c : Ctx) : Except Flt (Word × Word) := do
  let a ← c.convA .vid
  .ok (a.lanes.get 0, a.lanes.get 1)

/-- GUESS (R318). -/
def execGuess (f : Fields) (s : State) : Host.Outcome State Fault Refusal :=
  issue .guess f s fun c => do
    let (p, id) ← c.vid
    let b ← c.intB
    let h ← c.header
    c.checkPos h (fld b 31 0)
    .ok (c.ask h s.specOn p id b 0)

/-- RATIFY (R319). -/
def execRatify (f : Fields) (s : State) : Host.Outcome State Fault Refusal :=
  issue .ratify f s fun c => do
    let (p, id) ← c.vid
    let b ← c.intB
    let h ← c.header
    c.checkPos h (fld b 31 0)
    .ok (c.ask h true p id b 0)

def GenSt.code : GenSt → Nat
  | .free => 0
  | .live => 1
  | .ratified => 2
  | .squashing => 3

/-- The lanes that GENGET mints for a tag of a job (R320); none for a tag that is not there. -/
def State.mint (s : State) (m : Tab GenEnt) (job t : Nat) : Option (List Word) :=
  let e := Tab.get m t GenEnt.reset
  if t = 0 then some [ones, ones, ones, ones, ones, w64 (GenSt.code .ratified)]
  else if (e.st = .live || e.st = .ratified) && e.job = job then
    let ts := (Tab.get? s.launches e.lseq).elim 0 fun l => l.ts e.pos
    some [w64 ts, w64 e.pos, w64 e.lseq, w64 e.tokid, w64 e.parent.toNat, w64 e.st.code]
  else none

/-- GENGET (R320): `.self` reads no lane of A, and a poisoned source raises POISON_CTL with the result (R136, R317). -/
def execGenget (f : Fields) (s : State) : Host.Outcome State Fault Refusal :=
  issue .genget f s fun c => do
    let a ← if f.md.getLsbD 0 then .ok 0 else c.intA
    let h ← c.header
    let t := if f.md.getLsbD 0 then c.a.gen else a.setWidth 8
    let d := c.result (match s.mint c.mirror ((s.blockOf c.k).elim 0 (·.job)) t.toNat with
      | some ws => dataTok (Lanes.ofList ws) ⟨0x3F, h.psn, t⟩ 1
      | none => dataTok Lanes.zero ⟨0, h.psn, 0⟩ 1)
    .ok { d with after := if h.psn then some (c.flt 0x21 (w64 (dstCode f.d)) 0 0) else d.after }

/-- SPEC_SQ (R321, R322). -/
def Ctx.specSq (c : Ctx) (t : Nat) (g : BitVec 8) : Flt := c.flt 0x82 (w64 t ||| place g.toNat 8) 0 0

/-- SQREQ (R321). -/
def execSqreq (f : Fields) (s : State) : Host.Outcome State Fault Refusal :=
  issue .sqreq f s fun c => do
    let a ← c.intA
    let h ← c.header
    let t := a.setWidth 8
    if !h.psn && inLineage c.mirror t h.gen then .error (c.specSq t.toNat h.gen)
    else .ok (c.ask h true a (maskLanes c.a).l1 0 0)

/-- DHPUSH of a node (R322). -/
def execDhpush (f : Fields) (s : State) : Host.Outcome State Fault Refusal :=
  issue .dhpush f s fun c => do
    let (p, id) ← c.vid
    let b ← c.convB .int
    let h ← c.header
    let t := (b.lanes.get 1).setWidth 8
    if !h.psn && !inLineage c.mirror t h.gen then .error (c.specSq t.toNat h.gen)
    else .ok (c.ask h s.specOn p id (lane0 b) (w64 t.toNat))

/-- SPEC_CFG (R322). -/
def Ctx.specCfg (c : Ctx) (a : Word) : Flt := c.flt 0x81 (w64 (0xD4 + c.f.md.toNat * 256)) a 0

/-- The package holds a domain, has joined one, or a firing has asked for one (R314, R322). -/
def State.domainTaken (s : State) : Bool :=
  s.root.domain.isSome || s.root.joined.isSome ||
    s.root.reqs.any fun q => decide (q.op = .dhpushCfg) || decide (q.op = .dhpushJoin)

/-- DHPUSH.CFG (R322). -/
def execDhpushCfg (f : Fields) (s : State) : Host.Outcome State Fault Refusal :=
  issue .dhpushCfg f s fun c => do
    let a ← c.intA
    let b ← c.intB
    let h ← c.header
    let l := fld a 35 32
    let n := fld b 7 0
    let bad : Bool := h.gen != 0 || fld a 31 27 != 0 || fld a 63 36 != 0 || fld a 23 23 != 0 || fld a 2 0 != 0 ||
      l = 0 || 8 < l || fld b 63 8 != 0 || n = 0 || n = 255 || 2 ^ 23 < fld a 22 0 + 8 * 2 ^ l || s.domainTaken
    if !h.psn && bad then .error (c.specCfg a) else .ok (c.ask h true a 0 b 0)

/-- DHPUSH.JOIN (R322, R378). -/
def execDhpushJoin (f : Fields) (s : State) : Host.Outcome State Fault Refusal :=
  issue .dhpushJoin f s fun c => do
    let a ← c.intA
    let h ← c.header
    let node := fld a 9 0
    let job := (s.blockOf c.k).elim 0 (·.job)
    let bad : Bool := h.gen != 0 || fld a 63 10 != 0 || s.domainTaken || (s.specEntry node job true).isNone ||
      (s.specEntry node job false).isNone
    if !h.psn && bad then .error (c.specCfg a) else .ok (c.ask h true a 0 0 0)

/-! ### The root (R312 to R319) -/

/-- CUMP of a tag, 1.0 for tag 0 (R318). -/
def Root.cump (r : Root) (g : Nat) : Word := if g = 0 then wfOne else (r.ent g).cump

/-- A tag is 0 or ratified at the root (R311). -/
def Root.isRatified (r : Root) (g : Nat) : Bool := g = 0 || (r.ent g).st = .ratified

/-- Children of a tag at a position, live or ratified, in the speculating launch (R318). -/
def Root.kids (r : Root) (lseq g v : Nat) : List Nat :=
  (r.gens.filter fun e => e.2.parent.toNat = g && e.2.pos = v && e.2.lseq = lseq &&
    (decide (e.2.st = .live) || decide (e.2.st = .ratified))).map (·.1)

/-- Relaunches queued for a tag and position, which count as its children (R319). -/
def Root.queued (r : Root) (g v : Nat) : List HeapNode := r.relaunch.filter fun n => n.parent.toNat = g && n.pos = v

/-- A node ranks above another (R313). -/
def HeapNode.above (x y : HeapNode) : Bool :=
  let a := Val.ofWf x.cump
  let b := Val.ofWf y.cump
  b.lt a || (!a.lt b && (x.pos < y.pos || (x.pos = y.pos && (x.tokid < y.tokid || (x.tokid = y.tokid && x.push < y.push)))))

/-- The lowest-ranked node of a list. -/
def lowestNode : List HeapNode → Option HeapNode
  | [] => none
  | n :: rest => match lowestNode rest with
    | some m => if n.above m then some m else some n
    | none => some n

/-- The highest-ranked node of a list. -/
def highestNode : List HeapNode → Option HeapNode
  | [] => none
  | n :: rest => match highestNode rest with
    | some m => if n.above m then some n else some m
    | none => some n

/-- A push into the heap (R313). -/
def Root.pushNode (r : Root) (n : HeapNode) : Root :=
  let r1 := { r with pushes := r.pushes + 1 }
  if r.heap.length < 64 then { r1 with heap := r.heap ++ [n] }
  else match lowestNode r.heap with
    | some m => if n.above m then { r1 with heap := r.heap.filter (fun x => x != m) ++ [n] } else r1
    | none => r1

/-- The factor of a probability (R318). -/
def clampProb (p : Val) : Val :=
  match p with
  | .nan => .fin 0 0
  | v => if v.lt (.fin 0 0) then .fin 0 0 else if (Val.fin 1 0).lt v then .fin 1 0 else v

/-- CUMP × q, rounded (R219, R318). -/
def cumpTimes (c : Word) (p : Word) : Word :=
  match Val.ofWf c, clampProb (Val.ofWf p) with
  | .fin m e, .fin n f => roundWf (m * n) (e + f) 0
  | x, _ => x.toWf 0

/-- The last line of the GUESS handler (R318). -/
def Root.push (r : Root) (g v id : Nat) (p : Word) : Root :=
  r.pushNode ⟨BitVec.ofNat 8 g, v, id, cumpTimes (r.cump g) p, r.pushes⟩

/-- A tag as the root reads it in a request: one whose FREE after ratification has been issued is 0 (R324). -/
def Root.current (r : Root) (g : Nat) : Nat :=
  if decide ((r.ent g).st = .ratified) && r.frees.any fun n => (r.log[n]?).elim false fun m => m.keys.contains g then 0 else g

/-- The tags whose chain of CONF bits reaches a tag through live descendants (R312). -/
def confReaches (m : Tab GenEnt) (t : Nat) : (fuel g : Nat) → Bool
  | 0, _ => false
  | n + 1, g =>
    let e := Tab.get m g GenEnt.reset
    g = t || (g != 0 && e.conf && decide (e.st = .live) && confReaches m t n e.parent.toNat)

/-- A live generation ratified, with the descendants that its message ratifies too (R312). -/
def State.ratifyGen (s : State) (t : Nat) : State :=
  let r := s.root
  if (r.ent t).st = .live then
    let ts := (r.gens.map (·.1)).filter fun g => confReaches r.gens t 257 g
    let r1 := ts.foldl (fun r g => r.setSt g .ratified) r
    { s with root := r1.issue ⟨.ratify, (r.ent t).job, ts.map (BitVec.ofNat 8), none, false, none⟩ }
  else s

/-- A request's launch against the domain (R317). -/
inductive DomAns where
  | proceed (d : Domain)
  | drop
  | report

def Root.domainOf (r : Root) (lseq : Nat) : DomAns :=
  match r.domain with
  | some d => if d.lseq = lseq then .proceed d else if r.ended.contains lseq then .drop else .report
  | none => if r.ended.contains lseq then .drop else .report

/-- The next request, if it is of one of some opcodes and the heap has applied every message so far. -/
def State.takeRoot (s : State) (ops : List Op) : Option (RootReq × State) :=
  match s.root.reqs with
  | q :: rest =>
    if ops.contains q.op && s.epAt .heap = s.root.log.length then
      some ({ q with gen := BitVec.ofNat 8 (s.root.current q.gen.toNat) }, { s with root := { s.root with reqs := rest } })
    else none
  | [] => none

/-- A request of a peer's launch goes to the home root (R332, R378); none where it has to wait for a credit. -/
def State.forwardReq (s : State) (node : Nat) (q : RootReq) : Option State :=
  s.specSend node q.job (specTok 2 [w64 (q.op.code + q.md * 256 + q.gen.toNat * 65536 + q.job * 2 ^ 24), q.a0, q.a1, q.b0])

/-- SPEC_CFG of a request that finds no domain, reported by the root (R317, R333). -/
def State.noDomain (s : State) (q : RootReq) : State :=
  s.report 0x81 (some q.lseq) q.job ones (w64 (q.op.code + q.md * 256)) q.a0 0

/-- A request of GUESS, RATIFY, SQREQ or a node push at the root: discarded under a GEN that is squashing or free, sent
home by a peer, tested against the domain, or handled (R317). -/
def State.rootHandle (s : State) (ops : List Op) (body : Domain → RootReq → State → State) : State :=
  match s.takeRoot ops with
  | none => s
  | some (q, s1) =>
    let st := (s1.root.ent q.gen.toNat).st
    if q.gen != 0 && (st = .squashing || st = .free) then s1
    else match s1.root.joined.filter fun j => j.2 = q.lseq with
      | some (node, _) => (s1.forwardReq node q).getD s
      | none => match s1.root.domainOf q.lseq with
        | .proceed d => body d q s1
        | .drop => s1
        | .report => s1.noDomain q

/-- UNITS of the speculating launch. -/
def State.unitsOf (s : State) (lseq : Nat) : Nat := (Tab.get? s.launches lseq).elim 0 (·.unitCount)

/-- The heap without some nodes. -/
def State.dropNodes (s : State) (gone : HeapNode → Bool) : State :=
  { s with root := { s.root with heap := s.root.heap.filter fun n => !gone n } }

/-- The handler of GUESS (R318). -/
def guessBody (d : Domain) (q : RootReq) (s : State) : State :=
  let g := q.gen.toNat
  let v := fld q.b0 31 0
  let id := fld q.a1 31 0
  if s.unitsOf d.lseq ≤ v then s
  else
    let s1 :=
      if q.md % 2 = 1 then
        (s.dropNodes fun n => n.parent.toNat = g && n.pos = v && n.tokid != id).issueSquash
          ((s.root.kids d.lseq g v).filter fun c => (s.root.ent c).tokid != id && !(s.root.ent c).conf)
      else s
    let there : Bool := ((s1.root.kids d.lseq g v).any fun c => (s1.root.ent c).tokid = id) ||
      ((s1.root.queued g v).any fun n => n.tokid = id) ||
      s1.root.heap.any fun n => n.parent.toNat = g && n.pos = v && n.tokid = id
    if there then s1 else { s1 with root := s1.root.push g v id q.a0 }

/-- ROOT_GUESS (R318). -/
def execRootGuess (s : State) : Host.Outcome State Fault Refusal := .next (s.rootHandle [.guess] guessBody)

/-- The handler of RATIFY (R319). -/
def ratifyBody (d : Domain) (q : RootReq) (s : State) : State :=
  let g := q.gen.toNat
  let v := fld q.b0 31 0
  let id := fld q.a1 31 0
  let cs := s.root.kids d.lseq g v
  let qs := s.root.queued g v
  let s1 := s.dropNodes fun n => n.parent.toNat = g && n.pos = v
  let chosen := ((cs.filter fun c => (s.root.ent c).conf).map fun c => (s.root.ent c).tokid) ++ qs.map (·.tokid)
  match chosen.find? fun t => t != id with
  | some t => s1.report 0x87 (some d.lseq) d.job ones (w64 g ||| place v 32) (w64 t ||| place id 32) 0
  | none =>
    let dropQ : State → State := fun s => { s with root := { s.root with
      relaunch := s.root.relaunch.filter fun n => !(n.parent.toNat = g && n.pos = v) } }
    if s.unitsOf d.lseq ≤ v || id = 0xFFFFFFFF then dropQ (s1.issueSquash cs)
    else match cs.find? fun c => (s.root.ent c).tokid = id with
      | some c =>
        let r1 : Root := { s1.root with gens := Tab.set s1.root.gens c { s1.root.ent c with conf := true } }
        let s2 := { s1 with root := r1 }.issueSquash (cs.filter fun x => x != c)
        if s2.root.isRatified g then s2.ratifyGen c else s2
      | none =>
        let s2 := s1.issueSquash cs
        if !qs.isEmpty then s2
        else { s2 with root := { s2.root with relaunch := s2.root.relaunch ++
          [⟨q.gen, v, id, s2.root.cump g, s2.root.pushes⟩] } }

/-- ROOT_RATIFY (R319). -/
def execRootRatify (s : State) : Host.Outcome State Fault Refusal := .next (s.rootHandle [.ratify] ratifyBody)

/-- ROOT_SQREQ (R321): a live generation and its descendants. -/
def execRootSqreq (s : State) : Host.Outcome State Fault Refusal :=
  .next (s.rootHandle [.sqreq] fun _ q s =>
    let t := fld q.a0 7 0
    if (s.root.ent t).st = .live then s.issueSquash [t] else s)

/-- The handler of a node push (R322); a parent that is no longer there takes no node. -/
def pushBody (_ : Domain) (q : RootReq) (s : State) : State :=
  let g := s.root.current (fld q.b1 7 0)
  let st := (s.root.ent g).st
  if g = 0 || st = .live || st = .ratified then { s with root := s.root.push g (fld q.b0 31 0) (fld q.a1 31 0) q.a0 } else s

/-- The packages that the home serves as peers: those whose two entries for the domain's job are valid (R332, R378). -/
def State.specPeers (s : State) (job : Nat) : List Nat :=
  let ends : Bool → List Nat := fun ing => (s.xmap.filter fun e =>
    bit e.2.1 63 && bit e.2.2 28 && bit e.2.1 62 == ing && fld e.2.1 61 56 = job).map fun e => fld e.2.2 51 42
  ((ends true).filter (ends false).contains).eraseDups

/-- The peers of the domain brought up to date: a new one receives the messages that follow, one whose entries are gone
is served no more. The peers of a domain that has ended receive its last messages until then, or until the next domain
(R332, R378). -/
def State.servePeers (s : State) : State :=
  let ps := match s.root.domain with
    | some d => s.specPeers d.job
    | none => s.root.peers.filter fun p => (List.range 64).any fun j => (s.specPeers j).contains p
  let fresh := ps.filter fun p => !s.root.peers.contains p
  let s1 := { s with root := { s.root with
    peers := ps
    peerAck := fresh.foldl (fun t p => Tab.set t p s.root.log.length) s.root.peerAck } }
  fresh.foldl (fun s p => s.setEp (.peer p) s.root.log.length) s1

/-- Whether a launch has retired or is being cancelled. -/
def State.launchOver (s : State) (lseq : Nat) : Bool :=
  (Tab.get? s.launches lseq).elim true fun l => decide (l.st = .retired) || l.cause.isSome

/-- ROOT_DHPUSH (R314, R322): a push, the set-up of a domain, or a join. -/
def execRootDhpush (s : State) : Host.Outcome State Fault Refusal :=
  match s.takeRoot [.dhpushCfg, .dhpushJoin] with
  | none => .next (s.rootHandle [.dhpush] pushBody)
  | some (q, s1) =>
    if s1.launchOver q.lseq then .next s1
    else if q.op = .dhpushCfg then
      let d : Domain := ⟨q.lseq, q.job, q.unit, fld q.a0 26 24, fld q.a0 22 0, fld q.a0 35 32, fld q.b0 7 0, 0⟩
      .next { s1 with root := { s1.root with domain := some d } }.servePeers
    else .next { s1 with root := { s1.root with joined := some (fld q.a0 9 0, q.lseq) } }

/-! ### Freeing and launching (R312, R315, R326) -/

/-- Word address of a slot of the launch ring. -/
def Domain.slot (d : Domain) (rseq : Nat) : Nat := chipBase d.die / 8 + d.base + 8 * (rseq % 2 ^ d.log2)

/-- Every word of a slot is empty. -/
def State.slotClear (s : State) (d : Domain) (rseq : Nat) : Bool :=
  (List.range 8).all fun i => !s.mem.isFull (d.slot rseq + i)

/-- The record slot of a generation is empty: always without a record or after its domain's end (R312). -/
def State.recordGone (s : State) (e : GenEnt) : Bool :=
  match e.rseq, s.root.domain with
  | some n, some d => d.lseq ≠ e.lseq || n + 2 ^ d.log2 < d.rseq || s.slotClear d n
  | _, _ => true

/-- The last SQUASH that named a tag. -/
def Root.squashSeq (r : Root) (t : Nat) : Option Nat :=
  ((List.range r.log.length).filter fun n => (r.log[n]?).elim false fun m => decide (m.kind = .squash) && m.keys.contains t).getLast?

/-- A tag whose FREE is due (R312, R326); that of the home's root is the home's to free (R332). -/
def State.freeDue (s : State) (t : Nat) (e : GenEnt) : Bool :=
  let named := s.root.frees.any fun n => (s.root.log[n]?).elim false fun m => decide (m.kind = .free) && m.keys.contains t
  !named && !e.remote && s.recordGone e && match e.st with
    | .ratified => (Tab.get? s.launches e.lseq).elim true fun l => decide (l.st = .retired) || (l.unit e.pos).committed
    | .squashing => (s.root.squashSeq t).elim true s.acked
    | _ => false

/-- FREE of every tag that is due, one message a job. -/
def State.issueFrees (s : State) : State :=
  let due := s.root.gens.filter fun e => s.freeDue e.1 e.2
  (due.map (·.2.job)).eraseDups.foldl (fun s j =>
    let tags := (due.filter fun e => e.2.job = j).map fun e => BitVec.ofNat 8 e.1
    { s with root := { s.root.issue ⟨.free, j, tags, none, false, none⟩ with
      frees := s.root.frees ++ [s.root.log.length] } }) s

/-- The lowest free tag (R315). -/
def Root.freeTag (r : Root) : Option Nat :=
  let t := Tab.freeFrom (r.gens.filter fun e => e.1 != 0) 1
  if t < 256 then some t else none

/-- LAUNCH of a tag with its entry (R312, R315): a fresh run of its unit. -/
def State.issueLaunch (s : State) (t : Nat) (e : GenEnt) (ratifies : Bool) : State :=
  let g := BitVec.ofNat 8 t
  let r := { s.root with gens := Tab.set s.root.gens t { e with st := if ratifies then .ratified else .live } }
  let s1 := { s with root := r.issue ⟨.launch, e.job, [g], some e, ratifies, none⟩ }
  s1.modUnit e.lseq e.pos fun u => { u with
    runs := u.runs.filter fun x => x.gen != g
    retv := u.retv.filter fun x => x.1 != g }

/-- A fresh generation for an aborted unit, whose thread token is then placed again under it (R291, R311); a package that has
joined another's domain takes it from its own table (log entry 97). -/
def State.launchAbort (s : State) (t : Nat) (lseq unit tok : Nat) : State :=
  match Tab.get? s.launches lseq with
  | none => s
  | some l =>
    let e : GenEnt := ⟨.live, false, 0, unit, tok, wfOne, lseq, l.job, none, false⟩
    (s.issueLaunch t e false).modLaunch lseq fun l => { l with reTok := l.reTok ++ [(unit, BitVec.ofNat 8 t, tok)] }

/-- The mirror of a die, and the heap before it, apply what they have not yet applied; `n` messages at most. -/
def State.catchUp (s : State) (e : Endpoint) : (n : Nat) → State
  | 0 => s
  | n + 1 => match s.nextMsg e with
    | some m => (s.applyMsg e (s.seqOf e + 1) m).catchUp e n
    | none => s

/-- A launch record (R315). -/
def recordWords (t : Nat) (rl : Bool) (n : HeapNode) (rseq : Nat) : List Word :=
  [w64 t ||| place n.parent.toNat 8 ||| place (b01 rl) 16, w64 n.pos, w64 n.tokid, n.cump, w64 rseq, 0, 0, 0]

/-- A node launched under a tag: LAUNCH, its place in the mirror of the ring's die, and the record (R315). -/
def State.launchNode (s : State) (d : Domain) (t : Nat) (rl : Bool) (n : HeapNode) : State :=
  let e : GenEnt := ⟨.live, rl, n.parent, n.pos, n.tokid, n.cump, d.lseq, d.job, some d.rseq, false⟩
  let s1 := s.issueLaunch t e (rl && s.root.isRatified n.parent.toNat)
  let s2 := (s1.catchUp .heap 1).catchUp (.mirror d.die) s1.root.log.length
  let s3 := { s2 with root := { s2.root with domain := some { d with rseq := d.rseq + 1 } } }
  (recordWords t rl n d.rseq).zipIdx.foldl (fun s w =>
    (s.putWord (d.slot d.rseq + w.2) 0xFF w.1 false).putFull (d.slot d.rseq + w.2) true) s3

/-- Live generations of the domain that are not ratified (R314). -/
def Root.liveCount (r : Root) (lseq : Nat) : Nat :=
  (r.gens.filter fun e => decide (e.2.st = .live) && e.2.lseq = lseq && e.2.rseq.isSome).length

/-- What the launch unit does once a tag is free: a unit that waits for a fresh generation, a relaunch, or the
highest-ranked node within the budget (R291, R315). -/
def State.launchNext (s : State) (t : Nat) : State :=
  match s.root.abortQ with
  | (lseq, unit, tok) :: rest =>
    let s1 := { s with root := { s.root with abortQ := rest } }
    if s1.launchOver lseq then s1 else s1.launchAbort t lseq unit tok
  | [] =>
    match s.root.domain with
    | none => s
    | some d =>
      if !s.slotClear d d.rseq then s
      else match s.root.relaunch with
        | n :: rest => { s with root := { s.root with relaunch := rest } }.launchNode d t true n
        | [] =>
          if s.root.liveCount d.lseq < d.budget && s.specOn then
            match highestNode s.root.heap with
            | some n => (s.dropNodes fun x => x = n).launchNode d t false n
            | none => s
          else s

/-- LAUNCH_GENERATION (R291, R311, R312, R315): FREE for the tags that are due; and once the heap has applied every
message, a launch under the lowest free tag. -/
def execLaunchGeneration (s : State) : Host.Outcome State Fault Refusal :=
  let s1 := s.issueFrees
  if s1.epAt .heap ≠ s1.root.log.length then .next s1
  else match s1.root.freeTag with
    | some t => .next (s1.launchNext t)
    | none => .next s1

/-- The end of a launch at the root (R312, R314, R332): its live generations are squashed, and its domain or join ends. The
generations that a home package launched for it are then this package's own to free (log entry 97). -/
def State.endSpeculation (s0 : State) (lseq : Nat) : State :=
  let own : GenEnt → GenEnt := fun e => if e.lseq = lseq then { e with remote := false } else e
  let s := { s0 with root := { s0.root with gens := s0.root.gens.map fun (e : Nat × GenEnt) => (e.1, own e.2) } }
  let mine := (s.root.gens.filter fun e => e.2.lseq = lseq).map (·.1)
  let s1 := s.issueSquash mine
  let r := s1.root
  let r1 : Root := { r with abortQ := r.abortQ.filter fun a => a.1 != lseq }
  let r2 : Root :=
    if r1.domain.any fun d => d.lseq = lseq then
      { r1 with domain := none, heap := [], relaunch := [], ended := putNat r1.ended lseq }
    else r1
  let r3 : Root :=
    if r2.joined.any fun j => j.2 = lseq then { r2 with joined := none, ended := putNat r2.ended lseq } else r2
  { s1 with root := r3 }

end Sys2Proof.Machine
end

