-- ==== Sys2Proof/Machine/Retire.lean ====
section
/-! DEFINITION. Commit, retirement and cancelling (R29 to R32, R293, R411 to R416), with what a launch, a block and a
tile lose when they leave (R31, R71, R85, R91, R237, R412). Log entries 28 and 29. -/

namespace Sys2Proof.Machine

open Sys2Proof

/-! ### What a tile loses -/

/-- Memory without what it holds at the byte addresses from `lo` up to `hi`. -/
def Mem.clear (m : Mem) (lo hi : Nat) : Mem where
  cells := m.cells.filter fun c => !(lo ≤ c.1 && c.1 < hi)
  full := m.full.filter fun w => !(lo ≤ 8 * w && 8 * w < hi)
  poison := m.poison.filter fun w => !(lo ≤ 8 * w && 8 * w < hi)

/-- A tile without a configuration is power-gated (R91). What it holds is lost, and its bank reads as zero, from when it wakes
(R237, `State.wake`); until then nothing reaches it. -/
def State.gateNow (s : State) (k : Nat) : State :=
  { s with
    ucaches := Tab.del s.ucaches k
    thermal := { s.thermal with kept := delNat s.thermal.kept k } }.setTile k { s.tile k with
    block := none
    gated := true
    gateDue := false
    shadow := none
    shadowBad := false
    stranded := false }

/-- A tile without a configuration is gated, or due to be gated once the ballast of its core has ended (R91, R391). -/
def State.gate (s : State) (k : Nat) : State :=
  if (s.core (tileCore k)).ballast = 0 then s.gateNow k
  else s.setTile k { s.tile k with
    block := none
    gateDue := true
    shadow := none
    shadowBad := false
    stranded := false }

/-- A gated tile wakes: its lasting state is lost, and its bank and lane slices read as zero (R237). -/
def State.lose (s : State) (k : Nat) : State :=
  let t := s.tile k
  let m := (s.mem.clear (bankBase k) (bankBase k + 2 ^ 16)).clear (laneBase k 0) (laneBase k 8)
  (s.setMem m).setTile k { Tile.reset with
    region := t.region
    fenced := t.fenced }

/-- A pool lets go of its tokens, registers, results, requests, running streams and records, and fires no more (R31, R412).
Swap tokens stay (R85), and so do the streams that are only set. -/
def PoolSt.withdraw (x : PoolSt) : PoolSt :=
  x.dropInflight (fun _ => true) fun y => { y with
    v := y.v.map fun (r : VReg) => { r with present := false }
    ins := y.ins.map fun i => { i with queue := i.queue.filter isSwap }
    outs := y.outs.map fun o => { o with owner := .none }
    reqs := []
    agq := []
    streams := y.streams.map fun (st : Stream) => if st.st = .set then st else Stream.reset
    bind := .none
    evts := []
    frec := .none
    run := .halted }

/-- The engine lets go of its passes, its scrub and its grammar run. -/
def MxEng.withdraw (e : MxEng) : MxEng := { e with
  passes := []
  gremit := .none
  rules := []
  gst := .ready
  work := if e.rebuilding then e.work else .none }

/-- Whose held access it is: a request's or a stream's of a tile. -/
def HeldWrite.ofTile (k : Nat) (h : HeldWrite) : Bool :=
  match h.who with
  | .req j _ => j = k
  | .stream j _ _ => j = k
  | .copy _ _ _ => false

/-- Credits for the tokens that a tile's inputs hold start back to their producers, as for tokens that a squash drops (R31,
R324). -/
def State.creditInputs (s : State) (k : Nat) : State :=
  let ins := [(s.tile k).pe, (s.tile k).mx, (s.tile k).ag].flatMap (·.ins)
  ins.foldl (fun s i => i.chan.elim s fun ch => s.dropped ch (i.queue.filter fun x => !isSwap x).length true) s

/-- A tile whose block's work is withdrawn: its accesses that banks hold are discarded, and those of others, which its own bank
holds, are made when nothing holds them any more. -/
def State.withdrawTile (s0 : State) (k : Nat) : State :=
  let s := (s0.creditInputs k).dropHeld (HeldWrite.ofTile k)
  let t := s.tile k
  let s1 := s.setTile k { t with
    pe := t.pe.withdraw
    mx := t.mx.withdraw
    ag := t.ag.withdraw
    eng := t.eng.withdraw }
  if (s1.tile k).eng.holds then s1 else s1.releaseHeld k

/-- The tiles whose live configuration is a block's. -/
def State.tilesOf (s : State) (bid : Nat) : List Nat := (s.tiles.filter fun kt => kt.2.block = some bid).map (·.1)

/-- The tiles of a region. -/
def State.regionTiles (s : State) (rid : Nat) : List Nat := (s.tiles.filter fun kt => kt.2.region = some rid).map (·.1)

/-- The blocks of a launch. -/
def State.blocksOf (s : State) (lseq : Nat) : List Nat := (s.blocks.filter fun kb => kb.2.lseq = lseq).map (·.1)

/-- The shadows that a block's load has filled in its region are discarded; a tile that they alone kept awake is gated
(R78, R91). -/
def State.dropShadows (s : State) (rid bid : Nat) : State :=
  (s.regionTiles rid).foldl (fun s k =>
    let t := s.tile k
    if t.shadow.any fun x => x.1 = bid then
      if t.block.isNone then s.gate k else s.setTile k { t with shadow := none, shadowBad := false }
    else s) s

/-- A region's load aborts (R78). -/
def State.abortLoad (s : State) (rid : Nat) : State :=
  match (Tab.get? s.regions rid).bind (·.loading) with
  | some l => (s.dropHold l.hold).modRegion rid (fun r => { r with loading := none }) |>.dropShadows rid l.bid
  | none => s

/-! ### Withdrawing a launch (R31) -/

/-- The stores of a launch are discarded, and the readers of them outside a scope are aborted (R31, R291). -/
def State.dropStores (s : State) (scope : List Nat) (lseq : Nat) : State :=
  let runs := (((s.bisque.flatMap (·.2)).filter fun e => e.lseq = lseq).map fun e => (e.unit, e.gen)).eraseDups
  let rs := (runs.flatMap fun r => s.readersOf lseq r.1 r.2).filter fun r => !scope.contains r.1
  let s1 := { s with bisque := s.bisque.map fun (b : Nat × List BEntry) => (b.1, b.2.filter fun e => e.lseq != lseq) }
  s1.abortAll (2 * s1.bisqueCount + 2) rs

/-- A core's copies of a launch: one held on XLATE is discarded, and its token leaves its queue as the copy ends; tokens not
started leave their queues (R31, R204). -/
def Core.dropCopies (k : Core) (lseq : Nat) : Core :=
  let stop : CopyRun → CopyRun := fun r => if r.tok.lseq = lseq && r.hold.isSome then r.stops else r
  let started : Nat → Nat := fun q => if k.engs.any fun e => e.run.any fun r => r.queue = q then 1 else 0
  { k with
    engs := k.engs.map fun e => { e with run := e.run.map stop }
    queues := k.queues.map fun q => (q.1, { q.2 with
      toks := q.2.toks.take (started q.1) ++ (q.2.toks.drop (started q.1)).filter fun t => t.lseq != lseq }) }

/-- The holds of a launch end (R204), and a load of it that is held aborts. -/
def State.dropHolds (s : State) (lseq : Nat) : State :=
  let mine := s.holds.filter fun h => h.2.lseq = lseq
  let s1 := mine.foldl (fun s h => match h.2.site with
    | .load rid => s.abortLoad rid
    | _ => s) s
  { s1 with holds := s1.holds.filter fun h => h.2.lseq != lseq }

/-- The tokens of a channel that a withdrawal leaves: swap tokens, and the markers of the squash network. -/
def Item.stays : Item → Bool
  | .tok t _ => isSwap t
  | .marker _ => true

/-- The tokens on the way in the channels of a launch's blocks are removed, those of its entry queues among them, and their
credits start back (R31, R324). -/
def State.dropChannels (s : State) (lseq : Nat) : State :=
  (s.chans.filter fun c => c.2.bid / 256 = lseq).foldl (fun s c =>
    let gone := (c.2.items ++ c.2.stages.flatten).filter fun it => !it.stays
    (s.modChan c.1 fun y => { y with
      items := y.items.filter Item.stays
      stages := y.stages.map fun l => l.filter Item.stays }).dropped c.1 (beatsIn gone) false) s

/-- The saved state of a launch's blocks is discarded (R355). -/
def State.dropFrames (s : State) (lseq : Nat) : State :=
  let s1 := { s with frames := s.frames.filter fun f => f.2.bid / 256 != lseq }
  (s1.blocksOf lseq).foldl (fun s b => s.modBlock b fun x => { x with saved := none }) s1

/-- A launch's units are withdrawn (R31); `scope` holds the launches that are cancelled with it. -/
def State.withdraw (s : State) (scope : List Nat) (lseq : Nat) : State :=
  let s1 := (s.dropStores scope lseq).dropHolds lseq
  let s2 := { s1 with cores := s1.cores.map fun (c : Nat × Core) => (c.1, c.2.dropCopies lseq) }
  let ks := (s2.blocksOf lseq).flatMap s2.tilesOf
  (((ks.foldl State.withdrawTile s2).dropChannels lseq).dropFrames lseq).modLaunch lseq fun l => { l with
    faulted := false
    reTok := []
    nextTok := l.unitCount
    units := [] }

/-! ### Counters (R30) -/

/-- The graph of an id in a phase of a job. -/
def State.graph? (s : State) (j p i : Nat) : Option Graph :=
  s.graphs.find? fun g => g.job = j && g.phase = p && g.id = i

def State.phase? (s : State) (j p : Nat) : Option Phase := s.phases.find? fun x => x.job = j && x.id = p

/-- A graph changed. -/
def State.modGraph (s : State) (j p i : Nat) (f : Graph → Graph) : State :=
  { s with graphs := s.graphs.map fun g => if g.job = j && g.phase = p && g.id = i then f g else g }

/-- A phase changed. -/
def State.modPhase (s : State) (j p : Nat) (f : Phase → Phase) : State :=
  { s with phases := s.phases.map fun x => if x.job = j && x.id = p then f x else x }

/-- The launch flagged last in a graph, and every one accepted before it, have retired (R30). -/
def State.graphDone (s : State) (g : Graph) : Bool :=
  !g.retired && g.last.any fun m => g.launches.all fun l => decide (m < l) || s.isRetired l

/-- The graph that holds the launch flagged last in a phase, and every earlier one, have retired (R30). -/
def State.phaseDone (s : State) (x : Phase) : Bool :=
  !x.retired && x.lastGraph.any fun m =>
    (x.graphs.takeWhile (· != m) ++ [m]).all fun i => (s.graph? x.job x.id i).any (·.retired)

/-- A phase retires: its job counts it. -/
def State.retirePhase (s : State) (j p : Nat) : State :=
  let s1 := s.modPhase j p fun x => { x with
    retired := true
    doneAt := s.arb.stream.length }
  s1.setJob j { s1.job j with count := ((s1.job j).count + 1) % 2 ^ 48 }

/-- A graph retires: its phase counts it, and is cancelled with it. -/
def State.retireGraph (s : State) (j p i : Nat) : State :=
  let can := (s.graph? j p i).any (·.cancelled)
  (s.modGraph j p i fun g => { g with
    retired := true
    doneAt := s.arb.stream.length }).modPhase j p fun x => { x with
      count := x.count + 1
      cancelled := x.cancelled || (can && !x.retired) }

/-! ### Retirement (R411, R416) -/

/-- LAUNCH_RETIRED (R416). -/
def State.postRetired (s : State) (l : Launch) (gdone pdone : Bool) : State :=
  let g := s.graph? l.job l.phase l.graph
  let x := s.phase? l.job l.phase
  let gcan := gdone && g.any (·.cancelled)
  let pcan := pdone && x.any (·.cancelled)
  let can := l.cause.isSome
  if l.quiet && !can && !gdone && !pdone then s
  else
    s.post (mkEvent s 0xD0 (some l.lseq) l.job l.retv
      (place (b01 pcan) 56 ||| place l.prio 52 ||| place (b01 gcan) 51 ||| place (b01 pdone) 50 |||
        place (b01 gdone) 49 ||| place (b01 can) 48 ||| w64 l.count)
      (place l.graph 32 ||| w64 l.aborts) (place l.seq 32 ||| place (l.cause.getD 0) 16 ||| w64 l.phase)
      (w64 (g.elim 0 (·.count))) (w64 (x.elim 0 (·.count))))

/-- A tile without the events that its pools hold, and without the records that no ratification will post. -/
def Tile.quiet (t : Tile) : Tile :=
  let quiet : PoolSt → PoolSt := fun x => { x with
    evts := []
    frec := x.frec.filter (·.posted) }
  { t with
    pe := quiet t.pe
    mx := quiet t.mx
    ag := quiet t.ag }

/-- The events that a launch's pools still hold, in its tiles or saved, are discarded (R413). -/
def State.dropEvents (s : State) (lseq : Nat) : State :=
  let ks := (s.blocksOf lseq).flatMap s.tilesOf
  let s1 := ks.foldl (fun s k => s.setTile k (s.tile k).quiet) s
  { s1 with frames := s1.frames.map fun (f : Nat × Saved) => (f.1,
      if f.2.bid / 256 = lseq then { f.2 with tiles := f.2.tiles.map fun kt => (kt.1, kt.2.quiet) } else f.2) }

/-- A graph retires with the retirement of a launch of it: by R30, or, where a cancel of a scope above the launch level is taking
effect, with its last launch. -/
def State.graphEnds (s : State) (level : Nat) (g : Graph) : Bool :=
  if level = 0 then s.graphDone g else !g.retired && g.launches.all s.isRetired

/-- A phase retires with the retirement of a launch of it, in the same way. -/
def State.phaseEnds (s : State) (level : Nat) (x : Phase) : Bool :=
  if level ≤ 1 then s.phaseDone x else !x.retired && x.graphs.all fun i => (s.graph? x.job x.id i).any (·.retired)

/-- A launch retires (R411), CANCELLED where it has a cause, with its graph and phase where its retirement completes them; `level`
is that of the cancel taking effect, 0 for a launch of its own. GDONE or PDONE tells of them, but for the graph or phase that the
cancel names, which CANCEL_DONE reports (R416). A graph or phase that has already retired keeps its status (R32). A launch with a
speculation domain ends it when the ring's die applies the record (R412). -/
def State.retire (s : State) (lseq : Nat) (cause : Option Nat) (level : Nat) : State :=
  match Tab.get? s.launches lseq with
  | none => s
  | some l0 =>
    let l : Launch := { l0 with
      st := .retired
      cause := cause
      units := []
      reTok := [] }
    let s0 := (s.dropEvents lseq).setLaunch lseq l
    let s1 := if s0.root.domain.any fun d => d.lseq = lseq then s0 else s0.endSpeculation lseq
    let s2 := { s1 with arb := { s1.arb with
      stream := s1.arb.stream ++ [StreamRec.retire lseq]
      published := (s1.arb.published + 1) % 2 ^ 32 } }
    let s3 := s2.modGraph l.job l.phase l.graph fun g => { g with
      count := g.count + 1
      cancelled := g.cancelled || (cause.isSome && !g.retired) }
    let gdone := (s3.graph? l.job l.phase l.graph).any (s3.graphEnds level)
    let s4 := if gdone then s3.retireGraph l.job l.phase l.graph else s3
    let pdone := (s4.phase? l.job l.phase).any (s4.phaseEnds level)
    let s5 := if pdone then s4.retirePhase l.job l.phase else s4
    s5.postRetired l (gdone && level != 1) (pdone && level != 2)

/-! ### Awaits (R55, R58, R32) -/

/-- The awaits of a launch: kind and operand. -/
def Launch.awaits (l : Launch) : List (Nat × Nat) :=
  [(fld (l.w 0) 45 44, fld (l.w 5) 31 0), (fld (l.w 0) 47 46, fld (l.w 5) 63 32), (fld (l.w 0) 49 48, fld (l.w 6) 31 0),
    (fld (l.w 0) 51 50, fld (l.w 6) 63 32)]

/-- Every die has applied the records of the arbiter's stream up to a place in it (R412). -/
def State.diesPast (s : State) (n : Nat) : Bool := (List.range 8).all fun d => n ≤ (s.die d).applied

/-- Whether an await holds, once its work has retired and the dies have applied the retirement that completed it (R412 step 5), and
whether that work retired CANCELLED, which counts from its record on (R32). -/
def State.awaited (s : State) (l : Launch) (a : Nat × Nat) : Bool × Bool :=
  match a.1 with
  | 0 => (true, false)
  | 1 => (s.graph? l.job l.phase a.2).elim (false, false) fun g => (g.retired && s.diesPast g.doneAt, g.retired && g.cancelled)
  | _ => (s.phase? l.job (a.2 % 2 ^ 16)).elim (false, false) fun x =>
      (x.retired && s.diesPast x.doneAt, x.retired && x.cancelled)

/-- Every await of a launch holds. -/
def State.awaitsHold (s : State) (l : Launch) : Bool := l.awaits.all fun a => (s.awaited l a).1

/-- Some awaited work retired CANCELLED. -/
def State.awaitsCancelled (s : State) (l : Launch) : Bool := l.awaits.any fun a => (s.awaited l a).2

/-! ### Cancels (R31, R32, R414, R415) -/

/-- Accepted launches whose awaited work has retired CANCELLED are cancelled in LSEQ order, and those that await them in
turn (R32); `fuel` is the number of launches. -/
def State.cascade (s : State) : (fuel : Nat) → State
  | 0 => s
  | fuel + 1 =>
    match s.launches.find? fun kl => kl.2.st = .accepted && s.awaitsCancelled kl.2 with
    | some kl => ((s.withdraw [kl.1] kl.1).retire kl.1 (some 0xFFFE) 0).cascade fuel
    | none => s

/-- The cascade over every launch. -/
def State.cascadeAll (s : State) : State := s.cascade (s.launches.length + 1)

/-- One launch cancelled with its CAUSE, unless it has retired (R31, R32). -/
def State.cancelLaunch (s : State) (lseq cause : Nat) : State :=
  if s.isRetired lseq then s else ((s.withdraw [lseq] lseq).retire lseq (some cause) 0).cascadeAll

/-- Jobs that are tearing down, none of whose blocks is still placed, become free, their phase and graph records
discarded (R51, R416). -/
def State.finishTeardowns (s : State) : State :=
  let done := s.jobs.filter fun j => j.2.st = 2 && s.blocks.all fun b => b.2.job != j.1
  done.foldl (fun s j =>
    let s1 := s.setJob j.1 { s.job j.1 with st := 0 }
    { s1 with
      graphs := s1.graphs.filter fun g => g.job != j.1
      phases := s1.phases.filter fun x => x.job != j.1 }.report 0xD1 none j.1 (w64 (s.job j.1).count) 0 0 0) s

/-- Regions whose resident block is a job's, with whether its launch is held. -/
def State.jobRegions (s : State) (job : Nat) : List (Nat × Bool) := s.regions.filterMap fun r =>
  (r.2.resident.bind fun b => Tab.get? s.blocks b).bind fun b =>
    if b.job = job then some (r.1, (Tab.get? s.launches b.lseq).any (·.faulted)) else none

/-- JOB_SUSPENDED for each suspended job whose every resident block is saved; those of held launches do not delay it
(R353). -/
def State.settleSusp (s : State) : State :=
  let done := s.jobs.filter fun j => j.2.suspended && !j.2.suspPosted && (s.jobRegions j.1).all (·.2)
  done.foldl (fun s j =>
    (s.setJob j.1 { s.job j.1 with suspPosted := true }).report 0x95 none j.1 ones (w64 j.1)
      (w64 (s.jobRegions j.1).length) 0) s

/-- What a cancel names (R414). -/
structure Scope where
  level : Nat
  job : Nat
  phase : Nat
  id : Nat
  deriving DecidableEq, Repr

def Scope.ofWord (v : Word) : Scope := ⟨fld v 63 62, fld v 61 56, fld v 47 32, fld v 31 0⟩

/-- The phase that a graph or phase scope names. -/
def Scope.phaseId (c : Scope) : Nat := if c.level = 1 then c.phase else c.id

/-- A launch packet lies in a scope above the launch level. -/
def Scope.holds (c : Scope) (ws : List Word) : Bool :=
  let w : Nat → Word := fun i => ws.getD i 0
  fld (w 0) 43 38 = c.job && match c.level with
    | 0 => false
    | 1 => fld (w 2) 63 48 = c.phase && fld (w 3) 63 32 = c.id
    | 2 => fld (w 2) 63 48 = c.id
    | _ => true

/-- The status of a cancel (R415). -/
def State.cancelStatus (s : State) (v : Word) : Nat :=
  let c := Scope.ofWord v
  let st := (s.job c.job).st
  let form := fld v 55 48 != 0 || (c.level != 1 && c.phase != 0) || (c.level = 2 && fld v 31 16 != 0) ||
    (c.level = 3 && c.id != 0)
  if form then 4
  else if c.level = 3 && st = 2 then 2
  else if st != 1 then 4
  else match c.level with
    | 0 => match Tab.get? s.launches c.id with
      | some l => if l.job != c.job then 3 else if l.st = .retired then 1 else 0
      | none => 3
    | 1 => match s.graph? c.job c.phase c.id with
      | some g => if g.retired then 1 else 0
      | none => 3
    | 2 => match s.phase? c.job c.id with
      | some x => if x.retired then 1 else 0
      | none => 3
    | _ => 0

/-- Launches of a scope that have not retired, in LSEQ order. -/
def State.inScope (s : State) (c : Scope) : List Nat :=
  (s.launches.filter fun kl => kl.2.st != .retired &&
    (if c.level = 0 then kl.1 = c.id else c.holds kl.2.words)).map (·.1)

/-- The packets of a scope that were checked and not accepted leave their queues (R415). -/
def State.dropPackets (s : State) (c : Scope) : Nat × State :=
  let n := s.lqs.foldl (fun n q => n + (q.2.checked.filter fun p => c.holds p.2).length) 0
  (n, { s with lqs := s.lqs.map fun q => (q.1, { q.2 with checked := q.2.checked.filter fun p => !c.holds p.2 }) })

/-- A graph, or a phase, of a scope that has not retired. -/
def Scope.hasGraph (c : Scope) (g : Graph) : Bool :=
  g.job = c.job && !g.retired && (c.level = 3 || g.phase = c.phaseId) && (c.level != 1 || g.id = c.id)
def Scope.hasPhase (c : Scope) (x : Phase) : Bool :=
  c.level != 1 && x.job = c.job && !x.retired && (c.level = 3 || x.id = c.phaseId)

/-- The graphs and phases of a scope are cancelled (R30). Those without an unretired launch retire at once; the others retire with
the last of their launches. -/
def State.cancelWork (s : State) (c : Scope) : State :=
  let s1 := { s with
    graphs := s.graphs.map fun (g : Graph) => if c.hasGraph g then { g with cancelled := true } else g
    phases := s.phases.map fun (x : Phase) => if c.hasPhase x then { x with cancelled := true } else x }
  let s2 := (s1.graphs.filter fun g => c.hasGraph g && g.launches.all s.isRetired).foldl
    (fun s g => s.retireGraph g.job g.phase g.id) s1
  let ends : Phase → Bool := fun x => if c.level = 1 then x.job = c.job && x.id = c.phase && s2.phaseDone x
    else c.hasPhase x && s2.phaseEnds c.level x
  (s2.phases.filter ends).foldl (fun s x => s.retirePhase x.job x.id) s2

/-- A cancel that takes effect (R31): launches cancelled and packets discarded are counted. -/
def State.cancelScope (s : State) (c : Scope) : Nat × Nat × State :=
  let s0 := if c.level = 3 then s.setJob c.job { s.job c.job with st := 2 } else s
  let (n, s1) := s0.dropPackets c
  let ls := s1.inScope c
  let s2 := if c.level = 0 then s1 else s1.cancelWork c
  let s3 := ls.foldl (fun s l => (s.withdraw ls l).retire l (some 0xFFFD) c.level) s2
  (ls.length, n, s3.cascadeAll)

/-- A cancel of the host: its effect, then CANCEL_DONE (R415, R416). -/
def State.cancel (s : State) (v : Word) : State :=
  let c := Scope.ofWord v
  let st := s.cancelStatus v
  let (n, d, s1) := if st = 0 then s.cancelScope c else (0, 0, s)
  let lseq := if c.level = 0 then some c.id else none
  (s1.report 0xD2 lseq c.job v (w64 st ||| place n 16) (w64 d) 0).finishTeardowns.settleSusp

/-- A write of CANCEL; one written while the compute rails are removed waits for resume (R355). -/
def State.cancelWrite (s : State) (v : Word) : State :=
  if s.thermal.off then { s with thermal := { s.thermal with cancels := s.thermal.cancels ++ [v] } } else s.cancel v

/-- CANCEL_LAUNCH (R414, R415): a write whose LEVEL is 0. -/
def execCancelLaunch (v : Word) (s : State) : Host.Outcome State Fault Refusal :=
  .next (if fld v 63 62 = 0 then s.cancelWrite v else s)

/-- CANCEL_GRAPH (R414, R415): a write whose LEVEL is 1. -/
def execCancelGraph (v : Word) (s : State) : Host.Outcome State Fault Refusal :=
  .next (if fld v 63 62 = 1 then s.cancelWrite v else s)

/-- CANCEL_PHASE (R414, R415): a write whose LEVEL is 2. -/
def execCancelPhase (v : Word) (s : State) : Host.Outcome State Fault Refusal :=
  .next (if fld v 63 62 = 2 then s.cancelWrite v else s)

/-- CANCEL_JOB (R414, R415): a write whose LEVEL is 3. -/
def execCancelJob (v : Word) (s : State) : Host.Outcome State Fault Refusal :=
  .next (if fld v 63 62 = 3 then s.cancelWrite v else s)

/-- JOB_TEARDOWN (R51, R414): a tear down written to JOB_CTL is a LEVEL 3 write of CANCEL. -/
def execJobTeardown (j : Fin 64) (v : Word) (s : State) : Host.Outcome State Fault Refusal :=
  .next (if fld v 63 62 = 3 then s.cancelWrite (place 3 62 ||| place j.val 56) else s)

/-! ### Commit (R293) -/

/-- An abort generation whose unit is now the oldest of its job is ratified (R291 step 6). -/
def State.ratifyOldest (s : State) (job : Nat) : State :=
  match s.oldestUnit job with
  | some (l, i) =>
    let fs := (s.root.gens.filter fun e => e.2.rseq.isNone && !e.2.remote && e.2.lseq = l.lseq && e.2.pos = i &&
      decide (e.2.st = .live)).map (·.1)
    fs.foldl State.ratifyGen s
  | none => s

/-- A task access of a committable run of a unit has not been performed (log entry 28). -/
def State.unitBusy (s : State) (cls : List (BitVec 8)) (lseq unit : Nat) : Bool :=
  s.tiles.any fun kt =>
    (kt.2.pe.reqs.any fun r => !r.accs.isEmpty && cls.contains r.gen && r.unit.any fun b => b.lseq = lseq && b.unit = unit) ||
      kt.2.ag.agq.any fun q => cls.contains q.gen && q.unit = some (lseq, unit)

/-- A pool of a tile still holds an event or a record that a ratification posts. -/
def State.tileDue (s : State) (t : Tile) : Bool :=
  [t.pe, t.mx, t.ag].any fun x => (x.evts.any fun e => s.ratGen e.gen) || x.frec.any fun r => !r.posted && s.ratGen r.gen

/-- A pool of a launch, in its tiles or saved, still holds such an event or record (R413). -/
def State.eventsDue (s : State) (lseq : Nat) : Bool :=
  (((s.blocksOf lseq).flatMap s.tilesOf).any fun k => s.tileDue (s.tile k)) ||
    s.frames.any fun f => f.2.bid / 256 = lseq && f.2.tiles.any fun kt => s.tileDue kt.2

/-- A tile of a launch still has writes of an AG pool to make that belong to no unit: the sequencer waits for them, so that the
words that its firings wrote do not rest on when its last unit commits (R304, R305; log entry 28). -/
def State.writesDue (s : State) (lseq : Nat) : Bool :=
  ((s.blocksOf lseq).flatMap s.tilesOf).any fun k => (s.tile k).ag.agq.any fun q => q.unit.isNone

/-- The oldest unit of a job can commit (R293). -/
def State.canCommit (s : State) (l : Launch) (i : Nat) : Bool :=
  let cls := s.runClass l.lseq i 0
  (cls.any fun g => s.runFinished l i g && !((l.unit i).run? g).elim false (·.aborted)) &&
    (s.bisque.all fun b => b.2.all fun e => !(e.lseq = l.lseq && e.unit = i) || e.gen == 0) &&
    !s.unitBusy cls l.lseq i && (decide (i + 1 < l.unitCount) || (!s.eventsDue l.lseq && !s.writesDue l.lseq))

/-- The bytes of a word that an entry stores, as a mask. -/
def BEntry.mask (e : BEntry) (word : Nat) : BitVec 8 :=
  (List.range 8).foldl (fun m i => if (Tab.get? e.bytes (8 * word + i)).isSome then m ||| BitVec.ofNat 8 (2 ^ i) else m) 0

/-- A word of an entry, zero at the bytes it does not store. -/
def BEntry.word (e : BEntry) (word : Nat) : Word :=
  (List.range 8).foldr (fun i (acc : Word) =>
    (acc <<< 8) ||| ((Tab.get? e.bytes (8 * word + i)).elim 0 (·.1) : Byte).setWidth 64) 0

/-- An entry applied to its line (R293, R260). -/
def BEntry.apply (e : BEntry) (m : Mem) : Mem :=
  (List.range 8).foldl (fun m w =>
    if e.mask w = 0 then m else m.write (8 * e.line + w) (e.mask w) (e.word w) (e.psn.contains w)) m

/-- Entries in timestamp order; entries of one timestamp keep their order. -/
def byTs : List BEntry → List BEntry
  | [] => []
  | e :: rest =>
    let es := byTs rest
    es.takeWhile (fun x => x.ts < e.ts) ++ e :: es.dropWhile fun x => x.ts < e.ts

/-- The commit of one unit (R293, R278, R411). -/
def State.commitUnit (s : State) (l : Launch) (i : Nat) : State :=
  let cls := s.runClass l.lseq i 0
  let es := byTs ((s.bisque.flatMap (·.2)).filter fun e => e.lseq = l.lseq && e.unit = i)
  let mem := es.foldl (fun m e => e.apply m) s.mem
  let s1 := { s.setMem mem with bisque := s.bisque.map fun (b : Nat × List BEntry) =>
    (b.1, b.2.filter fun e => !(e.lseq = l.lseq && e.unit = i)) }
  let retv := ((l.unit i).retv.filter fun x => cls.contains x.1).getLast?.elim l.retv (·.2)
  let l1 : Launch := { l with
    retv := retv
    count := l.count + 1
    units := Tab.set l.units i ⟨[], [], true⟩ }
  let s2 := (s1.setLaunch l.lseq l1).setJob l.job { s1.job l.job with lastCommit := some (l.pos i) }
  if l1.count = l1.unitCount && !l1.faulted then (s2.retire l.lseq none 0).cascadeAll else s2

/-- UNIT_COMMIT (R291 step 6, R293): the sequencer ratifies what is due, and commits the first unit that can commit. -/
def execUnitCommit (s : State) : Host.Outcome State Fault Refusal :=
  let js := s.jobs.map (·.1)
  let s1 := js.foldl State.ratifyOldest s
  match js.findSome? fun j => (s1.oldestUnit j).bind fun u => if s1.canCommit u.1 u.2 then some u else none with
  | some (l, i) => .next (s1.commitUnit l i)
  | none => .next s1

/-! ### A block leaves its region (R71, R85, R412) -/

/-- The output at which a channel starts, in its tile or saved with its block. -/
def State.sourceOut (s : State) (ch : Nat) (y : Chan) : Option (PoolSt × OutPort) :=
  match y.src with
  | .out k p o =>
    let kept := s.frames.flatMap fun f => (f.2.tiles.filter fun kt => kt.1 = k).map (·.2)
    (s.tile k :: kept).findSome? fun t =>
      if ((t.pool p).out o).chan = some ch then some (t.pool p, (t.pool p).out o) else none
  | _ => none

/-- Results in flight to an output. -/
def PoolSt.flying (x : PoolSt) (o : Nat) : Nat := (x.inflight.filter fun e => match e.dst with
  | .out n => n.val = o
  | _ => false).length

/-- The credits of the Craxon circuits on which a block sends go back to their ports, with those of the beats that have not left by
them, and so do the requests of pull channels (R376). -/
def State.leaveEgress (s : State) (bid : Nat) : State :=
  (s.chans.filter fun c => c.2.bid = bid).foldl (fun s c => match c.2.dst, c.2.src with
    | .egress e, .out _ _ o =>
      let held := (s.sourceOut c.1 c.2).elim 0 fun x =>
        (if c.2.pull then x.2.reqs else x.2.credits.toNat) + x.1.flying o
      s.egressBack e c.2.pull (held + c.2.reqBack + beatsIn c.2.items + beatsIn c.2.stages.flatten + s.linkBeats c.1)
    | _, _ => s) s

/-- The channels of a block are gone, with its entry queue and its done sink. -/
def State.dropChans (s : State) (bid : Nat) : State :=
  { s with chans := s.chans.filter fun c => c.2.bid != bid }

/-- A pool without a configuration; it stays an endpoint of the squash network. -/
def PoolSt.bare (x : PoolSt) : PoolSt := { PoolSt.reset x.kind with
  dead := x.dead
  ratified := x.ratified
  seq := x.seq }

/-- A block's tiles lose its configuration: what the tiles still hold is discarded (R412), and a tile without a shadow is
gated. -/
def State.vacate (s : State) (bid : Nat) : State :=
  (s.tilesOf bid).foldl (fun s k =>
    let s1 := s.withdrawTile k
    let t := s1.tile k
    if t.shadow.isSome then s1.setTile k { t with
      block := none
      pe := t.pe.bare
      mx := t.mx.bare
      ag := t.ag.bare }
    else s1.gate k) s

/-- A region without blocks is dissolved (R71). -/
def State.dissolve (s : State) (rid : Nat) : State :=
  match Tab.get? s.regions rid with
  | some r =>
    if r.blocks.isEmpty then
      let s1 := (s.regionTiles rid).foldl (fun s k =>
        let s' := s.gate k
        s'.setTile k { s'.tile k with region := none }) (s.abortLoad rid)
      { s1 with regions := Tab.del s1.regions rid }
    else s
  | none => s

/-- A wavefront swap from or to a block is in progress, and runs to its end (R85). -/
def State.inWave (s : State) (b : Block) (bid : Nat) : Bool :=
  (Tab.get? s.regions b.rid).any fun r => r.waveBegun && (r.resident = some bid || r.armed = some bid)

/-- A block leaves its region. -/
def State.leaveBlock (s : State) (bid : Nat) : State :=
  match Tab.get? s.blocks bid with
  | none => s
  | some b =>
    let r? := Tab.get? s.regions b.rid
    let s0 := if r?.any fun r => (r.loading.any fun x => x.bid = bid) then s.abortLoad b.rid else s
    let s1 := if r?.any fun r => r.armed = some bid then
        (s0.modRegion b.rid fun r => { r with armed := none }).dropShadows b.rid bid
      else s0
    let s2 := ((s1.leaveEgress bid).vacate bid).modRegion b.rid fun r => { r with
      blocks := r.blocks.erase bid
      resident := if r.resident = some bid then none else r.resident
      pre := if r.resident = some bid then none else r.pre
      switching := if r.switching = some bid then none else r.switching }
    let s3 := { s2 with
      blocks := Tab.del s2.blocks bid
      frames := s2.frames.filter fun f => f.2.bid != bid }
    (s3.dropChans bid).dissolve b.rid

end Sys2Proof.Machine
end

