-- ==== Sys2Proof/Machine/Channels.lean ====
section
/-! DEFINITION. Channels at their ends (R34, R35, R88, R115, R118, R120 to R127, R306, R344, R376, R377): thread tokens
placed, tokens, credits and requests arriving, depth tokens, the input port's checks with STRANDED (R86), the done sink,
results that complete and the occupancy arbiter's epoch. -/

namespace Sys2Proof.Machine

open Sys2Proof

/-! ### What an input's slots can consume (R86) -/

/-- A valid slot can consume a head of a KIND on an input: its trigger consumes that input, and its TK field or the DATA
requirement of its operands admits the KIND. -/
def State.slotEats (s : State) (k : Nat) (p : Pool) (o : Op) (f : Fields) (c : Fin 4) (kind : BitVec 3) : Bool :=
  let tk : BitVec 3 → Bool := fun dflt => kind == if f.te then f.tk else dflt
  if o = .merge then
    (f.md.toNat % 4 = c.val && tk 5) || ((f.a.consumes? = some c || f.b.consumes? = some c) && tk 0)
  else if o = .barj then (s.joined k p).contains c.val && kind == 2
  else (f.a.consumes? = some c && kindOk o f true c kind) || (f.b.consumes? = some c && kindOk o f false c kind)

/-- Some valid slot of a pool can consume a head of a KIND on an input. -/
def State.eats (s : State) (k : Nat) (p : Pool) (c : Fin 4) (kind : BitVec 3) : Bool :=
  let x := (s.tile k).pool p
  (List.range x.slots.length).any fun n => match x.instr n with
    | some (o, f) => s.slotEats k p o f c kind
    | none => false

/-- The pools of a tile. -/
def pools : List Pool := [.pe, .mx, .ag]

/-- Inputs of a tile bound with code 1, 2, 3 or 4: pool and index. -/
def Tile.linkInputs (t : Tile) : List (Pool × Fin 4) :=
  pools.flatMap fun p => ([0, 1, 2, 3] : List (Fin 4)).filterMap fun i =>
    if linkCode ((t.pool p).inp i.val).code then some (p, i) else none

/-- The input at which a tile of an armed region is stranded (R86). -/
def State.strandedAt (s : State) (k : Nat) : Option (Pool × Fin 4 × Tok) :=
  let t := s.tile k
  let armed := (s.regionOf k).any fun r => r.resident = t.block && r.armed.isSome && t.shadow.any fun x => some x.1 = r.armed
  let ins := t.linkInputs
  if t.stranded || !armed || ins.isEmpty || !(ins.all fun pi => ((t.pool pi.1).inp pi.2.val).queue.any isSwap) then none
  else ins.findSome? fun pi => match ((t.pool pi.1).inp pi.2.val).queue with
    | h :: _ => if isSwap h || isDepth h || isFmtTag h || s.eats k pi.1 pi.2 h.kind then none else some (pi.1, pi.2, h)
    | [] => none

/-- The wavefront swap of a region cannot go on: the launches of both blocks are cancelled with the event's code
(R84, R86). -/
def State.killWave (s : State) (rid cause : Nat) : State :=
  match Tab.get? s.regions rid with
  | some r =>
    let s1 := s.setRegion rid { r with waveBegun := false, swapped := [] }
    let ls := ((r.resident.toList ++ r.armed.toList).map (· / 256)).eraseDups
    ls.foldl (fun s l => s.cancelLaunch l cause) s1
  | none => s

/-- STRANDED, where a tile meets it (R86, R92). -/
def State.strandCheck (s : State) (k : Nat) : State :=
  match s.strandedAt k with
  | some (p, i, h) =>
    let s1 := s.setTile k { s.tile k with stranded := true }
    let lseq := (s.blockOf k).map (·.lseq)
    let s2 := s1.report 0x15 lseq ((s.blockOf k).elim 0 (·.job)) (s.placeOf k p i.val)
      (w64 h.kind.toNat ||| place h.tag.toNat 16) 0 0
    match (s.tile k).region with
    | some r => s2.killWave r 0x15
    | none => s2
  | none => s

/-- FMT_TAG on the heads of a pool's inputs (R125, R344): the lowest input whose head has a reserved FMT. -/
def State.portCheck (s : State) (k : Nat) (p : Pool) : State :=
  match [0, 1, 2, 3].findSome? fun i => match (((s.tile k).pool p).inp i).queue with
    | h :: _ => if isFmtTag h then some (i, h) else none
    | [] => none with
  | some (i, h) => s.raise k p i 0x32 h.gen (w64 h.fmt.toNat ||| place h.tag.toNat 16) 0 0
  | none => s

/-! ### Tokens (R120, R126, R306) -/

/-- The region whose damper a token of a channel meets on its way to a tile (R306). -/
def State.dampRegion (s : State) (y : Chan) (k : Nat) : Option Nat :=
  let here := (s.tile k).region
  match y.src with
  | .out k' _ _ => if (s.tile k').region = here then none else here
  | _ => here

/-- A channel's source needs no credits: the entry queue (R34), or the store of a Craxon port, which passes a beat when
the input has room (R376). -/
def ChanSrc.free : ChanSrc → Bool
  | .out _ _ _ => false
  | _ => true

/-- The channel is bound to the live input at its end. -/
def State.endLive (s : State) (ch : Nat) (k : Nat) (p : Pool) (i : Nat) : Bool :=
  (((s.tile k).pool p).inp i).chan = some ch

/-- One beat joins an input buffer; a pull input's request is answered (R122). -/
def State.enter (s : State) (ch k : Nat) (p : Pool) (i : Nat) (t : Tok) : State :=
  s.modInput ch k p i fun q => { q with queue := q.queue ++ [t], reqOut := q.reqOut - 1 }

/-- Beats of a token, joining an input buffer one by one, while a source without credits finds room and the damper admits
them: how many joined, and the state. -/
def State.enterBeats (s : State) (ch : Nat) (y : Chan) (k : Nat) (p : Pool) (i : Nat) (t : Tok) :
    (n : Nat) → Nat × State
  | 0 => (0, s)
  | n + 1 =>
    let q := ((s.tile k).pool p).inp i
    if y.src.free && q.depth ≤ q.queue.length then (0, s)
    else
      let (ok, s1) := if t.kind == 0 then s.damp (s.dampRegion y k) (dampChan ch) else (true, s)
      if !ok then (0, s1)
      else
        let (m, s2) := (s1.enter ch k p i t).enterBeats ch y k p i t n
        (m + 1, s2)

/-- What an input does on an arrival: the region is not quiet, and the port looks at its heads. -/
def State.arrived (s : State) (k : Nat) (p : Pool) : State := ((s.markActive k).portCheck k p).strandCheck k

/-- The rest of a token's beats. -/
def Item.rest : Item → Nat → List Item
  | .tok t r, m => if m = r + 1 then [] else [.tok t (r - m)]
  | it, _ => [it]

/-- A token that comes to a tile of a block whose launch has retired, which only a wavefront swap in progress still holds in its
region (R85), is dropped; swap tokens, and what stands behind one, go on. -/
def State.unwanted (s : State) (k : Nat) (q : InPort) (t : Tok) : Bool :=
  !isSwap t && !q.queue.any isSwap && (s.tile k).block.any fun b => s.isRetired (b / 256)

/-- A swap token was sent without credit (R81, log entry 38), and waits while the input has no room. -/
def InPort.full (q : InPort) (t : Tok) : Bool := isSwap t && decide (q.depth ≤ q.queue.length)

/-- The region in which a channel starts is not quiet: a token moves on it (R345). -/
def State.srcActive (s : State) (y : Chan) : State :=
  match y.src with
  | .out k _ _ => s.markActive k
  | _ => s

/-- A token at the end of a channel reaches its destination. -/
def State.tokenEnd (s : State) (ch : Nat) (y : Chan) (t0 : Tok) (r : Nat) (others : List Item) : State :=
  let t := s.arriving y t0
  if y.dead.contains t.gen then (s.setChan ch { y with items := others }).dropped ch (r + 1) false
  else match y.dst with
    | .inp k p i =>
      let q := ((s.tile k).pool p).inp i
      if !s.endLive ch k p i || q.full t then s
      else if s.unwanted k q t then (s.setChan ch { y with items := others }).dropped ch (r + 1) false
      else
        let (m, s1) := s.enterBeats ch y k p i t (r + 1)
        if m = 0 then s1
        else ((s1.srcActive y).modChan ch fun z => { z with items := (Item.tok t r).rest m ++ others }).arrived k p
    | .done b => ((s.srcActive y).setChan ch { y with items := others }).modBlock b fun x =>
        { x with doneQ := x.doneQ ++ List.replicate (r + 1) t }
    | .egress e =>
      let w := Tab.get s.xmap e (0, 0)
      let node := fld w.2 51 42
      if t.gen == 0 || s.inDomain node then
        ((s.srcActive y).setChan ch { y with items := others }).queueSeg (portLink (fld w.1 55 48)) false
          (.tok 0 node (fld w.1 47 32) t r)
      else s

/-- Beats that a producer has sent, or has in flight to its output, and that have not been consumed. -/
def State.unconsumed (s : State) (ch : Nat) (y : Chan) : Nat :=
  let queued := match y.dst with
    | .inp k p i => (s.inputOf ch k p i).length
    | _ => 0
  let flying := match y.src with
    | .out k p o => ((s.tile k).pool p).flying o
    | _ => 0
  queued + flying + beatsIn y.items + beatsIn y.stages.flatten + s.linkBeats ch

/-- The store of a port passes the token or the marker at its head toward the block that holds its ingress channel, while the input
has room for it (R121, R376); the credit of a beat that leaves starts back. A marker of a message that this package has not yet
received waits. -/
def State.storeBeat (s : State) (ch : Nat) (y : Chan) (e : Nat) : State :=
  match Tab.get s.stores e [], y.dst with
  | .marker h :: rest, _ => match s.localSeq h with
    | some n => { s with stores := Tab.set s.stores e rest }.setChan ch (y.push (.marker n))
    | none => s
  | .tok t0 r :: rest, .inp k p i =>
    let t := { s.arriving y t0 with tag := y.tag }
    let leave : Nat → List Item → State := fun n its =>
      let s1 := { s with stores := Tab.set s.stores e its }
      if y.pull then s1 else s1.storeCredit e n
    if y.dead.contains t.gen then
      let s1 := leave (r + 1) rest
      if y.pull then s1.dropped ch (r + 1) false else s1
    else
      let room := if s.endLive ch k p i then (((s.tile k).pool p).inp i).depth - s.unconsumed ch y else 0
      if room = 0 then s
      else
        let m := min (r + 1) room
        (leave m ((Item.tok t0 r).rest m ++ rest)).modChan ch fun z => z.push (.tok t (m - 1))
  | _, _ => s

/-- TOKEN_ARRIVE (R120, R125, R126, R376, R377): the next token of a channel reaches its end. -/
def execTokenArrive (ch : Nat) (s : State) : Host.Outcome State Fault Refusal :=
  match Tab.get? s.chans ch with
  | none => .next s
  | some y => match y.items, y.src with
    | .tok t r :: rest, _ => .next (s.tokenEnd ch y t r rest)
    | [], .ingress e => .next (s.storeBeat ch y e)
    | _, _ => .next s

/-! ### Credits and requests (R121, R122) -/

/-- An output changed, where the channel starts there. -/
def State.modOutput (s : State) (ch k : Nat) (p : Pool) (o : Nat) (f : OutPort → OutPort) : State :=
  s.modPool k p fun x => { x with outs := x.outs.modify o fun q => if q.chan = some ch then f q else q }

/-- The channel starts at a live output. -/
def State.startLive (s : State) (ch : Nat) (k : Nat) (p : Pool) (o : Nat) : Bool :=
  (((s.tile k).pool p).out o).chan = some ch

/-- A segment that travels back along a channel that crosses dies, on its last crossing first. -/
def Chan.lastLink (y : Chan) : Option (Nat × Bool) := y.path.getLast?

/-- CREDIT_RETURN (R121, R376): credits on their way back reach the producer's output, or the links toward it; the credits
of a Craxon circuit reach the output that sends on it. -/
def execCreditReturn (ch : Nat) (s : State) : Host.Outcome State Fault Refusal :=
  match Tab.get? s.chans ch with
  | none => .next s
  | some y => match y.src, y.dst with
    | .out k p o, .egress e =>
      let n := Tab.get s.xcredits e 0
      if n = 0 || y.pull || !s.startLive ch k p o then .next s
      else .next ({ s with xcredits := Tab.set s.xcredits e 0 }.modOutput ch k p o fun q => { q with credits := q.credits + n })
    | .out k p o, _ =>
      if y.credBack = 0 then .next s
      else match y.lastLink with
        | some (l, dir) => .next ((s.setChan ch { y with credBack := 0 }).queueSeg l (!dir) (.credit ch 0 0 y.credBack))
        | none =>
          if s.startLive ch k p o then
            .next ((s.setChan ch { y with credBack := 0 }).modOutput ch k p o fun q =>
              { q with credits := q.credits + y.credBack })
          else .next s
    | _, _ => .next (s.setChan ch { y with credBack := 0 })

/-- Requests for the circuit of an egress entry that came before a block held it (R376). -/
def State.earlyReqs (s : State) (e : Nat) : Nat :=
  (Tab.get s.xearly (s.circuitKey e) (0, 0)).2

/-- Those requests join the channel that holds the entry: a pull channel. -/
def State.takeEarly (s : State) (ch : Nat) : State :=
  match Tab.get? s.chans ch with
  | some y => match y.src, y.dst with
    | .out k p o, .egress e =>
      let n := s.earlyReqs e
      if n = 0 then s
      else ({ s with xearly := Tab.del s.xearly (s.circuitKey e) }.setChan ch { y with
        pull := true
        reqBack := y.reqBack + n }).modOutput ch k p o fun q => { q with pull := true }
    | _, _ => s
  | none => s

/-- REQUEST_RETURN (R122): requests on their way upstream reach the producer's output, the links toward it, or the Craxon
port from which the channel comes. -/
def execRequestReturn (ch : Nat) (s0 : State) : Host.Outcome State Fault Refusal :=
  let s := s0.takeEarly ch
  match Tab.get? s.chans ch with
  | none => .next s
  | some y =>
    if y.reqBack = 0 then .next s
    else match y.src, y.lastLink, y.dst with
      | .ingress e, _, _ =>
        let w := Tab.get s.xmap e (0, 0)
        .next ((s.setChan ch { y with reqBack := 0 }).queueSeg (portLink (fld w.1 55 48)) false
          (.request 0 (fld w.2 51 42) (fld w.1 47 32) y.reqBack))
      | .out _ _ _, some (l, dir), .inp _ _ _ =>
        .next ((s.setChan ch { y with reqBack := 0 }).queueSeg l (!dir) (.request ch 0 0 y.reqBack))
      | .out k p o, _, _ =>
        if s.startLive ch k p o then
          .next ((s.setChan ch { y with reqBack := 0 }).modOutput ch k p o fun q => { q with reqs := q.reqs + y.reqBack })
        else .next s
      | .entry _, _, _ => .next (s.setChan ch { y with reqBack := 0 })

/-! ### Credits that a depth resets (R88, R121) -/

/-- Credits of a channel on the links are superseded. -/
def State.dropCredits (s : State) (ch : Nat) : State :=
  let g : Seg → Bool := fun x => match x with
    | .credit c _ _ _ => c != ch
    | _ => true
  { s with links := s.links.map fun (l : Nat × LinkDir) => if innerKey l.1 then (l.1, { l.2 with
      pending := l.2.pending.filter g
      segs := l.2.segs.map fun y => (y.1, y.2.filter g) }) else l }

/-- A push channel's producer holds as many credits as a depth, less the beats not yet consumed (R88, R121). -/
def State.setCredits (s : State) (ch depth : Nat) : State :=
  match Tab.get? s.chans ch with
  | some y => match y.src with
    | .out k p o =>
      if y.pull then s
      else
        let n : Int := (depth : Int) - s.unconsumed ch y
        ((s.dropCredits ch).setChan ch { y with credBack := 0 }).modOutput ch k p o fun q => { q with credits := n }
    | _ => s
  | none => s

/-- Beat slots of a tile that no bound input has (R22, R88). -/
def Tile.freeBeats (t : Tile) : Nat :=
  Config.beatSlots - ((pools.flatMap fun p => (t.pool p).ins).map fun i => if i.code = 0 then 0 else i.depth).sum

/-- DEPTH_TOKEN (R88): the port consumes a depth token at the head. -/
def execDepthToken (tile : Nat) (pool : Pool) (inp : Fin 4) (s : State) : Host.Outcome State Fault Refusal :=
  let q := ((s.tile tile).pool pool).inp inp.val
  match q.queue with
  | h :: _ =>
    if !isDepth h then .next s
    else
      let n := h.side.toNat % 32 + 1
      let spare := (s.tile tile).freeBeats
      let s1 := (s.modPool tile pool fun x => x.popInput inp.val).markActive tile
      if q.depth + spare < n then
        let s2 := s1.creditFor ((s.tile tile).pool pool) inp.val
        .next (s2.report 0x17 ((s.blockOf tile).map (·.lseq)) ((s.blockOf tile).elim 0 (·.job))
          (s.placeOf tile pool inp.val) (w64 n ||| place spare 8) 0 0)
      else
        let s2 := s1.modPool tile pool fun x => { x with ins := x.ins.modify inp.val fun i => { i with depth := n } }
        .next (q.chan.elim s2 fun ch => s2.setCredits ch n)
  | [] => .next s

/-! ### Thread tokens and the done sink (R34, R35, R316) -/

/-- The channel of a block's entry queue. -/
def entryChan (bid : Nat) : Nat := bid * 32768 + 4096

/-- The channel of a block's done sink. -/
def doneChan (bid : Nat) : Nat := bid * 32768 + 4097

/-- The thread token of a unit (R34), under a generation (R291). -/
def threadToken (l : Launch) (i : Nat) (g : BitVec 8) : Tok :=
  ⟨Lanes.ofList [w64 (l.ts i % 2 ^ 48), w64 i, w64 (l.lseq % 2 ^ 32)], 0, 0, false, 7, g, 1, 0⟩

/-- Thread tokens that stand in a block's entry queue. -/
def State.queued (s : State) (bid : Nat) : Nat := (Tab.get? s.chans (entryChan bid)).elim 0 fun y => beatsIn y.items

/-- The cycle of a region: that of its south-west tile. -/
def Region.cyc (r : Region) (s : State) : Nat := (s.core (tileCore (tileKey r.die r.x r.y))).cyc

/-- A block that is not resident begins to wait when it has a thread token (R75). -/
def State.noteWait (s : State) (bid : Nat) : State :=
  match (Tab.get? s.blocks bid).bind fun b => (Tab.get? s.regions b.rid).map fun r => (b, r) with
  | some (b, r) =>
    if b.waitFrom.isNone && r.resident != some bid then s.setBlock bid { b with waitFrom := some (r.cyc s) } else s
  | none => s

/-- A thread token joins an entry queue. -/
def State.placeToken (s : State) (bid : Nat) (t : Tok) : State :=
  (s.modChan (entryChan bid) fun y => { y with items := y.items ++ [.tok t 0] }).noteWait bid

/-- THREAD_TOKEN_ENQUEUE (R34, R291): the next thread token of a launch, where the entry queue of its first block has room.
A token under a fresh generation waits until the block's die knows the tag. -/
def execThreadTokenEnqueue (lseq : Nat) (s : State) : Host.Outcome State Fault Refusal :=
  match Tab.get? s.launches lseq with
  | none => .next s
  | some l =>
    let bid := lseq * 256 + l.firstBlk
    match Tab.get? s.blocks bid with
    | none => .next s
    | some b =>
      if l.st ≠ .placed || fld b.entry.2.1 47 32 ≤ s.queued bid then .next s
      else match l.reTok with
        | (i, g, _) :: rest =>
          if (Tab.get (s.die b.die).mirror g.toNat GenEnt.reset).st = .live then
            .next ((s.setLaunch lseq { l with reTok := rest }).placeToken bid (threadToken l i g))
          else .next s
        | [] =>
          if l.nextTok < l.unitCount then
            .next ((s.setLaunch lseq { l with nextTok := l.nextTok + 1 }).placeToken bid (threadToken l l.nextTok 0))
          else .next s

/-- A run that has ended aborted is placed again under a fresh generation (R291 step 4). -/
def State.endAborted (s : State) (lseq i : Nat) (g : BitVec 8) : State :=
  match Tab.get? s.launches lseq with
  | some l =>
    if s.ratGen g && ((l.unit i).run? g).elim false (·.aborted) && s.runFinished l i g then s.replaceLater lseq i g else s
  | none => s

/-- An END of GEN 0 finishes the oldest unfinished unit of a block, in entry order (R35). -/
def State.finishOldest (s : State) (l : Launch) (blk : Nat) (b : Block) : State :=
  let placed := if blk = l.firstBlk then l.nextTok else l.unitCount
  if b.finished < placed then
    (s.setBlock (l.lseq * 256 + blk) { b with finished := b.finished + 1 }).endAborted l.lseq b.finished 0
  else s

/-- An END of another generation finishes that generation's run (R316). -/
def State.finishRun (s : State) (l : Launch) (blk : Nat) (g : BitVec 8) : State :=
  let e := s.root.ent g.toNat
  if (e.st = .live || e.st = .ratified) && e.lseq = l.lseq then
    (s.modUnit l.lseq e.pos fun u => u.modRun g fun r => { r with fin := putNat r.fin blk }).endAborted l.lseq e.pos g
  else s

/-- UNIT_FINISH (R35, R127, R316): the done sink of a block takes its next token: an END finishes a unit's run, any other
token is dropped. -/
def execUnitFinish (lseq : Nat) (blk : Nat) (s : State) : Host.Outcome State Fault Refusal :=
  match Tab.get? s.launches lseq, Tab.get? s.blocks (lseq * 256 + blk) with
  | some l, some b => match b.doneQ with
    | t :: rest =>
      let b1 : Block := { b with doneQ := rest }
      let s1 := s.setBlock (lseq * 256 + blk) b1
      if t.kind ≠ 1 then .next s1
      else if t.gen == 0 then .next (s1.finishOldest l blk b1)
      else .next (s1.finishRun l blk t.gen)
    | [] => .next s
  | _, _ => .next s

/-! ### Results and epochs -/

/-- RESULT_COMPLETE (R115, R116). -/
def execResultComplete (tile : Nat) (pool : Pool) (idx : Nat) (s : State) : Host.Outcome State Fault Refusal :=
  .next (s.complete tile pool idx)

/-- The shares of the next epoch (R118), from the mean beats that `a` gives each group. -/
def shares (gs : List Group) (a : Group → Nat) : List Group :=
  let w : Group → Nat := fun g => g.w * (a g + 1)
  let total := (gs.map w).sum
  let s : Group → Nat := fun g => 1024 * w g / total
  let rest := 1024 - (gs.map fun g => if g.w = 0 then 0 else s g).sum
  let lowest := gs.findIdx? fun g => g.w != 0
  gs.zipIdx.map fun g =>
    if g.1.w = 0 then g.1
    else { g.1 with
      occ := 0
      credit := s g.1 + if lowest = some g.2 then rest else 0 }

/-- EPOCH_END (R118): after 1,024 cycles of the pool's core the shares of the next epoch are computed. -/
def execEpochEnd (tile : Nat) (pool : Pool) (s : State) : Host.Outcome State Fault Refusal :=
  let x := (s.tile tile).pool pool
  if x.epochAt + 1024 ≤ (s.core (tileCore tile)).cyc && !(s.tile tile).gated then
    .next (s.modPool tile pool fun y => { y with
      groups := shares y.groups fun g => g.occ / 1024
      epochAt := y.epochAt + 1024 })
  else .next s

end Sys2Proof.Machine
end

