-- ==== Sys2Proof/Machine/Integer.lean ====
section
/-! DEFINITION. The integer instructions of the PE pool, lane by lane (R152 to R154), the address registers (R155, R156)
and predicates from lanes (R157). -/

namespace Sys2Proof.Machine

open Sys2Proof

/-- The width that MD bit 0 selects (R152). -/
def intW (md : BitVec 3) : Nat := if md.getLsbD 0 then 32 else 64

/-- An operand lane read at a width, signed or not (R152). -/
def readInt (w : Nat) (u : Bool) (x : Word) : Int :=
  if u then ((x.toNat % 2 ^ w : Nat) : Int) else sextBits x.toNat w

/-- fit: the low W bits, sign-extended at W = 32 (R152). -/
def fit (w : Nat) (v : Int) : Word := if w = 32 then (BitVec.ofInt 32 v).signExtend 64 else BitVec.ofInt 64 v

/-- sat of R152. -/
def satInt (w : Nat) (u : Bool) (v : Int) : Int :=
  if u then min (max v 0) (2 ^ w - 1) else clampS w v

/-- A lane-wise integer instruction: sources of class integer, header by R133, a function of the lanes of A, B and the
old D. -/
def intOp (o : Op) (f : Fields) (s : State) (fmt : Ctx → Tok → BitVec 4) (op : Word → Word → Word → Word) :
    Host.Outcome State Fault Refusal :=
  issue o f s fun c => do
    let a ← c.convA .int
    let b ← c.convB .int
    let d ← if o.shape = .c then c.convD .int else .ok zeroTok
    let h ← c.header
    .ok (c.result (dataTok (Lanes.ofFn fun i => op (a.lanes.get i) (b.lanes.get i) (d.lanes.get i)) h (fmt c a)))

/-- FMT I64, or I32 with `.w` (R152). -/
def fmtW (md : BitVec 3) (_ : Ctx) (_ : Tok) : BitVec 4 := if md.getLsbD 0 then 2 else 1

/-- FMT of A. -/
def fmtA (_ : Ctx) (a : Tok) : BitVec 4 := a.fmt

/-- FMT I64. -/
def fmtI64 (_ : Ctx) (_ : Tok) : BitVec 4 := 1

/-- An arithmetic instruction on integers read at the width of MD, reduced by fit. -/
def arithOp (o : Op) (f : Fields) (s : State) (op : (w : Nat) → (u : Bool) → Int → Int → Int → Int) :
    Host.Outcome State Fault Refusal :=
  let w := intW f.md
  let u := f.md.getLsbD 1
  intOp o f s (fmtW f.md) fun x y z => fit w (op w u (readInt w u x) (readInt w u y) (readInt w u z))

/-- IADD (R153). -/
def execIadd (f : Fields) (s : State) : Host.Outcome State Fault Refusal :=
  arithOp .iadd f s fun _ _ x y _ => x + y

/-- ISUB (R153). -/
def execIsub (f : Fields) (s : State) : Host.Outcome State Fault Refusal :=
  arithOp .isub f s fun _ _ x y _ => x - y

/-- IMUL (R153). -/
def execImul (f : Fields) (s : State) : Host.Outcome State Fault Refusal :=
  arithOp .imul f s fun _ _ x y _ => x * y

/-- IMULH (R153). -/
def execImulh (f : Fields) (s : State) : Host.Outcome State Fault Refusal :=
  arithOp .imulh f s fun w _ x y _ => x * y / 2 ^ w

/-- IMAD (R153). -/
def execImad (f : Fields) (s : State) : Host.Outcome State Fault Refusal :=
  arithOp .imad f s fun _ _ x y z => x * y + z

/-- INEG (R153). -/
def execIneg (f : Fields) (s : State) : Host.Outcome State Fault Refusal :=
  arithOp .ineg f s fun _ _ x _ _ => -x

/-- IABS (R153). -/
def execIabs (f : Fields) (s : State) : Host.Outcome State Fault Refusal :=
  arithOp .iabs f s fun _ _ x _ _ => (x.natAbs : Int)

/-- IMIN (R153). -/
def execImin (f : Fields) (s : State) : Host.Outcome State Fault Refusal :=
  arithOp .imin f s fun _ _ x y _ => min x y

/-- IMAX (R153). -/
def execImax (f : Fields) (s : State) : Host.Outcome State Fault Refusal :=
  arithOp .imax f s fun _ _ x y _ => max x y

/-- ICLAMP (R153). -/
def execIclamp (f : Fields) (s : State) : Host.Outcome State Fault Refusal :=
  arithOp .iclamp f s fun _ _ x y z => max (min x z) y

/-- IADDS (R153). -/
def execIadds (f : Fields) (s : State) : Host.Outcome State Fault Refusal :=
  arithOp .iadds f s fun w u x y _ => satInt w u (x + y)

/-- ISUBS (R153). -/
def execIsubs (f : Fields) (s : State) : Host.Outcome State Fault Refusal :=
  arithOp .isubs f s fun w u x y _ => satInt w u (x - y)

/-- AND (R153). -/
def execAnd (f : Fields) (s : State) : Host.Outcome State Fault Refusal :=
  intOp .and f s fmtA fun x y _ => x &&& y

/-- OR (R153). -/
def execOr (f : Fields) (s : State) : Host.Outcome State Fault Refusal :=
  intOp .or f s fmtA fun x y _ => x ||| y

/-- XOR (R153). -/
def execXor (f : Fields) (s : State) : Host.Outcome State Fault Refusal :=
  intOp .xor f s fmtA fun x y _ => x ^^^ y

/-- ANDN (R153). -/
def execAndn (f : Fields) (s : State) : Host.Outcome State Fault Refusal :=
  intOp .andn f s fmtA fun x y _ => x &&& ~~~y

/-- NOT (R153). -/
def execNot (f : Fields) (s : State) : Host.Outcome State Fault Refusal :=
  intOp .not f s fmtA fun x _ _ => ~~~x

/-- The shift amount y mod W (R152). -/
def shAmt (w : Nat) (y : Word) : Nat := y.toNat % w

/-- SHL (R153). -/
def execShl (f : Fields) (s : State) : Host.Outcome State Fault Refusal :=
  let w := intW f.md
  intOp .shl f s (fmtW f.md) fun x y _ => fit w (readInt w false x * 2 ^ shAmt w y)

/-- SHR (R153). -/
def execShr (f : Fields) (s : State) : Host.Outcome State Fault Refusal :=
  let w := intW f.md
  intOp .shr f s (fmtW f.md) fun x y _ => fit w (readInt w true x / 2 ^ shAmt w y)

/-- SAR (R153). -/
def execSar (f : Fields) (s : State) : Host.Outcome State Fault Refusal :=
  let w := intW f.md
  intOp .sar f s (fmtW f.md) fun x y _ => fit w (readInt w false x / 2 ^ shAmt w y)

/-- x rotated left by n within w bits. -/
def rotNat (w x n : Nat) : Nat := (x * 2 ^ n + x / 2 ^ (w - n)) % 2 ^ w

/-- ROT (R153). -/
def execRot (f : Fields) (s : State) : Host.Outcome State Fault Refusal :=
  let w := intW f.md
  intOp .rot f s (fmtW f.md) fun x y _ => fit w (rotNat w (x.toNat % 2 ^ w) (shAmt w y) : Nat)

/-- Leading zero bits of x within w bits. -/
def clzNat (w x : Nat) : Nat := if x = 0 then w else w - 1 - Nat.log2 x

/-- CLZ (R153). -/
def execClz (f : Fields) (s : State) : Host.Outcome State Fault Refusal :=
  let w := intW f.md
  intOp .clz f s fmtI64 fun x _ _ => w64 (clzNat w (x.toNat % 2 ^ w))

/-- One bits of x below bit n. -/
def popcount (x : Word) (n : Nat) : Nat := (List.range n).foldl (fun k i => if x.getLsbD i then k + 1 else k) 0

/-- POPC (R153). -/
def execPopc (f : Fields) (s : State) : Host.Outcome State Fault Refusal :=
  intOp .popc f s fmtI64 fun x _ _ => w64 (popcount x (intW f.md))

/-- The bit field of BFX at p with length n (R153). -/
def bfx (x : Word) (p n : Nat) (sg : Bool) : Word :=
  let v := x.toNat / 2 ^ p % 2 ^ n
  if sg then BitVec.ofInt 64 (sextBits v n) else w64 v

/-- BFX (R153). -/
def execBfx (f : Fields) (s : State) : Host.Outcome State Fault Refusal :=
  intOp .bfx f s fmtI64 fun x y _ => bfx x (fld y 5 0) (fld y 13 8) (f.md.getLsbD 1)

/-- z with bits p+n−1:p replaced by x mod 2^n (R153). -/
def bfi (x z : Word) (p n : Nat) : Word :=
  let m := w64 ((2 ^ n - 1) * 2 ^ p)
  (z &&& ~~~m) ||| (w64 (x.toNat % 2 ^ n * 2 ^ p) &&& m)

/-- BFI (R153). -/
def execBfi (f : Fields) (s : State) : Host.Outcome State Fault Refusal :=
  intOp .bfi f s fmtI64 fun x y z => bfi x z (fld y 5 0) (fld y 13 8)

/-- SEXT (R153). -/
def execSext (f : Fields) (s : State) : Host.Outcome State Fault Refusal :=
  intOp .sext f s fmtI64 fun x y _ => BitVec.ofInt 64 (sextBits x.toNat (fld y 5 0 + 1))

/-- The conditions of ICMP by MD (R154). -/
def icmpFn (md : Nat) (x y : Word) : Bool :=
  match md with
  | 0 => x == y
  | 1 => x != y
  | 2 => x.slt y
  | 3 => x.sle y
  | 4 => x.ult y
  | 5 => x.ule y
  | 6 => (x &&& y) != 0
  | _ => (x &&& y) == 0

/-- All ones or zero. -/
def flagWord (b : Bool) : Word := if b then BitVec.allOnes 64 else 0

/-- A lane-wise comparison into lanes or a predicate (R154): pN is set when the mask is not empty and the condition holds
in every valid lane. -/
def cmpDone (c : Ctx) (h : Hdr) (hold : Nat → Bool) : Done :=
  if c.f.d.isPred then
    c.result (predRes (h.mask != 0 && (List.range 8).all fun i => !h.mask.getLsbD i || hold i) h)
  else c.result (dataTok (Lanes.ofFn fun i => flagWord (hold i)) h 1)

/-- ICMP (R154). -/
def execIcmp (f : Fields) (s : State) : Host.Outcome State Fault Refusal :=
  issue .icmp f s fun c => do
    let a ← c.convA .int
    let b ← c.convB .int
    let h ← c.header
    .ok (cmpDone c h fun i => icmpFn f.md.toNat (a.lanes.get i) (b.lanes.get i))

/-! ### Address registers (R155, R156) -/

/-- The old value of aD. -/
def Ctx.oldA (c : Ctx) : Nat :=
  match c.f.d with
  | .areg n => (c.x.a.getD n.val 0).toNat
  | _ => 0

/-- An address instruction: 32-bit values of lane 0 of each source into aD. -/
def addrOp (o : Op) (f : Fields) (s : State) (op : (old a b : Nat) → Nat) : Host.Outcome State Fault Refusal :=
  issue o f s fun c => do
    let a ← c.intA
    let b ← c.intB
    let h ← c.header
    .ok (c.result (scalarRes (w64 (op c.oldA (fld a 31 0) (fld b 31 0) % 2 ^ 32)) h))

/-- MOVA (R155). -/
def execMova (f : Fields) (s : State) : Host.Outcome State Fault Refusal := addrOp .mova f s fun _ a _ => a

/-- ADDA (R155). -/
def execAdda (f : Fields) (s : State) : Host.Outcome State Fault Refusal := addrOp .adda f s fun _ a b => a + b

/-- WRAPA's step (R155). -/
def wrapStep (old a b : Nat) : Nat := if b != 0 && b ≤ old + a then old + a - b else old + a

/-- WRAPA (R155). -/
def execWrapa (f : Fields) (s : State) : Host.Outcome State Fault Refusal := addrOp .wrapa f s wrapStep

/-- The conditions of CMPA by MD (R156). -/
def cmpaFn (md a b : Nat) : Bool :=
  match md with
  | 0 => a = b
  | 1 => a ≠ b
  | 2 => a < b
  | _ => a ≤ b

/-- CMPA (R156). -/
def execCmpa (f : Fields) (s : State) : Host.Outcome State Fault Refusal :=
  issue .cmpa f s fun c => do
    let a ← c.intA
    let b ← c.intB
    let h ← c.header
    let r := cmpaFn f.md.toNat (fld a 31 0) (fld b 31 0)
    .ok (c.result (if f.d.isPred then predRes r h else scalarRes (flagWord r) h))

/-- PLANE's test by MD on the lanes of A and lane 0 of B (R157). -/
def planeFn (md : Nat) (a : Tok) (b : Word) : Bool :=
  let l := maskLanes a
  match md with
  | 0 => l.get (fld b 2 0) != 0
  | 1 => bit l.l0 (fld b 5 0)
  | 2 => (List.range 8).any fun i => a.mask.getLsbD i && l.get i != 0
  | _ => a.mask != 0 && (List.range 8).all fun i => !a.mask.getLsbD i || l.get i != 0

/-- PLANE (R157). -/
def execPlane (f : Fields) (s : State) : Host.Outcome State Fault Refusal :=
  issue .plane f s fun c => do
    let b ← c.intB
    let h ← c.header
    .ok (c.result (predRes (planeFn f.md.toNat c.a b) h))

end Sys2Proof.Machine
end

