-- ==== Sys2Proof/Machine/Float.lean ====
section
/-! DEFINITION. WF arithmetic, the transcendental functions, conversions and lane reductions of the PE pool (R213 to R224).
A WF result is always an encoding of R159 (log entry 27). -/

namespace Sys2Proof.Machine

open Sys2Proof

/-! ### Exact arithmetic on values -/

/-- −x. -/
def Val.neg : Val → Val
  | .nan => .nan
  | .inf n => .inf (!n)
  | .fin m e => .fin (-m) e

/-- |x|. -/
def Val.abs : Val → Val
  | .nan => .nan
  | .inf _ => .inf false
  | .fin m e => .fin m.natAbs e

/-- The exact sum, with R215's rules for the values that are not finite. -/
def Val.add : Val → Val → Val
  | .nan, _ => .nan
  | _, .nan => .nan
  | .inf a, .inf b => if a = b then .inf a else .nan
  | .inf a, _ => .inf a
  | _, .inf b => .inf b
  | .fin m e, .fin n f => .fin (dyAdd m e n f).1 (dyAdd m e n f).2

/-- The exact difference. -/
def Val.sub (x y : Val) : Val := x.add y.neg

/-- A value is below zero. -/
def Val.isNeg : Val → Bool
  | .inf n => n
  | .fin m _ => m < 0
  | .nan => false

/-- x × 2^n. -/
def Val.scale (x : Val) (n : Int) : Val :=
  match x with
  | .fin m e => .fin m (e + n)
  | v => v

/-- floor of a finite value. -/
def Val.floor : Val → Int
  | .fin m e => rndInt m e 2
  | _ => 0

/-- floor(log2 |x|) of a finite value that is not zero. -/
def Val.log : Val → Int
  | .fin m e => ilog2 m e
  | _ => 0

/-- The finite value of an integer. -/
def Val.int (n : Int) : Val := .fin n 0

/-- key(x) < key(y) in the ranking order (R214). -/
def Val.keyLt (x y : Val) : Bool :=
  if y.isNan then false else if x.isNan then true else x.lt y

/-- x = y for values that are not NaN. -/
def Val.same (x y : Val) : Bool := !x.isNan && !y.isNan && !x.lt y && !y.lt x

/-! ### Arithmetic (R215 to R218) -/

/-- A lane-wise WF instruction: sources of class WF, header by R133, FMT WF, the rounding mode of MD bits 1:0. -/
def wfOp (o : Op) (f : Fields) (s : State) (op : (rm : Nat) → (x y z : Val) → Word) :
    Host.Outcome State Fault Refusal :=
  issue o f s fun c => do
    let a ← c.convA .wf
    let b ← c.convB .wf
    let d ← if o.shape = .c then c.convD .wf else .ok zeroTok
    let h ← c.header
    let v : Tok → Nat → Val := fun t i => Val.ofWf (t.lanes.get i)
    .ok (c.result (dataTok (Lanes.ofFn fun i => op (f.md.toNat % 4) (v a i) (v b i) (v d i)) h 0))

/-- FADD (R215). -/
def execFadd (f : Fields) (s : State) : Host.Outcome State Fault Refusal :=
  wfOp .fadd f s fun rm x y _ => (x.add y).toWf rm

/-- FSUB (R215). -/
def execFsub (f : Fields) (s : State) : Host.Outcome State Fault Refusal :=
  wfOp .fsub f s fun rm x y _ => (x.sub y).toWf rm

/-- FMUL (R215). -/
def execFmul (f : Fields) (s : State) : Host.Outcome State Fault Refusal :=
  wfOp .fmul f s fun rm x y _ => (x.mul y).toWf rm

/-- FMA (R215): one rounding. -/
def execFma (f : Fields) (s : State) : Host.Outcome State Fault Refusal :=
  wfOp .fma f s fun rm x y z => ((x.mul y).add z).toWf rm

/-- FNEG (R215). -/
def execFneg (f : Fields) (s : State) : Host.Outcome State Fault Refusal :=
  wfOp .fneg f s fun _ x _ _ => x.neg.toWf 0

/-- FABS (R215). -/
def execFabs (f : Fields) (s : State) : Host.Outcome State Fault Refusal :=
  wfOp .fabs f s fun _ x _ _ => x.abs.toWf 0

/-- The value of the lower key, NaN if either is NaN (R216). -/
def Val.fmin (x y : Val) : Val := if x.isNan || y.isNan then .nan else if y.lt x then y else x

/-- The value of the higher key (R216). -/
def Val.fmax (x y : Val) : Val := if x.keyLt y then y else x

/-- FMIN (R216). -/
def execFmin (f : Fields) (s : State) : Host.Outcome State Fault Refusal :=
  wfOp .fmin f s fun _ x y _ => (x.fmin y).toWf 0

/-- FMAX (R216). -/
def execFmax (f : Fields) (s : State) : Host.Outcome State Fault Refusal :=
  wfOp .fmax f s fun _ x y _ => (x.fmax y).toWf 0

/-- FCLAMP's bound of x between y and z (R216). -/
def Val.fclamp (x y z : Val) : Val :=
  if x.isNan || y.isNan || z.isNan then .nan
  else if z.lt y then y
  else
    let m := if z.lt x then z else x
    if m.lt y then y else m

/-- FCLAMP (R216). -/
def execFclamp (f : Fields) (s : State) : Host.Outcome State Fault Refusal :=
  wfOp .fclamp f s fun _ x y z => (x.fclamp y z).toWf 0

/-- The conditions of FCMP by MD (R217). -/
def fcmpFn (md : Nat) (x y : Val) : Bool :=
  let un : Bool := x.isNan || y.isNan
  match md with
  | 0 => x.same y
  | 1 => !x.same y
  | 2 => !un && x.lt y
  | 3 => !un && !y.lt x
  | 4 => un
  | _ => x.keyLt y

/-- FCMP (R217). -/
def execFcmp (f : Fields) (s : State) : Host.Outcome State Fault Refusal :=
  issue .fcmp f s fun c => do
    let a ← c.convA .wf
    let b ← c.convB .wf
    let h ← c.header
    .ok (cmpDone c h fun i => fcmpFn f.md.toNat (Val.ofWf (a.lanes.get i)) (Val.ofWf (b.lanes.get i)))

/-- FSCL (R218): B is of class integer. -/
def execFscl (f : Fields) (s : State) : Host.Outcome State Fault Refusal :=
  issue .fscl f s fun c => do
    let a ← c.convA .wf
    let b ← c.convB .int
    let h ← c.header
    let n : Nat → Int := fun i => min (max (b.lanes.get i).toInt (-(2 ^ 20))) (2 ^ 20)
    .ok (c.result (dataTok (Lanes.ofFn fun i => ((Val.ofWf (a.lanes.get i)).scale (n i)).toWf 0) h 0))

/-- FXP's result (R218). -/
def Val.fxp (x : Val) : Word :=
  match x with
  | .fin m e => if m = 0 then BitVec.ofInt 64 (-(2 ^ 63)) else BitVec.ofInt 64 (ilog2 m e)
  | _ => BitVec.ofInt 64 (2 ^ 63 - 1)

/-- FXP (R218). -/
def execFxp (f : Fields) (s : State) : Host.Outcome State Fault Refusal :=
  issue .fxp f s fun c => do
    let a ← c.convA .wf
    let h ← c.header
    .ok (c.result (dataTok (Lanes.ofFn fun i => (Val.ofWf (a.lanes.get i)).fxp) h 1))

/-- FMANT's result (R218). -/
def Val.fmant (x : Val) : Val := if x.isZero then x else x.scale (-x.log)

/-- FMANT (R218). -/
def execFmant (f : Fields) (s : State) : Host.Outcome State Fault Refusal :=
  wfOp .fmant f s fun _ x _ _ => x.fmant.toWf 0

/-- rnd_int of a value (R161). -/
def Val.rnd (x : Val) (rm : Nat) : Val :=
  match x with
  | .fin m e => .fin (rndInt m e rm) 0
  | v => v

/-- FRND (R218). -/
def execFrnd (f : Fields) (s : State) : Host.Outcome State Fault Refusal :=
  wfOp .frnd f s fun rm x _ _ => (x.rnd rm).toWf 0

/-! ### Tables and constants (R219) -/

/-- The largest number below 2^n that a test admits, for a test that admits every smaller one. -/
def searchFrom (ok : Nat → Bool) : (n s : Nat) → Nat
  | 0, s => s
  | n + 1, s => searchFrom ok n (if ok (s + 2 ^ n) then s + 2 ^ n else s)

/-- E2[j]: S is the integer nearest 2^48 × 2^(j/64). -/
def tabE2 (j : Nat) : Val := .fin (searchFrom (fun n => decide ((2 * n - 1) ^ 64 ≤ 2 ^ (3136 + j))) 50 0) (-48)

/-- n / d, at least 1/2 and at most 1, rounded to 49 bits. -/
def ratio (n d : Nat) : Val := .fin ((2 ^ 50 * n + d) / (2 * d) : Nat) (-49)

/-- RC[j]. -/
def tabRC (j : Nat) : Val := ratio 64 (64 + j)

/-- RS[j], with u = (32 + k) × 2^h / 32. -/
def tabRS (j : Nat) : Val := (ratio 32 (32 + j % 32)).scale (-(j / 32 : Nat))

/-- RQ[j]: S is the integer nearest 2^49 × u^(−1/2). -/
def tabRQ (j : Nat) : Val :=
  .fin (searchFrom (fun n => decide ((2 * n - 1) ^ 2 * ((32 + j % 32) * 2 ^ (j / 32)) ≤ 32 * 2 ^ 100)) 50 0) (-49)

/-- LG[j] = rw(log2(1 + j/64)). -/
def listLG : List Word :=
  ([0x0000000000000000, 0xFFE96E79685C2D23, 0xFFED6BAD3758EFD8, 0xFFF10EB389FA29FA,
    0xFFF1663F6FAC9131, 0xFFF1BC84240ADABC, 0xFFF508C588CDA79E, 0xFFF532AE9E278AE2,
    0xFFF55C01A39FBD68, 0xFFF584C2BD02F03B, 0xFFF5ACF5E2DB4EC9, 0xFFF5D49EE4C32597,
    0xFFF5FBC16B902681, 0xFFF911307DAD30B7, 0xFFF924407AB0E074, 0xFFF937124CEA4CDF] : List Word) ++
  ([0xFFF949A784BCD1B9, 0xFFF95C01A39FBD68, 0xFFF96E221CD9D0CE, 0xFFF9800A563161C5,
    0xFFF991BBA891F171, 0xFFF9A33760A7F605, 0xFFF9B47EBF73882A, 0xFFF9C592FAD295B5,
    0xFFF9D6753E032EA1, 0xFFF9E726AA1E754D, 0xFFF9F7A8568CB06D, 0xFFFD03FDA8B97998,
    0xFFFD0C10500D63AA, 0xFFFD140C9FAA1E54, 0xFFFD1BF311E95D01, 0xFFFD23C41D42727D] : List Word) ++
  ([0xFFFD2B803473F7AD, 0xFFFD3327C6AB49CA, 0xFFFD3ABB3FAA0216, 0xFFFD423B07E986AB,
    0xFFFD49A784BCD1B9, 0xFFFD510118708A90, 0xFFFD5848226989D3, 0xFFFD5F7CFF41E09B,
    0xFFFD66A008E4788D, 0xFFFD6DB196A76195, 0xFFFD74B1FD64E075, 0xFFFD7BA18F93502E,
    0xFFFD82809D5BE707, 0xFFFD894F74B06EF9, 0xFFFD900E6160002D, 0xFFFD96BDAD2ACB5F] : List Word) ++
  ([0xFFFD9D5D9FD5010B, 0xFFFDA3EE7F38E182, 0xFFFDAA708F58014D, 0xFFFDB0E4126BCC87,
    0xFFFDB74948F5532E, 0xFFFDBDA071CC67E7, 0xFFFDC3E9CA2E1A05, 0xFFFDCA258DCA9331,
    0xFFFDD053F6D26089, 0xFFFDD6753E032EA1, 0xFFFDDC899AB3FF57, 0xFFFDE29142E0E014,
    0xFFFDE88C6B3626A7, 0xFFFDEE7B471B3A95, 0xFFFDF45E08BCF065, 0xFFFDFA34E1177C23] : List Word)

def tabLG (j : Nat) : Val := Val.ofWf (listLG.getD j 0)

def cLN2 : Val := Val.ofWf 0xFFFD62E42FEFA39F
def cL2E : Val := Val.ofWf 0x000171547652B830
def cEXP2 : Val := Val.ofWf 0xFFF5EBFBDFF82C59
def cEXP3 : Val := Val.ofWf 0xFFEDC6B08D704A0C
def cLOG2 : Val := Val.ofWf 0xFFFE8EAB89AD47D0
def cLOG3 : Val := Val.ofWf 0xFFF9EC709DC3A040

/-- rw (R219). -/
def Val.rw (v : Val) : Val := Val.ofWf (v.toWf 0)

/-- cubic (R219). -/
def cubic (z c0 c1 c2 c3 : Val) : Val :=
  let t := (z.mul c3).rw
  let t := (c2.add t).rw
  let t := (z.mul t).rw
  let t := (c1.add t).rw
  let t := (z.mul t).rw
  (c0.add t).rw

/-! ### Transcendental functions (R220) -/

/-- fexp2. -/
def fexp2 (x : Val) : Val :=
  match x with
  | .nan => .nan
  | .inf n => if n then .fin 0 0 else .inf false
  | .fin m e =>
    let n := rndInt m e 2
    let g := (Val.fin m e).sub (.int n)
    let j := (g.scale 6).floor
    let r := g.sub (.fin j (-6))
    let p := cubic r (.int 1) cLN2 cEXP2 cEXP3
    ((((tabE2 j.toNat).mul p).rw).scale n).rw

/-- flog2. -/
def flog2 (x : Val) : Val :=
  if x.isNan || x.isNeg then .nan
  else if x.isZero then .inf true
  else match x with
    | .fin m e =>
      let k := ilog2 m e
      let y := (Val.fin m e).scale (-k)
      let j := ((y.sub (.int 1)).scale 6).floor
      let z := ((y.sub (.fin (64 + j) (-6))).mul (tabRC j.toNat)).rw
      let p := cubic z (.int 0) cL2E cLOG2 cLOG3
      ((Val.int k).add ((tabLG j.toNat).add p).rw).rw
    | v => v

/-- frcp. -/
def frcp (x : Val) : Val :=
  match x with
  | .nan => .nan
  | .inf _ => .fin 0 0
  | .fin m e =>
    if m = 0 then .inf false
    else
      let k := ilog2 m e
      let y := (Val.fin m.natAbs e).scale (-k)
      let j := ((y.sub (.int 1)).scale 6).floor.toNat
      let eps := ((Val.int 1).sub (y.mul (tabRC j)).rw).rw
      let r := ((tabRC j).mul (cubic eps (.int 1) (.int 1) (.int 1) (.int 1))).rw
      ((if m < 0 then r.neg else r).scale (-k)).rw

/-- frsq. -/
def frsq (x : Val) : Val :=
  if x.isNan || x.isNeg then .nan
  else if x.isZero then .inf false
  else match x with
    | .fin m e =>
      let k := ilog2 m e
      let h := k % 2
      let y := (Val.fin m e).scale (h - k)
      let j := (32 * h + (((y.scale (-h)).sub (.int 1)).scale 5).floor).toNat
      let eps := ((Val.int 1).sub (y.mul (tabRS j)).rw).rw
      let r := ((tabRQ j).mul (cubic eps (.int 1) (.fin 1 (-1)) (.fin 3 (-3)) (.fin 5 (-4)))).rw
      (r.scale (-((k - h) / 2))).rw
    | _ => .fin 0 0

/-- fsqrt. -/
def fsqrt (x : Val) : Val :=
  match x with
  | .nan => .nan
  | .inf n => if n then .nan else .inf false
  | .fin m e => if m = 0 then .fin 0 0 else if m < 0 then .nan else ((Val.fin m e).mul (frsq (.fin m e))).rw

/-- fexp. -/
def fexp (x : Val) : Val := fexp2 (x.mul cL2E).rw

/-- ftanh. -/
def ftanh (x : Val) : Val :=
  let sgn : Val → Val := fun v => if x.isNeg then v.neg else v
  match x with
  | .nan => .nan
  | .inf _ => sgn (.int 1)
  | .fin m e =>
    let a := Val.fin m.natAbs e
    if a.lt (.fin 1 (-16)) then x
    else if !a.lt (.int 32) then sgn (.int 1)
    else
      let t := fexp (a.scale 1).neg
      sgn (((Val.int 1).sub t).rw.mul (frcp ((Val.int 1).add t).rw)).rw

/-- FRCP (R220). -/
def execFrcp (f : Fields) (s : State) : Host.Outcome State Fault Refusal :=
  wfOp .frcp f s fun _ x _ _ => (frcp x).toWf 0

/-- FRSQ (R220). -/
def execFrsq (f : Fields) (s : State) : Host.Outcome State Fault Refusal :=
  wfOp .frsq f s fun _ x _ _ => (frsq x).toWf 0

/-- FSQRT (R220). -/
def execFsqrt (f : Fields) (s : State) : Host.Outcome State Fault Refusal :=
  wfOp .fsqrt f s fun _ x _ _ => (fsqrt x).toWf 0

/-- FEXP2 (R220). -/
def execFexp2 (f : Fields) (s : State) : Host.Outcome State Fault Refusal :=
  wfOp .fexp2 f s fun _ x _ _ => (fexp2 x).toWf 0

/-- FLOG2 (R220). -/
def execFlog2 (f : Fields) (s : State) : Host.Outcome State Fault Refusal :=
  wfOp .flog2 f s fun _ x _ _ => (flog2 x).toWf 0

/-- FEXP (R220). -/
def execFexp (f : Fields) (s : State) : Host.Outcome State Fault Refusal :=
  wfOp .fexp f s fun _ x _ _ => (fexp x).toWf 0

/-- FTANH (R220). -/
def execFtanh (f : Fields) (s : State) : Host.Outcome State Fault Refusal :=
  wfOp .ftanh f s fun _ x _ _ => (ftanh x).toWf 0

/-! ### Conversion (R221 to R223) -/

/-- CVTIF (R221). -/
def execCvtif (f : Fields) (s : State) : Host.Outcome State Fault Refusal :=
  issue .cvtif f s fun c => do
    let a ← c.convA .int
    let h ← c.header
    let v : Word → Int := fun w => if f.md.getLsbD 2 then (w.toNat : Int) else w.toInt
    .ok (c.result (dataTok (Lanes.ofFn fun i => roundWf (v (a.lanes.get i)) 0 (f.md.toNat % 4)) h 0))

/-- CVTFI's integer for a value (R221). -/
def cvtfi (bits rm : Nat) (x : Val) : Word :=
  match x with
  | .nan => 0
  | .inf n => BitVec.ofInt 64 (if n then -(2 ^ (bits - 1)) else 2 ^ (bits - 1) - 1)
  | .fin m e => BitVec.ofInt 64 (clampS bits (rndInt m e rm))

/-- CVTFI (R221). -/
def execCvtfi (f : Fields) (s : State) : Host.Outcome State Fault Refusal :=
  issue .cvtfi f s fun c => do
    let a ← c.convA .wf
    let h ← c.header
    let w : Bool := f.md.getLsbD 2
    .ok (c.result (dataTok (Lanes.ofFn fun i => cvtfi (if w then 32 else 64) (f.md.toNat % 4) (Val.ofWf (a.lanes.get i))) h
      (if w then 2 else 1)))

/-- QBLK (R222). -/
def execQblk (f : Fields) (s : State) : Host.Outcome State Fault Refusal :=
  issue .qblk f s fun c => do
    let a ← c.convA .wf
    let h ← c.header
    let bits := if f.md.getLsbD 0 then 4 else 8
    let (x, qs) := alignBlock ((List.range 8).map fun i => Val.ofWf (a.lanes.get i)) bits (f.md.toNat / 2) true
    let t := dataTok (Lanes.ofList [packLane qs bits]) { h with mask := if h.mask = 0 then 0 else 1 } (if bits = 8 then 4 else 5)
    .ok (c.result { t with side := sideOfScales x (-2047) })

/-- DQBLK (R222): a source of FMT ALN4 raises FMT_CONV. -/
def execDqblk (f : Fields) (s : State) : Host.Outcome State Fault Refusal :=
  issue .dqblk f s fun c => do
    let a ← c.convA .aligned
    let h ← c.header
    if a.fmt != 4 then .error (c.convFlt (some f.a) c.a .aligned)
    else
      let vs := alnLane a f.md.toNat
      .ok (c.result (dataTok (Lanes.ofFn fun i => (vs.getD i (.fin 0 0)).toWf 0)
        { h with mask := if a.mask.getLsbD f.md.toNat then 0xFF else 0 } 0))

/-- FMTQ's format by MD (R223). -/
def fmtqCode (md : Nat) : Nat :=
  match md with
  | 0 => 0x08
  | 1 => 0x09
  | 2 => 0x10
  | 3 => 0x11
  | 4 => 0x12
  | 5 => 0x13
  | 6 => 0x14
  | _ => 0x0A

/-- A value on the grid of a format (R223). -/
def fmtq (c : Nat) (v : Val) : Val := if v.isNan then .nan else decodeElem c (encodeElem c v 0 false).1

/-- FMTQ (R223). -/
def execFmtq (f : Fields) (s : State) : Host.Outcome State Fault Refusal :=
  wfOp .fmtq f s fun _ x _ _ => (fmtq (fmtqCode f.md.toNat) x).toWf 0

/-! ### Lane reductions (R224) -/

/-- rsum (R224) of eight values, with a rounding at every node. -/
def rsum (v : Nat → Val) (rm : Nat) : Val :=
  let nd : Val → Val → Val := fun x y => Val.ofWf ((x.add y).toWf rm)
  nd (nd (nd (v 0) (v 1)) (nd (v 2) (v 3))) (nd (nd (v 4) (v 5)) (nd (v 6) (v 7)))

/-- The values of the valid lanes. -/
def validVals (t : Tok) : List Val :=
  ((List.range 8).filter fun i => t.mask.getLsbD i).map fun i => Val.ofWf (t.lanes.get i)

/-- A reduction's result where R224 places it. -/
def reduceTok (h : Hdr) (bc : Bool) (v : Val) : Tok :=
  if h.mask = 0 then dataTok Lanes.zero h 0
  else if bc then dataTok (Lanes.splat (v.toWf 0)) { h with mask := 0xFF } 0
  else dataTok (Lanes.ofList [v.toWf 0]) { h with mask := 1 } 0

/-- A reduction of A's valid lanes. -/
def reduceOp (o : Op) (f : Fields) (s : State) (op : Tok → Val) : Host.Outcome State Fault Refusal :=
  issue o f s fun c => do
    let a ← c.convA .wf
    let h ← c.header
    .ok (c.result (reduceTok { h with mask := a.mask } (f.md.getLsbD 2) (op a)))

/-- RSUM (R224). -/
def execRsum (f : Fields) (s : State) : Host.Outcome State Fault Refusal :=
  reduceOp .rsum f s fun a => rsum (fun i => Val.ofWf (a.lanes.get i)) (f.md.toNat % 4)

/-- RMAX (R224). -/
def execRmax (f : Fields) (s : State) : Host.Outcome State Fault Refusal :=
  reduceOp .rmax f s fun a => (validVals a).foldl Val.fmax .nan

/-- RMIN (R224). -/
def execRmin (f : Fields) (s : State) : Host.Outcome State Fault Refusal :=
  reduceOp .rmin f s fun a => (validVals a).foldl (fun x y => if y.keyLt x then y else x) (.inf false)

end Sys2Proof.Machine
end

