-- ==== Sys2Proof/Machine/Host.lean ====
section
/-! DEFINITION. What the host does through BAR0 and BAR2 (R48 to R57, R62 to R65, R346, R353, R357, R383, R386, R387),
with the fetch and the checks of launch packets, and the event ring. -/

namespace Sys2Proof.Machine

open Sys2Proof

/-! ### Features and ENABLE (R49, R50, R353, R397) -/

/-- The features the device offers (R50). -/
def featOffer (f : Nat) : Word := if f = 0 then 0x7F else 0

/-- Feature bit `n` of FEAT_ACCEPT[0] is accepted. -/
def State.feature (s : State) (n : Nat) : Bool := bit (s.host.accept.getD 0 0) n

/-- FEAT_ACCEPT_WRITE (R48): ignored from ENABLE on. -/
def execFeatAcceptWrite (f : Fin 4) (v : Word) (s : State) : Host.Outcome State Fault Refusal :=
  if s.host.enabled then .next s
  else .next { s with host := { s.host with
    accept := s.host.accept.set f.val (v &&& featOffer f.val)
    mismatch := s.host.mismatch || (v &&& ~~~featOffer f.val) != 0 } }

/-- Every chiplet has attested or been quarantined (R397). -/
def Trust.settled (t : Trust) : Bool := t.attested ||| t.quarantined == BitVec.allOnes 26

/-- ENABLE (R48, R49, R353, R397): refused with SAVE_SHORT while the save area is below 6 GiB, and refused until every
chiplet has attested or been quarantined. The event ring starts at entry 0 (R63). -/
def execEnable (v : Word) (s : State) : Host.Outcome State Fault Refusal :=
  if !bit v 0 || s.host.enabled then .next s
  else if s.host.saveLen.toNat < 6 then .next { s with host := { s.host with saveShort := true } }
  else if !s.trust.settled then .next s
  else .next { s with
    host := { s.host with enabled := true }
    evq := { s.evq with
      written := 0
      armed := true } }

/-- FUNCTION_RESET (R49): ENABLE is cleared and the accepted features end (log entry 31). -/
def execFunctionReset (s : State) : Host.Outcome State Fault Refusal :=
  .next { s with host := { s.host with
    enabled := false
    accept := [0, 0, 0, 0] } }

/-! ### Jobs (R51) -/

/-- JOB_CREATE (R51): a write of JOB_CTL whose CMD is 1. -/
def execJobCreate (j : Fin 64) (v : Word) (s : State) : Host.Outcome State Fault Refusal :=
  if fld v 63 62 ≠ 1 then .next s
  else
    let x := s.job j.val
    if x.st = 0 then
      .next (s.setJob j.val { Job.reset with
        st := 1
        prio := fld v 59 56
        ptroot := fld v 51 12
        dampN := x.dampN
        dampW := x.dampW })
    else .next (s.report 0x07 none j.val (w64 j.val) v 0 0)

/-! ### Launch queues (R52 to R57) -/

/-- LOG2SZ of a queue. -/
def LaunchQ.log2 (x : LaunchQ) : Nat := fld x.cfg 11 8

/-- The queue is enabled (R52). -/
def LaunchQ.on (x : LaunchQ) : Bool := bit x.cfg 0 && 1 ≤ x.log2 && x.log2 ≤ 12

/-- LQ_CFG_WRITE (R52): a write while EN is 1 sets the head to zero and discards what is not yet fetched. -/
def execLqCfgWrite (q : Fin 16) (v : Word) (s : State) : Host.Outcome State Fault Refusal :=
  let x := s.lq q.val
  let y : LaunchQ := { x with cfg := v &&& 0xF11 }
  .next (s.setLq q.val (if bit x.cfg 0 then { y with head := 0, ranges := [], reads := 0 } else y))

/-- A range of packets to fetch joins those of its queue (R54, R56): a notify governs the packets that it first
covers. -/
def LaunchQ.extend (x : LaunchQ) (last : BitVec 32) (ro : Bool) : LaunchQ :=
  match x.ranges.getLast? with
  | some (old, _) => if (old - x.head).toNat < (last - x.head).toNat then { x with ranges := x.ranges ++ [(last, ro)] } else x
  | none => { x with ranges := [(last, ro)] }

/-- LQ_NOTIFY (R49, R50, R54, R56): `port` is the host port of the write, `ro` its relaxed-ordering attribute. The port of IOD[1]
is down while that die is quarantined (R398), and nothing comes by it. -/
def execLqNotify (q : Fin 16) (v : Word) (port ro : Bool) (s : State) : Host.Outcome State Fault Refusal :=
  let x := s.lq q.val
  if port && s.trust.quarantined.getLsbD 9 then .next s
  else if !s.host.enabled then .next { s with host := { s.host with dropped := s.host.dropped + 1 } }
  else
    let other := port != bit x.cfg 4
    let drop := s.report 0x06 none 0 (w64 q.val ||| place (b01 other) 8) v 0 0
    let last : BitVec 32 := v.extractLsb' 32 32 + 1
    let n := (last - x.head).toNat
    if !x.on || other then .next drop
    else if n = 0 then .next s
    else if n ≤ 2 ^ x.log2 then
      .next (s.setLq q.val (x.extend last (ro && s.feature 0)))
    else .next drop

/-- A reserved field of a packet, the unused half of a kind-2 operand among them, is nonzero (R55, R57). -/
def packetReserved (w : Nat → Word) (aw : List (Nat × Nat)) : Bool :=
  fld (w 0) 59 56 != 0 || fld (w 0) 37 32 != 0 || fld (w 1) 63 52 != 0 || fld (w 4) 37 32 != 0 ||
    aw.any fun a => a.1 = 2 && a.2 / 2 ^ 16 != 0

/-- A launch record of a packet, before it has a sequence number. -/
def Launch.ofPacket (ws : List Word) (lseq seq : Nat) : Launch where
  lseq := lseq
  words := ws
  seq := seq
  st := .accepted
  cause := none
  faulted := false
  count := 0
  aborts := 0
  retv := 0
  img := none
  places := []
  nextTok := 0
  reTok := []
  late := none
  units := []
  undeclSeen := false

/-- The index of the first check of LAUNCH_FORMAT that a packet of queue `q` fails (R57, R66). -/
def formatCheck (q : Nat) (l : Launch) : Option Nat :=
  let aw := l.awaits
  [packetReserved l.w aw, l.prio != q, l.unitCount = 0, fld (l.w 1) 5 0 != 0, l.lastBlk < l.firstBlk, l.dieMask = 0,
    l.place = 3, aw.any fun a => a.1 = 3, aw.any fun a => a.1 = 0 && a.2 != 0,
    aw.any fun a => a.1 = 1 && a.2 = l.graph, aw.any fun a => a.1 = 2 && a.2 = l.phase].findIdx? id

/-- A packet's timestamps are rejected (R36). -/
def badTs (l : Launch) : Bool := l.stride = 0 || 2 ^ 48 ≤ l.tsbase + l.stride * (l.unitCount - 1)

/-- A fetched packet is checked: the event that rejects it, with its w3 (R57). -/
def State.packetCheck (s : State) (q : Nat) (n : BitVec 32) (ws : List Word) : Option (Nat × Word) :=
  let l := Launch.ofPacket ws 0 0
  match formatCheck q l with
  | some i => some (0x01, w64 n.toNat ||| place i 32)
  | none =>
    let j := s.job l.job
    if j.st ≠ 1 || j.prio < l.prio then some (0x03, w64 n.toNat)
    else if badTs l then some (0x02, w64 n.toNat)
    else none

/-- A packet whose seal has matched leaves its slot: it is checked, or rejected (R54, R57). -/
def State.takePacket (s : State) (q : Nat) (x : LaunchQ) (ws : List Word) : State :=
  let n := x.head
  let y : LaunchQ := { x with
    head := n + 1
    reads := 0
    ranges := x.ranges.dropWhile fun r => r.1 == n + 1 }
  match s.packetCheck q n ws with
  | some (code, w3) => (s.setLq q y).report code none (fld (ws.getD 0 0) 43 38) (w64 q) w3 0 0
  | none => s.setLq q { y with checked := y.checked ++ [(n, ws)] }

/-- One read of the slot at a queue's head (R52, R53, R56). -/
def State.readPacket (s : State) (q : Nat) : State :=
  let x := s.lq q
  match x.ranges with
  | [] => s
  | (_, ro) :: _ =>
    let n := x.head
    let ws := s.mem.words (x.base.toNat / 8 + 16 * (n.toNat % 2 ^ x.log2)) 16
    if ws.getD 15 0 = n ++ ~~~n then s.takePacket q x ws
    else
      let reads := x.reads + 1
      if ro && reads ≤ s.host.lqRetry.toNat then s.setLq q { x with reads := reads, readAt := s.refCyc }
      else
        (s.setLq q { x with ranges := [], reads := 0 }).report 0x05 none 0 (w64 q)
          (w64 n.toNat ||| place reads 32) 0 0

/-- PACKET_FETCH (R54, R56, R57): the first read of the slot at a queue's head. Fetches wait during the thermal sequence
(R358). -/
def execPacketFetch (q : Fin 16) (s : State) : Host.Outcome State Fault Refusal :=
  .next (if (s.lq q.val).reads = 0 && s.thermal.critDies.isEmpty then s.readPacket q.val else s)

/-- SEAL_REREAD (R56): a further read of the slot, 250 ns after the last. -/
def execSealReread (q : Fin 16) (s : State) : Host.Outcome State Fault Refusal :=
  let x := s.lq q.val
  .next (if x.reads != 0 && decide (x.readAt + Config.sealSpacing ≤ s.refCyc) && s.thermal.critDies.isEmpty then
    s.readPacket q.val else s)

/-! ### The event ring (R62 to R65) -/

/-- An event's words (R65), with its phase bit. -/
def Event.words (e : Event) (ph : Bool) : List Word :=
  [place (b01 ph) 63 ||| place e.code 32 ||| w64 e.lseq.toNat, place e.job.toNat 58 ||| w64 (e.time % 2 ^ 48),
    e.w2, e.w3, e.w4, e.w5, e.w6, e.w7]

/-- The entries of the event ring, none while the queue is disabled (R62). -/
def HostRegs.ring (h : HostRegs) : Option Nat :=
  let n := fld h.evqCfg 4 0
  if 6 ≤ n && n ≤ 20 then some (2 ^ n) else none

/-- The ring is full: the next write would reach EVQ_HEAD (R63). -/
def State.ringFull (s : State) (n : Nat) : Bool := (s.evq.written + 1) % n = s.host.evqHead.toNat % n

/-- Words written to host memory from an address on. -/
def hostWrite (cs : List Host.Cell) (a : Nat) : List Word → List Host.Cell
  | [] => cs
  | w :: rest => hostWrite ((List.range 8).foldl (fun cs i => putCell cs (a + i) (byteOf w i)) cs) (a + 8) rest

/-- EVENT_WRITE (R49, R62, R63): the oldest event held is written, and may raise an interrupt. -/
def execEventWrite (s : State) : Host.Outcome State Fault Refusal :=
  match s.evq.held, s.host.ring with
  | e :: rest, some n =>
    if !s.host.enabled || s.ringFull n then .next s
    else
      let i := s.evq.written
      let raises := bit s.host.evqCfg 8 && s.feature 5 && s.evq.armed
      .next { s with
        hostMem := hostWrite s.hostMem (s.host.evqBase.toNat + 64 * (i % n)) (e.words (i / n % 2 = 0))
        evq := { s.evq with
          held := rest
          settled := s.evq.settled - 1
          written := i + 1
          armed := s.evq.armed && !raises
          interrupts := s.evq.interrupts + b01 raises } }
  | _, _ => .next s

/-- EVQ_HEAD_WRITE (R63): entries are freed, and the next event write may interrupt again. -/
def execEvqHeadWrite (v : Word) (s : State) : Host.Outcome State Fault Refusal :=
  .next { s with
    host := { s.host with evqHead := v }
    evq := { s.evq with armed := true } }

/-! ### The other registers -/

/-- A write of THERM_CTL takes effect (R353). -/
def thermOk (v : Word) : Bool := 85 ≤ fld v 7 0 && fld v 7 0 ≤ 115 && fld v 15 8 + 10 ≤ fld v 7 0

/-- A register of the host that a write changes while its values are in range (R48, R353, R375). The low bits of EVQ_BASE, which
must be zero, are dropped (DESIGN CHOICE, log entry 92). -/
def HostRegs.write (h : HostRegs) (off : Nat) (v : Word) : HostRegs :=
  match off with
  | 0x50 => { h with lqRetry := v.setWidth 8 }
  | 0x800 => { h with evqBase := v &&& ~~~0xFFF }
  | 0x808 => { h with evqCfg := v &&& (if bit (h.accept.getD 0 0) 5 then 0x11F else 0x1F) }
  | 0x8A0 => if h.enabled then h else { h with saveBase := v &&& 0xFFFFFC0000000 }
  | 0x8A8 => if h.enabled then h else { h with saveLen := v.setWidth 8 }
  | 0x8C0 => if fld v 15 0 = 0 then h else { h with yieldBound := v.setWidth 16 }
  | 0x8C8 => if thermOk v then { h with thermCrit := v.setWidth 8, thermResume := (v >>> 8).setWidth 8 } else h
  | 0x900 => if h.enabled then h else { h with xnode := v.setWidth 10 }
  | _ => h

/-- A write of PWR_CAP or UNDECL_RATE (R387). -/
def Power.write (p : Power) (off : Nat) (v : Word) : Power :=
  match off with
  | 0xA00 => let c := fld v 15 0; if 1800 ≤ c && c ≤ 3400 && c % 25 = 0 then { p with cap := c } else p
  | 0xA10 => let r := fld v 4 0; if 1 ≤ r && r ≤ 16 then { p with undeclRate := r } else p
  | _ => p

/-- A write of DAMP_JOB (R387): a W outside its range is ignored. -/
def Job.setDamp (x : Job) (v : Word) : Job :=
  let w := fld v 31 16
  { x with
    dampN := fld v 15 0
    dampW := if 64 ≤ w then w else x.dampW }

/-- REGISTER_WRITE (R5, R48, R353, R375, R387): a register without an instruction of its own; a read-only register, and
an offset that is no register, ignores the write. The low bits of LQ_BASE, which must be zero, are dropped (DESIGN CHOICE, log
entry 92). -/
def execRegisterWrite (off : Nat) (v : Word) (s : State) : Host.Outcome State Fault Refusal :=
  if 0x400 ≤ off && off < 0x600 && off % 32 = 0 then
    let q := (off - 0x400) / 32
    .next (s.setLq q { s.lq q with base := v &&& ~~~0x7F })
  else if 0xC40 ≤ off && off < 0xE40 && off % 8 = 0 then
    let j := (off - 0xC40) / 8
    .next (s.setJob j ((s.job j).setDamp v))
  else .next { s with
    host := s.host.write off v
    power := s.power.write off v }

/-- QWC_ACK (R346, R353): snapshot slots are free again. -/
def execQwcAck (v : Word) (s : State) : Host.Outcome State Fault Refusal :=
  .next { s with host := { s.host with snapBusy := s.host.snapBusy &&& ~~~v.setWidth 8 } }

/-! ### BAR2 (R294, R357, R383) -/

/-- First offset of BAR2 above HBM (R383). -/
def bar2End : Nat := 0xC000000000

/-- A byte that BAR2 shows: above HBM all ones. -/
def Mem.bar2Byte (m : Mem) (a : Nat) : Byte := if a < bar2End then m.byte a else 0xFF

/-- The eight bytes of BAR2 from an offset on, little-endian (R4). -/
def Mem.bar2Word (m : Mem) (a : Nat) : Word :=
  m.bar2Byte (a + 7) ++ m.bar2Byte (a + 6) ++ m.bar2Byte (a + 5) ++ m.bar2Byte (a + 4) ++
    m.bar2Byte (a + 3) ++ m.bar2Byte (a + 2) ++ m.bar2Byte (a + 1) ++ m.bar2Byte a

/-- A byte of those eight lies in a poisoned word of HBM. -/
def Mem.bar2Psn (m : Mem) (a : Nat) : Bool := [a, a + 7].any fun x => decide (x < bar2End) && m.isPsn (x / 8)

/-- BAR2_READ (R294, R357, R383): the committed bytes from an offset on, with the poisoned bit. -/
def execBar2Read (off : Nat) (s : State) : Host.Outcome State Fault Refusal :=
  .next { s with host := { s.host with bar2 := (s.mem.bar2Word off, s.mem.bar2Psn off) } }

/-- Bytes written from an address on; those above HBM are dropped. -/
def Mem.bar2Put (m : Mem) (a : Nat) : List Byte → Mem
  | [] => m
  | b :: rest => (if a < bar2End then m.setByte a b else m).bar2Put (a + 1) rest

/-- BAR2_WRITE (R53, R383): the data of one write, bytes from an offset on, all at once. A word of HBM that it writes whole is no
longer poisoned (R260). -/
def execBar2Write (off : Nat) (bytes : List Byte) (s : State) : Host.Outcome State Fault Refusal :=
  let m := s.mem.bar2Put off bytes
  .next (s.setMem { m with poison := m.poison.filter fun w =>
    !(off ≤ 8 * w && 8 * w + 8 ≤ off + bytes.length && 8 * w + 8 ≤ bar2End) })

/-! ### Core clocks (R386) -/

/-- CLK_CTL_WRITE (R386): a REQ outside 16 to 68 is ignored, and so is a write while firmware is handed over, when the clocks stand
(R405). -/
def execClkCtlWrite (c : Fin 64) (v : Word) (s : State) : Host.Outcome State Fault Refusal :=
  let r := fld v 6 0
  .next (if Config.clockBottom ≤ r && r ≤ Config.clockTop && decide (s.trust.fwState ≠ 3) then s.setCore c.val { s.core c.val with req := r } else s)

/-- CLOCK_STEP (R386): the clock moves one setting toward REQ. -/
def execClockStep (c : Fin 64) (s : State) : Host.Outcome State Fault Refusal :=
  let k := s.core c.val
  .next (s.setCore c.val { k with cur := if k.cur < k.req then k.cur + 1 else if k.req < k.cur then k.cur - 1 else k.cur })

end Sys2Proof.Machine
end

