-- ==== Sys2Proof/Machine/Place.lean ====
section
/-! DEFINITION. The launch arbiter (R58, R59, R67, R89, R413), the placement algorithm with regions, tags and circuits
(R68 to R72, R376), and what a die does with each record of the arbiter's stream (R59, R89, R412). -/

namespace Sys2Proof.Machine

open Sys2Proof

/-! ### CRC-32C (R44) -/

/-- `n` shifts of the reflected Castagnoli polynomial. -/
def crcShift : (n : Nat) → BitVec 32 → BitVec 32
  | 0, c => c
  | n + 1, c => crcShift n (if c.getLsbD 0 then (c >>> 1) ^^^ 0x82F63B78 else c >>> 1)

/-- One word, little-endian, taken into a running CRC. -/
def crcWord (c : BitVec 32) (w : Word) : BitVec 32 :=
  (List.range 8).foldl (fun c i => crcShift 8 (c ^^^ (byteOf w i).setWidth 32)) c

/-- CRC-32C of words. -/
def crc32c (ws : List Word) : BitVec 32 := ~~~(ws.foldl crcWord 0xFFFFFFFF)

/-! ### Fields of the tables of an image (R38, R39) -/

/-- A block-table entry. -/
abbrev BlkEntry := Word × Word × Word

def eWm1 (e : BlkEntry) : Nat := fld e.1 63 59
def eHm1 (e : BlkEntry) : Nat := fld e.1 58 54
def eDie (e : BlkEntry) : Nat := fld e.1 53 51
def eX0 (e : BlkEntry) : Nat := fld e.1 50 46
def eY0 (e : BlkEntry) : Nat := fld e.1 45 41
def ePermits (e : BlkEntry) : Nat := fld e.1 40 35
def eTfirst (e : BlkEntry) : Nat := fld e.1 31 0
def eNtiles (e : BlkEntry) : Nat := fld e.2.1 63 48
def eEqd (e : BlkEntry) : Nat := fld e.2.1 47 32
def eQuantum (e : BlkEntry) : Nat := fld e.2.1 31 0
def eStarve (e : BlkEntry) : Nat := fld e.2.2 63 32
/-- The QWC window; 0 means 65,536 (R38). -/
def eQwcw (e : BlkEntry) : Nat := if fld e.2.2 31 0 = 0 then 65536 else fld e.2.2 31 0

def cSx (w : Word) : Nat := fld w 63 59
def cSy (w : Word) : Nat := fld w 58 54
def cSpool (w : Word) : Nat := fld w 53 52
def cSout (w : Word) : Nat := fld w 51 50
def cDx (w : Word) : Nat := fld w 49 45
def cDy (w : Word) : Nat := fld w 44 40
def cDpool (w : Word) : Nat := fld w 39 38
def cDin (w : Word) : Nat := fld w 37 36
def cChn (w : Word) : Nat := fld w 35 24
def cDblk (w : Word) : Nat := fld w 23 16
def cSblk (w : Word) : Nat := fld w 15 8

/-- A block's entry in an image. -/
def ImgTab.entry (t : ImgTab) (b : Nat) : BlkEntry := t.blocks.getD b (0, 0, 0)

/-! ### The block-table cache (R67) -/

/-- Words of a job's address space with their poison, or where the walk stopped: address, cause and level. -/
def State.readVa (s : State) (job va : Nat) : (n : Nat) → Except (Nat × Nat × Nat) (List (Word × Bool))
  | 0 => .ok []
  | n + 1 =>
    match s.walk job (va % 2 ^ 52) false with
    | .ok pa _ _ _ => (s.readVa job (va + 8) n).map fun ws => (s.mem.word (pa / 8), s.globalPsn (pa / 8)) :: ws
    | .fault c l => .error (va % 2 ^ 52, c, l)

/-- Words in threes. -/
def triples : List Word → List BlkEntry
  | a :: b :: c :: rest => (a, b, c) :: triples rest
  | _ => []

/-- The tables of an image from its words (R37, R44, R45); the words run to the end of the channel table. -/
def ImgTab.ofWords (ws : List Word) : ImgTab :=
  let w : Nat → Word := fun i => ws.getD i 0
  let nblk := fld (w 1) 63 48
  let nchan := fld (w 1) 47 32
  let off := 8 + 3 * nblk
  { vstamp := (w 0).setWidth 32
    nblk := nblk
    toff := fld (w 2) 31 0
    ntile := fld (w 1) 31 0
    crc := crc32c (ws.take 7 ++ (ws.drop 8))
    hcrc := (w 7).extractLsb' 32 32
    headOk := fld (w 0) 63 32 = 0x584F5045 && 1 ≤ nblk && nblk ≤ 256 && nchan ≤ 4096 && fld (w 2) 63 32 = off &&
      fld (w 2) 31 0 = off + nchan
    resOk := fld (w 4) 31 0 = 0 && w 5 == 0 && w 6 == 0 && fld (w 7) 31 0 = 0
    blocks := triples ((ws.drop 8).take (3 * nblk))
    chans := (ws.drop off).take nchan }

/-- HCRC agrees with the words read (R44, R67). -/
def ImgTab.crcOk (t : ImgTab) : Bool := t.crc == t.hcrc

/-- The words of an image's header and tables. -/
def tableWords (w1 : Word) : Nat := 8 + 3 * fld w1 63 48 + fld w1 47 32

/-- An image's tables as the arbiter reads them from memory. -/
def State.readTables (s : State) (job va : Nat) : Except (Nat × Nat × Nat) (List Word) :=
  match s.readVa job va 8 with
  | .ok h => (s.readVa job va (tableWords ((h.getD 1 (0, false)).1))).map fun ws => ws.map (·.1)
  | .error e => .error e

/-- The block-table cache with an image used (R67): of more than 256, the least recently used one goes (DESIGN CHOICE, log
entry 92). -/
def Arbiter.use (a : Arbiter) (job va : Nat) (t : ImgTab) : Arbiter :=
  { a with cache := ((job, va, t) :: a.cache.filter fun x => !(x.1 = job && x.2.1 = va)).take Config.tableCacheImages }

/-! ### Acceptance (R58, R64, R413) -/

/-- Launches accepted and not retired. -/
def State.unretired (s : State) : Nat := (s.launches.filter fun kl => decide (kl.2.st ≠ LaunchSt.retired)).length

/-- The highest queue that holds a checked packet. -/
def State.nextPacket (s : State) : Option (Nat × LaunchQ × BitVec 32 × List Word) :=
  s.lqs.foldl (fun acc q => match q.2.checked with
    | p :: _ => some (q.1, q.2, p.1, p.2)
    | [] => acc) none

/-- The arbiter can accept a launch. -/
def State.accepting (s : State) : Bool :=
  decide (s.unretired < Config.maxLaunches) && decide (s.evq.held.length * 4 ≤ Config.eventHold * 3) && s.nextPacket.isSome

/-- A launch joins its graph and phase, created where it names them first (R29, R58). -/
def State.joinWork (s : State) (l : Launch) : State :=
  let s1 := match s.graph? l.job l.phase l.graph with
    | some _ => s
    | none => { s with graphs := s.graphs ++ [(⟨l.job, l.phase, l.graph, 0, [], none, false, false, 0⟩ : Graph)] }
  let s2 := match s1.phase? l.job l.phase with
    | some _ => s1
    | none => { s1 with phases := s1.phases ++ [(⟨l.job, l.phase, 0, [], none, false, false, 0⟩ : Phase)] }
  (s2.modGraph l.job l.phase l.graph fun g => { g with
      launches := g.launches ++ [l.lseq]
      last := if l.lastG then g.last.orElse fun _ => some l.lseq else g.last }).modPhase l.job l.phase fun x => { x with
      graphs := if x.graphs.contains l.graph then x.graphs else x.graphs ++ [l.graph]
      lastGraph := if l.lastP then x.lastGraph.orElse fun _ => some l.graph else x.lastGraph }

/-- ACCEPT_LAUNCH (R58, R64, R413). -/
def execAcceptLaunch (s : State) : Host.Outcome State Fault Refusal :=
  if !s.accepting then .next s
  else match s.nextPacket with
    | none => .next s
    | some (q, x, n, ws) =>
      let l := Launch.ofPacket ws s.arb.nextLseq n.toNat
      let old := (s.graph? l.job l.phase l.graph).any (·.retired) || (s.phase? l.job l.phase).any (·.retired)
      let s1 := ((s.setLq q { x with checked := x.checked.drop 1 }).setLaunch l.lseq l).joinWork l
      let s2 := { s1 with arb := { s1.arb with nextLseq := (s1.arb.nextLseq + 1) % 2 ^ 32 } }
      .next (if old then s2.cancelLaunch l.lseq 0xFFFF else s2.cascadeAll)

/-! ### Release (R58, R67, R89) -/

/-- The arbiter's read of a launch's tables is held (R204). -/
def State.tableHeld (s : State) (lseq : Nat) : Bool := s.holds.any fun h => decide (h.2.site = HoldSite.table lseq)

/-- A launch can be released: its awaits hold, its job is not suspended, and no earlier launch of its job and priority
waits (R58, R353). -/
def State.releasable (s : State) (l : Launch) : Bool :=
  decide (l.st = LaunchSt.accepted) && s.awaitsHold l && !(s.job l.job).suspended && !s.tableHeld l.lseq &&
    s.launches.all fun kl => !(decide (kl.2.st = LaunchSt.accepted) && kl.2.job = l.job && kl.2.prio = l.prio && kl.1 < l.lseq)

/-- The launch that is released next: the highest priority, then the lowest LSEQ. -/
def State.nextRelease (s : State) : Option Launch :=
  s.launches.foldl (fun acc kl =>
    if s.releasable kl.2 then
      match acc with
      | some (m : Launch) => if m.prio < kl.2.prio then some kl.2 else some m
      | none => some kl.2
    else acc) none

/-- A launch released with its tables: cancelled where its image's tables fail (R67), else its record joins the stream. The place
of IMG_FORMAT, which comes before placement, names the block LASTBLK and no die (R92; the block is a DESIGN CHOICE, log
entry 92). -/
def State.release (s : State) (l : Launch) (t : ImgTab) : State :=
  let s0 := { s with arb := s.arb.use l.job l.imgva t }
  if !t.crcOk then
    (s0.report 0x12 (some l.lseq) l.job (blockPlace 7 0xFF) (w64 t.crc.toNat ||| place t.hcrc.toNat 32) 0 0).cancelLaunch
      l.lseq 0x12
  else if t.nblk ≤ l.lastBlk then
    (s0.report 0x10 (some l.lseq) l.job (blockPlace 7 l.lastBlk) 11 0 0).cancelLaunch l.lseq 0x10
  else
    let w4 := place (fld (l.w 4) 63 32) 32 ||| w64 s0.arb.published
    let m : Launch := { l with
      st := .released
      words := l.words.set 4 w4
      img := some t }
    let s1 := s0.setLaunch l.lseq m
    { s1 with arb := { s1.arb with stream := s1.arb.stream ++ [StreamRec.release l.lseq] } }

/-- RELEASE_LAUNCH (R58, R59, R67, R89): the INVAL flag clears the block-table cache before the read. Release waits while
the kiln controller holds it (R68) and during the thermal sequence (R358). -/
def execReleaseLaunch (s : State) : Host.Outcome State Fault Refusal :=
  if s.arb.hold || !s.thermal.critDies.isEmpty then .next s
  else match s.nextRelease with
    | none => .next s
    | some l =>
      let s0 := if l.inval then { s with arb := { s.arb with cache := [] } } else s
      match s0.arb.cache.find? fun x => x.1 = l.job && x.2.1 = l.imgva, s0.readTables l.job l.imgva with
      | some (_, _, t), _ => .next (s0.release l t)
      | none, .ok ws => .next (s0.release l (ImgTab.ofWords ws))
      | none, .error (va, c, lv) =>
        .next (s0.xlate (.table l.lseq) l.job l.lseq va c lv (blockPlace 7 0xFF) 0 0).2

/-! ### The placement algorithm (R69, R70) -/

/-- Where a block may go: die and south-west tile. -/
structure Spot where
  die : Nat
  x : Nat
  y : Nat
  deriving DecidableEq, Repr

/-- The key of a region. -/
def regionKey (p : Spot) (wm1 hm1 : Nat) : Nat := (((p.die * 32 + p.y) * 32 + p.x) * 32 + hm1) * 32 + wm1

/-- A region key's die, x, y, width − 1 and height − 1. -/
def ofRegionKey (k : Nat) : Spot × Nat × Nat :=
  (⟨k / 2 ^ 20, k / 2 ^ 10 % 32, k / 2 ^ 15 % 32⟩, k % 32, k / 32 % 32)

/-- The positions that the algorithm tries for a block, in order (R69). -/
def candidates (l : Launch) (e : BlkEntry) (davail : BitVec 8) : List Spot :=
  if l.place = 0 then (if davail.getLsbD (eDie e) then [⟨eDie e, eX0 e, eY0 e⟩] else [])
  else
    let dies := if l.place = 2 then (List.range 8).map fun j => (eDie e + j) % 8 else [eDie e]
    (dies.filter fun d => l.dieMask.testBit d && davail.getLsbD d).flatMap fun d =>
      (List.range 1024).filterMap fun j =>
        let i := (eY0 e * 32 + eX0 e + j) % 1024
        if i % 32 + eWm1 e ≤ 31 && i / 32 + eHm1 e ≤ 31 then some ⟨d, i % 32, i / 32⟩ else none

/-- Two rectangles of one die share a tile. -/
def overlap (p : Spot) (wm1 hm1 : Nat) (q : Spot) (vm1 gm1 : Nat) : Bool :=
  p.die = q.die && p.x ≤ q.x + vm1 && q.x ≤ p.x + wm1 && p.y ≤ q.y + gm1 && q.y ≤ p.y + hm1

/-- A block taken by a placement in progress. -/
structure Taken where
  blk : Nat
  entry : BlkEntry
  pos : Spot
  deriving DecidableEq, Repr

def Taken.key (t : Taken) : Nat := regionKey t.pos (eWm1 t.entry) (eHm1 t.entry)

/-- The table entry of a placed block, by its id. -/
def State.entryOf (s : State) (bid : Nat) : BlkEntry :=
  ((Tab.get? s.launches (bid / 256)).bind (·.img)).elim (0, 0, 0) fun t => t.entry (bid % 256)

/-- Entry-queue places in use on a die, by a die's region table (R34). -/
def State.placesUsed (s : State) (d : Die) (on : Nat) : Nat :=
  ((d.table.filter fun r => (ofRegionKey r.1).1.die = on).map fun r => (r.2.map fun b => eEqd (s.entryOf b)).sum).sum

/-- Circuit tags of a die that a placement may give (R72). -/
def Die.tagsFree (d : Die) (on : Nat) : Nat := 4080 - (d.tags.filter fun t => t.2.1 = on).length

/-- The I/O die of a Craxon port (R375). -/
def portDie (p : Nat) : Nat := if p < 18 then 8 else 9

/-- XMAP entries that match a channel (R376). -/
def State.xmatches (s : State) (job : Nat) (t : ImgTab) (w : Word) : List (Nat × Word × Word) :=
  s.xmap.filter fun e => bit e.2.1 63 && !bit e.2.2 28 && fld e.2.1 61 56 = job && fld e.2.1 31 0 = t.vstamp.toNat &&
    fld e.2.2 63 52 = cChn w

/-- Channels of a launch that end in one of its blocks: from another of its blocks, or from a Craxon port (R72, R376). -/
def State.endsIn (s : State) (l : Launch) (t : ImgTab) (b : Nat) : Nat :=
  (t.chans.filter fun w => cDblk w = b && match s.xmatches l.job t w with
    | (_, e) :: _ => bit e.1 62
    | [] => decide (l.firstBlk ≤ cSblk w) && decide (cSblk w ≤ l.lastBlk)).length

/-- Channels of one of a launch's blocks that end on an I/O die (R376). -/
def State.leavesBy (s : State) (l : Launch) (t : ImgTab) (b io : Nat) : Nat :=
  (t.chans.filter fun w => cSblk w = b && match s.xmatches l.job t w with
    | (_, e) :: _ => !bit e.1 62 && portDie (fld e.1 55 48) = io
    | [] => false).length

/-- `fits` of R69. A fenced tile without a spare is a live region over which no block fits (R408). The blocks that the placement in
progress has taken count with those already placed (DESIGN CHOICE, log entry 92). -/
def State.fits (s : State) (d : Die) (l : Launch) (t : ImgTab) (b : Nat) (e : BlkEntry) (p : Spot) (taken : List Taken) : Bool :=
  let key := regionKey p (eWm1 e) (eHm1 e)
  let free := match Tab.get? d.table key with
    | some bs => decide (bs.length + (taken.filter fun x => x.key = key).length < 16)
    | none => !(d.table.any fun r => let q := ofRegionKey r.1; overlap p (eWm1 e) (eHm1 e) q.1 q.2.1 q.2.2) &&
        !(taken.any fun x => overlap p (eWm1 e) (eHm1 e) x.pos (eWm1 x.entry) (eHm1 x.entry))
  let fenced := d.fencedTiles.any fun k => overlap p (eWm1 e) (eHm1 e) ⟨tileDie k, tileX k, tileY k⟩ 0 0
  let here := taken.filter fun x => x.pos.die = p.die
  free && !fenced &&
    decide (s.placesUsed d p.die + (here.map fun x => eEqd x.entry).sum + eEqd e ≤ Config.entryPlaces) &&
    decide ((here.map fun x => s.endsIn l t x.blk).sum + s.endsIn l t b ≤ d.tagsFree p.die) &&
    [8, 9].all fun io => decide ((taken.map fun x => s.leavesBy l t x.blk io).sum + s.leavesBy l t b io ≤ d.tagsFree io)

/-- `place` of R69: positions for blocks, none where one has no position. -/
def State.findPlaces (s : State) (d : Die) (l : Launch) (t : ImgTab) : (bs : List Nat) → List Taken → Option (List Taken)
  | [], taken => some taken
  | b :: rest, taken =>
    let e := t.entry b
    match (candidates l e d.davail).find? fun p => s.fits d l t b e p taken with
    | some p => s.findPlaces d l t rest (taken ++ [⟨b, e, p⟩])
    | none => none

/-! ### Circuits (R72, R370, R376) -/

/-- Crossings of the fabric ring from a die eastward in FD order, and the other way. -/
def ringUp (a b : Nat) : List (Nat × Bool) := (List.range ((b + 8 - a) % 8)).map fun j => ((a + j) % 8, false)
def ringDown (a b : Nat) : List (Nat × Bool) := (List.range ((a + 8 - b) % 8)).map fun j => ((a + 7 - j) % 8, true)

/-- The way between two dies: the shorter one round the ring, a tie upward; one that would pass through a die clear in
DAVAIL gives way to the other (log entry 32). -/
def ringPath (davail : BitVec 8) (a b : Nat) : List (Nat × Bool) :=
  let up := ringUp a b
  let dn := ringDown a b
  let clear : List (Nat × Bool) → Bool := fun p => (p.drop 1).all fun x =>
    davail.getLsbD (if x.2 then (x.1 + 1) % 8 else x.1)
  let (first, second) := if up.length ≤ dn.length then (up, dn) else (dn, up)
  if clear first || !clear second then first else second

/-- The way to an I/O die (8 or 9), over the nearer of the two dies that meet it. -/
def ioPath (davail : BitVec 8) (a io : Nat) : List (Nat × Bool) :=
  let ends := if io = 8 then [(0, 8), (7, 9)] else [(3, 10), (4, 11)]
  let ps := ends.map fun e => ringPath davail a e.1 ++ [(e.2, true)]
  match ps with
  | [p, q] => if p.length ≤ q.length then p else q
  | _ => []

/-- The chiplets at the ends of a link (R15, R16, R385, R393); a Craxon port has one. -/
def linkEnds (l : Nat) : List Nat :=
  if l < 8 then [l, (l + 1) % 8]
  else if l = 8 then [8, 0]
  else if l = 9 then [8, 7]
  else if l = 10 then [9, 3]
  else if l = 11 then [9, 4]
  else [portDie (l - 16)]

/-- A channel of a placed launch: its entry's index in the table, where it starts and ends, its source block, the block
that holds it and its destination die. -/
structure Circuit where
  idx : Nat
  src : ChanSrc
  dst : ChanDst
  sblk : Nat
  owner : Nat
  die : Nat
  path : List (Nat × Bool)
  deriving DecidableEq, Repr

/-- The tile at a place of a placed block. -/
def Taken.tile (t : Taken) (x y : Nat) : Nat := tileKey t.pos.die (t.pos.x + x) (t.pos.y + y)

/-- A way the other way round. -/
def pathBack (p : List (Nat × Bool)) : List (Nat × Bool) := p.reverse.map fun x => (x.1, !x.2)

/-- The circuit of a channel-table entry, where the launch's placed blocks and the XMAP give it two ends. -/
def State.circuit (s : State) (l : Launch) (t : ImgTab) (taken : List Taken) (davail : BitVec 8) (i : Nat) (w : Word) :
    Option Circuit :=
  let at? : Nat → Option Taken := fun b => taken.find? fun x => x.blk = b
  let bid : Nat → Nat := fun b => l.lseq * 256 + b
  let sp := (Pool.ofCode (cSpool w)).getD .pe
  let dp := (Pool.ofCode (cDpool w)).getD .pe
  match s.xmatches l.job t w, at? (cSblk w), at? (cDblk w) with
  | (n, e) :: _, a, b =>
    if bit e.1 62 then
      b.map fun y => ⟨i, .ingress n, .inp (y.tile (cDx w) (cDy w)) dp (cDin w), cSblk w, bid y.blk, y.pos.die,
        pathBack (ioPath davail y.pos.die (portDie (fld e.1 55 48)))⟩
    else
      a.map fun x =>
        let io := portDie (fld e.1 55 48)
        ⟨i, .out (x.tile (cSx w) (cSy w)) sp (cSout w), .egress n, cSblk w, bid x.blk, io, ioPath davail x.pos.die io⟩
  | [], some x, some y =>
    some ⟨i, .out (x.tile (cSx w) (cSy w)) sp (cSout w), .inp (y.tile (cDx w) (cDy w)) dp (cDin w), cSblk w, bid x.blk,
      y.pos.die, ringPath davail x.pos.die y.pos.die⟩
  | _, _, _ => none

/-- The circuits of a placed launch in channel-table order, which is block order too (R39, R72). -/
def State.circuits (s : State) (l : Launch) (t : ImgTab) (taken : List Taken) (davail : BitVec 8) : List Circuit :=
  t.chans.zipIdx.filterMap fun (w, i) => s.circuit l t taken davail i w

/-- A channel of a placed block that two XMAP entries match, with the two (R376). -/
def State.xmapConflict (s : State) (l : Launch) (t : ImgTab) (taken : List Taken) : Option (Nat × Nat × Nat) :=
  t.chans.findSome? fun w =>
    if taken.any fun x => x.blk = cSblk w || x.blk = cDblk w then
      match s.xmatches l.job t w with
      | a :: b :: _ => some (cChn w, a.1, b.1)
      | _ => none
    else none

/-- The lowest free tag of a die from a tag on (R72). -/
def freeTag (tags : Tab (Nat × Nat)) (die : Nat) : (n t : Nat) → Nat
  | 0, t => t
  | n + 1, t => if tags.any fun x => decide (x.2 = (die, t)) then freeTag tags die n (t + 1) else t

/-- The id of a circuit's channel. -/
def Circuit.id (c : Circuit) (lseq : Nat) : Nat := (lseq * 256 + c.sblk) * 32768 + c.idx

/-- Circuit tags claimed in a die's copy (R72). -/
def claimTags (tags : Tab (Nat × Nat)) (lseq : Nat) (cs : List Circuit) : Tab (Nat × Nat) :=
  cs.foldl (fun t c => Tab.set t (c.id lseq) (c.die, freeTag t c.die 4080 16)) tags

/-! ### Placement commits (R29, R69, R71, R72) -/

/-- A channel as it begins: nothing on its way, and every message that the root has issued applied. -/
def State.newChan (s : State) (src : ChanSrc) (dst : ChanDst) (bid tag : Nat) (path : List (Nat × Bool)) : Chan :=
  let dr := deadRat s.root.log
  { src := src
    dst := dst
    bid := bid
    tag := BitVec.ofNat 12 tag
    pull := false
    items := []
    credBack := 0
    reqBack := 0
    path := path
    stages := path.map fun _ => []
    dead := dr.1
    ratified := dr.2
    seq := s.root.log.length
    marked := s.root.log.length }

/-- A region without blocks. -/
def Region.fresh (p : Spot) (wm1 hm1 : Nat) : Region where
  die := p.die
  x := p.x
  y := p.y
  wm1 := wm1
  hm1 := hm1
  blocks := []
  resident := none
  armed := none
  loading := none
  quantumAt := 0
  pre := none
  quiet := 0
  calm := 0
  qwcRaised := false
  active := false
  waveBegun := false
  swapped := []
  switching := none
  winAt := 0
  dampN := 0
  dampW := 256
  admitted := 0
  dampWait := []
  dampOk := []

/-- A region begins: its tiles are its own. -/
def State.newRegion (s : State) (p : Spot) (wm1 hm1 : Nat) : State :=
  let rid := regionKey p wm1 hm1
  let ks := (List.range (hm1 + 1)).flatMap fun j => (List.range (wm1 + 1)).filterMap fun i =>
    if p.x + i ≤ 31 && p.y + j ≤ 31 then some (tileKey p.die (p.x + i) (p.y + j)) else none
  ks.foldl (fun s k => s.setTile k { s.tile k with region := some rid }) (s.setRegion rid (Region.fresh p wm1 hm1))

/-- A block joins its region on its own die (R71). -/
def State.placeBlock (s : State) (l : Launch) (t : ImgTab) (x : Taken) : State :=
  let bid := l.lseq * 256 + x.blk
  let s1 := if (Tab.get? s.regions x.key).isSome then s else s.newRegion x.pos (eWm1 x.entry) (eHm1 x.entry)
  let s2 := s1.modRegion x.key fun r => { r with blocks := r.blocks ++ [bid] }
  (s2.setBlock bid {
    lseq := l.lseq
    idx := x.blk
    rid := x.key
    job := l.job
    die := x.pos.die
    x := x.pos.x
    y := x.pos.y
    entry := x.entry
    vstamp := t.vstamp
    tiles := []
    doneQ := []
    finished := 0
    waitFrom := none
    saved := none
    cancelled := false }).setChan (entryChan bid)
      (s2.newChan (.entry bid) (.inp (tileKey x.pos.die x.pos.x x.pos.y) .pe 4) bid 0 [])

/-- Units of a launch that task order places late: how many come before a committed unit (R288). -/
def Launch.lateCount (l : Launch) (p : Pos) : Nat :=
  let bound := if l.lseq < p.lseq then p.ts + 1 else p.ts
  if bound ≤ l.tsbase || l.stride = 0 then 0 else min l.unitCount ((bound - l.tsbase + l.stride - 1) / l.stride)

/-- The units of a placed launch are created (R29, R288; log entry 28): its circuits with them. -/
def State.createUnits (s : State) (l : Launch) (taken : List Taken) (cs : List Circuit) (tags : Tab (Nat × Nat)) : State :=
  let j := s.job l.job
  let late := j.lastCommit.bind fun p =>
    let m := l.lateCount p
    if m = 0 then none else some (m, { p with ord := (j.lateCtr + 1) * 2 ^ 32, acc := 0 })
  let s1 := if late.isSome then s.setJob l.job { j with lateCtr := j.lateCtr + 1 } else s
  let s2 := s1.modLaunch l.lseq fun m => { m with
    st := if m.st = .retired then .retired else .placed
    late := late
    places := taken.map fun x => (x.blk, x.pos.die, x.pos.x, x.pos.y) }
  cs.foldl (fun s c => s.setChan (c.id l.lseq)
    (s.newChan c.src c.dst c.owner (Tab.get tags (c.id l.lseq) (0, 0)).2 c.path)) s2

/-- `commit` of R69 at a die: its copies claim what the launch takes, and the blocks placed on itself join their
regions. The first die to commit creates the launch's units. -/
def State.commitPlace (s : State) (d : Nat) (l : Launch) (t : ImgTab) (taken : List Taken) : State :=
  let x := s.die d
  let cs := s.circuits l t taken x.davail
  let tags := claimTags x.tags l.lseq cs
  let table := taken.foldl (fun (m : Tab (List Nat)) y =>
    Tab.set m y.key (Tab.get m y.key [] ++ [l.lseq * 256 + y.blk])) x.table
  let s1 := s.setDie d { x with table := table, tags := tags }
  let s2 := if l.places.isEmpty then s1.createUnits l taken cs tags else s1
  (taken.filter fun y => y.pos.die = d).foldl (fun s y => s.placeBlock l t y) s2

/-- The first block of a launch whose home die is clear in DIEMASK, of a PLACE that needs it (R70). -/
def Launch.masked (l : Launch) (t : ImgTab) : Option Nat :=
  if l.place = 2 then none else l.blks.find? fun b => !l.dieMask.testBit (eDie (t.entry b))

/-- A die applies the placement algorithm to a launch: placed or cancelled, or held where it has no position. -/
def State.tryPlace (s : State) (d : Nat) (lseq : Nat) : Bool × State :=
  match Tab.get? s.launches lseq with
  | none => (true, s)
  | some l =>
    match l.img with
    | none => (true, s)
    | some t =>
      match l.masked t with
      | some b =>
        if l.st = .retired then (true, s)
        else
          let home := eDie (t.entry b)
          (true, (s.report 0x18 (some lseq) l.job (blockPlace home b) (w64 l.dieMask ||| place home 8) 0 0).cancelLaunch
            lseq 0x18)
      | none =>
        match s.findPlaces (s.die d) l t l.blks [] with
        | some taken =>
          match s.xmapConflict l t taken with
          | some (chn, a, b) =>
            (true, if l.st = .retired then s else (s.report 0xA3 (some lseq) l.job ones
              (w64 chn ||| place a 16 ||| place b 32) 0 0).cancelLaunch lseq 0xA3)
          | none => (true, s.commitPlace d l t taken)
        | none => (false, s.modLaunch lseq fun m => if m.st = .released then { m with st := .held } else m)

/-- A die retries its held launches in LSEQ order (R70). -/
def State.retryHeld (s : State) (d : Nat) : State :=
  (s.die d).heldL.foldl (fun s l =>
    let (ok, s1) := s.tryPlace d l
    if ok then s1.setDie d { s1.die d with heldL := (s1.die d).heldL.erase l } else s1) s

/-! ### The records of the stream (R59, R89, R412) -/

/-- The record that a die applies next. -/
def State.nextRec (s : State) (d : Nat) : Option StreamRec := s.arb.stream[(s.die d).applied]?

/-- A die has applied a record. -/
def State.recDone (s : State) (d : Nat) : State := s.setDie d { s.die d with applied := (s.die d).applied + 1 }

/-- A die's image cache is cleared (R89). -/
def State.clearImages (s : State) (d : Nat) : State := s.setDie d { s.die d with icache := [] }

/-- A die's retirement count differs from WMARK: it enters quarantine, and leaves DAVAIL at the next change (R59, R68). -/
def State.desync (s : State) (d : Nat) (l : Launch) : State :=
  let s1 := s.report 0x08 (some l.lseq) l.job (w64 d) (w64 ((s.die d).retired % 2 ^ 32) ||| place l.wmark 32) 0 0
  { s1.setDie d { s1.die d with desync := true } with
    trust := { s1.trust with quarantined := s1.trust.quarantined ||| BitVec.ofNat 26 (2 ^ d) }
    arb := { s1.arb with hold := true } }

/-- PLACE_LAUNCH (R59, R69, R70, R89): a die applies a release record. -/
def execPlaceLaunch (die : Fin 8) (s : State) : Host.Outcome State Fault Refusal :=
  match s.nextRec die.val with
  | some (.release lseq) =>
    let s1 := s.recDone die.val
    match Tab.get? s1.launches lseq with
    | none => .next s1
    | some l =>
      if (s1.die die.val).retired % 2 ^ 32 ≠ l.wmark && !(s1.die die.val).desync then .next (s1.desync die.val l)
      else
        let s2 := if l.inval then s1.clearImages die.val else s1
        let (ok, s3) := s2.tryPlace die.val lseq
        .next (if ok then s3 else s3.setDie die.val { s3.die die.val with heldL := putNat (s3.die die.val).heldL lseq })
  | _ => .next s

/-- A die's copies without the blocks and tags of a launch (R71, R72). Tags of a block in the middle of a wavefront stay
with their channels (R85), whose ids are those of the block that keeps them. -/
def Die.forget (d : Die) (lseq : Nat) (stay : Nat → Bool) : Die :=
  { d with
    heldL := d.heldL.erase lseq
    table := (d.table.map fun r => (r.1, r.2.filter fun b => b / 256 != lseq || stay b)).filter fun r => !r.2.isEmpty
    tags := d.tags.filter fun t => t.1 / 32768 / 256 != lseq || stay (t.1 / 32768) }

/-- APPLY_RETIREMENT_RECORD (R70, R71, R85, R412, R416): the launch's blocks on the die leave their regions, its tags are
free, its speculation domain, where the ring stands on the die, ends, and held launches are retried. -/
def execApplyRetirementRecord (die : Fin 8) (s : State) : Host.Outcome State Fault Refusal :=
  match s.nextRec die.val with
  | some (.retire lseq) =>
    let s1 := s.recDone die.val
    let stay : Nat → Bool := fun b => (Tab.get? s1.blocks b).any fun x => s1.inWave x b
    let x := s1.die die.val
    let s2 := s1.setDie die.val { x.forget lseq stay with retired := x.retired + 1 }
    let mine := (s2.blocks.filter fun b => b.2.lseq = lseq && b.2.die = die.val && !stay b.1).map (·.1)
    let s3 := mine.foldl State.leaveBlock s2
    let s4 := if s3.root.domain.any fun d => d.lseq = lseq && d.die = die.val then s3.endSpeculation lseq else s3
    .next (s4.retryHeld die.val).finishTeardowns.settleSusp
  | _ => .next s

/-- APPLY_INVALIDATION (R59, R89). -/
def execApplyInvalidation (die : Fin 8) (s : State) : Host.Outcome State Fault Refusal :=
  match s.nextRec die.val with
  | some .inval => .next ((s.recDone die.val).clearImages die.val)
  | _ => .next s

/-! ### DAVAIL (R68) -/

/-- Every die has applied the whole stream. -/
def State.caughtUp (s : State) : Bool := (List.range 8).all fun d => (s.die d).applied = s.arb.stream.length

/-- A new DAVAIL is written to every die, which retries its held launches (R68, R70). -/
def State.writeDavail (s : State) (v : BitVec 8) : State :=
  (List.range 8).foldl (fun s d => (s.setDie d { s.die d with davail := v }).retryHeld d) s

/-- DAVAIL_CHANGE (R68): the arbiter holds release; once every die has applied the records already sent, the new value is
written and release resumes. -/
def execDavailChange (v : BitVec 8) (s : State) : Host.Outcome State Fault Refusal :=
  if s.caughtUp then
    .next ({ s with arb := { s.arb with hold := s.trust.resets.any fun r => r.step < 2 } }.writeDavail v)
  else .next { s with arb := { s.arb with hold := true } }

end Sys2Proof.Machine
end

