-- ==== Sys2Proof/Machine/Setter.lean ====
section
/-! DEFINITION. The scheduler of a region (R74, R75, R80, R347) and the setter: tile images (R40 to R43), the image cache
(R76, R79), loads with every check of R45, R128, R228 and R111 in the order of R420, what a pool and a tile start from
(R83, R87, R121, R128, R237), the block-wide swap (R80) and the wavefront swap (R81 to R86, R300, R301). -/

namespace Sys2Proof.Machine

open Sys2Proof

/-! ### Tile images (R40 to R43) -/

/-- Word n of a tile image. -/
def imgW (t : TileImg) (n : Nat) : Word := t.getD n 0

def imgX (t : TileImg) : Nat := fld (imgW t 0) 31 27
def imgY (t : TileImg) : Nat := fld (imgW t 0) 26 22

/-- A pool's binding and control words (R42, R43). -/
def imgBind (t : TileImg) (p : Pool) : Word := imgW t (57 + p.code)
def imgCtl (t : TileImg) (p : Pool) : Word := imgW t (63 + p.code)

/-- The code, mode and depth of an input field (R42); an unbound input has depth 0. -/
def inCode (t : TileImg) (p : Pool) (c : Nat) : Nat := fld (imgBind t p) (9 * c + 8) (9 * c + 6)
def inPull (t : TileImg) (p : Pool) (c : Nat) : Bool := bit (imgBind t p) (9 * c + 5)
def inDepth (t : TileImg) (p : Pool) (c : Nat) : Nat :=
  if inCode t p c = 0 then 0 else fld (imgBind t p) (9 * c + 4) (9 * c) + 1

/-- The code of an output (R42). -/
def outCode (t : TileImg) (p : Pool) (c : Nat) : Nat := fld (imgBind t p) (38 + 3 * c) (36 + 3 * c)

/-- PINIT (R42). -/
def pinit (t : TileImg) (p : Pool) : Nat := fld (imgBind t p) 63 56

/-- Slots of a pool, the image word of its first one, and its slot words. -/
def slotCount (p : Pool) : Nat := if p = .pe then 16 else 8
def slotBase (p : Pool) : Nat := match p with
  | .pe => 1
  | .mx => 17
  | .ag => 25
def imgSlot (t : TileImg) (p : Pool) (n : Nat) : Word := imgW t (slotBase p + n)

/-- A slot is valid (R43). -/
def slotValid (t : TileImg) (p : Pool) (n : Nat) : Bool := bit (imgCtl t p) n && decide (n < slotCount p)

/-- The groups of a control word before their first epoch (R43). -/
def imgGroups (t : TileImg) (p : Pool) : List Group := [0, 1, 2, 3].map fun k =>
  let g := fld (imgCtl t p) (27 + 12 * k) (16 + 12 * k)
  ⟨nfld g 11 8, nfld g 7 4, nfld g 3 0, 0, 0⟩

/-- The inputs and outputs of a tile image, by pool and index. -/
def ends : List (Pool × Nat) := pools.flatMap fun p => [0, 1, 2, 3].map fun c => (p, c)

/-! ### The checks of R45 in the order of R420 -/

/-- What a check sees: the image's tables, the block and its entry, and the tile images of the block in order. -/
structure CheckCtx where
  tab : ImgTab
  b : Nat
  e : BlkEntry
  ts : List TileImg
  deriving DecidableEq, Repr

/-- Where a check fails: the tile image, pool and slot, as far as it concerns one. -/
structure BadAt where
  tile : Option TileImg
  pool : Option Pool
  slot : Option Nat
  deriving DecidableEq, Repr

/-- A failure of the whole block. -/
def BadAt.block : BadAt := ⟨none, none, none⟩

/-- A failure of a tile image. -/
def BadAt.ofTile (t : TileImg) : BadAt := ⟨some t, none, none⟩

/-- A failure of a pool of a tile image. -/
def BadAt.ofPool (t : TileImg) (p : Pool) : BadAt := ⟨some t, some p, none⟩

/-- The first tile image that fails a check which looks at each pool. -/
def CheckCtx.firstPool (c : CheckCtx) (bad : TileImg → Pool → Bool) : Option BadAt :=
  c.ts.findSome? fun t => (pools.find? (bad t)).map (BadAt.ofPool t)

/-- The first tile image that fails a check. -/
def CheckCtx.firstTile (c : CheckCtx) (bad : TileImg → Bool) : Option BadAt := (c.ts.find? bad).map BadAt.ofTile

/-- A condition on the block. -/
def ofBlock (bad : Bool) : Option BadAt := if bad then some BadAt.block else none

/-- The SBLK of the channel entries never decreases (R39). -/
def sblkRises : List Word → Bool
  | a :: b :: rest => decide (cSblk a ≤ cSblk b) && sblkRises (b :: rest)
  | _ => true

/-- Channel entries of the block, and those that end in it. -/
def CheckCtx.own (c : CheckCtx) : List Word := c.tab.chans.filter fun w => cSblk w = c.b
def CheckCtx.inbound (c : CheckCtx) : List Word := c.tab.chans.filter fun w => cDblk w = c.b

/-- Item 0: MAGIC, IMGV, offsets and ranges. -/
def CheckCtx.ranges (c : CheckCtx) : Option BadAt :=
  (ofBlock (!c.tab.headOk || !sblkRises c.tab.chans || eNtiles c.e = 0 || (eWm1 c.e + 1) * (eHm1 c.e + 1) < eNtiles c.e ||
    c.tab.ntile < eTfirst c.e + eNtiles c.e || eEqd c.e = 0 || 16384 < eEqd c.e || 31 < eX0 c.e + eWm1 c.e ||
    31 < eY0 c.e + eHm1 c.e || c.tab.chans.any fun w => c.tab.nblk ≤ cSblk w || c.tab.nblk ≤ cDblk w)).orElse fun _ =>
  c.firstTile fun t => fld (imgW t 0) 13 10 != 1

/-- Item 1: a reserved field is nonzero. Where both the block or its channel entries and a tile image fail it, the block is reported
(DESIGN CHOICE, log entry 92). -/
def CheckCtx.reserved (c : CheckCtx) : Option BadAt :=
  (ofBlock (!c.tab.resOk || fld c.e.1 34 32 != 0 || c.own.any fun w => fld w 7 0 != 0)).orElse fun _ =>
  c.ts.findSome? fun t =>
    if fld (imgW t 0) 9 0 != 0 || fld (imgW t 66) 31 0 != 0 then some (BadAt.ofTile t)
    else (pools.find? fun p => fld (imgBind t p) 55 48 != 0 ||
      (p != .pe && (fld (imgBind t p) 63 60 != 0 || fld (imgCtl t p) 15 8 != 0))).map (BadAt.ofPool t)

/-- Item 2: a pool code of 3, or a binding code illegal for its end (R42). A nonzero PULL or DM1 beside input code 0, which R45
does not list, fails it too (DESIGN CHOICE, log entry 92). -/
def CheckCtx.codes (c : CheckCtx) : Option BadAt :=
  (ofBlock (c.own.any fun w => cSpool w = 3 || cDpool w = 3)).orElse fun _ =>
  c.firstPool fun t p => [0, 1, 2, 3].any fun i =>
    6 ≤ inCode t p i || (inCode t p i = 0 && fld (imgBind t p) (9 * i + 5) (9 * i) != 0) || outCode t p i = 5 ||
      outCode t p i = 7

/-- Channel entries that end at an input, or start at an output, of a tile image. -/
def endAt (ws : List Word) (t : TileImg) (p : Pool) (i : Nat) : List Word := ws.filter fun w =>
  cDx w = imgX t && cDy w = imgY t && cDpool w = p.code && cDin w = i
def startAt (ws : List Word) (t : TileImg) (p : Pool) (i : Nat) : List Word := ws.filter fun w =>
  cSx w = imgX t && cSy w = imgY t && cSpool w = p.code && cSout w = i

/-- Item 3: a code-1 binding matches exactly one entry. -/
def CheckCtx.matched (c : CheckCtx) : Option BadAt :=
  c.firstPool fun t p => [0, 1, 2, 3].any fun i =>
    (inCode t p i = 1 && (endAt c.inbound t p i).length != 1) || (outCode t p i = 1 && (startAt c.own t p i).length != 1)

/-- A binding code of an intra-tile link (R42), and the pool at its other end. -/
def intra (code : Nat) : Option Pool := if 2 ≤ code then Pool.ofCode (code - 2) else none

/-- Item 4: an intra-tile link lacks its partner, or joins a pool to itself. -/
def CheckCtx.links (c : CheckCtx) : Option BadAt :=
  c.firstPool fun t p => [0, 1, 2, 3].any fun i =>
    ((intra (outCode t p i)).any fun q => q = p || inCode t q i != 2 + p.code) ||
      ((intra (inCode t p i)).any fun q => q = p || outCode t q i != 2 + p.code)

/-- Ends of the block with a code: the entry input (5) among inputs, the done sink (6) among outputs. -/
def CheckCtx.entries (c : CheckCtx) : List (TileImg × Pool × Nat) :=
  c.ts.flatMap fun t => (ends.filter fun e => inCode t e.1 e.2 = 5).map fun e => (t, e)
def CheckCtx.sinks (c : CheckCtx) : List (TileImg × Pool × Nat) :=
  c.ts.flatMap fun t => (ends.filter fun e => outCode t e.1 e.2 = 6).map fun e => (t, e)

/-- Item 5: other than one entry input or one done sink. -/
def CheckCtx.entry (c : CheckCtx) : Option BadAt := ofBlock (c.entries.length != 1 || c.sinks.length != 1)

/-- Item 6: the input depths of a tile sum to more than 64 (R22). -/
def CheckCtx.depths (c : CheckCtx) : Option BadAt :=
  c.firstTile fun t => decide (Config.beatSlots < (ends.map fun e => inDepth t e.1 e.2).sum)

/-- Item 7 over the tile images that follow those already seen. -/
def CheckCtx.tilesFrom (c : CheckCtx) : (ts : List TileImg) → (seen : List (Nat × Nat)) → Option BadAt
  | [], _ => none
  | t :: rest, seen =>
    let xy := (imgX t, imgY t)
    if seen.contains xy || eWm1 c.e < xy.1 || eHm1 c.e < xy.2 || fld (imgW t 0) 21 14 != c.b then some (BadAt.ofTile t)
    else c.tilesFrom rest (xy :: seen)

/-- Item 8: the groups violate R43, or an invalid slot holds a nonzero word. -/
def groupBad (t : TileImg) (p : Pool) : Option BadAt :=
  let used := (imgGroups t p).filter fun g => g.w != 0
  if used.any fun g => g.last < g.first then some (BadAt.ofPool t p)
  else ((List.range (slotCount p)).find? fun n =>
    if slotValid t p n then !used.isEmpty && (used.filter fun g => g.holds n).length != 1 else imgSlot t p n != 0).map
      fun n => ⟨some t, some p, some n⟩

def CheckCtx.groups (c : CheckCtx) : Option BadAt := c.ts.findSome? fun t => pools.findSome? fun p => groupBad t p

/-- Check 9: the permit return input of R128. -/
def CheckCtx.permits (c : CheckCtx) : Option BadAt :=
  if ePermits c.e = 0 then none
  else c.entries.head?.bind fun e =>
    if inCode e.1 .pe 3 != 1 || inDepth e.1 .pe 3 < ePermits c.e then some ⟨some e.1, some .pe, some 3⟩ else none

/-- Check 10: a valid slot of `smrg.ord` while OJOIN is not accepted (R50, R228). -/
def CheckCtx.ojoin (c : CheckCtx) (on : Bool) : Option BadAt :=
  if on then none
  else c.ts.findSome? fun t => ((List.range 16).find? fun n =>
    slotValid t .pe n && decide (opOf .pe (wordOp (imgSlot t .pe n)) (wordMd (imgSlot t .pe n)) = some .smrgOrd)).map
      fun n => ⟨some t, some .pe, some n⟩

/-- The first check of R45, R128 and R228 that fails: its index and place (R92, R420). -/
def CheckCtx.format (c : CheckCtx) (oj : Bool) : Option (Nat × BadAt) :=
  [c.ranges, c.reserved, c.codes, c.matched, c.links, c.entry, c.depths, c.tilesFrom c.ts [], c.groups, c.permits,
    c.ojoin oj].zipIdx.findSome? fun r => r.1.map fun b => (r.2, b)

/-! ### The instruction checks of R111 that need the bindings -/

/-- Item 11 and the parts of item 12 that rest on a binding: inputs and outputs that an instruction names must be bound,
among them those that its MD names (R143 to R145, R148, R242). -/
def boundOk (t : TileImg) (p : Pool) (o : Op) (f : Fields) : Bool :=
  let inp : Nat → Bool := fun c => inCode t p (c % 4) != 0
  let out : Nat → Bool := fun c => outCode t p (c % 4) != 0
  let m := f.md.toNat
  let fields := ([0, 1, 2, 3].all fun c => (!f.ir.getLsbD c || inp c) && (!f.os.getLsbD c || out c)) &&
    (!f.te || inp f.tc.toNat) && (f.a.input?.all fun c => inp c.val) && (f.b.input?.all fun c => inp c.val) &&
    (match f.d with
      | .out c => out c.val
      | _ => true)
  fields && match o with
    | .steer => m = 4 || out m
    | .merge => inp m
    | .dup => (dupOuts f).all out
    | .req => inp m && inPull t p (m % 4)
    | .mxrow => m = 0 || ((match f.d with
        | .out c => out (c.val + 1)
        | _ => true) && (f.b.input?.all fun c => inp (c.val + 1)))
    | _ => true

/-- A word passes the checks of R111 in a pool of a tile image. -/
def wordOk (t : TileImg) (p : Pool) (w : Word) : Bool :=
  match decode p w with
  | .ok i => i.op?.any fun x => boundOk t p x.1 x.2
  | .error _ => false

/-- The first word of the block that R111 rejects, in the order of R112. -/
def CheckCtx.illegal (c : CheckCtx) : Option (Word × BadAt) :=
  c.ts.findSome? fun t => pools.findSome? fun p =>
    ((List.range (slotCount p)).find? fun n => slotValid t p n && !wordOk t p (imgSlot t p n)).map fun n =>
      (imgSlot t p n, ⟨some t, some p, some n⟩)

/-! ### The scheduler (R74, R75) -/

/-- A block has a unit that it has not finished. -/
def Block.unfinished (b : Block) (l : Launch) : Bool :=
  let did := (l.units.filter fun u => b.finished ≤ u.1 && (u.2.committed || u.2.runs.any fun r => r.fin.contains b.idx)).length
  decide (b.finished + did < l.unitCount)

/-- Thread tokens that wait for a block (R75; log entry 30). -/
def State.waitingOf (s : State) (b : Block) (l : Launch) : Nat :=
  let bid := b.lseq * 256 + b.idx
  let n := if b.idx = l.firstBlk then s.queued bid else b01 (l.st = .placed && b.unfinished l)
  if b.saved.isSome && b.unfinished l then max n 1 else n

/-- A block that the scheduler may choose. -/
structure Choice where
  bid : Nat
  /-- the cycle in which its STARVE bound ran out -/
  starved : Option Nat
  prio : Nat
  wait : Nat
  idx : Nat
  lseq : Nat
  deriving DecidableEq, Repr

/-- The cycle from which a block has been starving (R75). -/
def State.starvedAt (s : State) (r : Region) (bid : Nat) (b : Block) : Option Nat :=
  if r.resident = some bid || eStarve b.entry = 0 then none
  else b.waitFrom.bind fun w => if w + eStarve b.entry < r.cyc s then some (w + eStarve b.entry) else none

/-- A channel crosses a link of a chiplet. -/
def Chan.meets (y : Chan) (c : Nat) : Bool := y.path.any fun x => (linkEnds x.1).contains c

/-- A block stands on a die, or has a channel that crosses the chiplet (R402). -/
def State.onChiplet (s : State) (c bid : Nat) : Bool :=
  (Tab.get? s.blocks bid).any (·.die = c) ||
    s.chans.any fun y => (decide (y.1 / 32768 = bid) || decide (y.2.bid = bid)) && y.2.meets c

/-- A tile that is being fenced, or is fenced without a spare, lies in a region (R408). -/
def State.fenceIn (s : State) (rid die : Nat) : Bool :=
  (s.trust.fencing ++ (s.die die).fencedTiles).any fun k => (s.tile k).region = some rid

/-- A block may not run: a single-die reset that concerns it has not ended (R402), or its region is being fenced
(R408). -/
def State.barred (s : State) (r : Region) (bid : Nat) : Bool :=
  s.trust.resets.any (fun x => s.onChiplet x.chiplet bid) ||
    (Tab.get? s.blocks bid).any fun b => s.fenceIn b.rid r.die

/-- The candidates of a region (R75, R353). -/
def State.cands (s : State) (r : Region) : List Choice := r.blocks.filterMap fun bid =>
  match Tab.get? s.blocks bid, Tab.get? s.launches (bid / 256) with
  | some b, some l =>
    let st := s.starvedAt r bid b
    if l.st = .retired || (s.job b.job).suspended || (s.waitingOf b l = 0 && st.isNone) || s.barred r bid then none
    else some ⟨bid, st, l.prio, s.waitingOf b l, b.idx, b.lseq⟩
  | _, _ => none

/-- The order of R75 below starvation. -/
def Choice.ahead (a b : Choice) : Bool :=
  if a.prio != b.prio then b.prio < a.prio
  else if a.wait != b.wait then b.wait < a.wait
  else if a.idx != b.idx then a.idx < b.idx
  else a.lseq < b.lseq

/-- One candidate wins over another (R75). -/
def Choice.beats (a b : Choice) : Bool :=
  match a.starved, b.starved with
  | some x, some y => decide (x < y) || (decide (x = y) && a.ahead b)
  | some _, none => true
  | none, some _ => false
  | none, none => a.ahead b

/-- The winner among candidates. -/
def best (cs : List Choice) : Option Nat :=
  (cs.foldl (fun acc c => match acc with
    | some (d : Choice) => if c.beats d then some c else some d
    | none => some c) none).map (·.bid)

def State.winner (s : State) (r : Region) : Option Nat := best (s.cands r)

/-- Pools of a region that hold a YIELD slot (R347). -/
def State.yieldPools (s : State) (rid : Nat) : List (Nat × Pool) :=
  (s.regionTiles rid).flatMap fun k => (pools.filter fun p => (List.range (slotCount p)).any fun n =>
    ((((s.tile k).pool p).instr n).any fun x => decide (x.1 = .yield))).map fun p => (k, p)

/-- The region has reached a yield point: a YIELD of one of its pools could fire if a request stood (DESIGN CHOICE, log entry 37: one
pool is enough), or no pool holds one. -/
def State.atYield (s : State) (rid : Nat) : Bool :=
  let ys := s.yieldPools rid
  let s1 := s.modRegion rid fun r => { r with pre := some ⟨0, false, false, 0⟩ }
  ys.isEmpty || ys.any fun kp => (List.range (slotCount kp.2)).any fun n =>
    match ((s1.tile kp.1).pool kp.2).instr n with
    | some (.yield, f) => s1.slotReady (s1.ctx ⟨kp.1, kp.2, n⟩ .yield f)
    | _ => false

/-- The engine's work that a swap waits for has ended (R301): a recompute goes on. -/
def MxEng.ended (e : MxEng) : Bool := e.passes.isEmpty && e.gremit.isNone && match e.work with
  | none => true
  | some (.recompute, _) => true
  | _ => false

/-- Nothing of the old configuration's work is in progress (R82 step 1, R301). -/
def Tile.calm (t : Tile) : Bool :=
  pools.all (fun p => (t.pool p).inflight.isEmpty) && !t.busyWork .pe && !t.busyWork .ag && t.eng.ended

/-- A token that a finished run leaves where it stands: a swap token, or a permit of R128. -/
def leftOver (t : Tok) : Bool := isSwap t || t.kind == 3

/-- A block has finished every unit, and nothing of its work remains in its tiles or on its channels: the region is drained from that
moment on (R304). -/
def State.spent (s : State) (bid : Nat) : Bool :=
  ((Tab.get? s.blocks bid).any fun b => (Tab.get? s.launches b.lseq).any fun l => !b.unfinished l) &&
    ((s.tilesOf bid).all fun k => (s.tile k).calm && pools.all fun p =>
      ((s.tile k).pool p).ins.all fun i => i.queue.all leftOver) &&
    s.chans.all fun c => c.2.bid != bid || (c.2.items ++ c.2.stages.flatten).all fun it => match it with
      | .tok t _ => leftOver t
      | .marker _ => true

/-- The region is at a choosing point (R74, R80). -/
def State.choosing (s : State) (rid : Nat) (r : Region) : Bool :=
  !r.waveBegun && r.switching.isNone && r.pre.isNone && s.thermal.critDies.isEmpty && match r.resident with
    | none => true
    | some bid =>
      let q := (Tab.get? s.blocks bid).elim 0 fun b => eQuantum b.entry
      (s.queued bid = 0 && (decide (Config.drainCycles ≤ r.quiet) || s.spent bid)) ||
        (q != 0 && decide (r.quantumAt + q ≤ r.cyc s) && s.atYield rid)

/-- A held launch's block (R342). -/
def State.heldBlock (s : State) (bid : Nat) : Bool := (Tab.get? s.launches (bid / 256)).any (·.faulted)

/-- A pre-emption request made to a region (R347), for a full scan where no pool yields: none while its resident block belongs to a held launch (R342) or one
already stands. The quiet cycles of its drain are counted from the request on. -/
def State.requestPre (s : State) (rid why : Nat) : State :=
  s.modRegion rid fun r =>
    if r.pre.isSome || r.resident.all s.heldBlock then r else { r with
      pre := some ⟨s.time, (s.yieldPools rid).isEmpty, false, why⟩
      calm := 0 }

/-- The region's choice falls on a block other than its resident: an armed block is switched to once no block is
resident, any other load is dropped. -/
def State.chose (s : State) (rid : Nat) (r : Region) (w : Nat) : State :=
  match r.resident with
  | some _ => s.requestPre rid 0
  | none =>
    if r.armed = some w then
      if (Tab.get? s.blocks w).any (·.saved.isSome) then s
      else s.modRegion rid fun x => { x with
        switching := some w
        swapped := [] }
    else
      let s1 := match r.armed with
        | some a => (s.modRegion rid fun x => { x with armed := none }).dropShadows rid a
        | none => s
      if r.loading.any fun l => l.bid != w then s1.abortLoad rid else s1

/-- CHOOSE_BLOCK (R74, R75, R80, R347): a resident block that wins stays for a fresh quantum; without a candidate it
stays. -/
def execChooseBlock (rid : Nat) (s : State) : Host.Outcome State Fault Refusal :=
  match Tab.get? s.regions rid with
  | some r =>
    if !s.choosing rid r then .next s
    else
      let w := s.winner r
      if r.resident.isSome && w = r.resident then .next (s.modRegion rid fun x => { x with quantumAt := r.cyc s })
      else .next (w.elim s (s.chose rid r))
  | none => .next s

/-! ### The load (R76 to R79, R89, R420) -/

/-- What the fetch of a tile image finds. -/
inductive Fetched where
  | got (t : TileImg)
  | ue (va : Nat) (at' : Option TileImg)
  | crc (t : TileImg)
  | held (va : Nat) (stop : Option (Nat × Nat))
  deriving DecidableEq, Repr

/-- Words of a tile image read from memory: each with its poison, or the address at which the read stops, with cause and
level, or without them for a quarantined line. -/
def State.fetchWords (s : State) (d job va : Nat) :
    (n : Nat) → (Except (Nat × Option (Nat × Nat)) (List (Word × Bool))) × State
  | 0 => (.ok [], s)
  | n + 1 =>
    let a := va % 2 ^ 52
    match s.reach d none job a false with
    | (.line pa _ _, s1) =>
      let (r, s2) := s1.fetchWords d job (a + 8) n
      (r.map fun ws => (s1.mem.word (pa / 8), s1.globalPsn (pa / 8)) :: ws, s2)
    | (.fault c l, s1) => (.error (a, some (c, l)), s1)
    | (.quarantined, s1) => (.error (a, none), s1)

/-- TCRC matches (R40, R44). -/
def tcrcOk (t : TileImg) : Bool := crc32c (t.take 66) == (imgW t 66).extractLsb' 32 32

/-- A die's image cache with an image used (R76). -/
def Die.useImage (d : Die) (job va : Nat) (t : TileImg) : Die :=
  let rest := d.icache.filter fun x => !(x.1 = job && x.2.1 = va)
  { d with icache := ((job, va, t, false) :: rest).take Config.imageCacheTiles }

/-- The tile that IMG_UE names: that of the image, unless the failing word is the one that holds its place (R92, R420). -/
def ueTile (t : TileImg) (i : Nat) : Option TileImg := if i = 0 then none else some t

/-- A tile image fetched from memory, where it passes into the cache. -/
def State.fetchMem (s : State) (d job va : Nat) : Fetched × State :=
  match s.fetchWords d job va 67 with
  | (.error e, s1) => (.held e.1 e.2, s1)
  | (.ok ws, s1) =>
    let t : TileImg := ws.map (·.1)
    match ws.findIdx? (·.2) with
    | some i => (.ue ((va + 8 * i) % 2 ^ 52) (ueTile t i), s1)
    | none => if tcrcOk t then (.got t, s1.setDie d ((s1.die d).useImage job va t)) else (.crc t, s1)

/-- A tile image fetched (R76, R79): from the cache, a mismatch there once more from memory. A cached image in which an
error stands names a word of its own that the manual does not tell. -/
def State.fetchImage (s : State) (d job va : Nat) : Fetched × State :=
  match (s.die d).icache.find? fun x => x.1 = job && x.2.1 = va with
  | some (_, _, t, bad) =>
    if bad then
      let (v, s1) := s.takeFree
      (.ue ((va + 8 * (v.toNat % 67)) % 2 ^ 52) (ueTile t (v.toNat % 67)), s1)
    else if tcrcOk t then (.got t, s.setDie d ((s.die d).useImage job va t))
    else s.fetchMem d job va
  | none => s.fetchMem d job va

/-- The place word of a failed check (R92): the tile that the image names, in die coordinates. -/
def badPlace (r : Region) (b : Block) (a : BadAt) : Word :=
  let xy := a.tile.elim (31, 31) fun t => (min 31 (r.x + imgX t), min 31 (r.y + imgY t))
  placeWord r.die xy.1 xy.2 (a.pool.elim 3 (·.code)) (a.slot.getD 15) b.idx

/-- The load of a region fails (R78, R79): it aborts, and its launch is cancelled with the event's code. A load that
restores a saved block raises RESTORE_UE instead (R352). -/
def State.failLoad (s : State) (rid : Nat) (r : Region) (bid code : Nat) (a : BadAt) (w3 : Word) : State :=
  match Tab.get? s.blocks bid with
  | none => s.abortLoad rid
  | some b =>
    let s1 := s.abortLoad rid
    if b.saved.isSome then
      (s1.report 0x98 (some b.lseq) b.job (blockPlace r.die b.idx) (w64 b.idx) 0 0).cancelLaunch b.lseq 0x98
    else (s1.report code (some b.lseq) b.job (badPlace r b a) w3 0 0).cancelLaunch b.lseq code

/-- A tile that a load writes is woken (R77, R91, R237): its pools have applied every message that the root has issued. One that the
full save holds with its bank (R359) has lost nothing. -/
def State.wake (s : State) (k : Nat) : State :=
  let dr := deadRat s.root.log
  let up : PoolSt → PoolSt := fun x => { x with
    seq := s.root.log.length
    dead := dr.1
    ratified := dr.2 }
  if (s.tile k).gated then
    let s1 := if s.thermal.kept.contains k then { s with thermal := { s.thermal with kept := delNat s.thermal.kept k } } else s.lose k
    let t := s1.tile k
    s1.setTile k { t with
      gated := false
      pe := up t.pe
      mx := up t.mx
      ag := up t.ag }
  else s.setTile k { s.tile k with gateDue := false }

/-- A shadow store written (R77). -/
def State.writeShadow (s : State) (r : Region) (bid : Nat) (img : TileImg) : State :=
  if r.wm1 < imgX img || r.hm1 < imgY img then s
  else
    let k := tileKey r.die (r.x + imgX img) (r.y + imgY img)
    let s1 := s.wake k
    s1.setTile k { s1.tile k with
      shadow := some (bid, img)
      shadowBad := false }

/-- The tile images of a block in an image: index of the first, and how many lie in the image. -/
def imageRange (t : ImgTab) (e : BlkEntry) : Nat × Nat :=
  (eTfirst e, min (eTfirst e + eNtiles e) t.ntile - min (eTfirst e) t.ntile)

/-- The device virtual address of a tile image (R40). -/
def imageVa (l : Launch) (t : ImgTab) (i : Nat) : Nat := (l.imgva + 8 * (t.toff + 67 * i)) % 2 ^ 52

/-- A load whose tile images have all been fetched: the checks of the block, then arming (R78, R420). -/
def State.finishLoad (s : State) (rid : Nat) (r : Region) (l : LoadSt) (b : Block) (tab : ImgTab) : State :=
  let c : CheckCtx := ⟨tab, b.idx, b.entry, l.imgs⟩
  match c.format (s.feature 3) with
  | some (i, a) => s.failLoad rid r l.bid 0x10 a (w64 i)
  | none => match c.illegal with
    | some (w, a) => s.failLoad rid r l.bid 0x11 a w
    | none =>
      let s0 := s.modRegion rid fun x => { x with
        loading := none
        armed := some l.bid }
      let s1 := s0.modBlock l.bid fun x => { x with
        tiles := l.imgs.map fun t => tileKey r.die (r.x + imgX t) (r.y + imgY t) }
      (s1.regionTiles rid).foldl State.strandCheck s1

/-- The tiles whose shadows a block's load has written, in tile-image order. -/
def State.shadowTiles (s : State) (r : Region) (bid : Nat) : List Nat :=
  match r.loading.filter fun l => l.bid = bid with
  | some l => l.imgs.map fun t => tileKey r.die (r.x + imgX t) (r.y + imgY t)
  | none => (Tab.get? s.blocks bid).elim [] (·.tiles)

/-- An error that SECDED cannot correct in the shadow of a tile ends the load (R79, R420): IMG_UE names the address of a word of the
tile's image; which word the error struck is a free value. -/
def State.failShadow (s : State) (rid : Nat) (r : Region) (bid k : Nat) (img : TileImg) : State :=
  match Tab.get? s.blocks bid, (Tab.get? s.launches (bid / 256)).bind fun x => x.img.map fun t => (x, t) with
  | some b, some (x, tab) =>
    let (v, s1) := s.takeFree
    let i := (imageRange tab b.entry).1 + (s.shadowTiles r bid).idxOf k
    let w := (imageVa x tab i + 8 * (v.toNat % 67)) % 2 ^ 52
    let s2 := if r.armed = some bid then
        (s1.modRegion rid fun x => { x with armed := none, switching := none }).dropShadows rid bid
      else s1
    s2.failLoad rid r bid 0x13 ⟨ueTile img (v.toNat % 67), none, none⟩ (w64 w)
  | _, _ => s

/-- The first tile of a load in whose shadow an error stands, with its image. -/
def State.shadowErr (s : State) (rid bid : Nat) : Option (Nat × TileImg) := (s.regionTiles rid).findSome? fun k =>
  if (s.tile k).shadowBad then ((s.tile k).shadow.filter fun y => y.1 = bid).map fun y => (k, y.2) else none

/-- One step of a load: the next tile image is fetched and its shadow written, or the block is checked. -/
def State.loadStep (s : State) (rid : Nat) (r : Region) (l : LoadSt) : State :=
  match Tab.get? s.blocks l.bid, (Tab.get? s.launches (l.bid / 256)).bind fun x => x.img.map fun t => (x, t) with
  | some b, some (x, tab) =>
    let (first, n) := imageRange tab b.entry
    let i := l.imgs.length
    match s.shadowErr rid l.bid with
    | some (k, t) => s.failShadow rid r l.bid k t
    | none =>
    if n ≤ i then s.finishLoad rid r l b tab
    else
      let va := imageVa x tab (first + i)
      match s.fetchImage r.die b.job va with
      | (.held a (some (c, lv)), s1) =>
        let (h, s2) := s1.xlate (.load rid) b.job b.lseq a c lv (blockPlace r.die b.idx) 0 0
        s2.modRegion rid fun y => { y with loading := some { l with hold := some h } }
      | (.held a none, s1) =>
        let (h, s2) := s1.addHold ⟨b.job, b.lseq, a, none, .load rid, false⟩
        s2.modRegion rid fun y => { y with loading := some { l with hold := some h } }
      | (.ue a t, s1) => s1.failLoad rid r l.bid 0x13 ⟨t, none, none⟩ (w64 a)
      | (.crc t, s1) => s1.failLoad rid r l.bid 0x12 (BadAt.ofTile t)
          (w64 (crc32c (t.take 66)).toNat ||| place (fld (imgW t 66) 63 32) 32)
      | (.got t, s1) =>
        if fld (imgW t 0) 63 32 != tab.vstamp.toNat then
          s1.failLoad rid r l.bid 0x14 (BadAt.ofTile t) (w64 (fld (imgW t 0) 63 32) ||| place tab.vstamp.toNat 32)
        else (s1.writeShadow r l.bid t).modRegion rid fun y => { y with loading := some { l with imgs := l.imgs ++ [t] } }
  | _, _ => s.abortLoad rid

/-- SHADOW_LOAD (R77 to R79): a region with no load begins the one of the best block that is not resident; a load goes on
by one tile image. -/
def execShadowLoad (rid : Nat) (s : State) : Host.Outcome State Fault Refusal :=
  match Tab.get? s.regions rid with
  | none => .next s
  | some r => match r.loading with
    | some l => .next (if l.hold.isSome then s else s.loadStep rid r l)
    | none =>
      if r.armed.isSome || r.switching.isSome || r.waveBegun || !s.thermal.critDies.isEmpty then .next s
      else match best ((s.cands r).filter fun c => some c.bid != r.resident) with
        | some bid => .next (s.modRegion rid fun x => { x with loading := some ⟨bid, [], none⟩ })
        | none => .next s

/-! ### A configuration becomes live (R83, R87, R121, R128, R237) -/

/-- The channel id of an intra-tile link by its producer's end: within a block, each tile of its region has 12. -/
def intraChan (bid : Nat) (img : TileImg) (p : Pool) (o : Nat) : Nat :=
  bid * 32768 + 8192 + (imgY img * 32 + imgX img) % 1024 * 12 + p.code * 4 + o

/-- The channel id of a channel-table entry of a launch. -/
def entryId (bid : Nat) (w : Word) (i : Nat) : Nat := (bid / 256 * 256 + cSblk w) * 32768 + i

/-- The entry of a channel table at an end. -/
def findEntry (tab : ImgTab) (bid : Nat) (at? : Word → Bool) : Option Nat :=
  (tab.chans.zipIdx.find? fun w => at? w.1).map fun w => entryId bid w.1 w.2

/-- The channel of an input of a live block (R42). -/
def inChan (tab : ImgTab) (bid : Nat) (img : TileImg) (p : Pool) (c : Nat) : Option Nat :=
  match inCode img p c with
  | 1 => findEntry tab bid fun w => cDblk w = bid % 256 && !(endAt [w] img p c).isEmpty
  | 5 => some (entryChan bid)
  | n => (intra n).map fun q => intraChan bid img q c

/-- The channel of an output of a live block (R42). -/
def outChan (tab : ImgTab) (bid : Nat) (img : TileImg) (p : Pool) (o : Nat) : Option Nat :=
  match outCode img p o with
  | 1 => findEntry tab bid fun w => cSblk w = bid % 256 && !(startAt [w] img p o).isEmpty
  | 6 => some (doneChan bid)
  | n => (intra n).map fun _ => intraChan bid img p o

/-- A pool as its configuration becomes live (R83); `ins` and `outs` are its ends. -/
def livePool (img : TileImg) (p : Pool) (old : PoolSt) (cyc : Nat) (ins : List InPort) (outs : List OutPort) : PoolSt :=
  { PoolSt.reset p with
    slots := (List.range (slotCount p)).map fun n => if slotValid img p n then some (imgSlot img p n) else none
    k := (List.range 8).map fun n => imgW img (33 + 8 * p.code + n)
    n0 := (imgW img (60 + p.code)).setWidth 32
    n1 := (imgW img (60 + p.code)).extractLsb' 32 32
    p := BitVec.ofNat 4 (pinit img p)
    groups := shares (imgGroups img p) fun _ => 0
    ins := ins
    outs := outs
    epochAt := cyc
    dead := old.dead
    ratified := old.ratified
    seq := old.seq }

/-- The engine as a configuration becomes live (R237, R238): a recompute or a zeroing of its lasting state goes on. -/
def MxEng.restart (e : MxEng) : MxEng := { e with
  cfg := ⟨31, 7, false, 0, 0⟩
  bucket := 512
  rules := []
  gstart := 0
  glen := 0
  depthLim := 8
  gst := .ready
  passes := []
  work := if e.rebuilding then e.work else none
  gremit := none
  waitRows := [] }

/-- An end's channel, where it exists. -/
def State.known (s : State) (ch : Option Nat) : Option Nat := ch.filter fun c => (Tab.get? s.chans c).isSome

/-- Both ends of a channel are live: the producer's output takes the credits of R121, or the requests of a pull
channel. -/
def State.joinEnds (s : State) (ch : Nat) : State :=
  match Tab.get? s.chans ch with
  | none => s
  | some y => match y.dst, y.src with
    | .inp k p i, .out k' p' o =>
      if s.endLive ch k p i && s.startLive ch k' p' o then
        let q := ((s.tile k).pool p).inp i
        let s1 := s.modChan ch fun z => { z with pull := q.pull }
        let s2 := s1.modOutput ch k' p' o fun x => { x with pull := q.pull }
        if q.pull then
          let n := q.reqOut - (s2.unconsumed ch y - q.queue.length)
          (s2.modChan ch fun z => { z with reqBack := 0 }).modOutput ch k' p' o fun x => { x with reqs := n }
        else s2.setCredits ch q.depth
      else s
    | .inp k p i, _ => if s.endLive ch k p i then s.modChan ch fun z => { z with pull := (((s.tile k).pool p).inp i).pull } else s
    | _, _ => s

/-- The ends of a tile's channels, joined. -/
def State.joinTile (s : State) (k : Nat) : State :=
  let t := s.tile k
  let cs := pools.flatMap fun p => ((t.pool p).ins.filterMap (·.chan)) ++ ((t.pool p).outs.filterMap (·.chan))
  cs.eraseDups.foldl State.joinEnds s

/-- The channels that a live tile brings with it: its intra-tile links, its done sink, and the entry queue's end. -/
def State.tileChans (s : State) (k bid : Nat) (img : TileImg) : State :=
  ends.foldl (fun s e =>
    let s1 := match intra (outCode img e.1 e.2) with
      | some q => s.setChan (intraChan bid img e.1 e.2) (s.newChan (.out k e.1 e.2) (.inp k q e.2) bid 0 [])
      | none => s
    let s2 := if outCode img e.1 e.2 = 6 then s1.setChan (doneChan bid) (s1.newChan (.out k e.1 e.2) (.done bid) bid 0 [])
      else s1
    if inCode img e.1 e.2 = 5 then s2.modChan (entryChan bid) fun y => { y with dst := .inp k e.1 e.2 } else s2) s

/-- The permits of R128, in PE input i3 of the tile that holds the entry input. -/
def State.placePermits (s : State) (k : Nat) (img : TileImg) (e : BlkEntry) : State :=
  if ends.any fun x => inCode img x.1 x.2 = 5 then
    s.modPool k .pe fun x => { x with ins := x.ins.modify 3 fun i =>
      { i with queue := i.queue ++ List.replicate (ePermits e) (ctlTok 3 0 false 0) } }
  else s

/-- The cycle of a tile's core. -/
def State.cycOf (s : State) (k : Nat) : Nat := (s.core (tileCore k)).cyc

/-- A tile whose pools become live with given ends; accesses that its bank held, and that nothing holds any more, are made
(R239). -/
def State.liveTile (s : State) (k bid : Nat) (img : TileImg) (ins : Pool → List InPort) (outs : Pool → List OutPort) : State :=
  let t := s.tile k
  let pool : Pool → PoolSt := fun p => livePool img p (t.pool p) (s.cycOf k) (ins p) (outs p)
  let s1 := s.setTile k { t with
    pe := pool .pe
    mx := pool .mx
    ag := pool .ag
    ps := BitVec.ofNat 4 (pinit img .pe / 16)
    eng := t.eng.restart
    block := some bid
    gated := false
    gateDue := false
    shadow := none
    shadowBad := false
    liveAt := s.cycOf k
    stranded := false }
  if (s1.tile k).eng.holds then s1 else s1.releaseHeld k

/-- An input and an output as they begin. -/
def State.freshIn (s : State) (tab : ImgTab) (bid : Nat) (img : TileImg) (p : Pool) (c : Nat) : InPort :=
  ⟨inCode img p c, inPull img p c, inDepth img p c, s.known (inChan tab bid img p c), [], 0⟩
def State.freshOut (s : State) (tab : ImgTab) (bid : Nat) (img : TileImg) (p : Pool) (c : Nat) : OutPort :=
  ⟨outCode img p c, false, s.known (outChan tab bid img p c), 0, 0, none⟩

/-- The tables of a block's image. -/
def State.tabOf (s : State) (bid : Nat) : Option ImgTab := (Tab.get? s.launches (bid / 256)).bind (·.img)

/-- A tile of a block goes live with nothing in its ends but the permits (R83, R128). -/
def State.install (s : State) (k bid : Nat) (img : TileImg) : State :=
  match s.tabOf bid with
  | none => s
  | some tab =>
    let s1 := s.tileChans k bid img
    let s2 := s1.liveTile k bid img (fun p => [0, 1, 2, 3].map (s1.freshIn tab bid img p))
      fun p => [0, 1, 2, 3].map (s1.freshOut tab bid img p)
    (s2.placePermits k img (s.entryOf bid)).joinTile k

/-- DAMPER_N (0 without a limit) and DAMPER_W in force for a job (R389). -/
def State.damperOf (s : State) (job : Nat) : Nat × Nat :=
  let j := s.job job
  let n := if j.dampN = 0 && s.power.f = 256 then 0
    else max 1 ((if j.dampN = 0 then 8 * j.dampW else j.dampN) * s.power.f / 256)
  (n, j.dampW)

/-- A block becomes resident: its quantum, its quiet count and its damper's first window start (R74, R306, R345). -/
def State.becomeResident (s : State) (rid bid : Nat) : State :=
  let d := s.damperOf ((Tab.get? s.blocks bid).elim 0 (·.job))
  (s.modRegion rid fun r => { r with
    resident := some bid
    armed := none
    pre := none
    switching := none
    quantumAt := r.cyc s
    quiet := 0
    calm := 0
    qwcRaised := false
    active := true
    waveBegun := false
    swapped := []
    winAt := r.cyc s
    dampN := d.1
    dampW := d.2
    admitted := 0
    dampWait := []
    dampOk := [] }).modBlock bid fun b => { b with waitFrom := none }

/-! ### The block-wide swap (R80) -/

/-- A tile takes SWITCH: it loads its shadow, or is gated where the new block does not configure it. -/
def State.switchTile (s : State) (k bid : Nat) : State :=
  match (s.tile k).shadow with
  | some (b, img) => if b = bid then s.install k bid img else s.gate k
  | none => s.gate k

/-- SWITCH (R80, R83): a tile of a region that switches receives the command; after the last one the new block is
resident. -/
def execSwitch (tile : Nat) (s : State) : Host.Outcome State Fault Refusal :=
  match (s.tile tile).region.bind fun rid => (Tab.get? s.regions rid).map fun r => (rid, r) with
  | none => .next s
  | some (rid, r) => match r.switching with
    | none => .next s
    | some bid =>
      if r.swapped.contains tile then .next s
      else
        let sw := putNat r.swapped tile
        let s1 := (s.switchTile tile bid).modRegion rid fun x => { x with swapped := sw }
        if (s1.regionTiles rid).all sw.contains then .next (s1.becomeResident rid bid) else .next s1

/-! ### The wavefront swap (R81 to R86, R300, R301) -/

/-- Inputs of a tile bound with code 1 to 4. -/
def Tile.chanIns (t : Tile) : List InPort := pools.flatMap fun p => (t.pool p).ins.filter fun i => linkCode i.code

/-- A swap token heads an input. -/
def InPort.swapHead (i : InPort) : Bool := i.queue.head?.any isSwap

/-- Two blocks configure the same tiles with the same channels (R84). -/
def State.sameShape (s : State) (rid a b : Nat) : Bool :=
  let tiles := (s.regionTiles rid).all fun k =>
    ((s.tile k).block = some a) == ((s.tile k).shadow.any fun x => x.1 = b)
  let chans : Nat → List (List Nat) := fun x => (s.tabOf x).elim [] fun t =>
    (t.chans.filter fun w => cSblk w = x % 256).map fun w => [cSx w, cSy w, cSpool w, cSout w, cDx w, cDy w, cDpool w, cDin w]
  let ca := chans a
  let cb := chans b
  tiles && ca.length = cb.length && ca.all cb.contains && cb.all ca.contains

/-- The ids of the channels that start or end in a block, by its image's channel table. -/
def State.chanIds (s : State) (bid : Nat) : List Nat := (s.tabOf bid).elim [] fun t =>
  (t.chans.zipIdx.filter fun w => cSblk w.1 = bid % 256 || cDblk w.1 = bid % 256).map fun w => entryId bid w.1 w.2

/-- The channels of an old block that pass to the new one, with their new ids: those with equal ends (R84), in the region, or at its
edge. -/
def State.passing (s : State) (a b : Nat) : List (Nat × Nat) :=
  let new := s.chanIds b
  (s.chanIds a).filterMap fun i => (Tab.get? s.chans i).bind fun y =>
    (new.find? fun j => j != i && (Tab.get? s.chans j).any fun z => z.src = y.src && z.dst = y.dst).map fun j => (i, j)

/-- The tiles at the ends of a channel. -/
def Chan.endTiles (y : Chan) : List Nat :=
  (match y.src with
    | .out k _ _ => [k]
    | _ => []) ++
  (match y.dst with
    | .inp k _ _ => [k]
    | _ => [])

/-- A channel takes a new id, with its tag on every die and its ends in the tiles; `owner` is the block that holds it from then on
(R84, R85). -/
def State.rekey (s : State) (owner : Nat) (m : Nat × Nat) : State :=
  match Tab.get? s.chans m.1 with
  | none => s
  | some y =>
    let s1 := { s with chans := Tab.set (Tab.del s.chans m.1) m.2 { y with bid := owner } }
    let re : Option Nat → Option Nat := fun c => if c = some m.1 then some m.2 else c
    let pool : PoolSt → PoolSt := fun x => { x with
      ins := x.ins.map fun (i : InPort) => { i with chan := re i.chan }
      outs := x.outs.map fun (o : OutPort) => { o with chan := re o.chan } }
    let s2 := y.endTiles.foldl (fun s k =>
      let t := s.tile k
      s.setTile k { t with
        pe := pool t.pe
        mx := pool t.mx
        ag := pool t.ag }) s1
    { s2 with dies := s2.dies.map fun (d : Nat × Die) => (d.1, match Tab.get? d.2.tags m.1 with
        | some x => { d.2 with tags := Tab.set (Tab.del d.2.tags m.1) m.2 x }
        | none => d.2) }

/-- A channel passes to a new block: it is held by the block that holds its counterpart there. -/
def State.passChan (s : State) (m : Nat × Nat) : State :=
  s.rekey ((Tab.get? s.chans m.2).elim 0 (·.bid)) m

/-- An input of the new configuration: it keeps what stands in the old input behind the swap token (R82, R87). Where its channel is
the same, so do the requests that its producer has not answered. -/
def State.waveIn (s : State) (tab : ImgTab) (bid : Nat) (img : TileImg) (k : Nat) (p : Pool) (c : Nat) : InPort :=
  let n := s.freshIn tab bid img p c
  let o := ((s.tile k).pool p).inp c
  if !linkCode o.code || !linkCode n.code then n
  else { n with
    queue := o.queue
    reqOut := if o.chan.isSome && o.chan = n.chan then o.reqOut else 0 }

def State.waveOut (s : State) (tab : ImgTab) (bid : Nat) (img : TileImg) (k : Nat) (p : Pool) (c : Nat) : OutPort :=
  let n := s.freshOut tab bid img p c
  let o := ((s.tile k).pool p).out c
  if o.chan.isSome && o.chan = n.chan then { o with code := n.code, owner := none } else n

/-- The credits and requests that an output of the old configuration holds for a Craxon circuit which does not pass go back to the port
(R376). -/
def State.dropEgress (s : State) (tab : ImgTab) (bid : Nat) (img : TileImg) (k : Nat) : State :=
  ends.foldl (fun s e =>
    let o := ((s.tile k).pool e.1).out e.2
    match o.chan.filter (fun c => some c != s.known (outChan tab bid img e.1 e.2)) |>.bind fun c => Tab.get? s.chans c with
    | some y => match y.dst with
      | .egress n => s.egressBack n y.pull (if y.pull then o.reqs else o.credits.toNat)
      | _ => s
    | none => s) s

/-- The swap tokens at the heads of a tile's inputs are removed (R82 step 2). -/
def State.takeSwaps (s : State) (k : Nat) : State :=
  (s.tile k).linkInputs.foldl (fun s pi =>
    (s.creditFor ((s.tile k).pool pi.1) pi.2.val).modPool k pi.1 fun x => x.popInput pi.2.val) s

/-- The intra-tile links of the old configuration pass where the new one has the same, and end otherwise. -/
def State.passIntra (s : State) (k a b : Nat) (img : TileImg) : State :=
  ends.foldl (fun s e =>
    let old := intraChan a img e.1 e.2
    let new := intraChan b img e.1 e.2
    match Tab.get? s.chans old, intra (outCode img e.1 e.2) with
    | some y, some q => if y.dst = .inp k q e.2 then s.rekey b (old, new)
      else { s with chans := Tab.del s.chans old }.setChan new (s.newChan (.out k e.1 e.2) (.inp k q e.2) b 0 [])
    | some _, none => { s with chans := Tab.del s.chans old }
    | none, some q => s.setChan new (s.newChan (.out k e.1 e.2) (.inp k q e.2) b 0 [])
    | none, none => s) s

/-- The done sink and the entry input of the new block in a tile. -/
def State.waveEnds (s : State) (k bid : Nat) (img : TileImg) : State :=
  ends.foldl (fun s e =>
    let s1 := if outCode img e.1 e.2 = 6 then s.setChan (doneChan bid) (s.newChan (.out k e.1 e.2) (.done bid) bid 0 [])
      else s
    if inCode img e.1 e.2 = 5 then s1.modChan (entryChan bid) fun y => { y with dst := .inp k e.1 e.2 } else s1) s

/-- Swap tokens emitted on the outputs bound with codes 1 to 4 (R82 step 4): they take a credit, and wait for none (R81, log
entry 38). -/
def State.emitSwaps (s : State) (k : Nat) (t : Tok) : State :=
  ends.foldl (fun s e =>
    if linkCode (((s.tile k).pool e.1).out e.2).code then (s.spendOut k e.1 e.2).sendOut k e.1 e.2 t else s) s

/-- A tile swaps by wavefront (R82, R83, R87); `a` is the old block, `b` the new one. Where the heads of its inputs are swap tokens
of both kinds, it emits the kind of the first (DESIGN CHOICE, log entry 92). A tile of a launch that has retired lets go of what it
has taken over (R85). -/
def State.waveTile (s : State) (k a b : Nat) (img : TileImg) (tab : ImgTab) : State :=
  let head := ((s.tile k).chanIns.head?.bind fun i => i.queue.head?)
  let tok := match head with
    | some h => if h.kind == 6 then ctlTok 6 0 false 0 else ctlTok 1 1 false 0
    | none => ctlTok 1 1 false 0
  let s1 := (((s.takeSwaps k).passIntra k a b img).waveEnds k b img).dropEgress tab b img k
  let ins : Pool → List InPort := fun p => [0, 1, 2, 3].map (s1.waveIn tab b img k p)
  let outs : Pool → List OutPort := fun p => [0, 1, 2, 3].map (s1.waveOut tab b img k p)
  let s2 := (s1.liveTile k b img ins outs).placePermits k img (s.entryOf b)
  let s3 := (s2.joinTile k).emitSwaps k tok
  if s3.isRetired (b / 256) then s3.withdrawTile k else s3

/-- A die has applied the retirement record of a launch. -/
def State.hasRetired (s : State) (d : Die) (lseq : Nat) : Bool := (s.arb.stream.take d.applied).contains (.retire lseq)

/-- A block is gone from every copy of the region table, with the tags that it still holds, where `at'` says so. -/
def State.forgetBlock (s : State) (bid : Nat) (at' : Die → Bool) : State :=
  { s with dies := s.dies.map fun (d : Nat × Die) => (d.1, if at' d.2 then { d.2 with
    table := (d.2.table.map fun (r : Nat × List Nat) => (r.1, r.2.filter (· != bid))).filter fun r => !r.2.isEmpty
    tags := d.2.tags.filter fun t => t.1 / 32768 != bid } else d.2) }

/-- The old block leaves the region after the last swap (R85); its record stays until its launch has retired, for the
units that its done sink still finishes. The new block leaves too where its launch has retired meanwhile, on the dies that have
applied its record. -/
def State.leaveWave (s : State) (rid a b : Nat) : State :=
  let s1 := (s.forgetBlock a fun _ => true).modRegion rid fun r => { r with blocks := r.blocks.erase a }
  let s2 := if s1.isRetired (a / 256) then s1.leaveBlock a else s1
  let s3 := s2.forgetBlock b fun d => s2.hasRetired d (b / 256)
  if (Tab.get? s3.blocks b).any fun x => s3.hasRetired (s3.die x.die) (b / 256) then s3.leaveBlock b else s3

/-- A tile may swap by wavefront (R81, R300, R301): a swap token heads each of its inputs bound with code 1 to 4, and where the entry
queue binds one of its inputs, or nothing binds any, the old block's thread tokens are used up. -/
def State.waveReady (s : State) (k a : Nat) : Bool :=
  let t := s.tile k
  let entry := pools.flatMap fun p => (t.pool p).ins.filter fun i => i.code = 5
  t.chanIns.all InPort.swapHead && ((entry.isEmpty && !t.chanIns.isEmpty) || s.queued a = 0) &&
    entry.all (fun i => i.queue.isEmpty) && t.calm

/-- SWAP_SHAPE (R84): both launches are cancelled. -/
def State.shapeDiffers (s : State) (rid tile a b : Nat) : State :=
  (s.report 0x16 (some (a / 256)) ((Tab.get? s.blocks a).elim 0 (·.job))
    (placeWord (tileDie tile) (tileX tile) (tileY tile) 3 15 (a % 256)) (w64 (a % 256) ||| place (b % 256) 8) 0 0).killWave rid 0x16

/-- WAVEFRONT_SWAP (R81 to R86, R300, R301). -/
def execWavefrontSwap (tile : Nat) (s : State) : Host.Outcome State Fault Refusal :=
  let t := s.tile tile
  match t.region.bind fun rid => (Tab.get? s.regions rid).map fun r => (rid, r) with
  | none => .next s
  | some (rid, r) => match r.resident, r.armed with
    | some a, some b =>
      let begins := !r.waveBegun
      if t.block != some a || r.switching.isSome || (begins && (r.pre.isSome || s.isRetired (a / 256) || s.isRetired (b / 256))) ||
        t.stranded then .next s
      else if begins && !s.sameShape rid a b then
        if t.chanIns.any InPort.swapHead then .next (s.shapeDiffers rid tile a b) else .next s
      else if !s.waveReady tile a then .next s
      else match t.shadow, s.tabOf b with
        | some (b', img), some tab =>
          if b' != b then .next s
          else
            let s1 := if begins then
                (s.passing a b).foldl State.passChan (s.modRegion rid fun x => { x with waveBegun := true })
              else s
            let s2 := (s1.waveTile tile a b img tab).markActive tile
            if (s2.regionTiles rid).any fun k => (s2.tile k).shadow.any fun x => x.1 = b then .next s2
            else .next ((s2.becomeResident rid b).leaveWave rid a b)
        | _, _ => .next s
    | _, _ => .next s

end Sys2Proof.Machine
end

