-- ==== Sys2Proof/Machine/Xlate.lean ====
section
/-! DEFINITION. Invalidation of translations and the replay of held accesses (R203, R204, R398). -/

namespace Sys2Proof.Machine

open Sys2Proof

/-- What an XINV names: a job, every entry of it, or the entry that covers a 64 KiB page (R203). -/
structure Inv where
  job : Nat
  all : Bool
  page : Nat
  deriving DecidableEq, Repr

def Inv.ofWord (v : Word) : Inv := ⟨fld v 63 58, bit v 57, fld v 51 16⟩

/-- A cached translation that an invalidation covers. -/
def Inv.covers (i : Inv) (e : TlbEnt) : Bool :=
  e.job = i.job && (i.all || e.va / 2 ^ e.shift = i.page * 65536 / 2 ^ e.shift)

/-- A translated page of a stream that an invalidation covers: virtual page, physical page and size. -/
def Inv.coversPage (i : Inv) (p : Nat × Nat × Nat) : Bool :=
  i.all || (p.1 ≤ i.page * 65536 && i.page * 65536 < p.1 + p.2.2)

/-- The job of a stream's accesses. -/
def State.streamJob (s : State) (k : Nat) (st : Stream) : Nat :=
  match st.unit with
  | some u => (Tab.get? s.launches u.1).elim 0 (·.job)
  | none => (s.blockOf k).elim 0 (·.job)

/-- Every cached translation that an invalidation covers is dropped (R203). -/
def State.dropXl (s : State) (i : Inv) : State :=
  let keep : TlbEnt → Bool := fun e => !i.covers e
  let page : Nat → Stream → Stream := fun k st =>
    if s.streamJob k st = i.job && st.page.any i.coversPage then { st with page := none } else st
  { s with
    dies := s.dies.map fun (d : Nat × Die) => (d.1, { d.2 with tlb := d.2.tlb.filter keep })
    ucaches := s.ucaches.map fun u => (u.1, u.2.filter keep)
    tiles := s.tiles.map fun kt => (kt.1, kt.2.modPool .ag fun x => { x with streams := x.streams.map (page kt.1) }) }

/-- An invalidation completes: no cache and no running stream holds what it covers, and the holds it covers may walk
again (R203, R204). -/
def State.completeXinv (s : State) : State :=
  match s.host.xinv with
  | none => s
  | some (j, all, page) =>
    let s1 := s.dropXl ⟨j, all, page⟩
    { s1 with
      host := { s1.host with xinv := none }
      holds := s1.holds.map fun (h : Nat × Hold) => (h.1, if h.2.covered j all page then { h.2 with ready := true } else h.2) }

/-- XINV (R203): an invalidation that is in progress completes before the next one begins. -/
def execXinv (v : Word) (s : State) : Host.Outcome State Fault Refusal :=
  let i := Inv.ofWord v
  let s1 := s.completeXinv
  .next { s1 with host := { s1.host with xinv := some (i.job, i.all, i.page) } }

/-- XINV_COMPLETE (R203): BUSY clears. -/
def execXinvComplete (s : State) : Host.Outcome State Fault Refusal := .next s.completeXinv

/-- A hold may end: a covering invalidation has completed, or the line is no longer quarantined. -/
def State.mayReplay (s : State) (h : Hold) : Bool :=
  h.ready || (h.level.isNone && match s.walk h.job h.va false with
    | .ok pa _ _ _ => !s.quarantinedLine pa
    | .fault _ _ => true)

/-- A queued access goes on, with the stream that stood still for it. -/
def AgAcc.unhold (q : AgAcc) (h : Nat) : AgAcc := if q.hold = some h then { q with hold := none } else q

/-- A held access is free to walk again. -/
def State.unhold (s : State) (n : Nat) (h : Hold) : State :=
  let s1 := { s with holds := Tab.del s.holds n }
  match h.site with
  | .req k t => s1.modPool k .pe fun x => { x with reqs := x.reqs.map fun (r : Req) => if r.ticket = t then { r with held := none } else r }
  | .stream k i => s1.modStream k i fun st => if st.hold = some n then { st with st := .running, hold := none } else st
  | .agAcc k => s1.modPool k .ag fun x => { x with
      agq := x.agq.map fun q => q.unhold n
      streams := x.streams.map fun (st : Stream) => if st.hold = some n then { st with st := .set, hold := none } else st }
  | .copy c e => s1.modRun c e fun x => { x with hold := none }
  | .load rid => s1.modRegion rid fun r => { r with loading := r.loading.map fun (l : LoadSt) => { l with hold := none } }
  | .table _ => s1

/-- XLATE_REPLAY (R204): a held access walks again. -/
def execXlateReplay (hold : Nat) (s : State) : Host.Outcome State Fault Refusal :=
  match Tab.get? s.holds hold with
  | some h => .next (if s.mayReplay h then s.unhold hold h else s)
  | none => .next s

end Sys2Proof.Machine
end

