-- ==== Sys2Proof/Machine/Interrupt.lean ====
section
/-! DEFINITION. Interruption: the QWC detector and its snapshot (R345, R346), pre-emption requests, drains, saves and
restores (R347 to R355), suspension (R353), and soft errors (R356). -/

namespace Sys2Proof.Machine

open Sys2Proof

/-! ### Words that the scans write -/

/-- The header of a token (R123); `present` is bit 60 of a register's (R354). -/
def tokHeader (t : Tok) (present : Bool) : Word :=
  place (b01 present) 60 ||| place t.tag.toNat 48 ||| place t.side.toNat 24 ||| place (b01 t.psn) 23 |||
    place t.mask.toNat 15 ||| place t.gen.toNat 7 ||| place t.fmt.toNat 3 ||| w64 t.kind.toNat

/-- The 72 bytes of a token or register (R354). -/
def tokScan (t : Tok) (present : Bool) : List Word := t.lanes.toList ++ [tokHeader t present]

/-- Words written to memory from a byte address on. -/
def Mem.putWords (m : Mem) (a : Nat) (ws : List Word) : Mem :=
  (ws.zipIdx).foldl (fun m w => m.writeWord (a / 8 + w.2) w.1 false) m

/-- The place of a region, laid out as w0 of a snapshot header (R346). -/
def Region.placeWord (r : Region) : Word :=
  w64 r.die ||| place r.x 24 ||| place r.y 29 ||| place r.wm1 8 ||| place r.hm1 3

/-- CYCLE of R277 of a region's south-west tile. -/
def State.regionCycle (s : State) (r : Region) : Word := s.csrRead (tileKey r.die r.x r.y) .cycle

/-! ### The QWC detector (R345, R346) -/

/-- The state code of a pool (R346). -/
def PoolRun.code : PoolRun → Nat
  | .running => 0
  | .resuming => 0
  | .faulted => 1
  | .halted => 2
  | .yielded => 3

/-- A request waits on a full-empty bit; an open of a KV row that waits for a slot does not (R329, R346, R350). -/
def Req.onBit (r : Req) : Bool := r.waiting.isSome && r.op != .kvrowOpen

/-- Presence of v15 to v0. -/
def PoolSt.presence (x : PoolSt) : Nat :=
  (x.v.zipIdx).foldl (fun n r => n + (if r.1.present then 2 ^ r.2 else 0)) 0

/-- The fields of a tile and pool in a snapshot entry. -/
def snapTile (r : Region) (k : Nat) (p : Pool) : Word :=
  place (tileX k - r.x) 57 ||| place (tileY k - r.y) 52 ||| place p.code 50

/-- The pool entry of a snapshot. -/
def Tile.snapPool (t : Tile) (r : Region) (k : Nat) (p : Pool) : List Word :=
  let x := t.pool p
  let few := (x.reqs.filter Req.onBit).length
  [place 1 62 ||| snapTile r k p ||| place x.run.code 48 ||| place (t.preds p).toNat 40 ||| place x.presence 24 |||
    place few 19 ||| place (x.reqs.length - few) 14, place x.n1.toNat 32 ||| w64 x.n0.toNat]

/-- The input entry of a snapshot. -/
def State.snapInput (s : State) (r : Region) (k : Nat) (p : Pool) (i : Nat) : List Word :=
  let q := ((s.tile k).pool p).inp i
  let tag := (q.chan.bind fun c => Tab.get? s.chans c).elim 0 fun y => y.tag.toNat
  let h := q.queue.headD zeroTok
  let some? : Word → Word := fun w => if q.queue.isEmpty then 0 else w
  [snapTile r k p ||| place i 48 ||| place (q.depth - 1) 43 ||| place q.queue.length 37 ||| place (b01 q.pull) 36 |||
    place tag 24 ||| some? (place h.kind.toNat 21 ||| place h.gen.toNat 13 ||| place (b01 h.psn) 12) ||| place q.reqOut 6,
    some? (place h.side.toNat 40 ||| w64 (fld h.lanes.l0 39 0))]

/-- The words of a region's snapshot (R346). -/
def State.snapshot (s : State) (r : Region) (b : Block) : List Word :=
  let es := b.tiles.flatMap fun k => pools.flatMap fun p =>
    (s.tile k).snapPool r k p ++ [0, 1, 2, 3].flatMap (s.snapInput r k p)
  [r.placeWord, w64 (es.length / 2), w64 (b.lseq % 2 ^ 32), s.regionCycle r, 0, 0, 0, 0] ++ es

/-- The place word of a region's event: its south-west tile and a block. -/
def Region.eventPlace (r : Region) (b : Block) : Word := Machine.placeWord r.die r.x r.y 3 15 b.idx

/-- QWC raised, with a snapshot where the die's slot is free (R345, R346). -/
def State.raiseQwc (s : State) (rid : Nat) (r : Region) (b : Block) : State :=
  let s1 := s.modRegion rid fun x => { x with qwcRaised := true }
  let w3 := w64 (eQwcw b.entry)
  if s.host.snapBusy.getLsbD r.die then s1.report 0x90 (some b.lseq) b.job (r.eventPlace b) w3 ones 0
  else
    let ws := s.snapshot r b
    let a := s.host.saveBase.toNat + r.die * 2 ^ 20
    let s2 := s1.setMem (s1.mem.putWords a ws)
    { s2 with host := { s2.host with snapBusy := s2.host.snapBusy ||| BitVec.ofNat 8 (2 ^ r.die) } }.report 0x90
      (some b.lseq) b.job (r.eventPlace b) w3 (w64 a) (w64 (8 * ws.length))

/-- QWC (R342, R345): the quiet count of a region reaches its window, once until a cycle that is not quiet. -/
def execQwc (rid : Nat) (s : State) : Host.Outcome State Fault Refusal :=
  match Tab.get? s.regions rid with
  | some r => match r.resident.bind fun b => (Tab.get? s.blocks b).bind fun x =>
      (Tab.get? s.launches x.lseq).map fun l => (x, l) with
    | some (b, l) =>
      if !l.faulted && l.st != .retired && r.pre.isNone && !r.qwcRaised && eQwcw b.entry ≤ r.quiet && b.unfinished l then
        .next (s.raiseQwc rid r b)
      else .next s
    | none => .next s
  | none => .next s

/-! ### Pre-emption requests (R347) -/

/-- A pre-emption request is due in a region: its resident block's job is suspended, its choice falls on another block, or
the launch of another of its blocks is cancelled. -/
def State.preDue (s : State) (rid : Nat) (r : Region) : Option Nat :=
  match r.resident with
  | none => none
  | some bid =>
    if (Tab.get? s.blocks bid).any fun b => (s.job b.job).suspended then some 1
    else if s.choosing rid r && (s.winner r).any (· != bid) then some 0
    else if r.blocks.any fun b => b != bid && (Tab.get? s.launches (b / 256)).any fun l => l.cause.isSome then some 2
    else none

/-- PREEMPT_REQUEST (R347, R353): a request that is due is made to a region. -/
def execPreemptRequest (rid : Nat) (s : State) : Host.Outcome State Fault Refusal :=
  match Tab.get? s.regions rid with
  | some r => match s.preDue rid r with
    | some why => .next (s.requestPre rid why)
    | none => .next s
  | none => .next s

/-! ### Saving (R349 to R351, R354) -/

/-- Frames of the save area (R354). -/
def HostRegs.frames (h : HostRegs) : Nat := (h.saveLen.toNat * 2 ^ 30 - 4 * 2 ^ 30 - 8 * 2 ^ 20) / (65 * 2 ^ 20)

/-- The lowest free frame. -/
def State.freeFrame (s : State) : Option Nat :=
  let n := Tab.freeFrom s.frames 0
  if n < s.host.frames then some n else none

/-- The key of a free place of the full save. -/
def State.freeFull (s : State) : Nat := Tab.freeFrom (s.frames.filter fun f => 2 ^ 20 ≤ f.1) (2 ^ 20)

/-- Every result still in flight in a pool belongs to a request that waits on a full-empty bit. -/
def PoolSt.settled (x : PoolSt) : Bool :=
  x.reqs.all Req.onBit && x.agq.isEmpty &&
    x.inflight.all fun e => e.ticket != 0 && x.reqs.any fun r => r.ticket = e.ticket

/-- The engine's work that a scan-out waits for has ended (R248). -/
def MxEng.idle (e : MxEng) : Bool := e.passes.isEmpty && e.work.isNone && e.gremit.isNone

/-- A region can be scanned (R349, R350): its pools have yielded and it has drained, or for a full scan nothing that has
begun remains; of its requests only those that wait on full-empty bits are left (R259). Its pools have applied every message of
the squash network. -/
def State.drained (s : State) (rid bid : Nat) (r : Region) (q : PreReq) : Bool :=
  let ks := s.tilesOf bid
  !s.isRetired (bid / 256) &&
    ks.all (fun k => (s.tile k).eng.idle && pools.all fun p =>
      ((s.tile k).pool p).seq = s.root.log.length && ((s.tile k).pool p).settled) &&
    (q.scan || ((s.yieldPools rid).all (fun kp => decide (((s.tile kp.1).pool kp.2).run = .yielded)) &&
      decide (Config.drainCycles ≤ r.calm)))

/-- The drain of a block's region has ended. -/
def Block.drainEnded (b : Block) (s : State) (rid : Nat) (r : Region) (q : PreReq) : Bool :=
  s.drained rid (b.lseq * 256 + b.idx) r q

/-- YIELD_OVERRUN (R349, R350): the yield bound runs out before the drain has ended, and the region is saved by full scan. One that has
drained, and waits for a frame (R354), has ended step 2 within its bound. -/
def execYieldOverrun (rid : Nat) (s : State) : Host.Outcome State Fault Refusal :=
  match Tab.get? s.regions rid with
  | some r => match r.resident.bind fun b => Tab.get? s.blocks b, r.pre with
    | some b, some q =>
      let yb := s.host.yieldBound.toNat
      if q.scan || q.full || s.time < q.since + 1000 * yb || b.drainEnded s rid r q then .next s
      else
        let ys := s.yieldPools rid
        let n := (ys.filter fun kp => decide (((s.tile kp.1).pool kp.2).run = .yielded)).length
        .next ((s.modRegion rid fun x => { x with pre := some { q with scan := true } }).report 0x91 (some b.lseq) b.job
          (r.eventPlace b) (w64 yb) (w64 n ||| place ys.length 16) 0)
    | _, _ => .next s
  | none => .next s

/-- The holds of a tile's accesses end; the accesses walk again after a restore. Beats that its streams have read and not delivered
are discarded (R350). -/
def State.endHolds (s : State) (k : Nat) : State :=
  let t := s.tile k
  let hs := (t.pe.reqs.filterMap (·.held)) ++ (t.ag.agq.filterMap (·.hold)) ++ (t.ag.streams.filterMap (·.hold))
  let own : Stream → Bool := fun st => t.ag.agq.any fun q => q.hold = st.hold
  let s1 := { s with holds := s.holds.filter fun h => !hs.contains h.1 }
  s1.setTile k { t with
    pe := { t.pe with reqs := t.pe.reqs.map fun (r : Req) => { r with held := none } }
    ag := { t.ag with
      agq := t.ag.agq.map fun (q : AgAcc) => { q with hold := none }
      streams := t.ag.streams.map fun (st : Stream) =>
        let st1 : Stream := { st with formed := none }
        if st.hold.isSome then { st1 with st := if own st then .set else .running, hold := none } else st1 } }

/-- The part of memory that a predicate on byte addresses admits. -/
def Mem.only (m : Mem) (f : Nat → Bool) : Mem where
  cells := m.cells.filter fun c => f c.1
  full := m.full.filter fun w => f (8 * w)
  poison := m.poison.filter fun w => f (8 * w)

/-- Bytes of the lane slices of some tiles, and of their banks in a full save. -/
def savedBytes (ks : List Nat) (banks : Bool) (a : Nat) : Bool := ks.any fun k =>
  (laneBase k 0 ≤ a && a < laneBase k 8) || (banks && bankBase k ≤ a && a < bankBase (k + 1))

/-- `n` words whose coding the manual leaves open, with the state that has taken them. -/
def State.freeWords (s : State) (n : Nat) : List Word × State :=
  ((List.range n).map fun i => Config.freeValue (s.freeCtr + i), { s with freeCtr := s.freeCtr + n })

/-- A tile record written (R354): lane slices, registers, tokens and rule values as the table lays them out, zero where it says so.
Within the pool records, streams, counters, withdrawn requests, descriptors and the engine's fields the table gives places and no
layout: those words, and the second word of a rule value, are free values (log entry 99). -/
def State.tileRecord (s0 : State) (a k : Nat) : State :=
  let t := s0.tile k
  let waits := (t.pe.reqs.filter Req.onBit).length
  let (f1, s1) := s0.freeWords 104
  let (f2, s2) := s1.freeWords (4 * waits)
  let (f3, s3) := s2.freeWords 36
  let (f4, s4) := s3.freeWords 8
  let (f5, s) := s4.freeWords 2048
  let regs : PoolSt → List Word := fun x => x.v.flatMap fun r => tokScan r.tok r.present
  let rules := (List.range 1024).flatMap fun i =>
    [(Tab.get? t.eng.rules i).elim (f5.getD (2 * i) 0) (·.1), f5.getD (2 * i + 1) 0]
  let m := ((s.mem.clear (a + 19744) (a + 20480)).clear (a + 25152) (a + 25600)).clear (a + 41984) (a + 65536)
  let m1 := (m.putWords a (s.mem.words (laneBase k 0 / 8) 2048)).putWords (a + 16384) (regs t.pe ++ regs t.mx ++ regs t.ag)
  let m2 := ((m1.putWords (a + 18112) f1).putWords (a + 18944) f2).putWords (a + 19456) f3
  let m3 := m2.putWords (a + 20480) (pools.flatMap fun p => (t.pool p).ins.flatMap fun i => i.queue.flatMap fun x => tokScan x false)
  s.setMem ((m3.putWords (a + 25088) f4).putWords (a + 25600) rules)

/-- A frame written (R354). -/
def State.writeFrame (s : State) (n : Nat) (r : Region) (b : Block) (ks : List Nat) : State :=
  let a := s.host.saveBase.toNat + 8 * 2 ^ 20 + n * (65 * 2 ^ 20)
  let m := (s.mem.clear a (a + 65536)).putWords a
    [r.placeWord, w64 (b.lseq % 2 ^ 32), w64 b.idx, w64 ks.length, s.regionCycle r]
  let s1 := ks.zipIdx.foldl (fun s k => s.tileRecord (a + 65536 + 65536 * k.2) k.1) (s.setMem m)
  s1.setMem { s1.mem with poison := s1.mem.poison.filter fun w => !(a ≤ 8 * w && 8 * w < a + 65536 * (1 + ks.length)) }

/-- First byte of the full save, and one past its last (R354). -/
def HostRegs.fullSave (h : HostRegs) : Nat × Nat :=
  let e := h.saveBase.toNat + h.saveLen.toNat * 2 ^ 30
  (e - 4 * 2 ^ 30, e)

/-- A word of the full save belongs to a saved block (log entry 98). -/
def HostRegs.inSave (h : HostRegs) (n w : Nat) : Bool :=
  decide (h.fullSave.1 ≤ 8 * w) && decide (8 * w < h.fullSave.2) && Config.savePlace (w - h.fullSave.1 / 8) = n

/-- The words of a saved block in the full save are written anew: errors that stood in them are gone. -/
def State.writeFull (s : State) (n : Nat) : State :=
  s.setMem { s.mem with poison := s.mem.poison.filter fun w => !s.host.inSave n w }

/-- A region's resident block is scanned out and leaves its tiles (R349 steps 3 to 5). -/
def State.saveBlock (s : State) (rid : Nat) (r : Region) (bid : Nat) (b : Block) (n : Nat) : State :=
  let ks := b.tiles.filter fun k => (s.tile k).block = some bid
  let s1 := ks.foldl State.endHolds s
  let banks := decide (2 ^ 20 ≤ n)
  let f : Saved := ⟨bid, rid, ks.map fun k => (k, s1.tile k), s1.mem.only (savedBytes ks banks), r.cyc s⟩
  let s2 := { s1 with frames := Tab.set s1.frames n f }.setEp (.saved n) s1.root.log.length
  let s3 := if banks then s2.writeFull n else s2.writeFrame n r b ks
  let waits := (Tab.get? s.launches b.lseq).any fun l => s.waitingOf b l != 0
  ((s3.vacate bid).modBlock bid fun x => { x with
    saved := some n
    waitFrom := if waits then some (r.cyc s) else none }).modRegion rid fun x => { x with
      resident := none
      pre := none
      quiet := 0
      calm := 0 }

/-- SAVE_FULL (R354, R361). -/
def State.saveFull (s : State) (b : Block) (gone : Bool) : State :=
  s.report 0x99 (some b.lseq) b.job (blockPlace b.die b.idx)
    (place (b01 gone) 63 ||| place b.idx 32 ||| w64 (b.lseq % 2 ^ 32)) (w64 s.host.frames) 0

/-- DRAIN_END (R349, R350, R354): a region that has drained, or been stopped, is saved. Without a free frame the request
waits; a save for a single-die reset cancels its launch. -/
def execDrainEnd (rid : Nat) (s : State) : Host.Outcome State Fault Refusal :=
  match Tab.get? s.regions rid with
  | some r => match r.resident.bind fun n => (Tab.get? s.blocks n).map fun b => (n, b), r.pre with
    | some (bid, b), some q =>
      if !s.drained rid bid r q then .next s
      else if q.why = 4 then .next (s.saveBlock rid r bid b s.freeFull).settleSusp
      else match s.freeFrame with
        | some n => .next (s.saveBlock rid r bid b n).settleSusp
        | none =>
          if q.why = 3 then .next ((s.saveFull b true).cancelLaunch b.lseq 0x99)
          else if q.full then .next s
          else .next ((s.modRegion rid fun x => { x with pre := some { q with full := true } }).saveFull b false)
    | _, _ => .next s
  | none => .next s

/-! ### Restoring (R352) -/

/-- A pool's saved state scanned in over its freshly installed configuration (R351, R352). -/
def PoolSt.scanIn (x sv : PoolSt) (n : Nat) (dr : List (BitVec 8) × List (BitVec 8)) : PoolSt := { x with
  v := sv.v
  a := sv.a
  n0 := sv.n0
  n1 := sv.n1
  p := sv.p
  inflight := sv.inflight
  run := match sv.run with
    | .yielded => if sv.frec.isSome then .faulted else .running
    | .resuming => .running
    | x => x
  frec := sv.frec
  evts := sv.evts
  reqs := sv.reqs
  tickets := sv.tickets
  bind := sv.bind
  streams := sv.streams
  agq := sv.agq
  ctrs := sv.ctrs
  dead := dr.1
  ratified := dr.2
  seq := n
  ins := List.zipWith (fun (i j : InPort) => { i with queue := j.queue, depth := j.depth, reqOut := j.reqOut }) x.ins sv.ins
  outs := List.zipWith (fun (o j : OutPort) => { o with
    credits := j.credits
    reqs := j.reqs
    pull := j.pull
    owner := j.owner }) x.outs sv.outs }

/-- The engine's saved state scanned in: what does not last, or all of it from the full save (R237, R351, R359). -/
def MxEng.scanIn (e sv : MxEng) (all : Bool) : MxEng :=
  if all then sv
  else { e with
    cfg := sv.cfg
    bucket := sv.bucket
    rules := sv.rules
    outRows := sv.outRows
    gstart := sv.gstart
    glen := sv.glen
    depthLim := sv.depthLim
    gst := sv.gst
    ggen := sv.ggen
    gpsn := sv.gpsn }

/-- Memory with the bytes of another laid over it. -/
def Mem.overlay (m sub : Mem) : Mem where
  cells := sub.cells.foldl (fun cs c => putCell cs c.1 c.2) m.cells
  full := sub.full.foldl putNat m.full
  poison := sub.poison.foldl putNat m.poison

/-- The requests of restored tiles that waited on full-empty bits are issued again in their original order. -/
def State.reissue (s : State) (ks : List Nat) : State :=
  let ws := ks.flatMap fun k => (s.tile k).pe.reqs.filterMap fun r => r.waiting.map fun n => (n, k, r.ticket)
  let sorted := ws.mergeSort fun a b => a.1 ≤ b.1
  sorted.foldl (fun s w =>
    let (n, s1) := s.takeOrder
    s1.modPool w.2.1 .pe fun x => { x with reqs := x.reqs.map fun (r : Req) =>
      if r.ticket = w.2.2 then { r with waiting := some n } else r }) s

/-- A tile's saved state scanned in. -/
def State.scanTile (s : State) (all : Bool) (kt : Nat × Tile) : State :=
  let t := s.tile kt.1
  let n := s.root.log.length
  let dr := deadRat s.root.log
  s.setTile kt.1 { t with
    pe := t.pe.scanIn kt.2.pe n dr
    mx := t.mx.scanIn kt.2.mx n dr
    ag := t.ag.scanIn kt.2.ag n dr
    ps := kt.2.ps
    eng := t.eng.scanIn kt.2.eng all }

/-- A saved block restored: its image is installed, its state scanned in, and the swap is block-wide. -/
def State.restoreBlock (s : State) (rid bid n : Nat) (f : Saved) : State :=
  let s1 := (s.regionTiles rid).foldl (fun s k => s.switchTile k bid) s
  let ks := f.tiles.map (·.1)
  let banks := decide (2 ^ 20 ≤ n)
  let m := ks.foldl (fun (m : Mem) k =>
    let m1 := m.clear (laneBase k 0) (laneBase k 8)
    if banks then m1.clear (bankBase k) (bankBase (k + 1)) else m1) s1.mem
  let s2 := f.tiles.foldl (State.scanTile · banks ·) (s1.setMem (m.overlay f.slices))
  let s3 := { ((ks.foldl State.joinTile s2).reissue ks) with frames := Tab.del s2.frames n }
  (s3.modBlock bid fun b => { b with saved := none }).becomeResident rid bid

/-- The block that a region restores next: in the thermal sequence the one of the full save, otherwise the winner of a
choosing point (R352, R360). -/
def State.restoring (s : State) (rid : Nat) (r : Region) : Option Nat :=
  if s.thermal.resuming then
    r.armed.filter fun b => r.resident.isNone && (Tab.get? s.blocks b).any fun x => x.saved.any fun n => 2 ^ 20 ≤ n
  else if r.resident.isNone && s.choosing rid r then (s.winner r).filter fun w => r.armed = some w
  else none

/-- A word of a saved block's frame, or of its part of the full save, holds an error that ECC cannot correct (R352). -/
def State.frameBad (s : State) (n : Nat) (f : Saved) : Bool :=
  let a := s.host.saveBase.toNat + 8 * 2 ^ 20 + n * (65 * 2 ^ 20)
  s.mem.poison.any fun w =>
    if n < 2 ^ 20 then decide (a ≤ 8 * w) && decide (8 * w < a + 65536 * (1 + f.tiles.length)) else s.host.inSave n w

/-- RESTORE_BLOCK (R352): a saved block that the scheduler chooses, once its load has armed the region and its frame has
applied every message of the squash network. An error in the frame cancels the launch. -/
def execRestoreBlock (rid : Nat) (s : State) : Host.Outcome State Fault Refusal :=
  match (Tab.get? s.regions rid).bind fun r => s.restoring rid r with
  | some bid => match (Tab.get? s.blocks bid).bind fun b => b.saved.bind fun n => (Tab.get? s.frames n).map fun f => (n, f) with
    | some (n, f) =>
      if s.frameBad n f then
        .next ((s.report 0x98 (some (bid / 256)) ((Tab.get? s.launches (bid / 256)).elim 0 (·.job))
          (blockPlace (f.rid / 2 ^ 20) (bid % 256)) (w64 (bid % 256)) 0 0).cancelLaunch (bid / 256) 0x98)
      else if s.seqOf (.saved n) = s.root.log.length then .next (s.restoreBlock rid bid n f) else .next s
    | none => .next s
  | none => .next s

/-! ### Suspension (R353) -/

/-- JOB_SUSPEND (R353): a write of JOB_SUSP whose bit 8 is 1. -/
def execJobSuspend (v : Word) (s : State) : Host.Outcome State Fault Refusal :=
  if !bit v 8 then .next s
  else
    let j := fld v 5 0
    let s1 := if (s.job j).suspended then s else s.setJob j { s.job j with suspended := true, suspPosted := false }
    .next (((s1.jobRegions j).foldl (fun s r => s.requestPre r.1 1) s1).settleSusp)

/-- JOB_RESUME (R353): a write of JOB_SUSP whose bit 8 is 0. -/
def execJobResume (v : Word) (s : State) : Host.Outcome State Fault Refusal :=
  if bit v 8 then .next s
  else
    let j := fld v 5 0
    .next (s.setJob j { s.job j with suspended := false, suspPosted := false })

/-! ### Soft errors (R356) -/

/-- The key of a channel of a stack, of a bank group and of a row in it (R409). -/
def chanKey (m c : Nat) : Nat := m * 32 + c % 32
def groupKey (ch bg : Nat) : Nat := ch * 2 ^ 16 + bg % 2 ^ 16
def rowKey (ch row : Nat) : Nat := ch * 2 ^ 40 + row % 2 ^ 40

/-- A row of HBM meets an error, uncorrectable or corrected, which its channel's base die counts (R409). -/
def Trust.rowError (t : Trust) (pa now : Nat) (ue : Bool) : Trust :=
  let x := Config.hbmPlace pa
  let ch := chanKey (Config.stackOf pa) x.1
  let r := Tab.get t.rows (rowKey ch x.2.2) (0, 0, x.2.1)
  { t with
    rows := Tab.set t.rows (rowKey ch x.2.2) (r.1 + b01 ue, r.2.1 + b01 (!ue), x.2.1)
    chanCe := if ue then t.chanCe
      else Tab.set t.chanCe ch ((Tab.get t.chanCe ch []).filter (fun n => now < n + 10 ^ 9) ++ [now]) }

/-- An error in a row of HBM counted. -/
def State.hbmError (s : State) (pa : Nat) (ue : Bool) : State :=
  if pa < bar2End then { s with trust := s.trust.rowError pa s.time ue } else s

/-- SOFT_CE (R356, R409): a corrected error is counted in its die, and one of HBM in its row and channel. -/
def execSoftCe (site : CeSite) (s : State) : Host.Outcome State Fault Refusal :=
  let d := s.die site.die.val
  let n := d.ceCount + 1
  let s0 := s.setDie site.die.val { d with ceCount := n }
  let s1 := site.hbm.elim s0 fun pa => s0.hbmError pa false
  .next (if n % 1024 = 0 then s1.report 0x92 none 0 ones (w64 n) (w64 site.die.val) 0 else s1)

/-- The unit code and address of a memory word in SOFT_UE (R361), and the tile whose storage it is. -/
def ueMem (w : Nat) : Nat × Nat × Option Nat :=
  let a := 8 * w
  if pmBase 0 ≤ a then (2, (a - pmBase 0) / 8, none)
  else if laneBase 0 0 ≤ a then (4, (a - laneBase 0 0) % 2 ^ 14 / 8, some ((a - laneBase 0 0) / 2 ^ 14))
  else if chipBase 0 ≤ a then (3, (a - chipBase 0) % 2 ^ 26 / 8, none)
  else if cluBase 0 ≤ a then (2, (a - cluBase 0) % 2 ^ 23 / 8, none)
  else if bankBase 0 ≤ a then (0, (a - bankBase 0) % 2 ^ 16 / 8, some ((a - bankBase 0) / 2 ^ 16))
  else (6, a, none)

/-- SOFT_UE posted. -/
def State.postUe (s : State) (k : Option Nat) (p : Option Pool) (unit : Nat) (w4 : Word) : State :=
  let b := k.bind s.blockOf
  let w2 := k.elim ones fun k => placeWord (tileDie k) (tileX k) (tileY k) (p.elim 3 (·.code)) 15 (b.elim 0xFF (·.idx))
  s.report 0x93 (b.map (·.lseq)) (b.elim 0 (·.job)) w2 (w64 unit) w4 0

/-- SOFT_UE posted with an address that the manual does not tell. -/
def State.postUeFree (s : State) (k : Option Nat) (p : Option Pool) (unit : Nat) : State :=
  let (v, s1) := s.takeFree
  s1.postUe k p unit v

/-- SOFT_UE posted for storage that has no unit code: the code and the address are free. -/
def State.postUeAny (s : State) (k : Option Nat) : State :=
  let (v, s1) := s.takeFree
  s1.postUeFree k none (v.toNat % 16)

/-- An error in the shadow of a tile: the load in progress, or the armed region, fails at once as R79 and R420 state. -/
def State.shadowUe (s : State) (k : Nat) : State :=
  let t := s.tile k
  match t.shadow, t.region.bind fun rid => (Tab.get? s.regions rid).map fun r => (rid, r) with
  | some (bid, img), some (rid, r) =>
    let s1 := s.setTile k { t with shadowBad := true }
    if r.armed = some bid || r.loading.any fun l => l.bid = bid then s1.failShadow rid r bid k img else s1
  | _, _ => s

/-- A tile is to be fenced (R408). -/
def State.askFence (s : State) (k : Nat) : State :=
  if (s.die (tileDie k)).fencedTiles.contains k then s
  else { s with trust := { s.trust with fencing := putNat s.trust.fencing k } }

/-- An uncorrectable error in a tile's bank; after the second the tile is to be fenced (R408). -/
def State.bankError (s : State) (k : Nat) : State :=
  if s.trust.bankUe.contains k then s.askFence k else { s with trust := { s.trust with bankUe := putNat s.trust.bankUe k } }

/-- The entry of a slice's bisque buffers that an error strikes: its unit is aborted (R291). -/
def State.bisqueUe (s : State) (sl i : Nat) : State :=
  match (Tab.get s.bisque sl [])[i]? with
  | some e => s.abort e.lseq e.unit e.gen
  | none => s

/-- SOFT_UE (R356, R361, R408, R409): an uncorrectable error, with the repairs that it calls for. -/
def execSoftUe (site : UeSite) (s : State) : Host.Outcome State Fault Refusal :=
  match site with
  | .mem w =>
    let u := ueMem w
    let s1 := ((s.setMem (s.mem.setPsn w true)).postUe u.2.2 none u.1 (w64 u.2.1)).hbmError (8 * w) true
    .next (if u.1 = 0 then u.2.2.elim s1 s1.bankError else s1)
  | .l2 w => .next ((s.setMem (s.mem.setPsn w true)).postUe none none 5 (w64 (8 * w)))
  | .reg k p n =>
    .next (((s.modPool k p fun x => { x with v := x.v.modify n.val fun r => { r with tok := { r.tok with psn := true } } }).postUeFree
      (some k) (some p) 7).askFence k)
  | .token k p i n =>
    .next ((s.modPool k p fun x => { x with ins := x.ins.modify i.val fun q =>
      { q with queue := q.queue.modify n fun t => { t with psn := true } } }).postUeFree (some k) (some p) 8)
  | .slot k p n w =>
    if (((s.tile k).pool p).slots.getD n.val none).isNone then .next s
    else
      let d := s.die (tileDie k)
      let s1 := s.setDie (tileDie k) { d with slotUe := s.time :: d.slotUe.take 1 }
      .next (((s1.postUeAny (some k)).raise k p n.val 0x94 0 w 0 0).askFence k)
  | .cache d i =>
    .next (({ s with dies := s.dies }.setDie d.val { s.die d.val with
      icache := (s.die d.val).icache.modify i fun x => (x.1, x.2.1, x.2.2.1, true) }).postUeAny none)
  | .shadow k => .next (((s.shadowUe k).postUeAny (some k)).askFence k)
  | .bisque sl i => .next ((s.bisqueUe sl.val i).postUeFree none none 9)
  | .scale k i =>
    let t := s.tile k
    .next ((s.setTile k { t with eng := { t.eng with badScales := putNat t.eng.badScales i.val } }).postUeAny (some k))

end Sys2Proof.Machine
end

