-- ==== Sys2Proof/Machine/Codec.lean ====
section
/-! DEFINITION. The wire form of a flit body: segments (R372), the token code with its exponent table (R379 to R381). -/

namespace Sys2Proof.Machine

open Sys2Proof

/-- Bits packed from the least significant one on: their value and their number. -/
abbrev Bits := Nat × Nat

/-- Bits followed by a field. -/
def Bits.put (b : Bits) (v n : Nat) : Bits := (b.1 + v % 2 ^ n * 2 ^ b.2, b.2 + n)

/-- Bits followed by bits. -/
def Bits.join (b c : Bits) : Bits := (b.1 + c.1 * 2 ^ b.2, b.2 + c.2)

/-- The exponent table after a coded lane (R381): E moves or enters at entry 0. -/
def tableUse (t : List Int) (e : Int) : List Int := e :: (if t.contains e then t.erase e else t.dropLast)

/-- The width that a significand class sends (R380). -/
def slWidth (n : Nat) : Nat := if n < 5 then 8 + 8 * n else 50

/-- The smallest class that drops only zero bits (R380). -/
def slClass (s : Nat) : Nat := ([0, 1, 2, 3, 4].find? fun n => s % 2 ^ (50 - slWidth n) = 0).getD 5

/-- The code of one lane and the table it leaves (R380, R381). -/
def laneCode (t : List Int) (w : Word) : Bits × List Int :=
  let e := wfE w
  let s := fld w 49 0
  let n := slClass s
  let head : Bits := match t.findIdx? (· == e) with
    | some i => (Bits.put (0, 0) 1 1).put i 4
    | none => (Bits.put (0, 0) 0 1).put (fld w 63 50) 14
  ((head.put n 3).put (s / 2 ^ (50 - slWidth n)) (slWidth n), tableUse t e)

/-- The codes of lanes in order. -/
def lanesCode (t : List Int) : List Word → Bits × List Int
  | [] => ((0, 0), t)
  | w :: rest =>
    let (b, t1) := laneCode t w
    let (c, t2) := lanesCode t1 rest
    (b.join c, t2)

/-- The lanes that a token sends: ZMASK has a bit for each lane that is not zero (R126). -/
def zmask (t : Tok) : Nat := (List.range 8).foldl (fun m i => if t.lanes.get i = 0 then m else m + 2 ^ i) 0

/-- The coded form of a token with its repeat count (R379); `wedge` tells whether WEDGE is accepted. -/
def tokenCode (wedge : Bool) (tab : List Int) (t : Tok) (r : Nat) : Bits × List Int :=
  let ws := t.lanes.toList.filter (· != 0)
  let z : Bits := (0, 0)
  let head : Bits := ((z.put (tokHeader t false).toNat 64).put (zmask t) 8).put r 4
  let (c, tab') := lanesCode tab ws
  if wedge && t.fmt == 0 && decide (c.2 < 64 * ws.length) then ((head.put 0 1).join c, tab')
  else (ws.foldl (fun b w => Bits.put b w.toNat 64) (head.put 1 1), tab)

/-- The circuit that a segment of a Craxon port names, or the circuit tag of one between chiplets. -/
def circuitBits (port : Bool) (b : Bits) (dnode xcid tag : Nat) : Bits :=
  if port then (b.put dnode 10).put xcid 16 else b.put tag 12

/-- The bits of a segment (R372) and the table it leaves; `tag` is the circuit tag of its channel. A marker takes a
private slot of its circuit and no bit of a body. -/
def segCode (port wedge : Bool) (tag : Nat → Nat) (tab : List Int) (x : Seg) : Bits × List Int :=
  let z : Bits := (0, 0)
  match x with
  | .tok _ dn xc t r =>
    let (c, tab') := tokenCode wedge tab t r
    let h := z.put 0 2
    ((if port then (h.put dn 10).put xc 16 else h).join c, tab')
  | .credit ch dn xc n => ((circuitBits port (z.put 1 2) dn xc (tag ch)).put (n - 1) 6, tab)
  | .request ch dn xc n => ((circuitBits port (z.put 2 2) dn xc (tag ch)).put (n - 1) 6, tab)
  | .marker _ _ _ _ => (z, tab)

/-- A marker of the squash network. -/
def Seg.isMark : Seg → Bool
  | .marker _ _ _ _ => true
  | _ => false

/-- DNODE, XCID and SEQ of a marker. -/
def Seg.mark? : Seg → Option (Nat × Nat × Nat)
  | .marker _ dn xc n => some (dn, xc, n)
  | _ => none

/-- The segments that one flit of a port may take: those up to a run of markers, and the markers, which a flit holds behind its
body (R326). -/
def flitRun (xs : List Seg) : List Seg × List Seg :=
  let a := xs.takeWhile fun x => !x.isMark
  let b := (xs.drop a.length).takeWhile Seg.isMark
  (a ++ b, xs.drop (a.length + b.length))

/-- Credits and requests in counts of at most 64 (R372). -/
def splitSegs : (fuel : Nat) → List Seg → List Seg
  | 0, xs => xs
  | _, [] => []
  | fuel + 1, .credit c d x n :: rest =>
    if 64 < n then .credit c d x 64 :: splitSegs fuel (.credit c d x (n - 64) :: rest) else .credit c d x n :: splitSegs fuel rest
  | fuel + 1, .request c d x n :: rest =>
    if 64 < n then .request c d x 64 :: splitSegs fuel (.request c d x (n - 64) :: rest)
    else .request c d x n :: splitSegs fuel rest
  | fuel + 1, s :: rest => s :: splitSegs fuel rest

/-- Segments that fill a body as far as they fit: the body, the segments taken, the table and the segments left. -/
def fillBody (port wedge : Bool) (tag : Nat → Nat) (tab : List Int) (b : Bits) : List Seg → Bits × List Seg × List Int × List Seg
  | [] => (b, [], tab, [])
  | x :: rest =>
    let (c, tab') := segCode port wedge tag tab x
    if 3904 < b.2 + c.2 then (b, [], tab, x :: rest)
    else
      let (b', xs, tab'', left) := fillBody port wedge tag tab' (b.join c) rest
      (b', x :: xs, tab'', left)

/-! ### Reading a body -/

/-- A field of `n` bits at a position of a body. -/
def bodyAt (body pos n : Nat) : Nat := body / 2 ^ pos % 2 ^ n

/-- Lanes decoded for the set bits of a ZMASK (R379, R380): lanes, next position and table. -/
def lanesRead (body : Nat) (raw : Bool) (zm : Nat) : (n i pos : Nat) → List Int → List Word × Nat × List Int
  | 0, _, pos, t => ([], pos, t)
  | n + 1, i, pos, t =>
    if !zm.testBit i then
      let (ws, p, t') := lanesRead body raw zm n (i + 1) pos t
      (0 :: ws, p, t')
    else if raw then
      let (ws, p, t') := lanesRead body raw zm n (i + 1) (pos + 64) t
      (w64 (bodyAt body pos 64) :: ws, p, t')
    else
      let hit := bodyAt body pos 1 = 1
      let e : Int := if hit then t.getD (bodyAt body (pos + 1) 4) 0 else sextBits (bodyAt body (pos + 1) 14) 14
      let p1 := pos + 1 + (if hit then 4 else 14)
      let k := bodyAt body p1 3
      let s := bodyAt body (p1 + 3) (slWidth k) * 2 ^ (50 - slWidth k)
      let (ws, p, t') := lanesRead body raw zm n (i + 1) (p1 + 3 + slWidth k) (tableUse t e)
      ((BitVec.ofInt 14 e ++ BitVec.ofNat 50 s) :: ws, p, t')

/-- A token of a header and its lanes (R123). -/
def tokOfHeader (h : Nat) (l : Lanes) : Tok where
  lanes := l
  tag := BitVec.ofNat 12 (nfld h 59 48)
  side := BitVec.ofNat 24 (nfld h 47 24)
  psn := h.testBit 23
  mask := BitVec.ofNat 8 (nfld h 22 15)
  gen := BitVec.ofNat 8 (nfld h 14 7)
  fmt := BitVec.ofNat 4 (nfld h 6 3)
  kind := BitVec.ofNat 3 (nfld h 2 0)

/-- The segments of a Craxon port's body from a position on (R372), and the table they leave. -/
def segsRead (body : Nat) : (fuel pos : Nat) → List Int → List Seg × List Int
  | 0, _, t => ([], t)
  | fuel + 1, pos, t =>
    if 3904 < pos + 28 then ([], t)
    else
      let kind := bodyAt body pos 2
      let dn := bodyAt body (pos + 2) 10
      let xc := bodyAt body (pos + 12) 16
      match kind with
      | 0 =>
        let h := bodyAt body (pos + 28) 64
        let zm := bodyAt body (pos + 92) 8
        let r := bodyAt body (pos + 100) 4
        let raw := bodyAt body (pos + 104) 1 = 1
        let (ws, p, t1) := lanesRead body raw zm 8 0 (pos + 105) t
        let (xs, t2) := segsRead body fuel p t1
        (.tok 0 dn xc (tokOfHeader h (Lanes.ofList ws)) r :: xs, t2)
      | 1 =>
        let (xs, t1) := segsRead body fuel (pos + 34) t
        (.credit 0 dn xc (bodyAt body (pos + 28) 6 + 1) :: xs, t1)
      | 2 =>
        let (xs, t1) := segsRead body fuel (pos + 34) t
        (.request 0 dn xc (bodyAt body (pos + 28) 6 + 1) :: xs, t1)
      | _ => ([], t)

end Sys2Proof.Machine
end

