-- ==== Sys2Proof/Machine/Links.lean ====
section
/-! DEFINITION. The links between chiplets and packages (R370 to R374, R381), their keys (R400, R401), XMAP writes (R375,
R376, R378), the traffic of speculation circuits (R332, R378), and CXL ports (R384). -/

namespace Sys2Proof.Machine

open Sys2Proof

/-! ### Which links are there -/

/-- A Craxon port (R385). -/
def isPort (l : Nat) : Bool := 16 ≤ l && l < 52

/-- A link carries flits: it is up and has its keys, and no chiplet at its ends is quarantined (R373, R398, R404). -/
def State.linkRuns (s : State) (l : Nat) (dir : Bool) : Bool :=
  flitLink l && !s.trust.keysErased && (s.link l dir).up && (linkEnds l).all fun c => !s.trust.quarantined.getLsbD c

/-! ### Sending (R371, R372, R381) -/

/-- Both ends of a channel's region are active where a token moves on it (R345). -/
def State.moves (s : State) (y : Chan) : State :=
  let s1 := s.srcActive y
  match y.dst with
  | .inp k _ _ => s1.markActive k
  | _ => s1

/-- Items that wait before a crossing join the segments of its link direction. -/
def State.gather (s : State) (l : Nat) (dir : Bool) : State :=
  s.chans.foldl (fun s c =>
    match c.2.path.findIdx? (· == (l, dir)) with
    | some j =>
      let its := c.2.stages.getD j []
      if its.isEmpty then s
      else its.foldl (fun s it => s.queueSeg l dir (match it with
        | .tok t r => .tok c.1 0 0 t r
        | .marker n => .marker c.1 0 0 n)) ((s.setChan c.1 { c.2 with stages := c.2.stages.set j [] }).moves c.2)
    | none => s) s

/-- The circuit tag of a channel. -/
def State.tagOf (s : State) (ch : Nat) : Nat := (Tab.get? s.chans ch).elim 0 fun y => y.tag.toNat

/-- A transmitter after a flit under its next FSEQ: the window keeps the last 128 (R373), the epoch counts the wraps (R371), and the
flits under the key are counted (R400). -/
def LinkDir.sent (d : LinkDir) (f : Flit) : LinkDir := { d with
  fseq := d.fseq + 1
  epoch := if d.fseq = 0xFFFF then d.epoch + 1 else d.epoch
  window := (d.window ++ [f]).drop (d.window.length + 1 - 128)
  used := d.used + 1 }

/-- The next flit of a link direction, with the segments it carries: it closes when no further segment is ready, and with none
at all it is idle. A key that has served 2^32 flits serves no more (R400). -/
def State.sendFlit (s : State) (l : Nat) (dir : Bool) : State :=
  let d := s.link l dir
  if 2 ^ 32 ≤ d.used then s
  else
    let aseq := (s.link l (!dir)).expect - 1
    let (now, later) := if isPort l then flitRun d.pending else (d.pending, [])
    let (b, sent, tab, left) := fillBody (isPort l) (s.feature 4) s.tagOf d.txTab (0, 0) (splitSegs 65536 now)
    let body := if b.2 + 2 ≤ 3904 && !d.pending.isEmpty then b.put 3 2 else b
    let f : Flit := ⟨d.fseq, aseq, d.txKp, if d.pending.isEmpty then 1 else 0, BitVec.ofNat 3904 body.1,
      if isPort l then sent.filterMap Seg.mark? else []⟩
    s.setLink l dir { d.sent f with
      wire := if isPort l then [f] else d.wire ++ [f]
      segs := if isPort l then d.segs else d.segs ++ [(d.fseq, sent)]
      pending := left ++ later
      txTab := tab }

/-! ### What a chiplet does with a segment between chiplets (R372) -/

/-- A segment that has crossed a link goes on along its channel, or back along it. -/
def State.crossed (s : State) (l : Nat) (dir : Bool) (x : Seg) : State :=
  let fwd : Nat → Item → State := fun ch it =>
    match Tab.get? s.chans ch with
    | none => s
    | some y =>
      let j := (y.path.findIdx? (· == (l, dir))).getD 0 + 1
      let y1 : Chan := if j < y.path.length then { y with stages := y.stages.modify j fun q => q ++ [it] }
        else { y with items := y.items ++ [it] }
      (s.setChan ch y1).moves y
  let back : Nat → Seg → (State → State) → State := fun ch seg done =>
    match Tab.get? s.chans ch with
    | none => s
    | some y => match y.path.findIdx? (· == (l, !dir)) with
      | some (j + 1) => match y.path[j]? with
        | some (m, e) => s.queueSeg m (!e) seg
        | none => done s
      | _ => done s
  match x with
  | .tok ch _ _ t r => fwd ch (.tok t r)
  | .marker ch _ _ n => fwd ch (.marker n)
  | .credit ch _ _ n => back ch x fun s => match Tab.get? s.chans ch with
    | some y => match y.src with
      | .out k p o => if s.startLive ch k p o then s.modOutput ch k p o fun q => { q with credits := q.credits + n }
        else s.setChan ch { y with credBack := y.credBack + n }
      | _ => s
    | none => s
  | .request ch _ _ n => back ch x fun s => match Tab.get? s.chans ch with
    | some y => match y.src with
      | .out k p o => if s.startLive ch k p o then s.modOutput ch k p o fun q => { q with reqs := q.reqs + n }
        else s.setChan ch { y with reqBack := y.reqBack + n }
      | _ => s
    | none => s

/-! ### What a Craxon port does with a segment (R376) -/

/-- The valid XMAP entry of a port's circuit in a direction. -/
def State.portEntry (s : State) (p xcid : Nat) (ingress : Bool) : Option Nat :=
  (s.xmap.find? fun e => bit e.2.1 63 && bit e.2.1 62 == ingress && fld e.2.1 55 48 = p && fld e.2.1 47 32 = xcid).map (·.1)

/-- Requests that arrive for an egress circuit: its channel is a pull channel. -/
def State.egressRequest (s : State) (e n : Nat) : State :=
  match s.chans.find? fun c => decide (c.2.dst = ChanDst.egress e) with
  | some (ch, y) =>
    let s1 := s.setChan ch { y with pull := true, reqBack := y.reqBack + n }
    match y.src with
    | .out k p o => s1.modOutput ch k p o fun q => { q with pull := true }
    | _ => s1
  | none => s

/-- Credits and requests for a circuit that has no valid egress entry here yet are kept for it (R376). -/
def State.early (s : State) (p xcid c r : Nat) : State :=
  let k := p * 65536 + xcid
  let x := Tab.get s.xearly k (0, 0)
  { s with xearly := Tab.set s.xearly k (x.1 + c, x.2 + r) }

/-- A channel of the package holds the egress entry. -/
def State.egressHeld (s : State) (e : Nat) : Bool := s.chans.any fun c => decide (c.2.dst = ChanDst.egress e)

/-- A segment of a port reaches what it names; one that names another package, and a token or marker that names no valid entry,
is lost. -/
def State.portSeg (s : State) (p : Nat) (x : Seg) : State :=
  let here : Nat → Bool := fun dn => dn = s.host.xnode.toNat
  let store : Nat → Nat → Item → State := fun dn xc it => match s.portEntry p xc true with
    | some e => if here dn then { s with stores := Tab.set s.stores e (Tab.get s.stores e [] ++ [it]) } else s
    | none => s
  match x with
  | .tok _ dn xc t r => store dn xc (.tok t r)
  | .marker _ dn xc n => store dn xc (.marker n)
  | .credit _ dn xc n =>
    if !here dn then s
    else match s.portEntry p xc false with
      | some e => { s with xcredits := Tab.set s.xcredits e (Tab.get s.xcredits e 0 + n) }
      | none => s.early p xc n 0
  | .request _ dn xc n =>
    if !here dn then s
    else match s.portEntry p xc false with
      | some e => if s.egressHeld e then s.egressRequest e n else s.early p xc 0 n
      | none => s.early p xc 0 n

/-! ### Speculation circuits (R332, R378) -/

/-- The bits of a message in lanes 0 to 4 (R323). -/
def msgBits (t : Tok) : Nat := (List.range 5).foldr (fun i n => n * 2 ^ 64 + (t.lanes.get i).toNat) 0

/-- The tags of a mask. -/
def maskTags (n : Nat) : List (BitVec 8) := ((List.range 256).filter n.testBit).map (BitVec.ofNat 8)

/-- A message from the home joins the peer's log; a LAUNCH names a unit of the peer's own launch, whose position, token
id and cumulative product the message does not carry. -/
def State.takeHomeMsg (s : State) (lseq : Nat) (t : Tok) : State :=
  let n := msgBits t
  let job := n / 2 ^ 259 % 64
  let seq := n / 2 ^ 268 % 2 ^ 32
  let kind : MsgKind := match n / 2 ^ 265 % 8 with
    | 0 => .launch
    | 1 => .ratify
    | 2 => .squash
    | _ => .free
  let g := n % 256
  match kind with
  | .launch =>
    let (a, s1) := s.takeFree
    let (b, s2) := s1.takeFree
    let (c, s3) := s2.takeFree
    let rat := n.testBit 16
    let e : GenEnt := ⟨if rat then .ratified else .live, false, BitVec.ofNat 8 (n / 256), a.toNat % 2 ^ 32, b.toNat % 2 ^ 32,
      c, lseq, job, none, true⟩
    let r : Root := { s3.root with gens := Tab.set s3.root.gens g e }
    { s3 with root := r.issue ⟨.launch, job, [BitVec.ofNat 8 g], some e, rat, some seq⟩ }
  | k =>
    let ts := maskTags (n % 2 ^ 256)
    let st : GenSt := match k with
      | .ratify => .ratified
      | _ => .squashing
    let r := match k with
      | .free => s.root
      | _ => ts.foldl (fun (r : Root) (t : BitVec 8) => r.setSt t.toNat st) s.root
    let held := match k with
      | .ratify => []
      | _ => [s.root.log.length]
    { s with root := { r.issue ⟨k, job, ts, none, false, some seq⟩ with frees := r.frees ++ held } }

/-- A request of a peer joins those of the home's root (R332, R378); its B lane 1 does not travel. -/
def State.takePeerReq (s : State) (d : Domain) (t : Tok) : State :=
  let w := t.lanes.l0
  match opOf .pe (fld w 7 0) (fld w 10 8) with
  | some o =>
    let (b1, s1) := s.takeFree
    let q : RootReq := ⟨o, fld w 10 8, BitVec.ofNat 8 (fld w 23 16), d.lseq, fld w 29 24, d.unit, t.lanes.l1, t.lanes.l2,
      t.lanes.l3, b1⟩
    { s1 with root := { s1.root with reqs := s1.root.reqs ++ [q] } }
  | none => s

/-- One token of a speculation circuit from a node; none where it has to wait in the port's store. -/
def State.takeSpec (s : State) (node : Nat) (t : Tok) : Option State :=
  match fld t.lanes.l7 1 0, s.root.joined, s.root.domain with
  | 0, some (home, lseq), _ => if home = node then some (s.takeHomeMsg lseq t) else none
  | 1, _, _ =>
    if s.root.peers.contains node then
      let n := fld t.lanes.l0 31 0 + 1
      some { s with root := { s.root with
        peerAck := Tab.set s.root.peerAck node (max n (Tab.get s.root.peerAck node 0)) } }
    else none
  | 2, _, dom =>
    if s.root.peers.contains node then some (dom.elim s fun d => s.takePeerReq d t) else none
  | _, _, _ => none

/-- The tokens that stand in the stores of speculation circuits are taken as far as they can be; `n` tokens at most. -/
def State.specStore (s : State) (e : Nat) : (n : Nat) → State
  | 0 => s
  | n + 1 => match Tab.get s.stores e [] with
    | .tok t r :: rest => match s.takeSpec (s.entryNode e) t with
      | some s1 =>
        let its := if r = 0 then rest else .tok t (r - 1) :: rest
        (({ s1 with stores := Tab.set s1.stores e its }).storeCredit e 1).specStore e n
      | none => s
    | .marker _ :: rest => { s with stores := Tab.set s.stores e rest }.specStore e n
    | [] => s

/-- Every speculation circuit's store is looked at. -/
def State.serveSpec (s : State) : State :=
  (s.xmap.filter fun e => bit e.2.1 63 && bit e.2.1 62 && bit e.2.2 28).foldl (fun s e =>
    s.specStore e.1 (beatsIn (Tab.get s.stores e.1 []) + (Tab.get s.stores e.1 []).length)) s

/-! ### Receiving (R373, R381, R401) -/

/-- The receiver can decrypt a flit of a key phase (R401). -/
def LinkDir.opens (d : LinkDir) (kp : Bool) : Bool := kp == d.rxKp || d.rxNext.isSome

/-- A receiver after a flit that it accepts: the first flit of a new phase is noted where its sender is outside. -/
def LinkDir.accept (d : LinkDir) (f : Flit) (tab : List Int) : LinkDir := { d with
  expect := f.fseq + 1
  rxEpoch := if f.fseq = 0xFFFF then d.rxEpoch + 1 else d.rxEpoch
  retryAsked := false
  attempts := 0
  rxTab := tab
  switchAt := if f.kp != d.rxKp then d.switchAt.orElse fun _ => some f.fseq else d.switchAt }

/-- A receiver after a flit that it does not accept: it asks for a replay, and discards the flits that follow. An attempt at
the expected FSEQ is counted. -/
def LinkDir.reject (d : LinkDir) (f : Flit) : LinkDir := { d with
  wire := d.wire.filter fun g => g.ftype == 2
  retryAsked := true
  attempts := if f.fseq = d.expect then d.attempts + 1 else d.attempts }

/-- A flit is discarded, and the receiver's retry request, which takes no FSEQ of its own, travels on the other direction
(log entry 90). -/
def State.discard (s : State) (l : Nat) (dir : Bool) (f : Flit) : State :=
  let d := (s.link l dir).reject f
  let r := s.link l (!dir)
  let q : Flit := ⟨r.fseq, d.expect - 1, r.txKp, 2, 0, []⟩
  let wire := if r.wire.any fun g => g.ftype == 2 then r.wire else if isPort l then [q] else r.wire ++ [q]
  (s.setLink l dir d).setLink l (!dir) { r with wire := wire }

/-- Sequence numbers after one, up to the last one sent. -/
def after (aseq fseq last : BitVec 16) : Bool := fseq != aseq && (fseq - aseq).toNat ≤ (last - aseq).toNat

/-- The flits of the window after ASEQ, in order, with the same bytes. -/
def LinkDir.replay (d : LinkDir) (aseq : BitVec 16) : List Flit := d.window.filter fun f => after aseq f.fseq (d.fseq - 1)

/-- The retry request at the head of the other direction's wire reaches the sender, which replays; after eight failed attempts
it waits for the retrain. -/
def State.takeRetry (s : State) (l : Nat) (dir : Bool) : State :=
  let d := s.link l dir
  match (s.link l (!dir)).wire with
  | f :: rest =>
    if f.ftype != 2 || 8 ≤ d.attempts then s
    else (s.setLink l (!dir) { s.link l (!dir) with wire := rest }).setLink l dir { d with
      wire := d.wire.filter (fun g => g.ftype == 2) ++ d.replay f.aseq
      retryAsked := false
      aseq := f.aseq }
  | [] => s

/-- A retry request from outside at a port: its sender replays to the other package, unless eight attempts at one FSEQ have
failed. -/
def LinkDir.outsideRetry (d : LinkDir) (aseq : BitVec 16) : LinkDir :=
  let n := if aseq + 1 = d.expect then d.attempts + 1 else 1
  { d with
    expect := aseq + 1
    aseq := aseq
    attempts := n
    wire := if n < 8 then d.replay aseq else [] }

/-- The sender of a direction receives an ASEQ from the other end (R371). -/
def State.acks (s : State) (l : Nat) (dir : Bool) (aseq : BitVec 16) : State :=
  let d := s.link l dir
  if isPort l then s.setLink l dir { d with
    aseq := aseq
    expect := aseq + 1
    attempts := if aseq + 1 = d.expect then d.attempts else 0 }
  else s.setLink l dir { d with aseq := aseq }

/-- A flit at a receiver between chiplets. -/
def State.receiveInner (s : State) (l : Nat) (dir tagOk : Bool) : State :=
  let d := s.link l dir
  match d.wire with
  | [] => s
  | f :: rest =>
    if f.ftype == 2 then if tagOk then s.takeRetry l (!dir) else s
    else if !tagOk || f.fseq != d.expect || !d.opens f.kp then s.discard l dir f
    else
      let xs := ((d.segs.find? fun x => x.1 = f.fseq).map (·.2)).getD []
      let (_, _, tab, _) := fillBody false (s.feature 4) s.tagOf d.rxTab (0, 0) xs
      let d1 : LinkDir := { d.accept f tab with
        wire := rest
        segs := d.segs.filter fun x => x.1 != f.fseq }
      xs.foldl (fun s x => s.crossed l dir x) ((s.setLink l dir d1).acks l (!dir) f.aseq)

/-- A flit from outside at a Craxon port: its ASEQ acknowledges the port's own flits, and a retry request is answered. -/
def State.receivePort (s : State) (l : Nat) (f : Flit) (tagOk : Bool) : State :=
  let d := s.link l true
  if tagOk && f.ftype == 2 && d.opens f.kp then s.setLink l false ((s.link l false).outsideRetry f.aseq)
  else if !tagOk || f.fseq != d.expect || !d.opens f.kp || 3 ≤ f.ftype.toNat then s.discard l true f
  else
    let (xs, tab) := if f.ftype == 0 then segsRead f.body.toNat 512 0 d.rxTab else ([], d.rxTab)
    let fresh := f.kp != d.rxKp && d.switchAt.isNone
    let s1 := (s.setLink l true { d.accept f tab with used := if fresh then 1 else d.used + 1 }).acks l false f.aseq
    let ys := xs ++ f.marks.map fun m => Seg.marker 0 m.1 m.2.1 m.2.2
    (ys.foldl (fun s x => s.portSeg (l - 16) x) s1).serveSpec

/-- FLIT_RECEIVE (R371 to R373, R376, R381): the next flit of a link direction. Between chiplets it is formed from the
segments that wait and received at the other end; one that leaves the package by a Craxon port is formed and sent; one
that comes from outside is `ext`. `tagOk` tells whether its tag verifies. -/
def execFlitReceive (l : Nat) (dir : Bool) (ext : Option Flit) (tagOk : Bool) (s : State) :
    Host.Outcome State Fault Refusal :=
  if !s.linkRuns l dir then .next s
  else if isPort l then
    if dir then .next (ext.elim s.serveSpec fun f => s.receivePort l f tagOk)
    else .next ((s.gather l dir).sendFlit l dir)
  else
    let s1 := if (s.link l dir).wire.isEmpty && !(s.link l dir).retryAsked then (s.gather l dir).sendFlit l dir else s
    .next (s1.receiveInner l dir tagOk)

/-- RETRY_REQUEST (R373): the sender resends its flits from ASEQ + 1, with the same bytes; between chiplets the request is the
flit that stands at the head of the other direction. -/
def execRetryRequest (l : Nat) (dir : Bool) (aseq : BitVec 16) (s : State) : Host.Outcome State Fault Refusal :=
  if !s.linkRuns l dir then .next s
  else if isPort l then .next (if dir then s else s.setLink l dir ((s.link l dir).outsideRetry aseq))
  else match (s.link l (!dir)).wire with
    | f :: _ => .next (if f.aseq = aseq then s.takeRetry l dir else s)
    | [] => .next s

/-! ### Retraining, lanes, and a link that is down (R373, R374, R381) -/

/-- Lanes that a retrain maps out, in one module: lanes in use and spares used, or the link is lost (R374). -/
def spareLanes (l lanes spares bad : Nat) : Option (Nat × Nat) :=
  if isPort l then
    let used := spares + (4 - lanes) + bad
    if used = 0 then some (4, 0) else if used = 1 then some (4, 1) else if used = 2 then some (3, 1) else none
  else if spares + bad ≤ 4 then some (lanes, spares + bad) else none

/-- The modules of a link direction after a retrain that finds the lanes of `bad` failed, each named by its module; none where one of
them has no lane left for a failure (R374). -/
def spareMods (l : Nat) (mods : List (Nat × Nat)) (bad : List Nat) : Option (List (Nat × Nat)) :=
  mods.zipIdx.mapM fun m => spareLanes l m.1.1 m.1.2 (bad.count m.2)

/-- A link goes down in both directions (R373). -/
def State.linkDown (s : State) (l : Nat) : State :=
  let down : Bool → State → State := fun dir s => s.setLink l dir { s.link l dir with up := false }
  (down true (down false s)).report 0xA1 none 0 ones (w64 l) 0 0

/-- LANE_SPARED for each module whose lane map has changed (R374). -/
def State.laneEvents (s : State) (l : Nat) (old new : List (Nat × Nat)) : State :=
  (old.zip new).foldl (fun s m =>
    if m.1 = m.2 then s else s.report 0xA2 none 0 ones (w64 l ||| place m.2.1 8 ||| place m.2.2 16) 0 0) s

/-- LINK_RETRAIN (R373, R374): after eight failed attempts at one FSEQ the link retrains; `bad` names the module of each lane
found failed, and `ok` tells whether the retrain succeeds. Four failed retrains in a row take the link down. -/
def execLinkRetrain (l : Nat) (dir : Bool) (bad : List Nat) (ok : Bool) (s : State) : Host.Outcome State Fault Refusal :=
  let d := s.link l dir
  if !s.linkRuns l dir || d.attempts < 8 then .next s
  else
    let s1 := s.report 0xA0 none 0 ones (w64 l) (w64 d.expect.toNat) 0
    match spareMods l d.mods bad with
    | none => .next ((s1.setLink l dir { d with retrains := d.retrains + 1 }).linkDown l)
    | some mods =>
      let d1 : LinkDir := { d with
        retrains := d.retrains + 1
        mods := mods
        failedTrains := if ok then 0 else d.failedTrains + 1
        attempts := if ok then 0 else d.attempts
        wire := if ok && isPort l && !dir then d.replay d.aseq else d.wire }
      let s2 := (s1.setLink l dir d1).laneEvents l d.mods mods
      .next (if 4 ≤ d1.failedTrains then s2.linkDown l else s2)

/-- A direction that starts from reset (R381): no flit to replay; the segments of flits that were not accepted wait to be
sent in new flits, so that no circuit loses a token (R120). -/
def LinkDir.restart (d : LinkDir) : LinkDir := { d with
  up := true
  fseq := 0
  window := []
  wire := []
  segs := []
  pending := (d.segs.map (·.2)).flatten ++ d.pending
  expect := 0
  retryAsked := false
  attempts := 0
  failedTrains := 0
  txTab := freshTab
  rxTab := freshTab
  switchAt := none
  epoch := 0
  rxEpoch := 0
  aseq := 0xFFFF }

/-- LINK_UP (R381): a link that went down comes back up. -/
def execLinkUp (l : Nat) (s : State) : Host.Outcome State Fault Refusal :=
  let go : Bool → State → State := fun dir s =>
    if (s.link l dir).up then s else s.setLink l dir (s.link l dir).restart
  .next (if flitLink l then go true (go false s) else s)

/-! ### Link keys (R400, R401) -/

/-- KEY_INSTALL (R401 step 1): the receiver accepts the next key and acknowledges it, once both ends have retired the old
one. -/
def execKeyInstall (l : Nat) (dir : Bool) (s : State) : Host.Outcome State Fault Refusal :=
  let d := s.link l dir
  if !s.linkRuns l dir || d.rxNext.isSome || d.txOld.isSome || d.acked then .next s
  else .next (s.setLink l dir { d with
    rxNext := some (d.rxKey + 1)
    acked := true
    switchAt := none })

/-- KEY_SWITCH (R401 step 2): after the acknowledgement the transmitter switches at a flit boundary. That of a port's incoming
direction is in another package: its first flit of the new phase tells of it. -/
def execKeySwitch (l : Nat) (dir : Bool) (s : State) : Host.Outcome State Fault Refusal :=
  let d := s.link l dir
  if !s.linkRuns l dir || !d.acked || (isPort l && dir) then .next s
  else .next (s.setLink l dir { d with
    acked := false
    txOld := some d.txKey
    txKey := d.txKey + 1
    txKp := !d.txKp
    switchAt := some d.fseq
    used := 0 })

/-- The receiver has accepted the first flit of the new phase. -/
def LinkDir.rxPast (d : LinkDir) : Bool :=
  d.rxNext.isSome && d.switchAt.any fun n => 1 ≤ (d.expect - n).toNat && (d.expect - n).toNat < 2 ^ 15

/-- ASEQ has reached the first flit of the new phase at the transmitter. -/
def LinkDir.txPast (d : LinkDir) : Bool := d.txOld.isSome && d.switchAt.any fun n => (d.aseq - n).toNat < 2 ^ 15

/-- KEY_RETIRE (R401 step 3): an end retires the old key, the receiver once it has accepted the first flit of the new
phase, the transmitter once ASEQ has reached it. -/
def execKeyRetire (l : Nat) (dir : Bool) (tx : Bool) (s : State) : Host.Outcome State Fault Refusal :=
  let d := s.link l dir
  if !s.linkRuns l dir || !(if tx then d.txPast else d.rxPast) then .next s
  else if tx then .next (s.setLink l dir { d with
    txOld := none
    switchAt := if d.rxNext.isNone then none else d.switchAt })
  else .next (s.setLink l dir { d with
    rxKey := d.rxNext.getD d.rxKey
    rxNext := none
    rxKp := !d.rxKp
    acked := d.acked && !(isPort l && dir)
    switchAt := if d.txOld.isNone then none else d.switchAt })

/-! ### XMAP (R375, R376, R378) -/

/-- The fields of an entry are in range (R375, R378). -/
def xmapOk (w : Word × Word) : Bool :=
  let depth := fld w.2 41 29
  let v := bit w.1 63
  fld w.1 55 48 ≤ 35 &&
    (if bit w.1 62 then depth % 16 = 0 && depth ≤ 4096 && (!v || (16 ≤ depth && (!bit w.2 28 || 64 ≤ depth)))
      else !v || depth = 0) &&
    (!v || !bit w.2 28 || (fld w.2 63 52 = 0 && fld w.1 31 0 = 0))

/-- The sum of DEPTH over the valid ingress entries of a port. -/
def depthSum (m : Tab (Word × Word)) (p : Nat) : Nat :=
  ((m.filter fun e => bit e.2.1 63 && bit e.2.1 62 && fld e.2.1 55 48 = p).map fun e => fld e.2.2 41 29).sum

/-- A job has an unretired launch. -/
def State.jobBusy (s : State) (job : Nat) : Bool := s.launches.any fun kl => kl.2.job = job && kl.2.st != .retired

/-- An entry that ceases to be valid loses the tokens of its store, its credits and its circuit tag (R376, R378). -/
def State.xmapEnd (s : State) (e : Nat) (w : Word × Word) : State := { s with
  stores := Tab.del s.stores e
  xcredits := Tab.del s.xcredits e
  xearly := if bit w.1 62 then s.xearly else Tab.del s.xearly (fld w.1 55 48 * 65536 + fld w.1 47 32)
  specTags := Tab.del s.specTags e }

/-- The lowest tag of 0 to 15 of an I/O die that no speculation circuit has (R378). -/
def State.specTag (s : State) (die : Nat) : Nat :=
  ((List.range 16).find? fun t => s.specTags.all fun x => x.2 ≠ (die, t)).getD 15

/-- An entry that becomes valid: for ingress it grants its DEPTH; for egress it takes the credits that came before it; a
speculation circuit takes a circuit tag of its I/O die (R376, R378). -/
def State.xmapBegin (s : State) (e : Nat) (w : Word × Word) : State :=
  let p := fld w.1 55 48
  let xc := fld w.1 47 32
  let x := Tab.get s.xearly (p * 65536 + xc) (0, 0)
  let s1 :=
    if bit w.1 62 then s.queueSeg (portLink p) false (.credit 0 (fld w.2 51 42) xc (fld w.2 41 29))
    else { s with
      xcredits := Tab.set s.xcredits e x.1
      xearly := if x.2 = 0 then Tab.del s.xearly (p * 65536 + xc) else Tab.set s.xearly (p * 65536 + xc) (0, x.2) }
  if bit w.2 28 then { s1 with specTags := Tab.set s1.specTags e (portDie p, s1.specTag (portDie p)) } else s1

/-- XMAP_WRITE (R375, R376, R378): one word of an entry. -/
def execXmapWrite (e : Fin 1024) (hi : Bool) (v : Word) (s : State) : Host.Outcome State Fault Refusal :=
  let old := Tab.get s.xmap e.val (0, 0)
  let new := if hi then (old.1, v &&& ~~~w64 (2 ^ 28 - 1)) else (v, old.2)
  let busy := (bit old.1 63 && s.jobBusy (fld old.1 61 56)) || (bit new.1 63 && s.jobBusy (fld new.1 61 56))
  let m := Tab.set s.xmap e.val new
  if busy || !xmapOk new || 16384 < depthSum m (fld new.1 55 48) then .next s
  else
    let was := bit old.1 63
    let is := bit new.1 63
    let s1 := { s with xmap := m }
    let s2 := if was && !is then s1.xmapEnd e.val old else if !was && is then s1.xmapBegin e.val new else s1
    .next s2.servePeers.serveSpec

/-! ### CXL ports (R384) -/

/-- CXL_DOWN (R384): a port goes down; its reads return poisoned data until it returns. -/
def execCxlDown (p : Fin 8) (s : State) : Host.Outcome State Fault Refusal :=
  if s.trust.cxlDown.contains p.val then .next s
  else .next ({ s with trust := { s.trust with cxlDown := putNat s.trust.cxlDown p.val } }.report 0xA4 none 0 ones
    (w64 (64 + p.val)) 0 0)

/-- CXL_PORT_RETURN (R384): the port returns, and L2 writes back the dirty lines that it kept: the words of the window
stand as they were last stored. -/
def execCxlPortReturn (p : Fin 8) (s : State) : Host.Outcome State Fault Refusal :=
  .next { s with trust := { s.trust with cxlDown := delNat s.trust.cxlDown p.val } }

end Sys2Proof.Machine
end

