-- ==== Sys2Proof/Machine/PowerCtl.lean ====
section
/-! DEFINITION. Power and current (R387 to R392), and the windows of the damper (R306, R389). -/

namespace Sys2Proof.Machine

open Sys2Proof

/-- The full reserve in µJ (R388). -/
def reserveFull : Nat := 500000

/-- The reserve at which the alarm clears in µJ (R388). -/
def reserveHalf : Nat := 250000

/-- The cap that the step holds the power to, 100 W below PWR_CAP until the reserve is full (R388). -/
def Power.capt (w : Power) : Nat := if w.reserve = reserveFull then w.cap else w.cap - 100

/-- The reserve after a period of module power `p` in W and ballast energy `eb` in µJ (R388). -/
def Power.nextReserve (w : Power) (p eb : Nat) : Nat :=
  if w.cap < p then w.reserve - eb else min reserveFull (w.reserve + (w.cap - p) * 10)

/-- The throttle factor after a period that leaves the reserve `r` (R388). -/
def Power.nextF (w : Power) (p r : Nat) : Nat :=
  if r = 0 then 1
  else if w.capt < p then max 1 (w.f - (w.f * (p - w.capt) + p - 1) / p)
  else if p < w.capt - 50 && !(w.alarm && r < reserveHalf) then min 256 (w.f + 8)
  else w.f

/-- The kiln controller's step at the end of a control period (R388). -/
def Power.period (w : Power) (p eb : Nat) : Power :=
  let r := w.nextReserve p eb
  { w with
    reserve := r
    f := w.nextF p r
    alarm := (w.alarm || r = 0) && r < reserveHalf
    last := p % 2 ^ 16 }

/-- CONTROL_PERIOD (R388, R392): the step, and POWER_ALARM once when the reserve reaches 0. A hand-over of the firmware
leaves f as it stands (R405). -/
def execControlPeriod (p eb : Nat) (s : State) : Host.Outcome State Fault Refusal :=
  let w := s.power.period p eb
  let s1 := { s with power := if s.trust.fwState = 3 then { w with f := s.power.f } else w }
  .next (if w.reserve = 0 && !s.power.alarm then
    s1.report 0xB0 none 0 ones (w64 (p % 2 ^ 16) ||| place s.power.cap 16) (w64 eb) 0 else s1)

/-- The tiles of a core on which ballast may run: those with a configuration, and those that wait for its end to be gated. -/
def State.ballastTiles (s : State) (c : Nat) : List Nat :=
  (s.tiles.filter fun t => tileCore t.1 = c && !t.2.gated && (t.2.block.isSome || t.2.gateDue)).map (·.1)

/-- Ballast shared out over tiles from the lowest index on, each in the cycles of the slice in which its engine ran no macro of its
own (R391). -/
def State.shareBallast (s : State) (n : Nat) : List Nat → State
  | [] => s
  | k :: ks =>
    let b := min n (32 - (s.tile k).eng.macros)
    (s.setTile k ((s.tile k).modEng fun e => { e with ballast := b, macros := 0 })).shareBallast (n - b) ks

/-- The tiles of a core that are due to be gated are gated. -/
def State.gateDueTiles (s : State) (c : Nat) : State :=
  ((s.tiles.filter fun t => tileCore t.1 = c && t.2.gateDue).map (·.1)).foldl State.gateNow s

/-- BALLAST_SLICE (R390, R391): a slice of 32 cycles of a core ends; ballast has raised its load to the floor. Once the core's
ballast has ended, the tiles that waited for it are gated. -/
def execBallastSlice (core : Fin 64) (s : State) : Host.Outcome State Fault Refusal :=
  let k := s.core core.val
  if k.cyc % 32 ≠ 0 then .next s
  else
    let floor := k.lastLoad - Config.pwrSlope
    let amount := floor - k.load
    let s1 := (s.shareBallast amount (s.ballastTiles core.val)).setCore core.val { k with
      lastLoad := max k.load floor
      ballast := amount
      load := 0 }
    .next (if amount = 0 then s1.gateDueTiles core.val else s1)

/-- A region's next damper window (R306, R389): the limits in force change, and the tokens that wait are admitted first,
in the order in which they reached the damper. -/
def Region.nextWindow (r : Region) (n w : Nat) : Region :=
  let passing := if n = 0 then [] else r.dampWait.take n
  { r with
    winAt := r.winAt + r.dampW
    dampN := n
    dampW := w
    admitted := passing.length
    dampWait := if n = 0 then [] else r.dampWait.drop n
    dampOk := if n = 0 then [] else r.dampOk ++ passing }

/-- DAMPER_WINDOW (R306, R389): the window of a region whose block is resident has run out. -/
def execDamperWindow (rid : Nat) (s : State) : Host.Outcome State Fault Refusal :=
  match Tab.get? s.regions rid with
  | some r => match r.resident with
    | some bid =>
      if r.cyc s < r.winAt + r.dampW then .next s
      else
        let d := s.damperOf ((Tab.get? s.blocks bid).elim 0 (·.job))
        .next (s.setRegion rid (r.nextWindow d.1 d.2))
    | none => .next s
  | none => .next s

end Sys2Proof.Machine
end

