-- ==== Sys2Proof/Machine/Sampling.lean ====
section
/-! DEFINITION. Online softmax, hashing and sampling (R214, R225 to R235). -/

namespace Sys2Proof.Machine

open Sys2Proof

/-! ### Value–id pairs (R214) -/

/-- A valid value–id pair. -/
structure VPair where
  v : Val
  id : Word
  deriving DecidableEq, Repr

/-- A pair ranks above another (R214). -/
def VPair.above (p q : VPair) : Bool := q.v.keyLt p.v || (!p.v.keyLt q.v && p.id.ult q.id)

/-- The better of two pairs, either of which may be invalid. -/
def bestPair : Option VPair → Option VPair → Option VPair
  | some p, some q => if q.above p then some q else some p
  | some p, none => some p
  | none, q => q

/-- Pair `n` of a VID value. -/
def pairOf (t : Tok) (n : Nat) : Option VPair :=
  if t.mask.getLsbD (2 * n) && t.mask.getLsbD (2 * n + 1) then
    some ⟨Val.ofWf (t.lanes.get (2 * n)), t.lanes.get (2 * n + 1)⟩
  else none

/-- The valid pairs of a VID value. -/
def pairsOf (t : Tok) : List VPair := [0, 1, 2, 3].filterMap (pairOf t)

/-- A VID result: its LMASK marks the valid pairs. -/
def pairTokOf (h : Hdr) (p : Nat → Option VPair) : Tok :=
  dataTok (Lanes.ofFn fun i => (p (i / 2)).elim 0 fun q => if i % 2 = 0 then q.v.toWf 0 else q.id)
    { h with mask := maskOf fun i => (p (i / 2)).isSome } 6

/-- A pair put into a list that runs from best to worst. -/
def insertPair (p : VPair) : List VPair → List VPair
  | [] => [p]
  | q :: rest => if p.above q then p :: q :: rest else q :: insertPair p rest

/-- Candidates from best to worst. -/
def ranked (ps : List VPair) : List VPair := ps.foldl (fun acc p => insertPair p acc) []

/-- The candidates (lane i, base + i) of a WF beat. -/
def lanePairs (t : Tok) (base : Word) : List VPair :=
  ((List.range 8).filter fun i => t.mask.getLsbD i).map fun i => ⟨Val.ofWf (t.lanes.get i), base + w64 i⟩

/-- RARGMX (R224). -/
def execRargmx (f : Fields) (s : State) : Host.Outcome State Fault Refusal :=
  issue .rargmx f s fun c => do
    let vid : Bool := c.a.fmt == 6
    let a ← c.convA (if vid then .vid else .wf)
    let h ← c.header
    let best := (ranked (if vid then pairsOf a else lanePairs a 0)).head?
    .ok (c.result (pairTokOf h fun n => if n = 0 then best else none))

/-! ### Online softmax (R225 to R229) -/

/-- A softmax state (R225): m, s, αD, αA and the key. -/
structure Soft where
  m : Val
  s : Val
  ad : Val
  aa : Val
  key : Val
  deriving DecidableEq, Repr

/-- The state in a WF value. -/
def Soft.of (t : Tok) : Soft :=
  let v : Nat → Val := fun i => Val.ofWf (t.lanes.get i)
  ⟨v 0, v 1, v 2, v 3, v 4⟩

/-- A NaN state. -/
def Soft.isNan (x : Soft) : Bool := x.m.isNan || x.s.isNan || x.ad.isNan || x.aa.isNan

/-- The NaN state with a key. -/
def Soft.nan (key : Val) : Soft := ⟨.nan, .nan, .nan, .nan, key⟩

/-- An empty state with a key. -/
def Soft.empty (key : Val) : Soft := ⟨.inf true, .int 0, .int 1, .int 0, key⟩

/-- A state as a token: LMASK 0x1F. -/
def Soft.tok (x : Soft) (h : Hdr) : Tok :=
  dataTok (Lanes.ofList ([x.m, x.s, x.ad, x.aa, x.key].map fun v => v.toWf 0)) { h with mask := 0x1F } 0

/-- expdiff (R226). -/
def expdiff (a b : Val) : Val :=
  if a = .inf true then (if b = .inf true then .int 1 else .int 0) else fexp2 (a.sub b).rw

/-- smup (R226). -/
def smup (d : Soft) (a : Tok) : Soft :=
  let vs := validVals a
  if d.isNan || vs.any (fun v => v.isNan || v = .inf false) then Soft.nan d.key
  else
    let mx := vs.foldl Val.fmax (.inf true)
    let m := if d.m.keyLt mx then mx else d.m
    let t : Nat → Val := fun i =>
      let x := Val.ofWf (a.lanes.get i)
      if !a.mask.getLsbD i || x = .inf true then .int 0 else fexp2 (x.sub m).rw
    let ad := expdiff d.m m
    ⟨m, ((d.s.mul ad).rw.add (rsum t 0)).rw, ad, .int 0, d.key⟩

/-- SMUP (R226): `.init` reads no D. -/
def execSmup (f : Fields) (s : State) : Host.Outcome State Fault Refusal :=
  issue .smup f s fun c => do
    let fresh : Bool := f.md.getLsbD 0
    let a ← c.convA .wf
    let b ← c.convB .wf
    let d ← if fresh then .ok zeroTok else c.convD .wf
    let h ← if fresh then c.headerOf ([f.a, f.b].filterMap fun x => if isHeaderSrc x then some (c.x.source x) else none)
      else c.header
    let old := if fresh then Soft.empty (Val.ofWf (lane0 b)) else Soft.of d
    .ok (c.result ((smup old a).tok h))

/-- smrg (R227), with the key of the result. -/
def smrg (d a : Soft) (key : Val) : Soft :=
  if d.isNan || a.isNan then Soft.nan key
  else
    let m := if d.m.lt a.m then a.m else d.m
    let ad := expdiff d.m m
    let aa := expdiff a.m m
    ⟨m, ((d.s.mul ad).rw.add (a.s.mul aa).rw).rw, ad, aa, key⟩

/-- SMRG (R227). -/
def execSmrg (f : Fields) (s : State) : Host.Outcome State Fault Refusal :=
  issue .smrg f s fun c => do
    let a ← c.convA .wf
    let d ← c.convD .wf
    let h ← c.header
    .ok (c.result ((smrg (Soft.of d) (Soft.of a) (Soft.of d).key).tok h))

/-- SMRG.ORD (R228): the oldest beat whose key follows D's is merged and leaves the buffer. -/
def execSmrgOrd (f : Fields) (s : State) : Host.Outcome State Fault Refusal :=
  issue .smrgOrd f s fun c => do
    match c.ordMatch with
    | none => .ok { c.plain with pops := [] }
    | some (i, n, t) =>
      let d ← c.convD .wf
      let a ← c.conv none t .wf
      let h ← c.headerOf [t, c.d]
      .ok { c.result ((smrg (Soft.of d) (Soft.of a) (Soft.of a).key).tok h) with
        pops := []
        tile := fun t' => t'.modPool c.p fun x =>
          { x with ins := x.ins.modify i fun q => { q with queue := q.queue.eraseIdx n } }
        eff := fun s1 => s1.creditFor c.x i }

/-- SMFIN (R229). -/
def execSmfin (f : Fields) (s : State) : Host.Outcome State Fault Refusal :=
  issue .smfin f s fun c => do
    let a ← c.convA .wf
    let h ← c.header
    let x := Soft.of a
    let r : List Val := if x.isNan then [.nan, .nan] else [frcp x.s, (x.m.add (flog2 x.s)).rw]
    .ok (c.result (dataTok (Lanes.ofList (r.map fun v => v.toWf 0)) { h with mask := 3 } 0))

/-! ### Hashing and sampling (R230 to R235) -/

/-- The constants of HASH: C[i] and ROT[i] (R230). -/
def hashConsts : List (Word × Nat) :=
  [(0x5A17C3E92B84D06F, 17), (0xE1B24D9708F36AC5, 43), (0x3F8A96D1C57E2B04, 29), (0x94C05E2B7D18F3A9, 7),
    (0x2D76B8F04AE91C53, 53), (0xC8E31A64F9275DB0, 31)]

/-- hash (R230). -/
def hash64 (x y : Word) : Word :=
  let r := hashConsts.foldl (fun (ab : Word × Word) c =>
    let a := ab.1 + ab.2 + c.1
    let b := ab.2.rotateLeft c.2 ^^^ a
    (a.rotateLeft 32, b)) (x, y)
  r.1 ^^^ r.2

/-- HASH (R230). -/
def execHash (f : Fields) (s : State) : Host.Outcome State Fault Refusal :=
  issue .hash f s fun c => do
    let h ← c.header
    let a := maskLanes c.a
    let b := maskLanes c.b
    .ok (c.result (dataTok (Lanes.ofFn fun i => hash64 (a.get i) (b.get i)) h 3))

/-- gumb (R232). -/
def gumb (x : Val) (w : Word) : Val :=
  match x with
  | .fin m e =>
    let u : Val := .fin (2 * fld w 63 16 + 1 : Nat) (-49)
    let q0 := (cLN2.neg.mul (flog2 u)).rw
    let q := if q0.lt (.fin 1 (-60)) then .fin 1 (-60) else q0
    let g := (cLN2.neg.mul (flog2 q)).rw
    ((Val.fin m e).add g).rw
  | v => v

/-- GUMB (R232). -/
def execGumb (f : Fields) (s : State) : Host.Outcome State Fault Refusal :=
  issue .gumb f s fun c => do
    let a ← c.convA .wf
    let h ← c.header
    let b := maskLanes c.b
    .ok (c.result (dataTok (Lanes.ofFn fun i => (gumb (Val.ofWf (a.lanes.get i)) (b.get i)).toWf 0) h 0))

/-- TOPKI (R233): `.init` reads no D. -/
def execTopki (f : Fields) (s : State) : Host.Outcome State Fault Refusal :=
  issue .topki f s fun c => do
    let fresh : Bool := f.md.getLsbD 0
    let vid : Bool := f.md.getLsbD 1
    let a ← c.convA (if vid then .vid else .wf)
    let base ← c.intB
    let d ← if fresh then .ok zeroTok else c.convD .vid
    let h ← if fresh then c.headerOf ([f.a, f.b].filterMap fun x => if isHeaderSrc x then some (c.x.source x) else none)
      else c.header
    let best := ranked ((if vid then pairsOf a else lanePairs a base) ++ pairsOf d)
    .ok (c.result (pairTokOf h fun n => best[n]?))

/-- TKOUT (R234). -/
def execTkout (f : Fields) (s : State) : Host.Outcome State Fault Refusal :=
  issue .tkout f s fun c => do
    let a ← c.convA .vid
    let h ← c.header
    let p := pairOf a
    let valid : Hdr := { h with mask := maskOf fun i => i < 4 && (p i).isSome }
    .ok (c.result (match f.md.toNat with
      | 0 => dataTok (Lanes.ofFn fun i => (p i).elim 0 (·.id)) valid 1
      | 1 => dataTok (Lanes.ofFn fun i => (p i).elim 0 fun q => q.v.toWf 0) valid 0
      | _ => pairTokOf h fun n => if n = 0 then p 0 else none))

/-- ARGMC (R235). -/
def execArgmc (f : Fields) (s : State) : Host.Outcome State Fault Refusal :=
  issue .argmc f s fun c => do
    let a ← c.convA .vid
    let b ← c.convB .vid
    let h ← c.header
    .ok (c.result (pairTokOf h fun n => if n < 4 then bestPair (pairOf a n) (pairOf b n) else none))

end Sys2Proof.Machine
end

