-- ==== Sys2Proof/Machine/Trust.lean ====
section
/-! DEFINITION. Trust and service (R393 to R410): cold start and attestation, quarantine and single-die resets, alarms,
firmware, and the repair of tiles and of HBM. -/

namespace Sys2Proof.Machine

open Sys2Proof

/-! ### Chiplets (R393, R397) -/

/-- The bit of a chiplet. -/
def chipBit (c : Nat) : BitVec 26 := BitVec.ofNat 26 (2 ^ c)

/-- A chiplet is quarantined; IOD[0] never is (R398). -/
def Trust.quarantine (t : Trust) (c : Nat) : Trust :=
  if c = 8 then t
  else { t with
    attested := t.attested &&& ~~~chipBit c
    quarantined := t.quarantined ||| chipBit c }

/-- A chiplet attests, and leaves quarantine (R398). -/
def Trust.attest (t : Trust) (c : Nat) : Trust := { t with
  attested := t.attested ||| chipBit c
  quarantined := t.quarantined &&& ~~~chipBit c }

/-- A chiplet has attested and is not quarantined. -/
def Trust.good (t : Trust) (c : Nat) : Bool := t.attested.getLsbD c && !t.quarantined.getLsbD c

/-- A die may enter DAVAIL: its fabric links are keyed, and its two base dies are attested (R14, R397 step 5). -/
def Trust.dieReady (t : Trust) (d : Nat) : Bool :=
  [d, (d + 1) % 8, (d + 7) % 8, 10 + 2 * d, 11 + 2 * d].all t.good

/-- A set of dies as DAVAIL holds it. -/
def dieSet (f : Nat → Bool) : BitVec 8 := BitVec.ofNat 8 (((List.range 8).filter f).foldl (fun n d => n + 2 ^ d) 0)

/-- DAVAIL as the kiln controller wants it: the dies that hold it and are not quarantined, and those that may enter. -/
def State.davailWanted (s : State) : BitVec 8 :=
  dieSet fun d => !s.trust.quarantined.getLsbD d && ((s.die 0).davail.getLsbD d || s.trust.dieReady d)

/-! ### Cold start (R397, R406) -/

/-- ALARM_B (R404, R410). -/
def State.postAlarmB (s : State) (c i : Nat) : State := s.report 0xC1 none 0 ones (w64 c ||| place i 8) 0 0

/-- A class-B alarm of an attestation at a cold start: which of the indices 1 to 3 fails is open. -/
def State.coldAlarm (s : State) (c : Nat) : State :=
  let (v, s1) := s.takeFree
  s1.postAlarmB c (v.toNat % 3 + 1)

/-- What a cold reset keeps: host memory, the flash image and the fused anti-rollback number, and the repairs that the
fuses hold (R396, R405, R407). A write of the flash that the reset cuts short leaves no whole image (R406). -/
def State.fuses (s : State) : State := { State.reset with
  freeCtr := s.freeCtr
  hostMem := s.hostMem
  cores := (s.cores.filter fun c => c.2.sparesUsed != 0 || c.2.exhausted).map fun (c : Nat × Core) =>
    (c.1, { Core.reset with sparesUsed := c.2.sparesUsed, exhausted := c.2.exhausted })
  tiles := (s.tiles.filter fun t => t.2.fenced).map fun (t : Nat × Tile) => (t.1, { Tile.reset with fenced := true })
  dies := (s.dies.filter fun d => !d.2.fencedTiles.isEmpty).map fun (d : Nat × Die) =>
    (d.1, { Die.reset with fencedTiles := d.2.fencedTiles })
  trust := { Trust.reset with
    flash := { s.trust.flash with good := s.trust.flash.good && s.trust.fwState != 4 }
    fused := s.trust.fused
    hbm := s.trust.hbm
    rowSpares := s.trust.rowSpares } }

/-- An alias key pair, public then private, with the certificate that the package root signs (R394), for a firmware of a
measurement. -/
def aliasOf (image : BitVec 512) : Nat × Nat × Nat :=
  let k := Config.deriveKey Config.rootKey.2 image
  (k.1, k.2, Config.sign Config.rootKey.2 [k.1])

/-- The saggar with a firmware that runs: indices 4 and 5 are measured, and the alias key is derived (R394, R396, R405). -/
def Trust.runs (t : Trust) (version : BitVec 32) (image manifest : BitVec 512) : Trust := { t with
  fwVersion := version
  image := image
  manifest := manifest
  aliasKey := some (aliasOf image) }

/-- A cold start (R397, R398, R406): the flash image is measured and verified, the saggar derives its alias key (R394), and the
chiplets that `attest` names pass their attestation. Each of the others is quarantined with a class-B alarm; without IOD[0] the
device does not leave reset. `fwOk` tells whether the flash image verifies. -/
def State.coldStart (attest : BitVec 26) (fwOk : Bool) (s : State) : State :=
  let s1 := s.fuses
  let f := s1.trust.flash
  if !attest.getLsbD 8 then { s1 with trust := { s1.trust with halted := true } }
  else if !fwOk || !f.good then { s1 with trust := { s1.trust with noFw := true } }
  else
    let t := ((List.range 26).filter attest.getLsbD).foldl Trust.attest (s1.trust.runs f.version f.image f.manifest)
    let s2 := ((List.range 26).filter fun c => !attest.getLsbD c).foldl State.coldAlarm { s1 with trust := t }
    s2.writeDavail (dieSet t.dieReady)

/-- COLD_RESET (R394, R397, R398, R406). -/
def execColdReset (attest : BitVec 26) (fwOk : Bool) (s : State) : Host.Outcome State Fault Refusal :=
  .next (s.coldStart attest fwOk)

/-- FW_RECOVERY (R406): the ROM boots its recovery loader when the flash image has failed verification. -/
def execFwRecovery (s : State) : Host.Outcome State Fault Refusal :=
  .next (if s.trust.noFw then { s with trust := { s.trust with recovery := true } } else s)

/-! ### SPDM (R395) -/

/-- The session after a request (R395): a key exchange opens it, FINISH completes it. -/
def sessionAfter (n : Nat) : SpdmMsg → Nat
  | .keyExchange => 1
  | .finish => if n = 1 then 2 else n
  | .endSession => 0
  | _ => n

/-- The spare maps of the repair paths that a chiplet's fuses hold (R396, R407): spare tiles of its cores, repairs of its stack, and
the lane maps of its links. -/
def State.spareMap (s : State) (c : Nat) : List Nat :=
  let tiles := if c < 8 then (List.range 8).map fun i => (s.core (8 * c + i)).sparesUsed else []
  let hbm := if 10 ≤ c then let x := Tab.get s.trust.hbm (c - 10) (false, 0, false); [b01 x.1, x.2.1] else []
  let lanes := ((List.range 52).filter fun l => flitLink l && (linkEnds l).contains c).flatMap fun l =>
    ((s.link l false).mods ++ (s.link l true).mods).flatMap fun m => [m.1, m.2]
  tiles ++ hbm ++ lanes

/-- The measurement blocks that the saggar reports, one per chiplet and index (R396). -/
def State.blocks396 (s : State) : List (Nat × Nat × BitVec 512) :=
  ((List.range 26).flatMap fun c =>
    [(c, 1, Config.romDigest c), (c, 2, Config.ucodeDigest c), (c, 3, Config.fuseDigest c (s.spareMap c))]) ++
    [(8, 4, s.trust.image), (8, 5, s.trust.manifest)]

/-- A measurement report, signed under the alias key (R394, R396). -/
def State.measure (s : State) : State :=
  let bs := s.blocks396
  { s with trust := { s.trust with
    report := bs
    reportSig := s.trust.aliasKey.elim s.trust.reportSig fun k =>
      Config.sign k.2.1 (bs.flatMap fun b => [b.1, b.2.1, b.2.2.toNat]) } }

/-- SPDM_REQUEST (R395, R396): the messages of the subset are answered, GET_MEASUREMENTS with the report; any other request
receives UnsupportedRequest. -/
def execSpdmRequest (msg : SpdmMsg) (s : State) : Host.Outcome State Fault Refusal :=
  let s1 := if msg = .getMeasurements then s.measure else s
  .next { s1 with trust := { s1.trust with
    session := sessionAfter s.trust.session msg
    spdmReply := if msg = .other then 2 else 1 } }

/-! ### Alarms (R404) -/

/-- Both directions of some links changed. -/
def State.modLinksOf (s : State) (ls : List Nat) (f : LinkDir → LinkDir) : State :=
  ls.foldl (fun s l => (s.setLink l false (f (s.link l false))).setLink l true (f (s.link l true))) s

/-- A link direction falls silent, and its keys are erased (R404). -/
def LinkDir.silent (d : LinkDir) : LinkDir := { d with
  up := false
  txOld := none
  rxNext := none
  acked := false
  switchAt := none }

/-- ALARM_A (R404): every volatile key is erased, link keys, session keys and the alias key; the event is posted, every chiplet
halted until a cold reset, and the links fall silent. -/
def execAlarmA (src : Fin 3) (s : State) : Host.Outcome State Fault Refusal :=
  let s1 := s.report 0xC0 none 0 ones (w64 src.val) 0 0
  .next { s1.modLinksOf ((List.range 52).filter flitLink) LinkDir.silent with
    trust := { s1.trust with
      halted := true
      keysErased := true
      aliasKey := none
      session := 0 } }

/-- CXL_DOWN for the ports of IOD[1], which go down with it (R384, R398). -/
def State.iodPortsDown (s : State) (c : Nat) : State :=
  if c = 9 && !s.trust.quarantined.getLsbD 9 then
    ([4, 5, 6, 7].filter fun p => !s.trust.cxlDown.contains p).foldl
      (fun s p => s.report 0xA4 none 0 ones (w64 (64 + p)) 0 0) s
  else s

/-- ALARM_B (R404): the offending chiplet is quarantined; a die leaves DAVAIL at the next change (R68). -/
def State.alarmB (s : State) (c idx : Nat) : State :=
  let s1 := (s.postAlarmB c idx).iodPortsDown c
  { s1 with
    trust := s1.trust.quarantine c
    arb := { s1.arb with hold := s1.arb.hold || decide (c < 8) } }

/-- ALARM_B (R404). -/
def execAlarmB (chiplet : Fin 26) (idx : Fin 16) (s : State) : Host.Outcome State Fault Refusal :=
  .next (s.alarmB chiplet.val idx.val)

/-! ### Single-die resets (R402, R403) -/

/-- The reset of a chiplet that is in progress. -/
def Trust.reset? (t : Trust) (c : Nat) : Option DieReset := t.resets.find? fun r => r.chiplet = c

/-- A reset changed. -/
def Trust.modReset (t : Trust) (c : Nat) (f : DieReset → DieReset) : Trust :=
  { t with resets := t.resets.map fun r => if r.chiplet = c then f r else r }

/-- A request for a reset is valid: the host's names a chiplet of DIE_CTL; the kiln controller's, a fabric die with two
SLOT_UEs within one second. -/
def State.resetValid (s : State) (v : Word) (host : Bool) : Bool :=
  let c := fld v 4 0
  if host then bit v 8 && c < 26 && c != 8
  else decide (c < 8) && match (s.die c).slotUe with
    | [b, a] => decide (b ≤ a + 10 ^ 9)
    | _ => false

/-- A reset begins: the arbiter holds release, and the event is posted. A reset of a die that failed starts it over. -/
def State.resetBegin (s : State) (c : Nat) (host : Bool) : State :=
  let s0 := if c < 8 then s.setDie c { s.die c with slotUe := [] } else s
  let s1 := s0.report 0xC2 none 0 ones (w64 c ||| place (b01 host) 8) 0 0
  { s1 with
    arb := { s1.arb with hold := true }
    trust := { s1.trust with
      resets := (s1.trust.resets.filter fun r => r.chiplet != c) ++ [⟨c, 0, host, 0⟩]
      failed := delNat s1.trust.failed c } }

/-- Regions whose resident block, or the one that a SWITCH is installing, stands on the die or has a channel that crosses the
chiplet. -/
def State.resetRegions (s : State) (c : Nat) : List Nat :=
  (s.regions.filter fun r => (r.2.resident.toList ++ r.2.switching.toList).any (s.onChiplet c)).map (·.1)

/-- A region receives a request that is to be saved for a single-die reset; a swap that has begun ends first. -/
def State.resetPre (s : State) (rid : Nat) : State :=
  match Tab.get? s.regions rid with
  | none => s
  | some r => match r.pre with
    | some q => s.modRegion rid fun x => { x with pre := some (if q.why = 4 then q else { q with why := 3 }) }
    | none => if r.waveBegun || r.switching.isSome then s else s.requestPre rid 3

/-- Held launches that a reset concerns are cancelled (R402 step 2). -/
def State.resetHeld (s : State) (c : Nat) : State :=
  let held := (s.launches.filter fun l => l.2.faulted && (s.blocksOf l.1).any (s.onChiplet c)).map (·.1)
  held.foldl (fun s l => s.cancelLaunch l 0xC2) s

/-- The die leaves DAVAIL, held launches that the reset concerns are cancelled, and the others' regions are asked to be
saved (R402 steps 1 and 2). -/
def State.resetLeave (s : State) (c : Nat) : State :=
  let s1 := if c < 8 then s.writeDavail ((s.die 0).davail &&& ~~~BitVec.ofNat 8 (2 ^ c)) else s
  let s2 := s1.resetHeld c
  let s3 := { s2 with trust := s2.trust.modReset c fun r => { r with step := 1 } }
  (s3.resetRegions c).foldl State.resetPre s3

/-- Links of a chiplet. -/
def chipLinks (c : Nat) : List Nat := ((List.range 52).filter fun l => flitLink l && (linkEnds l).contains c)

/-- Both directions of a chiplet's links changed. -/
def State.modLinks (s : State) (c : Nat) (f : LinkDir → LinkDir) : State := s.modLinksOf (chipLinks c) f

/-- Both ends discard the next key of a rollover (R403). -/
def LinkDir.dropNext (d : LinkDir) : LinkDir := { d with
  txOld := none
  rxNext := none
  acked := false
  switchAt := none }

/-- A direction restarts under fresh keys (R402 step 5). -/
def LinkDir.rekey (d : LinkDir) : LinkDir :=
  let n := max d.txKey d.rxKey + 1
  { d.dropNext.restart with
    txKey := n
    rxKey := n
    txKp := false
    rxKp := false }

/-- What a fabric die loses as it resets (R402): its banks and scratchpads, the engines' lasting state, and its bisque
entries, whose units are aborted. -/
def State.dieLoses (s : State) (d : Nat) : State :=
  let rs := s.regions.filter fun r => r.2.die = d
  let s1 := rs.foldl (fun s r =>
    let s' := s.abortLoad r.1
    match r.2.armed with
    | some b => (s'.modRegion r.1 fun x => { x with armed := none }).dropShadows r.1 b
    | none => s') s
  let s2 := ((s1.tiles.filter fun t => tileDie t.1 = d).map (·.1)).foldl State.gateNow s1
  let es := (List.range 8).flatMap fun i => Tab.get s2.bisque (8 * d + i) []
  let s3 := es.foldl (fun s e => s.abort e.lseq e.unit e.gen) s2
  let s4 := (List.range 8).foldl (fun s i => { s with bisque := Tab.del s.bisque (8 * d + i) }) s3
  let m := (s4.mem.clear (bankBase (d * 1024)) (bankBase ((d + 1) * 1024))).clear (cluBase (4 * d)) (cluBase (4 * d + 4))
  s4.setMem ((m.clear (chipBase d) (chipBase (d + 1))).clear (laneBase (d * 1024) 0) (laneBase ((d + 1) * 1024) 0))

/-- The die resets into quarantine, and release resumes (R402 steps 3 and 4). -/
def State.resetEnter (s : State) (c : Nat) : State :=
  let s1 := ((if c < 8 then s.dieLoses c else s).modLinks c LinkDir.dropNext).iodPortsDown c
  let t := (s1.trust.quarantine c).modReset c fun r => { r with
    step := 2
    since := s.time }
  { s1 with
    trust := t
    arb := { s1.arb with hold := t.resets.any fun r => r.step < 2 } }

/-- One round of a reset that is in progress. -/
def State.resetRound (s : State) (r : DieReset) : State :=
  match r.step with
  | 0 => if s.caughtUp then s.resetLeave r.chiplet else s
  | 1 =>
    let s1 := s.resetHeld r.chiplet
    let rs := s1.resetRegions r.chiplet
    if rs.isEmpty then s1.resetEnter r.chiplet else rs.foldl State.resetPre s1
  | _ => s

/-- DIE_RESET (R402): a reset begins, or a reset in progress goes on; it is run again until the die is quarantined. The
thermal sequence takes over from it (R403). -/
def execDieReset (v : Word) (host : Bool) (s : State) : Host.Outcome State Fault Refusal :=
  let c := fld v 4 0
  match s.trust.reset? c with
  | some r =>
    if !s.thermal.critDies.isEmpty then .next s
    else if r.step = 2 && s.trust.failed.contains c && s.resetValid v host then .next (s.resetBegin c host)
    else .next (s.resetRound r)
  | none => .next (if s.resetValid v host then s.resetBegin c host else s)

/-- A reset chiplet re-attests: its links are rekeyed, and a die re-enters DAVAIL at the next change (R402 step 5). -/
def State.reattest (s : State) (c : Nat) : State :=
  let s1 := (s.modLinks c LinkDir.rekey).report 0xC3 none 0 ones (w64 c) 0 0
  { s1 with
    trust := { s1.trust.attest c with resets := s1.trust.resets.filter fun r => r.chiplet != c }
    arb := { s1.arb with hold := true } }

/-- DIE_ATTESTED (R402 step 5, R403). -/
def execDieAttested (chiplet : Fin 26) (s : State) : Host.Outcome State Fault Refusal :=
  .next (if (s.trust.reset? chiplet.val).any (fun r => r.step = 2) && !s.trust.failed.contains chiplet.val then
    s.reattest chiplet.val else s)

/-- A line is homed on a die, or lies in the stack of a base die. -/
def lineAt (c pa : Nat) : Bool := homeSlice pa / 8 = c || (!inCxl pa && 10 + Config.stackOf pa = c)

/-- Launches with an access that is held for the quarantine of a chiplet. -/
def State.heldFor (s : State) (c : Nat) : List Nat :=
  ((s.holds.filter fun h => h.2.level.isNone && match s.walk h.2.job h.2.va false with
    | .ok pa _ _ _ => lineAt c pa
    | .fault _ _ => false).map (·.2.lseq)).eraseDups

/-- DIE_FAILED (R403): 100 ms after a die went into quarantine it has not attested; the launch of every held access is
cancelled. Later accesses that would be held cancel their launches in the same way, without a further event. -/
def execDieFailed (chiplet : Fin 26) (s : State) : Host.Outcome State Fault Refusal :=
  let c := chiplet.val
  let ls := s.heldFor c
  let cancelled := fun (s : State) => ls.foldl (fun s l => s.cancelLaunch l 0xC4) s
  if s.trust.failed.contains c then .next (cancelled s)
  else if (s.trust.reset? c).any fun r => r.step = 2 && decide (r.since + 10 ^ 8 ≤ s.time) then
    let s1 := { s with trust := { s.trust with failed := putNat s.trust.failed c } }
    .next (cancelled (s1.report 0xC4 none 0 ones (w64 c) (w64 ls.length) 0))
  else .next s

/-! ### Firmware (R405, R406) -/

/-- What verification finds: 0 accepted, or the result of FW_STATUS. -/
def fwResultOf (c : FwCheck) (fused : Nat) : Nat :=
  if !c.formOk then 3 else if !c.sigOk then 1 else if c.rollback < fused then 2 else 0

/-- FW_DONE posted (R410). -/
def State.postFw (s : State) (version : BitVec 32) (r : Nat) : State :=
  s.report 0xC9 none 0 ones (w64 version.toNat) (w64 r) 0

/-- FW_GO (R399, R405, R406): a write of FW_CTL with GO, under LIVEFW or in the recovery loader, while no image is on its
way: the kiln controller begins to verify the staged image, and `check` is what it finds. -/
def execFwGo (v : Word) (check : FwCheck) (s : State) : Host.Outcome State Fault Refusal :=
  let t := s.trust
  if !bit v 0 || !(s.feature 6 || t.recovery) || t.fwState ≠ 0 then .next s
  else .next { s with trust := { t with
    fwState := 1
    fwStaged := some (v &&& 0xFFFFFFFFFF000, check) } }

/-- Verification ends (R404, R405 step 2, R406): an image that is accepted waits for its quiescent point, or is written by the
recovery loader; one that is not is reported, and a failed signature is a class-B alarm of IOD[0], which holds the image. -/
def State.fwVerified (s : State) (addr : BitVec 64) (c : FwCheck) : State :=
  let t := s.trust
  let r := fwResultOf c t.fused
  if r = 0 then { s with trust := { t with
    fwState := if t.recovery then 4 else 2
    fwStaged := some (addr, c) } }
  else
    let s1 := { s with trust := { t with
      fwState := 0
      fwStaged := none
      fwResult := r } }
    let s2 := if t.recovery then s1 else s1.postFw c.version r
    if r = 1 then s2.alarmB 8 4 else s2

/-- A quiescent point (R405): no single-die reset, rollover, thermal sequence or SPDM exchange in progress. -/
def State.fwQuiet (s : State) : Bool :=
  s.trust.resets.all (fun r => s.trust.failed.contains r.chiplet) && s.trust.session != 1 &&
    s.thermal.critDies.isEmpty && !s.thermal.off && !s.thermal.resuming &&
    s.links.all fun l => l.2.rxNext.isNone && l.2.txOld.isNone && !l.2.acked

/-- FW_HANDOVER (R405 steps 2 to 4): verification ends; the hand-over begins at a quiescent point, and ends when it is run again:
the new image runs, indices 4 and 5 are measured again, the alias key is derived again, and open SPDM sessions end. -/
def execFwHandover (s : State) : Host.Outcome State Fault Refusal :=
  let t := s.trust
  match t.fwState, t.fwStaged with
  | 1, some (a, c) => .next (s.fwVerified a c)
  | 2, _ => .next (if s.fwQuiet then { s with trust := { t with fwState := 3 } } else s)
  | 3, some (_, c) => .next { s with trust := { t.runs c.version c.image c.manifest with
      fwState := 4
      session := 0 } }
  | _, _ => .next s

/-- FW_DONE (R405 step 5, R406): the image is written to flash, the fused anti-rollback number rises to the image's, and
the result is reported. The recovery loader restarts the cold start; which chiplets attest in it is a free value. A write that fails
leaves no whole image. -/
def execFwDone (flashOk : Bool) (s : State) : Host.Outcome State Fault Refusal :=
  let t := s.trust
  match t.fwState, t.fwStaged with
  | 4, some (_, c) =>
    let r := if flashOk then 0 else 4
    let u : Trust := { t with
      fwState := 0
      fwResult := r
      fwStaged := none
      flash := if flashOk then ⟨c.version, c.image, c.manifest, true⟩ else { t.flash with good := false }
      fused := if flashOk then max t.fused c.rollback else t.fused }
    if !t.recovery then .next ({ s with trust := u }.postFw c.version r)
    else if flashOk then
      let (v, s1) := { s with trust := u }.takeFree
      .next (s1.coldStart (v.setWidth 26) true)
    else .next { s with trust := u }
  | _, _ => .next s

/-! ### Repair (R408, R409) -/

/-- A spare of the core takes over a tile (R408 steps 2 and 3). The bank, the scale array and the channels keep their
addresses; the checksums of a tile that is awake are recomputed. -/
def State.spareTile (s : State) (k : Nat) : State :=
  let c := s.core (tileCore k)
  let s1 := s.setCore (tileCore k) { c with sparesUsed := c.sparesUsed + 1 }
  let s2 := s1.setTile k { s1.tile k with fenced := true }
  let s3 := if (s2.tile k).gated then s2 else s2.recompute k
  s3.report 0xC5 none 0 (placeWord (tileDie k) (tileX k) (tileY k) 3 15 0xFF) (w64 (c.sparesUsed + 1)) 0 0

/-- A tile fenced without a spare enters every die's region table (R408). -/
def State.loseTile (s : State) (k : Nat) : State :=
  let s1 := s.setCore (tileCore k) { s.core (tileCore k) with exhausted := true }
  (List.range 8).foldl (fun s d => s.setDie d { s.die d with fencedTiles := putNat (s.die d).fencedTiles k }) s1

/-- TILE_FENCE (R408): a failing tile is fenced. It is run again until the region that holds the tile has been saved. -/
def execTileFence (tile : Nat) (s : State) : Host.Outcome State Fault Refusal :=
  if !s.trust.fencing.contains tile then .next s
  else
    let busy := (s.tile tile).region.filter fun rid => (Tab.get? s.regions rid).any fun r =>
      r.resident.isSome || r.switching.isSome
    match busy with
    | some rid => .next (s.requestPre rid 2)
    | none =>
      let s1 := if (s.core (tileCore tile)).sparesUsed < 4 then s.spareTile tile else s.loseTile tile
      .next { s1 with trust := { s1.trust with
        fencing := delNat s1.trust.fencing tile
        bankUe := delNat s1.trust.bankUe tile } }

/-- The status of a stack (R399). -/
def State.stack (s : State) (m : Nat) : Bool × Nat × Bool := Tab.get s.trust.hbm m (false, 0, false)

/-- A stack's status written, and an event of R409 posted. -/
def State.stackEvent (s : State) (m c code : Nat) (w4 : Word) (x : Bool × Nat × Bool) : State :=
  { s with trust := { s.trust with hbm := Tab.set s.trust.hbm m x } }.report code none 0 ones (w64 m ||| place c 8) w4 0

/-- A row is to be repaired: it has met a second uncorrectable error, or 256 corrected ones (R409). -/
def rowFails (r : Nat × Nat × Nat) : Bool := 2 ≤ r.1 || 256 ≤ r.2.1

/-- The key of a channel that a row or a bank group lies in. -/
def rowChan (key : Nat) : Nat := key / 2 ^ 40
def groupChan (key : Nat) : Nat := key / 2 ^ 16

/-- A bank group has no spare row left. -/
def Trust.groupFull (t : Trust) (ch bg : Nat) : Bool := Config.spareRows ≤ Tab.get t.rowSpares (groupKey ch bg) 0

/-- A channel is to be spared (R409): a bank group of it has used its spare rows and meets a further failing row, or it reports more
than 4,096 corrected errors in one second. -/
def Trust.chanFails (t : Trust) (ch : Nat) : Bool :=
  4096 < (Tab.get t.chanCe ch []).length || t.rows.any fun r => rowChan r.1 = ch && rowFails r.2 && t.groupFull ch r.2.2.2

/-- The counts of a channel start afresh. -/
def Trust.chanAfresh (t : Trust) (ch : Nat) : Trust := { t with
  rows := t.rows.filter fun r => rowChan r.1 != ch
  chanCe := Tab.del t.chanCe ch }

/-- ROW_REPAIRED (R409): a failing row takes a spare of its bank group; it keeps its words, and poisoned words stay poisoned. -/
def execRowRepaired (stack : Fin 16) (chan : Fin 32) (row : Nat) (s : State) : Host.Outcome State Fault Refusal :=
  let ch := chanKey stack.val chan.val
  let x := s.stack stack.val
  match Tab.get? s.trust.rows (rowKey ch row) with
  | some r =>
    if !rowFails r || s.trust.groupFull ch r.2.2 then .next s
    else
      let g := groupKey ch r.2.2
      let t : Trust := { s.trust with
        rows := Tab.del s.trust.rows (rowKey ch row)
        rowSpares := Tab.set s.trust.rowSpares g (Tab.get s.trust.rowSpares g 0 + 1) }
      .next ({ s with trust := t }.stackEvent stack.val chan.val 0xC6 (w64 row) (x.1, (x.2.1 + 1) % 256, x.2.2))
  | none => .next s

/-- HBM_SPARED (R409): the stack's spare channel, with its own spare rows, serves in place of a channel. -/
def execHbmSpared (stack : Fin 16) (chan : Fin 32) (s : State) : Host.Outcome State Fault Refusal :=
  let ch := chanKey stack.val chan.val
  let x := s.stack stack.val
  if x.1 || !s.trust.chanFails ch then .next s
  else
    let t := s.trust.chanAfresh ch
    let s1 := { s with trust := { t with rowSpares := t.rowSpares.filter fun g => groupChan g.1 != ch } }
    .next (s1.stackEvent stack.val chan.val 0xC7 0 (true, x.2.1, x.2.2))

/-- HBM_EXHAUSTED (R409): a further failure in a stack whose spare is in use; the channel keeps serving. -/
def execHbmExhausted (stack : Fin 16) (chan : Fin 32) (s : State) : Host.Outcome State Fault Refusal :=
  let ch := chanKey stack.val chan.val
  let x := s.stack stack.val
  .next (if x.1 && s.trust.chanFails ch then
    { s with trust := s.trust.chanAfresh ch }.stackEvent stack.val chan.val 0xC8 0 (true, x.2.1, true) else s)

end Sys2Proof.Machine
end

