-- ==== Sys2Proof/Machine/Thermal.lean ====
section
/-! DEFINITION. The thermal sequence (R355, R358 to R360). Its steps take time, so THERM_CRIT and THERM_RESUME are each
run again until the sequence has ended. -/

namespace Sys2Proof.Machine

open Sys2Proof

/-- Every held launch is cancelled (R358 step 2). -/
def State.cancelHeld (s : State) (cause : Nat) : State :=
  (s.launches.filter fun kl => kl.2.faulted && kl.2.st != .retired).foldl (fun s kl => s.cancelLaunch kl.1 cause) s

/-- Priority and LSEQ of a block's launch: the order of the sequence is the highest priority first, then the lower
LSEQ. -/
def State.thermKey (s : State) (bid : Nat) : Nat × Nat :=
  ((Tab.get? s.launches (bid / 256)).elim 0 (·.prio), bid / 256)

/-- One key comes before another. -/
def thermBefore (a b : Nat × Nat) : Bool := b.1 < a.1 || (a.1 = b.1 && a.2 < b.2)

/-- The first of some blocks in the order of the sequence, with what stands beside it. -/
def State.thermFirst (s : State) (xs : List (Nat × Nat)) : Option (Nat × Nat) :=
  xs.foldl (fun acc x => match acc with
    | some (y : Nat × Nat) => if thermBefore (s.thermKey x.2) (s.thermKey y.2) then some x else some y
    | none => some x) none

/-- Regions with a resident block, with the block. -/
def State.residents (s : State) : List (Nat × Nat) := s.regions.filterMap fun r => r.2.resident.map fun b => (r.1, b)

/-- The next region of the sequence is asked to be saved by full scan, without a yield bound; a swap that has begun ends
first. -/
def State.thermSave (s : State) : State :=
  match s.thermFirst s.residents with
  | some (rid, _) => s.modRegion rid fun r =>
      if r.waveBegun || r.pre.any fun q => q.why = 4 then r
      else { r with pre := some ⟨s.time, true, false, 4⟩ }
  | none => s

/-- Nothing is left to save, and no copy is in progress (R358 step 4). -/
def State.thermSaved (s : State) : Bool :=
  s.residents.isEmpty && s.regions.all (fun r => r.2.switching.isNone) &&
    s.cores.all fun c => c.2.engs.all fun e => e.run.isNone

/-- Tiles awake that hold a shadow and no configuration. -/
def State.shadowTilesOnly (s : State) : List Nat :=
  (s.tiles.filter fun t => !t.2.gated && t.2.block.isNone && t.2.shadow.isSome).map (·.1)

/-- The compute rails are removed: loads, shadows and cached images and translations are lost (R358 steps 5 to 7). The banks and the
lasting state of tiles that a shadow alone kept awake are in the full save (R359). -/
def State.railsOff (s : State) : State :=
  let kept := s.shadowTilesOnly
  let s1 := s.regions.foldl (fun s r =>
    let s' := s.abortLoad r.1
    match r.2.armed with
    | some b => (s'.modRegion r.1 fun x => { x with armed := none }).dropShadows r.1 b
    | none => s') s
  let s2 := ((s1.tiles.filter fun t => !t.2.gated && t.2.block.isNone).map (·.1)).foldl State.gateNow s1
  { s2 with
    dies := s2.dies.map fun (d : Nat × Die) => (d.1, { d.2 with icache := [], tlb := [] })
    cores := s2.cores.map fun (c : Nat × Core) => (c.1, { c.2 with ballast := 0, lastLoad := 0, load := 0 })
    ucaches := []
    thermal := { s2.thermal with off := true, kept := kept } }

/-- One round of the sequence from step 2 on. -/
def State.thermStep (s : State) : State :=
  let s1 := s.cancelHeld 0x96
  if s1.thermSaved then s1.railsOff else s1.thermSave

/-- THERM_CRIT (R358): a die's sensor reaches the critical mark; the event is posted when the sequence begins, or another
die joins it. A mark reached while the device resumes starts the sequence again from step 2 (R360). -/
def execThermCrit (die : Fin 8) (temp : BitVec 8) (s : State) : Host.Outcome State Fault Refusal :=
  if s.thermal.off || temp.toNat < s.host.thermCrit.toNat then .next s
  else if s.thermal.resuming then
    .next { s with thermal := { s.thermal with resuming := false, critDies := putNat s.thermal.critDies die.val } }.thermStep
  else if s.thermal.critDies.contains die.val then .next s.thermStep
  else
    let s1 := s.report 0x96 none 0 ones (w64 die.val ||| place temp.toNat 8) 0 0
    .next { s1 with thermal := { s1.thermal with critDies := putNat s1.thermal.critDies die.val } }.thermStep

/-- A die attests again as the rails come back, with its two base dies (R360 step 2): a chiplet whose measurements do not agree
stays or goes into quarantine with a class-B alarm, of an index that is open; one whose reset the sequence took over leaves
quarantine (R403). -/
def State.attestAgain (ok : BitVec 26) (s : State) (c : Nat) : State :=
  let inReset := s.trust.resets.any (fun r => r.chiplet = c) && !s.trust.failed.contains c
  if ok.getLsbD c || c = 8 then if inReset then s.reattest c else s
  else if s.trust.quarantined.getLsbD c && !inReset then s
  else
    let (v, s1) := s.takeFree
    s1.alarmB c (v.toNat % 3 + 1)

/-- The rails are restored: every die attests again, `ok` naming those that pass, each core resumes at its REQ (R386), and the
cancels recorded meanwhile are applied (R355, R360). -/
def State.railsOn (s : State) (us : Nat) (ok : BitVec 26) : State :=
  let s1 := { s with
    thermal := { s.thermal with off := false, resuming := true, cancels := [], us := us }
    cores := s.cores.map fun (c : Nat × Core) => (c.1, { c.2 with cur := c.2.req }) }
  s.thermal.cancels.foldl State.cancel ((List.range 26).foldl (State.attestAgain ok) s1)

/-- Blocks of the full save with their regions. -/
def State.fullSaved (s : State) : List (Nat × Nat) :=
  (s.frames.filter fun f => 2 ^ 20 ≤ f.1).map fun f => (f.2.rid, f.2.bid)

/-- The load of the next block to restore begins (R360 step 6). -/
def State.thermLoad (s : State) (rid bid : Nat) : State :=
  match Tab.get? s.regions rid with
  | some r =>
    if r.armed = some bid || r.loading.any fun l => l.bid = bid then s
    else
      let s1 := match r.armed with
        | some a => (s.modRegion rid fun x => { x with armed := none }).dropShadows rid a
        | none => s
      (s1.abortLoad rid).modRegion rid fun x => { x with loading := some ⟨bid, [], none⟩ }
  | none => s

/-- THERM_RESUME (R360): every sensor lies at or below the resume mark; `us` is the time off, and `attest` names the chiplets that
pass their attestation. The saved regions are restored one by one; after the last one the event is posted and release resumes. -/
def execThermResume (back : RailsBack) (s : State) : Host.Outcome State Fault Refusal :=
  let s1 := if s.thermal.off then s.railsOn back.us back.attest else s
  if !s1.thermal.resuming then .next s
  else match s1.thermFirst s1.fullSaved with
    | some (rid, bid) => .next (s1.thermLoad rid bid)
    | none =>
      .next { (s1.report 0x97 none 0 ones (w64 s1.thermal.us) 0 0) with
        thermal := ⟨false, false, [], [], 0, s1.thermal.kept⟩ }

end Sys2Proof.Machine
end

