-- ==== Sys2Proof/Machine/Dispatch.lean ====
section
/-! DEFINITION. One arm per instruction: each calls the instruction's meaning. -/

namespace Sys2Proof.Machine

open Sys2Proof

/-- What an instruction does: a triggered instruction fires in the slot in focus, a step of the device happens. -/
def exec (i : Instr) (s : State) : Host.Outcome State Fault Refusal :=
  match i with
  | .nop f => Sys2Proof.Machine.execNop f s
  | .mov f => Sys2Proof.Machine.execMov f s
  | .emit f => Sys2Proof.Machine.execEmit f s
  | .drop f => Sys2Proof.Machine.execDrop f s
  | .pset f => Sys2Proof.Machine.execPset f s
  | .pclr f => Sys2Proof.Machine.execPclr f s
  | .plog f => Sys2Proof.Machine.execPlog f s
  | .cset f => Sys2Proof.Machine.execCset f s
  | .cinc f => Sys2Proof.Machine.execCinc f s
  | .qpost f => Sys2Proof.Machine.execQpost f s
  | .fence f => Sys2Proof.Machine.execFence f s
  | .trap f => Sys2Proof.Machine.execTrap f s
  | .evt f => Sys2Proof.Machine.execEvt f s
  | .yield f => Sys2Proof.Machine.execYield f s
  | .sel f => Sys2Proof.Machine.execSel f s
  | .steer f => Sys2Proof.Machine.execSteer f s
  | .merge f => Sys2Proof.Machine.execMerge f s
  | .dup f => Sys2Proof.Machine.execDup f s
  | .barj f => Sys2Proof.Machine.execBarj f s
  | .perm f => Sys2Proof.Machine.execPerm f s
  | .req f => Sys2Proof.Machine.execReq f s
  | .lperm f => Sys2Proof.Machine.execLperm f s
  | .lrot f => Sys2Proof.Machine.execLrot f s
  | .lbc f => Sys2Proof.Machine.execLbc f s
  | .lins f => Sys2Proof.Machine.execLins f s
  | .lext f => Sys2Proof.Machine.execLext f s
  | .tagset f => Sys2Proof.Machine.execTagset f s
  | .kindp f => Sys2Proof.Machine.execKindp f s
  | .iadd f => Sys2Proof.Machine.execIadd f s
  | .isub f => Sys2Proof.Machine.execIsub f s
  | .imul f => Sys2Proof.Machine.execImul f s
  | .imulh f => Sys2Proof.Machine.execImulh f s
  | .imad f => Sys2Proof.Machine.execImad f s
  | .ineg f => Sys2Proof.Machine.execIneg f s
  | .iabs f => Sys2Proof.Machine.execIabs f s
  | .imin f => Sys2Proof.Machine.execImin f s
  | .imax f => Sys2Proof.Machine.execImax f s
  | .iclamp f => Sys2Proof.Machine.execIclamp f s
  | .iadds f => Sys2Proof.Machine.execIadds f s
  | .isubs f => Sys2Proof.Machine.execIsubs f s
  | .and f => Sys2Proof.Machine.execAnd f s
  | .or f => Sys2Proof.Machine.execOr f s
  | .xor f => Sys2Proof.Machine.execXor f s
  | .andn f => Sys2Proof.Machine.execAndn f s
  | .not f => Sys2Proof.Machine.execNot f s
  | .shl f => Sys2Proof.Machine.execShl f s
  | .shr f => Sys2Proof.Machine.execShr f s
  | .sar f => Sys2Proof.Machine.execSar f s
  | .rot f => Sys2Proof.Machine.execRot f s
  | .clz f => Sys2Proof.Machine.execClz f s
  | .popc f => Sys2Proof.Machine.execPopc f s
  | .bfx f => Sys2Proof.Machine.execBfx f s
  | .bfi f => Sys2Proof.Machine.execBfi f s
  | .sext f => Sys2Proof.Machine.execSext f s
  | .icmp f => Sys2Proof.Machine.execIcmp f s
  | .mova f => Sys2Proof.Machine.execMova f s
  | .adda f => Sys2Proof.Machine.execAdda f s
  | .wrapa f => Sys2Proof.Machine.execWrapa f s
  | .cmpa f => Sys2Proof.Machine.execCmpa f s
  | .plane f => Sys2Proof.Machine.execPlane f s
  | .fadd f => Sys2Proof.Machine.execFadd f s
  | .fsub f => Sys2Proof.Machine.execFsub f s
  | .fmul f => Sys2Proof.Machine.execFmul f s
  | .fma f => Sys2Proof.Machine.execFma f s
  | .fneg f => Sys2Proof.Machine.execFneg f s
  | .fabs f => Sys2Proof.Machine.execFabs f s
  | .fmin f => Sys2Proof.Machine.execFmin f s
  | .fmax f => Sys2Proof.Machine.execFmax f s
  | .fcmp f => Sys2Proof.Machine.execFcmp f s
  | .fclamp f => Sys2Proof.Machine.execFclamp f s
  | .fscl f => Sys2Proof.Machine.execFscl f s
  | .fxp f => Sys2Proof.Machine.execFxp f s
  | .fmant f => Sys2Proof.Machine.execFmant f s
  | .frnd f => Sys2Proof.Machine.execFrnd f s
  | .frcp f => Sys2Proof.Machine.execFrcp f s
  | .frsq f => Sys2Proof.Machine.execFrsq f s
  | .fsqrt f => Sys2Proof.Machine.execFsqrt f s
  | .fexp2 f => Sys2Proof.Machine.execFexp2 f s
  | .flog2 f => Sys2Proof.Machine.execFlog2 f s
  | .fexp f => Sys2Proof.Machine.execFexp f s
  | .ftanh f => Sys2Proof.Machine.execFtanh f s
  | .cvtif f => Sys2Proof.Machine.execCvtif f s
  | .cvtfi f => Sys2Proof.Machine.execCvtfi f s
  | .qblk f => Sys2Proof.Machine.execQblk f s
  | .dqblk f => Sys2Proof.Machine.execDqblk f s
  | .fmtq f => Sys2Proof.Machine.execFmtq f s
  | .rsum f => Sys2Proof.Machine.execRsum f s
  | .rmax f => Sys2Proof.Machine.execRmax f s
  | .rmin f => Sys2Proof.Machine.execRmin f s
  | .rargmx f => Sys2Proof.Machine.execRargmx f s
  | .smup f => Sys2Proof.Machine.execSmup f s
  | .smrg f => Sys2Proof.Machine.execSmrg f s
  | .smrgOrd f => Sys2Proof.Machine.execSmrgOrd f s
  | .smfin f => Sys2Proof.Machine.execSmfin f s
  | .hash f => Sys2Proof.Machine.execHash f s
  | .gumb f => Sys2Proof.Machine.execGumb f s
  | .topki f => Sys2Proof.Machine.execTopki f s
  | .tkout f => Sys2Proof.Machine.execTkout f s
  | .argmc f => Sys2Proof.Machine.execArgmc f s
  | .ld f => Sys2Proof.Machine.execLd f s
  | .st f => Sys2Proof.Machine.execSt f s
  | .ldx f => Sys2Proof.Machine.execLdx f s
  | .stx f => Sys2Proof.Machine.execStx f s
  | .ldch f => Sys2Proof.Machine.execLdch f s
  | .lls f => Sys2Proof.Machine.execLls f s
  | .sls f => Sys2Proof.Machine.execSls f s
  | .ldf f => Sys2Proof.Machine.execLdf f s
  | .lde f => Sys2Proof.Machine.execLde f s
  | .stf f => Sys2Proof.Machine.execStf f s
  | .ste f => Sys2Proof.Machine.execSte f s
  | .feq f => Sys2Proof.Machine.execFeq f s
  | .feclr f => Sys2Proof.Machine.execFeclr f s
  | .gld f => Sys2Proof.Machine.execGld f s
  | .gst f => Sys2Proof.Machine.execGst f s
  | .gatom f => Sys2Proof.Machine.execGatom f s
  | .satom f => Sys2Proof.Machine.execSatom f s
  | .fork f => Sys2Proof.Machine.execFork f s
  | .rdv f => Sys2Proof.Machine.execRdv f s
  | .waitwp f => Sys2Proof.Machine.execWaitwp f s
  | .imgsync f => Sys2Proof.Machine.execImgsync f s
  | .tsget f => Sys2Proof.Machine.execTsget f s
  | .tsnew f => Sys2Proof.Machine.execTsnew f s
  | .csrr f => Sys2Proof.Machine.execCsrr f s
  | .csrw f => Sys2Proof.Machine.execCsrw f s
  | .halt f => Sys2Proof.Machine.execHalt f s
  | .guess f => Sys2Proof.Machine.execGuess f s
  | .ratify f => Sys2Proof.Machine.execRatify f s
  | .genget f => Sys2Proof.Machine.execGenget f s
  | .sqreq f => Sys2Proof.Machine.execSqreq f s
  | .dhpush f => Sys2Proof.Machine.execDhpush f s
  | .dhpushCfg f => Sys2Proof.Machine.execDhpushCfg f s
  | .dhpushJoin f => Sys2Proof.Machine.execDhpushJoin f s
  | .kvrowCfg f => Sys2Proof.Machine.execKvrowCfg f s
  | .kvrowOpen f => Sys2Proof.Machine.execKvrowOpen f s
  | .kvrowPut f => Sys2Proof.Machine.execKvrowPut f s
  | .mxcfg f => Sys2Proof.Machine.execMxcfg f s
  | .mxmode f => Sys2Proof.Machine.execMxmode f s
  | .mxscb f => Sys2Proof.Machine.execMxscb f s
  | .mxrow f => Sys2Proof.Machine.execMxrow f s
  | .mxacc f => Sys2Proof.Machine.execMxacc f s
  | .mxout f => Sys2Proof.Machine.execMxout f s
  | .mxz f => Sys2Proof.Machine.execMxz f s
  | .mxchk f => Sys2Proof.Machine.execMxchk f s
  | .grld f => Sys2Proof.Machine.execGrld f s
  | .grx f => Sys2Proof.Machine.execGrx f s
  | .grrun f => Sys2Proof.Machine.execGrrun f s
  | .gremit f => Sys2Proof.Machine.execGremit f s
  | .grdepth f => Sys2Proof.Machine.execGrdepth f s
  | .draft f => Sys2Proof.Machine.execDraft f s
  | .draftx f => Sys2Proof.Machine.execDraftx f s
  | .agset f => Sys2Proof.Machine.execAgset f s
  | .agrd f => Sys2Proof.Machine.execAgrd f s
  | .agch f => Sys2Proof.Machine.execAgch f s
  | .agwr f => Sys2Proof.Machine.execAgwr f s
  | .aggth f => Sys2Proof.Machine.execAggth f s
  | .agsct f => Sys2Proof.Machine.execAgsct f s
  | .agstop f => Sys2Proof.Machine.execAgstop f s
  | .agpos f => Sys2Proof.Machine.execAgpos f s
  | .wprd f => Sys2Proof.Machine.execWprd f s
  | .wcntBind f => Sys2Proof.Machine.execWcntBind f s
  | .wcnt f => Sys2Proof.Machine.execWcnt f s
  | .tarm f => Sys2Proof.Machine.execTarm f s
  | .tbind f => Sys2Proof.Machine.execTbind f s
  | .tmc f => Sys2Proof.Machine.execTmc f s
  | .packetFetch q => Sys2Proof.Machine.execPacketFetch q s
  | .sealReread q => Sys2Proof.Machine.execSealReread q s
  | .acceptLaunch => Sys2Proof.Machine.execAcceptLaunch s
  | .releaseLaunch => Sys2Proof.Machine.execReleaseLaunch s
  | .placeLaunch die => Sys2Proof.Machine.execPlaceLaunch die s
  | .applyRetirementRecord die => Sys2Proof.Machine.execApplyRetirementRecord die s
  | .applyInvalidation die => Sys2Proof.Machine.execApplyInvalidation die s
  | .davailChange v => Sys2Proof.Machine.execDavailChange v s
  | .threadTokenEnqueue lseq => Sys2Proof.Machine.execThreadTokenEnqueue lseq s
  | .chooseBlock rid => Sys2Proof.Machine.execChooseBlock rid s
  | .shadowLoad rid => Sys2Proof.Machine.execShadowLoad rid s
  | .switch tile => Sys2Proof.Machine.execSwitch tile s
  | .wavefrontSwap tile => Sys2Proof.Machine.execWavefrontSwap tile s
  | .depthToken tile pool inp => Sys2Proof.Machine.execDepthToken tile pool inp s
  | .tokenArrive ch => Sys2Proof.Machine.execTokenArrive ch s
  | .creditReturn ch => Sys2Proof.Machine.execCreditReturn ch s
  | .requestReturn ch => Sys2Proof.Machine.execRequestReturn ch s
  | .epochEnd tile pool => Sys2Proof.Machine.execEpochEnd tile pool s
  | .unitFinish lseq blk => Sys2Proof.Machine.execUnitFinish lseq blk s
  | .streamBeat tile stream => Sys2Proof.Machine.execStreamBeat tile stream s
  | .streamWrite tile => Sys2Proof.Machine.execStreamWrite tile s
  | .xlateReplay hold => Sys2Proof.Machine.execXlateReplay hold s
  | .xinvComplete => Sys2Proof.Machine.execXinvComplete s
  | .copyStart core eng => Sys2Proof.Machine.execCopyStart core eng s
  | .copyEnd core eng => Sys2Proof.Machine.execCopyEnd core eng s
  | .branchComplete core eng => Sys2Proof.Machine.execBranchComplete core eng s
  | .memPerform tile idx => Sys2Proof.Machine.execMemPerform tile idx s
  | .feWake tile idx => Sys2Proof.Machine.execFeWake tile idx s
  | .storeEntry tile idx => Sys2Proof.Machine.execStoreEntry tile idx s
  | .taskLoad tile idx => Sys2Proof.Machine.execTaskLoad tile idx s
  | .unitCommit => Sys2Proof.Machine.execUnitCommit s
  | .rootGuess => Sys2Proof.Machine.execRootGuess s
  | .rootRatify => Sys2Proof.Machine.execRootRatify s
  | .rootSqreq => Sys2Proof.Machine.execRootSqreq s
  | .rootDhpush => Sys2Proof.Machine.execRootDhpush s
  | .launchGeneration => Sys2Proof.Machine.execLaunchGeneration s
  | .msgLaunch ep => Sys2Proof.Machine.execMsgLaunch ep s
  | .msgRatify ep => Sys2Proof.Machine.execMsgRatify ep s
  | .msgSquash ep => Sys2Proof.Machine.execMsgSquash ep s
  | .msgFree ep => Sys2Proof.Machine.execMsgFree ep s
  | .squashMarker ch => Sys2Proof.Machine.execSquashMarker ch s
  | .freeComplete seq => Sys2Proof.Machine.execFreeComplete seq s
  | .kvOpenProceed tile idx => Sys2Proof.Machine.execKvOpenProceed tile idx s
  | .passSerialEnd tile => Sys2Proof.Machine.execPassSerialEnd tile s
  | .passCheck tile => Sys2Proof.Machine.execPassCheck tile s
  | .passBeat tile => Sys2Proof.Machine.execPassBeat tile s
  | .mxBusyEnd tile => Sys2Proof.Machine.execMxBusyEnd tile s
  | .scrubEnd tile => Sys2Proof.Machine.execScrubEnd tile s
  | .grammarRunEnd tile => Sys2Proof.Machine.execGrammarRunEnd tile s
  | .gremitBeat tile => Sys2Proof.Machine.execGremitBeat tile s
  | .qwc rid => Sys2Proof.Machine.execQwc rid s
  | .preemptRequest rid => Sys2Proof.Machine.execPreemptRequest rid s
  | .drainEnd rid => Sys2Proof.Machine.execDrainEnd rid s
  | .yieldOverrun rid => Sys2Proof.Machine.execYieldOverrun rid s
  | .restoreBlock rid => Sys2Proof.Machine.execRestoreBlock rid s
  | .thermCrit die temp => Sys2Proof.Machine.execThermCrit die temp s
  | .thermResume back => Sys2Proof.Machine.execThermResume back s
  | .eventWrite => Sys2Proof.Machine.execEventWrite s
  | .flitReceive l dir ext tagOk => Sys2Proof.Machine.execFlitReceive l dir ext tagOk s
  | .retryRequest l dir aseq => Sys2Proof.Machine.execRetryRequest l dir aseq s
  | .keySwitch l dir => Sys2Proof.Machine.execKeySwitch l dir s
  | .keyRetire l dir tx => Sys2Proof.Machine.execKeyRetire l dir tx s
  | .clockStep c => Sys2Proof.Machine.execClockStep c s
  | .controlPeriod p eb => Sys2Proof.Machine.execControlPeriod p eb s
  | .ballastSlice core => Sys2Proof.Machine.execBallastSlice core s
  | .damperWindow rid => Sys2Proof.Machine.execDamperWindow rid s
  | .dieReset v host => Sys2Proof.Machine.execDieReset v host s
  | .dieFailed chiplet => Sys2Proof.Machine.execDieFailed chiplet s
  | .fwHandover => Sys2Proof.Machine.execFwHandover s
  | .tileFence tile => Sys2Proof.Machine.execTileFence tile s
  | .featAcceptWrite f v => Sys2Proof.Machine.execFeatAcceptWrite f v s
  | .enable v => Sys2Proof.Machine.execEnable v s
  | .jobCreate j v => Sys2Proof.Machine.execJobCreate j v s
  | .jobTeardown j v => Sys2Proof.Machine.execJobTeardown j v s
  | .lqCfgWrite q v => Sys2Proof.Machine.execLqCfgWrite q v s
  | .lqNotify q v port ro => Sys2Proof.Machine.execLqNotify q v port ro s
  | .resultComplete tile pool idx => Sys2Proof.Machine.execResultComplete tile pool idx s
  | .xinv v => Sys2Proof.Machine.execXinv v s
  | .qwcAck v => Sys2Proof.Machine.execQwcAck v s
  | .jobSuspend v => Sys2Proof.Machine.execJobSuspend v s
  | .jobResume v => Sys2Proof.Machine.execJobResume v s
  | .softCe site => Sys2Proof.Machine.execSoftCe site s
  | .softUe site => Sys2Proof.Machine.execSoftUe site s
  | .evqHeadWrite v => Sys2Proof.Machine.execEvqHeadWrite v s
  | .cancelLaunch v => Sys2Proof.Machine.execCancelLaunch v s
  | .cancelGraph v => Sys2Proof.Machine.execCancelGraph v s
  | .cancelPhase v => Sys2Proof.Machine.execCancelPhase v s
  | .cancelJob v => Sys2Proof.Machine.execCancelJob v s
  | .linkRetrain l dir bad ok => Sys2Proof.Machine.execLinkRetrain l dir bad ok s
  | .keyInstall l dir => Sys2Proof.Machine.execKeyInstall l dir s
  | .xmapWrite e hi v => Sys2Proof.Machine.execXmapWrite e hi v s
  | .cxlDown p => Sys2Proof.Machine.execCxlDown p s
  | .bar2Read off => Sys2Proof.Machine.execBar2Read off s
  | .bar2Write off bytes => Sys2Proof.Machine.execBar2Write off bytes s
  | .clkCtlWrite c v => Sys2Proof.Machine.execClkCtlWrite c v s
  | .coldReset attest fwOk => Sys2Proof.Machine.execColdReset attest fwOk s
  | .spdmRequest msg => Sys2Proof.Machine.execSpdmRequest msg s
  | .alarmA src => Sys2Proof.Machine.execAlarmA src s
  | .alarmB chiplet idx => Sys2Proof.Machine.execAlarmB chiplet idx s
  | .dieAttested chiplet => Sys2Proof.Machine.execDieAttested chiplet s
  | .fwGo v check => Sys2Proof.Machine.execFwGo v check s
  | .fwDone flashOk => Sys2Proof.Machine.execFwDone flashOk s
  | .fwRecovery => Sys2Proof.Machine.execFwRecovery s
  | .rowRepaired stack chan row => Sys2Proof.Machine.execRowRepaired stack chan row s
  | .hbmSpared stack chan => Sys2Proof.Machine.execHbmSpared stack chan s
  | .hbmExhausted stack chan => Sys2Proof.Machine.execHbmExhausted stack chan s
  | .registerWrite off v => Sys2Proof.Machine.execRegisterWrite off v s
  | .linkUp l => Sys2Proof.Machine.execLinkUp l s
  | .cxlPortReturn p => Sys2Proof.Machine.execCxlPortReturn p s
  | .functionReset => Sys2Proof.Machine.execFunctionReset s

end Sys2Proof.Machine
end

