-- ==== Sys2Proof/Machine/Cycle.lean ====
section
/-! DEFINITION. What one cycle of the reference clock runs (log entry 1): the firing chance of a pool (R114), the end of a
core's cycle (R65, R95, R102, R115, R239, R244, R254, R345, R386, R390), the steps of the device that stand ready, and
when a step is not taken at all (R350, R358, R404, R406). -/

namespace Sys2Proof.Machine

open Sys2Proof

/-! ### When a step is not taken -/

/-- Steps that the standby rail and the host ports still run while the compute rails are removed (R358 step 7). -/
def standby : Instr → Bool
  | .jobCreate _ _ => true
  | .jobTeardown _ _ => true
  | .featAcceptWrite _ _ => true
  | .enable _ => true
  | .functionReset => true
  | .lqCfgWrite _ _ => true
  | .lqNotify _ _ _ _ => true
  | .registerWrite _ _ => true
  | .clkCtlWrite _ _ => true
  | .xinv _ => true
  | .xinvComplete => true
  | .xmapWrite _ _ _ => true
  | .eventWrite => true
  | .evqHeadWrite _ => true
  | .qwcAck _ => true
  | .jobSuspend _ => true
  | .jobResume _ => true
  | .cancelLaunch _ => true
  | .cancelGraph _ => true
  | .cancelPhase _ => true
  | .cancelJob _ => true
  | .thermCrit _ _ => true
  | .thermResume _ => true
  | .coldReset _ _ => true
  | .spdmRequest _ => true
  | .alarmA _ => true
  | .alarmB _ _ => true
  | .dieReset _ _ => true
  | .controlPeriod _ _ => true
  | .fwGo _ _ => true
  | .fwHandover => true
  | .fwDone _ => true
  | _ => false

/-- Steps of the recovery loader (R406). -/
def recoveryStep : Instr → Bool
  | .spdmRequest _ => true
  | .bar2Read _ => true
  | .bar2Write _ _ => true
  | .fwGo _ _ => true
  | .fwHandover => true
  | .fwDone _ => true
  | _ => false

/-- A region is being stopped for a full scan (R350). -/
def State.frozen (s : State) (k : Nat) : Bool :=
  (s.regionOf k).any fun r => r.pre.any (·.scan) && !r.waveBegun

/-- Whether the device takes a step as it stands: halted (R404), in the recovery loader (R406), without its compute rails
or on the way there (R358), while its firmware is handed over (R405), or while a full scan stops a region (R350). -/
def State.takes (s : State) (i : Instr) : Bool :=
  if s.trust.halted then
    match i with
    | .coldReset _ _ => true
    | .eventWrite => true
    | .alarmA _ => true
    | _ => false
  else if s.trust.noFw then
    match i with
    | .coldReset _ _ => true
    | .fwRecovery => true
    | .alarmA _ => true
    | _ => s.trust.recovery && recoveryStep i
  else if s.thermal.off then standby i
  else match i with
    | .copyStart _ _ => s.thermal.critDies.isEmpty
    | .streamBeat k _ => !s.frozen k
    | .clockStep _ => decide (s.trust.fwState ≠ 3)
    | _ => true

/-- The compute fabric runs. -/
def State.computes (s : State) : Bool := !s.trust.halted && !s.trust.noFw && !s.thermal.off

/-! ### A firing chance (R114) -/

/-- The heads of a pool's inputs are looked at, as its consumption uncovers them (R86, R125), and the beats and rows that
wait are counted (R118, R255). -/
def State.lookAt (s : State) (k : Nat) (p : Pool) : State :=
  let s1 := ((s.portCheck k p).strandCheck k).countBeats k p
  if p = .mx then
    s1.noteRows k ((s1.tile k).eng.declared (s1.core (tileCore k)).cyc).isNone
  else s1

/-- A tile of the running fabric has a live configuration. -/
def State.configured (s : State) (k : Nat) : Bool := s.computes && (s.tile k).block.isSome

/-- A pool may fire at all: its tile has a live configuration that neither STRANDED nor a full scan has stopped. -/
def State.mayFire (s : State) (k : Nat) (p : Pool) : Bool :=
  let t := s.tile k
  s.configured k && !t.stranded && !s.frozen k && decide ((t.pool p).run = .running)

/-- A slot that fires: its word is decoded, and the instruction runs with the slot in focus (R113, R114). -/
def State.fireSlot (s : State) (k : Nat) (p : Pool) (n : Nat) : Host.Outcome State Fault Refusal :=
  match (((s.tile k).pool p).slots.getD n none).bind (decode? p) with
  | some i => exec i { s with focus := ⟨k, p, n⟩ }
  | none => .fault (.badSlot k p n)

/-- The firing chance of a pool in a cycle (R114): at most one slot fires. The beats that wait count in every cycle of a live
configuration, also while its pool is stopped (R118). -/
def State.beginFire (s : State) (k : Nat) (p : Pool) : Host.Outcome State Fault Refusal :=
  if s.mayFire k p then
    let s1 := s.lookAt k p
    match (if s1.mayFire k p then s1.choose k p else none) with
    | some n => s1.fireSlot k p n
    | none => .next s1
  else .next (if s.configured k then s.countBeats k p else s)

/-! ### The end of a core's cycle -/

/-- The results of a pool that complete in the cycle, then the update of the slot that fired (R95, R115); a pool whose record was
discarded in the cycle fires from the next one on (R341). -/
def State.endPool (s : State) (k : Nat) (p : Pool) : State :=
  let s1 := s.completeDue k p 0 ((s.tile k).pool p).inflight.length
  s1.setTile k ((((s1.tile k).applyUpd p)).modPool p PoolSt.awaken)

/-- A pass, one cycle later (R244). -/
def Pass.tick (q : Pass) : Pass := { q with left := q.left - 1 }

/-- The engine runs its macros in a cycle (R390): a serial phase, a scrub or zeroing that is busy, or a grammar run that reads a
word. -/
def MxEng.macro (e : MxEng) : Bool :=
  (e.passes.any fun q => q.serial && decide (q.left ≤ q.cfg.cycles) && decide (1 ≤ q.left)) || match e.work with
    | some (.recompute, _) => false
    | some (.zeroing, n) => decide (1 ≤ n) && decide (n ≤ 256)
    | some (.scrub _ m _ _ _, n) => decide (1 ≤ n) && decide (n ≤ m + 3)
    | some (.grammar _ _ _ _ time waits, n) => decide (1 ≤ n) && decide (n ≤ time) && !waits.contains (time + 1 - n)
    | none => false

/-- The engine at the end of a cycle: passes and work go on, and the bucket gains the rate in force (R244, R254). -/
def MxEng.tick (e : MxEng) (rate : Nat) : MxEng := { e with
  passes := e.passes.map Pass.tick
  work := e.work.map fun w => (w.1, w.2 - 1)
  macros := e.macros + b01 e.macro
  bucket := min 512 (e.bucket + rate) }

/-- A tile at the end of its core's cycle `cyc`: the AG pool's writes of shared predicates come first, the PE pool's last,
so that a later one wins (R102). -/
def State.endTile (s : State) (cyc : Nat) (k : Nat) : State :=
  let s1 := ((s.endPool k .ag).endPool k .mx).endPool k .pe
  let rate := ((s1.tile k).eng.declared cyc).getD s1.power.undeclRate
  (s1.setTile k ((s1.tile k).modEng fun e => e.tick rate)).recomputeRow k

/-- Awake tiles of a core. -/
def State.awake (s : State) (c : Nat) : List Nat :=
  (s.tiles.filter fun t => !t.2.gated && tileCore t.1 = c).map (·.1)

/-- A pass, a scrub or a grammar run is in flight in a region (R345). -/
def State.engineBusy (s : State) (rid : Nat) : Bool := (s.regionTiles rid).any fun k =>
  let e := (s.tile k).eng
  !e.passes.isEmpty || match e.work with
    | some (.scrub _ _ _ _ _, _) => true
    | some (.grammar _ _ _ _ _ _, _) => true
    | _ => false

/-- An access of a region is held on XLATE or for a quarantine (R345, R398). -/
def State.regionHeld (s : State) (rid : Nat) (r : Region) : Bool := s.holds.any fun h => match h.2.site with
  | .req k _ => (s.tile k).region = some rid
  | .stream k _ => (s.tile k).region = some rid
  | .agAcc k => (s.tile k).region = some rid
  | .copy _ _ => r.resident.any fun b => b / 256 = h.2.lseq
  | _ => false

/-- Cycles that neither advance nor reset the QWC count (R345, R398): a token waits for the damper, a pass for the bucket, an access
is held, or the region is under pre-emption. -/
def State.suspended (s : State) (rid : Nat) (r : Region) : Bool :=
  r.pre.isSome || !r.dampWait.isEmpty || s.regionHeld rid r ||
    (s.regionTiles rid).any fun k => !(s.tile k).eng.waitRows.isEmpty

/-- A region at the end of a cycle of its south-west tile: the count of quiet cycles of the detector (R345), and that of the drain
(R349). -/
def State.endRegion (s : State) (rid : Nat) (r : Region) : Region :=
  let noisy := r.active || s.engineBusy rid
  let r1 : Region := { r with
    active := false
    calm := if noisy then 0 else r.calm + 1 }
  if s.suspended rid r then r1
  else if noisy then { r1 with
    quiet := 0
    qwcRaised := false }
  else { r1 with quiet := r.quiet + 1 }

/-- The load that a core's tiles declare for a cycle (R390). -/
def State.declaredLoad (s : State) (ks : List Nat) (cyc : Nat) : Nat :=
  2 * (ks.map fun k => ((s.tile k).eng.declared cyc).getD 0).sum

/-- The end of a core's cycle. Its regulator moves toward the load declared for 64 cycles later (R390). -/
def State.endCycle (s : State) (c : Nat) : State :=
  let cyc := (s.core c).cyc
  let ks := s.awake c
  let load := (ks.filter fun k => (s.tile k).eng.macro).length
  let s1 := ks.foldl (fun s k => s.endTile cyc k) s
  let s2 := [0, 1, 2, 3].foldl (fun s e => s.copyCycle c e) s1
  let s2 := if c % 2 = 0 then s2.millCycle (c / 2) else s2
  let s3 := { s2 with regions := s2.regions.map fun (r : Nat × Region) =>
    (r.1, if tileCore (tileKey r.2.die r.2.x r.2.y) = c then s2.endRegion r.1 r.2 else r.2) }
  s3.setCore c { s3.core c with
    cyc := cyc + 1
    load := (s3.core c).load + load
    regulator := s3.declaredLoad ks (cyc + 65) }

/-! ### Steps that stand ready -/

/-- Channels in the order in which tokens of one cycle reach the damper: entry queues first, then by circuit tag (R306). -/
def State.chanOrder (s : State) : List (Nat × Chan) :=
  let key : Chan → Nat := fun y => match y.src with
    | .entry _ => 0
    | _ => 1 + y.tag.toNat
  s.chans.mergeSort fun a b => key a.2 ≤ key b.2

/-- What stands ready at the ends of a channel. -/
def State.chanSteps (s : State) (ch : Nat) (y : Chan) : List Instr :=
  let head : List Instr := match y.items, y.src with
    | .tok _ _ :: _, _ => [.tokenArrive ch]
    | .marker _ :: _, _ => [.squashMarker ch]
    | [], .ingress e => if (Tab.get s.stores e []).isEmpty then [] else [.tokenArrive ch]
    | [], _ => []
  let credit := y.credBack != 0 || match y.dst with
    | .egress e => Tab.get s.xcredits e 0 != 0
    | _ => false
  let early := match y.dst with
    | .egress e => s.earlyReqs e != 0
    | _ => false
  head ++ (if credit then [.creditReturn ch] else []) ++ (if y.reqBack = 0 && !early then [] else [.requestReturn ch])

/-- Steps of a tile's requests, streams and queued accesses, and of its engine. -/
def State.tileSteps (s : State) (k : Nat) (t : Tile) : List Instr :=
  let reqs : List Instr := (List.range t.pe.reqs.length).flatMap fun i =>
    [.feWake k i, .kvOpenProceed k i, .memPerform k i, .taskLoad k i, .storeEntry k i]
  let strm : List Instr := ([0, 1, 2, 3] : List (Fin 4)).filterMap fun n =>
    if (t.ag.stream n.val).st = .running then some (.streamBeat k n) else none
  let wr : List Instr := if t.ag.agq.isEmpty then [] else [.streamWrite k]
  let e := t.eng
  let pass : List Instr := match e.passes with
    | [] => []
    | q :: _ => [.passSerialEnd k, .passCheck k, .passBeat k] ++ (if q.x2 && q.beat % 2 = 0 then [.passBeat k] else [])
  let work : List Instr := match e.work with
    | some (.scrub _ _ _ _ _, n) => if n = 1 then [.scrubEnd k] else if n = 0 then [.mxBusyEnd k] else []
    | some (.grammar _ _ _ _ _ _, n) => if n ≤ 1 then [.grammarRunEnd k] else []
    | some (_, n) => if n = 0 then [.mxBusyEnd k] else []
    | none => []
  let gr : List Instr := if e.gremit.isSome then [.gremitBeat k] else []
  let dep : List Instr := pools.flatMap fun p => ([0, 1, 2, 3] : List (Fin 4)).filterMap fun i =>
    if (((t.pool p).inp i.val).queue.head?).any isDepth then some (.depthToken k p i) else none
  let epo : List Instr := pools.filterMap fun p =>
    if (t.pool p).epochAt + 1024 ≤ (s.core (tileCore k)).cyc then some (.epochEnd k p) else none
  reqs ++ wr ++ strm ++ pass ++ work ++ gr ++ dep ++ epo

/-- Steps of a region: its requests, its saves, its loads, its swaps and its window. -/
def State.regionSteps (s : State) (rid : Nat) (r : Region) : List Instr :=
  let ks := s.regionTiles rid
  let swaps : List Instr := if r.switching.isSome then ks.map Instr.switch
    else if r.armed.isSome then ks.map Instr.wavefrontSwap else []
  [.preemptRequest rid, .yieldOverrun rid, .drainEnd rid, .restoreBlock rid, .chooseBlock rid, .shadowLoad rid] ++ swaps ++
    [.qwc rid, .damperWindow rid]

/-- Steps of launches: thread tokens and done sinks. -/
def State.launchSteps (s : State) : List Instr :=
  (s.launches.filterMap fun l => if l.2.st = .placed then some (Instr.threadTokenEnqueue l.1) else none) ++
    s.blocks.filterMap fun b => if b.2.doneQ.isEmpty then none else some (Instr.unitFinish b.2.lseq b.2.idx)

/-- Steps of the launch queues, the arbiter and the dies. -/
def State.arbSteps (s : State) : List Instr :=
  let qs : List Instr := (List.finRange 16).flatMap fun q =>
    if (s.lq q.val).ranges.isEmpty then []
    else if (s.lq q.val).reads = 0 then [.packetFetch q] else [.sealReread q]
  let ds : List Instr := (List.finRange 8).filterMap fun d => match s.nextRec d.val with
    | some (.release _) => some (.placeLaunch d)
    | some (.retire _) => some (.applyRetirementRecord d)
    | some .inval => some (.applyInvalidation d)
    | none => none
  qs ++ [.acceptLaunch, .releaseLaunch] ++ ds

/-- Steps of the copy engines. -/
def State.copySteps (s : State) : List Instr :=
  (List.finRange 64).flatMap fun c =>
    let k := s.core c.val
    if k.queues.all (fun q => q.2.toks.isEmpty) && k.engs.all (fun e => e.run.isNone) then []
    else (List.finRange 4).flatMap fun e => [Instr.branchComplete c e, .copyEnd c e, .copyStart c e]

/-- The tile at which a channel ends. -/
def Chan.endTile (y : Chan) : Option Nat := match y.dst with
  | .inp k _ _ => some k
  | _ => none

/-- Endpoints of the squash network (R323) in the order in which a message reaches them: the heap, the mirrors, the tiles with the
channels that end there, whose core has a cycle, from west to east; then KV areas and slices, and what lies elsewhere (R325,
R334). -/
def State.endpoints (s : State) (due : Nat → Bool) : List Endpoint :=
  let here : Nat → Bool := fun k => due (tileCore k)
  let tiles : List (Nat × Endpoint) := (s.tiles.filter fun t => !t.2.gated && here t.1).flatMap (fun t =>
    pools.map fun p => (tileX t.1, Endpoint.pool t.1 p)) ++
    (s.chans.filter fun c => c.2.endTile.all here).map fun c => (c.2.endTile.elim 0 tileX, Endpoint.chan c.1)
  let inner := (tiles.mergeSort fun a b => a.1 ≤ b.1).map (·.2) ++ (List.range 8).map Endpoint.kv ++
    (List.range 64).map Endpoint.bisque
  [.heap] ++ (List.range 8).map Endpoint.mirror ++ (inner.filter fun e => (s.nextMsg e).isSome) ++
    (List.range 64).map Endpoint.copyQueues ++ s.frames.map (fun f => Endpoint.saved f.1) ++
    s.root.peers.map Endpoint.peer

/-- The step by which an endpoint takes its next message. -/
def State.msgStep (s : State) (e : Endpoint) : Option Instr :=
  (s.root.log[s.seqOf e]?).map fun m => match m.kind with
    | .launch => .msgLaunch e
    | .ratify => .msgRatify e
    | .squash => .msgSquash e
    | .free => .msgFree e

/-- Steps of the squash network, and the commit sequencer. -/
def State.rootSteps (s : State) (due : Nat → Bool) : List Instr :=
  let req : List Instr := if s.root.reqs.isEmpty then [] else [.rootGuess, .rootRatify, .rootSqreq, .rootDhpush]
  req ++ [.launchGeneration] ++ (s.endpoints due).filterMap s.msgStep ++ s.root.frees.map Instr.freeComplete ++
    (if s.jobs.isEmpty then [] else [.unitCommit])

/-- Something waits to be sent on a link direction: segments, or items of a channel that crosses it there. -/
def State.waits (s : State) (l : Nat) (dir : Bool) : Bool :=
  !(s.link l dir).pending.isEmpty || s.chans.any fun c => match c.2.path.findIdx? (· == (l, dir)) with
    | some j => !(c.2.stages.getD j []).isEmpty
    | none => false

/-- Steps of one direction of a link (R371 to R373, R400, R401): a flit whose tag verifies, or an idle one where the other end
still waits for an ASEQ; the retry request at the head of the wire; a rollover that has begun, or that a key's age calls for. -/
def State.dirSteps (s : State) (l : Nat) (dir : Bool) : List Instr :=
  let d := s.link l dir
  let idle := !isPort l && (s.link l (!dir)).txOld.isSome
  let flit : List Instr :=
    if isPort l then (if !dir && s.waits l dir then [.flitReceive l dir none true] else [])
    else match d.wire with
      | f :: _ => if f.ftype == 2 then [.retryRequest l (!dir) f.aseq] else [.flitReceive l dir none true]
      | [] => if s.waits l dir || idle then [.flitReceive l dir none true] else []
  let roll : List Instr := (if 2 ^ 31 ≤ d.used && !d.acked && d.rxNext.isNone && d.txOld.isNone then [.keyInstall l dir] else []) ++
    (if d.acked && !(isPort l && dir) then [.keySwitch l dir] else []) ++
    (if d.rxPast then [.keyRetire l dir false] else []) ++ (if d.txPast then [.keyRetire l dir true] else [])
  flit ++ roll

/-- Steps of the links. -/
def State.linkSteps (s : State) : List Instr :=
  ((List.range 52).filter flitLink).flatMap fun l => [false, true].flatMap fun dir => s.dirSteps l dir

/-- Repairs of HBM that have fallen due (R409). -/
def State.hbmSteps (s : State) : List Instr :=
  let rows : List Instr := (s.trust.rows.filter fun r => rowFails r.2 && !s.trust.groupFull (rowChan r.1) r.2.2.2).map fun r =>
    .rowRepaired (Fin.ofNat 16 (rowChan r.1 / 32)) (Fin.ofNat 32 (rowChan r.1)) (r.1 % 2 ^ 40)
  let chs := ((s.trust.rows.map fun r => rowChan r.1) ++ s.trust.chanCe.map (·.1)).eraseDups.filter s.trust.chanFails
  rows ++ chs.map fun ch =>
    let m := Fin.ofNat 16 (ch / 32)
    if (s.stack m.val).1 then .hbmExhausted m (Fin.ofNat 32 ch) else .hbmSpared m (Fin.ofNat 32 ch)

/-- Steps of the kiln controller: what it has begun, what falls due by time, and the holds that may end. -/
def State.kilnSteps (s : State) : List Instr :=
  let therm : List Instr :=
    if s.thermal.resuming then [.thermResume ⟨s.thermal.us, 0⟩]
    else if s.thermal.off then []
    else (List.finRange 8).filterMap fun d =>
      if s.thermal.critDies.contains d.val then some (.thermCrit d s.host.thermCrit) else none
  let resets : List Instr := (s.trust.resets.filter fun r => r.step < 2).map fun r =>
    .dieReset (w64 r.chiplet ||| place (b01 r.host) 8) r.host
  let asked : List Instr := (List.range 8).filterMap fun d =>
    if (s.trust.reset? d).isNone && s.resetValid (w64 d) false then some (.dieReset (w64 d) false) else none
  let failed : List Instr := (List.finRange 26).filterMap fun c =>
    if (s.trust.reset? c.val).any (fun r => r.step = 2) then some (.dieFailed c) else none
  let davail : List Instr := if s.arb.hold && s.trust.resets.all (fun r => r.step = 2) then [.davailChange s.davailWanted]
    else []
  let fence : List Instr := s.trust.fencing.map Instr.tileFence
  let fw : List Instr := if 1 ≤ s.trust.fwState && s.trust.fwState ≤ 3 then [.fwHandover] else []
  let clocks : List Instr := if s.refCyc % 1700 = 0 then (List.finRange 64).filterMap fun c =>
      if (s.core c.val).cur = (s.core c.val).req then none else some (.clockStep c)
    else []
  let xl : List Instr := (if s.host.xinv.isSome then [.xinvComplete] else []) ++ s.holds.map fun h => .xlateReplay h.1
  therm ++ resets ++ asked ++ failed ++ davail ++ fence ++ fw ++ clocks ++ xl ++ s.hbmSteps ++
    (if s.evq.held.isEmpty then [] else [.eventWrite])

/-- Every step of the device that may stand ready. -/
def State.readySteps (s : State) (due : Nat → Bool) : List Instr :=
  s.kilnSteps ++ (s.chanOrder.flatMap fun c => s.chanSteps c.1 c.2) ++
    (s.tiles.flatMap fun t => if t.2.gated then [] else s.tileSteps t.1 t.2) ++ s.copySteps ++ s.launchSteps ++
    (s.regions.flatMap fun r => s.regionSteps r.1 r.2) ++ s.arbSteps ++ s.rootSteps due ++ s.linkSteps

/-! ### One cycle of the reference clock -/

/-- A core's clock over one cycle of the 1.7 GHz reference: whether a cycle of the core begins in it (R20, R386). -/
def Core.pace (k : Core) : Bool × Core :=
  let n := k.phase + k.cur
  if Config.clockTop ≤ n then (true, { k with phase := n - Config.clockTop }) else (false, { k with phase := n })

/-- The end of a core's cycle; a slice of 32 cycles may end with it. -/
def State.coreEnd (s : State) (c : Fin 64) : List Action :=
  .tick c.val :: (if (s.core c.val).cyc % 32 = 31 then [.op (.ballastSlice c)] else [])

/-- The firing chances of the pools of live tiles whose core has a cycle, in the order in which R343 posts their events: by
tile y, then x, then PE, MX, AG. -/
def State.chances (s : State) (due : Nat → Bool) : List Action :=
  (s.tiles.filter fun kt => kt.2.block.isSome && due (tileCore kt.1)).flatMap fun kt =>
    ([.pe, .mx, .ag] : List Pool).map (Action.fire kt.1 ·)

/-- The place of an event that comes from a pool, as R343 orders those of one cycle: die, then y, x and pool. -/
def Event.place? (e : Event) : Option Nat :=
  if fld e.w2 35 34 = 3 then none
  else some ((fld e.w2 2 0 * 32 + fld e.w2 33 29) * 128 + fld e.w2 28 24 * 4 + fld e.w2 35 34)

/-- The events that arose in the cycle that has ended, in order of place (R343); those without one, such as cancels and
retirements, follow. -/
def EventQ.settle (q : EventQ) : EventQ :=
  let new := q.held.drop q.settled
  let placed := (new.filterMap fun e => e.place?.map fun k => (k, e)).mergeSort fun a b => a.1 ≤ b.1
  let held := q.held.take q.settled ++ placed.map (·.2) ++ new.filter fun e => e.place?.isNone
  { q with
    held := if new.isEmpty then q.held else held
    settled := q.held.length }

/-- The next cycle of the reference clock: the steps that stand ready, then the cycles of the cores whose clocks have
one. The power that the kiln controller measures at the end of a control period is a free value (R388). -/
def State.refill (s0 : State) : State :=
  let s := { s0 with evq := s0.evq.settle }
  let paced := (List.finRange 64).map fun c => (c, (s.core c.val).pace)
  let s1 := paced.foldl (fun s c => s.setCore c.1.val c.2.2) { s with refCyc := s.refCyc + 1 }
  let ticks := paced.filter (·.2.1)
  let due : Nat → Bool := fun n => ticks.any fun c => c.1.val == n
  let agenda := (s.readySteps due).map Action.op ++ s.chances due ++ ticks.flatMap fun c => s.coreEnd c.1
  if s.refCyc % 17000 = 16999 then
    let (p, s2) := s1.takeFree
    let (eb, s3) := s2.takeFree
    { s3 with agenda := agenda ++ [.op (.controlPeriod (fld p 15 0) (fld eb 15 0))] }
  else { s1 with agenda := agenda }

end Sys2Proof.Machine
end

