-- ==== Sys2Proof/Machine/Fetch.lean ====
section
/-! DEFINITION. A machine in which a given word is the next to fire (log entry 7): the word lies in slot 0 of a pool of tile
0, whose configuration is live, with the heads, registers, output space and engine state that its trigger asks for. -/

namespace Sys2Proof.Machine

open Sys2Proof

/-- The KIND that a head needs on input `c` for an instruction to fire (R99, R144, R146, R147). -/
def wantKind (o : Op) (f : Fields) (c : Nat) : BitVec 3 :=
  if f.te && f.tc.toNat = c then f.tk
  else match o with
    | .perm => 3
    | .barj => 2
    | .merge => if f.te then f.tk else if f.md.toNat = c then 5 else 0
    | _ => 0

/-- A source names input `c`. -/
def Src.names (x : Src) (c : Nat) : Bool := x.input?.any fun i => i.val = c

/-- The instruction looks at input `c`. -/
def looksAt (o : Op) (f : Fields) (c : Nat) : Bool :=
  f.ir.getLsbD c || (f.te && f.tc.toNat = c) || Src.names f.a c || Src.names f.b c || (o = .merge && f.md.toNat = c) ||
    (o = .barj && c = 0)

/-- A head of an input: I64 data, aligned I8 beats for a row of A (R242), or a softmax state whose key is one above zero
(R228). -/
def headTok (o : Op) (f : Fields) (c : Nat) : Tok :=
  let lanes := if o = .smrgOrd then Lanes.ofFn fun i => if i = 4 then (Val.fin 1 0).toWf 0 else 0 else Lanes.zero
  ⟨lanes, 0, 0, false, 0xFF, 0, if o = .mxrow then 4 else if o = .smrgOrd then 0 else 1, wantKind o f c⟩

/-- The inputs of the pool: those that the instruction looks at hold heads. -/
def fetchIns (o : Op) (f : Fields) : List InPort := [0, 1, 2, 3].map fun c =>
  if looksAt o f c || (o = .req && f.md.toNat % 4 = c) then
    ⟨1, o = .req, 32, none, if looksAt o f c then List.replicate 4 (headTok o f c) else [], 0⟩
  else InPort.none

/-- The pool of the slot. -/
def fetchPool (p : Pool) (w : Word) (o : Op) (f : Fields) : PoolSt :=
  let x := PoolSt.reset p
  { x with
    slots := x.slots.set 0 (some w)
    v := x.v.zipIdx.map fun r => { r.1 with present := (takesOf f).contains r.2 }
    p := f.pv.setWidth 4
    ins := fetchIns o f
    outs := List.replicate 4 ⟨1, false, none, 32, 0, none⟩
    streams := List.replicate 4 { Stream.reset with st := .set }
    ctrs := List.replicate 4 ⟨none, 2 ^ 64⟩ }

/-- The engine in the mode that the instruction asks for. -/
def fetchEng (o : Op) : MxEng :=
  match o with
  | .mxrow => { MxEng.reset with mode := 1 }
  | .mxchk => { MxEng.reset with mode := 1 }
  | .grld => { MxEng.reset with mode := 2 }
  | .gremit => { MxEng.reset with mode := 2, gst := .done }
  | _ => MxEng.reset

/-- Tile 0 with a live configuration. -/
def fetchTile (p : Pool) (w : Word) (o : Op) (f : Fields) : Tile :=
  let t : Tile := { Tile.reset with
    ps := (f.pv >>> 4).setWidth 4
    eng := fetchEng o
    block := some 0
    gated := false
    region := if o = .yield then some 0 else none }
  t.setPool p (fetchPool p w o f)

/-- The region of tile 0 with a pre-emption request, for YIELD (R348). -/
def fetchRegion : Region := { Region.fresh ⟨0, 0, 0⟩ 0 0 with pre := some ⟨0, false, false, 1⟩ }

/-- Core 0 with every write pointer at its highest value, for WAITWP (R275). -/
def fetchCore (k : Core) (f : Fields) (x : PoolSt) : Core :=
  { k with queues := Tab.set k.queues (fld (x.peekInt f.a) 5 0) { CopyQueue.reset with wp := 2 ^ 48 - 1 } }

/-- The state in which a word of a pool fires next; a word that the decoder rejects lies in its slot all the same. -/
def State.withSlot (s : State) (p : Pool) (w : Word) : State :=
  match decode? p w |>.bind Instr.op? with
  | some (o, f) =>
    let t := fetchTile p w o f
    let s1 := { s.setTile 0 t with agenda := [.fire 0 p] }
    let s2 := if o = .yield then s1.setRegion 0 fetchRegion else s1
    if o = .waitwp then s2.setCore 0 (fetchCore (s2.core 0) f (t.pool p)) else s2
  | none =>
    { s.setTile 0 { Tile.reset with gated := false, block := some 0 } with agenda := [.fire 0 p] }.modPool 0 p fun x =>
      { x with slots := x.slots.set 0 (some w) }

end Sys2Proof.Machine
end

