-- ==== Sys2Proof/Machine/Step.lean ====
section
/-! DEFINITION. One step of the machine: the head of the schedule, or the next cycle of the reference clock. -/

namespace Sys2Proof.Machine

open Sys2Proof

/-- The next step (log entry 1): a pool's firing chance, the end of a core's cycle, or a step of the device, which is not
taken where `State.takes` says so. With nothing left of a cycle of the reference clock, the next cycle is laid out. -/
def step (s : State) : Host.Outcome State Fault Refusal :=
  match s.agenda with
  | [] => .next s.refill
  | .fire k p :: rest => { s with agenda := rest }.beginFire k p
  | .tick c :: rest => .next (if s.computes then { s with agenda := rest }.endCycle c else { s with agenda := rest })
  | .op i :: rest => if s.takes i then exec i { s with agenda := rest } else .next { s with agenda := rest }

/-- The machine with an instruction's word where the next step fetches it: slot 0 of a pool of tile 0 (log entry 7). -/
def State.withFetchWord (s : State) (nbits w : Nat) : State := s.withSlot (tablePool nbits w) (w64 w)

end Sys2Proof.Machine
end

