-- ==== Sys2Proof/Machine/Registers.lean ====
section
/-! DEFINITION. What the host reads through BAR0 (R48 to R54, R203, R353, R375, R386, R387, R399): a read changes nothing.
Reserved fields read zero (R5). An offset that is no register, or one that can only be written, gives nothing. -/

namespace Sys2Proof.Machine

open Sys2Proof

/-- LSTAT of a link between chiplets or of a Craxon port (R375), from its two directions (log entry 88): the fewest lanes in use of
a module, and the spares and retrains of all. -/
def State.lstatOf (s : State) (l : Nat) : Word :=
  let a := s.link l false
  let b := s.link l true
  let ms := a.mods ++ b.mods
  w64 ((ms.map (·.1)).foldl min (linkLanes l)) ||| place (ms.map (·.2)).sum 8 ||| place (a.retrains + b.retrains).toNat 16

/-- LSTAT by the link index of R385; a CXL port has its 16 lanes (R384), and no lane repair. -/
def State.lstat (s : State) (l : Nat) : Option Word :=
  if l < 12 || (16 ≤ l && l < 52) then some (s.lstatOf l) else if 64 ≤ l && l < 72 then some 16 else none

/-- The index of a register in an array of `n` that starts at `base` and is `step` bytes apart. -/
def regIndex (off base step n : Nat) : Option Nat :=
  if base ≤ off && off < base + step * n && (off - base) % step = 0 then some ((off - base) / step) else none

/-- FW_STATUS (R399). -/
def Trust.fwStatus (t : Trust) : Word := t.fwVersion.setWidth 64 ||| place t.fwState 32 ||| place t.fwResult 40

/-- HBM_STATUS of a stack (R399). -/
def Trust.hbmStatus (t : Trust) (m : Nat) : Word :=
  let x := Tab.get t.hbm m (false, 0, false)
  w64 (b01 x.1) ||| place (x.2.1 % 256) 8 ||| place (b01 x.2.2) 16

/-- PWR_STATUS (R387): the reserve in mJ is the floor of the µJ held. -/
def Power.status (p : Power) : Word :=
  w64 p.last ||| place (p.reserve / 1000) 16 ||| place p.f 32 ||| place (b01 p.alarm) 63

/-- JOB_CTL (R51). -/
def Job.ctl (x : Job) : Word := place x.st 60 ||| place x.prio 56 ||| place x.ptroot 12

/-- CLK_CTL (R386). -/
def Core.clkCtl (k : Core) : Word := w64 k.req ||| place k.cur 8

/-- A register that stands alone. -/
def State.readSingle (s : State) (off : Nat) : Option Word :=
  let h := s.host
  match off with
  | 0x40 => some (w64 (b01 h.enabled))
  | 0x48 => some (w64 (b01 h.enabled) ||| place (b01 h.mismatch) 1 ||| place (b01 h.saveShort) 2 ||| place h.dropped.toNat 32)
  | 0x50 => some (h.lqRetry.setWidth 64)
  | 0x800 => some h.evqBase
  | 0x808 => some (h.evqCfg &&& (if s.feature 5 then 0x11F else 0x1F))
  | 0x810 => some h.evqHead
  | 0x818 => some (w64 s.evq.lost)
  | 0x888 => some (w64 (b01 h.xinv.isSome))
  | 0x8A0 => some h.saveBase
  | 0x8A8 => some (h.saveLen.setWidth 64)
  | 0x8C0 => some (h.yieldBound.setWidth 64)
  | 0x8C8 => some (h.thermCrit.setWidth 64 ||| place h.thermResume.toNat 8)
  | 0x900 => some (h.xnode.setWidth 64)
  | 0xA00 => some (w64 s.power.cap)
  | 0xA08 => some s.power.status
  | 0xA10 => some (w64 s.power.undeclRate)
  | 0xA18 => some (w64 Config.pwrSlope)
  | 0x1100 => some (s.trust.attested.setWidth 64 ||| place s.trust.quarantined.toNat 32)
  | 0x1118 => some s.trust.fwStatus
  | _ => none

/-- A register of BAR0. -/
def State.register (s : State) (off : Nat) : Option Word :=
  [s.readSingle off,
    (regIndex off 0x0 8 4).map featOffer,
    (regIndex off 0x20 8 4).map fun f => s.host.accept.getD f 0,
    (regIndex off 0x100 8 64).map fun j => (s.job j).ctl,
    (regIndex off 0x400 32 16).map fun q => (s.lq q).base,
    (regIndex off 0x408 32 16).map fun q => (s.lq q).cfg,
    (regIndex off 0x410 32 16).map fun q => (s.lq q).head.setWidth 64,
    (regIndex off 0xA40 8 64).map fun c => (s.core c).clkCtl,
    (regIndex off 0xC40 8 64).map fun j => w64 (s.job j).dampN ||| place (s.job j).dampW 16,
    (regIndex off 0xE40 8 64).map fun j => w64 (s.job j).undecl,
    (regIndex off 0x1120 8 64).map fun c => w64 (s.core c).sparesUsed ||| place (b01 (s.core c).exhausted) 3,
    (regIndex off 0x1320 8 16).map s.trust.hbmStatus,
    (regIndex off 0x4000 16 1024).map fun e => (Tab.get s.xmap e (0, 0)).1,
    (regIndex off 0x4008 16 1024).map fun e => (Tab.get s.xmap e (0, 0)).2,
    (regIndex off 0x8000 8 72).bind s.lstat].findSome? id

/-- What a read of BAR0 at an offset returns: nothing on a package that is halted, which answers configuration reads only (R404), or
that runs its recovery loader (R406). -/
def State.readBar0 (s : State) (off : Nat) : Option Word :=
  if s.trust.halted || s.trust.noFw then none else s.register off

end Sys2Proof.Machine
end

