-- ==== Sys2Proof/Safety.lean ====
section
/-! DEFINITION. What the statements of this model are told in: the firing of the slot in focus, the parts of a state that a
change may touch, and the arithmetic of the instruction tables written a second time in bit vectors. -/

namespace Sys2Proof.Machine

open Sys2Proof

/-! ### One firing -/

/-- What the slot in focus sees when it holds an instruction. -/
abbrev State.seen (s : State) (o : Op) (f : Fields) : Ctx := s.ctx s.focus o f

/-- The slot in focus fires: its trigger holds (R94). -/
abbrev Fires (o : Op) (f : Fields) (s : State) : Prop := s.trigger s.focus o f = true

/-- The instruction answers the next state in which the slot in focus has fired and has done `d`. What that leaves is
told once for all of them (Obligations.FiringIsOneAct, Obligations.ResultsArrive). -/
abbrev Does (o : Op) (f : Fields) (s : State) (d : Done) : Prop := exec (o.mk f) s = .next (s.commit (s.seen o f) d)

/-- The state with the fabric that a firing may change put in place: tiles, channels and regions. -/
def State.withFabric (s : State) (ts : Tab Tile) (cs : Tab Chan) (rs : Tab Region) : State :=
  { s with tiles := ts, chans := cs, regions := rs }

/-- A pool with the parts that a firing writes put in place. -/
def PoolSt.withFired (x : PoolSt) (ins : List InPort) (v : List VReg) (outs : List OutPort) (fl : List InFlight)
    (upd : Option (BitVec 3 × Bool)) (fired : Option Nat) (gs : List Group) : PoolSt :=
  { x with ins := ins, v := v, outs := outs, inflight := fl, upd := upd, firedAt := fired, groups := gs }

/-- What a firing consumes by its operand fields, and no more (R97). -/
def consumed (f : Fields) : Done := { pops := popsOf f, takes := takesOf f }

/-- A firing that consumes by its operand fields and whose result, due after `lat` cycles, goes to D; a D that is an
output loses a unit of its space (R95, R116). -/
def resulting (f : Fields) (lat : Nat) (t : Tok) : Done :=
  { consumed f with outs := outsOf f, res := [⟨f.d, some t, lat, 0⟩] }

/-- What a source field adds to the trigger (R97, R99, R263), for an instruction that needs DATA heads; the tag test of a
† opcode admits its KIND on the input it names. -/
def SourceReady (x : PoolSt) (o : Op) (f : Fields) (a : Src) : Prop :=
  let kind : Fin 4 → BitVec 3 := fun c => if o.dagger && f.te && f.tc.toNat == c.val then f.tk else 0
  match a with
  | .take n => (x.vreg n).present = true
  | .inp c => ∃ t, (x.inp c).head = some t ∧ t.kind = kind c
  | .peek c => ∃ t, (x.inp c).head = some t ∧ t.kind = kind c
  | .areg n => ∀ e ∈ x.inflight, e.dst ≠ .areg n
  | _ => True

/-- What D adds to the trigger (R98, R180). -/
def DestReady (x : PoolSt) (d : Dst) : Prop :=
  match d with
  | .put n => (x.vreg n).present = false ∧ ∀ e ∈ x.inflight, e.dst ≠ .wr n ∧ e.dst ≠ .put n
  | .out c => (x.out c).space = true ∧ (x.out c).owner = none
  | _ => True

/-- The combinations of fields that the instructions' own rules leave defined; any other is not defined (R135) and falls under
item 12 of R111. -/
structure CombinationDefined (o : Op) (f : Fields) : Prop where
  emit : o = .emit → f.d = .none ∨ ∃ t, f.d = .out t
  plog : o = .plog → 5 ≤ f.md.toNat → f.b = .imm 0
  steer : o = .steer → ∀ t, f.d = .out t → f.md.toNat < 4 → f.md.toNat ≠ t.val
  steerTo : o = .steer → ∃ t, f.d = .out t
  mergeTests : o = .merge → (f.te = true → f.tc.toNat = f.md.toNat) ∧
    ∀ c : Fin 4, c.val = f.md.toNat → f.a ≠ .inp c ∧ f.a ≠ .peek c ∧ f.b ≠ .inp c ∧ f.b ≠ .peek c
  perm : o = .perm → f.te = true → (∃ c : Fin 4, c.val = f.tc.toNat ∧ (f.a = .inp c ∨ f.a = .peek c)) → f.tk = 3
  tagset : o = .tagset → f.md = 0 → ∀ n, f.d ≠ .wr n ∧ f.d ≠ .put n
  plane : o = .plane → 2 ≤ f.md.toNat → f.b = .imm 0
  smup : o = .smup → f.md ≠ 1 → f.b = .imm 0
  smrg : o = .smrg ∨ o = .smrgOrd → f.b = .imm 0
  smrgOrd : o = .smrgOrd → ∃ c, f.a = .inp c
  topki : o = .topki → 2 ≤ f.md.toNat → f.b = .imm 0
  ldch : o = .ldch → ∃ n, f.a = .areg n
  dhpushJoin : o = .dhpushJoin → f.b = .imm 0
  wcntBind : o = .wcntBind → f.d = .none ∧ f.b = .imm 0
  wcnt : o = .wcnt → f.a = .imm 0
  streams : o = .agrd ∨ o = .agch ∨ o = .gremit ∨ o = .mxrow → ∃ t, f.d = .out t
  mxout : o = .mxout → 2 ≤ f.md.toNat → f.a = .imm 0
  mxrow : o = .mxrow → (∃ c, f.a = .inp c) ∧ (f.b = .imm 0 ∨ ∃ c, f.b = .inp c)
  mxrowTwo : o = .mxrow → f.md ≠ 0 → ∀ c : Fin 4, f.b = .inp c → ∀ d : Fin 4, d.val = (c.val + 1) % 4 → f.a ≠ .inp d

/-- A slot of a pool holds an instruction whose trigger holds. -/
def SlotFires (s : State) (k : Nat) (p : Pool) (n : Nat) : Prop :=
  ∃ o f, ((s.tile k).pool p).instr n = some (o, f) ∧ s.trigger ⟨k, p, n⟩ o f = true

/-- The input that a source consumes. -/
def inputOf : Src → List Nat
  | .inp i => [i.val]
  | _ => []

/-- A token of one valid lane, as I64. -/
def oneTok (w : Word) (h : Hdr) : Tok := ⟨⟨w, 0, 0, 0, 0, 0, 0, 0⟩, 0, 0, h.psn, 1, h.gen, 1, 0⟩

/-! ### Integer arithmetic in bit vectors (R152, R153) -/

/-- The saturated value of a sum or difference that has left the signed range: the end on the side of its true sign. -/
def satEnd (w : Nat) (neg : Bool) : BitVec w := if neg then BitVec.intMin w else BitVec.intMax w

/-- The table of R153 at a width, for the instructions whose operands are read at the width of MD. -/
def intTable (w : Nat) (u : Bool) (o : Op) (x y z : BitVec w) : BitVec w :=
  match o with
  | .iadd => x + y
  | .isub => x - y
  | .imul => x * y
  | .imulh =>
    if u then ((x.zeroExtend (2 * w) * y.zeroExtend (2 * w)) >>> w).setWidth w
    else ((x.signExtend (2 * w) * y.signExtend (2 * w)).sshiftRight w).setWidth w
  | .imad => x * y + z
  | .ineg => -x
  | .iabs => if x.msb then -x else x
  | .imin => if (if u then x.ult y else x.slt y) then x else y
  | .imax => if (if u then x.ult y else x.slt y) then y else x
  | .iclamp =>
    let m := if (if u then x.ult z else x.slt z) then x else z
    if (if u then m.ult y else m.slt y) then y else m
  | .iadds =>
    if u then (if BitVec.uaddOverflow x y then BitVec.allOnes w else x + y)
    else if BitVec.saddOverflow x y then satEnd w x.msb else x + y
  | .isubs =>
    if u then (if BitVec.usubOverflow x y then 0 else x - y)
    else if BitVec.ssubOverflow x y then satEnd w x.msb else x - y
  | .shl => x <<< (y.toNat % w)
  | .shr => x >>> (y.toNat % w)
  | .sar => x.sshiftRight (y.toNat % w)
  | .rot => x.rotateLeft (y.toNat % w)
  | _ => 0

/-- The instructions of that table. -/
def sizedOps : List Op :=
  [.iadd, .isub, .imul, .imulh, .imad, .ineg, .iabs, .imin, .imax, .iclamp, .iadds, .isubs, .shl, .shr, .sar, .rot]

/-- One lane of R153 for those instructions: at W = 32 the low halves are used and the result is sign-extended (R152). -/
def sizedLane (o : Op) (md : BitVec 3) (x y z : Word) : Word :=
  if md.getLsbD 0 then
    (intTable 32 (md.getLsbD 1) o (x.setWidth 32) (y.setWidth 32) (z.setWidth 32)).signExtend 64
  else intTable 64 (md.getLsbD 1) o x y z

/-- The other instructions of R153, which take all 64 bits of a lane or count bits. -/
def bitOps : List Op := [.and, .or, .xor, .andn, .not, .clz, .popc, .bfx, .bfi, .sext]

/-- The ones among the first `n` bits of a word. -/
def onesBelow (x : Word) (n : Nat) : Nat := ((List.range n).filter x.getLsbD).length

/-- The zeros above the highest one within `n` bits; `n` for zero. -/
def zerosAbove (x : Word) : (n : Nat) → Nat
  | 0 => 0
  | n + 1 => if x.getLsbD n then 0 else 1 + zerosAbove x n

/-- One lane of R153 for those instructions. -/
def bitLane (o : Op) (md : BitVec 3) (x y z : Word) : Word :=
  let w := if md.getLsbD 0 then 32 else 64
  let p := (y.extractLsb' 0 6).toNat
  let len := (y.extractLsb' 8 6).toNat
  let ones : Word := BitVec.ofNat 64 (2 ^ len - 1)
  match o with
  | .and => x &&& y
  | .or => x ||| y
  | .xor => x ^^^ y
  | .andn => x &&& ~~~y
  | .not => ~~~x
  | .clz => BitVec.ofNat 64 (zerosAbove x w)
  | .popc => BitVec.ofNat 64 (onesBelow x w)
  | .bfx =>
    let v := (x >>> p) &&& ones
    if md.getLsbD 1 && decide (0 < len) && v.getLsbD (len - 1) then v ||| ~~~ones else v
  | .bfi => (z &&& ~~~(ones <<< p)) ||| ((x &&& ones) <<< p)
  | .sext => (x <<< (63 - p)).sshiftRight (63 - p)
  | _ => 0

/-- The FMT of an integer result (R152). -/
def intResultFmt (o : Op) (md : BitVec 3) (a : BitVec 4) : BitVec 4 :=
  match o with
  | .and => a
  | .or => a
  | .xor => a
  | .andn => a
  | .not => a
  | .clz => 1
  | .popc => 1
  | .bfx => 1
  | .bfi => 1
  | .sext => 1
  | _ => if md.getLsbD 0 then 2 else 1

/-- Cycles to a result (R153). -/
def intLatency (o : Op) : Nat :=
  match o with
  | .imul => 3
  | .imulh => 3
  | .imad => 3
  | _ => 1

/-! ### The common block, routing and lanes (R137 to R157) -/

/-- KIND and SIDE of the token that EMIT forms, x being lane 0 of A (R138). -/
def emitHead (md : BitVec 3) (x : Word) : BitVec 3 × BitVec 24 :=
  if md = 0 then (1, 0)
  else if md = 1 then (1, 1)
  else if md = 2 then (2, x.setWidth 24)
  else if md = 3 then (3, 0)
  else if md = 4 then (5, BitVec.ofNat 24 (x.toNat % 2 ^ 20))
  else if md = 5 then (5, BitVec.ofNat 24 (2 ^ 20 + x.toNat % 32))
  else (6, 0)

/-- The logic functions of PLOG (R139). -/
def logicTable (md : BitVec 3) (pa pb : Bool) : Bool :=
  if md = 0 then pa && pb
  else if md = 1 then pa || pb
  else if md = 2 then pa ^^ pb
  else if md = 3 then pa && !pb
  else if md = 4 then !(pa ^^ pb)
  else if md = 5 then pa
  else !pa

/-- The conditions of ICMP (R154). -/
def compareTable (md : BitVec 3) (x y : Word) : Prop :=
  if md = 0 then x = y
  else if md = 1 then x ≠ y
  else if md = 2 then x.toInt < y.toInt
  else if md = 3 then x.toInt ≤ y.toInt
  else if md = 4 then x.toNat < y.toNat
  else if md = 5 then x.toNat ≤ y.toNat
  else if md = 6 then x &&& y ≠ 0
  else x &&& y = 0

/-- The conditions of CMPA (R156). -/
def addressTable (md : BitVec 3) (x y : BitVec 32) : Prop :=
  if md = 0 then x = y
  else if md = 1 then x ≠ y
  else if md = 2 then x.toNat < y.toNat
  else x.toNat ≤ y.toNat

/-- The tests of PLANE on the lanes of A and lane 0 of B (R157). -/
def laneTest (md : BitVec 3) (a : Tok) (b : Word) : Prop :=
  if md = 0 then a.mask.getLsbD (b.toNat % 8) = true ∧ a.lanes.get (b.toNat % 8) ≠ 0
  else if md = 1 then a.mask.getLsbD 0 = true ∧ a.lanes.l0.getLsbD (b.toNat % 64) = true
  else if md = 2 then ∃ i < 8, a.mask.getLsbD i = true ∧ a.lanes.get i ≠ 0
  else (∃ i < 8, a.mask.getLsbD i = true) ∧ ∀ i < 8, a.mask.getLsbD i = true → a.lanes.get i ≠ 0

/-- A lane of a token as a source reads it: zero where it is not valid (R133). -/
def laneRead (t : Tok) (i : Nat) : Word := if t.mask.getLsbD i then t.lanes.get i else 0

/-- The mask and lanes of the lane instructions (R149), the old D among their sources. -/
def laneMove (o : Op) (md : BitVec 3) (a b d : Tok) : (Nat → Bool) × (Nat → Word) :=
  let l := (laneRead b 0).toNat % 8
  match o with
  | .lperm =>
    let sel : Nat → Nat := fun i =>
      if md = 1 then (laneRead b i).toNat % 8 else (laneRead b 0).toNat / 2 ^ (3 * i) % 8
    (fun i => a.mask.getLsbD (sel i) && b.mask.getLsbD (if md = 1 then i else 0), fun i => a.lanes.get (sel i))
  | .lrot => (fun i => a.mask.getLsbD ((i + l) % 8) && b.mask.getLsbD 0, fun i => a.lanes.get ((i + l) % 8))
  | .lbc => (fun _ => a.mask.getLsbD l, fun _ => a.lanes.get l)
  | .lins => (fun i => if i = l then a.mask.getLsbD 0 else d.mask.getLsbD i,
      fun i => if i = l then a.lanes.l0 else d.lanes.get i)
  | .lext => (fun i => i == 0 && a.mask.getLsbD l, fun _ => a.lanes.get l)
  | _ => (fun _ => false, fun _ => 0)

/-- Each lane of a token is as a function gives it where the mask bit is set, and zero where it is not. -/
def LanesAre (t : Tok) (m : Nat → Bool) (g : Nat → Word) : Prop :=
  ∀ i < 8, t.mask.getLsbD i = m i ∧ t.lanes.get i = if m i then g i else 0

/-- The sources of an instruction converted to one class, D among them for shape c, and the result header: the checks that
every firing of the class passes (R133, R134). -/
structure Sources (c : Ctx) (cls : Cls) (a b d : Tok) (h : Hdr) : Prop where
  readA : c.convA cls = .ok a
  readB : c.convB cls = .ok b
  readD : c.o.shape = .c → c.convD cls = .ok d
  header : c.header = .ok h

/-! ### WF arithmetic on rational numbers (R158 to R161, R214 to R224) -/

/-- An extended number: NaN, an infinity, or a rational number. -/
inductive Ext where
  | nan
  | inf (neg : Bool)
  | num (q : ℚ)
  deriving DecidableEq, Repr

/-- The extended number that a value stands for. -/
def Val.ext : Val → Ext
  | .nan => .nan
  | .inf n => .inf n
  | .fin m e => .num ((m : ℚ) * (2 : ℚ) ^ e)

/-- rnd_int of R161. -/
def roundInt (rm : Nat) (q : ℚ) : ℤ :=
  match rm with
  | 0 =>
    let n := ⌊q⌋
    if q - n < 1 / 2 then n else if 1 / 2 < q - n then n + 1 else if n % 2 = 0 then n else n + 1
  | 1 => if q < 0 then ⌈q⌉ else ⌊q⌋
  | 2 => ⌊q⌋
  | _ => ⌈q⌉

/-- round_wf of R161, as its text has it. -/
def roundQ (rm : Nat) (v : ℚ) : Word :=
  if v = 0 then 0
  else
    let e : ℤ := if 0 < v then Int.log 2 v else Int.clog 2 (-v) - 1
    let n := roundInt rm (v / (2 : ℚ) ^ (e - 48))
    let p : ℤ × ℤ :=
      if n = 2 ^ 49 then (2 ^ 48, e + 1) else if n = -2 ^ 48 then (-2 ^ 49, e - 1) else (n, e)
    if 8191 < p.2 then (if 0 < v then wfPInf else wfNInf)
    else if p.2 < -8191 then 0
    else BitVec.ofInt 14 p.2 ++ BitVec.ofInt 50 p.1

/-- The WF encoding of an extended number, rounded once. -/
def Ext.word (rm : Nat) : Ext → Word
  | .nan => wfNaN
  | .inf n => if n then wfNInf else wfPInf
  | .num q => roundQ rm q

/-- An extended number rounded to WF and read back. -/
def Ext.round (rm : Nat) (x : Ext) : Ext := (Val.ofWf (x.word rm)).ext

/-- −x. -/
def Ext.neg : Ext → Ext
  | .nan => .nan
  | .inf n => .inf (!n)
  | .num q => .num (-q)

/-- |x|. -/
def Ext.abs : Ext → Ext
  | .nan => .nan
  | .inf _ => .inf false
  | .num q => .num |q|

/-- The sum of R215. -/
def Ext.add : Ext → Ext → Ext
  | .num p, .num q => .num (p + q)
  | .inf a, .inf b => if a = b then .inf a else .nan
  | .inf a, .num _ => .inf a
  | .num _, .inf b => .inf b
  | _, _ => .nan

/-- The product of R215. -/
def Ext.mul : Ext → Ext → Ext
  | .num p, .num q => .num (p * q)
  | .inf a, .inf b => .inf (a ^^ b)
  | .inf a, .num q => if q = 0 then .nan else .inf (a ^^ decide (q < 0))
  | .num p, .inf b => if p = 0 then .nan else .inf (b ^^ decide (p < 0))
  | _, _ => .nan

/-- The key of the ranking order (R214), to be compared lexicographically. -/
def Ext.key : Ext → ℕ × ℚ
  | .nan => (0, 0)
  | .inf true => (1, 0)
  | .num q => (2, q)
  | .inf false => (3, 0)

/-- key(x) < key(y). -/
def Ext.below (x y : Ext) : Prop := x.key.1 < y.key.1 ∨ (x.key.1 = y.key.1 ∧ x.key.2 < y.key.2)

/-- The arithmetic instructions on WF lanes. -/
def floatOps : List Op := [.fadd, .fsub, .fmul, .fma, .fneg, .fabs, .frnd]

/-- The exact value of those instructions before rounding (R215, R218). -/
def floatTable (o : Op) (rm : Nat) (x y z : Ext) : Ext :=
  match o with
  | .fadd => x.add y
  | .fsub => x.add y.neg
  | .fmul => x.mul y
  | .fma => (x.mul y).add z
  | .fneg => x.neg
  | .fabs => x.abs
  | _ => match x with
    | .num q => .num (roundInt rm q)
    | v => v

/-- The extended number in a lane. -/
def Tok.ext (t : Tok) (i : Nat) : Ext := (Val.ofWf (t.lanes.get i)).ext

/-- The conditions of FCMP (R217). -/
def floatTest (md : BitVec 3) (x y : Ext) : Prop :=
  let un := x = .nan ∨ y = .nan
  if md = 0 then ¬un ∧ x = y
  else if md = 1 then un ∨ x ≠ y
  else if md = 2 then ¬un ∧ x.below y
  else if md = 3 then ¬un ∧ ¬y.below x
  else if md = 4 then un
  else x.below y

/-- A result of the PE pool: header and FMT. -/
def HasHead (r : Tok) (h : Hdr) (fmt : BitVec 4) : Prop := r.fmt = fmt ∧ r.mask = h.mask ∧ r.psn = h.psn ∧ r.gen = h.gen

/-- Candidates in ranking order (R214): best first, no pair above one before it. -/
def RankedFrom (cands l : List VPair) : Prop := l.Perm cands ∧ l.Pairwise fun p q => q.above p = false

/-- Lanes and mask of a VID result: pair n where there is one, and zero elsewhere. -/
def HasPairs (r : Tok) (p : Nat → Option VPair) : Prop :=
  r.fmt = 6 ∧ ∀ n < 4,
    (∀ q, p n = some q → r.mask.getLsbD (2 * n) = true ∧ r.mask.getLsbD (2 * n + 1) = true ∧
      r.lanes.get (2 * n) = q.v.ext.word 0 ∧ r.lanes.get (2 * n + 1) = q.id) ∧
    (p n = none → r.mask.getLsbD (2 * n) = false ∧ r.mask.getLsbD (2 * n + 1) = false ∧ r.lanes.get (2 * n) = 0 ∧
      r.lanes.get (2 * n + 1) = 0)

/-! ### Softmax states (R225 to R228) -/

/-- `r` is expdiff(a, b) of R226: 2^(a - b), the difference rounded once. -/
def ExpDiff (a b : Ext) (r : Val) : Prop :=
  (a = .inf true → r.ext = .num (if b = .inf true then 1 else 0)) ∧
    (a ≠ .inf true → ∃ v : Val, v.ext = (a.add b.neg).round 0 ∧ r = fexp2 v)

/-- The sum of eight numbers in the tree of R224, rounded at every node. -/
def treeSum (rm : Nat) (x : Nat → Ext) : Ext :=
  let p (u v : Ext) : Ext := (u.add v).round rm
  p (p (p (x 0) (x 1)) (p (x 2) (x 3))) (p (p (x 4) (x 5)) (p (x 6) (x 7)))

/-- A beat of scores that makes a NaN state (R226): a valid lane is NaN or +Inf. -/
def BadScore (a : Tok) : Prop := ∃ i < 8, a.mask.getLsbD i = true ∧ (Tok.ext a i = .nan ∨ Tok.ext a i = .inf false)

/-- smup of R226: `x` is the state `d` with the beat `a` added. -/
structure SmupOf (d : Soft) (a : Tok) (x : Soft) : Prop where
  key : x.key = d.key
  nan : d.isNan = true ∨ BadScore a → x = Soft.nan d.key
  /-- the larger of D.m and the highest key among the valid lanes -/
  maxOld : d.isNan = false → ¬BadScore a → (∀ i < 8, a.mask.getLsbD i = true → ¬d.m.ext.below (Tok.ext a i)) →
    x.m.ext = d.m.ext
  maxNew : d.isNan = false → ¬BadScore a → ∀ j < 8, a.mask.getLsbD j = true → d.m.ext.below (Tok.ext a j) →
    (∀ i < 8, a.mask.getLsbD i = true → ¬(Tok.ext a j).below (Tok.ext a i)) → x.m.ext = Tok.ext a j
  rescale : d.isNan = false → ¬BadScore a → ExpDiff d.m.ext x.m.ext x.ad ∧ x.aa.ext = .num 0
  sum : d.isNan = false → ¬BadScore a → ∃ t : Nat → Val,
    (∀ i < 8, (a.mask.getLsbD i = false ∨ Tok.ext a i = .inf true) → (t i).ext = .num 0) ∧
    (∀ i < 8, a.mask.getLsbD i = true → Tok.ext a i ≠ .inf true →
      ∃ v : Val, v.ext = ((Tok.ext a i).add x.m.ext.neg).round 0 ∧ t i = fexp2 v) ∧
    x.s.ext = (((d.s.ext.mul x.ad.ext).round 0).add (treeSum 0 fun i => (t i).ext)).round 0

/-- smrg of R227: `x` is the partial state `a` merged into the state `d`, with a key. -/
structure SmrgOf (d a : Soft) (q : Val) (x : Soft) : Prop where
  key : x.key = q
  nan : d.isNan = true ∨ a.isNan = true → x = Soft.nan q
  max : d.isNan = false → a.isNan = false →
    (d.m.ext.below a.m.ext → x.m.ext = a.m.ext) ∧ (¬d.m.ext.below a.m.ext → x.m.ext = d.m.ext)
  rescale : d.isNan = false → a.isNan = false → ExpDiff d.m.ext x.m.ext x.ad ∧ ExpDiff a.m.ext x.m.ext x.aa
  sum : d.isNan = false → a.isNan = false →
    x.s.ext = (((d.s.ext.mul x.ad.ext).round 0).add ((a.s.ext.mul x.aa.ext).round 0)).round 0

/-- The key of the softmax state in a token that class WF admits: lane 4 (R225). -/
def HasKey (t : Tok) (q : Ext) : Prop :=
  isFmtTag t = false ∧ ∃ l, convLanes .wf t = some l ∧ (Val.ofWf (l.1.get 4)).ext = q

/-- A token is the partial whose key follows that of `d` (R228). -/
def NextKey (d t : Tok) : Prop := ∃ q, HasKey d (.num q) ∧ HasKey t (.num (q + 1))

/-- The oldest beat of an input that `smrg.ord` takes: the first of those ahead of any token that is not DATA (R228). -/
def OldestNext (d : Tok) (queue : List Tok) (n : Nat) (t : Tok) : Prop :=
  queue[n]? = some t ∧ t.kind = 0 ∧ NextKey d t ∧ ∀ m < n, ∃ u, queue[m]? = some u ∧ u.kind = 0 ∧ ¬NextKey d u

/-! ### Memory (R257 to R273) -/

/-- `n` words from word `w` on lie in a space, and the first and the last in no gated tile (R260). -/
def OnChip (s : State) (k sp w n : Nat) : Prop :=
  w + n ≤ spaceWords sp ∧
    (sp = 1 → (s.tile (scratchTile k w)).gated = false ∧ (s.tile (scratchTile k (w + n - 1))).gated = false)

/-- A word of a space lies in no KV area (R330). -/
def NoKvWord (s : State) (k sp w : Nat) : Prop := sp = 3 → (s.die (tileDie k)).kvAt w = none

/-- A memory instruction fires: it takes a request place with a request whose results go to `ds` (R257). -/
structure Asks (o : Op) (f : Fields) (s : State) (h : Hdr) (r : Req) (ds : List Dst) : Prop where
  does : Does o f s ((s.seen o f).request r ds)
  op : r.op = o
  md : r.md = f.md.toNat
  gen : r.gen = h.gen
  psn : r.psn = h.psn
  ticket : r.ticket = ((s.tile s.focus.tile).pool s.focus.pool).tickets + 1
  fresh : r.waiting = none ∧ r.held = none ∧ r.inHold = 0

/-- The lanes of a mask from the lowest on. -/
def lanesOf (m : BitVec 8) : List Nat := (List.range 8).filter m.getLsbD

/-- The lanes of a request and the words that its next access touches for them: a beat's eight words in order, the halves of
an LDX or STX by their element address, or the lane's own word (R258, R261, R262, R264). -/
def LaneWord (k : Nat) (r : Req) (x : Acc) (i v : Nat) : Prop :=
  i < 8 ∧ if r.beat then v = flatWord k x + i
    else v = flatWord k x ∧ if r.op = .ldx ∨ r.op = .stx then (r.opb.lanes.l0.toNat + i) / 2 = x.addr else i = x.lane

/-- The lanes that a store writes: of a beat, an LDX or an STX the valid ones. -/
def LaneStored (k : Nat) (r : Req) (x : Acc) (i v : Nat) : Prop :=
  LaneWord k r x i v ∧ (r.beat = true ∨ r.op = .stx → r.dat.mask.getLsbD i = true)

/-- A load of a request sees a word: LD, LDX and LDCH see one of a KV area only where its slot shows it (R330). -/
def WordSeen (s : State) (k : Nat) (r : Req) (v : Nat) : Prop :=
  let chip := chipBase (tileDie k) / 8
  (r.op = .ld ∨ r.op = .ldx ∨ r.op = .ldch) → chip ≤ v → v < chip + 2 ^ 23 → s.kvSeen (tileDie k) (v - chip) r.gen = true

/-- What a load brings of a word: the word, or for LDX the half that its element address names, extended (R262). -/
def loadedLane (s : State) (r : Req) (i v : Nat) : Word :=
  if r.op = .ldx then
    let half : BitVec 32 := (s.mem.word v).extractLsb' (if (r.opb.lanes.l0.toNat + i) % 2 = 0 then 0 else 32) 32
    if r.md / 4 = 1 then half.setWidth 64 else half.signExtend 64
  else s.mem.word v

/-- The half word that STX stores of a lane, saturated where MD asks for it (R262). -/
def storedHalf (r : Req) (i : Nat) : BitVec 32 :=
  if r.md / 4 = 1 then BitVec.ofInt 32 (max (-2 ^ 31) (min (2 ^ 31 - 1) (r.dat.lanes.get i).toInt))
  else (r.dat.lanes.get i).setWidth 32

/-- The next node of an LDCH whose node has been read (R263). -/
def nextNode (r : Req) (y : Tok) : Word :=
  let link : BitVec 32 := (y.lanes.get (r.opb.lanes.l0.toNat % 8)).setWidth 32
  if link = 0 then 0 else (link + r.opb.lanes.l0.extractLsb' 32 32).setWidth 64

/-- A request once an access has been performed: with accesses left it holds its place with them; with none, each of its
results is in flight as before with its value there (R257): the loaded token, FEQ's outcome, LDCH's next node. `q` tells the
loaded token. -/
def Leaves (s t : State) (k : Nat) (r : Req) (rest : List Acc) (q : Tok → Prop) : Prop :=
  (rest ≠ [] → ∃ u ∈ (t.tile k).pe.reqs, u.ticket = r.ticket ∧ u.accs = rest ∧ u.waiting = none ∧ q u.res) ∧
    (rest = [] → ∃ y, q y ∧ ∀ e ∈ (s.tile k).pe.inflight, e.ticket = r.ticket →
      ∃ e' ∈ (t.tile k).pe.inflight, e'.ticket = r.ticket ∧ e'.dst = e.dst ∧ e'.due = e.due ∧ ∃ v, e'.val = some v ∧
        ((∀ m, e.dst ≠ .areg m) → (∀ m, e.dst ≠ .pred m) → v = y) ∧
        (∀ m, e.dst = .areg m → v.lanes.l0 = nextNode r y) ∧
        (∀ m, e.dst = .pred m → (v.lanes.l0.getLsbD 0 = true ↔ ∀ i < 8, y.lanes.get i ≠ 0)))

/-- A loaded token with the lanes of an access read into it: the lanes seen take what the words hold and their poison, the
lanes not seen are zero and not valid, the other lanes stay (R258, R260, R330). -/
def Loaded (s : State) (k : Nat) (r : Req) (x : Acc) (y : Tok) : Prop :=
  (∀ i v, LaneWord k r x i v →
    (WordSeen s k r v → y.lanes.get i = loadedLane s r i v ∧ y.mask.getLsbD i = r.res.mask.getLsbD i) ∧
    (¬WordSeen s k r v → y.lanes.get i = 0 ∧ y.mask.getLsbD i = false)) ∧
  (∀ i < 8, (∀ v, ¬LaneWord k r x i v) → y.lanes.get i = r.res.lanes.get i ∧ y.mask.getLsbD i = r.res.mask.getLsbD i) ∧
  (y.psn = true ↔ r.res.psn = true ∨ ∃ i v, LaneWord k r x i v ∧ WordSeen s k r v ∧ s.mem.isPsn v = true) ∧
  y.fmt = r.res.fmt ∧ y.gen = r.res.gen

/-! ### Address generation (R176 to R188) -/

/-- The elements of a stream at some positions can be reached: on chip they lie in their space and not in a gated tile; in
global memory the stream's unit has not finished (R180). -/
def ElemsThere (s : State) (k : Nat) (st : Stream) (ps : List Nat) : Prop :=
  (bSsp st.blk = 0 → ps = [] ∨ (s.agAcr st.unit st.ts st.gen).isSome = true) ∧
    (bSsp st.blk ≠ 0 → ∀ p ∈ ps, ∀ w ∈ srcWords st.blk p, (s.engWord (tileCore k) (bSsp st.blk) w).isSome = true)

/-- No element at some positions touches a KV area (R330). -/
def ElemsNotKv (s : State) (k : Nat) (b : Lanes) (ps : List Nat) : Prop :=
  bSsp b = 1 → ∀ p ∈ ps, ∀ w ∈ bitWords (srcBit b p) (widthOf (bSfmt b)), NoKvWord s k 3 w.toNat

/-- Elements that a token gives one lane of a write (R183). -/
def elemsPerLane (b : Lanes) (t : Tok) : Nat :=
  if bSfmt b = fmtRaw then 1 else if t.fmt = 4 then 8 else if t.fmt = 5 then 16 else 1

end Sys2Proof.Machine
end

