-- ==== Sys2Proof/Certificates/Slice0/Obligations.lean ====
section
/-! DEFINITION. The statements about this model that are to be proved. -/

open Sys2Proof Sys2Proof.Machine

/-! ### Words and steps -/

/-- A well-formed instruction is what its word decodes to: no field of R93 is dropped, with every operand at every value
that the setter accepts (R93, R97, R98, R111). -/
def Obligations.DecodeOfEncode : Prop :=
  ∀ (p : Pool) (i : Instr) (w : Word), i.wf p = true → encode i = some w → decode p w = .ok i

/-- A word that decodes is the word of the instruction it decodes to, so that every bit of it is some field of R93 and no
two words are one instruction; and it obeys R111, bit by bit of R93, with the combinations of R135 that item 12 turns away. The check of item 11 of R111 needs the binding word and
stands in the setter. -/
def Obligations.AcceptedWordsObey : Prop :=
  ∀ (p : Pool) (w : Word) (i : Instr), decode p w = .ok i → encode i = some w ∧
    ∃ (o : Op) (f : Fields), i = o.mk f ∧
      (p ∈ o.pools ∧ o.code = (w.extractLsb' 26 8).toNat) ∧
      w.extractLsb' 48 8 &&& ~~~w.extractLsb' 56 8 = 0 ∧
      (w.getLsbD 39 = false → w.extractLsb' 37 2 = 0 ∧ w.extractLsb' 34 3 = 0) ∧
      (w.getLsbD 7 = false → w.extractLsb' 4 3 = 0 ∧ w.getLsbD 3 = false) ∧
      ¬(w.getLsbD 39 = true ∧ w.extractLsb' 34 3 = 6) ∧
      (f.te = true → f.tk ≠ 0 → o.dagger = false → o ≠ .kindp →
        ∀ c : Fin 4, c.val = f.tc.toNat → f.a ≠ .inp c ∧ f.b ≠ .inp c) ∧
      Dst.decode (w.extractLsb' 20 6) = some f.d ∧
      shapeClasses o.shape f.d f.a f.b = true ∧ shapeUnused o.shape f.d f.a f.b = true ∧
      (p ≠ .pe → (∀ n : Fin 16, 4 ≤ n.val → f.d ≠ .wr n ∧ f.d ≠ .put n ∧ f.a ≠ .rd n ∧ f.a ≠ .take n ∧ f.b ≠ .rd n ∧
        f.b ≠ .take n) ∧ ∀ n : Fin 8, 4 ≤ n.val → f.d ≠ .areg n ∧ f.a ≠ .areg n ∧ f.b ≠ .areg n) ∧
      (∀ n : Fin 16, f.d = .put n → f.a ≠ .take n ∧ f.b ≠ .take n) ∧
      (∀ n : Fin 8, f.d = .pred n → f.pe = true → f.pi.toNat ≠ n.val) ∧
      (∀ c : Fin 4, (f.a = .inp c → f.b ≠ .inp c ∧ f.b ≠ .peek c) ∧ (f.b = .inp c → f.a ≠ .inp c ∧ f.a ≠ .peek c)) ∧
      CombinationDefined o f ∧
      o.mds.contains (w.extractLsb' 0 3).toNat = true

/-- Words written out in the manual's own listings decode to the instructions the manual gives for them (R117, R157,
R263). -/
def Obligations.ListedWords : Prop :=
  let f (d : Dst) (a b : Src) (md : BitVec 3) : Fields := ⟨0, 0, 0, 0, false, 0, 0, d, a, b, false, 0, false, md⟩
  decode .pe 0x0000000005383800 = .ok (.mov (f (.put 3) (.inp 0) (.imm 0) 0)) ∧
  decode .pe 0x000000010204F000 = .ok (.iadd (f (.out 0) (.take 3) (.const 0) 0)) ∧
  decode .pe 0x0000000168093202 = .ok (.icmp (f (.wr 0) (.peek 0) (.const 2) 2)) ∧
  decode .pe 0x00000001681CE402 = .ok (.icmp (f (.wr 1) (.const 3) (.peek 0) 2)) ∧
  decode .pe 0x0000000134200100 = .ok (.or (f (.wr 2) (.rd 0) (.rd 1) 0)) ∧
  decode .pe 0x000000019330B802 = .ok (.plane (f (.pred 3) (.rd 2) (.imm 0) 2)) ∧
  decode .pe 0x000000001F8E3800 = .error .unassigned ∧
  decode .pe 0x0000000006483800 = .error .illegalDestination ∧
  decode .mx 0x0000000004483800 = .error .narrowPool

/-- A step runs the instruction at the head of the schedule, and a pool's firing chance runs the instruction that the chosen
slot's word decodes to, with that slot in focus; one of the device that cannot be taken passes. Where the manual is
silent it tells the choice of log entry 1. -/
def Obligations.StepRunsTheInstruction : Prop :=
  (∀ (s : State) (i : Instr) (rest : List Action), s.agenda = .op i :: rest → s.takes i = true →
    step s = exec i { s with agenda := rest }) ∧
  (∀ (s : State) (i : Instr) (rest : List Action), s.agenda = .op i :: rest → s.takes i = false →
    step s = .next { s with agenda := rest }) ∧
  (∀ (s : State) (k : Nat) (p : Pool) (rest : List Action) (u : State) (n : Nat) (w : Word) (i : Instr),
    s.agenda = .fire k p :: rest → State.mayFire { s with agenda := rest } k p = true →
    State.lookAt { s with agenda := rest } k p = u → u.mayFire k p = true → u.choose k p = some n →
    ((u.tile k).pool p).slots.getD n none = some w → decode p w = .ok i →
    step s = exec i { u with focus := ⟨k, p, n⟩ })

/-- R114, R119: a pool fires at most one slot, a valid one whose trigger holds. Without a used group it is the lowest of
them, and it fires one whenever some trigger holds; with used groups it is the lowest ready slot of a used group that holds
a ready slot, and no used group that holds a ready slot has a larger credit. Where the manual is silent it tells the
choice of log entry 80. -/
def Obligations.ChosenSlotFires : Prop :=
  (∀ (s : State) (k : Nat) (p : Pool), (∀ g ∈ ((s.tile k).pool p).groups, g.w = 0) →
     (∀ n, s.choose k p = some n → n < ((s.tile k).pool p).slots.length ∧ SlotFires s k p n ∧
       ∀ m < n, ¬SlotFires s k p m) ∧
     (s.choose k p = none → ∀ n < ((s.tile k).pool p).slots.length, ¬SlotFires s k p n)) ∧
  (∀ (s : State) (k : Nat) (p : Pool) (n : Nat), (∃ g ∈ ((s.tile k).pool p).groups, g.w ≠ 0) → s.choose k p = some n →
     SlotFires s k p n ∧ ∃ g ∈ ((s.tile k).pool p).groups, g.w ≠ 0 ∧ g.first ≤ n ∧ n ≤ g.last ∧
       (∀ m, g.first ≤ m → m < n → m < ((s.tile k).pool p).slots.length → ¬SlotFires s k p m) ∧
       ∀ h ∈ ((s.tile k).pool p).groups, h.w ≠ 0 →
         (∃ m, h.first ≤ m ∧ m ≤ h.last ∧ m < ((s.tile k).pool p).slots.length ∧ SlotFires s k p m) → h.credit ≤ g.credit)

/-! ### One firing -/

/-- R94, R97, R98, R99, R116: what the trigger of an integer instruction asks, and nothing more. -/
def Obligations.TriggerHoldsWhen : Prop :=
  ∀ (o : Op) (f : Fields) (s : State), o ∈ sizedOps ++ bitOps → s.focus.pool = .pe →
    let t := s.tile s.focus.tile
    let x := t.pe
    let cyc := (s.core (tileCore s.focus.tile)).cyc
    (Fires o f s ↔
      x.run = .running ∧
      (∀ n < 8, f.pm.getLsbD n = true → t.pred .pe n = f.pv.getLsbD n) ∧
      (∀ n < 8, f.pv.getLsbD n = true → f.pm.getLsbD n = true) ∧
      (∀ c < 4, f.ir.getLsbD c = true → (x.inp c).head.isSome = true) ∧
      (∀ c < 4, f.os.getLsbD c = true → (x.out c).space = true) ∧
      (f.te = true → ∃ h, (x.inp f.tc.toNat).head = some h ∧ h.kind = f.tk) ∧
      SourceReady x o f f.a ∧ SourceReady x o f f.b ∧ DestReady x f.d ∧
      (∀ e ∈ x.inflight, sameDst e.dst f.d = true → e.val.isSome = true ∧ e.due ≤ cyc + intLatency o - 1))

/-- R95, with the frame of every instruction that works in its tile alone: a firing leaves every other tile and the rest of
the machine as they were, every byte of memory too; where the instruction changes nothing of its own in the tile, the firing
pops the heads it consumes, clears the presence it takes, records its update and its results, and leaves the rest of its
pool and the other pools. -/
def Obligations.FiringIsOneAct : Prop :=
  ∀ (s : State) (c : Ctx) (d : Done), c.t = s.tile c.k → d.eff = id → d.after = none →
    ∃ t, s.commit c d = t ∧
      t.withFabric s.tiles s.chans s.regions = s ∧
      (∀ a, t.mem.byte a = s.mem.byte a) ∧
      (∀ k, k ≠ c.k → t.tile k = s.tile k) ∧
      (d.tile = id →
        (∀ q, q ≠ c.p → (t.tile c.k).pool q = (s.tile c.k).pool q) ∧
        (t.tile c.k).ps = (s.tile c.k).ps ∧ (t.tile c.k).eng = (s.tile c.k).eng ∧
        (let x := (s.tile c.k).pool c.p
         let y := (t.tile c.k).pool c.p
         y.withFired x.ins x.v x.outs x.inflight x.upd x.firedAt x.groups = x ∧
          (∀ i, (y.inp i).queue = (x.inp i).queue.drop (d.pops.count i)) ∧
          (∀ n, (y.vreg n).tok = (x.vreg n).tok ∧ (y.vreg n).present = ((x.vreg n).present && !d.takes.contains n)) ∧
          (∀ n, n ∉ d.outs → y.out n = x.out n) ∧
          y.inflight = x.inflight ++ (d.res.filter fun r => r.dst != .none).map (fun r =>
            ⟨r.dst, r.tok, c.cyc + r.lat - 1, (r.tok.elim c.gen fun t => t.gen), c.slot, r.ticket, dstCode r.dst⟩) ∧
          y.upd = (if c.f.pe then some (c.f.pi, c.f.pval) else none) ∧ y.firedAt = some c.cyc))

/-- R115 to R117, R136: the oldest result of a pool, once due, reaches its destination and is no longer in flight: a v
register takes the token and presence, an a register or a predicate its low bits, an output's channel the token with the bits of SIDE that R124 marks zero as
zero; memory
and every other tile stay as they were. -/
def Obligations.ResultsArrive : Prop :=
  ∀ (s : State) (k : Nat) (p : Pool) (e : InFlight) (rest : List InFlight) (r : Tok),
    ((s.tile k).pool p).inflight = e :: rest → e.val = some r → e.due ≤ (s.core (tileCore k)).cyc →
    ((s.tile k).pool p).dead.contains e.gen = false → e.ticket = 0 → r.psn = false →
    ∃ t, exec (.resultComplete k p 0) s = .next t ∧ ((t.tile k).pool p).inflight = rest ∧ t.mem = s.mem ∧
      (∀ j, j ≠ k → t.tile j = s.tile j) ∧
      (∀ n : Fin 16, (e.dst = .wr n ∨ e.dst = .put n) → n.val < ((s.tile k).pool p).v.length →
        ((t.tile k).pool p).vreg n = ⟨regTok r, true⟩ ∧ ∀ m, m ≠ n.val → ((t.tile k).pool p).vreg m = ((s.tile k).pool p).vreg m) ∧
      (∀ n : Fin 8, e.dst = .areg n → n.val < ((s.tile k).pool p).a.length →
        ((t.tile k).pool p).a.getD n.val 0 = r.lanes.l0.setWidth 32) ∧
      (∀ n : Fin 8, e.dst = .pred n → (t.tile k).pred p n.val = r.lanes.l0.getLsbD 0 ∧
        ∀ m < 8, m ≠ n.val → (t.tile k).pred p m = (s.tile k).pred p m) ∧
      (∀ (c : Fin 4) (ch : Nat) (y : Chan), e.dst = .out c → (((s.tile k).pool p).out c).chan = some ch →
        Tab.get? s.chans ch = some y → Tab.get? t.chans ch = some (y.push (.tok { sentTok r with tag := y.tag } 0)))

/-- R102: of the writes that a cycle makes to a predicate, the update of the PE slot that fired stands. Where the manual
is silent it tells the choice of log entry 79. -/
def Obligations.PeUpdateStands : Prop :=
  ∀ (s : State) (k cyc : Nat) (n : BitVec 3) (v : Bool), (s.tile k).pe.upd = some (n, v) →
    ((s.endTile cyc k).tile k).pred .pe n.toNat = v

/-! ### The common block -/

/-- R137, R138, R147, R268: NOP, DROP, PERM and FENCE consume what their fields consume and have no other effect; MOV sends
a DATA token with the header of its sources, its SIDE with it, and a head of another KIND whole; EMIT forms a token of a control kind. -/
def Obligations.ConsumeMoveAndEmit : Prop :=
  (∀ (o : Op) (f : Fields) (s : State), o ∈ [.nop, .drop, .perm, .fence] → Fires o f s → Does o f s (consumed f)) ∧
  (∀ (f : Fields) (s : State) (h : Hdr),
     (Fires .mov f s → (s.seen .mov f).header = .ok h →
       ((s.seen .mov f).a.kind = 0 →
         ∃ t, Does .mov f s (resulting f 1 t) ∧ t.kind = 0 ∧ t.side = (s.seen .mov f).a.side ∧
           t.fmt = (s.seen .mov f).a.fmt ∧ t.mask = h.mask ∧ t.psn = h.psn ∧ t.gen = h.gen ∧
           ∀ i < 8, t.lanes.get i = laneRead (s.seen .mov f).a i) ∧
       ((s.seen .mov f).a.kind ≠ 0 → Does .mov f s (resulting f 1 (s.seen .mov f).a))) ∧
     (Fires .emit f s → (s.seen .emit f).header = .ok h →
       let e := emitHead f.md (laneRead (s.seen .emit f).a 0)
       Does .emit f s (resulting f 1 ⟨Lanes.zero, 0, e.2, h.psn, 0, h.gen, 15, e.1⟩)))

/-- R139: PSET, PCLR and PLOG write a predicate, at the end of the firing cycle. -/
def Obligations.PredicateWrites : Prop :=
  ∀ (f : Fields) (s : State),
    (Fires .pset f s → Does .pset f s (resulting f 1 (oneTok 1 Hdr.none))) ∧
    (Fires .pclr f s → Does .pclr f s (resulting f 1 (oneTok 0 Hdr.none))) ∧
    (∀ (m n : Fin 8) (p : Pool), s.focus.pool = p → f.a = .imm m → f.b = .imm n → Fires .plog f s →
      let t := s.tile s.focus.tile
      Does .plog f s (resulting f 1 (oneTok (if logicTable f.md (t.pred p m) (t.pred p n) then 1 else 0) Hdr.none)))

/-- R140: CSET writes a counter; CINC adds to it, tells whether it has met B, and wraps it to zero there where it is told to.
R191: QPOST puts A at the end of the named queue of its core, and raises QUEUE_UNBOUND, posting nothing, where no template
is bound to it. Where the manual is silent it tells the choice of log entry 42. -/
def Obligations.CountersAndQueuePost : Prop :=
  (∀ (f : Fields) (s : State) (h : Hdr) (a b : Word), h.psn = false →
     let put (v : BitVec 32) : Tile → Tile := fun t => t.modPool s.focus.pool fun x =>
       if f.md.getLsbD 0 then { x with n1 := v } else { x with n0 := v }
     (Fires .cset f s → (s.seen .cset f).intA = .ok a → (s.seen .cset f).header = .ok h →
       Does .cset f s { consumed f with tile := put (a.setWidth 32) }) ∧
     (Fires .cinc f s → (s.seen .cinc f).intA = .ok a → (s.seen .cinc f).intB = .ok b → (s.seen .cinc f).header = .ok h →
       let x := (s.tile s.focus.tile).pool s.focus.pool
       let n := (if f.md.getLsbD 0 then x.n1 else x.n0) + a.setWidth 32
       let hit := n = b.setWidth 32
       let r := if f.d.isPred then oneTok (if hit then 1 else 0) h else oneTok (n.setWidth 64) h
       Does .cinc f s { resulting f 1 r with tile := put (if f.md.getLsbD 1 = true ∧ hit then 0 else n) })) ∧
  (∀ (f : Fields) (s : State) (h : Hdr) (b : Word), Fires .qpost f s → (s.seen .qpost f).intB = .ok b →
     (s.seen .qpost f).header = .ok h →
     let c := tileCore s.focus.tile
     let q := (b.extractLsb' 0 6).toNat
     (((s.core c).queue q).bound.isSome = true →
       ∃ t tok, exec (.qpost f) s = .next t ∧ ((t.core c).queue q).toks = ((s.core c).queue q).toks ++ [tok] ∧
         (∀ i < 8, tok.tok.lanes.get i = laneRead (s.seen .qpost f).a i) ∧ tok.tok.mask = (s.seen .qpost f).a.mask ∧
         tok.tok.psn = h.psn ∧ tok.tok.gen = h.gen ∧
         (∀ r, r ≠ q → (t.core c).queue r = (s.core c).queue r) ∧ (∀ d, d ≠ c → t.core d = s.core d) ∧ t.mem = s.mem) ∧
     (((s.core c).queue q).bound = none →
       exec (.qpost f) s = .next ((s.markActive s.focus.tile).raise s.focus.tile s.focus.pool s.focus.slot 0x43 h.gen
         (BitVec.ofNat 64 q) 0 0)))

/-- R279, R280, R348: TRAP raises its fault with lane 0 of A; EVT posts lane 0 of A and of B at once where its GEN is 0 and
no earlier event of its pool waits; YIELD sends a token of KIND 7 on each of the pool's channel outputs and pauses the pool;
HALT stops the pool. -/
def Obligations.PoolsReportAndStop : Prop :=
  ∀ (f : Fields) (s : State) (h : Hdr),
    let k := s.focus.tile
    let p := s.focus.pool
    (Fires .trap f s → (s.seen .trap f).header = .ok h →
      Does .trap f s { consumed f with
        after := some ⟨0x63, s.focus.slot, h.gen, laneRead (s.seen .trap f).a 0, BitVec.ofNat 64 h.gen.toNat, 0⟩ }) ∧
    (Fires .evt f s → (s.seen .evt f).header = .ok h → h.gen = 0 → ((s.tile k).pool p).evts = [] →
      2 * s.evq.held.length ≤ 4096 →
      ∃ (t : State) (e : Event), exec (.evt f) s = .next t ∧ t.evq.held = s.evq.held ++ [e] ∧ e.code = 0x64 ∧
        e.w3 = laneRead (s.seen .evt f).a 0 ∧ e.w4 = laneRead (s.seen .evt f).b 0 ∧ e.w5 = 0 ∧
        ((t.tile k).pool p).run = ((s.tile k).pool p).run ∧ t.mem = s.mem) ∧
    (Fires .yield f s →
      let x := (s.tile k).pool p
      let outs := [0, 1, 2, 3].filter fun n => decide (1 ≤ (x.out n).code ∧ (x.out n).code ≤ 4)
      let side := BitVec.ofNat 24 (k % 32 + k / 32 % 32 * 32 + p.code * 1024 + s.focus.slot * 4096)
      Does .yield f s { consumed f with
        outs := outs
        res := outs.map fun n => ⟨.out ⟨n % 4, Nat.mod_lt _ (by decide)⟩,
          some ⟨Lanes.zero, 0, side, false, 0, 0, 15, 7⟩, 1, 0⟩
        tile := fun t => t.modPool p fun x => { x with run := .yielded } }) ∧
    (p = .pe → Fires .halt f s →
      Does .halt f s { consumed f with tile := fun t => t.modPool p fun x => { x with run := .halted } })

/-! ### Routing, headers and lanes of the PE pool -/

/-- R142: SEL takes the source that the predicate chooses, with its own FMT, LMASK and PSN, and the GEN of both. -/
def Obligations.Select : Prop :=
  ∀ (f : Fields) (s : State) (h : Hdr), Fires .sel f s → (s.seen .sel f).header = .ok h →
    let c := s.seen .sel f
    let t := if (s.tile s.focus.tile).pred s.focus.pool f.md.toNat then c.a else c.b
    ∃ r, Does .sel f s (resulting f 1 r) ∧ r.fmt = t.fmt ∧ r.mask = t.mask ∧ r.psn = t.psn ∧ r.gen = h.gen ∧
      ∀ i < 8, r.lanes.get i = laneRead t i

/-- R143: STEER sends A to the output that bit 0 of the selector names, or drops it; a control head that the tag test admits
goes whole to both, and B then stays. -/
def Obligations.Steering : Prop :=
  ∀ (f : Fields) (s : State) (h : Hdr) (n : Fin 4), f.d = .out n → Fires .steer f s →
    let c := s.seen .steer f
    let fo := (f.md.extractLsb' 0 2).toNat
    let drop := f.md.getLsbD 2
    let sent (ns : List Nat) (t : Tok) : List Res :=
      ns.map fun m => ⟨.out ⟨m % 4, Nat.mod_lt _ (by decide)⟩, some t, 1, 0⟩
    (c.a.kind = 0 → c.header = .ok h → f.md.toNat ≤ 4 →
      let ns := if (laneRead c.b 0).getLsbD 0 then [n.val] else if drop then [] else [fo]
      ∃ t, Does .steer f s { consumed f with outs := ns, res := sent ns t } ∧ t.mask = h.mask ∧ t.psn = h.psn ∧
        t.gen = h.gen ∧ t.fmt = c.a.fmt ∧ ∀ i < 8, t.lanes.get i = if h.mask.getLsbD i then c.a.lanes.get i else 0) ∧
    (c.a.kind ≠ 0 → f.md.toNat ≤ 4 →
      let ns := if drop then [n.val] else [n.val, fo]
      Does .steer f s { pops := inputOf f.a, outs := ns, res := sent ns c.a })

/-- R144: without a tag test MERGE passes the arm that its control head chooses, and leaves the other; with one it joins
the heads of A, B and its control input. R145, R146, R148: DUP sends one token on each output it names, a head of another KIND than DATA whole; BARJ joins a head
of each joined input into one BARRIER on each output of the pool's channels; REQ sends requests up a pull channel, as many
as A names and the input has room for, and at least one. -/
def Obligations.MergesFansAndJoins : Prop :=
  (∀ (f : Fields) (s : State) (i j : Fin 4) (k : Tok) (h : Hdr), f.a = .inp i → f.b = .inp j → f.md.toNat < 4 →
     Fires .merge f s →
     let c := s.seen .merge f
     (c.x.inp f.md.toNat).head = some k →
     (∀ (n : Fin 4) (t : Tok), f.te = false → n = (if k.side.getLsbD 0 then i else j) → (c.x.inp n).head = some t →
       c.headerOf [t, k] = .ok h →
       Does .merge f s { resulting f 1 { t with psn := h.psn, gen := h.gen } with pops := [n.val, f.md.toNat] }) ∧
     (f.te = true → c.headerOf [c.a, c.b, k] = .ok h →
       Does .merge f s { resulting f 1 ⟨Lanes.zero, 0, k.side, h.psn, 0, h.gen, 15, f.tk⟩ with
         pops := [i.val, j.val, f.md.toNat] })) ∧
  (∀ (f : Fields) (s : State) (h : Hdr),
     let sent (ns : List Nat) (t : Tok) : List Res :=
       ns.map fun m => ⟨.out ⟨m % 4, Nat.mod_lt _ (by decide)⟩, some t, 1, 0⟩
     (∀ n : Fin 4, f.d = .out n → Fires .dup f s → (s.seen .dup f).header = .ok h →
       let ns := n.val :: ([0, 1, 2].filter fun k => f.md.getLsbD k).map fun k => (n.val + 1 + k) % 4
       ((s.seen .dup f).a.kind = 0 →
         ∃ t, Does .dup f s { consumed f with outs := ns, res := sent ns t } ∧ t.mask = h.mask ∧ t.psn = h.psn ∧
           t.gen = h.gen ∧ t.kind = 0 ∧ t.side = (s.seen .dup f).a.side ∧ t.fmt = (s.seen .dup f).a.fmt ∧
           ∀ i < 8, t.lanes.get i = laneRead (s.seen .dup f).a i) ∧
       ((s.seen .dup f).a.kind ≠ 0 →
         Does .dup f s { consumed f with outs := ns, res := sent ns (s.seen .dup f).a })) ∧
     (∀ (i : Nat) (js : List Nat), Fires .barj f s → s.joined s.focus.tile s.focus.pool = i :: js →
       let c := s.seen .barj f
       let hd (n : Nat) : Tok := (c.x.inp n).head.getD zeroTok
       c.headerOf ((i :: js).map hd) = .ok h →
       let ns := [0, 1, 2, 3].filter fun n => decide ((1 ≤ (c.x.out n).code ∧ (c.x.out n).code ≤ 4) ∨ (c.x.out n).code = 6)
       Does .barj f s { pops := i :: js, outs := ns, res := sent ns ⟨Lanes.zero, 0, (hd i).side, false, 0, h.gen, 15, 2⟩ }) ∧
     (∀ (ch : Nat) (y : Chan), Fires .req f s →
       let a := laneRead (s.seen .req f).a 0
       let n := f.md.toNat % 4
       let x := (s.tile s.focus.tile).pool s.focus.pool
       (x.inp n).chan = some ch → n < x.ins.length → Tab.get? s.chans ch = some y →
       let room := (x.inp n).depth - (x.inp n).reqOut - (x.inp n).queue.length
       let m := max 1 (min (a.toNat % 64) room)
       ∃ t, exec (.req f) s = .next t ∧ (((t.tile s.focus.tile).pool s.focus.pool).inp n).reqOut = (x.inp n).reqOut + m ∧
         (Tab.get? t.chans ch).map (·.reqBack) = some (y.reqBack + m) ∧ t.mem = s.mem))

/-- R149: the lane instructions move whole lanes; the result keeps the FMT of A. R150, R151: TAGSET rewrites one field of A's
header and keeps payload and GEN, with the bits of SIDE that R124 marks zero as zero; KINDP tells whether the head is of the KIND that MD names. -/
def Obligations.LanesAndHeaders : Prop :=
  (∀ (o : Op) (f : Fields) (s : State) (h : Hdr), o ∈ [.lperm, .lrot, .lbc, .lins, .lext] → f.md.toNat ∈ o.mds →
     Fires o f s → (s.seen o f).header = .ok h →
     let c := s.seen o f
     let m := laneMove o f.md c.a c.b c.d
     ∃ t, Does o f s (resulting f 1 t) ∧ LanesAre t m.1 m.2 ∧ t.fmt = c.a.fmt ∧ t.psn = h.psn ∧ t.gen = h.gen) ∧
  (∀ (f : Fields) (s : State),
     (Fires .tagset f s →
       let a := (s.seen .tagset f).a
       let x := laneRead (s.seen .tagset f).b 0
       let side := normSide a.kind a.fmt a.side
       (f.md = 0 → Does .tagset f s (resulting f 1 
         { a with kind := x.extractLsb' 0 3, side := normSide (x.extractLsb' 0 3) a.fmt (x.extractLsb' 3 24) })) ∧
       (f.md = 1 → Does .tagset f s (resulting f 1 { a with mask := x.extractLsb' 0 8, side := side })) ∧
       (f.md = 2 → (x.toNat % 16 < 7 ∨ x.toNat % 16 = 15) →
         Does .tagset f s (resulting f 1 { a with
           fmt := x.extractLsb' 0 4, side := normSide a.kind (x.extractLsb' 0 4) a.side })) ∧
       (f.md = 2 → 7 ≤ x.toNat % 16 → x.toNat % 16 ≠ 15 →
         exec (.tagset f) s = .next ((s.markActive s.focus.tile).raise s.focus.tile s.focus.pool s.focus.slot 0x32 a.gen
           (BitVec.ofNat 64 (x.toNat % 16)) 0 0)) ∧
       (f.md = 3 → Does .tagset f s (resulting f 1 { a with psn := x.getLsbD 0, side := side }))) ∧
     (Fires .kindp f s →
       let a := (s.seen .kindp f).a
       Does .kindp f s (resulting f 1 (oneTok (if a.kind = f.md then 1 else 0) ⟨1, false, a.gen⟩))))

/-! ### Integer and address instructions -/

/-- R152, R153: the integer instructions whose operands are read at the width of MD. -/
def Obligations.SizedIntegerResults : Prop :=
  ∀ (o : Op) (f : Fields) (s : State) (a b d : Tok) (h : Hdr), o ∈ sizedOps → f.md.toNat ∈ o.mds → Fires o f s →
    Sources (s.seen o f) .int a b d h →
    ∃ r, Does o f s (resulting f (intLatency o) r) ∧ r.fmt = (if f.md.getLsbD 0 then 2 else 1) ∧ r.mask = h.mask ∧
      r.psn = h.psn ∧ r.gen = h.gen ∧
      ∀ i < 8, r.lanes.get i =
        if h.mask.getLsbD i then
          sizedLane o f.md (a.lanes.get i) (b.lanes.get i) (if o.shape = .c then d.lanes.get i else 0)
        else 0

/-- R152, R153: the logic, counting and bit-field instructions. -/
def Obligations.BitResults : Prop :=
  ∀ (o : Op) (f : Fields) (s : State) (a b d : Tok) (h : Hdr), o ∈ bitOps → f.md.toNat ∈ o.mds → Fires o f s →
    Sources (s.seen o f) .int a b d h →
    ∃ r, Does o f s (resulting f 1 r) ∧ r.fmt = intResultFmt o f.md a.fmt ∧ r.mask = h.mask ∧ r.psn = h.psn ∧
      r.gen = h.gen ∧
      ∀ i < 8, r.lanes.get i =
        if h.mask.getLsbD i then
          bitLane o f.md (a.lanes.get i) (b.lanes.get i) (if o.shape = .c then d.lanes.get i else 0)
        else 0

/-- R154, R156, R157: the compares and lane tests. A data D takes all ones or zero in each valid lane, a predicate D the
outcome; ICMP's is that of every valid lane, of which there must be one. -/
def Obligations.Compares : Prop :=
  ∀ (f : Fields) (s : State) (a b : Tok) (h : Hdr),
    (∀ d, Fires .icmp f s → Sources (s.seen .icmp f) .int a b d h →
      ∃ r, Does .icmp f s (resulting f 1 r) ∧ r.psn = h.psn ∧ r.gen = h.gen ∧
        (f.d.isPred = false → r.mask = h.mask ∧ r.fmt = 1 ∧ ∀ i < 8, h.mask.getLsbD i = true →
          (compareTable f.md (a.lanes.get i) (b.lanes.get i) → r.lanes.get i = BitVec.allOnes 64) ∧
          (¬compareTable f.md (a.lanes.get i) (b.lanes.get i) → r.lanes.get i = 0)) ∧
        (f.d.isPred = true → (r.lanes.l0.getLsbD 0 = true ↔ (∃ i < 8, h.mask.getLsbD i = true) ∧
          ∀ i < 8, h.mask.getLsbD i = true → compareTable f.md (a.lanes.get i) (b.lanes.get i)))) ∧
    (∀ d, f.md.toNat < 4 → Fires .cmpa f s → Sources (s.seen .cmpa f) .int a b d h →
      let yes := addressTable f.md (a.lanes.l0.setWidth 32) (b.lanes.l0.setWidth 32)
      ∃ w, Does .cmpa f s (resulting f 1 (oneTok w h)) ∧
        (f.d.isPred = true → (w.getLsbD 0 = true ↔ yes)) ∧
        (f.d.isPred = false → (yes → w = BitVec.allOnes 64) ∧ (¬yes → w = 0))) ∧
    (f.md.toNat < 4 → Fires .plane f s → (s.seen .plane f).convB .int = .ok b → (s.seen .plane f).header = .ok h →
      ∃ w, Does .plane f s (resulting f 1 (oneTok w h)) ∧
        (w.getLsbD 0 = true ↔ laneTest f.md (s.seen .plane f).a b.lanes.l0))

/-- R155: the address instructions work on 32-bit values and write aD at the end of the firing cycle; WRAPA steps the old
aD by A and takes B off once where the sum reaches it. -/
def Obligations.AddressRegisters : Prop :=
  ∀ (f : Fields) (s : State) (h : Hdr) (a b : Word) (n : Fin 8), f.d = .areg n →
    let old := ((s.tile s.focus.tile).pool s.focus.pool).a.getD n.val 0
    let x := a.setWidth 32
    let y := b.setWidth 32
    (Fires .mova f s → (s.seen .mova f).intA = .ok a → (s.seen .mova f).intB = .ok b → (s.seen .mova f).header = .ok h →
      Does .mova f s (resulting f 1 (oneTok (x.setWidth 64) h))) ∧
    (Fires .adda f s → (s.seen .adda f).intA = .ok a → (s.seen .adda f).intB = .ok b → (s.seen .adda f).header = .ok h →
      Does .adda f s (resulting f 1 (oneTok ((x + y).setWidth 64) h))) ∧
    (Fires .wrapa f s → (s.seen .wrapa f).intA = .ok a → (s.seen .wrapa f).intB = .ok b →
      (s.seen .wrapa f).header = .ok h →
      let t := old.toNat + x.toNat
      let v := if y ≠ 0 ∧ y.toNat ≤ t then t - y.toNat else t
      Does .wrapa f s (resulting f 1 (oneTok ((BitVec.ofNat 32 v).setWidth 64) h)))

/-! ### WF arithmetic, conversion, reduction and sampling -/

/-- R161: the WF encoding of an exact value is that of round_wf. -/
def Obligations.RoundingIsExact : Prop :=
  ∀ (m e : ℤ) (rm : Nat), rm < 4 → roundWf m e rm = roundQ rm ((m : ℚ) * (2 : ℚ) ^ e)

/-- R213, R215, R218: WF arithmetic is the arithmetic of real numbers, rounded once, with the rules for NaN and the
infinities; the result comes four cycles later. -/
def Obligations.FloatResults : Prop :=
  ∀ (o : Op) (f : Fields) (s : State) (a b d : Tok) (h : Hdr), o ∈ floatOps → f.md.toNat ∈ o.mds → Fires o f s →
    Sources (s.seen o f) .wf a b d h →
    ∃ r, Does o f s (resulting f 4 r) ∧ HasHead r h 0 ∧
      ∀ i < 8, r.lanes.get i =
        if h.mask.getLsbD i then
          (floatTable o f.md.toNat (Tok.ext a i) (Tok.ext b i) (if o.shape = .c then Tok.ext d i else .num 0)).word
            (if o ∈ [.fneg, .fabs, .frnd] then 0 else f.md.toNat)
        else 0

/-- R214, R216, R217: FMIN, FMAX and FCLAMP choose among their operands, and FCMP tests them, by the order of real numbers
with NaN below and the infinities outside. Where the manual is silent it tells the choice of log entry 27. -/
def Obligations.FloatSelections : Prop :=
  ∀ (f : Fields) (s : State) (a b d : Tok) (h : Hdr),
    let x := Tok.ext a
    let y := Tok.ext b
    let z := Tok.ext d
    (f.md = 0 → Fires .fmin f s → Sources (s.seen .fmin f) .wf a b d h →
      ∃ r, Does .fmin f s (resulting f 4 r) ∧ HasHead r h 0 ∧ ∀ i < 8, h.mask.getLsbD i = true →
        ((x i = .nan ∨ y i = .nan) → r.lanes.get i = wfNaN) ∧
        (x i ≠ .nan → y i ≠ .nan → (y i).below (x i) → r.lanes.get i = (y i).word 0) ∧
        (x i ≠ .nan → y i ≠ .nan → ¬(y i).below (x i) → r.lanes.get i = (x i).word 0)) ∧
    (f.md = 0 → Fires .fmax f s → Sources (s.seen .fmax f) .wf a b d h →
      ∃ r, Does .fmax f s (resulting f 4 r) ∧ HasHead r h 0 ∧ ∀ i < 8, h.mask.getLsbD i = true →
        ((x i).below (y i) → r.lanes.get i = (y i).word 0) ∧ (¬(x i).below (y i) → r.lanes.get i = (x i).word 0)) ∧
    (f.md = 0 → Fires .fclamp f s → Sources (s.seen .fclamp f) .wf a b d h →
      ∃ r, Does .fclamp f s (resulting f 4 r) ∧ HasHead r h 0 ∧ ∀ i < 8, h.mask.getLsbD i = true →
        let nan := x i = .nan ∨ y i = .nan ∨ z i = .nan
        (nan → r.lanes.get i = wfNaN) ∧
        (¬nan → ((z i).below (y i) ∨ (x i).below (y i)) → r.lanes.get i = (y i).word 0) ∧
        (¬nan → ¬(z i).below (y i) → (z i).below (x i) → r.lanes.get i = (z i).word 0) ∧
        (¬nan → ¬(x i).below (y i) → ¬(z i).below (x i) → r.lanes.get i = (x i).word 0)) ∧
    (f.md.toNat < 6 → Fires .fcmp f s → Sources (s.seen .fcmp f) .wf a b d h →
      ∃ r, Does .fcmp f s (resulting f 4 r) ∧
        (f.d.isPred = false → HasHead r h 1 ∧ ∀ i < 8, h.mask.getLsbD i = true →
          (floatTest f.md (x i) (y i) → r.lanes.get i = BitVec.allOnes 64) ∧
          (¬floatTest f.md (x i) (y i) → r.lanes.get i = 0)) ∧
        (f.d.isPred = true → (r.lanes.l0.getLsbD 0 = true ↔ (∃ i < 8, h.mask.getLsbD i = true) ∧
          ∀ i < 8, h.mask.getLsbD i = true → floatTest f.md (x i) (y i))))

/-- R218: FSCL multiplies by a power of two, FXP gives the exponent and FMANT the rest, so that the two make up the
number. -/
def Obligations.ScaleAndParts : Prop :=
  ∀ (f : Fields) (s : State) (a b : Tok) (h : Hdr), f.md = 0 →
    (Fires .fscl f s → (s.seen .fscl f).convA .wf = .ok a → (s.seen .fscl f).convB .int = .ok b →
      (s.seen .fscl f).header = .ok h →
      ∃ r, Does .fscl f s (resulting f 4 r) ∧ HasHead r h 0 ∧ ∀ i < 8, h.mask.getLsbD i = true →
        let n := min (max (b.lanes.get i).toInt (-(2 ^ 20))) (2 ^ 20)
        r.lanes.get i = match Tok.ext a i with
          | .num q => roundQ 0 (q * (2 : ℚ) ^ n)
          | x => x.word 0) ∧
    (Fires .fxp f s → (s.seen .fxp f).convA .wf = .ok a → (s.seen .fxp f).header = .ok h →
      ∃ r, Does .fxp f s (resulting f 4 r) ∧ HasHead r h 1 ∧ ∀ i < 8, h.mask.getLsbD i = true →
        r.lanes.get i = match Tok.ext a i with
          | .num q => if q = 0 then BitVec.intMin 64 else BitVec.ofInt 64 (Int.log 2 |q|)
          | _ => BitVec.intMax 64) ∧
    (Fires .fmant f s → (s.seen .fmant f).convA .wf = .ok a → (s.seen .fmant f).convB .wf = .ok b →
      (s.seen .fmant f).header = .ok h →
      ∃ r, Does .fmant f s (resulting f 4 r) ∧ HasHead r h 0 ∧ ∀ i < 8, h.mask.getLsbD i = true →
        r.lanes.get i = match Tok.ext a i with
          | .num q => roundQ 0 (q / (2 : ℚ) ^ (Int.log 2 |q|))
          | x => x.word 0)

/-- R219, R220: the transcendental instructions give each lane the WF value of their function, twelve cycles later; the
values that the functions take at NaN, at the infinities, at zero and outside their domain, and the exact powers of two
of FEXP2. -/
def Obligations.Transcendentals : Prop :=
  (∀ (o : Op) (g : Val → Val) (f : Fields) (s : State) (a b d : Tok) (h : Hdr),
    (o, g) ∈ ([(.frcp, frcp), (.frsq, frsq), (.fsqrt, fsqrt), (.fexp2, fexp2), (.flog2, flog2), (.fexp, fexp),
      (.ftanh, ftanh)] : List (Op × (Val → Val))) →
    Fires o f s → Sources (s.seen o f) .wf a b d h →
    ∃ r, Does o f s (resulting f 12 r) ∧ HasHead r h 0 ∧ ∀ i < 8, h.mask.getLsbD i = true →
      r.lanes.get i = (g (Val.ofWf (a.lanes.get i))).ext.word 0) ∧
  (∀ x : Val, (x.ext = .nan → ∀ g ∈ [frcp, frsq, fsqrt, fexp2, flog2, fexp, ftanh], (g x).ext = .nan) ∧
    (x.ext = .inf false → (frcp x).ext = .num 0 ∧ (frsq x).ext = .num 0 ∧ (fsqrt x).ext = .inf false ∧
      (fexp2 x).ext = .inf false ∧ (flog2 x).ext = .inf false ∧ (fexp x).ext = .inf false ∧ (ftanh x).ext = .num 1) ∧
    (x.ext = .inf true → (frcp x).ext = .num 0 ∧ (frsq x).ext = .nan ∧ (fsqrt x).ext = .nan ∧ (fexp2 x).ext = .num 0 ∧
      (flog2 x).ext = .nan ∧ (fexp x).ext = .num 0 ∧ (ftanh x).ext = .num (-1)) ∧
    (x.ext = .num 0 → (frcp x).ext = .inf false ∧ (frsq x).ext = .inf false ∧ (fsqrt x).ext = .num 0 ∧
      (fexp2 x).ext = .num 1 ∧ (flog2 x).ext = .inf true ∧ (fexp x).ext = .num 1) ∧
    (∀ q < 0, x.ext = .num q → (frsq x).ext = .nan ∧ (fsqrt x).ext = .nan ∧ (flog2 x).ext = .nan) ∧
    (∀ q, x.ext = .num q → |q| < 1 / 2 ^ 16 → ftanh x = x) ∧
    (∀ q, x.ext = .num q → 32 ≤ q → (ftanh x).ext = .num 1) ∧
    (∀ n : ℤ, -8191 ≤ n → n ≤ 8191 → x.ext = .num n → (fexp2 x).ext = .num ((2 : ℚ) ^ n)))

/-- R221 to R223: the conversions between integers, WF, aligned blocks and the grids of storage formats. -/
def Obligations.Conversions : Prop :=
  ∀ (f : Fields) (s : State) (a b : Tok) (h : Hdr),
    (Fires .cvtif f s → (s.seen .cvtif f).convA .int = .ok a → (s.seen .cvtif f).header = .ok h →
      ∃ r, Does .cvtif f s (resulting f 4 r) ∧ HasHead r h 0 ∧ ∀ i < 8, h.mask.getLsbD i = true →
        r.lanes.get i = roundQ (f.md.toNat % 4)
          (if f.md.getLsbD 2 then ((a.lanes.get i).toNat : ℚ) else ((a.lanes.get i).toInt : ℚ))) ∧
    (Fires .cvtfi f s → (s.seen .cvtfi f).convA .wf = .ok a → (s.seen .cvtfi f).header = .ok h →
      let w := if f.md.getLsbD 2 then 32 else 64
      ∃ r, Does .cvtfi f s (resulting f 4 r) ∧ HasHead r h (if f.md.getLsbD 2 then 2 else 1) ∧
        ∀ i < 8, h.mask.getLsbD i = true → r.lanes.get i = match Tok.ext a i with
          | .nan => 0
          | .inf true => BitVec.ofInt 64 (-2 ^ (w - 1))
          | .inf false => BitVec.ofInt 64 (2 ^ (w - 1) - 1)
          | .num q => BitVec.ofInt 64 (max (-2 ^ (w - 1)) (min (2 ^ (w - 1) - 1) (roundInt (f.md.toNat % 4) q)))) ∧
    (Fires .qblk f s → (s.seen .qblk f).convA .wf = .ok a → (s.seen .qblk f).header = .ok h →
      let bits := if f.md.getLsbD 0 then 4 else 8
      ∃ (r : Tok) (x : ℤ) (qs : List ℤ), Does .qblk f s (resulting f 4 r) ∧
        alignBlock ((List.range 8).map fun i => Val.ofWf (a.lanes.get i)) bits (f.md.toNat / 2) true = (x, qs) ∧
        r.fmt = (if f.md.getLsbD 0 then 5 else 4) ∧ (r.side.extractLsb' 0 12).toInt = x ∧
        (r.side.extractLsb' 12 12).toInt = -2047 ∧ (r.mask = if h.mask = 0 then 0 else 1) ∧
        (h.mask ≠ 0 → ∀ i < 8, (r.lanes.l0.extractLsb' (bits * i) bits).toInt = qs.getD i 0) ∧
        ((∃ i < 8, Tok.ext a i = .nan ∨ ∃ n, Tok.ext a i = .inf n) → x = -2048)) ∧
    (Fires .dqblk f s → (s.seen .dqblk f).convA .aligned = .ok a → (s.seen .dqblk f).header = .ok h → a.fmt = 4 →
      let g := f.md.toNat
      let x : ℤ := (a.side.extractLsb' (if g < 4 then 0 else 12) 12).toInt
      ∃ r, Does .dqblk f s (resulting f 4 r) ∧
        HasHead r { h with mask := if a.mask.getLsbD g then 0xFF else 0 } 0 ∧
        (a.mask.getLsbD g = true → ∀ i < 8, r.lanes.get i =
          if x = -2048 then wfNaN
          else roundQ 0 ((((a.lanes.get g).extractLsb' (8 * i) 8).toInt : ℚ) * (2 : ℚ) ^ (x - 6)))) ∧
    (Fires .fmtq f s → (s.seen .fmtq f).convA .wf = .ok a → (s.seen .fmtq f).convB .wf = .ok b →
      (s.seen .fmtq f).header = .ok h →
      ∃ r, Does .fmtq f s (resulting f 4 r) ∧ HasHead r h 0 ∧ ∀ i < 8, h.mask.getLsbD i = true →
        (Tok.ext a i = .nan → r.lanes.get i = wfNaN) ∧
        (Tok.ext a i ≠ .nan → ∃ c, (encodeElem (fmtqCode f.md.toNat) (Val.ofWf (a.lanes.get i)) 0 false).1 = c ∧
          r.lanes.get i = (decodeElem (fmtqCode f.md.toNat) c).ext.word 0))

/-- R224: RSUM adds the eight lanes in its tree, rounding at every node; RMAX and RMIN give a valid lane that no valid lane
ranks above, or below; RARGMX gives the best pair of its candidates. -/
def Obligations.Reductions : Prop :=
  ∀ (f : Fields) (s : State) (a : Tok) (h : Hdr),
    let bc := f.md.getLsbD 2
    let placed (r : Tok) (w : Word) : Prop := r.fmt = 0 ∧ r.psn = h.psn ∧ r.gen = h.gen ∧
      (a.mask = 0 → r.mask = 0 ∧ ∀ i < 8, r.lanes.get i = 0) ∧
      (a.mask ≠ 0 → r.mask = (if bc then 0xFF else 1) ∧ ∀ i < 8, r.lanes.get i = if bc = true ∨ i = 0 then w else 0)
    (Fires .rsum f s → (s.seen .rsum f).convA .wf = .ok a → (s.seen .rsum f).header = .ok h →
      let rm := f.md.toNat % 4
      let x := Tok.ext a
      let p (u v : Ext) : Ext := (u.add v).round rm
      ∃ r, Does .rsum f s (resulting f 6 r) ∧
        placed r ((p (p (p (x 0) (x 1)) (p (x 2) (x 3))) (p (p (x 4) (x 5)) (p (x 6) (x 7)))).word 0)) ∧
    (Fires .rmax f s → (s.seen .rmax f).convA .wf = .ok a → (s.seen .rmax f).header = .ok h →
      ∃ (r : Tok) (w : Word), Does .rmax f s (resulting f 6 r) ∧ placed r w ∧
        (a.mask ≠ 0 → ∃ j < 8, a.mask.getLsbD j = true ∧ w = (Tok.ext a j).word 0 ∧
          ∀ i < 8, a.mask.getLsbD i = true → ¬(Tok.ext a j).below (Tok.ext a i))) ∧
    (Fires .rmin f s → (s.seen .rmin f).convA .wf = .ok a → (s.seen .rmin f).header = .ok h →
      ∃ (r : Tok) (w : Word), Does .rmin f s (resulting f 6 r) ∧ placed r w ∧
        (a.mask ≠ 0 → ∃ j < 8, a.mask.getLsbD j = true ∧ w = (Tok.ext a j).word 0 ∧
          ∀ i < 8, a.mask.getLsbD i = true → ¬(Tok.ext a i).below (Tok.ext a j))) ∧
    (let vid := (s.seen .rargmx f).a.fmt = 6
     Fires .rargmx f s → (s.seen .rargmx f).convA (if vid then .vid else .wf) = .ok a →
      (s.seen .rargmx f).header = .ok h →
      ∃ (r : Tok) (l : List VPair), Does .rargmx f s (resulting f 6 r) ∧
        RankedFrom (if vid then pairsOf a else lanePairs a 0) l ∧
        HasPairs r fun n => if n = 0 then l.head? else none)

/-- R225 to R229: SMUP adds a beat of scores to the state in D, or with `.init` to an empty state with the key of B; SMRG
merges a partial state into that in D, under D's key; with `.ord` it takes the oldest partial whose key follows D's, from
wherever it stands in the input, under that key; SMFIN gives the reciprocal of the sum and the log of the whole. Where the
manual is silent it tells the choice of log entry 27. -/
def Obligations.SoftmaxStates : Prop :=
  ∀ (f : Fields) (s : State) (a b d : Tok) (h : Hdr),
    let lanesOf (r : Tok) (x : Soft) : Prop := r.fmt = 0 ∧ r.mask = 0x1F ∧ r.psn = h.psn ∧ r.gen = h.gen ∧
      ∀ i < 8, r.lanes.get i = (([x.m, x.s, x.ad, x.aa, x.key].map fun v => v.ext.word 0).getD i 0)
    let old := Soft.of d
    let part := Soft.of a
    let init := Soft.empty (Val.ofWf b.lanes.l0)
    (f.md = 0 → Fires .smup f s → Sources (s.seen .smup f) .wf a b d h →
      ∃ (r : Tok) (x : Soft), exec (.smup f) s = .next (s.commit (s.seen .smup f) (resulting f 6 r)) ∧ lanesOf r x ∧
        SmupOf old a x) ∧
    (f.md = 1 → Fires .smup f s → (s.seen .smup f).convA .wf = .ok a → (s.seen .smup f).convB .wf = .ok b →
      (s.seen .smup f).headerOf ([f.a, f.b].filterMap fun x =>
        if isHeaderSrc x then some ((s.seen .smup f).x.source x) else none) = .ok h →
      ∃ (r : Tok) (x : Soft), exec (.smup f) s = .next (s.commit (s.seen .smup f) (resulting f 6 r)) ∧ lanesOf r x ∧
        SmupOf init a x ∧ (a.mask = 0 → x = init)) ∧
    (Fires .smrg f s → (s.seen .smrg f).convA .wf = .ok a → (s.seen .smrg f).convD .wf = .ok d →
      (s.seen .smrg f).header = .ok h →
      ∃ (r : Tok) (x : Soft), exec (.smrg f) s = .next (s.commit (s.seen .smrg f) (resulting f 6 r)) ∧ lanesOf r x ∧
        SmrgOf old part old.key x) ∧
    (∀ (i : Fin 4) (n : Nat) (t : Tok), f.a = .inp i → Fires .smrgOrd f s →
      OldestNext (s.seen .smrgOrd f).d ((s.seen .smrgOrd f).x.inp i.val).queue n t →
      (s.seen .smrgOrd f).convD .wf = .ok d → (s.seen .smrgOrd f).conv none t .wf = .ok a →
      (s.seen .smrgOrd f).headerOf [t, (s.seen .smrgOrd f).d] = .ok h →
      ∃ (r : Tok) (x : Soft), lanesOf r x ∧ SmrgOf old part part.key x ∧
        exec (.smrgOrd f) s = .next (s.commit (s.seen .smrgOrd f)
          { resulting f 6 r with
            pops := []
            tile := fun t' => t'.modPool s.focus.pool fun x =>
              { x with ins := x.ins.modify i fun q => { q with queue := q.queue.eraseIdx n } }
            eff := fun s1 => s1.creditFor (s.seen .smrgOrd f).x i })) ∧
    (Fires .smfin f s → (s.seen .smfin f).convA .wf = .ok a → (s.seen .smfin f).header = .ok h →
      ∃ r, exec (.smfin f) s = .next (s.commit (s.seen .smfin f) (resulting f 6 r)) ∧
        HasHead r { h with mask := 3 } 0 ∧
        (part.isNan = true → r.lanes.get 0 = wfNaN ∧ r.lanes.get 1 = wfNaN) ∧
        (part.isNan = false → r.lanes.get 0 = (frcp part.s).ext.word 0 ∧
          r.lanes.get 1 = ((part.m.ext.add (flog2 part.s).ext).round 0).word 0))

/-- R230 to R235: HASH and GUMB lane by lane; TOPKI keeps the four best of its candidates in ranking order; TKOUT takes a
state apart; ARGMC keeps the better of each two pairs. -/
def Obligations.Sampling : Prop :=
  ∀ (f : Fields) (s : State) (a b d : Tok) (h : Hdr),
    (Fires .hash f s → (s.seen .hash f).header = .ok h →
      ∃ r, Does .hash f s (resulting f 12 r) ∧ HasHead r h 3 ∧ ∀ i < 8, h.mask.getLsbD i = true →
        r.lanes.get i = hash64 (laneRead (s.seen .hash f).a i) (laneRead (s.seen .hash f).b i)) ∧
    (Fires .gumb f s → (s.seen .gumb f).convA .wf = .ok a → (s.seen .gumb f).header = .ok h →
      ∃ r, Does .gumb f s (resulting f 12 r) ∧ HasHead r h 0 ∧ ∀ i < 8, h.mask.getLsbD i = true →
        r.lanes.get i = (gumb (Val.ofWf (a.lanes.get i)) (laneRead (s.seen .gumb f).b i)).ext.word 0 ∧
        ((∀ q, Tok.ext a i ≠ .num q) → r.lanes.get i = (Tok.ext a i).word 0)) ∧
    (f.md.toNat < 4 → Fires .topki f s →
      (s.seen .topki f).convA (if f.md.getLsbD 1 then .vid else .wf) = .ok a → (s.seen .topki f).convB .int = .ok b →
      (if f.md.getLsbD 0 then d = zeroTok ∧ (s.seen .topki f).headerOf ([f.a, f.b].filterMap fun x =>
          if isHeaderSrc x then some ((s.seen .topki f).x.source x) else none) = .ok h
        else (s.seen .topki f).convD .vid = .ok d ∧ (s.seen .topki f).header = .ok h) →
      ∃ (r : Tok) (l : List VPair), Does .topki f s (resulting f 12 r) ∧ r.psn = h.psn ∧ r.gen = h.gen ∧
        RankedFrom ((if f.md.getLsbD 1 then pairsOf a else lanePairs a b.lanes.l0) ++ pairsOf d) l ∧
        HasPairs r fun n => l[n]?) ∧
    (f.md.toNat < 3 → Fires .tkout f s → (s.seen .tkout f).convA .vid = .ok a → (s.seen .tkout f).header = .ok h →
      ∃ r, Does .tkout f s (resulting f 12 r) ∧ r.psn = h.psn ∧ r.gen = h.gen ∧
        (f.md = 2 → HasPairs r fun n => if n = 0 then pairOf a 0 else none) ∧
        (f.md ≠ 2 → r.fmt = (if f.md = 0 then 1 else 0) ∧ ∀ n < 8,
          (r.mask.getLsbD n = true ↔ n < 4 ∧ (pairOf a n).isSome = true) ∧
          ∀ q, n < 4 → pairOf a n = some q → r.lanes.get n = if f.md = 0 then q.id else q.v.ext.word 0)) ∧
    (Fires .argmc f s → (s.seen .argmc f).convA .vid = .ok a → (s.seen .argmc f).convB .vid = .ok b →
      (s.seen .argmc f).header = .ok h →
      ∃ (r : Tok) (p : Nat → Option VPair), Does .argmc f s (resulting f 12 r) ∧ r.psn = h.psn ∧ r.gen = h.gen ∧
        HasPairs r p ∧ ∀ n < 4, match p n with
          | none => pairOf a n = none ∧ pairOf b n = none
          | some q => (pairOf a n = some q ∨ pairOf b n = some q) ∧
            (∀ u, pairOf a n = some u → u.above q = false) ∧ (∀ u, pairOf b n = some u → u.above q = false))

/-! ### Memory -/

/-- R257, R260 to R265, R267: the on-chip memory instructions of the PE pool take a request place with the accesses that
their operands name, in lane or address order. Where the manual is silent it tells the choice of log entries 19, 44
and 45. -/
def Obligations.OnChipRequests : Prop :=
  ∀ (f : Fields) (s : State) (h : Hdr),
    let k := s.focus.tile
    let sp := f.md.toNat % 4
    let a (o : Op) : Nat → Nat := fun i => (laneRead (s.seen o f).a i).toNat
    let b (o : Op) : Nat → Nat := fun i => (laneRead (s.seen o f).b i).toNat
    let ready (o : Op) : Prop := Fires o f s ∧ (s.seen o f).header = .ok h
    let noPsnA (o : Op) : Prop := (s.seen o f).a.psn = false
    let noPsnB (o : Op) : Prop := (s.seen o f).b.psn = false
    (∀ o ∈ ([.ld, .ldf, .lde, .feq] : List Op), (f.md.getLsbD 2 = false ∨ o = .feq) → ready o → noPsnA o → noPsnB o →
      let w := (a o 0 + b o 0) % 2 ^ 32
      w % 8 = 0 → OnChip s k sp w 8 → (o ≠ .ld → ∀ i < 8, NoKvWord s k sp (w + i)) →
      ∃ r, Asks o f s h r [f.d] ∧ r.accs = [⟨0, sp, w⟩] ∧ r.beat = true) ∧
    (ready .ld → f.md.getLsbD 2 = true → noPsnA .ld → noPsnB .ld →
      let w : Nat → Nat := fun i => (a .ld i + b .ld 0) % 2 ^ 32
      (∀ i ∈ lanesOf (s.seen .ld f).a.mask, OnChip s k sp (w i) 1) →
      ∃ r, Asks .ld f s h r [f.d] ∧ r.accs = (lanesOf (s.seen .ld f).a.mask).map (fun i => ⟨i, sp, w i⟩) ∧ r.beat = false) ∧
    (∀ n, f.a = .areg n → ready .ldch → noPsnA .ldch → noPsnB .ldch →
      let w := a .ldch 0 % 2 ^ 32
      w % 8 = 0 → OnChip s k sp w 8 →
      ∃ r, Asks .ldch f s h r [f.d, .areg n] ∧ r.accs = [⟨0, sp, w⟩] ∧ r.beat = true ∧
        ∀ i < 8, r.opb.lanes.get i = laneRead (s.seen .ldch f).b i) ∧
    (ready .ldx → noPsnA .ldx → noPsnB .ldx →
      let e := (a .ldx 0 + b .ldx 0) % 2 ^ 32
      OnChip s k sp (e / 2) ((e + 7) / 2 - e / 2 + 1) →
      ∃ r, Asks .ldx f s h r [f.d] ∧ (∀ x ∈ r.accs, x.space = sp) ∧
        (r.accs.map (·.addr)).Nodup ∧ ∀ w, w ∈ r.accs.map (·.addr) ↔ ∃ i < 8, w = (e + i) / 2) ∧
    (ready .lls → noPsnA .lls → noPsnB .lls →
      let w : Nat → Nat := fun i => (a .lls i + b .lls 0) % 2 ^ 32
      (∀ i ∈ lanesOf (s.seen .lls f).a.mask, w i < 256) →
      ∃ r, Asks .lls f s h r [f.d] ∧ r.accs = (lanesOf (s.seen .lls f).a.mask).map (fun i => ⟨i, 4, w i⟩)) ∧
    (∀ o ∈ ([.st, .stf, .ste] : List Op), f.md.getLsbD 2 = false → ready o → noPsnB o →
      let w := b o 0 % 2 ^ 32
      w % 8 = 0 → OnChip s k sp w 8 → (∀ i < 8, NoKvWord s k sp (w + i)) →
      ∃ r, Asks o f s h r [] ∧ r.accs = (if (s.seen o f).a.mask = 0 then [] else [⟨0, sp, w⟩]) ∧ r.beat = true ∧
        r.dat = (s.seen o f).a) ∧
    (ready .st → f.md.getLsbD 2 = true → noPsnB .st →
      let l := lanesOf ((s.seen .st f).a.mask &&& (s.seen .st f).b.mask)
      let w : Nat → Nat := fun i => b .st i % 2 ^ 32
      (∀ i ∈ l, OnChip s k sp (w i) 1 ∧ NoKvWord s k sp (w i)) →
      ∃ r, Asks .st f s h r [] ∧ r.accs = l.map (fun i => ⟨i, sp, w i⟩) ∧ r.beat = false ∧ r.dat = (s.seen .st f).a) ∧
    (∀ t, ready .stx → noPsnB .stx → (s.seen .stx f).convA .int = .ok t →
      let e := b .stx 0 % 2 ^ 32
      OnChip s k sp (e / 2) ((e + 7) / 2 - e / 2 + 1) → (∀ i < 8, NoKvWord s k sp ((e + i) / 2)) →
      ∃ r, Asks .stx f s h r [] ∧ r.dat = t ∧ (∀ x ∈ r.accs, x.space = sp) ∧
        ∀ w, w ∈ r.accs.map (·.addr) ↔ ∃ i < 8, t.mask.getLsbD i = true ∧ w = (e + i) / 2) ∧
    (ready .sls → noPsnB .sls →
      let l := lanesOf ((s.seen .sls f).a.mask &&& (s.seen .sls f).b.mask)
      (∀ i ∈ l, b .sls i % 2 ^ 32 < 256) →
      ∃ r, Asks .sls f s h r [] ∧ r.accs = l.map (fun i => ⟨i, 4, b .sls i % 2 ^ 32⟩) ∧ r.dat = (s.seen .sls f).a) ∧
    (ready .feclr → noPsnA .feclr → noPsnB .feclr →
      let w := a .feclr 0 % 2 ^ 32
      let n := b .feclr 0
      1 ≤ n → n ≤ 1024 → OnChip s k sp w n → (∀ i < n, NoKvWord s k sp (w + i)) →
      ∃ r, Asks .feclr f s h r [] ∧ r.accs = (List.range n).map (fun i => ⟨0, sp, w + i⟩)) ∧
    (∀ t, ready .satom → noPsnA .satom → (s.seen .satom f).convB (if f.md = 7 then .wf else .int) = .ok t →
      let l := lanesOf ((s.seen .satom f).a.mask &&& (s.seen .satom f).b.mask)
      let x : Nat → Word := laneRead (s.seen .satom f).a
      let q : Nat → Nat := fun i => ((x i).extractLsb' 62 2).toNat
      let w : Nat → Nat := fun i => ((x i).extractLsb' 0 32).toNat
      (∀ i ∈ l, (x i).extractLsb' 32 30 = 0 ∧ OnChip s k (q i) (w i) 1 ∧ NoKvWord s k (q i) (w i)) →
      ∃ r, Asks .satom f s h r [f.d] ∧ r.accs = l.map (fun i => ⟨i, q i, w i⟩) ∧ r.dat = t)

/-- R260: an address beyond its space, a beat address that is no multiple of 8 and a poisoned address source stop the
pool with BANK_RANGE, MEM_ALIGN and ADDR_PSN, and no word is touched. Where the manual is silent it tells the choice
of log entries 19 and 44. -/
def Obligations.AddressFaults : Prop :=
  ∀ (o : Op) (f : Fields) (s : State) (h : Hdr), o ∈ ([.ld, .ldf, .lde, .feq] : List Op) →
    (f.md.getLsbD 2 = false ∨ o = .feq) → Fires o f s → (s.seen o f).header = .ok h →
    let c := s.seen o f
    let k := s.focus.tile
    let sp := f.md.toNat % 4
    let w := ((laneRead c.a 0).toNat + (laneRead c.b 0).toNat) % 2 ^ 32
    let stop (code : Nat) (w3 : Word) : Prop := exec (o.mk f) s =
      .next ((s.markActive k).raise k s.focus.pool s.focus.slot code h.gen w3 0 0)
    (c.a.psn = true → stop 0x65 (BitVec.ofNat 64 o.code)) ∧
    (c.a.psn = false → c.b.psn = true → stop 0x65 (BitVec.ofNat 64 (o.code + 256))) ∧
    (c.a.psn = false → c.b.psn = false → spaceWords sp < w + 8 → stop 0x60 (BitVec.ofNat 64 (w + sp * 2 ^ 32))) ∧
    (c.a.psn = false → c.b.psn = false → OnChip s k sp w 8 → w % 8 ≠ 0 → stop 0x61 (BitVec.ofNat 64 w))

/-- R258 to R270, with the frame of every byte and full-empty bit: MEM_PERFORM performs the next access of a request. A
load, beat by beat, lane by lane or half by half, reads its words and changes no memory, LDE but leaving its words empty;
LDCH brings the next node too; a store writes the words and halves of its lanes, STF and STE leaving theirs full, and nothing
else; at a bank that holds writes it joins those held; FEQ reads full-empty bits and FECLR writes them; an atomic returns the
old word and writes the new one; a request whose words are not full, or not empty, waits, and FE_WAKE performs it once they
are. Where the manual is silent it tells the choice of log entries 41, 44 and 45. -/
def Obligations.AccessesArePerformed : Prop :=
  ∀ (s : State) (k n : Nat) (r : Req) (x : Acc) (rest : List Acc), (s.tile k).pe.reqs[n]? = some r → r.accs = x :: rest →
    x.space < 5 → x.lane < 8 → (r.op = .sls → r.beat = false) → s.mem.wf = true →
    (∀ q ∈ (s.tile k).pe.reqs, q.ticket = r.ticket → q = r) →
    let w := flatWord k x
    let turn : Prop := r.waiting = none ∧ s.orderedBehind k r x = false ∧ s.standsHeld k r = false ∧ s.wakeDue = false
    let waits (i : Instr) : Prop := ∃ t, exec i s = .next t ∧ t.mem = s.mem ∧
      ∃ q ∈ (t.tile k).pe.reqs, q.ticket = r.ticket ∧ q.accs = r.accs ∧ q.waiting = some s.order
    let free : Prop := ∀ i v, LaneStored k r x i v → s.wordHeld v = false
    let stored (t : State) : Prop :=
      (r.op ≠ .stx → ∀ i v, LaneStored k r x i v →
        t.mem.word v = r.dat.lanes.get i ∧ t.mem.isPsn v = r.dat.psn) ∧
      (r.op = .stx → ∀ i v, LaneStored k r x i v →
        (t.mem.word v).extractLsb' (if (r.opb.lanes.l0.toNat + i) % 2 = 0 then 0 else 32) 32 = storedHalf r i ∧
        t.mem.isPsn v = (s.mem.isPsn v || r.dat.psn)) ∧
      (∀ a, (∀ i v, LaneStored k r x i v → a / 8 = v → r.op = .stx ∧ a % 8 / 4 ≠ (r.opb.lanes.l0.toNat + i) % 2) →
        t.mem.byte a = s.mem.byte a) ∧
      (∀ v, t.mem.isFull v = true ↔ s.mem.isFull v = true ∨ ((r.op = .stf ∨ r.op = .ste) ∧ ∃ i, LaneStored k r x i v))
    (r.op ∈ ([.ld, .ldx, .ldch, .lls, .ldf, .lde] : List Op) → turn →
      ((r.op = .ldf ∨ r.op = .lde) → ∀ i v, LaneWord k r x i v → s.mem.isFull v = true) →
      ∃ t, exec (.memPerform k n) s = .next t ∧ (∀ a, t.mem.byte a = s.mem.byte a) ∧
        (∀ v, t.mem.isFull v = true ↔ s.mem.isFull v = true ∧ ¬(r.op = .lde ∧ ∃ i, LaneWord k r x i v)) ∧
        Leaves s t k r rest (Loaded s k r x)) ∧
    ((r.op = .ldf ∨ r.op = .lde) → turn → (∃ i v, LaneWord k r x i v ∧ s.mem.isFull v = false) → waits (.memPerform k n)) ∧
    ((r.op = .ldf ∨ r.op = .lde) → r.waiting ≠ none → (∀ i v, LaneWord k r x i v → s.mem.isFull v = true) →
      (∀ o ∈ s.rivals k r, r.waiting.getD 0 ≤ o) →
      ∃ t, exec (.feWake k n) s = .next t ∧ (∀ a, t.mem.byte a = s.mem.byte a) ∧
        (∀ v, t.mem.isFull v = true ↔ s.mem.isFull v = true ∧ ¬(r.op = .lde ∧ ∃ i, LaneWord k r x i v)) ∧
        Leaves s t k r rest (Loaded s k r x)) ∧
    (r.op ∈ ([.st, .stx, .sls, .ste, .stf] : List Op) → turn → free →
      (r.op = .stf → r.beat = true ∧ ∀ i v, LaneStored k r x i v → s.mem.isFull v = false) →
      ∃ t, exec (.memPerform k n) s = .next t ∧ stored t ∧ Leaves s t k r rest (· = r.res)) ∧
    (r.op = .stf → r.beat = true → turn → free → (∃ i v, LaneStored k r x i v ∧ s.mem.isFull v = true) →
      waits (.memPerform k n)) ∧
    (r.op = .stf → r.beat = true → r.waiting ≠ none → free → (∀ i v, LaneStored k r x i v → s.mem.isFull v = false) →
      (∀ o ∈ s.rivals k r, r.waiting.getD 0 ≤ o) →
      ∃ t, exec (.feWake k n) s = .next t ∧ stored t ∧ Leaves s t k r rest (· = r.res)) ∧
    (∀ b i, r.op = .st → r.beat = false → bankOf w = some (b, i) → turn → s.wordHeld w = true →
      ∃ t, exec (.memPerform k n) s = .next t ∧ t.mem = s.mem ∧ Leaves s t k r rest (· = r.res) ∧
        (t.tile b).eng.heldWrites = (s.tile b).eng.heldWrites ++
          [⟨w, .req k r.ticket, .store 0xFF (r.dat.lanes.get x.lane) r.dat.psn false⟩]) ∧
    (r.op = .feq → r.beat = true → turn →
      ∃ t, exec (.memPerform k n) s = .next t ∧ t.mem = s.mem ∧
        Leaves s t k r rest fun y => y.fmt = r.res.fmt ∧ y.mask = r.res.mask ∧ y.psn = r.res.psn ∧ ∀ i < 8,
          y.lanes.get i = if s.mem.isFull (w + i) != decide (r.md / 4 = 1) then BitVec.allOnes 64 else 0) ∧
    (r.op = .feclr → r.beat = false → turn →
      ∃ t, exec (.memPerform k n) s = .next t ∧ (∀ a, t.mem.byte a = s.mem.byte a) ∧
        (∀ v, t.mem.isFull v = if v = w then decide (r.md / 4 = 1) else s.mem.isFull v) ∧
        Leaves s t k r rest (· = r.res)) ∧
    (r.op = .satom → r.beat = false → turn → s.wordHeld w = false →
      ∃ t, exec (.memPerform k n) s = .next t ∧ (∀ a, a / 8 ≠ w → t.mem.byte a = s.mem.byte a) ∧
        t.mem.word w = atomOp r.md (s.mem.word w) (r.dat.lanes.get x.lane) ∧
        (∀ v, t.mem.isFull v = s.mem.isFull v) ∧
        Leaves s t k r rest fun y => y.lanes.get x.lane = s.mem.word w ∧
          (∀ i < 8, i ≠ x.lane → y.lanes.get i = r.res.lanes.get i) ∧ y.mask = r.res.mask)

/-- R271, R273, R317, R328: the global memory instructions and KVROW take a request place; a global access needs the unit
that TSGET bound, and its GEN joins the request's. Where the manual is silent it tells the choice of log entries 44
and 46. -/
def Obligations.GlobalAndRowRequests : Prop :=
  ∀ (f : Fields) (s : State) (h0 h : Hdr) (u : TsBind),
    let a (o : Op) : Nat → Nat := fun i => (laneRead (s.seen o f).a i).toNat
    let b (o : Op) : Nat → Nat := fun i => (laneRead (s.seen o f).b i).toNat
    let ready (o : Op) : Prop := Fires o f s ∧ (s.seen o f).header = .ok h0 ∧ s.boundUnit (s.seen o f) = .ok u ∧
      (s.seen o f).globalHdr h0 u = .ok h
    (ready .gld → (s.seen .gld f).a.psn = false → (s.seen .gld f).b.psn = false →
      (f.md.getLsbD 2 = false → ((a .gld 0 + b .gld 0) % 2 ^ 52) % 64 = 0 →
        ∃ r, Asks .gld f s h r [f.d] ∧ r.accs = [⟨0, 5, (a .gld 0 + b .gld 0) % 2 ^ 52⟩] ∧ r.beat = true) ∧
      (f.md.getLsbD 2 = true → (∀ i ∈ lanesOf (s.seen .gld f).a.mask, (a .gld i + b .gld 0) % 2 ^ 52 % 8 = 0) →
        ∃ r, Asks .gld f s h r [f.d] ∧
          r.accs = (lanesOf (s.seen .gld f).a.mask).map (fun i => ⟨i, 5, (a .gld i + b .gld 0) % 2 ^ 52⟩))) ∧
    (ready .gst → (s.seen .gst f).b.psn = false →
      let l := lanesOf ((s.seen .gst f).a.mask &&& (s.seen .gst f).b.mask)
      (f.md.getLsbD 2 = false → b .gst 0 % 2 ^ 52 % 64 = 0 →
        ∃ r, Asks .gst f s h r [] ∧ r.dat = (s.seen .gst f).a ∧
          r.accs = (if (s.seen .gst f).a.mask = 0 then [] else [⟨0, 5, b .gst 0 % 2 ^ 52⟩])) ∧
      (f.md.getLsbD 2 = true → (∀ i ∈ l, b .gst i % 2 ^ 52 % 8 = 0) →
        ∃ r, Asks .gst f s h r [] ∧ r.dat = (s.seen .gst f).a ∧ r.accs = l.map (fun i => ⟨i, 5, b .gst i % 2 ^ 52⟩))) ∧
    (∀ t, ready .gatom → (s.seen .gatom f).a.psn = false →
      (s.seen .gatom f).convB (if f.md = 7 then .wf else .int) = .ok t →
      let l := lanesOf ((s.seen .gatom f).a.mask &&& (s.seen .gatom f).b.mask)
      (∀ i ∈ l, a .gatom i % 2 ^ 52 % 8 = 0) →
      ∃ r, Asks .gatom f s h r [f.d] ∧ r.dat = t ∧ r.accs = l.map (fun i => ⟨i, 5, a .gatom i % 2 ^ 52⟩)) ∧
    (∀ (o : Op) (x y : Word), o ∈ ([.kvrowCfg, .kvrowOpen, .kvrowPut] : List Op) → Fires o f s →
      (s.seen o f).header = .ok h → (o ≠ .kvrowPut → (s.seen o f).intA = .ok x) → (s.seen o f).intB = .ok y →
      (s.seen o f).a.psn = false → (s.seen o f).b.psn = false →
      (o = .kvrowCfg → h.gen = 0 ∧ x.extractLsb' 26 38 = 0 ∧ x.getLsbD 23 = false ∧ x.extractLsb' 0 3 = 0 ∧
        y.extractLsb' 22 2 = 0 ∧ y.extractLsb' 48 16 = 0 ∧ 1 ≤ (y.extractLsb' 0 16).toNat ∧
        (y.extractLsb' 0 16).toNat ≤ 4096 ∧
        (x.extractLsb' 0 23).toNat + 2 * ((y.extractLsb' 16 6).toNat + 1) * (y.extractLsb' 0 16).toNat ≤ 2 ^ 23) →
      ∃ r e, Asks o f s h r [] ∧ r.accs = [e] ∧ e.space = 6)

/-! ### System instructions and speculation -/

/-- R129, R272, R274 to R278: fork and rendezvous, write pointers, image synchronisation, task timestamps, and the control
and status registers. Where the manual is silent it tells the choice of log entry 50. -/
def Obligations.SystemInstructions : Prop :=
  ∀ (f : Fields) (s : State) (h : Hdr) (a b : Word),
    let k := s.focus.tile
    (Fires .fork f s → (s.seen .fork f).intA = .ok a → (s.seen .fork f).header = .ok h → h.psn = false →
      ∃ rs, Does .fork f s { consumed f with res := rs } ∧
        ∀ r, r ∈ rs ↔ ∃ n : Fin 4, (f.md.getLsbD 0 = true → a.getLsbD n.val = true) ∧
          r = ⟨.pred ⟨4 + n.val, by omega⟩, some (oneTok (if a.getLsbD n.val then 1 else 0) h), 1, 0⟩) ∧
    (Fires .rdv f s → Does .rdv f s (consumed f)) ∧
    (Fires .waitwp f s → (s.seen .waitwp f).intA = .ok a → (s.seen .waitwp f).intB = .ok b →
      (s.seen .waitwp f).header = .ok h → Does .waitwp f s (consumed f)) ∧
    (Fires .imgsync f s → ∃ t, exec (.imgsync f) s = .next t ∧ t.arb.cache = [] ∧
      t.arb.stream = s.arb.stream ++ [.inval] ∧ t.mem = s.mem ∧ ∀ j, j ≠ k → t.tile j = s.tile j) ∧
    (∀ l i, Fires .tsget f s → (s.seen .tsget f).intA = .ok a → (s.seen .tsget f).header = .ok h →
      let ts := (a.extractLsb' 0 48).toNat
      let g := (s.seen .tsget f).a.gen
      s.launchOf k = some l → l.unitAt ts = some i → s.runFinished l i g = false →
      ∃ t, exec (.tsget f) s = .next t ∧ (t.tile k).pe.bind = some ⟨ts, g, l.lseq, i⟩ ∧ t.mem = s.mem) ∧
    (∀ l i, Fires .tsnew f s → (s.seen .tsnew f).intA = .ok a → (s.seen .tsnew f).intB = .ok b →
      (s.seen .tsnew f).header = .ok h →
      let ts := (a.extractLsb' 0 48).toNat
      let n := ts + (b.extractLsb' 0 48).toNat
      s.launchOf k = some l → l.unitAt ts = some i → l.unitAt n = some i → n < 2 ^ 48 →
      Does .tsnew f s (resulting f 1 (oneTok (BitVec.ofNat 64 n) h))) ∧
    (∀ n, Fires .csrr f s → (s.seen .csrr f).intA = .ok (BitVec.ofNat 64 n) → (s.seen .csrr f).header = .ok h → n < 4096 →
      (s.seen .csrr f).a.psn = false →
      let reads (v : Word) : Prop := Does .csrr f s (resulting f 2 (oneTok v Hdr.none))
      (∀ r, Csr.ofNum n = some r → reads (s.csrRead k r)) ∧
      (n = 5 → reads (BitVec.ofNat 64 s.time)) ∧
      (n = 7 → reads (BitVec.ofNat 64 (s.core (tileCore k)).cur)) ∧
      (∀ l, s.launchOf k = some l → (0x10 ≤ n → n < 0x18 → reads (l.words.getD (7 + (n - 0x10)) 0)) ∧
        (n = 0x18 → reads (BitVec.ofNat 64 l.tsbase)) ∧ (n = 0x1A → reads (BitVec.ofNat 64 l.unitCount)) ∧
        (n = 0x20 → reads l.retv)) ∧
      (Csr.ofNum n = none → exec (.csrr f) s =
        .next ((s.markActive k).raise k s.focus.pool s.focus.slot 0x62 h.gen (BitVec.ofNat 64 n) 0 0))) ∧
    (Fires .csrw f s → (s.seen .csrw f).intB = .ok b → (s.seen .csrw f).header = .ok h →
      (s.seen .csrw f).a.psn = false → (s.seen .csrw f).b.psn = false →
      (∀ u h', (s.seen .csrw f).intA = .ok 0x20 → (s.seen .csrw f).x.bind = some u →
        (s.seen .csrw f).globalHdr h u = .ok h' →
        ∃ t, exec (.csrw f) s = .next t ∧ t.mem = s.mem ∧
          ∀ l, Tab.get? s.launches u.lseq = some l → ((l.unit u.unit).run? h'.gen = none) →
            ∃ l', Tab.get? t.launches u.lseq = some l' ∧ (l'.unit u.unit).retv = (l.unit u.unit).retv ++ [(h'.gen, b)]) ∧
      (∀ n r, n < 4096 → (s.seen .csrw f).intA = .ok (BitVec.ofNat 64 n) → Csr.ofNum n = some r → n ≠ 0x20 →
        exec (.csrw f) s = .next ((s.markActive k).raise k s.focus.pool s.focus.slot 0x62 h.gen
          (BitVec.ofNat 64 (n + 2 ^ 32)) b 0)))

/-- R317 to R322: the speculation instructions of a pool send a request to the root, at its end of the queue, and change
nothing else; a guess or a push without SPEC is not sent; a firing of a generation that names a position other than the
one after its own stops with SPEC_POS; GENGET reads a generation of its job, and stops its pool with POISON_CTL where
its source is poisoned. Where the manual is silent it tells the
choice of log entry 26. -/
def Obligations.SpeculationRequests : Prop :=
  ∀ (f : Fields) (s : State) (h : Hdr) (a b p id : Word),
    let k := s.focus.tile
    let sends (o : Op) (a0 a1 b0 b1 : Word) : Prop := ∃ t q, exec (o.mk f) s = .next t ∧
      t.root.reqs = s.root.reqs ++ [q] ∧ q.op = o ∧ q.md = f.md.toNat ∧ q.gen = h.gen ∧
      q.lseq = (s.blockOf k).elim 0 (·.lseq) ∧ q.a0 = a0 ∧ q.a1 = a1 ∧ q.b0 = b0 ∧ q.b1 = b1 ∧
      t.root.gens = s.root.gens ∧ t.root.log = s.root.log ∧ t.mem = s.mem ∧ ∀ j, j ≠ k → t.tile j = s.tile j
    let vid (o : Op) : Prop := Fires o f s ∧ (s.seen o f).vid = .ok (p, id) ∧ (s.seen o f).intB = .ok b ∧
      (s.seen o f).header = .ok h
    let v := (b.extractLsb' 0 32).toNat
    (∀ o ∈ ([.guess, .ratify] : List Op), vid o → h.psn = false →
      let pos := ((s.seen o f).ent h.gen.toNat).pos
      ((h.gen = 0 ∨ v = pos + 1) → (o = .ratify ∨ s.specOn = true) → sends o p id b 0) ∧
      ((h.gen = 0 ∨ v = pos + 1) → o = .guess → s.specOn = false → Does o f s (consumed f)) ∧
      (h.gen ≠ 0 → v ≠ pos + 1 → exec (o.mk f) s = .next ((s.markActive k).raise k s.focus.pool s.focus.slot 0x80 h.gen
        (BitVec.ofNat 64 (v + h.gen.toNat * 2 ^ 32)) (BitVec.ofNat 64 pos) 0))) ∧
    (Fires .genget f s → (f.md.getLsbD 0 = false → (s.seen .genget f).intA = .ok a) → (s.seen .genget f).header = .ok h →
      let g := if f.md.getLsbD 0 then (s.seen .genget f).a.gen else a.setWidth 8
      let e := (s.seen .genget f).ent g.toNat
      ∃ r, (h.psn = false → Does .genget f s (resulting f 8 r)) ∧
        (h.psn = true → Does .genget f s { resulting f 8 r with
          after := some ⟨0x21, s.focus.slot, (s.seen .genget f).gen, BitVec.ofNat 64 (dstCode f.d), 0, 0⟩ }) ∧
        r.psn = h.psn ∧ r.fmt = 1 ∧
        (g = 0 → r.mask = 0x3F ∧ r.lanes.l0 = BitVec.allOnes 64 ∧ r.lanes.get 5 = 2) ∧
        (g ≠ 0 → e.st = .live → e.job = (s.blockOf k).elim 0 (·.job) → r.mask = 0x3F ∧ r.gen = g ∧
          r.lanes.get 1 = BitVec.ofNat 64 e.pos ∧ r.lanes.get 3 = BitVec.ofNat 64 e.tokid ∧
          r.lanes.get 4 = BitVec.ofNat 64 e.parent.toNat ∧ r.lanes.get 5 = 1) ∧
        (g ≠ 0 → (e.st = .free ∨ e.st = .squashing) → r.mask = 0 ∧ r.gen = 0)) ∧
    (Fires .sqreq f s → (s.seen .sqreq f).intA = .ok a → (s.seen .sqreq f).header = .ok h → h.psn = false →
      (inLineage (s.seen .sqreq f).mirror (a.setWidth 8) h.gen = false → sends .sqreq a (laneRead (s.seen .sqreq f).a 1) 0 0)) ∧
    (∀ t, Fires .dhpush f s → (s.seen .dhpush f).vid = .ok (p, id) → (s.seen .dhpush f).convB .int = .ok t →
      (s.seen .dhpush f).header = .ok h → h.psn = false → s.specOn = true →
      inLineage (s.seen .dhpush f).mirror ((t.lanes.get 1).setWidth 8) h.gen = true →
      sends .dhpush p id t.lanes.l0 (((t.lanes.get 1).setWidth 8).setWidth 64)) ∧
    (Fires .dhpushCfg f s → (s.seen .dhpushCfg f).intA = .ok a → (s.seen .dhpushCfg f).intB = .ok b →
      (s.seen .dhpushCfg f).header = .ok h → h.psn = false → h.gen = 0 → s.domainTaken = false →
      let l := (a.extractLsb' 32 4).toNat
      a &&& 0xFFFFFFF0F8800007 = 0 → 1 ≤ l → l ≤ 8 → 1 ≤ b.toNat → b.toNat ≤ 254 →
      (a.extractLsb' 0 23).toNat + 8 * 2 ^ l ≤ 2 ^ 23 → sends .dhpushCfg a 0 b 0) ∧
    (Fires .dhpushJoin f s → (s.seen .dhpushJoin f).intA = .ok a → (s.seen .dhpushJoin f).header = .ok h →
      h.psn = false → h.gen = 0 → s.domainTaken = false → a.toNat < 1024 →
      (s.specEntry a.toNat ((s.blockOf k).elim 0 (·.job)) true).isSome = true →
      (s.specEntry a.toNat ((s.blockOf k).elim 0 (·.job)) false).isSome = true → sends .dhpushJoin a 0 0 0)

/-- R312, R313, R315, R318 to R322: the root takes the request at the head of its queue, here one of GEN 0 for the domain's
launch. A guess enters the draft heap; a ratification of a token that nothing was launched for queues a relaunch and
drops its siblings from the heap; SQREQ squashes a live generation; a push enters the heap; DHPUSH.CFG makes the domain;
and the launch unit launches the one node of the heap under the lowest tag, with its record in the ring. Where the
manual is silent it tells the choice of log entries 3 and 26. -/
def Obligations.RootHandlesRequests : Prop :=
  ∀ (s : State) (q : RootReq) (rest : List RootReq) (d : Domain),
    let v := (q.b0.extractLsb' 0 32).toNat
    let id := (q.a1.extractLsb' 0 32).toNat
    let mine : Prop := s.root.reqs = q :: rest ∧ q.gen = 0 ∧ s.epAt .heap = s.root.log.length ∧ s.root.joined = none ∧
      s.root.domain = some d ∧ d.lseq = q.lseq
    let node : HeapNode := ⟨0, v, id, cumpTimes wfOne q.a0, s.root.pushes⟩
    (q.op = .guess → q.md = 0 → mine → v < s.unitsOf d.lseq → s.root.kids d.lseq 0 v = [] → s.root.queued 0 v = [] →
      (∀ n ∈ s.root.heap, ¬(n.parent = 0 ∧ n.pos = v ∧ n.tokid = id)) → s.root.heap.length < 64 →
      ∃ t, exec .rootGuess s = .next t ∧ t.root.reqs = rest ∧ t.root.heap = s.root.heap ++ [node] ∧ t.mem = s.mem) ∧
    (q.op = .ratify → mine → v < s.unitsOf d.lseq → id ≠ 0xFFFFFFFF → s.root.kids d.lseq 0 v = [] →
      s.root.queued 0 v = [] →
      ∃ t, exec .rootRatify s = .next t ∧ t.root.reqs = rest ∧
        t.root.relaunch = s.root.relaunch ++ [⟨0, v, id, wfOne, s.root.pushes⟩] ∧
        (∀ n, n ∈ t.root.heap ↔ n ∈ s.root.heap ∧ ¬(n.parent = 0 ∧ n.pos = v)) ∧ t.mem = s.mem) ∧
    (∀ x, q.op = .sqreq → mine → x = (q.a0.extractLsb' 0 8).toNat → x ≠ 0 → (s.root.ent x).st = .live →
      ∃ t m, exec .rootSqreq s = .next t ∧ t.root.reqs = rest ∧ (t.root.ent x).st = .squashing ∧
        t.root.log = s.root.log ++ [m] ∧ m.kind = .squash ∧ BitVec.ofNat 8 x ∈ m.tags ∧ t.mem = s.mem) ∧
    (q.op = .dhpush → mine → q.b1 = 0 → s.root.heap.length < 64 →
      ∃ t, exec .rootDhpush s = .next t ∧ t.root.reqs = rest ∧ t.root.heap = s.root.heap ++ [node] ∧ t.mem = s.mem) ∧
    (q.op = .dhpushCfg → s.root.reqs = q :: rest → s.epAt .heap = s.root.log.length → s.launchOver q.lseq = false →
      ∃ t x, exec .rootDhpush s = .next t ∧ t.root.reqs = rest ∧ t.root.domain = some x ∧ x.lseq = q.lseq ∧
        x.die = (q.a0.extractLsb' 24 3).toNat ∧ x.base = (q.a0.extractLsb' 0 23).toNat ∧
        x.log2 = (q.a0.extractLsb' 32 4).toNat ∧ x.budget = (q.b0.extractLsb' 0 8).toNat ∧ x.rseq = 0 ∧ t.mem = s.mem) ∧
    (∀ n, s.root.gens = [] → s.root.heap = [n] → s.root.relaunch = [] → s.root.abortQ = [] → s.root.domain = some d →
      s.epAt .heap = s.root.log.length → (∀ i < 8, s.mem.isFull (d.slot d.rseq + i) = false) → 1 ≤ d.budget →
      s.specOn = true → s.mem.wf = true →
      ∃ t, exec .launchGeneration s = .next t ∧ t.root.heap = [] ∧ (t.root.ent 1).st = .live ∧
        (t.root.ent 1).pos = n.pos ∧ (t.root.ent 1).tokid = n.tokid ∧ (t.root.ent 1).parent = n.parent ∧
        t.root.domain = some { d with rseq := d.rseq + 1 } ∧
        (∀ i < 8, t.mem.isFull (d.slot d.rseq + i) = true) ∧
        t.mem.word (d.slot d.rseq + 1) = BitVec.ofNat 64 n.pos ∧ t.mem.word (d.slot d.rseq + 2) = BitVec.ofNat 64 n.tokid ∧
        t.mem.word (d.slot d.rseq + 3) = n.cump ∧
        ∀ a, (∀ i < 8, a / 8 ≠ d.slot d.rseq + i) → t.mem.byte a = s.mem.byte a)

/-- R311, R312, R323, R324, R326: an endpoint applies its next message. A mirror takes the entry of a LAUNCH, and the new
state of a generation from RATIFY and SQUASH, and forgets it at FREE; a PE pool loses the values and the unperformed
requests of squashed generations; a channel's end keeps the highest marker; a FREE that all have acknowledged makes its
tags free. Where the manual is silent it tells the choice of log entry 25. -/
def Obligations.MessagesReachEndpoints : Prop :=
  ∀ (s : State) (m : Msg),
    (∀ d, s.nextMsg (.mirror d) = some m →
      let done (i : Instr) (p : Tab GenEnt → Prop) : Prop :=
        ∃ t, exec i s = .next t ∧ t.seqOf (.mirror d) = s.seqOf (.mirror d) + 1 ∧ p (t.die d).mirror ∧ t.mem = s.mem
      (m.kind = .launch → ∀ g e, m.tags = [g] → m.ent = some e → done (.msgLaunch (.mirror d)) fun x =>
        Tab.get x g.toNat GenEnt.reset = { e with st := if m.ratifies then .ratified else .live }) ∧
      (m.kind = .ratify → done (.msgRatify (.mirror d)) fun x =>
        ∀ g ∈ m.tags, (Tab.get x g.toNat GenEnt.reset).st = .ratified) ∧
      (m.kind = .squash → done (.msgSquash (.mirror d)) fun x =>
        ∀ g ∈ m.tags, (Tab.get x g.toNat GenEnt.reset).st = .squashing) ∧
      (m.kind = .free → done (.msgFree (.mirror d)) fun x => ∀ g ∈ m.tags, Tab.get? x g.toNat = none)) ∧
    (∀ k, s.nextMsg (.pool k .pe) = some m → m.kind = .squash →
      ∃ t, exec (.msgSquash (.pool k .pe)) s = .next t ∧ t.seqOf (.pool k .pe) = s.seqOf (.pool k .pe) + 1 ∧
        (∀ r ∈ (t.tile k).pe.v, r.present = true → m.tags.contains r.tok.gen = false) ∧
        (∀ r ∈ (t.tile k).pe.reqs, m.tags.contains r.gen = true → r.accs = [] ∧ r.inHold = 0) ∧
        (∀ g ∈ m.tags, (t.tile k).pe.dead.contains g = true) ∧ t.mem = s.mem) ∧
    (∀ ch y n rest, Tab.get? s.chans ch = some y → y.items = .marker n :: rest →
      ∃ t, exec (.squashMarker ch) s = .next t ∧
        Tab.get? t.chans ch = some { y with items := rest, marked := max y.marked n } ∧ t.mem = s.mem) ∧
    (∀ n, s.root.log[n]? = some m → m.kind = .free → m.home = none → s.root.frees.contains n = true → s.acked n = true →
      ∃ t, exec (.freeComplete n) s = .next t ∧ (∀ g ∈ m.tags, Tab.get? t.root.gens g.toNat = none) ∧ t.mem = s.mem)

/-! ### The matrix engine -/

/-- R238, R240 to R242, R246, R247, R252: what the instructions of the MX pool set in the engine, read from it, or start.
A value outside its range stops the pool with MX_CFG, shown for MXCFG, and changes nothing. Where the manual is silent
it tells the choice of log entries 16, 43 and 64. -/
def Obligations.MatrixInstructions : Prop :=
  ∀ (f : Fields) (s : State) (h : Hdr) (a b : Word),
    let k := s.focus.tile
    let e := (s.tile k).eng
    let ready (o : Op) : Prop := Fires o f s ∧ (s.seen o f).header = .ok h
    let opA (o : Op) : Prop := (s.seen o f).intA = .ok a
    let opB (o : Op) : Prop := (s.seen o f).intB = .ok b
    let sets (o : Op) (p : MxEng → Prop) : Prop :=
      ∃ t, exec (o.mk f) s = .next t ∧ p (t.tile k).eng ∧ t.mem = s.mem ∧ ∀ j, j ≠ k → t.tile j = s.tile j
    (ready .mxcfg → opA .mxcfg → opB .mxcfg →
      let col := b.toNat
      let nc := (a.extractLsb' 0 5).toNat
      let good : Prop := a &&& 0xFFFFFFFFFFFF18E0 = 0 ∧ col % 8 = 0 ∧ col + 8 * (nc + 1) ≤ 256 ∧
        (a.getLsbD 13 = true → a.getLsbD 8 = true)
      (good → sets .mxcfg fun x =>
        x = { e with cfg := ⟨nc, (a.extractLsb' 8 3).toNat, a.getLsbD 13, (a.extractLsb' 14 2).toNat, col⟩ }) ∧
      (a &&& 0xFFFFFFFFFFFF18E0 ≠ 0 → exec (.mxcfg f) s =
        .next ((s.markActive k).raise k s.focus.pool s.focus.slot 0x50 h.gen (BitVec.ofNat 64 0x20) a 0))) ∧
    (ready .mxmode → opA .mxmode →
      (a.toNat = e.mode → a.toNat < 3 → sets .mxmode fun x => x = e) ∧
      (e.mode ≠ 0 → a = 0 → sets .mxmode fun x => x = { e with mode := 0 }) ∧
      (e.mode ≠ 1 → a = 1 → sets .mxmode fun x => x = { e with
        mode := 1
        work := some (.recompute, 257) }) ∧
      (e.mode ≠ 2 → a = 2 → sets .mxmode fun x => x.mode = 2 ∧ x.rules = [] ∧ x.gst = .ready)) ∧
    (ready .mxscb → opB .mxscb → b.toNat < 2048 → b.toNat % 32 = 0 →
      let t := (s.seen .mxscb f).a
      sets .mxscb fun x => (∀ i < 8, ∀ j < 4, t.mask.getLsbD i = true →
          x.scale (b.toNat + 4 * i + j) = ((t.lanes.get i).extractLsb' (12 * j) 12).toInt) ∧
        (∀ n, (∀ i < 8, ∀ j < 4, t.mask.getLsbD i = true → n ≠ b.toNat + 4 * i + j) → x.scale n = e.scale n) ∧
        x.chk = e.chk) ∧
    (ready .mxout → opA .mxout →
      (f.md = 0 → (a.extractLsb' 0 11).toNat ≤ 2040 → ∃ r, Does .mxout f s (resulting f 2 r) ∧ r.mask = 0xFF ∧ r.fmt = 1 ∧
        ∀ i < 8, r.lanes.get i = BitVec.ofInt 64 (e.scale ((a.extractLsb' 0 11).toNat + i))) ∧
      (f.md = 1 → (a.extractLsb' 0 8).toNat ≤ 248 → ∃ r, Does .mxout f s (resulting f 2 r) ∧ r.mask = 0xFF ∧ r.fmt = 1 ∧
        ∀ i < 8, r.lanes.get i = BitVec.ofInt 64 (e.chkOf ((a.extractLsb' 0 8).toNat + i))) ∧
      (f.md = 2 → ∃ r, Does .mxout f s (resulting f 2 r) ∧ r.mask = 0x1F ∧ r.lanes.get 0 = BitVec.ofNat 64 e.passesDone ∧
        r.lanes.get 1 = BitVec.ofNat 64 e.mismatches ∧ r.lanes.get 2 = BitVec.ofNat 64 e.mode)) ∧
    (Fires .mxz f s → s.mem.wf = true → ∃ t, exec (.mxz f) s = .next t ∧ (t.tile k).eng.chk = [] ∧ (t.tile k).eng.work = some (.zeroing, 257) ∧
      (∀ n, (t.tile k).eng.scale n = -2047) ∧ (∀ i < 65536, t.mem.byte (bankBase k + i) = 0) ∧
      ∀ x, (x < bankBase k ∨ bankBase k + 65536 ≤ x) → t.mem.byte x = s.mem.byte x) ∧
    (∀ ta tb td, Fires .mxacc f s → Sources (s.seen .mxacc f) .wf ta tb td h →
      ∃ r, Does .mxacc f s (resulting f 2 r) ∧ HasHead r h 0 ∧ ∀ i < 8, h.mask.getLsbD i = true → r.lanes.get i =
        fusedSum [Val.ofWf (td.lanes.get i), Val.ofWf (ta.lanes.get i), Val.ofWf (tb.lanes.get i)] (f.md.toNat % 4)) ∧
    (ready .mxchk → opA .mxchk → opB .mxchk → a.toNat < 256 → 1 ≤ b.toNat → a.toNat + b.toNat ≤ 256 →
      sets .mxchk fun x => ∃ n, x = { e with work := some (.scrub a.toNat b.toNat h.psn h.gen n, b.toNat + 4) }) ∧
    (∀ o ∈ ([.draft, .draftx] : List Op), ready o → opA o → opB o →
      let onset := (a.extractLsb' 0 16).toNat
      let r := (a.extractLsb' 16 5).toNat
      let len := (b.extractLsb' 0 24).toNat
      let per := (b.extractLsb' 24 24).toNat
      let cnt := (b.extractLsb' 48 16).toNat
      let start := (s.core (tileCore k)).cyc + max onset 64 + 2 * (tileIdx k % 16)
      a.toNat < 2 ^ 21 → 1 ≤ r → r ≤ 16 → 1 ≤ len →
      (o = .draft → b.toNat < 2 ^ 24 → sets o fun x => x.draft = some ⟨start, r, len, 1, 1⟩) ∧
      (o = .draftx → 1 ≤ per → 1 ≤ cnt → sets o fun x => x.draft = some ⟨start, r, len, per, cnt⟩)) ∧
    (∀ (i n : Fin 4) (row : List Tok), Fires .mxrow f s → f.a = .inp i → f.d = .out n →
      row = ((s.seen .mxrow f).x.inp i).queue.take e.cfg.nA →
      (e.mode ≠ 1 → exec (.mxrow f) s = .next ((s.markActive k).raise k s.focus.pool s.focus.slot 0x51
        (s.seen .mxrow f).gen (BitVec.ofNat 64 (e.mode + 0x23 * 256)) 0 0)) ∧
      (e.mode = 1 → (∀ x ∈ row, x.fmt = if e.cfg.a4 then 5 else 4) → (s.seen .mxrow f).headerOf row = .ok h →
        ∃ t q, exec (.mxrow f) s = .next t ∧ (t.tile k).eng.passes = e.passes ++ [q] ∧ q.row = row ∧ q.cfg = e.cfg ∧
          q.gen = h.gen ∧ q.psn = h.psn ∧ q.out = n.val ∧ q.phase = 0 ∧ q.beat = 0 ∧
          (t.tile k).eng.bucket = e.bucket - 16 * e.cfg.cycles ∧ t.mem = s.mem))

/-- R239, R243 to R245, R247, R237: the steps of the engine. The serial phase ends with the block sums of the columns, exact,
and with the check of every K-block; a check that fails poisons the pass and is counted; each result beat goes out by
its pass's output, and the pass is counted with its last; work that is over leaves the engine free. Where the manual
is silent it tells the choice of log entries 41 and 64. -/
def Obligations.MatrixSteps : Prop :=
  ∀ (s : State) (k : Nat) (q : Pass) (rest : List Pass),
    let e := (s.tile k).eng
    let byteAt (row n : Nat) : ℤ := (s.mem.byte (bankBase k + 256 * row + n)).toInt
    let term (j n : Nat) : ℤ := ∑ r ∈ Finset.range 32, q.elems.getD (32 * j + r) 0 * byteAt (32 * j + r) n
    (e.passes = q :: rest → q.phase = 0 → q.left = 0 → e.heldWrites = [] → q.cfg.kbm1 < 8 →
      q.cfg.col0 + 8 * (q.cfg.ncbm1 + 1) ≤ 256 →
      ∃ t p, exec (.passSerialEnd k) s = .next t ∧ (t.tile k).eng.passes = p :: rest ∧ p.phase = 1 ∧ p.row = q.row ∧
        t.mem = s.mem ∧
        (∀ i < 8 * (q.cfg.ncbm1 + 1), ∀ j ≤ q.cfg.kbm1, (p.sums.getD i []).getD j 0 = term j (q.cfg.col0 + i) ∧
          (p.scales.getD i []).getD j 0 = e.scale (8 * (q.cfg.col0 + i) + j)) ∧
        (p.badBlk = none ↔ ∀ j ≤ q.cfg.kbm1, ∑ n ∈ Finset.range 256, term j n =
          ∑ r ∈ Finset.range 32, q.elems.getD (32 * j + r) 0 * e.chkOf (32 * j + r))) ∧
    (e.passes = q :: rest → q.phase = 1 → q.badScale = none →
      ∃ t p, exec (.passCheck k) s = .next t ∧ (t.tile k).eng.passes = p :: rest ∧ p.phase = 2 ∧ p.sums = q.sums ∧
        p.psn = (q.psn || q.badBlk.isSome) ∧ t.mem = s.mem ∧
        (q.badBlk = none → (t.tile k).eng.mismatches = e.mismatches ∧ t.evq = s.evq) ∧
        (∀ j, q.badBlk = some j → (t.tile k).eng.mismatches = (e.mismatches + 1) % 2 ^ 48 ∧
          ∃ v, t.evq.held = s.evq.held ++ [v] ∧ v.code = 0x52 ∧ v.w3 = BitVec.ofNat 64 (j * 256))) ∧
    (∀ ch y, e.passes = q :: rest → q.phase = 2 → q.left = 0 → q.acc = none →
      ((s.tile k).mx.out q.outNum).space = true → ((s.tile k).mx.out q.outNum).chan = some ch →
      q.outNum < (s.tile k).mx.outs.length → Tab.get? s.chans ch = some y → (∀ p ∈ rest, p.id ≠ q.id) →
      ∃ (t : State) (r : Tok), exec (.passBeat k) s = .next t ∧ Tab.get? t.chans ch = some (y.push (.tok { r with tag := y.tag } 0)) ∧
        r.fmt = 0 ∧ r.mask = 0xFF ∧ r.gen = q.gen ∧ r.psn = q.psn ∧ t.mem = s.mem ∧
        (∀ i < 8, r.lanes.get i = macroDot (q.sums.getD (8 * q.beat + i) []) ((List.range (q.cfg.kbm1 + 1)).map q.xa)
          (q.scales.getD (8 * q.beat + i) []) (if q.cfg.a4 then 2 else 6) 0 q.cfg.rm) ∧
        (q.beat ≠ q.cfg.ncbm1 → ∃ p, (t.tile k).eng.passes = p :: rest ∧ p.beat = q.beat + 1) ∧
        (q.beat = q.cfg.ncbm1 → (t.tile k).eng.passes = rest ∧
          (t.tile k).eng.passesDone = (e.passesDone + 1) % 2 ^ 48)) ∧
    ((e.work = some (.recompute, 0) ∨ e.work = some (.zeroing, 0) ∨
        ∃ k0 m psn g n, e.work = some (.scrub k0 m psn g n, 0)) → e.heldWrites = [] →
      ∃ t, exec (.mxBusyEnd k) s = .next t ∧ (t.tile k).eng = { e with work := none } ∧ t.mem = s.mem) ∧
    (∀ k0 m g n, k0 + m ≤ 256 → e.work = some (.scrub k0 m false g n, 1) →
      ∃ t, exec (.scrubEnd k) s = .next t ∧ (t.tile k).eng = e ∧ t.mem = s.mem ∧
        (t.tile k).mx.inflight.map (fun x => (x.dst, x.ticket)) = (s.tile k).mx.inflight.map (fun x => (x.dst, x.ticket)) ∧
        let clean : Prop := ∀ r, k0 ≤ r → r < k0 + m → ∑ i ∈ Finset.range 256, byteAt r i = e.chkOf r
        ∀ x ∈ (t.tile k).mx.inflight, x.ticket = n → ∃ v, x.val = some v ∧
          (x.dst.isPred = true → (v.lanes.l0.getLsbD 0 = true ↔ clean)) ∧
          (x.dst.isPred = false → (v.lanes.l0 = 0 ↔ clean)))

/-- R249 to R251: the grammar instructions set the window, exchange a beat of XV, limit the depth, start a run and start
the stream of its rows; a run ends with the words 'rules, depth, words read' and leaves its values, or stops the pool with the
run's fault, the rules evaluated so far left in the file; each GREMIT beat sends eight rows. Where the manual is silent it tells the choice of log entries 17 and
18. -/
def Obligations.Grammars : Prop :=
  ∀ (f : Fields) (s : State) (h : Hdr) (a b : Word) (k : Nat),
    let fk := s.focus.tile
    let e := (s.tile fk).eng
    let sets (o : Op) (p : MxEng → Prop) : Prop :=
      ∃ t, exec (o.mk f) s = .next t ∧ p (t.tile fk).eng ∧ t.mem = s.mem ∧ ∀ j, j ≠ fk → t.tile j = s.tile j
    let ready (o : Op) : Prop := Fires o f s ∧ (s.seen o f).header = .ok h
    let opA (o : Op) : Prop := (s.seen o f).intA = .ok a
    let opB (o : Op) : Prop := (s.seen o f).intB = .ok b
    (ready .grld → opA .grld → opB .grld → 1 ≤ b.toNat → a.toNat + b.toNat ≤ 8192 → a.toNat < 8192 →
      sets .grld fun x => x = { e with
        gstart := a.toNat
        glen := b.toNat }) ∧
    (∀ t, ready .grx → (s.seen .grx f).convA .wf = .ok t → opB .grx → b.toNat < 128 →
      sets .grx fun x => x.xvBeat b.toNat = { t with
          tag := 0
          side := 0
          kind := 0 } ∧
        ∀ i, i ≠ b.toNat → x.xvBeat i = e.xvBeat i) ∧
    (ready .grdepth → opA .grdepth → 1 ≤ a.toNat → a.toNat < 16 →
      sets .grdepth fun x => x = { e with depthLim := a.toNat }) ∧
    (Fires .grrun f s → opA .grrun → opB .grrun → e.mode = 2 → a.toNat < 4 → 1 ≤ b.toNat → b.toNat ≤ 1024 →
      (s.seen .grrun f).headerOf ((s.seen .grrun f).headerToks ++ (List.range ((b.toNat + 7) / 8)).map e.xvBeat) = .ok h →
      sets .grrun fun x => x.gst = .running ∧ x.ggen = h.gen ∧ x.gpsn = h.psn ∧ x.rules = [] ∧
        ∃ n c w, x.work = some (.grammar a.toNat b.toNat n s.focus.slot c w, c + 1)) ∧
    (∀ n : Fin 4, ready .gremit → opA .gremit → f.d = .out n → 1 ≤ a.toNat → a.toNat ≤ 1024 →
      sets .gremit fun x => x.gremit = some ⟨a.toNat, n.val, f.md.getLsbD 0, 0, e.ggen, e.gpsn⟩) ∧
    (let g := (s.tile k).eng
     ∀ rm n id slot c w left, g.work = some (.grammar rm n id slot c w, left) →
      (∀ r, s.grRun k rm n = .ok r → left ≤ 1 → g.heldWrites = [] →
        ∃ t, exec (.grammarRunEnd k) s = .next t ∧ t.mem = s.mem ∧
          (t.tile k).mx.inflight.map (fun x => (x.dst, x.ticket)) = (s.tile k).mx.inflight.map (fun x => (x.dst, x.ticket)) ∧
          (∀ x ∈ (t.tile k).mx.inflight, x.ticket = id → ∃ v, x.val = some v ∧
            v.lanes = Lanes.ofList [BitVec.ofNat 64 r.count, BitVec.ofNat 64 r.deepest, BitVec.ofNat 64 r.words]) ∧
          (left = 1 → (t.tile k).eng = g) ∧
          (left = 0 → (t.tile k).eng.gst = .done ∧ (t.tile k).eng.rules = r.rules ∧ (t.tile k).eng.work = none)) ∧
      (∀ x, s.grRun k rm n = .error x → left = 0 → g.heldWrites = [] → (s.tile k).mx.run = .running →
        (s.tile k).mx.frec = none →
        ∃ t r, exec (.grammarRunEnd k) s = .next t ∧ (t.tile k).eng.gst = .faulted ∧ (t.tile k).eng.work = none ∧
          (t.tile k).eng.rules = x.run.rules ∧ (∀ y ∈ (t.tile k).mx.inflight, y.ticket ≠ id) ∧ t.mem = s.mem ∧
          (t.tile k).mx.run = .faulted ∧ (t.tile k).mx.frec = some r ∧ r.code = x.code ∧ r.w3 = x.w3 ∧ r.w4 = x.w4)) ∧
    (let g := (s.tile k).eng
     ∀ m ch y, g.gremit = some m → ((s.tile k).mx.out m.out).space = true → ((s.tile k).mx.out m.out).chan = some ch →
      m.out < (s.tile k).mx.outs.length → Tab.get? s.chans ch = some y → 8 * m.beat < m.nrow →
      ∃ (t : State) (r : Tok), exec (.gremitBeat k) s = .next t ∧ Tab.get? t.chans ch = some (y.push (.tok { r with tag := y.tag } 0)) ∧
        r.fmt = 0 ∧ r.gen = m.gen ∧ r.psn = m.psn ∧ t.mem = s.mem ∧
        ∀ i < 8, (r.mask.getLsbD i = true ↔ 8 * m.beat + i < m.nrow) ∧
          (8 * m.beat + i < m.nrow → r.lanes.get i = g.rowVal (8 * m.beat + i)))

/-! ### Streams and copies -/

/-- R180, R181, R183, R185, R187, R188: the AG instructions. AGSET takes a block that passes its checks; AGRD and AGCH start
the stream on D, which it then owns; AGWR, AGSCT and AGGTH queue the elements that their operands name, AGWR advancing POS
past them all; AGSTOP marks a running stream; AGPOS and WPRD read; WCNT.BIND binds a counter and WCNT takes from it.
Where the manual is silent it tells the choice of log entries 10 and 48. -/
def Obligations.AddressGeneration : Prop :=
  ∀ (f : Fields) (s : State) (h : Hdr) (a b l : Word),
    let k := s.focus.tile
    let n := f.md.toNat % 4
    let x := (s.tile k).ag
    let st := x.stream n
    let fires (o : Op) : Prop := s.focus.pool = .ag ∧ Fires o f s ∧ (s.seen o f).header = .ok h
    let frame (t : State) : Prop := t.mem = s.mem ∧ ∀ j, j ≠ k → t.tile j = s.tile j
    let becomes (o : Op) (t : State) (st' : Stream) : Prop :=
      exec (o.mk f) s = .next t ∧ (t.tile k).ag.streams = x.streams.set n st'
    let queued (o : Op) (t : State) (items : List (Nat × Nat × Nat)) (q : AgAcc) : Prop :=
      exec (o.mk f) s = .next t ∧ frame t ∧ (t.tile k).ag.agq = x.agq ++ [q] ∧ q.kind = o ∧ q.stream = n ∧ q.blk = st.blk ∧
        q.ts = st.ts ∧ q.unit = st.unit ∧ q.items = items
    let limit (w : Word) : Option Nat := if w.extractLsb' 0 32 = 0 then none else some (w.extractLsb' 0 32).toNat
    (fires .agset → (s.seen .agset f).intB = .ok b →
      let blk := maskLanes (s.seen .agset f).a
      (checkStream blk = none → ∃ t st', becomes .agset t st' ∧ st'.st = .set ∧ st'.blk = blk ∧ st'.pos = 0 ∧
        st'.ts = (b.extractLsb' 0 48).toNat ∧ st'.gen = (s.seen .agset f).b.gen ∧
        (∀ y, t.mem.byte y = s.mem.byte y) ∧ (st.dirty = [] → frame t)) ∧
      (∀ i, checkStream blk = some i → exec (.agset f) s = .next
        (((s.markActive k).raise k .ag s.focus.slot 0x44 h.gen (BitVec.ofNat 64 i) 0 (bUser blk)).modStream k n fun y =>
          { y with st := .faulted }))) ∧
    (∀ c, fires .agrd → (s.seen .agrd f).intA = .ok a → (s.seen .agrd f).intB = .ok b → f.d = .out c →
      ∃ t st', becomes .agrd t st' ∧ frame t ∧ st'.st = .running ∧ st'.chase = false ∧ st'.blk = st.blk ∧
        st'.pos = min (st.pos + (b.extractLsb' 0 48).toNat) (bN st.blk) % 2 ^ 48 ∧ st'.left = limit a ∧ st'.out = c.val ∧
        st'.endTok = f.md.getLsbD 2 ∧ (bDeleg st.blk = false → st'.slice = none) ∧
        (t.tile k).ag.outs = x.outs.modify c.val fun y => { y with owner := some (.stream n) }) ∧
    (∀ c, fires .agch → (s.seen .agch f).intA = .ok a → (s.seen .agch f).lane1A = .ok l →
      (s.seen .agch f).intB = .ok b → f.d = .out c →
      (bSfmt st.blk = 6 ∨ bSfmt st.blk = 7 ∨ bSfmt st.blk = fmtRaw) → (bTfmt st.blk = 1 ∨ bTfmt st.blk = 3) →
      ∃ t st', becomes .agch t st' ∧ frame t ∧ st'.st = .running ∧ st'.chase = true ∧ st'.blk = st.blk ∧
        st'.node = bSaddr st.blk ∧ st'.link = (l.extractLsb' 0 3).toNat ∧ st'.step = b ∧ st'.left = limit a ∧
        st'.out = c.val ∧ st'.endTok = f.md.getLsbD 2 ∧ (bDeleg st.blk = false → st'.slice = none) ∧
        (t.tile k).ag.outs = x.outs.modify c.val fun y => { y with owner := some (.stream n) }) ∧
    (fires .agwr → (s.seen .agwr f).intB = .ok b →
      let d := (s.seen .agwr f).a
      let e := elemsPerLane st.blk d
      let p := st.pos + (b.extractLsb' 0 48).toNat
      let c := min (8 * e) (min (bN0 st.blk - p % bN0 st.blk) (bN st.blk - p))
      let items := (List.range c).map fun j => (p + j, j / e, j % e)
      let ps := (items.filter fun y => d.mask.getLsbD y.2.1).map (·.1)
      (bSfmt st.blk = fmtRaw ∨ (d.fmt ≠ 6 ∧ d.fmt ≠ 15)) → p < bN st.blk → ElemsThere s k st ps →
      ElemsNotKv s k st.blk ps →
      ∃ t q, queued .agwr t items q ∧ q.gen = st.gen ∧ q.dat.lanes = maskLanes d ∧ q.dat.mask = d.mask ∧
        q.dat.psn = d.psn ∧ (t.tile k).ag.streams = x.streams.modify n fun y => { y with pos := (p + c) % 2 ^ 48 }) ∧
    (fires .agsct →
      let d := (s.seen .agsct f).a
      let e := elemsPerLane st.blk d
      let items := (lanesOf (d.mask &&& (s.seen .agsct f).b.mask)).flatMap fun i =>
        (List.range e).map fun j => (((laneRead (s.seen .agsct f).b i).toNat + j) % 2 ^ 64, i, j)
      (bSfmt st.blk = fmtRaw ∨ (d.fmt ≠ 6 ∧ d.fmt ≠ 15)) → ElemsThere s k st (items.map (·.1)) →
      ElemsNotKv s k st.blk (items.map (·.1)) →
      ∃ t q, queued .agsct t items q ∧ q.gen = st.gen ∧ q.dat.lanes = maskLanes d ∧ q.dat.mask = d.mask ∧
        q.dat.psn = d.psn ∧ (t.tile k).ag.streams = x.streams) ∧
    (∀ h', fires .aggth → (s.seen .aggth f).intB = .ok b →
      Hdr.join (s.seen .aggth f).mirror (s.seen .aggth f).x.ratified (s.seen .aggth f).slot h
        { zeroTok with mask := 0xFF, gen := st.gen } = .ok h' →
      let d := (s.seen .aggth f).a
      let items := (lanesOf d.mask).map fun i => (((laneRead d i).toNat + b.toNat) % 2 ^ 64, i, 0)
      bTfmt st.blk ≠ 4 → bTfmt st.blk ≠ 5 →
      (d.mask = 0 → Does .aggth f s (resulting f 1
        ⟨⟨0, 0, 0, 0, 0, 0, 0, 0⟩, 0, 0, h'.psn, 0, h'.gen, BitVec.ofNat 4 (bTfmt st.blk), 0⟩)) ∧
      (d.mask ≠ 0 → ElemsThere s k st (items.map (·.1)) → ∃ t q, queued .aggth t items q ∧ q.gen = h'.gen ∧ q.ticket = x.tickets + 1 ∧ q.res.mask = d.mask ∧
        q.res.fmt = BitVec.ofNat 4 (bTfmt st.blk) ∧ (t.tile k).ag.streams = x.streams)) ∧
    (fires .agstop → (s.seen .agstop f).intA = .ok a →
      ∃ t, exec (.agstop f) s = .next t ∧ frame t ∧
        (st.st ≠ .running → (t.tile k).ag.streams = x.streams) ∧
        (st.st = .running →
          (t.tile k).ag.streams = x.streams.set n { st with stop := true, stopEnd := a.getLsbD 0 })) ∧
    (fires .agpos → (s.seen .agpos f).intA = .ok a →
      Does .agpos f s (resulting f 1 (oneTok (if a.getLsbD 0 then BitVec.ofNat 64 st.st.code
        else BitVec.ofNat 64 (st.pos % 2 ^ 48)) h))) ∧
    (Fires .wprd f s → (s.seen .wprd f).header = .ok h → (s.seen .wprd f).intA = .ok a →
      Does .wprd f s (resulting f 1
        (oneTok (BitVec.ofNat 64 ((s.core (tileCore k)).queue (a.extractLsb' 0 6).toNat).wp) h))) ∧
    (fires .wcntBind → (s.seen .wcntBind f).intA = .ok a →
      ∃ t, exec (.wcntBind f) s = .next t ∧ frame t ∧
        (t.tile k).ag.ctrs = x.ctrs.set n ⟨some (a.extractLsb' 0 12), 0⟩) ∧
    (fires .wcnt → (s.seen .wcnt f).intB = .ok b →
      let c := x.ctrs.getD n ⟨none, 0⟩
      let left := c.count - (b.extractLsb' 0 48).toNat
      (b.extractLsb' 0 48).toNat ≤ c.count ∧
      ∃ t r, exec (.wcnt f) s = .next t ∧ frame t ∧ (t.tile k).ag.ctrs = x.ctrs.set n { c with count := left } ∧
        (t.tile k).ag.inflight = x.inflight ++ (if f.d = .none then [] else
          [⟨f.d, some r, (s.core (tileCore k)).cyc, h.gen, s.focus.slot, 0, dstCode f.d⟩]) ∧
        (f.d.isPred = false → r = oneTok (BitVec.ofNat 64 left) h) ∧ (f.d.isPred = true → r.lanes.l0 = 1))

/-- R180 to R186, R205: STREAM_BEAT sends the next token of a running stream that holds space. At N the stream is set
again, with END before it under `.end`; an on-chip beat of words carries them in its lanes and advances POS; a global beat
without an unfinished unit faults; a node of AGCH names the next one; a beat read already goes out before anything else; a tier miss due skips its page. STREAM_WRITE makes
the first element of the queue: a word of a scatter or write is stored, poisoned as its beat is, and full; an invalid
lane is passed over; a gathered word joins its lane. Where the manual is silent it tells the choice of log entries 1
and 48. -/
def Obligations.StreamSteps : Prop :=
  ∀ (s : State) (k : Nat) (n : Fin 4),
    let x := (s.tile k).ag
    let st := x.stream n.val
    let b := st.blk
    let core := tileCore k
    let live (chase : Bool) : Prop := st.st = .running ∧ s.wakeDue = false ∧ st.formed = none ∧ st.missDue = none ∧
      st.stop = false ∧ st.endDue = false ∧ st.chase = chase
    let space : Prop := (x.out st.out).space = true
    let calm : Prop := ∀ r y, (s.tile k).region = some r → Tab.get? s.regions r = some y → y.dampN = 0
    (live false → bN b ≤ st.pos → st.endTok = false →
      exec (.streamBeat k n) s = .next ((s.endStream k n.val .set).markActive k)) ∧
    (live false → bN b ≤ st.pos → st.endTok = true → space → exec (.streamBeat k n) s =
      .next ((s.streamSend k st.out ⟨⟨0, 0, 0, 0, 0, 0, 0, 0⟩, 0, 0, false, 0, st.gen, 15, 1⟩).endStream k n.val .set)) ∧
    (∀ ws : Nat → Word × Bool, live false → st.pos < bN b → st.left ≠ some 0 → space → calm → bSsp b ≠ 0 →
      bTierm b = false → bTfmt b = 3 → bSfmt b = fmtRaw → bScen b = false →
      let c := min 8 (min (bN0 b - st.pos % bN0 b) (bN b - st.pos))
      (∀ i < c, srcBit b (st.pos + i) % 64 = 0 ∧
        s.chipRead core (bSsp b) (srcBit b (st.pos + i) / 64) = some (ws i)) →
      ∃ r : Tok, exec (.streamBeat k n) s =
          .next (((s.modStream k n.val fun y => { y with page := none }).streamSend k st.out r).modStream k n.val fun y =>
            { y with
              pos := (st.pos + c) % 2 ^ 48
              left := st.left.map (· - 1)
              node := st.node
              endDue := false
              missDue := none
              formed := none }) ∧
        r.kind = 0 ∧ r.fmt = 3 ∧ r.gen = st.gen ∧ (∀ i < 8, r.mask.getLsbD i = decide (i < c)) ∧
        (∀ i < c, r.lanes.get i = (ws i).1) ∧ (r.psn = true ↔ ∃ i < c, (ws i).2 = true)) ∧
    (live false → st.pos < bN b → st.left ≠ some 0 → space → bSsp b = 0 → bTierm b = false →
      s.agAcr st.unit st.ts st.gen = none → exec (.streamBeat k n) s =
        .next (s.failStream k n.val st.slot 0x46 st.gen (BitVec.ofNat 64 st.ts) 0 (bUser b))) ∧
    (∀ ws : Nat → Word × Bool, live true → st.left ≠ some 0 → space → calm → bSsp b ≠ 0 → st.node % 8 = 0 → st.link < 8 →
      (∀ i < 8, s.chipRead core (bSsp b) ((st.node / 8 : Nat) + (i : Nat)) = some (ws i)) →
      let v := (ws st.link).1
      ∃ r : Tok, exec (.streamBeat k n) s =
          .next (((s.modStream k n.val fun y => { y with page := none }).streamSend k st.out r).modStream k n.val fun y =>
            { y with
              pos := (st.pos + 1) % 2 ^ 48
              left := if v = 0 then some 0 else st.left.map (· - 1)
              node := (v + st.step).toNat % 2 ^ 52
              endDue := decide (v = 0) && st.endTok
              missDue := none
              formed := none }) ∧
        r.kind = 0 ∧ r.gen = st.gen ∧ r.mask = 0xFF ∧ ∀ i < 8, r.lanes.get i = (ws i).1) ∧
    (∀ m, st.st = .running → s.wakeDue = false → st.formed = none → st.missDue = some m → space →
      let inPage (p : Nat) : Prop := m.lanes.l0.toNat ≤ ((srcBit b p / 8) % 2 ^ 52).toNat ∧
        ((srcBit b p / 8) % 2 ^ 52).toNat < m.lanes.l0.toNat + m.lanes.l1.toNat
      ∃ (t : State) (e : Event), exec (.streamBeat k n) s = .next t ∧ t.evq.held = s.evq.held ++ [e] ∧ e.code = 0x41 ∧ e.w3 = m.lanes.l0 ∧
        e.w4 = BitVec.ofNat 64 st.pos ∧ t.mem = s.mem ∧
        let p' := ((t.tile k).ag.stream n.val).pos
        ((t.tile k).ag.stream n.val).missDue = none ∧ st.pos ≤ p' ∧ (∀ p, st.pos ≤ p → p < p' → inPage p) ∧
          (bN b ≤ p' ∨ ¬inPage p')) ∧
    (∀ m : Formed, st.st = .running → s.wakeDue = false → st.formed = some m → space → calm →
      exec (.streamBeat k n) s = .next ((s.streamSend k st.out m.tok).modStream k n.val fun y =>
        { y with
          pos := m.pos % 2 ^ 48
          left := m.left
          node := m.node
          endDue := m.endDue
          missDue := m.missDue
          formed := none })) ∧
    (∀ q more p lane j rest w, s.wakeDue = false → x.agq = q :: more → (∀ y ∈ x.agq, y.hold = none) →
      q.items = (p, lane, j) :: rest → (q.kind = .agsct ∨ q.kind = .agwr) → bSsp q.blk ≠ 0 → bSfmt q.blk = fmtRaw →
      srcBit q.blk p % 64 = 0 → s.engWord core (bSsp q.blk) (srcBit q.blk p / 64) = some w → s.wordHeld w = false →
      s.mem.wf = true →
      ∃ t, exec (.streamWrite k) s = .next t ∧
        (t.tile k).ag.agq = (if rest = [] then more else { q with items := rest } :: more) ∧
        (∀ a, a / 8 ≠ w ∨ q.dat.mask.getLsbD lane = false → t.mem.byte a = s.mem.byte a) ∧
        (q.dat.mask.getLsbD lane = true → t.mem.word w = q.dat.lanes.get lane ∧ t.mem.isPsn w = q.dat.psn ∧
          (q.kind = .agsct → t.mem.isFull w = true))) ∧
    (∀ q more p lane j rest v psn, s.wakeDue = false → x.agq = q :: more → (∀ y ∈ x.agq, y.hold = none) →
      q.items = (p, lane, j) :: rest → q.kind = .aggth → bSsp q.blk ≠ 0 → bSfmt q.blk = fmtRaw → bScen q.blk = false →
      bTfmt q.blk = 3 → srcBit q.blk p % 64 = 0 → lane < 8 →
      s.chipRead core (bSsp q.blk) (srcBit q.blk p / 64) = some (v, psn) →
      ∃ (t : State) (r : Tok), exec (.streamWrite k) s = .next t ∧ t.mem = s.mem ∧ r.lanes = q.res.lanes.set lane v ∧
        r.psn = (q.res.psn || psn) ∧ r.mask = q.res.mask ∧
        (rest ≠ [] → (t.tile k).ag.agq = { q with items := rest, res := r } :: more) ∧
        (rest = [] → (t.tile k).ag.agq = more ∧
          ∀ e ∈ (t.tile k).ag.inflight, e.ticket = q.ticket → e.val = some r))

/-- R187, R189 to R195: the copy instructions and the steps of a copy engine. TARM snapshots a block that passes its checks,
and binds its queue under bit 16 of B; TBIND binds an armed template; TMC gives a template the output of its SPACE
tokens or takes it back; COPY_START takes the head of the next queue in rotation with the snapshot and the token's
parameters; a copied word moves unchanged from RAW64 to RAW64; SPACE tokens carry the branch and the firing count;
COPY_END drops the token once nothing of the copy is owed or held at a bank. Where the manual is silent it tells the choice of log entries 9 and 49. -/
def Obligations.Copies : Prop :=
  ∀ (f : Fields) (s : State) (h : Hdr) (a b : Word),
    let k := s.focus.tile
    let core := tileCore k
    let y := s.core core
    let fires (o : Op) : Prop := Fires o f s ∧ (s.seen o f).header = .ok h
    let others (t : State) : Prop := t.mem = s.mem ∧ ∀ c, c ≠ core → t.core c = s.core c
    (fires .tarm → (s.seen .tarm f).intB = .ok b →
      let blk := maskLanes (s.seen .tarm f).a
      let n := (b.extractLsb' 0 6).toNat
      let q := (b.extractLsb' 8 6).toNat
      let prog := if bPmen blk then s.pmProgram (coreCluster core) (bPmp blk) else []
      let stop (code : Nat) (w3 w4 w5 : Word) : Prop := exec (.tarm f) s =
        .next ((s.markActive k).raise k s.focus.pool s.focus.slot code h.gen w3 w4 w5)
      (checkCopy blk = none → (bPmen blk = true → pmCheck prog = none) →
        ∃ t, exec (.tarm f) s = .next t ∧ others t ∧ ((t.core core).tmpl n).blk = blk ∧
          ((t.core core).tmpl n).prog = prog ∧ ((t.core core).tmpl n).armed = true ∧
          ((t.core core).tmpl n).count = 0 ∧ (∀ m, m ≠ n → (t.core core).tmpl m = y.tmpl m) ∧
          (b.getLsbD 16 = false → t.core core = y.modTmpl n fun z =>
            { z with blk := blk, prog := prog, armed := true, count := 0 }) ∧
          (b.getLsbD 16 = true → ((t.core core).queue q).bound = some n ∧
            ((t.core core).queue q).wp = (if bWprst blk then 0 else (y.queue q).wp))) ∧
      (∀ i, checkCopy blk = some i → stop 0x44 (BitVec.ofNat 64 i) 0 (bUser blk)) ∧
      (∀ i, checkCopy blk = none → bPmen blk = true → pmCheck prog = some i →
        stop 0x45 (BitVec.ofNat 64 (bPmp blk + i * 256)) ((prog.getD i 0).setWidth 64) 0)) ∧
    (fires .tbind → (s.seen .tbind f).intA = .ok a → (s.seen .tbind f).intB = .ok b →
      let n := (a.extractLsb' 0 6).toNat
      let q := (b.extractLsb' 0 6).toNat
      ((y.tmpl n).armed = true → ∃ t, exec (.tbind f) s = .next t ∧ others t ∧ ((t.core core).queue q).bound = some n ∧
        ((t.core core).queue q).wp = (if bWprst (y.tmpl n).blk then 0 else (y.queue q).wp) ∧
        ((t.core core).queue q).toks = (y.queue q).toks ∧ ∀ m, m ≠ q → (t.core core).queue m = y.queue m) ∧
      ((y.tmpl n).armed = false → exec (.tbind f) s =
        .next ((s.markActive k).raise k s.focus.pool s.focus.slot 0x44 h.gen 8 0 0))) ∧
    (fires .tmc → (s.seen .tmc f).intA = .ok a → (s.seen .tmc f).intB = .ok b →
      let n := (a.extractLsb' 0 6).toNat
      let o := f.md.toNat % 4
      ∃ t, exec (.tmc f) s = .next t ∧ others t ∧
        ((t.core core).tmpl n).spaceOut = (if b.getLsbD 0 then some (k, o) else none) ∧
        (b.getLsbD 0 = true → o < (s.tile k).ag.outs.length → ((t.tile k).ag.out o).owner = some (.template n))) ∧
    (∀ (c : Fin 64) (e : Fin 4),
      let z := s.core c.val
      (∀ q n p rest, (z.eng e.val).run = none → z.nextQueue e.val = some q → (z.queue q).toks = p :: rest →
        (z.queue q).bound = some n →
        let blk := paramBlock (z.tmpl n).blk p.tok
        (bMcn blk = 0 ∨ (z.tmpl n).spaceOut ≠ none) → e.val < z.engs.length →
        ∃ (t : State) (r : CopyRun), exec (.copyStart c e) s = .next t ∧ ((t.core c.val).eng e.val).run = some r ∧
          ((t.core c.val).eng e.val).last = q ∧ r.queue = q ∧ r.tmpl = n ∧ r.tok = p ∧ r.blk = blk ∧
          r.prog = (z.tmpl n).prog ∧ r.pos = 0 ∧ r.moved = false ∧ r.pend = [] ∧ r.owed = [] ∧ r.spaces = [] ∧
          r.count = (z.tmpl n).count + 1 ∧
          (t.core c.val).queue q = z.queue q ∧ t.mem = s.mem) ∧
      (∀ (r : CopyRun) (w : Word) (p : Bool) (d : Nat), (z.eng e.val).run = some r → bPmen r.blk = false → r.pm = none →
        r.pend = [] → s.wordOpen c.val e.val r.blk (dstBit r.blk r.pos / 64) = false →
        bSfmt r.blk = fmtRaw → bDfmt r.blk = fmtRaw → bScen r.blk = false → bMcn r.blk = 0 → bSsp r.blk ≠ 0 →
        (bDsp r.blk = 2 ∨ bDsp r.blk = 3) → srcBit r.blk r.pos % 64 = 0 → dstBit r.blk r.pos % 64 = 0 →
        dstBit r.blk (r.pos + 1) % 64 = 0 →
        s.chipRead c.val (bSsp r.blk) (srcBit r.blk r.pos / 64) = some (w, p) →
        s.engWord c.val (bDsp r.blk) (dstBit r.blk r.pos / 64) = some d → s.wordHeld d = false →
        (r.pos % bN0 r.blk + 1 < bN0 r.blk → dstBit r.blk (r.pos + 1) ≠ dstBit r.blk r.pos) → s.mem.wf = true →
        let t := (s.copyElem c.val e.val r).2
        t.mem.word d = w ∧ t.mem.isPsn d = (p || r.tok.tok.psn) ∧ t.mem.isFull d = true ∧
          (∀ x, x / 8 ≠ d → t.mem.byte x = s.mem.byte x) ∧
          ((t.core c.val).queue r.queue).wp = ((z.queue r.queue).wp + 1) % 2 ^ 48) ∧
      (∀ (r : CopyRun) (j : Nat) (rest : List Nat) (d o : Nat), (z.eng e.val).run = some r → r.spaces = j :: rest →
        (z.tmpl r.tmpl).spaceOut = some (d, o) → ((s.tile d).ag.out o).space = true → j < 16 →
        ∃ t, exec (.branchComplete c e) s = .next t ∧ ((t.core c.val).eng e.val).run = some { r with spaces := rest } ∧
          t = (s.streamSend d o ⟨⟨0, 0, 0, 0, 0, 0, 0, 0⟩, 0, BitVec.ofNat 4 j ++ (0 : BitVec 4) ++ BitVec.ofNat 16 r.count,
            false, 0, 0, 15, 4⟩).modRun c.val e.val fun v => { v with spaces := rest }) ∧
      (∀ (r : CopyRun), (z.eng e.val).run = some r → r.moved = true → r.pend = [] → r.owed = [] → r.spaces = [] →
        s.branchHeld c.val e.val none = false →
        ∃ t, exec (.copyEnd c e) s = .next t ∧ ((t.core c.val).eng e.val).run = none ∧
          ((t.core c.val).queue r.queue).toks = (z.queue r.queue).toks.drop 1 ∧ t.mem = s.mem))

/-! ### Task memory, commit and cancels -/

/-- R204, R273, R287 to R290, R329: TASK_LOAD and STORE_ENTRY perform the next global access of a request at its line. A
load takes the line's committed word where no store of its task stands there, or the word its own unit has stored, and
leaves a read mark; a store enters the bisque buffer and leaves memory as it is; an atomic does both; an access whose
walk fails is held and reported. KV_OPEN_PROCEED opens a slot that has become free, and waits on while an unfinished
tag holds it; under a tag that has been squashed there it is discarded. Where the manual is silent it tells the choice of log entries 20, 28 and 47. -/
def Obligations.TaskAccesses : Prop :=
  ∀ (s : State) (k n : Nat) (r : Req), (s.tile k).pe.reqs[n]? = some r →
    (∀ q ∈ (s.tile k).pe.reqs, q.ticket = r.ticket → q = r) →
    let u := s.reqAcr k r
    (∀ (x : Acc) (pa sh : Nat) (tier : Bool) (s1 : State), r.accs = [x] → x.space = 5 → x.lane < 8 → r.held = none →
      s.orderedBehind k r x = false → r.beat = false →
      s.reach (tileDie k) none u.job x.addr (r.op != .gld) = (.line pa sh tier, s1) →
      s1.discards (homeSlice pa) u = false →
      let sl := homeSlice pa
      let g := s1.atSlice sl u
      let line := pa / 64
      let word := pa % 64 / 8
      let done (i : Instr) (t : State) : Prop := exec i s = .next t ∧ ∀ a, t.mem.byte a = s.mem.byte a
      let result (t : State) (v : Word) : Prop := ∀ e ∈ (t.tile k).pe.inflight, e.ticket = r.ticket →
        ∃ y, e.val = some y ∧ ((∀ m, e.dst ≠ .areg m) → (∀ m, e.dst ≠ .pred m) → y.lanes.get x.lane = v)
      let mine (t : State) (p : BEntry → Prop) : Prop := ∃ e ∈ t.entries sl, e.is g line = true ∧ p e
      let holds (t : State) (v : Word) : Prop := mine t fun e =>
        ∀ i < 8, Tab.get? e.bytes (8 * word + i) = some (byteOf v i, s1.order)
      let bare : Prop := (∀ e ∈ s.entries sl, e.line ≠ line) ∧ s1.roomFor sl g = .ok s1
      (r.op = .gld → bare → ∃ t, done (.taskLoad k n) t ∧ result t (s.mem.word (pa / 8)) ∧
        mine t fun e => Tab.get? e.marks word = some none) ∧
      (∀ e v, r.op = .gld → e ∈ s.entries sl → e.is g line = true → e.job = g.job →
        (∀ e' ∈ s.entries sl, e'.line = line → e' = e) →
        (∀ i < 8, ∃ o, Tab.get? e.bytes (8 * word + i) = some (byteOf v i, o)) →
        ∃ t, done (.taskLoad k n) t ∧ result t v) ∧
      (r.op = .gst → bare → ∃ t, done (.storeEntry k n) t ∧ holds t (r.dat.lanes.get x.lane)) ∧
      (r.op = .gatom → bare → ∃ t, done (.storeEntry k n) t ∧ result t (s.mem.word (pa / 8)) ∧
        holds t (atomOp r.md (s.mem.word (pa / 8)) (r.dat.lanes.get x.lane)))) ∧
    (∀ (x : Acc) (rest : List Acc) (c l : Nat) (s1 : State), r.accs = x :: rest → x.space = 5 → r.held = none →
      s.orderedBehind k r x = false →
      s.reach (tileDie k) none u.job x.addr (r.op != .gld) = (.fault c l, s1) →
      ∀ i, (i = .taskLoad k n ∧ r.op = .gld ∨ i = .storeEntry k n ∧ (r.op = .gst ∨ r.op = .gatom)) →
        ∃ t e m, exec i s = .next t ∧ t.mem = s.mem ∧ t.evq.held = s.evq.held ++ [e] ∧ e.code = 0x40 ∧
          e.w3 = BitVec.ofNat 64 x.addr ||| BitVec.ofNat 64 (c * 2 ^ 60) ∧
          Tab.get? t.holds m = some ⟨u.job, u.lseq, x.addr, some l, .req k r.ticket, false⟩ ∧
          ∃ q ∈ (t.tile k).pe.reqs, q.ticket = r.ticket ∧ q.accs = r.accs ∧ q.held = some m) ∧
    (r.op = .kvrowOpen → r.waiting ≠ none → s.kvDead (tileDie k) r.gen = true →
      ∃ t, exec (.kvOpenProceed k n) s = .next t ∧ t.mem = s.mem ∧ t.dies = s.dies ∧
        ∀ q ∈ (t.tile k).pe.reqs, q.ticket ≠ r.ticket) ∧
    (∀ (key j : Nat) (y : KvArea), r.op = .kvrowOpen → r.waiting ≠ none → s.kvDead (tileDie k) r.gen = false →
      s.kvRow k r = some (key, y, j) →
      let d := tileDie k
      let at' := kvSlotKey key j
      (Tab.get? (s.die d).kvSlots at' = none → ∃ t, exec (.kvOpenProceed k n) s = .next t ∧ t.mem = s.mem ∧
        Tab.get? (t.die d).kvSlots at' = some ⟨s.kvTag d r.gen, (r.opb.lanes.l0.extractLsb' 0 32).toNat, []⟩) ∧
      (∀ z, Tab.get? (s.die d).kvSlots at' = some z → s.kvTag d z.tag ≠ 0 → s.kvTag d z.tag ≠ s.kvTag d r.gen →
        exec (.kvOpenProceed k n) s = .next s))

/-- R30, R31, R51, R293, R414 to R416: UNIT_COMMIT applies the entries of the oldest unit that can commit to its lines and
counts it; a write of CANCEL retires the launch it names with its CAUSE, or the graph or phase with all that lies in
it, or takes the job down, and posts CANCEL_DONE; a tear down of JOB_CTL is a cancel of the job; a cancel of what has
retired changes nothing; one written while the rails are off waits. Where the manual is silent it tells the choice of
log entries 8, 28, 29 and 82. -/
def Obligations.CommitAndCancels : Prop :=
  (∀ (s : State) (j : Nat) (y : Job) (l : Launch) (i : Nat) (e : BEntry), s.jobs = [(j, y)] → s.root.gens = [] →
    s.oldestUnit j = some (l, i) → Tab.get? s.launches l.lseq = some l → s.canCommit l i = true → i + 1 < l.unitCount →
    l.count + 1 < l.unitCount →
    (s.bisque.flatMap (·.2)).filter (fun e => e.lseq = l.lseq && e.unit = i) = [e] → s.mem.wf = true →
    ∃ t, exec .unitCommit s = .next t ∧
      (∀ w < 8, e.mask w = 0xFF → t.mem.word (8 * e.line + w) = e.word w ∧
        t.mem.isPsn (8 * e.line + w) = e.psn.contains w) ∧
      (∀ a, (∀ w < 8, a / 8 ≠ 8 * e.line + w ∨ e.mask w = 0) → t.mem.byte a = s.mem.byte a) ∧
      (∀ q ∈ t.bisque, ∀ x ∈ q.2, x.lseq = l.lseq → x.unit ≠ i) ∧
      ∃ l', Tab.get? t.launches l.lseq = some l' ∧ l'.count = l.count + 1 ∧ (l'.unit i).committed = true) ∧
  (∀ (s : State) (v : Word), s.thermal.off = false →
    let lev := (v.extractLsb' 62 2).toNat
    let j := (v.extractLsb' 56 6).toNat
    let id := (v.extractLsb' 0 32).toNat
    let p := (v.extractLsb' 32 16).toNat
    let names (t : State) (status : Nat) : Prop := ∃ e ∈ t.evq.held, e.code = 0xD2 ∧ e.w2 = v ∧ e.w3.extractLsb' 0 4 =
      BitVec.ofNat 4 status
    let ended (t : State) (c : Nat → Launch → Prop) : Prop := ∀ m l, Tab.get? s.launches m = some l → c m l →
      l.st ≠ .retired → ∃ l', Tab.get? t.launches m = some l' ∧ l'.st = .retired ∧ l'.cause = some 0xFFFD
    v.extractLsb' 48 8 = 0 → (s.job j).st = 1 →
    (∀ l, lev = 0 → p = 0 → Tab.get? s.launches id = some l → l.lseq = id → l.job = j →
      (l.st ≠ .retired → ∃ t, exec (.cancelLaunch v) s = .next t ∧ names t 0 ∧ ended t (fun m _ => m = id)) ∧
      (l.st = .retired → ∃ t, exec (.cancelLaunch v) s = .next t ∧ names t 1 ∧ t.launches = s.launches ∧
        t.mem = s.mem ∧ t.tiles = s.tiles)) ∧
    (lev = 0 → p = 0 → Tab.get? s.launches id = none → ∃ t, exec (.cancelLaunch v) s = .next t ∧ names t 3 ∧
      t.launches = s.launches ∧ t.mem = s.mem ∧ t.tiles = s.tiles) ∧
    (∀ g, lev = 1 → s.graph? j p id = some g → g.retired = false →
      (∀ n ∈ g.launches, ∃ l, Tab.get? s.launches n = some l ∧ l.job = j ∧ l.phase = p ∧ l.graph = id) →
      ∃ t g', exec (.cancelGraph v) s = .next t ∧ names t 0 ∧ t.graph? j p id = some g' ∧ g'.retired = true ∧
        g'.cancelled = true ∧ ended t fun _ l => l.job = j ∧ l.phase = p ∧ l.graph = id) ∧
    (∀ x, lev = 2 → p = 0 → id < 65536 → s.phase? j id = some x → x.retired = false →
      (∀ i ∈ x.graphs, ∃ g, s.graph? j id i = some g ∧ (g.retired = true ∨
        ∀ n ∈ g.launches, ∃ l, Tab.get? s.launches n = some l ∧ l.job = j ∧ l.phase = id ∧ l.graph = i)) →
      ∃ t x', exec (.cancelPhase v) s = .next t ∧ names t 0 ∧ t.phase? j id = some x' ∧ x'.retired = true ∧
        x'.cancelled = true ∧ ended t fun _ l => l.job = j ∧ l.phase = id) ∧
    (lev = 3 → p = 0 → id = 0 → ∃ t, exec (.cancelJob v) s = .next t ∧ names t 0 ∧ (t.job j).st ≠ 1 ∧
      ended t fun _ l => l.job = j)) ∧
  (∀ (s : State) (j : Fin 64) (v : Word), v.extractLsb' 62 2 = 3 →
    ∃ t, exec (.jobTeardown j v) s = .next t ∧ exec (.cancelJob ((3 : BitVec 2) ++ BitVec.ofNat 6 j.val ++ 0#56)) s = .next t) ∧
  (∀ (s : State) (v : Word), s.thermal.off = true → v.extractLsb' 62 2 = 0 →
    ∃ t, exec (.cancelLaunch v) s = .next t ∧ t.thermal.cancels = s.thermal.cancels ++ [v] ∧ t.launches = s.launches ∧
      t.mem = s.mem)

/-! ### The host, the arbiter and placement -/

/-- R48 to R51, R294, R346, R353, R383, R386, R387, R397: the registers of the host. FEAT_ACCEPT and the save area stand once
ENABLE is set, ENABLE is refused while the save area is short or a chiplet has not attested, a function reset clears it;
a free job is created and another is not; BAR2 reads and writes the bytes of committed memory below the end of HBM; a clock
takes a REQ from 16 to 68, unless firmware is handed over, and follows it one setting at a time; each register keeps what
its bits allow, an interrupt enable reads zero without its feature, and no write of one touches memory or a tile. A package
that is halted or has no firmware answers no read of BAR0. Where the manual is silent it tells the choice of log entries 31, 33, 85 and 86. -/
def Obligations.HostRegisters : Prop :=
  ∀ (s : State) (v : Word),
    let rest (t : State) : Prop := t.mem = s.mem ∧ t.tiles = s.tiles ∧ t.launches = s.launches
    let answers : Prop := s.trust.halted = false ∧ s.trust.noFw = false
    (¬answers → ∀ off, s.readBar0 off = none) ∧
    ((s.host.accept.getD 0 0).getLsbD 5 = false → ∀ x, s.readBar0 0x808 = some x → x.getLsbD 8 = false) ∧
    (∀ f : Fin 4, (s.host.enabled = true → exec (.featAcceptWrite f v) s = .next s) ∧
      (s.host.enabled = false → ∃ t, exec (.featAcceptWrite f v) s = .next t ∧ rest t ∧
        let offer : Word := if f = 0 then 0x7F else 0
        t.host.accept = s.host.accept.set f.val (v &&& offer) ∧
          (answers → f.val < s.host.accept.length → t.readBar0 (0x20 + 8 * f.val) = some (v &&& offer)) ∧
          (t.host.mismatch = true ↔ s.host.mismatch = true ∨ v &&& ~~~offer ≠ 0))) ∧
    (v.getLsbD 0 = true → s.host.enabled = false → 6 ≤ s.host.saveLen.toNat →
      (∀ i < 26, s.trust.attested.getLsbD i = true ∨ s.trust.quarantined.getLsbD i = true) →
      ∃ t, exec (.enable v) s = .next t ∧ rest t ∧ t.host.enabled = true ∧ t.evq.written = 0) ∧
    (v.getLsbD 0 = true → s.host.enabled = false → s.host.saveLen.toNat < 6 →
      ∃ t, exec (.enable v) s = .next t ∧ rest t ∧ t.host.enabled = false ∧ t.host.saveShort = true) ∧
    (v.getLsbD 0 = true → 6 ≤ s.host.saveLen.toNat →
      (∃ i < 26, s.trust.attested.getLsbD i = false ∧ s.trust.quarantined.getLsbD i = false) →
      exec (.enable v) s = .next s) ∧
    (∃ t, exec .functionReset s = .next t ∧ rest t ∧ t.host.enabled = false ∧ t.host.accept = [0, 0, 0, 0]) ∧
    (∀ j : Fin 64, v.extractLsb' 62 2 = 1 →
      ((s.job j.val).st = 0 → ∃ t, exec (.jobCreate j v) s = .next t ∧ rest t ∧ (t.job j.val).st = 1 ∧
        (t.job j.val).prio = (v.extractLsb' 56 4).toNat ∧ (t.job j.val).ptroot = (v.extractLsb' 12 40).toNat ∧
        (t.job j.val).count = 0 ∧
        (answers → t.readBar0 (0x100 + 8 * j.val) = some (0x1000000000000000 ||| (v &&& 0x0F0FFFFFFFFFF000))) ∧ ∀ m, m ≠ j.val → t.job m = s.job m) ∧
      ((s.job j.val).st ≠ 0 → ∃ (t : State) (e : Event), exec (.jobCreate j v) s = .next t ∧ rest t ∧ t.jobs = s.jobs ∧
        t.evq.held = s.evq.held ++ [e] ∧ e.code = 0x07 ∧ e.w3 = v)) ∧
    (∃ t, exec (.qwcAck v) s = .next t ∧ rest t ∧ t.host.snapBusy = s.host.snapBusy &&& ~~~(v.extractLsb' 0 8)) ∧
    (∀ off, ∃ t u, exec (.bar2Read off) s = .next t ∧ rest t ∧ t.host.bar2 = u ∧
      (∀ i < 8, byteOf u.1 i = if off + i < 0xC000000000 then s.mem.byte (off + i) else 0xFF) ∧
      (u.2 = true ↔ ∃ i < 8, off + i < 0xC000000000 ∧ s.mem.isPsn ((off + i) / 8) = true)) ∧
    (∀ (off : Nat) (bytes : List Byte), s.mem.wf = true → ∃ t, exec (.bar2Write off bytes) s = .next t ∧ t.tiles = s.tiles ∧
      t.mem.wf = true ∧
      (∀ a, off ≤ a → a < off + bytes.length → a < 0xC000000000 → t.mem.byte a = bytes.getD (a - off) 0) ∧
      (∀ a, a < off ∨ off + bytes.length ≤ a ∨ 0xC000000000 ≤ a → t.mem.byte a = s.mem.byte a) ∧
      ∀ w, t.mem.isPsn w = true ↔
        s.mem.isPsn w = true ∧ ¬(off ≤ 8 * w ∧ 8 * w + 8 ≤ off + bytes.length ∧ 8 * w < 0xC000000000)) ∧
    (∀ c : Fin 64, let r := (v.extractLsb' 0 7).toNat
      (16 ≤ r → r ≤ 68 → s.trust.fwState ≠ 3 → ∃ t, exec (.clkCtlWrite c v) s = .next t ∧ rest t ∧ (t.core c.val).req = r ∧
        (t.core c.val).cur = (s.core c.val).cur ∧ ∀ m, m ≠ c.val → t.core m = s.core m) ∧
      (r < 16 ∨ 68 < r ∨ s.trust.fwState = 3 → exec (.clkCtlWrite c v) s = .next s)) ∧
    (∀ c : Fin 64, let k := s.core c.val
      ∃ t, exec (.clockStep c) s = .next t ∧ rest t ∧ (t.core c.val).req = k.req ∧
        (k.cur < k.req → (t.core c.val).cur = k.cur + 1) ∧ (k.req < k.cur → (t.core c.val).cur + 1 = k.cur) ∧
        (k.cur = k.req → (t.core c.val).cur = k.cur)) ∧
    (∀ off, ∃ t, exec (.registerWrite off v) s = .next t ∧ rest t ∧
      (∀ q < 16, off = 0x400 + 32 * q → (t.lq q).base = v &&& ~~~0x7F ∧ (t.lq q).cfg = (s.lq q).cfg) ∧
      (off = 0x50 → t.host.lqRetry = v.extractLsb' 0 8) ∧
      (off = 0x800 → t.host.evqBase = v &&& ~~~0xFFF) ∧
      (off = 0x808 → t.host.evqCfg.extractLsb' 0 5 = v.extractLsb' 0 5 ∧
        t.host.evqCfg.getLsbD 8 = ((s.host.accept.getD 0 0).getLsbD 5 && v.getLsbD 8)) ∧
      (off = 0x8A0 → t.host.saveBase = if s.host.enabled then s.host.saveBase else v &&& 0xFFFFFC0000000) ∧
      (off = 0x8A8 → t.host.saveLen = if s.host.enabled then s.host.saveLen else v.extractLsb' 0 8) ∧
      (off = 0x8C0 → t.host.yieldBound = if v.extractLsb' 0 16 = 0 then s.host.yieldBound else v.extractLsb' 0 16) ∧
      (off = 0x8C8 → (85 ≤ (v.extractLsb' 0 8).toNat ∧ (v.extractLsb' 0 8).toNat ≤ 115 ∧
          (v.extractLsb' 8 8).toNat + 10 ≤ (v.extractLsb' 0 8).toNat →
          t.host.thermCrit = v.extractLsb' 0 8 ∧ t.host.thermResume = v.extractLsb' 8 8)) ∧
      (off = 0xA00 → t.power.cap = (let c := (v.extractLsb' 0 16).toNat
        if 1800 ≤ c ∧ c ≤ 3400 ∧ c % 25 = 0 then c else s.power.cap)) ∧
      (off = 0xA10 → t.power.undeclRate = (let r := (v.extractLsb' 0 5).toNat
        if 1 ≤ r ∧ r ≤ 16 then r else s.power.undeclRate)) ∧
      (∀ j < 64, off = 0xC40 + 8 * j → (t.job j).dampN = (v.extractLsb' 0 16).toNat ∧
        (t.job j).dampW = (if 64 ≤ (v.extractLsb' 16 16).toNat then (v.extractLsb' 16 16).toNat else (s.job j).dampW) ∧
        (t.job j).st = (s.job j).st))

/-- R49, R52 to R58, R62 to R67, R413: launch queues, the arbiter and the event ring. A write of LQ_CFG while EN is 1 takes
the head to 0; a notify extends the range to fetch, or is counted or reported, and none comes by the port of a quarantined I/O die; a sealed packet that passes its checks
is taken in order, a wrong seal stops the queue; the arbiter accepts the packet of the highest queue under the next
LSEQ and releases the next launch whose image is in order; an event is written whole at its entry, in order of
posting. Where the manual is silent it tells the choice of log entries 21, 22, 23 and 65. -/
def Obligations.LaunchQueuesAndEvents : Prop :=
  ∀ (s : State) (q : Fin 16),
    let x := s.lq q.val
    let quiet (t : State) : Prop := t.mem = s.mem ∧ t.tiles = s.tiles
    let others (t : State) : Prop := ∀ m, m ≠ q.val → t.lq m = s.lq m
    (∀ v, ∃ t, exec (.lqCfgWrite q v) s = .next t ∧ quiet t ∧ others t ∧ (t.lq q.val).cfg = v &&& 0xF11 ∧
      (t.lq q.val).base = x.base ∧ (t.lq q.val).checked = x.checked ∧
      (x.cfg.getLsbD 0 = true → (t.lq q.val).head = 0 ∧ (t.lq q.val).ranges = []) ∧
      (x.cfg.getLsbD 0 = false → (t.lq q.val).head = x.head ∧ (t.lq q.val).ranges = x.ranges)) ∧
    (∀ (v : Word) (port ro : Bool),
      let last : BitVec 32 := v.extractLsb' 32 32 + 1
      let n := (last - x.head).toNat
      let lg := (x.cfg.extractLsb' 8 4).toNat
      let owner : Prop := x.cfg.getLsbD 0 = true ∧ 1 ≤ lg ∧ lg ≤ 12 ∧ port = x.cfg.getLsbD 4
      let up : Prop := port = false ∨ s.trust.quarantined.getLsbD 9 = false
      (¬up → exec (.lqNotify q v port ro) s = .next s) ∧
      (s.host.enabled = false → up → ∃ t, exec (.lqNotify q v port ro) s = .next t ∧ t.host.dropped = s.host.dropped + 1 ∧
        t.lqs = s.lqs ∧ t.evq = s.evq) ∧
      (s.host.enabled = true → up → owner → n = 0 → exec (.lqNotify q v port ro) s = .next s) ∧
      (s.host.enabled = true → up → owner → 0 < n → n ≤ 2 ^ lg → x.ranges = [] →
        ∃ t, exec (.lqNotify q v port ro) s = .next t ∧ quiet t ∧ others t ∧ t.evq = s.evq ∧
          (t.lq q.val).ranges = [(last, ro && (s.host.accept.getD 0 0).getLsbD 0)] ∧ (t.lq q.val).head = x.head) ∧
      (s.host.enabled = true → up → (owner → 2 ^ lg < n) → ∃ (t : State) (e : Event), exec (.lqNotify q v port ro) s = .next t ∧ quiet t ∧
        t.lqs = s.lqs ∧ t.evq.held = s.evq.held ++ [e] ∧ e.code = 0x06 ∧ e.w3 = v)) ∧
    (∀ (last : BitVec 32) (ro : Bool) (more : List (BitVec 32 × Bool)) (i : Instr), x.ranges = (last, ro) :: more →
      s.thermal.critDies = [] →
      (i = .packetFetch q ∧ x.reads = 0 ∨ i = .sealReread q ∧ x.reads ≠ 0 ∧ x.readAt + 425 ≤ s.refCyc) →
      let ws := s.mem.words (x.base.toNat / 8 + 16 * (x.head.toNat % 2 ^ (x.cfg.extractLsb' 8 4).toNat)) 16
      let sealed : Prop := ws.getD 15 0 = x.head ++ ~~~x.head
      (sealed → s.packetCheck q.val x.head ws = none → ∃ t, exec i s = .next t ∧ quiet t ∧ others t ∧
        t.evq = s.evq ∧ (t.lq q.val).head = x.head + 1 ∧ (t.lq q.val).checked = x.checked ++ [(x.head, ws)]) ∧
      (∀ code w3, sealed → s.packetCheck q.val x.head ws = some (code, w3) → ∃ (t : State) (e : Event), exec i s = .next t ∧ quiet t ∧
        others t ∧ t.evq.held = s.evq.held ++ [e] ∧ e.code = code ∧ e.w3 = w3 ∧ (t.lq q.val).head = x.head + 1 ∧
        (t.lq q.val).checked = x.checked) ∧
      (¬sealed → (ro = false ∨ s.host.lqRetry.toNat ≤ x.reads) → ∃ (t : State) (e : Event), exec i s = .next t ∧ quiet t ∧ others t ∧
        t.evq.held = s.evq.held ++ [e] ∧ e.code = 0x05 ∧ (t.lq q.val).head = x.head ∧ (t.lq q.val).ranges = []) ∧
      (¬sealed → ro = true → x.reads < s.host.lqRetry.toNat → ∃ t, exec i s = .next t ∧ quiet t ∧ others t ∧
        t.evq = s.evq ∧ (t.lq q.val).reads = x.reads + 1 ∧ (t.lq q.val).ranges = x.ranges)) ∧
    (∀ (n : Nat) (y : LaunchQ) (seq : BitVec 32) (ws : List Word), s.accepting = true →
      s.nextPacket = some (n, y, seq, ws) →
      ∃ t l, exec .acceptLaunch s = .next t ∧ Tab.get? t.launches s.arb.nextLseq = some l ∧ l.words = ws ∧
        l.seq = seq.toNat ∧ (t.lq n).checked = y.checked.drop 1 ∧ t.arb.nextLseq = (s.arb.nextLseq + 1) % 2 ^ 32 ∧
        ((∃ g, s.graph? l.job l.phase l.graph = some g ∧ g.retired = true) ∨
          (∃ p, s.phase? l.job l.phase = some p ∧ p.retired = true) → l.st = .retired ∧ l.cause = some 0xFFFF)) ∧
    (∀ (l : Launch) (a b : Nat) (tab : ImgTab), s.arb.hold = false → s.thermal.critDies = [] → s.nextRelease = some l →
      l.inval = false → s.arb.cache.find? (fun c => c.1 = l.job && c.2.1 = l.imgva) = some (a, b, tab) →
      tab.crcOk = true → l.lastBlk < tab.nblk → 4 < l.words.length →
      ∃ t m, exec .releaseLaunch s = .next t ∧ quiet t ∧ Tab.get? t.launches l.lseq = some m ∧ m.st = .released ∧
        m.img = some tab ∧ m.wmark = s.arb.published % 2 ^ 32 ∧
        t.arb.stream = s.arb.stream ++ [.release l.lseq]) ∧
    (∀ (e : Event) (more : List Event) (n : Nat), s.evq.held = e :: more → s.host.ring = some n →
      s.host.enabled = true → (s.evq.written + 1) % n ≠ s.host.evqHead.toNat % n → cellsFrom 0 s.hostMem = true →
      let base := s.host.evqBase.toNat + 64 * (s.evq.written % n)
      let ws := e.words (s.evq.written / n % 2 = 0)
      ∃ t, exec .eventWrite s = .next t ∧ quiet t ∧ t.evq.held = more ∧ t.evq.written = s.evq.written + 1 ∧
        (∀ i < 8, ∀ j < 8, getCell t.hostMem (base + 8 * i + j) = byteOf (ws.getD i 0) j) ∧
        ∀ a, a < base ∨ base + 64 ≤ a → getCell t.hostMem a = getCell s.hostMem a) ∧
    (∀ v : Word, ∃ t, exec (.evqHeadWrite v) s = .next t ∧ quiet t ∧ t.host.evqHead = v ∧
      t.evq.armed = true)

/-- R59, R68 to R72, R89, R412: a die applies the records of the arbiter's stream in order. A release places its launch
where the algorithm finds positions, each block of the die in a region of its own place and size, or holds it where it
finds none; a die whose count of retirements differs from WMARK stops and is quarantined; a retirement takes the
launch's blocks out of their regions; an invalidation clears the die's images; a new DAVAIL reaches every die once all
have applied what was sent. Where the manual is silent it tells the choice of log entries 28, 32 and 34. -/
def Obligations.Placement : Prop :=
  ∀ (s : State) (d : Fin 8),
    let x := s.die d.val
    (∀ (lseq : Nat) (l : Launch) (tab : ImgTab), s.nextRec d.val = some (.release lseq) →
      Tab.get? s.launches lseq = some l → l.img = some tab → l.lseq = lseq →
      (x.retired % 2 ^ 32 = l.wmark → l.st ≠ .retired → l.inval = false → l.masked tab = none →
        (∀ taken, s.findPlaces x l tab l.blks [] = some taken → s.xmapConflict l tab taken = none →
          (taken.map Taken.blk).Nodup → taken ≠ [] →
          ∃ t, exec (.placeLaunch d) s = .next t ∧ t.mem = s.mem ∧ (t.die d.val).applied = x.applied + 1 ∧
            (∀ y ∈ taken, ∃ bs, Tab.get? (t.die d.val).table y.key = some bs ∧ lseq * 256 + y.blk ∈ bs) ∧
            (l.places = [] → ∃ m, Tab.get? t.launches lseq = some m ∧ m.st = .placed) ∧
            ∀ y ∈ taken, y.pos.die = d.val → ∃ b r, Tab.get? t.blocks (lseq * 256 + y.blk) = some b ∧ b.lseq = lseq ∧
              b.idx = y.blk ∧ b.rid = y.key ∧ b.x = y.pos.x ∧ b.y = y.pos.y ∧ b.finished = 0 ∧
              Tab.get? t.regions y.key = some r ∧ lseq * 256 + y.blk ∈ r.blocks) ∧
        (s.findPlaces x l tab l.blks [] = none → ∃ t m, exec (.placeLaunch d) s = .next t ∧ t.mem = s.mem ∧
          t.tiles = s.tiles ∧ t.blocks = s.blocks ∧ (t.die d.val).heldL = putNat x.heldL lseq ∧
          (∀ m, m ∈ (t.die d.val).heldL ↔ m ∈ x.heldL ∨ m = lseq) ∧
          Tab.get? t.launches lseq = some m ∧ (l.st = .released → m.st = .held))) ∧
      (x.retired % 2 ^ 32 ≠ l.wmark → x.desync = false → ∃ (t : State) (e : Event), exec (.placeLaunch d) s = .next t ∧
        t.blocks = s.blocks ∧ t.launches = s.launches ∧ t.evq.held = s.evq.held ++ [e] ∧ e.code = 0x08 ∧
        t.trust.quarantined.getLsbD d.val = true ∧ t.arb.hold = true)) ∧
    (∀ lseq, s.nextRec d.val = some (.retire lseq) → x.heldL = [] →
      ∃ t, exec (.applyRetirementRecord d) s = .next t ∧ (t.die d.val).applied = x.applied + 1 ∧
        (t.die d.val).retired = x.retired + 1 ∧
        ∀ k b, Tab.get? s.blocks k = some b → b.lseq = lseq → b.die = d.val → s.inWave b k = false →
          Tab.get? t.blocks k = none) ∧
    (s.nextRec d.val = some .inval → ∃ t, exec (.applyInvalidation d) s = .next t ∧ (t.die d.val).icache = [] ∧
      (t.die d.val).applied = x.applied + 1 ∧ t.mem = s.mem ∧ t.tiles = s.tiles) ∧
    (∀ v, (∀ e < 8, (s.die e).applied = s.arb.stream.length) → (∀ e < 8, (s.die e).heldL = []) →
      ∃ t, exec (.davailChange v) s = .next t ∧ (∀ e < 8, (t.die e).davail = v) ∧ t.mem = s.mem ∧ t.tiles = s.tiles) ∧
    (∀ v, (∃ e < 8, (s.die e).applied ≠ s.arb.stream.length) → ∃ t, exec (.davailChange v) s = .next t ∧
      t.arb.hold = true ∧ t.dies = s.dies)

/-! ### Channels -/

/-- R34, R35, R85, R88, R115, R118, R120 to R122, R125 to R127, R316: the ends of channels. A thread token joins its entry
queue while it has room; a token reaches its input or the done sink, and one of
a dead generation is dropped; credits and requests reach the producer or the
link toward it; a depth token sets its input's depth, or is reported; END at the done sink finishes a unit's run; the
shares of an epoch sum to 1,024. Where the manual is silent it tells the choice of log entries 1, 8, 11 and 38. -/
def Obligations.ChannelEnds : Prop :=
  ∀ (s : State),
    (∀ (lseq : Nat) (l : Launch) (b : Block) (y : Chan),
      let bid := lseq * 256 + l.firstBlk
      let ch := bid * 32768 + 4096
      Tab.get? s.launches lseq = some l → Tab.get? s.blocks bid = some b → Tab.get? s.chans ch = some y →
      l.st = .placed → s.queued bid < (b.entry.2.1.extractLsb' 32 16).toNat →
      (l.reTok = [] → l.nextTok < l.unitCount → ∃ t m, exec (.threadTokenEnqueue lseq) s = .next t ∧ t.mem = s.mem ∧
        Tab.get? t.launches lseq = some m ∧ m.nextTok = l.nextTok + 1 ∧
        Tab.get? t.chans ch = some { y with items := y.items ++
          [.tok ⟨⟨BitVec.ofNat 64 (l.ts l.nextTok % 2 ^ 48), BitVec.ofNat 64 l.nextTok, BitVec.ofNat 64 (l.lseq % 2 ^ 32),
            0, 0, 0, 0, 0⟩, 0, 0, false, 7, 0, 1, 0⟩ 0] }) ∧
      (∀ i g x rest, l.reTok = (i, g, x) :: rest → (Tab.get (s.die b.die).mirror g.toNat GenEnt.reset).st = .live →
        ∃ t m, exec (.threadTokenEnqueue lseq) s = .next t ∧ Tab.get? t.launches lseq = some m ∧ m.reTok = rest ∧
          Tab.get? t.chans ch = some { y with items := y.items ++ [.tok (threadToken l i g) 0] })) ∧
    (∀ (ch : Nat) (y : Chan), Tab.get? s.chans ch = some y →
      (∀ (r : Tok) (rest : List Item), let u := s.arriving y r
        (u = r ∨ u = { r with gen := 0 }) ∧ (y.items = .tok r 0 :: rest → y.dead.contains u.gen = false →
        (∀ (k : Nat) (p : Pool) (i : Nat), let x := ((s.tile k).pool p).inp i
          y.dst = .inp k p i → x.chan = some ch →
          (x.queue.length < x.depth ∨ (∃ a b c, y.src = .out a b c) ∧ isSwap u = false) →
          (u.kind ≠ 0 ∨ s.dampRegion y k = none) → (∀ z, s.regionOf k = some z → z.armed = none) →
          (∀ b l, (s.tile k).block = some b → Tab.get? s.launches (b / 256) = some l → l.st ≠ .retired) →
          ∃ t z, exec (.tokenArrive ch) s = .next t ∧ t.mem = s.mem ∧
            (((t.tile k).pool p).inp i).queue = x.queue ++ [u] ∧ Tab.get? t.chans ch = some z ∧ z.items = rest) ∧
        (∀ (bid : Nat) (b : Block), y.dst = .done bid → Tab.get? s.blocks bid = some b →
          ∃ t, exec (.tokenArrive ch) s = .next t ∧ t.mem = s.mem ∧ t.tiles = s.tiles ∧
            Tab.get? t.chans ch = some { y with items := rest } ∧
            Tab.get? t.blocks bid = some { b with doneQ := b.doneQ ++ [u] }))) ∧
      (∀ (r : Tok) (n : Nat) (rest : List Item), y.items = .tok r n :: rest →
        y.dead.contains (s.arriving y r).gen = true → ∃ t z, exec (.tokenArrive ch) s = .next t ∧ t.mem = s.mem ∧
          Tab.get? t.chans ch = some z ∧ z.items = rest) ∧
      (∀ (k : Nat) (p : Pool) (o k' : Nat) (p' : Pool) (i' : Nat), y.src = .out k p o → y.dst = .inp k' p' i' →
        (y.credBack ≠ 0 → y.path = [] → (((s.tile k).pool p).out o).chan = some ch →
          ∃ t, exec (.creditReturn ch) s = .next t ∧ t.mem = s.mem ∧ Tab.get? t.chans ch = some { y with credBack := 0 } ∧
            (((t.tile k).pool p).out o).credits = (((s.tile k).pool p).out o).credits + y.credBack) ∧
        (∀ l dir, y.credBack ≠ 0 → y.path.getLast? = some (l, dir) → exec (.creditReturn ch) s =
          .next ((s.setChan ch { y with credBack := 0 }).queueSeg l (!dir) (.credit ch 0 0 y.credBack))) ∧
        (y.reqBack ≠ 0 → y.path = [] → (((s.tile k).pool p).out o).chan = some ch →
          ∃ t, exec (.requestReturn ch) s = .next t ∧ t.mem = s.mem ∧ Tab.get? t.chans ch = some { y with reqBack := 0 } ∧
            (((t.tile k).pool p).out o).reqs = (((s.tile k).pool p).out o).reqs + y.reqBack) ∧
        (∀ l dir, y.reqBack ≠ 0 → y.path.getLast? = some (l, dir) → exec (.requestReturn ch) s =
          .next ((s.setChan ch { y with reqBack := 0 }).queueSeg l (!dir) (.request ch 0 0 y.reqBack))))) ∧
    (∀ (k : Nat) (p : Pool) (i : Fin 4) (r : Tok) (rest : List Tok),
      let x := ((s.tile k).pool p).inp i.val
      let n := (r.side.extractLsb' 0 5).toNat + 1
      x.queue = r :: rest → r.kind = 5 → r.side.extractLsb' 20 4 = 1 →
      (n ≤ x.depth + (s.tile k).freeBeats → ∃ t, exec (.depthToken k p i) s = .next t ∧ t.mem = s.mem ∧
        t.evq = s.evq ∧ ((t.tile k).pool p).inp i.val = { x with queue := rest, depth := n }) ∧
      (x.depth + (s.tile k).freeBeats < n → ∃ (t : State) (e : Event), exec (.depthToken k p i) s = .next t ∧ t.mem = s.mem ∧
        t.evq.held = s.evq.held ++ [e] ∧ e.code = 0x17 ∧ ((t.tile k).pool p).inp i.val = { x with queue := rest })) ∧
    (∀ (lseq blk : Nat) (l : Launch) (b : Block) (r : Tok) (rest : List Tok),
      Tab.get? s.launches lseq = some l → Tab.get? s.blocks (lseq * 256 + blk) = some b → l.lseq = lseq →
      b.doneQ = r :: rest →
      (r.kind ≠ 1 → ∃ t, exec (.unitFinish lseq blk) s = .next t ∧ t.launches = s.launches ∧ t.mem = s.mem ∧
        Tab.get? t.blocks (lseq * 256 + blk) = some { b with doneQ := rest }) ∧
      (r.kind = 1 → r.gen = 0 → b.finished < (if blk = l.firstBlk then l.nextTok else l.unitCount) →
        ∃ t, exec (.unitFinish lseq blk) s = .next t ∧ t.mem = s.mem ∧
          Tab.get? t.blocks (lseq * 256 + blk) = some { b with doneQ := rest, finished := b.finished + 1 }) ∧
      (r.kind = 1 → r.gen ≠ 0 → (s.root.ent r.gen.toNat).st = .live → (s.root.ent r.gen.toNat).lseq = lseq →
        ∃ t m u, exec (.unitFinish lseq blk) s = .next t ∧ t.mem = s.mem ∧ Tab.get? t.launches lseq = some m ∧
          (m.unit (s.root.ent r.gen.toNat).pos).run? r.gen = some u ∧ u.fin.contains blk = true ∧
          Tab.get? t.blocks (lseq * 256 + blk) = some { b with doneQ := rest })) ∧
    (∀ (k : Nat) (p : Pool),
      let x := (s.tile k).pool p
      let w : Machine.Group → Nat := fun (g : Machine.Group) => g.w * (g.occ / 1024 + 1)
      x.epochAt + 1024 ≤ (s.core (tileCore k)).cyc → (s.tile k).gated = false →
      ∃ (t : State) (gs : List Machine.Group), exec (.epochEnd k p) s = .next t ∧ t.mem = s.mem ∧ ((t.tile k).pool p).epochAt = x.epochAt + 1024 ∧
        ((t.tile k).pool p).groups = gs ∧ gs.length = x.groups.length ∧
        (∀ (i : Nat) (g : Machine.Group), x.groups[i]? = some g → g.w = 0 → gs[i]? = some g) ∧
        (∀ (i : Nat) (g : Machine.Group), x.groups[i]? = some g → g.w ≠ 0 → (∃ (j : Nat) (h : Machine.Group), j < i ∧ x.groups[j]? = some h ∧ h.w ≠ 0) →
          gs[i]? = some { g with occ := 0, credit := ((1024 * w g / (x.groups.map w).sum : Nat) : Int) }) ∧
        ((∃ g ∈ x.groups, g.w ≠ 0) → ((gs.filter fun (g : Machine.Group) => g.w != 0).map (·.credit)).sum = 1024))

/-! ### Regions, loads and swaps -/

/-- R74, R75, R77 to R86, R203, R204, R347: the scheduler and the setter. A region stays with its resident block when that
wins, for a fresh quantum, or when none is a candidate, switches to an armed winner when no block is resident, and asks for pre-emption where
another block wins; the winner starves where any candidate does, and has the highest priority otherwise. A load begins
with the best block not resident, writes one shadow at a time and arms its region once every check has passed; one that
fails reports it and cancels its launch, and a gated tile that a load wakes reads zero. SWITCH installs a tile's shadow or
gates the tile, at once or when the ballast of its core has ended; a tile swaps by wavefront where the shapes agree. XINV drops what it covers when it completes, and a held access it covers walks again. Where
the manual is silent it tells the choice of log entries 30, 37, 38, 39, 54, 57, 69 and 92. -/
def Obligations.RegionsAndTranslations : Prop :=
  ∀ (s : State),
    (∀ (rid : Nat) (r : Region), Tab.get? s.regions rid = some r →
      (∀ w, s.winner r = some w → ∃ c ∈ s.cands r, c.bid = w ∧
        ∀ d ∈ s.cands r, (d.starved ≠ none → c.starved ≠ none) ∧ (c.starved = none → d.prio ≤ c.prio)) ∧
      (s.choosing rid r = true → s.winner r = none → exec (.chooseBlock rid) s = .next s) ∧
      (s.choosing rid r = true → r.resident ≠ none → s.winner r = r.resident →
        ∃ t, exec (.chooseBlock rid) s = .next t ∧ Tab.get? t.regions rid = some { r with quantumAt := r.cyc s } ∧
          t.mem = s.mem ∧ t.tiles = s.tiles) ∧
      (∀ w, s.choosing rid r = true → r.resident = none → s.winner r = some w → r.armed = some w →
        (∀ b, Tab.get? s.blocks w = some b → b.saved = none) →
        ∃ t, exec (.chooseBlock rid) s = .next t ∧
          Tab.get? t.regions rid = some { r with switching := some w, swapped := [] } ∧ t.tiles = s.tiles) ∧
      (∀ a w, s.choosing rid r = true → r.resident = some a → s.winner r = some w → w ≠ a → s.heldBlock a = false →
        ∃ t q, exec (.chooseBlock rid) s = .next t ∧ Tab.get? t.regions rid = some { r with pre := some q, calm := 0 } ∧
          q.since = s.time ∧ (q.scan = true ↔ s.yieldPools rid = []) ∧ t.tiles = s.tiles) ∧
      (∀ w, r.loading = none → r.armed = none → r.switching = none → r.waveBegun = false → s.thermal.critDies = [] →
        best ((s.cands r).filter fun c => some c.bid != r.resident) = some w →
        ∃ t, exec (.shadowLoad rid) s = .next t ∧ Tab.get? t.regions rid = some { r with loading := some ⟨w, [], none⟩ } ∧
          t.tiles = s.tiles) ∧
      (∀ (l : LoadSt) (b : Block) (x : Launch) (tab : ImgTab), r.loading = some l → l.hold = none →
        Tab.get? s.blocks l.bid = some b → Tab.get? s.launches (l.bid / 256) = some x → x.img = some tab →
        s.shadowErr rid l.bid = none →
        let at' := imageRange tab b.entry
        let c : CheckCtx := ⟨tab, b.idx, b.entry, l.imgs⟩
        (∀ img s1, l.imgs.length < at'.2 →
          s.fetchImage r.die b.job (imageVa x tab (at'.1 + l.imgs.length)) = (.got img, s1) →
          (imgW img 0).extractLsb' 32 32 = tab.vstamp → imgX img ≤ r.wm1 → imgY img ≤ r.hm1 →
          let k := tileKey r.die (r.x + imgX img) (r.y + imgY img)
          let own (a : Nat) : Prop := bankBase k ≤ a ∧ a < bankBase k + 2 ^ 16 ∨ laneBase k 0 ≤ a ∧ a < laneBase k 8
          ∃ t q, exec (.shadowLoad rid) s = .next t ∧ (t.tile k).shadow = some (l.bid, img) ∧ (t.tile k).gated = false ∧
            ((s.tile k).gated = false → t.mem = s.mem) ∧ (∀ a, ¬own a → t.mem.byte a = s.mem.byte a) ∧
            ((s.tile k).gated = true → s.thermal.kept.contains k = false → ∀ a, own a → t.mem.byte a = 0) ∧
            Tab.get? t.regions rid = some q ∧ q.loading = some { l with imgs := l.imgs ++ [img] }) ∧
        (at'.2 ≤ l.imgs.length → c.format (s.feature 3) = none → c.illegal = none →
          (∀ k ∈ s.regionTiles rid, (s.tile k).linkInputs = [] ∨ ∃ i ∈ (s.tile k).linkInputs,
            ∀ h ∈ (((s.tile k).pool i.1).inp i.2.val).queue, isSwap h = false) →
          ∃ t q, exec (.shadowLoad rid) s = .next t ∧ Tab.get? t.regions rid = some q ∧ q.loading = none ∧
            q.armed = some l.bid) ∧
        (∀ i a, at'.2 ≤ l.imgs.length → c.format (s.feature 3) = some (i, a) → b.saved = none → b.lseq = l.bid / 256 →
          x.st ≠ .retired →
          ∃ t y, exec (.shadowLoad rid) s = .next t ∧ (∃ e ∈ t.evq.held, e.code = 0x10 ∧ e.w3 = BitVec.ofNat 64 i) ∧
            Tab.get? t.launches b.lseq = some y ∧ y.st = .retired ∧ y.cause = some 0x10))) ∧
    (∀ (k rid bid : Nat) (r : Region), (s.tile k).region = some rid → Tab.get? s.regions rid = some r →
      r.switching = some bid → r.swapped.contains k = false →
      (∀ img tab, (s.tile k).shadow = some (bid, img) → s.tabOf bid = some tab →
        ∃ t, exec (.switch k) s = .next t ∧ (t.tile k).block = some bid ∧ (t.tile k).shadow = none ∧
          (t.tile k).gated = false ∧ ∀ p n, n < slotCount p →
            ((t.tile k).pool p).slots.getD n none = if slotValid img p n then some (imgSlot img p n) else none) ∧
      ((s.tile k).shadow = none → ∃ t, exec (.switch k) s = .next t ∧ (t.tile k).block = none ∧
        ((s.core (tileCore k)).ballast = 0 → (t.tile k).gated = true) ∧
        ((s.core (tileCore k)).ballast ≠ 0 → (t.tile k).gateDue = true))) ∧
    (∀ (k rid a b : Nat) (r : Region) (img : TileImg), (s.tile k).region = some rid → Tab.get? s.regions rid = some r →
      r.resident = some a → r.armed = some b → (s.tile k).shadow = some (b, img) → (s.tile k).block = some a →
      r.switching = none → r.pre = none → (s.tile k).stranded = false →
      (∀ la lb, r.waveBegun = false → s.sameShape rid a b = false →
        (s.tile k).chanIns.any InPort.swapHead = true → Tab.get? s.launches (a / 256) = some la →
        Tab.get? s.launches (b / 256) = some lb → la.st ≠ .retired → lb.st ≠ .retired →
        ∃ t ya yb, exec (.wavefrontSwap k) s = .next t ∧ (∃ e ∈ t.evq.held, e.code = 0x16) ∧
          Tab.get? t.launches (a / 256) = some ya ∧ ya.st = .retired ∧
          Tab.get? t.launches (b / 256) = some yb ∧ yb.st = .retired) ∧
      (s.sameShape rid a b = true → s.waveReady k a = false → exec (.wavefrontSwap k) s = .next s) ∧
      (∀ tab j, (r.waveBegun = false → s.sameShape rid a b = true ∧ ∀ l, l = a / 256 ∨ l = b / 256 → s.isRetired l = false) →
        s.waveReady k a = true → s.tabOf b = some tab →
        j ∈ s.regionTiles rid → j ≠ k → (∃ im, (s.tile j).shadow = some (b, im)) →
        ∃ t, exec (.wavefrontSwap k) s = .next t ∧ (t.tile k).block = some b ∧ (t.tile k).shadow = none ∧
          ∀ p n, n < slotCount p →
            ((t.tile k).pool p).slots.getD n none = if slotValid img p n then some (imgSlot img p n) else none)) ∧
    (∀ v : Word, s.host.xinv = none → ∃ t, exec (.xinv v) s = .next t ∧ t.mem = s.mem ∧
      t.host.xinv = some ((v.extractLsb' 58 6).toNat, v.getLsbD 57, (v.extractLsb' 16 36).toNat)) ∧
    (∀ j all page, s.host.xinv = some (j, all, page) → ∃ t, exec .xinvComplete s = .next t ∧ t.mem = s.mem ∧
      t.host.xinv = none ∧
      (∀ d ∈ t.dies, ∀ e ∈ d.2.tlb, e.job = j → all = false ∧ e.va / 2 ^ e.shift ≠ page * 65536 / 2 ^ e.shift) ∧
      (∀ u ∈ t.ucaches, ∀ e ∈ u.2, e.job = j → all = false ∧ e.va / 2 ^ e.shift ≠ page * 65536 / 2 ^ e.shift) ∧
      (∀ n h, Tab.get? s.holds n = some h → h.job = j → h.level ≠ none → all = true →
        Tab.get? t.holds n = some { h with ready := true })) ∧
    (∀ (n : Nat) (h : Hold), Tab.get? s.holds n = some h →
      (∀ k q, h.ready = true → h.site = .req k q → ∃ t, exec (.xlateReplay n) s = .next t ∧ t.mem = s.mem ∧
        Tab.get? t.holds n = none ∧ ∀ r ∈ (t.tile k).pe.reqs, r.ticket = q → r.held = none) ∧
      (h.ready = false → h.level ≠ none → exec (.xlateReplay n) s = .next s))

/-! ### Interruption -/

/-- R345 to R350, R352 to R354, R356, R361: QWC posts its event with a snapshot where the die's slot is free; a suspended
job's region is asked for pre-emption; the bound of a yield that runs out before its drain ends asks for
a scan; a drained region is
saved in the lowest free frame and becomes idle, or waits with SAVE_FULL; a saved block whose frame is in order becomes
resident again, and one whose frame is not is cancelled; corrected errors are counted, those of HBM by row and channel too,
and an uncorrectable one poisons its place, is posted, and in a register asks for the fencing of its tile. Where the manual is silent it tells the choice of log entries 37, 55, 56 and 94. -/
def Obligations.Interruption : Prop :=
  ∀ (s : State),
    (∀ (rid bid : Nat) (r : Region) (b : Block) (l : Launch), Tab.get? s.regions rid = some r → r.resident = some bid →
      Tab.get? s.blocks bid = some b → Tab.get? s.launches b.lseq = some l →
      let a := s.host.saveBase.toNat + r.die * 2 ^ 20
      let ws := s.snapshot r b
      (l.faulted = false → l.st ≠ .retired → r.pre = none → r.qwcRaised = false → eQwcw b.entry ≤ r.quiet →
        b.unfinished l = true → r.die < 8 →
        (s.host.snapBusy.getLsbD r.die = false → s.mem.wf = true → a % 8 = 0 →
          ∃ (t : State) (e : Event), exec (.qwc rid) s = .next t ∧ t.evq.held = s.evq.held ++ [e] ∧ e.code = 0x90 ∧
            e.w4 = BitVec.ofNat 64 a ∧ t.host.snapBusy.getLsbD r.die = true ∧
            (∀ i w, ws[i]? = some w → t.mem.word (a / 8 + i) = w) ∧
            (∀ y, y < a ∨ a + 8 * ws.length ≤ y → t.mem.byte y = s.mem.byte y) ∧ t.tiles = s.tiles) ∧
        (s.host.snapBusy.getLsbD r.die = true → ∃ (t : State) (e : Event), exec (.qwc rid) s = .next t ∧
          t.evq.held = s.evq.held ++ [e] ∧ e.code = 0x90 ∧ e.w4 = BitVec.allOnes 64 ∧ t.mem = s.mem ∧
          t.tiles = s.tiles)) ∧
      ((s.job b.job).suspended = true → r.pre = none → s.heldBlock bid = false →
        ∃ t q, exec (.preemptRequest rid) s = .next t ∧
          Tab.get? t.regions rid = some { r with pre := some q, calm := 0 } ∧ q.since = s.time ∧ q.why = 1 ∧
          t.tiles = s.tiles ∧ t.mem = s.mem) ∧
      (∀ q, r.pre = some q →
        let ended : Prop := s.drained rid (b.lseq * 256 + b.idx) r q = true
        (q.full = true ∨ ended → exec (.yieldOverrun rid) s = .next s) ∧
        (q.scan = false → q.full = false → ¬ended → q.since + 1000 * s.host.yieldBound.toNat ≤ s.time →
          ∃ (t : State) (e : Event), exec (.yieldOverrun rid) s = .next t ∧
            Tab.get? t.regions rid = some { r with pre := some { q with scan := true } } ∧
            t.evq.held = s.evq.held ++ [e] ∧ e.code = 0x91 ∧ t.tiles = s.tiles ∧ t.mem = s.mem) ∧
        (∀ n, s.drained rid bid r q = true → q.why ≠ 4 → s.freeFrame = some n →
          ∃ t r' b', exec (.drainEnd rid) s = .next t ∧ Tab.get? t.regions rid = some r' ∧ r'.resident = none ∧
            r'.pre = none ∧ Tab.get? t.blocks bid = some b' ∧ b'.saved = some n ∧
            ∃ f, Tab.get? t.frames n = some f ∧ f.bid = bid ∧ f.rid = rid) ∧
        (s.drained rid bid r q = true → q.why ≠ 4 → q.why ≠ 3 → q.full = false → s.freeFrame = none →
          ∃ (t : State) (e : Event), exec (.drainEnd rid) s = .next t ∧ t.evq.held = s.evq.held ++ [e] ∧ e.code = 0x99 ∧
            Tab.get? t.regions rid = some { r with pre := some { q with full := true } } ∧ t.tiles = s.tiles ∧
            t.mem = s.mem))) ∧
    (∀ (rid bid n : Nat) (r : Region) (b : Block) (f : Saved), Tab.get? s.regions rid = some r →
      s.restoring rid r = some bid → Tab.get? s.blocks bid = some b → b.saved = some n → Tab.get? s.frames n = some f →
      (s.frameBad n f = false → s.seqOf (.saved n) = s.root.log.length →
        ∃ t r' b', exec (.restoreBlock rid) s = .next t ∧ Tab.get? t.regions rid = some r' ∧ r'.resident = some bid ∧
          r'.armed = none ∧ Tab.get? t.blocks bid = some b' ∧ b'.saved = none ∧ Tab.get? t.frames n = none) ∧
      (∀ l, s.frameBad n f = true → Tab.get? s.launches (bid / 256) = some l → l.st ≠ .retired →
        ∃ t l', exec (.restoreBlock rid) s = .next t ∧ (∃ e ∈ t.evq.held, e.code = 0x98) ∧
          Tab.get? t.launches (bid / 256) = some l' ∧ l'.st = .retired ∧ l'.cause = some 0x98)) ∧
    (∀ v : Word, let j := (v.extractLsb' 0 6).toNat
      (v.getLsbD 8 = true → (s.job j).suspended = false → (∀ x ∈ s.jobs, x.2.suspended = false) → s.jobRegions j = [] →
        ∃ (t : State) (e : Event), exec (.jobSuspend v) s = .next t ∧ (t.job j).suspended = true ∧ t.evq.held = s.evq.held ++ [e] ∧
          e.code = 0x95 ∧ t.tiles = s.tiles ∧ t.mem = s.mem) ∧
      (v.getLsbD 8 = false → ∃ t, exec (.jobResume v) s = .next t ∧ (t.job j).suspended = false ∧
        (∀ i, i ≠ j → t.job i = s.job i) ∧ t.tiles = s.tiles ∧ t.mem = s.mem)) ∧
    (∀ d : Fin 8, let n := (s.die d.val).ceCount + 1
      ∀ hbm, ∃ t, exec (.softCe ⟨d, hbm⟩) s = .next t ∧ (t.die d.val).ceCount = n ∧ t.tiles = s.tiles ∧ t.mem = s.mem ∧
        (hbm = none → t.trust = s.trust) ∧
        (∀ pa, hbm = some pa → pa < 0xC000000000 →
          let x := Config.hbmPlace pa
          let ch := chanKey (Config.stackOf pa) x.1
          (Tab.get t.trust.rows (rowKey ch x.2.2) (0, 0, 0)).2.1 =
              (Tab.get s.trust.rows (rowKey ch x.2.2) (0, 0, 0)).2.1 + 1 ∧
            s.time ∈ Tab.get t.trust.chanCe ch []) ∧
        (n % 1024 ≠ 0 → t.evq = s.evq) ∧
        (n % 1024 = 0 → ∃ e : Event, t.evq.held = s.evq.held ++ [e] ∧ e.code = 0x92 ∧ e.w3 = BitVec.ofNat 64 n ∧
          e.w4 = BitVec.ofNat 64 d.val)) ∧
    (∀ w, s.mem.wf = true → ∃ (t : State) (e : Event), exec (.softUe (.mem w)) s = .next t ∧ t.mem.isPsn w = true ∧
      (∀ a, t.mem.byte a = s.mem.byte a) ∧ t.evq.held = s.evq.held ++ [e] ∧ e.code = 0x93 ∧ t.tiles = s.tiles) ∧
    (∀ k p n, ∃ (t : State) (e : Event), exec (.softUe (.reg k p n)) s = .next t ∧ t.mem = s.mem ∧ t.evq.held = s.evq.held ++ [e] ∧
      e.code = 0x93 ∧ e.w3 = 7 ∧ ((s.die (tileDie k)).fencedTiles.contains k = false → k ∈ t.trust.fencing) ∧ (n.val < ((s.tile k).pool p).v.length → (((t.tile k).pool p).vreg n).tok.psn = true))

/-! ### Power, current and heat -/

/-- R388 to R392, R306, R358, R360: the control period's step and its alarm, which go on while firmware
is handed over and f stands; a slice's floor and the ballast that meets it, after which tiles that waited are gated; a
region's next damper window; the thermal sequence's beginning, in which every held launch is cancelled, and its end, before
which every chiplet attests again.
Where the manual is silent it tells the choice of log entries 59, 67, 68 and 69. -/
def Obligations.PowerAndHeat : Prop :=
  ∀ (s : State),
    (∀ p eb : Nat, let w := s.power
      let capt := if w.reserve = 500000 then w.cap else w.cap - 100
      let r := if w.cap < p then w.reserve - eb else min 500000 (w.reserve + (w.cap - p) * 10)
      let moves : Prop := s.trust.fwState ≠ 3
      ∃ t, exec (.controlPeriod p eb) s = .next t ∧ t.power.reserve = r ∧ t.power.cap = w.cap ∧ t.tiles = s.tiles ∧
        t.mem = s.mem ∧ t.cores = s.cores ∧
        (s.trust.fwState = 3 → t.power.f = w.f) ∧
        (r = 0 → t.power.alarm = true ∧ (moves → t.power.f = 1)) ∧
        (moves → 0 < r → capt < p → t.power.f = max 1 (w.f - ⌈((w.f * (p - capt) : Nat) : ℚ) / p⌉₊)) ∧
        (moves → 0 < r → p ≤ capt → capt ≤ p + 50 → t.power.f = w.f) ∧
        (moves → 0 < r → p + 50 < capt →
          t.power.f = if w.alarm = true ∧ r < 250000 then w.f else min 256 (w.f + 8)) ∧
        (0 < r → t.power.alarm = (w.alarm && decide (r < 250000))) ∧
        (r = 0 → w.alarm = false → ∃ e : Event, t.evq.held = s.evq.held ++ [e] ∧ e.code = 0xB0 ∧ e.w2 = BitVec.allOnes 64 ∧
          e.w4 = BitVec.ofNat 64 eb) ∧
        (0 < r ∨ w.alarm = true → t.evq = s.evq)) ∧
    (∀ c : Fin 64, let k := s.core c.val
      k.cyc % 32 = 0 → ∃ t, exec (.ballastSlice c) s = .next t ∧
        (t.core c.val).lastLoad = max k.load (k.lastLoad - Config.pwrSlope) ∧
        k.load + (t.core c.val).ballast = (t.core c.val).lastLoad ∧ (t.core c.val).load = 0 ∧
        (t.core c.val).queues = k.queues ∧ (t.core c.val).engs = k.engs ∧ (∀ d, d ≠ c.val → t.core d = s.core d) ∧
        t.mem = s.mem ∧ t.evq = s.evq ∧ t.regions = s.regions ∧
        ∀ j, (t.tile j).pe = (s.tile j).pe ∧ (t.tile j).mx = (s.tile j).mx ∧ (t.tile j).ag = (s.tile j).ag ∧
          (t.tile j).eng.ballast ≤ max 32 (s.tile j).eng.ballast ∧
          ((t.core c.val).ballast ≠ 0 → (t.tile j).gated = (s.tile j).gated) ∧
          ((t.core c.val).ballast = 0 → tileCore j = c.val → (s.tile j).gateDue = true → (t.tile j).gated = true)) ∧
    (∀ (rid bid : Nat) (r : Region) (b : Block), Tab.get? s.regions rid = some r → r.resident = some bid →
      Tab.get? s.blocks bid = some b → r.winAt + r.dampW ≤ r.cyc s →
      let j := s.job b.job
      let n := if j.dampN = 0 ∧ s.power.f = 256 then 0
        else max 1 ((if j.dampN = 0 then 8 * j.dampW else j.dampN) * s.power.f / 256)
      ∃ t q, exec (.damperWindow rid) s = .next t ∧ Tab.get? t.regions rid = some q ∧ q.winAt = r.winAt + r.dampW ∧
        q.dampN = n ∧ q.dampW = j.dampW ∧ t.tiles = s.tiles ∧ t.mem = s.mem ∧ t.chans = s.chans ∧
        (n ≠ 0 → q.admitted = min n r.dampWait.length ∧ q.dampWait = r.dampWait.drop n ∧
          q.dampOk = r.dampOk ++ r.dampWait.take n) ∧
        (n = 0 → q.dampWait = [])) ∧
    (∀ (d : Fin 8) (temp : BitVec 8), s.thermal.off = false → s.thermal.resuming = false → d.val ∉ s.thermal.critDies →
      (temp.toNat < s.host.thermCrit.toNat → exec (.thermCrit d temp) s = .next s) ∧
      (s.host.thermCrit.toNat ≤ temp.toNat → ∃ t, exec (.thermCrit d temp) s = .next t ∧ d.val ∈ t.thermal.critDies ∧
        (∃ e ∈ t.evq.held, e.code = 0x96 ∧ e.w2 = BitVec.allOnes 64) ∧
        ∀ n l, Tab.get? s.launches n = some l → l.faulted = true →
          ∃ m, Tab.get? t.launches n = some m ∧ m.st = .retired)) ∧
    (∀ (us : Nat) (att : BitVec 26),
      (s.thermal.off = true → s.trust.resets = [] → s.thermal.cancels = [] → s.fullSaved ≠ [] →
        ∃ t, exec (.thermResume ⟨us, att⟩) s = .next t ∧ t.thermal.off = false ∧ t.thermal.resuming = true ∧ t.mem = s.mem ∧
          (∀ c, (t.core c).cur = (s.core c).req) ∧
          ∀ c : Fin 26, c.val ≠ 8 → s.trust.quarantined.getLsbD c.val = false →
            (att.getLsbD c.val = true → t.trust.quarantined.getLsbD c.val = false) ∧
            (att.getLsbD c.val = false → t.trust.quarantined.getLsbD c.val = true ∧
              ∃ e ∈ t.evq.held, e.code = 0xC1 ∧ e.w3.extractLsb' 0 5 = BitVec.ofNat 5 c.val)) ∧
      (s.thermal.off = false → s.thermal.resuming = true → s.fullSaved = [] →
        ∃ (t : State) (e : Event), exec (.thermResume ⟨us, att⟩) s = .next t ∧ t.evq.held = s.evq.held ++ [e] ∧ e.code = 0x97 ∧
          e.w3 = BitVec.ofNat 64 s.thermal.us ∧ t.thermal.resuming = false ∧ t.thermal.critDies = [] ∧ t.mem = s.mem ∧
          t.tiles = s.tiles))

/-! ### Links between chiplets and packages -/

/-- R371 to R376, R381, R384, R400, R401: a receiver takes a flit in order whose tag verifies and asks for a replay of any
other with a flit of its own; the sender replays its window from there; eight failed attempts retrain the link, which
maps out lanes module by module, and it goes down for want of lanes in one or after the fourth failed retrain; it comes up from reset. A key rollover keeps the old key until the first flit of
the new phase is accepted, at the sender until its acknowledgement. XMAP writes are checked, and a CXL port that is down is reported. Where the manual is
silent it tells the choice of log entries 60, 61, 81, 88 and 90. -/
def Obligations.Links : Prop :=
  ∀ (s : State),
    (∀ (l : Nat) (dir : Bool), let d := s.link l dir
      s.linkRuns l dir = true →
      (∀ f rest, isPort l = false → d.wire = f :: rest → f.ftype ≠ 2 →
        (∀ xs : List Seg, d.segs = [(f.fseq, xs)] → f.fseq = d.expect → d.opens f.kp = true →
          ∃ t, exec (.flitReceive l dir .none true) s = .next t ∧ t.mem = s.mem ∧
            (t.link l dir).expect = d.expect + 1 ∧ (t.link l dir).wire = rest ∧ (t.link l dir).attempts = 0 ∧
            (t.link l (!dir)).aseq = f.aseq ∧
            ∀ ch r n y, xs = [.tok ch 0 0 r n] → Tab.get? s.chans ch = some y → y.path = [(l, dir)] →
              Tab.get? t.chans ch = some { y with items := y.items ++ [.tok r n] }) ∧
        (∀ ok, ok = false ∨ f.fseq ≠ d.expect ∨ d.opens f.kp = false →
          ∃ t, exec (.flitReceive l dir .none ok) s = .next t ∧ t.mem = s.mem ∧ t.chans = s.chans ∧
            (t.link l dir).expect = d.expect ∧ (t.link l dir).wire = d.wire.filter (fun g => g.ftype == 2) ∧
            (t.link l dir).retryAsked = true ∧ (t.link l dir).window = d.window ∧
            ∃ q ∈ (t.link l (!dir)).wire, q.ftype = 2 ∧
              ((∀ g ∈ (s.link l (!dir)).wire, g.ftype ≠ 2) → q.aseq = d.expect - 1))) ∧
      (∀ aseq : BitVec 16,
        let again := d.window.filter fun f => f.fseq != aseq && decide ((f.fseq - aseq).toNat ≤ (d.fseq - 1 - aseq).toNat)
        (∀ q rest, isPort l = false → (s.link l (!dir)).wire = q :: rest → q.ftype = 2 → q.aseq = aseq → d.attempts < 8 →
          ∃ t, exec (.retryRequest l dir aseq) s = .next t ∧ t.mem = s.mem ∧ t.chans = s.chans ∧
            (t.link l dir).wire = d.wire.filter (fun g => g.ftype == 2) ++ again ∧ (t.link l dir).aseq = aseq ∧
            (t.link l dir).retryAsked = false ∧ (t.link l dir).window = d.window ∧ (t.link l (!dir)).wire = rest) ∧
        (isPort l = true → dir = false → d.attempts < 7 →
          ∃ t, exec (.retryRequest l dir aseq) s = .next t ∧ t.mem = s.mem ∧ t.chans = s.chans ∧
            (t.link l dir).wire = again ∧ (t.link l dir).expect = aseq + 1 ∧ (t.link l dir).window = d.window)) ∧
      (∀ (bad : List Nat) (ok : Bool), 8 ≤ d.attempts →
        let room : Prop := ∀ i x, d.mods[i]? = some x →
          if isPort l then x.2 + (4 - x.1) + bad.count i ≤ 2 else x.2 + bad.count i ≤ 4
        ∃ (t : State) (e : Event), exec (.linkRetrain l dir bad ok) s = .next t ∧ t.evq.held[s.evq.held.length]? = some e ∧ e.code = 0xA0 ∧
          e.w3 = BitVec.ofNat 64 l ∧ t.mem = s.mem ∧ t.chans = s.chans ∧ t.tiles = s.tiles ∧
          (t.link l dir).txTab = d.txTab ∧ (t.link l dir).rxTab = d.rxTab ∧ (t.link l dir).txKey = d.txKey ∧
          (t.link l dir).retrains = d.retrains + 1 ∧
          (room → (ok = true ∨ d.failedTrains < 3) → (t.link l dir).up = d.up) ∧
          (room → (t.link l dir).failedTrains = (if ok then 0 else d.failedTrains + 1) ∧
            ∀ i x, d.mods[i]? = some x →
              (isPort l = false → (t.link l dir).mods[i]? = some (x.1, x.2 + bad.count i)) ∧
              (isPort l = true → (t.link l dir).mods[i]? =
                some (let n := x.2 + (4 - x.1) + bad.count i; if n ≤ 1 then (4, n) else (3, 1))) ∧
              (0 < bad.count i → isPort l = false →
                ∃ v ∈ t.evq.held, v.code = 0xA2 ∧ v.w3.extractLsb' 0 8 = BitVec.ofNat 8 l)) ∧
          (¬room ∨ (ok = false ∧ 3 ≤ d.failedTrains) → (t.link l true).up = false ∧ (t.link l false).up = false ∧
            ∃ x ∈ t.evq.held, x.code = 0xA1)) ∧
      (d.rxNext = none → d.txOld = none → d.acked = false →
        ∃ t, exec (.keyInstall l dir) s = .next t ∧ t.mem = s.mem ∧ t.chans = s.chans ∧
          (t.link l dir).rxNext = some (d.rxKey + 1) ∧ (t.link l dir).rxKey = d.rxKey ∧ (t.link l dir).acked = true ∧
          (t.link l dir).txKey = d.txKey) ∧
      (d.rxNext ≠ none ∨ d.txOld ≠ none ∨ d.acked = true → exec (.keyInstall l dir) s = .next s) ∧
      (d.acked = true → isPort l = false ∨ dir = false →
        ∃ t, exec (.keySwitch l dir) s = .next t ∧ t.mem = s.mem ∧ t.chans = s.chans ∧
          (t.link l dir).txKp = !d.txKp ∧ (t.link l dir).txKey = d.txKey + 1 ∧ (t.link l dir).txOld = some d.txKey ∧
          (t.link l dir).window = d.window ∧ (t.link l dir).wire = d.wire ∧ (t.link l dir).switchAt = some d.fseq ∧
          (t.link l dir).used = 0) ∧
      (d.acked = false ∨ isPort l = true ∧ dir = true → exec (.keySwitch l dir) s = .next s) ∧
      (∀ n, d.switchAt = some n →
        (d.expect = n → exec (.keyRetire l dir false) s = .next s) ∧ (d.aseq + 1 = n → exec (.keyRetire l dir true) s = .next s) ∧
        (d.aseq = n → d.txOld ≠ none → ∃ t, exec (.keyRetire l dir true) s = .next t ∧ t.mem = s.mem ∧ t.chans = s.chans ∧
          (t.link l dir).txOld = none ∧ (t.link l dir).txKey = d.txKey) ∧
        (d.expect = n + 1 → ∀ k, d.rxNext = some k → ∃ t, exec (.keyRetire l dir false) s = .next t ∧ t.mem = s.mem ∧
          t.chans = s.chans ∧ (t.link l dir).rxKey = k ∧ (t.link l dir).rxNext = none ∧
          (t.link l dir).rxKp = !d.rxKp))) ∧
    (∀ l dir, flitLink l = true → (s.link l dir).up = false →
      ∃ t, exec (.linkUp l) s = .next t ∧ t.mem = s.mem ∧ t.chans = s.chans ∧ t.tiles = s.tiles ∧
        (t.link l dir).up = true ∧ (t.link l dir).fseq = 0 ∧ (t.link l dir).window = [] ∧ (t.link l dir).expect = 0 ∧
        (t.link l dir).pending = ((s.link l dir).segs.map (·.2)).flatten ++ (s.link l dir).pending ∧
        ∀ i : Nat, i < 16 → (t.link l dir).txTab[i]? = some (-(i : Int)) ∧ (t.link l dir).rxTab[i]? = some (-(i : Int))) ∧
    (∀ (e : Fin 1024) (hi : Bool) (v : Word),
      let old := Tab.get s.xmap e.val (0, 0)
      let w0 := if hi then old.1 else v
      let depth := (if hi then v else old.2).extractLsb' 29 13
      (35 < (w0.extractLsb' 48 8).toNat → exec (.xmapWrite e hi v) s = .next s) ∧
      ((∃ n l, (n, l) ∈ s.launches ∧ l.st ≠ .retired ∧ l.job = (w0.extractLsb' 56 6).toNat) → w0.getLsbD 63 = true →
        exec (.xmapWrite e hi v) s = .next s) ∧
      (w0.getLsbD 63 = false → old.1.getLsbD 63 = false → (w0.extractLsb' 48 8).toNat ≤ 35 → depth.toNat % 16 = 0 →
        depth.toNat ≤ 4096 → depthSum (Tab.set s.xmap e.val (w0, if hi then (v >>> 28) <<< 28 else old.2))
          (w0.extractLsb' 48 8).toNat ≤ 16384 →
        ∃ t, exec (.xmapWrite e hi v) s = .next t ∧ t.mem = s.mem ∧ t.tiles = s.tiles ∧
          Tab.get t.xmap e.val (0, 0) = (w0, if hi then (v >>> 28) <<< 28 else old.2)) ∧
      (hi = false → old.1.getLsbD 63 = true → v = 0 →
        (∀ x ∈ s.launches, x.2.job = (old.1.extractLsb' 56 6).toNat → x.2.st = .retired) → old.2 = 0 →
        depthSum (Tab.set s.xmap e.val (0, 0)) 0 ≤ 16384 →
        ∃ t, exec (.xmapWrite e false 0) s = .next t ∧ t.mem = s.mem ∧ Tab.get? t.stores e.val = none)) ∧
    (∀ p : Fin 8,
      (p.val ∉ s.trust.cxlDown → ∃ (t : State) (x : Event), exec (.cxlDown p) s = .next t ∧ t.evq.held = s.evq.held ++ [x] ∧ x.code = 0xA4 ∧
        x.w3 = BitVec.ofNat 64 (64 + p.val) ∧ p.val ∈ t.trust.cxlDown ∧ t.mem = s.mem ∧ t.tiles = s.tiles) ∧
      (∃ t, exec (.cxlPortReturn p) s = .next t ∧ t.mem = s.mem ∧ t.tiles = s.tiles ∧ t.evq = s.evq ∧
        (natsFrom 0 s.trust.cxlDown = true → p.val ∉ t.trust.cxlDown) ∧
        ∀ q, q ≠ p.val → (q ∈ t.trust.cxlDown ↔ q ∈ s.trust.cxlDown)))

/-! ### Trust and service -/

/-- R68, R394 to R399, R402 to R404, R406, R410: a cold start with the alias key that it derives, its
quarantines and its recovery; the SPDM subset with its measurement report; alarms of both classes; a single-die reset from request to attestation or failure. Where the manual is silent it tells
the choice of log entries 36, 70, 71, 72, 73, 75, 90 and 93. -/
def Obligations.TrustAndResets : Prop :=
  ∀ (s : State),
    (∀ (att : BitVec 26) (ok : Bool),
      (att.getLsbD 8 = false → ∃ t, exec (.coldReset att ok) s = .next t ∧ t.trust.halted = true) ∧
      (att.getLsbD 8 = true → (ok = false ∨ s.trust.flash.good = false ∨ s.trust.fwState = 4) →
        ∃ t, exec (.coldReset att ok) s = .next t ∧ t.trust.noFw = true ∧ t.trust.halted = false) ∧
      (att.getLsbD 8 = true → ok = true → s.trust.flash.good = true → s.trust.fwState ≠ 4 →
        ∃ t k, exec (.coldReset att ok) s = .next t ∧ t.trust.halted = false ∧ t.trust.flash = s.trust.flash ∧
          t.trust.fwVersion = s.trust.flash.version ∧ t.trust.image = s.trust.flash.image ∧ t.trust.aliasKey = some k ∧
          (k.1, k.2.1) = Config.deriveKey Config.rootKey.2 s.trust.flash.image ∧
          k.2.2 = Config.sign Config.rootKey.2 [k.1] ∧ t.hostMem = s.hostMem ∧ t.mem.cells = [] ∧
          t.host.enabled = false ∧ t.trust.fused = s.trust.fused ∧
          (∀ c : Fin 26, t.trust.attested.getLsbD c.val = att.getLsbD c.val ∧
            t.trust.quarantined.getLsbD c.val = !att.getLsbD c.val) ∧
          (∀ c : Fin 26, att.getLsbD c.val = false →
            ∃ e ∈ t.evq.held, e.code = 0xC1 ∧ e.w3.extractLsb' 0 5 = BitVec.ofNat 5 c.val) ∧
          ∀ n d : Fin 8, ((t.die n.val).davail.getLsbD d.val = true ↔
            ∀ c ∈ [d.val, (d.val + 1) % 8, (d.val + 7) % 8, 10 + 2 * d.val, 11 + 2 * d.val], att.getLsbD c = true))) ∧
    (s.trust.noFw = true → ∃ t, exec .fwRecovery s = .next t ∧ t.trust.recovery = true ∧ t.mem = s.mem) ∧
    (∀ m : SpdmMsg, ∃ t, exec (.spdmRequest m) s = .next t ∧ t.trust.spdmReply = (if m = .other then 2 else 1) ∧
      t.trust.session = (if m = .keyExchange then 1 else if m = .endSession then 0
        else if m = .finish ∧ s.trust.session = 1 then 2 else s.trust.session) ∧ t.mem = s.mem ∧ t.tiles = s.tiles ∧
      (m ≠ .getMeasurements → t.trust.report = s.trust.report) ∧
      (m = .getMeasurements → (∀ c < 26, (c, 1, Config.romDigest c) ∈ t.trust.report ∧
        (c, 2, Config.ucodeDigest c) ∈ t.trust.report ∧ (c, 3, Config.fuseDigest c (s.spareMap c)) ∈ t.trust.report) ∧
        (8, 4, s.trust.image) ∈ t.trust.report ∧ (8, 5, s.trust.manifest) ∈ t.trust.report)) ∧
    (∀ a : Fin 3, ∃ (t : State) (e : Event), exec (.alarmA a) s = .next t ∧ t.trust.halted = true ∧ t.trust.keysErased = true ∧
      t.trust.session = 0 ∧ t.trust.aliasKey = none ∧ (∀ l dir, flitLink l = true → l < 52 → (t.link l dir).up = false) ∧
      t.evq.held = s.evq.held ++ [e] ∧ e.code = 0xC0 ∧ e.w3 = BitVec.ofNat 64 a.val ∧ t.mem = s.mem ∧ t.tiles = s.tiles) ∧
    (∀ (c : Fin 26) (i : Fin 16), ∃ (t : State) (e : Event), exec (.alarmB c i) s = .next t ∧ t.evq.held[s.evq.held.length]? = some e ∧
      e.code = 0xC1 ∧ (c.val ≠ 9 → t.evq.held = s.evq.held ++ [e]) ∧
      (c.val = 9 → s.trust.quarantined.getLsbD 9 = false → ∀ p ∈ [4, 5, 6, 7], p ∉ s.trust.cxlDown →
        ∃ x ∈ t.evq.held, x.code = 0xA4 ∧ x.w3 = BitVec.ofNat 64 (64 + p)) ∧
      e.w3 = BitVec.ofNat 64 (c.val + 256 * i.val) ∧ t.mem = s.mem ∧ t.tiles = s.tiles ∧
      (c.val ≠ 8 → t.trust.quarantined.getLsbD c.val = true ∧ t.trust.attested.getLsbD c.val = false) ∧
      (∀ d : Fin 26, d ≠ c → t.trust.quarantined.getLsbD d.val = s.trust.quarantined.getLsbD d.val) ∧
      (c.val < 8 → t.arb.hold = true)) ∧
    (∀ (v : Word), let c := (v.extractLsb' 0 5).toNat
      (s.trust.reset? c = none → v.getLsbD 8 = true → c < 26 → c ≠ 8 →
        ∃ (t : State) (e : Event), exec (.dieReset v true) s = .next t ∧ t.arb.hold = true ∧ t.trust.reset? c = some ⟨c, 0, true, 0⟩ ∧
          t.evq.held = s.evq.held ++ [e] ∧ e.code = 0xC2 ∧ e.w3 = BitVec.ofNat 64 (c + 256) ∧ t.mem = s.mem ∧
          t.tiles = s.tiles) ∧
      (s.trust.reset? c = none → v.getLsbD 8 = false ∨ c = 8 ∨ 26 ≤ c → exec (.dieReset v true) s = .next s) ∧
      (∀ r, s.trust.reset? c = some r → r.step = 1 → s.thermal.critDies = [] → s.resetRegions c = [] → c < 8 →
        (∀ x ∈ s.launches, x.2.faulted = false) →
        ∃ t q, exec (.dieReset v true) s = .next t ∧ t.trust.reset? c = some q ∧ q.step = 2 ∧ q.since = s.time ∧
          t.trust.quarantined.getLsbD c = true ∧ t.trust.attested.getLsbD c = false ∧
          (∀ a, bankBase (c * 1024) ≤ a → a < bankBase ((c + 1) * 1024) → t.mem.byte a = 0) ∧
          (∀ a, chipBase c ≤ a → a < chipBase (c + 1) → t.mem.byte a = 0) ∧
          ∀ a < 2 ^ 44, t.mem.byte a = s.mem.byte a)) ∧
    (∀ (c : Fin 26) (r : DieReset), s.trust.reset? c.val = some r → r.step = 2 → c.val ∉ s.trust.failed →
      (∃ (t : State) (e : Event), exec (.dieAttested c) s = .next t ∧ t.trust.reset? c.val = none ∧ t.arb.hold = true ∧
        t.trust.attested.getLsbD c.val = true ∧ t.trust.quarantined.getLsbD c.val = false ∧
        t.evq.held = s.evq.held ++ [e] ∧ e.code = 0xC3 ∧ e.w3 = BitVec.ofNat 64 c.val ∧ t.mem = s.mem ∧ t.tiles = s.tiles ∧
        ∀ l dir, l < 52 → flitLink l = true → c.val ∈ linkEnds l →
          (t.link l dir).txKey = max (s.link l dir).txKey (s.link l dir).rxKey + 1 ∧
            (t.link l dir).rxKey = (t.link l dir).txKey) ∧
      (r.since + 10 ^ 8 ≤ s.time → ∃ t, exec (.dieFailed c) s = .next t ∧ c.val ∈ t.trust.failed ∧
        (∃ e ∈ t.evq.held, e.code = 0xC4 ∧ e.w3 = BitVec.ofNat 64 c.val) ∧
        ∀ n ∈ s.heldFor c.val, ∀ l, Tab.get? s.launches n = some l →
          ∃ m, Tab.get? t.launches n = some m ∧ m.st = .retired))

/-- R399, R405, R406, R408 to R410: a firmware image from GO by way of its verification and a hand-over at a quiescent
point to flash, with the alias key derived again; and the repair of tiles asked for and of rows and channels of HBM that
have failed, each with its event. Where the manual is silent it tells the choice of log entries 74, 76, 90, 93 and
94. -/
def Obligations.FirmwareAndRepair : Prop :=
  ∀ (s : State),
    (∀ (v : Word) (k : FwCheck), let w := s.trust
      let r := if k.formOk = false then 3 else if k.sigOk = false then 1 else if k.rollback < w.fused then 2 else 0
      (v.getLsbD 0 = false ∨ w.fwState ≠ 0 ∨ (s.feature 6 = false ∧ w.recovery = false) → exec (.fwGo v k) s = .next s) ∧
      (v.getLsbD 0 = true → w.fwState = 0 → s.feature 6 = true ∨ w.recovery = true →
        ∃ t a, exec (.fwGo v k) s = .next t ∧ t.mem = s.mem ∧ t.tiles = s.tiles ∧ t.trust.fwState = 1 ∧
          t.trust.fwStaged = some (a, k) ∧ t.evq = s.evq) ∧
      (∀ a, w.fwState = 1 → w.fwStaged = some (a, k) →
        ∃ t, exec .fwHandover s = .next t ∧ t.mem = s.mem ∧ t.tiles = s.tiles ∧ t.trust.fwVersion = w.fwVersion ∧
          (r = 0 → t.trust.fwState = (if w.recovery then 4 else 2) ∧ t.trust.fwStaged = some (a, k) ∧ t.evq = s.evq) ∧
          (r ≠ 0 → t.trust.fwState = 0 ∧ t.trust.fwResult = r ∧ t.trust.fwStaged = none ∧
            (w.recovery = false → ∃ e ∈ t.evq.held, e.code = 0xC9 ∧ e.w4 = BitVec.ofNat 64 r) ∧
            (r = 1 → ∃ e ∈ t.evq.held, e.code = 0xC1 ∧ e.w3 = BitVec.ofNat 64 (8 + 256 * 4))))) ∧
    (∀ a k, s.trust.fwStaged = some (a, k) →
      (s.trust.fwState = 2 → s.fwQuiet = true → ∃ t, exec .fwHandover s = .next t ∧ t.trust.fwState = 3 ∧
        t.power = s.power ∧ t.tiles = s.tiles ∧ t.mem = s.mem) ∧
      (s.trust.fwState = 2 → s.fwQuiet = false → exec .fwHandover s = .next s) ∧
      (s.trust.fwState = 3 → ∃ t x, exec .fwHandover s = .next t ∧ t.trust.fwState = 4 ∧ t.trust.fwVersion = k.version ∧
        t.trust.image = k.image ∧ t.trust.manifest = k.manifest ∧ t.trust.aliasKey = some x ∧
        (x.1, x.2.1) = Config.deriveKey Config.rootKey.2 k.image ∧
        t.trust.session = 0 ∧ t.power = s.power ∧ t.cores = s.cores ∧ t.tiles = s.tiles ∧ t.mem = s.mem) ∧
      (s.trust.fwState = 4 → ∀ ok, ∃ t, exec (.fwDone ok) s = .next t ∧
        t.trust.fused = (if ok then max s.trust.fused k.rollback else s.trust.fused) ∧
        (ok = true → t.trust.flash = ⟨k.version, k.image, k.manifest, true⟩) ∧
        (ok = false → t.trust.flash.good = false) ∧
        (s.trust.recovery = false → t.trust.fwState = 0 ∧ t.trust.fwResult = (if ok then 0 else 4) ∧ t.mem = s.mem ∧
          t.tiles = s.tiles ∧ ∃ e : Event, t.evq.held = s.evq.held ++ [e] ∧ e.code = 0xC9 ∧ e.w3 = k.version.zeroExtend 64) ∧
        (s.trust.recovery = true → ok = true → t.trust.recovery = false ∧ t.mem.cells = [] ∧ t.hostMem = s.hostMem))) ∧
    (∀ k < 8192,
      let n := (s.core (tileCore k)).sparesUsed
      (k ∉ s.trust.fencing → exec (.tileFence k) s = .next s) ∧
      (k ∈ s.trust.fencing → (s.tile k).region = none →
        (n < 4 → ∃ (t : State) (e : Event), exec (.tileFence k) s = .next t ∧ (t.core (tileCore k)).sparesUsed = n + 1 ∧
          (t.tile k).fenced = true ∧ t.mem = s.mem ∧ t.evq.held = s.evq.held ++ [e] ∧ e.code = 0xC5 ∧
          e.w3 = BitVec.ofNat 64 (n + 1) ∧ (natsFrom 0 s.trust.fencing = true → k ∉ t.trust.fencing)) ∧
        (4 ≤ n → ∃ t, exec (.tileFence k) s = .next t ∧ (t.core (tileCore k)).exhausted = true ∧ t.mem = s.mem ∧
          t.tiles = s.tiles ∧ ∀ d < 8, k ∈ (t.die d).fencedTiles))) ∧
    (∀ (m : Fin 16) (c : Fin 32), let x := s.stack m.val
      let ch := chanKey m.val c.val
      (∀ row, let g := Tab.get? s.trust.rows (rowKey ch row)
        let fails (y : Nat × Nat × Nat) : Prop := (2 ≤ y.1 ∨ 256 ≤ y.2.1) ∧
          Tab.get s.trust.rowSpares (groupKey ch y.2.2) 0 < Config.spareRows
        ((∀ y, g = some y → ¬fails y) → exec (.rowRepaired m c row) s = .next s) ∧
        (∀ y, g = some y → fails y → ∃ (t : State) (e : Event), exec (.rowRepaired m c row) s = .next t ∧
          t.stack m.val = (x.1, (x.2.1 + 1) % 256, x.2.2) ∧ t.evq.held = s.evq.held ++ [e] ∧ e.code = 0xC6 ∧
          e.w3 = BitVec.ofNat 64 (m.val + 256 * c.val) ∧ e.w4 = BitVec.ofNat 64 row ∧ t.mem = s.mem ∧ t.tiles = s.tiles ∧
          Tab.get t.trust.rowSpares (groupKey ch y.2.2) 0 = Tab.get s.trust.rowSpares (groupKey ch y.2.2) 0 + 1)) ∧
      (s.trust.chanFails ch = false → exec (.hbmSpared m c) s = .next s ∧ exec (.hbmExhausted m c) s = .next s) ∧
      (4096 < (Tab.get s.trust.chanCe ch []).length → s.trust.chanFails ch = true) ∧
      (s.trust.chanFails ch = true → x.1 = false → ∃ (t : State) (e : Event), exec (.hbmSpared m c) s = .next t ∧
        t.stack m.val = (true, x.2.1, x.2.2) ∧
        t.evq.held = s.evq.held ++ [e] ∧ e.code = 0xC7 ∧ e.w3 = BitVec.ofNat 64 (m.val + 256 * c.val) ∧ t.mem = s.mem ∧
        t.tiles = s.tiles) ∧
      (s.trust.chanFails ch = true → x.1 = true → ∃ (t : State) (e : Event), exec (.hbmExhausted m c) s = .next t ∧
        t.stack m.val = (true, x.2.1, true) ∧
        t.evq.held = s.evq.held ++ [e] ∧ e.code = 0xC8 ∧ e.w3 = BitVec.ofNat 64 (m.val + 256 * c.val) ∧ t.mem = s.mem ∧
        t.tiles = s.tiles))

/-! ### Faults, reset, and what every step keeps -/

/-- R340, R341: a fault stops its pool with its record, and nothing else of the tile or of another; the event is posted and
the launch held at once where the record's GEN is 0 or ratified, and waits in the record where it is live; nothing is
posted of a launch that has retired. A stopped pool fires no slot and raises no further fault, and one that has halted or
yielded stays so. A firing of an integer instruction whose A cannot be converted takes that
fault with none of its effect (R135). Where the manual is silent it tells the choice of log entry 40. -/
def Obligations.TakingAFault : Prop :=
  (∀ (s : State) (k : Nat) (p : Pool) (slot code : Nat) (g : BitVec 8) (w3 w4 w5 : Word),
    let x := (s.tile k).pool p
    let t := s.raise k p slot code g w3 w4 w5
    (x.frec ≠ none → t = s) ∧
    (x.frec = none →
      (∃ b, (t.tile k).pool p = { x with
        run := if x.run = .halted ∨ x.run = .yielded then x.run else .faulted
        frec := some ⟨code, g, slot, w3, w4, w5, b⟩ }) ∧
      (∀ q, q ≠ p → (t.tile k).pool q = (s.tile k).pool q) ∧ (∀ j, j ≠ k → t.tile j = s.tile j) ∧
      (t.tile k).ps = (s.tile k).ps ∧ (t.tile k).eng = (s.tile k).eng ∧
      t.mem = s.mem ∧ t.chans = s.chans ∧ t.mayFire k p = false ∧
      (g = 0 ∨ x.ratified.contains g = true ∨ (Tab.get (s.die (tileDie k)).mirror g.toNat GenEnt.reset).st = .ratified →
        (∀ b l, s.blockOf k = some b → Tab.get? s.launches b.lseq = some l → l.st ≠ .retired) →
        (∃ e : Event, t.evq.held = s.evq.held ++ [e] ∧ e.code = code ∧ e.w2 = s.placeOf k p slot ∧ e.w3 = w3 ∧ e.w4 = w4 ∧
          e.w5 = w5) ∧
        ∀ b l, s.blockOf k = some b → Tab.get? s.launches b.lseq = some l →
          Tab.get? t.launches b.lseq = some { l with faulted := true }) ∧
      (g ≠ 0 → x.ratified.contains g = false →
        (Tab.get (s.die (tileDie k)).mirror g.toNat GenEnt.reset).st ≠ .ratified →
        t.evq = s.evq ∧ t.launches = s.launches))) ∧
  (∀ (o : Op) (f : Fields) (s : State) (e : Flt), o ∈ sizedOps ++ bitOps → Fires o f s →
    (s.seen o f).convA .int = .error e →
    exec (o.mk f) s = .next ((s.markActive s.focus.tile).raise s.focus.tile s.focus.pool e.slot e.code e.gen e.w3 e.w4 e.w5))

/-- What a reset leaves (R48, R353, R386 to R388, R397, R398): the values that the manual states, nothing placed and
memory with nothing listed, in its canonical form; and what BAR0 reads then. Where the manual is silent it tells the
choice of log entry 4. -/
def Obligations.ResetValues : Prop :=
  let s := State.reset
  s.mem.wf = true ∧ s.mem.cells = [] ∧ s.host.enabled = false ∧ s.host.lqRetry = 16 ∧ s.host.yieldBound = 200 ∧
    s.host.thermCrit = 105 ∧ s.host.thermResume = 85 ∧ s.power.cap = 3000 ∧ s.power.undeclRate = 2 ∧ s.power.f = 256 ∧
    s.power.reserve = 500000 ∧ (∀ c < 64, (s.core c).req = 68) ∧
    (∀ j < 64, (s.job j).dampN = 0 ∧ (s.job j).dampW = 256) ∧ (∀ d < 8, (s.die d).davail = 0) ∧
    s.trust.attested = 0 ∧ (∀ c : Fin 26, s.trust.quarantined.getLsbD c.val = decide (c.val ≠ 8)) ∧ s.tiles = [] ∧
    s.launches = [] ∧ s.readBar0 0x00 = some 0x7F ∧ s.readBar0 0x40 = some 0 ∧ s.readBar0 0x50 = some 16 ∧
    s.readBar0 0x8C8 = some 0x5569 ∧ s.readBar0 0xA00 = some 3000 ∧ s.readBar0 0xA18 = some 128

/-- The canonical form of memory is kept by every step (log entry 4): addresses rise strictly, and no entry is what an
unlisted address reads as, so that equal memories are equal data. -/
def Obligations.MemoryStaysCanonical : Prop :=
  ∀ (s t : State), s.mem.wf = true → step s = .next t → t.mem.wf = true

/-- R404: only a cold reset leaves the halted state. A halted device takes every other step without effect on its tiles,
memory, channels or launches, and stays halted. -/
def Obligations.HaltedUntilColdReset : Prop :=
  ∀ (s t : State), s.trust.halted = true → (∀ att ok, s.agenda.head? ≠ some (.op (.coldReset att ok))) →
    step s = .next t →
    t.trust.halted = true ∧ t.tiles = s.tiles ∧ t.mem = s.mem ∧ t.chans = s.chans ∧ t.launches = s.launches ∧
      t.regions = s.regions ∧ t.root = s.root
end

