-- ==== Sys2Proof/Laws/Decode.lean ====
section
/-! SUPPORT. The decoder and the encoder field by field (R93, R97, R98, R107 to R111). -/

set_option Elab.async false

namespace Sys2Proof

/-- A source is read back from its code. -/
@[simp] theorem Src.decode_encode (s : Src) : Src.decode s.encode = s := by
  cases s <;> rename_i n <;> revert n <;> decide

/-- A code of R97 is written back by its source. -/
@[simp] theorem Src.encode_decode (c : BitVec 6) : (Src.decode c).encode = c := by
  revert c
  decide

/-- A destination is read back from its code. -/
@[simp] theorem Dst.decode_encode (d : Dst) : Dst.decode d.encode = some d := by
  cases d
  case none => rfl
  all_goals
    rename_i n
    revert n
    decide

/-- A legal code of R98 is written back by its destination. -/
theorem Dst.encode_decode {c : BitVec 6} {d : Dst} (h : Dst.decode c = some d) : d.encode = c := by
  have hall : ∀ c : BitVec 6, ((Dst.decode c).all fun d => d.encode == c) = true := by decide
  have hc := hall c
  rw [h] at hc
  simpa using hc

@[simp] theorem Op.op?_mk (o : Op) (f : Fields) : (o.mk f).op? = some (o, f) := by cases o <;> rfl

theorem Instr.mk_of_op? {i : Instr} {o : Op} {f : Fields} (h : i.op? = some (o, f)) : i = o.mk f := by
  cases i <;> simp [Instr.op?] at h <;> obtain ⟨rfl, rfl⟩ := h <;> rfl

/-- A pool's map gives each of its opcodes back from its number and a defined MD. -/
theorem opOf_code {o : Op} {p : Pool} {md : BitVec 3} (h : o.pools.contains p = true)
    (hm : o.mds.contains md.toNat = true) : opOf p o.code md.toNat = some o := by
  revert md
  cases o <;> cases p <;> first | (simp [Op.pools] at h; done) | decide

/-- An opcode that a map gives has the number that it was looked up under. -/
theorem code_of_opOf {p : Pool} {c md : Nat} {o : Op} (h : opOf p c md = some o) : o.code = c := by
  unfold opOf at h
  split at h
  · unfold commonOp at h
    split at h <;> simp at h <;> subst h <;> rfl
  · cases p
    · simp only at h
      unfold peOp at h
      split at h <;> (try split at h) <;> (try split at h) <;> simp at h <;> subst h <;> rfl
    · simp only at h
      unfold mxOp at h
      split at h <;> simp at h <;> subst h <;> rfl
    · simp only at h
      unfold agOp at h
      split at h <;> (try split at h) <;> simp at h <;> subst h <;> rfl

/-- The checks of R111 that an accepted word passes. -/
structure Accepted (p : Pool) (o : Op) (f : Fields) : Prop where
  assigned : p ∈ o.pools
  pv : f.pv &&& ~~~f.pm = 0
  test : f.te = false → f.tc = 0 ∧ f.tk = 0
  update : f.pe = false → f.pi = 0 ∧ f.pval = false
  noSwitch : ¬(f.te = true ∧ f.tk = 6)
  admits : o.admits f = true
  classes : shapeClasses o.shape f.d f.a f.b = true
  unused : shapeUnused o.shape f.d f.a f.b = true
  narrow : narrowOk p f = true
  conflict : conflictFree f = true
  md : o.mds.contains f.md.toNat = true
  combo : o.combo f = true

theorem Accepted.of_firstReject {p : Pool} {o : Op} {f : Fields} (h : firstReject p o f = none) : Accepted p o f := by
  unfold firstReject at h
  split at h; · cases h
  split at h; · cases h
  split at h; · cases h
  split at h; · cases h
  split at h; · cases h
  split at h; · cases h
  split at h; · cases h
  split at h; · cases h
  split at h; · cases h
  split at h; · cases h
  rename_i h1 h2 h3 h4 h5 h6 h7 h8 h9 h10
  simp only [Bool.not_eq_false, bne_iff_ne, ne_eq, not_not, Bool.and_eq_true, Bool.or_eq_true, not_or, not_and,
    Bool.not_eq_eq_eq_not, Bool.not_true] at *
  refine ⟨by simpa using h1, h2, fun ht => ?_, fun ht => ?_, fun ⟨a, b⟩ => ?_, h5, h6, h7, h8, h9, h10.1, h10.2⟩
  · exact h3.1 ht
  · simpa using h3.2 ht
  · exact h4 a (by simpa using b)

/-- Every field of R93 stands in the word of an opcode and its fields. -/
theorem encodeFields_read (o : Op) (f : Fields) (hc : o.code < 256) :
    readFields (encodeFields o f) f.d = f ∧ wordOp (encodeFields o f) = o.code ∧
      wordMd (encodeFields o f) = f.md.toNat ∧ (encodeFields o f).extractLsb' 20 6 = f.d.encode := by
  have key : ∀ (pm pv op : BitVec 8) (ir os : BitVec 4) (te pe pval : Bool) (tc : BitVec 2) (tk pi md : BitVec 3)
      (d a b : BitVec 6),
      let w : Word := pm ++ pv ++ ir ++ os ++ BitVec.ofBool te ++ tc ++ tk ++ op ++ d ++ a ++ b ++ BitVec.ofBool pe ++ pi ++
        BitVec.ofBool pval ++ md
      w.extractLsb' 56 8 = pm ∧ w.extractLsb' 48 8 = pv ∧ w.extractLsb' 44 4 = ir ∧ w.extractLsb' 40 4 = os ∧
      w.getLsbD 39 = te ∧ w.extractLsb' 37 2 = tc ∧ w.extractLsb' 34 3 = tk ∧ w.extractLsb' 26 8 = op ∧
      w.extractLsb' 20 6 = d ∧ w.extractLsb' 14 6 = a ∧ w.extractLsb' 8 6 = b ∧ w.getLsbD 7 = pe ∧
      w.extractLsb' 4 3 = pi ∧ w.getLsbD 3 = pval ∧ w.extractLsb' 0 3 = md := by
    intro pm pv op ir os te pe pval tc tk pi md d a b
    dsimp only
    refine ⟨?_, ?_, ?_, ?_, ?_, ?_, ?_, ?_, ?_, ?_, ?_, ?_, ?_, ?_, ?_⟩
    all_goals first
      | (ext i hi; simp only [BitVec.getElem_extractLsb', BitVec.getLsbD_append]; grind)
      | (simp only [BitVec.getLsbD_append]; grind [BitVec.getLsbD_ofBool])
  obtain ⟨h1, h2, h3, h4, h5, h6, h7, h8, h9, h10, h11, h12, h13, h14, h15⟩ := key f.pm f.pv (BitVec.ofNat 8 o.code) f.ir f.os
    f.te f.pe f.pval f.tc f.tk f.pi f.md f.d.encode f.a.encode f.b.encode
  refine ⟨?_, ?_, ?_, h9⟩
  · unfold readFields encodeFields
    simp only [h1, h2, h3, h4, h5, h6, h7, h10, h11, h12, h13, h14, h15, Src.decode_encode]
  · unfold wordOp encodeFields
    simp only [h8, BitVec.toNat_ofNat]
    exact Nat.mod_eq_of_lt hc
  · unfold wordMd encodeFields
    simp only [h15]

end Sys2Proof
end

