-- ==== Sys2Proof/Laws/State.lean ====
section
/-! SUPPORT. The fields of the state after each named update, and the tables after a write. -/

namespace Sys2Proof.Machine

open Sys2Proof

variable (s : State)

@[simp] theorem State.setTile_agenda (k : Nat) (x : Tile) : (s.setTile k x).agenda = s.agenda := rfl
@[simp] theorem State.setTile_focus (k : Nat) (x : Tile) : (s.setTile k x).focus = s.focus := rfl
@[simp] theorem State.setTile_freeCtr (k : Nat) (x : Tile) : (s.setTile k x).freeCtr = s.freeCtr := rfl
@[simp] theorem State.setTile_refCyc (k : Nat) (x : Tile) : (s.setTile k x).refCyc = s.refCyc := rfl
@[simp] theorem State.setTile_order (k : Nat) (x : Tile) : (s.setTile k x).order = s.order := rfl
@[simp] theorem State.setTile_host (k : Nat) (x : Tile) : (s.setTile k x).host = s.host := rfl
@[simp] theorem State.setTile_evq (k : Nat) (x : Tile) : (s.setTile k x).evq = s.evq := rfl
@[simp] theorem State.setTile_arb (k : Nat) (x : Tile) : (s.setTile k x).arb = s.arb := rfl
@[simp] theorem State.setTile_lqs (k : Nat) (x : Tile) : (s.setTile k x).lqs = s.lqs := rfl
@[simp] theorem State.setTile_jobs (k : Nat) (x : Tile) : (s.setTile k x).jobs = s.jobs := rfl
@[simp] theorem State.setTile_launches (k : Nat) (x : Tile) : (s.setTile k x).launches = s.launches := rfl
@[simp] theorem State.setTile_graphs (k : Nat) (x : Tile) : (s.setTile k x).graphs = s.graphs := rfl
@[simp] theorem State.setTile_phases (k : Nat) (x : Tile) : (s.setTile k x).phases = s.phases := rfl
@[simp] theorem State.setTile_dies (k : Nat) (x : Tile) : (s.setTile k x).dies = s.dies := rfl
@[simp] theorem State.setTile_regions (k : Nat) (x : Tile) : (s.setTile k x).regions = s.regions := rfl
@[simp] theorem State.setTile_blocks (k : Nat) (x : Tile) : (s.setTile k x).blocks = s.blocks := rfl
@[simp] theorem State.setTile_chans (k : Nat) (x : Tile) : (s.setTile k x).chans = s.chans := rfl
@[simp] theorem State.setTile_tiles (k : Nat) (x : Tile) : (s.setTile k x).tiles = Tab.set s.tiles k x := rfl
@[simp] theorem State.setTile_streamers (k : Nat) (x : Tile) : (s.setTile k x).streamers = s.streamers := rfl
@[simp] theorem State.setTile_cores (k : Nat) (x : Tile) : (s.setTile k x).cores = s.cores := rfl
@[simp] theorem State.setTile_root (k : Nat) (x : Tile) : (s.setTile k x).root = s.root := rfl
@[simp] theorem State.setTile_epSeq (k : Nat) (x : Tile) : (s.setTile k x).epSeq = s.epSeq := rfl
@[simp] theorem State.setTile_bisque (k : Nat) (x : Tile) : (s.setTile k x).bisque = s.bisque := rfl
@[simp] theorem State.setTile_holds (k : Nat) (x : Tile) : (s.setTile k x).holds = s.holds := rfl
@[simp] theorem State.setTile_ucaches (k : Nat) (x : Tile) : (s.setTile k x).ucaches = s.ucaches := rfl
@[simp] theorem State.setTile_mem (k : Nat) (x : Tile) : (s.setTile k x).mem = s.mem := rfl
@[simp] theorem State.setTile_hostMem (k : Nat) (x : Tile) : (s.setTile k x).hostMem = s.hostMem := rfl
@[simp] theorem State.setTile_links (k : Nat) (x : Tile) : (s.setTile k x).links = s.links := rfl
@[simp] theorem State.setTile_xmap (k : Nat) (x : Tile) : (s.setTile k x).xmap = s.xmap := rfl
@[simp] theorem State.setTile_stores (k : Nat) (x : Tile) : (s.setTile k x).stores = s.stores := rfl
@[simp] theorem State.setTile_xcredits (k : Nat) (x : Tile) : (s.setTile k x).xcredits = s.xcredits := rfl
@[simp] theorem State.setTile_xearly (k : Nat) (x : Tile) : (s.setTile k x).xearly = s.xearly := rfl
@[simp] theorem State.setTile_specTags (k : Nat) (x : Tile) : (s.setTile k x).specTags = s.specTags := rfl
@[simp] theorem State.setTile_power (k : Nat) (x : Tile) : (s.setTile k x).power = s.power := rfl
@[simp] theorem State.setTile_trust (k : Nat) (x : Tile) : (s.setTile k x).trust = s.trust := rfl
@[simp] theorem State.setTile_thermal (k : Nat) (x : Tile) : (s.setTile k x).thermal = s.thermal := rfl
@[simp] theorem State.setTile_frames (k : Nat) (x : Tile) : (s.setTile k x).frames = s.frames := rfl

@[simp] theorem State.setCore_agenda (k : Nat) (x : Core) : (s.setCore k x).agenda = s.agenda := rfl
@[simp] theorem State.setCore_focus (k : Nat) (x : Core) : (s.setCore k x).focus = s.focus := rfl
@[simp] theorem State.setCore_freeCtr (k : Nat) (x : Core) : (s.setCore k x).freeCtr = s.freeCtr := rfl
@[simp] theorem State.setCore_refCyc (k : Nat) (x : Core) : (s.setCore k x).refCyc = s.refCyc := rfl
@[simp] theorem State.setCore_order (k : Nat) (x : Core) : (s.setCore k x).order = s.order := rfl
@[simp] theorem State.setCore_host (k : Nat) (x : Core) : (s.setCore k x).host = s.host := rfl
@[simp] theorem State.setCore_evq (k : Nat) (x : Core) : (s.setCore k x).evq = s.evq := rfl
@[simp] theorem State.setCore_arb (k : Nat) (x : Core) : (s.setCore k x).arb = s.arb := rfl
@[simp] theorem State.setCore_lqs (k : Nat) (x : Core) : (s.setCore k x).lqs = s.lqs := rfl
@[simp] theorem State.setCore_jobs (k : Nat) (x : Core) : (s.setCore k x).jobs = s.jobs := rfl
@[simp] theorem State.setCore_launches (k : Nat) (x : Core) : (s.setCore k x).launches = s.launches := rfl
@[simp] theorem State.setCore_graphs (k : Nat) (x : Core) : (s.setCore k x).graphs = s.graphs := rfl
@[simp] theorem State.setCore_phases (k : Nat) (x : Core) : (s.setCore k x).phases = s.phases := rfl
@[simp] theorem State.setCore_dies (k : Nat) (x : Core) : (s.setCore k x).dies = s.dies := rfl
@[simp] theorem State.setCore_regions (k : Nat) (x : Core) : (s.setCore k x).regions = s.regions := rfl
@[simp] theorem State.setCore_blocks (k : Nat) (x : Core) : (s.setCore k x).blocks = s.blocks := rfl
@[simp] theorem State.setCore_chans (k : Nat) (x : Core) : (s.setCore k x).chans = s.chans := rfl
@[simp] theorem State.setCore_tiles (k : Nat) (x : Core) : (s.setCore k x).tiles = s.tiles := rfl
@[simp] theorem State.setCore_streamers (k : Nat) (x : Core) : (s.setCore k x).streamers = s.streamers := rfl
@[simp] theorem State.setCore_cores (k : Nat) (x : Core) : (s.setCore k x).cores = Tab.set s.cores k x := rfl
@[simp] theorem State.setCore_root (k : Nat) (x : Core) : (s.setCore k x).root = s.root := rfl
@[simp] theorem State.setCore_epSeq (k : Nat) (x : Core) : (s.setCore k x).epSeq = s.epSeq := rfl
@[simp] theorem State.setCore_bisque (k : Nat) (x : Core) : (s.setCore k x).bisque = s.bisque := rfl
@[simp] theorem State.setCore_holds (k : Nat) (x : Core) : (s.setCore k x).holds = s.holds := rfl
@[simp] theorem State.setCore_ucaches (k : Nat) (x : Core) : (s.setCore k x).ucaches = s.ucaches := rfl
@[simp] theorem State.setCore_mem (k : Nat) (x : Core) : (s.setCore k x).mem = s.mem := rfl
@[simp] theorem State.setCore_hostMem (k : Nat) (x : Core) : (s.setCore k x).hostMem = s.hostMem := rfl
@[simp] theorem State.setCore_links (k : Nat) (x : Core) : (s.setCore k x).links = s.links := rfl
@[simp] theorem State.setCore_xmap (k : Nat) (x : Core) : (s.setCore k x).xmap = s.xmap := rfl
@[simp] theorem State.setCore_stores (k : Nat) (x : Core) : (s.setCore k x).stores = s.stores := rfl
@[simp] theorem State.setCore_xcredits (k : Nat) (x : Core) : (s.setCore k x).xcredits = s.xcredits := rfl
@[simp] theorem State.setCore_xearly (k : Nat) (x : Core) : (s.setCore k x).xearly = s.xearly := rfl
@[simp] theorem State.setCore_specTags (k : Nat) (x : Core) : (s.setCore k x).specTags = s.specTags := rfl
@[simp] theorem State.setCore_power (k : Nat) (x : Core) : (s.setCore k x).power = s.power := rfl
@[simp] theorem State.setCore_trust (k : Nat) (x : Core) : (s.setCore k x).trust = s.trust := rfl
@[simp] theorem State.setCore_thermal (k : Nat) (x : Core) : (s.setCore k x).thermal = s.thermal := rfl
@[simp] theorem State.setCore_frames (k : Nat) (x : Core) : (s.setCore k x).frames = s.frames := rfl

@[simp] theorem State.setDie_agenda (k : Nat) (x : Die) : (s.setDie k x).agenda = s.agenda := rfl
@[simp] theorem State.setDie_focus (k : Nat) (x : Die) : (s.setDie k x).focus = s.focus := rfl
@[simp] theorem State.setDie_freeCtr (k : Nat) (x : Die) : (s.setDie k x).freeCtr = s.freeCtr := rfl
@[simp] theorem State.setDie_refCyc (k : Nat) (x : Die) : (s.setDie k x).refCyc = s.refCyc := rfl
@[simp] theorem State.setDie_order (k : Nat) (x : Die) : (s.setDie k x).order = s.order := rfl
@[simp] theorem State.setDie_host (k : Nat) (x : Die) : (s.setDie k x).host = s.host := rfl
@[simp] theorem State.setDie_evq (k : Nat) (x : Die) : (s.setDie k x).evq = s.evq := rfl
@[simp] theorem State.setDie_arb (k : Nat) (x : Die) : (s.setDie k x).arb = s.arb := rfl
@[simp] theorem State.setDie_lqs (k : Nat) (x : Die) : (s.setDie k x).lqs = s.lqs := rfl
@[simp] theorem State.setDie_jobs (k : Nat) (x : Die) : (s.setDie k x).jobs = s.jobs := rfl
@[simp] theorem State.setDie_launches (k : Nat) (x : Die) : (s.setDie k x).launches = s.launches := rfl
@[simp] theorem State.setDie_graphs (k : Nat) (x : Die) : (s.setDie k x).graphs = s.graphs := rfl
@[simp] theorem State.setDie_phases (k : Nat) (x : Die) : (s.setDie k x).phases = s.phases := rfl
@[simp] theorem State.setDie_dies (k : Nat) (x : Die) : (s.setDie k x).dies = Tab.set s.dies k x := rfl
@[simp] theorem State.setDie_regions (k : Nat) (x : Die) : (s.setDie k x).regions = s.regions := rfl
@[simp] theorem State.setDie_blocks (k : Nat) (x : Die) : (s.setDie k x).blocks = s.blocks := rfl
@[simp] theorem State.setDie_chans (k : Nat) (x : Die) : (s.setDie k x).chans = s.chans := rfl
@[simp] theorem State.setDie_tiles (k : Nat) (x : Die) : (s.setDie k x).tiles = s.tiles := rfl
@[simp] theorem State.setDie_streamers (k : Nat) (x : Die) : (s.setDie k x).streamers = s.streamers := rfl
@[simp] theorem State.setDie_cores (k : Nat) (x : Die) : (s.setDie k x).cores = s.cores := rfl
@[simp] theorem State.setDie_root (k : Nat) (x : Die) : (s.setDie k x).root = s.root := rfl
@[simp] theorem State.setDie_epSeq (k : Nat) (x : Die) : (s.setDie k x).epSeq = s.epSeq := rfl
@[simp] theorem State.setDie_bisque (k : Nat) (x : Die) : (s.setDie k x).bisque = s.bisque := rfl
@[simp] theorem State.setDie_holds (k : Nat) (x : Die) : (s.setDie k x).holds = s.holds := rfl
@[simp] theorem State.setDie_ucaches (k : Nat) (x : Die) : (s.setDie k x).ucaches = s.ucaches := rfl
@[simp] theorem State.setDie_mem (k : Nat) (x : Die) : (s.setDie k x).mem = s.mem := rfl
@[simp] theorem State.setDie_hostMem (k : Nat) (x : Die) : (s.setDie k x).hostMem = s.hostMem := rfl
@[simp] theorem State.setDie_links (k : Nat) (x : Die) : (s.setDie k x).links = s.links := rfl
@[simp] theorem State.setDie_xmap (k : Nat) (x : Die) : (s.setDie k x).xmap = s.xmap := rfl
@[simp] theorem State.setDie_stores (k : Nat) (x : Die) : (s.setDie k x).stores = s.stores := rfl
@[simp] theorem State.setDie_xcredits (k : Nat) (x : Die) : (s.setDie k x).xcredits = s.xcredits := rfl
@[simp] theorem State.setDie_xearly (k : Nat) (x : Die) : (s.setDie k x).xearly = s.xearly := rfl
@[simp] theorem State.setDie_specTags (k : Nat) (x : Die) : (s.setDie k x).specTags = s.specTags := rfl
@[simp] theorem State.setDie_power (k : Nat) (x : Die) : (s.setDie k x).power = s.power := rfl
@[simp] theorem State.setDie_trust (k : Nat) (x : Die) : (s.setDie k x).trust = s.trust := rfl
@[simp] theorem State.setDie_thermal (k : Nat) (x : Die) : (s.setDie k x).thermal = s.thermal := rfl
@[simp] theorem State.setDie_frames (k : Nat) (x : Die) : (s.setDie k x).frames = s.frames := rfl

@[simp] theorem State.setJob_agenda (k : Nat) (x : Job) : (s.setJob k x).agenda = s.agenda := rfl
@[simp] theorem State.setJob_focus (k : Nat) (x : Job) : (s.setJob k x).focus = s.focus := rfl
@[simp] theorem State.setJob_freeCtr (k : Nat) (x : Job) : (s.setJob k x).freeCtr = s.freeCtr := rfl
@[simp] theorem State.setJob_refCyc (k : Nat) (x : Job) : (s.setJob k x).refCyc = s.refCyc := rfl
@[simp] theorem State.setJob_order (k : Nat) (x : Job) : (s.setJob k x).order = s.order := rfl
@[simp] theorem State.setJob_host (k : Nat) (x : Job) : (s.setJob k x).host = s.host := rfl
@[simp] theorem State.setJob_evq (k : Nat) (x : Job) : (s.setJob k x).evq = s.evq := rfl
@[simp] theorem State.setJob_arb (k : Nat) (x : Job) : (s.setJob k x).arb = s.arb := rfl
@[simp] theorem State.setJob_lqs (k : Nat) (x : Job) : (s.setJob k x).lqs = s.lqs := rfl
@[simp] theorem State.setJob_jobs (k : Nat) (x : Job) : (s.setJob k x).jobs = Tab.set s.jobs k x := rfl
@[simp] theorem State.setJob_launches (k : Nat) (x : Job) : (s.setJob k x).launches = s.launches := rfl
@[simp] theorem State.setJob_graphs (k : Nat) (x : Job) : (s.setJob k x).graphs = s.graphs := rfl
@[simp] theorem State.setJob_phases (k : Nat) (x : Job) : (s.setJob k x).phases = s.phases := rfl
@[simp] theorem State.setJob_dies (k : Nat) (x : Job) : (s.setJob k x).dies = s.dies := rfl
@[simp] theorem State.setJob_regions (k : Nat) (x : Job) : (s.setJob k x).regions = s.regions := rfl
@[simp] theorem State.setJob_blocks (k : Nat) (x : Job) : (s.setJob k x).blocks = s.blocks := rfl
@[simp] theorem State.setJob_chans (k : Nat) (x : Job) : (s.setJob k x).chans = s.chans := rfl
@[simp] theorem State.setJob_tiles (k : Nat) (x : Job) : (s.setJob k x).tiles = s.tiles := rfl
@[simp] theorem State.setJob_streamers (k : Nat) (x : Job) : (s.setJob k x).streamers = s.streamers := rfl
@[simp] theorem State.setJob_cores (k : Nat) (x : Job) : (s.setJob k x).cores = s.cores := rfl
@[simp] theorem State.setJob_root (k : Nat) (x : Job) : (s.setJob k x).root = s.root := rfl
@[simp] theorem State.setJob_epSeq (k : Nat) (x : Job) : (s.setJob k x).epSeq = s.epSeq := rfl
@[simp] theorem State.setJob_bisque (k : Nat) (x : Job) : (s.setJob k x).bisque = s.bisque := rfl
@[simp] theorem State.setJob_holds (k : Nat) (x : Job) : (s.setJob k x).holds = s.holds := rfl
@[simp] theorem State.setJob_ucaches (k : Nat) (x : Job) : (s.setJob k x).ucaches = s.ucaches := rfl
@[simp] theorem State.setJob_mem (k : Nat) (x : Job) : (s.setJob k x).mem = s.mem := rfl
@[simp] theorem State.setJob_hostMem (k : Nat) (x : Job) : (s.setJob k x).hostMem = s.hostMem := rfl
@[simp] theorem State.setJob_links (k : Nat) (x : Job) : (s.setJob k x).links = s.links := rfl
@[simp] theorem State.setJob_xmap (k : Nat) (x : Job) : (s.setJob k x).xmap = s.xmap := rfl
@[simp] theorem State.setJob_stores (k : Nat) (x : Job) : (s.setJob k x).stores = s.stores := rfl
@[simp] theorem State.setJob_xcredits (k : Nat) (x : Job) : (s.setJob k x).xcredits = s.xcredits := rfl
@[simp] theorem State.setJob_xearly (k : Nat) (x : Job) : (s.setJob k x).xearly = s.xearly := rfl
@[simp] theorem State.setJob_specTags (k : Nat) (x : Job) : (s.setJob k x).specTags = s.specTags := rfl
@[simp] theorem State.setJob_power (k : Nat) (x : Job) : (s.setJob k x).power = s.power := rfl
@[simp] theorem State.setJob_trust (k : Nat) (x : Job) : (s.setJob k x).trust = s.trust := rfl
@[simp] theorem State.setJob_thermal (k : Nat) (x : Job) : (s.setJob k x).thermal = s.thermal := rfl
@[simp] theorem State.setJob_frames (k : Nat) (x : Job) : (s.setJob k x).frames = s.frames := rfl

@[simp] theorem State.setLq_agenda (k : Nat) (x : LaunchQ) : (s.setLq k x).agenda = s.agenda := rfl
@[simp] theorem State.setLq_focus (k : Nat) (x : LaunchQ) : (s.setLq k x).focus = s.focus := rfl
@[simp] theorem State.setLq_freeCtr (k : Nat) (x : LaunchQ) : (s.setLq k x).freeCtr = s.freeCtr := rfl
@[simp] theorem State.setLq_refCyc (k : Nat) (x : LaunchQ) : (s.setLq k x).refCyc = s.refCyc := rfl
@[simp] theorem State.setLq_order (k : Nat) (x : LaunchQ) : (s.setLq k x).order = s.order := rfl
@[simp] theorem State.setLq_host (k : Nat) (x : LaunchQ) : (s.setLq k x).host = s.host := rfl
@[simp] theorem State.setLq_evq (k : Nat) (x : LaunchQ) : (s.setLq k x).evq = s.evq := rfl
@[simp] theorem State.setLq_arb (k : Nat) (x : LaunchQ) : (s.setLq k x).arb = s.arb := rfl
@[simp] theorem State.setLq_lqs (k : Nat) (x : LaunchQ) : (s.setLq k x).lqs = Tab.set s.lqs k x := rfl
@[simp] theorem State.setLq_jobs (k : Nat) (x : LaunchQ) : (s.setLq k x).jobs = s.jobs := rfl
@[simp] theorem State.setLq_launches (k : Nat) (x : LaunchQ) : (s.setLq k x).launches = s.launches := rfl
@[simp] theorem State.setLq_graphs (k : Nat) (x : LaunchQ) : (s.setLq k x).graphs = s.graphs := rfl
@[simp] theorem State.setLq_phases (k : Nat) (x : LaunchQ) : (s.setLq k x).phases = s.phases := rfl
@[simp] theorem State.setLq_dies (k : Nat) (x : LaunchQ) : (s.setLq k x).dies = s.dies := rfl
@[simp] theorem State.setLq_regions (k : Nat) (x : LaunchQ) : (s.setLq k x).regions = s.regions := rfl
@[simp] theorem State.setLq_blocks (k : Nat) (x : LaunchQ) : (s.setLq k x).blocks = s.blocks := rfl
@[simp] theorem State.setLq_chans (k : Nat) (x : LaunchQ) : (s.setLq k x).chans = s.chans := rfl
@[simp] theorem State.setLq_tiles (k : Nat) (x : LaunchQ) : (s.setLq k x).tiles = s.tiles := rfl
@[simp] theorem State.setLq_streamers (k : Nat) (x : LaunchQ) : (s.setLq k x).streamers = s.streamers := rfl
@[simp] theorem State.setLq_cores (k : Nat) (x : LaunchQ) : (s.setLq k x).cores = s.cores := rfl
@[simp] theorem State.setLq_root (k : Nat) (x : LaunchQ) : (s.setLq k x).root = s.root := rfl
@[simp] theorem State.setLq_epSeq (k : Nat) (x : LaunchQ) : (s.setLq k x).epSeq = s.epSeq := rfl
@[simp] theorem State.setLq_bisque (k : Nat) (x : LaunchQ) : (s.setLq k x).bisque = s.bisque := rfl
@[simp] theorem State.setLq_holds (k : Nat) (x : LaunchQ) : (s.setLq k x).holds = s.holds := rfl
@[simp] theorem State.setLq_ucaches (k : Nat) (x : LaunchQ) : (s.setLq k x).ucaches = s.ucaches := rfl
@[simp] theorem State.setLq_mem (k : Nat) (x : LaunchQ) : (s.setLq k x).mem = s.mem := rfl
@[simp] theorem State.setLq_hostMem (k : Nat) (x : LaunchQ) : (s.setLq k x).hostMem = s.hostMem := rfl
@[simp] theorem State.setLq_links (k : Nat) (x : LaunchQ) : (s.setLq k x).links = s.links := rfl
@[simp] theorem State.setLq_xmap (k : Nat) (x : LaunchQ) : (s.setLq k x).xmap = s.xmap := rfl
@[simp] theorem State.setLq_stores (k : Nat) (x : LaunchQ) : (s.setLq k x).stores = s.stores := rfl
@[simp] theorem State.setLq_xcredits (k : Nat) (x : LaunchQ) : (s.setLq k x).xcredits = s.xcredits := rfl
@[simp] theorem State.setLq_xearly (k : Nat) (x : LaunchQ) : (s.setLq k x).xearly = s.xearly := rfl
@[simp] theorem State.setLq_specTags (k : Nat) (x : LaunchQ) : (s.setLq k x).specTags = s.specTags := rfl
@[simp] theorem State.setLq_power (k : Nat) (x : LaunchQ) : (s.setLq k x).power = s.power := rfl
@[simp] theorem State.setLq_trust (k : Nat) (x : LaunchQ) : (s.setLq k x).trust = s.trust := rfl
@[simp] theorem State.setLq_thermal (k : Nat) (x : LaunchQ) : (s.setLq k x).thermal = s.thermal := rfl
@[simp] theorem State.setLq_frames (k : Nat) (x : LaunchQ) : (s.setLq k x).frames = s.frames := rfl

@[simp] theorem State.setLink_agenda (k : Nat) (d : Bool) (x : LinkDir) : (s.setLink k d x).agenda = s.agenda := rfl
@[simp] theorem State.setLink_focus (k : Nat) (d : Bool) (x : LinkDir) : (s.setLink k d x).focus = s.focus := rfl
@[simp] theorem State.setLink_freeCtr (k : Nat) (d : Bool) (x : LinkDir) : (s.setLink k d x).freeCtr = s.freeCtr := rfl
@[simp] theorem State.setLink_refCyc (k : Nat) (d : Bool) (x : LinkDir) : (s.setLink k d x).refCyc = s.refCyc := rfl
@[simp] theorem State.setLink_order (k : Nat) (d : Bool) (x : LinkDir) : (s.setLink k d x).order = s.order := rfl
@[simp] theorem State.setLink_host (k : Nat) (d : Bool) (x : LinkDir) : (s.setLink k d x).host = s.host := rfl
@[simp] theorem State.setLink_evq (k : Nat) (d : Bool) (x : LinkDir) : (s.setLink k d x).evq = s.evq := rfl
@[simp] theorem State.setLink_arb (k : Nat) (d : Bool) (x : LinkDir) : (s.setLink k d x).arb = s.arb := rfl
@[simp] theorem State.setLink_lqs (k : Nat) (d : Bool) (x : LinkDir) : (s.setLink k d x).lqs = s.lqs := rfl
@[simp] theorem State.setLink_jobs (k : Nat) (d : Bool) (x : LinkDir) : (s.setLink k d x).jobs = s.jobs := rfl
@[simp] theorem State.setLink_launches (k : Nat) (d : Bool) (x : LinkDir) : (s.setLink k d x).launches = s.launches := rfl
@[simp] theorem State.setLink_graphs (k : Nat) (d : Bool) (x : LinkDir) : (s.setLink k d x).graphs = s.graphs := rfl
@[simp] theorem State.setLink_phases (k : Nat) (d : Bool) (x : LinkDir) : (s.setLink k d x).phases = s.phases := rfl
@[simp] theorem State.setLink_dies (k : Nat) (d : Bool) (x : LinkDir) : (s.setLink k d x).dies = s.dies := rfl
@[simp] theorem State.setLink_regions (k : Nat) (d : Bool) (x : LinkDir) : (s.setLink k d x).regions = s.regions := rfl
@[simp] theorem State.setLink_blocks (k : Nat) (d : Bool) (x : LinkDir) : (s.setLink k d x).blocks = s.blocks := rfl
@[simp] theorem State.setLink_chans (k : Nat) (d : Bool) (x : LinkDir) : (s.setLink k d x).chans = s.chans := rfl
@[simp] theorem State.setLink_tiles (k : Nat) (d : Bool) (x : LinkDir) : (s.setLink k d x).tiles = s.tiles := rfl
@[simp] theorem State.setLink_streamers (k : Nat) (d : Bool) (x : LinkDir) : (s.setLink k d x).streamers = s.streamers := rfl
@[simp] theorem State.setLink_cores (k : Nat) (d : Bool) (x : LinkDir) : (s.setLink k d x).cores = s.cores := rfl
@[simp] theorem State.setLink_root (k : Nat) (d : Bool) (x : LinkDir) : (s.setLink k d x).root = s.root := rfl
@[simp] theorem State.setLink_epSeq (k : Nat) (d : Bool) (x : LinkDir) : (s.setLink k d x).epSeq = s.epSeq := rfl
@[simp] theorem State.setLink_bisque (k : Nat) (d : Bool) (x : LinkDir) : (s.setLink k d x).bisque = s.bisque := rfl
@[simp] theorem State.setLink_holds (k : Nat) (d : Bool) (x : LinkDir) : (s.setLink k d x).holds = s.holds := rfl
@[simp] theorem State.setLink_ucaches (k : Nat) (d : Bool) (x : LinkDir) : (s.setLink k d x).ucaches = s.ucaches := rfl
@[simp] theorem State.setLink_mem (k : Nat) (d : Bool) (x : LinkDir) : (s.setLink k d x).mem = s.mem := rfl
@[simp] theorem State.setLink_hostMem (k : Nat) (d : Bool) (x : LinkDir) : (s.setLink k d x).hostMem = s.hostMem := rfl
@[simp] theorem State.setLink_links (k : Nat) (d : Bool) (x : LinkDir) : (s.setLink k d x).links = Tab.set s.links (2 * k + b01 d) x := rfl
@[simp] theorem State.setLink_xmap (k : Nat) (d : Bool) (x : LinkDir) : (s.setLink k d x).xmap = s.xmap := rfl
@[simp] theorem State.setLink_stores (k : Nat) (d : Bool) (x : LinkDir) : (s.setLink k d x).stores = s.stores := rfl
@[simp] theorem State.setLink_xcredits (k : Nat) (d : Bool) (x : LinkDir) : (s.setLink k d x).xcredits = s.xcredits := rfl
@[simp] theorem State.setLink_xearly (k : Nat) (d : Bool) (x : LinkDir) : (s.setLink k d x).xearly = s.xearly := rfl
@[simp] theorem State.setLink_specTags (k : Nat) (d : Bool) (x : LinkDir) : (s.setLink k d x).specTags = s.specTags := rfl
@[simp] theorem State.setLink_power (k : Nat) (d : Bool) (x : LinkDir) : (s.setLink k d x).power = s.power := rfl
@[simp] theorem State.setLink_trust (k : Nat) (d : Bool) (x : LinkDir) : (s.setLink k d x).trust = s.trust := rfl
@[simp] theorem State.setLink_thermal (k : Nat) (d : Bool) (x : LinkDir) : (s.setLink k d x).thermal = s.thermal := rfl
@[simp] theorem State.setLink_frames (k : Nat) (d : Bool) (x : LinkDir) : (s.setLink k d x).frames = s.frames := rfl

@[simp] theorem State.setChan_agenda (k : Nat) (x : Chan) : (s.setChan k x).agenda = s.agenda := rfl
@[simp] theorem State.setChan_focus (k : Nat) (x : Chan) : (s.setChan k x).focus = s.focus := rfl
@[simp] theorem State.setChan_freeCtr (k : Nat) (x : Chan) : (s.setChan k x).freeCtr = s.freeCtr := rfl
@[simp] theorem State.setChan_refCyc (k : Nat) (x : Chan) : (s.setChan k x).refCyc = s.refCyc := rfl
@[simp] theorem State.setChan_order (k : Nat) (x : Chan) : (s.setChan k x).order = s.order := rfl
@[simp] theorem State.setChan_host (k : Nat) (x : Chan) : (s.setChan k x).host = s.host := rfl
@[simp] theorem State.setChan_evq (k : Nat) (x : Chan) : (s.setChan k x).evq = s.evq := rfl
@[simp] theorem State.setChan_arb (k : Nat) (x : Chan) : (s.setChan k x).arb = s.arb := rfl
@[simp] theorem State.setChan_lqs (k : Nat) (x : Chan) : (s.setChan k x).lqs = s.lqs := rfl
@[simp] theorem State.setChan_jobs (k : Nat) (x : Chan) : (s.setChan k x).jobs = s.jobs := rfl
@[simp] theorem State.setChan_launches (k : Nat) (x : Chan) : (s.setChan k x).launches = s.launches := rfl
@[simp] theorem State.setChan_graphs (k : Nat) (x : Chan) : (s.setChan k x).graphs = s.graphs := rfl
@[simp] theorem State.setChan_phases (k : Nat) (x : Chan) : (s.setChan k x).phases = s.phases := rfl
@[simp] theorem State.setChan_dies (k : Nat) (x : Chan) : (s.setChan k x).dies = s.dies := rfl
@[simp] theorem State.setChan_regions (k : Nat) (x : Chan) : (s.setChan k x).regions = s.regions := rfl
@[simp] theorem State.setChan_blocks (k : Nat) (x : Chan) : (s.setChan k x).blocks = s.blocks := rfl
@[simp] theorem State.setChan_chans (k : Nat) (x : Chan) : (s.setChan k x).chans = Tab.set s.chans k x := rfl
@[simp] theorem State.setChan_tiles (k : Nat) (x : Chan) : (s.setChan k x).tiles = s.tiles := rfl
@[simp] theorem State.setChan_streamers (k : Nat) (x : Chan) : (s.setChan k x).streamers = s.streamers := rfl
@[simp] theorem State.setChan_cores (k : Nat) (x : Chan) : (s.setChan k x).cores = s.cores := rfl
@[simp] theorem State.setChan_root (k : Nat) (x : Chan) : (s.setChan k x).root = s.root := rfl
@[simp] theorem State.setChan_epSeq (k : Nat) (x : Chan) : (s.setChan k x).epSeq = s.epSeq := rfl
@[simp] theorem State.setChan_bisque (k : Nat) (x : Chan) : (s.setChan k x).bisque = s.bisque := rfl
@[simp] theorem State.setChan_holds (k : Nat) (x : Chan) : (s.setChan k x).holds = s.holds := rfl
@[simp] theorem State.setChan_ucaches (k : Nat) (x : Chan) : (s.setChan k x).ucaches = s.ucaches := rfl
@[simp] theorem State.setChan_mem (k : Nat) (x : Chan) : (s.setChan k x).mem = s.mem := rfl
@[simp] theorem State.setChan_hostMem (k : Nat) (x : Chan) : (s.setChan k x).hostMem = s.hostMem := rfl
@[simp] theorem State.setChan_links (k : Nat) (x : Chan) : (s.setChan k x).links = s.links := rfl
@[simp] theorem State.setChan_xmap (k : Nat) (x : Chan) : (s.setChan k x).xmap = s.xmap := rfl
@[simp] theorem State.setChan_stores (k : Nat) (x : Chan) : (s.setChan k x).stores = s.stores := rfl
@[simp] theorem State.setChan_xcredits (k : Nat) (x : Chan) : (s.setChan k x).xcredits = s.xcredits := rfl
@[simp] theorem State.setChan_xearly (k : Nat) (x : Chan) : (s.setChan k x).xearly = s.xearly := rfl
@[simp] theorem State.setChan_specTags (k : Nat) (x : Chan) : (s.setChan k x).specTags = s.specTags := rfl
@[simp] theorem State.setChan_power (k : Nat) (x : Chan) : (s.setChan k x).power = s.power := rfl
@[simp] theorem State.setChan_trust (k : Nat) (x : Chan) : (s.setChan k x).trust = s.trust := rfl
@[simp] theorem State.setChan_thermal (k : Nat) (x : Chan) : (s.setChan k x).thermal = s.thermal := rfl
@[simp] theorem State.setChan_frames (k : Nat) (x : Chan) : (s.setChan k x).frames = s.frames := rfl

@[simp] theorem State.setRegion_agenda (k : Nat) (x : Region) : (s.setRegion k x).agenda = s.agenda := rfl
@[simp] theorem State.setRegion_focus (k : Nat) (x : Region) : (s.setRegion k x).focus = s.focus := rfl
@[simp] theorem State.setRegion_freeCtr (k : Nat) (x : Region) : (s.setRegion k x).freeCtr = s.freeCtr := rfl
@[simp] theorem State.setRegion_refCyc (k : Nat) (x : Region) : (s.setRegion k x).refCyc = s.refCyc := rfl
@[simp] theorem State.setRegion_order (k : Nat) (x : Region) : (s.setRegion k x).order = s.order := rfl
@[simp] theorem State.setRegion_host (k : Nat) (x : Region) : (s.setRegion k x).host = s.host := rfl
@[simp] theorem State.setRegion_evq (k : Nat) (x : Region) : (s.setRegion k x).evq = s.evq := rfl
@[simp] theorem State.setRegion_arb (k : Nat) (x : Region) : (s.setRegion k x).arb = s.arb := rfl
@[simp] theorem State.setRegion_lqs (k : Nat) (x : Region) : (s.setRegion k x).lqs = s.lqs := rfl
@[simp] theorem State.setRegion_jobs (k : Nat) (x : Region) : (s.setRegion k x).jobs = s.jobs := rfl
@[simp] theorem State.setRegion_launches (k : Nat) (x : Region) : (s.setRegion k x).launches = s.launches := rfl
@[simp] theorem State.setRegion_graphs (k : Nat) (x : Region) : (s.setRegion k x).graphs = s.graphs := rfl
@[simp] theorem State.setRegion_phases (k : Nat) (x : Region) : (s.setRegion k x).phases = s.phases := rfl
@[simp] theorem State.setRegion_dies (k : Nat) (x : Region) : (s.setRegion k x).dies = s.dies := rfl
@[simp] theorem State.setRegion_regions (k : Nat) (x : Region) : (s.setRegion k x).regions = Tab.set s.regions k x := rfl
@[simp] theorem State.setRegion_blocks (k : Nat) (x : Region) : (s.setRegion k x).blocks = s.blocks := rfl
@[simp] theorem State.setRegion_chans (k : Nat) (x : Region) : (s.setRegion k x).chans = s.chans := rfl
@[simp] theorem State.setRegion_tiles (k : Nat) (x : Region) : (s.setRegion k x).tiles = s.tiles := rfl
@[simp] theorem State.setRegion_streamers (k : Nat) (x : Region) : (s.setRegion k x).streamers = s.streamers := rfl
@[simp] theorem State.setRegion_cores (k : Nat) (x : Region) : (s.setRegion k x).cores = s.cores := rfl
@[simp] theorem State.setRegion_root (k : Nat) (x : Region) : (s.setRegion k x).root = s.root := rfl
@[simp] theorem State.setRegion_epSeq (k : Nat) (x : Region) : (s.setRegion k x).epSeq = s.epSeq := rfl
@[simp] theorem State.setRegion_bisque (k : Nat) (x : Region) : (s.setRegion k x).bisque = s.bisque := rfl
@[simp] theorem State.setRegion_holds (k : Nat) (x : Region) : (s.setRegion k x).holds = s.holds := rfl
@[simp] theorem State.setRegion_ucaches (k : Nat) (x : Region) : (s.setRegion k x).ucaches = s.ucaches := rfl
@[simp] theorem State.setRegion_mem (k : Nat) (x : Region) : (s.setRegion k x).mem = s.mem := rfl
@[simp] theorem State.setRegion_hostMem (k : Nat) (x : Region) : (s.setRegion k x).hostMem = s.hostMem := rfl
@[simp] theorem State.setRegion_links (k : Nat) (x : Region) : (s.setRegion k x).links = s.links := rfl
@[simp] theorem State.setRegion_xmap (k : Nat) (x : Region) : (s.setRegion k x).xmap = s.xmap := rfl
@[simp] theorem State.setRegion_stores (k : Nat) (x : Region) : (s.setRegion k x).stores = s.stores := rfl
@[simp] theorem State.setRegion_xcredits (k : Nat) (x : Region) : (s.setRegion k x).xcredits = s.xcredits := rfl
@[simp] theorem State.setRegion_xearly (k : Nat) (x : Region) : (s.setRegion k x).xearly = s.xearly := rfl
@[simp] theorem State.setRegion_specTags (k : Nat) (x : Region) : (s.setRegion k x).specTags = s.specTags := rfl
@[simp] theorem State.setRegion_power (k : Nat) (x : Region) : (s.setRegion k x).power = s.power := rfl
@[simp] theorem State.setRegion_trust (k : Nat) (x : Region) : (s.setRegion k x).trust = s.trust := rfl
@[simp] theorem State.setRegion_thermal (k : Nat) (x : Region) : (s.setRegion k x).thermal = s.thermal := rfl
@[simp] theorem State.setRegion_frames (k : Nat) (x : Region) : (s.setRegion k x).frames = s.frames := rfl

@[simp] theorem State.setBlock_agenda (k : Nat) (x : Block) : (s.setBlock k x).agenda = s.agenda := rfl
@[simp] theorem State.setBlock_focus (k : Nat) (x : Block) : (s.setBlock k x).focus = s.focus := rfl
@[simp] theorem State.setBlock_freeCtr (k : Nat) (x : Block) : (s.setBlock k x).freeCtr = s.freeCtr := rfl
@[simp] theorem State.setBlock_refCyc (k : Nat) (x : Block) : (s.setBlock k x).refCyc = s.refCyc := rfl
@[simp] theorem State.setBlock_order (k : Nat) (x : Block) : (s.setBlock k x).order = s.order := rfl
@[simp] theorem State.setBlock_host (k : Nat) (x : Block) : (s.setBlock k x).host = s.host := rfl
@[simp] theorem State.setBlock_evq (k : Nat) (x : Block) : (s.setBlock k x).evq = s.evq := rfl
@[simp] theorem State.setBlock_arb (k : Nat) (x : Block) : (s.setBlock k x).arb = s.arb := rfl
@[simp] theorem State.setBlock_lqs (k : Nat) (x : Block) : (s.setBlock k x).lqs = s.lqs := rfl
@[simp] theorem State.setBlock_jobs (k : Nat) (x : Block) : (s.setBlock k x).jobs = s.jobs := rfl
@[simp] theorem State.setBlock_launches (k : Nat) (x : Block) : (s.setBlock k x).launches = s.launches := rfl
@[simp] theorem State.setBlock_graphs (k : Nat) (x : Block) : (s.setBlock k x).graphs = s.graphs := rfl
@[simp] theorem State.setBlock_phases (k : Nat) (x : Block) : (s.setBlock k x).phases = s.phases := rfl
@[simp] theorem State.setBlock_dies (k : Nat) (x : Block) : (s.setBlock k x).dies = s.dies := rfl
@[simp] theorem State.setBlock_regions (k : Nat) (x : Block) : (s.setBlock k x).regions = s.regions := rfl
@[simp] theorem State.setBlock_blocks (k : Nat) (x : Block) : (s.setBlock k x).blocks = Tab.set s.blocks k x := rfl
@[simp] theorem State.setBlock_chans (k : Nat) (x : Block) : (s.setBlock k x).chans = s.chans := rfl
@[simp] theorem State.setBlock_tiles (k : Nat) (x : Block) : (s.setBlock k x).tiles = s.tiles := rfl
@[simp] theorem State.setBlock_streamers (k : Nat) (x : Block) : (s.setBlock k x).streamers = s.streamers := rfl
@[simp] theorem State.setBlock_cores (k : Nat) (x : Block) : (s.setBlock k x).cores = s.cores := rfl
@[simp] theorem State.setBlock_root (k : Nat) (x : Block) : (s.setBlock k x).root = s.root := rfl
@[simp] theorem State.setBlock_epSeq (k : Nat) (x : Block) : (s.setBlock k x).epSeq = s.epSeq := rfl
@[simp] theorem State.setBlock_bisque (k : Nat) (x : Block) : (s.setBlock k x).bisque = s.bisque := rfl
@[simp] theorem State.setBlock_holds (k : Nat) (x : Block) : (s.setBlock k x).holds = s.holds := rfl
@[simp] theorem State.setBlock_ucaches (k : Nat) (x : Block) : (s.setBlock k x).ucaches = s.ucaches := rfl
@[simp] theorem State.setBlock_mem (k : Nat) (x : Block) : (s.setBlock k x).mem = s.mem := rfl
@[simp] theorem State.setBlock_hostMem (k : Nat) (x : Block) : (s.setBlock k x).hostMem = s.hostMem := rfl
@[simp] theorem State.setBlock_links (k : Nat) (x : Block) : (s.setBlock k x).links = s.links := rfl
@[simp] theorem State.setBlock_xmap (k : Nat) (x : Block) : (s.setBlock k x).xmap = s.xmap := rfl
@[simp] theorem State.setBlock_stores (k : Nat) (x : Block) : (s.setBlock k x).stores = s.stores := rfl
@[simp] theorem State.setBlock_xcredits (k : Nat) (x : Block) : (s.setBlock k x).xcredits = s.xcredits := rfl
@[simp] theorem State.setBlock_xearly (k : Nat) (x : Block) : (s.setBlock k x).xearly = s.xearly := rfl
@[simp] theorem State.setBlock_specTags (k : Nat) (x : Block) : (s.setBlock k x).specTags = s.specTags := rfl
@[simp] theorem State.setBlock_power (k : Nat) (x : Block) : (s.setBlock k x).power = s.power := rfl
@[simp] theorem State.setBlock_trust (k : Nat) (x : Block) : (s.setBlock k x).trust = s.trust := rfl
@[simp] theorem State.setBlock_thermal (k : Nat) (x : Block) : (s.setBlock k x).thermal = s.thermal := rfl
@[simp] theorem State.setBlock_frames (k : Nat) (x : Block) : (s.setBlock k x).frames = s.frames := rfl

@[simp] theorem State.setLaunch_agenda (k : Nat) (x : Launch) : (s.setLaunch k x).agenda = s.agenda := rfl
@[simp] theorem State.setLaunch_focus (k : Nat) (x : Launch) : (s.setLaunch k x).focus = s.focus := rfl
@[simp] theorem State.setLaunch_freeCtr (k : Nat) (x : Launch) : (s.setLaunch k x).freeCtr = s.freeCtr := rfl
@[simp] theorem State.setLaunch_refCyc (k : Nat) (x : Launch) : (s.setLaunch k x).refCyc = s.refCyc := rfl
@[simp] theorem State.setLaunch_order (k : Nat) (x : Launch) : (s.setLaunch k x).order = s.order := rfl
@[simp] theorem State.setLaunch_host (k : Nat) (x : Launch) : (s.setLaunch k x).host = s.host := rfl
@[simp] theorem State.setLaunch_evq (k : Nat) (x : Launch) : (s.setLaunch k x).evq = s.evq := rfl
@[simp] theorem State.setLaunch_arb (k : Nat) (x : Launch) : (s.setLaunch k x).arb = s.arb := rfl
@[simp] theorem State.setLaunch_lqs (k : Nat) (x : Launch) : (s.setLaunch k x).lqs = s.lqs := rfl
@[simp] theorem State.setLaunch_jobs (k : Nat) (x : Launch) : (s.setLaunch k x).jobs = s.jobs := rfl
@[simp] theorem State.setLaunch_launches (k : Nat) (x : Launch) : (s.setLaunch k x).launches = Tab.set s.launches k x := rfl
@[simp] theorem State.setLaunch_graphs (k : Nat) (x : Launch) : (s.setLaunch k x).graphs = s.graphs := rfl
@[simp] theorem State.setLaunch_phases (k : Nat) (x : Launch) : (s.setLaunch k x).phases = s.phases := rfl
@[simp] theorem State.setLaunch_dies (k : Nat) (x : Launch) : (s.setLaunch k x).dies = s.dies := rfl
@[simp] theorem State.setLaunch_regions (k : Nat) (x : Launch) : (s.setLaunch k x).regions = s.regions := rfl
@[simp] theorem State.setLaunch_blocks (k : Nat) (x : Launch) : (s.setLaunch k x).blocks = s.blocks := rfl
@[simp] theorem State.setLaunch_chans (k : Nat) (x : Launch) : (s.setLaunch k x).chans = s.chans := rfl
@[simp] theorem State.setLaunch_tiles (k : Nat) (x : Launch) : (s.setLaunch k x).tiles = s.tiles := rfl
@[simp] theorem State.setLaunch_streamers (k : Nat) (x : Launch) : (s.setLaunch k x).streamers = s.streamers := rfl
@[simp] theorem State.setLaunch_cores (k : Nat) (x : Launch) : (s.setLaunch k x).cores = s.cores := rfl
@[simp] theorem State.setLaunch_root (k : Nat) (x : Launch) : (s.setLaunch k x).root = s.root := rfl
@[simp] theorem State.setLaunch_epSeq (k : Nat) (x : Launch) : (s.setLaunch k x).epSeq = s.epSeq := rfl
@[simp] theorem State.setLaunch_bisque (k : Nat) (x : Launch) : (s.setLaunch k x).bisque = s.bisque := rfl
@[simp] theorem State.setLaunch_holds (k : Nat) (x : Launch) : (s.setLaunch k x).holds = s.holds := rfl
@[simp] theorem State.setLaunch_ucaches (k : Nat) (x : Launch) : (s.setLaunch k x).ucaches = s.ucaches := rfl
@[simp] theorem State.setLaunch_mem (k : Nat) (x : Launch) : (s.setLaunch k x).mem = s.mem := rfl
@[simp] theorem State.setLaunch_hostMem (k : Nat) (x : Launch) : (s.setLaunch k x).hostMem = s.hostMem := rfl
@[simp] theorem State.setLaunch_links (k : Nat) (x : Launch) : (s.setLaunch k x).links = s.links := rfl
@[simp] theorem State.setLaunch_xmap (k : Nat) (x : Launch) : (s.setLaunch k x).xmap = s.xmap := rfl
@[simp] theorem State.setLaunch_stores (k : Nat) (x : Launch) : (s.setLaunch k x).stores = s.stores := rfl
@[simp] theorem State.setLaunch_xcredits (k : Nat) (x : Launch) : (s.setLaunch k x).xcredits = s.xcredits := rfl
@[simp] theorem State.setLaunch_xearly (k : Nat) (x : Launch) : (s.setLaunch k x).xearly = s.xearly := rfl
@[simp] theorem State.setLaunch_specTags (k : Nat) (x : Launch) : (s.setLaunch k x).specTags = s.specTags := rfl
@[simp] theorem State.setLaunch_power (k : Nat) (x : Launch) : (s.setLaunch k x).power = s.power := rfl
@[simp] theorem State.setLaunch_trust (k : Nat) (x : Launch) : (s.setLaunch k x).trust = s.trust := rfl
@[simp] theorem State.setLaunch_thermal (k : Nat) (x : Launch) : (s.setLaunch k x).thermal = s.thermal := rfl
@[simp] theorem State.setLaunch_frames (k : Nat) (x : Launch) : (s.setLaunch k x).frames = s.frames := rfl

@[simp] theorem State.setMem_agenda (x : Mem) : (s.setMem x).agenda = s.agenda := rfl
@[simp] theorem State.setMem_focus (x : Mem) : (s.setMem x).focus = s.focus := rfl
@[simp] theorem State.setMem_freeCtr (x : Mem) : (s.setMem x).freeCtr = s.freeCtr := rfl
@[simp] theorem State.setMem_refCyc (x : Mem) : (s.setMem x).refCyc = s.refCyc := rfl
@[simp] theorem State.setMem_order (x : Mem) : (s.setMem x).order = s.order := rfl
@[simp] theorem State.setMem_host (x : Mem) : (s.setMem x).host = s.host := rfl
@[simp] theorem State.setMem_evq (x : Mem) : (s.setMem x).evq = s.evq := rfl
@[simp] theorem State.setMem_arb (x : Mem) : (s.setMem x).arb = s.arb := rfl
@[simp] theorem State.setMem_lqs (x : Mem) : (s.setMem x).lqs = s.lqs := rfl
@[simp] theorem State.setMem_jobs (x : Mem) : (s.setMem x).jobs = s.jobs := rfl
@[simp] theorem State.setMem_launches (x : Mem) : (s.setMem x).launches = s.launches := rfl
@[simp] theorem State.setMem_graphs (x : Mem) : (s.setMem x).graphs = s.graphs := rfl
@[simp] theorem State.setMem_phases (x : Mem) : (s.setMem x).phases = s.phases := rfl
@[simp] theorem State.setMem_dies (x : Mem) : (s.setMem x).dies = s.dies := rfl
@[simp] theorem State.setMem_regions (x : Mem) : (s.setMem x).regions = s.regions := rfl
@[simp] theorem State.setMem_blocks (x : Mem) : (s.setMem x).blocks = s.blocks := rfl
@[simp] theorem State.setMem_chans (x : Mem) : (s.setMem x).chans = s.chans := rfl
@[simp] theorem State.setMem_tiles (x : Mem) : (s.setMem x).tiles = s.tiles := rfl
@[simp] theorem State.setMem_streamers (x : Mem) : (s.setMem x).streamers = s.streamers := rfl
@[simp] theorem State.setMem_cores (x : Mem) : (s.setMem x).cores = s.cores := rfl
@[simp] theorem State.setMem_root (x : Mem) : (s.setMem x).root = s.root := rfl
@[simp] theorem State.setMem_epSeq (x : Mem) : (s.setMem x).epSeq = s.epSeq := rfl
@[simp] theorem State.setMem_bisque (x : Mem) : (s.setMem x).bisque = s.bisque := rfl
@[simp] theorem State.setMem_holds (x : Mem) : (s.setMem x).holds = s.holds := rfl
@[simp] theorem State.setMem_ucaches (x : Mem) : (s.setMem x).ucaches = s.ucaches := rfl
@[simp] theorem State.setMem_mem (x : Mem) : (s.setMem x).mem = x := rfl
@[simp] theorem State.setMem_hostMem (x : Mem) : (s.setMem x).hostMem = s.hostMem := rfl
@[simp] theorem State.setMem_links (x : Mem) : (s.setMem x).links = s.links := rfl
@[simp] theorem State.setMem_xmap (x : Mem) : (s.setMem x).xmap = s.xmap := rfl
@[simp] theorem State.setMem_stores (x : Mem) : (s.setMem x).stores = s.stores := rfl
@[simp] theorem State.setMem_xcredits (x : Mem) : (s.setMem x).xcredits = s.xcredits := rfl
@[simp] theorem State.setMem_xearly (x : Mem) : (s.setMem x).xearly = s.xearly := rfl
@[simp] theorem State.setMem_specTags (x : Mem) : (s.setMem x).specTags = s.specTags := rfl
@[simp] theorem State.setMem_power (x : Mem) : (s.setMem x).power = s.power := rfl
@[simp] theorem State.setMem_trust (x : Mem) : (s.setMem x).trust = s.trust := rfl
@[simp] theorem State.setMem_thermal (x : Mem) : (s.setMem x).thermal = s.thermal := rfl
@[simp] theorem State.setMem_frames (x : Mem) : (s.setMem x).frames = s.frames := rfl

@[simp] theorem State.post_agenda (x : Event) : (s.post x).agenda = s.agenda := rfl
@[simp] theorem State.post_focus (x : Event) : (s.post x).focus = s.focus := rfl
@[simp] theorem State.post_freeCtr (x : Event) : (s.post x).freeCtr = s.freeCtr := rfl
@[simp] theorem State.post_refCyc (x : Event) : (s.post x).refCyc = s.refCyc := rfl
@[simp] theorem State.post_order (x : Event) : (s.post x).order = s.order := rfl
@[simp] theorem State.post_host (x : Event) : (s.post x).host = s.host := rfl
@[simp] theorem State.post_evq (x : Event) : (s.post x).evq = { s.evq with held := s.evq.held ++ [x] } := rfl
@[simp] theorem State.post_arb (x : Event) : (s.post x).arb = s.arb := rfl
@[simp] theorem State.post_lqs (x : Event) : (s.post x).lqs = s.lqs := rfl
@[simp] theorem State.post_jobs (x : Event) : (s.post x).jobs = s.jobs := rfl
@[simp] theorem State.post_launches (x : Event) : (s.post x).launches = s.launches := rfl
@[simp] theorem State.post_graphs (x : Event) : (s.post x).graphs = s.graphs := rfl
@[simp] theorem State.post_phases (x : Event) : (s.post x).phases = s.phases := rfl
@[simp] theorem State.post_dies (x : Event) : (s.post x).dies = s.dies := rfl
@[simp] theorem State.post_regions (x : Event) : (s.post x).regions = s.regions := rfl
@[simp] theorem State.post_blocks (x : Event) : (s.post x).blocks = s.blocks := rfl
@[simp] theorem State.post_chans (x : Event) : (s.post x).chans = s.chans := rfl
@[simp] theorem State.post_tiles (x : Event) : (s.post x).tiles = s.tiles := rfl
@[simp] theorem State.post_streamers (x : Event) : (s.post x).streamers = s.streamers := rfl
@[simp] theorem State.post_cores (x : Event) : (s.post x).cores = s.cores := rfl
@[simp] theorem State.post_root (x : Event) : (s.post x).root = s.root := rfl
@[simp] theorem State.post_epSeq (x : Event) : (s.post x).epSeq = s.epSeq := rfl
@[simp] theorem State.post_bisque (x : Event) : (s.post x).bisque = s.bisque := rfl
@[simp] theorem State.post_holds (x : Event) : (s.post x).holds = s.holds := rfl
@[simp] theorem State.post_ucaches (x : Event) : (s.post x).ucaches = s.ucaches := rfl
@[simp] theorem State.post_mem (x : Event) : (s.post x).mem = s.mem := rfl
@[simp] theorem State.post_hostMem (x : Event) : (s.post x).hostMem = s.hostMem := rfl
@[simp] theorem State.post_links (x : Event) : (s.post x).links = s.links := rfl
@[simp] theorem State.post_xmap (x : Event) : (s.post x).xmap = s.xmap := rfl
@[simp] theorem State.post_stores (x : Event) : (s.post x).stores = s.stores := rfl
@[simp] theorem State.post_xcredits (x : Event) : (s.post x).xcredits = s.xcredits := rfl
@[simp] theorem State.post_xearly (x : Event) : (s.post x).xearly = s.xearly := rfl
@[simp] theorem State.post_specTags (x : Event) : (s.post x).specTags = s.specTags := rfl
@[simp] theorem State.post_power (x : Event) : (s.post x).power = s.power := rfl
@[simp] theorem State.post_trust (x : Event) : (s.post x).trust = s.trust := rfl
@[simp] theorem State.post_thermal (x : Event) : (s.post x).thermal = s.thermal := rfl
@[simp] theorem State.post_frames (x : Event) : (s.post x).frames = s.frames := rfl

@[simp] theorem State.modChan_agenda (k : Nat) (g : Chan → Chan) : (s.modChan k g).agenda = s.agenda := by
  unfold State.modChan; split <;> rfl
@[simp] theorem State.modChan_focus (k : Nat) (g : Chan → Chan) : (s.modChan k g).focus = s.focus := by
  unfold State.modChan; split <;> rfl
@[simp] theorem State.modChan_freeCtr (k : Nat) (g : Chan → Chan) : (s.modChan k g).freeCtr = s.freeCtr := by
  unfold State.modChan; split <;> rfl
@[simp] theorem State.modChan_refCyc (k : Nat) (g : Chan → Chan) : (s.modChan k g).refCyc = s.refCyc := by
  unfold State.modChan; split <;> rfl
@[simp] theorem State.modChan_order (k : Nat) (g : Chan → Chan) : (s.modChan k g).order = s.order := by
  unfold State.modChan; split <;> rfl
@[simp] theorem State.modChan_host (k : Nat) (g : Chan → Chan) : (s.modChan k g).host = s.host := by
  unfold State.modChan; split <;> rfl
@[simp] theorem State.modChan_evq (k : Nat) (g : Chan → Chan) : (s.modChan k g).evq = s.evq := by
  unfold State.modChan; split <;> rfl
@[simp] theorem State.modChan_arb (k : Nat) (g : Chan → Chan) : (s.modChan k g).arb = s.arb := by
  unfold State.modChan; split <;> rfl
@[simp] theorem State.modChan_lqs (k : Nat) (g : Chan → Chan) : (s.modChan k g).lqs = s.lqs := by
  unfold State.modChan; split <;> rfl
@[simp] theorem State.modChan_jobs (k : Nat) (g : Chan → Chan) : (s.modChan k g).jobs = s.jobs := by
  unfold State.modChan; split <;> rfl
@[simp] theorem State.modChan_launches (k : Nat) (g : Chan → Chan) : (s.modChan k g).launches = s.launches := by
  unfold State.modChan; split <;> rfl
@[simp] theorem State.modChan_graphs (k : Nat) (g : Chan → Chan) : (s.modChan k g).graphs = s.graphs := by
  unfold State.modChan; split <;> rfl
@[simp] theorem State.modChan_phases (k : Nat) (g : Chan → Chan) : (s.modChan k g).phases = s.phases := by
  unfold State.modChan; split <;> rfl
@[simp] theorem State.modChan_dies (k : Nat) (g : Chan → Chan) : (s.modChan k g).dies = s.dies := by
  unfold State.modChan; split <;> rfl
@[simp] theorem State.modChan_regions (k : Nat) (g : Chan → Chan) : (s.modChan k g).regions = s.regions := by
  unfold State.modChan; split <;> rfl
@[simp] theorem State.modChan_blocks (k : Nat) (g : Chan → Chan) : (s.modChan k g).blocks = s.blocks := by
  unfold State.modChan; split <;> rfl
@[simp] theorem State.modChan_tiles (k : Nat) (g : Chan → Chan) : (s.modChan k g).tiles = s.tiles := by
  unfold State.modChan; split <;> rfl
@[simp] theorem State.modChan_streamers (k : Nat) (g : Chan → Chan) : (s.modChan k g).streamers = s.streamers := by
  unfold State.modChan; split <;> rfl
@[simp] theorem State.modChan_cores (k : Nat) (g : Chan → Chan) : (s.modChan k g).cores = s.cores := by
  unfold State.modChan; split <;> rfl
@[simp] theorem State.modChan_root (k : Nat) (g : Chan → Chan) : (s.modChan k g).root = s.root := by
  unfold State.modChan; split <;> rfl
@[simp] theorem State.modChan_epSeq (k : Nat) (g : Chan → Chan) : (s.modChan k g).epSeq = s.epSeq := by
  unfold State.modChan; split <;> rfl
@[simp] theorem State.modChan_bisque (k : Nat) (g : Chan → Chan) : (s.modChan k g).bisque = s.bisque := by
  unfold State.modChan; split <;> rfl
@[simp] theorem State.modChan_holds (k : Nat) (g : Chan → Chan) : (s.modChan k g).holds = s.holds := by
  unfold State.modChan; split <;> rfl
@[simp] theorem State.modChan_ucaches (k : Nat) (g : Chan → Chan) : (s.modChan k g).ucaches = s.ucaches := by
  unfold State.modChan; split <;> rfl
@[simp] theorem State.modChan_mem (k : Nat) (g : Chan → Chan) : (s.modChan k g).mem = s.mem := by
  unfold State.modChan; split <;> rfl
@[simp] theorem State.modChan_hostMem (k : Nat) (g : Chan → Chan) : (s.modChan k g).hostMem = s.hostMem := by
  unfold State.modChan; split <;> rfl
@[simp] theorem State.modChan_links (k : Nat) (g : Chan → Chan) : (s.modChan k g).links = s.links := by
  unfold State.modChan; split <;> rfl
@[simp] theorem State.modChan_xmap (k : Nat) (g : Chan → Chan) : (s.modChan k g).xmap = s.xmap := by
  unfold State.modChan; split <;> rfl
@[simp] theorem State.modChan_stores (k : Nat) (g : Chan → Chan) : (s.modChan k g).stores = s.stores := by
  unfold State.modChan; split <;> rfl
@[simp] theorem State.modChan_xcredits (k : Nat) (g : Chan → Chan) : (s.modChan k g).xcredits = s.xcredits := by
  unfold State.modChan; split <;> rfl
@[simp] theorem State.modChan_xearly (k : Nat) (g : Chan → Chan) : (s.modChan k g).xearly = s.xearly := by
  unfold State.modChan; split <;> rfl
@[simp] theorem State.modChan_specTags (k : Nat) (g : Chan → Chan) : (s.modChan k g).specTags = s.specTags := by
  unfold State.modChan; split <;> rfl
@[simp] theorem State.modChan_power (k : Nat) (g : Chan → Chan) : (s.modChan k g).power = s.power := by
  unfold State.modChan; split <;> rfl
@[simp] theorem State.modChan_trust (k : Nat) (g : Chan → Chan) : (s.modChan k g).trust = s.trust := by
  unfold State.modChan; split <;> rfl
@[simp] theorem State.modChan_thermal (k : Nat) (g : Chan → Chan) : (s.modChan k g).thermal = s.thermal := by
  unfold State.modChan; split <;> rfl
@[simp] theorem State.modChan_frames (k : Nat) (g : Chan → Chan) : (s.modChan k g).frames = s.frames := by
  unfold State.modChan; split <;> rfl

@[simp] theorem State.modRegion_agenda (k : Nat) (g : Region → Region) : (s.modRegion k g).agenda = s.agenda := by
  unfold State.modRegion; split <;> rfl
@[simp] theorem State.modRegion_focus (k : Nat) (g : Region → Region) : (s.modRegion k g).focus = s.focus := by
  unfold State.modRegion; split <;> rfl
@[simp] theorem State.modRegion_freeCtr (k : Nat) (g : Region → Region) : (s.modRegion k g).freeCtr = s.freeCtr := by
  unfold State.modRegion; split <;> rfl
@[simp] theorem State.modRegion_refCyc (k : Nat) (g : Region → Region) : (s.modRegion k g).refCyc = s.refCyc := by
  unfold State.modRegion; split <;> rfl
@[simp] theorem State.modRegion_order (k : Nat) (g : Region → Region) : (s.modRegion k g).order = s.order := by
  unfold State.modRegion; split <;> rfl
@[simp] theorem State.modRegion_host (k : Nat) (g : Region → Region) : (s.modRegion k g).host = s.host := by
  unfold State.modRegion; split <;> rfl
@[simp] theorem State.modRegion_evq (k : Nat) (g : Region → Region) : (s.modRegion k g).evq = s.evq := by
  unfold State.modRegion; split <;> rfl
@[simp] theorem State.modRegion_arb (k : Nat) (g : Region → Region) : (s.modRegion k g).arb = s.arb := by
  unfold State.modRegion; split <;> rfl
@[simp] theorem State.modRegion_lqs (k : Nat) (g : Region → Region) : (s.modRegion k g).lqs = s.lqs := by
  unfold State.modRegion; split <;> rfl
@[simp] theorem State.modRegion_jobs (k : Nat) (g : Region → Region) : (s.modRegion k g).jobs = s.jobs := by
  unfold State.modRegion; split <;> rfl
@[simp] theorem State.modRegion_launches (k : Nat) (g : Region → Region) : (s.modRegion k g).launches = s.launches := by
  unfold State.modRegion; split <;> rfl
@[simp] theorem State.modRegion_graphs (k : Nat) (g : Region → Region) : (s.modRegion k g).graphs = s.graphs := by
  unfold State.modRegion; split <;> rfl
@[simp] theorem State.modRegion_phases (k : Nat) (g : Region → Region) : (s.modRegion k g).phases = s.phases := by
  unfold State.modRegion; split <;> rfl
@[simp] theorem State.modRegion_dies (k : Nat) (g : Region → Region) : (s.modRegion k g).dies = s.dies := by
  unfold State.modRegion; split <;> rfl
@[simp] theorem State.modRegion_blocks (k : Nat) (g : Region → Region) : (s.modRegion k g).blocks = s.blocks := by
  unfold State.modRegion; split <;> rfl
@[simp] theorem State.modRegion_chans (k : Nat) (g : Region → Region) : (s.modRegion k g).chans = s.chans := by
  unfold State.modRegion; split <;> rfl
@[simp] theorem State.modRegion_tiles (k : Nat) (g : Region → Region) : (s.modRegion k g).tiles = s.tiles := by
  unfold State.modRegion; split <;> rfl
@[simp] theorem State.modRegion_streamers (k : Nat) (g : Region → Region) : (s.modRegion k g).streamers = s.streamers := by
  unfold State.modRegion; split <;> rfl
@[simp] theorem State.modRegion_cores (k : Nat) (g : Region → Region) : (s.modRegion k g).cores = s.cores := by
  unfold State.modRegion; split <;> rfl
@[simp] theorem State.modRegion_root (k : Nat) (g : Region → Region) : (s.modRegion k g).root = s.root := by
  unfold State.modRegion; split <;> rfl
@[simp] theorem State.modRegion_epSeq (k : Nat) (g : Region → Region) : (s.modRegion k g).epSeq = s.epSeq := by
  unfold State.modRegion; split <;> rfl
@[simp] theorem State.modRegion_bisque (k : Nat) (g : Region → Region) : (s.modRegion k g).bisque = s.bisque := by
  unfold State.modRegion; split <;> rfl
@[simp] theorem State.modRegion_holds (k : Nat) (g : Region → Region) : (s.modRegion k g).holds = s.holds := by
  unfold State.modRegion; split <;> rfl
@[simp] theorem State.modRegion_ucaches (k : Nat) (g : Region → Region) : (s.modRegion k g).ucaches = s.ucaches := by
  unfold State.modRegion; split <;> rfl
@[simp] theorem State.modRegion_mem (k : Nat) (g : Region → Region) : (s.modRegion k g).mem = s.mem := by
  unfold State.modRegion; split <;> rfl
@[simp] theorem State.modRegion_hostMem (k : Nat) (g : Region → Region) : (s.modRegion k g).hostMem = s.hostMem := by
  unfold State.modRegion; split <;> rfl
@[simp] theorem State.modRegion_links (k : Nat) (g : Region → Region) : (s.modRegion k g).links = s.links := by
  unfold State.modRegion; split <;> rfl
@[simp] theorem State.modRegion_xmap (k : Nat) (g : Region → Region) : (s.modRegion k g).xmap = s.xmap := by
  unfold State.modRegion; split <;> rfl
@[simp] theorem State.modRegion_stores (k : Nat) (g : Region → Region) : (s.modRegion k g).stores = s.stores := by
  unfold State.modRegion; split <;> rfl
@[simp] theorem State.modRegion_xcredits (k : Nat) (g : Region → Region) : (s.modRegion k g).xcredits = s.xcredits := by
  unfold State.modRegion; split <;> rfl
@[simp] theorem State.modRegion_xearly (k : Nat) (g : Region → Region) : (s.modRegion k g).xearly = s.xearly := by
  unfold State.modRegion; split <;> rfl
@[simp] theorem State.modRegion_specTags (k : Nat) (g : Region → Region) : (s.modRegion k g).specTags = s.specTags := by
  unfold State.modRegion; split <;> rfl
@[simp] theorem State.modRegion_power (k : Nat) (g : Region → Region) : (s.modRegion k g).power = s.power := by
  unfold State.modRegion; split <;> rfl
@[simp] theorem State.modRegion_trust (k : Nat) (g : Region → Region) : (s.modRegion k g).trust = s.trust := by
  unfold State.modRegion; split <;> rfl
@[simp] theorem State.modRegion_thermal (k : Nat) (g : Region → Region) : (s.modRegion k g).thermal = s.thermal := by
  unfold State.modRegion; split <;> rfl
@[simp] theorem State.modRegion_frames (k : Nat) (g : Region → Region) : (s.modRegion k g).frames = s.frames := by
  unfold State.modRegion; split <;> rfl

@[simp] theorem State.modBlock_agenda (k : Nat) (g : Block → Block) : (s.modBlock k g).agenda = s.agenda := by
  unfold State.modBlock; split <;> rfl
@[simp] theorem State.modBlock_focus (k : Nat) (g : Block → Block) : (s.modBlock k g).focus = s.focus := by
  unfold State.modBlock; split <;> rfl
@[simp] theorem State.modBlock_freeCtr (k : Nat) (g : Block → Block) : (s.modBlock k g).freeCtr = s.freeCtr := by
  unfold State.modBlock; split <;> rfl
@[simp] theorem State.modBlock_refCyc (k : Nat) (g : Block → Block) : (s.modBlock k g).refCyc = s.refCyc := by
  unfold State.modBlock; split <;> rfl
@[simp] theorem State.modBlock_order (k : Nat) (g : Block → Block) : (s.modBlock k g).order = s.order := by
  unfold State.modBlock; split <;> rfl
@[simp] theorem State.modBlock_host (k : Nat) (g : Block → Block) : (s.modBlock k g).host = s.host := by
  unfold State.modBlock; split <;> rfl
@[simp] theorem State.modBlock_evq (k : Nat) (g : Block → Block) : (s.modBlock k g).evq = s.evq := by
  unfold State.modBlock; split <;> rfl
@[simp] theorem State.modBlock_arb (k : Nat) (g : Block → Block) : (s.modBlock k g).arb = s.arb := by
  unfold State.modBlock; split <;> rfl
@[simp] theorem State.modBlock_lqs (k : Nat) (g : Block → Block) : (s.modBlock k g).lqs = s.lqs := by
  unfold State.modBlock; split <;> rfl
@[simp] theorem State.modBlock_jobs (k : Nat) (g : Block → Block) : (s.modBlock k g).jobs = s.jobs := by
  unfold State.modBlock; split <;> rfl
@[simp] theorem State.modBlock_launches (k : Nat) (g : Block → Block) : (s.modBlock k g).launches = s.launches := by
  unfold State.modBlock; split <;> rfl
@[simp] theorem State.modBlock_graphs (k : Nat) (g : Block → Block) : (s.modBlock k g).graphs = s.graphs := by
  unfold State.modBlock; split <;> rfl
@[simp] theorem State.modBlock_phases (k : Nat) (g : Block → Block) : (s.modBlock k g).phases = s.phases := by
  unfold State.modBlock; split <;> rfl
@[simp] theorem State.modBlock_dies (k : Nat) (g : Block → Block) : (s.modBlock k g).dies = s.dies := by
  unfold State.modBlock; split <;> rfl
@[simp] theorem State.modBlock_regions (k : Nat) (g : Block → Block) : (s.modBlock k g).regions = s.regions := by
  unfold State.modBlock; split <;> rfl
@[simp] theorem State.modBlock_chans (k : Nat) (g : Block → Block) : (s.modBlock k g).chans = s.chans := by
  unfold State.modBlock; split <;> rfl
@[simp] theorem State.modBlock_tiles (k : Nat) (g : Block → Block) : (s.modBlock k g).tiles = s.tiles := by
  unfold State.modBlock; split <;> rfl
@[simp] theorem State.modBlock_streamers (k : Nat) (g : Block → Block) : (s.modBlock k g).streamers = s.streamers := by
  unfold State.modBlock; split <;> rfl
@[simp] theorem State.modBlock_cores (k : Nat) (g : Block → Block) : (s.modBlock k g).cores = s.cores := by
  unfold State.modBlock; split <;> rfl
@[simp] theorem State.modBlock_root (k : Nat) (g : Block → Block) : (s.modBlock k g).root = s.root := by
  unfold State.modBlock; split <;> rfl
@[simp] theorem State.modBlock_epSeq (k : Nat) (g : Block → Block) : (s.modBlock k g).epSeq = s.epSeq := by
  unfold State.modBlock; split <;> rfl
@[simp] theorem State.modBlock_bisque (k : Nat) (g : Block → Block) : (s.modBlock k g).bisque = s.bisque := by
  unfold State.modBlock; split <;> rfl
@[simp] theorem State.modBlock_holds (k : Nat) (g : Block → Block) : (s.modBlock k g).holds = s.holds := by
  unfold State.modBlock; split <;> rfl
@[simp] theorem State.modBlock_ucaches (k : Nat) (g : Block → Block) : (s.modBlock k g).ucaches = s.ucaches := by
  unfold State.modBlock; split <;> rfl
@[simp] theorem State.modBlock_mem (k : Nat) (g : Block → Block) : (s.modBlock k g).mem = s.mem := by
  unfold State.modBlock; split <;> rfl
@[simp] theorem State.modBlock_hostMem (k : Nat) (g : Block → Block) : (s.modBlock k g).hostMem = s.hostMem := by
  unfold State.modBlock; split <;> rfl
@[simp] theorem State.modBlock_links (k : Nat) (g : Block → Block) : (s.modBlock k g).links = s.links := by
  unfold State.modBlock; split <;> rfl
@[simp] theorem State.modBlock_xmap (k : Nat) (g : Block → Block) : (s.modBlock k g).xmap = s.xmap := by
  unfold State.modBlock; split <;> rfl
@[simp] theorem State.modBlock_stores (k : Nat) (g : Block → Block) : (s.modBlock k g).stores = s.stores := by
  unfold State.modBlock; split <;> rfl
@[simp] theorem State.modBlock_xcredits (k : Nat) (g : Block → Block) : (s.modBlock k g).xcredits = s.xcredits := by
  unfold State.modBlock; split <;> rfl
@[simp] theorem State.modBlock_xearly (k : Nat) (g : Block → Block) : (s.modBlock k g).xearly = s.xearly := by
  unfold State.modBlock; split <;> rfl
@[simp] theorem State.modBlock_specTags (k : Nat) (g : Block → Block) : (s.modBlock k g).specTags = s.specTags := by
  unfold State.modBlock; split <;> rfl
@[simp] theorem State.modBlock_power (k : Nat) (g : Block → Block) : (s.modBlock k g).power = s.power := by
  unfold State.modBlock; split <;> rfl
@[simp] theorem State.modBlock_trust (k : Nat) (g : Block → Block) : (s.modBlock k g).trust = s.trust := by
  unfold State.modBlock; split <;> rfl
@[simp] theorem State.modBlock_thermal (k : Nat) (g : Block → Block) : (s.modBlock k g).thermal = s.thermal := by
  unfold State.modBlock; split <;> rfl
@[simp] theorem State.modBlock_frames (k : Nat) (g : Block → Block) : (s.modBlock k g).frames = s.frames := by
  unfold State.modBlock; split <;> rfl

@[simp] theorem State.modLaunch_agenda (k : Nat) (g : Launch → Launch) : (s.modLaunch k g).agenda = s.agenda := by
  unfold State.modLaunch; split <;> rfl
@[simp] theorem State.modLaunch_focus (k : Nat) (g : Launch → Launch) : (s.modLaunch k g).focus = s.focus := by
  unfold State.modLaunch; split <;> rfl
@[simp] theorem State.modLaunch_freeCtr (k : Nat) (g : Launch → Launch) : (s.modLaunch k g).freeCtr = s.freeCtr := by
  unfold State.modLaunch; split <;> rfl
@[simp] theorem State.modLaunch_refCyc (k : Nat) (g : Launch → Launch) : (s.modLaunch k g).refCyc = s.refCyc := by
  unfold State.modLaunch; split <;> rfl
@[simp] theorem State.modLaunch_order (k : Nat) (g : Launch → Launch) : (s.modLaunch k g).order = s.order := by
  unfold State.modLaunch; split <;> rfl
@[simp] theorem State.modLaunch_host (k : Nat) (g : Launch → Launch) : (s.modLaunch k g).host = s.host := by
  unfold State.modLaunch; split <;> rfl
@[simp] theorem State.modLaunch_evq (k : Nat) (g : Launch → Launch) : (s.modLaunch k g).evq = s.evq := by
  unfold State.modLaunch; split <;> rfl
@[simp] theorem State.modLaunch_arb (k : Nat) (g : Launch → Launch) : (s.modLaunch k g).arb = s.arb := by
  unfold State.modLaunch; split <;> rfl
@[simp] theorem State.modLaunch_lqs (k : Nat) (g : Launch → Launch) : (s.modLaunch k g).lqs = s.lqs := by
  unfold State.modLaunch; split <;> rfl
@[simp] theorem State.modLaunch_jobs (k : Nat) (g : Launch → Launch) : (s.modLaunch k g).jobs = s.jobs := by
  unfold State.modLaunch; split <;> rfl
@[simp] theorem State.modLaunch_graphs (k : Nat) (g : Launch → Launch) : (s.modLaunch k g).graphs = s.graphs := by
  unfold State.modLaunch; split <;> rfl
@[simp] theorem State.modLaunch_phases (k : Nat) (g : Launch → Launch) : (s.modLaunch k g).phases = s.phases := by
  unfold State.modLaunch; split <;> rfl
@[simp] theorem State.modLaunch_dies (k : Nat) (g : Launch → Launch) : (s.modLaunch k g).dies = s.dies := by
  unfold State.modLaunch; split <;> rfl
@[simp] theorem State.modLaunch_regions (k : Nat) (g : Launch → Launch) : (s.modLaunch k g).regions = s.regions := by
  unfold State.modLaunch; split <;> rfl
@[simp] theorem State.modLaunch_blocks (k : Nat) (g : Launch → Launch) : (s.modLaunch k g).blocks = s.blocks := by
  unfold State.modLaunch; split <;> rfl
@[simp] theorem State.modLaunch_chans (k : Nat) (g : Launch → Launch) : (s.modLaunch k g).chans = s.chans := by
  unfold State.modLaunch; split <;> rfl
@[simp] theorem State.modLaunch_tiles (k : Nat) (g : Launch → Launch) : (s.modLaunch k g).tiles = s.tiles := by
  unfold State.modLaunch; split <;> rfl
@[simp] theorem State.modLaunch_streamers (k : Nat) (g : Launch → Launch) : (s.modLaunch k g).streamers = s.streamers := by
  unfold State.modLaunch; split <;> rfl
@[simp] theorem State.modLaunch_cores (k : Nat) (g : Launch → Launch) : (s.modLaunch k g).cores = s.cores := by
  unfold State.modLaunch; split <;> rfl
@[simp] theorem State.modLaunch_root (k : Nat) (g : Launch → Launch) : (s.modLaunch k g).root = s.root := by
  unfold State.modLaunch; split <;> rfl
@[simp] theorem State.modLaunch_epSeq (k : Nat) (g : Launch → Launch) : (s.modLaunch k g).epSeq = s.epSeq := by
  unfold State.modLaunch; split <;> rfl
@[simp] theorem State.modLaunch_bisque (k : Nat) (g : Launch → Launch) : (s.modLaunch k g).bisque = s.bisque := by
  unfold State.modLaunch; split <;> rfl
@[simp] theorem State.modLaunch_holds (k : Nat) (g : Launch → Launch) : (s.modLaunch k g).holds = s.holds := by
  unfold State.modLaunch; split <;> rfl
@[simp] theorem State.modLaunch_ucaches (k : Nat) (g : Launch → Launch) : (s.modLaunch k g).ucaches = s.ucaches := by
  unfold State.modLaunch; split <;> rfl
@[simp] theorem State.modLaunch_mem (k : Nat) (g : Launch → Launch) : (s.modLaunch k g).mem = s.mem := by
  unfold State.modLaunch; split <;> rfl
@[simp] theorem State.modLaunch_hostMem (k : Nat) (g : Launch → Launch) : (s.modLaunch k g).hostMem = s.hostMem := by
  unfold State.modLaunch; split <;> rfl
@[simp] theorem State.modLaunch_links (k : Nat) (g : Launch → Launch) : (s.modLaunch k g).links = s.links := by
  unfold State.modLaunch; split <;> rfl
@[simp] theorem State.modLaunch_xmap (k : Nat) (g : Launch → Launch) : (s.modLaunch k g).xmap = s.xmap := by
  unfold State.modLaunch; split <;> rfl
@[simp] theorem State.modLaunch_stores (k : Nat) (g : Launch → Launch) : (s.modLaunch k g).stores = s.stores := by
  unfold State.modLaunch; split <;> rfl
@[simp] theorem State.modLaunch_xcredits (k : Nat) (g : Launch → Launch) : (s.modLaunch k g).xcredits = s.xcredits := by
  unfold State.modLaunch; split <;> rfl
@[simp] theorem State.modLaunch_xearly (k : Nat) (g : Launch → Launch) : (s.modLaunch k g).xearly = s.xearly := by
  unfold State.modLaunch; split <;> rfl
@[simp] theorem State.modLaunch_specTags (k : Nat) (g : Launch → Launch) : (s.modLaunch k g).specTags = s.specTags := by
  unfold State.modLaunch; split <;> rfl
@[simp] theorem State.modLaunch_power (k : Nat) (g : Launch → Launch) : (s.modLaunch k g).power = s.power := by
  unfold State.modLaunch; split <;> rfl
@[simp] theorem State.modLaunch_trust (k : Nat) (g : Launch → Launch) : (s.modLaunch k g).trust = s.trust := by
  unfold State.modLaunch; split <;> rfl
@[simp] theorem State.modLaunch_thermal (k : Nat) (g : Launch → Launch) : (s.modLaunch k g).thermal = s.thermal := by
  unfold State.modLaunch; split <;> rfl
@[simp] theorem State.modLaunch_frames (k : Nat) (g : Launch → Launch) : (s.modLaunch k g).frames = s.frames := by
  unfold State.modLaunch; split <;> rfl

@[simp] theorem State.modPool_agenda (k : Nat) (p : Pool) (h : PoolSt → PoolSt) : (s.modPool k p h).agenda = s.agenda := rfl
@[simp] theorem State.modPool_focus (k : Nat) (p : Pool) (h : PoolSt → PoolSt) : (s.modPool k p h).focus = s.focus := rfl
@[simp] theorem State.modPool_freeCtr (k : Nat) (p : Pool) (h : PoolSt → PoolSt) : (s.modPool k p h).freeCtr = s.freeCtr := rfl
@[simp] theorem State.modPool_refCyc (k : Nat) (p : Pool) (h : PoolSt → PoolSt) : (s.modPool k p h).refCyc = s.refCyc := rfl
@[simp] theorem State.modPool_order (k : Nat) (p : Pool) (h : PoolSt → PoolSt) : (s.modPool k p h).order = s.order := rfl
@[simp] theorem State.modPool_host (k : Nat) (p : Pool) (h : PoolSt → PoolSt) : (s.modPool k p h).host = s.host := rfl
@[simp] theorem State.modPool_evq (k : Nat) (p : Pool) (h : PoolSt → PoolSt) : (s.modPool k p h).evq = s.evq := rfl
@[simp] theorem State.modPool_arb (k : Nat) (p : Pool) (h : PoolSt → PoolSt) : (s.modPool k p h).arb = s.arb := rfl
@[simp] theorem State.modPool_lqs (k : Nat) (p : Pool) (h : PoolSt → PoolSt) : (s.modPool k p h).lqs = s.lqs := rfl
@[simp] theorem State.modPool_jobs (k : Nat) (p : Pool) (h : PoolSt → PoolSt) : (s.modPool k p h).jobs = s.jobs := rfl
@[simp] theorem State.modPool_launches (k : Nat) (p : Pool) (h : PoolSt → PoolSt) : (s.modPool k p h).launches = s.launches := rfl
@[simp] theorem State.modPool_graphs (k : Nat) (p : Pool) (h : PoolSt → PoolSt) : (s.modPool k p h).graphs = s.graphs := rfl
@[simp] theorem State.modPool_phases (k : Nat) (p : Pool) (h : PoolSt → PoolSt) : (s.modPool k p h).phases = s.phases := rfl
@[simp] theorem State.modPool_dies (k : Nat) (p : Pool) (h : PoolSt → PoolSt) : (s.modPool k p h).dies = s.dies := rfl
@[simp] theorem State.modPool_regions (k : Nat) (p : Pool) (h : PoolSt → PoolSt) : (s.modPool k p h).regions = s.regions := rfl
@[simp] theorem State.modPool_blocks (k : Nat) (p : Pool) (h : PoolSt → PoolSt) : (s.modPool k p h).blocks = s.blocks := rfl
@[simp] theorem State.modPool_chans (k : Nat) (p : Pool) (h : PoolSt → PoolSt) : (s.modPool k p h).chans = s.chans := rfl
@[simp] theorem State.modPool_streamers (k : Nat) (p : Pool) (h : PoolSt → PoolSt) : (s.modPool k p h).streamers = s.streamers := rfl
@[simp] theorem State.modPool_cores (k : Nat) (p : Pool) (h : PoolSt → PoolSt) : (s.modPool k p h).cores = s.cores := rfl
@[simp] theorem State.modPool_root (k : Nat) (p : Pool) (h : PoolSt → PoolSt) : (s.modPool k p h).root = s.root := rfl
@[simp] theorem State.modPool_epSeq (k : Nat) (p : Pool) (h : PoolSt → PoolSt) : (s.modPool k p h).epSeq = s.epSeq := rfl
@[simp] theorem State.modPool_bisque (k : Nat) (p : Pool) (h : PoolSt → PoolSt) : (s.modPool k p h).bisque = s.bisque := rfl
@[simp] theorem State.modPool_holds (k : Nat) (p : Pool) (h : PoolSt → PoolSt) : (s.modPool k p h).holds = s.holds := rfl
@[simp] theorem State.modPool_ucaches (k : Nat) (p : Pool) (h : PoolSt → PoolSt) : (s.modPool k p h).ucaches = s.ucaches := rfl
@[simp] theorem State.modPool_mem (k : Nat) (p : Pool) (h : PoolSt → PoolSt) : (s.modPool k p h).mem = s.mem := rfl
@[simp] theorem State.modPool_hostMem (k : Nat) (p : Pool) (h : PoolSt → PoolSt) : (s.modPool k p h).hostMem = s.hostMem := rfl
@[simp] theorem State.modPool_links (k : Nat) (p : Pool) (h : PoolSt → PoolSt) : (s.modPool k p h).links = s.links := rfl
@[simp] theorem State.modPool_xmap (k : Nat) (p : Pool) (h : PoolSt → PoolSt) : (s.modPool k p h).xmap = s.xmap := rfl
@[simp] theorem State.modPool_stores (k : Nat) (p : Pool) (h : PoolSt → PoolSt) : (s.modPool k p h).stores = s.stores := rfl
@[simp] theorem State.modPool_xcredits (k : Nat) (p : Pool) (h : PoolSt → PoolSt) : (s.modPool k p h).xcredits = s.xcredits := rfl
@[simp] theorem State.modPool_xearly (k : Nat) (p : Pool) (h : PoolSt → PoolSt) : (s.modPool k p h).xearly = s.xearly := rfl
@[simp] theorem State.modPool_specTags (k : Nat) (p : Pool) (h : PoolSt → PoolSt) : (s.modPool k p h).specTags = s.specTags := rfl
@[simp] theorem State.modPool_power (k : Nat) (p : Pool) (h : PoolSt → PoolSt) : (s.modPool k p h).power = s.power := rfl
@[simp] theorem State.modPool_trust (k : Nat) (p : Pool) (h : PoolSt → PoolSt) : (s.modPool k p h).trust = s.trust := rfl
@[simp] theorem State.modPool_thermal (k : Nat) (p : Pool) (h : PoolSt → PoolSt) : (s.modPool k p h).thermal = s.thermal := rfl
@[simp] theorem State.modPool_frames (k : Nat) (p : Pool) (h : PoolSt → PoolSt) : (s.modPool k p h).frames = s.frames := rfl
@[simp] theorem State.takeFree_agenda : s.takeFree.2.agenda = s.agenda := rfl
@[simp] theorem State.takeFree_focus : s.takeFree.2.focus = s.focus := rfl
@[simp] theorem State.takeFree_refCyc : s.takeFree.2.refCyc = s.refCyc := rfl
@[simp] theorem State.takeFree_order : s.takeFree.2.order = s.order := rfl
@[simp] theorem State.takeFree_host : s.takeFree.2.host = s.host := rfl
@[simp] theorem State.takeFree_evq : s.takeFree.2.evq = s.evq := rfl
@[simp] theorem State.takeFree_arb : s.takeFree.2.arb = s.arb := rfl
@[simp] theorem State.takeFree_lqs : s.takeFree.2.lqs = s.lqs := rfl
@[simp] theorem State.takeFree_jobs : s.takeFree.2.jobs = s.jobs := rfl
@[simp] theorem State.takeFree_launches : s.takeFree.2.launches = s.launches := rfl
@[simp] theorem State.takeFree_graphs : s.takeFree.2.graphs = s.graphs := rfl
@[simp] theorem State.takeFree_phases : s.takeFree.2.phases = s.phases := rfl
@[simp] theorem State.takeFree_dies : s.takeFree.2.dies = s.dies := rfl
@[simp] theorem State.takeFree_regions : s.takeFree.2.regions = s.regions := rfl
@[simp] theorem State.takeFree_blocks : s.takeFree.2.blocks = s.blocks := rfl
@[simp] theorem State.takeFree_chans : s.takeFree.2.chans = s.chans := rfl
@[simp] theorem State.takeFree_tiles : s.takeFree.2.tiles = s.tiles := rfl
@[simp] theorem State.takeFree_streamers : s.takeFree.2.streamers = s.streamers := rfl
@[simp] theorem State.takeFree_cores : s.takeFree.2.cores = s.cores := rfl
@[simp] theorem State.takeFree_root : s.takeFree.2.root = s.root := rfl
@[simp] theorem State.takeFree_epSeq : s.takeFree.2.epSeq = s.epSeq := rfl
@[simp] theorem State.takeFree_bisque : s.takeFree.2.bisque = s.bisque := rfl
@[simp] theorem State.takeFree_holds : s.takeFree.2.holds = s.holds := rfl
@[simp] theorem State.takeFree_ucaches : s.takeFree.2.ucaches = s.ucaches := rfl
@[simp] theorem State.takeFree_mem : s.takeFree.2.mem = s.mem := rfl
@[simp] theorem State.takeFree_hostMem : s.takeFree.2.hostMem = s.hostMem := rfl
@[simp] theorem State.takeFree_links : s.takeFree.2.links = s.links := rfl
@[simp] theorem State.takeFree_xmap : s.takeFree.2.xmap = s.xmap := rfl
@[simp] theorem State.takeFree_stores : s.takeFree.2.stores = s.stores := rfl
@[simp] theorem State.takeFree_xcredits : s.takeFree.2.xcredits = s.xcredits := rfl
@[simp] theorem State.takeFree_xearly : s.takeFree.2.xearly = s.xearly := rfl
@[simp] theorem State.takeFree_specTags : s.takeFree.2.specTags = s.specTags := rfl
@[simp] theorem State.takeFree_power : s.takeFree.2.power = s.power := rfl
@[simp] theorem State.takeFree_trust : s.takeFree.2.trust = s.trust := rfl
@[simp] theorem State.takeFree_thermal : s.takeFree.2.thermal = s.thermal := rfl
@[simp] theorem State.takeFree_frames : s.takeFree.2.frames = s.frames := rfl
@[simp] theorem State.takeOrder_agenda : s.takeOrder.2.agenda = s.agenda := rfl
@[simp] theorem State.takeOrder_focus : s.takeOrder.2.focus = s.focus := rfl
@[simp] theorem State.takeOrder_freeCtr : s.takeOrder.2.freeCtr = s.freeCtr := rfl
@[simp] theorem State.takeOrder_refCyc : s.takeOrder.2.refCyc = s.refCyc := rfl
@[simp] theorem State.takeOrder_host : s.takeOrder.2.host = s.host := rfl
@[simp] theorem State.takeOrder_evq : s.takeOrder.2.evq = s.evq := rfl
@[simp] theorem State.takeOrder_arb : s.takeOrder.2.arb = s.arb := rfl
@[simp] theorem State.takeOrder_lqs : s.takeOrder.2.lqs = s.lqs := rfl
@[simp] theorem State.takeOrder_jobs : s.takeOrder.2.jobs = s.jobs := rfl
@[simp] theorem State.takeOrder_launches : s.takeOrder.2.launches = s.launches := rfl
@[simp] theorem State.takeOrder_graphs : s.takeOrder.2.graphs = s.graphs := rfl
@[simp] theorem State.takeOrder_phases : s.takeOrder.2.phases = s.phases := rfl
@[simp] theorem State.takeOrder_dies : s.takeOrder.2.dies = s.dies := rfl
@[simp] theorem State.takeOrder_regions : s.takeOrder.2.regions = s.regions := rfl
@[simp] theorem State.takeOrder_blocks : s.takeOrder.2.blocks = s.blocks := rfl
@[simp] theorem State.takeOrder_chans : s.takeOrder.2.chans = s.chans := rfl
@[simp] theorem State.takeOrder_tiles : s.takeOrder.2.tiles = s.tiles := rfl
@[simp] theorem State.takeOrder_streamers : s.takeOrder.2.streamers = s.streamers := rfl
@[simp] theorem State.takeOrder_cores : s.takeOrder.2.cores = s.cores := rfl
@[simp] theorem State.takeOrder_root : s.takeOrder.2.root = s.root := rfl
@[simp] theorem State.takeOrder_epSeq : s.takeOrder.2.epSeq = s.epSeq := rfl
@[simp] theorem State.takeOrder_bisque : s.takeOrder.2.bisque = s.bisque := rfl
@[simp] theorem State.takeOrder_holds : s.takeOrder.2.holds = s.holds := rfl
@[simp] theorem State.takeOrder_ucaches : s.takeOrder.2.ucaches = s.ucaches := rfl
@[simp] theorem State.takeOrder_mem : s.takeOrder.2.mem = s.mem := rfl
@[simp] theorem State.takeOrder_hostMem : s.takeOrder.2.hostMem = s.hostMem := rfl
@[simp] theorem State.takeOrder_links : s.takeOrder.2.links = s.links := rfl
@[simp] theorem State.takeOrder_xmap : s.takeOrder.2.xmap = s.xmap := rfl
@[simp] theorem State.takeOrder_stores : s.takeOrder.2.stores = s.stores := rfl
@[simp] theorem State.takeOrder_xcredits : s.takeOrder.2.xcredits = s.xcredits := rfl
@[simp] theorem State.takeOrder_xearly : s.takeOrder.2.xearly = s.xearly := rfl
@[simp] theorem State.takeOrder_specTags : s.takeOrder.2.specTags = s.specTags := rfl
@[simp] theorem State.takeOrder_power : s.takeOrder.2.power = s.power := rfl
@[simp] theorem State.takeOrder_trust : s.takeOrder.2.trust = s.trust := rfl
@[simp] theorem State.takeOrder_thermal : s.takeOrder.2.thermal = s.thermal := rfl
@[simp] theorem State.takeOrder_frames : s.takeOrder.2.frames = s.frames := rfl
@[simp] theorem State.takeFree_val : s.takeFree.1 = Config.freeValue s.freeCtr := rfl
@[simp] theorem State.takeFree_freeCtr : s.takeFree.2.freeCtr = s.freeCtr + 1 := rfl
@[simp] theorem State.takeOrder_val : s.takeOrder.1 = s.order := rfl
@[simp] theorem State.takeOrder_order : s.takeOrder.2.order = s.order + 1 := rfl

/-! ### Tables -/

section Tables

variable {α : Type} (t : Tab α) (a d : α)

/-- A key that was written reads as what was written. -/
@[simp] theorem Tab.get?_set_self (k : Nat) : Tab.get? (Tab.set t k a) k = some a := by
  induction t with
  | nil => simp [Tab.set, Tab.get?]
  | cons e rest ih =>
    obtain ⟨i, b⟩ := e
    unfold Tab.set
    split
    · simp [Tab.get?]
    · split
      · simp [Tab.get?]
      · rename_i h1 h2
        simp [Tab.get?, h2, ih]

/-- Writing one key leaves every other. -/
theorem Tab.get?_set_ne {k j : Nat} (h : j ≠ k) : Tab.get? (Tab.set t k a) j = Tab.get? t j := by
  induction t with
  | nil => simp [Tab.set, Tab.get?, Ne.symm h]
  | cons e rest ih =>
    obtain ⟨i, b⟩ := e
    unfold Tab.set
    split
    · simp [Tab.get?, Ne.symm h]
    · split
      · rename_i h1 h2
        subst h2
        simp [Tab.get?, Ne.symm h]
      · simp only [Tab.get?, ih]

@[simp] theorem Tab.get_set_self (k : Nat) : Tab.get (Tab.set t k a) k d = a := by simp [Tab.get]

theorem Tab.get_set_ne {k j : Nat} (h : j ≠ k) : Tab.get (Tab.set t k a) j d = Tab.get t j d := by
  simp [Tab.get, Tab.get?_set_ne t a h]

/-- A key taken out reads as absent. -/
@[simp] theorem Tab.get?_del_self (k : Nat) : Tab.get? (Tab.del t k) k = none := by
  induction t with
  | nil => rfl
  | cons e rest ih =>
    obtain ⟨i, b⟩ := e
    unfold Tab.del
    split
    · exact ih
    · rename_i h
      simp [Tab.get?, h, ih]

end Tables

/-! ### One unit after a write -/

@[simp] theorem State.tile_setTile (k : Nat) (x : Tile) : (s.setTile k x).tile k = x := by simp [State.tile]
theorem State.tile_setTile_ne {k j : Nat} (x : Tile) (h : j ≠ k) : (s.setTile k x).tile j = s.tile j := by
  simp [State.tile, Tab.get_set_ne _ _ _ h]
@[simp] theorem State.tile_setCore (k : Nat) (j : Nat) (x : Core) : (s.setCore j x).tile k = s.tile k := rfl
@[simp] theorem State.tile_setDie (k : Nat) (j : Nat) (x : Die) : (s.setDie j x).tile k = s.tile k := rfl
@[simp] theorem State.tile_setJob (k : Nat) (j : Nat) (x : Job) : (s.setJob j x).tile k = s.tile k := rfl
@[simp] theorem State.tile_setLq (k : Nat) (j : Nat) (x : LaunchQ) : (s.setLq j x).tile k = s.tile k := rfl
@[simp] theorem State.tile_setLink (k : Nat) (j : Nat) (d : Bool) (x : LinkDir) : (s.setLink j d x).tile k = s.tile k := rfl
@[simp] theorem State.tile_setChan (k : Nat) (j : Nat) (x : Chan) : (s.setChan j x).tile k = s.tile k := rfl
@[simp] theorem State.tile_setRegion (k : Nat) (j : Nat) (x : Region) : (s.setRegion j x).tile k = s.tile k := rfl
@[simp] theorem State.tile_setBlock (k : Nat) (j : Nat) (x : Block) : (s.setBlock j x).tile k = s.tile k := rfl
@[simp] theorem State.tile_setLaunch (k : Nat) (j : Nat) (x : Launch) : (s.setLaunch j x).tile k = s.tile k := rfl
@[simp] theorem State.tile_setMem (k : Nat) (x : Mem) : (s.setMem x).tile k = s.tile k := rfl
@[simp] theorem State.tile_post (k : Nat) (x : Event) : (s.post x).tile k = s.tile k := rfl
@[simp] theorem State.tile_modChan (k : Nat) (j : Nat) (g : Chan → Chan) : (s.modChan j g).tile k = s.tile k := by
  simp [State.tile]
@[simp] theorem State.tile_modRegion (k : Nat) (j : Nat) (g : Region → Region) : (s.modRegion j g).tile k = s.tile k := by
  simp [State.tile]
@[simp] theorem State.tile_modBlock (k : Nat) (j : Nat) (g : Block → Block) : (s.modBlock j g).tile k = s.tile k := by
  simp [State.tile]
@[simp] theorem State.tile_modLaunch (k : Nat) (j : Nat) (g : Launch → Launch) : (s.modLaunch j g).tile k = s.tile k := by
  simp [State.tile]

@[simp] theorem State.core_setCore (k : Nat) (x : Core) : (s.setCore k x).core k = x := by simp [State.core]
theorem State.core_setCore_ne {k j : Nat} (x : Core) (h : j ≠ k) : (s.setCore k x).core j = s.core j := by
  simp [State.core, Tab.get_set_ne _ _ _ h]
@[simp] theorem State.core_setTile (k : Nat) (j : Nat) (x : Tile) : (s.setTile j x).core k = s.core k := rfl
@[simp] theorem State.core_setDie (k : Nat) (j : Nat) (x : Die) : (s.setDie j x).core k = s.core k := rfl
@[simp] theorem State.core_setJob (k : Nat) (j : Nat) (x : Job) : (s.setJob j x).core k = s.core k := rfl
@[simp] theorem State.core_setLq (k : Nat) (j : Nat) (x : LaunchQ) : (s.setLq j x).core k = s.core k := rfl
@[simp] theorem State.core_setLink (k : Nat) (j : Nat) (d : Bool) (x : LinkDir) : (s.setLink j d x).core k = s.core k := rfl
@[simp] theorem State.core_setChan (k : Nat) (j : Nat) (x : Chan) : (s.setChan j x).core k = s.core k := rfl
@[simp] theorem State.core_setRegion (k : Nat) (j : Nat) (x : Region) : (s.setRegion j x).core k = s.core k := rfl
@[simp] theorem State.core_setBlock (k : Nat) (j : Nat) (x : Block) : (s.setBlock j x).core k = s.core k := rfl
@[simp] theorem State.core_setLaunch (k : Nat) (j : Nat) (x : Launch) : (s.setLaunch j x).core k = s.core k := rfl
@[simp] theorem State.core_setMem (k : Nat) (x : Mem) : (s.setMem x).core k = s.core k := rfl
@[simp] theorem State.core_post (k : Nat) (x : Event) : (s.post x).core k = s.core k := rfl
@[simp] theorem State.core_modChan (k : Nat) (j : Nat) (g : Chan → Chan) : (s.modChan j g).core k = s.core k := by
  simp [State.core]
@[simp] theorem State.core_modRegion (k : Nat) (j : Nat) (g : Region → Region) : (s.modRegion j g).core k = s.core k := by
  simp [State.core]
@[simp] theorem State.core_modBlock (k : Nat) (j : Nat) (g : Block → Block) : (s.modBlock j g).core k = s.core k := by
  simp [State.core]
@[simp] theorem State.core_modLaunch (k : Nat) (j : Nat) (g : Launch → Launch) : (s.modLaunch j g).core k = s.core k := by
  simp [State.core]

@[simp] theorem State.die_setDie (k : Nat) (x : Die) : (s.setDie k x).die k = x := by simp [State.die]
theorem State.die_setDie_ne {k j : Nat} (x : Die) (h : j ≠ k) : (s.setDie k x).die j = s.die j := by
  simp [State.die, Tab.get_set_ne _ _ _ h]
@[simp] theorem State.die_setTile (k : Nat) (j : Nat) (x : Tile) : (s.setTile j x).die k = s.die k := rfl
@[simp] theorem State.die_setCore (k : Nat) (j : Nat) (x : Core) : (s.setCore j x).die k = s.die k := rfl
@[simp] theorem State.die_setJob (k : Nat) (j : Nat) (x : Job) : (s.setJob j x).die k = s.die k := rfl
@[simp] theorem State.die_setLq (k : Nat) (j : Nat) (x : LaunchQ) : (s.setLq j x).die k = s.die k := rfl
@[simp] theorem State.die_setLink (k : Nat) (j : Nat) (d : Bool) (x : LinkDir) : (s.setLink j d x).die k = s.die k := rfl
@[simp] theorem State.die_setChan (k : Nat) (j : Nat) (x : Chan) : (s.setChan j x).die k = s.die k := rfl
@[simp] theorem State.die_setRegion (k : Nat) (j : Nat) (x : Region) : (s.setRegion j x).die k = s.die k := rfl
@[simp] theorem State.die_setBlock (k : Nat) (j : Nat) (x : Block) : (s.setBlock j x).die k = s.die k := rfl
@[simp] theorem State.die_setLaunch (k : Nat) (j : Nat) (x : Launch) : (s.setLaunch j x).die k = s.die k := rfl
@[simp] theorem State.die_setMem (k : Nat) (x : Mem) : (s.setMem x).die k = s.die k := rfl
@[simp] theorem State.die_post (k : Nat) (x : Event) : (s.post x).die k = s.die k := rfl
@[simp] theorem State.die_modChan (k : Nat) (j : Nat) (g : Chan → Chan) : (s.modChan j g).die k = s.die k := by
  simp [State.die]
@[simp] theorem State.die_modRegion (k : Nat) (j : Nat) (g : Region → Region) : (s.modRegion j g).die k = s.die k := by
  simp [State.die]
@[simp] theorem State.die_modBlock (k : Nat) (j : Nat) (g : Block → Block) : (s.modBlock j g).die k = s.die k := by
  simp [State.die]
@[simp] theorem State.die_modLaunch (k : Nat) (j : Nat) (g : Launch → Launch) : (s.modLaunch j g).die k = s.die k := by
  simp [State.die]

@[simp] theorem State.job_setJob (k : Nat) (x : Job) : (s.setJob k x).job k = x := by simp [State.job]
theorem State.job_setJob_ne {k j : Nat} (x : Job) (h : j ≠ k) : (s.setJob k x).job j = s.job j := by
  simp [State.job, Tab.get_set_ne _ _ _ h]
@[simp] theorem State.job_setTile (k : Nat) (j : Nat) (x : Tile) : (s.setTile j x).job k = s.job k := rfl
@[simp] theorem State.job_setCore (k : Nat) (j : Nat) (x : Core) : (s.setCore j x).job k = s.job k := rfl
@[simp] theorem State.job_setDie (k : Nat) (j : Nat) (x : Die) : (s.setDie j x).job k = s.job k := rfl
@[simp] theorem State.job_setLq (k : Nat) (j : Nat) (x : LaunchQ) : (s.setLq j x).job k = s.job k := rfl
@[simp] theorem State.job_setLink (k : Nat) (j : Nat) (d : Bool) (x : LinkDir) : (s.setLink j d x).job k = s.job k := rfl
@[simp] theorem State.job_setChan (k : Nat) (j : Nat) (x : Chan) : (s.setChan j x).job k = s.job k := rfl
@[simp] theorem State.job_setRegion (k : Nat) (j : Nat) (x : Region) : (s.setRegion j x).job k = s.job k := rfl
@[simp] theorem State.job_setBlock (k : Nat) (j : Nat) (x : Block) : (s.setBlock j x).job k = s.job k := rfl
@[simp] theorem State.job_setLaunch (k : Nat) (j : Nat) (x : Launch) : (s.setLaunch j x).job k = s.job k := rfl
@[simp] theorem State.job_setMem (k : Nat) (x : Mem) : (s.setMem x).job k = s.job k := rfl
@[simp] theorem State.job_post (k : Nat) (x : Event) : (s.post x).job k = s.job k := rfl
@[simp] theorem State.job_modChan (k : Nat) (j : Nat) (g : Chan → Chan) : (s.modChan j g).job k = s.job k := by
  simp [State.job]
@[simp] theorem State.job_modRegion (k : Nat) (j : Nat) (g : Region → Region) : (s.modRegion j g).job k = s.job k := by
  simp [State.job]
@[simp] theorem State.job_modBlock (k : Nat) (j : Nat) (g : Block → Block) : (s.modBlock j g).job k = s.job k := by
  simp [State.job]
@[simp] theorem State.job_modLaunch (k : Nat) (j : Nat) (g : Launch → Launch) : (s.modLaunch j g).job k = s.job k := by
  simp [State.job]

@[simp] theorem State.lq_setLq (k : Nat) (x : LaunchQ) : (s.setLq k x).lq k = x := by simp [State.lq]
theorem State.lq_setLq_ne {k j : Nat} (x : LaunchQ) (h : j ≠ k) : (s.setLq k x).lq j = s.lq j := by
  simp [State.lq, Tab.get_set_ne _ _ _ h]
@[simp] theorem State.lq_setTile (k : Nat) (j : Nat) (x : Tile) : (s.setTile j x).lq k = s.lq k := rfl
@[simp] theorem State.lq_setCore (k : Nat) (j : Nat) (x : Core) : (s.setCore j x).lq k = s.lq k := rfl
@[simp] theorem State.lq_setDie (k : Nat) (j : Nat) (x : Die) : (s.setDie j x).lq k = s.lq k := rfl
@[simp] theorem State.lq_setJob (k : Nat) (j : Nat) (x : Job) : (s.setJob j x).lq k = s.lq k := rfl
@[simp] theorem State.lq_setLink (k : Nat) (j : Nat) (d : Bool) (x : LinkDir) : (s.setLink j d x).lq k = s.lq k := rfl
@[simp] theorem State.lq_setChan (k : Nat) (j : Nat) (x : Chan) : (s.setChan j x).lq k = s.lq k := rfl
@[simp] theorem State.lq_setRegion (k : Nat) (j : Nat) (x : Region) : (s.setRegion j x).lq k = s.lq k := rfl
@[simp] theorem State.lq_setBlock (k : Nat) (j : Nat) (x : Block) : (s.setBlock j x).lq k = s.lq k := rfl
@[simp] theorem State.lq_setLaunch (k : Nat) (j : Nat) (x : Launch) : (s.setLaunch j x).lq k = s.lq k := rfl
@[simp] theorem State.lq_setMem (k : Nat) (x : Mem) : (s.setMem x).lq k = s.lq k := rfl
@[simp] theorem State.lq_post (k : Nat) (x : Event) : (s.post x).lq k = s.lq k := rfl
@[simp] theorem State.lq_modChan (k : Nat) (j : Nat) (g : Chan → Chan) : (s.modChan j g).lq k = s.lq k := by
  simp [State.lq]
@[simp] theorem State.lq_modRegion (k : Nat) (j : Nat) (g : Region → Region) : (s.modRegion j g).lq k = s.lq k := by
  simp [State.lq]
@[simp] theorem State.lq_modBlock (k : Nat) (j : Nat) (g : Block → Block) : (s.modBlock j g).lq k = s.lq k := by
  simp [State.lq]
@[simp] theorem State.lq_modLaunch (k : Nat) (j : Nat) (g : Launch → Launch) : (s.modLaunch j g).lq k = s.lq k := by
  simp [State.lq]

/-! ### Pools of a tile -/

@[simp] theorem Tile.pool_setPool (t : Tile) (p : Pool) (x : PoolSt) : (t.setPool p x).pool p = x := by cases p <;> rfl

theorem Tile.pool_setPool_ne (t : Tile) {p q : Pool} (x : PoolSt) (h : q ≠ p) : (t.setPool p x).pool q = t.pool q := by
  cases p <;> cases q <;> first | rfl | exact absurd rfl h

@[simp] theorem Tile.pool_modPool (t : Tile) (p : Pool) (f : PoolSt → PoolSt) : (t.modPool p f).pool p = f (t.pool p) := by
  simp [Tile.modPool]

theorem Tile.pool_modPool_ne (t : Tile) {p q : Pool} (f : PoolSt → PoolSt) (h : q ≠ p) :
    (t.modPool p f).pool q = t.pool q := by
  simp [Tile.modPool, Tile.pool_setPool_ne t _ h]

@[simp] theorem Tile.setPool_ps (t : Tile) (p : Pool) (x : PoolSt) : (t.setPool p x).ps = t.ps := by cases p <;> rfl

@[simp] theorem Tile.setPool_eng (t : Tile) (p : Pool) (x : PoolSt) : (t.setPool p x).eng = t.eng := by cases p <;> rfl

@[simp] theorem Tile.setPool_block (t : Tile) (p : Pool) (x : PoolSt) : (t.setPool p x).block = t.block := by cases p <;> rfl

@[simp] theorem Tile.setPool_region (t : Tile) (p : Pool) (x : PoolSt) : (t.setPool p x).region = t.region := by
  cases p <;> rfl

@[simp] theorem Tile.setPool_gated (t : Tile) (p : Pool) (x : PoolSt) : (t.setPool p x).gated = t.gated := by cases p <;> rfl

@[simp] theorem Tile.modPool_ps (t : Tile) (p : Pool) (f : PoolSt → PoolSt) : (t.modPool p f).ps = t.ps := by
  simp [Tile.modPool]

@[simp] theorem Tile.modPool_eng (t : Tile) (p : Pool) (f : PoolSt → PoolSt) : (t.modPool p f).eng = t.eng := by
  simp [Tile.modPool]

@[simp] theorem Tile.modPool_block (t : Tile) (p : Pool) (f : PoolSt → PoolSt) : (t.modPool p f).block = t.block := by
  simp [Tile.modPool]

@[simp] theorem Tile.modPool_region (t : Tile) (p : Pool) (f : PoolSt → PoolSt) : (t.modPool p f).region = t.region := by
  simp [Tile.modPool]

@[simp] theorem Tile.modPool_gated (t : Tile) (p : Pool) (f : PoolSt → PoolSt) : (t.modPool p f).gated = t.gated := by
  simp [Tile.modPool]

@[simp] theorem State.tile_modPool (k : Nat) (p : Pool) (f : PoolSt → PoolSt) :
    (s.modPool k p f).tile k = (s.tile k).modPool p f := by
  simp [State.modPool]

theorem State.tile_modPool_ne {k j : Nat} (p : Pool) (f : PoolSt → PoolSt) (h : j ≠ k) :
    (s.modPool k p f).tile j = s.tile j := by
  simp [State.modPool, State.tile_setTile_ne s _ h]

end Sys2Proof.Machine
end

