-- ==== Sys2Proof/Laws/Issue.lean ====
section
/-! SUPPORT. What `issue` can answer, and what one firing changes and leaves (R95, R114, R136). -/

set_option Elab.async false

namespace Sys2Proof.Machine

open Sys2Proof

/-! ### What `issue` answers -/

/-- A slot whose trigger does not hold does nothing. -/
theorem issue_idle {o : Op} {f : Fields} {s : State} {body : Ctx → Except Flt Done} (h : s.trigger s.focus o f = false) :
    issue o f s body = .next s := by
  simp [issue, h]

/-- A slot whose trigger holds and whose checks pass commits what it does. -/
theorem issue_ok {o : Op} {f : Fields} {s : State} {body : Ctx → Except Flt Done} {d : Done}
    (h : s.trigger s.focus o f = true) (hb : body (s.ctx s.focus o f) = .ok d) :
    issue o f s body = .next (s.commit (s.ctx s.focus o f) d) := by
  simp [issue, h, hb]

/-- A slot whose trigger holds and whose checks fail raises its fault and does nothing else. -/
theorem issue_error {o : Op} {f : Fields} {s : State} {body : Ctx → Except Flt Done} {e : Flt}
    (h : s.trigger s.focus o f = true) (hb : body (s.ctx s.focus o f) = .error e) :
    issue o f s body = .next ((s.markActive s.focus.tile).raiseFlt (s.ctx s.focus o f) e) := by
  unfold issue
  rw [if_pos h]
  simp only [hb]
  rfl

/-- Everything that `issue` can do: it always answers a next state. -/
theorem issue_cases (o : Op) (f : Fields) (s : State) (body : Ctx → Except Flt Done) :
    (s.trigger s.focus o f = false ∧ issue o f s body = .next s) ∨
    (s.trigger s.focus o f = true ∧ ∃ d, body (s.ctx s.focus o f) = .ok d ∧
      issue o f s body = .next (s.commit (s.ctx s.focus o f) d)) ∨
    (s.trigger s.focus o f = true ∧ ∃ e, body (s.ctx s.focus o f) = .error e ∧
      issue o f s body = .next ((s.markActive s.focus.tile).raiseFlt (s.ctx s.focus o f) e)) := by
  cases h : s.trigger s.focus o f with
  | false => exact .inl ⟨rfl, issue_idle h⟩
  | true =>
    cases hb : body (s.ctx s.focus o f) with
    | ok d => exact .inr (.inl ⟨rfl, d, rfl, issue_ok h hb⟩)
    | error e => exact .inr (.inr ⟨rfl, e, rfl, issue_error h hb⟩)

/-! ### One firing beyond its pool -/

/-- A credit on its way back changes the channels alone. -/
theorem State.creditFor_rest (s : State) (x : PoolSt) (i : Nat) :
    (s.creditFor x i).withFabric s.tiles s.chans s.regions = s := by
  unfold State.creditFor
  dsimp only
  split
  · split
    · rfl
    · unfold State.modChan
      split <;> rfl
  · rfl

/-- Two changes of the fabric in turn. -/
theorem State.withFabric_trans {s t u : State} (h : t.withFabric s.tiles s.chans s.regions = s)
    (h' : u.withFabric t.tiles t.chans t.regions = t) : u.withFabric s.tiles s.chans s.regions = s :=
  calc u.withFabric s.tiles s.chans s.regions
      = (u.withFabric t.tiles t.chans t.regions).withFabric s.tiles s.chans s.regions := rfl
    _ = t.withFabric s.tiles s.chans s.regions := by rw [h']
    _ = s := h

theorem State.creditFor_tiles (s : State) (x : PoolSt) (i : Nat) : (s.creditFor x i).tiles = s.tiles := by
  unfold State.creditFor
  dsimp only
  split
  · split <;> simp
  · rfl

theorem State.creditFor_foldl (x : PoolSt) (is : List Nat) (s : State) :
    (is.foldl (fun s i => s.creditFor x i) s).withFabric s.tiles s.chans s.regions = s ∧
      (is.foldl (fun s i => s.creditFor x i) s).tiles = s.tiles := by
  induction is generalizing s with
  | nil => exact ⟨rfl, rfl⟩
  | cons i rest ih =>
    obtain ⟨h1, h2⟩ := ih (s.creditFor x i)
    exact ⟨State.withFabric_trans (s.creditFor_rest x i) h1, h2.trans (s.creditFor_tiles x i)⟩

/-- Marking a region active changes the regions alone. -/
theorem State.markActive_rest (s : State) (k : Nat) : (s.markActive k).withFabric s.tiles s.chans s.regions = s := by
  unfold State.markActive
  split
  · unfold State.modRegion
    split <;> rfl
  · rfl

theorem State.markActive_tiles (s : State) (k : Nat) : (s.markActive k).tiles = s.tiles := by
  unfold State.markActive
  split <;> simp

/-- A firing without an effect of its own beyond the tile changes tiles, channels and regions alone. -/
theorem State.commit_rest (s : State) (c : Ctx) (d : Done) (he : d.eff = id) (ha : d.after = none) :
    (s.commit c d).withFabric s.tiles s.chans s.regions = s := by
  unfold State.commit
  simp only [he, ha, id]
  generalize d.tile (c.t.modPool c.p fun x => x.fire c d) = T
  have h0 : (s.setTile c.k T).withFabric s.tiles s.chans s.regions = s := rfl
  exact State.withFabric_trans (State.withFabric_trans h0 (State.creditFor_foldl c.x d.pops _).1)
    (State.markActive_rest _ _)

theorem State.commit_tiles (s : State) (c : Ctx) (d : Done) (he : d.eff = id) (ha : d.after = none) :
    (s.commit c d).tiles = Tab.set s.tiles c.k (d.tile (c.t.modPool c.p fun x => x.fire c d)) := by
  unfold State.commit
  simp only [he, ha, id, State.markActive_tiles, (State.creditFor_foldl c.x d.pops _).2, State.setTile_tiles]

/-- The firing tile afterwards. -/
theorem State.commit_tile (s : State) (c : Ctx) (d : Done) (he : d.eff = id) (ha : d.after = none) :
    (s.commit c d).tile c.k = d.tile (c.t.modPool c.p fun x => x.fire c d) := by
  unfold State.tile
  rw [State.commit_tiles s c d he ha]
  simp

/-- Every other tile afterwards. -/
theorem State.commit_tile_ne (s : State) (c : Ctx) (d : Done) (he : d.eff = id) (ha : d.after = none) {k : Nat}
    (h : k ≠ c.k) : (s.commit c d).tile k = s.tile k := by
  unfold State.tile
  rw [State.commit_tiles s c d he ha, Tab.get_set_ne _ _ _ h]

/-- Memory is unchanged by such a firing. -/
theorem State.commit_mem (s : State) (c : Ctx) (d : Done) (he : d.eff = id) (ha : d.after = none) :
    (s.commit c d).mem = s.mem := by
  have h := congrArg State.mem (s.commit_rest c d he ha)
  exact h

/-! ### One firing in its pool (R95, R117) -/

section Fire

variable (x : PoolSt) (c : Ctx) (d : Done)

theorem foldl_popInput_rest (is : List Nat) (x : PoolSt) :
    (is.foldl PoolSt.popInput x).withFired x.ins x.v x.outs x.inflight x.upd x.firedAt x.groups = x := by
  induction is generalizing x with
  | nil => rfl
  | cons i rest ih =>
    have h := ih (x.popInput i)
    rw [List.foldl_cons]
    calc _ = ((rest.foldl PoolSt.popInput (x.popInput i)).withFired (x.popInput i).ins x.v x.outs x.inflight x.upd
              x.firedAt x.groups).withFired x.ins x.v x.outs x.inflight x.upd x.firedAt x.groups := rfl
      _ = (x.popInput i).withFired x.ins x.v x.outs x.inflight x.upd x.firedAt x.groups := by
        exact congrArg (fun y => PoolSt.withFired y x.ins x.v x.outs x.inflight x.upd x.firedAt x.groups) h
      _ = x := rfl

theorem foldl_popInput_inflight (is : List Nat) (x : PoolSt) : (is.foldl PoolSt.popInput x).inflight = x.inflight := by
  induction is generalizing x with
  | nil => rfl
  | cons i rest ih => exact (ih (x.popInput i)).trans rfl

/-- What a firing writes in its pool, and nothing more. -/
theorem PoolSt.fire_rest :
    (x.fire c d).withFired x.ins x.v x.outs x.inflight x.upd x.firedAt x.groups = x :=
  foldl_popInput_rest d.pops x

theorem PoolSt.fire_inflight : (x.fire c d).inflight = x.inflight ++ d.res.filterMap fun r =>
      if r.dst = .none then none
      else some ⟨r.dst, r.tok, c.cyc + r.lat - 1, (r.tok.elim c.gen fun t => t.gen), c.slot, r.ticket, dstCode r.dst⟩ := by
  unfold PoolSt.fire
  simp only [foldl_popInput_inflight]

theorem PoolSt.fire_upd : (x.fire c d).upd = if c.f.pe then some (c.f.pi, c.f.pval) else none := rfl

theorem PoolSt.fire_firedAt : (x.fire c d).firedAt = some c.cyc := rfl

theorem PoolSt.fire_ins : (x.fire c d).ins = (d.pops.foldl PoolSt.popInput x).ins := rfl

end Fire

end Sys2Proof.Machine
end

