-- ==== Sys2Proof/Laws/Firing.lean ====
section
/-! SUPPORT. Lanes, headers and results as the statements tell them, and effects of a firing beyond its tile. -/

set_option Elab.async false

namespace Sys2Proof.Machine

open Sys2Proof

theorem Lanes.get_ofFn (g : Nat → Word) {i : Nat} (hi : i < 8) : (Lanes.ofFn g).get i = g i := by
  interval_cases i <;> rfl

/-- A lane of a source as it is read (R133). -/
theorem maskLanes_get (t : Tok) {i : Nat} (hi : i < 8) : (maskLanes t).get i = laneRead t i :=
  Lanes.get_ofFn _ hi

theorem maskLanes_l0 (t : Tok) : (maskLanes t).l0 = laneRead t 0 := rfl

theorem scalarRes_eq (w : Word) (h : Hdr) : scalarRes w h = oneTok w h := by
  unfold scalarRes oneTok dataTok Lanes.ofList Lanes.ofFn
  simp [Lanes.get]

theorem predRes_eq (v : Bool) (h : Hdr) : predRes v h = oneTok (if v then 1 else 0) h := by
  unfold predRes
  rw [scalarRes_eq]
  cases v <;> rfl

theorem dataTok_get (l : Lanes) (h : Hdr) (fmt : BitVec 4) {i : Nat} (hi : i < 8) :
    (dataTok l h fmt).lanes.get i = if h.mask.getLsbD i then l.get i else 0 :=
  Lanes.get_ofFn _ hi

/-- The GEN of a firing whose sources do not split. -/
theorem Ctx.gen_of_header {c : Ctx} {h : Hdr} (hh : c.header = .ok h) : c.gen = h.gen := by
  unfold Ctx.gen
  rw [hh]

/-- A firing with an effect beyond its tile is that effect after the firing without it. -/
theorem State.commit_eff (s : State) (c : Ctx) (d : Done) (ha : d.after = none) :
    s.commit c d = d.eff (s.commit c { d with eff := id }) := by
  unfold State.commit
  simp only [ha]
  rfl

/-- A firing that raises a fault when it has completed is the firing without it, and then the fault. -/
theorem State.commit_after (s : State) (c : Ctx) (d : Done) (e : Flt) (ha : d.after = some e) :
    s.commit c d = (s.commit c { d with after := none }).raiseFlt c e := by
  unfold State.commit
  simp only [ha]
  rfl

/-- A field as bits. -/
theorem fld_extract (b : Word) (h l : Nat) (_hl : l ≤ h) : fld b h l = (b.extractLsb' l (h + 1 - l)).toNat := by
  unfold fld
  rw [BitVec.extractLsb'_toNat, Nat.shiftRight_eq_div_pow]

end Sys2Proof.Machine
end

