-- ==== Sys2Proof/Laws/Integer.lean ====
section
/-! SUPPORT. The integer instructions of R153 on exact integers agree with the bit-vector tables of the statements. -/

set_option Elab.async false

namespace Sys2Proof.Machine

open Sys2Proof

/-- The number that a w-bit operand is read as. -/
def operandInt {w : Nat} (u : Bool) (x : BitVec w) : Int := if u then (x.toNat : Int) else x.toInt

theorem sext_toInt (w n : Nat) (hw : 0 < w) : sextBits n w = (BitVec.ofNat w n).toInt := by
  unfold sextBits
  rw [BitVec.toInt_eq_toNat_bmod, BitVec.toNat_ofNat, Int.bmod_def]
  simp only [show w ≠ 0 from by omega, if_false]
  have h2 : (2:Nat) ^ w = 2 * 2 ^ (w - 1) := by rw [← Nat.pow_succ']; congr 1; omega
  have hp : 0 < 2 ^ (w - 1) := Nat.pos_of_ne_zero (by positivity)
  rw [h2]
  have : ((((n % (2 * 2 ^ (w-1)) : Nat)  : Int) % ((2 * 2 ^ (w-1) : Nat) : Int))) = ((n % (2 * 2 ^ (w-1)) : Nat) : Int) := by
    rw [← Int.natCast_mod, Nat.mod_mod]
  rw [this]
  have e : ((2 * 2 ^ (w - 1) : Nat) : Int) + 1 = ((2 * 2 ^ (w - 1) + 1 : Nat) : Int) := by push_cast; rfl
  rw [e]
  have e2 : ((2 * 2 ^ (w - 1) + 1 : Nat) : Int) / 2 = ((2 ^ (w-1) : Nat) : Int) := by
    have : ((2 * 2 ^ (w - 1) + 1 : Nat) : Int) / 2 = (((2 * 2 ^ (w - 1) + 1) / 2 : Nat) : Int) := by rw [Int.natCast_ediv]; rfl
    rw [this]; congr 1; omega
  rw [e2]
  have h3 : (2 : Int) ^ w = ((2 * 2 ^ (w - 1) : Nat) : Int) := by rw [← h2]; push_cast; rfl
  rw [h3]
  split
  · rw [if_pos (by exact_mod_cast ‹_›)]
  · rw [if_neg (by exact_mod_cast ‹_›)]

theorem read32 (u : Bool) (x : Word) : readInt 32 u x = operandInt u (x.setWidth 32) := by
  unfold readInt operandInt
  cases u
  · simp only [Bool.false_eq_true, if_false]
    rw [sext_toInt 32 _ (by omega)]
    congr 1
  · simp
theorem read64 (u : Bool) (x : Word) : readInt 64 u x = operandInt u x := by
  unfold readInt operandInt
  cases u
  · simp only [Bool.false_eq_true, if_false]
    rw [sext_toInt 64 _ (by omega)]
    simp
  · have := x.isLt; simp only [if_true]; congr 1; exact Nat.mod_eq_of_lt this

theorem ofInt_add (w : Nat) (a b : BitVec w) : BitVec.ofInt w (a.toInt + b.toInt) = a + b := by
  rw [BitVec.ofInt_add]; simp
theorem ofInt_mul (w : Nat) (a b : BitVec w) : BitVec.ofInt w (a.toInt * b.toInt) = a * b := by
  rw [BitVec.ofInt_mul]; simp
theorem ofInt_nat (w n : Nat) : BitVec.ofInt w (n : Int) = BitVec.ofNat w n := by simp

def exactResult (o : Op) (w : Nat) (u : Bool) (x y z : Int) : Int :=
  match o with
  | .iadd => x + y
  | .isub => x - y
  | .imul => x * y
  | .imulh => x * y / 2 ^ w
  | .imad => x * y + z
  | .ineg => -x
  | .iabs => (x.natAbs : Int)
  | .imin => min x y
  | .imax => max x y
  | .iclamp => max (min x z) y
  | .iadds => satInt w u (x + y)
  | .isubs => satInt w u (x - y)
  | _ => 0
def arithOps : List Op := [.iadd, .isub, .imul, .imulh, .imad, .ineg, .iabs, .imin, .imax, .iclamp, .iadds, .isubs]

theorem operandInt_lt {w : Nat} (u : Bool) (x y : BitVec w) : (if u then x.ult y else x.slt y) = decide (operandInt u x < operandInt u y) := by
  cases u <;> simp [operandInt, BitVec.ult, BitVec.slt]
theorem ofInt_operandInt {w : Nat} (u : Bool) (x : BitVec w) : BitVec.ofInt w (operandInt u x) = x := by
  cases u <;> simp [operandInt]

theorem sat_s (w : Nat) (hw : 0 < w) (v : Int) : BitVec.ofInt w (clampS w v) =
   if 2 ^ (w - 1) ≤ v then BitVec.intMax w else if v < -(2 ^ (w - 1)) then BitVec.intMin w else BitVec.ofInt w v := by
  unfold clampS
  have hp : (0 : Int) < 2 ^ (w - 1) := by positivity
  have h2 : (2:Int) ^ w = 2 * 2 ^ (w - 1) := by rw [← pow_succ']; congr 1; omega
  have hmax : BitVec.ofInt w (2 ^ (w - 1) - 1) = BitVec.intMax w := by
    apply BitVec.eq_of_toNat_eq
    rw [BitVec.toNat_ofInt, BitVec.toNat_intMax]
    have e : ((2 ^ w : Nat) : Int) = 2 ^ w := by push_cast; rfl
    rw [e, Int.emod_eq_of_lt (by omega) (by omega)]
    have e1 : ((2 ^ (w-1) : Nat) : Int) = 2 ^ (w-1) := by push_cast; rfl
    omega
  have hmin : BitVec.ofInt w (-(2 ^ (w - 1))) = BitVec.intMin w := by
    apply BitVec.eq_of_toInt_eq
    rw [BitVec.toInt_intMin_of_pos hw, BitVec.toInt_ofInt, Int.bmod_eq_of_le_mul_two] <;> push_cast <;> omega
  split
  · rw [show min (max v (-(2 ^ (w - 1)))) (2 ^ (w - 1) - 1) = 2 ^ (w-1) - 1 from by omega, hmax]
  · split
    · rw [show min (max v (-(2 ^ (w - 1)))) (2 ^ (w - 1) - 1) = -(2 ^ (w-1)) from by omega, hmin]
    · rw [show min (max v (-(2 ^ (w - 1)))) (2 ^ (w - 1) - 1) = v from by omega]
theorem sat_u (w : Nat) (v : Int) : BitVec.ofInt w (min (max v 0) (2 ^ w - 1)) =
   if 2 ^ w ≤ v then BitVec.allOnes w else if v < 0 then 0 else BitVec.ofInt w v := by
  have hp : (0 : Int) < 2 ^ w := by positivity
  split
  · rw [show min (max v 0) (2 ^ w - 1) = 2 ^ w - 1 from by omega]
    apply BitVec.eq_of_toNat_eq
    rw [BitVec.toNat_ofInt, BitVec.toNat_allOnes]
    have : ((2:Int) ^ w - 1) % ((2 ^ w : Nat) : Int) = 2 ^ w - 1 := by
      rw [Int.emod_eq_of_lt] <;> push_cast <;> omega
    rw [this]
    have h2 : ((2:Int)^w) = ((2^w : Nat) : Int) := by push_cast; rfl
    rw [h2]; omega
  · split
    · rw [show min (max v 0) (2 ^ w - 1) = 0 from by omega]; simp
    · rw [show min (max v 0) (2 ^ w - 1) = v from by omega]

theorem intTable_exact (o : Op) (w : Nat) (hw : 0 < w) (u : Bool) (ho : o ∈ arithOps) (hu : u = true → o ∈ [.imulh, .imin, .imax, .iclamp, .iadds, .isubs])
   (x y z : BitVec w) : intTable w u o x y z = BitVec.ofInt w (exactResult o w u (operandInt u x) (operandInt u y) (operandInt u z)) := by
  simp only [arithOps, List.mem_cons, List.not_mem_nil, or_false] at ho
  rcases ho with rfl|rfl|rfl|rfl|rfl|rfl|rfl|rfl|rfl|rfl|rfl|rfl
  · cases u
    · simp [intTable, exactResult, operandInt, ofInt_add]
    · simp at hu
  · cases u
    · simp only [intTable, exactResult, operandInt, Bool.false_eq_true, if_false]; rw [Int.sub_eq_add_neg, BitVec.ofInt_add, BitVec.ofInt_neg]; simp [BitVec.sub_eq_add_neg]
    · simp at hu
  · cases u
    · simp [intTable, exactResult, operandInt, ofInt_mul]
    · simp at hu
  · cases u
    · simp only [intTable, exactResult, operandInt, Bool.false_eq_true, if_false]
      have hx := @BitVec.toInt_lt w x; have hx2 := BitVec.le_toInt x
      have hy := @BitVec.toInt_lt w y; have hy2 := BitVec.le_toInt y
      have hA : (x.signExtend (2 * w) * y.signExtend (2 * w)).toInt = x.toInt * y.toInt := by
        rw [BitVec.toInt_mul, BitVec.toInt_signExtend_of_le (by omega), BitVec.toInt_signExtend_of_le (by omega)]
        have hp : (0 : Int) < 2 ^ (w - 1) := by positivity
        have h2 : (2:Int) ^ (2 * w) = 4 * (2 ^ (w - 1) * 2 ^ (w - 1)) := by
          rw [show 2 * w = 2 + ((w - 1) + (w - 1)) from by omega, pow_add, pow_add]; norm_num
        have b1 : x.toInt * y.toInt ≤ 2 ^ (w - 1) * 2 ^ (w - 1) := by
          have h1 : |x.toInt| ≤ 2 ^ (w - 1) := abs_le.mpr ⟨hx2, by omega⟩
          have h2 : |y.toInt| ≤ 2 ^ (w - 1) := abs_le.mpr ⟨hy2, by omega⟩
          calc x.toInt * y.toInt ≤ |x.toInt * y.toInt| := le_abs_self _
            _ = |x.toInt| * |y.toInt| := abs_mul _ _
            _ ≤ _ := mul_le_mul h1 h2 (abs_nonneg _) (by omega)
        have b2 : -(2 ^ (w - 1) * 2 ^ (w - 1)) ≤ x.toInt * y.toInt := by
          have h1 : |x.toInt| ≤ 2 ^ (w - 1) := abs_le.mpr ⟨hx2, by omega⟩
          have h2 : |y.toInt| ≤ 2 ^ (w - 1) := abs_le.mpr ⟨hy2, by omega⟩
          have : |x.toInt * y.toInt| ≤ 2 ^ (w - 1) * 2 ^ (w - 1) := by rw [abs_mul]; exact mul_le_mul h1 h2 (abs_nonneg _) (by omega)
          exact (abs_le.mp this).1
        have hpp : (0:Int) < 2 ^ (w - 1) * 2 ^ (w - 1) := by positivity
        rw [Int.bmod_eq_of_le_mul_two] <;> push_cast <;> rw [h2] <;> omega
      apply BitVec.eq_of_toNat_eq
      rw [BitVec.toNat_setWidth, ← Int.natCast_inj, BitVec.toNat_ofInt]
      generalize x.signExtend (2 * w) * y.signExtend (2 * w) = A at hA
      have e : ((A.sshiftRight w).toNat : Int) % ((2 ^ w : Nat) : Int) = (A.sshiftRight w).toInt % ((2 ^ w : Nat) : Int) := by
        rw [BitVec.toInt_eq_toNat_bmod, ← Int.emod_emod_of_dvd (Int.bmod (A.sshiftRight w).toNat (2 ^ (2 * w))) (show ((2 ^ w : Nat) : Int) ∣ ((2 ^ (2 * w) : Nat) : Int) from by exact_mod_cast Nat.pow_dvd_pow 2 (by omega)), Int.bmod_emod, Int.emod_emod_of_dvd]
        exact_mod_cast Nat.pow_dvd_pow 2 (by omega)
      push_cast at e ⊢
      rw [e, BitVec.toInt_sshiftRight, hA, Int.shiftRight_eq_div_pow]
      rw [Int.toNat_of_nonneg (Int.emod_nonneg _ (by positivity))]
      push_cast
      rfl
    · simp only [intTable, exactResult, operandInt, if_true]
      apply BitVec.eq_of_toNat_eq
      rw [BitVec.toNat_setWidth, BitVec.toNat_ushiftRight, BitVec.toNat_mul, BitVec.toNat_setWidth, BitVec.toNat_setWidth, Nat.shiftRight_eq_div_pow, BitVec.toNat_ofInt]
      have hx := x.isLt; have hy := y.isLt
      have hxy : x.toNat * y.toNat < 2 ^ (2 * w) := by rw [two_mul, pow_add]; exact Nat.mul_lt_mul'' hx hy
      have hw2 : 2 ^ w ≤ 2 ^ (2 * w) := Nat.pow_le_pow_right (by omega) (by omega)
      rw [Nat.mod_eq_of_lt (a := x.toNat) (by omega), Nat.mod_eq_of_lt (a := y.toNat) (by omega), Nat.mod_eq_of_lt hxy]
      have : ((x.toNat : Int) * y.toNat / 2 ^ w) % ((2 ^ w : Nat) : Int) = ((x.toNat * y.toNat / 2 ^ w % 2 ^ w : Nat) : Int) := by push_cast; rfl
      rw [this]; rfl
  · cases u
    · simp only [intTable, exactResult, operandInt, Bool.false_eq_true, if_false]; rw [BitVec.ofInt_add, ofInt_mul]; simp
    · simp at hu
  · cases u
    · simp only [intTable, exactResult, operandInt, Bool.false_eq_true, if_false]; rw [BitVec.ofInt_neg]; simp
    · simp at hu
  · cases u
    · simp only [intTable, exactResult, operandInt, Bool.false_eq_true, if_false]
      rw [BitVec.msb_eq_toInt]
      by_cases h : x.toInt < 0
      · simp [h]
        have : ((x.toInt.natAbs : Nat) : Int) = - x.toInt := by omega
        rw [show |x.toInt| = -x.toInt from abs_of_neg h, BitVec.ofInt_neg]; simp
      · simp [h]; rw [show |x.toInt| = x.toInt from abs_of_nonneg (by omega)]; simp
    · simp at hu
  · simp only [intTable, exactResult, operandInt_lt, decide_eq_true_eq]
    rw [min_def]
    split <;> split <;> first | (rw [ofInt_operandInt]; done) | skip
    · omega
    · have : operandInt u x = operandInt u y := by omega
      rw [this, ofInt_operandInt]
  · simp only [intTable, exactResult, operandInt_lt, decide_eq_true_eq]
    rw [max_def]
    split <;> split <;> first | (rw [ofInt_operandInt]; done) | skip
    · omega
    · have : operandInt u x = operandInt u y := by omega
      rw [← this, ofInt_operandInt]
  · simp only [intTable, exactResult, operandInt_lt, decide_eq_true_eq]
    generalize hv : (if operandInt u x < operandInt u z then x else z) = v
    have hm : operandInt u v = min (operandInt u x) (operandInt u z) := by
      rw [← hv, min_def]; split <;> split <;> omega
    rw [← hm, max_def]
    split <;> split <;> first | omega | (rw [ofInt_operandInt]; done) | skip
    · have : operandInt u v = operandInt u y := by omega
      rw [← ofInt_operandInt u v, this]
  · cases u
    · simp only [intTable, exactResult, operandInt, Bool.false_eq_true, if_false, satInt]
      have hx := @BitVec.toInt_lt w x; have hx2 := BitVec.le_toInt x
      have hy := @BitVec.toInt_lt w y; have hy2 := BitVec.le_toInt y
      have hm := @BitVec.msb_eq_toInt w x
      have hp : (0 : Int) < 2 ^ (w - 1) := by positivity
      rw [sat_s w hw]
      unfold BitVec.saddOverflow satEnd
      by_cases h1 : 2 ^ (w - 1) ≤ x.toInt + y.toInt
      · have hs : x.msb = false := by rw [hm]; simp; omega
        simp [h1, hs]
      · by_cases h2 : x.toInt + y.toInt < -2 ^ (w - 1)
        · have hs : x.msb = true := by rw [hm]; simp; omega
          simp [h1, h2, hs]
        · simp [h1, h2, ofInt_add]
    · simp only [intTable, exactResult, operandInt, if_true, satInt]
      have hx := x.isLt; have hy := y.isLt
      rw [sat_u]
      unfold BitVec.uaddOverflow
      have e : ((2:Int) ^ w ≤ x.toNat + y.toNat) ↔ x.toNat + y.toNat ≥ 2 ^ w := by
        rw [ge_iff_le, ← Int.ofNat_le]; push_cast; rfl
      by_cases h1 : x.toNat + y.toNat ≥ 2 ^ w
      · simp [e.mpr h1, h1]
      · rw [if_neg (by simpa using h1), if_neg (fun h => h1 (e.mp h)), if_neg (by omega)]
        rw [BitVec.ofInt_add]; simp
  · cases u
    · simp only [intTable, exactResult, operandInt, Bool.false_eq_true, if_false, satInt]
      have hx := @BitVec.toInt_lt w x; have hx2 := BitVec.le_toInt x
      have hy := @BitVec.toInt_lt w y; have hy2 := BitVec.le_toInt y
      have hm := @BitVec.msb_eq_toInt w x
      have hp : (0 : Int) < 2 ^ (w - 1) := by positivity
      rw [sat_s w hw]
      unfold BitVec.ssubOverflow satEnd
      by_cases h1 : 2 ^ (w - 1) ≤ x.toInt - y.toInt
      · have hs : x.msb = false := by rw [hm]; simp; omega
        simp [h1, hs]
      · by_cases h2 : x.toInt - y.toInt < -2 ^ (w - 1)
        · have hs : x.msb = true := by rw [hm]; simp; omega
          simp [h1, h2, hs]
        · simp [h1, h2]
          rw [Int.sub_eq_add_neg, BitVec.ofInt_add, BitVec.ofInt_neg]; simp [BitVec.sub_eq_add_neg]
    · simp only [intTable, exactResult, operandInt, if_true, satInt]
      have hx := x.isLt; have hy := y.isLt
      rw [sat_u]
      unfold BitVec.usubOverflow
      have hlt : ¬ ((2:Int) ^ w ≤ x.toNat - y.toNat) := by
        have : (x.toNat : Int) < 2 ^ w := by exact_mod_cast hx
        omega
      rw [if_neg hlt]
      by_cases h1 : x.toNat < y.toNat
      · simp [h1]
      · simp [h1]
        rw [Int.sub_eq_add_neg, BitVec.ofInt_add, BitVec.ofInt_neg]; simp [BitVec.sub_eq_add_neg]

theorem lane32 (v : Int) : fit 32 v = (BitVec.ofInt 32 v).signExtend 64 := rfl
theorem lane64 (v : Int) : fit 64 v = BitVec.ofInt 64 v := rfl

theorem arith_lane (o : Op) (md : BitVec 3) (ho : o ∈ arithOps) (hm : md.toNat ∈ o.mds) (x y z : Word) :
   (let w := intW md; let u := md.getLsbD 1; fit w (exactResult o w u (readInt w u x) (readInt w u y) (readInt w u z))) = sizedLane o md x y z := by
  have hu : md.getLsbD 1 = true → o ∈ [.imulh, .imin, .imax, .iclamp, .iadds, .isubs] := by
    clear x y z
    intro h
    have hall : ∀ md : BitVec 3, ∀ o ∈ arithOps, md.toNat ∈ o.mds → md.getLsbD 1 = true → o ∈ [Op.imulh, .imin, .imax, .iclamp, .iadds, .isubs] := by decide
    exact hall md o ho hm h
  simp only [intW, sizedLane]
  cases md.getLsbD 0
  · simp only [Bool.false_eq_true, if_false, lane64, read64]
    rw [intTable_exact o 64 (by omega) _ ho hu]
  · simp only [if_true, lane32, read32]
    rw [intTable_exact o 32 (by omega) _ ho hu]

theorem shl_w (w n : Nat) (x : BitVec w) : BitVec.ofInt w (x.toInt * 2 ^ n) = x <<< n := by
  rw [BitVec.shiftLeft_eq_mul_twoPow, BitVec.ofInt_mul]
  congr 1
  · simp
  · have : ((2:Int) ^ n) = ((2 ^ n : Nat) : Int) := by push_cast; rfl
    rw [this, BitVec.ofInt_natCast]; apply BitVec.eq_of_toNat_eq; simp [BitVec.toNat_twoPow, ← Nat.pow_mod]
theorem shr_w (w n : Nat) (x : BitVec w) : BitVec.ofInt w ((x.toNat : Int) / 2 ^ n) = x >>> n := by
  have : ((x.toNat : Int) / 2 ^ n) = ((x.toNat / 2 ^ n : Nat) : Int) := by push_cast; rfl
  rw [this, BitVec.ofInt_natCast]
  apply BitVec.eq_of_toNat_eq
  rw [BitVec.toNat_ofNat, BitVec.toNat_ushiftRight, Nat.shiftRight_eq_div_pow, Nat.mod_eq_of_lt]
  exact lt_of_le_of_lt (Nat.div_le_self _ _) x.isLt
theorem sar_w (w n : Nat) (x : BitVec w) : BitVec.ofInt w (x.toInt / 2 ^ n) = x.sshiftRight n := by
  conv_rhs => rw [← BitVec.ofInt_toInt (x := x.sshiftRight n), BitVec.toInt_sshiftRight, Int.shiftRight_eq_div_pow]
  push_cast
  rfl
theorem rot_w (w n : Nat) (hn : n < w) (x : BitVec w) : BitVec.ofInt w ((rotNat w x.toNat n : Nat) : Int) = x.rotateLeft n := by
  rw [BitVec.ofInt_natCast]
  apply BitVec.eq_of_toNat_eq
  rw [BitVec.toNat_ofNat, BitVec.toNat_rotateLeft, Nat.mod_eq_of_lt hn]
  unfold rotNat
  rw [Nat.mod_mod, Nat.shiftLeft_eq, Nat.shiftRight_eq_div_pow]
  have hx := x.isLt
  have h1 : 2 ^ w = 2 ^ n * 2 ^ (w - n) := by rw [← pow_add]; congr 1; omega
  have hb : x.toNat / 2 ^ (w - n) < 2 ^ n := by
    rw [Nat.div_lt_iff_lt_mul (by positivity), ← h1]; exact hx
  have ha : x.toNat * 2 ^ n % 2 ^ w = 2 ^ n * (x.toNat % 2 ^ (w - n)) := by
    rw [h1, Nat.mul_comm x.toNat, Nat.mul_mod_mul_left]
  rw [ha, ← Nat.two_pow_add_eq_or_of_lt hb, Nat.add_mod, ha]
  have hlt : 2 ^ n * (x.toNat % 2 ^ (w - n)) + x.toNat / 2 ^ (w - n) < 2 ^ w := by
    have : x.toNat % 2 ^ (w - n) < 2 ^ (w - n) := Nat.mod_lt _ (by positivity)
    rw [h1]
    calc _ < 2 ^ n * (x.toNat % 2 ^ (w - n)) + 2 ^ n := by omega
      _ = 2 ^ n * (x.toNat % 2 ^ (w - n) + 1) := by ring
      _ ≤ _ := Nat.mul_le_mul_left _ this
  rw [Nat.mod_eq_of_lt (a := x.toNat / 2 ^ (w - n)) (by
    have : 2 ^ n ≤ 2 ^ w := Nat.pow_le_pow_right (by omega) (by omega)
    omega), Nat.mod_eq_of_lt hlt]

theorem sh_amt (y : Word) : shAmt 32 y = (y.setWidth 32).toNat % 32 := by
  unfold shAmt; rw [BitVec.toNat_setWidth, Nat.mod_mod_of_dvd _ (by decide)]

theorem shl_lane (md : BitVec 3) (x y z : Word) : fit (intW md) (readInt (intW md) false x * 2 ^ shAmt (intW md) y) = sizedLane .shl md x y z := by
  simp only [intW, sizedLane]
  cases md.getLsbD 0
  · simp only [Bool.false_eq_true, if_false, lane64, read64, intTable, operandInt, shl_w]; rfl
  · simp only [if_true, lane32, read32, intTable, operandInt, Bool.false_eq_true, if_false, shl_w, sh_amt]
theorem shr_lane (md : BitVec 3) (x y z : Word) : fit (intW md) (readInt (intW md) true x / 2 ^ shAmt (intW md) y) = sizedLane .shr md x y z := by
  simp only [intW, sizedLane]
  cases md.getLsbD 0
  · simp only [Bool.false_eq_true, if_false, lane64, read64, intTable, operandInt, if_true, shr_w]; rfl
  · simp only [if_true, lane32, read32, intTable, operandInt, shr_w, sh_amt]
theorem sar_lane (md : BitVec 3) (x y z : Word) : fit (intW md) (readInt (intW md) false x / 2 ^ shAmt (intW md) y) = sizedLane .sar md x y z := by
  simp only [intW, sizedLane]
  cases md.getLsbD 0
  · simp only [Bool.false_eq_true, if_false, lane64, read64, intTable, operandInt, sar_w]; rfl
  · simp only [if_true, lane32, read32, intTable, operandInt, Bool.false_eq_true, if_false, sar_w, sh_amt]
theorem rot_lane (md : BitVec 3) (x y z : Word) : fit (intW md) ((rotNat (intW md) (x.toNat % 2 ^ (intW md)) (shAmt (intW md) y) : Nat) : Int) = sizedLane .rot md x y z := by
  simp only [intW, sizedLane]
  cases md.getLsbD 0
  · simp only [Bool.false_eq_true, if_false, lane64, intTable]
    rw [Nat.mod_eq_of_lt x.isLt, rot_w 64 (shAmt 64 y) (Nat.mod_lt _ (by decide))]; rfl
  · simp only [if_true, lane32, intTable]
    have := rot_w 32 (shAmt 32 y) (Nat.mod_lt _ (by decide)) (x.setWidth 32)
    rw [BitVec.toNat_setWidth] at this
    rw [this, sh_amt]

def exactLane (o : Op) (md : BitVec 3) (x y z : Word) : Word :=
  let w := intW md
  match o with
  | .shl => fit w (readInt w false x * 2 ^ shAmt w y)
  | .shr => fit w (readInt w true x / 2 ^ shAmt w y)
  | .sar => fit w (readInt w false x / 2 ^ shAmt w y)
  | .rot => fit w (rotNat w (x.toNat % 2 ^ w) (shAmt w y) : Nat)
  | _ => fit w (exactResult o w (md.getLsbD 1) (readInt w (md.getLsbD 1) x) (readInt w (md.getLsbD 1) y) (readInt w (md.getLsbD 1) z))

theorem exactLane_eq (o : Op) (md : BitVec 3) (ho : o ∈ sizedOps) (hm : md.toNat ∈ o.mds) (x y z : Word) : exactLane o md x y z = sizedLane o md x y z := by
  simp only [sizedOps, List.mem_cons, List.not_mem_nil, or_false] at ho
  rcases ho with rfl|rfl|rfl|rfl|rfl|rfl|rfl|rfl|rfl|rfl|rfl|rfl|rfl|rfl|rfl|rfl
  all_goals first
    | exact shl_lane md x y z
    | exact shr_lane md x y z
    | exact sar_lane md x y z
    | exact rot_lane md x y z
    | exact arith_lane _ md (by decide) hm x y z

theorem clz_eq (x : Word) (n : Nat) : clzNat n (x.toNat % 2 ^ n) = zerosAbove x n := by
  induction n with
  | zero => simp [clzNat, zerosAbove, Nat.mod_one]
  | succ n ih =>
    unfold zerosAbove
    have hb : x.getLsbD n = decide (x.toNat / 2 ^ n % 2 = 1) := by
      rw [← BitVec.testBit_toNat, Nat.testBit_eq_decide_div_mod_eq]
    have hd : x.toNat % 2 ^ (n + 1) = x.toNat % 2 ^ n + 2 ^ n * (x.toNat / 2 ^ n % 2) := by rw [Nat.pow_succ, Nat.mod_mul]
    have hlt : x.toNat % 2 ^ n < 2 ^ n := Nat.mod_lt _ (by positivity)
    rw [hb]
    by_cases h : x.toNat / 2 ^ n % 2 = 1
    · simp only [h, decide_true, if_true]
      rw [hd, h]
      unfold clzNat
      rw [if_neg (by have : 0 < 2 ^ n := by positivity
                     omega)]
      have : Nat.log2 (x.toNat % 2 ^ n + 2 ^ n * 1) = n := by
        rw [Nat.log2_eq_iff (by have : 0 < 2 ^ n := by positivity
                                omega)]
        constructor
        · omega
        · rw [Nat.pow_succ]; omega
      rw [this]; omega
    · have h0 : x.toNat / 2 ^ n % 2 = 0 := by omega
      simp only [h, decide_false, Bool.false_eq_true, if_false]
      rw [hd, h0, ← ih]
      unfold clzNat
      simp only [Nat.mul_zero, Nat.add_zero]
      split
      · omega
      · rename_i hne
        have : Nat.log2 (x.toNat % 2 ^ n) < n := by
          rw [Nat.log2_lt hne]; exact hlt
        omega
theorem pop_eq (x : Word) (n : Nat) : popcount x n = onesBelow x n := by
  unfold popcount onesBelow
  have : ∀ (l : List Nat) (k : Nat), l.foldl (fun k i => if x.getLsbD i then k + 1 else k) k = k + (l.filter x.getLsbD).length := by
    intro l
    induction l with
    | nil => simp
    | cons a r ih =>
      intro k
      rw [List.foldl_cons, ih, List.filter_cons]
      split
      · simp
        omega
      · simp
  rw [this]; simp

theorem ones_bit (n i : Nat) (hi : i < 64) : (BitVec.ofNat 64 (2 ^ n - 1)).getLsbD i = decide (i < n) := by
  rw [BitVec.getLsbD_ofNat]
  simp [hi, Nat.testBit_two_pow_sub_one]


theorem sext_w (n : Nat) (hn : 0 < n) (V : Nat) : BitVec.ofInt 64 (sextBits V n) = (BitVec.ofNat n V).signExtend 64 := by
  rw [sext_toInt n V hn]; rfl

theorem sext_lane (x : Word) (p : Nat) (hp : p < 64) :
    BitVec.ofInt 64 (sextBits x.toNat (p + 1)) = (x <<< (63 - p)).sshiftRight (63 - p) := by
  rw [sext_w (p + 1) (by omega)]
  apply BitVec.eq_of_getLsbD_eq
  intro i hi
  rw [BitVec.getLsbD_signExtend, BitVec.getLsbD_sshiftRight, BitVec.msb_eq_getLsbD_last, BitVec.msb_eq_getLsbD_last]
  simp only [BitVec.getLsbD_ofNat, BitVec.getLsbD_shiftLeft, hi, decide_true, Bool.true_and]
  have e : x.getLsbD i = x.toNat.testBit i := (BitVec.testBit_toNat x).symm
  by_cases h : i < p + 1
  · have h1 : 63 - p + i < 64 := by omega
    have h2 : ¬ (63 - p + i < 63 - p) := by omega
    simp [h, h1, h2, show ¬ (64 ≤ i) from by omega, e, show 63 - p + i - (63 - p) = i from by omega]
  · have h1 : ¬ (63 - p + i < 64) := by omega
    have h2 : ¬ (63 < 63 - p) := by omega
    simp [h, h1, h2, show ¬ (64 ≤ i) from by omega, show 63 - (63 - p) = p from by omega]
    exact BitVec.testBit_toNat x

theorem bfx_lane (x : Word) (p n : Nat) (sg : Bool) (hn : n < 64) : bfx x p n sg =
    (let ones : Word := BitVec.ofNat 64 (2 ^ n - 1)
     let v := (x >>> p) &&& ones
     if sg && decide (0 < n) && v.getLsbD (n - 1) then v ||| ~~~ones else v) := by
  have hv : w64 (x.toNat / 2 ^ p % 2 ^ n) = (x >>> p) &&& BitVec.ofNat 64 (2 ^ n - 1) := by
    apply BitVec.eq_of_getLsbD_eq
    intro i hi
    unfold w64
    rw [BitVec.getLsbD_and, ones_bit n i hi, BitVec.getLsbD_ofNat, Nat.testBit_mod_two_pow, BitVec.getLsbD_ushiftRight, ← BitVec.testBit_toNat, Nat.testBit_div_two_pow]
    simp [hi, Nat.add_comm, Bool.and_comm]
  unfold bfx
  simp only
  rw [← hv]
  cases sg
  · simp
  · simp only [if_true, Bool.true_and]
    by_cases h0 : n = 0
    · subst h0; simp [sextBits, w64, Nat.mod_one]
    · rw [show decide (0 < n) = true from by simp; omega, Bool.true_and, sext_w n (by omega)]
      generalize hV : x.toNat / 2 ^ p % 2 ^ n = V
      have hVlt : V < 2 ^ n := by rw [← hV]; exact Nat.mod_lt _ (by positivity)
      apply BitVec.eq_of_getLsbD_eq
      intro i hi
      have hm : (BitVec.ofNat n V).msb = (w64 V).getLsbD (n - 1) := by
        rw [BitVec.msb_eq_getLsbD_last]
        unfold w64
        rw [BitVec.getLsbD_ofNat, BitVec.getLsbD_ofNat]
        simp only [show n - 1 < n from by omega, show n - 1 < 64 from by omega]
      rw [BitVec.getLsbD_signExtend, hm]
      have hb : ∀ i, n ≤ i → (w64 V).getLsbD i = false := by
        intro i hi
        unfold w64
        rw [BitVec.getLsbD_ofNat, Nat.testBit_eq_false_of_lt (lt_of_lt_of_le hVlt (Nat.pow_le_pow_right (by omega) hi))]
        simp
      have hl : i < n → (BitVec.ofNat n V).getLsbD i = (w64 V).getLsbD i := by
        intro h
        unfold w64
        rw [BitVec.getLsbD_ofNat, BitVec.getLsbD_ofNat]
        simp only [h, hi]
      by_cases h : i < n
      · cases (w64 V).getLsbD (n - 1)
        · simp only [h, hi, hl h]; simp
        · simp only [h, hi, hl h]; simp [ones_bit n i hi, h]
      · cases (w64 V).getLsbD (n - 1)
        · have h0 : (w64 V)[i] = false := by rw [← BitVec.getLsbD_eq_getElem]; exact hb i (by omega)
          simp [h, hi, h0]
        · have h0 : (BitVec.ofNat 64 (2 ^ n - 1))[i] = false := by
            rw [← BitVec.getLsbD_eq_getElem, ones_bit n i hi]
            exact decide_eq_false h
          simp [h, hi, h0]

theorem bfi_lane (x z : Word) (p n : Nat) (_ : n < 64) : bfi x z p n =
    (let ones : Word := BitVec.ofNat 64 (2 ^ n - 1)
     (z &&& ~~~(ones <<< p)) ||| ((x &&& ones) <<< p)) := by
  have hm : w64 ((2 ^ n - 1) * 2 ^ p) = (BitVec.ofNat 64 (2 ^ n - 1)) <<< p := by
    apply BitVec.eq_of_toNat_eq
    unfold w64
    rw [BitVec.toNat_ofNat, BitVec.toNat_shiftLeft, BitVec.toNat_ofNat, Nat.shiftLeft_eq, Nat.mod_mul_mod]
  have hx : w64 (x.toNat % 2 ^ n * 2 ^ p) = (x &&& BitVec.ofNat 64 (2 ^ n - 1)) <<< p := by
    apply BitVec.eq_of_getLsbD_eq
    intro i hi
    unfold w64
    rw [BitVec.getLsbD_ofNat, BitVec.getLsbD_shiftLeft, Nat.testBit_mul_two_pow]
    by_cases h : i < p
    · simp [h, hi, show ¬ p ≤ i from by omega]
    · rw [BitVec.getLsbD_and, ones_bit n (i - p) (by omega), ← BitVec.testBit_toNat, Nat.testBit_mod_two_pow]
      simp [h, hi, show p ≤ i from by omega, Bool.and_comm]
  unfold bfi
  simp only
  rw [hm, hx]
  congr 1
  apply BitVec.eq_of_getLsbD_eq
  intro i hi
  rw [BitVec.getLsbD_and, BitVec.getLsbD_shiftLeft, BitVec.getLsbD_shiftLeft, BitVec.getLsbD_and]
  cases decide (i < 64) <;> cases decide (i < p) <;> cases x.getLsbD (i - p) <;>
    cases (BitVec.ofNat 64 (2 ^ n - 1)).getLsbD (i - p) <;> rfl

end Sys2Proof.Machine
end

