-- ==== Sys2Proof/Laws/Memory.lean ====
section
/-! SUPPORT. Memory: a byte reads as it was last written, a write leaves every other byte, and every operation keeps the
canonical form. -/

set_option Elab.async false

namespace Sys2Proof.Machine

open Sys2Proof

/-! ### Cells -/

theorem cellsFrom_mono {lo lo' : Nat} {cs : List Host.Cell} (h : cellsFrom lo cs = true) (hle : lo' ≤ lo) :
    cellsFrom lo' cs = true := by
  cases cs with
  | nil => rfl
  | cons e rest =>
    obtain ⟨i, c⟩ := e
    simp only [cellsFrom, Bool.and_eq_true, decide_eq_true_eq] at h ⊢
    exact ⟨⟨by omega, h.1.2⟩, h.2⟩

theorem natsFrom_mono {lo lo' : Nat} {xs : List Nat} (h : natsFrom lo xs = true) (hle : lo' ≤ lo) :
    natsFrom lo' xs = true := by
  cases xs with
  | nil => rfl
  | cons x rest =>
    simp only [natsFrom, Bool.and_eq_true, decide_eq_true_eq] at h ⊢
    exact ⟨by omega, h.2⟩

/-- A byte put in keeps the cells canonical. -/
theorem putCell_wf {lo : Nat} {cs : List Host.Cell} (a : Nat) (b : Byte) (h : cellsFrom lo cs = true) (ha : lo ≤ a) :
    cellsFrom lo (putCell cs a b) = true := by
  induction cs generalizing lo with
  | nil =>
    unfold putCell
    split
    · rfl
    · simp [cellsFrom, *]
  | cons e rest ih =>
    obtain ⟨i, c⟩ := e
    simp only [cellsFrom, Bool.and_eq_true, decide_eq_true_eq] at h
    obtain ⟨⟨hi, hc⟩, hr⟩ := h
    unfold putCell
    split
    · split
      · simp [cellsFrom, hi, hc, hr]
      · rename_i h1 h2
        simp [cellsFrom, ha, h2, hc, hr, Nat.succ_le_iff.mpr h1]
    · split
      · rename_i h1 h2
        split
        · exact cellsFrom_mono hr (by omega)
        · rename_i h3
          subst h2
          simp [cellsFrom, ha, h3, hr]
      · rename_i h1 h2
        simp only [cellsFrom, Bool.and_eq_true, decide_eq_true_eq]
        exact ⟨⟨hi, hc⟩, ih hr (by omega)⟩

/-- The byte at an address below every cell is the unlisted one. -/
theorem getCell_below {lo a : Nat} {cs : List Host.Cell} (h : cellsFrom lo cs = true) (ha : a < lo) :
    getCell cs a = unlisted := by
  induction cs generalizing lo with
  | nil => rfl
  | cons e rest ih =>
    obtain ⟨i, c⟩ := e
    simp only [cellsFrom, Bool.and_eq_true, decide_eq_true_eq] at h
    have hne : i ≠ a := by omega
    simp [getCell, hne, ih h.2 (by omega)]

/-- A byte reads as it was written, where the cells are canonical. -/
theorem getCell_putCell_self {lo : Nat} {cs : List Host.Cell} (a : Nat) (b : Byte) (h : cellsFrom lo cs = true) :
    getCell (putCell cs a b) a = b := by
  induction cs generalizing lo with
  | nil =>
    unfold putCell
    split
    · rename_i hb
      simp [getCell, hb]
    · simp [getCell]
  | cons e rest ih =>
    obtain ⟨i, c⟩ := e
    simp only [cellsFrom, Bool.and_eq_true, decide_eq_true_eq] at h
    obtain ⟨⟨hi, hc⟩, hr⟩ := h
    unfold putCell
    split
    · rename_i h1
      split
      · rename_i h2
        have hne : i ≠ a := by omega
        simp [getCell, hne, getCell_below hr (by omega : a < i + 1), h2]
      · simp [getCell]
    · split
      · rename_i h1 h2
        split
        · rename_i h3
          rw [h3]
          exact getCell_below hr (by omega)
        · simp [getCell]
      · rename_i h1 h2
        simp [getCell, Ne.symm h2, ih hr]

/-- A byte written leaves every other. -/
theorem getCell_putCell_ne {cs : List Host.Cell} {a x : Nat} (b : Byte) (h : x ≠ a) :
    getCell (putCell cs a b) x = getCell cs x := by
  induction cs with
  | nil =>
    unfold putCell
    split
    · rfl
    · simp [getCell, Ne.symm h]
  | cons e rest ih =>
    obtain ⟨i, c⟩ := e
    unfold putCell
    split
    · split
      · rfl
      · simp [getCell, Ne.symm h]
    · split
      · rename_i h1 h2
        subst h2
        split <;> simp [getCell, Ne.symm h]
      · simp only [getCell, ih]

/-! ### Rising lists of words -/

theorem putNat_wf {lo : Nat} {xs : List Nat} (a : Nat) (h : natsFrom lo xs = true) (ha : lo ≤ a) :
    natsFrom lo (putNat xs a) = true := by
  induction xs generalizing lo with
  | nil => simp [putNat, natsFrom, ha]
  | cons x rest ih =>
    simp only [natsFrom, Bool.and_eq_true, decide_eq_true_eq] at h
    unfold putNat
    split
    · rename_i h1
      simp [natsFrom, ha, h.2, Nat.succ_le_iff.mpr h1]
    · split
      · simp [natsFrom, h]
      · simp only [natsFrom, Bool.and_eq_true, decide_eq_true_eq]
        exact ⟨h.1, ih h.2 (by omega)⟩

theorem delNat_wf {lo : Nat} {xs : List Nat} (a : Nat) (h : natsFrom lo xs = true) : natsFrom lo (delNat xs a) = true := by
  induction xs generalizing lo with
  | nil => rfl
  | cons x rest ih =>
    simp only [natsFrom, Bool.and_eq_true, decide_eq_true_eq] at h
    unfold delNat
    split
    · exact natsFrom_mono h.2 (by omega)
    · simp only [natsFrom, Bool.and_eq_true, decide_eq_true_eq]
      exact ⟨h.1, ih h.2⟩

theorem filter_nats_wf {lo : Nat} {xs : List Nat} (p : Nat → Bool) (h : natsFrom lo xs = true) :
    natsFrom lo (xs.filter p) = true := by
  induction xs generalizing lo with
  | nil => rfl
  | cons x rest ih =>
    simp only [natsFrom, Bool.and_eq_true, decide_eq_true_eq] at h
    rw [List.filter_cons]
    split
    · simp only [natsFrom, Bool.and_eq_true, decide_eq_true_eq]
      exact ⟨h.1, ih h.2⟩
    · exact natsFrom_mono (ih h.2) (by omega)

theorem filter_cells_wf {lo : Nat} {cs : List Host.Cell} (p : Host.Cell → Bool) (h : cellsFrom lo cs = true) :
    cellsFrom lo (cs.filter p) = true := by
  induction cs generalizing lo with
  | nil => rfl
  | cons e rest ih =>
    obtain ⟨i, c⟩ := e
    simp only [cellsFrom, Bool.and_eq_true, decide_eq_true_eq] at h
    rw [List.filter_cons]
    split
    · simp only [cellsFrom, Bool.and_eq_true, decide_eq_true_eq]
      exact ⟨h.1, ih h.2⟩
    · exact cellsFrom_mono (ih h.2) (by omega)

/-! ### Operations on memory -/

/-- The three parts of the canonical form. -/
theorem Mem.wf_iff (m : Mem) :
    m.wf = true ↔ cellsFrom 0 m.cells = true ∧ natsFrom 0 m.full = true ∧ natsFrom 0 m.poison = true := by
  simp [Mem.wf, and_assoc]

theorem Mem.setByte_wf {m : Mem} (a : Nat) (b : Byte) (h : m.wf = true) : (m.setByte a b).wf = true := by
  rw [Mem.wf_iff] at h ⊢
  exact ⟨putCell_wf a b h.1 (Nat.zero_le a), h.2⟩

theorem Mem.setFull_wf {m : Mem} (w : Nat) (b : Bool) (h : m.wf = true) : (m.setFull w b).wf = true := by
  rw [Mem.wf_iff] at h ⊢
  refine ⟨h.1, ?_, h.2.2⟩
  unfold Mem.setFull
  cases b
  · exact delNat_wf w h.2.1
  · exact putNat_wf w h.2.1 (Nat.zero_le w)

theorem Mem.setPsn_wf {m : Mem} (w : Nat) (b : Bool) (h : m.wf = true) : (m.setPsn w b).wf = true := by
  rw [Mem.wf_iff] at h ⊢
  refine ⟨h.1, h.2.1, ?_⟩
  unfold Mem.setPsn
  cases b
  · exact delNat_wf w h.2.2
  · exact putNat_wf w h.2.2 (Nat.zero_le w)

theorem Mem.putBytes_wf {m : Mem} (w : Nat) (k : BitVec 8) (v : Word) (i n : Nat) (h : m.wf = true) :
    (m.putBytes w k v i n).wf = true := by
  induction n generalizing m i with
  | zero => exact h
  | succ n ih =>
    unfold Mem.putBytes
    split
    · exact ih _ (Mem.setByte_wf _ _ h)
    · exact ih _ h

theorem Mem.write_wf {m : Mem} (w : Nat) (k : BitVec 8) (v : Word) (p : Bool) (h : m.wf = true) :
    (m.write w k v p).wf = true := by
  have hb := Mem.putBytes_wf w k v 0 8 h
  unfold Mem.write
  simp only
  split
  · exact Mem.setPsn_wf _ _ hb
  · split
    · exact Mem.setPsn_wf _ _ hb
    · exact hb

theorem Mem.writeWord_wf {m : Mem} (w : Nat) (v : Word) (p : Bool) (h : m.wf = true) : (m.writeWord w v p).wf = true :=
  Mem.write_wf w _ v p h

theorem foldl_wf {α : Type} (g : Mem → α → Mem) (hg : ∀ m x, m.wf = true → (g m x).wf = true) (xs : List α) {m : Mem}
    (h : m.wf = true) : (xs.foldl g m).wf = true := by
  induction xs generalizing m with
  | nil => exact h
  | cons x rest ih => exact ih (hg m x h)

theorem Mem.putWords_wf {m : Mem} (a : Nat) (ws : List Word) (h : m.wf = true) : (m.putWords a ws).wf = true :=
  foldl_wf _ (fun _ _ hm => Mem.writeWord_wf _ _ _ hm) _ h

theorem Mem.clear_wf {m : Mem} (lo hi : Nat) (h : m.wf = true) : (m.clear lo hi).wf = true := by
  rw [Mem.wf_iff] at h ⊢
  exact ⟨filter_cells_wf _ h.1, filter_nats_wf _ h.2.1, filter_nats_wf _ h.2.2⟩

theorem foldl_putNat_wf (ys : List Nat) {xs : List Nat} (h : natsFrom 0 xs = true) :
    natsFrom 0 (ys.foldl putNat xs) = true := by
  induction ys generalizing xs with
  | nil => exact h
  | cons y rest ih => exact ih (putNat_wf y h (Nat.zero_le y))

theorem foldl_putCell_wf (ys : List Host.Cell) {cs : List Host.Cell} (h : cellsFrom 0 cs = true) :
    cellsFrom 0 (ys.foldl (fun cs c => putCell cs c.1 c.2) cs) = true := by
  induction ys generalizing cs with
  | nil => exact h
  | cons y rest ih => exact ih (putCell_wf y.1 y.2 h (Nat.zero_le y.1))

theorem Mem.overlay_wf {m : Mem} (sub : Mem) (h : m.wf = true) : (m.overlay sub).wf = true := by
  rw [Mem.wf_iff] at h ⊢
  exact ⟨foldl_putCell_wf _ h.1, foldl_putNat_wf _ h.2.1, foldl_putNat_wf _ h.2.2⟩

theorem Mem.only_wf {m : Mem} (g : Nat → Bool) (h : m.wf = true) : (m.only g).wf = true := by
  rw [Mem.wf_iff] at h ⊢
  exact ⟨filter_cells_wf _ h.1, filter_nats_wf _ h.2.1, filter_nats_wf _ h.2.2⟩

theorem BEntry.apply_wf {m : Mem} (e : BEntry) (h : m.wf = true) : (e.apply m).wf = true := by
  refine foldl_wf _ (fun m w hm => ?_) _ h
  split
  · exact hm
  · exact Mem.write_wf _ _ _ _ hm

/-! ### Reading what was written -/

theorem Mem.byte_setByte_self {m : Mem} (a : Nat) (b : Byte) (h : m.wf = true) : (m.setByte a b).byte a = b :=
  getCell_putCell_self a b ((Mem.wf_iff m).mp h).1

theorem Mem.byte_setByte_ne (m : Mem) {a x : Nat} (b : Byte) (h : x ≠ a) : (m.setByte a b).byte x = m.byte x :=
  getCell_putCell_ne b h

@[simp] theorem Mem.byte_setFull (m : Mem) (w : Nat) (b : Bool) (a : Nat) : (m.setFull w b).byte a = m.byte a := rfl

@[simp] theorem Mem.byte_setPsn (m : Mem) (w : Nat) (b : Bool) (a : Nat) : (m.setPsn w b).byte a = m.byte a := rfl

/-- Bytes of a word put in leave every byte outside the ones put. -/
theorem Mem.byte_putBytes_out (m : Mem) (w : Nat) (k : BitVec 8) (v : Word) (i n : Nat) {x : Nat}
    (h : x < 8 * w + i ∨ 8 * w + i + n ≤ x) : (m.putBytes w k v i n).byte x = m.byte x := by
  induction n generalizing m i with
  | zero => rfl
  | succ n ih =>
    unfold Mem.putBytes
    rw [ih _ (i + 1) (by omega)]
    split
    · exact Mem.byte_setByte_ne _ _ (by omega)
    · rfl

/-- A byte of a word put in reads as the value's byte where the mask names it, and as before otherwise. -/
theorem Mem.byte_putBytes_in {m : Mem} (w : Nat) (k : BitVec 8) (v : Word) (i n j : Nat) (hm : m.wf = true) (hi : i ≤ j)
    (hj : j < i + n) :
    (m.putBytes w k v i n).byte (8 * w + j) = if k.getLsbD j then byteOf v j else m.byte (8 * w + j) := by
  induction n generalizing m i with
  | zero => omega
  | succ n ih =>
    unfold Mem.putBytes
    by_cases hij : j = i
    · subst hij
      rw [Mem.byte_putBytes_out _ _ _ _ _ _ (by omega)]
      split
      · exact Mem.byte_setByte_self _ _ hm
      · rfl
    · by_cases hk : k.getLsbD i
      · rw [if_pos hk, ih (i + 1) (Mem.setByte_wf _ _ hm) (by omega) (by omega), Mem.byte_setByte_ne m _ (by omega)]
      · rw [if_neg hk, ih (i + 1) hm (by omega) (by omega)]

/-- The bytes after a write do not depend on the poison of its data. -/
theorem Mem.byte_write (m : Mem) (w : Nat) (k : BitVec 8) (v : Word) (p : Bool) (x : Nat) :
    (m.write w k v p).byte x = (m.putBytes w k v 0 8).byte x := by
  unfold Mem.write
  simp only
  split
  · rfl
  · split <;> rfl

/-- A write leaves every byte outside its word. -/
theorem Mem.byte_write_out (m : Mem) (w : Nat) (k : BitVec 8) (v : Word) (p : Bool) {x : Nat}
    (h : x < 8 * w ∨ 8 * w + 8 ≤ x) : (m.write w k v p).byte x = m.byte x := by
  rw [Mem.byte_write]
  exact Mem.byte_putBytes_out m w k v 0 8 (by omega)

/-- A byte of the word written. -/
theorem Mem.byte_write_in {m : Mem} (w : Nat) (k : BitVec 8) (v : Word) (p : Bool) {j : Nat} (hm : m.wf = true) (hj : j < 8) :
    (m.write w k v p).byte (8 * w + j) = if k.getLsbD j then byteOf v j else m.byte (8 * w + j) := by
  rw [Mem.byte_write]
  exact Mem.byte_putBytes_in w k v 0 8 j hm (Nat.zero_le j) (by omega)

/-- A whole word reads as it was written. -/
theorem Mem.word_writeWord_self {m : Mem} (w : Nat) (v : Word) (p : Bool) (hm : m.wf = true) :
    (m.writeWord w v p).word w = v := by
  have hb : ∀ j < 8, (m.writeWord w v p).byte (8 * w + j) = byteOf v j := fun j hj => by
    unfold Mem.writeWord
    rw [Mem.byte_write_in w _ v p hm hj, if_pos]
    interval_cases j <;> rfl
  unfold Mem.word
  rw [hb 7 (by omega), hb 6 (by omega), hb 5 (by omega), hb 4 (by omega), hb 3 (by omega), hb 2 (by omega),
    hb 1 (by omega), show 8 * w = 8 * w + 0 from rfl, hb 0 (by omega)]
  unfold byteOf
  ext i hi
  simp only [BitVec.getElem_append, BitVec.getElem_extractLsb']
  repeat' split
  all_goals simp only [← BitVec.getLsbD_eq_getElem]; congr 1; omega

/-- A word written leaves every other. -/
theorem Mem.word_write_ne (m : Mem) {w x : Nat} (k : BitVec 8) (v : Word) (p : Bool) (h : x ≠ w) :
    (m.write w k v p).word x = m.word x := by
  unfold Mem.word
  have hb : ∀ j < 8, (m.write w k v p).byte (8 * x + j) = m.byte (8 * x + j) :=
    fun j hj => Mem.byte_write_out m w k v p (by omega)
  rw [hb 7 (by omega), hb 6 (by omega), hb 5 (by omega), hb 4 (by omega), hb 3 (by omega), hb 2 (by omega),
    hb 1 (by omega), show 8 * x = 8 * x + 0 from rfl, hb 0 (by omega)]

/-! ### BAR2 (R383) -/

theorem Mem.bar2Put_wf {m : Mem} (a : Nat) (bs : List Byte) (h : m.wf = true) : (m.bar2Put a bs).wf = true := by
  induction bs generalizing m a with
  | nil => exact h
  | cons b rest ih =>
    simp only [Mem.bar2Put]
    split
    · exact ih _ (Mem.setByte_wf _ _ h)
    · exact ih _ h

/-- Bytes put from an address on: those below the end of HBM are there, every other byte is as before. -/
theorem Mem.byte_bar2Put {m : Mem} (a : Nat) (bs : List Byte) (x : Nat) (h : m.wf = true) :
    (m.bar2Put a bs).byte x =
      if a ≤ x ∧ x < a + bs.length ∧ x < bar2End then bs.getD (x - a) 0 else m.byte x := by
  induction bs generalizing m a with
  | nil => simp [Mem.bar2Put]; omega
  | cons b rest ih =>
    have hw : (if a < bar2End then m.setByte a b else m).wf = true := by
      split
      · exact Mem.setByte_wf _ _ h
      · exact h
    rw [Mem.bar2Put, ih _ hw]
    by_cases hx : x = a
    · subst hx
      by_cases he : x < bar2End
      · simp [he, Mem.byte_setByte_self _ _ h]
      · simp [he]
    · have hm : (if a < bar2End then m.setByte a b else m).byte x = m.byte x := by
        split
        · exact Mem.byte_setByte_ne _ _ hx
        · rfl
      rw [hm]
      have h1 : (a + 1 ≤ x ∧ x < a + 1 + rest.length ∧ x < bar2End) ↔
          (a ≤ x ∧ x < a + (b :: rest).length ∧ x < bar2End) := by
        simp only [List.length_cons]
        omega
      by_cases hc : a ≤ x ∧ x < a + (b :: rest).length ∧ x < bar2End
      · rw [if_pos (h1.2 hc), if_pos hc]
        obtain ⟨n, rfl⟩ : ∃ n, x = a + 1 + n := ⟨x - (a + 1), by omega⟩
        rw [show a + 1 + n - (a + 1) = n by omega, show a + 1 + n - a = n + 1 by omega]
        simp
      · rw [if_neg (mt h1.1 hc), if_neg hc]

/-- Memory at reset is canonical. -/
theorem reset_mem_wf : State.reset.mem.wf = true := rfl

end Sys2Proof.Machine
end

