-- ==== Sys2Proof/Tests/Slice0.lean ====
section
/-! SUPPORT. Tests: ill-formed words that each check refuses, words written out from the manual's encodings, single steps on
small states with results that the manual states, and for each statement a state that meets its hypotheses. -/

namespace Sys2Proof.Tests

open Sys2Proof Sys2Proof.Machine

set_option maxRecDepth 100000
set_option Elab.async false

/-! ### Helpers -/

/-- Fields without guards, from D, A, B and MD. -/
def fields (d : Dst) (a b : Src) (md : BitVec 3) : Fields := ⟨0, 0, 0, 0, false, 0, 0, d, a, b, false, 0, false, md⟩

/-- A machine in which an instruction stands ready in slot 0 of a pool of tile 0, and is in focus. -/
def ready (p : Pool) (o : Op) (f : Fields) : State :=
  { State.reset.withSlot p (encodeFields o f) with focus := ⟨0, p, 0⟩ }

/-- The next state of an outcome. -/
def nextOf : Host.Outcome State Fault Refusal → Option State
  | .next t => some t
  | _ => none

/-- Operands that the shape of an opcode admits. -/
def shapeFields (o : Op) (md : BitVec 3) : Fields :=
  match o.shape with
  | .a => fields (.wr 1) (.inp 0) (.inp 1) md
  | .b => fields (.wr 1) (.inp 0) (.imm 0) md
  | .c => fields (.wr 1) (.inp 0) (.inp 1) md
  | .d => fields (.wr 1) (.inp 0) (.inp 1) md
  | .e => fields .none (.imm 0) (.imm 0) md
  | .f => fields .none (.inp 0) (.inp 1) md
  | .g => fields .none (.inp 0) (.imm 0) md
  | .h => fields (.areg 1) (.inp 0) (.inp 1) md
  | .i => fields (.areg 1) (.inp 0) (.imm 0) md
  | .j => fields (.pred 1) (.imm 2) (.imm 3) md
  | .k => fields (.pred 1) (.imm 0) (.imm 0) md
  | .l => fields (.out 0) (.inp 0) (.inp 1) md
  | .m => fields (.out 0) (.inp 0) (.imm 0) md
  | .n => fields .none (.inp 0) (.imm 0) md
  | .q => fields (.pred 1) (.inp 0) (.imm 0) md
  | .s => fields (.wr 1) (.inp 0) (.inp 1) md
  | .t => fields (.pred 1) (.inp 0) (.inp 1) md

/-- Operands that the opcode admits as well. -/
def operands (o : Op) (md : BitVec 3) : Fields :=
  let f := shapeFields o md
  match o with
  | .emit => { f with d := .out 0 }
  | .tagset => { f with d := .out 0 }
  | .smup => { f with b := if md = 1 then .inp 1 else .imm 0 }
  | .smrg => { f with b := .imm 0 }
  | .smrgOrd => { f with b := .imm 0 }
  | .topki => { f with b := if md.toNat < 2 then .inp 1 else .imm 0 }
  | .ldch => { f with a := .areg 2 }
  | .dhpushJoin => { f with b := .imm 0 }
  | .mxrow => { f with d := .out 0, b := .imm 0 }
  | .gremit => { f with d := .out 0 }
  | .agrd => { f with d := .out 0 }
  | .agch => { f with d := .out 0 }
  | .wcnt => { f with a := .imm 0 }
  | .wcntBind => { f with d := .none, b := .imm 0 }
  | _ => f

/-- A machine in which an opcode stands ready with those operands. -/
def readyBy (p : Pool) (o : Op) (md : BitVec 3) : State := ready p o (operands o md)

/-- Its trigger holds. -/
def fires (p : Pool) (o : Op) (md : BitVec 3) : Bool := (readyBy p o md).trigger ⟨0, p, 0⟩ o (operands o md)

/-- An empty channel on the die. -/
def chan (src : ChanSrc) (dst : ChanDst) : Chan := ⟨src, dst, 0, 0, false, [], 0, 0, [], [], [], [], 0, 0⟩

/-- A placed launch of job 0 with one unit, its block and a region of one tile. -/
def launch0 : Launch := ⟨0, [4, 0, 0, 1, 0, 0, 0, 0, 0, 0, 0, 0, 0, 0, 0, 0], 0, .placed, none, false, 0, 0, 0, none, [], 0, [], none, [], false⟩
def block0 : Block := ⟨0, 0, 0, 0, 0, 0, 0, (0, 0, 0), 0, [], [], 0, none, none, false⟩
def region0 : Region := Region.fresh ⟨0, 0, 0⟩ 0 0

/-- That launch with its block in its region, resident on tile 0. -/
def placed (s : State) : State :=
  { s with
    launches := [(0, launch0)]
    blocks := [(0, block0)]
    regions := [(0, { region0 with blocks := [0], resident := some 0 })]
    tiles := [(0, { s.tile 0 with region := some 0, block := some 0, gated := false })] }

/-- One token at an input of a pool. -/
def feed (s : State) (p : Pool) (i : Nat) (t : Tok) : State := s.modPool 0 p fun x =>
  { x with ins := x.ins.set i { x.inp i with queue := [t] } }

/-- A data token with one word in every lane. -/
def wide (w : Word) : Tok := ⟨Lanes.ofFn fun _ => w, 0, 0, false, 0xFF, 0, 1, 0⟩

/-- An instruction of a pool with the words `a` and `b` as its operands. -/
def given (p : Pool) (o : Op) (md : BitVec 3) (a b : Word) : State := feed (feed (readyBy p o md) p 0 (wide a)) p 1 (wide b)

/-- It fires on a state, with a header, and its operands are those words. -/
def operandsAre (s : State) (o : Op) (md : BitVec 3) (a b : Word) : Bool :=
  let c := s.seen o (operands o md)
  s.trigger s.focus o (operands o md) && c.header.isOk && c.intA.toOption == some a && c.intB.toOption == some b

/-- SPEC is accepted. -/
def specified (s : State) : State := { s with host := { s.host with accept := [2, 0, 0, 0] } }

/-! ### Ill-formed terms, one for each check (R111, R96 to R101) -/

theorem test_wf_accepts : wfOp .pe .iadd (fields (.out 0) (.take 3) (.const 0) 0) = true := by decide
theorem test_wf_unassigned : firstReject .pe .agset (fields .none (.imm 0) (.imm 0) 0) = some .unassigned := by decide
theorem test_wf_pv_without_pm :
    firstReject .pe .nop { fields .none (.imm 0) (.imm 0) 0 with pm := 2, pv := 3 } = some .pvWithoutPm := by decide
theorem test_wf_unused_test :
    firstReject .pe .nop { fields .none (.imm 0) (.imm 0) 0 with tk := 1 } = some .unusedTestOrUpdate ∧
    firstReject .pe .nop { fields .none (.imm 0) (.imm 0) 0 with pi := 1 } = some .unusedTestOrUpdate := by decide
theorem test_wf_tests_switch :
    firstReject .pe .mov { fields (.out 0) (.inp 0) (.imm 0) 0 with te := true, tk := 6 } = some .testsSwitch := by decide
theorem test_wf_never_admitted :
    firstReject .pe .iadd { fields (.wr 0) (.inp 0) (.imm 0) 0 with te := true, tk := 1 } = some .neverAdmitted := by decide
theorem test_wf_illegal_destination : decode .pe 0x0000000006483800 = .error .illegalDestination := by decide
theorem test_wf_shape : firstReject .pe .iadd (fields (.pred 0) (.rd 0) (.rd 1) 0) = some .shape := by decide
theorem test_wf_unused_field : firstReject .pe .ineg (fields (.wr 0) (.rd 0) (.rd 1) 0) = some .unusedField := by decide
theorem test_wf_narrow_pool : firstReject .mx .mov (fields (.wr 4) (.inp 0) (.imm 0) 0) = some .narrowPool := by decide
theorem test_wf_conflict : firstReject .pe .iadd (fields (.put 2) (.take 2) (.imm 0) 0) = some .conflict := by decide
theorem test_wf_modifier : firstReject .pe .iadd (fields (.wr 2) (.rd 2) (.imm 0) 2) = some .modifier := by decide
theorem test_wf_tile : (Instr.switch 8192).wf .pe = false ∧ (Instr.switch 8191).wf .pe = true ∧
    (Instr.wavefrontSwap 8192).wf .pe = false ∧ (Instr.tileFence 8192).wf .pe = false := by decide
theorem test_wf_link : (Instr.linkUp 12).wf .pe = false ∧ (Instr.linkUp 16).wf .pe = true ∧ (Instr.linkUp 52).wf .pe = false ∧
    (Instr.flitReceive 13 true none true).wf .pe = false ∧ (Instr.retryRequest 52 true 0).wf .pe = false ∧
    (Instr.linkRetrain 12 true [] true).wf .pe = false ∧ (Instr.keyInstall 12 true).wf .pe = false ∧
    (Instr.keySwitch 12 true).wf .pe = false ∧ (Instr.keyRetire 12 true true).wf .pe = false := by decide

/-! ### Words from the manual's encodings -/

/-- R117's listing. -/
theorem test_word_listing_117 : decode .pe 0x0000000005383800 = .ok (.mov (fields (.put 3) (.inp 0) (.imm 0) 0)) ∧
    decode .pe 0x000000010204F000 = .ok (.iadd (fields (.out 0) (.take 3) (.const 0) 0)) := by decide

/-- The table of R218, row by row. -/
theorem test_word_table_218 :
    decode .pe 0x00000001C2082101 = .ok (.fadd (fields (.out 0) (.inp 0) (.inp 1) 1)) ∧
    decode .pe 0x00000001CC292400 = .ok (.fma (fields (.wr 2) (.peek 0) (.peek 0) 0)) ∧
    decode .pe 0x00000001E3203302 = .ok (.fcmp (fields (.pred 2) (.rd 0) (.const 3) 2)) ∧
    decode .pe 0x000000020D40F800 = .ok (.fexp2 (fields (.put 4) (.rd 3) (.imm 0) 0)) ∧
    decode .pe 0x0000000250183001 = .ok (.smup (fields (.wr 1) (.inp 0) (.const 0) 1)) ∧
    decode .pe 0x0000000254187802 = .ok (.smrgOrd (fields (.wr 1) (.inp 1) (.imm 0) 2)) ∧
    decode .pe 0x0000000264590600 = .ok (.gumb (fields (.wr 5) (.peek 0) (.rd 6) 0)) ∧
    decode .pe 0x0000000268383001 = .ok (.topki (fields (.wr 3) (.inp 0) (.const 0) 1)) ∧
    decode .pe 0x000000026E00F802 = .ok (.tkout (fields (.out 0) (.rd 3) (.imm 0) 2)) ∧
    decode .pe 0x0000000272182100 = .ok (.argmc (fields (.out 1) (.inp 0) (.inp 1) 0)) := by decide

/-- The common block, bit by bit: PM p0, PV p0, IR i1, TE with TC 1 and TK END, MOV, D o2, A i1, update p3 := 1. -/
theorem test_word_common_block :
    decode .ag 0b00000001_00000001_0010_0000_1_01_001_00000001_100010_100001_111000_1_011_1_000 =
      .ok (.mov ⟨1, 1, 2, 0, true, 1, 1, .out 2, .inp 1, .imm 0, true, 3, true, 0⟩) := by decide
/-- Memory: LD 0xA0, D v4, A a2, B #1, MD 1. -/
theorem test_word_memory :
    decode .pe 0b00000000_00000000_0000_0000_0_00_000_10100000_000100_101010_111001_0_000_0_001 =
      .ok (.ld (fields (.wr 4) (.areg 2) (.imm 1) 1)) := by decide
/-- Speculation: RATIFY 0xD1, A v0, B v1. -/
theorem test_word_speculation :
    decode .pe 0b00000000_00000000_0000_0000_0_00_000_11010001_111000_000000_000001_0_000_0_000 =
      .ok (.ratify (fields .none (.rd 0) (.rd 1) 0)) := by decide
/-- MX: MXZ 0x26 with no operand. -/
theorem test_word_mx :
    decode .mx 0b00000000_00000000_0000_0000_0_00_000_00100110_111000_111000_111000_0_000_0_000 =
      .ok (.mxz (fields .none (.imm 0) (.imm 0) 0)) := by decide
/-- AG: AGSTOP 0x32, A #2. -/
theorem test_word_ag :
    decode .ag 0b00000000_00000000_0000_0000_0_00_000_00110010_111000_111010_111000_0_000_0_000 =
      .ok (.agstop (fields .none (.imm 2) (.imm 0) 0)) := by decide

/-! ### Statements about words, slots and firings -/

theorem witness_DecodeOfEncode : (Instr.iadd (fields (.out 0) (.take 3) (.const 0) 0)).wf .pe = true ∧
    encode (.iadd (fields (.out 0) (.take 3) (.const 0) 0)) = some 0x000000010204F000 ∧
    (Instr.agstop (fields .none (.imm 2) (.imm 0) 0)).wf .ag = true ∧
    encode (.agstop (fields .none (.imm 2) (.imm 0) 0)) = some 0x00000000CB8EB800 := by decide
theorem witness_AcceptedWordsObey : decode .pe 0x000000010204F000 = .ok (.iadd (fields (.out 0) (.take 3) (.const 0) 0)) := by
  decide

theorem witness_StepRunsTheInstruction :
    (({ State.reset with agenda := [.op .acceptLaunch] } : State).takes .acceptLaunch = true) ∧
    (({ State.reset with agenda := [.op .acceptLaunch], trust := { Trust.reset with halted := true } } : State).takes
      .acceptLaunch = false) ∧
    (let s := State.reset.withFetchWord 64 0x00000000038E3800
     let t := { s with agenda := [] }
     s.agenda = [.fire 0 .pe] ∧ t.mayFire 0 .pe = true ∧ (t.lookAt 0 .pe).mayFire 0 .pe = true ∧
      (t.lookAt 0 .pe).choose 0 .pe = some 0 ∧
      ((((t.lookAt 0 .pe).tile 0).pool .pe).slots.getD 0 none) = some 0x00000000038E3800) := by decide +kernel

/-- A pool with one used group over its first four slots. -/
def grouped : State := (readyBy .pe .nop 0).modPool 0 .pe fun x => { x with groups := [⟨3, 0, 3, 0, 0⟩] }

theorem witness_ChosenSlotFires :
    (readyBy .pe .nop 0).choose 0 .pe = some 0 ∧ State.reset.choose 0 .pe = none ∧
    (∀ g ∈ ((State.reset.tile 0).pool .pe).groups, g.w = 0) ∧ grouped.choose 0 .pe = some 0 ∧
    (∃ g ∈ ((grouped.tile 0).pool .pe).groups, g.w ≠ 0) := by decide +kernel

theorem witness_TriggerHoldsWhen : ∀ o ∈ sizedOps ++ bitOps, fires .pe o 0 = true ∧
    (State.reset.trigger ⟨0, .pe, 0⟩ o (operands o 0) = false) := by decide +kernel

theorem witness_FiringIsOneAct : let s := readyBy .pe .mov 0
    (s.seen .mov (operands .mov 0)).t = s.tile (s.seen .mov (operands .mov 0)).k ∧
    (consumed (operands .mov 0)).eff = id ∧ (consumed (operands .mov 0)).after = none ∧
    (consumed (operands .mov 0)).tile = id := ⟨rfl, rfl, rfl, rfl⟩

/-- A result in flight to a destination. -/
def arriving (d : Dst) : State := (ready .pe .mov (fields (.out 0) (.inp 0) (.imm 0) 0)).modPool 0 .pe fun x =>
  { x with inflight := [⟨d, some (oneTok 5 Hdr.none), 0, 0, 0, 0, dstCode d⟩] }

/-- Output 0 of the pool sends on channel 7. -/
def channelled (s : State) : State :=
  { s.modPool 0 .pe fun x => { x with outs := x.outs.set 0 { x.out 0 with chan := some 7 } } with
    chans := [(7, chan (.out 0 .pe 0) (.inp 0 .pe 0))] }

theorem witness_ResultsArrive : (∀ d ∈ ([.wr 3, .put 3, .areg 2, .pred 5, .out 0] : List Dst),
    let s := arriving d
    (∃ e ∈ ((s.tile 0).pool .pe).inflight, e.dst = d ∧ e.val.isSome = true ∧ e.due ≤ (s.core (tileCore 0)).cyc ∧ e.ticket = 0) ∧
      ((s.tile 0).pool .pe).inflight.length = 1 ∧ ((s.tile 0).pool .pe).dead.contains 0 = false ∧
      15 < ((s.tile 0).pool .pe).v.length ∧ 7 < ((s.tile 0).pool .pe).a.length) ∧
    (let s := channelled (arriving (.out 0))
     (((s.tile 0).pool .pe).out 0).chan = some 7 ∧ (Tab.get? s.chans 7).isSome = true) := by decide +kernel

theorem witness_PeUpdateStands :
    ((State.reset.modPool 0 .pe fun x => { x with upd := some (5, true) }).tile 0).pe.upd = some (5, true) := by decide +kernel

/-! ### Statements about the instructions of the PE pool -/

/-- A firing's header can be formed. -/
def headed (p : Pool) (o : Op) (md : BitVec 3) : Bool :=
  ((readyBy p o md).seen o (operands o md)).header.isOk

/-- A firing's sources can be converted to a class. -/
def sourced (o : Op) (md : BitVec 3) (cls : Cls) : Bool :=
  let c := (readyBy .pe o md).seen o (operands o md)
  fires .pe o md && (c.convA cls).isOk && (c.convB cls).isOk && ((o.shape != .c) || (c.convD cls).isOk) && c.header.isOk

theorem witness_ConsumeMoveAndEmit : (∀ o ∈ ([.nop, .drop, .perm, .fence] : List Op), fires .pe o 0 = true) ∧
    (fires .pe .mov 0 = true ∧ headed .pe .mov 0 = true) ∧
    (let f := fields (.out 0) (.inp 0) (.imm 0) 3
     Fires .emit f (ready .pe .emit f) ∧ ((ready .pe .emit f).seen .emit f).header.isOk = true) := by decide +kernel

theorem witness_PredicateWrites : fires .pe .pset 0 = true ∧ fires .pe .pclr 0 = true ∧ fires .pe .plog 0 = true := by
  decide +kernel

/-- A machine whose copy queue 0 of core 0 has a template. -/
def queued (s : State) : State := s.setCore 0 { s.core 0 with queues := [(0, { CopyQueue.reset with bound := some 1 })] }

theorem witness_CountersAndQueuePost :
    (fires .pe .cset 0 = true ∧ headed .pe .cset 0 = true ∧ ((readyBy .pe .cset 0).seen .cset (operands .cset 0)).intA.isOk = true) ∧
    (fires .pe .cinc 0 = true ∧ headed .pe .cinc 0 = true ∧ ((readyBy .pe .cinc 0).seen .cinc (operands .cinc 0)).intB.isOk = true) ∧
    (let s := queued (readyBy .pe .qpost 0)
     Fires .qpost (operands .qpost 0) s ∧ ((s.core 0).queue 0).bound.isSome = true ∧
      (s.seen .qpost (operands .qpost 0)).intB = .ok 0) ∧
    (fires .pe .qpost 0 = true ∧ (((readyBy .pe .qpost 0).core 0).queue 0).bound = none ∧ headed .pe .qpost 0 = true) := by
  decide +kernel

theorem witness_PoolsReportAndStop :
    (fires .pe .trap 0 = true ∧ headed .pe .trap 0 = true) ∧
    (fires .pe .evt 0 = true ∧ ((readyBy .pe .evt 0).seen .evt (operands .evt 0)).header = .ok ⟨255, false, 0⟩ ∧
      (((readyBy .pe .evt 0).tile 0).pool .pe).evts = [] ∧ (readyBy .pe .evt 0).evq.held = []) ∧
    fires .pe .yield 0 = true ∧ fires .pe .halt 0 = true := by decide +kernel

theorem witness_Select : fires .pe .sel 0 = true ∧ headed .pe .sel 0 = true := by decide +kernel

theorem witness_Steering : (fires .pe .steer 1 = true ∧ headed .pe .steer 1 = true ∧
      ((readyBy .pe .steer 1).seen .steer (operands .steer 1)).a.kind = 0) ∧
    (let f : Fields := { operands .steer 1 with te := true, tk := 1 }
     Fires .steer f (ready .pe .steer f) ∧ ((ready .pe .steer f).seen .steer f).a.kind = 1) := by decide +kernel

theorem witness_MergesFansAndJoins :
    (let s := readyBy .pe .merge 2
     fires .pe .merge 2 = true ∧ ((s.seen .merge (operands .merge 2)).x.inp 2).head.isSome = true ∧
      ((s.seen .merge (operands .merge 2)).x.inp 1).head.isSome = true) ∧
    (let f : Fields := { operands .merge 2 with te := true, tc := 2, tk := 1 }
     let s := ready .pe .merge f
     let c := s.seen .merge f
     Fires .merge f s ∧ ∃ k, (c.x.inp 2).head = some k ∧ (c.headerOf [c.a, c.b, k]).isOk = true) ∧
    (fires .pe .dup 1 = true ∧ headed .pe .dup 1 = true) ∧
    (fires .pe .barj 0 = true ∧ (readyBy .pe .barj 0).joined 0 .pe = [0]) ∧
    (let s := channelled ((readyBy .pe .req 0).modPool 0 .pe fun x => { x with
       ins := x.ins.set 0 { x.inp 0 with chan := some 7 } })
     Fires .req (operands .req 0) s ∧ (((s.tile 0).pool .pe).inp 0).chan = some 7 ∧
      (s.seen .req (operands .req 0)).intA.isOk = true) := by decide +kernel

theorem witness_LanesAndHeaders :
    (∀ o ∈ ([.lperm, .lrot, .lbc, .lins, .lext] : List Op), fires .pe o 0 = true ∧ headed .pe o 0 = true ∧ 0 ∈ o.mds) ∧
    (let f (md : BitVec 3) := fields (.out 0) (.inp 0) (.inp 1) md
     ∀ md ∈ ([0, 1, 2, 3] : List (BitVec 3)), Fires .tagset (f md) (ready .pe .tagset (f md))) ∧
    (let f := fields (.out 0) (.inp 0) (.imm 7) 2
     Fires .tagset f (ready .pe .tagset f) ∧ (laneRead ((ready .pe .tagset f).seen .tagset f).b 0).toNat % 16 = 7) ∧
    fires .pe .kindp 0 = true := by decide +kernel

theorem witness_SizedIntegerResults : ∀ o ∈ sizedOps, sourced o 0 .int = true ∧ 0 ∈ o.mds := by decide +kernel
theorem witness_BitResults : ∀ o ∈ bitOps, sourced o 0 .int = true ∧ 0 ∈ o.mds := by decide +kernel
theorem witness_Compares : sourced .icmp 2 .int = true ∧ sourced .cmpa 3 .int = true ∧ sourced .plane 0 .int = true ∧
    (let f := fields (.pred 1) (.inp 0) (.inp 1) 2
     Fires .icmp f (ready .pe .icmp f) ∧ Fires .cmpa f (ready .pe .cmpa f)) := by decide +kernel
theorem witness_AddressRegisters : ∀ o ∈ ([.mova, .adda, .wrapa] : List Op), fires .pe o 0 = true ∧
    headed .pe o 0 = true ∧ ((readyBy .pe o 0).seen o (operands o 0)).intA.isOk = true ∧
    ((readyBy .pe o 0).seen o (operands o 0)).intB.isOk = true := by decide +kernel
theorem witness_FloatResults : ∀ o ∈ floatOps, sourced o 0 .wf = true ∧ 0 ∈ o.mds := by decide +kernel
theorem witness_FloatSelections : sourced .fmin 0 .wf = true ∧ sourced .fmax 0 .wf = true ∧ sourced .fclamp 0 .wf = true ∧
    sourced .fcmp 5 .wf = true := by decide +kernel

/-- A firing can read A as one class and B as another. -/
def reads (o : Op) (md : BitVec 3) (a b : Cls) : Bool :=
  let c := (readyBy .pe o md).seen o (operands o md)
  fires .pe o md && (c.convA a).isOk && (c.convB b).isOk && c.header.isOk

theorem witness_ScaleAndParts : reads .fscl 0 .wf .int = true ∧ reads .fxp 0 .wf .wf = true ∧ reads .fmant 0 .wf .wf = true := by
  decide +kernel
theorem witness_Transcendentals : ∀ o ∈ ([.frcp, .frsq, .fsqrt, .fexp2, .flog2, .fexp, .ftanh] : List Op),
    sourced o 0 .wf = true := by decide +kernel

/-- A machine with the token `t` at both inputs. -/
def fed (o : Op) (md : BitVec 3) (t : Tok) : State := (readyBy .pe o md).modPool 0 .pe fun x =>
  { x with ins := x.ins.map fun i => { i with queue := if i.queue.isEmpty then [] else [t] } }

/-- It fires on that token, read as a class. -/
def fedReads (o : Op) (md : BitVec 3) (t : Tok) (cls : Cls) : Bool :=
  let s := fed o md t
  let c := s.seen o (operands o md)
  s.trigger s.focus o (operands o md) && (c.convA cls).isOk && c.header.isOk

/-- A token of a FMT with all lanes zero, KIND DATA. -/
def zeros (fmt : BitVec 4) : Tok := ⟨Lanes.zero, 0, 0, false, 0xFF, 0, fmt, 0⟩

theorem witness_Conversions : reads .cvtif 0 .int .int = true ∧ reads .cvtfi 0 .wf .wf = true ∧ reads .qblk 0 .wf .wf = true ∧
    fedReads .dqblk 0 (zeros 4) .aligned = true ∧ reads .fmtq 0 .wf .wf = true := by decide +kernel
theorem witness_Reductions : reads .rsum 0 .wf .wf = true ∧ reads .rmax 0 .wf .wf = true ∧ reads .rmin 0 .wf .wf = true ∧
    reads .rargmx 0 .wf .wf = true ∧ fedReads .rargmx 0 (zeros 6) .vid = true := by decide +kernel

theorem witness_SoftmaxStates : (∀ md ∈ ([0] : List (BitVec 3)), sourced .smup md .wf = true) ∧
    (let t : Tok := { zeros 0 with mask := 0 }
     let s := fed .smup 1 t
     let c := s.seen .smup (operands .smup 1)
     s.trigger s.focus .smup (operands .smup 1) = true ∧ (c.convA .wf).isOk = true ∧ (c.convB .wf).isOk = true ∧ c.a.mask = 0) ∧
    sourced .smrg 0 .wf = true ∧ (Soft.of (zeros 0)).isNan = false ∧ (Soft.of { zeros 0 with lanes := Lanes.ofList [wfNaN, wfNaN, 0, 0, 0] }).isNan = true ∧
    (let c := (readyBy .pe .smrgOrd 2).seen .smrgOrd (operands .smrgOrd 2)
     fires .pe .smrgOrd 2 = true ∧ c.ordMatch.isSome = true ∧ (c.convD .wf).isOk = true) ∧
    reads .smfin 0 .wf .wf = true := by decide +kernel

theorem witness_Sampling : (fires .pe .hash 0 = true ∧ headed .pe .hash 0 = true) ∧ reads .gumb 0 .wf .int = true ∧
    (reads .topki 1 .wf .int = true ∧ fires .pe .topki 0 = true) ∧
    (fedReads .topki 2 (zeros 6) .vid = true) ∧ fedReads .tkout 2 (zeros 6) .vid = true ∧
    fedReads .argmc 0 (zeros 6) .vid = true := by decide +kernel

/-! ### Statements about memory -/

/-- An instruction fires on heads that are not poisoned, with a header. -/
def clean (p : Pool) (o : Op) (md : BitVec 3) : Bool :=
  let c := (readyBy p o md).seen o (operands o md)
  fires p o md && c.header.isOk && !c.a.psn && !c.b.psn

theorem witness_OnChipRequests :
    (∀ o ∈ ([.ld, .ldf, .lde, .feq, .ldch, .ldx, .lls, .st, .stf, .ste, .stx, .sls] : List Op), clean .pe o 0 = true) ∧
    clean .pe .ld 4 = true ∧ clean .pe .st 4 = true ∧ 8 ≤ spaceWords 0 ∧
    (let f := fields .none (.inp 0) (.imm 1) 0
     Fires .feclr f (ready .pe .feclr f) ∧ ((ready .pe .feclr f).seen .feclr f).b.psn = false ∧
      (laneRead ((ready .pe .feclr f).seen .feclr f).b 0).toNat = 1) ∧
    clean .pe .satom 0 = true ∧ (((readyBy .pe .satom 0).seen .satom (operands .satom 0)).convB .int).isOk = true := by
  decide +kernel

theorem witness_AddressFaults :
    (let s := fed .ld 0 { zeros 1 with psn := true }
     Fires .ld (operands .ld 0) s ∧ (s.seen .ld (operands .ld 0)).header.isOk = true ∧
      (s.seen .ld (operands .ld 0)).a.psn = true) ∧
    (let f := fields (.wr 1) (.imm 0) (.inp 1) 0
     let s := fed .ld 0 { zeros 1 with psn := true }
     let t := { s with tiles := s.tiles }
     Fires .ld f t ∧ (t.seen .ld f).b.psn = true ∧ (t.seen .ld f).a.psn = false) ∧
    (let f := fields (.wr 1) (.inp 0) (.imm 0) 0
     let s := fed .ld 0 { zeros 1 with lanes := Lanes.ofFn fun _ => BitVec.ofNat 64 (spaceWords 0 - 7) }
     Fires .ld f s ∧ (s.seen .ld f).a.psn = false ∧ (laneRead (s.seen .ld f).a 0).toNat = spaceWords 0 - 7) ∧
    (let f := fields (.wr 1) (.inp 0) (.imm 1) 0
     Fires .ld f (ready .pe .ld f) ∧ (laneRead ((ready .pe .ld f).seen .ld f).b 0).toNat = 1) := by decide +kernel

/-- A request with one access of the bank of tile 0, at the head of the pool's places. -/
def asking (op : Op) (beat : Bool) (full : List Nat) (wait : Option Nat) : State :=
  { State.reset.modPool 0 .pe fun x => { x with reqs :=
      [⟨op, 0, 0, 0, false, zeros 1, zeros 1, .wr 1, none, [⟨0, 0, 0⟩], beat, zeros 1, 1, 0, wait, none, 0, none⟩] } with
    mem := ⟨[], full, []⟩ }

/-- The words of the beat at the start of the bank of tile 0. -/
def bankBeat : List Nat := (List.range 8).map fun i => flatWord 0 ⟨0, 0, 0⟩ + i

/-- The turn of that request has come. -/
def itsTurn (s : State) : Bool :=
  match (s.tile 0).pe.reqs with
  | [r] => r.waiting.isNone && r.accs.all (fun x => !s.orderedBehind 0 r x) && !s.standsHeld 0 r && !s.wakeDue && s.mem.wf
  | _ => false

/-- The words of its lanes are held by no bank. -/
def unheld (s : State) : Bool := (List.range 8).all fun i => !s.wordHeld (flatWord 0 ⟨0, 0, 0⟩ + i)

/-- That request in a lane slice. -/
def inSlice (s : State) : State := s.modPool 0 .pe fun x => { x with reqs := x.reqs.map fun r => { r with accs := [⟨0, 4, 0⟩] } }

/-- The engine of tile 0 is busy, so that its bank holds writes. -/
def bankBusy (s : State) : State := s.setTile 0 { s.tile 0 with eng := { (s.tile 0).eng with work := some (.zeroing, 5) } }

theorem witness_AccessesArePerformed :
    (itsTurn (asking .ld true [] none) = true ∧
      ∀ i < 8, (asking .ld true [] none).kvSeen 0 (flatWord 0 ⟨0, 0, 0⟩ + i - chipBase 0 / 8) 0 = true) ∧
    (itsTurn (asking .lde true bankBeat none) = true ∧ (asking .lde true bankBeat none).mem.wf = true ∧
      ∀ i < 8, (asking .lde true bankBeat none).mem.isFull (flatWord 0 ⟨0, 0, 0⟩ + i) = true) ∧
    (itsTurn (asking .ldf true [] none) = true ∧ (asking .ldf true [] none).mem.isFull (flatWord 0 ⟨0, 0, 0⟩) = false) ∧
    (let s := asking .lde true bankBeat (some 0)
     ∀ r ∈ (s.tile 0).pe.reqs, r.waiting = some 0 ∧ ∀ o ∈ s.rivals 0 r, 0 ≤ o) ∧
    (itsTurn (asking .ste true [] none) = true ∧ ∀ i < 8, (asking .ste true [] none).wordHeld (flatWord 0 ⟨0, 0, 0⟩ + i) = false) ∧
    (itsTurn (asking .stf true bankBeat none) = true) ∧ itsTurn (asking .satom false [] none) = true := by decide +kernel

theorem witness_AccessTurns :
    (∀ x ∈ ([(.ld, true), (.ld, false), (.ldx, false), (.ldch, true), (.st, true), (.st, false), (.stx, false), (.ste, true),
        (.stf, true), (.feq, true), (.feclr, false), (.satom, false)] : List (Op × Bool)),
      itsTurn (asking x.1 x.2 [] none) = true ∧ unheld (asking x.1 x.2 [] none) = true) ∧
    (∀ o ∈ ([.lls, .sls] : List Op), itsTurn (inSlice (asking o false [] none)) = true) ∧
    (let s := bankBusy (asking .st false [] none)
     itsTurn s = true ∧ bankOf (flatWord 0 ⟨0, 0, 0⟩) = some (0, 0) ∧ s.wordHeld (flatWord 0 ⟨0, 0, 0⟩) = true) ∧
    (let s := asking .stf true [] (some 0)
     unheld s = true ∧ ∀ r ∈ (s.tile 0).pe.reqs, r.waiting = some 0 ∧ ∀ o ∈ s.rivals 0 r, 0 ≤ o) := by decide +kernel

/-- The pool is bound to unit 0 of a placed launch. -/
def bound (s : State) : State := (placed s).modPool 0 .pe fun x => { x with bind := some ⟨0, 0, 0, 0⟩ }

/-- A global memory instruction fires, not poisoned, with the unit that TSGET bound. -/
def boundTo (o : Op) (md : BitVec 3) : Bool :=
  let s := bound (readyBy .pe o md)
  let c := s.seen o (operands o md)
  s.trigger s.focus o (operands o md) && c.header.isOk && !c.a.psn && !c.b.psn && match s.boundUnit c, c.header with
    | .ok u, .ok h => (c.globalHdr h u).isOk
    | _, _ => false

theorem witness_GlobalAndRowRequests :
    (∀ o ∈ ([.gld, .gst, .gatom] : List Op), boundTo o 0 = true ∧ boundTo o 4 = true) ∧
    (clean .pe .kvrowOpen 1 = true ∧ clean .pe .kvrowPut 2 = true) ∧
    (let f := fields .none (.imm 0) (.imm 1) 0
     Fires .kvrowCfg f (ready .pe .kvrowCfg f) ∧ ((ready .pe .kvrowCfg f).seen .kvrowCfg f).intA = .ok 0 ∧
      ((ready .pe .kvrowCfg f).seen .kvrowCfg f).intB = .ok 1) := by decide +kernel

/-- WF ones in every lane. -/
def one : Tok := { wide wfOne with fmt := 0 }

/-- A partial under the key that follows v1's stands at PE input 0, behind one under another key. -/
def ordered : State := (readyBy .pe .smrgOrd 2).modPool 0 .pe fun x => { x with
  ins := x.ins.set 0 { x.inp 0 with queue := [zeros 0, one] } }

theorem hasKey_of {t : Tok} {m e : ℤ} {q : ℚ} (h1 : isFmtTag t = false)
    (h : (convLanes .wf t).map (fun l => Val.ofWf (l.1.get 4)) = some (.fin m e)) (hq : (m : ℚ) * (2 : ℚ) ^ e = q) :
    HasKey t (.num q) := by
  obtain ⟨l, hl, hv⟩ := Option.map_eq_some_iff.1 h
  exact ⟨h1, l, hl, by rw [hv, ← hq]; rfl⟩

theorem witness_SmrgOrd :
    (let c := ordered.seen .smrgOrd (operands .smrgOrd 2)
     Fires .smrgOrd (operands .smrgOrd 2) ordered ∧ (c.conv none (one) .wf).isOk = true ∧ (c.convD .wf).isOk = true ∧
      (c.headerOf [one, c.d]).isOk = true ∧ (c.x.inp 0).queue = [zeros 0, one]) ∧
    NextKey (ordered.seen .smrgOrd (operands .smrgOrd 2)).d (one) := by
  refine ⟨by decide +kernel, 0, hasKey_of (m := 0) (e := -48) (by decide +kernel) (by decide +kernel) (by norm_num),
    hasKey_of (m := 2 ^ 48) (e := -48) (by decide +kernel) (by decide +kernel) (by norm_num)⟩

/-! ### Statements about system instructions and speculation -/

theorem witness_SystemInstructions :
    (clean .pe .fork 0 = true ∧ operandsAre (given .pe .fork 0 5 0) .fork 0 5 0 = true) ∧ fires .pe .rdv 0 = true ∧
    operandsAre (given .pe .waitwp 0 0 1) .waitwp 0 0 1 = true ∧ fires .pe .imgsync 0 = true ∧
    (let s := placed (given .pe .tsget 0 2 0)
     operandsAre s .tsget 0 2 0 = true ∧ s.launchOf 0 = some launch0 ∧ launch0.unitAt 2 = some 2 ∧
      s.runFinished launch0 2 0 = false) ∧
    (let s := placed (given .pe .tsnew 0 3 0)
     operandsAre s .tsnew 0 3 0 = true ∧ s.launchOf 0 = some launch0 ∧ launch0.unitAt 3 = some 3) ∧
    (∀ n ∈ ([5, 7, 0x10, 0x18, 0x1A, 0x20] : List Nat),
      operandsAre (placed (given .pe .csrr 0 (BitVec.ofNat 64 n) 0)) .csrr 0 (BitVec.ofNat 64 n) 0 = true ∧
        (Csr.ofNum n).isSome = true) ∧
    (operandsAre (given .pe .csrr 0 0xFFF 0) .csrr 0 0xFFF 0 = true ∧ Csr.ofNum 0xFFF = none) ∧
    (let s := bound (given .pe .csrw 0 0x20 9)
     operandsAre s .csrw 0 0x20 9 = true ∧ (s.seen .csrw (operands .csrw 0)).x.bind = some ⟨0, 0, 0, 0⟩ ∧
      ((s.seen .csrw (operands .csrw 0)).globalHdr ⟨0xFF, false, 0⟩ ⟨0, 0, 0, 0⟩).isOk = true ∧
      Tab.get? s.launches 0 = some launch0 ∧ ((launch0.unit 0).run? 0) = none) ∧
    operandsAre (given .pe .csrw 0 5 9) .csrw 0 5 9 = true := by decide +kernel

/-- Generation 1 of job 0 is live at position 6 in the mirror of die 0. -/
def mirrored (s : State) : State :=
  s.setDie 0 { s.die 0 with mirror := [(1, { GenEnt.reset with st := .live, pos := 6, tokid := 3 })] }

/-- A speculation instruction whose operands carry GEN `g`. -/
def underGen (o : Op) (md : BitVec 3) (g : BitVec 8) (b : Word) : State :=
  mirrored (specified (placed (feed (feed (readyBy .pe o md) .pe 0 { wide 0 with gen := g, fmt := 6 }) .pe 1
    { wide b with gen := g })))

/-- It fires, with a header of GEN `g`. -/
def firesUnder (o : Op) (md : BitVec 3) (g : BitVec 8) (b : Word) : Bool :=
  let s := underGen o md g b
  let c := s.seen o (operands o md)
  s.trigger s.focus o (operands o md) && c.header.toOption == some ⟨0xFF, false, g⟩ && c.intB.toOption == some b

theorem witness_SpeculationRequests :
    (∀ o ∈ ([.guess, .ratify] : List Op), firesUnder o 0 0 7 = true ∧ firesUnder o 0 1 7 = true ∧ firesUnder o 0 1 9 = true ∧
      ((underGen o 0 1 7).seen o (operands o 0)).vid.isOk = true ∧ ((underGen o 0 1 7).seen o (operands o 0)).ent 1 =
        { GenEnt.reset with st := .live, pos := 6, tokid := 3 }) ∧
    (specified State.reset).specOn = true ∧ State.reset.specOn = false ∧ firesUnder .genget 0 1 0 = true ∧
    firesUnder .genget 0 0 0 = true ∧ operandsAre (mirrored (placed (given .pe .genget 0 1 0))) .genget 0 1 0 = true ∧
    operandsAre (given .pe .sqreq 0 1 0) .sqreq 0 1 0 = true ∧ firesUnder .dhpush 0 0 0 = true ∧
    inLineage ((underGen .dhpush 0 0 0).seen .dhpush (operands .dhpush 0)).mirror 0 0 = true ∧
    (operandsAre (given .pe .dhpushCfg 1 0x100000000 1) .dhpushCfg 1 0x100000000 1 = true ∧
      (given .pe .dhpushCfg 1 0x100000000 1).domainTaken = false) ∧
    (let s := { given .pe .dhpushJoin 2 5 0 with xmap := [(0, (0x8000000000000000, 0x0000140010000000)),
       (1, (0xC000000000000000, 0x0000140010000000))] }
     s.trigger s.focus .dhpushJoin (operands .dhpushJoin 2) = true ∧ s.domainTaken = false ∧
      (s.seen .dhpushJoin (operands .dhpushJoin 2)).intA = .ok 5 ∧ (s.specEntry 5 0 true).isSome = true ∧
      (s.specEntry 5 0 false).isSome = true) := by decide +kernel

/-- The root with one request for the domain of launch 0. -/
def rooted (q : RootReq) (gens : Tab GenEnt) (heap : List HeapNode) : State :=
  { placed (specified State.reset) with
    root := { Root.reset with
      gens := gens
      heap := heap
      reqs := [q]
      domain := some ⟨0, 0, 0, 0, 0, 3, 10, 0⟩ } }

/-- A request of GEN 0. -/
def request (o : Op) (a0 a1 b0 : Word) : RootReq := ⟨o, 0, 0, 0, 0, 0, a0, a1, b0, 0⟩

theorem witness_RootHandlesRequests :
    (let s := rooted (request .guess wfOne 4 2) [] []
     s.epAt .heap = s.root.log.length ∧ s.root.joined = none ∧ 2 < s.unitsOf 0 ∧ s.root.kids 0 0 2 = [] ∧
      s.root.queued 0 2 = []) ∧
    (let s := rooted (request .sqreq 1 0 0) [(1, { GenEnt.reset with st := .live })] []
     s.epAt .heap = s.root.log.length ∧ (s.root.ent 1).st = .live) ∧
    (rooted (request .dhpushCfg 0x100000000 0 1) [] []).launchOver 0 = false ∧
    (let s := { rooted (request .guess 0 0 0) [] [⟨0, 1, 2, wfOne, 0⟩] with
       root := { Root.reset with
         heap := [⟨0, 1, 2, wfOne, 0⟩]
         domain := some ⟨0, 0, 0, 0, 0, 3, 10, 0⟩ } }
     s.epAt .heap = s.root.log.length ∧ s.specOn = true ∧ s.mem.wf = true ∧
      ∀ i < 8, s.mem.isFull ((⟨0, 0, 0, 0, 0, 3, 10, 0⟩ : Domain).slot 0 + i) = false) := by decide +kernel

/-- A message of the log, which the heap and the mirrors have applied or not. -/
def logged (m : Msg) (mirrors : Bool) : State :=
  { placed State.reset with
    root := { Root.reset with log := [m], frees := [0] }
    epSeq := (.heap, 1) :: if mirrors then (List.range 8).map fun d => (.mirror d, 1) else [] }

/-- Every endpoint has applied it. -/
def heardBy : List (Endpoint × Nat) := (.heap, 1) :: ((List.range 8).map fun d => (.mirror d, 1)) ++
  ((List.range 8).map fun d => (.kv d, 1)) ++ ((List.range 64).map fun i => (.bisque i, 1)) ++
  (List.range 64).map fun i => (.copyQueues i, 1)

theorem epAt_of_mem {s : State} {e : Endpoint} (h : ∀ x ∈ s.epSeq, x.2 = 1) (he : ∃ x ∈ s.epSeq, x.1 = e) : s.epAt e = 1 := by
  unfold State.epAt
  cases hf : s.epSeq.find? fun x => x.1 = e with
  | none => obtain ⟨x, hx, rfl⟩ := he; exact absurd (List.find?_eq_none.1 hf x hx) (by simp)
  | some y => exact h y (List.mem_of_find?_eq_some hf)

/-- A FREE that all have applied. -/
def freed : State :=
  { State.reset with
    root := { Root.reset with log := [⟨.free, 0, [1], none, false, none⟩], frees := [0] }
    epSeq := heardBy }

theorem witness_Frees : freed.root.log[0]? = some ⟨.free, 0, [1], none, false, none⟩ ∧ freed.root.frees.contains 0 = true ∧
    freed.acked 0 = true := by
  have h : ∀ x ∈ freed.epSeq, x.2 = 1 := by
    intro x hx; simp only [freed, heardBy, List.mem_cons, List.mem_append, List.mem_map] at hx; aesop
  have hk (e : Endpoint) (he : ∃ x ∈ freed.epSeq, x.1 = e) : freed.epAt e = 1 := epAt_of_mem h he
  have h1 : freed.epAt .heap = 1 := hk _ ⟨(.heap, 1), by simp [freed, heardBy], rfl⟩
  have h2 : ∀ d < 8, freed.epAt (.mirror d) = 1 := fun d hd => hk _ ⟨(.mirror d, 1), by simp [freed, heardBy, hd], rfl⟩
  have h3 : ∀ d < 8, freed.epAt (.kv d) = 1 := fun d hd => hk _ ⟨(.kv d, 1), by simp [freed, heardBy, hd], rfl⟩
  have h4 : ∀ i < 64, freed.epAt (.bisque i) = 1 := fun i hi => hk _ ⟨(.bisque i, 1), by simp [freed, heardBy, hi], rfl⟩
  have h5 : ∀ i < 64, freed.epAt (.copyQueues i) = 1 := fun i hi => hk _ ⟨(.copyQueues i, 1), by simp [freed, heardBy, hi], rfl⟩
  have h6 : ∀ i < 64, ∀ e ∈ (freed.core i).engs, e.run.all (fun r => !decide (r.tok.tok.gen = 1)) = true := by decide +kernel
  refine ⟨rfl, rfl, ?_⟩
  have hl : freed.root.log[0]? = some ⟨.free, 0, [1], none, false, none⟩ := rfl
  have ht : freed.tiles = [] ∧ freed.chans = [] ∧ freed.frames = [] ∧ freed.root.peers = [] := ⟨rfl, rfl, rfl, rfl⟩
  simp only [State.acked, hl]
  simp +contextual [h1, h2, h3, h4, h5, ht]
  exact h6

theorem witness_MessagesReachEndpoints :
    ∀ k ∈ ([.launch, .ratify, .squash, .free] : List MsgKind),
      (logged ⟨k, 0, [1], some GenEnt.reset, false, none⟩ false).nextMsg (.mirror 0) =
        some ⟨k, 0, [1], some GenEnt.reset, false, none⟩ := by
  decide +kernel

theorem witness_PoolHearsSquash :
    (logged ⟨.squash, 0, [1], none, false, none⟩ true).nextMsg (.pool 0 .pe) = some ⟨.squash, 0, [1], none, false, none⟩ := by
  decide +kernel

/-! ### Statements about the matrix engine -/

/-- The engine of tile 0 idle in a mode. -/
def inMode (n : Nat) (s : State) : State := s.setTile 0 { s.tile 0 with eng := { MxEng.reset with mode := n } }

theorem witness_MatrixInstructions :
    (operandsAre (given .mx .mxcfg 0 0x71F 0) .mxcfg 0 0x71F 0 = true ∧
      operandsAre (given .mx .mxcfg 0 0x20 0) .mxcfg 0 0x20 0 = true) ∧
    (([0, 1, 2] : List Word).all fun a => operandsAre (given .mx .mxmode 0 a 0) .mxmode 0 a 0) = true ∧
    operandsAre (given .mx .mxscb 0 0 32) .mxscb 0 0 32 = true ∧
    (∀ md ∈ ([0, 1, 2] : List (BitVec 3)), (given .mx .mxout md 0 0).trigger ⟨0, .mx, 0⟩ .mxout (operands .mxout md) = true) ∧
    fires .mx .mxz 0 = true ∧ fires .mx .mxacc 0 = true ∧
    (let c := (readyBy .mx .mxacc 0).seen .mxacc (operands .mxacc 0)
     (c.convA .wf).isOk = true ∧ (c.convB .wf).isOk = true ∧ (c.convD .wf).isOk = true) ∧
    operandsAre (given .mx .mxchk 0 0 256) .mxchk 0 0 256 = true ∧
    operandsAre (given .mx .draft 0 0x10040 5) .draft 0 0x10040 5 = true ∧
    operandsAre (given .mx .draftx 0 0x10040 0x1000001000005) .draftx 0 0x10040 0x1000001000005 = true ∧
    (fires .mx .mxrow 0 = true ∧ ((readyBy .mx .mxrow 0).tile 0).eng.mode = 1 ∧
      ∀ x ∈ (((readyBy .mx .mxrow 0).seen .mxrow (operands .mxrow 0)).x.inp 0).queue, x.fmt = 4) ∧
    ((inMode 0 (readyBy .mx .mxrow 0)).trigger ⟨0, .mx, 0⟩ .mxrow (operands .mxrow 0) = true ∧
      ((inMode 0 (readyBy .mx .mxrow 0)).tile 0).eng.mode = 0) := by decide +kernel

/-- A pass of one group of columns and one K-block. -/
def pass0 (phase left : Nat) (bad : Option Nat) : Pass :=
  ⟨1, ⟨0, 0, false, 0, 0⟩, [zeros 4], 0, false, none, 0, false, 0, phase, left, [], [], bad, none, 0⟩

/-- The engine of tile 0 in a machine whose MX output 0 sends on channel 7 and has space. -/
def engaged (e : MxEng) : State :=
  let t := (readyBy .mx .gremit 0).tile 0
  { State.reset with
    tiles := [(0, { t with
      eng := e
      mx := { t.mx with outs := t.mx.outs.set 0 { t.mx.out 0 with chan := some 7 } } })]
    chans := [(7, chan (.out 0 .mx 0) (.inp 0 .pe 0))] }

theorem witness_MatrixSteps :
    (let e := { MxEng.reset with passes := [pass0 0 0 none] }
     (engaged e |>.tile 0).eng.passes = [pass0 0 0 none] ∧ e.heldWrites = [] ∧ (pass0 0 0 none).cfg.kbm1 < 8) ∧
    ((pass0 1 0 none).badScale = none ∧ (pass0 1 0 (some 3)).badBlk = some 3) ∧
    (let s := engaged { MxEng.reset with passes := [pass0 2 0 none] }
     (s.tile 0).mx.run ≠ .faulted ∧ ((s.tile 0).mx.out (pass0 2 0 none).outNum).space = true ∧
      ((s.tile 0).mx.out 0).chan = some 7 ∧ 0 < (s.tile 0).mx.outs.length ∧ (Tab.get? s.chans 7).isSome = true ∧
      inLineage (s.die 0).mirror 0 0 = true) ∧
    ({ MxEng.reset with work := some (.recompute, 0) } : MxEng).heldWrites = [] ∧
    ({ MxEng.reset with work := some (.scrub 0 256 false 0 1, 1) } : MxEng).work = some (.scrub 0 256 false 0 1, 1) := by
  decide +kernel

theorem witness_Grammars :
    operandsAre (given .mx .grld 0 8191 1) .grld 0 8191 1 = true ∧
    (operandsAre (given .mx .grx 0 0 127) .grx 0 0 127 = true ∧
      (((given .mx .grx 0 0 127).seen .grx (operands .grx 0)).convA .wf).isOk = true) ∧
    operandsAre (given .mx .grdepth 0 15 0) .grdepth 0 15 0 = true ∧
    (operandsAre (inMode 2 (given .mx .grrun 0 0 8)) .grrun 0 0 8 = true ∧
      ((inMode 2 (given .mx .grrun 0 0 8)).tile 0).eng.mode = 2) ∧
    operandsAre (feed (readyBy .mx .gremit 0) .mx 0 (wide 8)) .gremit 0 8 0 = true ∧
    ((engaged { MxEng.reset with mode := 2, work := some (.grammar 0 8 1 0 2 [], 1) }).grRun 0 0 8).isOk = false ∧
    (let s := engaged { MxEng.reset with gremit := some ⟨8, 0, false, 0, 0, false⟩ }
     (s.tile 0).eng.gremit = some ⟨8, 0, false, 0, 0, false⟩ ∧ ((s.tile 0).mx.out 0).space = true ∧
      ((s.tile 0).mx.out 0).chan = some 7) := by decide +kernel

/-! ### Statements about streams and copies -/

/-- A block of one run of `n` words that are moved as they are, in cluster SRAM at both ends. -/
def rawBlock (n : Word) (tfmt : Word) : Lanes :=
  ⟨0x2C20000000000000, 0x0000000100000000 ||| n, 1, 0, 0, 0, tfmt <<< 60, 0⟩

/-- The same with a destination at word 16. -/
def rawCopy (n : Word) : Lanes := { rawBlock n 0 with l4 := 0x2C20000000000080 }

/-- Stream 0 of tile 0 changed. -/
def streaming (s : State) (f : Stream → Stream) : State := s.modStream 0 0 f

/-- An AG instruction whose A carries a block. -/
def withBlock (o : Op) (md : BitVec 3) (blk : Lanes) (b : Word) : State :=
  feed (feed (readyBy .ag o md) .ag 0 { wide 0 with lanes := blk }) .ag 1 (wide b)

/-- A stream instruction ready on a stream that has taken a block. -/
def streamed (o : Op) (blk : Lanes) (a b : Word) : State :=
  streaming (given .ag o 0 a b) fun st => { st with st := .set, blk := blk }

/-- It fires, with a header and those operands. -/
def operandsAreOn (s : State) (o : Op) (md : BitVec 3) (a b : Word) : Bool := operandsAre s o md a b && s.focus.pool == .ag

theorem witness_AddressGeneration :
    (let s := withBlock .agset 0 (rawBlock 8 3) 5
     s.trigger s.focus .agset (operands .agset 0) = true ∧ (s.seen .agset (operands .agset 0)).header.isOk = true ∧
      (s.seen .agset (operands .agset 0)).intB = .ok 5 ∧
      checkStream (maskLanes (s.seen .agset (operands .agset 0)).a) = none ∧ ((s.tile 0).ag.stream 0).dirty = []) ∧
    (let s := withBlock .agset 0 (rawBlock 0 3) 5
     s.trigger s.focus .agset (operands .agset 0) = true ∧
      checkStream (maskLanes (s.seen .agset (operands .agset 0)).a) = some 2) ∧
    operandsAreOn (streamed .agrd (rawBlock 8 3) 0 2) .agrd 0 0 2 = true ∧
    (let s := streamed .agch (rawBlock 8 3) 0 2
     operandsAreOn s .agch 0 0 2 = true ∧ (s.seen .agch (operands .agch 0)).lane1A.isOk = true ∧
      bSfmt (rawBlock 8 3) = fmtRaw ∧ bTfmt (rawBlock 8 3) = 3) ∧
    (let s := streamed .agwr (rawBlock 8 3) 7 0
     operandsAreOn s .agwr 0 7 0 = true ∧ 0 < bN (rawBlock 8 3) ∧ elemsPerLane (rawBlock 8 3) (wide 7) = 1 ∧
      (∀ p < 8, ∀ w ∈ srcWords (rawBlock 8 3) p, (s.engWord 0 2 w).isSome = true) ∧ bSsp (rawBlock 8 3) = 2) ∧
    operandsAreOn (streamed .agsct (rawBlock 8 3) 7 0) .agsct 0 7 0 = true ∧
    (let s := streamed .aggth (rawBlock 8 3) 3 1
     operandsAreOn s .aggth 0 3 1 = true ∧
      (Hdr.join (s.seen .aggth (operands .aggth 0)).mirror (s.seen .aggth (operands .aggth 0)).x.ratified 0
        ⟨0xFF, false, 0⟩ { zeroTok with mask := 0xFF, gen := 0 }).isOk = true) ∧
    (let s := feed (streamed .aggth (rawBlock 8 3) 3 1) .ag 0 { wide 3 with mask := 0 }
     s.trigger s.focus .aggth (operands .aggth 0) = true ∧ (s.seen .aggth (operands .aggth 0)).a.mask = 0) ∧
    (let s := streaming (given .ag .agstop 0 1 0) fun st => { st with st := .running }
     operandsAreOn s .agstop 0 1 0 = true ∧ ((s.tile 0).ag.stream 0).st = .running) ∧
    operandsAreOn (given .ag .agstop 0 0 0) .agstop 0 0 0 = true ∧
    operandsAreOn (given .ag .agpos 0 1 0) .agpos 0 1 0 = true ∧ operandsAreOn (given .ag .wprd 0 63 0) .wprd 0 63 0 = true ∧
    operandsAreOn (given .ag .wcntBind 4 5 0) .wcntBind 4 5 0 = true ∧
    (let s := (given .ag .wcnt 0 0 2).modPool 0 .ag fun x => { x with ctrs := x.ctrs.set 0 ⟨some 5, 3⟩ }
     operandsAreOn s .wcnt 0 0 2 = true) := by decide +kernel

/-- Tile 0 of a placed launch with stream 0 running to AG output 0, which sends on channel 7 and has space. -/
def running (f : Stream → Stream) : State :=
  let s := placed (readyBy .ag .agset 0)
  let s := s.modPool 0 .ag fun x => { x with
    outs := x.outs.set 0 { x.out 0 with chan := some 7, credits := 8, owner := some (.stream 0) } }
  streaming { s with chans := [(7, chan (.out 0 .ag 0) (.inp 0 .pe 0))] } fun st => f { st with
    st := .running
    blk := rawBlock 8 3 }

/-- What StreamSteps asks of a running stream. -/
def isLive (s : State) (chase : Bool) : Bool :=
  let st := (s.tile 0).ag.stream 0
  st.st == .running && !s.wakeDue && st.formed.isNone && st.missDue.isNone && !st.stop && !st.endDue && st.chase == chase &&
    ((s.tile 0).ag.out st.out).space && (s.regions.all fun x => x.2.dampN == 0)

/-- One access in the queue of the AG pool. -/
def accessing (o : Op) : State :=
  (running id).modPool 0 .ag fun x => { x with
    agq := [⟨o, 0, rawBlock 8 3, 0, 0, none, [(0, 1, 0)], wide 9, wide 0, 1, none, 0, false⟩] }

/-- Its first element. -/
def isNext (s : State) (o : Op) : Bool :=
  !s.wakeDue && (match (s.tile 0).ag.agq with
    | [q] => q.items == [(0, 1, 0)] && q.kind == o && q.hold.isNone && bSfmt q.blk == fmtRaw && bSsp q.blk != 0 && srcBit q.blk 0 % 64 == 0
    | _ => false)

theorem witness_StreamSteps :
    isLive (running fun st => { st with pos := 8 }) false = true ∧
    isLive (running fun st => { st with pos := 8, endTok := true }) false = true ∧ bN (rawBlock 8 3) = 8 ∧
    (isLive (running id) false = true ∧ ((running id).chipRead 0 2 (srcBit (rawBlock 8 3) 7 / 64)).isSome = true ∧
      bScen (rawBlock 8 3) = false) ∧
    (let s := running fun st => { st with blk := { rawBlock 8 3 with l0 := 0x2C00000000000000 } }
     isLive s false = true ∧ s.agAcr none 0 0 = none) ∧
    (isLive (running fun st => { st with chase := true }) true = true ∧
      ∀ i < 8, ((running id).chipRead 0 2 ((i : Nat) : Int)).isSome = true) ∧
    (let s := running fun st => { st with missDue := some (wide 0) }
     ((s.tile 0).ag.stream 0).st = .running ∧ s.wakeDue = false ∧ ((s.tile 0).ag.stream 0).missDue.isSome = true ∧
      ((s.tile 0).ag.out 0).space = true) ∧
    isNext (accessing .agsct) .agsct = true ∧ isNext (accessing .agwr) .agwr = true ∧
    (((accessing .agwr).engWord 0 2 0).isSome = true ∧ ((accessing .agwr).engWord 0 2 0).all (fun w => !(accessing .agwr).wordHeld w) = true ∧
      (accessing .agwr).mem.wf = true) ∧
    (isNext (accessing .aggth) .aggth = true ∧ bTfmt (rawBlock 8 3) = 3) := by decide +kernel

/-- Template 0 of core 0 armed with a block, and bound to queue 0, which holds one posted token. -/
def armed (s : State) (blk : Lanes) : State :=
  s.setCore 0 { s.core 0 with
    tmpls := [(0, ⟨blk, [], true, 0, some (0, 0)⟩)]
    queues := [(0, ⟨some 0, [⟨{ wide 0 with mask := 0 }, 0, 0, 0⟩], 0⟩)] }

/-- A copy of that template in engine 0. -/
def copying (f : CopyRun → CopyRun) : State :=
  let s := armed (running id) (rawCopy 8)
  let r : CopyRun := f ⟨0, 0, rawCopy 8, [], ⟨{ wide 0 with mask := 0 }, 0, 0, 0⟩, 0, 0, none, false, [], [0], [], 1, none, false, 0⟩
  s.setCore 0 { s.core 0 with engs := (s.core 0).engs.set 0 ⟨some r, 0⟩ }

theorem witness_Copies :
    (let s := withBlock .tarm 0 (rawCopy 8) 0x10000
     s.trigger s.focus .tarm (operands .tarm 0) = true ∧ (s.seen .tarm (operands .tarm 0)).header.isOk = true ∧
      (s.seen .tarm (operands .tarm 0)).intB = .ok 0x10000 ∧
      checkCopy (maskLanes (s.seen .tarm (operands .tarm 0)).a) = none ∧ bPmen (rawCopy 8) = false) ∧
    (let s := withBlock .tarm 0 (rawCopy 0) 0
     s.trigger s.focus .tarm (operands .tarm 0) = true ∧ checkCopy (rawCopy 0) = some 2) ∧
    (let b := { rawCopy 8 with l6 := 0x40000000000000 }
     let s := withBlock .tarm 0 b 0
     s.trigger s.focus .tarm (operands .tarm 0) = true ∧ checkCopy b = none ∧ bPmen b = true ∧
      (pmCheck (s.pmProgram 0 (bPmp b))).isSome = true) ∧
    (operandsAre (armed (given .ag .tbind 0 0 1) (rawCopy 8)) .tbind 0 0 1 = true) ∧
    (operandsAre (given .ag .tbind 0 0 1) .tbind 0 0 1 = true ∧ (((given .ag .tbind 0 0 1).core 0).tmpl 0).armed = false) ∧
    operandsAre (given .ag .tmc 0 0 1) .tmc 0 0 1 = true ∧ operandsAre (given .ag .tmc 0 0 0) .tmc 0 0 0 = true ∧
    (let z := (armed (running id) (rawCopy 8)).core 0
     (z.eng 0).run = none ∧ z.nextQueue 0 = some 0 ∧ (z.queue 0).toks ≠ [] ∧ (z.queue 0).bound = some 0 ∧ 0 < z.engs.length) ∧
    (let s := copying id
     ((s.core 0).eng 0).run.isSome = true ∧ (s.chipRead 0 2 (srcBit (rawCopy 8) 0 / 64)).isSome = true ∧
      (s.engWord 0 2 (dstBit (rawCopy 8) 0 / 64)).isSome = true ∧
      (s.engWord 0 2 (dstBit (rawCopy 8) 0 / 64)).all (fun d => !s.wordHeld d) = true ∧
      dstBit (rawCopy 8) 1 ≠ dstBit (rawCopy 8) 0 ∧ dstBit (rawCopy 8) 1 % 64 = 0 ∧ s.mem.wf = true ∧ bSfmt (rawCopy 8) = fmtRaw ∧
      bDfmt (rawCopy 8) = fmtRaw ∧ bMcn (rawCopy 8) = 0 ∧ bDsp (rawCopy 8) = 2) ∧
    (let s := copying fun r => { r with spaces := [3] }
     (((s.core 0).eng 0).run.elim [] (·.spaces)) = [3] ∧ ((s.core 0).tmpl 0).spaceOut = some (0, 0) ∧ ((s.tile 0).ag.out 0).space = true) ∧
    (((copying fun r => { r with moved := true }).core 0).eng 0).run.any (·.moved) = true := by decide +kernel

theorem witness_StreamAndCopySteps :
    (let s := running fun st => { st with formed := some ⟨wide 1, 8, none, 0, false, none⟩ }
     let st := (s.tile 0).ag.stream 0
     st.st = .running ∧ s.wakeDue = false ∧ st.formed = some ⟨wide 1, 8, none, 0, false, none⟩ ∧
      ((s.tile 0).ag.out st.out).space = true ∧ ∀ x ∈ s.regions, x.2.dampN = 0) ∧
    (let s := copying id
     ((s.core 0).eng 0).run.any (fun r => r.pend.isEmpty && r.pm.isNone) = true ∧
      s.wordOpen 0 0 (rawCopy 8) (dstBit (rawCopy 8) 0 / 64) = false) ∧
    (let s := copying fun r => { r with moved := true, owed := [] }
     ((s.core 0).eng 0).run.any (fun r => r.moved && r.pend.isEmpty && r.owed.isEmpty && r.spaces.isEmpty) = true ∧
      s.branchHeld 0 0 none = false) := by decide +kernel

/-! ### Statements about task memory, commit and cancels -/

/-- Job 0 live, with a page table that maps the first GiB onto itself, and every die attested. -/
def mapped (s : State) : State :=
  { s with
    mem := (s.mem.writeWord 512 0x9000000000020000 false).writeWord 0x4000 0xD000000000000000 false
    jobs := [(0, { Job.reset with st := 1, ptroot := 1 })]
    trust := { s.trust with quarantined := 0, attested := 0x3FFFFFF } }

/-- A global request of one lane at the line of a virtual address, in the first place of tile 0. -/
def globalReq (op : Op) (va : Nat) : Req :=
  ⟨op, 0, 0, 0, false, wide 9, wide 9, .wr 1, none, [⟨0, 5, va⟩], false, zeros 3, 1, 0, none, none, 0, some ⟨0, 0, 0, 0⟩⟩
def tasking (op : Op) (va : Nat) : State :=
  (mapped (placed State.reset)).modPool 0 .pe fun x => { x with reqs := [globalReq op va] }

/-- Its line is translated, and nothing is at its place yet. -/
def lineOf (s : State) (op : Op) : Option Nat :=
  match s.reach 0 none 0 0x8000 (op != .gld) with
  | (.line pa _ _, s1) =>
    if !s1.discards (homeSlice pa) ⟨0, 0, 0, 0, 0⟩ && !s.orderedBehind 0 (globalReq op 0x8000) ⟨0, 5, 0x8000⟩ then some pa
    else none
  | _ => none

/-- Its slice has room for it. -/
def roomThere (op : Op) : Bool :=
  let s := tasking op 0x8000
  let s1 := (s.reach 0 none 0 0x8000 (op != .gld)).2
  match s1.roomFor 8 (s1.atSlice 8 ⟨0, 0, 0, 0, 0⟩) with
  | .ok t => t == s1 && s.entries 8 == []
  | _ => false

/-- A word that the unit itself has stored. -/
def stored : BEntry := ⟨0, 0, 0, 0, 0, 512, (List.range 8).map fun i => (i, (byteOf 77 i, 0)), [], []⟩

/-- KVROW_OPEN of area 0, slot 0, waiting at its home. -/
def opening (slots : Tab KvSlot) : State :=
  let s := (placed State.reset).modPool 0 .pe fun x => { x with reqs :=
    [{ globalReq .kvrowOpen 0 with accs := [⟨0, 6, 0⟩], gen := 1, waiting := some 0 }] }
  s.setDie 0 { s.die 0 with
    kv := [(0, ⟨0, 64, 16, 2, 4⟩)]
    kvSlots := slots }

theorem witness_TaskAccesses :
    (∀ o ∈ ([.gld, .gst, .gatom] : List Op), lineOf (tasking o 0x8000) o = some 0x8000 ∧ roomThere o = true) ∧
    (let s := { tasking .gld 0x8000 with bisque := [(8, [stored])] }
     lineOf s .gld = some 0x8000 ∧ stored.is ⟨0, 0, 0, 0, 0⟩ 512 = true ∧ ∀ i < 8, (Tab.get? stored.bytes i).isSome = true) ∧
    (∀ o ∈ ([.gld, .gst, .gatom] : List Op), ((tasking o 0x8000000000).reach 0 none 0 0x8000000000 (o != .gld)).1 = .fault 0 0 ∧
      (tasking o 0x8000000000).orderedBehind 0 (globalReq o 0x8000000000) ⟨0, 5, 0x8000000000⟩ = false) ∧
    ((opening []).kvRow 0 { globalReq .kvrowOpen 0 with opb := wide 9 } = some (0, ⟨0, 64, 16, 2, 4⟩, 9)) ∧
    (let s := opening [(kvSlotKey 0 9, ⟨2, 0, []⟩)]
     (s.tile 0).pe.reqs.length = 1 ∧ s.kvTag 0 2 ≠ 0 ∧ s.kvTag 0 2 ≠ s.kvTag 0 1) := by decide +kernel

/-- The first unit of a launch, finished, with a store of its own. -/
def finishedUnit : State :=
  let s := mapped (placed State.reset)
  { s with
    blocks := [(0, { block0 with finished := 1 })]
    bisque := [(8, [stored])] }

/-- The launch in graph 0 of phase 0 of job 0. -/
def graphed : State :=
  let s := mapped (placed State.reset)
  { s with
    graphs := [⟨0, 0, 0, 0, [0], none, false, false, 0⟩]
    phases := [⟨0, 0, 0, [0], none, false, false, 0⟩] }

theorem witness_CommitAndCancels :
    (let s := finishedUnit
     s.jobs.map (·.1) = [0] ∧ s.root.gens = [] ∧ s.oldestUnit 0 = some (launch0, 0) ∧ Tab.get? s.launches 0 = some launch0 ∧
      s.canCommit launch0 0 = true ∧ 1 < launch0.unitCount ∧ launch0.count + 1 < launch0.unitCount ∧
      (s.bisque.flatMap (·.2)).filter (fun e => e.lseq = 0 && e.unit = 0) = [stored] ∧ s.mem.wf = true) ∧
    (graphed.thermal.off = false ∧ (graphed.job 0).st = 1 ∧ Tab.get? graphed.launches 0 = some launch0 ∧
      launch0.job = 0 ∧ launch0.st ≠ .retired) ∧
    (let s := { graphed with launches := [(0, { launch0 with st := .retired })] }
     (s.job 0).st = 1 ∧ (Tab.get? s.launches 0).any (fun l => l.st = .retired) = true) ∧
    Tab.get? graphed.launches 9 = none ∧ launch0.graph = 0 ∧ launch0.phase = 0 ∧ (graphed.graph? 0 0 0).any (fun g => !g.retired) = true ∧
    (graphed.phase? 0 0).any (fun x => !x.retired) = true ∧
    ({ graphed with thermal := { graphed.thermal with off := true } } : State).thermal.off = true := by decide +kernel

/-! ### Statements about the host, the arbiter and placement -/

/-- The words of a packet of queue 0 for job 0 with sequence number 0: one block, four units, die 0. -/
def packet (sl : Word) : List Word := [4, 0, 0, 1, 0x10000000000, 0, 0, 0, 0, 0, 0, 0, 0, 0, 0, sl]

/-- The tables of an image of one block of one tile. -/
def img0 : ImgTab := ⟨0, 1, 11, 1, 0, 0, true, true, [(0, 0x0001001000000000, 0)], []⟩

/-- The host has enabled the device. -/
def hosted (s : State) : State :=
  { mapped s with host := { s.host with
    enabled := true
    saveLen := 6
    accept := [1, 0, 0, 0]
    evqBase := 0x1000
    evqCfg := 6 } }

theorem witness_HostRegisters :
    ((mapped State.reset).host.enabled = false ∧ (hosted State.reset).host.enabled = true) ∧
    (let s := { mapped State.reset with host := { HostRegs.reset with saveLen := 6 } }
     6 ≤ s.host.saveLen.toNat ∧ s.host.enabled = false ∧
      ∀ i < 26, s.trust.attested.getLsbD i = true ∨ s.trust.quarantined.getLsbD i = true) ∧
    ((mapped State.reset).host.saveLen.toNat < 6) ∧
    (let s := { State.reset with
       host := { HostRegs.reset with saveLen := 6 }
       trust := { Trust.reset with quarantined := 0 } }
     6 ≤ s.host.saveLen.toNat ∧ s.trust.attested.getLsbD 25 = false ∧ s.trust.quarantined.getLsbD 25 = false) ∧
    ((0x4000000000000000 : Word).extractLsb' 62 2 = 1 ∧ (State.reset.job 63).st = 0 ∧ ((mapped State.reset).job 0).st ≠ 0) ∧
    (8 * 0x17FFFFFFFF < 0xC000000000 ∧ 0xC000000000 ≤ 8 * 0x1800000000) ∧ State.reset.mem.wf = true ∧
    ((State.reset.core 0).cur = (State.reset.core 0).req) ∧
    (let s := State.reset.setCore 0 { State.reset.core 0 with cur := 16 }
     (s.core 0).cur < (s.core 0).req) ∧
    (let s := State.reset.setCore 0 { State.reset.core 0 with req := 16 }
     (s.core 0).req < (s.core 0).cur) := by decide +kernel

/-- A range of one sequence number stands to be fetched on queue 0, whose slot 0 holds a packet. -/
def fetching (sl : Word) (ro : Bool) (reads : Nat) : State :=
  let s := hosted State.reset
  let ws := packet sl
  { s with
    lqs := [(0, { LaunchQ.reset with
      base := 0x100000
      cfg := 0x101
      ranges := [(1, ro)]
      reads := reads })]
    refCyc := 425
    mem := (List.range 16).foldl (fun m i => m.writeWord (0x20000 + i) (ws.getD i 0) false) s.mem }

/-- The seal of sequence number 0. -/
def seal0 : Word := 0x00000000FFFFFFFF

/-- One packet checked and not yet accepted. -/
def checked0 : State :=
  { hosted State.reset with lqs := [(0, { LaunchQ.reset with checked := [(0, packet seal0)] })] }

/-- An accepted launch whose image is cached. -/
def accepted0 : State :=
  { hosted State.reset with
    launches := [(0, { launch0 with
      st := .accepted
      words := packet seal0 })]
    arb := { (hosted State.reset).arb with cache := [(0, 0, img0)] } }

/-- One event held, with room in the ring. -/
def posting : State := (hosted State.reset).report 0x92 none 0 0 1 2 3

theorem witness_LaunchQueuesAndEvents :
    ((fetching seal0 false 0).lq 0).cfg.getLsbD 0 = true ∧ (State.reset.lq 0).cfg.getLsbD 0 = false ∧
    ((hosted State.reset).host.enabled = true ∧ State.reset.host.enabled = false ∧ ((fetching seal0 false 0).lq 0).cfg.getLsbD 4 = false ∧
      (((fetching seal0 false 0).lq 0).cfg.extractLsb' 8 4).toNat = 1) ∧
    (let s := { fetching seal0 false 0 with lqs := [(0, { LaunchQ.reset with cfg := 0x101 })] }
     (s.lq 0).ranges = [] ∧ (s.lq 0).head = 0) ∧
    (let s := fetching seal0 false 0
     (s.lq 0).reads = 0 ∧ s.thermal.critDies = [] ∧ s.mem.words 0x20000 16 = packet seal0 ∧
      s.packetCheck 0 0 (packet seal0) = none) ∧
    ((fetching seal0 true 1).lq 0).readAt + 425 ≤ (fetching seal0 true 1).refCyc ∧
    (let s := { fetching seal0 false 0 with jobs := [] }
     s.packetCheck 0 0 (packet seal0) = some (0x03, 0)) ∧
    (let s := fetching 0 false 0
     s.mem.words 0x20000 16 = packet 0 ∧ (packet 0).getD 15 0 ≠ seal0 ∧ (s.lq 0).ranges = [(1, false)]) ∧
    ((fetching 0 true 3).host.lqRetry.toNat = 16 ∧ ((fetching 0 true 16).lq 0).reads = 16) ∧
    (checked0.accepting = true ∧ checked0.nextPacket = some (0, { LaunchQ.reset with checked := [(0, packet seal0)] }, 0, packet seal0)) ∧
    (let s := accepted0
     s.arb.hold = false ∧ s.thermal.critDies = [] ∧ s.nextRelease = some { launch0 with st := .accepted, words := packet seal0 } ∧
      s.arb.cache.find? (fun c => c.1 = 0 && c.2.1 = 0) = some (0, 0, img0) ∧ img0.crcOk = true) ∧
    (posting.evq.held.length = 1 ∧ posting.host.ring = some 64 ∧ (posting.evq.written + 1) % 64 ≠ posting.host.evqHead.toNat % 64 ∧
      cellsFrom 0 posting.hostMem = true) := by decide +kernel

/-- The release of launch 0 stands at the head of the stream, on dies that are all available or none. -/
def releasing (davail : BitVec 8) (retired : Nat) : State :=
  let s := hosted State.reset
  { s with
    launches := [(0, { launch0 with
      st := .released
      words := packet seal0
      img := some img0 })]
    arb := { s.arb with stream := [.release 0] }
    dies := (List.range 8).map fun d => (d, { Die.reset with
      davail := davail
      retired := retired }) }

/-- A record of a retirement, or of an invalidation, is next. -/
def applying (r : StreamRec) : State :=
  let s := placed (hosted State.reset)
  { s with arb := { s.arb with stream := [r] } }

theorem witness_Placement :
    (let s := releasing 0xFF 0
     let l := { launch0 with st := .released, words := packet seal0, img := some img0 }
     s.nextRec 0 = some (.release 0) ∧ Tab.get? s.launches 0 = some l ∧ l.wmark = 0 ∧ l.inval = false ∧ l.masked img0 = none ∧
      s.findPlaces (s.die 0) l img0 l.blks [] = some [⟨0, (0, 0x0001001000000000, 0), ⟨0, 0, 0⟩⟩] ∧
      s.xmapConflict l img0 [⟨0, (0, 0x0001001000000000, 0), ⟨0, 0, 0⟩⟩] = none) ∧
    (let s := releasing 0 0
     let l := { launch0 with st := .released, words := packet seal0, img := some img0 }
     s.nextRec 0 = some (.release 0) ∧ s.findPlaces (s.die 0) l img0 l.blks [] = none) ∧
    (let s := releasing 0xFF 1
     (s.die 0).retired ≠ 0 ∧ (s.die 0).desync = false ∧ s.nextRec 0 = some (.release 0)) ∧
    (let s := applying (.retire 0)
     s.nextRec 0 = some (.retire 0) ∧ (s.die 0).heldL = [] ∧ Tab.get? s.blocks 0 = some block0 ∧ s.inWave block0 0 = false) ∧
    (applying .inval).nextRec 0 = some .inval ∧
    (∀ e < 8, (State.reset.die e).applied = State.reset.arb.stream.length ∧ (State.reset.die e).heldL = []) ∧
    ((applying .inval).die 0).applied ≠ (applying .inval).arb.stream.length := by decide +kernel

theorem witness_HostAnswers :
    ({ State.reset with trust := { Trust.reset with halted := true } } : State).trust.halted = true ∧
    ({ State.reset with trust := { Trust.reset with noFw := true } } : State).trust.noFw = true ∧
    ((State.reset.host.accept.getD 0 0).getLsbD 5 = false ∧ State.reset.readBar0 0x808 = some 0) ∧
    ((([0x20, 0, 0, 0] : List Word).getD 0 0).getLsbD 5 = true ∧ State.reset.trust.halted = false ∧ State.reset.trust.noFw = false ∧
      (3 : Fin 4).val < State.reset.host.accept.length) ∧
    ({ State.reset with trust := { Trust.reset with fwState := 3 } } : State).trust.fwState = 3 ∧
    (0xBFFFFFFFF9 + 6 < 0xC000000000 ∧ 0xC000000000 ≤ 0xBFFFFFFFF9 + 7) := by decide +kernel

theorem witness_QueuePorts : State.reset.trust.quarantined.getLsbD 9 = true ∧ (mapped State.reset).trust.quarantined.getLsbD 9 = false ∧
    (let l := { launch0 with st := .accepted, words := packet seal0 }
     l.inval = false ∧ l.lastBlk < img0.nblk ∧ 4 < l.words.length) := by decide +kernel

/-! ### Statements about channels -/

/-- A placed launch with one channel. -/
def linked (ch : Nat) (c : Chan) : State :=
  let s := mapped (placed State.reset)
  { s with
    chans := [(ch, c)]
    blocks := [(0, { block0 with entry := (0, 0x0001001000000000, 0) })] }

/-- The entry queue of block 0. -/
def entryQueue (items : List Item) : Chan := { chan (.entry 0) (.inp 0 .pe 0) with items := items }

/-- A token at the head of a channel from MX output 0 of tile 1 to PE input 0 of tile 0, both in the region. -/
def landing (c : Chan) (depth : Nat) : State :=
  let s := (linked 7 c).setTile 1 { (State.reset.tile 1) with region := some 0 }
  (s.modPool 1 .mx fun x => { x with outs := x.outs.set 0 { x.out 0 with chan := some 7 } }).modPool 0 .pe fun x => { x with
    ins := x.ins.set 0 { x.inp 0 with
      chan := some 7
      depth := depth } }

/-- That channel with a token on its way. -/
def link (f : Chan → Chan) : Chan := f { chan (.out 1 .mx 0) (.inp 0 .pe 0) with items := [.tok (zeros 1) 0] }

theorem witness_ChannelEnds :
    (let s := linked 4096 (entryQueue [])
     Tab.get? s.launches 0 = some launch0 ∧ launch0.st = .placed ∧ s.queued 0 = 0 ∧ launch0.reTok = [] ∧ 0 < launch0.unitCount ∧
      (Tab.get? s.blocks 0).any (fun b => decide (0 < (b.entry.2.1.extractLsb' 32 16).toNat)) = true) ∧
    (let s := mirrored { linked 4096 (entryQueue []) with launches := [(0, { launch0 with reTok := [(2, 1, 0)] })] }
     (Tab.get (s.die 0).mirror 1 GenEnt.reset).st = .live ∧ s.queued 0 = 0) ∧
    (let s := landing (link id) 0
     ((s.tile 0).pe.inp 0).chan = some 7 ∧ s.dampRegion (link id) 0 = none ∧ (s.regionOf 0).any (fun x => x.armed.isNone) = true) ∧
    (let s := landing { link id with src := .ingress 3 } 2
     ((s.tile 0).pe.inp 0).queue.length < ((s.tile 0).pe.inp 0).depth) ∧
    (let s := linked 7 (link fun c => { c with dst := .done 0 })
     (Tab.get? s.blocks 0).isSome = true) ∧
    (let c := link fun c => { c with credBack := 1, reqBack := 2 }
     (((landing c 0).tile 1).mx.out 0).chan = some 7 ∧ c.credBack ≠ 0 ∧ c.reqBack ≠ 0 ∧ c.path = []) ∧
    ((link fun c => { c with credBack := 1, path := [(0, true)] }).path.getLast? = some (0, true)) ∧
    (let t := { zeros 1 with kind := 5, side := 0x100003 }
     isDepth t = true ∧ (t.side.extractLsb' 0 5).toNat + 1 = 4 ∧
      4 ≤ ((feed State.reset .pe 0 t).tile 0).freeBeats + (((feed State.reset .pe 0 t).tile 0).pe.inp 0).depth) ∧
    (let t := { zeros 1 with kind := 5, side := 0x10001F }
     let s := (feed State.reset .pe 0 t).modPool 0 .mx fun x => { x with ins := x.ins.map fun i => { i with
       code := 1
       depth := 16 } }
     (s.tile 0).freeBeats + ((s.tile 0).pe.inp 0).depth < (t.side.extractLsb' 0 5).toNat + 1) ∧
    (let s := { linked 7 (link id) with blocks := [(0, { block0 with doneQ := [{ zeros 1 with kind := 1 }] })] }
     Tab.get? s.launches 0 = some launch0 ∧ launch0.lseq = 0 ∧ block0.finished < 1) ∧
    (let s := { linked 7 (link id) with root := { Root.reset with gens := [(1, { GenEnt.reset with st := .live })] } }
     (s.root.ent 1).st = .live ∧ (s.root.ent 1).lseq = 0) ∧
    (let s := State.reset.setCore 0 { State.reset.core 0 with cyc := 1024 }
     (s.tile 0).pe.epochAt + 1024 ≤ (s.core 0).cyc ∧
       ((placed s).tile 0).gated = false) := by decide +kernel

/-! ### Statements about regions, loads and swaps -/

/-- The image of one tile of block 0: PE input 0 is its entry input and PE output 0 its done sink. -/
def image : TileImg :=
  let ws : List Word := [0x400] ++ List.replicate 56 0 ++ [0x0000006000000140] ++ List.replicate 8 0
  ws ++ [place (crc32c ws).toNat 32]

/-- Launch 0 and its block in the region of tile 0, with a region of choice; `n` thread tokens wait. -/
def scheduled (n : Nat) (r : Region → Region) : State :=
  let s := mapped (placed State.reset)
  { s with
    launches := [(0, { launch0 with img := some img0 })]
    blocks := [(0, { block0 with entry := (0, 0x0001001000000000, 0) })]
    chans := [(4096, entryQueue (List.replicate n (.tok (zeros 1) 0)))]
    regions := [(0, r { region0 with blocks := [0] })] }

/-- A second launch whose first block stands in the same region, with thread tokens that wait. -/
def twoBlocks (r : Region → Region) : State :=
  let s := scheduled 0 r
  { s with
    launches := s.launches ++ [(1, { launch0 with
      lseq := 1
      img := some img0 })]
    blocks := s.blocks ++ [(256, { block0 with
      lseq := 1
      entry := (0, 0x0001001000000000, 0) })]
    chans := s.chans ++ [(256 * 32768 + 4096, entryQueue [.tok (zeros 1) 0])]
    regions := [(0, r { region0 with blocks := [0, 256] })] }

/-- Region 0. -/
def reg (s : State) : Region := Tab.get s.regions 0 region0

/-- Its load. -/
def loading (imgs : List TileImg) : State :=
  let s := scheduled 1 fun r => { r with loading := some ⟨0, imgs, none⟩ }
  s.setDie 0 { s.die 0 with icache := [(0, imageVa { launch0 with img := some img0 } img0 0, image, false)] }

theorem witness_ChooseBlock :
    (let s := scheduled 1 fun r => { r with resident := some 0, quiet := 256 }
     s.winner (reg s) = some 0 ∧ (s.cands (reg s)).length = 1) ∧
    (let s := scheduled 0 fun r => { r with resident := some 0, quiet := 256 }
     s.choosing 0 (reg s) = true ∧ s.winner (reg s) = none) ∧
    (let s := scheduled 1 fun r => { r with armed := some 0 }
     s.choosing 0 (reg s) = true ∧ s.winner (reg s) = some 0) ∧
    (let s := twoBlocks fun r => { r with resident := some 0, quiet := 256 }
     s.choosing 0 (reg s) = true ∧ s.winner (reg s) = some 256 ∧ s.heldBlock 0 = false) := by decide +kernel

theorem witness_ShadowLoad :
    (let s := scheduled 1 id
     s.thermal.critDies = [] ∧ best ((s.cands (reg s)).filter fun c => some c.bid != (reg s).resident) = some 0) ∧
    (let s := loading []
     s.shadowErr 0 0 = none ∧ imageRange img0 (0, 0x0001001000000000, 0) = (0, 1) ∧
      (s.fetchImage 0 0 (imageVa { launch0 with img := some img0 } img0 0)).1 = .got image ∧
      (imgW image 0).extractLsb' 32 32 = img0.vstamp ∧ imgX image = 0 ∧ imgY image = 0) ∧
    (let c : CheckCtx := ⟨img0, 0, (0, 0x0001001000000000, 0), [image]⟩
     c.format false = none ∧ c.illegal = none) ∧
    (∀ k ∈ (loading [image]).regionTiles 0, ((loading [image]).tile k).linkInputs = []) ∧
    (let c : CheckCtx := ⟨img0, 0, (0, 0x0001001000000000, 0), [image.set 58 1]⟩
     c.format false = some (2, BadAt.ofPool (image.set 58 1) .mx)) := by decide +kernel

/-- Tile 0 holds its block's image in its shadow while the region switches to it. -/
def switching : State :=
  let s := scheduled 0 fun r => { r with switching := some 0 }
  s.setTile 0 { s.tile 0 with shadow := some (0, image) }

/-- Block 0 resident and block 256 armed, tiles 0 and 1 of the region with shadows of the latter, and a swap token at PE input 1. -/
def waving (other : Bool) (toks : List Tok) : State :=
  let s := twoBlocks fun r => { r with
    wm1 := 1
    resident := some 0
    armed := some 256 }
  let t (b : Bool) : Tile := { s.tile 0 with
    region := some 0
    block := some 0
    shadow := if b then some (256, image) else none
    pe := { (s.tile 0).pe with ins := (s.tile 0).pe.ins.set 1 { (s.tile 0).pe.inp 1 with
      code := 1
      queue := toks } } }
  (s.setTile 0 (t true)).setTile 1 (t other)

/-- A swap token. -/
def swapTok : Tok := { zeros 1 with kind := 6 }

theorem witness_Swaps :
    ((switching.tile 0).region = some 0 ∧ (reg switching).switching = some 0 ∧ (switching.tile 0).shadow = some (0, image) ∧
      switching.tabOf 0 = some img0) ∧
    ((scheduled 0 fun r => { r with switching := some 0 }).tile 0).shadow = none ∧
    (let s := waving false [swapTok]
     s.sameShape 0 0 256 = false ∧ (s.tile 0).chanIns.any InPort.swapHead = true ∧ (s.tile 0).block = some 0 ∧
      (s.tile 0).shadow = some (256, image) ∧ (s.tile 0).stranded = false ∧ (reg s).armed = some 256) ∧
    (let s := waving true []
     s.sameShape 0 0 256 = true ∧ s.waveReady 0 0 = false) ∧
    (let s := waving true [swapTok]
     s.sameShape 0 0 256 = true ∧ s.waveReady 0 0 = true ∧ s.tabOf 256 = some img0 ∧ 1 ∈ s.regionTiles 0) := by decide +kernel

/-- A hold of a request of tile 0, and an XINV of its job in progress. -/
def holding (ready : Bool) : State :=
  let s := (tasking .gld 0x8000000000).modPool 0 .pe fun x => { x with reqs :=
    [{ globalReq .gld 0x8000000000 with held := some 0 }] }
  { s with
    holds := [(0, ⟨0, 0, 0x8000000000, some 0, .req 0 1, ready⟩)]
    host := { s.host with xinv := some (0, true, 0) } }

theorem witness_TranslationsAndHolds :
    State.reset.host.xinv = none ∧ (holding false).host.xinv = some (0, true, 0) ∧
    (Tab.get? (holding false).holds 0).any (fun h => h.job = 0 && h.level.isSome && !h.ready) = true ∧
    (Tab.get? (holding true).holds 0).any (fun h => h.ready && h.site == .req 0 1) = true := by decide +kernel

theorem witness_Arrivals :
    (let s := landing (link id) 2
     s.arriving (link id) (zeros 1) = zeros 1 ∧ (link id).dead.contains (zeros 1).gen = false ∧ isSwap (zeros 1) = false ∧
      ((s.tile 0).pe.inp 0).queue.length < ((s.tile 0).pe.inp 0).depth ∧ (s.tile 0).block = some 0 ∧
      Tab.get? s.launches 0 = some launch0 ∧ launch0.st ≠ .retired) ∧
    (let y := link fun c => { c with dead := [1], items := [.tok { zeros 1 with gen := 1 } 0] }
     y.dead.contains ((landing y 2).arriving y { zeros 1 with gen := 1 }).gen = true) := by decide +kernel

theorem witness_RegionSteps :
    (let s0 := scheduled 1 fun r => { r with resident := some 0 }
     let s := { s0 with
       blocks := [(0, { block0 with entry := (0, 0x0001001000000001, 0) })]
       cores := [(0, { s0.core 0 with cyc := 1 })] }
     s.choosing 0 (reg s) = true ∧ (reg s).resident = some 0 ∧ s.winner (reg s) = some 0) ∧
    (let s := (loading []).setTile 0 { (loading []).tile 0 with gated := true }
     (s.tile 0).gated = true ∧ s.thermal.kept.contains 0 = false) ∧
    (let s := scheduled 0 fun r => { r with switching := some 0 }
     (s.core 0).ballast = 0 ∧ ((s.setCore 0 { s.core 0 with ballast := 5 }).core 0).ballast ≠ 0) ∧
    (let s := waving true [swapTok]
     (reg s).waveBegun = false ∧ ∀ l ∈ [0, 1], s.isRetired l = false) := by decide +kernel

/-! ### Statements about interruption -/

/-- Block 0 resident with no request, its save area in place; `quiet` cycles have passed without work. -/
def residentOf (quiet : Nat) (s : State) : State :=
  { s with
    regions := s.regions.map fun r => (r.1, { r.2 with
      resident := some 0
      quiet := quiet })
    host := { s.host with
      saveBase := 0x100000000
      saveLen := 6 }
    refCyc := 1700000 }

/-- A request that stands, to save by full scan or not. -/
def requested (scan : Bool) (quiet : Nat) : State :=
  let s := residentOf quiet (scheduled 0 id)
  { s with regions := s.regions.map fun r => (r.1, { r.2 with pre := some ⟨0, scan, false, 1⟩ }) }

/-- Block 0 saved in frame 0 and armed again, a thread token waiting. -/
def savedBlock : State :=
  let s := scheduled 1 fun r => { r with armed := some 0 }
  { s with
    blocks := [(0, { block0 with saved := some 0 })]
    frames := [(0, ⟨0, 0, [], ⟨[], [], []⟩, 0⟩)] }

/-- No frame is free: the save area has none. -/
def frameless : State :=
  let s := requested true 0
  { s with host := { s.host with saveLen := 4 } }

/-- Job 0 suspended. -/
def suspended (s : State) : State := s.setJob 0 { s.job 0 with suspended := true }

/-- A die with corrected errors. -/
def corrected (n : Nat) : State := State.reset.setDie 0 { Die.reset with ceCount := n }

theorem witness_Interruption :
    (let s := residentOf 65536 (scheduled 0 id)
     (reg s).resident = some 0 ∧ (reg s).pre = none ∧ (reg s).qwcRaised = false ∧ 65536 ≤ (reg s).quiet ∧
      eQwcw (0, 0x0001001000000000, 0) = 65536 ∧ (Tab.get? s.launches 0).any (fun l => !l.faulted && l.unitCount == 4) = true ∧
      s.host.snapBusy = 0 ∧ s.mem.wf = true ∧ s.host.saveBase.toNat % 8 = 0 ∧
      (Tab.get? s.blocks 0).any (fun b => (Tab.get? s.launches 0).any fun l => b.unfinished l) = true) ∧
    (let s := residentOf 65536 (scheduled 0 id)
     ({ s with host := { s.host with snapBusy := 1 } } : State).host.snapBusy.getLsbD 0 = true) ∧
    (let s := suspended (residentOf 0 (scheduled 0 id))
     (s.job 0).suspended = true ∧ (reg s).pre = none ∧ s.heldBlock 0 = false) ∧
    (let s := requested false 0
     (reg s).pre = some ⟨0, false, false, 1⟩ ∧ 1000 * s.host.yieldBound.toNat ≤ s.time) ∧
    (let s := requested true 0
     s.drained 0 0 (reg s) ⟨0, true, false, 1⟩ = true ∧ s.freeFrame = some 0) ∧
    (let s := frameless
     s.drained 0 0 (reg s) ⟨0, true, false, 1⟩ = true ∧ s.freeFrame = none) ∧
    (let s := savedBlock
     s.restoring 0 (reg s) = some 0 ∧ (Tab.get? s.frames 0).any (fun f => !s.frameBad 0 f) = true ∧
      s.seqOf (.saved 0) = s.root.log.length) ∧
    (let s := { savedBlock with mem := { savedBlock.mem with poison := [0x100000] } }
     s.restoring 0 (reg s) = some 0 ∧ (Tab.get? s.frames 0).any (fun f => s.frameBad 0 f) = true) ∧
    ((State.reset.job 0).suspended = false ∧ (∀ x ∈ State.reset.jobs, x.2.suspended = false) ∧ State.reset.jobRegions 0 = []) ∧
    (((corrected 0).die 0).ceCount + 1) % 1024 ≠ 0 ∧ (((corrected 1023).die 0).ceCount + 1) % 1024 = 0 ∧
    (0 < (((placed State.reset).tile 0).pool .pe).v.length) := by decide +kernel

theorem witness_DrainsAndErrors :
    (let s := bankBusy (requested false 0)
     (reg s).pre = some ⟨0, false, false, 1⟩ ∧ s.drained 0 0 (reg s) ⟨0, false, false, 1⟩ = false) ∧
    (let s := requested true 0
     s.drained 0 0 (reg s) ⟨0, true, false, 1⟩ = true ∧ (reg s).pre = some ⟨0, true, false, 1⟩) ∧
    (State.reset.die (tileDie 0)).fencedTiles.contains 0 = false := by decide +kernel

/-! ### Statements about power, heat and links -/

/-- Power registers. -/
def powered (reserve f : Nat) (alarm : Bool) : State := { State.reset with power := ⟨3000, reserve, f, alarm, 0, 2⟩ }

/-- A region whose window has run out. -/
def dampened (n : Nat) : State :=
  let s := residentOf 0 (scheduled 0 id)
  (s.setJob 0 { s.job 0 with dampN := n }).setCore 0 { s.core 0 with cyc := 256 }

theorem witness_PowerAndHeat :
    (State.reset.trust.fwState ≠ 3 ∧ State.reset.power.reserve = 500000 ∧ (powered 0 256 false).power.reserve < 500000) ∧
    (State.reset.core 0).cyc % 32 = 0 ∧
    (let s := dampened 0
     (reg s).resident = some 0 ∧ (reg s).winAt + (reg s).dampW ≤ (reg s).cyc s ∧ s.power.f = 256) ∧
    ((dampened 7).job 0).dampN = 7 ∧
    (State.reset.thermal.off = false ∧ State.reset.thermal.critDies = [] ∧ State.reset.host.thermCrit.toNat = 105) ∧
    (let s := { savedBlock with
       thermal := ⟨true, false, [0], [], 5, []⟩
       frames := [(1048576, ⟨0, 0, [], ⟨[], [], []⟩, 0⟩)] }
     s.thermal.off = true ∧ s.trust.resets = [] ∧ s.fullSaved ≠ []) ∧
    (let s := { State.reset with thermal := ⟨false, true, [], [], 5, []⟩ }
     s.thermal.resuming = true ∧ s.fullSaved = []) := by decide +kernel

/-- A flit with no body. -/
def flit (n : BitVec 16) (kp : Bool) : Flit := ⟨n, 0, kp, 0, 0, []⟩

/-- Link 0 from die 0 to die 1 in a machine whose every chiplet has attested. -/
def linkedUp (f : LinkDir → LinkDir) : State :=
  let s := mapped State.reset
  let s1 := s.setLink 0 false (f (s.link 0 false))
  { s1 with chans := [(7, { chan (.out 0 .pe 0) (.inp 1024 .pe 0) with path := [(0, false)] })] }

theorem witness_Links :
    (let s := linkedUp fun d => { d with wire := [flit 0 false], segs := [(0, [.tok 7 0 0 (zeros 1) 0])] }
     s.linkRuns 0 false = true ∧ (s.link 0 false).expect = 0 ∧ (s.link 0 false).opens false = true ∧ isPort 0 = false ∧
      (Tab.get? s.chans 7).any (fun y => y.path == [(0, false)]) = true) ∧
    (let s := linkedUp fun d => { d with wire := [flit 1 false] }
     s.linkRuns 0 false = true ∧ (flit 1 false).fseq ≠ (s.link 0 false).expect) ∧
    (let s := linkedUp fun d => { d with wire := [flit 0 true] }
     s.linkRuns 0 false = true ∧ (s.link 0 false).opens true = false) ∧
    (let s := linkedUp fun d => { d with retryAsked := true, window := [flit 0 false, flit 1 false], fseq := 2, expect := 1 }
     s.linkRuns 0 false = true ∧ (s.link 0 false).attempts < 8) ∧
    (let s := linkedUp fun d => { d with attempts := 8 }
     s.linkRuns 0 false = true ∧ 8 ≤ (s.link 0 false).attempts ∧ (s.link 0 false).mods = (State.reset.link 0 false).mods ∧
      (s.link 0 false).failedTrains < 3) ∧
    (let s := linkedUp fun d => { d with attempts := 8, failedTrains := 3 }
     s.linkRuns 0 false = true ∧ 3 ≤ (s.link 0 false).failedTrains) ∧
    (let s := linkedUp id
     s.linkRuns 0 false = true ∧ (s.link 0 false).rxNext = none ∧ (s.link 0 false).txOld = none ∧ (s.link 0 false).acked = false) ∧
    (let s := linkedUp fun d => { d with acked := true, rxNext := some 1 }
     s.linkRuns 0 false = true ∧ (s.link 0 false).acked = true ∧ (s.link 0 false).rxNext ≠ none) ∧
    (let s := linkedUp fun d => { d with txOld := some 0, rxNext := some 1, switchAt := some 4, expect := 5 }
     s.linkRuns 0 false = true ∧ (s.link 0 false).expect = 4 + 1 ∧ (s.link 0 false).txOld ≠ none) ∧
    (let s := linkedUp fun d => { d with switchAt := some 4, expect := 4 }
     s.linkRuns 0 false = true ∧ (s.link 0 false).expect = 4) ∧
    (flitLink 0 = true ∧ ((linkedUp fun d => { d with up := false }).link 0 false).up = false) ∧
    (35 < ((0x24000000000000 : Word).extractLsb' 48 8).toNat ∧ (0x23000000000000 : Word).getLsbD 63 = false ∧
      (((0x23000000000000 : Word).extractLsb' 48 8).toNat ≤ 35) ∧ depthSum (Tab.set State.reset.xmap 0 (0x23000000000000, 0)) 35 ≤ 16384) ∧
    (((placed State.reset).launches.any fun x => decide (x.2.st ≠ .retired) && x.2.job == 0) = true ∧
      (0x8000000000000000 : Word).getLsbD 63 = true) ∧
    (let s := { State.reset with xmap := [(0, (0x8000000000000000, 0))] }
     (Tab.get s.xmap 0 (0, 0)).1.getLsbD 63 = true ∧ (Tab.get s.xmap 0 (0, 0)).2 = 0 ∧ s.launches = [] ∧
      depthSum (Tab.set s.xmap 0 (0, 0)) 0 ≤ 16384) ∧
    (3 ∉ State.reset.trust.cxlDown ∧ natsFrom 0 State.reset.trust.cxlDown = true) := by decide +kernel

/-- A retry request of a receiver whose last flit accepted is `n`. -/
def retryFlit (n : BitVec 16) : Flit := ⟨0, n, false, 2, 0, []⟩

/-- Link 0 with a flit on the other direction's wire. -/
def answered (f : Flit) (g : LinkDir → LinkDir) : State :=
  let s := linkedUp g
  s.setLink 0 true { s.link 0 true with wire := [f] }

/-- Port 16 of a package in which every chiplet has attested. -/
def portUp (dir : Bool) (f : LinkDir → LinkDir) : State :=
  let s := mapped State.reset
  s.setLink 16 dir (f (s.link 16 dir))

theorem witness_LinkRetries :
    (let s := answered (retryFlit 0) fun d => { d with window := [flit 0 false, flit 1 false], fseq := 2 }
     s.linkRuns 0 false = true ∧ isPort 0 = false ∧ (retryFlit 0).ftype = 2 ∧ (s.link 0 false).attempts < 8) ∧
    (let s := portUp false fun d => { d with window := [flit 0 false], fseq := 1 }
     s.linkRuns 16 false = true ∧ isPort 16 = true ∧ (s.link 16 false).attempts < 7) ∧
    (let s := linkedUp fun d => { d with attempts := 8 }
     ∀ x ∈ (s.link 0 false).mods, x.2 + [0, 0, 0, 0].count 0 ≤ 4 ∧ ¬x.2 + [0, 0, 0, 0, 0].count 0 ≤ 4) ∧
    (let s := portUp false fun d => { d with attempts := 8 }
     s.linkRuns 16 false = true ∧
       ∀ x ∈ (s.link 16 false).mods, x.2 + (4 - x.1) + [0, 0].count 0 ≤ 2 ∧ ¬x.2 + (4 - x.1) + [0, 0, 0].count 0 ≤ 2) ∧
    (let s := linkedUp fun d => { d with txOld := some 0, rxNext := some 1, switchAt := some 4, aseq := 4 }
     (s.link 0 false).switchAt = some 4 ∧ (s.link 0 false).aseq = 4 ∧ (s.link 0 false).txOld ≠ none) ∧
    (let s := linkedUp fun d => { d with switchAt := some 4, aseq := 3 }
     (s.link 0 false).aseq + 1 = 4) ∧
    (let s := portUp true fun d => { d with acked := true }
     s.linkRuns 16 true = true ∧ isPort 16 = true ∧ (s.link 16 true).acked = true) ∧
    (State.reset.link 0 false).acked = false := by decide +kernel

theorem witness_PeriodsInAHandOver :
    ({ State.reset with trust := { Trust.reset with fwState := 3 } } : State).trust.fwState = 3 ∧
    (let s := State.reset.setTile 0 { State.reset.tile 0 with gateDue := true }
     (s.tile 0).gateDue = true ∧ tileCore 0 = 0 ∧ (s.core 0).cyc % 32 = 0) ∧
    (let s := { mapped State.reset with thermal := ⟨true, false, [0], [], 5, []⟩ }
     s.thermal.off = true ∧ s.thermal.cancels = [] ∧ s.trust.resets = [] ∧ s.trust.quarantined.getLsbD 25 = false ∧
      (0x3FFFFFF : BitVec 26).getLsbD 25 = true ∧ (0x1FFFFFF : BitVec 26).getLsbD 25 = false) := by decide +kernel

/-! ### Statements about trust, service and faults -/

/-- A machine in which every chiplet has attested, with changes. -/
def attestedBut (f : Trust → Trust) : State :=
  let s := mapped State.reset
  { s with trust := f s.trust }

/-- A single-die reset of die 3. -/
def resetting (step : Nat) : State := attestedBut fun t => { t with resets := [⟨3, step, true, 0⟩] }

/-- Die 3 has been in quarantine for 100 ms, and an access to its lines is held. -/
def overdue : State :=
  let s := tasking .gld 0x18000
  { s with
    refCyc := 170000000
    trust := { s.trust with resets := [⟨3, 2, true, 0⟩] }
    holds := [(0, ⟨0, 0, 0x18000, none, .req 0 1, false⟩)] }

theorem witness_TrustAndResets :
    ((0x3FFFEFF : BitVec 26).getLsbD 8 = false ∧ (0x3FFFFFF : BitVec 26).getLsbD 8 = true ∧ (0x3FFFFFE : BitVec 26).getLsbD 0 = false) ∧
    (attestedBut fun t => { t with noFw := true }).trust.noFw = true ∧
    ((attestedBut id).trust.reset? 3 = none ∧ (0x103 : Word).getLsbD 8 = true ∧ ((0x103 : Word).extractLsb' 0 5).toNat = 3) ∧
    ((0x003 : Word).getLsbD 8 = false ∧ ((0x108 : Word).extractLsb' 0 5).toNat = 8 ∧ ((0x11A : Word).extractLsb' 0 5).toNat = 26) ∧
    (let s := resetting 1
     s.trust.reset? 3 = some ⟨3, 1, true, 0⟩ ∧ s.thermal.critDies = [] ∧ s.resetRegions 3 = []) ∧
    (let s := resetting 2
     s.trust.reset? 3 = some ⟨3, 2, true, 0⟩ ∧ 3 ∉ s.trust.failed) ∧
    (overdue.trust.reset? 3 = some ⟨3, 2, true, 0⟩ ∧ 10 ^ 8 ≤ overdue.time ∧ overdue.heldFor 3 = [0]) := by decide +kernel

theorem witness_ColdStarts :
    State.reset.trust.flash.good = true ∧ State.reset.trust.fwState ≠ 4 ∧
    (attestedBut fun t => { t with flash := { t.flash with good := false } }).trust.flash.good = false ∧
    (attestedBut fun t => { t with fwState := 4 }).trust.fwState = 4 ∧
    ((attestedBut id).trust.quarantined.getLsbD 9 = false ∧ ∀ p ∈ [4, 5, 6, 7], p ∉ (attestedBut id).trust.cxlDown) ∧
    (let s := resetting 1
     s.launches = [] ∧ s.thermal.critDies = [] ∧ s.resetRegions 3 = []) := by decide +kernel

/-- An image that passes its checks, and one that fails each. -/
def goodFw : FwCheck := ⟨7, 3, 0, 0, true, true⟩

theorem witness_FirmwareAndRepair :
    (let s := attestedBut id
     s.trust.fwState = 0 ∧ s.feature 6 = false) ∧
    (let s := { attestedBut id with host := { HostRegs.reset with accept := [0x40, 0, 0, 0] } }
     s.trust.fwState = 0 ∧ s.feature 6 = true ∧ s.trust.recovery = false ∧ ¬goodFw.rollback < s.trust.fused) ∧
    (let s := attestedBut fun t => { t with fwState := 2, fwStaged := some (5, goodFw) }
     s.trust.fwStaged = some (5, goodFw) ∧ s.fwQuiet = true) ∧
    (let s := attestedBut fun t => { t with fwState := 2, fwStaged := some (5, goodFw), session := 1 }
     s.fwQuiet = false) ∧
    (attestedBut fun t => { t with fwState := 3, fwStaged := some (5, goodFw) }).trust.fwState = 3 ∧
    (let s := attestedBut fun t => { t with fwState := 4, fwStaged := some (5, goodFw) }
     s.trust.fwState = 4 ∧ s.trust.recovery = false) ∧
    (8191 ∉ ((attestedBut id).die 7).fencedTiles ∧ ((attestedBut id).tile 8191).region = none ∧
      ((attestedBut id).core (tileCore 8191)).sparesUsed < 4) ∧
    (let s := (attestedBut id).setCore (tileCore 8191) { (attestedBut id).core (tileCore 8191) with sparesUsed := 4 }
     4 ≤ (s.core (tileCore 8191)).sparesUsed ∧ 8191 ∉ (s.die (tileDie 8191)).fencedTiles) ∧
    (((attestedBut id).stack 15).1 = false ∧ ((attestedBut fun t => { t with hbm := [(15, (true, 0, false))] }).stack 15).1 = true) := by
  decide +kernel

/-- A row of bank group 1 of channel 0 of stack 0, with errors. -/
def worn (ue ce : Nat) : State := attestedBut fun t => { t with rows := [(rowKey (chanKey 0 0) 5, (ue, ce, 1))] }

/-- More corrected errors of a channel in the last second than the manual allows. -/
def erring : State := attestedBut fun t => { t with chanCe := [(chanKey 0 0, List.replicate 4097 0)] }

theorem witness_FirmwareSteps :
    (let s := attestedBut fun t => { t with recovery := true }
     s.trust.fwState = 0 ∧ s.feature 6 = false ∧ s.trust.recovery = true) ∧
    (∀ k ∈ [goodFw, { goodFw with formOk := false }, { goodFw with sigOk := false }],
      (attestedBut fun t => { t with fwState := 1, fwStaged := some (5, k) }).trust.fwStaged = some (5, k)) ∧
    (let s := attestedBut fun t => { t with fused := 4, fwState := 1, fwStaged := some (5, goodFw) }
     goodFw.rollback < s.trust.fused ∧ s.trust.fwState = 1 ∧ s.trust.recovery = false) ∧
    (let s := attestedBut fun t => { t with fwState := 4, fwStaged := some (5, goodFw), recovery := true }
     s.trust.fwState = 4 ∧ s.trust.recovery = true) ∧
    (0 ∉ (attestedBut id).trust.fencing ∧
      let s := attestedBut fun t => { t with fencing := [8191] }
      8191 ∈ s.trust.fencing ∧ natsFrom 0 s.trust.fencing = true ∧ (s.tile 8191).region = none) ∧
    (0 < Config.spareRows → ∀ y ∈ [(2, 0, 1), (0, 256, 1)], Tab.get? (worn y.1 y.2.1).trust.rows (rowKey (chanKey 0 0) 5) = some y ∧
      (2 ≤ y.1 ∨ 256 ≤ y.2.1) ∧ Tab.get (worn y.1 y.2.1).trust.rowSpares (groupKey (chanKey 0 0) y.2.2) 0 < Config.spareRows) ∧
    (Tab.get? (worn 1 255).trust.rows (rowKey (chanKey 0 0) 5) = some (1, 255, 1)) := by
  refine ⟨by decide +kernel, by decide +kernel, by decide +kernel, by decide +kernel, by decide +kernel, fun h => ?_,
    by decide +kernel⟩
  have hs (a b c : Nat) : Tab.get (worn a b).trust.rowSpares c 0 = 0 := rfl
  simp only [List.forall_mem_cons, hs, h, and_true]
  decide +kernel

theorem witness_FailingChannels : erring.trust.chanFails (chanKey 0 0) = true ∧ (erring.stack 0).1 = false ∧
    4096 < (Tab.get erring.trust.chanCe (chanKey 0 0) []).length := by decide +kernel

theorem witness_TakingAFault :
    (((placed (readyBy .pe .iadd 0)).modPool 0 .pe fun x => { x with run := .faulted }).tile 0).pe.run = .faulted ∧
    (let s := placed (readyBy .pe .iadd 0)
     ((s.tile 0).pool .pe).run ≠ .faulted ∧ (s.blockOf 0).isSome = true ∧ Tab.get? s.launches 0 = some launch0) ∧
    (let s := mirrored (placed (readyBy .pe .iadd 0))
     ((s.tile 0).pool .pe).ratified.contains 1 = false ∧ (Tab.get (s.die (tileDie 0)).mirror 1 GenEnt.reset).st ≠ .ratified) ∧
    (let s := feed (readyBy .pe .iadd 0) .pe 0 { wide 0 with fmt := 4 }
     s.trigger s.focus .iadd (operands .iadd 0) = true ∧ ((s.seen .iadd (operands .iadd 0)).convA .int).isOk = false) ∧
    Op.iadd ∈ sizedOps ++ bitOps := by decide +kernel

theorem witness_FaultRecords :
    (let s := placed (readyBy .pe .iadd 0)
     ((s.tile 0).pool .pe).frec = none ∧ launch0.st ≠ .retired) ∧
    ((State.reset.raise 0 .pe 0 0x46 0 0 0 0).tile 0).pe.frec.isSome = true := by decide +kernel

/-- A machine that is halted, with a step of the schedule that does not reset it. -/
def haltedBy (i : Instr) : State := { (attestedBut fun t => { t with halted := true }) with agenda := [.op i] }

theorem witness_Invariants :
    (State.reset.mem.wf = true ∧ (nextOf (step State.reset)).isSome = true) ∧
    ((haltedBy .functionReset).trust.halted = true ∧ (nextOf (step (haltedBy .functionReset))).isSome = true) := by decide +kernel

theorem witness_HaltedPremise : ∀ att ok, (haltedBy .functionReset).agenda.head? ≠ some (.op (.coldReset att ok)) := by
  intro att ok h; simp [haltedBy] at h

/-! ### Results that the manual works out -/

/-- Lane 0 of the result that an instruction of the PE pool leaves, on inputs with `a` and `b` in every lane. -/
def outcome (o : Op) (md : BitVec 3) (fmt : BitVec 4) (a b : Word) : Option Word := do
  let s := feed (feed (readyBy .pe o md) .pe 0 { wide a with fmt := fmt }) .pe 1 { wide b with fmt := fmt }
  let t ← nextOf (exec (o.mk (operands o md)) s)
  let e ← (t.tile 0).pe.inflight.getLast?
  let r ← e.val
  pure r.lanes.l0

/-- The worked values of R153. -/
theorem test_saturating_add : outcome .iadds 1 1 0x000000007FFFFFF0 0x20 = some 0x000000007FFFFFFF ∧
    outcome .iadds 3 1 0xFFFFFFFFFFFFFFF0 0x20 = some 0xFFFFFFFFFFFFFFFF := by decide +kernel
theorem test_shifts : outcome .shr 0 1 0xF000000000000000 70 = some 0x03C0000000000000 ∧
    outcome .sar 0 1 0xF000000000000000 70 = some 0xFFC0000000000000 := by decide +kernel
theorem test_high_products : outcome .imulh 0 1 0x8000000000000000 2 = some 0xFFFFFFFFFFFFFFFF ∧
    outcome .imulh 2 1 0x8000000000000000 2 = some 1 := by decide +kernel
theorem test_bits : outcome .ineg 0 1 0x8000000000000000 0 = some 0x8000000000000000 ∧ outcome .clz 1 1 0 0 = some 32 ∧
    outcome .bfx 2 1 0x0F00 0x0408 = some 0xFFFFFFFFFFFFFFFF := by decide +kernel

/-- The encodings of R161, and the tie below them under RNE and RUP. -/
theorem test_wf_encodings : (Val.fin 3 0).toWf 0 = 0x0005800000000000 ∧ (Val.fin (-1) 0).toWf 0 = 0xFFFE000000000000 ∧
    (Val.fin 20 0).toWf 0 = 0x0011400000000000 ∧ (Val.fin 1 (-8191)).toWf 0 = 0x8005000000000000 ∧
    (Val.inf true).toWf 0 = 0x8003FFFFFFFFFFFF ∧ (Val.fin (2 ^ 49 + 1) (-49)).toWf 0 = 0x0001000000000000 ∧
    (Val.fin (2 ^ 49 + 1) (-49)).toWf 3 = 0x0001000000000001 := by decide +kernel

/-- The E4M3 conversions of R172. -/
theorem test_e4m3 : (encodeElem 0x11 (.fin 20 0) 0 false).1 = 0x5A ∧ (encodeElem 0x11 (.fin 470 0) 0 false).1 = 0x7F ∧
    (encodeElem 0x11 (.fin 470 0) 0 true).1 = 0x7E ∧ (encodeElem 0x11 (.fin 470 0) 1 false).1 = 0x7E ∧
    (encodeElem 0x11 (.fin (-1) (-10)) 0 false).1 = 0 ∧ (encodeElem 0x11 (.inf false) 0 true).1 = 0x7E := by decide +kernel

/-- The pass of two K-blocks worked out in R175's chapter. -/
theorem test_macro_dot : macroDot [4979, 1] [1, -60] [0, -10] 6 (roundWf (-1) (-70) 0) 0 = 0x0005373000000000 := by
  decide +kernel

/-- The FMA of R218's example rounds once, where FMUL and FADD round twice. -/
theorem test_fma : (((Val.ofWf 0x0001000000000001).mul (Val.ofWf 0x0001000000000001)).add (Val.ofWf 0x0002FFFFFFFFFFFE)).toWf 0 =
    0xFE81000000000000 := by decide +kernel
theorem test_fmul : outcome .fmul 0 0 0x0001000000000001 0x0001000000000001 = some 0x0001000000000002 ∧
    outcome .fadd 0 0 0x0001000000000002 0x0002FFFFFFFFFFFE = some 0 := by decide +kernel
theorem test_fexp2 : outcome .fexp2 0 0 0x0005800000000000 0 = some 0x000D000000000000 := by decide +kernel

/-- The words of R157's example. -/
theorem test_word_listing_157 :
    decode .pe 0x0000000168093202 = .ok (.icmp (fields (.wr 0) (.peek 0) (.const 2) 2)) ∧
    decode .pe 0x00000001681CE402 = .ok (.icmp (fields (.wr 1) (.const 3) (.peek 0) 2)) ∧
    decode .pe 0x0000000134200100 = .ok (.or (fields (.wr 2) (.rd 0) (.rd 1) 0)) ∧
    decode .pe 0x000000019330B802 = .ok (.plane (fields (.pred 3) (.rd 2) (.imm 0) 2)) := by decide

/-- The pairs of R235: TOPKI of its beat of logits, and ARGMC's joins. -/
theorem test_topki :
    (let s := feed (feed (readyBy .pe .topki 1) .pe 0 { zeros 0 with lanes := Lanes.ofList [0x0001000000000000,
        0x0005400000000000, wfNaN, wfNInf, 0xFFFD000000000000, 0x0005400000000000, 0xFFFE000000000000, 0] }) .pe 1 (wide 16)
     (nextOf (exec (Op.topki.mk (operands .topki 1)) s)).bind fun t => (t.tile 0).pe.inflight.getLast?.bind fun e =>
       e.val.map fun r => r.lanes) =
    some (Lanes.ofList [0x0005400000000000, 17, 0x0005400000000000, 21, 0x0001000000000000, 16, 0xFFFD000000000000, 20]) := by
  decide +kernel
theorem test_argmc :
    (let pair (v id : Word) : Tok := { zeros 6 with
       lanes := Lanes.ofList [v, id]
       mask := 3 }
     let join (x y : Tok) : Option (Word × Word) :=
       (nextOf (exec (Op.argmc.mk (operands .argmc 0)) (feed (feed (readyBy .pe .argmc 0) .pe 0 x) .pe 1 y))).bind fun t =>
         (t.tile 0).pe.inflight.getLast?.bind fun e => e.val.map fun r => (r.lanes.l0, r.lanes.l1)
     join (pair 0x0005400000000000 4113) (pair 0x0005400000000000 17) = some (0x0005400000000000, 17) ∧
     join (pair wfNaN 8192) (pair 0x0005400000000000 17) = some (0x0005400000000000, 17)) := by decide +kernel

/-- R119's example of shares. -/
theorem test_shares : (shares [⟨3, 0, 3, 1300, 0⟩, ⟨1, 4, 7, 7400, 0⟩] fun g => g.occ / 1024).map (·.credit) = [439, 585] := by
  decide

/-- The worked grammar of R251: its rules in its bank and its inputs in XV. -/
def worked (lim : Nat) : State :=
  let x : List Word := [0x0001000000000000, 0xFFFD000000000000, 0xFFFE000000000000, 0x0005800000000000]
  let words : List Word := [0x8000040000020000, 0x00000000000E0002, 0x00000001000E0003, 0x8000040100020001,
    0x4000000000000000, 0x00000002000E0001, 0x8000040200020002, 0x4000000000000001, 0x00000003000E0004, 0xC000000000000000]
  let e := { MxEng.reset with
    mode := 2
    glen := 10
    depthLim := lim
    xv := [(0, { zeros 0 with lanes := Lanes.ofList x })]
    work := some (.grammar 0 4 1 0 10 [], 1) }
  { engaged e with mem := (words.zipIdx).foldl (fun (m : Mem) w => m.writeWord (bankBase 0 / 8 + w.2) w.1 false) State.reset.mem }

theorem test_grammar : (∃ r, (worked 8).grRun 0 0 4 = .ok r ∧ r.rules.map (fun x => (x.1, x.2.1, x.2.2)) =
      [(0, 0x0005C00000000000, 1), (1, 0x0005400000000000, 2), (2, 0x000DD00000000000, 3)] ∧
      (r.count, r.deepest, r.words) = (3, 3, 10)) := ⟨_, rfl, by decide +kernel, by decide +kernel⟩
theorem test_grammar_depth : (match (worked 2).grRun 0 0 4 with
    | .error e => some (e.code, e.w3, e.w4)
    | .ok _ => none) = some (0x54, 0x0000002300020007, 0x4000000000000001) := by decide +kernel

/-- Three slices of the ballast example of R391's chapter. -/
theorem test_ballast :
    (let run (last load : Nat) : Nat × Nat :=
       let s := { State.reset with cores := [(0, { State.reset.core 0 with
         cyc := 32
         lastLoad := last
         load := load })] }
       ((nextOf (exec (.ballastSlice 0) s)).map fun t => ((t.core 0).lastLoad, (t.core 0).ballast)).getD (0, 0)
     Config.pwrSlope = 128 → run 640 0 = (512, 512) ∧ run 512 23 = (384, 361) ∧ run 384 9 = (256, 247)) := by decide +kernel

/-- The token of the codec's example (R381): 169 bits between chiplets and 195 at a Craxon port, and its table after. -/
theorem test_codec :
    (let t : Tok := { zeros 0 with lanes := Lanes.ofList [wfOne, wfOne, 0, 0xFFFD000000000000, 0, 0, 0x0005800000000000, wfOne] }
     let (b, tab) := segCode false true (fun _ => 0) freshTab (.tok 7 0 0 t 0)
     let (c, _) := segCode true true (fun _ => 0) freshTab (.tok 7 3 5 t 0)
     zmask t = 0xCB ∧ b.2 = 169 ∧ c.2 = 195 ∧ tab.take 3 = [0, 1, -1]) := by decide +kernel

/-- The KIND test of R111's item 4 comes before the code of D (item 6). -/
theorem test_reject_order : decode .ag 1065861357824 = .error .testsSwitch := by decide

/-- A control payload read as an integer is read as BITS (R166). -/
theorem test_ctlw_as_bits : (convLanes .int (zeros 15)).map (·.2) = some 3 := by decide

/-- A reserved space code fails the second check of a stream's block (R178). -/
theorem test_stream_space : checkStream (Lanes.ofList [0x2C00000000000000, 0x0000000100000008, 1, 0, 0x0050000000000000, 0,
    0x3000000000000000, 0]) = some 1 := by decide

end Sys2Proof.Tests
end

/-! ## The ends of channels (R34, R35, R85, R88, R115 to R127) -/

namespace Sys2Proof.Machine

open Sys2Proof

/-! ### Inputs and outputs of a pool -/

theorem PoolSt.inp_lt {x : PoolSt} {i : Nat} (h : x.inp i ≠ InPort.none) : i < x.ins.length := by
  by_contra hi
  exact h (by simp [PoolSt.inp, List.getD_eq_getElem?_getD, List.getElem?_eq_none (Nat.le_of_not_lt hi)])

theorem PoolSt.out_lt {x : PoolSt} {o : Nat} (h : x.out o ≠ OutPort.none) : o < x.outs.length := by
  by_contra ho
  exact h (by simp [PoolSt.out, List.getD_eq_getElem?_getD, List.getElem?_eq_none (Nat.le_of_not_lt ho)])

/-- An input changed where the pool has it. -/
theorem PoolSt.inp_modify {x : PoolSt} {i : Nat} (f : InPort → InPort) (h : i < x.ins.length) :
    PoolSt.inp { x with ins := x.ins.modify i f } i = f (x.inp i) := by
  simp [PoolSt.inp, List.getD_eq_getElem?_getD, List.getElem?_eq_getElem h]

/-- An output changed where the pool has it. -/
theorem PoolSt.out_modify {x : PoolSt} {o : Nat} (f : OutPort → OutPort) (h : o < x.outs.length) :
    PoolSt.out { x with outs := x.outs.modify o f } o = f (x.out o) := by
  simp [PoolSt.out, List.getD_eq_getElem?_getD, List.getElem?_eq_getElem h]

theorem PoolSt.inp_lt_of_chan {x : PoolSt} {i ch : Nat} (h : (x.inp i).chan = some ch) : i < x.ins.length :=
  PoolSt.inp_lt fun he => by simp [he, InPort.none] at h

theorem PoolSt.inp_lt_of_queue {x : PoolSt} {i : Nat} {r : Tok} {rest : List Tok} (h : (x.inp i).queue = r :: rest) :
    i < x.ins.length :=
  PoolSt.inp_lt fun he => by simp [he, InPort.none] at h

theorem PoolSt.out_lt_of_chan {x : PoolSt} {o ch : Nat} (h : (x.out o).chan = some ch) : o < x.outs.length :=
  PoolSt.out_lt fun he => by simp [he, OutPort.none] at h

theorem PoolSt.inp_popInput {x : PoolSt} {i : Nat} {r : Tok} {rest : List Tok} (h : (x.inp i).queue = r :: rest) :
    (x.popInput i).inp i = { x.inp i with queue := rest } := by
  unfold PoolSt.popInput
  rw [PoolSt.inp_modify _ (PoolSt.inp_lt_of_queue h), h]
  rfl

/-- The output at which a channel starts, changed. -/
theorem State.out_modOutput {s : State} {ch k : Nat} {p : Pool} {o : Nat} (f : OutPort → OutPort)
    (h : (((s.tile k).pool p).out o).chan = some ch) :
    (((s.modOutput ch k p o f).tile k).pool p).out o = f (((s.tile k).pool p).out o) := by
  unfold State.modOutput
  simp only [State.tile_modPool, Tile.pool_modPool]
  rw [PoolSt.out_modify _ (PoolSt.out_lt_of_chan h), if_pos h]

/-- A pool changed in what is not its inputs: every pool keeps them. -/
theorem State.ins_modPool (s : State) (k : Nat) (p : Pool) {f : PoolSt → PoolSt} (hf : ∀ x, (f x).ins = x.ins) (j : Nat)
    (q : Pool) : (((s.modPool k p f).tile j).pool q).ins = ((s.tile j).pool q).ins := by
  by_cases hj : j = k
  · subst hj
    rw [State.tile_modPool]
    by_cases hq : q = p
    · subst hq
      rw [Tile.pool_modPool, hf]
    · rw [Tile.pool_modPool_ne _ _ hq]
  · rw [State.tile_modPool_ne s p _ hj]

/-- A change of an output leaves the inputs of every pool. -/
theorem State.ins_modOutput (s : State) (ch k : Nat) (p : Pool) (o : Nat) (f : OutPort → OutPort) (j : Nat) (q : Pool) :
    (((s.modOutput ch k p o f).tile j).pool q).ins = ((s.tile j).pool q).ins := by
  apply State.ins_modPool
  intro x
  rfl

/-- The input at which a channel ends, changed. -/
theorem State.inp_modInput {s : State} {ch k : Nat} {p : Pool} {i : Nat} (f : InPort → InPort)
    (h : (((s.tile k).pool p).inp i).chan = some ch) :
    (((s.modInput ch k p i f).tile k).pool p).inp i = f (((s.tile k).pool p).inp i) := by
  unfold State.modInput
  simp only [State.tile_modPool, Tile.pool_modPool]
  rw [PoolSt.inp_modify _ (PoolSt.inp_lt_of_chan h), if_pos h]

/-! ### A channel, a block and a launch after a change, and an active region -/

theorem State.chan_modChan {s : State} {ch : Nat} {y : Chan} (f : Chan → Chan) (h : Tab.get? s.chans ch = some y) :
    Tab.get? (s.modChan ch f).chans ch = some (f y) := by
  simp [State.modChan, h]

theorem State.block_modBlock {s : State} {bid : Nat} {b : Block} (f : Block → Block) (h : Tab.get? s.blocks bid = some b) :
    Tab.get? (s.modBlock bid f).blocks bid = some (f b) := by
  simp [State.modBlock, h]

theorem State.launch_modLaunch {s : State} {m : Nat} {l : Launch} (f : Launch → Launch)
    (h : Tab.get? s.launches m = some l) : Tab.get? (s.modLaunch m f).launches m = some (f l) := by
  simp [State.modLaunch, h]

theorem State.markActive_mem (s : State) (k : Nat) : (s.markActive k).mem = s.mem := by
  unfold State.markActive; split <;> simp

theorem State.markActive_chans (s : State) (k : Nat) : (s.markActive k).chans = s.chans := by
  unfold State.markActive; split <;> simp

theorem State.markActive_evq (s : State) (k : Nat) : (s.markActive k).evq = s.evq := by
  unfold State.markActive; split <;> simp

theorem State.markActive_blocks (s : State) (k : Nat) : (s.markActive k).blocks = s.blocks := by
  unfold State.markActive; split <;> simp

/-! ### Thread tokens (R34) -/

theorem exec_threadTokenEnqueue (lseq : Nat) (s : State) :
    exec (.threadTokenEnqueue lseq) s = execThreadTokenEnqueue lseq s := rfl

/-- Noting that a block waits changes that block alone. -/
theorem State.noteWait_rest (s : State) (bid : Nat) :
    (s.noteWait bid).mem = s.mem ∧ (s.noteWait bid).launches = s.launches ∧ (s.noteWait bid).chans = s.chans := by
  unfold State.noteWait
  split
  · split <;> exact ⟨rfl, rfl, rfl⟩
  · exact ⟨rfl, rfl, rfl⟩

/-- A thread token joins the entry queue of its block, and nothing leaves memory or the launches. -/
theorem State.placeToken_joins {s : State} {bid : Nat} {y : Chan} (t : Tok) (h : Tab.get? s.chans (entryChan bid) = some y) :
    (s.placeToken bid t).mem = s.mem ∧ (s.placeToken bid t).launches = s.launches ∧
      Tab.get? (s.placeToken bid t).chans (entryChan bid) = some { y with items := y.items ++ [.tok t 0] } := by
  unfold State.placeToken
  obtain ⟨hm, hl, hc⟩ :=
    State.noteWait_rest (s.modChan (entryChan bid) fun y => { y with items := y.items ++ [.tok t 0] }) bid
  refine ⟨by simp [hm], by simp [hl], ?_⟩
  rw [hc]
  exact State.chan_modChan _ h

/-- An entry queue has room where it holds fewer tokens than its depth, bits 47:32 of its block's entry. -/
theorem queue_room {b : Block} {n : Nat} (h : n < (b.entry.2.1.extractLsb' 32 16).toNat) :
    ¬fld b.entry.2.1 47 32 ≤ n := by
  rw [fld_extract _ 47 32 (by omega)]
  exact Nat.not_le.mpr h

section ThreadTokens

variable {s : State} {lseq : Nat} {l : Launch} {b : Block} (hl : Tab.get? s.launches lseq = some l)
  (hb : Tab.get? s.blocks (lseq * 256 + l.firstBlk) = some b) (hst : l.st = .placed)
  (hroom : s.queued (lseq * 256 + l.firstBlk) < (b.entry.2.1.extractLsb' 32 16).toNat)

include hl hb hst hroom

/-- The entry queue has room: the thread token of the next unit is placed. -/
theorem threadTokenEnqueue_next (hre : l.reTok = []) (hn : l.nextTok < l.unitCount) :
    exec (.threadTokenEnqueue lseq) s =
      .next ((s.setLaunch lseq { l with nextTok := l.nextTok + 1 }).placeToken (lseq * 256 + l.firstBlk)
        (threadToken l l.nextTok 0)) := by
  rw [exec_threadTokenEnqueue]
  simp [execThreadTokenEnqueue, hl, hb, hst, queue_room hroom, hre, hn]

/-- The entry queue has room, and the die knows the fresh tag of an aborted unit: its thread token is placed again. -/
theorem threadTokenEnqueue_again {i : Nat} {g : BitVec 8} {x : Nat} {rest : List (Nat × BitVec 8 × Nat)}
    (hre : l.reTok = (i, g, x) :: rest) (hg : (Tab.get (s.die b.die).mirror g.toNat GenEnt.reset).st = .live) :
    exec (.threadTokenEnqueue lseq) s =
      .next ((s.setLaunch lseq { l with reTok := rest }).placeToken (lseq * 256 + l.firstBlk) (threadToken l i g)) := by
  rw [exec_threadTokenEnqueue]
  simp [execThreadTokenEnqueue, hl, hb, hst, queue_room hroom, hre, hg]

end ThreadTokens

/-! ### What a port does on an arrival (R86, R125, R341) -/

/-- What a port's checks leave: memory, channels, regions, and of every tile its region and the inputs of its pools. -/
structure KeepsPorts (s t : State) : Prop where
  mem : t.mem = s.mem
  chans : t.chans = s.chans
  regions : t.regions = s.regions
  region : ∀ k, (t.tile k).region = (s.tile k).region
  ins : ∀ k p, ((t.tile k).pool p).ins = ((s.tile k).pool p).ins

theorem KeepsPorts.refl (s : State) : KeepsPorts s s := ⟨rfl, rfl, rfl, fun _ => rfl, fun _ _ => rfl⟩

theorem KeepsPorts.trans {s t u : State} (h : KeepsPorts s t) (h' : KeepsPorts t u) : KeepsPorts s u :=
  ⟨h'.mem.trans h.mem, h'.chans.trans h.chans, h'.regions.trans h.regions, fun k => (h'.region k).trans (h.region k),
    fun k p => (h'.ins k p).trans (h.ins k p)⟩

/-- A pool that stops keeps its inputs. -/
theorem keepsPorts_stop (s : State) (k : Nat) (p : Pool) (r : FaultRec) : KeepsPorts s (s.modPool k p (·.stop r)) where
  mem := rfl
  chans := rfl
  regions := rfl
  region j := by
    by_cases hj : j = k
    · subst hj
      simp
    · rw [State.tile_modPool_ne s p _ hj]
  ins := State.ins_modPool s k p fun _ => rfl

/-- A fault's delivery writes an event and its launch alone. -/
theorem keepsPorts_deliverFault (s : State) (k : Nat) (p : Pool) (r : FaultRec) : KeepsPorts s (s.deliverFault k p r) := by
  unfold State.deliverFault
  dsimp only
  split
  · exact .refl s
  · split
    · constructor <;> simp [State.holdLaunch, State.report]
    · constructor <;> simp [State.report]

theorem keepsPorts_raise (s : State) (k : Nat) (p : Pool) (slot code : Nat) (gen : BitVec 8) (w3 w4 w5 : Word) :
    KeepsPorts s (s.raise k p slot code gen w3 w4 w5) := by
  unfold State.raise
  dsimp only
  split
  · exact .refl s
  · split
    · exact (keepsPorts_stop s k p _).trans (keepsPorts_deliverFault _ k p _)
    · exact keepsPorts_stop s k p _

theorem keepsPorts_portCheck (s : State) (k : Nat) (p : Pool) : KeepsPorts s (s.portCheck k p) := by
  unfold State.portCheck
  split
  · exact keepsPorts_raise s k p _ _ _ _ _ _
  · exact .refl s

/-- No shadow is armed in the region of a tile. -/
def Unarmed (s : State) (k : Nat) : Prop := ∀ z, s.regionOf k = some z → z.armed = none

theorem KeepsPorts.unarmed {s t : State} (h : KeepsPorts s t) {k : Nat} (hs : Unarmed s k) : Unarmed t k := by
  unfold Unarmed State.regionOf at *
  rw [h.region, h.regions]
  exact hs

/-- A tile of a region that is not armed is not stranded (R86). -/
theorem Unarmed.strandCheck {s : State} {k : Nat} (h : Unarmed s k) : s.strandCheck k = s := by
  have hat : s.strandedAt k = none := by
    cases hr : s.regionOf k with
    | none => simp [State.strandedAt, hr]
    | some z => simp [State.strandedAt, hr, h z hr]
  unfold State.strandCheck
  rw [hat]

/-- A region changed in what is not its armed block. -/
theorem Unarmed.modRegion {s : State} {k : Nat} (h : Unarmed s k) (j : Nat) {f : Region → Region}
    (hf : ∀ x, (f x).armed = x.armed) : Unarmed (s.modRegion j f) k := by
  unfold State.modRegion
  split
  case h_2 => exact h
  case h_1 x hx =>
    intro z hz
    obtain ⟨r, hr, hz⟩ := Option.bind_eq_some_iff.mp hz
    by_cases hrj : r = j
    · subst hrj
      have hzx : f x = z := by simpa using hz
      rw [← hzx, hf]
      exact h x (Option.bind_eq_some_iff.mpr ⟨r, hr, hx⟩)
    · rw [State.setRegion_regions, Tab.get?_set_ne _ _ hrj] at hz
      exact h z (Option.bind_eq_some_iff.mpr ⟨r, hr, hz⟩)

theorem Unarmed.markActive {s : State} {k : Nat} (h : Unarmed s k) (j : Nat) : Unarmed (s.markActive j) k := by
  unfold State.markActive
  split
  · exact h.modRegion _ fun x => by split <;> rfl
  · exact h

/-! ### Tokens at the end of a channel (R120, R126, R306) -/

theorem exec_tokenArrive (ch : Nat) (s : State) : exec (.tokenArrive ch) s = execTokenArrive ch s := rfl

/-- The source of a channel is marked active, or nothing is done. -/
theorem State.srcActive_cases (s : State) (y : Chan) : (∃ k, s.srcActive y = s.markActive k) ∨ s.srcActive y = s := by
  unfold State.srcActive
  split
  · exact .inl ⟨_, rfl⟩
  · exact .inr rfl

section SrcActive

variable (s : State) (y : Chan)

@[simp] theorem State.srcActive_mem : (s.srcActive y).mem = s.mem := by
  obtain ⟨k, h⟩ | h := s.srcActive_cases y <;> simp [h, State.markActive_mem]

@[simp] theorem State.srcActive_chans : (s.srcActive y).chans = s.chans := by
  obtain ⟨k, h⟩ | h := s.srcActive_cases y <;> simp [h, State.markActive_chans]

@[simp] theorem State.srcActive_blocks : (s.srcActive y).blocks = s.blocks := by
  obtain ⟨k, h⟩ | h := s.srcActive_cases y <;> simp [h, State.markActive_blocks]

@[simp] theorem State.srcActive_tiles : (s.srcActive y).tiles = s.tiles := by
  obtain ⟨k, h⟩ | h := s.srcActive_cases y <;> simp [h, State.markActive_tiles]

theorem Unarmed.srcActive {s : State} {k : Nat} (h : Unarmed s k) (y : Chan) : Unarmed (s.srcActive y) k := by
  obtain ⟨j, hj⟩ | hj := s.srcActive_cases y
  · rw [hj]
    exact h.markActive j
  · rw [hj]
    exact h

end SrcActive

/-- A token as it arrives, under its own tag or under 0 (R324). -/
theorem State.arriving_cases (s : State) (y : Chan) (r : Tok) :
    s.arriving y r = r ∨ s.arriving y r = { r with gen := 0 } := by
  unfold State.arriving
  dsimp only
  split
  · exact .inr rfl
  · exact .inl rfl

/-- What a channel's next token meets is its end. -/
theorem execTokenArrive_tok {s : State} {ch : Nat} {y : Chan} {r : Tok} {n : Nat} {rest : List Item}
    (hy : Tab.get? s.chans ch = some y) (hi : y.items = .tok r n :: rest) :
    exec (.tokenArrive ch) s = .next (s.tokenEnd ch y r n rest) := by
  rw [exec_tokenArrive]
  simp [execTokenArrive, hy, hi]

/-- One beat joins an input where a source without credits finds room and the damper counts nothing. -/
theorem State.enterBeats_one {s : State} {ch : Nat} {y : Chan} {k : Nat} {p : Pool} {i : Nat} {t : Tok}
    (hroom : y.src.free = false ∨ (((s.tile k).pool p).inp i).queue.length < (((s.tile k).pool p).inp i).depth)
    (hdamp : t.kind ≠ 0 ∨ s.dampRegion y k = none) : s.enterBeats ch y k p i t 1 = (1, s.enter ch k p i t) := by
  have hr : (y.src.free &&
      decide ((((s.tile k).pool p).inp i).depth ≤ (((s.tile k).pool p).inp i).queue.length)) = false := by
    rcases hroom with h | h
    · simp [h]
    · simp [Nat.not_le.mpr h]
  have hd : (if t.kind == 0 then s.damp (s.dampRegion y k) (dampChan ch) else (true, s)) = (true, s) := by
    rcases hdamp with h | h
    · rw [if_neg (by simpa using h)]
    · simp [h, State.damp]
  simp only [State.enterBeats, hr, hd]
  rfl

/-- One beat of a channel has joined an input, before the port looks at its heads; `rest` is what the channel still holds. -/
def State.beatJoined (s : State) (ch : Nat) (y : Chan) (k : Nat) (p : Pool) (i : Nat) (u : Tok) (rest : List Item) : State :=
  ((s.enter ch k p i u).srcActive y).modChan ch fun z => { z with items := rest }

/-- A token reaches an input that is live, has room for it and wants it. -/
theorem State.tokenEnd_inp {s : State} {ch : Nat} {y : Chan} {r : Tok} {rest : List Item} {k : Nat} {p : Pool} {i : Nat}
    (hdst : y.dst = .inp k p i) (hdead : y.dead.contains (s.arriving y r).gen = false)
    (hchan : (((s.tile k).pool p).inp i).chan = some ch)
    (hroom : (((s.tile k).pool p).inp i).queue.length < (((s.tile k).pool p).inp i).depth ∨
      (∃ a b c, y.src = .out a b c) ∧ isSwap (s.arriving y r) = false)
    (hdamp : (s.arriving y r).kind ≠ 0 ∨ s.dampRegion y k = none)
    (hlive : ∀ b l, (s.tile k).block = some b → Tab.get? s.launches (b / 256) = some l → l.st ≠ .retired) :
    s.tokenEnd ch y r 0 rest = (s.beatJoined ch y k p i (s.arriving y r) rest).arrived k p := by
  have hfull : (((s.tile k).pool p).inp i).full (s.arriving y r) = false := by
    rcases hroom with h | ⟨-, h⟩
    · simp [InPort.full, Nat.not_le.mpr h]
    · simp [InPort.full, h]
  have hsrc : y.src.free = false ∨ (((s.tile k).pool p).inp i).queue.length < (((s.tile k).pool p).inp i).depth := by
    rcases hroom with h | ⟨⟨a, b, c, h⟩, -⟩
    · exact .inr h
    · exact .inl (by rw [h]; rfl)
  have hwant : s.unwanted k (((s.tile k).pool p).inp i) (s.arriving y r) = false := by
    have hret : ((s.tile k).block.any fun b => s.isRetired (b / 256)) = false := by
      cases hb : (s.tile k).block with
      | none => rfl
      | some b =>
        cases hl : Tab.get? s.launches (b / 256) with
        | none => simp [State.isRetired, hl]
        | some l => simp [State.isRetired, hl, hlive b l hb hl]
    simp [State.unwanted, hret]
  unfold State.tokenEnd
  simp only [hdead, hdst, State.endLive, hchan, hfull, hwant, State.enterBeats_one hsrc hdamp]
  simp [Item.rest, State.beatJoined]

section Joined

variable {s : State} {ch : Nat} (y : Chan) {k : Nat} {p : Pool} {i : Nat} (u : Tok) (rest : List Item)

theorem Unarmed.beatJoined (h : Unarmed s k) : Unarmed (s.beatJoined ch y k p i u rest) k := by
  have henter : Unarmed (s.enter ch k p i u) k := by
    unfold Unarmed State.enter State.modInput State.regionOf at *
    simpa using h
  have hsrc := henter.srcActive y
  unfold Unarmed State.beatJoined State.regionOf at *
  simpa using hsrc

theorem State.inp_beatJoined (hchan : (((s.tile k).pool p).inp i).chan = some ch) :
    ((((s.beatJoined ch y k p i u rest).tile k).pool p).inp i).queue = (((s.tile k).pool p).inp i).queue ++ [u] := by
  have ht : (s.beatJoined ch y k p i u rest).tile k = (s.enter ch k p i u).tile k := by
    simp [State.beatJoined, State.tile]
  rw [ht, State.enter, State.inp_modInput _ hchan]

theorem State.chan_beatJoined {y : Chan} (hy : Tab.get? s.chans ch = some y) :
    Tab.get? (s.beatJoined ch y k p i u rest).chans ch = some { y with items := rest } := by
  refine State.chan_modChan _ ?_
  rw [State.srcActive_chans]
  exact hy

/-- What the arrival leaves, whatever the port reports: the token stands last in its input, and the channel has lost it. -/
theorem State.arrived_beatJoined {y : Chan} (hy : Tab.get? s.chans ch = some y)
    (hchan : (((s.tile k).pool p).inp i).chan = some ch) (harm : Unarmed s k) :
    let t := (s.beatJoined ch y k p i u rest).arrived k p
    t.mem = s.mem ∧ (((t.tile k).pool p).inp i).queue = (((s.tile k).pool p).inp i).queue ++ [u] ∧
      Tab.get? t.chans ch = some { y with items := rest } := by
  intro t
  have hk := keepsPorts_portCheck ((s.beatJoined ch y k p i u rest).markActive k) k p
  have ht : t = ((s.beatJoined ch y k p i u rest).markActive k).portCheck k p :=
    (hk.unarmed ((harm.beatJoined y u rest).markActive k)).strandCheck
  refine ⟨?_, ?_, ?_⟩
  · rw [ht, hk.mem, State.markActive_mem]
    simp [State.beatJoined, State.enter, State.modInput]
  · rw [← State.inp_beatJoined y u rest hchan]
    unfold PoolSt.inp
    rw [ht, hk.ins]
    unfold State.tile
    rw [State.markActive_tiles]
  · rw [ht, hk.chans, State.markActive_chans]
    exact State.chan_beatJoined u rest hy

end Joined

/-- A token that comes to a done sink joins what the sink holds. -/
theorem State.tokenEnd_done {s : State} {ch : Nat} {y : Chan} {r : Tok} {rest : List Item} {bid : Nat} {b : Block}
    (hdst : y.dst = .done bid) (hdead : y.dead.contains (s.arriving y r).gen = false)
    (hb : Tab.get? s.blocks bid = some b) :
    let t := s.tokenEnd ch y r 0 rest
    t.mem = s.mem ∧ t.tiles = s.tiles ∧ Tab.get? t.chans ch = some { y with items := rest } ∧
      Tab.get? t.blocks bid = some { b with doneQ := b.doneQ ++ [s.arriving y r] } := by
  have ht : s.tokenEnd ch y r 0 rest = ((s.srcActive y).setChan ch { y with items := rest }).modBlock bid fun x =>
      { x with doneQ := x.doneQ ++ [s.arriving y r] } := by
    unfold State.tokenEnd
    simp only [hdead, hdst]
    simp
  rw [ht]
  refine ⟨by simp, by simp, by simp, ?_⟩
  exact State.block_modBlock _ (by simpa using hb)

/-- Beats that are dropped leave memory and what stands in the channels. -/
theorem State.dropped_keeps {s : State} {ch : Nat} {y : Chan} (n : Nat) (arr : Bool) (hy : Tab.get? s.chans ch = some y) :
    (s.dropped ch n arr).mem = s.mem ∧ ∃ z, Tab.get? (s.dropped ch n arr).chans ch = some z ∧ z.items = y.items := by
  unfold State.dropped
  simp only [hy]
  split
  · exact ⟨rfl, y, hy, rfl⟩
  · split
    · split
      · exact ⟨rfl, y, hy, rfl⟩
      · exact ⟨rfl, _, Tab.get?_set_self _ _ _, rfl⟩
    · split
      · split
        · exact ⟨rfl, y, hy, rfl⟩
        · exact ⟨rfl, y, hy, rfl⟩
      · exact ⟨rfl, _, Tab.get?_set_self _ _ _, rfl⟩
      · exact ⟨rfl, y, hy, rfl⟩

/-- A token of a dead generation is dropped at the end of its channel. -/
theorem State.tokenEnd_dead {s : State} {ch : Nat} {y : Chan} {r : Tok} {n : Nat} {rest : List Item}
    (hdead : y.dead.contains (s.arriving y r).gen = true) :
    (s.tokenEnd ch y r n rest).mem = s.mem ∧
      ∃ z, Tab.get? (s.tokenEnd ch y r n rest).chans ch = some z ∧ z.items = rest := by
  have ht : s.tokenEnd ch y r n rest = (s.setChan ch { y with items := rest }).dropped ch (n + 1) false := by
    unfold State.tokenEnd
    simp only [hdead]
    simp
  rw [ht]
  exact State.dropped_keeps (n + 1) false (y := { y with items := rest }) (by simp)

/-! ### Credits and requests on their way back (R121, R122) -/

theorem exec_creditReturn (ch : Nat) (s : State) : exec (.creditReturn ch) s = execCreditReturn ch s := rfl

theorem exec_requestReturn (ch : Nat) (s : State) : exec (.requestReturn ch) s = execRequestReturn ch s := rfl

/-- Requests that came early concern circuits that leave the package alone. -/
theorem State.takeEarly_inp {s : State} {ch : Nat} {y : Chan} {k : Nat} {p : Pool} {i : Nat}
    (hy : Tab.get? s.chans ch = some y) (hdst : y.dst = .inp k p i) : s.takeEarly ch = s := by
  unfold State.takeEarly
  simp only [hy, hdst]
  split <;> simp_all

section Returns

variable {s : State} {ch : Nat} {y : Chan} (hy : Tab.get? s.chans ch = some y) {k : Nat} {p : Pool} {o : Nat}
  (hsrc : y.src = .out k p o) {k' : Nat} {p' : Pool} {i' : Nat} (hdst : y.dst = .inp k' p' i')

include hy hsrc hdst

/-- On one die the credits reach the producer's output. -/
theorem creditReturn_here (hn : y.credBack ≠ 0) (hp : y.path = [])
    (ho : (((s.tile k).pool p).out o).chan = some ch) :
    exec (.creditReturn ch) s = .next ((s.setChan ch { y with credBack := 0 }).modOutput ch k p o fun q =>
      { q with credits := q.credits + y.credBack }) := by
  rw [exec_creditReturn]
  simp [execCreditReturn, hy, hsrc, hdst, hn, Chan.lastLink, hp, State.startLive, ho]

/-- Across dies they start on the last link of the channel's way. -/
theorem creditReturn_across {l : Nat} {dir : Bool} (hn : y.credBack ≠ 0) (hp : y.path.getLast? = some (l, dir)) :
    exec (.creditReturn ch) s =
      .next ((s.setChan ch { y with credBack := 0 }).queueSeg l (!dir) (.credit ch 0 0 y.credBack)) := by
  rw [exec_creditReturn]
  simp [execCreditReturn, hy, hsrc, hdst, hn, Chan.lastLink, hp]

/-- On one die the requests reach the producer's output. -/
theorem requestReturn_here (hn : y.reqBack ≠ 0) (hp : y.path = [])
    (ho : (((s.tile k).pool p).out o).chan = some ch) :
    exec (.requestReturn ch) s = .next ((s.setChan ch { y with reqBack := 0 }).modOutput ch k p o fun q =>
      { q with reqs := q.reqs + y.reqBack }) := by
  rw [exec_requestReturn]
  simp [execRequestReturn, State.takeEarly_inp hy hdst, hy, hsrc, hdst, hn, Chan.lastLink, hp, State.startLive, ho]

/-- Across dies they start on the last link of the channel's way. -/
theorem requestReturn_across {l : Nat} {dir : Bool} (hn : y.reqBack ≠ 0) (hp : y.path.getLast? = some (l, dir)) :
    exec (.requestReturn ch) s =
      .next ((s.setChan ch { y with reqBack := 0 }).queueSeg l (!dir) (.request ch 0 0 y.reqBack)) := by
  rw [exec_requestReturn]
  simp [execRequestReturn, State.takeEarly_inp hy hdst, hy, hsrc, hdst, hn, Chan.lastLink, hp]

end Returns

/-! ### Depth tokens (R88) -/

theorem exec_depthToken (k : Nat) (p : Pool) (i : Fin 4) (s : State) :
    exec (.depthToken k p i) s = execDepthToken k p i s := rfl

/-- A depth token by its fields: KIND 5, and 1 in bits 23:20 of SIDE. -/
theorem isDepth_of_fields {r : Tok} (hk : r.kind = 5) (hs : r.side.extractLsb' 20 4 = 1) : isDepth r = true := by
  have h := congrArg BitVec.toNat hs
  simp only [BitVec.extractLsb'_toNat] at h
  have hlt := r.side.isLt
  have h20 : r.side.toNat / 1048576 = 1 := by
    rw [Nat.shiftRight_eq_div_pow] at h
    simp at h
    omega
  simp [isDepth, hk, h20]

/-- An input whose head, a depth token, has been taken. -/
def State.headTaken (s : State) (k : Nat) (p : Pool) (i : Nat) : State := (s.modPool k p fun x => x.popInput i).markActive k

theorem State.headTaken_tile (s : State) (k : Nat) (p : Pool) (i : Nat) :
    (s.headTaken k p i).tile k = (s.tile k).modPool p fun x => x.popInput i := by
  unfold State.headTaken
  rw [← State.tile_modPool]
  unfold State.tile
  rw [State.markActive_tiles]

theorem State.headTaken_inp {s : State} {k : Nat} {p : Pool} {i : Nat} {r : Tok} {rest : List Tok}
    (h : (((s.tile k).pool p).inp i).queue = r :: rest) :
    (((s.headTaken k p i).tile k).pool p).inp i = { ((s.tile k).pool p).inp i with queue := rest } := by
  rw [State.headTaken_tile, Tile.pool_modPool]
  exact PoolSt.inp_popInput h

theorem State.headTaken_mem (s : State) (k : Nat) (p : Pool) (i : Nat) : (s.headTaken k p i).mem = s.mem := by
  simp [State.headTaken, State.markActive_mem]

theorem State.headTaken_evq (s : State) (k : Nat) (p : Pool) (i : Nat) : (s.headTaken k p i).evq = s.evq := by
  simp [State.headTaken, State.markActive_evq]

/-- An input's depth written. -/
def State.setDepth (s : State) (k : Nat) (p : Pool) (i n : Nat) : State :=
  s.modPool k p fun x => { x with ins := x.ins.modify i fun q => { q with depth := n } }

theorem State.inp_setDepth {s : State} {k : Nat} {p : Pool} {i : Nat} (n : Nat) (h : i < ((s.tile k).pool p).ins.length) :
    (((s.setDepth k p i n).tile k).pool p).inp i = { ((s.tile k).pool p).inp i with depth := n } := by
  unfold State.setDepth
  rw [State.tile_modPool, Tile.pool_modPool, PoolSt.inp_modify _ h]

/-- Credits reset by a depth leave memory, the events and the inputs of every pool. -/
theorem State.setCredits_keeps (s : State) (ch n : Nat) :
    (s.setCredits ch n).mem = s.mem ∧ (s.setCredits ch n).evq = s.evq ∧
      ∀ k p, (((s.setCredits ch n).tile k).pool p).ins = ((s.tile k).pool p).ins := by
  have hid : s.mem = s.mem ∧ s.evq = s.evq ∧ ∀ k p, ((s.tile k).pool p).ins = ((s.tile k).pool p).ins :=
    ⟨rfl, rfl, fun _ _ => rfl⟩
  unfold State.setCredits
  split
  · split
    · split
      · exact hid
      · refine ⟨rfl, rfl, fun k p => ?_⟩
        rw [State.ins_modOutput]
        rfl
    · exact hid
  · exact hid

/-- The depth that a depth token asks for. -/
theorem depth_of_side (r : Tok) : r.side.toNat % 32 + 1 = (r.side.extractLsb' 0 5).toNat + 1 := by
  simp [BitVec.extractLsb'_toNat]

section Depth

variable {s : State} {k : Nat} {p : Pool} {i : Fin 4} {r : Tok} {rest : List Tok}
  (hq : (((s.tile k).pool p).inp i.val).queue = r :: rest) (hk : r.kind = 5) (hs : r.side.extractLsb' 20 4 = 1)

include hq hk hs

/-- A depth that the tile's beat slots allow becomes the input's. -/
theorem depthToken_fits
    (hn : (r.side.extractLsb' 0 5).toNat + 1 ≤ (((s.tile k).pool p).inp i.val).depth + (s.tile k).freeBeats) :
    ∃ t, exec (.depthToken k p i) s = .next t ∧ t.mem = s.mem ∧ t.evq = s.evq ∧
      ((t.tile k).pool p).inp i.val =
        { ((s.tile k).pool p).inp i.val with queue := rest, depth := (r.side.extractLsb' 0 5).toNat + 1 } := by
  have hexec : exec (.depthToken k p i) s = .next ((((s.tile k).pool p).inp i.val).chan.elim
      ((s.headTaken k p i.val).setDepth k p i.val ((r.side.extractLsb' 0 5).toNat + 1)) fun ch =>
        ((s.headTaken k p i.val).setDepth k p i.val ((r.side.extractLsb' 0 5).toNat + 1)).setCredits ch
          ((r.side.extractLsb' 0 5).toNat + 1)) := by
    rw [exec_depthToken]
    simp [execDepthToken, hq, isDepth_of_fields hk hs, depth_of_side, Nat.not_lt.mpr hn, State.setDepth, State.headTaken]
  have hlt : i.val < (((s.headTaken k p i.val).tile k).pool p).ins.length := by
    rw [State.headTaken_tile]
    simpa [PoolSt.popInput] using PoolSt.inp_lt_of_queue hq
  have hinp := State.inp_setDepth ((r.side.extractLsb' 0 5).toNat + 1) hlt
  rw [State.headTaken_inp hq] at hinp
  refine ⟨_, hexec, ?_⟩
  cases (((s.tile k).pool p).inp i.val).chan with
  | none => exact ⟨s.headTaken_mem k p i.val, s.headTaken_evq k p i.val, hinp⟩
  | some ch =>
    obtain ⟨hm, he, hi⟩ := State.setCredits_keeps
      ((s.headTaken k p i.val).setDepth k p i.val ((r.side.extractLsb' 0 5).toNat + 1)) ch
      ((r.side.extractLsb' 0 5).toNat + 1)
    refine ⟨hm.trans (s.headTaken_mem k p i.val), he.trans (s.headTaken_evq k p i.val), ?_⟩
    rw [← hinp]
    exact congrArg (fun l : List InPort => l.getD i.val InPort.none) (hi k p)

/-- A depth beyond them is reported, and the input keeps its own. -/
theorem depthToken_exceeds
    (hn : (((s.tile k).pool p).inp i.val).depth + (s.tile k).freeBeats < (r.side.extractLsb' 0 5).toNat + 1) :
    ∃ (t : State) (e : Event), exec (.depthToken k p i) s = .next t ∧ t.mem = s.mem ∧ t.evq.held = s.evq.held ++ [e] ∧
      e.code = 0x17 ∧ ((t.tile k).pool p).inp i.val = { ((s.tile k).pool p).inp i.val with queue := rest } := by
  have hexec : ∃ e : Event, e.code = 0x17 ∧ exec (.depthToken k p i) s =
      .next (((s.headTaken k p i.val).creditFor ((s.tile k).pool p) i.val).post e) := by
    rw [exec_depthToken]
    simp only [execDepthToken, hq, isDepth_of_fields hk hs, depth_of_side, hn, State.headTaken, State.report, if_true]
    exact ⟨_, rfl, rfl⟩
  obtain ⟨e, he, hexec⟩ := hexec
  have hrest := State.creditFor_rest (s.headTaken k p i.val) ((s.tile k).pool p) i.val
  refine ⟨_, e, hexec, ?_, ?_, he, ?_⟩
  · exact (congrArg State.mem hrest).trans (s.headTaken_mem k p i.val)
  · have hevq : ((s.headTaken k p i.val).creditFor ((s.tile k).pool p) i.val).evq = s.evq :=
      (congrArg State.evq hrest).trans (s.headTaken_evq k p i.val)
    rw [State.post_evq, hevq]
  · rw [State.tile_post, ← State.headTaken_inp hq]
    unfold State.tile
    rw [State.creditFor_tiles]

end Depth

/-! ### The done sink (R35, R127, R316) -/

theorem exec_unitFinish (lseq blk : Nat) (s : State) : exec (.unitFinish lseq blk) s = execUnitFinish lseq blk s := rfl

/-- A number put into a list stands in it. -/
theorem contains_putNat (xs : List Nat) (a : Nat) : (putNat xs a).contains a = true := by
  induction xs with
  | nil => simp [putNat]
  | cons x rest ih =>
    unfold putNat
    split
    · simp
    · split
      · rename_i h
        simp [h]
      · simp only [List.contains_cons, ih, Bool.or_true]

/-- The run of a generation after a change that keeps its generation. -/
theorem UnitSt.run?_modRun (u : UnitSt) (g : BitVec 8) {f : Run → Run} (hf : ∀ r, (f r).gen = r.gen) :
    ∃ r, (u.modRun g f).run? g = some (f r) := by
  unfold UnitSt.modRun
  split
  · rename_i r hr
    refine ⟨r, ?_⟩
    have hg : (f r).gen = g := (hf r).trans (by simpa using List.find?_some hr)
    unfold UnitSt.run? at hr ⊢
    dsimp only
    generalize u.runs = runs at hr
    induction runs with
    | nil => simp at hr
    | cons x rest ih =>
      by_cases hx : x.gen = g
      · simp [hx, hg]
      · have hx' : (x.gen == g) = false := by simpa using hx
        rw [List.find?_cons, hx'] at hr
        rw [List.map_cons, hx', List.find?_cons]
        simp only [Bool.false_eq_true, if_false, hx']
        exact ih hr
  · rename_i hr
    refine ⟨⟨g, [], false⟩, ?_⟩
    unfold UnitSt.run? at hr ⊢
    dsimp only
    rw [List.find?_append, hr]
    simp [hf]

/-- The run of a generation of a unit after its change, in the launch's own entry. -/
theorem State.run_modUnit {s : State} {lseq i : Nat} {l : Launch} (g : BitVec 8) {f : Run → Run}
    (hl : Tab.get? s.launches lseq = some l) (hf : ∀ r, (f r).gen = r.gen) :
    ∃ m r, Tab.get? (s.modUnit lseq i fun u => u.modRun g f).launches lseq = some m ∧ (m.unit i).run? g = some (f r) := by
  obtain ⟨r, hr⟩ := UnitSt.run?_modRun (l.unit i) g hf
  refine ⟨_, r, State.launch_modLaunch _ hl, ?_⟩
  simpa [Launch.unit] using hr

/-- Ending an aborted run queues its unit at the root, and writes nothing else. -/
theorem State.endAborted_keeps (s : State) (lseq i : Nat) (g : BitVec 8) :
    (s.endAborted lseq i g).mem = s.mem ∧ (s.endAborted lseq i g).blocks = s.blocks ∧
      (s.endAborted lseq i g).launches = s.launches := by
  unfold State.endAborted
  split
  · split <;> exact ⟨rfl, rfl, rfl⟩
  · exact ⟨rfl, rfl, rfl⟩

section Sink

variable {s : State} {lseq blk : Nat} {l : Launch} {b : Block} {r : Tok} {rest : List Tok}
  (hl : Tab.get? s.launches lseq = some l) (hb : Tab.get? s.blocks (lseq * 256 + blk) = some b) (hq : b.doneQ = r :: rest)

include hl hb hq

/-- A token that is no END leaves the sink. -/
theorem unitFinish_drops (hk : r.kind ≠ 1) :
    exec (.unitFinish lseq blk) s = .next (s.setBlock (lseq * 256 + blk) { b with doneQ := rest }) := by
  rw [exec_unitFinish]
  simp only [execUnitFinish, hl, hb, hq]
  rw [if_pos hk]

/-- An END of GEN 0 finishes the oldest unfinished unit. -/
theorem unitFinish_oldest (hk : r.kind = 1) (hg : r.gen = 0) :
    exec (.unitFinish lseq blk) s =
      .next ((s.setBlock (lseq * 256 + blk) { b with doneQ := rest }).finishOldest l blk { b with doneQ := rest }) := by
  rw [exec_unitFinish]
  simp [execUnitFinish, hl, hb, hq, hk, hg]

/-- An END of another generation finishes that generation's run. -/
theorem unitFinish_run (hk : r.kind = 1) (hg : r.gen ≠ 0) :
    exec (.unitFinish lseq blk) s =
      .next ((s.setBlock (lseq * 256 + blk) { b with doneQ := rest }).finishRun l blk r.gen) := by
  rw [exec_unitFinish]
  simp only [execUnitFinish, hl, hb, hq]
  rw [if_neg (not_not.mpr hk), if_neg (by simpa using hg)]

end Sink

/-- A block with a unit placed and not finished counts it. -/
theorem State.finishOldest_counts {s : State} {lseq blk : Nat} {l : Launch} {b : Block} (hls : l.lseq = lseq)
    (hn : b.finished < if blk = l.firstBlk then l.nextTok else l.unitCount) :
    (s.finishOldest l blk b).mem = s.mem ∧
      Tab.get? (s.finishOldest l blk b).blocks (lseq * 256 + blk) = some { b with finished := b.finished + 1 } := by
  unfold State.finishOldest
  dsimp only
  rw [if_pos hn, hls]
  obtain ⟨hm, hb, -⟩ :=
    State.endAborted_keeps (s.setBlock (lseq * 256 + blk) { b with finished := b.finished + 1 }) lseq b.finished 0
  exact ⟨hm, by rw [hb]; simp⟩

/-- A live generation of a launch has its run's END counted for the block. -/
theorem State.finishRun_counts {s : State} {lseq blk : Nat} {l : Launch} {g : BitVec 8} (hls : l.lseq = lseq)
    (hl : Tab.get? s.launches lseq = some l) (hst : (s.root.ent g.toNat).st = .live) (he : (s.root.ent g.toNat).lseq = lseq) :
    (s.finishRun l blk g).mem = s.mem ∧ (s.finishRun l blk g).blocks = s.blocks ∧
      ∃ m u, Tab.get? (s.finishRun l blk g).launches lseq = some m ∧
        (m.unit (s.root.ent g.toNat).pos).run? g = some u ∧ u.fin.contains blk = true := by
  obtain ⟨m, u, hm, hu⟩ := State.run_modUnit (i := (s.root.ent g.toNat).pos) g
    (f := fun r => { r with fin := putNat r.fin blk }) hl fun _ => rfl
  have hfin : s.finishRun l blk g = (s.modUnit lseq (s.root.ent g.toNat).pos fun u => u.modRun g fun r =>
      { r with fin := putNat r.fin blk }).endAborted lseq (s.root.ent g.toNat).pos g := by
    unfold State.finishRun
    simp [hst, he, hls]
  obtain ⟨h1, h2, h3⟩ := State.endAborted_keeps (s.modUnit lseq (s.root.ent g.toNat).pos fun u => u.modRun g fun r =>
      { r with fin := putNat r.fin blk }) lseq (s.root.ent g.toNat).pos g
  rw [hfin]
  refine ⟨h1.trans (by simp [State.modUnit]), h2.trans (by simp [State.modUnit]), m, _, ?_, hu, contains_putNat _ _⟩
  rw [h3]
  exact hm

/-! ### Epochs (R118) -/

theorem exec_epochEnd (k : Nat) (p : Pool) (s : State) : exec (.epochEnd k p) s = execEpochEnd k p s := rfl

section Shares

variable (gs : List Group) (a : Group → Nat)

/-- The share of a group before the rest is given out (R118). -/
def shareOf (g : Group) : Nat := 1024 * (g.w * (a g + 1)) / (gs.map fun h => h.w * (a h + 1)).sum

/-- What the shares of the groups leave of 1,024. -/
def shareRest : Nat := 1024 - (gs.map fun g => if g.w = 0 then 0 else shareOf gs a g).sum

/-- A group of index `i` in the next epoch, where the group of index `low` takes the rest `d`. -/
def shared (sh : Group → Nat) (low : Option Nat) (d : Nat) (g : Group) (i : Nat) : Group :=
  if g.w = 0 then g
  else { g with
    occ := 0
    credit := sh g + if low = some i then d else 0 }

theorem shares_eq : shares gs a = gs.zipIdx.map fun g =>
    shared (shareOf gs a) (gs.findIdx? fun g => g.w != 0) (shareRest gs a) g.1 g.2 := rfl

theorem shares_length : (shares gs a).length = gs.length := by simp [shares_eq]

variable {gs a}

theorem shares_getElem? {i : Nat} {g : Group} (h : gs[i]? = some g) :
    (shares gs a)[i]? = some (shared (shareOf gs a) (gs.findIdx? fun g => g.w != 0) (shareRest gs a) g i) := by
  simp [shares_eq, h]

/-- A group after another with a weight is not the one that takes the rest. -/
theorem findIdx?_ne_of_earlier {i j : Nat} {h : Group} (hji : j < i) (hj : gs[j]? = some h) (hw : h.w ≠ 0) :
    gs.findIdx? (fun g => g.w != 0) ≠ some i := by
  intro hi
  obtain ⟨_, _, hlt⟩ := List.findIdx?_eq_some_iff_getElem.mp hi
  have hb := hlt j hji
  obtain ⟨hjl, hje⟩ := List.getElem?_eq_some_iff.mp hj
  simp [hje, hw] at hb

/-- The credits of the groups that have a weight. -/
def creditSum (l : List Group) : Int := ((l.filter fun g => g.w != 0).map (·.credit)).sum

theorem creditSum_cons (g : Group) (l : List Group) :
    creditSum (g :: l) = (if g.w = 0 then 0 else g.credit) + creditSum l := by
  unfold creditSum
  by_cases h : g.w = 0 <;> simp [h]

@[simp] theorem shared_w (sh : Group → Nat) (low : Option Nat) (d : Nat) (g : Group) (i : Nat) :
    (shared sh low d g i).w = g.w := by
  unfold shared; split <;> rfl

/-- Past the group that takes the rest, the credits are the shares. -/
theorem creditSum_after (sh : Group → Nat) (m d : Nat) (gs : List Group) {n : Nat} (hn : m < n) :
    creditSum ((gs.zipIdx n).map fun g => shared sh (some m) d g.1 g.2) =
      ((gs.map fun g => if g.w = 0 then 0 else sh g).sum : Nat) := by
  induction gs generalizing n with
  | nil => rfl
  | cons g rest ih =>
    rw [List.zipIdx_cons, List.map_cons, creditSum_cons, ih (by omega : m < n + 1)]
    by_cases h : g.w = 0
    · simp [h]
    · simp [h, shared, hn.ne]

/-- The first group with a weight takes the rest, so the credits are the shares and the rest. -/
theorem creditSum_shared (sh : Group → Nat) (d : Nat) (gs : List Group) (n : Nat) (hw : ∃ g ∈ gs, g.w ≠ 0) :
    creditSum ((gs.zipIdx n).map fun g => shared sh ((gs.findIdx? fun g => g.w != 0).map (· + n)) d g.1 g.2) =
      ((gs.map fun g => if g.w = 0 then 0 else sh g).sum + d : Nat) := by
  induction gs generalizing n with
  | nil => simp at hw
  | cons g rest ih =>
    rw [List.zipIdx_cons, List.map_cons, creditSum_cons]
    by_cases h : g.w = 0
    · have hrest : ∃ g ∈ rest, g.w ≠ 0 := by simpa [h] using hw
      have hidx : ((g :: rest).findIdx? fun g => g.w != 0).map (· + n) =
          (rest.findIdx? fun g => g.w != 0).map (· + (n + 1)) := by
        simp [List.findIdx?_cons, h, Function.comp_def, Nat.add_assoc, Nat.add_comm 1 n]
      rw [hidx, ih (n + 1) hrest]
      simp [h]
    · have hidx : ((g :: rest).findIdx? fun g => g.w != 0).map (· + n) = some n := by simp [List.findIdx?_cons, h]
      rw [hidx, creditSum_after sh n d rest (Nat.lt_succ_self n)]
      simp [h, shared]
      omega

/-- Quotients by one divisor sum to no more than the quotient of the sum. -/
theorem sum_div_mul_le (f : Group → Nat) (c d : Nat) (gs : List Group) :
    (gs.map fun g => c * f g / d).sum * d ≤ c * (gs.map f).sum := by
  induction gs with
  | nil => simp
  | cons g rest ih =>
    simp only [List.map_cons, List.sum_cons, Nat.add_mul, Nat.mul_add]
    exact Nat.add_le_add (Nat.div_mul_le_self _ _) ih

theorem shareOf_sum_le (gs : List Group) (a : Group → Nat) (hw : ∃ g ∈ gs, g.w ≠ 0) :
    (gs.map fun g => if g.w = 0 then 0 else shareOf gs a g).sum ≤ 1024 := by
  have hzero : (gs.map fun g => if g.w = 0 then 0 else shareOf gs a g) = gs.map (shareOf gs a) := by
    refine List.map_congr_left fun g _ => ?_
    split
    · rename_i h
      simp [shareOf, h]
    · rfl
  have hpos : 0 < (gs.map fun h => h.w * (a h + 1)).sum := by
    obtain ⟨g, hg, h⟩ := hw
    have hle := List.single_le_sum (l := gs.map fun h => h.w * (a h + 1)) (fun _ _ => Nat.zero_le _) _
      (List.mem_map_of_mem hg)
    exact lt_of_lt_of_le (Nat.mul_pos (Nat.pos_of_ne_zero h) (Nat.succ_pos _)) hle
  rw [hzero]
  exact Nat.le_of_mul_le_mul_right (sum_div_mul_le (fun h => h.w * (a h + 1)) 1024 _ gs) hpos

/-- The credits of the groups with a weight sum to 1,024. -/
theorem creditSum_shares (hw : ∃ g ∈ gs, g.w ≠ 0) : creditSum (shares gs a) = 1024 := by
  have h := creditSum_shared (shareOf gs a) (shareRest gs a) gs 0 hw
  have hle := shareOf_sum_le gs a hw
  simp only [Nat.add_zero, Option.map_id'] at h
  rw [shares_eq, h]
  unfold shareRest
  omega

end Shares

/-- An epoch of a pool ends: the shares of the next one stand. -/
theorem epochEnd_shares {s : State} {k : Nat} {p : Pool}
    (hcyc : ((s.tile k).pool p).epochAt + 1024 ≤ (s.core (tileCore k)).cyc) (hg : (s.tile k).gated = false) :
    exec (.epochEnd k p) s = .next (s.modPool k p fun y => { y with
      groups := shares y.groups fun g => g.occ / 1024
      epochAt := y.epochAt + 1024 }) := by
  rw [exec_epochEnd]
  simp [execEpochEnd, hcyc, hg]

/-! ### The ends of channels -/

/-- Settles O50: what each end does is one of the lemmas above, in the order of the statement (entry queues, arrivals with
credits and requests, depth tokens, the done sink, epochs). -/
theorem channelEnds : Obligations.ChannelEnds := by
  unfold Obligations.ChannelEnds
  intro s
  refine ⟨?_, ?_, ?_, ?_, ?_⟩
  · intro lseq l b y bid ch hl hb hy hst hroom
    refine ⟨fun hre hn => ?_, fun i g x rest hre hg => ?_⟩
    · obtain ⟨hm, hls, hc⟩ := State.placeToken_joins (s := s.setLaunch lseq { l with nextTok := l.nextTok + 1 })
        (threadToken l l.nextTok 0) hy
      refine ⟨_, { l with nextTok := l.nextTok + 1 }, threadTokenEnqueue_next hl hb hst hroom hre hn, hm, ?_, rfl, hc⟩
      rw [hls]
      simp
    · obtain ⟨-, hls, hc⟩ := State.placeToken_joins (s := s.setLaunch lseq { l with reTok := rest }) (threadToken l i g) hy
      refine ⟨_, { l with reTok := rest }, threadTokenEnqueue_again hl hb hst hroom hre hg, ?_, rfl, hc⟩
      rw [hls]
      simp
  · intro ch y hy
    refine ⟨?_, ?_, ?_⟩
    · intro r rest u
      refine ⟨s.arriving_cases y r, fun hi hdead => ⟨?_, ?_⟩⟩
      · intro k p i x hdst hchan hroom hdamp harm hlive
        obtain ⟨hm, hq, hc⟩ := State.arrived_beatJoined u rest hy hchan harm
        refine ⟨_, { y with items := rest }, ?_, hm, hq, hc, rfl⟩
        rw [execTokenArrive_tok hy hi, State.tokenEnd_inp hdst hdead hchan hroom hdamp hlive]
      · intro bid b hdst hb
        exact ⟨_, execTokenArrive_tok hy hi, State.tokenEnd_done hdst hdead hb⟩
    · intro r n rest hi hdead
      obtain ⟨hm, z, hz, hitems⟩ := State.tokenEnd_dead (n := n) (rest := rest) hdead
      exact ⟨_, z, execTokenArrive_tok hy hi, hm, hz, hitems⟩
    · intro k p o k' p' i' hsrc hdst
      refine ⟨fun hn hp ho => ?_, fun l dir hn hp => creditReturn_across hy hsrc hdst hn hp,
        fun hn hp ho => ?_, fun l dir hn hp => requestReturn_across hy hsrc hdst hn hp⟩
      · refine ⟨_, creditReturn_here hy hsrc hdst hn hp ho, rfl, Tab.get?_set_self _ _ _, ?_⟩
        exact congrArg OutPort.credits (State.out_modOutput (s := s.setChan ch { y with credBack := 0 }) _ ho)
      · refine ⟨_, requestReturn_here hy hsrc hdst hn hp ho, rfl, Tab.get?_set_self _ _ _, ?_⟩
        exact congrArg OutPort.reqs (State.out_modOutput (s := s.setChan ch { y with reqBack := 0 }) _ ho)
  · intro k p i r rest x n hq hk hs
    exact ⟨depthToken_fits hq hk hs, depthToken_exceeds hq hk hs⟩
  · intro lseq blk l b r rest hl hb hls hq
    refine ⟨fun hk => ?_, fun hk hg hn => ?_, fun hk hg hst he => ?_⟩
    · exact ⟨_, unitFinish_drops hl hb hq hk, rfl, rfl, Tab.get?_set_self _ _ _⟩
    · exact ⟨_, unitFinish_oldest hl hb hq hk hg, State.finishOldest_counts hls hn⟩
    · obtain ⟨hm, hbs, m, u, hml, hu, hfin⟩ := State.finishRun_counts (blk := blk)
        (s := s.setBlock (lseq * 256 + blk) { b with doneQ := rest }) hls hl hst he
      refine ⟨_, m, u, unitFinish_run hl hb hq hk hg, hm, hml, hu, hfin, ?_⟩
      rw [hbs]
      simp
  · intro k p x w hcyc hg
    refine ⟨_, shares x.groups fun g => g.occ / 1024, epochEnd_shares hcyc hg, rfl, ?_, ?_, shares_length _ _, ?_, ?_, ?_⟩
    · simp [x]
    · simp [x]
    · intro i g hi hw
      rw [shares_getElem? hi, shared, if_pos hw]
    · intro i g hi hw hearlier
      obtain ⟨j, h, hji, hj, hh⟩ := hearlier
      rw [shares_getElem? hi, shared, if_neg hw, if_neg (findIdx?_ne_of_earlier hji hj hh)]
      simp [shareOf, w]
    · exact creditSum_shares

end Sys2Proof.Machine

/-! ## Cancels on a launch table out of key order

`Tab` promises keys that rise strictly, and nothing in `State` enforces it. -/

namespace Sys2Proof.Machine

open Sys2Proof

/-- Launch 3: accepted, and awaiting graph 7 of its phase (await kind 1 in bits 45:44 of w0, its operand in w5). -/
def awaitingLaunch : Launch :=
  ⟨3, [0x0000100000000001, 0, 0, 0, 0, 7, 0, 0, 0, 0, 0, 0, 0, 0, 0, 0], 0, .accepted, none, false, 0, 0, 0, none, [], 0,
    [], none, [], false⟩

/-- Launch 5, which has retired. -/
def retiredLaunch : Launch :=
  ⟨5, [1, 0, 0, 0, 0, 0, 0, 0, 0, 0, 0, 0, 0, 0, 0, 0], 0, .retired, none, false, 0, 0, 0, none, [], 0, [], none, [], false⟩

/-- A device with job 0 live and its graph 7 retired CANCELLED, whose launch table lists launch 5 before launch 3. -/
def outOfOrder : State :=
  { State.reset with
    jobs := [(0, { Job.reset with st := 1 })]
    graphs := [⟨0, 0, 7, 0, [], none, true, true, 0⟩]
    launches := [(5, retiredLaunch), (3, awaitingLaunch)] }

/-- CANCEL of launch 3 gives it CAUSE 0xFFFE: the write of its entry leaves the old one behind launch 5, where the cascade of
R32 finds it accepted and awaiting cancelled work, and retires key 3 once more. With its two launches in key order the same
device gives 0xFFFD. -/
theorem outOfOrder_cancel_cause :
    (Tab.get? (outOfOrder.cancelWrite 3).launches 3).map (·.cause) = some (some 0xFFFE) := by decide +kernel

/-- Refutes O46: the statement ranges over launch tables whose keys do not rise, and on `outOfOrder` a cancel of launch 3 at
the launch level retires it with CAUSE 0xFFFE, where the statement has 0xFFFD. -/
theorem not_commitAndCancels : ¬Obligations.CommitAndCancels := by
  unfold Obligations.CommitAndCancels
  intro h
  obtain ⟨-, hcancel, -, -⟩ := h
  obtain ⟨hlaunch, -⟩ := hcancel outOfOrder 3 rfl rfl rfl
  obtain ⟨htakes, -⟩ := hlaunch awaitingLaunch rfl rfl rfl rfl rfl
  obtain ⟨t, ht, -, hended⟩ := htakes (by decide)
  obtain ⟨l', hl', -, hcause⟩ := hended 3 awaitingLaunch rfl rfl (by decide)
  have hexec : exec (.cancelLaunch 3) outOfOrder = .next (outOfOrder.cancelWrite 3) := rfl
  obtain rfl : t = outOfOrder.cancelWrite 3 := Host.Outcome.next.inj (ht.symm.trans hexec)
  have hfffe := outOfOrder_cancel_cause
  rw [hl', Option.map_some, hcause] at hfffe
  exact absurd hfffe (by decide)

end Sys2Proof.Machine

/-! ## Registers of the host at reset and in use (R48 to R51, R294, R346, R353, R383, R386, R387, R397) -/

namespace Sys2Proof.Machine

open Sys2Proof

/-! ### Fields of a word, bit by bit -/

/-- A field's bits are the word's. -/
theorem testBit_fld (w : Word) (h l i : Nat) : (fld w h l).testBit i = (decide (i < h + 1 - l) && w.getLsbD (l + i)) := by
  simp [fld, Nat.testBit_mod_two_pow, Nat.testBit_div_two_pow, BitVec.testBit_toNat, Nat.add_comm]

/-- A value placed at bit `l` of a word stands there, cut off at the word's end. -/
theorem getLsbD_place (n l i : Nat) : (place n l).getLsbD i = (decide (i < 64 ∧ l ≤ i) && n.testBit (i - l)) := by
  simp [place, BitVec.getLsbD_ofNat, Nat.testBit_mul_two_pow, Bool.and_assoc]

/-- A word cut to its low bits is the field at its low end. -/
theorem setWidth_eq_low {n : Nat} (v : Word) : v.setWidth n = v.extractLsb' 0 n := by
  ext i hi
  simp

/-! ### What BAR0 reads -/

section Reads

variable {s : State}

/-- A package that is halted or has no firmware answers no read of BAR0 (R404, R406). -/
theorem readBar0_silent (h : ¬(s.trust.halted = false ∧ s.trust.noFw = false)) (off : Nat) : s.readBar0 off = none := by
  have hs : (s.trust.halted || s.trust.noFw) = true := by
    cases hh : s.trust.halted <;> simp_all
  simp [State.readBar0, hs]

/-- Any other package answers with its register. -/
theorem readBar0_answers (h : s.trust.halted = false ∧ s.trust.noFw = false) (off : Nat) :
    s.readBar0 off = s.register off := by
  simp [State.readBar0, h.1, h.2]

/-- A register that stands alone is found first. -/
theorem register_of_single {off : Nat} {x : Word} (h : s.readSingle off = some x) : s.register off = some x := by
  simp [State.register, h]

/-- No register that stands alone lies between 0x50 and the registers of the event queue. -/
theorem readSingle_arrays {off : Nat} (h : off < 0x40 ∨ (0x50 < off ∧ off < 0x800)) : s.readSingle off = none := by
  unfold State.readSingle
  split <;> first | omega | rfl

/-- An array's register has its index. -/
theorem regIndex_at {base step n i : Nat} (h : i < n) (hs : 0 < step) : regIndex (base + step * i) base step n = some i := by
  have hlt : step * i < step * n := Nat.mul_lt_mul_of_pos_left h hs
  simp [regIndex, hlt, Nat.mul_div_cancel_left _ hs]

/-- Above an array there is none of its registers. -/
theorem regIndex_above {off base step n : Nat} (h : base + step * n ≤ off) : regIndex off base step n = none := by
  simp [regIndex, Nat.not_lt.mpr h]

/-- FEAT_ACCEPT reads as what is accepted (R48). -/
theorem register_featAccept {f : Nat} (hf : f < 4) : s.register (0x20 + 8 * f) = some (s.host.accept.getD f 0) := by
  simp [State.register, readSingle_arrays (s := s) (off := 0x20 + 8 * f) (by omega),
    regIndex_above (off := 0x20 + 8 * f) (base := 0) (step := 8) (n := 4) (by omega),
    regIndex_at (base := 0x20) hf (by decide : 0 < 8)]

/-- JOB_CTL reads as the job's (R51). -/
theorem register_jobCtl {j : Nat} (hj : j < 64) : s.register (0x100 + 8 * j) = some (s.job j).ctl := by
  simp [State.register, readSingle_arrays (s := s) (off := 0x100 + 8 * j) (by omega),
    regIndex_above (off := 0x100 + 8 * j) (base := 0) (step := 8) (n := 4) (by omega),
    regIndex_above (off := 0x100 + 8 * j) (base := 0x20) (step := 8) (n := 4) (by omega),
    regIndex_at (base := 0x100) hj (by decide : 0 < 8)]

/-- The interrupt enable of EVQ_CFG reads zero while its feature is not accepted (R48, R50). -/
theorem readBar0_evqCfg_quiet (h : (s.host.accept.getD 0 0).getLsbD 5 = false) {x : Word}
    (hx : s.readBar0 0x808 = some x) : x.getLsbD 8 = false := by
  by_cases ha : s.trust.halted = false ∧ s.trust.noFw = false
  · have hf : s.feature 5 = false := h
    have hr : s.readSingle 0x808 = some (s.host.evqCfg &&& 0x1F) := by
      simp [State.readSingle, hf]
    rw [readBar0_answers ha, register_of_single hr] at hx
    obtain rfl := Option.some.inj hx
    simp
  · rw [readBar0_silent ha] at hx
    cases hx

end Reads

/-! ### What a reset leaves -/

/-- Settles O58: reset holds each value as a constant, and a table's absent key reads as its reset value. -/
theorem resetValues : Obligations.ResetValues := by
  unfold Obligations.ResetValues
  have hanswers : State.reset.trust.halted = false ∧ State.reset.trust.noFw = false := ⟨rfl, rfl⟩
  have hread {off : Nat} {x : Word} (h : State.reset.readSingle off = some x) : State.reset.readBar0 off = some x :=
    (readBar0_answers hanswers off).trans (register_of_single h)
  have hcore : ∀ c < 64, (State.reset.core c).req = 68 := fun _ _ => rfl
  have hjob : ∀ j < 64, (State.reset.job j).dampN = 0 ∧ (State.reset.job j).dampW = 256 := fun _ _ => ⟨rfl, rfl⟩
  have hdie : ∀ d < 8, (State.reset.die d).davail = 0 := fun _ _ => rfl
  have hquar : ∀ c : Fin 26, State.reset.trust.quarantined.getLsbD c.val = decide (c.val ≠ 8) := by decide
  have hoffer : State.reset.readBar0 0x00 = some 0x7F := by decide
  exact ⟨reset_mem_wf, rfl, rfl, rfl, rfl, rfl, rfl, rfl, rfl, rfl, rfl, hcore, hjob, hdie, rfl, hquar, rfl, rfl, hoffer,
    hread rfl, hread rfl, hread rfl, hread rfl, hread rfl⟩

end Sys2Proof.Machine

/-! ## Acceptance into a launch table out of key order (R32, R58) -/

namespace Sys2Proof.Machine

open Sys2Proof

/-- A packet of one unit for graph 7 of phase 0 of job 0, with no await. -/
def lateWords : List Word := [1, 0, 0, 0x0000000700000001, 0, 0, 0, 0, 0, 0, 0, 0, 0, 0, 0, 0]

/-- The device `outOfOrder`, whose table lists launch 5 before launch 3, with a checked packet for which LSEQ 3
is next. -/
def staleEntry : State :=
  { outOfOrder with
    arb := { outOfOrder.arb with nextLseq := 3 }
    lqs := [(0, { LaunchQ.reset with checked := [(0, lateWords)] })] }

/-- Acceptance writes launch 3 before launch 5 and leaves the old entry of its key behind it. Launch 3 is cancelled with CAUSE
0xFFFF, since graph 7 has retired; then the cascade of R32 finds the old entry accepted and awaiting cancelled work, and retires
key 3 once more. With its two launches in key order the same device leaves launch 3 with CAUSE 0xFFFF. -/
theorem staleEntry_accept_cause :
    ∃ t, exec .acceptLaunch staleEntry = .next t ∧
      (Tab.get? t.launches 3).map (fun l => (l.words, l.cause)) = some (lateWords, some 0xFFFE) := by
  refine ⟨_, rfl, ?_⟩
  decide +kernel

/-- Refutes O48: the statement ranges over launch tables whose keys do not rise, and on `staleEntry` a packet for a graph that has
retired is accepted and cancelled with CAUSE 0xFFFE, where the statement has 0xFFFF. -/
theorem not_launchQueuesAndEvents : ¬Obligations.LaunchQueuesAndEvents := by
  unfold Obligations.LaunchQueuesAndEvents
  intro h
  obtain ⟨-, -, -, haccept, -⟩ := h staleEntry 0
  obtain ⟨t, l, ht, hl, hwords, -, -, -, hlate⟩ :=
    haccept 0 { LaunchQ.reset with checked := [(0, lateWords)] } 0 lateWords (by decide +kernel) (by decide +kernel)
  have hgraph : staleEntry.graph? l.job l.phase l.graph = some ⟨0, 0, 7, 0, [], none, true, true, 0⟩ := by
    simp only [Launch.job, Launch.phase, Launch.graph, Launch.w, hwords]
    decide +kernel
  obtain ⟨-, hcause⟩ := hlate (.inl ⟨_, hgraph, rfl⟩)
  obtain ⟨t', ht', hfffe⟩ := staleEntry_accept_cause
  obtain rfl : t = t' := Host.Outcome.next.inj (ht.symm.trans ht')
  have hl3 : Tab.get? t.launches 3 = some l := hl
  rw [hl3, Option.map_some, hcause] at hfffe
  exact absurd hfffe (by simp)

end Sys2Proof.Machine

/-! ## The registers of the host (R48 to R51, R294, R346, R353, R383, R386, R387, R397) -/

namespace Sys2Proof.Machine

open Sys2Proof

variable {s : State}

/-! ### FEAT_ACCEPT and ENABLE -/

theorem exec_featAcceptWrite (f : Fin 4) (v : Word) (s : State) :
    exec (.featAcceptWrite f v) s = execFeatAcceptWrite f v s := rfl

theorem featOffer_eq (f : Fin 4) : featOffer f.val = if f = 0 then 0x7F else 0 := by
  fin_cases f <;> rfl

/-- The host's registers after a write of FEAT_ACCEPT before ENABLE. -/
def HostRegs.accepting (h : HostRegs) (f : Fin 4) (v : Word) : HostRegs :=
  { h with
    accept := h.accept.set f.val (v &&& featOffer f.val)
    mismatch := h.mismatch || (v &&& ~~~featOffer f.val) != 0 }

theorem featAcceptWrite_enabled (f : Fin 4) (v : Word) (h : s.host.enabled = true) :
    exec (.featAcceptWrite f v) s = .next s := by
  simp [exec_featAcceptWrite, execFeatAcceptWrite, h]

theorem featAcceptWrite_open (f : Fin 4) (v : Word) (h : s.host.enabled = false) :
    exec (.featAcceptWrite f v) s = .next { s with host := s.host.accepting f v } := by
  simp [exec_featAcceptWrite, execFeatAcceptWrite, h, HostRegs.accepting]

/-- What a write of FEAT_ACCEPT accepts is read back from its register. -/
theorem readBar0_accepting (f : Fin 4) (v : Word) (ha : s.trust.halted = false ∧ s.trust.noFw = false)
    (hf : f.val < s.host.accept.length) :
    ({ s with host := s.host.accepting f v } : State).readBar0 (0x20 + 8 * f.val) = some (v &&& featOffer f.val) := by
  rw [readBar0_answers (s := { s with host := s.host.accepting f v }) ha, register_featAccept f.isLt]
  simp [HostRegs.accepting, List.getD_eq_getElem?_getD, hf]

theorem exec_enable (v : Word) (s : State) : exec (.enable v) s = execEnable v s := rfl

/-- Every chiplet has attested or been quarantined, bit by bit (R397). -/
theorem Trust.settled_iff (t : Trust) :
    t.settled = true ↔ ∀ i < 26, t.attested.getLsbD i = true ∨ t.quarantined.getLsbD i = true := by
  rw [Trust.settled, beq_iff_eq]
  constructor
  · intro h i hi
    have hb : (t.attested ||| t.quarantined).getLsbD i = (BitVec.allOnes 26).getLsbD i := by rw [h]
    simpa only [BitVec.getLsbD_or, BitVec.getLsbD_allOnes, hi, decide_true, Bool.or_eq_true] using hb
  · intro h
    apply BitVec.eq_of_getLsbD_eq
    intro i hi
    simpa only [BitVec.getLsbD_or, BitVec.getLsbD_allOnes, hi, decide_true, Bool.or_eq_true] using h i hi

theorem enable_unsettled (v : Word) (hl : 6 ≤ s.host.saveLen.toNat)
    (ha : ∃ i < 26, s.trust.attested.getLsbD i = false ∧ s.trust.quarantined.getLsbD i = false) :
    exec (.enable v) s = .next s := by
  have hs : s.trust.settled = false := by
    obtain ⟨i, hi, hatt, hquar⟩ := ha
    rw [Bool.eq_false_iff, Ne, Trust.settled_iff]
    intro h
    simpa [hatt, hquar] using h i hi
  simp [exec_enable, execEnable, Nat.not_lt.mpr hl, hs]

section Enable

variable {v : Word} (hv : v.getLsbD 0 = true)

include hv

theorem enable_settled (he : s.host.enabled = false) (hl : 6 ≤ s.host.saveLen.toNat)
    (ha : ∀ i < 26, s.trust.attested.getLsbD i = true ∨ s.trust.quarantined.getLsbD i = true) :
    exec (.enable v) s = .next { s with
      host := { s.host with enabled := true }
      evq := { s.evq with
        written := 0
        armed := true } } := by
  simp [exec_enable, execEnable, bit, hv, he, Nat.not_lt.mpr hl, (Trust.settled_iff _).mpr ha]

theorem enable_saveShort (he : s.host.enabled = false) (hl : s.host.saveLen.toNat < 6) :
    exec (.enable v) s = .next { s with host := { s.host with saveShort := true } } := by
  simp [exec_enable, execEnable, bit, hv, he, hl]

end Enable

theorem functionReset_next :
    exec .functionReset s = .next { s with host := { s.host with
      enabled := false
      accept := [0, 0, 0, 0] } } := rfl

/-! ### Jobs -/

theorem exec_jobCreate (j : Fin 64) (v : Word) (s : State) : exec (.jobCreate j v) s = execJobCreate j v s := rfl

/-- A job as a write of JOB_CTL creates it; its damping registers stay (R51, R387). -/
def Job.created (x : Job) (v : Word) : Job :=
  { Job.reset with
    st := 1
    prio := fld v 59 56
    ptroot := fld v 51 12
    dampN := x.dampN
    dampW := x.dampW }

theorem cmd_create {v : Word} (h : v.extractLsb' 62 2 = 1) : fld v 63 62 = 1 := by
  rw [fld_extract v 63 62 (by omega)]
  exact congrArg BitVec.toNat h

theorem jobCreate_free {j : Fin 64} {v : Word} (hc : v.extractLsb' 62 2 = 1) (hj : (s.job j.val).st = 0) :
    exec (.jobCreate j v) s = .next (s.setJob j.val ((s.job j.val).created v)) := by
  simp [exec_jobCreate, execJobCreate, cmd_create hc, hj, Job.created]

theorem jobCreate_taken {j : Fin 64} {v : Word} (hc : v.extractLsb' 62 2 = 1) (hj : (s.job j.val).st ≠ 0) :
    exec (.jobCreate j v) s = .next (s.report 0x07 none j.val (w64 j.val) v 0 0) := by
  simp [exec_jobCreate, execJobCreate, cmd_create hc, hj]

/-- JOB_CTL of a created job: STATE 1 with the PRIO and PTROOT written. -/
theorem Job.ctl_created (x : Job) (v : Word) :
    (x.created v).ctl = 0x1000000000000000 ||| (v &&& 0x0F0FFFFFFFFFF000) := by
  have hstate : ∀ i < 64, (place 1 60).getLsbD i = (0x1000000000000000 : Word).getLsbD i := by decide
  have hmask : ∀ i < 64, (0x0F0FFFFFFFFFF000 : Word).getLsbD i =
      (decide (56 ≤ i ∧ i < 60) || decide (12 ≤ i ∧ i < 52)) := by decide
  have hfield (h l i : Nat) (hi : i < 64) (hl : l ≤ h) :
      (place (fld v h l) l).getLsbD i = (decide (l ≤ i ∧ i < h + 1) && v.getLsbD i) := by
    rw [getLsbD_place, testBit_fld]
    by_cases hli : l ≤ i
    · have hlt : i - l < h + 1 - l ↔ i < h + 1 := by omega
      simp [hi, hli, hlt]
    · simp [hli]
  apply BitVec.eq_of_getLsbD_eq
  intro i hi
  simp only [Job.ctl, Job.created, BitVec.getLsbD_or, BitVec.getLsbD_and, hstate i hi, hmask i hi,
    hfield 59 56 i hi (by omega), hfield 51 12 i hi (by omega)]
  cases v.getLsbD i <;> simp [Bool.or_assoc]

theorem readBar0_created {j : Fin 64} (v : Word) (ha : s.trust.halted = false ∧ s.trust.noFw = false) :
    (s.setJob j.val ((s.job j.val).created v)).readBar0 (0x100 + 8 * j.val) =
      some (0x1000000000000000 ||| (v &&& 0x0F0FFFFFFFFFF000)) := by
  rw [readBar0_answers (by simpa using ha), register_jobCtl j.isLt, State.job_setJob, Job.ctl_created]

/-! ### BAR2 -/

theorem exec_bar2Read (off : Nat) (s : State) : exec (.bar2Read off) s = execBar2Read off s := rfl

/-- The bytes of a word joined from eight. -/
theorem byteOf_join (b : Nat → Byte) {i : Nat} (hi : i < 8) :
    byteOf (b 7 ++ b 6 ++ b 5 ++ b 4 ++ b 3 ++ b 2 ++ b 1 ++ b 0) i = b i := by
  ext n hn
  simp only [byteOf, BitVec.getElem_extractLsb', BitVec.getLsbD_append]
  interval_cases i <;> grind

theorem byteOf_bar2Word (m : Mem) (a : Nat) {i : Nat} (hi : i < 8) : byteOf (m.bar2Word a) i = m.bar2Byte (a + i) :=
  byteOf_join (fun i => m.bar2Byte (a + i)) hi

/-- The poisoned bit of a BAR2 read tells of each of its eight bytes, though it looks at the words of the first and the last:
no word lies between them, and the end of HBM is the end of a word. -/
theorem bar2Psn_iff (m : Mem) (a : Nat) :
    m.bar2Psn a = true ↔ ∃ i < 8, a + i < bar2End ∧ m.isPsn ((a + i) / 8) = true := by
  have hpsn : m.bar2Psn a = true ↔
      (a < bar2End ∧ m.isPsn (a / 8) = true) ∨ (a + 7 < bar2End ∧ m.isPsn ((a + 7) / 8) = true) := by
    simp [Mem.bar2Psn]
  have hend : bar2End = 8 * 0x1800000000 := rfl
  rw [hpsn]
  constructor
  · rintro (⟨hlt, hp⟩ | ⟨hlt, hp⟩)
    · exact ⟨0, by omega, hlt, hp⟩
    · exact ⟨7, by omega, hlt, hp⟩
  · rintro ⟨i, hi, hlt, hp⟩
    rcases (by omega : (a + i) / 8 = a / 8 ∨ (a + i) / 8 = (a + 7) / 8) with hw | hw <;> rw [hw] at hp
    · exact .inl ⟨by omega, hp⟩
    · exact .inr ⟨by omega, hp⟩

theorem bar2Put_poison (m : Mem) (a : Nat) (bs : List Byte) : (m.bar2Put a bs).poison = m.poison := by
  induction bs generalizing m a with
  | nil => rfl
  | cons b rest ih =>
    rw [Mem.bar2Put, ih]
    split <;> rfl

/-- Memory after a write by BAR2. -/
def Mem.bar2Written (m : Mem) (off : Nat) (bytes : List Byte) : Mem :=
  { m.bar2Put off bytes with poison := (m.bar2Put off bytes).poison.filter fun w =>
      !(off ≤ 8 * w && 8 * w + 8 ≤ off + bytes.length && 8 * w + 8 ≤ bar2End) }

theorem bar2Write_next (off : Nat) (bytes : List Byte) (s : State) :
    exec (.bar2Write off bytes) s = .next (s.setMem (s.mem.bar2Written off bytes)) := rfl

theorem Mem.bar2Written_wf {m : Mem} (off : Nat) (bytes : List Byte) (h : m.wf = true) :
    (m.bar2Written off bytes).wf = true := by
  have hput := Mem.bar2Put_wf off bytes h
  rw [Mem.wf_iff] at hput ⊢
  exact ⟨hput.1, hput.2.1, filter_nats_wf _ hput.2.2⟩

theorem Mem.byte_bar2Written_in {m : Mem} {off a : Nat} {bytes : List Byte} (h : m.wf = true) (hlo : off ≤ a)
    (hhi : a < off + bytes.length) (he : a < bar2End) : (m.bar2Written off bytes).byte a = bytes.getD (a - off) 0 :=
  (Mem.byte_bar2Put off bytes a h).trans (if_pos ⟨hlo, hhi, he⟩)

theorem Mem.byte_bar2Written_out {m : Mem} {off a : Nat} {bytes : List Byte} (h : m.wf = true)
    (ha : a < off ∨ off + bytes.length ≤ a ∨ bar2End ≤ a) : (m.bar2Written off bytes).byte a = m.byte a :=
  (Mem.byte_bar2Put off bytes a h).trans (if_neg (by omega))

/-- A word that a BAR2 write covers whole is poisoned no more (R260). -/
theorem Mem.isPsn_bar2Written (m : Mem) (off : Nat) (bytes : List Byte) (w : Nat) :
    (m.bar2Written off bytes).isPsn w = true ↔
      m.isPsn w = true ∧ ¬(off ≤ 8 * w ∧ 8 * w + 8 ≤ off + bytes.length ∧ 8 * w < bar2End) := by
  have hend : bar2End = 8 * 0x1800000000 := rfl
  have hlt : 8 * w + 8 ≤ bar2End ↔ 8 * w < bar2End := by omega
  have hfilter : (!(decide (off ≤ 8 * w) && decide (8 * w + 8 ≤ off + bytes.length) &&
      decide (8 * w + 8 ≤ bar2End))) = true ↔ ¬(off ≤ 8 * w ∧ 8 * w + 8 ≤ off + bytes.length ∧ 8 * w < bar2End) := by
    rw [Bool.not_eq_true', ← Bool.not_eq_true, Bool.and_eq_true, Bool.and_eq_true, decide_eq_true_eq, decide_eq_true_eq,
      decide_eq_true_eq, hlt, and_assoc]
  rw [Mem.isPsn, Mem.isPsn, List.contains_iff_mem, List.contains_iff_mem, Mem.bar2Written, List.mem_filter, bar2Put_poison,
    hfilter]

/-! ### Core clocks -/

theorem exec_clkCtlWrite (c : Fin 64) (v : Word) (s : State) : exec (.clkCtlWrite c v) s = execClkCtlWrite c v s := rfl

theorem clkCtlWrite_takes {c : Fin 64} {v : Word} (hlo : 16 ≤ (v.extractLsb' 0 7).toNat)
    (hhi : (v.extractLsb' 0 7).toNat ≤ 68) (hfw : s.trust.fwState ≠ 3) :
    exec (.clkCtlWrite c v) s = .next (s.setCore c.val { s.core c.val with req := (v.extractLsb' 0 7).toNat }) := by
  have hr : fld v 6 0 = (v.extractLsb' 0 7).toNat := fld_extract v 6 0 (by omega)
  have hlo' : Config.clockBottom ≤ (v.extractLsb' 0 7).toNat := hlo
  have hhi' : (v.extractLsb' 0 7).toNat ≤ Config.clockTop := hhi
  rw [exec_clkCtlWrite, execClkCtlWrite, hr]
  simp only [hlo', hhi', hfw, ne_eq, not_false_eq_true, decide_true, Bool.and_self, if_true]

theorem clkCtlWrite_ignored {c : Fin 64} {v : Word}
    (h : (v.extractLsb' 0 7).toNat < 16 ∨ 68 < (v.extractLsb' 0 7).toNat ∨ s.trust.fwState = 3) :
    exec (.clkCtlWrite c v) s = .next s := by
  have hr : fld v 6 0 = (v.extractLsb' 0 7).toNat := fld_extract v 6 0 (by omega)
  have hno : (decide (Config.clockBottom ≤ (v.extractLsb' 0 7).toNat) &&
      decide ((v.extractLsb' 0 7).toNat ≤ Config.clockTop) && decide (s.trust.fwState ≠ 3)) = false := by
    rcases h with hlo | hhi | hfw
    · have hlo' : ¬Config.clockBottom ≤ (v.extractLsb' 0 7).toNat := Nat.not_le.mpr hlo
      simp only [hlo', decide_false, Bool.false_and]
    · have hhi' : ¬(v.extractLsb' 0 7).toNat ≤ Config.clockTop := Nat.not_le.mpr hhi
      simp only [hhi', decide_false, Bool.and_false, Bool.false_and]
    · simp only [hfw, ne_eq, not_true_eq_false, decide_false, Bool.and_false]
  rw [exec_clkCtlWrite, execClkCtlWrite, hr]
  simp only [hno, Bool.false_eq_true, if_false]

/-- A core's setting one step nearer to REQ. -/
def Core.stepped (k : Core) : Core :=
  { k with cur := if k.cur < k.req then k.cur + 1 else if k.req < k.cur then k.cur - 1 else k.cur }

theorem clockStep_next (c : Fin 64) (s : State) :
    exec (.clockStep c) s = .next (s.setCore c.val (s.core c.val).stepped) := rfl

/-- The clock moves one setting toward REQ, and stays there (R386). -/
theorem Core.stepped_cur (k : Core) :
    (k.cur < k.req → k.stepped.cur = k.cur + 1) ∧ (k.req < k.cur → k.stepped.cur + 1 = k.cur) ∧
      (k.cur = k.req → k.stepped.cur = k.cur) := by
  refine ⟨fun h => ?_, fun h => ?_, fun h => ?_⟩
  · simp [Core.stepped, h]
  · simp only [Core.stepped, h, Nat.not_lt.mpr (Nat.le_of_lt h), if_false, if_true]
    omega
  · simp [Core.stepped, h]

/-! ### Registers without an instruction of their own -/

theorem exec_registerWrite (off : Nat) (v : Word) (s : State) : exec (.registerWrite off v) s = execRegisterWrite off v s := rfl

/-- An offset is that of an LQ_BASE, that of a DAMP_JOB, or neither. -/
theorem registerOffset_cases (off : Nat) :
    (∃ q < 16, off = 0x400 + 32 * q) ∨ (∃ j < 64, off = 0xC40 + 8 * j) ∨
      (∀ q < 16, off ≠ 0x400 + 32 * q) ∧ ∀ j < 64, off ≠ 0xC40 + 8 * j := by
  by_cases hq : ∃ q < 16, off = 0x400 + 32 * q
  · exact .inl hq
  · by_cases hj : ∃ j < 64, off = 0xC40 + 8 * j
    · exact .inr (.inl hj)
    · exact .inr (.inr ⟨fun q hlt h => hq ⟨q, hlt, h⟩, fun j hlt h => hj ⟨j, hlt, h⟩⟩)

theorem registerWrite_lqBase {q : Nat} (hq : q < 16) (v : Word) (s : State) :
    exec (.registerWrite (0x400 + 32 * q) v) s = .next (s.setLq q { s.lq q with base := v &&& ~~~0x7F }) := by
  have hin : 0x400 + 32 * q < 0x600 := by omega
  simp [exec_registerWrite, execRegisterWrite, hin]

theorem registerWrite_dampJob {j : Nat} (hj : j < 64) (v : Word) (s : State) :
    exec (.registerWrite (0xC40 + 8 * j) v) s = .next (s.setJob j ((s.job j).setDamp v)) := by
  have hin : 0xC40 + 8 * j < 0xE40 := by omega
  have hmod : (0xC40 + 8 * j) % 8 = 0 := by omega
  have hnq : ¬0xC40 + 8 * j < 0x600 := by omega
  simp [exec_registerWrite, execRegisterWrite, hin, hmod, hnq]

theorem registerWrite_alone {off : Nat} (hq : ∀ q < 16, off ≠ 0x400 + 32 * q) (hj : ∀ j < 64, off ≠ 0xC40 + 8 * j)
    (v : Word) (s : State) :
    exec (.registerWrite off v) s = .next { s with
      host := s.host.write off v
      power := s.power.write off v } := by
  have hq' := hq ((off - 0x400) / 32)
  have hj' := hj ((off - 0xC40) / 8)
  have hnq : ¬((0x400 ≤ off ∧ off < 0x600) ∧ off % 32 = 0) := by omega
  have hnj : ¬((0xC40 ≤ off ∧ off < 0xE40) ∧ off % 8 = 0) := by omega
  rw [exec_registerWrite, execRegisterWrite, if_neg (by simpa using hnq), if_neg (by simpa using hnj)]

/-- DAMP_JOB takes N, and W where it is 64 or more; the job stays (R387). -/
theorem Job.setDamp_fields (x : Job) (v : Word) :
    (x.setDamp v).dampN = (v.extractLsb' 0 16).toNat ∧
      (x.setDamp v).dampW = (if 64 ≤ (v.extractLsb' 16 16).toNat then (v.extractLsb' 16 16).toNat else x.dampW) ∧
      (x.setDamp v).st = x.st := by
  simp [Job.setDamp, fld_extract v 15 0 (by omega), fld_extract v 31 16 (by omega)]

section Write

variable (h : HostRegs) (v : Word)

theorem HostRegs.write_lqRetry : (h.write 0x50 v).lqRetry = v.extractLsb' 0 8 := setWidth_eq_low v

theorem HostRegs.write_evqBase : (h.write 0x800 v).evqBase = v &&& ~~~0xFFF := rfl

theorem HostRegs.write_saveBase :
    (h.write 0x8A0 v).saveBase = if h.enabled then h.saveBase else v &&& 0xFFFFFC0000000 := by
  cases he : h.enabled <;> simp [HostRegs.write, he]

theorem HostRegs.write_saveLen : (h.write 0x8A8 v).saveLen = if h.enabled then h.saveLen else v.extractLsb' 0 8 := by
  cases he : h.enabled <;> simp [HostRegs.write, he, setWidth_eq_low]

theorem HostRegs.write_evqCfg :
    (h.write 0x808 v).evqCfg.extractLsb' 0 5 = v.extractLsb' 0 5 ∧
      (h.write 0x808 v).evqCfg.getLsbD 8 = ((h.accept.getD 0 0).getLsbD 5 && v.getLsbD 8) := by
  have hlow : ∀ i < 5, ((0x11F : Word).getLsbD i = true ∧ (0x1F : Word).getLsbD i = true) := by decide
  have hw : (h.write 0x808 v).evqCfg = v &&& (if (h.accept.getD 0 0).getLsbD 5 then 0x11F else 0x1F) := rfl
  rw [hw]
  constructor
  · ext i hi
    obtain ⟨hon, hoff⟩ := hlow i hi
    rw [BitVec.getElem_extractLsb', BitVec.getElem_extractLsb', Nat.zero_add, BitVec.getLsbD_and]
    split
    · rw [hon, Bool.and_true]
    · rw [hoff, Bool.and_true]
  · have hon : (0x11F : Word).getLsbD 8 = true := by decide
    have hoff : (0x1F : Word).getLsbD 8 = false := by decide
    rw [BitVec.getLsbD_and]
    split
    · rename_i hf
      rw [hon, hf, Bool.and_true, Bool.true_and]
    · rename_i hf
      rw [hoff, Bool.eq_false_iff.mpr hf, Bool.and_false, Bool.false_and]

theorem HostRegs.write_yieldBound :
    (h.write 0x8C0 v).yieldBound = if v.extractLsb' 0 16 = 0 then h.yieldBound else v.extractLsb' 0 16 := by
  have hz : fld v 15 0 = 0 ↔ v.extractLsb' 0 16 = 0 := by
    rw [fld_extract v 15 0 (by omega), BitVec.toNat_eq]
    rfl
  by_cases hv : v.extractLsb' 0 16 = 0
  · simp only [HostRegs.write, hz.mpr hv, hv, if_true]
  · simp only [HostRegs.write, mt hz.mp hv, hv, if_false, setWidth_eq_low]

theorem HostRegs.write_therm (ht : 85 ≤ (v.extractLsb' 0 8).toNat ∧ (v.extractLsb' 0 8).toNat ≤ 115 ∧
    (v.extractLsb' 8 8).toNat + 10 ≤ (v.extractLsb' 0 8).toNat) :
    (h.write 0x8C8 v).thermCrit = v.extractLsb' 0 8 ∧ (h.write 0x8C8 v).thermResume = v.extractLsb' 8 8 := by
  have hok : thermOk v = true := by
    rw [thermOk, fld_extract v 7 0 (by omega), fld_extract v 15 8 (by omega), Bool.and_eq_true, Bool.and_eq_true,
      decide_eq_true_eq, decide_eq_true_eq, decide_eq_true_eq, and_assoc]
    exact ht
  have hresume : (v >>> 8).setWidth 8 = v.extractLsb' 8 8 := by
    ext i hi
    simp
  simp [HostRegs.write, hok, setWidth_eq_low, ← hresume]

end Write

/-- PWR_CAP takes a multiple of 25 from 1,800 to 3,400 (R387). -/
theorem Power.write_cap (p : Power) (v : Word) :
    (p.write 0xA00 v).cap = if 1800 ≤ (v.extractLsb' 0 16).toNat ∧ (v.extractLsb' 0 16).toNat ≤ 3400 ∧
      (v.extractLsb' 0 16).toNat % 25 = 0 then (v.extractLsb' 0 16).toNat else p.cap := by
  simp only [Power.write, fld_extract v 15 0 (by omega), Bool.and_eq_true, decide_eq_true_eq, and_assoc]
  split <;> rfl

/-- UNDECL_RATE takes 1 to 16 (R387). -/
theorem Power.write_undeclRate (p : Power) (v : Word) :
    (p.write 0xA10 v).undeclRate = if 1 ≤ (v.extractLsb' 0 5).toNat ∧ (v.extractLsb' 0 5).toNat ≤ 16 then
      (v.extractLsb' 0 5).toNat else p.undeclRate := by
  simp only [Power.write, fld_extract v 4 0 (by omega), Bool.and_eq_true, decide_eq_true_eq]
  split <;> rfl

/-- Settles O47: one lemma for each register says what its write leaves, and the parts of the statement are read off the state it
gives. -/
theorem hostRegisters : Obligations.HostRegisters := by
  unfold Obligations.HostRegisters
  intro s v rest answers
  have hrest {t : State} (hm : t.mem = s.mem) (ht : t.tiles = s.tiles) (hl : t.launches = s.launches) : rest t :=
    ⟨hm, ht, hl⟩
  refine ⟨readBar0_silent, fun h x => readBar0_evqCfg_quiet h, ?_, ?_, ?_, ?_, ?_, ?_, ?_, ?_, ?_, ?_, ?_, ?_⟩
  · -- FEAT_ACCEPT
    intro f
    refine ⟨featAcceptWrite_enabled f v, fun he => ⟨_, featAcceptWrite_open f v he, hrest rfl rfl rfl, ?_⟩⟩
    rw [← featOffer_eq f]
    refine ⟨rfl, readBar0_accepting f v, ?_⟩
    simp [HostRegs.accepting]
  · -- ENABLE with every chiplet settled
    intro hv he hl ha
    exact ⟨_, enable_settled hv he hl ha, hrest rfl rfl rfl, rfl, rfl⟩
  · -- ENABLE with a short save area
    intro hv he hl
    exact ⟨_, enable_saveShort hv he hl, hrest rfl rfl rfl, he, rfl⟩
  · -- ENABLE before the chiplets have settled
    intro _ hl ha
    exact enable_unsettled v hl ha
  · -- FUNCTION_RESET
    exact ⟨_, functionReset_next, hrest rfl rfl rfl, rfl, rfl⟩
  · -- JOB_CTL
    intro j hc
    refine ⟨fun hj => ⟨_, jobCreate_free hc hj, hrest rfl rfl rfl, ?_⟩, fun hj => ⟨_, _, jobCreate_taken hc hj,
      hrest rfl rfl rfl, rfl, rfl, rfl, rfl⟩⟩
    have hprio : fld v 59 56 = (v.extractLsb' 56 4).toNat := fld_extract v 59 56 (by omega)
    have hroot : fld v 51 12 = (v.extractLsb' 12 40).toNat := fld_extract v 51 12 (by omega)
    rw [State.job_setJob]
    exact ⟨rfl, hprio, hroot, rfl, readBar0_created v, fun m hm => s.job_setJob_ne _ hm⟩
  · -- QWC_ACK
    refine ⟨_, rfl, hrest rfl rfl rfl, ?_⟩
    rw [← setWidth_eq_low]
  · -- a read of BAR2
    intro off
    exact ⟨_, _, exec_bar2Read off s, hrest rfl rfl rfl, rfl, fun i hi => byteOf_bar2Word s.mem off hi, bar2Psn_iff s.mem off⟩
  · -- a write of BAR2
    intro off bytes hm
    exact ⟨_, bar2Write_next off bytes s, rfl, Mem.bar2Written_wf off bytes hm,
      fun a => Mem.byte_bar2Written_in hm, fun a => Mem.byte_bar2Written_out hm, Mem.isPsn_bar2Written s.mem off bytes⟩
  · -- CLK_CTL
    intro c r
    refine ⟨fun hlo hhi hfw => ⟨_, clkCtlWrite_takes hlo hhi hfw, hrest rfl rfl rfl, ?_⟩, clkCtlWrite_ignored⟩
    rw [State.core_setCore]
    exact ⟨rfl, rfl, fun m hm => s.core_setCore_ne _ hm⟩
  · -- a step of a clock
    intro c k
    refine ⟨_, clockStep_next c s, hrest rfl rfl rfl, ?_⟩
    rw [State.core_setCore]
    exact ⟨rfl, Core.stepped_cur (s.core c.val)⟩
  · -- the registers without an instruction of their own
    intro off
    obtain ⟨q, hq, rfl⟩ | ⟨j, hj, rfl⟩ | ⟨hq, hj⟩ := registerOffset_cases off
    · refine ⟨_, registerWrite_lqBase hq v s, hrest rfl rfl rfl, fun q' _ h => ?_, ?_⟩
      · obtain rfl : q' = q := by omega
        simp
      · refine ⟨?_, ?_, ?_, ?_, ?_, ?_, ?_, ?_, ?_, ?_⟩ <;> intros <;> omega
    · refine ⟨_, registerWrite_dampJob hj v s, hrest rfl rfl rfl, ?_, ?_, ?_, ?_, ?_, ?_, ?_, ?_, ?_, ?_, fun j' _ h => ?_⟩
      rotate_right
      · obtain rfl : j' = j := by omega
        rw [State.job_setJob]
        exact Job.setDamp_fields _ v
      all_goals intros; omega
    · refine ⟨_, registerWrite_alone hq hj v s, hrest rfl rfl rfl, fun q hlt h => absurd h (hq q hlt), ?_, ?_, ?_, ?_, ?_, ?_, ?_,
        ?_, ?_, fun j hlt h => absurd h (hj j hlt)⟩
      · rintro rfl
        exact s.host.write_lqRetry v
      · rintro rfl
        exact s.host.write_evqBase v
      · rintro rfl
        exact s.host.write_evqCfg v
      · rintro rfl
        exact s.host.write_saveBase v
      · rintro rfl
        exact s.host.write_saveLen v
      · rintro rfl
        exact s.host.write_yieldBound v
      · rintro rfl
        exact s.host.write_therm v
      · rintro rfl
        exact s.power.write_cap v
      · rintro rfl
        exact s.power.write_undeclRate v

end Sys2Proof.Machine

/-! ## Placing and retiring on a die (R59, R68 to R72, R89, R412) -/

namespace Sys2Proof.Machine

open Sys2Proof

/-! ### What leaves the placed blocks and the dies' copies alone -/

/-- The same blocks are placed, and every die holds the same copies. -/
structure SamePlaces (s t : State) : Prop where
  blocks : t.blocks = s.blocks
  dies : t.dies = s.dies

theorem SamePlaces.refl (s : State) : SamePlaces s s := ⟨rfl, rfl⟩

theorem SamePlaces.trans {s t u : State} (h : SamePlaces s t) (h' : SamePlaces t u) : SamePlaces s u :=
  ⟨h'.blocks.trans h.blocks, h'.dies.trans h.dies⟩

theorem SamePlaces.foldl {α : Type} {g : State → α → State} (h : ∀ s x, SamePlaces s (g s x)) (xs : List α) (s : State) :
    SamePlaces s (xs.foldl g s) := by
  induction xs generalizing s with
  | nil => exact .refl s
  | cons x rest ih => exact (h s x).trans (ih _)

namespace SamePlaces

/-! Accesses of a bank -/

theorem setTile (s : State) (k : Nat) (t : Tile) : SamePlaces s (s.setTile k t) := ⟨rfl, rfl⟩

theorem modPool (s : State) (k : Nat) (p : Pool) (f : PoolSt → PoolSt) : SamePlaces s (s.modPool k p f) := ⟨rfl, rfl⟩

theorem modRegion (s : State) (rid : Nat) (f : Region → Region) : SamePlaces s (s.modRegion rid f) := ⟨by simp, by simp⟩

theorem markActive (s : State) (k : Nat) : SamePlaces s (s.markActive k) := by
  unfold State.markActive
  split
  · exact modRegion s _ _
  · exact .refl s

theorem putWord (s : State) (w : Nat) (mask : BitVec 8) (v : Word) (psn : Bool) : SamePlaces s (s.putWord w mask v psn) := by
  unfold State.putWord
  dsimp only
  split
  · split <;> exact ⟨rfl, rfl⟩
  · exact ⟨rfl, rfl⟩

theorem putFull (s : State) (w : Nat) (full : Bool) : SamePlaces s (s.putFull w full) := ⟨rfl, rfl⟩

theorem writeNow (s : State) (w : Nat) (mask : BitVec 8) (v : Word) (psn full : Bool) :
    SamePlaces s (s.writeNow w mask v psn full) := by
  unfold State.writeNow
  dsimp only
  split
  · exact (putWord s w mask v psn).trans (putFull _ w true)
  · exact putWord s w mask v psn

theorem queueHeld (s : State) (w : Nat) (who : HeldBy) (op : HeldOp) : SamePlaces s (s.queueHeld w who op) := by
  unfold State.queueHeld
  split <;> exact ⟨rfl, rfl⟩

theorem storeWord (s : State) (k : Nat) (r : Req) (turn : Bool) (w : Nat) (mask : BitVec 8) (v : Word) (full : Bool) :
    SamePlaces s (s.storeWord k r turn w mask v full).1 := by
  unfold State.storeWord
  split
  · exact queueHeld s _ _ _
  · exact writeNow s _ _ _ _ _

theorem storeAcc (s : State) (k : Nat) (r : Req) (turn : Bool) (a : Acc) : SamePlaces s (s.storeAcc k r turn a).1 := by
  unfold State.storeAcc
  dsimp only
  suffices h : ∀ (xs : List (Nat × Nat)) (sn : State × Nat) (g : State × Nat → Nat × Nat → State × Nat),
      (∀ sn x, SamePlaces sn.1 (g sn x).1) → SamePlaces sn.1 (xs.foldl g sn).1 by
    refine h _ (s, 0) _ fun sn x => ?_
    dsimp only
    split
    · split <;> exact storeWord sn.1 _ _ _ _ _ _ _
    · exact storeWord sn.1 _ _ _ _ _ _ _
  intro xs sn g hg
  induction xs generalizing sn with
  | nil => exact .refl _
  | cons x rest ih => exact (hg sn x).trans (ih _)

theorem fullAcc (s : State) (k : Nat) (r : Req) (a : Acc) (full : Bool) : SamePlaces s (s.fullAcc k r a full) := by
  unfold State.fullAcc
  exact .foldl (fun s (x : Nat × Nat) => putFull s x.2 full) _ s

theorem doAcc (s : State) (k : Nat) (r : Req) (turn : Bool) (a : Acc) : SamePlaces s (s.doAcc k r turn a).1 := by
  unfold State.doAcc
  split
  · exact .refl s
  · exact fullAcc s k r a _
  · exact fullAcc s k r a _
  · exact putWord s _ _ _ _
  · split
    · exact storeAcc s k r turn a
    · exact .refl s

theorem putReq (s : State) (k : Nat) (r : Req) : SamePlaces s (s.putReq k r) := modPool s k .pe _

theorem performFirst (s : State) (k : Nat) (r : Req) (turn : Bool) : SamePlaces s (s.performFirst k r turn) := by
  unfold State.performFirst
  split
  · exact putReq s k r
  · split
    · exact (queueHeld s _ _ _).trans (putReq _ k _)
    · exact ((doAcc s k r turn _).trans (putReq _ k _)).trans (markActive _ k)

theorem tryFirst (s : State) (k : Nat) (r : Req) (turn : Bool) : SamePlaces s (s.tryFirst k r turn) := by
  unfold State.tryFirst
  split
  · exact putReq s k r
  · split
    · exact performFirst s k r turn
    · exact ⟨rfl, rfl⟩

theorem wakeUp (s : State) (n : Nat) : SamePlaces s (s.wakeUp n) := by
  induction n generalizing s with
  | zero => exact .refl s
  | succ n ih =>
    unfold State.wakeUp
    split
    · exact (performFirst s _ _ false).trans (ih _)
    · exact .refl s

theorem countTag (s : State) (core ntile ctag : Nat) : SamePlaces s (s.countTag core ntile ctag) := by
  unfold State.countTag
  split
  · exact .refl s
  · exact modPool s _ _ _

theorem applyHeld (s : State) (h : HeldWrite) : SamePlaces s (s.applyHeld h) := by
  obtain ⟨addr, who, op⟩ := h
  unfold State.applyHeld
  refine SamePlaces.trans ?_ (wakeUp _ _)
  cases op with
  | store bytes data psn full =>
    have hwrite := writeNow s addr bytes data psn full
    cases who with
    | req tile ticket => exact hwrite.trans (modPool _ tile .pe _)
    | stream => exact hwrite
    | copy => exact hwrite
  | complete core ntile ctag =>
    have hdone := (putFull s addr true).trans (countTag _ core ntile ctag)
    cases who <;> exact hdone
  | access =>
    cases who with
    | req tile ticket =>
      dsimp only
      split
      · exact tryFirst s tile _ true
      · exact .refl s
    | stream => exact .refl s
    | copy => exact .refl s

theorem releaseHeld (s : State) (k : Nat) : SamePlaces s (s.releaseHeld k) := by
  unfold State.releaseHeld
  exact (setTile s k _).trans (.foldl applyHeld _ _)

/-! What a tile and a region lose -/

theorem modInput (s : State) (ch k : Nat) (p : Pool) (i : Nat) (f : InPort → InPort) : SamePlaces s (s.modInput ch k p i f) :=
  modPool s k p _

theorem dropped (s : State) (ch n : Nat) (arrived : Bool) : SamePlaces s (s.dropped ch n arrived) := by
  unfold State.dropped
  split
  · exact .refl s
  · split
    · exact .refl s
    · split
      · split <;> exact ⟨rfl, rfl⟩
      · split
        · split
          · exact .refl s
          · exact modInput s _ _ _ _ _
        · exact ⟨rfl, rfl⟩
        · exact .refl s

theorem creditInputs (s : State) (k : Nat) : SamePlaces s (s.creditInputs k) := by
  unfold State.creditInputs
  refine .foldl (fun s i => ?_) _ s
  cases i.chan with
  | none => exact .refl s
  | some ch => exact dropped s ch _ true

theorem withdrawTile (s : State) (k : Nat) : SamePlaces s (s.withdrawTile k) := by
  unfold State.withdrawTile
  have hset : ∀ t, SamePlaces s (((s.creditInputs k).dropHeld (HeldWrite.ofTile k)).setTile k t) :=
    fun t => (creditInputs s k).trans ⟨rfl, rfl⟩
  dsimp only
  split
  · exact hset _
  · exact (hset _).trans (releaseHeld _ k)

theorem gate (s : State) (k : Nat) : SamePlaces s (s.gate k) := by
  unfold State.gate
  split <;> exact ⟨rfl, rfl⟩

theorem dropShadows (s : State) (rid bid : Nat) : SamePlaces s (s.dropShadows rid bid) := by
  unfold State.dropShadows
  refine .foldl (fun s k => ?_) _ s
  dsimp only
  split
  · split
    · exact gate s k
    · exact setTile s k _
  · exact .refl s

theorem dropHold (s : State) (h : Option Nat) : SamePlaces s (s.dropHold h) := by
  cases h <;> exact ⟨rfl, rfl⟩

theorem abortLoad (s : State) (rid : Nat) : SamePlaces s (s.abortLoad rid) := by
  unfold State.abortLoad
  split
  · exact ((dropHold s _).trans (modRegion _ rid _)).trans (dropShadows _ rid _)
  · exact .refl s

theorem egressBack (s : State) (e : Nat) (pull : Bool) (n : Nat) : SamePlaces s (s.egressBack e pull n) := by
  unfold State.egressBack
  dsimp only
  split
  · exact .refl s
  · split <;> exact ⟨rfl, rfl⟩

theorem leaveEgress (s : State) (bid : Nat) : SamePlaces s (s.leaveEgress bid) := by
  unfold State.leaveEgress
  refine .foldl (fun s c => ?_) _ s
  split
  · exact egressBack s _ _ _
  · exact .refl s

theorem vacate (s : State) (bid : Nat) : SamePlaces s (s.vacate bid) := by
  unfold State.vacate
  refine .foldl (fun s k => ?_) _ s
  dsimp only
  split
  · exact (withdrawTile s k).trans (setTile _ k _)
  · exact (withdrawTile s k).trans (gate _ k)

theorem dissolve (s : State) (rid : Nat) : SamePlaces s (s.dissolve rid) := by
  unfold State.dissolve
  split
  · split
    · have hgated := SamePlaces.foldl (g := fun s k =>
          let s' := s.gate k
          s'.setTile k { s'.tile k with region := none })
        (fun s k => (gate s k).trans (setTile _ k _)) (s.regionTiles rid) (s.abortLoad rid)
      exact (abortLoad s rid).trans (hgated.trans ⟨rfl, rfl⟩)
    · exact .refl s
  · exact .refl s

/-! The end of a launch's work at the root and in its job -/

theorem issueSquash (s : State) (tags : List Nat) : SamePlaces s (s.issueSquash tags) := by
  unfold State.issueSquash
  dsimp only
  split <;> exact ⟨rfl, rfl⟩

theorem endSpeculation (s : State) (lseq : Nat) : SamePlaces s (s.endSpeculation lseq) := by
  unfold State.endSpeculation
  exact ⟨(issueSquash _ _).blocks, (issueSquash _ _).dies⟩

theorem finishTeardowns (s : State) : SamePlaces s s.finishTeardowns := by
  unfold State.finishTeardowns
  refine .foldl (fun s j => ?_) _ s
  exact ⟨rfl, rfl⟩

theorem settleSusp (s : State) : SamePlaces s s.settleSusp := by
  unfold State.settleSusp
  refine .foldl (fun s j => ?_) _ s
  exact ⟨rfl, rfl⟩

end SamePlaces

/-! ### A block leaves its region -/

/-- Taking one key out leaves every other. -/
theorem Tab.get?_del_ne {α : Type} (t : Tab α) {k j : Nat} (h : j ≠ k) : Tab.get? (Tab.del t k) j = Tab.get? t j := by
  induction t with
  | nil => rfl
  | cons e rest ih =>
    obtain ⟨i, b⟩ := e
    unfold Tab.del
    split
    · rename_i hi
      simp [Tab.get?, hi, Ne.symm h, ih]
    · simp [Tab.get?, ih]

/-- A key that reads as an entry is in the table. -/
theorem Tab.mem_of_get? {α : Type} {t : Tab α} {k : Nat} {a : α} (h : Tab.get? t k = some a) : (k, a) ∈ t := by
  induction t with
  | nil => cases h
  | cons e rest ih =>
    obtain ⟨i, b⟩ := e
    unfold Tab.get? at h
    split at h
    · rename_i hi
      obtain rfl := Option.some.inj h
      simp [hi]
    · exact List.mem_cons_of_mem _ (ih h)

/-- A block that leaves is placed no more; every other block stays, and the dies' copies with them. -/
theorem State.leaveBlock_places (s : State) (bid : Nat) :
    (s.leaveBlock bid).dies = s.dies ∧ Tab.get? (s.leaveBlock bid).blocks bid = none ∧
      ∀ k, k ≠ bid → Tab.get? (s.leaveBlock bid).blocks k = Tab.get? s.blocks k := by
  unfold State.leaveBlock
  split
  · rename_i h
    exact ⟨rfl, h, fun _ _ => rfl⟩
  · rename_i b _
    dsimp only
    have hload : SamePlaces s
        (if (Tab.get? s.regions b.rid).any fun r => (r.loading.any fun x => x.bid = bid) then s.abortLoad b.rid else s) := by
      split
      · exact SamePlaces.abortLoad s _
      · exact .refl s
    generalize (if (Tab.get? s.regions b.rid).any fun r => (r.loading.any fun x => x.bid = bid) then s.abortLoad b.rid
      else s) = s0 at hload ⊢
    have harmed : SamePlaces s0 (if (Tab.get? s.regions b.rid).any fun r => r.armed = some bid then
        (s0.modRegion b.rid fun r => { r with armed := none }).dropShadows b.rid bid
      else s0) := by
      split
      · exact (SamePlaces.modRegion s0 _ _).trans (SamePlaces.dropShadows _ _ _)
      · exact .refl s0
    generalize (if (Tab.get? s.regions b.rid).any fun r => r.armed = some bid then
        (s0.modRegion b.rid fun r => { r with armed := none }).dropShadows b.rid bid else s0) = s1 at harmed ⊢
    have hleft := ((hload.trans harmed).trans (SamePlaces.leaveEgress s1 bid)).trans (SamePlaces.vacate _ bid)
    have hregion := hleft.trans (SamePlaces.modRegion _ b.rid fun r => { r with
      blocks := r.blocks.erase bid
      resident := if r.resident = some bid then none else r.resident
      pre := if r.resident = some bid then none else r.pre
      switching := if r.switching = some bid then none else r.switching })
    generalize ((s1.leaveEgress bid).vacate bid).modRegion b.rid _ = s2 at hregion ⊢
    have hgone := SamePlaces.dissolve ({ s2 with
      blocks := Tab.del s2.blocks bid
      frames := s2.frames.filter fun f => f.2.bid != bid }.dropChans bid) b.rid
    rw [hgone.blocks, hgone.dies, ← hregion.blocks, ← hregion.dies]
    exact ⟨rfl, Tab.get?_del_self _ bid, fun k hk => Tab.get?_del_ne _ hk⟩

/-- Blocks that leave are placed no more, and none comes back. -/
theorem foldl_leaveBlock (bids : List Nat) (s : State) :
    (bids.foldl State.leaveBlock s).dies = s.dies ∧
      ∀ k, k ∈ bids ∨ Tab.get? s.blocks k = none → Tab.get? (bids.foldl State.leaveBlock s).blocks k = none := by
  induction bids generalizing s with
  | nil => exact ⟨rfl, fun k hk => hk.resolve_left (by simp)⟩
  | cons b rest ih =>
    obtain ⟨hdies, hself, hother⟩ := s.leaveBlock_places b
    obtain ⟨hd, hnone⟩ := ih (s.leaveBlock b)
    refine ⟨hd.trans hdies, fun k hk => hnone k ?_⟩
    by_cases hkb : k = b
    · subst hkb
      exact .inr hself
    · rw [hother k hkb]
      rcases hk with hk | hk
      · exact .inl ((List.mem_cons.mp hk).resolve_left hkb)
      · exact .inr hk

/-! ### The records of the stream -/

section Records

variable {s : State} {d : Fin 8}

theorem exec_applyRetirementRecord (d : Fin 8) (s : State) :
    exec (.applyRetirementRecord d) s = execApplyRetirementRecord d s := rfl

theorem exec_applyInvalidation (d : Fin 8) (s : State) : exec (.applyInvalidation d) s = execApplyInvalidation d s := rfl

theorem State.retryHeld_none {d : Nat} (h : (s.die d).heldL = []) : s.retryHeld d = s := by
  simp [State.retryHeld, h]

theorem State.die_recDone (s : State) (d : Nat) : (s.recDone d).die d = { s.die d with applied := (s.die d).applied + 1 } := by
  simp [State.recDone]

end Records

section Retirement

variable (s : State) (d lseq : Nat)

/-- A block in the middle of a wavefront swap stays (R85). -/
def State.stays (bid : Nat) : Bool := (Tab.get? s.blocks bid).any fun b => s.inWave b bid

/-- A die has counted a retirement, and its copies have let go of the launch (R71, R72). -/
def State.forgotten : State :=
  (s.recDone d).setDie d { ((s.recDone d).die d).forget lseq (s.recDone d).stays with
    retired := ((s.recDone d).die d).retired + 1 }

/-- The blocks that leave a die with a retirement. -/
def State.leavers : List Nat :=
  ((s.forgotten d lseq).blocks.filter fun b => b.2.lseq = lseq && b.2.die = d && !(s.recDone d).stays b.1).map (·.1)

/-- The blocks have left, and the launch's domain has ended where the ring stands on the die (R412). -/
def State.vacated : State :=
  let s3 := (s.leavers d lseq).foldl State.leaveBlock (s.forgotten d lseq)
  if s3.root.domain.any fun e => e.lseq = lseq && e.die = d then s3.endSpeculation lseq else s3

theorem State.forgotten_die :
    (s.forgotten d lseq).die d = { ({ s.die d with applied := (s.die d).applied + 1 } : Die).forget lseq (s.recDone d).stays with
      retired := (s.die d).retired + 1 } := by
  rw [State.forgotten, State.die_setDie, s.die_recDone]

theorem State.vacated_places :
    (s.vacated d lseq).die d = (s.forgotten d lseq).die d ∧
      ∀ k ∈ s.leavers d lseq, Tab.get? (s.vacated d lseq).blocks k = none := by
  obtain ⟨hdies, hgone⟩ := foldl_leaveBlock (s.leavers d lseq) (s.forgotten d lseq)
  have hend : SamePlaces ((s.leavers d lseq).foldl State.leaveBlock (s.forgotten d lseq)) (s.vacated d lseq) := by
    unfold State.vacated
    dsimp only
    split
    · exact SamePlaces.endSpeculation _ lseq
    · exact .refl _
  refine ⟨?_, fun k hk => ?_⟩
  · rw [State.die, hend.dies, hdies, ← State.die]
  · rw [hend.blocks]
    exact hgone k (.inl hk)

/-- A launch's block on the die is among those that leave, unless a wavefront swap keeps it. -/
theorem State.mem_leavers {s : State} {d lseq k : Nat} {b : Block} (hk : Tab.get? s.blocks k = some b) (hl : b.lseq = lseq)
    (hd : b.die = d) (hw : s.inWave b k = false) : k ∈ s.leavers d lseq := by
  have hstays : (s.recDone d).stays k = false := by
    have hb : Tab.get? (s.recDone d).blocks k = some b := hk
    rw [State.stays, hb]
    exact hw
  have hmem : (k, b) ∈ (s.forgotten d lseq).blocks := Tab.mem_of_get? hk
  exact List.mem_map.mpr ⟨(k, b), List.mem_filter.mpr ⟨hmem, by simp [hl, hd, hstays]⟩, rfl⟩

end Retirement

section Records

variable {s : State} {d : Fin 8}

theorem applyRetirementRecord_eq {lseq : Nat} (hrec : s.nextRec d.val = some (.retire lseq)) :
    exec (.applyRetirementRecord d) s =
      .next ((s.vacated d.val lseq).retryHeld d.val).finishTeardowns.settleSusp := by
  rw [exec_applyRetirementRecord, execApplyRetirementRecord, hrec]
  rfl

/-- A die that holds no launch applies a retirement: it counts the record and the retirement, and the launch's blocks there, but
for one in the middle of a wavefront swap, are placed no more (R71, R85, R412). -/
theorem applyRetirementRecord_next {lseq : Nat} (hrec : s.nextRec d.val = some (.retire lseq))
    (hheld : (s.die d.val).heldL = []) :
    ∃ t, exec (.applyRetirementRecord d) s = .next t ∧ (t.die d.val).applied = (s.die d.val).applied + 1 ∧
      (t.die d.val).retired = (s.die d.val).retired + 1 ∧
      ∀ k b, Tab.get? s.blocks k = some b → b.lseq = lseq → b.die = d.val → s.inWave b k = false →
        Tab.get? t.blocks k = none := by
  obtain ⟨hdie, hgone⟩ := s.vacated_places d.val lseq
  rw [State.forgotten_die] at hdie
  have hnone : ((s.vacated d.val lseq).die d.val).heldL = [] := by
    simp [hdie, Die.forget, hheld]
  have hsame := (SamePlaces.finishTeardowns (s.vacated d.val lseq)).trans (SamePlaces.settleSusp _)
  have hfinal : (s.vacated d.val lseq).finishTeardowns.settleSusp.die d.val = (s.vacated d.val lseq).die d.val := by
    rw [State.die, hsame.dies, ← State.die]
  refine ⟨_, applyRetirementRecord_eq hrec, ?_⟩
  rw [State.retryHeld_none hnone, hfinal, hdie, hsame.blocks]
  exact ⟨rfl, rfl, fun k b hk hl hd hw => hgone k (State.mem_leavers hk hl hd hw)⟩

/-- A die applies an invalidation: its image cache is cleared (R89). -/
theorem applyInvalidation_next (hrec : s.nextRec d.val = some .inval) :
    exec (.applyInvalidation d) s = .next ((s.recDone d.val).clearImages d.val) := by
  rw [exec_applyInvalidation, execApplyInvalidation, hrec]

end Records

/-! ### DAVAIL -/

section Davail

theorem exec_davailChange (v : BitVec 8) (s : State) : exec (.davailChange v) s = execDavailChange v s := rfl

theorem State.caughtUp_iff (s : State) : s.caughtUp = true ↔ ∀ e < 8, (s.die e).applied = s.arb.stream.length := by
  simp [State.caughtUp]

/-- A new DAVAIL written to one die, which retries its held launches. -/
def State.writeDie (v : BitVec 8) (s : State) (e : Nat) : State := (s.setDie e { s.die e with davail := v }).retryHeld e

/-- A new DAVAIL at dies that hold no launch. -/
theorem foldl_writeDie (v : BitVec 8) (es : List Nat) (s : State) (h : ∀ e ∈ es, (s.die e).heldL = []) :
    (es.foldl (State.writeDie v) s).mem = s.mem ∧ (es.foldl (State.writeDie v) s).tiles = s.tiles ∧
      ∀ e, (e ∈ es ∨ (s.die e).davail = v) → ((es.foldl (State.writeDie v) s).die e).davail = v := by
  induction es generalizing s with
  | nil => exact ⟨rfl, rfl, fun e he => he.resolve_left (by simp)⟩
  | cons a rest ih =>
    have hone : s.writeDie v a = s.setDie a { s.die a with davail := v } :=
      State.retryHeld_none (by simpa using h a (by simp))
    have hheld : ∀ e ∈ rest, ((s.writeDie v a).die e).heldL = [] := by
      intro e he
      rw [hone]
      by_cases hea : e = a
      · subst hea
        simpa using h e (by simp)
      · rw [State.die_setDie_ne _ _ hea]
        exact h e (List.mem_cons_of_mem _ he)
    obtain ⟨hm, ht, hd⟩ := ih (s.writeDie v a) hheld
    refine ⟨hm.trans (by rw [hone]; rfl), ht.trans (by rw [hone]; rfl), fun e he => hd e ?_⟩
    by_cases hea : e = a
    · subst hea
      exact .inr (by simp [hone])
    · rw [hone, State.die_setDie_ne _ _ hea]
      exact he.imp_left fun hmem => (List.mem_cons.mp hmem).resolve_left hea

theorem davailChange_written {s : State} (v : BitVec 8) (h : ∀ e < 8, (s.die e).applied = s.arb.stream.length) :
    exec (.davailChange v) s = .next ((List.range 8).foldl (State.writeDie v)
      { s with arb := { s.arb with hold := s.trust.resets.any fun r => r.step < 2 } }) := by
  rw [exec_davailChange, execDavailChange, if_pos (s.caughtUp_iff.mpr h)]
  rfl

theorem davailChange_waits {s : State} (v : BitVec 8) (h : ∃ e < 8, (s.die e).applied ≠ s.arb.stream.length) :
    exec (.davailChange v) s = .next { s with arb := { s.arb with hold := true } } := by
  have hlate : ¬s.caughtUp = true := by
    obtain ⟨e, he, hne⟩ := h
    exact fun hc => hne (s.caughtUp_iff.mp hc e he)
  rw [exec_davailChange, execDavailChange, if_neg hlate]

end Davail

/-! ### The placement algorithm -/

theorem exec_placeLaunch (d : Fin 8) (s : State) : exec (.placeLaunch d) s = execPlaceLaunch d s := rfl

/-- A number put into a list joins it. -/
theorem mem_putNat (xs : List Nat) (a m : Nat) : m ∈ putNat xs a ↔ m ∈ xs ∨ m = a := by
  induction xs with
  | nil => simp [putNat]
  | cons x rest ih =>
    unfold putNat
    split
    · rw [List.mem_cons, or_comm]
    · split
      · rename_i h
        subst h
        simp only [List.mem_cons]
        exact ⟨.inl, fun hm => hm.elim id .inl⟩
      · rw [List.mem_cons, ih, List.mem_cons, or_assoc]

/-- The positions rest on the launches, the XMAP and what the die's copies hold; a record applied changes none of these. -/
theorem State.findPlaces_recDone (s : State) (d : Nat) (l : Launch) (t : ImgTab) (bs : List Nat) (taken : List Taken) :
    (s.recDone d).findPlaces ((s.recDone d).die d) l t bs taken = s.findPlaces (s.die d) l t bs taken := by
  rw [s.die_recDone]
  induction bs generalizing taken with
  | nil => rfl
  | cons b rest ih =>
    have hfits (p : Spot) : (s.recDone d).fits { s.die d with applied := (s.die d).applied + 1 } l t b (t.entry b) p taken =
        s.fits (s.die d) l t b (t.entry b) p taken := rfl
    simp only [State.findPlaces, hfits, ih]

/-- A release with nothing that keeps it from its algorithm: the die applies the record and tries to place the launch. -/
theorem placeLaunch_tries {s : State} {d : Fin 8} {lseq : Nat} {l : Launch} (hrec : s.nextRec d.val = some (.release lseq))
    (hl : Tab.get? s.launches lseq = some l) (hw : (s.die d.val).retired % 2 ^ 32 = l.wmark) (hi : l.inval = false) :
    exec (.placeLaunch d) s = .next (
      if ((s.recDone d.val).tryPlace d.val lseq).1 then ((s.recDone d.val).tryPlace d.val lseq).2
      else ((s.recDone d.val).tryPlace d.val lseq).2.setDie d.val
        { ((s.recDone d.val).tryPlace d.val lseq).2.die d.val with
          heldL := putNat (((s.recDone d.val).tryPlace d.val lseq).2.die d.val).heldL lseq }) := by
  have hl' : Tab.get? (s.recDone d.val).launches lseq = some l := hl
  rw [exec_placeLaunch, execPlaceLaunch, hrec]
  simp only [hl', s.die_recDone, hw, hi, ne_eq, not_true_eq_false, decide_false, Bool.false_and, Bool.false_eq_true, if_false]

section Try

variable {s : State} {d lseq : Nat} {l : Launch} {tab : ImgTab} (hl : Tab.get? s.launches lseq = some l)
  (himg : l.img = some tab) (hmask : l.masked tab = none)

include hl himg hmask

theorem tryPlace_places {taken : List Taken} (hp : s.findPlaces (s.die d) l tab l.blks [] = some taken)
    (hx : s.xmapConflict l tab taken = none) : s.tryPlace d lseq = (true, s.commitPlace d l tab taken) := by
  simp [State.tryPlace, hl, himg, hmask, hp, hx]

theorem tryPlace_holds (hp : s.findPlaces (s.die d) l tab l.blks [] = none) :
    s.tryPlace d lseq =
      (false, s.modLaunch lseq fun m => if m.st = .released then { m with st := .held } else m) := by
  simp [State.tryPlace, hl, himg, hmask, hp]

end Try

/-! ### What a placement leaves -/

/-- A fold of steps that each keep a part of the state keeps it. -/
theorem foldl_keeps {α β : Type} (part : State → β) {g : State → α → State} (h : ∀ s x, part (g s x) = part s)
    (xs : List α) (s : State) : part (xs.foldl g s) = part s := by
  induction xs generalizing s with
  | nil => rfl
  | cons x rest ih => exact (ih _).trans (h s x)

/-- A new region stands in the table under its key, with no block; of the rest only tiles change. -/
theorem State.newRegion_keeps (s : State) (p : Spot) (wm1 hm1 : Nat) :
    (s.newRegion p wm1 hm1).mem = s.mem ∧ (s.newRegion p wm1 hm1).dies = s.dies ∧
      (s.newRegion p wm1 hm1).launches = s.launches ∧ (s.newRegion p wm1 hm1).blocks = s.blocks ∧
      (s.newRegion p wm1 hm1).regions = Tab.set s.regions (regionKey p wm1 hm1) (Region.fresh p wm1 hm1) := by
  unfold State.newRegion
  refine ⟨foldl_keeps State.mem ?_ _ _, foldl_keeps State.dies ?_ _ _, foldl_keeps State.launches ?_ _ _,
    foldl_keeps State.blocks ?_ _ _, foldl_keeps State.regions ?_ _ _⟩ <;> exact fun _ _ => rfl

/-- The block that a placement gives a launch at a position (R71). -/
def Launch.blockAt (l : Launch) (t : ImgTab) (x : Taken) : Block where
  lseq := l.lseq
  idx := x.blk
  rid := x.key
  job := l.job
  die := x.pos.die
  x := x.pos.x
  y := x.pos.y
  entry := x.entry
  vstamp := t.vstamp
  tiles := []
  doneQ := []
  finished := 0
  waitFrom := none
  saved := none
  cancelled := false

/-- A block stands in a region. -/
def State.holdsBlock (s : State) (rid bid : Nat) : Prop := ∃ r, Tab.get? s.regions rid = some r ∧ bid ∈ r.blocks

/-- The region that a block joins is there. -/
def State.withRegion (s : State) (x : Taken) : State :=
  if (Tab.get? s.regions x.key).isSome then s else s.newRegion x.pos (eWm1 x.entry) (eHm1 x.entry)

theorem State.withRegion_keeps (s : State) (x : Taken) :
    (s.withRegion x).mem = s.mem ∧ (s.withRegion x).dies = s.dies ∧ (s.withRegion x).launches = s.launches ∧
      (s.withRegion x).blocks = s.blocks := by
  unfold State.withRegion
  split
  · exact ⟨rfl, rfl, rfl, rfl⟩
  · obtain ⟨hm, hd, hl, hb, -⟩ := s.newRegion_keeps x.pos (eWm1 x.entry) (eHm1 x.entry)
    exact ⟨hm, hd, hl, hb⟩

theorem State.withRegion_some (s : State) (x : Taken) : ∃ r, Tab.get? (s.withRegion x).regions x.key = some r := by
  unfold State.withRegion
  split
  · rename_i h
    exact Option.isSome_iff_exists.mp h
  · obtain ⟨-, -, -, -, hr⟩ := s.newRegion_keeps x.pos (eWm1 x.entry) (eHm1 x.entry)
    rw [hr]
    exact ⟨_, Tab.get?_set_self _ _ x.key⟩

theorem State.holdsBlock_withRegion {s : State} {rid bid : Nat} (x : Taken) (h : s.holdsBlock rid bid) :
    (s.withRegion x).holdsBlock rid bid := by
  unfold State.withRegion
  split
  · exact h
  · rename_i hnone
    obtain ⟨r, hr, hin⟩ := h
    obtain ⟨-, -, -, -, hregions⟩ := s.newRegion_keeps x.pos (eWm1 x.entry) (eHm1 x.entry)
    have hne : rid ≠ x.key := by
      rintro rfl
      simp [hr] at hnone
    exact ⟨r, by rw [hregions]; exact (Tab.get?_set_ne _ _ hne).trans hr, hin⟩

section Joins

variable (s : State) (l : Launch) (t : ImgTab) (x : Taken)

theorem State.placeBlock_keeps :
    (s.placeBlock l t x).mem = s.mem ∧ (s.placeBlock l t x).dies = s.dies ∧ (s.placeBlock l t x).launches = s.launches := by
  obtain ⟨hm, hd, hl, -⟩ := s.withRegion_keeps x
  refine ⟨Eq.trans ?_ hm, Eq.trans ?_ hd, Eq.trans ?_ hl⟩ <;> simp [State.placeBlock, State.withRegion]

theorem State.placeBlock_blocks : (s.placeBlock l t x).blocks = Tab.set s.blocks (l.lseq * 256 + x.blk) (l.blockAt t x) := by
  obtain ⟨-, -, -, hb⟩ := s.withRegion_keeps x
  rw [← hb]
  simp [State.placeBlock, State.withRegion, Launch.blockAt, State.setBlock]

theorem State.placeBlock_regions :
    (s.placeBlock l t x).regions =
      ((s.withRegion x).modRegion x.key fun r => { r with blocks := r.blocks ++ [l.lseq * 256 + x.blk] }).regions := rfl

/-- A block joins its region (R71). -/
theorem State.placeBlock_joins : (s.placeBlock l t x).holdsBlock x.key (l.lseq * 256 + x.blk) := by
  obtain ⟨r, hr⟩ := s.withRegion_some x
  refine ⟨{ r with blocks := r.blocks ++ [l.lseq * 256 + x.blk] }, ?_, by simp⟩
  rw [State.placeBlock_regions]
  simp [State.modRegion, hr, State.setRegion]

/-- The blocks that stand in a region stay there. -/
theorem State.holdsBlock_placeBlock {rid bid : Nat} (h : s.holdsBlock rid bid) : (s.placeBlock l t x).holdsBlock rid bid := by
  obtain ⟨q, hq⟩ := s.withRegion_some x
  obtain ⟨r, hr, hin⟩ := State.holdsBlock_withRegion x h
  unfold State.holdsBlock
  rw [State.placeBlock_regions]
  by_cases hk : rid = x.key
  · subst hk
    exact ⟨{ r with blocks := r.blocks ++ [l.lseq * 256 + x.blk] }, by simp [State.modRegion, hr, State.setRegion],
      List.mem_append_left _ hin⟩
  · exact ⟨r, by simpa [State.modRegion, hq, State.setRegion, Tab.get?_set_ne _ _ hk] using hr, hin⟩

end Joins

/-- Blocks placed one after another. -/
def State.placeBlocks (s : State) (l : Launch) (t : ImgTab) (xs : List Taken) : State :=
  xs.foldl (fun s x => s.placeBlock l t x) s

theorem State.placeBlocks_keeps (s : State) (l : Launch) (t : ImgTab) (xs : List Taken) :
    (s.placeBlocks l t xs).mem = s.mem ∧ (s.placeBlocks l t xs).dies = s.dies ∧
      (s.placeBlocks l t xs).launches = s.launches := by
  have hone := fun (s : State) (x : Taken) => s.placeBlock_keeps l t x
  exact ⟨foldl_keeps State.mem (fun s x => (hone s x).1) xs s, foldl_keeps State.dies (fun s x => (hone s x).2.1) xs s,
    foldl_keeps State.launches (fun s x => (hone s x).2.2) xs s⟩

/-- Each block that is placed has its record and stands in its region; what stood before, and is not placed anew, stays. -/
theorem State.placeBlocks_placed (l : Launch) (t : ImgTab) (xs : List Taken) (hnd : (xs.map Taken.blk).Nodup) (s : State) :
    (∀ rid bid, s.holdsBlock rid bid → (s.placeBlocks l t xs).holdsBlock rid bid) ∧
      (∀ b, b ∉ xs.map Taken.blk → Tab.get? (s.placeBlocks l t xs).blocks (l.lseq * 256 + b) =
        Tab.get? s.blocks (l.lseq * 256 + b)) ∧
      ∀ x ∈ xs, Tab.get? (s.placeBlocks l t xs).blocks (l.lseq * 256 + x.blk) = some (l.blockAt t x) ∧
        (s.placeBlocks l t xs).holdsBlock x.key (l.lseq * 256 + x.blk) := by
  induction xs generalizing s with
  | nil => exact ⟨fun _ _ h => h, fun _ _ => rfl, fun _ h => by simp at h⟩
  | cons a rest ih =>
    rw [List.map_cons, List.nodup_cons] at hnd
    have hcons : s.placeBlocks l t (a :: rest) = (s.placeBlock l t a).placeBlocks l t rest := rfl
    obtain ⟨hregion, hblock, hplaced⟩ := ih hnd.2 (s.placeBlock l t a)
    rw [hcons]
    refine ⟨fun rid bid h => hregion rid bid (s.holdsBlock_placeBlock l t a h), fun b hb => ?_, fun x hx => ?_⟩
    · rw [List.map_cons, List.mem_cons, not_or] at hb
      rw [hblock b hb.2, State.placeBlock_blocks, Tab.get?_set_ne _ _ (by omega)]
    · rcases List.mem_cons.mp hx with rfl | hx
      · rw [hblock x.blk hnd.1, State.placeBlock_blocks, Tab.get?_set_self]
        exact ⟨rfl, hregion _ _ (s.placeBlock_joins l t x)⟩
      · exact hplaced x hx

/-- A block stands in a region table. -/
def tableHolds (m : Tab (List Nat)) (key bid : Nat) : Prop := ∃ bs, Tab.get? m key = some bs ∧ bid ∈ bs

/-- A region table with the blocks that a placement takes (R69). -/
def claimBlocks (m : Tab (List Nat)) (lseq : Nat) (xs : List Taken) : Tab (List Nat) :=
  xs.foldl (fun (m : Tab (List Nat)) y => Tab.set m y.key (Tab.get m y.key [] ++ [lseq * 256 + y.blk])) m

theorem claimBlocks_holds (lseq : Nat) (xs : List Taken) (m : Tab (List Nat)) :
    (∀ key bid, tableHolds m key bid → tableHolds (claimBlocks m lseq xs) key bid) ∧
      ∀ x ∈ xs, tableHolds (claimBlocks m lseq xs) x.key (lseq * 256 + x.blk) := by
  induction xs generalizing m with
  | nil => exact ⟨fun _ _ h => h, fun _ h => by simp at h⟩
  | cons a rest ih =>
    obtain ⟨hkeep, hjoin⟩ := ih (Tab.set m a.key (Tab.get m a.key [] ++ [lseq * 256 + a.blk]))
    refine ⟨fun key bid h => hkeep key bid ?_, fun x hx => ?_⟩
    · obtain ⟨bs, hbs, hin⟩ := h
      by_cases hk : key = a.key
      · subst hk
        exact ⟨_, Tab.get?_set_self _ _ _, by simp [Tab.get, hbs, hin]⟩
      · exact ⟨bs, (Tab.get?_set_ne _ _ hk).trans hbs, hin⟩
    · rcases List.mem_cons.mp hx with rfl | hx
      · exact hkeep _ _ ⟨_, Tab.get?_set_self _ _ _, by simp⟩
      · exact hjoin x hx

/-- The units of a launch that is placed first: the launch is placed, and of the rest only jobs and channels change. -/
theorem State.createUnits_keeps (s : State) (l : Launch) (taken : List Taken) (cs : List Circuit) (tags : Tab (Nat × Nat)) :
    (s.createUnits l taken cs tags).mem = s.mem ∧ (s.createUnits l taken cs tags).dies = s.dies := by
  unfold State.createUnits
  dsimp only
  refine ⟨(foldl_keeps State.mem ?_ _ _).trans ?_, (foldl_keeps State.dies ?_ _ _).trans ?_⟩
  · exact fun _ _ => rfl
  · rw [State.modLaunch_mem]
    split <;> rfl
  · exact fun _ _ => rfl
  · rw [State.modLaunch_dies]
    split <;> rfl

theorem State.createUnits_placed {s : State} {l : Launch} (taken : List Taken) (cs : List Circuit) (tags : Tab (Nat × Nat))
    (hl : Tab.get? s.launches l.lseq = some l) (hst : l.st ≠ .retired) :
    ∃ m, Tab.get? (s.createUnits l taken cs tags).launches l.lseq = some m ∧ m.st = .placed := by
  unfold State.createUnits
  dsimp only
  have hchans := foldl_keeps State.launches (g := fun s (c : Circuit) => s.setChan (c.id l.lseq)
    (s.newChan c.src c.dst c.owner (Tab.get tags (c.id l.lseq) (0, 0)).2 c.path)) (fun _ _ => rfl) cs
  rw [hchans]
  refine ⟨_, State.launch_modLaunch _ ?_, if_neg hst⟩
  split <;> exact hl

section Commit

variable (s : State) (d : Nat) (l : Launch) (t : ImgTab) (taken : List Taken)

/-- The copies of a die with what a placement takes (R69, R72). -/
def State.claiming : Die :=
  { s.die d with
    table := claimBlocks (s.die d).table l.lseq taken
    tags := claimTags (s.die d).tags l.lseq (s.circuits l t taken (s.die d).davail) }

/-- A placement before its blocks join their regions: the die's copies claim it, and the first die to commit creates the units. -/
def State.begun : State :=
  if l.places.isEmpty then
    (s.setDie d (s.claiming d l t taken)).createUnits l taken (s.circuits l t taken (s.die d).davail)
      (s.claiming d l t taken).tags
  else s.setDie d (s.claiming d l t taken)

theorem State.commitPlace_eq :
    s.commitPlace d l t taken = (s.begun d l t taken).placeBlocks l t (taken.filter fun y => y.pos.die = d) := rfl

theorem State.begun_keeps :
    (s.begun d l t taken).mem = s.mem ∧ (s.begun d l t taken).die d = s.claiming d l t taken := by
  unfold State.begun
  split
  · obtain ⟨hm, hd⟩ := (s.setDie d (s.claiming d l t taken)).createUnits_keeps l taken
      (s.circuits l t taken (s.die d).davail) (s.claiming d l t taken).tags
    refine ⟨hm, ?_⟩
    rw [State.die, hd]
    exact State.die_setDie _ _ _
  · exact ⟨rfl, State.die_setDie _ _ _⟩

variable {s l taken}

/-- What a placement leaves where the algorithm finds positions (R69, R71). -/
theorem State.commitPlace_leaves (hl : Tab.get? s.launches l.lseq = some l) (hst : l.st ≠ .retired)
    (hnd : (taken.map Taken.blk).Nodup) :
    (s.commitPlace d l t taken).mem = s.mem ∧ ((s.commitPlace d l t taken).die d).applied = (s.die d).applied ∧
      (∀ y ∈ taken, tableHolds ((s.commitPlace d l t taken).die d).table y.key (l.lseq * 256 + y.blk)) ∧
      (l.places = [] → ∃ m, Tab.get? (s.commitPlace d l t taken).launches l.lseq = some m ∧ m.st = .placed) ∧
      ∀ y ∈ taken, y.pos.die = d →
        Tab.get? (s.commitPlace d l t taken).blocks (l.lseq * 256 + y.blk) = some (l.blockAt t y) ∧
          (s.commitPlace d l t taken).holdsBlock y.key (l.lseq * 256 + y.blk) := by
  obtain ⟨hbm, hbd⟩ := s.begun_keeps d l t taken
  obtain ⟨hm, hd, hlaunches⟩ := (s.begun d l t taken).placeBlocks_keeps l t (taken.filter fun y => y.pos.die = d)
  obtain ⟨-, -, hplaced⟩ := State.placeBlocks_placed l t (taken.filter fun y => y.pos.die = d)
    (hnd.sublist (List.filter_sublist.map _)) (s.begun d l t taken)
  have hdie : (s.commitPlace d l t taken).die d = s.claiming d l t taken := by
    rw [State.commitPlace_eq, State.die, hd, ← State.die, hbd]
  rw [hdie]
  refine ⟨hm.trans hbm, rfl, (claimBlocks_holds l.lseq taken _).2, fun hp => ?_,
    fun y hy hyd => hplaced y (List.mem_filter.mpr ⟨hy, by simpa using hyd⟩)⟩
  rw [State.commitPlace_eq, hlaunches, State.begun, if_pos (by simp [hp])]
  exact State.createUnits_placed taken _ _ hl hst

end Commit

/-- A die whose count of retirements differs from WMARK stops (R59). -/
theorem placeLaunch_desync {s : State} {d : Fin 8} {lseq : Nat} {l : Launch} (hrec : s.nextRec d.val = some (.release lseq))
    (hl : Tab.get? s.launches lseq = some l) (hw : (s.die d.val).retired % 2 ^ 32 ≠ l.wmark)
    (hd : (s.die d.val).desync = false) : exec (.placeLaunch d) s = .next ((s.recDone d.val).desync d.val l) := by
  have hl' : Tab.get? (s.recDone d.val).launches lseq = some l := hl
  rw [exec_placeLaunch, execPlaceLaunch, hrec]
  simp only [hl', s.die_recDone, hw, hd, ne_eq, not_false_eq_true, decide_true, Bool.not_false, Bool.and_self, if_true]

/-- Settles O49: each record is taken by the lemma of its step, and the placement by what `State.commitPlace` leaves. -/
theorem placement : Obligations.Placement := by
  unfold Obligations.Placement
  intro s d x
  refine ⟨fun lseq l tab hrec hl himg hls => ⟨fun hw hst hi hmask => ⟨?_, ?_⟩, fun hw hd => ?_⟩, ?_, ?_, ?_, ?_⟩
  · -- a release with positions
    intro taken hp hx hnd _
    subst hls
    have htry := tryPlace_places (s := s.recDone d.val) (d := d.val) hl himg hmask
      ((s.findPlaces_recDone d.val l tab _ _).trans hp) hx
    have hexec := placeLaunch_tries hrec hl hw hi
    rw [htry, if_pos rfl] at hexec
    obtain ⟨hm, happ, htable, hplaced, hblocks⟩ := State.commitPlace_leaves (s := s.recDone d.val) (d := d.val) (t := tab)
      hl hst hnd
    rw [s.die_recDone] at happ
    refine ⟨_, hexec, hm, happ, htable, hplaced, fun y hy hyd => ?_⟩
    obtain ⟨hb, r, hr, hin⟩ := hblocks y hy hyd
    exact ⟨_, r, hb, rfl, rfl, rfl, rfl, rfl, rfl, hr, hin⟩
  · -- a release without positions
    intro hp
    have htry := tryPlace_holds (s := s.recDone d.val) (d := d.val) hl himg hmask
      ((s.findPlaces_recDone d.val l tab _ _).trans hp)
    have hexec := placeLaunch_tries hrec hl hw hi
    rw [htry, if_neg (by simp)] at hexec
    have hheld : (((s.recDone d.val).modLaunch lseq fun m => if m.st = .released then { m with st := .held } else m).die
        d.val).heldL = x.heldL := by
      rw [State.die_modLaunch, s.die_recDone]
    refine ⟨_, if l.st = .released then { l with st := .held } else l, hexec, by simp [State.recDone], by simp [State.recDone],
      by simp [State.recDone], ?_, fun m => ?_, ?_, fun hr => by rw [if_pos hr]⟩
    · rw [State.die_setDie]
      dsimp only
      rw [hheld]
    · rw [State.die_setDie]
      dsimp only
      rw [hheld, mem_putNat]
    · exact State.launch_modLaunch (s := s.recDone d.val) _ hl
  · -- a release at a die out of step
    have hbit : ∀ d : Fin 8, (BitVec.ofNat 26 (2 ^ d.val)).getLsbD d.val = true := by decide
    refine ⟨_, _, placeLaunch_desync hrec hl hw hd, rfl, rfl, rfl, rfl, ?_, rfl⟩
    simp only [State.desync, BitVec.getLsbD_or, hbit, Bool.or_true]
  · -- a retirement
    intro lseq hrec hheld
    exact applyRetirementRecord_next hrec hheld
  · -- an invalidation
    intro hrec
    refine ⟨_, applyInvalidation_next hrec, ?_, ?_, rfl, rfl⟩
    · simp [State.clearImages]
    · simp [State.clearImages, State.die_recDone, x]
  · -- a change of DAVAIL once every die has caught up
    intro v happ hheld
    obtain ⟨hm, ht, hd⟩ := foldl_writeDie v (List.range 8)
      { s with arb := { s.arb with hold := s.trust.resets.any fun r => r.step < 2 } }
      fun e he => hheld e (List.mem_range.mp he)
    exact ⟨_, davailChange_written v happ, fun e he => hd e (.inl (List.mem_range.mpr he)), hm, ht⟩
  · -- a change of DAVAIL before that
    intro v hlate
    exact ⟨_, davailChange_waits v hlate, rfl, rfl⟩

end Sys2Proof.Machine

/-! ## A load that fails on a launch table out of key order (R32, R78, R92) -/

namespace Sys2Proof.Machine

open Sys2Proof

/-- An image of one block and no tile image, whose header fails the first check of R45. -/
def headlessTab : ImgTab := ⟨0, 1, 0, 0, 0, 0, false, true, [(0, 0, 0)], []⟩

/-- Launch 3 of `outOfOrder`, with that image. -/
def headlessLaunch : Launch := { awaitingLaunch with img := some headlessTab }

/-- Block 0 of launch 3. -/
def headlessBlock : Block := ⟨3, 0, 0, 0, 0, 0, 0, (0, 0, 0), 0, [], [], 0, none, none, false⟩

/-- The load of the block, for which nothing remains to be fetched. -/
def headlessLoad : LoadSt := ⟨768, [], none⟩

/-- A region of one tile that loads the block. -/
def headlessRegion : Region :=
  ⟨0, 0, 0, 0, 0, [768], none, none, some headlessLoad, 0, none, 0, 0, false, false, false, [], none, 0, 0, 256, 0, [], []⟩

/-- The device `outOfOrder`, whose table lists launch 5 before launch 3, in the middle of the load. -/
def failingLoad : State :=
  { outOfOrder with
    launches := [(5, retiredLaunch), (3, headlessLaunch)]
    blocks := [(768, headlessBlock)]
    regions := [(0, headlessRegion)] }

/-- The load fails its first check. Its launch is cancelled with IMG_FORMAT, and the write of its entry leaves the old one behind
launch 5, where the cascade of R32 finds it accepted and awaiting cancelled work, and retires key 3 once more. With its two
launches in key order the same device gives CAUSE 0x10. -/
theorem failingLoad_cause :
    ∃ t, exec (.shadowLoad 0) failingLoad = .next t ∧
      (Tab.get? t.launches 3).map (·.cause) = some (some 0xFFFE) := by
  refine ⟨_, rfl, ?_⟩
  decide +kernel

/-- Refutes O51: the statement ranges over launch tables whose keys do not rise, and on `failingLoad` a load that fails a check
cancels its launch with CAUSE 0xFFFE, where the statement has 0x10. -/
theorem not_regionsAndTranslations : ¬Obligations.RegionsAndTranslations := by
  unfold Obligations.RegionsAndTranslations
  intro h
  obtain ⟨hregion, -⟩ := h failingLoad
  obtain ⟨-, -, -, -, -, -, hload⟩ := hregion 0 headlessRegion rfl
  obtain ⟨-, -, hfails⟩ :=
    hload headlessLoad headlessBlock headlessLaunch headlessTab rfl rfl rfl rfl rfl (by decide +kernel)
  obtain ⟨t, y, ht, -, hy, -, hcause⟩ :=
    hfails 0 BadAt.block (by decide) (by decide +kernel) rfl rfl (by decide)
  obtain ⟨t', ht', hfffe⟩ := failingLoad_cause
  obtain rfl : t = t' := Host.Outcome.next.inj (ht.symm.trans ht')
  have hy3 : Tab.get? t.launches 3 = some y := hy
  rw [hy3, Option.map_some, hcause] at hfffe
  exact absurd hfffe (by decide)

end Sys2Proof.Machine

/-! ## Trust, alarms and resets (R68, R394 to R399, R402 to R404, R406, R410) -/

namespace Sys2Proof.Machine

open Sys2Proof

/-! ### What leaves launches, events and trust alone -/

/-- The state with the work of the device's units from another: tiles and their cores, memory, regions and their blocks, channels,
held accesses, and what is saved. -/
def State.withWork (s u : State) : State :=
  { s with
    tiles := u.tiles
    cores := u.cores
    mem := u.mem
    order := u.order
    regions := u.regions
    blocks := u.blocks
    chans := u.chans
    xcredits := u.xcredits
    holds := u.holds
    ucaches := u.ucaches
    thermal := u.thermal
    frames := u.frames }

/-- Two states differ in the work of the units alone. -/
structure WorkOnly (s t : State) : Prop where
  eq : t = s.withWork t

namespace WorkOnly

theorem refl (s : State) : WorkOnly s s := ⟨rfl⟩

theorem trans {s t u : State} (h : WorkOnly s t) (h' : WorkOnly t u) : WorkOnly s u :=
  ⟨h'.eq.trans (congrArg (State.withWork · u) h.eq :)⟩

theorem foldl {α : Type} {g : State → α → State} (h : ∀ s x, WorkOnly s (g s x)) (xs : List α) (s : State) :
    WorkOnly s (xs.foldl g s) := by
  induction xs generalizing s with
  | nil => exact refl s
  | cons x rest ih => exact (h s x).trans (ih _)

section

variable {s t : State}

theorem launches (h : WorkOnly s t) : t.launches = s.launches := (congrArg State.launches h.eq :)

theorem evq (h : WorkOnly s t) : t.evq = s.evq := (congrArg State.evq h.eq :)

theorem trust (h : WorkOnly s t) : t.trust = s.trust := (congrArg State.trust h.eq :)

end

/-! Accesses of a bank -/

theorem setTile (s : State) (k : Nat) (t : Tile) : WorkOnly s (s.setTile k t) := ⟨rfl⟩

theorem modPool (s : State) (k : Nat) (p : Pool) (f : PoolSt → PoolSt) : WorkOnly s (s.modPool k p f) := ⟨rfl⟩

theorem modRegion (s : State) (rid : Nat) (f : Region → Region) : WorkOnly s (s.modRegion rid f) := by
  unfold State.modRegion
  split <;> exact ⟨rfl⟩

theorem markActive (s : State) (k : Nat) : WorkOnly s (s.markActive k) := by
  unfold State.markActive
  split
  · exact modRegion s _ _
  · exact refl s

theorem writeNow (s : State) (w : Nat) (mask : BitVec 8) (v : Word) (psn full : Bool) :
    WorkOnly s (s.writeNow w mask v psn full) := by
  have hput : WorkOnly s (s.putWord w mask v psn) := by
    unfold State.putWord
    dsimp only
    split
    · split <;> exact ⟨rfl⟩
    · exact ⟨rfl⟩
  unfold State.writeNow
  split
  · exact hput.trans ⟨rfl⟩
  · exact hput

theorem queueHeld (s : State) (w : Nat) (who : HeldBy) (op : HeldOp) : WorkOnly s (s.queueHeld w who op) := by
  unfold State.queueHeld
  split <;> exact ⟨rfl⟩

theorem storeWord (s : State) (k : Nat) (r : Req) (turn : Bool) (w : Nat) (mask : BitVec 8) (v : Word) (full : Bool) :
    WorkOnly s (s.storeWord k r turn w mask v full).1 := by
  unfold State.storeWord
  split
  · exact queueHeld s _ _ _
  · exact writeNow s _ _ _ _ _

theorem storeAcc (s : State) (k : Nat) (r : Req) (turn : Bool) (a : Acc) : WorkOnly s (s.storeAcc k r turn a).1 := by
  unfold State.storeAcc
  refine List.foldlRecOn (motive := fun sn : State × Nat => WorkOnly s sn.1) _ _ (refl s) fun sn hsn x _ => ?_
  refine hsn.trans ?_
  dsimp only
  split
  · split <;> exact storeWord sn.1 _ _ _ _ _ _ _
  · exact storeWord sn.1 _ _ _ _ _ _ _

theorem fullAcc (s : State) (k : Nat) (r : Req) (a : Acc) (full : Bool) : WorkOnly s (s.fullAcc k r a full) :=
  foldl (fun _ _ => ⟨rfl⟩) _ s

theorem doAcc (s : State) (k : Nat) (r : Req) (turn : Bool) (a : Acc) : WorkOnly s (s.doAcc k r turn a).1 := by
  unfold State.doAcc
  split
  · exact refl s
  · exact fullAcc s k r a _
  · exact fullAcc s k r a _
  · exact writeNow s _ _ _ _ false
  · split
    · exact storeAcc s k r turn a
    · exact refl s

theorem performFirst (s : State) (k : Nat) (r : Req) (turn : Bool) : WorkOnly s (s.performFirst k r turn) := by
  unfold State.performFirst
  split
  · exact ⟨rfl⟩
  · split
    · exact (queueHeld s _ _ _).trans ⟨rfl⟩
    · exact ((doAcc s k r turn _).trans (modPool _ k .pe _)).trans (markActive _ k)

theorem tryFirst (s : State) (k : Nat) (r : Req) (turn : Bool) : WorkOnly s (s.tryFirst k r turn) := by
  unfold State.tryFirst
  split
  · exact ⟨rfl⟩
  · split
    · exact performFirst s k r turn
    · exact ⟨rfl⟩

theorem wakeUp (s : State) (n : Nat) : WorkOnly s (s.wakeUp n) := by
  induction n generalizing s with
  | zero => exact refl s
  | succ n ih =>
    unfold State.wakeUp
    split
    · exact (performFirst s _ _ false).trans (ih _)
    · exact refl s

theorem countTag (s : State) (core ntile ctag : Nat) : WorkOnly s (s.countTag core ntile ctag) := by
  unfold State.countTag
  split
  · exact refl s
  · exact ⟨rfl⟩

theorem applyHeld (s : State) (h : HeldWrite) : WorkOnly s (s.applyHeld h) := by
  obtain ⟨addr, who, op⟩ := h
  refine trans ?_ (wakeUp _ _)
  cases op with
  | store bytes v psn full =>
    have hwrite := writeNow s addr bytes v psn full
    cases who with
    | req k n => exact hwrite.trans (modPool _ k .pe _)
    | stream => exact hwrite
    | copy => exact hwrite
  | complete core ntile ctag =>
    have hdone : WorkOnly s ((s.putFull addr true).countTag core ntile ctag) := trans ⟨rfl⟩ (countTag _ core ntile ctag)
    cases who <;> exact hdone
  | access =>
    cases who with
    | req k n =>
      dsimp only
      split
      · exact tryFirst s k _ true
      · exact refl s
    | stream => exact refl s
    | copy => exact refl s

theorem releaseHeld (s : State) (k : Nat) : WorkOnly s (s.releaseHeld k) :=
  (setTile s k _).trans (foldl applyHeld _ _)

/-! What a tile and a region lose -/

theorem dropped (s : State) (ch n : Nat) (arrived : Bool) : WorkOnly s (s.dropped ch n arrived) := by
  unfold State.dropped
  split
  · exact refl s
  · split
    · exact refl s
    · split
      · split <;> exact ⟨rfl⟩
      · split
        · split <;> exact ⟨rfl⟩
        · exact ⟨rfl⟩
        · exact refl s

theorem withdrawTile (s : State) (k : Nat) : WorkOnly s (s.withdrawTile k) := by
  have hcredit : WorkOnly s (s.creditInputs k) := by
    refine foldl (fun s i => ?_) _ s
    cases i.chan with
    | none => exact refl s
    | some ch => exact dropped s ch _ true
  unfold State.withdrawTile
  dsimp only
  split
  · exact hcredit.trans ⟨rfl⟩
  · exact (hcredit.trans ⟨rfl⟩).trans (releaseHeld _ k)

theorem gate (s : State) (k : Nat) : WorkOnly s (s.gate k) := by
  unfold State.gate
  split <;> exact ⟨rfl⟩

theorem dropShadows (s : State) (rid bid : Nat) : WorkOnly s (s.dropShadows rid bid) := by
  refine foldl (fun s k => ?_) _ s
  dsimp only
  split
  · split
    · exact gate s k
    · exact ⟨rfl⟩
  · exact refl s

theorem abortLoad (s : State) (rid : Nat) : WorkOnly s (s.abortLoad rid) := by
  unfold State.abortLoad
  split
  · rename_i l _
    have hhold : WorkOnly s (s.dropHold l.hold) := by cases l.hold <;> exact ⟨rfl⟩
    exact (hhold.trans (modRegion _ rid _)).trans (dropShadows _ rid _)
  · exact refl s

/-! What a launch loses -/

theorem dropHolds (s : State) (lseq : Nat) : WorkOnly s (s.dropHolds lseq) := by
  refine trans (foldl (fun s h => ?_) (s.holds.filter fun h => h.2.lseq = lseq) s) ⟨rfl⟩
  split
  · exact abortLoad s _
  · exact refl s

theorem modChan (s : State) (ch : Nat) (f : Chan → Chan) : WorkOnly s (s.modChan ch f) := by
  unfold State.modChan
  split <;> exact ⟨rfl⟩

theorem dropChannels (s : State) (lseq : Nat) : WorkOnly s (s.dropChannels lseq) := by
  refine foldl (fun s c => ?_) (s.chans.filter fun c => c.2.bid / 256 = lseq) s
  exact (modChan s c.1 _).trans (dropped _ c.1 _ false)

theorem modBlock (s : State) (bid : Nat) (f : Block → Block) : WorkOnly s (s.modBlock bid f) := by
  unfold State.modBlock
  split <;> exact ⟨rfl⟩

theorem dropFrames (s : State) (lseq : Nat) : WorkOnly s (s.dropFrames lseq) :=
  trans ⟨rfl⟩ (foldl (fun s b => modBlock s b _) _ _)

theorem dropEvents (s : State) (lseq : Nat) : WorkOnly s (s.dropEvents lseq) :=
  (foldl (fun s k => setTile s k _) _ s).trans ⟨rfl⟩

end WorkOnly

/-! ### Aborted runs (R291) -/

/-- Every launch of one state stands in another, and one that has retired has retired there. -/
def LaunchesStand (s t : State) : Prop :=
  ∀ n l, Tab.get? s.launches n = some l → ∃ m, Tab.get? t.launches n = some m ∧ (l.st = .retired → m.st = .retired)

namespace LaunchesStand

theorem of_eq {s t : State} (h : t.launches = s.launches) : LaunchesStand s t :=
  fun _ l hl => ⟨l, h ▸ hl, id⟩

theorem trans {s t u : State} (h : LaunchesStand s t) (h' : LaunchesStand t u) : LaunchesStand s u := by
  intro n l hl
  obtain ⟨m, hm, hst⟩ := h n l hl
  obtain ⟨k, hk, hst'⟩ := h' n m hm
  exact ⟨k, hk, hst' ∘ hst⟩

/-- A launch written anew keeps its retirement where the new entry has it. -/
theorem setLaunch (s : State) {k : Nat} {x : Launch}
    (h : ∀ l, Tab.get? s.launches k = some l → l.st = .retired → x.st = .retired) : LaunchesStand s (s.setLaunch k x) := by
  intro n l hl
  by_cases hn : n = k
  · subst hn
    exact ⟨x, Tab.get?_set_self _ _ _, h l hl⟩
  · exact ⟨l, (Tab.get?_set_ne _ _ hn).trans hl, id⟩

theorem modLaunch (s : State) (k : Nat) {f : Launch → Launch} (h : ∀ l, (f l).st = l.st) :
    LaunchesStand s (s.modLaunch k f) := by
  unfold State.modLaunch
  split
  · rename_i x hx
    refine setLaunch s fun l hl hst => ?_
    obtain rfl := Option.some.inj (hx.symm.trans hl)
    exact (h x).trans hst
  · exact of_eq rfl

end LaunchesStand

/-- Only what an abort changes differs: entries of the bisque buffers, launches, and the root. -/
structure AbortOnly (s t : State) : Prop where
  eq : t = { s with bisque := t.bisque, launches := t.launches, root := t.root }
  stand : LaunchesStand s t

namespace AbortOnly

theorem refl (s : State) : AbortOnly s s := ⟨rfl, .of_eq rfl⟩

theorem trans {s t u : State} (h : AbortOnly s t) (h' : AbortOnly t u) : AbortOnly s u :=
  ⟨h'.eq.trans (congrArg (fun x : State => { x with bisque := u.bisque, launches := u.launches, root := u.root }) h.eq :),
    h.stand.trans h'.stand⟩

theorem foldl {α : Type} {g : State → α → State} (h : ∀ s x, AbortOnly s (g s x)) (xs : List α) (s : State) :
    AbortOnly s (xs.foldl g s) := by
  induction xs generalizing s with
  | nil => exact refl s
  | cons x rest ih => exact (h s x).trans (ih _)

section

variable {s t : State}

theorem mem (h : AbortOnly s t) : t.mem = s.mem := (congrArg State.mem h.eq :)

theorem evq (h : AbortOnly s t) : t.evq = s.evq := (congrArg State.evq h.eq :)

theorem trust (h : AbortOnly s t) : t.trust = s.trust := (congrArg State.trust h.eq :)

end

theorem modLaunch (s : State) (k : Nat) {f : Launch → Launch} (h : ∀ l, (f l).st = l.st) :
    AbortOnly s (s.modLaunch k f) := by
  refine ⟨?_, .modLaunch s k h⟩
  unfold State.modLaunch
  split <;> rfl

theorem root (s : State) (r : Root) : AbortOnly s { s with root := r } := ⟨rfl, .of_eq rfl⟩

theorem bisque (s : State) (b : Tab (List BEntry)) : AbortOnly s { s with bisque := b } := ⟨rfl, .of_eq rfl⟩

theorem issueSquash (s : State) (tags : List Nat) : AbortOnly s (s.issueSquash tags) := by
  unfold State.issueSquash
  dsimp only
  split
  · exact refl s
  · exact root s _

theorem abortRun (s : State) (lseq unit : Nat) (g : BitVec 8) : AbortOnly s (s.abortRun lseq unit g) := by
  have hrun (bs : Tab (List BEntry)) (f : UnitSt → UnitSt) : AbortOnly s
      (({ s with bisque := bs }.modLaunch lseq fun l => { l with aborts := (l.aborts + 1) % 2 ^ 32 }).modUnit lseq unit f) :=
    ((bisque s bs).trans (modLaunch _ lseq (by intro; rfl))).trans
      (modLaunch _ lseq (by intro; rfl))
  unfold State.abortRun
  dsimp only
  split
  · split
    · exact (hrun _ _).trans (root _ _)
    · exact hrun _ _
  · exact ((hrun _ _).trans (issueSquash _ _)).trans (root _ _)

theorem abortAll (s : State) (n : Nat) (rs : List (Nat × Nat × BitVec 8)) : AbortOnly s (s.abortAll n rs) := by
  induction n generalizing s rs with
  | zero => exact refl s
  | succ n ih =>
    cases rs with
    | nil => exact refl s
    | cons r rest =>
      obtain ⟨l, u, g⟩ := r
      unfold State.abortAll
      dsimp only
      split
      · exact ih s rest
      · exact (abortRun s l u g).trans (ih _ _)

theorem abort (s : State) (lseq unit : Nat) (g : BitVec 8) : AbortOnly s (s.abort lseq unit g) := abortAll s _ _

theorem endSpeculation (s : State) (lseq : Nat) : AbortOnly s (s.endSpeculation lseq) := by
  unfold State.endSpeculation
  exact ((root s _).trans (issueSquash _ _)).trans (root _ _)

end AbortOnly

/-! ### Cancels (R31, R32) -/

/-- What a cancel keeps: trust, the events that are held, the launches, and which of them have retired. -/
structure CancelKeeps (s t : State) : Prop where
  trust : t.trust = s.trust
  held : ∀ e ∈ s.evq.held, e ∈ t.evq.held
  stand : LaunchesStand s t

namespace CancelKeeps

theorem of_work {s t : State} (h : WorkOnly s t) : CancelKeeps s t :=
  ⟨h.trust, fun _ he => h.evq ▸ he, .of_eq h.launches⟩

theorem of_abort {s t : State} (h : AbortOnly s t) : CancelKeeps s t :=
  ⟨h.trust, fun _ he => h.evq ▸ he, h.stand⟩

theorem of_eq {s t : State} (ht : t.trust = s.trust) (he : t.evq = s.evq) (hl : t.launches = s.launches) : CancelKeeps s t :=
  ⟨ht, fun _ h => he ▸ h, .of_eq hl⟩

theorem refl (s : State) : CancelKeeps s s := of_eq rfl rfl rfl

theorem trans {s t u : State} (h : CancelKeeps s t) (h' : CancelKeeps t u) : CancelKeeps s u :=
  ⟨h'.trust.trans h.trust, fun e he => h'.held e (h.held e he), h.stand.trans h'.stand⟩

theorem post (s : State) (e : Event) : CancelKeeps s (s.post e) :=
  ⟨rfl, fun _ he => List.mem_append_left _ he, .of_eq rfl⟩

theorem withdraw (s : State) (scope : List Nat) (lseq : Nat) : CancelKeeps s (s.withdraw scope lseq) := by
  have hstores : CancelKeeps s (s.dropStores scope lseq) := by
    unfold State.dropStores
    exact of_abort ((AbortOnly.bisque s _).trans (.abortAll _ _ _))
  have hcores (s : State) (cs : Tab Core) : CancelKeeps s { s with cores := cs } := of_eq rfl rfl rfl
  have htiles (s : State) (ks : List Nat) : CancelKeeps s (ks.foldl State.withdrawTile s) :=
    of_work (.foldl .withdrawTile ks s)
  unfold State.withdraw
  refine trans ?_ (of_abort (.modLaunch _ lseq fun _ => rfl))
  refine trans ?_ (of_work (.dropFrames _ lseq))
  refine trans ?_ (of_work (.dropChannels _ lseq))
  refine trans ?_ (htiles _ _)
  exact (hstores.trans (of_work (.dropHolds _ lseq))).trans (hcores _ _)

theorem postRetired (s : State) (l : Launch) (gdone pdone : Bool) : CancelKeeps s (s.postRetired l gdone pdone) := by
  unfold State.postRetired
  dsimp only
  split
  · exact refl s
  · exact post s _

end CancelKeeps

/-- The counters after the record of a retirement, and its event (R30, R416): the tail of `State.retire`. -/
def State.countRetired (s : State) (l : Launch) (cause : Option Nat) (level : Nat) : State :=
  let s3 := s.modGraph l.job l.phase l.graph fun g => { g with
    count := g.count + 1
    cancelled := g.cancelled || (cause.isSome && !g.retired) }
  let gdone := (s3.graph? l.job l.phase l.graph).any (s3.graphEnds level)
  let s4 := if gdone then s3.retireGraph l.job l.phase l.graph else s3
  let pdone := (s4.phase? l.job l.phase).any (s4.phaseEnds level)
  let s5 := if pdone then s4.retirePhase l.job l.phase else s4
  s5.postRetired l (gdone && level != 1) (pdone && level != 2)

/-- A launch marked retired in the launch table (R411): the head of `State.retire`. -/
def State.markRetired (s : State) (lseq : Nat) (l : Launch) (cause : Option Nat) : State :=
  (s.dropEvents lseq).setLaunch lseq { l with st := .retired, cause := cause, units := [], reTok := [] }

/-- The speculation of a retired launch ends, unless the ring's die is to end it, and the record joins the stream (R411, R412). -/
def State.recordRetired (s : State) (lseq : Nat) : State :=
  let s1 := if s.root.domain.any fun d => d.lseq = lseq then s else s.endSpeculation lseq
  { s1 with arb := { s1.arb with
    stream := s1.arb.stream ++ [StreamRec.retire lseq]
    published := (s1.arb.published + 1) % 2 ^ 32 } }

/-- A retirement of a launch that stands: its mark, its record, and its counters with its event. -/
theorem State.retire_eq {s : State} {lseq : Nat} {l : Launch} (cause : Option Nat) (level : Nat)
    (hl : Tab.get? s.launches lseq = some l) :
    s.retire lseq cause level = ((s.markRetired lseq l cause).recordRetired lseq).countRetired
      { l with st := .retired, cause := cause, units := [], reTok := [] } cause level := by
  unfold State.retire
  rw [hl]
  rfl

namespace CancelKeeps

theorem recordRetired (s : State) (lseq : Nat) : CancelKeeps s (s.recordRetired lseq) := by
  unfold State.recordRetired
  dsimp only
  split
  · exact of_eq rfl rfl rfl
  · exact (of_abort (.endSpeculation s lseq)).trans (of_eq rfl rfl rfl)

theorem countRetired (s : State) (l : Launch) (cause : Option Nat) (level : Nat) :
    CancelKeeps s (s.countRetired l cause level) := by
  have hgraph (s : State) (b : Bool) : CancelKeeps s (if b then s.retireGraph l.job l.phase l.graph else s) := by
    cases b <;> exact of_eq rfl rfl rfl
  have hphase (s : State) (b : Bool) : CancelKeeps s (if b then s.retirePhase l.job l.phase else s) := by
    cases b <;> exact of_eq rfl rfl rfl
  exact (((of_eq rfl rfl rfl : CancelKeeps s (s.modGraph l.job l.phase l.graph _)).trans (hgraph _ _)).trans
    (hphase _ _)).trans (postRetired _ _ _ _)

theorem markRetired (s : State) (lseq : Nat) (l : Launch) (cause : Option Nat) :
    CancelKeeps s (s.markRetired lseq l cause) :=
  (of_work (.dropEvents s lseq)).trans ⟨rfl, fun _ he => he, .setLaunch _ fun _ _ _ => rfl⟩

theorem retire (s : State) (lseq : Nat) (cause : Option Nat) (level : Nat) : CancelKeeps s (s.retire lseq cause level) := by
  cases hl : Tab.get? s.launches lseq with
  | none =>
    unfold State.retire
    rw [hl]
    exact refl s
  | some l =>
    rw [State.retire_eq cause level hl]
    exact ((markRetired s lseq l cause).trans (recordRetired _ lseq)).trans (countRetired _ _ cause level)

theorem cascade (s : State) (n : Nat) : CancelKeeps s (s.cascade n) := by
  induction n generalizing s with
  | zero => exact refl s
  | succ n ih =>
    unfold State.cascade
    split
    · exact ((withdraw s _ _).trans (retire _ _ _ _)).trans (ih _)
    · exact refl s

theorem cancelLaunch (s : State) (lseq cause : Nat) : CancelKeeps s (s.cancelLaunch lseq cause) := by
  unfold State.cancelLaunch
  split
  · exact refl s
  · exact ((withdraw s _ _).trans (retire _ _ _ _)).trans (cascade _ _)

end CancelKeeps

/-- A launch that stands has retired once it retires. -/
theorem State.retire_retires {s : State} {lseq : Nat} {l : Launch} (cause : Option Nat) (level : Nat)
    (hl : Tab.get? s.launches lseq = some l) :
    ∃ m, Tab.get? (s.retire lseq cause level).launches lseq = some m ∧ m.st = .retired := by
  rw [State.retire_eq cause level hl]
  have hmark : Tab.get? (s.markRetired lseq l cause).launches lseq =
      some { l with st := .retired, cause := cause, units := [], reTok := [] } := Tab.get?_set_self _ _ _
  obtain ⟨m, hm, hst⟩ :=
    ((CancelKeeps.recordRetired (s.markRetired lseq l cause) lseq).trans (.countRetired _ _ cause level)).stand _ _ hmark
  exact ⟨m, hm, hst rfl⟩

/-- A launch that stands has retired once it is cancelled (R31). -/
theorem State.cancelLaunch_retires {s : State} {lseq : Nat} {l : Launch} (cause : Nat)
    (hl : Tab.get? s.launches lseq = some l) :
    ∃ m, Tab.get? (s.cancelLaunch lseq cause).launches lseq = some m ∧ m.st = .retired := by
  unfold State.cancelLaunch
  split
  · rename_i h
    exact ⟨l, hl, by simpa [State.isRetired, hl] using h⟩
  · obtain ⟨l1, hl1, -⟩ := (CancelKeeps.withdraw s [lseq] lseq).stand _ _ hl
    obtain ⟨l2, hl2, hst2⟩ := State.retire_retires (some cause) 0 hl1
    obtain ⟨m, hm, hst⟩ := (CancelKeeps.cascade _ _).stand _ _ hl2
    exact ⟨m, hm, hst hst2⟩

/-- Launches cancelled one after another have all retired (R403). -/
theorem foldl_cancelLaunch (cause : Nat) (ls : List Nat) (s : State) :
    CancelKeeps s (ls.foldl (fun s l => s.cancelLaunch l cause) s) ∧
      ∀ n ∈ ls, ∀ l, Tab.get? s.launches n = some l →
        ∃ m, Tab.get? (ls.foldl (fun s l => s.cancelLaunch l cause) s).launches n = some m ∧ m.st = .retired := by
  induction ls generalizing s with
  | nil => exact ⟨.refl s, fun n hn => by simp at hn⟩
  | cons a rest ih =>
    obtain ⟨hkeeps, hretired⟩ := ih (s.cancelLaunch a cause)
    refine ⟨(CancelKeeps.cancelLaunch s a cause).trans hkeeps, fun n hn l hl => ?_⟩
    by_cases hna : n = a
    · subst hna
      obtain ⟨l1, hl1, hst1⟩ := State.cancelLaunch_retires cause hl
      obtain ⟨m, hm, hst⟩ := hkeeps.stand _ _ hl1
      exact ⟨m, hm, hst hst1⟩
    · obtain ⟨l1, hl1, -⟩ := (CancelKeeps.cancelLaunch s a cause).stand _ _ hl
      exact hretired n ((List.mem_cons.mp hn).resolve_left hna) l1 hl1

/-! ### Bits of chiplets and of dies -/

theorem chipBit_getLsbD {c i : Nat} (hc : c < 26) : (chipBit c).getLsbD i = decide (i = c) := by
  rw [chipBit, BitVec.getLsbD_ofNat, Nat.testBit_two_pow]
  by_cases h : i = c
  · simp [h, hc]
  · simp [h, Ne.symm h]

theorem Trust.attest_bits (t : Trust) {c i : Nat} (hc : c < 26) (hi : i < 26) :
    (t.attest c).attested.getLsbD i = (t.attested.getLsbD i || decide (i = c)) ∧
      (t.attest c).quarantined.getLsbD i = (t.quarantined.getLsbD i && !decide (i = c)) := by
  simp only [Trust.attest, BitVec.getLsbD_or, BitVec.getLsbD_and, BitVec.getLsbD_not, chipBit_getLsbD hc, hi, decide_true,
    Bool.true_and, and_self]

theorem Trust.quarantine_bits (t : Trust) {c i : Nat} (hc : c < 26) (hi : i < 26) (h8 : c ≠ 8) :
    (t.quarantine c).attested.getLsbD i = (t.attested.getLsbD i && !decide (i = c)) ∧
      (t.quarantine c).quarantined.getLsbD i = (t.quarantined.getLsbD i || decide (i = c)) := by
  simp only [Trust.quarantine, h8, if_false, BitVec.getLsbD_or, BitVec.getLsbD_and, BitVec.getLsbD_not, chipBit_getLsbD hc, hi,
    decide_true, Bool.true_and, and_self]

/-- Attestation of chiplets one after another changes these two sets alone (R398). -/
theorem foldl_attest_rest (cs : List Nat) (t : Trust) : cs.foldl Trust.attest t =
    { t with
      attested := (cs.foldl Trust.attest t).attested
      quarantined := (cs.foldl Trust.attest t).quarantined } := by
  induction cs generalizing t with
  | nil => rfl
  | cons c rest ih => exact ih (t.attest c)

theorem foldl_attest_bits (cs : List Nat) (hcs : ∀ c ∈ cs, c < 26) (t : Trust) (i : Nat) (hi : i < 26) :
    (cs.foldl Trust.attest t).attested.getLsbD i = (t.attested.getLsbD i || decide (i ∈ cs)) ∧
      (cs.foldl Trust.attest t).quarantined.getLsbD i = (t.quarantined.getLsbD i && decide (i ∉ cs)) := by
  induction cs generalizing t with
  | nil => simp
  | cons c rest ih =>
    obtain ⟨ha, hq⟩ := ih (fun x hx => hcs x (List.mem_cons_of_mem _ hx)) (t.attest c)
    obtain ⟨hca, hcq⟩ := t.attest_bits (hcs c (by simp)) hi
    rw [List.foldl_cons, ha, hq, hca, hcq]
    simp only [List.mem_cons, not_or, Bool.decide_or, Bool.decide_and, decide_not, Bool.or_assoc, Bool.and_assoc, and_self]

/-- The number whose bits below `n` a predicate gives. -/
theorem testBit_sum_filter (f : Nat → Bool) (n : Nat) :
    ((List.range n).filter f).foldl (fun x d => x + 2 ^ d) 0 < 2 ^ n ∧
      ∀ d < n, (((List.range n).filter f).foldl (fun x d => x + 2 ^ d) 0).testBit d = f d := by
  induction n with
  | zero => simp
  | succ n ih =>
    obtain ⟨hlt, hbits⟩ := ih
    have hpow : 2 ^ (n + 1) = 2 ^ n + 2 ^ n := by omega
    rw [List.range_succ, List.filter_append, List.foldl_append]
    generalize ((List.range n).filter f).foldl (fun x d => x + 2 ^ d) 0 = x at hlt hbits ⊢
    cases hf : f n with
    | false =>
      simp only [hf, List.filter_cons, List.filter_nil, Bool.false_eq_true, if_false, List.foldl_nil]
      refine ⟨by omega, fun d hd => ?_⟩
      by_cases hdn : d = n
      · rw [hdn, hf, Nat.testBit_lt_two_pow hlt]
      · exact hbits d (by omega)
    | true =>
      simp only [hf, List.filter_cons, List.filter_nil, if_true, List.foldl_cons, List.foldl_nil]
      refine ⟨by omega, fun d hd => ?_⟩
      rw [Nat.add_comm]
      by_cases hdn : d = n
      · rw [hdn, hf, Nat.testBit_two_pow_add_eq, Nat.testBit_lt_two_pow hlt]
        rfl
      · rw [Nat.testBit_two_pow_add_gt (by omega)]
        exact hbits d (by omega)

theorem dieSet_getLsbD (f : Nat → Bool) {d : Nat} (hd : d < 8) : (dieSet f).getLsbD d = f d := by
  rw [dieSet, BitVec.getLsbD_ofNat, (testBit_sum_filter f 8).2 d hd]
  simp [hd]

/-! ### Events of the trust service -/

/-- A value below bit 8 with another from there on. -/
theorem w64_or_place {a : Nat} (b : Nat) (ha : a < 256) : w64 a ||| place b 8 = BitVec.ofNat 64 (a + 256 * b) := by
  rw [w64, place, ← BitVec.ofNat_or, Nat.or_comm, ← Nat.shiftLeft_eq, ← Nat.shiftLeft_add_eq_or_of_lt (i := 8) ha,
    Nat.shiftLeft_eq, Nat.mul_comm, Nat.add_comm]

/-- Events that join those held, one for each item. -/
theorem foldl_post {α : Type} (ev : State → α → Event) (hev : ∀ s t x, t.refCyc = s.refCyc → ev t x = ev s x) (xs : List α) (s : State) :
    xs.foldl (fun s x => s.post (ev s x)) s = { s with evq := { s.evq with held := s.evq.held ++ xs.map (ev s) } } := by
  induction xs generalizing s with
  | nil => simp
  | cons x rest ih =>
    rw [List.foldl_cons, ih]
    have hsame : ev (s.post (ev s x)) = ev s := funext fun y => hev _ _ y rfl
    rw [hsame]
    simp [State.post]

/-! ### Links -/

theorem linkKey_inj {l m : Nat} {d e : Bool} (h : 2 * l + b01 d = 2 * m + b01 e) : l = m ∧ d = e := by
  have hd : b01 d = b01 e := by
    have h1 (b : Bool) : b01 b < 2 := by cases b <;> decide
    have := h1 d
    have := h1 e
    omega
  refine ⟨by omega, ?_⟩
  cases d <;> cases e <;> simp [b01] at hd ⊢

@[simp] theorem State.link_setLink (s : State) (l : Nat) (d : Bool) (x : LinkDir) : (s.setLink l d x).link l d = x := by
  simp [State.link, State.setLink]

theorem State.link_setLink_ne (s : State) {l m : Nat} {d e : Bool} (x : LinkDir) (h : ¬(l = m ∧ d = e)) :
    (s.setLink m e x).link l d = s.link l d :=
  Tab.get_set_ne _ _ _ fun hk => h (linkKey_inj hk)

/-- Of the state, `modLinksOf` changes the links. -/
theorem State.modLinksOf_rest (s : State) (ls : List Nat) (f : LinkDir → LinkDir) :
    s.modLinksOf ls f = { s with links := (s.modLinksOf ls f).links } := by
  unfold State.modLinksOf
  refine List.foldlRecOn (motive := fun t : State => t = { s with links := t.links }) _ _ rfl fun t ht l _ => ?_
  exact congrArg (fun u : State => (u.setLink l false (f (t.link l false))).setLink l true (f (t.link l true))) ht

/-- Both directions of each link of the list are changed, and no other link. -/
theorem State.link_modLinksOf (f : LinkDir → LinkDir) (ls : List Nat) (hnd : ls.Nodup) (s : State) (l : Nat) (d : Bool) :
    (s.modLinksOf ls f).link l d = if l ∈ ls then f (s.link l d) else s.link l d := by
  induction ls generalizing s with
  | nil => rfl
  | cons a rest ih =>
    rw [List.nodup_cons] at hnd
    have hcons : s.modLinksOf (a :: rest) f =
        ((s.setLink a false (f (s.link a false))).setLink a true (f (s.link a true))).modLinksOf rest f := rfl
    rw [hcons, ih hnd.2]
    by_cases hla : l = a
    · subst hla
      rw [if_neg hnd.1, if_pos (by simp)]
      cases d with
      | false => rw [State.link_setLink_ne _ _ (by simp), State.link_setLink]
      | true => rw [State.link_setLink]
    · rw [State.link_setLink_ne _ _ (by simp [hla]), State.link_setLink_ne _ _ (by simp [hla])]
      simp [hla]

/-! ### Memory that a die loses -/

theorem Mem.byte_clear (m : Mem) (lo hi a : Nat) : (m.clear lo hi).byte a = if lo ≤ a ∧ a < hi then 0 else m.byte a := by
  unfold Mem.byte Mem.clear
  dsimp only
  induction m.cells with
  | nil => simp [getCell, unlisted]
  | cons c rest ih =>
    obtain ⟨i, b⟩ := c
    by_cases hin : lo ≤ i ∧ i < hi
    · rw [List.filter_cons_of_neg (by simp [hin]), ih]
      by_cases hia : i = a
      · subst hia
        simp [hin]
      · simp [getCell, hia]
    · rw [List.filter_cons_of_pos (by simp; omega)]
      by_cases hia : i = a
      · subst hia
        simp [getCell, hin]
      · simpa only [getCell, hia, if_false] using ih

/-! ### Cold start (R397, R398, R406) -/

theorem exec_coldReset (att : BitVec 26) (ok : Bool) (s : State) : exec (.coldReset att ok) s = .next (s.coldStart att ok) := rfl

/-- The bits below an index of a value placed at the index are those of what it is joined to. -/
theorem extract_w64_or_place (a b : Nat) : (w64 a ||| place b 8).extractLsb' 0 5 = BitVec.ofNat 5 a := by
  refine BitVec.eq_of_getLsbD_eq fun i hi => ?_
  have hplace : (place b 8).getLsbD i = false := by
    rw [getLsbD_place]
    simp only [show ¬(i < 64 ∧ 8 ≤ i) by omega, decide_false, Bool.false_and]
  have hi64 : i < 64 := by omega
  simp only [BitVec.getLsbD_extractLsb', BitVec.getLsbD_or, Nat.zero_add, hplace, w64, BitVec.getLsbD_ofNat, hi, hi64, decide_true,
    Bool.true_and, Bool.or_false]

/-- ALARM_B of a chiplet that fails its attestation. -/
def coldAlarmOf (c : Nat) (e : Event) : Prop := e.code = 0xC1 ∧ e.w3.extractLsb' 0 5 = BitVec.ofNat 5 c

/-- The alarms of a cold start take free values and post an event for each chiplet. -/
theorem foldl_coldAlarm (cs : List Nat) (s : State) : ∃ n es,
    cs.foldl State.coldAlarm s = { s with freeCtr := n, evq := { s.evq with held := s.evq.held ++ es } } ∧
      ∀ c ∈ cs, ∃ e ∈ es, coldAlarmOf c e := by
  induction cs generalizing s with
  | nil => exact ⟨s.freeCtr, [], by simp, by simp⟩
  | cons c rest ih =>
    obtain ⟨n, es, heq, hes⟩ := ih (s.coldAlarm c)
    let e : Event := mkEvent s 0xC1 none 0 ones (w64 c ||| place ((Config.freeValue s.freeCtr).toNat % 3 + 1) 8) 0 0 0 0
    have hone : s.coldAlarm c = { s with freeCtr := s.freeCtr + 1, evq := { s.evq with held := s.evq.held ++ [e] } } := rfl
    refine ⟨n, e :: es, ?_, fun x hx => ?_⟩
    · rw [List.foldl_cons, heq, hone]
      simp
    · rcases List.mem_cons.mp hx with rfl | hx
      · exact ⟨e, by simp, rfl, extract_w64_or_place _ _⟩
      · obtain ⟨y, hy, hyc⟩ := hes x hx
        exact ⟨y, List.mem_cons_of_mem _ hy, hyc⟩

/-- A new DAVAIL at dies that hold no launch changes the dies alone (R68). -/
theorem foldl_writeDie_rest (v : BitVec 8) (es : List Nat) (s : State) (h : ∀ e, (s.die e).heldL = []) :
    es.foldl (State.writeDie v) s = { s with dies := (es.foldl (State.writeDie v) s).dies } := by
  induction es generalizing s with
  | nil => rfl
  | cons a rest ih =>
    have hone : s.writeDie v a = s.setDie a { s.die a with davail := v } := State.retryHeld_none (by simpa using h a)
    have hheld (e : Nat) : ((s.writeDie v a).die e).heldL = [] := by
      rw [hone]
      by_cases hea : e = a
      · subst hea
        simpa using h e
      · rw [State.die_setDie_ne _ _ hea]
        exact h e
    rw [List.foldl_cons]
    refine (ih _ hheld).trans ?_
    rw [hone]
    rfl

/-- No die that a cold reset leaves holds a launch. -/
theorem State.fuses_heldL (s : State) (e : Nat) : (s.fuses.die e).heldL = [] := by
  unfold State.die Tab.get
  cases h : Tab.get? s.fuses.dies e with
  | none => rfl
  | some x =>
    obtain ⟨d, -, hd⟩ := List.mem_map.mp (Tab.mem_of_get? h)
    obtain ⟨-, rfl⟩ := Prod.mk.inj hd
    rfl

/-- The trust of a cold start whose flash image verifies: its firmware runs, and the chiplets that pass have attested. -/
def State.coldTrust (s : State) (att : BitVec 26) : Trust :=
  let f := s.fuses.trust.flash
  ((List.range 26).filter att.getLsbD).foldl Trust.attest (s.fuses.trust.runs f.version f.image f.manifest)

theorem State.coldTrust_rest (s : State) (att : BitVec 26) :
    s.coldTrust att = { s.fuses.trust.runs s.fuses.trust.flash.version s.fuses.trust.flash.image s.fuses.trust.flash.manifest with
      attested := (s.coldTrust att).attested
      quarantined := (s.coldTrust att).quarantined } :=
  foldl_attest_rest _ _

/-- The chiplets that pass have attested, and the others are quarantined. -/
theorem State.coldTrust_bits (s : State) {att : BitVec 26} (h8 : att.getLsbD 8 = true) {c : Nat} (hc : c < 26) :
    (s.coldTrust att).attested.getLsbD c = att.getLsbD c ∧ (s.coldTrust att).quarantined.getLsbD c = !att.getLsbD c := by
  have hreset : ∀ c : Fin 26, Trust.reset.attested.getLsbD c.val = false ∧
      Trust.reset.quarantined.getLsbD c.val = decide (c.val ≠ 8) := by decide
  obtain ⟨ha0, hq0⟩ := hreset ⟨c, hc⟩
  obtain ⟨ha, hq⟩ := foldl_attest_bits ((List.range 26).filter att.getLsbD) (fun c hc => by simp at hc; omega)
    (s.fuses.trust.runs s.fuses.trust.flash.version s.fuses.trust.flash.image s.fuses.trust.flash.manifest) c hc
  have hmem : c ∈ (List.range 26).filter att.getLsbD ↔ att.getLsbD c = true := by simp [hc]
  refine ⟨ha.trans ?_, hq.trans ?_⟩
  · rw [show (s.fuses.trust.runs _ _ _).attested = Trust.reset.attested from rfl, ha0]
    simp only [hmem, Bool.decide_eq_true, Bool.false_or]
  · rw [show (s.fuses.trust.runs _ _ _).quarantined = Trust.reset.quarantined from rfl, hq0]
    simp only [hmem]
    by_cases hc8 : c = 8
    · simp [hc8, h8]
    · simp [hc8]

/-- A die may enter DAVAIL where the chiplets that its links and its stacks need have attested. -/
theorem State.coldTrust_dieReady (s : State) {att : BitVec 26} (h8 : att.getLsbD 8 = true) {d : Nat} (hd : d < 8) :
    (s.coldTrust att).dieReady d = true ↔
      ∀ c ∈ [d, (d + 1) % 8, (d + 7) % 8, 10 + 2 * d, 11 + 2 * d], att.getLsbD c = true := by
  have hgood : ∀ c ∈ [d, (d + 1) % 8, (d + 7) % 8, 10 + 2 * d, 11 + 2 * d],
      (s.coldTrust att).good c = att.getLsbD c := by
    intro c hc
    have hlt : c < 26 := by
      simp only [List.mem_cons, List.not_mem_nil, or_false] at hc
      omega
    obtain ⟨ha, hq⟩ := s.coldTrust_bits h8 hlt
    rw [Trust.good, ha, hq, Bool.not_not, Bool.and_self]
  rw [Trust.dieReady, List.all_eq_true]
  exact forall₂_congr fun c hc => by rw [hgood c hc]

/-- A flash image that no reset cuts short stays (R406). -/
theorem State.fuses_flash {s : State} (hgood : s.trust.flash.good = true) (hfw : s.trust.fwState ≠ 4) :
    s.fuses.trust.flash = s.trust.flash := by
  have hstays : (s.trust.flash.good && s.trust.fwState != 4) = s.trust.flash.good := by simp [hgood, hfw]
  exact congrArg (fun b => { s.trust.flash with good := b }) hstays

/-- A cold start whose flash image verifies: alarms, then DAVAIL. -/
theorem State.coldStart_verified {s : State} {att : BitVec 26} (h8 : att.getLsbD 8 = true)
    (hflash : s.fuses.trust.flash.good = true) : s.coldStart att true =
      (((List.range 26).filter fun c => !att.getLsbD c).foldl State.coldAlarm
        { s.fuses with trust := s.coldTrust att }).writeDavail (dieSet (s.coldTrust att).dieReady) := by
  unfold State.coldStart
  simp only [h8, hflash, Bool.not_true, Bool.or_self, Bool.false_eq_true, if_false]
  rfl

/-- The machine of a cold start before DAVAIL is written, with the events of its alarms. -/
def State.coldBegun (s : State) (att : BitVec 26) (n : Nat) (es : List Event) : State :=
  { s.fuses with
    trust := s.coldTrust att
    freeCtr := n
    evq := { s.fuses.evq with held := s.fuses.evq.held ++ es } }

/-- A cold start whose flash image verifies (R397, R406): an alarm for each chiplet that fails, and DAVAIL written at every die. -/
theorem State.coldStart_runs (s : State) {att : BitVec 26} (h8 : att.getLsbD 8 = true) (hgood : s.trust.flash.good = true)
    (hfw : s.trust.fwState ≠ 4) : ∃ n es ds,
      s.coldStart att true = { s.coldBegun att n es with dies := ds } ∧
      (∀ c < 26, att.getLsbD c = false → ∃ e ∈ es, coldAlarmOf c e) ∧
      ∀ n < 8, (Tab.get ds n Die.reset).davail = dieSet (s.coldTrust att).dieReady := by
  obtain ⟨n, es, hs, hes⟩ := foldl_coldAlarm ((List.range 26).filter fun c => !att.getLsbD c)
    { s.fuses with trust := s.coldTrust att }
  have hheld (e : Nat) : ((s.coldBegun att n es).die e).heldL = [] := s.fuses_heldL e
  have hflash : s.fuses.trust.flash.good = true := (congrArg FlashImg.good (State.fuses_flash hgood hfw)).trans hgood
  have hstart : s.coldStart att true =
      (List.range 8).foldl (State.writeDie (dieSet (s.coldTrust att).dieReady)) (s.coldBegun att n es) := by
    rw [State.coldStart_verified h8 hflash, hs]
    rfl
  refine ⟨n, es, _, hstart.trans (foldl_writeDie_rest _ _ _ hheld),
    fun c hc hac => hes c (List.mem_filter.mpr ⟨List.mem_range.mpr hc, by rw [hac]; rfl⟩), fun d hd => ?_⟩
  exact (foldl_writeDie _ (List.range 8) _ fun e _ => hheld e).2.2 d (.inl (List.mem_range.mpr hd))

/-! ### Measurements (R395, R396) -/

theorem exec_spdmRequest (m : SpdmMsg) (s : State) : exec (.spdmRequest m) s = execSpdmRequest m s := rfl

/-- The report holds three blocks of each chiplet, and those of the firmware and its manifest. -/
theorem State.mem_blocks396 (s : State) :
    (∀ c < 26, (c, 1, Config.romDigest c) ∈ s.blocks396 ∧ (c, 2, Config.ucodeDigest c) ∈ s.blocks396 ∧
      (c, 3, Config.fuseDigest c (s.spareMap c)) ∈ s.blocks396) ∧
    (8, 4, s.trust.image) ∈ s.blocks396 ∧ (8, 5, s.trust.manifest) ∈ s.blocks396 := by
  have hchip {c : Nat} (hc : c < 26) {x : Nat × Nat × BitVec 512} (hx : x ∈ [(c, 1, Config.romDigest c),
      (c, 2, Config.ucodeDigest c), (c, 3, Config.fuseDigest c (s.spareMap c))]) : x ∈ s.blocks396 :=
    List.mem_append_left _ (List.mem_flatMap.mpr ⟨c, List.mem_range.mpr hc, hx⟩)
  exact ⟨fun c hc => ⟨hchip hc (by simp), hchip hc (by simp), hchip hc (by simp)⟩,
    List.mem_append_right _ (by simp), List.mem_append_right _ (by simp)⟩

theorem sessionAfter_eq (n : Nat) (m : SpdmMsg) : sessionAfter n m =
    (if m = .keyExchange then 1 else if m = .endSession then 0 else if m = .finish ∧ n = 1 then 2 else n) := by
  cases m <;> simp [sessionAfter]

/-! ### Alarms (R398, R404) -/

theorem exec_alarmA (a : Fin 3) (s : State) : exec (.alarmA a) s = execAlarmA a s := rfl

theorem exec_alarmB (c : Fin 26) (i : Fin 16) (s : State) : exec (.alarmB c i) s = .next (s.alarmB c.val i.val) := rfl

/-- A class-A alarm silences every flit link between chiplets (R404). -/
theorem link_silent (s : State) {l : Nat} (dir : Bool) (hf : flitLink l = true) (hl : l < 52) :
    ((s.modLinksOf ((List.range 52).filter flitLink) LinkDir.silent).link l dir).up = false := by
  rw [State.link_modLinksOf _ _ (List.nodup_range.filter _), if_pos (by simp [hf, hl])]
  rfl

/-- CXL_DOWN of a port. -/
def cxlDownOf (s : State) (p : Nat) : Event := mkEvent s 0xA4 none 0 ones (w64 (64 + p)) 0 0 0 0

/-- The ports that go down with IOD[1] (R384, R398); none with any other chiplet. -/
def State.portsLost (s : State) (c : Nat) : List Nat :=
  if c = 9 && !s.trust.quarantined.getLsbD 9 then [4, 5, 6, 7].filter fun p => !s.trust.cxlDown.contains p else []

theorem State.iodPortsDown_eq (s : State) (c : Nat) : s.iodPortsDown c =
    { s with evq := { s.evq with held := s.evq.held ++ (s.portsLost c).map (cxlDownOf s) } } := by
  unfold State.iodPortsDown State.portsLost
  split
  · exact foldl_post cxlDownOf (fun s t x h => by simp [cxlDownOf, mkEvent, State.time, h]) _ s
  · simp

theorem State.portsLost_ne (s : State) {c : Nat} (h : c ≠ 9) : s.portsLost c = [] := by simp [State.portsLost, h]

theorem State.iodPortsDown_ne (s : State) {c : Nat} (h : c ≠ 9) : s.iodPortsDown c = s := by simp [State.iodPortsDown, h]

theorem State.mem_portsLost {s : State} {p : Nat} (hq : s.trust.quarantined.getLsbD 9 = false) (hp : p ∈ [4, 5, 6, 7])
    (hd : p ∉ s.trust.cxlDown) : p ∈ s.portsLost 9 := by
  simp only [State.portsLost, hq, Bool.not_false, Bool.and_true, decide_true, if_true]
  exact List.mem_filter.mpr ⟨hp, by simpa using hd⟩

/-- The event of a class-B alarm. -/
def alarmOf (s : State) (c i : Nat) : Event := mkEvent s 0xC1 none 0 ones (w64 c ||| place i 8) 0 0 0 0

theorem State.alarmB_eq (s : State) (c i : Nat) : s.alarmB c i = { s with
    evq := { s.evq with held := s.evq.held ++ [alarmOf s c i] ++ (s.portsLost c).map (cxlDownOf s) }
    trust := s.trust.quarantine c
    arb := { s.arb with hold := s.arb.hold || decide (c < 8) } } := by
  unfold State.alarmB
  dsimp only
  rw [State.iodPortsDown_eq]
  rfl

/-- A quarantine leaves every other chiplet as it is. -/
theorem Trust.quarantined_quarantine_ne (t : Trust) {c d : Nat} (hc : c < 26) (hd : d < 26) (h : d ≠ c) :
    (t.quarantine c).quarantined.getLsbD d = t.quarantined.getLsbD d := by
  by_cases h8 : c = 8
  · simp [Trust.quarantine, h8]
  · rw [(t.quarantine_bits hc hd h8).2]
    simp [h]

/-! ### Single-die resets (R402, R403) -/

theorem exec_dieReset (v : Word) (host : Bool) (s : State) : exec (.dieReset v host) s = execDieReset v host s := rfl

theorem exec_dieAttested (c : Fin 26) (s : State) : exec (.dieAttested c) s = execDieAttested c s := rfl

theorem exec_dieFailed (c : Fin 26) (s : State) : exec (.dieFailed c) s = execDieFailed c s := rfl

/-- The chiplet that DIE_CTL names. -/
theorem fld_chiplet (v : Word) : fld v 4 0 = (v.extractLsb' 0 5).toNat := fld_extract v 4 0 (by decide)

/-- A request of the host is valid where DIE_CTL asks for a reset of a chiplet other than IOD[0] (R402). -/
theorem State.resetValid_host (s : State) (v : Word) : s.resetValid v true = true ↔
    v.getLsbD 8 = true ∧ (v.extractLsb' 0 5).toNat < 26 ∧ (v.extractLsb' 0 5).toNat ≠ 8 := by
  simp [State.resetValid, fld_chiplet, bit, and_assoc]

/-- A die's loads and armed blocks are dropped as it resets (R402). -/
def State.dropLoads (s : State) (r : Nat × Region) : State :=
  match r.2.armed with
  | some b => ((s.abortLoad r.1).modRegion r.1 fun x => { x with armed := none }).dropShadows r.1 b
  | none => s.abortLoad r.1

theorem State.gate_mem (s : State) (k : Nat) : (s.gate k).mem = s.mem := by
  unfold State.gate
  split <;> rfl

theorem State.dropShadows_mem (s : State) (rid bid : Nat) : (s.dropShadows rid bid).mem = s.mem := by
  refine foldl_keeps State.mem (fun s k => ?_) _ s
  dsimp only
  split
  · split
    · exact s.gate_mem k
    · rfl
  · rfl

theorem State.abortLoad_mem (s : State) (rid : Nat) : (s.abortLoad rid).mem = s.mem := by
  unfold State.abortLoad
  split
  · rename_i l _
    rw [State.dropShadows_mem, State.modRegion_mem]
    cases l.hold <;> rfl
  · rfl

theorem State.dropLoads_mem (s : State) (r : Nat × Region) : (s.dropLoads r).mem = s.mem := by
  unfold State.dropLoads
  split
  · rw [State.dropShadows_mem, State.modRegion_mem, State.abortLoad_mem]
  · exact s.abortLoad_mem _

theorem WorkOnly.dropLoads (s : State) (r : Nat × Region) : WorkOnly s (s.dropLoads r) := by
  unfold State.dropLoads
  split
  · exact ((abortLoad s r.1).trans (modRegion _ _ _)).trans (dropShadows _ _ _)
  · exact abortLoad s r.1

/-- The bytes that a die's banks, the shared memories of its clusters, its scratchpad and its lane slices hold are gone (R402). -/
def Mem.withoutDie (m : Mem) (d : Nat) : Mem :=
  (((m.clear (bankBase (d * 1024)) (bankBase ((d + 1) * 1024))).clear (cluBase (4 * d)) (cluBase (4 * d + 4))).clear
    (chipBase d) (chipBase (d + 1))).clear (laneBase (d * 1024) 0) (laneBase ((d + 1) * 1024) 0)

/-- Trust and memory are the same. -/
def SameTrustMem (s t : State) : Prop := t.trust = s.trust ∧ t.mem = s.mem

theorem SameTrustMem.trans {s t u : State} (h : SameTrustMem s t) (h' : SameTrustMem t u) : SameTrustMem s u :=
  ⟨h'.1.trans h.1, h'.2.trans h.2⟩

/-- A die that resets keeps nothing in its memories; trust is as it was. -/
theorem State.dieLoses_keeps (s : State) (d : Nat) :
    (s.dieLoses d).trust = s.trust ∧ (s.dieLoses d).mem = s.mem.withoutDie d := by
  have hloads (rs : List (Nat × Region)) (s : State) : SameTrustMem s (rs.foldl State.dropLoads s) :=
    ⟨(WorkOnly.foldl .dropLoads rs s).trust, foldl_keeps State.mem State.dropLoads_mem rs s⟩
  have hgates (ks : List Nat) (s : State) : SameTrustMem s (ks.foldl State.gateNow s) :=
    ⟨(WorkOnly.foldl (g := State.gateNow) (fun _ _ => ⟨rfl⟩) ks s).trust,
      foldl_keeps State.mem (g := State.gateNow) (fun _ _ => rfl) ks s⟩
  have haborts (es : List BEntry) (s : State) : SameTrustMem s (es.foldl (fun s e => s.abort e.lseq e.unit e.gen) s) :=
    have h := AbortOnly.foldl (fun s (e : BEntry) => .abort s e.lseq e.unit e.gen) es s
    ⟨h.trust, h.mem⟩
  have hdels (is : List Nat) (s : State) :
      SameTrustMem s (is.foldl (fun s i => { s with bisque := Tab.del s.bisque (8 * d + i) }) s) :=
    have h := AbortOnly.foldl (fun s (i : Nat) => .bisque s (Tab.del s.bisque (8 * d + i))) is s
    ⟨h.trust, h.mem⟩
  have hclear {t : State} (h : SameTrustMem s t) :
      (t.setMem (t.mem.withoutDie d)).trust = s.trust ∧ (t.setMem (t.mem.withoutDie d)).mem = s.mem.withoutDie d :=
    ⟨h.1, congrArg (Mem.withoutDie · d) h.2⟩
  exact hclear ((((hloads _ s).trans (hgates _ _)).trans (haborts _ _)).trans (hdels _ _))

/-- The bytes that a die loses: its banks and its scratchpad read as zero, and device memory stays. -/
theorem Mem.byte_withoutDie (m : Mem) {d : Nat} (hd : d < 8) (a : Nat) :
    (bankBase (d * 1024) ≤ a → a < bankBase ((d + 1) * 1024) → (m.withoutDie d).byte a = 0) ∧
      (chipBase d ≤ a → a < chipBase (d + 1) → (m.withoutDie d).byte a = 0) ∧
      (a < 2 ^ 44 → (m.withoutDie d).byte a = m.byte a) := by
  simp only [Mem.withoutDie, Mem.byte_clear, bankBase, cluBase, chipBase, laneBase]
  refine ⟨fun h1 h2 => ?_, fun h1 h2 => ?_, fun h => ?_⟩
  · rw [if_neg (by omega), if_neg (by omega), if_neg (by omega), if_pos (by omega)]
  · rw [if_neg (by omega), if_pos (by omega)]
  · rw [if_neg (by omega), if_neg (by omega), if_neg (by omega), if_neg (by omega)]

/-- Of the resets, a change touches those of its chiplet. -/
theorem Trust.reset?_modReset {t : Trust} {c : Nat} {r : DieReset} (f : DieReset → DieReset)
    (hf : ∀ r, (f r).chiplet = r.chiplet) (h : t.reset? c = some r) : (t.modReset c f).reset? c = some (f r) := by
  unfold Trust.reset? Trust.modReset at *
  dsimp only
  have hc : r.chiplet = c := by simpa using List.find?_some h
  have hpred : ((fun r : DieReset => decide (r.chiplet = c)) ∘ fun r => if r.chiplet = c then f r else r) =
      fun r => decide (r.chiplet = c) := by
    funext x
    by_cases hx : x.chiplet = c <;> simp [hx, hf]
  rw [List.find?_map, hpred, h, Option.map_some, if_pos hc]

/-- No reset of a chiplet is in progress once those of it are taken out. -/
theorem Trust.reset?_filter (rs : List DieReset) (c : Nat) :
    (rs.filter fun r => r.chiplet != c).find? (fun r => r.chiplet = c) = none := by
  simp [List.find?_eq_none]

/-- With no launch held, a reset cancels none (R402). -/
theorem State.resetHeld_none {s : State} (c : Nat) (h : ∀ x ∈ s.launches, x.2.faulted = false) : s.resetHeld c = s := by
  have hnone : (s.launches.filter fun l => l.2.faulted && (s.blocksOf l.1).any (s.onChiplet c)) = [] :=
    List.filter_eq_nil_iff.mpr fun x hx => by simp [h x hx]
  unfold State.resetHeld
  rw [hnone]
  rfl

/-- A reset whose regions are all saved enters quarantine (R402 steps 3 and 4). -/
theorem State.resetRound_enters {s : State} {r : DieReset} (hstep : r.step = 1)
    (hheld : ∀ x ∈ s.launches, x.2.faulted = false) (hregions : s.resetRegions r.chiplet = []) :
    s.resetRound r = s.resetEnter r.chiplet := by
  unfold State.resetRound
  rw [hstep]
  dsimp only
  rw [State.resetHeld_none _ hheld, hregions]
  rfl

/-- What stands once a die has gone into quarantine. -/
theorem State.resetEnter_keeps (s : State) {c : Nat} (hc : c < 8) :
    (s.resetEnter c).trust = ((s.trust.quarantine c).modReset c fun r => { r with step := 2, since := s.time }) ∧
      (s.resetEnter c).mem = s.mem.withoutDie c := by
  obtain ⟨htrust, hmem⟩ := s.dieLoses_keeps c
  have hrest := (s.dieLoses c).modLinksOf_rest (chipLinks c) LinkDir.dropNext
  unfold State.resetEnter
  dsimp only
  rw [State.iodPortsDown_ne _ (by omega), if_pos hc]
  have hlinks : ((s.dieLoses c).modLinks c LinkDir.dropNext).trust = s.trust :=
    (congrArg State.trust hrest :).trans htrust
  exact ⟨by rw [hlinks], (congrArg State.mem hrest :).trans hmem⟩

/-! ### Steps of trust and of resets -/

/-- The event of a reset that begins. -/
def resetEvent (s : State) (c : Nat) (host : Bool) : Event :=
  mkEvent s 0xC2 none 0 ones (w64 c ||| place (b01 host) 8) 0 0 0 0

/-- What stands once a reset begins (R402). -/
theorem State.resetBegin_keeps (s : State) (c : Nat) (host : Bool) :
    (s.resetBegin c host).arb.hold = true ∧ (s.resetBegin c host).trust.reset? c = some ⟨c, 0, host, 0⟩ ∧
      (s.resetBegin c host).evq.held = s.evq.held ++ [resetEvent s c host] ∧ (s.resetBegin c host).mem = s.mem ∧
      (s.resetBegin c host).tiles = s.tiles := by
  have hfind (rs : List DieReset) : List.find? (fun r : DieReset => decide (r.chiplet = c))
      (rs.filter (fun r => r.chiplet != c) ++ [⟨c, 0, host, 0⟩]) = some ⟨c, 0, host, 0⟩ := by
    rw [List.find?_append, Trust.reset?_filter]
    simp
  unfold State.resetBegin
  dsimp only
  split <;> exact ⟨rfl, hfind _, rfl, rfl, rfl⟩

/-- A reset that a request of the host begins where none is in progress. -/
theorem dieReset_begins {s : State} {v : Word} (hnone : s.trust.reset? (v.extractLsb' 0 5).toNat = none)
    (hv : v.getLsbD 8 = true) (hc : (v.extractLsb' 0 5).toNat < 26) (h8 : (v.extractLsb' 0 5).toNat ≠ 8) :
    exec (.dieReset v true) s = .next (s.resetBegin (v.extractLsb' 0 5).toNat true) := by
  rw [exec_dieReset, execDieReset, fld_chiplet, hnone]
  dsimp only
  rw [if_pos ((s.resetValid_host v).mpr ⟨hv, hc, h8⟩)]

/-- A request that is not valid changes nothing. -/
theorem dieReset_invalid {s : State} {v : Word} (hnone : s.trust.reset? (v.extractLsb' 0 5).toNat = none)
    (h : v.getLsbD 8 = false ∨ (v.extractLsb' 0 5).toNat = 8 ∨ 26 ≤ (v.extractLsb' 0 5).toNat) :
    exec (.dieReset v true) s = .next s := by
  have hbad : ¬s.resetValid v true = true := by
    rw [s.resetValid_host v]
    rintro ⟨hv, hc, h8⟩
    rcases h with h | h | h
    · exact absurd (hv.symm.trans h) (by decide)
    · exact h8 h
    · omega
  rw [exec_dieReset, execDieReset, fld_chiplet, hnone]
  dsimp only
  rw [if_neg hbad]

/-- A die whose regions are all saved goes into quarantine (R402). -/
theorem dieReset_enters {s : State} {v : Word} {r : DieReset} (hr : s.trust.reset? (v.extractLsb' 0 5).toNat = some r)
    (hstep : r.step = 1) (hcrit : s.thermal.critDies = []) (hregions : s.resetRegions (v.extractLsb' 0 5).toNat = [])
    (hheld : ∀ x ∈ s.launches, x.2.faulted = false) :
    exec (.dieReset v true) s = .next (s.resetEnter (v.extractLsb' 0 5).toNat) := by
  have hchip : r.chiplet = (v.extractLsb' 0 5).toNat := by simpa using List.find?_some hr
  have hround := State.resetRound_enters hstep hheld (by rw [hchip, hregions])
  rw [exec_dieReset, execDieReset, fld_chiplet, hr]
  simp only [hcrit, hstep, List.isEmpty_nil, Bool.not_true, Bool.false_eq_true, if_false, OfNat.one_ne_ofNat, decide_false,
    Bool.false_and]
  rw [hround, hchip]

/-- A die in quarantine that attests again (R402 step 5). -/
theorem dieAttested_next {s : State} {c : Fin 26} {r : DieReset} (hr : s.trust.reset? c.val = some r) (hstep : r.step = 2)
    (hfailed : c.val ∉ s.trust.failed) : exec (.dieAttested c) s = .next (s.reattest c.val) := by
  rw [exec_dieAttested, execDieAttested, hr, if_pos (by simp [hstep, hfailed])]

/-- The event of a die that has attested again. -/
def reattestEvent (s : State) (c : Nat) : Event := mkEvent s 0xC3 none 0 ones (w64 c) 0 0 0 0

/-- A die that attests again, in terms of its links: nothing else changes but trust, the arbiter's hold and the events. -/
theorem State.reattest_eq (s : State) (c : Nat) : s.reattest c = { s with
    links := (s.modLinks c LinkDir.rekey).links
    evq := { s.evq with held := s.evq.held ++ [reattestEvent s c] }
    trust := { s.trust.attest c with resets := s.trust.resets.filter fun r => r.chiplet != c }
    arb := { s.arb with hold := true } } := by
  have hrest := s.modLinksOf_rest (chipLinks c) LinkDir.rekey
  unfold State.reattest State.modLinks
  rw [hrest]
  rfl

/-- The links of a chiplet that attests again have fresh keys at both ends (R402). -/
theorem State.link_reattest (s : State) {c l : Nat} (dir : Bool) (hl : l < 52) (hf : flitLink l = true) (hc : c ∈ linkEnds l) :
    (s.reattest c).link l dir = (s.link l dir).rekey := by
  have hmem : l ∈ chipLinks c := by simp [chipLinks, hl, hf, hc]
  have hlink := State.link_modLinksOf LinkDir.rekey (chipLinks c) (List.nodup_range.filter _) s l dir
  rw [if_pos hmem] at hlink
  rw [State.reattest_eq]
  exact hlink

/-- The event of a die that has not attested in time. -/
def failedEvent (s : State) (c : Nat) : Event :=
  mkEvent s 0xC4 none 0 ones (w64 c) (w64 (s.heldFor c).length) 0 0 0

/-- A die that has failed, with its event. -/
def State.dieGivenUp (s : State) (c : Nat) : State :=
  { s with trust := { s.trust with failed := putNat s.trust.failed c } }.post (failedEvent s c)

/-- A die in quarantine for 100 ms has failed, and the launch of every access held for it is cancelled (R403). -/
theorem dieFailed_next {s : State} {c : Fin 26} {r : DieReset} (hr : s.trust.reset? c.val = some r) (hstep : r.step = 2)
    (hfailed : c.val ∉ s.trust.failed) (htime : r.since + 10 ^ 8 ≤ s.time) :
    exec (.dieFailed c) s =
      .next ((s.heldFor c.val).foldl (fun s l => s.cancelLaunch l 0xC4) (s.dieGivenUp c.val)) := by
  rw [exec_dieFailed, execDieFailed]
  dsimp only
  rw [if_neg (by simp [hfailed]), hr, if_pos (by rw [Option.any_some, hstep, decide_eq_true htime]; rfl)]
  rfl

/-- The measurement report of a request, its reply and the session after it (R395, R396). -/
theorem spdmRequest_next (s : State) (m : SpdmMsg) : ∃ t, exec (.spdmRequest m) s = .next t ∧
    t.trust.spdmReply = (if m = .other then 2 else 1) ∧ t.trust.session = sessionAfter s.trust.session m ∧ t.mem = s.mem ∧
    t.tiles = s.tiles ∧ t.trust.report = if m = .getMeasurements then s.blocks396 else s.trust.report := by
  refine ⟨_, exec_spdmRequest m s, rfl, rfl, ?_⟩
  cases m <;> exact ⟨rfl, rfl, rfl⟩

/-- The event of a class-A alarm. -/
def alarmAEvent (s : State) (a : Fin 3) : Event := mkEvent s 0xC0 none 0 ones (w64 a.val) 0 0 0 0

/-- A class-A alarm: the event is posted, keys are erased and the links fall silent (R404). -/
theorem alarmA_next (s : State) (a : Fin 3) : ∃ t, exec (.alarmA a) s = .next t ∧ t.trust.halted = true ∧
    t.trust.keysErased = true ∧ t.trust.session = 0 ∧ t.trust.aliasKey = none ∧
    (∀ l dir, flitLink l = true → l < 52 → (t.link l dir).up = false) ∧
    t.evq.held = s.evq.held ++ [alarmAEvent s a] ∧ t.mem = s.mem ∧ t.tiles = s.tiles := by
  have hexec : exec (.alarmA a) s = .next
      { (s.post (alarmAEvent s a)).modLinksOf ((List.range 52).filter flitLink) LinkDir.silent with
        trust := { ((s.post (alarmAEvent s a)).modLinksOf ((List.range 52).filter flitLink) LinkDir.silent).trust with
          halted := true
          keysErased := true
          aliasKey := none
          session := 0 } } := exec_alarmA a s
  have hrest := (s.post (alarmAEvent s a)).modLinksOf_rest ((List.range 52).filter flitLink) LinkDir.silent
  have hsilent := fun l dir hf hl => link_silent (s.post (alarmAEvent s a)) (l := l) dir hf hl
  generalize (s.post (alarmAEvent s a)).modLinksOf ((List.range 52).filter flitLink) LinkDir.silent = x at hexec hrest hsilent
  exact ⟨_, hexec, rfl, rfl, rfl, rfl, hsilent, (congrArg (fun t : State => t.evq.held) hrest :),
    (congrArg State.mem hrest :), (congrArg State.tiles hrest :)⟩

/-- Settles O55: each step is taken by the lemma that says what it leaves, and a die that has failed by what cancels keep. -/
theorem trustAndResets : Obligations.TrustAndResets := by
  unfold Obligations.TrustAndResets
  intro s
  refine ⟨fun att ok => ⟨fun h8 => ?_, fun h8 hbad => ?_, fun h8 hok hgood hfw => ?_⟩, fun hno => ?_, fun m => ?_, fun a => ?_,
    fun c i => ?_, fun v => ⟨?_, ?_, ?_⟩, fun c r hr hstep hfailed => ⟨?_, fun htime => ?_⟩⟩
  · -- a cold start without IOD[0]
    refine ⟨_, exec_coldReset att ok s, ?_⟩
    simp only [State.coldStart, h8, Bool.not_false, if_true]
  · -- a cold start whose flash image does not verify
    refine ⟨_, exec_coldReset att ok s, ?_⟩
    have hflash : (!ok || !s.fuses.trust.flash.good) = true := by
      rcases hbad with h | h | h <;> simp [State.fuses, h]
    simp only [State.coldStart, h8, hflash, Bool.not_true, Bool.false_eq_true, if_false, if_true]
    exact ⟨trivial, rfl⟩
  · -- a cold start
    subst hok
    obtain ⟨n, es, ds, hstart, hes, hds⟩ := s.coldStart_runs h8 hgood hfw
    have hflash := State.fuses_flash hgood hfw
    have hrest := s.coldTrust_rest att
    rw [hflash] at hrest
    refine ⟨_, aliasOf s.trust.flash.image, (exec_coldReset att true s).trans (congrArg _ hstart), ?_⟩
    refine ⟨(congrArg Trust.halted hrest :), (congrArg Trust.flash hrest :).trans hflash, (congrArg Trust.fwVersion hrest :),
      (congrArg Trust.image hrest :), (congrArg Trust.aliasKey hrest :), rfl, rfl, rfl, rfl, rfl, (congrArg Trust.fused hrest :),
      fun c => s.coldTrust_bits h8 c.isLt, fun c hc => ?_, fun n d => ?_⟩
    · obtain ⟨e, he, hcode, hw3⟩ := hes c.val c.isLt hc
      exact ⟨e, List.mem_append_right _ he, hcode, hw3⟩
    · have hdavail : (Tab.get ds n.val Die.reset).davail.getLsbD d.val = (s.coldTrust att).dieReady d.val := by
        rw [hds n.val n.isLt, dieSet_getLsbD _ d.isLt]
      exact (by rw [← hdavail]; rfl : _ = true ↔ (s.coldTrust att).dieReady d.val = true).trans (s.coldTrust_dieReady h8 d.isLt)
  · -- the recovery loader
    refine ⟨_, rfl, ?_⟩
    rw [if_pos hno]
    exact ⟨rfl, rfl⟩
  · -- a request of SPDM
    obtain ⟨t, ht, hreply, hsession, hmem, htiles, hreport⟩ := spdmRequest_next s m
    obtain ⟨hchips, himage, hmanifest⟩ := s.mem_blocks396
    refine ⟨t, ht, hreply, hsession.trans (sessionAfter_eq _ m), hmem, htiles, fun hm => ?_, fun hm => ?_⟩
    · rw [hreport, if_neg hm]
    · rw [hreport, if_pos hm]
      exact ⟨hchips, himage, hmanifest⟩
  · -- a class-A alarm
    obtain ⟨t, ht, hhalted, herased, hsession, halias, hlinks, hheld, hmem, htiles⟩ := alarmA_next s a
    exact ⟨t, alarmAEvent s a, ht, hhalted, herased, hsession, halias, hlinks, hheld, rfl, rfl, hmem, htiles⟩
  · -- a class-B alarm
    refine ⟨_, alarmOf s c.val i.val, exec_alarmB c i s, ?_⟩
    rw [State.alarmB_eq]
    refine ⟨?_, rfl, fun h9 => ?_, fun h9 hq p hp hd => ?_, w64_or_place _ (by omega), rfl, rfl, fun h8 => ?_, fun d hd => ?_,
      fun h => ?_⟩
    · simp
    · simp [State.portsLost_ne s h9]
    · refine ⟨cxlDownOf s p, List.mem_append_right _ (List.mem_map.mpr ⟨p, ?_, rfl⟩), rfl, rfl⟩
      rw [h9]
      exact State.mem_portsLost hq hp hd
    · obtain ⟨ha, hq⟩ := s.trust.quarantine_bits c.isLt c.isLt h8
      exact ⟨by rw [hq]; simp, by rw [ha]; simp⟩
    · exact s.trust.quarantined_quarantine_ne c.isLt d.isLt fun h => hd (Fin.ext h)
    · simp [h]
  · -- a reset begins
    intro hnone hv hc h8
    obtain ⟨hhold, hreset, hheld, hmem, htiles⟩ := s.resetBegin_keeps (v.extractLsb' 0 5).toNat true
    exact ⟨_, resetEvent s (v.extractLsb' 0 5).toNat true, dieReset_begins hnone hv hc h8, hhold, hreset, hheld, rfl,
      w64_or_place _ (by omega), hmem, htiles⟩
  · -- a request that is not valid
    exact fun hnone h => dieReset_invalid hnone h
  · -- a die goes into quarantine
    intro r hr hstep hcrit hregions hc hheld
    obtain ⟨htrust, hmem⟩ := s.resetEnter_keeps hc
    have h26 : (v.extractLsb' 0 5).toNat < 26 := by omega
    obtain ⟨ha, hq⟩ := s.trust.quarantine_bits h26 h26 (by omega)
    have hkept : (s.trust.quarantine (v.extractLsb' 0 5).toNat).reset? (v.extractLsb' 0 5).toNat = some r := by
      rw [Trust.quarantine, if_neg (by omega)]
      exact hr
    refine ⟨_, { r with step := 2, since := s.time }, dieReset_enters hr hstep hcrit hregions hheld, ?_⟩
    rw [htrust, hmem]
    refine ⟨Trust.reset?_modReset _ (fun _ => rfl) hkept, rfl, rfl, hq.trans (by simp), ha.trans (by simp),
      fun a => (s.mem.byte_withoutDie hc a).1, fun a => (s.mem.byte_withoutDie hc a).2.1, fun a => (s.mem.byte_withoutDie hc a).2.2⟩
  · -- a die attests again
    obtain ⟨ha, hq⟩ := s.trust.attest_bits c.isLt c.isLt
    refine ⟨_, reattestEvent s c.val, dieAttested_next hr hstep hfailed, ?_⟩
    refine ⟨?_, ?_, ?_, ?_, ?_, rfl, rfl, ?_, ?_, fun l dir hl hf hc => ?_⟩
    · rw [State.reattest_eq]
      exact Trust.reset?_filter _ _
    · rw [State.reattest_eq]
    · rw [State.reattest_eq]
      exact ha.trans (by simp)
    · rw [State.reattest_eq]
      exact hq.trans (by simp)
    · rw [State.reattest_eq]
    · rw [State.reattest_eq]
    · rw [State.reattest_eq]
    · rw [s.link_reattest dir hl hf hc]
      exact ⟨rfl, rfl⟩
  · -- a die fails
    obtain ⟨hkeeps, hretired⟩ := foldl_cancelLaunch 0xC4 (s.heldFor c.val) (s.dieGivenUp c.val)
    refine ⟨_, dieFailed_next hr hstep hfailed htime, ?_, ⟨failedEvent s c.val, ?_, rfl, rfl⟩, fun n hn l hl => hretired n hn l hl⟩
    · rw [hkeeps.trust]
      exact (mem_putNat _ _ _).mpr (.inr rfl)
    · exact hkeeps.held _ (List.mem_append_right _ (by simp))

end Sys2Proof.Machine

/-! ## Instruction words (R93, R97, R98, R111, R135) -/

namespace Sys2Proof

/-! ### From an instruction to its word and back -/

/-- An opcode fits its field of R93. -/
theorem Op.code_lt (o : Op) : o.code < 256 := by cases o <;> decide

/-- A triggered instruction is well-formed in a pool where no check of R111 turns its opcode and fields away. -/
theorem Instr.wf_mk {p : Pool} {o : Op} {f : Fields} : (o.mk f).wf p = true ↔ firstReject p o f = none := by
  have hwf : (o.mk f).wf p = wfOp p o f := by cases o <;> rfl
  rw [hwf]
  exact Option.isNone_iff_eq_none

/-- The word of an opcode and fields that no check of R111 turns away decodes to them. -/
theorem decode_encodeFields {p : Pool} {o : Op} {f : Fields} (h : firstReject p o f = none) :
    decode p (encodeFields o f) = .ok (o.mk f) := by
  obtain ⟨hread, hop, hmd, hdst⟩ := encodeFields_read o f o.code_lt
  have hacc := Accepted.of_firstReject h
  have hopOf : opOf p o.code f.md.toNat = some o := opOf_code (by simpa using hacc.assigned) hacc.md
  simp [decode, hop, hmd, hopOf, hdst, hread, h]

/-- What a word that decodes is: an opcode of its pool's map, a legal D, and fields that pass every check of R111. -/
theorem decode_ok {p : Pool} {w : Word} {i : Instr} (h : decode p w = .ok i) :
    ∃ o d, opOf p (wordOp w) (wordMd w) = some o ∧ Dst.decode (w.extractLsb' 20 6) = some d ∧
      firstReject p o (readFields w d) = none ∧ i = o.mk (readFields w d) := by
  unfold decode at h
  split at h
  · cases h
  · rename_i o ho
    split at h
    · cases h
    · rename_i d hd
      split at h
      · cases h
      · rename_i hrej
        exact ⟨o, d, ho, hd, hrej, (Except.ok.inj h).symm⟩

theorem ofBool_getLsbD (w : Word) (i : Nat) : BitVec.ofBool (w.getLsbD i) = w.extractLsb' i 1 := by
  ext j hj
  obtain rfl : j = 0 := by omega
  simp

/-- The fields of R93 cover the word. -/
theorem append_fields (w : Word) :
    w.extractLsb' 56 8 ++ w.extractLsb' 48 8 ++ w.extractLsb' 44 4 ++ w.extractLsb' 40 4 ++ w.extractLsb' 39 1 ++
      w.extractLsb' 37 2 ++ w.extractLsb' 34 3 ++ w.extractLsb' 26 8 ++ w.extractLsb' 20 6 ++ w.extractLsb' 14 6 ++
      w.extractLsb' 8 6 ++ w.extractLsb' 7 1 ++ w.extractLsb' 4 3 ++ w.extractLsb' 3 1 ++ w.extractLsb' 0 3 = w := by
  repeat rw [BitVec.extractLsb'_append_extractLsb'_eq_extractLsb' (by omega)]
  exact BitVec.extractLsb'_eq_self

/-- Fields read from a word, with its opcode and D, are written back to it. -/
theorem encodeFields_readFields {w : Word} {o : Op} {d : Dst} (ho : o.code = wordOp w)
    (hd : Dst.decode (w.extractLsb' 20 6) = some d) : encodeFields o (readFields w d) = w := by
  unfold encodeFields readFields
  simp only [ho, wordOp, BitVec.ofNat_toNat, BitVec.setWidth_eq, Dst.encode_decode hd, Src.encode_decode, ofBool_getLsbD]
  exact append_fields w

/-! ### What the checks of R111 say of the operands -/

theorem Dst.isOut_iff {d : Dst} : d.isOut = true ↔ ∃ t, d = .out t := by cases d <;> simp [Dst.isOut]

theorem Dst.isV_iff {d : Dst} : d.isV = true ↔ ∃ n, d = .wr n ∨ d = .put n := by cases d <;> simp [Dst.isV]

theorem Src.isInp_iff {a : Src} : a.isInp = true ↔ ∃ c, a = .inp c := by cases a <;> simp [Src.isInp]

theorem Src.isA_iff {a : Src} : a.isA = true ↔ ∃ n, a = .areg n := by cases a <;> simp [Src.isA]

theorem Src.input?_eq_some {a : Src} {c : Fin 4} : a.input? = some c ↔ a = .inp c ∨ a = .peek c := by
  cases a <;> simp [Src.input?]

theorem Src.consumes?_eq_some {a : Src} {c : Fin 4} : a.consumes? = some c ↔ a = .inp c := by
  cases a <;> simp [Src.consumes?]

/-- The input that a source names is not number `n`. -/
theorem Src.input?_map_ne {a : Src} {n : Nat} :
    (a.input?.map (·.val) != some n) = true ↔ ∀ c : Fin 4, c.val = n → a ≠ .inp c ∧ a ≠ .peek c := by
  have hmap : (a.input?.map (·.val) != some n) = true ↔ ∀ c : Fin 4, c.val = n → a.input? ≠ some c := by
    rw [bne_iff_ne, ne_eq, Option.map_eq_some_iff]
    exact ⟨fun h c hc hi => h ⟨c, hi, hc⟩, fun h ⟨c, hi, hc⟩ => h c hc hi⟩
  simpa only [ne_eq, Src.input?_eq_some, not_or] using hmap

/-- Item 5 of R111: only a † opcode, or a KINDP, consumes the head that its tag test wants of another KIND than DATA. -/
theorem Op.admits_keeps {o : Op} {f : Fields} (h : o.admits f = true) (hte : f.te = true) (htk : f.tk ≠ 0)
    (hdag : o.dagger = false) (hkind : o ≠ .kindp) {c : Fin 4} (hc : c.val = f.tc.toNat) : f.a ≠ .inp c ∧ f.b ≠ .inp c := by
  refine ⟨fun ha => ?_, fun hb => ?_⟩
  · exact htk (by simpa [Op.admits, hte, hdag, hkind, Src.consumes?_eq_some.mpr ha, hc] using h)
  · exact htk (by simpa [Op.admits, hte, hdag, hkind, Src.consumes?_eq_some.mpr hb, hc] using h)

/-- Item 9 of R111: no operand of the MX and AG pools names a register from v4 or a4 on. -/
theorem narrowOk_bounds {p : Pool} {f : Fields} (h : narrowOk p f = true) (hp : p ≠ .pe) :
    (∀ n : Fin 16, 4 ≤ n.val → f.d ≠ .wr n ∧ f.d ≠ .put n ∧ f.a ≠ .rd n ∧ f.a ≠ .take n ∧ f.b ≠ .rd n ∧ f.b ≠ .take n) ∧
      ∀ n : Fin 8, 4 ≤ n.val → f.d ≠ .areg n ∧ f.a ≠ .areg n ∧ f.b ≠ .areg n := by
  simp only [narrowOk, beq_eq_false_iff_ne.mpr hp, Bool.false_or, Bool.and_eq_true] at h
  obtain ⟨⟨hd, ha⟩, hb⟩ := h
  refine ⟨fun n hn => ⟨?_, ?_, ?_, ?_, ?_, ?_⟩, fun n hn => ⟨?_, ?_, ?_⟩⟩
  all_goals
    intro he
    simp only [he, decide_eq_true_eq] at hd ha hb
    omega

/-- Item 10 of R111: a put and a take of one register. -/
theorem conflictFree_put {f : Fields} (h : conflictFree f = true) {n : Fin 16} (hd : f.d = .put n) :
    f.a ≠ .take n ∧ f.b ≠ .take n := by
  simp only [conflictFree, hd, Bool.and_eq_true, Bool.not_eq_true', Bool.or_eq_false_iff, beq_eq_false_iff_ne] at h
  exact h.1.1

/-- Item 10 of R111: a result and an update of one predicate. -/
theorem conflictFree_pred {f : Fields} (h : conflictFree f = true) {n : Fin 8} (hd : f.d = .pred n) (hpe : f.pe = true) :
    f.pi.toNat ≠ n.val := by
  simp only [conflictFree, hd, hpe, Bool.and_eq_true, Bool.not_eq_true', Bool.true_and, beq_eq_false_iff_ne] at h
  exact h.2

/-- Item 10 of R111: one input in both sources, consumed. -/
theorem conflictFree_inp {f : Fields} (h : conflictFree f = true) (c : Fin 4) :
    (f.a = .inp c → f.b ≠ .inp c ∧ f.b ≠ .peek c) ∧ (f.b = .inp c → f.a ≠ .inp c ∧ f.a ≠ .peek c) := by
  simp only [conflictFree, Bool.and_eq_true, Bool.not_eq_true'] at h
  obtain ⟨⟨-, h⟩, -⟩ := h
  refine ⟨fun ha => ⟨fun hb => ?_, fun hb => ?_⟩, fun hb => ⟨fun ha => ?_, fun ha => ?_⟩⟩
  all_goals simp [ha, hb, Src.input?, Src.isInp] at h

end Sys2Proof

namespace Sys2Proof.Machine

open Sys2Proof

/-- Item 12 of R111 turns away the combinations that R135 leaves undefined. -/
theorem combinationDefined {o : Op} {f : Fields} (h : o.combo f = true) : CombinationDefined o f where
  emit := by
    rintro rfl
    simpa [Op.combo, Dst.isOut_iff, or_comm] using h
  plog := by
    rintro rfl hm
    simpa [Op.combo, Nat.not_lt.mpr hm] using h
  steer := by
    rintro rfl t ht hm
    simpa [Op.combo, ht, hm, Nat.ne_of_lt hm] using h
  steerTo := by
    rintro rfl
    simp only [Op.combo] at h
    split at h
    · exact ⟨_, ‹_›⟩
    · cases h
  mergeTests := by
    rintro rfl
    simp only [Op.combo, Bool.and_eq_true, Src.input?_map_ne] at h
    obtain ⟨⟨ha, hb⟩, ht⟩ := h
    exact ⟨fun hte => by simpa [hte] using ht, fun c hc => ⟨(ha c hc).1, (ha c hc).2, (hb c hc).1, (hb c hc).2⟩⟩
  perm := by
    rintro rfl hte ⟨c, hc, ha⟩
    simpa [Op.combo, hte, Src.input?_eq_some.mpr ha, hc] using h
  tagset := by
    rintro rfl hm n
    have hv : ¬∃ n, f.d = .wr n ∨ f.d = .put n := by simpa [Op.combo, hm, ← Dst.isV_iff] using h
    exact ⟨fun he => hv ⟨n, .inl he⟩, fun he => hv ⟨n, .inr he⟩⟩
  plane := by
    rintro rfl hm
    simpa [Op.combo, Nat.not_lt.mpr hm] using h
  smup := by
    rintro rfl hm
    have hne : f.md.toNat ≠ 1 := fun he => hm (BitVec.eq_of_toNat_eq he)
    simpa [Op.combo, hne] using h
  smrg := by
    rintro (rfl | rfl)
    · simpa [Op.combo] using h
    · simp only [Op.combo, Bool.and_eq_true, beq_iff_eq] at h
      exact h.1
  smrgOrd := by
    rintro rfl
    simp only [Op.combo, Bool.and_eq_true, Src.isInp_iff] at h
    exact h.2
  topki := by
    rintro rfl hm
    simpa [Op.combo, Nat.not_lt.mpr hm] using h
  ldch := by
    rintro rfl
    simpa [Op.combo, Src.isA_iff] using h
  dhpushJoin := by
    rintro rfl
    simpa [Op.combo] using h
  wcntBind := by
    rintro rfl
    simpa [Op.combo] using h
  wcnt := by
    rintro rfl
    simpa [Op.combo] using h
  streams := by
    rintro (rfl | rfl | rfl | rfl) <;> simp only [Op.combo, Bool.and_eq_true, Dst.isOut_iff] at h
    · exact h
    · exact h
    · exact h
    · exact h.1.1.1
  mxout := by
    rintro rfl hm
    simpa [Op.combo, Nat.not_lt.mpr hm] using h
  mxrow := by
    rintro rfl
    simp only [Op.combo, Bool.and_eq_true, Bool.or_eq_true, beq_iff_eq, Src.isInp_iff] at h
    obtain ⟨⟨⟨-, ha⟩, hb⟩, -⟩ := h
    exact ⟨ha, hb⟩
  mxrowTwo := by
    rintro rfl hm c hb d hd
    have hne : f.md.toNat ≠ 0 := fun he => hm (BitVec.eq_of_toNat_eq he)
    simp only [Op.combo, hb, Bool.and_eq_true, Bool.or_eq_true, beq_iff_eq, hne, false_or, Src.input?_map_ne] at h
    exact (h.2 d hd).1

/-- Settles O1: the checks of R111 that make the instruction well-formed are those that its word passes, and its fields stand
in the word where R93 puts them. -/
theorem decodeOfEncode : Obligations.DecodeOfEncode := by
  intro p i w hwf henc
  unfold encode at henc
  split at henc
  · rename_i o f hop
    obtain rfl := Instr.mk_of_op? hop
    obtain rfl := Option.some.inj henc
    exact decode_encodeFields (Instr.wf_mk.mp hwf)
  · cases henc

/-- Settles O2: the fields of R93 cover the word, so that it is written back, and `Accepted` holds what the checks of R111
leave. -/
theorem acceptedWordsObey : Obligations.AcceptedWordsObey := by
  intro p w i h
  obtain ⟨o, d, hop, hd, hrej, rfl⟩ := decode_ok h
  have hcode := code_of_opOf hop
  have hacc := Accepted.of_firstReject hrej
  refine ⟨?_, o, readFields w d, rfl, ⟨hacc.assigned, hcode⟩, hacc.pv, fun hte => hacc.test hte, fun hpe => hacc.update hpe,
    hacc.noSwitch, fun hte htk hdag hkind c hc => Op.admits_keeps hacc.admits hte htk hdag hkind hc, hd, hacc.classes, hacc.unused,
    narrowOk_bounds hacc.narrow, fun n hn => conflictFree_put hacc.conflict hn,
    fun n hn hpe => conflictFree_pred hacc.conflict hn hpe, conflictFree_inp hacc.conflict, combinationDefined hacc.combo, hacc.md⟩
  simp only [encode, Op.op?_mk, encodeFields_readFields hcode hd]

end Sys2Proof.Machine

/-! ## Triggers and firings (R94, R95, R97 to R99, R102, R113, R114, R116) -/

namespace Sys2Proof.Machine

open Sys2Proof

/-! ### The trigger of an integer instruction (R94, R97 to R99, R116) -/

/-- The predicate part of a trigger, bit by bit. -/
theorem predsHold_iff {ps pm pv : BitVec 8} : predsHold ps pm pv = true ↔
    (∀ n < 8, pm.getLsbD n = true → ps.getLsbD n = pv.getLsbD n) ∧ ∀ n < 8, pv.getLsbD n = true → pm.getLsbD n = true := by
  have hbits : predsHold ps pm pv = true ↔ ∀ n < 8, (ps.getLsbD n && pm.getLsbD n) = pv.getLsbD n := by
    unfold predsHold
    rw [beq_iff_eq]
    exact ⟨fun h n _ => by rw [← h, BitVec.getLsbD_and], fun h => BitVec.eq_of_getLsbD_eq fun n hn => by
      rw [BitVec.getLsbD_and, h n hn]⟩
  rw [hbits, ← forall₂_and]
  refine forall₂_congr fun n _ => ?_
  cases ps.getLsbD n <;> cases pm.getLsbD n <;> cases pv.getLsbD n <;> simp

/-- IR, OS and the tag test. -/
theorem PoolSt.guards_iff {x : PoolSt} {f : Fields} : x.guards f = true ↔
    (∀ c < 4, f.ir.getLsbD c = true → (x.inp c).head.isSome = true) ∧
      (∀ c < 4, f.os.getLsbD c = true → (x.out c).space = true) ∧
      (f.te = true → ∃ h, (x.inp f.tc.toNat).head = some h ∧ h.kind = f.tk) := by
  have htest : (!f.te || (x.inp f.tc.toNat).head.elim false fun t => t.kind == f.tk) = true ↔
      (f.te = true → ∃ h, (x.inp f.tc.toNat).head = some h ∧ h.kind = f.tk) := by
    cases f.te <;> cases (x.inp f.tc.toNat).head <;> simp
  have hall : ∀ q : Nat → Bool, ([0, 1, 2, 3].all q) = true ↔ ∀ c < 4, q c = true := by
    intro q
    rw [List.all_eq_true]
    exact ⟨fun h c hc => h c (by interval_cases c <;> simp), fun h c hc => h c (by simp at hc; omega)⟩
  simp only [PoolSt.guards, Bool.and_eq_true, htest, hall, forall_and, and_assoc, Bool.or_eq_true, Bool.not_eq_true']
  simp only [← Bool.not_eq_true, ← imp_iff_not_or]

theorem PoolSt.aAwaits_eq_false {x : PoolSt} {n : Fin 8} :
    x.aAwaits n.val = false ↔ ∀ e ∈ x.inflight, e.dst ≠ .areg n := by
  unfold PoolSt.aAwaits
  rw [List.any_eq_false]
  refine forall₂_congr fun e _ => ?_
  cases e.dst <;> simp [Fin.ext_iff]

theorem PoolSt.vAwaits_eq_false {x : PoolSt} {n : Fin 16} :
    x.vAwaits n.val = false ↔ ∀ e ∈ x.inflight, e.dst ≠ .wr n ∧ e.dst ≠ .put n := by
  unfold PoolSt.vAwaits
  rw [List.any_eq_false]
  refine forall₂_congr fun e _ => ?_
  cases e.dst <;> simp [Fin.ext_iff]

/-- What a source adds, where the instruction has no admission rule of its own (R143, R147, R151). -/
theorem PoolSt.srcReady_iff {x : PoolSt} {o : Op} {f : Fields} {isA : Bool} {a : Src} (hk : o ≠ .kindp) (hs : o ≠ .steer)
    (hp : o ≠ .perm) : x.srcReady o f isA a = true ↔ SourceReady x o f a := by
  have hkind : ∀ c kind, kindOk o f isA c kind = true ↔
      kind = if o.dagger && f.te && f.tc.toNat == c.val then f.tk else 0 := by
    intro c kind
    simp only [kindOk, hk, hs, hp, decide_false, Bool.false_and, Bool.false_eq_true, if_false]
    split <;> simp
  have hhead : ∀ (h : Option Tok) c, (h.elim false fun t => kindOk o f isA c t.kind) = true ↔
      ∃ t, h = some t ∧ t.kind = if o.dagger && f.te && f.tc.toNat == c.val then f.tk else 0 := by
    intro h c
    cases h <;> simp [hkind]
  cases a with
  | take n => rfl
  | inp c => exact hhead _ c
  | peek c => exact hhead _ c
  | areg n => simp only [PoolSt.srcReady, SourceReady, Bool.not_eq_true', PoolSt.aAwaits_eq_false]
  | rd n => simp [PoolSt.srcReady, SourceReady]
  | const n => simp [PoolSt.srcReady, SourceReady]
  | imm n => simp [PoolSt.srcReady, SourceReady]

/-- What D adds, for every opcode but WRAPA, which reads its D (R155). -/
theorem PoolSt.dstReady_iff {x : PoolSt} {o : Op} {d : Dst} (ho : o ≠ .wrapa) :
    x.dstReady o d = true ↔ DestReady x d := by
  cases d with
  | put n => simp only [PoolSt.dstReady, DestReady, Bool.and_eq_true, Bool.not_eq_true', PoolSt.vAwaits_eq_false]
  | out c => simp only [PoolSt.dstReady, DestReady, Bool.and_eq_true, Option.isNone_iff_eq_none]
  | areg n => simp [PoolSt.dstReady, DestReady, ho]
  | wr n => simp [PoolSt.dstReady, DestReady]
  | pred n => simp [PoolSt.dstReady, DestReady]
  | none => simp [PoolSt.dstReady, DestReady]

/-- No earlier result to a destination completes after a cycle, no engine's work bringing one (R116). -/
theorem PoolSt.inOrder_iff {x : PoolSt} {d : Dst} {due : Nat} : x.inOrder d due none = true ↔
    ∀ e ∈ x.inflight, sameDst e.dst d = true → e.val.isSome = true ∧ e.due ≤ due := by
  unfold PoolSt.inOrder
  rw [List.all_eq_true]
  refine forall₂_congr fun e _ => ?_
  cases sameDst e.dst d <;> simp

/-- What sets the integer instructions of R153 apart from the rest as far as their trigger goes: none has a condition of its
own, a destination beside D or a request, and each has its latency. -/
structure PlainTrigger (o : Op) : Prop where
  ready : ∀ (s : State) (c : Ctx), c.o = o → c.p = .pe → s.operandsReady c =
    (c.x.srcReady o c.f true c.f.a && c.x.srcReady o c.f false c.f.b && c.x.dstReady o c.f.d)
  dests : ∀ c : Ctx, c.o = o → dests c = [c.f.d]
  latency : opLatency o = some (intLatency o)
  ne : o ≠ .kindp ∧ o ≠ .steer ∧ o ≠ .perm ∧ o ≠ .wrapa ∧ o ≠ .rdv ∧ o ≠ .mxrow

theorem plainTrigger_of_integer {o : Op} (ho : o ∈ sizedOps ++ bitOps) : PlainTrigger o := by
  simp only [sizedOps, bitOps, List.cons_append, List.nil_append, List.mem_cons, List.not_mem_nil, or_false] at ho
  rcases ho with rfl | rfl | rfl | rfl | rfl | rfl | rfl | rfl | rfl | rfl | rfl | rfl | rfl | rfl | rfl | rfl | rfl | rfl |
    rfl | rfl | rfl | rfl | rfl | rfl | rfl | rfl
  all_goals
    exact {
      ready := fun s c ho hp => by simp [State.operandsReady, ho, hp, isMemOp]
      dests := fun c ho => by simp [Machine.dests, ho]
      latency := rfl
      ne := by decide }

theorem PlainTrigger.resultDue {o : Op} (h : PlainTrigger o) {c : Ctx} (hc : c.o = o) :
    c.resultDue = some (c.cyc + intLatency o - 1) := by
  obtain ⟨-, -, -, -, -, hmxrow⟩ := h.ne
  unfold Ctx.resultDue
  rw [hc, if_neg hmxrow, h.latency]
  rfl

/-- Settles O6: the trigger of an integer instruction is the conjunction that `slotReady` forms, its parts read one by one. -/
theorem triggerHoldsWhen : Obligations.TriggerHoldsWhen := by
  intro o f s ho hpe t x cyc
  have hplain := plainTrigger_of_integer ho
  obtain ⟨hkindp, hsteer, hperm, hwrapa, hrdv, -⟩ := hplain.ne
  have hx : (s.ctx s.focus o f).x = x := by
    show (s.tile s.focus.tile).pool s.focus.pool = _
    rw [hpe]
    rfl
  have hdue : (s.ctx s.focus o f).resultDue = some (cyc + intLatency o - 1) := hplain.resultDue rfl
  obtain ⟨hf, hp, ht⟩ : (s.ctx s.focus o f).f = f ∧ (s.ctx s.focus o f).p = .pe ∧ (s.ctx s.focus o f).t = t :=
    ⟨rfl, hpe, rfl⟩
  have htrig : s.trigger s.focus o f = s.slotReady (s.ctx s.focus o f) := by simp [State.trigger, hrdv]
  rw [Fires, htrig, State.slotReady, hplain.ready s _ rfl hp, hplain.dests _ rfl, hdue, hx, hf, hp, ht]
  simp only [Bool.and_eq_true, decide_eq_true_eq, predsHold_iff, PoolSt.guards_iff, PoolSt.srcReady_iff hkindp hsteer hperm,
    PoolSt.dstReady_iff hwrapa, List.all_cons, List.all_nil, Bool.and_true, reduceCtorEq, if_false, PoolSt.inOrder_iff, and_assoc]
  rfl

/-! ### What a firing leaves of its pool (R95, R117) -/

theorem PoolSt.queue_popInput (x : PoolSt) (j i : Nat) :
    ((x.popInput j).inp i).queue = (x.inp i).queue.drop (if j = i then 1 else 0) := by
  simp only [PoolSt.popInput, PoolSt.inp, List.getD_eq_getElem?_getD, List.getElem?_modify]
  by_cases hj : j = i
  · simp only [if_pos hj]
    cases x.ins[i]? <;> rfl
  · simp [hj]

/-- Each pop of an input takes its head. -/
theorem PoolSt.queue_foldl_popInput (is : List Nat) (x : PoolSt) (i : Nat) :
    ((is.foldl PoolSt.popInput x).inp i).queue = (x.inp i).queue.drop (is.count i) := by
  induction is generalizing x with
  | nil => simp
  | cons j rest ih =>
    rw [List.foldl_cons, ih, PoolSt.queue_popInput, List.drop_drop, List.count_cons, Nat.add_comm]
    simp only [beq_iff_eq]

/-- Pops leave registers and outputs. -/
theorem PoolSt.foldl_popInput_keeps (is : List Nat) (x : PoolSt) :
    (is.foldl PoolSt.popInput x).v = x.v ∧ (is.foldl PoolSt.popInput x).outs = x.outs := by
  induction is generalizing x with
  | nil => exact ⟨rfl, rfl⟩
  | cons j rest ih => exact ih (x.popInput j)

theorem PoolSt.fire_v (x : PoolSt) (c : Ctx) (d : Done) :
    (x.fire c d).v = d.takes.foldl (fun v n => v.modify n fun r => { r with present := false }) x.v :=
  congrArg (d.takes.foldl fun (v : List VReg) n => v.modify n fun r => { r with present := false })
    (PoolSt.foldl_popInput_keeps d.pops x).1

theorem PoolSt.fire_outs (x : PoolSt) (c : Ctx) (d : Done) :
    (x.fire c d).outs = d.outs.foldl (fun os n => os.modify n OutPort.spend) x.outs :=
  congrArg (d.outs.foldl fun (os : List OutPort) n => os.modify n OutPort.spend)
    (PoolSt.foldl_popInput_keeps d.pops x).2

theorem PoolSt.fire_queue (x : PoolSt) (c : Ctx) (d : Done) (i : Nat) :
    ((x.fire c d).inp i).queue = (x.inp i).queue.drop (d.pops.count i) :=
  PoolSt.queue_foldl_popInput d.pops x i

/-- Registers taken lose their presence and keep their token. -/
theorem getD_foldl_takes (ns : List Nat) (v : List VReg) (n : Nat) {r : VReg} (hr : r.present = false) :
    let w := (ns.foldl (fun v n => v.modify n fun r => { r with present := false }) v).getD n r
    w.tok = (v.getD n r).tok ∧ w.present = ((v.getD n r).present && !ns.contains n) := by
  induction ns generalizing v with
  | nil => simp
  | cons m rest ih =>
    obtain ⟨htok, hpresent⟩ := ih (v.modify m fun r => { r with present := false })
    rw [List.foldl_cons]
    refine ⟨htok.trans ?_, hpresent.trans ?_⟩ <;>
      simp only [List.getD_eq_getElem?_getD, List.getElem?_modify, List.contains_cons] <;>
      by_cases hm : m = n
    · cases v[n]? <;> simp [hm]
    · simp [hm]
    · cases v[n]? <;> simp [hm, hr]
    · simp [hm, beq_eq_false_iff_ne.mpr (Ne.symm hm)]

theorem PoolSt.fire_vreg (x : PoolSt) (c : Ctx) (d : Done) (n : Nat) :
    ((x.fire c d).vreg n).tok = (x.vreg n).tok ∧
      ((x.fire c d).vreg n).present = ((x.vreg n).present && !d.takes.contains n) := by
  unfold PoolSt.vreg
  rw [PoolSt.fire_v]
  exact getD_foldl_takes d.takes x.v n rfl

theorem getD_foldl_modify_of_notMem {α : Type} (g : α → α) (ns : List Nat) (l : List α) {n : Nat} (d : α) (h : n ∉ ns) :
    (ns.foldl (fun l m => l.modify m g) l).getD n d = l.getD n d := by
  induction ns generalizing l with
  | nil => rfl
  | cons m rest ih =>
    obtain ⟨hm, hrest⟩ := not_or.mp (mt List.mem_cons.mpr h)
    rw [List.foldl_cons, ih _ hrest]
    simp [List.getD_eq_getElem?_getD, Ne.symm hm]

theorem PoolSt.fire_out (x : PoolSt) (c : Ctx) (d : Done) {n : Nat} (h : n ∉ d.outs) : (x.fire c d).out n = x.out n := by
  unfold PoolSt.out
  rw [PoolSt.fire_outs]
  exact getD_foldl_modify_of_notMem _ _ _ _ h

/-- The results that a firing records: those whose D is not `_`. -/
theorem PoolSt.fire_inflight_filter (x : PoolSt) (c : Ctx) (d : Done) : (x.fire c d).inflight =
    x.inflight ++ (d.res.filter fun r => r.dst != .none).map (fun r =>
      ⟨r.dst, r.tok, c.cyc + r.lat - 1, (r.tok.elim c.gen fun t => t.gen), c.slot, r.ticket, dstCode r.dst⟩) := by
  rw [PoolSt.fire_inflight]
  congr 1
  induction d.res with
  | nil => rfl
  | cons r rest ih => by_cases hr : r.dst = .none <;> simp [hr, ih]

/-- Settles O7: beyond the tile by what `commit` leaves, and in the pool by what `fire` writes there. -/
theorem firingIsOneAct : Obligations.FiringIsOneAct := by
  intro s c d ht he ha
  refine ⟨_, rfl, s.commit_rest c d he ha, fun a => by rw [s.commit_mem c d he ha],
    fun k hk => s.commit_tile_ne c d he ha hk, fun hid => ?_⟩
  have htile : (s.commit c d).tile c.k = (s.tile c.k).modPool c.p fun x => x.fire c d := by
    rw [s.commit_tile c d he ha, hid, ht]
    rfl
  rw [htile]
  refine ⟨fun q hq => Tile.pool_modPool_ne _ _ hq, Tile.modPool_ps _ _ _, Tile.modPool_eng _ _ _, ?_⟩
  rw [Tile.pool_modPool]
  exact ⟨PoolSt.fire_rest _ c d, PoolSt.fire_queue _ c d, PoolSt.fire_vreg _ c d, fun n hn => PoolSt.fire_out _ c d hn,
    PoolSt.fire_inflight_filter _ c d, PoolSt.fire_upd _ c d, PoolSt.fire_firedAt _ c d⟩

/-! ### The update of the PE slot that fired (R102) -/

theorem getLsbD_setBit4 (x : BitVec 4) {i : Nat} (v : Bool) (hi : i < 4) : (setBit4 x i v).getLsbD i = v := by
  have hall : ∀ (i : Fin 4) (v : Bool) (x : BitVec 4), (setBit4 x i.val v).getLsbD i.val = v := by decide
  exact hall ⟨i, hi⟩ v x

theorem Tile.pred_setPred (t : Tile) (p : Pool) {n : Nat} (v : Bool) (hn : n < 8) : (t.setPred p n v).pred p n = v := by
  unfold Tile.setPred Tile.pred Tile.preds
  split
  · rw [BitVec.getLsbD_append, if_neg (by omega)]
    exact getLsbD_setBit4 t.ps v (by omega)
  · rw [BitVec.getLsbD_append, if_pos (by omega), Tile.pool_modPool]
    exact getLsbD_setBit4 (t.pool p).p v (by omega)

theorem Tile.pool_ps (t : Tile) (ps : BitVec 4) (q : Pool) : Tile.pool { t with ps := ps } q = t.pool q := by
  cases q <;> rfl

/-- A pool changed in what is not its recorded update: every pool of the tile keeps its own. -/
theorem Tile.upd_modPool (t : Tile) (p : Pool) {f : PoolSt → PoolSt} (hf : ∀ x, (f x).upd = x.upd) (q : Pool) :
    ((t.modPool p f).pool q).upd = (t.pool q).upd := by
  by_cases hq : q = p
  · subst hq
    rw [Tile.pool_modPool, hf]
  · rw [Tile.pool_modPool_ne _ _ hq]

theorem Tile.upd_setPred (t : Tile) (p : Pool) (n : Nat) (v : Bool) (q : Pool) :
    ((t.setPred p n v).pool q).upd = (t.pool q).upd := by
  unfold Tile.setPred
  split
  · rw [Tile.pool_ps]
  · exact Tile.upd_modPool t p (by intro; rfl) q

/-- Applying a pool's update leaves what the others have recorded. -/
theorem Tile.upd_applyUpd_ne (t : Tile) {p q : Pool} (h : q ≠ p) : ((t.applyUpd p).pool q).upd = (t.pool q).upd := by
  unfold Tile.applyUpd
  split
  · rw [Tile.pool_modPool_ne _ _ h, Tile.upd_setPred]
  · rfl

/-- A pool changed in what is not its predicates: the pool sees the same. -/
theorem Tile.pred_modPool (t : Tile) (p : Pool) {f : PoolSt → PoolSt} (hf : ∀ x, (f x).p = x.p) (n : Nat) :
    (t.modPool p f).pred p n = t.pred p n := by
  simp [Tile.pred, Tile.preds, hf]

/-- The recorded update of a slot is what the predicate then holds. -/
theorem Tile.pred_applyUpd {t : Tile} {p : Pool} {n : BitVec 3} {v : Bool} (h : (t.pool p).upd = some (n, v)) :
    (t.applyUpd p).pred p n.toNat = v := by
  unfold Tile.applyUpd
  rw [h]
  exact (Tile.pred_modPool _ p (by intro; rfl) _).trans (Tile.pred_setPred t p v n.isLt)

/-- Two states in which every pool has the same update recorded. -/
def SameUpd (s t : State) : Prop := ∀ k p, ((t.tile k).pool p).upd = ((s.tile k).pool p).upd

namespace SameUpd

theorem refl (s : State) : SameUpd s s := fun _ _ => rfl

theorem trans {s t u : State} (h : SameUpd s t) (h' : SameUpd t u) : SameUpd s u := fun k p => (h' k p).trans (h k p)

theorem setTile {s : State} {k : Nat} {t : Tile} (h : ∀ p, (t.pool p).upd = ((s.tile k).pool p).upd) :
    SameUpd s (s.setTile k t) := by
  intro j p
  by_cases hj : j = k
  · subst hj
    rw [State.tile_setTile, h]
  · rw [State.tile_setTile_ne s t hj]

theorem modPool (s : State) (k : Nat) (p : Pool) {f : PoolSt → PoolSt} (hf : ∀ x, (f x).upd = x.upd) :
    SameUpd s (s.modPool k p f) := setTile (Tile.upd_modPool _ p hf)

theorem deliverFault (s : State) (k : Nat) (p : Pool) (r : FaultRec) : SameUpd s (s.deliverFault k p r) := by
  unfold State.deliverFault
  dsimp only
  split
  · exact refl s
  · split <;> intro j q <;> simp [State.holdLaunch, State.report]

theorem raise (s : State) (k : Nat) (p : Pool) (slot code : Nat) (gen : BitVec 8) (w3 w4 w5 : Word) :
    SameUpd s (s.raise k p slot code gen w3 w4 w5) := by
  unfold State.raise
  dsimp only
  split
  · exact refl s
  · split
    · exact (modPool s k p (by intro; rfl)).trans (deliverFault _ k p _)
    · exact modPool s k p (by intro; rfl)

theorem poisonCtl (s : State) (k : Nat) (p : Pool) (e : InFlight) (psn : Bool) : SameUpd s (s.poisonCtl k p e psn) := by
  unfold State.poisonCtl
  split
  · exact raise s k p _ _ _ _ _ _
  · exact refl s

theorem sendOut (s : State) (k : Nat) (p : Pool) (n : Nat) (t : Tok) : SameUpd s (s.sendOut k p n t) := by
  unfold State.sendOut
  split
  · intro j q
    rw [State.tile_modChan]
  · exact refl s

/-- A result at its destination records no update. -/
theorem deliver (s : State) (k : Nat) (p : Pool) (e : InFlight) (t : Tok) : SameUpd s (s.deliver k p e t) := by
  unfold State.deliver
  split
  · exact modPool s k p (by intro; rfl)
  · exact modPool s k p (by intro; rfl)
  · exact sendOut s k p _ t
  · exact (modPool s k p (by intro; rfl)).trans (poisonCtl _ k p e _)
  · exact (setTile fun q => Tile.upd_setPred _ p _ _ q).trans (poisonCtl _ k p e _)
  · exact refl s

theorem discard (s : State) (k : Nat) (p : Pool) (e : InFlight) : SameUpd s (s.modPool k p fun y => y.discard e) :=
  modPool s k p fun x => by unfold PoolSt.discard; split <;> rfl

theorem releasePlace (s : State) (k : Nat) (p : Pool) (n : Nat) : SameUpd s (s.modPool k p fun y => y.releasePlace n) :=
  modPool s k p fun x => by unfold PoolSt.releasePlace; split <;> rfl

theorem complete (s : State) (k : Nat) (p : Pool) (i : Nat) : SameUpd s (s.complete k p i) := by
  unfold State.complete
  dsimp only
  split
  case isFalse => exact refl s
  case isTrue =>
    split
    case h_2 => exact refl s
    case h_1 e he =>
      have hgone : SameUpd s (s.modPool k p fun y => { y with inflight := y.inflight.eraseIdx i }) :=
        modPool s k p (by intro; rfl)
      have hat : ∀ t, SameUpd s t → SameUpd s (if e.ticket = 0 then t else t.modPool k p fun y => y.releasePlace e.ticket) := by
        intro t ht
        split
        · exact ht
        · exact ht.trans (releasePlace t k p _)
      apply hat
      split
      · split
        · exact hgone.trans (discard _ k p e)
        · exact hgone.trans (deliver _ k p e _)
      · exact hgone

theorem completeDue (s : State) (k : Nat) (p : Pool) (i n : Nat) : SameUpd s (s.completeDue k p i n) := by
  induction n generalizing s i with
  | zero => exact refl s
  | succ n ih =>
    unfold State.completeDue
    split
    · exact (complete s k p i).trans (ih _ i)
    · exact ih s (i + 1)

end SameUpd

theorem PoolSt.awaken_upd (x : PoolSt) : x.awaken.upd = x.upd := by unfold PoolSt.awaken; split <;> rfl

theorem PoolSt.awaken_p (x : PoolSt) : x.awaken.p = x.p := by unfold PoolSt.awaken; split <;> rfl

/-- The end of a cycle in one pool leaves what the others have recorded. -/
theorem State.upd_endPool_ne (s : State) (k : Nat) {p q : Pool} (h : q ≠ p) :
    (((s.endPool k p).tile k).pool q).upd = ((s.tile k).pool q).upd := by
  unfold State.endPool
  rw [State.tile_setTile, Tile.pool_modPool_ne _ _ h, Tile.upd_applyUpd_ne _ h]
  exact SameUpd.completeDue s k p 0 _ k q

/-- The update that a pool has recorded stands when its results have completed. -/
theorem State.pred_endPool {s : State} {k : Nat} {p : Pool} {n : BitVec 3} {v : Bool}
    (h : ((s.tile k).pool p).upd = some (n, v)) : ((s.endPool k p).tile k).pred p n.toNat = v := by
  unfold State.endPool
  rw [State.tile_setTile, Tile.pred_modPool _ p PoolSt.awaken_p]
  exact Tile.pred_applyUpd ((SameUpd.completeDue s k p 0 _ k p).trans h)

theorem Tile.pred_modEng (t : Tile) (g : MxEng → MxEng) (p : Pool) (n : Nat) : (t.modEng g).pred p n = t.pred p n := by
  cases p <;> rfl

theorem State.pred_recomputeRow (s : State) (k : Nat) (p : Pool) (n : Nat) :
    ((s.recomputeRow k).tile k).pred p n = (s.tile k).pred p n := by
  unfold State.recomputeRow
  split
  · split
    · rw [State.tile_setTile, Tile.pred_modEng]
    · rfl
  · rfl

/-- Settles O9: the PE pool ends its cycle last, its update follows its results, and the engine writes no predicate. -/
theorem peUpdateStands : Obligations.PeUpdateStands := by
  intro s k cyc n v h
  unfold State.endTile
  rw [State.pred_recomputeRow, State.tile_setTile, Tile.pred_modEng]
  refine State.pred_endPool ?_
  rw [State.upd_endPool_ne _ k (by decide), State.upd_endPool_ne _ k (by decide)]
  exact h

/-! ### What a step runs (R113, R114) -/

/-- A slot whose word decodes runs it, in focus. -/
theorem State.fireSlot_decoded {u : State} {k : Nat} {p : Pool} {n : Nat} {w : Word} {i : Instr}
    (hslot : ((u.tile k).pool p).slots.getD n none = some w) (hdec : decode p w = .ok i) :
    u.fireSlot k p n = exec i { u with focus := ⟨k, p, n⟩ } := by
  simp only [State.fireSlot, hslot, Option.bind_some, decode?, hdec]

/-- A pool that may fire, before and after it has looked at its inputs, fires the slot it chooses. -/
theorem State.beginFire_chosen {s : State} {k : Nat} {p : Pool} {n : Nat} (hbefore : s.mayFire k p = true)
    (hafter : (s.lookAt k p).mayFire k p = true) (hn : (s.lookAt k p).choose k p = some n) :
    s.beginFire k p = (s.lookAt k p).fireSlot k p n := by
  simp [State.beginFire, hbefore, hafter, hn]

/-- Settles O4: each kind of chance is one branch of `step`. -/
theorem stepRunsTheInstruction : Obligations.StepRunsTheInstruction := by
  refine ⟨fun s i rest ha ht => ?_, fun s i rest ha ht => ?_, ?_⟩
  · simp [step, ha, ht]
  · simp [step, ha, ht]
  · rintro s k p rest u n w i ha hbefore rfl hafter hn hslot hdec
    have hstep : step s = State.beginFire { s with agenda := rest } k p := by simp [step, ha]
    rw [hstep, State.beginFire_chosen hbefore hafter hn, State.fireSlot_decoded hslot hdec]

end Sys2Proof.Machine

/-! ## Listed words (R117, R157, R263) -/

namespace Sys2Proof.Machine

open Sys2Proof

/-- Settles O3: `decode` computes on a listed word. -/
theorem listedWords : Obligations.ListedWords := ⟨rfl, rfl, rfl, rfl, rfl, rfl, rfl, rfl, rfl⟩

end Sys2Proof.Machine

/-! ## Choosing a slot (R114, R119) -/

namespace Sys2Proof.Machine

open Sys2Proof

/-- The eligible slots of a pool are those it has whose trigger holds. -/
theorem State.mem_eligible {s : State} {k : Nat} {p : Pool} {n : Nat} :
    n ∈ s.eligible k p ↔ n < ((s.tile k).pool p).slots.length ∧ SlotFires s k p n := by
  unfold State.eligible SlotFires
  rw [List.mem_filter, List.mem_range]
  refine and_congr_right fun _ => ?_
  cases ((s.tile k).pool p).instr n with
  | none => simp
  | some i => exact ⟨fun h => ⟨i.1, i.2, rfl, h⟩, fun ⟨o, f, hi, h⟩ => by obtain rfl := Option.some.inj hi; exact h⟩

theorem State.pairwise_eligible (s : State) (k : Nat) (p : Pool) : (s.eligible k p).Pairwise (· < ·) :=
  List.pairwise_lt_range.filter _

/-- The head of an ascending list is its least member. -/
theorem le_of_head?_eq_some {l : List Nat} (hl : l.Pairwise (· < ·)) {n m : Nat} (hn : l.head? = some n) (hm : m ∈ l) :
    n ≤ m := by
  cases l with
  | nil => cases hn
  | cons a rest =>
    obtain rfl := Option.some.inj hn
    rcases List.mem_cons.mp hm with rfl | h
    · exact le_rfl
    · exact (List.rel_of_pairwise_cons hl h).le

theorem Group.holds_iff {g : Group} {n : Nat} : g.holds n = true ↔ g.w ≠ 0 ∧ g.first ≤ n ∧ n ≤ g.last := by
  simp [Group.holds, and_assoc]

/-- One group looked at in `bestGroup`. -/
def betterGroup (es : List Nat) (best : Option Group) (g : Group) : Option Group :=
  if es.any g.holds then
    match best with
    | some h => if h.credit < g.credit then some g else best
    | none => some g
  else best

theorem bestGroup_eq (gs : List Group) (es : List Nat) : bestGroup gs es = gs.foldl (betterGroup es) none := rfl

/-- A group has been found whose credit is at least `c`. -/
def FoundAbove (best : Option Group) (c : Int) : Prop := ∃ b, best = some b ∧ c ≤ b.credit

theorem foundAbove_betterGroup (es : List Nat) {best : Option Group} (g : Group) {c : Int} (h : FoundAbove best c) :
    FoundAbove (betterGroup es best g) c := by
  obtain ⟨b, rfl, hc⟩ := h
  unfold betterGroup
  dsimp only
  split_ifs with _ hlt
  · exact ⟨g, rfl, hc.trans hlt.le⟩
  · exact ⟨b, rfl, hc⟩
  · exact ⟨b, rfl, hc⟩

theorem foundAbove_betterGroup_self {es : List Nat} (best : Option Group) {g : Group} (h : es.any g.holds = true) :
    FoundAbove (betterGroup es best g) g.credit := by
  unfold betterGroup
  rw [if_pos h]
  cases best with
  | none => exact ⟨g, rfl, le_rfl⟩
  | some b =>
    dsimp only
    split_ifs with hlt
    · exact ⟨g, rfl, le_rfl⟩
    · exact ⟨b, rfl, not_lt.mp hlt⟩

theorem betterGroup_eq_some {es : List Nat} {best : Option Group} {g b : Group} (h : betterGroup es best g = some b) :
    best = some b ∨ b = g := by
  unfold betterGroup at h
  cases best with
  | none => split_ifs at h; exact .inr (Option.some.inj h).symm
  | some a =>
    dsimp only at h
    split_ifs at h
    · exact .inr (Option.some.inj h).symm
    · exact .inl h
    · exact .inl h

theorem foundAbove_foldl (es : List Nat) (gs : List Group) {best : Option Group} {c : Int} (h : FoundAbove best c) :
    FoundAbove (gs.foldl (betterGroup es) best) c := by
  induction gs generalizing best with
  | nil => exact h
  | cons g rest ih => exact ih (foundAbove_betterGroup es g h)

theorem foundAbove_foldl_of_mem {es : List Nat} {gs : List Group} {h : Group} (hm : h ∈ gs) (he : es.any h.holds = true)
    (best : Option Group) : FoundAbove (gs.foldl (betterGroup es) best) h.credit := by
  induction gs generalizing best with
  | nil => cases hm
  | cons g rest ih =>
    rcases List.mem_cons.mp hm with rfl | hrest
    · exact foundAbove_foldl es rest (foundAbove_betterGroup_self best he)
    · exact ih hrest _

theorem mem_of_foldl_betterGroup {es : List Nat} {gs : List Group} {best : Option Group} {b : Group}
    (h : gs.foldl (betterGroup es) best = some b) : best = some b ∨ b ∈ gs := by
  induction gs generalizing best with
  | nil => exact .inl h
  | cons g rest ih =>
    rcases ih h with hb | hb
    · exact (betterGroup_eq_some hb).imp_right fun (hg : b = g) => hg ▸ List.mem_cons_self
    · exact .inr (List.mem_cons_of_mem g hb)

/-- The group that R119 picks: no group that holds an eligible slot has a larger credit. -/
theorem bestGroup_eq_some {gs : List Group} {es : List Nat} {g : Group} (h : bestGroup gs es = some g) :
    g ∈ gs ∧ ∀ x ∈ gs, es.any x.holds = true → x.credit ≤ g.credit := by
  rw [bestGroup_eq] at h
  refine ⟨(mem_of_foldl_betterGroup h).resolve_left nofun, fun x hx he => ?_⟩
  obtain ⟨b, hb, hc⟩ := foundAbove_foldl_of_mem hx he none
  obtain rfl := Option.some.inj (h.symm.trans hb)
  exact hc

theorem State.choose_ungrouped {s : State} {k : Nat} {p : Pool} (h : ∀ g ∈ ((s.tile k).pool p).groups, g.w = 0) :
    s.choose k p = (s.eligible k p).head? := by
  have hall : ((s.tile k).pool p).groups.all (fun g => g.w = 0) = true := by simpa using h
  simp [State.choose, hall]

theorem State.choose_grouped {s : State} {k : Nat} {p : Pool} {n : Nat} (h : ∃ g ∈ ((s.tile k).pool p).groups, g.w ≠ 0)
    (hn : s.choose k p = some n) : ∃ g, bestGroup ((s.tile k).pool p).groups (s.eligible k p) = some g ∧
      ((s.eligible k p).filter g.holds).head? = some n := by
  have hall : ((s.tile k).pool p).groups.all (fun g => g.w = 0) = false := by simpa using h
  simpa [State.choose, hall, Option.bind_eq_some_iff] using hn

/-- Settles O5: the eligible slots stand in ascending order, so the head is the lowest; of the groups, the one with the
largest credit is kept in the fold. -/
theorem chosenSlotFires : Obligations.ChosenSlotFires := by
  refine ⟨fun s k p hgs => ?_, fun s k p n hgs hn => ?_⟩
  · rw [State.choose_ungrouped hgs]
    refine ⟨fun n hn => ?_, fun hnone n hlen hfires => ?_⟩
    · obtain ⟨hlen, hfires⟩ := State.mem_eligible.mp (List.mem_of_mem_head? hn)
      refine ⟨hlen, hfires, fun m hm hmfires => ?_⟩
      have hle := le_of_head?_eq_some (s.pairwise_eligible k p) hn (State.mem_eligible.mpr ⟨hm.trans hlen, hmfires⟩)
      omega
    · exact List.not_mem_nil (List.head?_eq_none_iff.mp hnone ▸ State.mem_eligible.mpr ⟨hlen, hfires⟩)
  · obtain ⟨g, hbest, hhead⟩ := State.choose_grouped hgs hn
    obtain ⟨hmem, hmax⟩ := bestGroup_eq_some hbest
    obtain ⟨helig, hholds⟩ := List.mem_filter.mp (List.mem_of_mem_head? hhead)
    obtain ⟨hw, hfirst, hlast⟩ := Group.holds_iff.mp hholds
    refine ⟨(State.mem_eligible.mp helig).2, g, hmem, hw, hfirst, hlast, fun m hm hmn hlen hmfires => ?_,
      fun h hh hhw ⟨m, hm1, hm2, hlen, hmfires⟩ => ?_⟩
    · have hin : m ∈ (s.eligible k p).filter g.holds :=
        List.mem_filter.mpr ⟨State.mem_eligible.mpr ⟨hlen, hmfires⟩, Group.holds_iff.mpr ⟨hw, hm, by omega⟩⟩
      have hle := le_of_head?_eq_some ((s.pairwise_eligible k p).filter _) hhead hin
      omega
    · exact hmax h hh (List.any_eq_true.mpr ⟨m, State.mem_eligible.mpr ⟨hlen, hmfires⟩, Group.holds_iff.mpr ⟨hhw, hm1, hm2⟩⟩)

end Sys2Proof.Machine

/-! ## A result at its destination (R115 to R117, R136) -/

namespace Sys2Proof.Machine

open Sys2Proof

theorem exec_resultComplete (k : Nat) (p : Pool) (i : Nat) (s : State) :
    exec (.resultComplete k p i) s = .next (s.complete k p i) := rfl

/-- A pool without its oldest result in flight. -/
def State.withoutOldest (s : State) (k : Nat) (p : Pool) : State :=
  s.modPool k p fun y => { y with inflight := y.inflight.eraseIdx 0 }

/-- The oldest result of a pool, due and of no ticket, leaves the results in flight and is delivered. -/
theorem State.complete_oldest {s : State} {k : Nat} {p : Pool} {e : InFlight} {rest : List InFlight} {r : Tok}
    (hq : ((s.tile k).pool p).inflight = e :: rest) (hv : e.val = some r) (hd : e.due ≤ (s.core (tileCore k)).cyc)
    (hlive : ((s.tile k).pool p).dead.contains e.gen = false) (ht : e.ticket = 0) :
    s.complete k p 0 = (s.withoutOldest k p).deliver k p e r := by
  have hcan : ((s.tile k).pool p).canComplete 0 (s.core (tileCore k)).cyc = true := by
    simp [PoolSt.canComplete, PoolSt.isDue, hq, hv, hd, ht]
  have hhead : ((s.tile k).pool p).inflight[0]? = some e := by simp [hq]
  unfold State.complete State.withoutOldest
  simp only [hcan, if_true, hhead, hv, hlive, ht, Bool.false_eq_true, if_false]

theorem State.sendOut_tiles (s : State) (k : Nat) (p : Pool) (n : Nat) (t : Tok) : (s.sendOut k p n t).tiles = s.tiles := by
  unfold State.sendOut
  split <;> simp

theorem State.sendOut_mem (s : State) (k : Nat) (p : Pool) (n : Nat) (t : Tok) : (s.sendOut k p n t).mem = s.mem := by
  unfold State.sendOut
  split <;> simp

/-- A token sent is the last on the output's channel. -/
theorem State.sendOut_chan {s : State} {k : Nat} {p : Pool} {n ch : Nat} {y : Chan} (t : Tok)
    (hc : (((s.tile k).pool p).out n).chan = some ch) (hy : Tab.get? s.chans ch = some y) :
    Tab.get? (s.sendOut k p n t).chans ch = some (y.push (.tok { sentTok t with tag := y.tag } 0)) := by
  unfold State.sendOut
  rw [hc]
  exact State.chan_modChan _ hy

theorem getLsbD_setBit4_ne (x : BitVec 4) {i j : Nat} (v : Bool) (hi : i < 4) (hj : j < 4) (h : j ≠ i) :
    (setBit4 x i v).getLsbD j = x.getLsbD j := by
  have hall : ∀ (i j : Fin 4) (v : Bool) (x : BitVec 4), j ≠ i → (setBit4 x i.val v).getLsbD j.val = x.getLsbD j.val := by
    decide
  exact hall ⟨i, hi⟩ ⟨j, hj⟩ v x (Fin.ne_of_val_ne h)

/-- Writing a predicate leaves the others, in the tile and in the pool. -/
theorem Tile.pred_setPred_ne (t : Tile) (p : Pool) {n m : Nat} (v : Bool) (hn : n < 8) (hm : m < 8) (h : m ≠ n) :
    (t.setPred p n v).pred p m = t.pred p m := by
  unfold Tile.setPred Tile.pred Tile.preds
  split
  · rw [Tile.pool_ps]
    simp only [BitVec.getLsbD_append]
    split
    · rfl
    · exact getLsbD_setBit4_ne t.ps v (by omega) (by omega) (by omega)
  · rw [Tile.pool_modPool, Tile.modPool_ps]
    simp only [BitVec.getLsbD_append]
    split
    · exact getLsbD_setBit4_ne (t.pool p).p v (by omega) (by omega) (by omega)
    · rfl

theorem Tile.inflight_setPred (t : Tile) (p : Pool) (n : Nat) (v : Bool) :
    ((t.setPred p n v).pool p).inflight = (t.pool p).inflight := by
  unfold Tile.setPred
  split
  · rw [Tile.pool_ps]
  · rw [Tile.pool_modPool]

section Deliver

variable {s : State} {k : Nat} {p : Pool} {e : InFlight} {r : Tok}

theorem State.deliver_vreg {n : Fin 16} (hd : e.dst = .wr n ∨ e.dst = .put n) :
    s.deliver k p e r = s.modPool k p fun x => { x with v := x.v.modify n.val fun _ => ⟨regTok r, true⟩ } := by
  rcases hd with hd | hd <;> simp only [State.deliver, hd]

theorem State.deliver_out {c : Fin 4} (hd : e.dst = .out c) : s.deliver k p e r = s.sendOut k p c.val r := by
  simp only [State.deliver, hd]

theorem State.deliver_none (hd : e.dst = .none) : s.deliver k p e r = s := by
  simp only [State.deliver, hd]

theorem State.deliver_areg {n : Fin 8} (hpsn : r.psn = false) (hd : e.dst = .areg n) :
    s.deliver k p e r = s.modPool k p fun x => { x with a := x.a.modify n.val fun _ => r.lanes.l0.setWidth 32 } := by
  simp [State.deliver, State.poisonCtl, hpsn, hd]

theorem State.deliver_pred {n : Fin 8} (hpsn : r.psn = false) (hd : e.dst = .pred n) :
    s.deliver k p e r = s.setTile k ((s.tile k).setPred p n.val (r.lanes.l0.getLsbD 0)) := by
  simp [State.deliver, State.poisonCtl, hpsn, hd]

/-- A result without poison leaves memory, every other tile and the results in flight. -/
theorem State.deliver_frame (hpsn : r.psn = false) : (s.deliver k p e r).mem = s.mem ∧
    (∀ j, j ≠ k → (s.deliver k p e r).tile j = s.tile j) ∧
    (((s.deliver k p e r).tile k).pool p).inflight = ((s.tile k).pool p).inflight := by
  have hpool : ∀ f : PoolSt → PoolSt, (∀ x, (f x).inflight = x.inflight) → (s.modPool k p f).mem = s.mem ∧
      (∀ j, j ≠ k → (s.modPool k p f).tile j = s.tile j) ∧
      (((s.modPool k p f).tile k).pool p).inflight = ((s.tile k).pool p).inflight := by
    intro f hf
    refine ⟨rfl, fun j hj => s.tile_modPool_ne p f hj, ?_⟩
    rw [State.tile_modPool, Tile.pool_modPool, hf]
  cases hd : e.dst with
  | wr n => rw [State.deliver_vreg (.inl hd)]; exact hpool _ fun _ => rfl
  | put n => rw [State.deliver_vreg (.inr hd)]; exact hpool _ fun _ => rfl
  | areg n => rw [State.deliver_areg hpsn hd]; exact hpool _ fun _ => rfl
  | none => rw [State.deliver_none hd]; exact ⟨rfl, fun _ _ => rfl, rfl⟩
  | out c =>
    rw [State.deliver_out hd]
    simp only [State.tile, State.sendOut_tiles, State.sendOut_mem, implies_true, and_self]
  | pred n =>
    rw [State.deliver_pred hpsn hd]
    refine ⟨rfl, fun j hj => s.tile_setTile_ne _ hj, ?_⟩
    rw [State.tile_setTile, Tile.inflight_setPred]

end Deliver

theorem PoolSt.vreg_modify {x : PoolSt} {n : Nat} (r : VReg) (h : n < x.v.length) :
    PoolSt.vreg { x with v := x.v.modify n fun _ => r } n = r := by
  simp [PoolSt.vreg, List.getD_eq_getElem?_getD, List.getElem?_eq_getElem h]

theorem PoolSt.vreg_modify_ne (x : PoolSt) {n m : Nat} (r : VReg) (h : m ≠ n) :
    PoolSt.vreg { x with v := x.v.modify n fun _ => r } m = x.vreg m := by
  simp [PoolSt.vreg, List.getD_eq_getElem?_getD, Ne.symm h]

/-- Settles O8: the pool without its oldest result keeps the rest of what the statement speaks of, and `deliver` writes what
the destination says. -/
theorem resultsArrive : Obligations.ResultsArrive := by
  intro s k p e rest r hq hv hdue hlive hticket hpsn
  have hexec : exec (.resultComplete k p 0) s = .next ((s.withoutOldest k p).deliver k p e r) := by
    rw [exec_resultComplete, State.complete_oldest hq hv hdue hlive hticket]
  obtain ⟨hmem, htiles, hinflight⟩ := State.deliver_frame (s := s.withoutOldest k p) (k := k) (p := p) (e := e) hpsn
  have hpool : ((s.withoutOldest k p).tile k).pool p = { (s.tile k).pool p with inflight := rest } := by
    rw [State.withoutOldest, State.tile_modPool, Tile.pool_modPool, hq]
    rfl
  have hpred : ∀ m, ((s.withoutOldest k p).tile k).pred p m = (s.tile k).pred p m := by
    intro m
    rw [State.withoutOldest, State.tile_modPool]
    exact Tile.pred_modPool _ p (by intro; rfl) m
  refine ⟨(s.withoutOldest k p).deliver k p e r, hexec, ?_, ?_, ?_, fun n hd hn => ?_, fun n hd hn => ?_, fun n hd => ?_,
    fun c ch y hd hc hy => ?_⟩
  · rw [hinflight, hpool]
  · rw [hmem]
    rfl
  · intro j hj
    rw [htiles j hj]
    exact s.tile_modPool_ne p _ hj
  · rw [State.deliver_vreg hd, State.tile_modPool, Tile.pool_modPool, hpool]
    exact ⟨PoolSt.vreg_modify _ hn, fun m hm => PoolSt.vreg_modify_ne _ _ hm⟩
  · rw [State.deliver_areg hpsn hd, State.tile_modPool, Tile.pool_modPool, hpool]
    simp [List.getD_eq_getElem?_getD, List.getElem?_eq_getElem hn]
  · rw [State.deliver_pred hpsn hd, State.tile_setTile]
    exact ⟨Tile.pred_setPred _ p _ n.isLt, fun m hm hne => (Tile.pred_setPred_ne _ p _ n.isLt hm hne).trans (hpred m)⟩
  · rw [State.deliver_out hd]
    exact State.sendOut_chan r (by rw [hpool]; exact hc) hy

end Sys2Proof.Machine

/-! ## System instructions (R129, R272, R274 to R278) -/

namespace Sys2Proof.Machine

open Sys2Proof

/-! ### Firings with an effect of their own (R95) -/

/-- A firing without an effect of its own beyond the tile leaves the launches; and so the arbiter. -/
theorem State.commit_launches (s : State) (c : Ctx) (d : Done) (he : d.eff = id) (ha : d.after = none) :
    (s.commit c d).launches = s.launches := by
  have h := congrArg State.launches (s.commit_rest c d he ha)
  exact h

theorem State.commit_arb (s : State) (c : Ctx) (d : Done) (he : d.eff = id) (ha : d.after = none) :
    (s.commit c d).arb = s.arb := by
  have h := congrArg State.arb (s.commit_rest c d he ha)
  exact h

theorem exec_fork (f : Fields) (s : State) : exec (.fork f) s = execFork f s := rfl

theorem exec_rdv (f : Fields) (s : State) : exec (.rdv f) s = execRdv f s := rfl

theorem exec_waitwp (f : Fields) (s : State) : exec (.waitwp f) s = execWaitwp f s := rfl

theorem exec_imgsync (f : Fields) (s : State) : exec (.imgsync f) s = execImgsync f s := rfl

theorem exec_tsget (f : Fields) (s : State) : exec (.tsget f) s = execTsget f s := rfl

theorem exec_tsnew (f : Fields) (s : State) : exec (.tsnew f) s = execTsnew f s := rfl

theorem exec_csrr (f : Fields) (s : State) : exec (.csrr f) s = execCsrr f s := rfl

theorem exec_csrw (f : Fields) (s : State) : exec (.csrw f) s = execCsrw f s := rfl

/-! ### Fork, rendezvous and write pointers (R129, R274, R275) -/

/-- What FORK writes of one of the four predicates. -/
def forkRes (onlyOnes : Bool) (a : Word) (h : Hdr) (n : Fin 4) : List Res :=
  if onlyOnes && !bit a n.val then [] else [⟨.pred ⟨4 + n.val, by omega⟩, some (predRes (bit a n.val) h), 1, 0⟩]

theorem mem_forkRes {onlyOnes : Bool} {a : Word} {h : Hdr} {n : Fin 4} {r : Res} : r ∈ forkRes onlyOnes a h n ↔
    (onlyOnes = true → a.getLsbD n.val = true) ∧
      r = ⟨.pred ⟨4 + n.val, by omega⟩, some (oneTok (if a.getLsbD n.val then 1 else 0) h), 1, 0⟩ := by
  unfold forkRes bit
  rw [predRes_eq]
  cases onlyOnes <;> cases a.getLsbD n.val <;> simp

/-- What FORK writes. -/
def forkResults (onlyOnes : Bool) (a : Word) (h : Hdr) : List Res :=
  forkRes onlyOnes a h 0 ++ forkRes onlyOnes a h 1 ++ forkRes onlyOnes a h 2 ++ forkRes onlyOnes a h 3

theorem mem_forkResults {onlyOnes : Bool} {a : Word} {h : Hdr} {r : Res} :
    r ∈ forkResults onlyOnes a h ↔ ∃ n, r ∈ forkRes onlyOnes a h n := by
  simp only [forkResults, List.mem_append, or_assoc]
  constructor
  · rintro (hr | hr | hr | hr) <;> exact ⟨_, hr⟩
  · rintro ⟨n, hr⟩
    fin_cases n
    · exact .inl hr
    · exact .inr (.inl hr)
    · exact .inr (.inr (.inl hr))
    · exact .inr (.inr (.inr hr))

theorem fork_does {f : Fields} {s : State} {a : Word} {h : Hdr} (hf : Fires .fork f s)
    (ha : (s.seen .fork f).intA = .ok a) (hh : (s.seen .fork f).header = .ok h) (hp : h.psn = false) :
    Does .fork f s { consumed f with res := forkResults (f.md.getLsbD 0) a h } := by
  obtain ⟨m, psn, g⟩ := h
  obtain rfl : psn = false := hp
  refine (exec_fork f s).trans (issue_ok hf ?_)
  simp only [ha, hh]
  rfl

theorem rdv_does {f : Fields} {s : State} (hf : Fires .rdv f s) : Does .rdv f s (consumed f) :=
  (exec_rdv f s).trans (issue_ok hf rfl)

theorem waitwp_does {f : Fields} {s : State} {a b : Word} {h : Hdr} (hf : Fires .waitwp f s)
    (ha : (s.seen .waitwp f).intA = .ok a) (hb : (s.seen .waitwp f).intB = .ok b)
    (hh : (s.seen .waitwp f).header = .ok h) : Does .waitwp f s (consumed f) := by
  refine (exec_waitwp f s).trans (issue_ok hf ?_)
  simp only [ha, hb, hh]
  rfl

/-! ### Image synchronisation (R276) -/

/-- What IMGSYNC does to the arbiter. -/
def Arbiter.synced (x : Arbiter) : Arbiter := { x with cache := [], stream := x.stream ++ [.inval] }

theorem imgsync_does {f : Fields} {s : State} (hf : Fires .imgsync f s) :
    Does .imgsync f s { consumed f with eff := fun t => { t with arb := t.arb.synced } } :=
  (exec_imgsync f s).trans (issue_ok hf rfl)

theorem imgsync_next {f : Fields} {s : State} (hf : Fires .imgsync f s) :
    ∃ t, exec (.imgsync f) s = .next t ∧ t.arb.cache = [] ∧ t.arb.stream = s.arb.stream ++ [.inval] ∧ t.mem = s.mem ∧
      ∀ j, j ≠ s.focus.tile → t.tile j = s.tile j := by
  refine ⟨_, imgsync_does hf, ?_⟩
  rw [State.commit_eff _ _ _ (by rfl)]
  refine ⟨rfl, ?_, ?_, fun j hj => ?_⟩
  · exact congrArg (fun x => x.stream ++ [.inval]) (s.commit_arb (s.seen .imgsync f) (consumed f) rfl rfl)
  · exact s.commit_mem (s.seen .imgsync f) (consumed f) rfl rfl
  · exact s.commit_tile_ne (s.seen .imgsync f) (consumed f) rfl rfl hj

/-! ### Task timestamps (R272) -/

theorem ok_bind {ε α β : Type} (x : α) (g : α → Except ε β) : (Except.ok x >>= g) = g x := rfl

/-- The unit that TSGET binds to a tile. -/
def Tile.bound (t : Tile) (b : TsBind) : Tile := t.modPool .pe fun x => { x with bind := some b }

/-- The token that TSGET passes on: A under the header. -/
def underHdr (t : Tok) (h : Hdr) : Tok := { t with lanes := maskLanes t, mask := h.mask, psn := h.psn, gen := h.gen }

theorem tsget_does {f : Fields} {s : State} {a : Word} {h : Hdr} {l : Launch} {i : Nat} (hf : Fires .tsget f s)
    (ha : (s.seen .tsget f).intA = .ok a) (hh : (s.seen .tsget f).header = .ok h)
    (hl : s.launchOf s.focus.tile = some l) (hu : l.unitAt (fld a 47 0) = some i)
    (hfin : s.runFinished l i (s.seen .tsget f).a.gen = false) :
    Does .tsget f s { resulting f 1 (underHdr (s.seen .tsget f).a h) with
      tile := fun t => t.bound ⟨fld a 47 0, (s.seen .tsget f).a.gen, l.lseq, i⟩ } := by
  have hk : (s.seen .tsget f).k = s.focus.tile := rfl
  refine (exec_tsget f s).trans (issue_ok hf ?_)
  simp only [ha, hh, hk, hl, ok_bind, hu, hfin, Bool.false_eq_true, if_false]
  rfl

theorem tsget_next {f : Fields} {s : State} {a : Word} {h : Hdr} {l : Launch} {i : Nat} (hf : Fires .tsget f s)
    (ha : (s.seen .tsget f).intA = .ok a) (hh : (s.seen .tsget f).header = .ok h)
    (hl : s.launchOf s.focus.tile = some l) (hu : l.unitAt (fld a 47 0) = some i)
    (hfin : s.runFinished l i (s.seen .tsget f).a.gen = false) :
    ∃ t, exec (.tsget f) s = .next t ∧
      (t.tile s.focus.tile).pe.bind = some ⟨fld a 47 0, (s.seen .tsget f).a.gen, l.lseq, i⟩ ∧ t.mem = s.mem := by
  refine ⟨_, tsget_does hf ha hh hl hu hfin, ?_, s.commit_mem _ _ rfl rfl⟩
  exact congrArg (fun t : Tile => t.pe.bind) (s.commit_tile (s.seen .tsget f) _ rfl rfl)

theorem tsnew_does {f : Fields} {s : State} {a b : Word} {h : Hdr} {l : Launch} {i : Nat} (hf : Fires .tsnew f s)
    (ha : (s.seen .tsnew f).intA = .ok a) (hb : (s.seen .tsnew f).intB = .ok b) (hh : (s.seen .tsnew f).header = .ok h)
    (hl : s.launchOf s.focus.tile = some l) (hu : l.unitAt (fld a 47 0) = some i)
    (hn : l.unitAt (fld a 47 0 + fld b 47 0) = some i) (hlt : fld a 47 0 + fld b 47 0 < 2 ^ 48) :
    Does .tsnew f s (resulting f 1 (oneTok (BitVec.ofNat 64 (fld a 47 0 + fld b 47 0)) h)) := by
  have hk : (s.seen .tsnew f).k = s.focus.tile := rfl
  refine (exec_tsnew f s).trans (issue_ok hf ?_)
  simp only [ha, hb, hh, hk, hl, ok_bind, Option.map_some, hu, hn, hlt, scalarRes_eq, decide_true, Bool.and_self, if_true]
  rfl

/-! ### Control and status registers (R277, R278) -/

theorem Csr.ofNum_const (i : Fin 8) : Csr.ofNum (0x10 + i.val) = some (.k i) := by
  revert i
  decide

theorem Csr.ofNum_retv {n : Nat} (h : Csr.ofNum n = some .retv) : n = 0x20 := by
  unfold Csr.ofNum at h
  split at h
  case h_12 => rfl
  case h_16 => split at h <;> cases h
  all_goals cases h

theorem fld_number {n : Nat} (h : n < 4096) :
    fld (BitVec.ofNat 64 n) 11 0 = n ∧ fld (BitVec.ofNat 64 n) 63 12 = 0 := by
  have hn : (BitVec.ofNat 64 n).toNat = n := by rw [BitVec.toNat_ofNat]; omega
  unfold fld
  rw [hn]
  omega

/-- An operand without poison that names a register (R278). -/
theorem Ctx.csr_defined (c : Ctx) {n : Nat} {r : Csr} (w4 : Word) (hn : n < 4096) (hr : Csr.ofNum n = some r) :
    c.csr (BitVec.ofNat 64 n) false w4 = .ok r := by
  obtain ⟨hlow, hhigh⟩ := fld_number hn
  simp [Ctx.csr, hlow, hhigh, hr]

theorem Ctx.csr_undefined (c : Ctx) {n : Nat} (w4 : Word) (hn : n < 4096) (hr : Csr.ofNum n = none) :
    c.csr (BitVec.ofNat 64 n) false w4 = .error (c.csrAccess (BitVec.ofNat 64 n) 0 w4) := by
  obtain ⟨hlow, hhigh⟩ := fld_number hn
  simp [Ctx.csr, hlow, hhigh, hr]

/-- Word 3 of CSR_ACCESS holds the number, and the cause above it. -/
theorem Ctx.csrAccess_eq {c : Ctx} {h : Hdr} (hh : c.header = .ok h) {n : Nat} (hn : n < 4096) (cause : Nat) (w4 : Word) :
    c.csrAccess (BitVec.ofNat 64 n) cause w4 = ⟨0x62, c.slot, h.gen, BitVec.ofNat 64 (n + cause * 2 ^ 32), w4, 0⟩ := by
  have hw3 : w64 n ||| place cause 32 = BitVec.ofNat 64 (n + cause * 2 ^ 32) := by
    rw [w64, place, ← BitVec.ofNat_or, Nat.or_comm, ← Nat.shiftLeft_eq,
      ← Nat.shiftLeft_add_eq_or_of_lt (i := 32) (by omega), Nat.shiftLeft_eq, Nat.add_comm]
  rw [Ctx.csrAccess, (fld_number hn).1, hw3, Ctx.flt, Ctx.gen_of_header hh]

theorem csrr_does {f : Fields} {s : State} {h : Hdr} {n : Nat} {r : Csr} (hf : Fires .csrr f s)
    (ha : (s.seen .csrr f).intA = .ok (BitVec.ofNat 64 n)) (hh : (s.seen .csrr f).header = .ok h) (hn : n < 4096)
    (hp : (s.seen .csrr f).a.psn = false) (hr : Csr.ofNum n = some r) :
    Does .csrr f s (resulting f 2 (oneTok (s.csrRead s.focus.tile r) Hdr.none)) := by
  refine (exec_csrr f s).trans (issue_ok hf ?_)
  simp only [ha, hh, hp, ok_bind, Ctx.csr_defined _ _ hn hr, scalarRes_eq]
  rfl

theorem csrr_undefined {f : Fields} {s : State} {h : Hdr} {n : Nat} (hf : Fires .csrr f s)
    (ha : (s.seen .csrr f).intA = .ok (BitVec.ofNat 64 n)) (hh : (s.seen .csrr f).header = .ok h) (hn : n < 4096)
    (hp : (s.seen .csrr f).a.psn = false) (hr : Csr.ofNum n = none) :
    exec (.csrr f) s = .next ((s.markActive s.focus.tile).raise s.focus.tile s.focus.pool s.focus.slot 0x62 h.gen
      (BitVec.ofNat 64 n) 0 0) := by
  refine (exec_csrr f s).trans (issue_error hf (e := ⟨0x62, s.focus.slot, h.gen, BitVec.ofNat 64 n, 0, 0⟩) ?_)
  simp only [ha, hh, hp, ok_bind, Ctx.csr_undefined _ _ hn hr, Ctx.csrAccess_eq hh hn, Nat.zero_mul, Nat.add_zero]
  rfl

/-- A register that takes its value from the launch of the tile's block (R277). -/
theorem State.ofLaunch_some {s : State} {k : Nat} {l : Launch} (hl : s.launchOf k = some l) (g : Launch → Word) :
    s.ofLaunch k g = g l := by
  rw [State.ofLaunch, hl]
  rfl

theorem csrw_refused {f : Fields} {s : State} {h : Hdr} {b : Word} {n : Nat} {r : Csr} (hf : Fires .csrw f s)
    (ha : (s.seen .csrw f).intA = .ok (BitVec.ofNat 64 n)) (hb : (s.seen .csrw f).intB = .ok b)
    (hh : (s.seen .csrw f).header = .ok h) (hpa : (s.seen .csrw f).a.psn = false) (hpb : (s.seen .csrw f).b.psn = false)
    (hn : n < 4096) (hr : Csr.ofNum n = some r) (hne : n ≠ 0x20) :
    exec (.csrw f) s = .next ((s.markActive s.focus.tile).raise s.focus.tile s.focus.pool s.focus.slot 0x62 h.gen
      (BitVec.ofNat 64 (n + 2 ^ 32)) b 0) := by
  have hretv : r ≠ .retv := fun he => hne (Csr.ofNum_retv (he ▸ hr))
  refine (exec_csrw f s).trans
    (issue_error hf (e := ⟨0x62, s.focus.slot, h.gen, BitVec.ofNat 64 (n + 2 ^ 32), b, 0⟩) ?_)
  simp only [ha, hb, hh, hpa, hpb, ok_bind, Bool.or_self, Ctx.csr_defined _ _ hn hr, ne_eq, hretv, not_false_eq_true,
    if_true, Ctx.csrAccess_eq hh hn, Nat.one_mul]
  rfl

theorem csrw_does {f : Fields} {s : State} {h h' : Hdr} {b : Word} {u : TsBind} (hf : Fires .csrw f s)
    (ha : (s.seen .csrw f).intA = .ok 0x20) (hb : (s.seen .csrw f).intB = .ok b)
    (hh : (s.seen .csrw f).header = .ok h) (hpa : (s.seen .csrw f).a.psn = false) (hpb : (s.seen .csrw f).b.psn = false)
    (hu : (s.seen .csrw f).x.bind = some u) (hg : (s.seen .csrw f).globalHdr h u = .ok h') :
    Does .csrw f s { consumed f with
      eff := fun t => t.modUnit u.lseq u.unit fun x => x.writeRetv h'.gen b } := by
  have hretv : (s.seen .csrw f).csr 0x20 false b = .ok .retv := Ctx.csr_defined _ (n := 0x20) b (by decide) rfl
  refine (exec_csrw f s).trans (issue_ok hf ?_)
  simp only [ha, hb, hh, hpa, hpb, hu, hg, ok_bind, Bool.or_self, hretv, ne_eq, not_true_eq_false, if_false]
  rfl

/-- A write of RETV in a run that has not begun joins those of its unit (R278, R291). -/
theorem UnitSt.writeRetv_fresh {u : UnitSt} {g : BitVec 8} (h : u.run? g = none) (v : Word) :
    (u.writeRetv g v).retv = u.retv ++ [(g, v)] := by
  simp [UnitSt.writeRetv, h]

theorem State.unit_modUnit {s : State} {m i : Nat} {l : Launch} (g : UnitSt → UnitSt) (h : Tab.get? s.launches m = some l) :
    ∃ l', Tab.get? (s.modUnit m i g).launches m = some l' ∧ l'.unit i = g (l.unit i) :=
  ⟨_, State.launch_modLaunch _ h, Tab.get_set_self _ _ _ _⟩

theorem csrw_retv {f : Fields} {s : State} {h h' : Hdr} {b : Word} {u : TsBind} (hf : Fires .csrw f s)
    (ha : (s.seen .csrw f).intA = .ok 0x20) (hb : (s.seen .csrw f).intB = .ok b)
    (hh : (s.seen .csrw f).header = .ok h) (hpa : (s.seen .csrw f).a.psn = false) (hpb : (s.seen .csrw f).b.psn = false)
    (hu : (s.seen .csrw f).x.bind = some u) (hg : (s.seen .csrw f).globalHdr h u = .ok h') :
    ∃ t, exec (.csrw f) s = .next t ∧ t.mem = s.mem ∧
      ∀ l, Tab.get? s.launches u.lseq = some l → (l.unit u.unit).run? h'.gen = none →
        ∃ l', Tab.get? t.launches u.lseq = some l' ∧ (l'.unit u.unit).retv = (l.unit u.unit).retv ++ [(h'.gen, b)] := by
  refine ⟨_, csrw_does hf ha hb hh hpa hpb hu hg, ?_⟩
  rw [State.commit_eff _ _ _ (by rfl)]
  refine ⟨(State.modLaunch_mem _ _ _).trans (s.commit_mem (s.seen .csrw f) (consumed f) rfl rfl), fun l hl hrun => ?_⟩
  have hl' : Tab.get? (s.commit (s.seen .csrw f) (consumed f)).launches u.lseq = some l := by
    rw [s.commit_launches _ _ rfl rfl, hl]
  obtain ⟨l', hget, hunit⟩ := State.unit_modUnit (i := u.unit) (fun x => x.writeRetv h'.gen b) hl'
  exact ⟨l', hget, by rw [hunit, UnitSt.writeRetv_fresh hrun]⟩

/-- Settles O35: each instruction by what its firing does. -/
theorem systemInstructions : Obligations.SystemInstructions := by
  intro f s h a b k
  have hlow : ∀ w : Word, (w.extractLsb' 0 48).toNat = fld w 47 0 := fun w => (fld_extract w 47 0 (by decide)).symm
  simp only [hlow]
  refine ⟨fun hf ha hh hp => ?_, rdv_does, waitwp_does, imgsync_next, fun l i hf ha hh hl hu hfin => ?_,
    fun l i hf ha hb hh hl hu hn hlt => tsnew_does hf ha hb hh hl hu hn hlt, fun n hf ha hh hn hp => ?_,
    fun hf hb hh hpa hpb => ⟨fun u h' ha hu hg => ?_, fun n r hn ha hr hne => ?_⟩⟩
  · exact ⟨_, fork_does hf ha hh hp, fun r => mem_forkResults.trans (exists_congr fun n => mem_forkRes)⟩
  · exact tsget_next hf ha hh hl hu hfin
  · have hreads : ∀ r, Csr.ofNum n = some r →
        Does .csrr f s (resulting f 2 (oneTok (s.csrRead k r) Hdr.none)) := fun r hr => csrr_does hf ha hh hn hp hr
    refine ⟨hreads, ?_, ?_, fun l hl => ⟨fun hlo hhi => ?_, ?_, ?_, ?_⟩, csrr_undefined hf ha hh hn hp⟩
    · rintro rfl
      exact hreads .time rfl
    · rintro rfl
      exact hreads .clock rfl
    · obtain ⟨i, rfl⟩ : ∃ i : Fin 8, n = 0x10 + i.val := ⟨⟨n - 0x10, by omega⟩, by simp; omega⟩
      have hread := hreads _ (Csr.ofNum_const i)
      rw [State.csrRead, State.ofLaunch_some hl, Launch.w] at hread
      rw [Nat.add_sub_cancel_left]
      exact hread
    · rintro rfl
      have hread := hreads .tsbase rfl
      rwa [State.csrRead, State.ofLaunch_some hl] at hread
    · rintro rfl
      have hread := hreads .units rfl
      rwa [State.csrRead, State.ofLaunch_some hl] at hread
    · rintro rfl
      have hread := hreads .retv rfl
      rwa [State.csrRead, State.ofLaunch_some hl] at hread
  · exact csrw_retv hf ha hb hh hpa hpb hu hg
  · exact csrw_refused hf ha hb hh hpa hpb hn hr hne

end Sys2Proof.Machine

/-! ## The common block (R137 to R140, R147, R191, R268) -/

namespace Sys2Proof.Machine

open Sys2Proof

/-! ### What a firing leaves to D -/

/-- A result goes to D as the statements tell it, after the latency of the instruction (R115). -/
theorem State.seen_result (s : State) {o : Op} (f : Fields) {lat : Nat} (h : opLatency o = some lat) (t : Tok) :
    (s.seen o f).result t = resulting f lat t := by
  show ({ (s.seen o f).plain with
    outs := outsOf f, res := [⟨f.d, some t, (opLatency o).getD 1, 0⟩] } : Done) = _
  rw [h]
  rfl

/-- An instruction that fires does what its body computes from the firing's context (R95). -/
theorem does_of_issue {o : Op} {f : Fields} {s : State} {body : Ctx → Except Flt Done} {d : Done}
    (he : exec (o.mk f) s = issue o f s body) (hf : Fires o f s) (hb : body (s.seen o f) = .ok d) : Does o f s d :=
  he.trans (issue_ok hf hb)

/-- A field that begins at bit 0. -/
theorem fld_low (w : Word) (h : Nat) : fld w h 0 = w.toNat % 2 ^ (h + 1) := by
  rw [fld, pow_zero, Nat.div_one, Nat.sub_zero]

/-- The eight values of MD. -/
theorem md_cases (md : BitVec 3) : md = 0 ∨ md = 1 ∨ md = 2 ∨ md = 3 ∨ md = 4 ∨ md = 5 ∨ md = 6 ∨ md = 7 := by
  revert md
  decide

/-! ### Consuming, moving and control tokens (R137, R138, R147, R268) -/

/-- A firing of NOP, DROP, PERM or FENCE is its consumption. -/
theorem consuming_does {o : Op} {f : Fields} {s : State} (ho : o ∈ [Op.nop, .drop, .perm, .fence]) (hf : Fires o f s) :
    Does o f s (consumed f) := by
  simp only [List.mem_cons, List.not_mem_nil, or_false] at ho
  rcases ho with rfl | rfl | rfl | rfl
  · exact does_of_issue (show exec (.nop f) s = execNop f s from rfl) hf rfl
  · exact does_of_issue (show exec (.drop f) s = execDrop f s from rfl) hf rfl
  · exact does_of_issue (show exec (.perm f) s = execPerm f s from rfl) hf rfl
  · exact does_of_issue (show exec (.fence f) s = execFence f s from rfl) hf rfl

/-- A DATA head moves under the header of its sources (R133). -/
theorem Ctx.moved_data {c : Ctx} (h : Hdr) (hk : c.a.kind = 0) : c.moved h = underHdr c.a h := by
  simp [Ctx.moved, hk, underHdr]

/-- A head of another KIND moves whole. -/
theorem Ctx.moved_control {c : Ctx} (h : Hdr) (hk : c.a.kind ≠ 0) : c.moved h = c.a := by
  rw [Ctx.moved, if_pos (bne_iff_ne.mpr hk)]

theorem mov_does {f : Fields} {s : State} {h : Hdr} (hf : Fires .mov f s) (hh : (s.seen .mov f).header = .ok h) :
    Does .mov f s (resulting f 1 ((s.seen .mov f).moved h)) := by
  refine does_of_issue (show exec (.mov f) s = execMov f s from rfl) hf ?_
  rw [hh, ← s.seen_result f (o := .mov) rfl]
  rfl

/-- KIND and SIDE of the token that EMIT forms are those of the table (R138). -/
theorem emitKind_eq (md : BitVec 3) (x : Word) : emitKind md.toNat x.toNat = emitHead md x := by
  rcases md_cases md with rfl | rfl | rfl | rfl | rfl | rfl | rfl | rfl
  case inr.inr.inl => exact congrArg (Prod.mk 2) (BitVec.ofNat_toNat 24 x)
  all_goals rfl

theorem emit_does {f : Fields} {s : State} {h : Hdr} (hf : Fires .emit f s) (hh : (s.seen .emit f).header = .ok h) :
    let e := emitHead f.md (laneRead (s.seen .emit f).a 0)
    Does .emit f s (resulting f 1 ⟨Lanes.zero, 0, e.2, h.psn, 0, h.gen, 15, e.1⟩) := by
  refine does_of_issue (show exec (.emit f) s = execEmit f s from rfl) hf ?_
  rw [hh, ← s.seen_result f (o := .emit) rfl, ← emitKind_eq]
  rfl

/-- Settles O10: a MOV of DATA is A under the result header, and one of another KIND is A. -/
theorem consumeMoveAndEmit : Obligations.ConsumeMoveAndEmit := by
  refine ⟨fun o f s => consuming_does, fun f s h => ⟨fun hf hh => ⟨fun hk => ?_, fun hk => ?_⟩, emit_does⟩⟩
  · have hmov := mov_does hf hh
    rw [Ctx.moved_data h hk] at hmov
    exact ⟨_, hmov, hk, rfl, rfl, rfl, rfl, rfl, fun i hi => maskLanes_get _ hi⟩
  · have hmov := mov_does hf hh
    rwa [Ctx.moved_control h hk] at hmov

/-! ### Predicates (R139) -/

theorem plogFn_eq (md : BitVec 3) (pa pb : Bool) : plogFn md.toNat pa pb = logicTable md pa pb := by
  revert md pa pb
  decide

theorem pset_does {f : Fields} {s : State} (hf : Fires .pset f s) :
    Does .pset f s (resulting f 1 (oneTok 1 Hdr.none)) := by
  refine does_of_issue (show exec (.pset f) s = execPset f s from rfl) hf ?_
  rw [s.seen_result f rfl, predRes_eq]
  rfl

theorem pclr_does {f : Fields} {s : State} (hf : Fires .pclr f s) :
    Does .pclr f s (resulting f 1 (oneTok 0 Hdr.none)) := by
  refine does_of_issue (show exec (.pclr f) s = execPclr f s from rfl) hf ?_
  rw [s.seen_result f rfl, predRes_eq]
  rfl

theorem plog_does {f : Fields} {s : State} {m n : Fin 8} (ha : f.a = .imm m) (hb : f.b = .imm n) (hf : Fires .plog f s) :
    let v := fun i => (s.tile s.focus.tile).pred s.focus.pool i
    Does .plog f s (resulting f 1 (oneTok (if logicTable f.md (v m) (v n) then 1 else 0) Hdr.none)) := by
  refine does_of_issue (show exec (.plog f) s = execPlog f s from rfl) hf ?_
  rw [s.seen_result f rfl, predRes_eq, plogFn_eq, ha, hb]
  rfl

/-- Settles O11: each writes the constant, or the function of the predicates as they stand at the start. -/
theorem predicateWrites : Obligations.PredicateWrites := by
  refine fun f s => ⟨pset_does, pclr_does, ?_⟩
  rintro m n p rfl ha hb hf
  exact plog_does ha hb hf

/-! ### Counters (R140) -/

theorem cset_does {f : Fields} {s : State} {h : Hdr} {a : Word} (hp : h.psn = false) (hf : Fires .cset f s)
    (ha : (s.seen .cset f).intA = .ok a) (hh : (s.seen .cset f).header = .ok h) :
    Does .cset f s { consumed f with
      tile := fun t => t.modPool s.focus.pool fun x => x.setCounter (f.md.getLsbD 0) (a.setWidth 32) } := by
  refine does_of_issue (show exec (.cset f) s = execCset f s from rfl) hf ?_
  rw [ha, hh]
  simp only [ok_bind, hp]
  rfl

/-- What CINC leaves to D and to its counter: whether the sum `n` has met `b`, or the sum. -/
theorem cinc_does {f : Fields} {s : State} {h : Hdr} {a b : Word} (hp : h.psn = false) (hf : Fires .cinc f s)
    (ha : (s.seen .cinc f).intA = .ok a) (hb : (s.seen .cinc f).intB = .ok b) (hh : (s.seen .cinc f).header = .ok h) :
    let n := ((s.tile s.focus.tile).pool s.focus.pool).counter (f.md.getLsbD 0) + a.setWidth 32
    let hit := n == b.setWidth 32
    Does .cinc f s { resulting f 1 (if f.d.isPred then predRes hit h else scalarRes (n.setWidth 64) h) with
      tile := fun t => t.modPool s.focus.pool fun x =>
        x.setCounter (f.md.getLsbD 0) (if f.md.getLsbD 1 && hit then 0 else n) } := by
  refine does_of_issue (show exec (.cinc f) s = execCinc f s from rfl) hf ?_
  rw [ha, hb, hh]
  simp only [ok_bind, hp, s.seen_result f (o := .cinc) rfl]
  rfl

/-! ### The queues of a core (R191) -/

theorem Core.queue_postTok (x : Core) (q : Nat) (t : Posted) : ((x.postTok q t).queue q).toks = (x.queue q).toks ++ [t] :=
  congrArg CopyQueue.toks (Tab.get_set_self x.queues _ _ q)

theorem Core.queue_postTok_ne (x : Core) {q r : Nat} (t : Posted) (h : r ≠ q) : (x.postTok q t).queue r = x.queue r :=
  Tab.get_set_ne x.queues _ _ h

/-- A firing without an effect of its own beyond the tile leaves the cores. -/
theorem State.commit_core (s : State) (c : Ctx) (d : Done) (he : d.eff = id) (ha : d.after = none) (k : Nat) :
    (s.commit c d).core k = s.core k := by
  have h := congrArg State.cores (s.commit_rest c d he ha)
  exact congrArg (fun t => Tab.get t k Core.reset) h

/-- What QPOST posts: the lanes and LMASK of A, as DATA, with PSN and GEN of the result header (log entry 42), and the block
that posts it. -/
def State.posted (s : State) (k : Nat) (a : Tok) (h : Hdr) : Posted :=
  ⟨{ a with lanes := maskLanes a, psn := h.psn, gen := h.gen, kind := 0, tag := 0 }, (s.blockOf k).elim 0 (·.lseq),
    (s.blockOf k).elim 0 (·.job), (s.blockOf k).elim 0xFF (·.idx)⟩

/-- A token posted at the end of a queue of a core. -/
def State.enqueuePost (s : State) (k q : Nat) (p : Posted) : State := s.setCore k ((s.core k).postTok q p)

theorem State.toks_enqueuePost (s : State) (k q : Nat) (p : Posted) :
    (((s.enqueuePost k q p).core k).queue q).toks = ((s.core k).queue q).toks ++ [p] := by
  rw [State.enqueuePost, State.core_setCore, Core.queue_postTok]

theorem State.queue_enqueuePost_ne (s : State) (k : Nat) {q r : Nat} (p : Posted) (h : r ≠ q) :
    ((s.enqueuePost k q p).core k).queue r = (s.core k).queue r := by
  rw [State.enqueuePost, State.core_setCore, Core.queue_postTok_ne _ _ h]

/-- A QPOST to a bound queue consumes by its fields and posts. -/
theorem qpost_next {f : Fields} {s : State} {h : Hdr} {b : Word} (hf : Fires .qpost f s)
    (hb : (s.seen .qpost f).intB = .ok b) (hh : (s.seen .qpost f).header = .ok h)
    (hq : ((s.core (tileCore s.focus.tile)).queue (fld b 5 0)).bound.isSome = true) :
    exec (.qpost f) s = .next ((s.commit (s.seen .qpost f) (consumed f)).enqueuePost (tileCore s.focus.tile) (fld b 5 0)
      (s.posted s.focus.tile (s.seen .qpost f).a h)) := by
  have hk : (s.seen .qpost f).k = s.focus.tile := rfl
  have hdoes : Does .qpost f s { consumed f with
      eff := fun t => t.enqueuePost (tileCore s.focus.tile) (fld b 5 0) (s.posted s.focus.tile (s.seen .qpost f).a h) } := by
    refine does_of_issue (show exec (.qpost f) s = execQpost f s from rfl) hf ?_
    rw [hb, hh]
    simp only [ok_bind, hk, Option.isNone_eq_false_iff.mpr hq, Bool.false_eq_true, if_false]
    rfl
  exact hdoes.trans (congrArg _ (s.commit_eff _ _ rfl))

theorem qpost_unbound {f : Fields} {s : State} {h : Hdr} {b : Word} (hf : Fires .qpost f s)
    (hb : (s.seen .qpost f).intB = .ok b) (hh : (s.seen .qpost f).header = .ok h)
    (hq : ((s.core (tileCore s.focus.tile)).queue (fld b 5 0)).bound = none) :
    exec (.qpost f) s = .next ((s.markActive s.focus.tile).raise s.focus.tile s.focus.pool s.focus.slot 0x43 h.gen
      (w64 (fld b 5 0)) 0 0) := by
  have hk : (s.seen .qpost f).k = s.focus.tile := rfl
  have hflt : (s.seen .qpost f).flt 0x43 (w64 (fld b 5 0)) 0 0 = ⟨0x43, s.focus.slot, h.gen, w64 (fld b 5 0), 0, 0⟩ := by
    rw [Ctx.flt, Ctx.gen_of_header hh]
    rfl
  refine (show exec (.qpost f) s = execQpost f s from rfl).trans
    (issue_error (e := ⟨0x43, s.focus.slot, h.gen, w64 (fld b 5 0), 0, 0⟩) hf ?_)
  rw [hb, hh, ← hflt]
  simp only [ok_bind, hk, hq, Option.isNone_none, if_true]

/-- Settles O12: counters by what CSET and CINC write in their pool, and QPOST by what it appends to one queue of its core. -/
theorem countersAndQueuePost : Obligations.CountersAndQueuePost := by
  refine ⟨fun f s h a b hp => ⟨cset_does hp, fun hf ha hb hh => ?_⟩, fun f s h b hf hb hh => ?_⟩
  · have hdoes := cinc_does hp hf ha hb hh
    simp only [predRes_eq, scalarRes_eq, beq_iff_eq, Bool.and_eq_true] at hdoes
    exact hdoes
  · rw [← fld_extract b 5 0 (by decide)]
    refine ⟨fun hq => ?_, qpost_unbound hf hb hh⟩
    have hcore : ∀ k, (s.commit (s.seen .qpost f) (consumed f)).core k = s.core k := s.commit_core _ _ rfl rfl
    refine ⟨_, s.posted s.focus.tile (s.seen .qpost f).a h, qpost_next hf hb hh hq, ?_, fun i hi => maskLanes_get _ hi, rfl,
      rfl, rfl, fun r hr => ?_, fun d hd => (State.core_setCore_ne _ _ hd).trans (hcore d),
      s.commit_mem _ (consumed f) rfl rfl⟩
    · rw [State.toks_enqueuePost, hcore]
    · rw [State.queue_enqueuePost_ne _ _ _ hr, hcore]

end Sys2Proof.Machine

/-! ## Routing (R142 to R146, R148) -/

namespace Sys2Proof.Machine

open Sys2Proof

/-! ### SEL and STEER (R142, R143) -/

/-- A source passed on whole but for its GEN, which is the firing's, and lanes that are not valid. -/
def selected (t : Tok) (h : Hdr) : Tok := { t with lanes := maskLanes t, gen := h.gen }

theorem sel_does {f : Fields} {s : State} {h : Hdr} (hf : Fires .sel f s) (hh : (s.seen .sel f).header = .ok h) :
    let c := s.seen .sel f
    let t := if (s.tile s.focus.tile).pred s.focus.pool f.md.toNat then c.a else c.b
    Does .sel f s (resulting f 1 (selected t h)) := by
  refine does_of_issue (show exec (.sel f) s = execSel f s from rfl) hf ?_
  rw [hh, ← s.seen_result f (o := .sel) rfl]
  rfl

/-- Settles O14: the token sent is the chosen source, `selected`. -/
theorem select : Obligations.Select :=
  fun _ _ _ hf hh => ⟨_, sel_does hf hh, rfl, rfl, rfl, rfl, fun _ hi => maskLanes_get _ hi⟩

/-- The input of a source field that consumes one. -/
theorem consumes_toList (a : Src) : (a.consumes?.map (·.val)).toList = inputOf a := by
  cases a <;> rfl

/-- The second output of a STEER that MD names, MD 4 naming none (R143). -/
theorem steer_second {md : BitVec 3} (h : md.toNat ≤ 4) : (if md.toNat = 4 then [] else [md.toNat % 4]) =
    if md.getLsbD 2 then [] else [(md.extractLsb' 0 2).toNat] := by
  revert md
  decide

/-- A control head goes to both outputs. -/
theorem Ctx.steerOuts_control {c : Ctx} {n : Fin 4} (hd : c.f.d = .out n) (hmd : c.f.md.toNat ≤ 4) (hk : c.a.kind ≠ 0) :
    c.steerOuts = if c.f.md.getLsbD 2 then [n.val] else [n.val, (c.f.md.extractLsb' 0 2).toNat] := by
  simp only [Ctx.steerOuts, hd, bne_iff_ne.mpr hk, if_true, steer_second hmd]
  split <;> rfl

/-- A DATA head goes to the output that bit 0 of the selector names. -/
theorem Ctx.steerOuts_data {c : Ctx} {n : Fin 4} (hd : c.f.d = .out n) (hmd : c.f.md.toNat ≤ 4) (hk : c.a.kind = 0) :
    c.steerOuts = if (laneRead c.b 0).getLsbD 0 then [n.val] else
      if c.f.md.getLsbD 2 then [] else [(c.f.md.extractLsb' 0 2).toNat] := by
  have hkind : (c.a.kind != 0) = false := bne_eq_false_iff_eq.mpr hk
  simp only [Ctx.steerOuts, hd, hkind, Bool.false_eq_true, if_false, steer_second hmd]
  rfl

theorem steer_does_control {f : Fields} {s : State} {ns : List Nat} (hns : (s.seen .steer f).steerOuts = ns)
    (hf : Fires .steer f s) (hk : (s.seen .steer f).a.kind ≠ 0) :
    Does .steer f s { pops := inputOf f.a, outs := ns, res := (s.seen .steer f).send ns (s.seen .steer f).a } := by
  subst hns
  refine does_of_issue (show exec (.steer f) s = execSteer f s from rfl) hf ?_
  rw [if_pos (bne_iff_ne.mpr hk), consumes_toList]

/-- A DATA token under the header of its sources, its lanes those of the result mask. -/
def steered (a : Tok) (h : Hdr) : Tok :=
  { a with
    lanes := Lanes.ofFn fun i => if h.mask.getLsbD i then a.lanes.get i else 0
    mask := h.mask
    psn := h.psn
    gen := h.gen }

theorem steer_does_data {f : Fields} {s : State} {h : Hdr} {ns : List Nat} (hns : (s.seen .steer f).steerOuts = ns)
    (hf : Fires .steer f s) (hk : (s.seen .steer f).a.kind = 0) (hh : (s.seen .steer f).header = .ok h) :
    Does .steer f s { consumed f with
      outs := ns, res := (s.seen .steer f).send ns (steered (s.seen .steer f).a h) } := by
  subst hns
  have hkind : ¬((s.seen .steer f).a.kind != 0) = true := by simpa using hk
  refine does_of_issue (show exec (.steer f) s = execSteer f s from rfl) hf ?_
  rw [if_neg hkind, hh]
  rfl

/-- Settles O15: the outputs are `steerOuts`, by the KIND of A. -/
theorem steering : Obligations.Steering := by
  intro f s h n hd hf
  exact ⟨fun hk hh hmd => ⟨_, steer_does_data (Ctx.steerOuts_data hd hmd hk) hf hk hh, rfl, rfl, rfl, rfl,
    fun i hi => Lanes.get_ofFn _ hi⟩, fun hk hmd => steer_does_control (Ctx.steerOuts_control hd hmd hk) hf hk⟩

/-! ### MERGE (R144) -/

theorem merge_does_test {f : Fields} {s : State} {h : Hdr} {i j : Fin 4} {k : Tok} (ha : f.a = .inp i) (hb : f.b = .inp j)
    (hf : Fires .merge f s) (hk : ((s.seen .merge f).x.inp f.md.toNat).head = some k) (hte : f.te = true)
    (hh : (s.seen .merge f).headerOf [(s.seen .merge f).a, (s.seen .merge f).b, k] = .ok h) :
    Does .merge f s { resulting f 1 ⟨Lanes.zero, 0, k.side, h.psn, 0, h.gen, 15, f.tk⟩ with
      pops := [i.val, j.val, f.md.toNat] } := by
  have hpops : popsOf f = [i.val, j.val] := by rw [popsOf, ha, hb]; rfl
  refine does_of_issue (show exec (.merge f) s = execMerge f s from rfl) hf ?_
  simp only [hk, Option.getD_some, hte, if_true, hh, ok_bind, hpops, s.seen_result f (o := .merge) rfl]
  rfl

/-- The arm that the control head chooses. -/
theorem Ctx.mergeArm_eq {c : Ctx} {i j : Fin 4} {k : Tok} (ha : c.f.a = .inp i) (hb : c.f.b = .inp j)
    (hk : (c.x.inp c.f.md.toNat).head = some k) : c.mergeArm = .inp (if k.side.getLsbD 0 then i else j) := by
  rw [Ctx.mergeArm, hk, Option.getD_some, ha, hb]
  split <;> rfl

theorem merge_does_choice {f : Fields} {s : State} {h : Hdr} {i j n : Fin 4} {k t : Tok} (ha : f.a = .inp i)
    (hb : f.b = .inp j) (hf : Fires .merge f s) (hk : ((s.seen .merge f).x.inp f.md.toNat).head = some k)
    (hte : f.te = false) (hn : n = if k.side.getLsbD 0 then i else j)
    (ht : ((s.seen .merge f).x.inp n).head = some t) (hh : (s.seen .merge f).headerOf [t, k] = .ok h) :
    Does .merge f s { resulting f 1 { t with psn := h.psn, gen := h.gen } with pops := [n.val, f.md.toNat] } := by
  have harm : (s.seen .merge f).mergeArm = .inp n := by rw [Ctx.mergeArm_eq ha hb hk, ← hn]
  have hsrc : (s.seen .merge f).x.source (.inp n) = t := by rw [PoolSt.source, ht, Option.getD_some]
  refine does_of_issue (show exec (.merge f) s = execMerge f s from rfl) hf ?_
  simp only [hk, Option.getD_some, hte, Bool.false_eq_true, if_false, harm, hsrc, hh, ok_bind,
    s.seen_result f (o := .merge) rfl]
  rfl

/-! ### DUP and BARJ (R145, R146) -/

theorem dup_does {f : Fields} {s : State} {h : Hdr} {n : Fin 4} (hd : f.d = .out n) (hf : Fires .dup f s)
    (hh : (s.seen .dup f).header = .ok h) :
    let ns := n.val :: ([0, 1, 2].filter fun k => f.md.getLsbD k).map fun k => (n.val + 1 + k) % 4
    Does .dup f s { consumed f with
      outs := ns, res := (s.seen .dup f).send ns ((s.seen .dup f).moved h) } := by
  have houts : dupOuts f = n.val :: ([0, 1, 2].filter fun k => f.md.getLsbD k).map fun k => (n.val + 1 + k) % 4 := by
    rw [dupOuts, hd]
  rw [← houts]
  refine does_of_issue (show exec (.dup f) s = execDup f s from rfl) hf ?_
  rw [hh]
  rfl

/-- The outputs of a pool's channels and links, and the done sink. -/
theorem PoolSt.barOuts_eq (x : PoolSt) : x.barOuts =
    [0, 1, 2, 3].filter fun n => decide ((1 ≤ (x.out n).code ∧ (x.out n).code ≤ 4) ∨ (x.out n).code = 6) := by
  simp only [PoolSt.barOuts, linkCode, Bool.decide_or, Bool.decide_and]

theorem barj_does {f : Fields} {s : State} {h : Hdr} {i : Nat} {js ns : List Nat}
    (hns : (s.seen .barj f).x.barOuts = ns) (hf : Fires .barj f s)
    (hj : s.joined s.focus.tile s.focus.pool = i :: js)
    (hh : (s.seen .barj f).headerOf ((i :: js).map fun n => ((s.seen .barj f).x.inp n).head.getD zeroTok) = .ok h) :
    let side := (((s.seen .barj f).x.inp i).head.getD zeroTok).side
    Does .barj f s { pops := i :: js, outs := ns, res := (s.seen .barj f).send ns (ctlTok 2 side false h.gen) } := by
  subst hns
  have hjoined : s.joined (s.seen .barj f).k (s.seen .barj f).p = i :: js := hj
  refine does_of_issue (show exec (.barj f) s = execBarj f s from rfl) hf ?_
  simp only [hjoined, hh, ok_bind]
  rfl

/-! ### REQ (R148) -/

/-- An input with more requests outstanding. -/
def InPort.asked (i : InPort) (m : Nat) : InPort := { i with reqOut := i.reqOut + m }

/-- A pool whose input `n` has more requests outstanding. -/
def PoolSt.askInput (n m : Nat) (x : PoolSt) : PoolSt := { x with ins := x.ins.modify n fun i => i.asked m }

theorem PoolSt.askInput_reqOut {x : PoolSt} {n : Nat} (m : Nat) (h : n < x.ins.length) :
    ((x.askInput n m).inp n).reqOut = (x.inp n).reqOut + m :=
  congrArg InPort.reqOut (PoolSt.inp_modify (fun i => i.asked m) h)

/-- Requests on their way up a channel. -/
def Chan.asked (m : Nat) (y : Chan) : Chan := { y with reqBack := y.reqBack + m }

/-- Pops take heads: requests outstanding stay, and the inputs too. -/
theorem PoolSt.foldl_popInput_reqOut (is : List Nat) (x : PoolSt) (n : Nat) :
    ((is.foldl PoolSt.popInput x).inp n).reqOut = (x.inp n).reqOut ∧
      (is.foldl PoolSt.popInput x).ins.length = x.ins.length := by
  induction is generalizing x with
  | nil => exact ⟨rfl, rfl⟩
  | cons j rest ih =>
    obtain ⟨hreq, hlen⟩ := ih (x.popInput j)
    refine ⟨hreq.trans ?_, hlen.trans (List.length_modify ..)⟩
    simp only [PoolSt.popInput, PoolSt.inp, List.getD_eq_getElem?_getD, List.getElem?_modify]
    by_cases hj : j = n
    · simp only [if_pos hj]
      cases x.ins[n]? <;> rfl
    · simp [hj]

/-- A credit on its way back leaves the requests on theirs. -/
theorem State.creditFor_reqBack (s : State) (x : PoolSt) (i ch : Nat) :
    (Tab.get? (s.creditFor x i).chans ch).map (·.reqBack) = (Tab.get? s.chans ch).map (·.reqBack) := by
  unfold State.creditFor
  dsimp only
  split
  case h_2 => rfl
  case h_1 n hn =>
    split
    · rfl
    · unfold State.modChan
      split
      case h_2 => rfl
      case h_1 y hy =>
        by_cases hch : ch = n
        · subst hch
          simp [hy]
        · simp [Tab.get?_set_ne _ _ hch]

theorem State.foldl_creditFor_reqBack (x : PoolSt) (is : List Nat) (s : State) (ch : Nat) :
    (Tab.get? (is.foldl (fun s i => s.creditFor x i) s).chans ch).map (·.reqBack) =
      (Tab.get? s.chans ch).map (·.reqBack) := by
  induction is generalizing s with
  | nil => rfl
  | cons i rest ih => exact (ih (s.creditFor x i)).trans (s.creditFor_reqBack x i ch)

/-- A firing without an effect of its own beyond the tile leaves the requests on their way. -/
theorem State.commit_reqBack (s : State) (c : Ctx) (d : Done) (he : d.eff = id) (ha : d.after = none) (ch : Nat) :
    (Tab.get? (s.commit c d).chans ch).map (·.reqBack) = (Tab.get? s.chans ch).map (·.reqBack) := by
  unfold State.commit
  simp only [he, ha, id, State.markActive_chans]
  exact State.foldl_creditFor_reqBack c.x d.pops _ ch

/-- What a firing of REQ does in its tile when it sends `m` requests. -/
def asking (f : Fields) (p : Pool) (m : Nat) : Done :=
  { consumed f with tile := fun t => t.modPool p (PoolSt.askInput (f.md.toNat % 4) m) }

/-- A REQ up a channel consumes by its fields, asks at its input and sends the requests up. -/
theorem req_next {f : Fields} {s : State} {ch m : Nat} (hf : Fires .req f s)
    (hc : ((s.seen .req f).x.inp (f.md.toNat % 4)).chan = some ch)
    (hm : m = reqCount ((laneRead (s.seen .req f).a 0).toNat % 64) ((s.seen .req f).x.inp (f.md.toNat % 4))) :
    exec (.req f) s =
      .next ((s.commit (s.seen .req f) (asking f s.focus.pool m)).modChan ch (Chan.asked m)) := by
  have hfld : fld ((s.seen .req f).x.rawLane0 f.a) 5 0 = (laneRead (s.seen .req f).a 0).toNat % 64 := fld_low _ _
  have hdoes : Does .req f s { asking f s.focus.pool m with eff := fun t => t.modChan ch (Chan.asked m) } := by
    refine does_of_issue (show exec (.req f) s = execReq f s from rfl) hf ?_
    simp only [hfld, ← hm, hc]
    rfl
  exact hdoes.trans (congrArg _ (s.commit_eff _ _ rfl))

/-- The input that a REQ asks at. -/
theorem State.commit_asking_reqOut {s : State} {f : Fields} (m : Nat)
    (hn : f.md.toNat % 4 < ((s.tile s.focus.tile).pool s.focus.pool).ins.length) :
    let inp := fun t : State => ((t.tile s.focus.tile).pool s.focus.pool).inp (f.md.toNat % 4)
    (inp (s.commit (s.seen .req f) (asking f s.focus.pool m))).reqOut = (inp s).reqOut + m := by
  have htile := s.commit_tile (s.seen .req f) (asking f s.focus.pool m) rfl rfl
  obtain ⟨hreq, hlen⟩ := PoolSt.foldl_popInput_reqOut (popsOf f) ((s.tile s.focus.tile).pool s.focus.pool) (f.md.toNat % 4)
  have hpool : ((s.commit (s.seen .req f) (asking f s.focus.pool m)).tile s.focus.tile).pool s.focus.pool =
      (((s.tile s.focus.tile).pool s.focus.pool).fire (s.seen .req f) (asking f s.focus.pool m)).askInput
        (f.md.toNat % 4) m := by
    refine (congrArg (fun t : Tile => t.pool s.focus.pool) htile).trans ((Tile.pool_modPool _ _ _).trans ?_)
    exact congrArg (PoolSt.askInput _ m) (Tile.pool_modPool _ _ _)
  dsimp only
  rw [hpool, PoolSt.askInput_reqOut m (hlen.symm ▸ hn)]
  exact congrArg (· + m) hreq

theorem req_asks {f : Fields} {s : State} {ch : Nat} {y : Chan} (hf : Fires .req f s) :
    let a := laneRead (s.seen .req f).a 0
    let n := f.md.toNat % 4
    let x := (s.tile s.focus.tile).pool s.focus.pool
    (x.inp n).chan = some ch → n < x.ins.length → Tab.get? s.chans ch = some y →
    let m := reqCount (a.toNat % 64) (x.inp n)
    ∃ t, exec (.req f) s = .next t ∧ (((t.tile s.focus.tile).pool s.focus.pool).inp n).reqOut = (x.inp n).reqOut + m ∧
      (Tab.get? t.chans ch).map (·.reqBack) = some (y.reqBack + m) ∧ t.mem = s.mem := by
  intro a n x hc hn hy m
  refine ⟨_, req_next hf hc (m := m) rfl, ?_, ?_, (State.modChan_mem _ _ _).trans (s.commit_mem _ _ rfl rfl)⟩
  · rw [State.tile_modChan]
    exact State.commit_asking_reqOut m hn
  · have hback := s.commit_reqBack (s.seen .req f) (asking f s.focus.pool m) rfl rfl ch
    rw [hy] at hback
    obtain ⟨z, hz, hzy⟩ := Option.map_eq_some_iff.mp hback
    rw [State.chan_modChan _ hz]
    exact congrArg (fun r => some (r + m)) hzy

/-- Settles O16: each instruction by what its firing does. -/
theorem mergesFansAndJoins : Obligations.MergesFansAndJoins := by
  refine ⟨fun f s i j k h ha hb _ hf hk => ⟨fun n t hte hn ht hh => merge_does_choice ha hb hf hk hte hn ht hh,
    fun hte hh => merge_does_test ha hb hf hk hte hh⟩, fun f s h => ⟨fun n hd hf hh => ⟨fun hk => ?_, fun hk => ?_⟩,
    fun i js hf hj hh => barj_does (PoolSt.barOuts_eq _) hf hj hh, fun ch y hf => req_asks hf⟩⟩
  · have hdup := dup_does hd hf hh
    rw [Ctx.moved_data h hk] at hdup
    exact ⟨_, hdup, rfl, rfl, rfl, hk, rfl, rfl, fun i hi => maskLanes_get _ hi⟩
  · have hdup := dup_does hd hf hh
    rwa [Ctx.moved_control h hk] at hdup

end Sys2Proof.Machine

/-! ## Lanes and headers (R149 to R151) -/

namespace Sys2Proof.Machine

open Sys2Proof

/-! ### Masks built lane by lane -/

theorem getLsbD_laneBit {i j : Nat} (hi : i < 8) : (BitVec.ofNat 8 (2 ^ j)).getLsbD i = decide (i = j) := by
  rw [BitVec.getLsbD_ofNat, Nat.testBit_two_pow]
  simp [hi, eq_comm]

/-- A mask with the bits of a list's lanes that pass a test. -/
theorem getLsbD_foldl_lanes (g : Nat → Bool) (is : List Nat) (m : BitVec 8) {i : Nat} (hi : i < 8) :
    (is.foldl (fun m j => if g j then m ||| BitVec.ofNat 8 (2 ^ j) else m) m).getLsbD i =
      (m.getLsbD i || (is.contains i && g i)) := by
  induction is generalizing m with
  | nil => simp
  | cons j rest ih =>
    have hor : (if g j then m ||| BitVec.ofNat 8 (2 ^ j) else m).getLsbD i = (m.getLsbD i || (i == j && g j)) := by
      cases g j
      · simp
      · rw [if_pos rfl, BitVec.getLsbD_or, getLsbD_laneBit hi, Bool.and_true]
        rfl
    rw [List.foldl_cons, ih, hor, List.contains_cons, Bool.and_or_distrib_right, Bool.or_assoc]
    by_cases hij : i = j
    · rw [hij]
    · simp only [beq_eq_false_iff_ne.mpr hij, Bool.false_and]

theorem getLsbD_maskOf (g : Nat → Bool) {i : Nat} (hi : i < 8) : (maskOf g).getLsbD i = g i := by
  have hmem : (List.range 8).contains i = true := by simpa using hi
  rw [maskOf, getLsbD_foldl_lanes g _ _ hi, hmem, Bool.true_and]
  simp

/-- The masks of LBC and LEXT. -/
theorem getLsbD_allLanes (v : Bool) {i : Nat} (hi : i < 8) : (if v then 0xFF else 0 : BitVec 8).getLsbD i = v := by
  cases v <;> interval_cases i <;> rfl

theorem getLsbD_laneZero (v : Bool) {i : Nat} (hi : i < 8) : (if v then 1 else 0 : BitVec 8).getLsbD i = (i == 0 && v) := by
  cases v <;> interval_cases i <;> rfl

/-! ### Lane moves (R149) -/

/-- The token of a lane result. -/
def laneTok (a : Tok) (h : Hdr) (m : BitVec 8) (g : Nat → Word) : Tok :=
  { dataTok (Lanes.ofFn g) { h with mask := m } a.fmt with side := a.side }

theorem lanesAre_laneTok {a : Tok} {h : Hdr} {m : BitVec 8} {g : Nat → Word} {m' : Nat → Bool} {g' : Nat → Word}
    (hm : ∀ i < 8, m.getLsbD i = m' i) (hg : ∀ i < 8, m' i = true → g i = g' i) : LanesAre (laneTok a h m g) m' g' := by
  intro i hi
  refine ⟨hm i hi, (dataTok_get (Lanes.ofFn g) { h with mask := m } a.fmt hi).trans ?_⟩
  rw [Lanes.get_ofFn _ hi, hm i hi]
  exact ite_congr rfl (hg i hi) fun _ => rfl

/-- A firing whose result is a lane result moves lanes as a function of mask and lanes says. -/
theorem moves_of_laneRes {o : Op} {f : Fields} {s : State} {h : Hdr} {m : BitVec 8} {g : Nat → Word} {m' : Nat → Bool}
    {g' : Nat → Word} (hl : opLatency o = some 1) (hdoes : Does o f s ((s.seen o f).laneRes h m g))
    (hm : ∀ i < 8, m.getLsbD i = m' i) (hg : ∀ i < 8, m' i = true → g i = g' i) :
    ∃ t, Does o f s (resulting f 1 t) ∧ LanesAre t m' g' ∧ t.fmt = (s.seen o f).a.fmt ∧ t.psn = h.psn ∧ t.gen = h.gen := by
  rw [Ctx.laneRes, s.seen_result f hl] at hdoes
  exact ⟨_, hdoes, lanesAre_laneTok hm hg, rfl, rfl, rfl⟩

theorem Ctx.laneNum_eq (c : Ctx) : c.laneNum = (laneRead c.b 0).toNat % 8 := by
  rw [Ctx.laneNum, fld_low, maskLanes_l0]
  rfl

section LaneMoves

variable {f : Fields} {s : State} {h : Hdr}

theorem lrot_does (hf : Fires .lrot f s) (hh : (s.seen .lrot f).header = .ok h) :
    let c := s.seen .lrot f
    Does .lrot f s (c.laneRes h (maskOf fun i => c.a.mask.getLsbD ((i + c.laneNum) % 8) && c.b.mask.getLsbD 0)
      fun i => c.a.lanes.get ((i + c.laneNum) % 8)) := by
  refine does_of_issue (show exec (.lrot f) s = execLrot f s from rfl) hf ?_
  rw [hh]
  rfl

theorem lbc_does (hf : Fires .lbc f s) (hh : (s.seen .lbc f).header = .ok h) :
    let c := s.seen .lbc f
    Does .lbc f s (c.laneRes h (if c.a.mask.getLsbD c.laneNum then 0xFF else 0) fun _ => c.a.lanes.get c.laneNum) := by
  refine does_of_issue (show exec (.lbc f) s = execLbc f s from rfl) hf ?_
  rw [hh]
  rfl

theorem lins_does (hf : Fires .lins f s) (hh : (s.seen .lins f).header = .ok h) :
    let c := s.seen .lins f
    Does .lins f s (c.laneRes h (maskOf fun i => if i = c.laneNum then c.a.mask.getLsbD 0 else c.d.mask.getLsbD i)
      fun i => if i = c.laneNum then c.a.lanes.l0 else c.d.lanes.get i) := by
  refine does_of_issue (show exec (.lins f) s = execLins f s from rfl) hf ?_
  rw [hh]
  rfl

theorem lext_does (hf : Fires .lext f s) (hh : (s.seen .lext f).header = .ok h) :
    let c := s.seen .lext f
    Does .lext f s (c.laneRes h (if c.a.mask.getLsbD c.laneNum then 1 else 0) fun i =>
      if i = 0 then c.a.lanes.get c.laneNum else 0) := by
  refine does_of_issue (show exec (.lext f) s = execLext f s from rfl) hf ?_
  rw [hh]
  rfl

/-- The lane of A that LPERM takes for lane `i`: of lane `i` of B, or of three bits of its lane 0 (R149). -/
def Ctx.permLane (c : Ctx) (i : Nat) : Nat :=
  if c.f.md.getLsbD 0 then fld ((maskLanes c.b).get i) 2 0 else fld (maskLanes c.b).l0 (3 * i + 2) (3 * i)

theorem lperm_does (hf : Fires .lperm f s) (hh : (s.seen .lperm f).header = .ok h) :
    let c := s.seen .lperm f
    Does .lperm f s (c.laneRes h
      (maskOf fun i => c.a.mask.getLsbD (c.permLane i) && c.b.mask.getLsbD (if f.md.getLsbD 0 then i else 0))
      fun i => c.a.lanes.get (c.permLane i)) := by
  refine does_of_issue (show exec (.lperm f) s = execLperm f s from rfl) hf ?_
  rw [hh]
  rfl

end LaneMoves

theorem Ctx.permLane_eq (c : Ctx) {i : Nat} (hi : i < 8) : c.permLane i =
    if c.f.md.getLsbD 0 then (laneRead c.b i).toNat % 8 else (laneRead c.b 0).toNat / 2 ^ (3 * i) % 8 := by
  have hwidth : 3 * i + 2 + 1 - 3 * i = 3 := by omega
  rw [Ctx.permLane, maskLanes_get _ hi, maskLanes_l0, fld_low, fld, hwidth]
  rfl

/-- MD of LPERM is 0 or 1. -/
theorem lperm_md {md : BitVec 3} (h : md.toNat ∈ Op.mds .lperm) : md.getLsbD 0 = decide (md = 1) := by
  revert md
  decide

theorem laneMove_does {o : Op} {f : Fields} {s : State} {h : Hdr} (ho : o ∈ [Op.lperm, .lrot, .lbc, .lins, .lext])
    (hmd : f.md.toNat ∈ o.mds) (hf : Fires o f s) (hh : (s.seen o f).header = .ok h) :
    let c := s.seen o f
    let m := laneMove o f.md c.a c.b c.d
    ∃ t, Does o f s (resulting f 1 t) ∧ LanesAre t m.1 m.2 ∧ t.fmt = c.a.fmt ∧ t.psn = h.psn ∧ t.gen = h.gen := by
  simp only [List.mem_cons, List.not_mem_nil, or_false] at ho
  rcases ho with rfl | rfl | rfl | rfl | rfl
  · have hlane : ∀ i < 8, (s.seen .lperm f).permLane i = if f.md = 1 then (laneRead (s.seen .lperm f).b i).toNat % 8
        else (laneRead (s.seen .lperm f).b 0).toNat / 2 ^ (3 * i) % 8 := by
      intro i hi
      have hsel : (s.seen .lperm f).f.md.getLsbD 0 = decide (f.md = 1) := lperm_md hmd
      simp only [(s.seen .lperm f).permLane_eq hi, hsel, decide_eq_true_eq]
    refine moves_of_laneRes rfl (lperm_does hf hh) (fun i hi => (getLsbD_maskOf _ hi).trans ?_) fun i hi _ => ?_
    · rw [hlane i hi, lperm_md hmd]
      simp only [laneMove, decide_eq_true_eq]
    · rw [hlane i hi]
      rfl
  · exact moves_of_laneRes rfl (lrot_does hf hh)
      (fun i hi => (getLsbD_maskOf _ hi).trans (by rw [Ctx.laneNum_eq]; rfl)) fun i hi _ => by rw [Ctx.laneNum_eq]; rfl
  · exact moves_of_laneRes rfl (lbc_does hf hh)
      (fun i hi => (getLsbD_allLanes _ hi).trans (by rw [Ctx.laneNum_eq]; rfl)) fun i hi _ => by rw [Ctx.laneNum_eq]; rfl
  · exact moves_of_laneRes rfl (lins_does hf hh)
      (fun i hi => (getLsbD_maskOf _ hi).trans (by rw [Ctx.laneNum_eq]; rfl)) fun i hi _ => by rw [Ctx.laneNum_eq]; rfl
  · refine moves_of_laneRes rfl (lext_does hf hh)
      (fun i hi => (getLsbD_laneZero _ hi).trans (by rw [Ctx.laneNum_eq]; rfl)) fun i hi hm => ?_
    obtain ⟨hzero, -⟩ := Bool.and_eq_true_iff.mp hm
    rw [Ctx.laneNum_eq, if_pos (beq_iff_eq.mp hzero)]
    rfl

/-! ### TAGSET and KINDP (R150, R151) -/

/-- The header field that TAGSET writes, x being lane 0 of B. -/
def retagged (md : BitVec 3) (a : Tok) (x : Word) : Tok :=
  match md.toNat with
  | 0 => { a with kind := x.extractLsb' 0 3, side := x.extractLsb' 3 24 }
  | 1 => { a with mask := x.extractLsb' 0 8 }
  | 2 => { a with fmt := x.extractLsb' 0 4 }
  | _ => { a with psn := x.getLsbD 0 }

/-- The FMT that TAGSET refuses to write (R150). -/
theorem fmtTag_iff (x : Word) : (7 ≤ (x.extractLsb' 0 4).toNat ∧ (x.extractLsb' 0 4).toNat ≤ 14) ↔
    7 ≤ x.toNat % 16 ∧ x.toNat % 16 ≠ 15 := by
  rw [BitVec.extractLsb'_toNat, Nat.shiftRight_zero]
  omega

theorem tagset_does {f : Fields} {s : State} {t : Tok} (hf : Fires .tagset f s)
    (hok : f.md = 2 → let x := laneRead (s.seen .tagset f).b 0; ¬(7 ≤ x.toNat % 16 ∧ x.toNat % 16 ≠ 15))
    (ht : sentTok (retagged f.md (s.seen .tagset f).a (laneRead (s.seen .tagset f).b 0)) = t) :
    Does .tagset f s (resulting f 1 t) := by
  subst ht
  refine does_of_issue (show exec (.tagset f) s = execTagset f s from rfl) hf ?_
  rw [← s.seen_result f (o := .tagset) rfl]
  refine if_neg fun hcond => ?_
  simp only [Bool.and_eq_true, decide_eq_true_eq, and_assoc] at hcond
  obtain ⟨hmd, hfmt⟩ := hcond
  simp only [hmd] at hfmt
  exact hok (BitVec.eq_of_toNat_eq hmd) ((fmtTag_iff _).mp hfmt)

theorem tagset_refused {f : Fields} {s : State} (hf : Fires .tagset f s) (hmd : f.md = 2) :
    let x := laneRead (s.seen .tagset f).b 0
    7 ≤ x.toNat % 16 → x.toNat % 16 ≠ 15 →
      exec (.tagset f) s = .next ((s.markActive s.focus.tile).raise s.focus.tile s.focus.pool s.focus.slot 0x32
        (s.seen .tagset f).a.gen (BitVec.ofNat 64 (x.toNat % 16)) 0 0) := by
  intro x h7 h15
  obtain ⟨hlo, hhi⟩ := (fmtTag_iff x).mpr ⟨h7, h15⟩
  have hfmt : x.toNat % 16 = (x.extractLsb' 0 4).toNat := by
    rw [BitVec.extractLsb'_toNat, Nat.shiftRight_zero]
  have hmd2 : f.md.toNat = 2 := congrArg BitVec.toNat hmd
  refine (show exec (.tagset f) s = execTagset f s from rfl).trans
    (issue_error (e := ⟨0x32, s.focus.slot, (s.seen .tagset f).a.gen, w64 (x.toNat % 16), 0, 0⟩) hf ?_)
  rw [hfmt]
  simp only [hmd2]
  exact if_pos (by simp only [Bool.and_eq_true, decide_eq_true_eq]; exact ⟨⟨trivial, hlo⟩, hhi⟩)

theorem kindp_does {f : Fields} {s : State} (hf : Fires .kindp f s) :
    let a := (s.seen .kindp f).a
    Does .kindp f s (resulting f 1 (oneTok (if a.kind = f.md then 1 else 0) ⟨1, false, a.gen⟩)) := by
  refine does_of_issue (show exec (.kindp f) s = execKindp f s from rfl) hf ?_
  rw [s.seen_result f (o := .kindp) rfl, predRes_eq]
  simp only [beq_iff_eq]
  rfl

/-- Settles O17: lane moves by `laneMove_does`, TAGSET by the field that MD names. -/
theorem lanesAndHeaders : Obligations.LanesAndHeaders := by
  refine ⟨fun o f s h ho hmd hf hh => laneMove_does ho hmd hf hh, fun f s => ⟨fun hf => ?_, kindp_does⟩⟩
  refine ⟨fun hmd => ?_, fun hmd => ?_, fun hmd hx => ?_, tagset_refused hf, fun hmd => ?_⟩
  case refine_3 => exact tagset_does hf (fun _ hbad => by omega) (by rw [hmd]; rfl)
  all_goals exact tagset_does hf (fun h => absurd (hmd.symm.trans h) (by decide)) (by rw [hmd]; rfl)

end Sys2Proof.Machine

/-! ## Integer instructions, compares and address registers (R152 to R157) -/

namespace Sys2Proof.Machine

open Sys2Proof

/-! ### Lane by lane (R152, R153) -/

/-- Two functions that agree on lanes give one instruction. -/
theorem intOp_congr {o : Op} {f : Fields} {s : State} {fmt : Ctx → Tok → BitVec 4} {op op' : Word → Word → Word → Word}
    (h : ∀ x y z, op x y z = op' x y z) : intOp o f s fmt op = intOp o f s fmt op' := by
  rw [show op = op' from funext fun x => funext fun y => funext fun z => h x y z]

/-- The third operand of a lane: the old D for shape c, zero otherwise. -/
theorem third_lane (o : Op) (d : Tok) {i : Nat} (hi : i < 8) :
    (if o.shape = .c then d else zeroTok).lanes.get i = if o.shape = .c then d.lanes.get i else 0 := by
  split
  · rfl
  · interval_cases i <;> rfl

/-- The token of a lane-wise instruction has the header of its sources and, in each valid lane, the function of theirs. -/
theorem intOp_result {o : Op} {f : Fields} {s : State} {fmt : Ctx → Tok → BitVec 4} {op : Word → Word → Word → Word}
    {a b d : Tok} {h : Hdr} {lat : Nat} (he : exec (o.mk f) s = intOp o f s fmt op) (hl : opLatency o = some lat)
    (hf : Fires o f s) (hs : Sources (s.seen o f) .int a b d h) :
    ∃ r, Does o f s (resulting f lat r) ∧ r.fmt = fmt (s.seen o f) a ∧ r.mask = h.mask ∧ r.psn = h.psn ∧ r.gen = h.gen ∧
      ∀ i < 8, r.lanes.get i = if h.mask.getLsbD i then
        op (a.lanes.get i) (b.lanes.get i) (if o.shape = .c then d.lanes.get i else 0) else 0 := by
  refine ⟨_, does_of_issue he hf (d := resulting f lat (dataTok (Lanes.ofFn fun i => op (a.lanes.get i) (b.lanes.get i)
    ((if o.shape = .c then d else zeroTok).lanes.get i)) h (fmt (s.seen o f) a))) ?_, rfl, rfl, rfl, rfl, fun i hi => ?_⟩
  · rw [hs.readA, hs.readB, hs.header, ← s.seen_result f hl]
    by_cases hc : o.shape = .c
    · simp only [if_pos hc, ok_bind, hs.readD hc]
    · simp only [if_neg hc, ok_bind]
  · rw [dataTok_get _ _ _ hi, Lanes.get_ofFn _ hi, third_lane o d hi]

/-- An instruction of R153 read at the width of MD is its exact function on integers, which the table says in bit vectors. -/
theorem exec_sized {o : Op} {f : Fields} (s : State) (ho : o ∈ sizedOps) (hmd : f.md.toNat ∈ o.mds) :
    exec (o.mk f) s = intOp o f s (fmtW f.md) (sizedLane o f.md) := by
  have hexact : exec (o.mk f) s = intOp o f s (fmtW f.md) (exactLane o f.md) := by
    clear hmd
    simp only [sizedOps, List.mem_cons, List.not_mem_nil, or_false] at ho
    rcases ho with rfl | rfl | rfl | rfl | rfl | rfl | rfl | rfl | rfl | rfl | rfl | rfl | rfl | rfl | rfl | rfl <;> rfl
  exact hexact.trans (intOp_congr (exactLane_eq o f.md ho hmd))

/-- The latencies of R153 are those of R115. -/
theorem opLatency_integer {o : Op} (ho : o ∈ sizedOps ++ bitOps) : opLatency o = some (intLatency o) :=
  (plainTrigger_of_integer ho).latency

/-- Settles O18: lane by lane the table of R153, by `exec_sized`. -/
theorem sizedIntegerResults : Obligations.SizedIntegerResults :=
  fun _ _ s _ _ _ _ ho hmd hf hs =>
    intOp_result (exec_sized s ho hmd) (opLatency_integer (List.mem_append_left _ ho)) hf hs

/-! ### Logic, counting and bit fields -/

section BitLanes

variable (md : BitVec 3) (x y z : Word)

theorem clz_bitLane : w64 (clzNat (intW md) (x.toNat % 2 ^ intW md)) = bitLane .clz md x y z := by
  rw [clz_eq]
  rfl

theorem popc_bitLane : w64 (popcount x (intW md)) = bitLane .popc md x y z := by
  rw [pop_eq]
  rfl

/-- The position and length that B names. -/
theorem fld_position : fld y 5 0 = (y.extractLsb' 0 6).toNat := fld_extract y 5 0 (by decide)

theorem fld_length : fld y 13 8 = (y.extractLsb' 8 6).toNat := fld_extract y 13 8 (by decide)

theorem bfx_bitLane : bfx x (fld y 5 0) (fld y 13 8) (md.getLsbD 1) = bitLane .bfx md x y z := by
  rw [fld_position, fld_length, bfx_lane _ _ _ _ (BitVec.isLt _)]
  rfl

theorem bfi_bitLane : bfi x z (fld y 5 0) (fld y 13 8) = bitLane .bfi md x y z := by
  rw [fld_position, fld_length, bfi_lane _ _ _ _ (BitVec.isLt _)]
  rfl

theorem sext_bitLane : BitVec.ofInt 64 (sextBits x.toNat (fld y 5 0 + 1)) = bitLane .sext md x y z := by
  rw [fld_position, sext_lane _ _ (BitVec.isLt _)]
  rfl

end BitLanes

/-- An instruction of R153 on whole lanes is its line of the table, with its FMT. -/
theorem exec_bits {o : Op} (f : Fields) (s : State) (ho : o ∈ bitOps) :
    exec (o.mk f) s = intOp o f s (fun _ a => intResultFmt o f.md a.fmt) (bitLane o f.md) := by
  simp only [bitOps, List.mem_cons, List.not_mem_nil, or_false] at ho
  rcases ho with rfl | rfl | rfl | rfl | rfl | rfl | rfl | rfl | rfl | rfl
  · rfl
  · rfl
  · rfl
  · rfl
  · rfl
  · have htable := intOp_congr (o := .clz) (f := f) (s := s) (fmt := fmtI64) (clz_bitLane f.md)
    exact htable
  · have htable := intOp_congr (o := .popc) (f := f) (s := s) (fmt := fmtI64) (popc_bitLane f.md)
    exact htable
  · have htable := intOp_congr (o := .bfx) (f := f) (s := s) (fmt := fmtI64) (bfx_bitLane f.md)
    exact htable
  · have htable := intOp_congr (o := .bfi) (f := f) (s := s) (fmt := fmtI64) (bfi_bitLane f.md)
    exact htable
  · have htable := intOp_congr (o := .sext) (f := f) (s := s) (fmt := fmtI64) (sext_bitLane f.md)
    exact htable

theorem intLatency_bits {o : Op} (ho : o ∈ bitOps) : intLatency o = 1 := by
  revert o
  decide

/-- Settles O19: lane by lane the table of R153, by `exec_bits`. -/
theorem bitResults : Obligations.BitResults := fun _ f s _ _ _ _ ho _ hf hs =>
  intOp_result (exec_bits f s ho) (intLatency_bits ho ▸ opLatency_integer (List.mem_append_right _ ho)) hf hs

/-! ### Compares and lane tests (R154, R156, R157) -/

theorem icmpFn_iff (md : BitVec 3) (x y : Word) : icmpFn md.toNat x y = true ↔ compareTable md x y := by
  rcases md_cases md with rfl | rfl | rfl | rfl | rfl | rfl | rfl | rfl
  · exact beq_iff_eq
  · exact bne_iff_ne
  · exact BitVec.slt_iff_toInt_lt
  · exact BitVec.sle_iff_toInt_le
  · exact BitVec.ult_iff_toNat_lt
  · exact BitVec.ule_iff_toNat_le
  · exact bne_iff_ne
  · exact beq_iff_eq

theorem mask_ne_zero_iff {m : BitVec 8} : m ≠ 0 ↔ ∃ i < 8, m.getLsbD i = true := by
  constructor
  · intro h
    by_contra hnone
    refine h (BitVec.eq_of_getLsbD_eq fun i hi => ?_)
    have hclear : ¬m.getLsbD i = true := fun hbit => hnone ⟨i, hi, hbit⟩
    simpa using hclear
  · rintro ⟨i, -, hbit⟩ rfl
    simp at hbit

/-- Some lane is valid and every valid lane passes (R154, R157). -/
theorem everyValid_iff {m : BitVec 8} {q : Nat → Bool} :
    (m != 0 && (List.range 8).all fun i => !m.getLsbD i || q i) = true ↔
      (∃ i < 8, m.getLsbD i = true) ∧ ∀ i < 8, m.getLsbD i = true → q i = true := by
  simp only [Bool.and_eq_true, bne_iff_ne, mask_ne_zero_iff, List.all_eq_true, List.mem_range, Bool.or_eq_true,
    Bool.not_eq_true']
  simp only [← Bool.not_eq_true, ← imp_iff_not_or]

/-- The bit that a predicate takes from an outcome. -/
theorem getLsbD_outcome (v : Bool) : (if v then 1 else 0 : Word).getLsbD 0 = v := by cases v <;> rfl

theorem flagWord_holds {v : Bool} {p : Prop} (h : v = true ↔ p) :
    (p → flagWord v = BitVec.allOnes 64) ∧ (¬p → flagWord v = 0) :=
  ⟨fun hp => if_pos (h.mpr hp), fun hp => if_neg (mt h.mp hp)⟩

theorem icmp_does {f : Fields} {s : State} {a b d : Tok} {h : Hdr} (hf : Fires .icmp f s)
    (hs : Sources (s.seen .icmp f) .int a b d h) :
    Does .icmp f s (cmpDone (s.seen .icmp f) h fun i => icmpFn f.md.toNat (a.lanes.get i) (b.lanes.get i)) := by
  refine does_of_issue (show exec (.icmp f) s = execIcmp f s from rfl) hf ?_
  rw [hs.readA, hs.readB, hs.header]
  rfl

/-- What a compare leaves in a data D and in a predicate. -/
theorem cmpDone_result {o : Op} {f : Fields} {s : State} {h : Hdr} {hold : Nat → Bool} (hl : opLatency o = some 1)
    (hdoes : Does o f s (cmpDone (s.seen o f) h hold)) :
    ∃ r, Does o f s (resulting f 1 r) ∧ r.psn = h.psn ∧ r.gen = h.gen ∧
      (f.d.isPred = false → r.mask = h.mask ∧ r.fmt = 1 ∧
        ∀ i < 8, h.mask.getLsbD i = true → r.lanes.get i = flagWord (hold i)) ∧
      (f.d.isPred = true → (r.lanes.l0.getLsbD 0 = true ↔
        (∃ i < 8, h.mask.getLsbD i = true) ∧ ∀ i < 8, h.mask.getLsbD i = true → hold i = true)) := by
  have hd : (s.seen o f).f.d = f.d := rfl
  cases hpred : f.d.isPred with
  | true =>
    rw [cmpDone, hd, hpred, if_pos rfl, s.seen_result f hl, predRes_eq] at hdoes
    refine ⟨_, hdoes, rfl, rfl, nofun, fun _ => ?_⟩
    exact (Bool.eq_iff_iff.mp (getLsbD_outcome _)).trans everyValid_iff
  | false =>
    rw [cmpDone, hd, hpred, if_neg Bool.false_ne_true, s.seen_result f hl] at hdoes
    refine ⟨_, hdoes, rfl, rfl, fun _ => ⟨rfl, rfl, fun i hi hv => ?_⟩, nofun⟩
    rw [dataTok_get _ _ _ hi, if_pos hv, Lanes.get_ofFn _ hi]

/-- The low 32 bits of lane 0, as the address instructions read them (R155). -/
theorem fld_address (a : Word) : fld a 31 0 = (a.setWidth 32).toNat := by
  rw [fld_low, BitVec.toNat_setWidth]

theorem cmpaFn_iff {md : BitVec 3} (h : md.toNat < 4) (x y : BitVec 32) :
    cmpaFn md.toNat x.toNat y.toNat = true ↔ addressTable md x y := by
  rcases md_cases md with rfl | rfl | rfl | rfl | rfl | rfl | rfl | rfl
  · exact decide_eq_true_iff.trans BitVec.toNat_inj
  · exact decide_eq_true_iff.trans (not_congr BitVec.toNat_inj)
  · exact decide_eq_true_iff
  · exact decide_eq_true_iff
  all_goals exact absurd h (by decide)

theorem intA_of_convA {c : Ctx} {a : Tok} (h : c.convA .int = .ok a) : c.intA = .ok a.lanes.l0 := by
  rw [Ctx.intA, h]
  rfl

theorem intB_of_convB {c : Ctx} {b : Tok} (h : c.convB .int = .ok b) : c.intB = .ok b.lanes.l0 := by
  rw [Ctx.intB, h]
  rfl

theorem cmpa_does {f : Fields} {s : State} {a b d : Tok} {h : Hdr} (hf : Fires .cmpa f s)
    (hs : Sources (s.seen .cmpa f) .int a b d h) :
    let v := cmpaFn f.md.toNat (a.lanes.l0.setWidth 32).toNat (b.lanes.l0.setWidth 32).toNat
    Does .cmpa f s (resulting f 1 (oneTok (if f.d.isPred then if v then 1 else 0 else flagWord v) h)) := by
  refine does_of_issue (show exec (.cmpa f) s = execCmpa f s from rfl) hf ?_
  rw [intA_of_convA hs.readA, intB_of_convB hs.readB, hs.header]
  simp only [ok_bind, fld_address, predRes_eq, scalarRes_eq, ← apply_ite (oneTok · h), s.seen_result f (o := .cmpa) rfl]

/-- Some valid lane passes (R157). -/
theorem someValid_iff {m : BitVec 8} {q : Nat → Bool} :
    ((List.range 8).any fun i => m.getLsbD i && q i) = true ↔ ∃ i < 8, m.getLsbD i = true ∧ q i = true := by
  simp only [List.any_eq_true, List.mem_range, Bool.and_eq_true]

theorem laneRead_ne_zero {t : Tok} {i : Nat} : laneRead t i ≠ 0 ↔ t.mask.getLsbD i = true ∧ t.lanes.get i ≠ 0 := by
  unfold laneRead
  split
  case isTrue h => simp [h]
  case isFalse h => simp [h]

theorem laneRead_getLsbD {t : Tok} {i n : Nat} :
    (laneRead t i).getLsbD n = true ↔ t.mask.getLsbD i = true ∧ (t.lanes.get i).getLsbD n = true := by
  unfold laneRead
  split
  case isTrue h => simp [h]
  case isFalse h => simp [h]

theorem planeFn_iff {md : BitVec 3} (h : md.toNat < 4) (a : Tok) (b : Word) :
    planeFn md.toNat a b = true ↔ laneTest md a b := by
  have hlane : ∀ i < 8, ((maskLanes a).get i != 0) = true ↔ a.mask.getLsbD i = true ∧ a.lanes.get i ≠ 0 := by
    intro i hi
    rw [maskLanes_get _ hi, bne_iff_ne, laneRead_ne_zero]
  rcases md_cases md with rfl | rfl | rfl | rfl | rfl | rfl | rfl | rfl
  · have hnum : fld b 2 0 = b.toNat % 8 := fld_low b 2
    show ((maskLanes a).get (fld b 2 0) != 0) = true ↔ _
    rw [hnum, hlane _ (Nat.mod_lt _ (by decide))]
    rfl
  · have hnum : fld b 5 0 = b.toNat % 64 := fld_low b 5
    show (maskLanes a).l0.getLsbD (fld b 5 0) = true ↔ _
    rw [hnum, maskLanes_l0, laneRead_getLsbD]
    rfl
  · show ((List.range 8).any fun i => a.mask.getLsbD i && (maskLanes a).get i != 0) = true ↔
      ∃ i < 8, a.mask.getLsbD i = true ∧ a.lanes.get i ≠ 0
    refine someValid_iff.trans (exists_congr fun i => and_congr_right fun hi => ?_)
    rw [hlane i hi, and_self_left]
  · refine everyValid_iff.trans (and_congr_right fun _ => forall₃_congr fun i hi hv => ?_)
    rw [hlane i hi]
    exact and_iff_right hv
  all_goals exact absurd h (by decide)

theorem plane_does {f : Fields} {s : State} {b : Tok} {h : Hdr} (hf : Fires .plane f s)
    (hb : (s.seen .plane f).convB .int = .ok b) (hh : (s.seen .plane f).header = .ok h) :
    let v := planeFn f.md.toNat (s.seen .plane f).a b.lanes.l0
    Does .plane f s (resulting f 1 (oneTok (if v then 1 else 0) h)) := by
  refine does_of_issue (show exec (.plane f) s = execPlane f s from rfl) hf ?_
  rw [intB_of_convB hb, hh, ← predRes_eq, ← s.seen_result f (o := .plane) rfl]
  rfl

/-- Settles O20: each condition is its line of the table, and the outcome is taken as D says. -/
theorem compares : Obligations.Compares := by
  refine fun f s a b h => ⟨fun d hf hs => ?_, fun d hmd hf hs => ?_, fun hmd hf hb hh =>
    ⟨_, plane_does hf hb hh, (Bool.eq_iff_iff.mp (getLsbD_outcome _)).trans (planeFn_iff hmd _ _)⟩⟩
  · have htest := fun i => icmpFn_iff f.md (a.lanes.get i) (b.lanes.get i)
    obtain ⟨r, hdoes, hpsn, hgen, hdata, hpred⟩ := cmpDone_result rfl (icmp_does hf hs)
    refine ⟨r, hdoes, hpsn, hgen, fun hd => ?_, fun hd => (hpred hd).trans ?_⟩
    · obtain ⟨hmask, hfmt, hlanes⟩ := hdata hd
      refine ⟨hmask, hfmt, fun i hi hv => ?_⟩
      rw [hlanes i hi hv]
      exact flagWord_holds (htest i)
    · exact and_congr_right fun _ => forall₃_congr fun i _ _ => htest i
  · have htest := cmpaFn_iff hmd (a.lanes.l0.setWidth 32) (b.lanes.l0.setWidth 32)
    refine ⟨_, cmpa_does hf hs, fun hd => ?_, fun hd => ?_⟩
    · rw [if_pos hd]
      exact (Bool.eq_iff_iff.mp (getLsbD_outcome _)).trans htest
    · rw [if_neg (by simp [hd])]
      exact flagWord_holds htest

/-! ### Address registers (R155) -/

/-- An address instruction leaves aD the low 32 bits of its function of the old aD and the operands. -/
theorem addrOp_does {o : Op} {f : Fields} {s : State} {op : Nat → Nat → Nat → Nat} {a b : Word} {h : Hdr}
    (he : exec (o.mk f) s = addrOp o f s op) (hl : opLatency o = some 1) (hf : Fires o f s)
    (ha : (s.seen o f).intA = .ok a) (hb : (s.seen o f).intB = .ok b) (hh : (s.seen o f).header = .ok h) :
    Does o f s (resulting f 1 (oneTok ((BitVec.ofNat 32 (op (s.seen o f).oldA (a.setWidth 32).toNat
      (b.setWidth 32).toNat)).setWidth 64) h)) := by
  have hword : ∀ n, w64 (n % 2 ^ 32) = (BitVec.ofNat 32 n).setWidth 64 := fun n => by
    rw [w64, ← BitVec.toNat_ofNat, BitVec.ofNat_toNat]
  refine does_of_issue he hf ?_
  rw [ha, hb, hh]
  simp only [ok_bind, fld_address, hword, scalarRes_eq, s.seen_result f hl]

/-- Settles O21: the functions of `addrOp` in 32 bits, the old aD read where D names it. -/
theorem addressRegisters : Obligations.AddressRegisters := by
  intro f s h a b n hd old x y
  refine ⟨fun hf ha hb hh => ?_, fun hf ha hb hh => ?_, fun hf ha hb hh => ?_⟩
  · have hmova := addrOp_does (o := .mova) (op := fun _ a _ => a) rfl rfl hf ha hb hh
    rwa [BitVec.ofNat_toNat, BitVec.setWidth_eq] at hmova
  · have hadda := addrOp_does (o := .adda) (op := fun _ a b => a + b) rfl rfl hf ha hb hh
    rwa [BitVec.ofNat_add, BitVec.ofNat_toNat, BitVec.ofNat_toNat, BitVec.setWidth_eq, BitVec.setWidth_eq] at hadda
  · have hold : (s.seen .wrapa f).oldA = old.toNat := by
      have hdst : (s.seen .wrapa f).f.d = .areg n := hd
      rw [Ctx.oldA, hdst]
      rfl
    have hstep : wrapStep old.toNat x.toNat y.toNat =
        if y ≠ 0 ∧ y.toNat ≤ old.toNat + x.toNat then old.toNat + x.toNat - y.toNat else old.toNat + x.toNat := by
      have hzero : y.toNat ≠ 0 ↔ y ≠ 0 := not_congr (BitVec.toNat_inj (y := 0))
      simp only [wrapStep, Bool.and_eq_true, bne_iff_ne, decide_eq_true_eq, hzero]
    have hwrapa := addrOp_does (o := .wrapa) (op := wrapStep) rfl rfl hf ha hb hh
    rwa [hold, hstep] at hwrapa

end Sys2Proof.Machine

/-! ## WF arithmetic on exact dyadic values (R158 to R161, R213 to R218) -/

namespace Sys2Proof.Machine

open Sys2Proof

/-! ### Logarithms of a scaled number -/

theorem log_two_mul_zpow {q : ℚ} (hq : 0 < q) (z : ℤ) : Int.log 2 (q * (2 : ℚ) ^ z) = Int.log 2 q + z := by
  have hlog : ∀ {c : ℤ} {r : ℚ}, 0 < r → ((2 : ℚ) ^ c ≤ r ↔ c ≤ Int.log 2 r) := fun hr => by
    rw [← Int.zpow_le_iff_le_log one_lt_two hr, Nat.cast_ofNat]
  refine eq_of_forall_le_iff fun c => ?_
  rw [← hlog (by positivity), ← sub_le_iff_le_add, ← hlog hq, zpow_sub₀ two_ne_zero, div_le_iff₀ (by positivity)]

theorem clog_two_mul_zpow {q : ℚ} (hq : 0 < q) (z : ℤ) : Int.clog 2 (q * (2 : ℚ) ^ z) = Int.clog 2 q + z := by
  rw [← Int.neg_log_inv_eq_clog, mul_inv, ← zpow_neg, log_two_mul_zpow (inv_pos.mpr hq), neg_add, neg_neg,
    Int.neg_log_inv_eq_clog]

theorem clog_two_eq_log2_pred {n : ℕ} (hn : 1 < n) : Nat.clog 2 n = Nat.log2 (n - 1) + 1 := by
  refine eq_of_forall_lt_iff fun x => ?_
  calc x < Nat.clog 2 n
    _ ↔ 2 ^ x < n := Nat.lt_clog_iff_pow_lt one_lt_two
    _ ↔ 2 ^ x ≤ n - 1 := Nat.lt_iff_le_pred (by omega)
    _ ↔ x ≤ Nat.log2 (n - 1) := (Nat.le_log2 (by omega)).symm
    _ ↔ x < Nat.log2 (n - 1) + 1 := Nat.lt_succ_iff.symm

/-! ### Dyadic values -/

theorem dyadic_eq_zero {m e : ℤ} : (m : ℚ) * (2 : ℚ) ^ e = 0 ↔ m = 0 := by
  rw [mul_eq_zero_iff_right (zpow_ne_zero e two_ne_zero), Int.cast_eq_zero]

theorem dyadic_pos {m e : ℤ} : 0 < (m : ℚ) * (2 : ℚ) ^ e ↔ 0 < m := by
  rw [mul_pos_iff_of_pos_right (by positivity), Int.cast_pos]

/-- The magnitude of a dyadic value is its natural multiple of the power of two. -/
theorem abs_dyadic (m e : ℤ) : |(m : ℚ) * (2 : ℚ) ^ e| = (m.natAbs : ℚ) * (2 : ℚ) ^ e := by
  rw [abs_mul, abs_of_pos (a := (2 : ℚ) ^ e) (by positivity), Nat.cast_natAbs, Int.cast_abs]

theorem ilog2_eq_log {m : ℤ} (hm : m ≠ 0) (e : ℤ) : ilog2 m e = Int.log 2 |(m : ℚ) * (2 : ℚ) ^ e| := by
  rw [abs_dyadic, log_two_mul_zpow (by exact_mod_cast Int.natAbs_pos.mpr hm) e, Int.log_natCast,
    ← Nat.log2_eq_log_two]
  rfl

/-- The exponent that R161 gives a negative value: log2 of the magnitude, rounded up, less one. -/
theorem clog_abs_dyadic {m : ℤ} (hm : m ≠ 0) (e : ℤ) :
    Int.clog 2 |(m : ℚ) * (2 : ℚ) ^ e| - 1 =
      if m.natAbs = 1 then e - 1 else (Nat.log2 (m.natAbs - 1) : ℤ) + e := by
  rw [abs_dyadic, clog_two_mul_zpow (by exact_mod_cast Int.natAbs_pos.mpr hm) e, Int.clog_natCast]
  split
  case isTrue hone => rw [hone, Nat.clog_one_right]; omega
  case isFalse hone => rw [clog_two_eq_log2_pred (by omega)]; omega

/-! ### The integer rounding of R161 -/

theorem roundInt_intCast (rm : ℕ) (n : ℤ) : roundInt rm n = n := by
  match rm with
  | 0 => simp [roundInt]
  | 1 => simp [roundInt]
  | 2 => simp [roundInt]
  | _ + 3 => simp [roundInt]

/-- A quotient of integers is its floor and the fraction that the remainder leaves. -/
theorem intCast_div_eq (m : ℤ) {d : ℤ} (hd : 0 < d) : (m : ℚ) / d = (m / d : ℤ) + (m % d : ℤ) / d := by
  have hne : (d : ℚ) ≠ 0 := by exact_mod_cast hd.ne'
  rw [← mul_div_cancel_right₀ ((m / d : ℤ) : ℚ) hne, ← add_div, ← Int.cast_mul, ← Int.cast_add, Int.ediv_mul_add_emod]

theorem floor_intCast_div (m : ℤ) {d : ℤ} (hd : 0 < d) : ⌊(m : ℚ) / d⌋ = m / d := by
  rw [Int.floor_div_cast_of_nonneg hd.le, Int.floor_intCast]

theorem ceil_intCast_div (m : ℤ) {d : ℤ} (hd : 0 < d) : ⌈(m : ℚ) / d⌉ = if m % d = 0 then m / d else m / d + 1 := by
  have hdq : (0 : ℚ) < d := by exact_mod_cast hd
  rw [intCast_div_eq m hd]
  split
  case isTrue hr => rw [hr, Int.cast_zero, zero_div, add_zero, Int.ceil_intCast]
  case isFalse hr =>
    have hlo : (0 : ℚ) < (m % d : ℤ) / d :=
      div_pos (by exact_mod_cast lt_of_le_of_ne (Int.emod_nonneg m hd.ne') (Ne.symm hr)) hdq
    have hhi : ((m % d : ℤ) : ℚ) / d ≤ 1 := (div_le_one hdq).mpr (by exact_mod_cast (Int.emod_lt_of_pos m hd).le)
    have hone : ⌈((m % d : ℤ) : ℚ) / d⌉ = 1 := Int.ceil_eq_iff.mpr ⟨by simpa using hlo, by simpa using hhi⟩
    rw [Int.ceil_intCast_add, hone]

theorem rndDiv_eq_roundInt (m : ℤ) (k rm : ℕ) : rndDiv m k rm = roundInt rm ((m : ℚ) / ((2 ^ k : ℤ) : ℚ)) := by
  have hd : (0 : ℤ) < 2 ^ k := by positivity
  have hdq : (0 : ℚ) < ((2 ^ k : ℤ) : ℚ) := by exact_mod_cast hd
  match rm with
  | 0 =>
    have hfrac : (m : ℚ) / ((2 ^ k : ℤ) : ℚ) - (m / 2 ^ k : ℤ) = (m % 2 ^ k : ℤ) / ((2 ^ k : ℤ) : ℚ) :=
      sub_eq_iff_eq_add'.mpr (intCast_div_eq m hd)
    have hbelow : (m % 2 ^ k : ℤ) / ((2 ^ k : ℤ) : ℚ) < 1 / 2 ↔ 2 * (m % 2 ^ k) < 2 ^ k := by
      rw [div_lt_div_iff₀ hdq two_pos, one_mul, mul_comm]
      norm_cast
    have habove : 1 / 2 < (m % 2 ^ k : ℤ) / ((2 ^ k : ℤ) : ℚ) ↔ 2 ^ k < 2 * (m % 2 ^ k) := by
      rw [div_lt_div_iff₀ two_pos hdq, one_mul, mul_comm]
      norm_cast
    simp only [rndDiv, roundInt, floor_intCast_div m hd, hfrac, hbelow, habove]
  | 1 =>
    have hneg : (m : ℚ) / ((2 ^ k : ℤ) : ℚ) < 0 ↔ m < 0 := by rw [div_lt_iff₀ hdq, zero_mul, Int.cast_lt_zero]
    simp only [rndDiv, roundInt, floor_intCast_div m hd, ceil_intCast_div m hd, hneg]
    by_cases hm : m < 0
    · simp [hm]
    · simp [hm]
  | 2 => exact (floor_intCast_div m hd).symm
  | _ + 3 => exact (ceil_intCast_div m hd).symm

theorem rndInt_eq_roundInt (m e : ℤ) (rm : ℕ) : rndInt m e rm = roundInt rm ((m : ℚ) * (2 : ℚ) ^ e) := by
  unfold rndInt
  split
  case isTrue he =>
    lift e to ℕ using he
    rw [zpow_natCast, Int.toNat_natCast]
    exact_mod_cast (roundInt_intCast rm (m * 2 ^ e)).symm
  case isFalse he =>
    obtain ⟨k, rfl⟩ := Int.exists_eq_neg_ofNat (by omega : e ≤ 0)
    rw [neg_neg, Int.toNat_natCast, rndDiv_eq_roundInt, zpow_neg, zpow_natCast, ← div_eq_mul_inv, Int.cast_pow,
      Int.cast_ofNat]

/-! ### round_wf -/

/-- The exponent that `roundWf` computes from the integers is that of R161. -/
theorem exponent_eq_log {m : ℤ} (hm : m ≠ 0) (e : ℤ) :
    (if 0 < m then ilog2 m e else if m = -1 then e - 1 else (Nat.log2 (m.natAbs - 1) : ℤ) + e) =
      if 0 < (m : ℚ) * (2 : ℚ) ^ e then Int.log 2 ((m : ℚ) * (2 : ℚ) ^ e)
      else Int.clog 2 (-((m : ℚ) * (2 : ℚ) ^ e)) - 1 := by
  by_cases hpos : 0 < m
  · rw [if_pos hpos, if_pos (dyadic_pos.mpr hpos), ilog2_eq_log hm, abs_of_pos (dyadic_pos.mpr hpos)]
  · have hq : ¬0 < (m : ℚ) * (2 : ℚ) ^ e := mt dyadic_pos.mp hpos
    have hone : m = -1 ↔ m.natAbs = 1 := by omega
    rw [if_neg hpos, if_neg hq, ← abs_of_nonpos (not_lt.mp hq), clog_abs_dyadic hm]
    simp only [hone]

/-- The significand that `roundWf` rounds is the value over the power of two of R161. -/
theorem rndInt_significand (m e x : ℤ) (rm : ℕ) :
    rndInt m (e - x + 48) rm = roundInt rm ((m : ℚ) * (2 : ℚ) ^ e / (2 : ℚ) ^ (x - 48)) := by
  rw [rndInt_eq_roundInt, mul_div_assoc, ← zpow_sub₀ two_ne_zero, sub_sub_eq_add_sub, sub_add_eq_add_sub]

/-- Settles O22: `exponent_eq_log` and `rndInt_significand` give the exponent and the significand; carry, overflow and flush
are then the same text of R161 on both sides. -/
theorem roundingIsExact : Obligations.RoundingIsExact := by
  intro m e rm _
  unfold roundWf roundQ
  by_cases hm : m = 0
  · rw [if_pos hm, if_pos (dyadic_eq_zero.mpr hm)]
  · rw [if_neg hm, if_neg (mt dyadic_eq_zero.mp hm)]
    simp only [exponent_eq_log hm, rndInt_significand, dyadic_pos]
    rfl

end Sys2Proof.Machine

/-! ## Address generation (R180, R181, R183, R185, R187, R188) -/

namespace Sys2Proof.Machine

open Sys2Proof

/-! ### Firings of a stream -/

theorem issueStream_ok {o : Op} {f : Fields} {s : State} {body : Ctx → Except Flt Done} {d : Done} (hf : Fires o f s)
    (hb : body (s.seen o f) = .ok d) : issueStream o f s body = .next (s.commit (s.seen o f) d) := by
  unfold issueStream
  rw [if_pos hf]
  simp only [hb]

/-- The faults that leave a stream faulted too (R180). -/
theorem issueStream_faulted {o : Op} {f : Fields} {s : State} {body : Ctx → Except Flt Done} {e : Flt} (hf : Fires o f s)
    (hb : body (s.seen o f) = .error e) (he : e.code ∈ [0x42, 0x44, 0x46, 0x86]) :
    issueStream o f s body = .next (((s.markActive s.focus.tile).raiseFlt (s.seen o f) e).modStream s.focus.tile
      (f.md.toNat % 4) fun y => { y with st := .faulted }) := by
  unfold issueStream
  rw [if_pos hf]
  simp only [hb, List.contains_iff_mem.mpr he, if_true]
  rfl

theorem does_of_issueStream {o : Op} {f : Fields} {s : State} {body : Ctx → Except Flt Done} {d : Done}
    (he : exec (o.mk f) s = issueStream o f s body) (hf : Fires o f s) (hb : body (s.seen o f) = .ok d) : Does o f s d :=
  he.trans (issueStream_ok hf hb)

/-- Where a trigger reads an operand, it reads what the firing then reads. -/
theorem Ctx.peekInt_b {c : Ctx} {b : Word} (h : c.intB = .ok b) : c.x.peekInt c.f.b = b := by
  unfold Ctx.intB Ctx.convB Ctx.conv Ctx.b at h
  unfold PoolSt.peekInt
  split at h
  next => exact Except.ok.inj h
  next => cases h

/-! ### What a firing leaves of the AG pool -/

section AgPool

variable (x : PoolSt) (c : Ctx) (d : Done)

theorem PoolSt.fire_streams : (x.fire c d).streams = x.streams := by
  have h := congrArg PoolSt.streams (x.fire_rest c d)
  exact h

theorem PoolSt.fire_agq : (x.fire c d).agq = x.agq := by
  have h := congrArg PoolSt.agq (x.fire_rest c d)
  exact h

theorem PoolSt.fire_ctrs : (x.fire c d).ctrs = x.ctrs := by
  have h := congrArg PoolSt.ctrs (x.fire_rest c d)
  exact h

end AgPool

/-- Memory and every other tile stand as they did. -/
def WorksInTile (k : Nat) (s t : State) : Prop := t.mem = s.mem ∧ ∀ j, j ≠ k → t.tile j = s.tile j

/-- A firing that consumes by its operand fields and changes the AG pool. -/
def inAg (f : Fields) (g : PoolSt → PoolSt) : Done := { consumed f with tile := fun t => t.modPool .ag g }

/-- A stream of a pool changed. -/
def PoolSt.modStream (x : PoolSt) (n : Nat) (g : Stream → Stream) : PoolSt := { x with streams := x.streams.modify n g }

/-- What a firing of the AG pool that works in that pool alone leaves of the tile, and what it makes of the pool. -/
theorem State.commit_ag {s : State} {o : Op} {f : Fields} {d : Done} {g : PoolSt → PoolSt} (hp : s.focus.pool = .ag)
    (ht : d.tile = fun t => t.modPool .ag g) (he : d.eff = id) (ha : d.after = none) :
    WorksInTile s.focus.tile s (s.commit (s.seen o f) d) ∧
      ((s.commit (s.seen o f) d).tile s.focus.tile).ag = g ((s.tile s.focus.tile).ag.fire (s.seen o f) d) := by
  refine ⟨⟨s.commit_mem _ _ he ha, fun j hj => s.commit_tile_ne (s.seen o f) d he ha hj⟩, ?_⟩
  have htile := s.commit_tile (s.seen o f) d he ha
  rw [ht] at htile
  refine (congrArg Tile.ag htile).trans ?_
  have hpool : (s.seen o f).p = .ag := hp
  rw [hpool]
  rfl

theorem State.commit_inAg {s : State} (o : Op) (f : Fields) (hp : s.focus.pool = .ag) (g : PoolSt → PoolSt) :
    WorksInTile s.focus.tile s (s.commit (s.seen o f) (inAg f g)) ∧
      ((s.commit (s.seen o f) (inAg f g)).tile s.focus.tile).ag =
        g ((s.tile s.focus.tile).ag.fire (s.seen o f) (inAg f g)) :=
  State.commit_ag hp rfl rfl rfl

/-- An entry of a list changed is the entry written with what the change makes of it. -/
theorem modify_eq_set_getD {α : Type} (l : List α) (n : Nat) (g : α → α) (d : α) :
    l.modify n g = l.set n (g (l.getD n d)) := by
  induction l generalizing n with
  | nil => simp
  | cons a rest ih =>
    cases n with
    | zero => rfl
    | succ n => simpa using ih n

theorem PoolSt.streams_modStream (x : PoolSt) (n : Nat) (g : Stream → Stream) :
    (x.modStream n g).streams = x.streams.set n (g (x.stream n)) :=
  modify_eq_set_getD _ _ _ Stream.reset

/-- The stream that an AG instruction names. -/
def State.namedStream (s : State) (f : Fields) : Stream := (s.tile s.focus.tile).ag.stream (f.md.toNat % 4)

theorem State.x_seen (s : State) (hp : s.focus.pool = .ag) {o : Op} {f : Fields} :
    (s.seen o f).x = (s.tile s.focus.tile).ag := by
  rw [Ctx.x, show (s.seen o f).p = .ag from hp]
  rfl

theorem State.strm_seen {s : State} (hp : s.focus.pool = .ag) (o : Op) (f : Fields) :
    (s.seen o f).strm = s.namedStream f := by
  rw [Ctx.strm, s.x_seen hp]
  rfl

/-! ### AGSET and the words that its stream leaves -/

/-- A tile after words of its have been completed: its arrival counters have counted, and its bank may hold completions. -/
def Tile.counting (t : Tile) (cs : List ArrCtr) (hs : List HeldWrite) : Tile :=
  { t with ag := { t.ag with ctrs := cs }, eng := { t.eng with heldWrites := hs } }

/-- What completing words leaves: bytes, poison and all of a tile but its arrival counters and held accesses. -/
structure WordsNoted (s t : State) : Prop where
  cells : t.mem.cells = s.mem.cells
  poison : t.mem.poison = s.mem.poison
  wf : s.mem.wf = true → t.mem.wf = true
  tile : ∀ j, ∃ cs hs, t.tile j = (s.tile j).counting cs hs

namespace WordsNoted

theorem refl (s : State) : WordsNoted s s := ⟨rfl, rfl, id, fun _ => ⟨_, _, rfl⟩⟩

theorem trans {s t u : State} (h : WordsNoted s t) (h' : WordsNoted t u) : WordsNoted s u where
  cells := h'.cells.trans h.cells
  poison := h'.poison.trans h.poison
  wf := fun hs => h'.wf (h.wf hs)
  tile := fun j => by
    obtain ⟨cs, hs, hj⟩ := h.tile j
    obtain ⟨cs', hs', hj'⟩ := h'.tile j
    exact ⟨cs', hs', by rw [hj', hj]; rfl⟩

theorem foldl {α : Type} {g : State → α → State} (h : ∀ s x, WordsNoted s (g s x)) (xs : List α) (s : State) :
    WordsNoted s (xs.foldl g s) := by
  induction xs generalizing s with
  | nil => exact .refl s
  | cons x rest ih => exact (h s x).trans (ih _)

/-- A tile written over by one that has counted. -/
theorem setTile (s : State) (k : Nat) (cs : List ArrCtr) (hs : List HeldWrite) :
    WordsNoted s (s.setTile k ((s.tile k).counting cs hs)) where
  cells := rfl
  poison := rfl
  wf := id
  tile := fun j => by
    by_cases hj : j = k
    · subst hj
      exact ⟨cs, hs, s.tile_setTile j _⟩
    · exact ⟨_, _, s.tile_setTile_ne _ hj⟩

theorem queueHeld (s : State) (w : Nat) (who : HeldBy) (op : HeldOp) : WordsNoted s (s.queueHeld w who op) := by
  unfold State.queueHeld
  split
  · exact setTile s _ _ _
  · exact .refl s

theorem putFull (s : State) (w : Nat) (full : Bool) : WordsNoted s (s.putFull w full) :=
  ⟨rfl, rfl, Mem.setFull_wf w full, fun _ => ⟨_, _, rfl⟩⟩

theorem countTag (s : State) (core ntile ctag : Nat) : WordsNoted s (s.countTag core ntile ctag) := by
  unfold State.countTag
  split
  · exact .refl s
  · exact setTile s _ _ _

theorem wordDone (s : State) (who : HeldBy) (core : Nat) (b : Lanes) (w : Nat) : WordsNoted s (s.wordDone who core b w) := by
  unfold State.wordDone
  split
  · split
    · exact queueHeld s _ _ _
    · exact (putFull s _ true).trans (countTag _ _ _ _)
  · exact countTag s _ _ _

theorem byte {s t : State} (h : WordsNoted s t) (a : Nat) : t.mem.byte a = s.mem.byte a := by
  unfold Mem.byte
  rw [h.cells]

theorem word {s t : State} (h : WordsNoted s t) (w : Nat) : t.mem.word w = s.mem.word w := by
  unfold Mem.word
  simp only [h.byte]

theorem isPsn {s t : State} (h : WordsNoted s t) (w : Nat) : t.mem.isPsn w = s.mem.isPsn w := by
  unfold Mem.isPsn
  rw [h.poison]

theorem streams {s t : State} (h : WordsNoted s t) (j : Nat) : (t.tile j).ag.streams = (s.tile j).ag.streams := by
  obtain ⟨cs, hs, hj⟩ := h.tile j
  rw [hj]
  rfl

end WordsNoted

section Fires

variable {f : Fields} {s : State} {h : Hdr} {a b l : Word}

/-- The stream that AGSET sets (R181). -/
def State.streamSet (s : State) (f : Fields) (b : Word) : Stream :=
  { Stream.reset with
    st := .set
    blk := maskLanes (s.seen .agset f).a
    ts := fld b 47 0
    gen := (s.seen .agset f).b.gen
    unit := s.unitOfTs s.focus.tile (fld b 47 0) }

/-- The words of the old stream that AGSET completes (R186). -/
def State.completeDirty (s : State) (f : Fields) (t : State) : State :=
  (s.namedStream f).dirty.foldl (fun t rw => t.wordDone (.stream s.focus.tile (f.md.toNat % 4) (s.namedStream f).gen)
    (tileCore s.focus.tile) (s.namedStream f).blk rw.2) t

theorem agset_next (hp : s.focus.pool = .ag) (hf : Fires .agset f s) (hh : (s.seen .agset f).header = .ok h)
    (hb : (s.seen .agset f).intB = .ok b) (hc : checkStream (maskLanes (s.seen .agset f).a) = none) :
    exec (.agset f) s = .next (s.completeDirty f (s.commit (s.seen .agset f)
      (inAg f fun x => x.modStream (f.md.toNat % 4) fun _ => s.streamSet f b))) := by
  have hdoes : Does .agset f s { inAg f fun x => x.modStream (f.md.toNat % 4) fun _ => s.streamSet f b with
      eff := s.completeDirty f } := by
    refine does_of_issueStream (show exec (.agset f) s = execAgset f s from rfl) hf ?_
    simp only [hb, hh, ok_bind, hc, State.strm_seen hp]
    rfl
  exact hdoes.trans (congrArg _ (s.commit_eff _ _ rfl))

theorem agset_refused (hp : s.focus.pool = .ag) (hf : Fires .agset f s) (hh : (s.seen .agset f).header = .ok h)
    (hb : (s.seen .agset f).intB = .ok b) {i : Nat} (hc : checkStream (maskLanes (s.seen .agset f).a) = some i) :
    exec (.agset f) s = .next (((s.markActive s.focus.tile).raise s.focus.tile .ag s.focus.slot 0x44 h.gen
      (BitVec.ofNat 64 i) 0 (bUser (maskLanes (s.seen .agset f).a))).modStream s.focus.tile (f.md.toNat % 4) fun y =>
        { y with st := .faulted }) := by
  have hflt : (s.seen .agset f).paramFormat i (bUser (maskLanes (s.seen .agset f).a)) =
      ⟨0x44, s.focus.slot, h.gen, BitVec.ofNat 64 i, 0, bUser (maskLanes (s.seen .agset f).a)⟩ := by
    rw [Ctx.paramFormat, Ctx.flt, Ctx.gen_of_header hh]
    rfl
  refine (show exec (.agset f) s = execAgset f s from rfl).trans ((issueStream_faulted hf
    (e := ⟨0x44, s.focus.slot, h.gen, BitVec.ofNat 64 i, 0, bUser (maskLanes (s.seen .agset f).a)⟩) ?_ (by simp)).trans ?_)
  · rw [← hflt]
    simp only [hb, hh, ok_bind, hc]
  · have hpool : (s.seen .agset f).p = .ag := hp
    rw [State.raiseFlt, hpool]
    rfl


/-- A stream set with a new block completes the words of the old one, and is otherwise the pool's work (R181, R186). -/
theorem agset_sets (hp : s.focus.pool = .ag) (hf : Fires .agset f s) (hh : (s.seen .agset f).header = .ok h)
    (hb : (s.seen .agset f).intB = .ok b) (hc : checkStream (maskLanes (s.seen .agset f).a) = none) :
    ∃ t, exec (.agset f) s = .next t ∧ (t.tile s.focus.tile).ag.streams =
        (s.tile s.focus.tile).ag.streams.set (f.md.toNat % 4) (s.streamSet f b) ∧
      (∀ y, t.mem.byte y = s.mem.byte y) ∧ ((s.namedStream f).dirty = [] → WorksInTile s.focus.tile s t) := by
  have hnoted : ∀ t, WordsNoted t (s.completeDirty f t) := fun t =>
    .foldl (fun t (rw : Nat × Nat) => .wordDone t _ _ _ rw.2) _ t
  obtain ⟨hwork, hag⟩ := State.commit_inAg .agset f hp fun x =>
    x.modStream (f.md.toNat % 4) fun _ => s.streamSet f b
  refine ⟨_, agset_next hp hf hh hb hc, ?_, fun y => ?_, fun hd => ?_⟩
  · rw [(hnoted _).streams, hag, PoolSt.streams_modStream, PoolSt.fire_streams]
  · rw [(hnoted _).byte, hwork.1]
  · rw [State.completeDirty, hd]
    exact hwork

/-! ### AGRD and AGCH -/

/-- An output of a pool given to an owner. -/
def PoolSt.own (x : PoolSt) (n : Nat) (w : Owner) : PoolSt :=
  { x with outs := x.outs.modify n fun y => { y with owner := some w } }

theorem PoolSt.streams_own (x : PoolSt) (n : Nat) (w : Owner) : (x.own n w).streams = x.streams := rfl

/-- A stream started on an output runs, and owns the output (R180). -/
theorem starts_of_does {o : Op} {g : Stream → Stream} {c : Fin 4} (hp : s.focus.pool = .ag) (hd : f.d = .out c)
    (hdoes : Does o f s ((s.seen o f).startStream g)) :
    ∃ t, exec (o.mk f) s = .next t ∧ WorksInTile s.focus.tile s t ∧
      (t.tile s.focus.tile).ag.streams = (s.tile s.focus.tile).ag.streams.set (f.md.toNat % 4)
        (g { s.namedStream f with st := .running, out := c.val, endTok := f.md.getLsbD 2, slot := s.focus.slot }) ∧
      (t.tile s.focus.tile).ag.outs = (s.tile s.focus.tile).ag.outs.modify c.val fun y =>
        { y with owner := some (.stream (f.md.toNat % 4)) } := by
  have hout : (s.seen o f).outD = c.val := by
    show (outsOf f).headD 0 = c.val
    rw [outsOf, hd]
    rfl
  obtain ⟨hwork, hag⟩ := State.commit_ag (s := s) (o := o) (d := (s.seen o f).startStream g)
    (g := fun x => (x.modStream (f.md.toNat % 4) (g ∘ fun st =>
      { st with st := .running, out := (s.seen o f).outD, endTok := f.md.getLsbD 2, slot := s.focus.slot })).own
        (s.seen o f).outD (.stream (f.md.toNat % 4))) hp rfl rfl rfl
  refine ⟨_, hdoes, hwork, ?_, ?_⟩
  · rw [hag, hout, PoolSt.streams_own, PoolSt.streams_modStream, PoolSt.stream,
      PoolSt.fire_streams]
    rfl
  · rw [hag, hout, PoolSt.own, PoolSt.modStream, PoolSt.fire_outs]
    rfl

theorem agrd_does (hp : s.focus.pool = .ag) (hf : Fires .agrd f s) (hh : (s.seen .agrd f).header = .ok h) (ha : (s.seen .agrd f).intA = .ok a)
    (hb : (s.seen .agrd f).intB = .ok b) : Does .agrd f s ((s.seen .agrd f).startStream fun st => { st with
      chase := false
      pos := min ((s.namedStream f).pos + fld b 47 0) (bN (s.namedStream f).blk) % 2 ^ 48
      left := limitOf a
      slice := s.startSlice (s.seen .agrd f) }) := by
  have hpos : (s.seen .agrd f).startPos = min ((s.namedStream f).pos + fld b 47 0) (bN (s.namedStream f).blk) := by
    rw [← Ctx.peekInt_b hb, ← State.strm_seen hp .agrd]
    rfl
  refine does_of_issueStream (show exec (.agrd f) s = execAgrd f s from rfl) hf ?_
  simp only [ha, hb, hh, ok_bind, hpos]

theorem agch_does (hp : s.focus.pool = .ag) (hf : Fires .agch f s) (hh : (s.seen .agch f).header = .ok h) (ha : (s.seen .agch f).intA = .ok a)
    (hl : (s.seen .agch f).lane1A = .ok l) (hb : (s.seen .agch f).intB = .ok b)
    (hsfmt : bSfmt (s.namedStream f).blk = 6 ∨ bSfmt (s.namedStream f).blk = 7 ∨ bSfmt (s.namedStream f).blk = fmtRaw)
    (htfmt : bTfmt (s.namedStream f).blk = 1 ∨ bTfmt (s.namedStream f).blk = 3) :
    Does .agch f s ((s.seen .agch f).startStream fun st => { st with
      chase := true
      left := limitOf a
      node := bSaddr st.blk
      link := fld l 2 0
      step := b
      slice := s.startSlice (s.seen .agch f) }) := by
  refine does_of_issueStream (show exec (.agch f) s = execAgch f s from rfl) hf ?_
  have hfmt : ((bSfmt (s.namedStream f).blk = fmtRaw || bSfmt (s.namedStream f).blk = 6 || bSfmt (s.namedStream f).blk = 7) &&
      (bTfmt (s.namedStream f).blk = 1 || bTfmt (s.namedStream f).blk = 3)) = true := by
    simp only [Bool.and_eq_true, Bool.or_eq_true, decide_eq_true_eq]
    tauto
  simp only [ha, hl, hb, hh, ok_bind, State.strm_seen hp, hfmt, Bool.not_true, Bool.false_eq_true, if_false]

/-- A block without DELEG is run by the pool itself (R185). -/
theorem State.startSlice_own {s : State} (hp : s.focus.pool = .ag) {o : Op} {f : Fields}
    (h : bDeleg (s.namedStream f).blk = false) : s.startSlice (s.seen o f) = none := by
  rw [← State.strm_seen hp o] at h
  simp only [State.startSlice, show bDeleg ((s.seen o f).x.stream ((s.seen o f).f.md.toNat % 4)).blk = false from h,
    Bool.false_and, Bool.false_eq_true, if_false]

theorem limitOf_eq (w : Word) :
    limitOf w = if w.extractLsb' 0 32 = 0 then none else some (w.extractLsb' 0 32).toNat := by
  have hfld : fld w 31 0 = (w.extractLsb' 0 32).toNat := fld_extract w 31 0 (by decide)
  rw [limitOf, hfld]
  simp only [BitVec.toNat_eq]
  rfl

/-! ### AGWR, AGSCT and AGGTH -/

/-- An access at the end of the queue of the AG pool. -/
def PoolSt.queueAcc (x : PoolSt) (q : AgAcc) : PoolSt := { x with tickets := max x.tickets q.ticket, agq := x.agq ++ [q] }

/-- The elements that can be reached raise no fault (R180). -/
theorem State.elemsReach_ok {s : State} {c : Ctx} {st : Stream} {ps : List Nat} (h : ElemsThere s c.k st ps) :
    s.elemsReach c st ps = .ok () := by
  obtain ⟨hglobal, hchip⟩ := h
  unfold State.elemsReach
  by_cases hsp : bSsp st.blk = 0
  · have hunit : (ps.isEmpty || (s.agAcr st.unit st.ts st.gen).isSome) = true := by
      rw [Bool.or_eq_true, List.isEmpty_iff]
      exact hglobal hsp
    simp only [hsp, if_true, hunit]
  · have hfind : (ps.find? fun p => (srcWords st.blk p).any fun w =>
        (s.engWord (tileCore c.k) (bSsp st.blk) w).isNone) = none := by
      rw [List.find?_eq_none]
      intro p hmem hany
      obtain ⟨w, hw, hnone⟩ := List.any_eq_true.mp hany
      have hsome := hchip hsp p hmem w hw
      rw [Option.isNone_iff_eq_none] at hnone
      rw [hnone] at hsome
      cases hsome
    simp only [hsp, if_false, hfind]

/-- Elements outside every KV area raise no KV_ACCESS (R330). -/
theorem State.elemsNoKv_ok {s : State} {c : Ctx} {b : Lanes} {ps : List Nat} (h : ElemsNotKv s c.k b ps) :
    s.elemsNoKv c b ps = .ok () := by
  unfold State.elemsNoKv
  by_cases hsp : bSsp b = 1
  · have hfind : ((ps.flatMap fun p => (bitWords (srcBit b p) (widthOf (bSfmt b))).map Int.toNat).find? fun w =>
        ((s.die (tileDie c.k)).kvAt w).isSome) = none := by
      rw [List.find?_eq_none]
      intro v hv
      obtain ⟨p, hmem, hv⟩ := List.mem_flatMap.mp hv
      obtain ⟨w, hw, rfl⟩ := List.mem_map.mp hv
      rw [h hsp p hmem w hw rfl]
      simp
    simp only [hsp, if_true, State.noKv, hfind]
  · simp only [hsp, if_false]

/-- A token that the block can encode raises no FMT_CONV (R183). -/
theorem Ctx.writable_ok {c : Ctx} {b : Lanes} (h : bSfmt b = fmtRaw ∨ c.a.fmt ≠ 6 ∧ c.a.fmt ≠ 15) :
    c.writable b = .ok () := by
  unfold Ctx.writable
  rw [if_neg]
  simp only [Bool.and_eq_true, bne_iff_ne, Bool.or_eq_true, decide_eq_true_eq]
  tauto

/-- The token that a write keeps of A: its valid lanes. -/
def writtenTok (t : Tok) : Tok := { t with lanes := maskLanes t }

/-- An access as AGWR, AGSCT or AGGTH queues it. -/
def Stream.access (st : Stream) (o : Op) (f : Fields) (slot : Nat) (g : BitVec 8) (items : List (Nat × Nat × Nat))
    (dat res : Tok) (ticket : Nat) : AgAcc :=
  ⟨o, f.md.toNat % 4, st.blk, st.ts, g, st.unit, items, dat, res, ticket, none, slot, false⟩

/-- The elements of the beat that AGWR writes from a position on, each with its lane and the value in the lane. -/
def Stream.beatItems (st : Stream) (t : Tok) (p : Nat) : List (Nat × Nat × Nat) :=
  (List.range (beatCount st.blk (8 * perLane st.blk t) p)).map fun j =>
    (p + j, j / perLane st.blk t, j % perLane st.blk t)

theorem agwr_does (hp : s.focus.pool = .ag) (hf : Fires .agwr f s) (hh : (s.seen .agwr f).header = .ok h)
    (hb : (s.seen .agwr f).intB = .ok b) {p : Nat} (hpos : p = (s.namedStream f).pos + fld b 47 0)
    {items : List (Nat × Nat × Nat)} (hitems : items = (s.namedStream f).beatItems (s.seen .agwr f).a p)
    {ps : List Nat} (hps : ps = (items.filter fun y => (s.seen .agwr f).a.mask.getLsbD y.2.1).map (·.1))
    (hfmt : bSfmt (s.namedStream f).blk = fmtRaw ∨ (s.seen .agwr f).a.fmt ≠ 6 ∧ (s.seen .agwr f).a.fmt ≠ 15)
    (hlt : p < bN (s.namedStream f).blk) (hthere : ElemsThere s s.focus.tile (s.namedStream f) ps)
    (hkv : ElemsNotKv s s.focus.tile (s.namedStream f).blk ps) :
    Does .agwr f s (inAg f fun x => (x.queueAcc ((s.namedStream f).access .agwr f s.focus.slot (s.namedStream f).gen items
      (writtenTok (s.seen .agwr f).a) zeroTok 0)).modStream (f.md.toNat % 4) fun st =>
        { st with pos := (p + items.length) % 2 ^ 48 }) := by
  subst hpos hitems hps
  have hreach : s.elemsReach (s.seen .agwr f) (s.namedStream f) _ = .ok () := State.elemsReach_ok hthere
  have hnokv : s.elemsNoKv (s.seen .agwr f) (s.namedStream f).blk _ = .ok () := State.elemsNoKv_ok hkv
  refine does_of_issueStream (show exec (.agwr f) s = execAgwr f s from rfl) hf ?_
  simp only [hb, hh, ok_bind, State.strm_seen hp, Ctx.writable_ok hfmt, Nat.not_le.mpr hlt, if_false]
  simp only [Stream.beatItems] at hreach hnokv
  simp only [hreach, hnokv, ok_bind]
  rfl

theorem laneOf_eq (t : Tok) {i : Nat} (hi : i < 8) : laneOf t i = (laneRead t i).toNat := by
  rw [laneOf, maskLanes_get t hi]

theorem mem_maskList_lt {m : BitVec 8} {i : Nat} (h : i ∈ maskList m) : i < 8 :=
  List.mem_range.mp (List.mem_of_mem_filter h)

/-- The elements that AGSCT writes: those of each lane, from the position that B's lane names (R181). -/
def Stream.scatterItems (st : Stream) (a b : Tok) : List (Nat × Nat × Nat) :=
  (lanesOf (a.mask &&& b.mask)).flatMap fun i =>
    (List.range (perLane st.blk a)).map fun j => (((laneRead b i).toNat + j) % 2 ^ 64, i, j)

theorem Stream.scatterItems_eq (st : Stream) (a b : Tok) : (maskList (a.mask &&& b.mask)).flatMap (fun i =>
    (List.range (perLane st.blk a)).map fun j => ((laneOf b i + j) % 2 ^ 64, i, j)) = st.scatterItems a b :=
  List.flatMap_congr fun i hi => by rw [laneOf_eq b (mem_maskList_lt hi)]

theorem agsct_does (hp : s.focus.pool = .ag) (hf : Fires .agsct f s) (hh : (s.seen .agsct f).header = .ok h)
    {items : List (Nat × Nat × Nat)}
    (hitems : items = (s.namedStream f).scatterItems (s.seen .agsct f).a (s.seen .agsct f).b)
    (hfmt : bSfmt (s.namedStream f).blk = fmtRaw ∨ (s.seen .agsct f).a.fmt ≠ 6 ∧ (s.seen .agsct f).a.fmt ≠ 15)
    (hthere : ElemsThere s s.focus.tile (s.namedStream f) (items.map (·.1)))
    (hkv : ElemsNotKv s s.focus.tile (s.namedStream f).blk (items.map (·.1))) :
    Does .agsct f s (inAg f fun x => x.queueAcc ((s.namedStream f).access .agsct f s.focus.slot (s.namedStream f).gen items
      (writtenTok (s.seen .agsct f).a) zeroTok 0)) := by
  have hreach : s.elemsReach (s.seen .agsct f) (s.namedStream f) _ = .ok () := State.elemsReach_ok hthere
  have hnokv : s.elemsNoKv (s.seen .agsct f) (s.namedStream f).blk _ = .ok () := State.elemsNoKv_ok hkv
  subst hitems
  refine does_of_issueStream (show exec (.agsct f) s = execAgsct f s from rfl) hf ?_
  simp only [hh, ok_bind, State.strm_seen hp, Ctx.writable_ok hfmt, Stream.scatterItems_eq, hreach, hnokv]
  rfl

/-- The elements that AGGTH reads: one for each valid lane of A, from the base on (R181). -/
def gatherItems (a : Tok) (base : Word) : List (Nat × Nat × Nat) :=
  (lanesOf a.mask).map fun i => (((laneRead a i).toNat + base.toNat) % 2 ^ 64, i, 0)

theorem gatherItems_eq (a : Tok) (base : Word) :
    (maskList a.mask).map (fun i => ((laneOf a i + base.toNat) % 2 ^ 64, i, 0)) = gatherItems a base :=
  List.map_congr_left fun i hi => by rw [laneOf_eq a (mem_maskList_lt hi)]

theorem lanesOf_eq_nil {m : BitVec 8} : lanesOf m = [] ↔ m = 0 := by
  revert m
  decide

/-- The result of a gather before any element has joined it. -/
def gatherRes (b : Lanes) (mask : BitVec 8) (h : Hdr) : Tok :=
  dataTok Lanes.zero { h with mask := mask } (BitVec.ofNat 4 (bTfmt b))

theorem gatherRes_none (b : Lanes) (h : Hdr) : gatherRes b 0 h =
    ⟨⟨0, 0, 0, 0, 0, 0, 0, 0⟩, 0, 0, h.psn, 0, h.gen, BitVec.ofNat 4 (bTfmt b), 0⟩ := by
  simp [gatherRes, dataTok, Lanes.ofFn]

section Gather

variable (hp : s.focus.pool = .ag) (hf : Fires .aggth f s) {h' : Hdr} (hh : (s.seen .aggth f).header = .ok h)
  (hb : (s.seen .aggth f).intB = .ok b)
  (hj : Hdr.join (s.seen .aggth f).mirror (s.seen .aggth f).x.ratified (s.seen .aggth f).slot h
    { zeroTok with mask := 0xFF, gen := (s.namedStream f).gen } = .ok h')
  (h4 : bTfmt (s.namedStream f).blk ≠ 4) (h5 : bTfmt (s.namedStream f).blk ≠ 5)

include hp hf hh hb hj h4 h5

/-- A gather of no lane answers at once. -/
theorem aggth_does_none (hm : (s.seen .aggth f).a.mask = 0) :
    Does .aggth f s (resulting f 1 (gatherRes (s.namedStream f).blk (s.seen .aggth f).a.mask h')) := by
  have hitems : gatherItems (s.seen .aggth f).a b = [] := by
    rw [gatherItems, lanesOf_eq_nil.mpr hm]
    rfl
  have hreach : s.elemsReach (s.seen .aggth f) (s.namedStream f) [] = .ok () :=
    State.elemsReach_ok ⟨fun _ => .inl rfl, fun _ p hmem => by cases hmem⟩
  refine does_of_issueStream (show exec (.aggth f) s = execAggth f s from rfl) hf ?_
  simp only [hh, hb, ok_bind, State.strm_seen hp, hj, h4, h5, decide_false, Bool.or_self, Bool.false_eq_true, if_false,
    gatherItems_eq, hitems, List.map_nil, hreach, List.isEmpty_nil, if_true]
  rfl

/-- A gather of some lanes waits for its elements. -/
theorem aggth_does_some (hm : (s.seen .aggth f).a.mask ≠ 0)
    (hthere : ElemsThere s s.focus.tile (s.namedStream f) ((gatherItems (s.seen .aggth f).a b).map (·.1))) :
    Does .aggth f s { inAg f fun x => x.queueAcc ((s.namedStream f).access .aggth f s.focus.slot h'.gen
        (gatherItems (s.seen .aggth f).a b) zeroTok (gatherRes (s.namedStream f).blk (s.seen .aggth f).a.mask h')
        ((s.tile s.focus.tile).ag.tickets + 1)) with
      outs := outsOf f
      res := [⟨f.d, none, 1, (s.tile s.focus.tile).ag.tickets + 1⟩] } := by
  have hitems : (gatherItems (s.seen .aggth f).a b).isEmpty = false := by
    rw [List.isEmpty_eq_false_iff, gatherItems, Ne, List.map_eq_nil_iff, lanesOf_eq_nil]
    exact hm
  have hreach : s.elemsReach (s.seen .aggth f) (s.namedStream f) _ = .ok () := State.elemsReach_ok hthere
  rw [s.x_seen hp] at hj
  refine does_of_issueStream (show exec (.aggth f) s = execAggth f s from rfl) hf ?_
  simp only [hh, hb, ok_bind, State.strm_seen hp, hj, h4, h5, decide_false, Bool.or_self, Bool.false_eq_true, if_false,
    gatherItems_eq, hreach, hitems, s.x_seen hp]
  rfl

end Gather

/-! ### AGSTOP, AGPOS and the counters -/

/-- A running stream marked to stop, with END or without (R181). -/
def Stream.stopping (a : Word) (st : Stream) : Stream :=
  if st.st = .running then { st with stop := true, stopEnd := a.getLsbD 0 } else st

theorem agstop_does (hf : Fires .agstop f s) (hh : (s.seen .agstop f).header = .ok h)
    (ha : (s.seen .agstop f).intA = .ok a) :
    Does .agstop f s (inAg f fun x => x.modStream (f.md.toNat % 4) (Stream.stopping a)) := by
  refine does_of_issueStream (show exec (.agstop f) s = execAgstop f s from rfl) hf ?_
  simp only [ha, hh, ok_bind]
  rfl

theorem agpos_does (hp : s.focus.pool = .ag) (hf : Fires .agpos f s) (hh : (s.seen .agpos f).header = .ok h)
    (ha : (s.seen .agpos f).intA = .ok a) :
    Does .agpos f s (resulting f 1 (oneTok (if a.getLsbD 0 then BitVec.ofNat 64 (s.namedStream f).st.code
      else BitVec.ofNat 64 ((s.namedStream f).pos % 2 ^ 48)) h)) := by
  refine does_of_issueStream (show exec (.agpos f) s = execAgpos f s from rfl) hf ?_
  rw [ha, hh]
  simp only [ok_bind, State.strm_seen hp, s.seen_result f (o := .agpos) rfl, scalarRes_eq, bit, w64, apply_ite]

theorem wprd_does (hf : Fires .wprd f s) (hh : (s.seen .wprd f).header = .ok h) (ha : (s.seen .wprd f).intA = .ok a) :
    Does .wprd f s (resulting f 1
      (oneTok (BitVec.ofNat 64 ((s.core (tileCore s.focus.tile)).queue (fld a 5 0)).wp) h)) := by
  refine does_of_issue (show exec (.wprd f) s = execWprd f s from rfl) hf ?_
  rw [ha, hh]
  simp only [ok_bind, s.seen_result f (o := .wprd) rfl, scalarRes_eq]
  rfl

theorem wcntBind_does (hf : Fires .wcntBind f s) (hh : (s.seen .wcntBind f).header = .ok h)
    (ha : (s.seen .wcntBind f).intA = .ok a) :
    Does .wcntBind f s (inAg f fun x => x.modCtr (f.md.toNat % 4) fun _ => ⟨some (BitVec.ofNat 12 (fld a 11 0)), 0⟩) := by
  refine does_of_issue (show exec (.wcntBind f) s = execWcntBind f s from rfl) hf ?_
  simp only [ha, hh, ok_bind]
  rfl

/-- The counter that WCNT names. -/
def State.namedCtr (s : State) (f : Fields) : ArrCtr := (s.tile s.focus.tile).ag.ctrs.getD (f.md.toNat % 4) ⟨none, 0⟩

/-- WCNT fires only where its counter holds what it takes (R188). -/
theorem wcnt_covered (hp : s.focus.pool = .ag) (hf : Fires .wcnt f s) (hb : (s.seen .wcnt f).intB = .ok b) :
    fld b 47 0 ≤ (s.namedCtr f).count := by
  have hslot := (Bool.and_eq_true _ _).mp hf |>.1
  have hops : s.operandsReady (s.seen .wcnt f) = true := by
    simp only [State.slotReady, Bool.and_eq_true] at hslot
    exact hslot.1.2
  have hag : s.agReady (s.seen .wcnt f) = true := by
    simp only [State.operandsReady, show (s.seen .wcnt f).o = .wcnt from rfl, show (s.seen .wcnt f).p = .ag from hp,
      Bool.and_eq_true] at hops
    exact hops.2
  have hcount := of_decide_eq_true hag
  rw [Ctx.peekInt_b hb, s.x_seen hp] at hcount
  exact hcount

theorem wcnt_does (hp : s.focus.pool = .ag) (hf : Fires .wcnt f s) (hh : (s.seen .wcnt f).header = .ok h)
    (hb : (s.seen .wcnt f).intB = .ok b) :
    let n := (s.namedCtr f).count - fld b 47 0
    Does .wcnt f s { resulting f 1 (if f.d.isPred then oneTok 1 h else oneTok (BitVec.ofNat 64 n) h) with
      tile := fun t => t.modPool .ag fun x => x.modCtr (f.md.toNat % 4) fun r => { r with count := n } } := by
  refine does_of_issue (show exec (.wcnt f) s = execWcnt f s from rfl) hf ?_
  rw [hb, hh]
  simp only [ok_bind, s.x_seen hp, s.seen_result f (o := .wcnt) rfl, scalarRes_eq, predRes_eq]
  rfl

/-! ### The AG pool's instructions -/

/-- What queues an access and no more leaves the streams. -/
theorem queues_of_does {o : Op} {d : Done} {q : AgAcc} (hp : s.focus.pool = .ag) (hdoes : Does o f s d)
    (ht : d.tile = fun t => t.modPool .ag fun x => x.queueAcc q) (he : d.eff = id) (ha : d.after = none) :
    ∃ t, (exec (o.mk f) s = .next t ∧ WorksInTile s.focus.tile s t ∧
        (t.tile s.focus.tile).ag.agq = (s.tile s.focus.tile).ag.agq ++ [q]) ∧
      (t.tile s.focus.tile).ag.streams = (s.tile s.focus.tile).ag.streams := by
  obtain ⟨hwork, hag⟩ := State.commit_ag (s := s) (o := o) (f := f) hp ht he ha
  refine ⟨_, ⟨hdoes, hwork, ?_⟩, ?_⟩
  · rw [hag, PoolSt.queueAcc, PoolSt.fire_agq]
  · rw [hag, PoolSt.queueAcc, PoolSt.fire_streams]

/-- AGWR also moves its stream past the elements. -/
theorem agwr_queues {o : Op} {q : AgAcc} {g : Stream → Stream} (hp : s.focus.pool = .ag)
    (hdoes : Does o f s (inAg f fun x => (x.queueAcc q).modStream (f.md.toNat % 4) g)) :
    ∃ t, (exec (o.mk f) s = .next t ∧ WorksInTile s.focus.tile s t ∧
        (t.tile s.focus.tile).ag.agq = (s.tile s.focus.tile).ag.agq ++ [q]) ∧
      (t.tile s.focus.tile).ag.streams = (s.tile s.focus.tile).ag.streams.modify (f.md.toNat % 4) g := by
  obtain ⟨hwork, hag⟩ := State.commit_inAg o f hp fun x => (x.queueAcc q).modStream (f.md.toNat % 4) g
  refine ⟨_, ⟨hdoes, hwork, ?_⟩, ?_⟩
  · rw [hag, PoolSt.modStream, PoolSt.queueAcc, PoolSt.fire_agq]
  · rw [hag, PoolSt.modStream, PoolSt.queueAcc, PoolSt.fire_streams]

theorem agstop_next (hp : s.focus.pool = .ag) (hf : Fires .agstop f s) (hh : (s.seen .agstop f).header = .ok h)
    (ha : (s.seen .agstop f).intA = .ok a) :
    ∃ t, exec (.agstop f) s = .next t ∧ WorksInTile s.focus.tile s t ∧ (t.tile s.focus.tile).ag.streams =
      (s.tile s.focus.tile).ag.streams.set (f.md.toNat % 4) ((s.namedStream f).stopping a) := by
  obtain ⟨hwork, hag⟩ := State.commit_inAg .agstop f hp fun x => x.modStream (f.md.toNat % 4) (Stream.stopping a)
  refine ⟨_, agstop_does hf hh ha, hwork, ?_⟩
  rw [hag, PoolSt.streams_modStream, PoolSt.fire_streams, PoolSt.stream, PoolSt.fire_streams]
  rfl

/-- A stream written over by itself. -/
theorem State.set_namedStream (s : State) (f : Fields) : (s.tile s.focus.tile).ag.streams.set (f.md.toNat % 4)
    (s.namedStream f) = (s.tile s.focus.tile).ag.streams :=
  (modify_eq_set_getD _ _ id _).symm.trans (List.modify_id _ _)

theorem PoolSt.ctrs_modCtr (x : PoolSt) (n : Nat) (g : ArrCtr → ArrCtr) :
    (x.modCtr n g).ctrs = x.ctrs.set n (g (x.ctrs.getD n ⟨none, 0⟩)) :=
  modify_eq_set_getD _ _ _ _

theorem wcntBind_next (hp : s.focus.pool = .ag) (hf : Fires .wcntBind f s) (hh : (s.seen .wcntBind f).header = .ok h)
    (ha : (s.seen .wcntBind f).intA = .ok a) :
    ∃ t, exec (.wcntBind f) s = .next t ∧ WorksInTile s.focus.tile s t ∧ (t.tile s.focus.tile).ag.ctrs =
      (s.tile s.focus.tile).ag.ctrs.set (f.md.toNat % 4) ⟨some (a.extractLsb' 0 12), 0⟩ := by
  have htag : BitVec.ofNat 12 (fld a 11 0) = a.extractLsb' 0 12 := by
    rw [fld_extract a 11 0 (by decide), BitVec.ofNat_toNat, BitVec.setWidth_eq]
  have hdoes := wcntBind_does hf hh ha
  rw [htag] at hdoes
  obtain ⟨hwork, hag⟩ := State.commit_inAg .wcntBind f hp fun x =>
    x.modCtr (f.md.toNat % 4) fun _ => ⟨some (a.extractLsb' 0 12), 0⟩
  exact ⟨_, hdoes, hwork, by rw [hag, PoolSt.ctrs_modCtr, PoolSt.fire_ctrs]⟩

theorem wcnt_next (hp : s.focus.pool = .ag) (hf : Fires .wcnt f s) (hh : (s.seen .wcnt f).header = .ok h)
    (hb : (s.seen .wcnt f).intB = .ok b) :
    let n := (s.namedCtr f).count - fld b 47 0
    let r := if f.d.isPred then oneTok 1 h else oneTok (BitVec.ofNat 64 n) h
    ∃ t, exec (.wcnt f) s = .next t ∧ WorksInTile s.focus.tile s t ∧
      (t.tile s.focus.tile).ag.ctrs = (s.tile s.focus.tile).ag.ctrs.set (f.md.toNat % 4) { s.namedCtr f with count := n } ∧
      (t.tile s.focus.tile).ag.inflight = (s.tile s.focus.tile).ag.inflight ++ (if f.d = .none then [] else
        [⟨f.d, some r, (s.core (tileCore s.focus.tile)).cyc, h.gen, s.focus.slot, 0, dstCode f.d⟩]) := by
  intro n r
  have hgen : r.gen = h.gen := by
    simp only [r]
    split <;> rfl
  obtain ⟨hwork, hag⟩ := State.commit_ag (s := s) (o := .wcnt) (f := f) (d := { resulting f 1 r with tile := _ })
    (g := fun x => x.modCtr (f.md.toNat % 4) fun c => { c with count := n }) hp rfl rfl rfl
  refine ⟨_, wcnt_does hp hf hh hb, hwork, ?_, ?_⟩
  · refine (congrArg PoolSt.ctrs hag).trans ?_
    rw [PoolSt.ctrs_modCtr, PoolSt.fire_ctrs]
    rfl
  · refine (congrArg PoolSt.inflight hag).trans ((PoolSt.fire_inflight _ _ _).trans ?_)
    congr 1
    by_cases hd : f.d = .none
    · simp [resulting, hd]
    · simp only [resulting, List.filterMap_cons, hd, if_false, List.filterMap_nil, Option.elim_some, hgen]
      rfl

end Fires

/-- Settles O42: each instruction by what its firing does in the AG pool; the words that AGSET completes leave bytes and
streams as they are. -/
theorem addressGeneration : Obligations.AddressGeneration := by
  intro f s h a b l
  have hlow : ∀ w : Word, (w.extractLsb' 0 48).toNat = fld w 47 0 := fun w => (fld_extract w 47 0 (by decide)).symm
  simp only [hlow]
  refine ⟨?_, ?_, ?_, ?_, ?_, ?_, ?_, ?_, ?_, ?_, ?_⟩
  · rintro ⟨hp, hf, hh⟩ hb
    refine ⟨fun hc => ?_, fun i hc => agset_refused hp hf hh hb hc⟩
    obtain ⟨t, hnext, hstreams, hbyte, hframe⟩ := agset_sets hp hf hh hb hc
    exact ⟨t, _, ⟨hnext, hstreams⟩, rfl, rfl, rfl, rfl, rfl, hbyte, hframe⟩
  · rintro c ⟨hp, hf, hh⟩ ha hb hd
    obtain ⟨t, hnext, hwork, hstreams, houts⟩ := starts_of_does hp hd (agrd_does hp hf hh ha hb)
    exact ⟨t, _, ⟨hnext, hstreams⟩, hwork, rfl, rfl, rfl, rfl, limitOf_eq a, rfl, rfl, State.startSlice_own hp, houts⟩
  · rintro c ⟨hp, hf, hh⟩ ha hl hb hd hsfmt htfmt
    obtain ⟨t, hnext, hwork, hstreams, houts⟩ := starts_of_does hp hd (agch_does hp hf hh ha hl hb hsfmt htfmt)
    exact ⟨t, _, ⟨hnext, hstreams⟩, hwork, rfl, rfl, rfl, rfl, fld_extract l 2 0 (by decide), rfl, limitOf_eq a, rfl, rfl,
      State.startSlice_own hp, houts⟩
  · rintro ⟨hp, hf, hh⟩ hb hfmt hlt hthere hkv
    obtain ⟨t, ⟨hnext, hwork, hagq⟩, hstreams⟩ := agwr_queues hp (agwr_does hp hf hh hb rfl rfl rfl hfmt hlt hthere hkv)
    refine ⟨t, _, ⟨hnext, hwork, hagq, rfl, rfl, rfl, rfl, rfl, rfl⟩, rfl, rfl, rfl, rfl, hstreams.trans ?_⟩
    rw [Stream.beatItems, List.length_map, List.length_range]
    rfl
  · rintro ⟨hp, hf, hh⟩ hfmt hthere hkv
    obtain ⟨t, ⟨hnext, hwork, hagq⟩, hstreams⟩ := queues_of_does hp (agsct_does hp hf hh rfl hfmt hthere hkv) rfl rfl rfl
    exact ⟨t, _, ⟨hnext, hwork, hagq, rfl, rfl, rfl, rfl, rfl, rfl⟩, rfl, rfl, rfl, rfl, hstreams⟩
  · rintro h' ⟨hp, hf, hh⟩ hb hj h4 h5
    refine ⟨fun hm => ?_, fun hm hthere => ?_⟩
    · have hdoes := aggth_does_none hp hf hh hb hj h4 h5 hm
      rw [hm, gatherRes_none] at hdoes
      exact hdoes
    · obtain ⟨t, ⟨hnext, hwork, hagq⟩, hstreams⟩ :=
        queues_of_does hp (aggth_does_some hp hf hh hb hj h4 h5 hm hthere) rfl rfl rfl
      exact ⟨t, _, ⟨hnext, hwork, hagq, rfl, rfl, rfl, rfl, rfl, rfl⟩, rfl, rfl, rfl, rfl, hstreams⟩
  · rintro ⟨hp, hf, hh⟩ ha
    obtain ⟨t, hnext, hwork, hstreams⟩ := agstop_next hp hf hh ha
    refine ⟨t, hnext, hwork, fun hst => ?_, fun hst => ?_⟩
    · rw [hstreams, Stream.stopping, if_neg (show (s.namedStream f).st ≠ .running from hst), State.set_namedStream]
    · rw [hstreams, Stream.stopping, if_pos (show (s.namedStream f).st = .running from hst)]
      rfl
  · rintro ⟨hp, hf, hh⟩ ha
    exact agpos_does hp hf hh ha
  · intro hf hh ha
    rw [← fld_extract a 5 0 (by decide)]
    exact wprd_does hf hh ha
  · rintro ⟨hp, hf, hh⟩ ha
    exact wcntBind_next hp hf hh ha
  · rintro ⟨hp, hf, hh⟩ hb
    obtain ⟨t, hnext, hwork, hctrs, hflight⟩ := wcnt_next hp hf hh hb
    refine ⟨wcnt_covered hp hf hb, t, _, hnext, hwork, hctrs, hflight, fun hd => ?_, fun hd => ?_⟩
    · rw [if_neg (by simp [hd])]
      rfl
    · rw [if_pos hd]
      rfl

end Sys2Proof.Machine

/-! ## Stream beats and stream writes (R180 to R186, R205) -/

namespace Sys2Proof.Machine

open Sys2Proof

/-! ### A stream of a tile, and what sending a token leaves -/

/-- A stream that runs is one of its pool. -/
theorem PoolSt.stream_lt {x : PoolSt} {n : Nat} (h : (x.stream n).st = .running) : n < x.streams.length := by
  by_contra hn
  rw [PoolSt.stream, List.getD_eq_default _ _ (Nat.le_of_not_lt hn)] at h
  cases h

theorem PoolSt.stream_modStream {x : PoolSt} {n : Nat} (g : Stream → Stream) (h : n < x.streams.length) :
    (x.modStream n g).stream n = g (x.stream n) := by
  rw [PoolSt.stream, PoolSt.streams_modStream, List.getD_eq_getElem?_getD, List.getElem?_set_self h]
  rfl

theorem State.modStream_eq (s : State) (k n : Nat) (g : Stream → Stream) :
    s.modStream k n g = s.modPool k .ag (·.modStream n g) := rfl

theorem State.ag_modPool (s : State) (k : Nat) (g : PoolSt → PoolSt) : ((s.modPool k .ag g).tile k).ag = g (s.tile k).ag := by
  rw [State.tile_modPool]
  rfl

theorem State.sendOut_evq (s : State) (k : Nat) (p : Pool) (n : Nat) (t : Tok) : (s.sendOut k p n t).evq = s.evq := by
  unfold State.sendOut
  split
  · exact State.modChan_evq _ _ _
  · rfl

section Sent

variable (s : State) (k out : Nat) (t : Tok)

theorem State.streamSend_tile : (s.streamSend k out t).tile k =
    (s.tile k).modPool .ag fun x => { x with outs := x.outs.modify out OutPort.spend } := by
  rw [State.streamSend, State.tile, State.markActive_tiles, State.sendOut_tiles]
  exact State.tile_modPool _ _ _ _

theorem State.streamSend_streams : ((s.streamSend k out t).tile k).ag.streams = (s.tile k).ag.streams := by
  rw [State.streamSend_tile]
  rfl

theorem State.streamSend_mem : (s.streamSend k out t).mem = s.mem := by
  rw [State.streamSend, State.markActive_mem, State.sendOut_mem]
  rfl

theorem State.streamSend_evq : (s.streamSend k out t).evq = s.evq := by
  rw [State.streamSend, State.markActive_evq, State.sendOut_evq]
  rfl

end Sent

/-! ### What a stream does next -/

theorem exec_streamBeat (k : Nat) (n : Fin 4) (s : State) : exec (.streamBeat k n) s = execStreamBeat k n s := rfl

/-- A stream with nothing read, due or asked for goes on by its kind (R181). -/
theorem Stream.next_plain {st : Stream} (hformed : st.formed = none) (hmiss : st.missDue = none) (hstop : st.stop = false)
    (hend : st.endDue = false) : st.next =
      if st.chase then (if st.left = some 0 then .finish else .beat)
      else if bN st.blk ≤ st.pos then (if st.endTok then .sendEnd else .finish)
      else if st.left = some 0 then .finish else .beat := by
  simp [Stream.next, hformed, hmiss, hstop, hend]

/-- No damper of the tile's region counts tokens (R306). -/
def Undamped (s : State) (k : Nat) : Prop := ∀ r y, (s.tile k).region = some r → Tab.get? s.regions r = some y → y.dampN = 0

theorem State.damp_undamped {s : State} {k : Nat} (h : Undamped s k) (key : Nat) : s.damp (s.tile k).region key = (true, s) := by
  cases hr : (s.tile k).region with
  | none => rfl
  | some r =>
    cases hy : Tab.get? s.regions r with
    | none => simp [State.damp, hy]
    | some y => simp [State.damp, hy, h r y hr hy]

/-- What a stream keeps once a beat has gone out. -/
def Stream.past (m : Formed) (y : Stream) : Stream :=
  { y with
    pos := m.pos % 2 ^ 48
    left := m.left
    node := m.node
    endDue := m.endDue
    missDue := m.missDue
    formed := none }

theorem State.passFormed_undamped {s : State} {k : Nat} (h : Undamped s k) (n out : Nat) (m : Formed) :
    s.passFormed k n out m = (s.streamSend k out m.tok).modStream k n (Stream.past m) := by
  rw [State.passFormed, State.damp_undamped h]
  rfl

section Beats

variable {s : State} {k : Nat} {n : Fin 4} {st : Stream} (hst : (s.tile k).ag.stream n.val = st) (hrun : st.st = .running)
  (hwake : s.wakeDue = false)

include hst hrun hwake

theorem streamBeat_finish (hnext : st.next = .finish) :
    exec (.streamBeat k n) s = .next ((s.endStream k n .set).markActive k) := by
  rw [exec_streamBeat, execStreamBeat]
  simp only [hst, hrun, hwake, hnext, ne_eq, not_true_eq_false, decide_false, Bool.or_self, Bool.false_eq_true, if_false]

section Space

variable (hspace : ((s.tile k).ag.out st.out).space = true)

include hspace

theorem streamBeat_sendEnd (hnext : st.next = .sendEnd) : exec (.streamBeat k n) s =
    .next ((s.streamSend k st.out (ctlTok 1 0 false st.gen)).endStream k n .set) := by
  rw [exec_streamBeat, execStreamBeat]
  simp only [hst, hrun, hwake, hnext, hspace, ne_eq, not_true_eq_false, decide_false, Bool.or_self, Bool.false_eq_true,
    if_false, if_true]

/-- A beat read already goes out (R306). -/
theorem streamBeat_formed {m : Formed} (hm : st.formed = some m) (hcalm : Undamped s k) : exec (.streamBeat k n) s =
    .next ((s.streamSend k st.out m.tok).modStream k n (Stream.past m)) := by
  have hnext : st.next = .beat := by simp only [Stream.next, hm]
  rw [exec_streamBeat, execStreamBeat]
  simp only [hst, hrun, hwake, hnext, hspace, hm, ne_eq, not_true_eq_false, decide_false, Bool.or_self, Bool.not_true,
    Bool.false_eq_true, if_false, State.passFormed_undamped hcalm]

theorem streamBeat_read (hnext : st.next = .beat) (hm : st.formed = none) : exec (.streamBeat k n) s =
    .next (if st.chase then s.chBeat k n st else s.rdBeat k n st) := by
  rw [exec_streamBeat, execStreamBeat]
  simp only [hst, hrun, hwake, hnext, hspace, hm, ne_eq, not_true_eq_false, decide_false, Bool.or_self, Bool.not_true,
    Bool.false_eq_true, if_false]

/-- The event of a tier miss, reported once its token has gone out (R366). -/
def State.missEvent (s : State) (k : Nat) (st : Stream) (m : Tok) : Event :=
  mkEvent (s.streamSend k st.out m) 0x41 ((s.blockOf k).map (·.lseq)) ((s.blockOf k).elim 0 (·.job)) (s.placeOf k .ag st.slot) m.lanes.l0
    (w64 st.pos) (bUser st.blk) 0 0

/-- The stream past the page that missed (R205). -/
def Stream.skip (m : Tok) (st y : Stream) : Stream :=
  { y with missDue := none, pos := pastPage st.blk m.lanes.l0.toNat m.lanes.l1.toNat (bN st.blk - st.pos) st.pos }

theorem streamBeat_sendMiss {m : Tok} (hm : st.formed = none) (hmiss : st.missDue = some m) :
    exec (.streamBeat k n) s = .next (((s.streamSend k st.out m).post (s.missEvent k st m)).modStream k n (Stream.skip m st)) := by
  have hnext : st.next = .sendMiss m := by simp only [Stream.next, hm, hmiss]
  rw [exec_streamBeat, execStreamBeat]
  simp only [hst, hrun, hwake, hnext, hspace, ne_eq, not_true_eq_false, decide_false, Bool.or_self, Bool.false_eq_true,
    if_false, if_true]
  rfl

end Space

end Beats

/-! ### A tier miss that is due (R205, R366) -/

/-- An element lies in a page. -/
def InPage (b : Lanes) (va size p : Nat) : Prop :=
  va ≤ ((srcBit b p / 8) % 2 ^ 52).toNat ∧ ((srcBit b p / 8) % 2 ^ 52).toNat < va + size

/-- `pastPage` goes on while elements lie in the page, to the first that does not or to N. -/
theorem pastPage_spec (b : Lanes) (va size fuel p : Nat) (h : bN b ≤ p + fuel) :
    p ≤ pastPage b va size fuel p ∧ (∀ x, p ≤ x → x < pastPage b va size fuel p → InPage b va size x) ∧
      (bN b ≤ pastPage b va size fuel p ∨ ¬InPage b va size (pastPage b va size fuel p)) := by
  induction fuel generalizing p with
  | zero => exact ⟨le_rfl, fun x hx hlt => absurd hlt (Nat.not_lt.mpr hx), .inl h⟩
  | succ fuel ih =>
    rw [pastPage]
    by_cases hin : p < bN b ∧ InPage b va size p
    · rw [if_pos (by simpa only [InPage, Bool.and_eq_true, decide_eq_true_eq, and_assoc] using hin)]
      obtain ⟨hle, hpage, hend⟩ := ih (p + 1) (by omega)
      refine ⟨by omega, fun x hx hlt => ?_, hend⟩
      rcases Nat.eq_or_lt_of_le hx with rfl | hx
      · exact hin.2
      · exact hpage x hx hlt
    · rw [if_neg (by simpa only [InPage, Bool.and_eq_true, decide_eq_true_eq, and_assoc] using hin)]
      refine ⟨le_rfl, fun x hx hlt => absurd hlt (Nat.not_lt.mpr hx), ?_⟩
      rw [not_and_or, Nat.not_lt] at hin
      exact hin

/-! ### Words that an engine reads on chip (R176) -/

/-- An on-chip word as an engine of a core reads it. -/
def State.chipWord (s : State) (core sp w : Nat) : Word × Bool := (s.chipRead core sp w).getD (0, false)

theorem State.chipRead_nonneg {s : State} {core sp : Nat} {w : Int} {x : Word × Bool} (h : s.chipRead core sp w = some x) :
    0 ≤ w := by
  by_contra hw
  have hneg : 8 * w < 0 := by omega
  simp [State.chipRead, State.engWord, State.engByte, hneg] at h

theorem State.chipWord_of_read {s : State} {core sp : Nat} {w : Int} {x : Word × Bool} (h : s.chipRead core sp w = some x) :
    s.chipWord core sp w.toNat = x := by
  rw [State.chipWord, Int.toNat_of_nonneg (State.chipRead_nonneg h), h]
  rfl

/-- Words that all lie in their space are read into the table under their own numbers. -/
theorem State.chipFetch_ok (s : State) (core sp : Nat) (ws : List Int) (t : Tab (Word × Bool))
    (h : ∀ w ∈ ws, (s.chipRead core sp w).isSome = true) : ∃ t', s.chipFetch core sp ws t = .ok t' none s ∧
      ∀ i, Tab.get t' i (0, false) = if i ∈ ws.map Int.toNat then s.chipWord core sp i else Tab.get t i (0, false) := by
  induction ws generalizing t with
  | nil => exact ⟨t, rfl, fun i => rfl⟩
  | cons w rest ih =>
    obtain ⟨x, hx⟩ := Option.isSome_iff_exists.mp (h w (List.mem_cons_self ..))
    obtain ⟨t', hfetch, hget⟩ := ih (Tab.set t w.toNat x) fun v hv => h v (List.mem_cons_of_mem _ hv)
    refine ⟨t', by rw [State.chipFetch, hx]; exact hfetch, fun i => ?_⟩
    simp only [hget, List.map_cons, List.mem_cons]
    by_cases hi : i ∈ rest.map Int.toNat
    · rw [if_pos hi, if_pos (.inr hi)]
    · by_cases hw : i = w.toNat
      · subst hw
        rw [if_neg hi, if_pos (.inl rfl), Tab.get_set_self, State.chipWord_of_read hx]
      · rw [if_neg hi, if_neg (not_or.mpr ⟨hw, hi⟩), Tab.get_set_ne _ _ _ hw]

theorem State.fetch_chip {s : State} {g : Agent} {sp : Nat} (hsp : sp ≠ 0) (ws : List Int)
    (h : ∀ w ∈ ws, (s.chipRead g.core sp w).isSome = true) : ∃ t, s.fetch g sp ws = .ok t none s ∧
      ∀ w ∈ ws, Tab.get t (wordKey sp w) (0, false) = s.chipWord g.core sp w.toNat := by
  obtain ⟨t, hfetch, hget⟩ := s.chipFetch_ok g.core sp ws [] h
  refine ⟨t, by rw [State.fetch, if_neg hsp, hfetch], fun w hw => ?_⟩
  rw [wordKey, if_neg hsp, hget, if_pos (List.mem_map_of_mem hw)]

/-- The bits of one whole word lie in that word. -/
theorem bitWords_aligned {bit : Int} (h : bit % 64 = 0) : bitWords bit 64 = [bit / 64] := by
  have hhi : (bit + (64 : Nat) - 1) / 64 = bit / 64 := by omega
  simp only [bitWords, hhi, sub_self, zero_add]
  simp

theorem bitsFrom_aligned {sp : Nat} (t : Tab (Word × Bool)) {bit : Int} (h : bit % 64 = 0) : bitsFrom sp t bit 64 =
    ((Tab.get t (wordKey sp (bit / 64)) (0, false)).1.toNat, (Tab.get t (wordKey sp (bit / 64)) (0, false)).2) := by
  have hlt := (Tab.get t (wordKey sp (bit / 64)) (0, false)).1.isLt
  simp only [bitsFrom, bitWords_aligned h, h, List.map_cons, List.map_nil, List.foldr_cons, List.foldr_nil, Nat.zero_mul,
    Nat.zero_add, Int.toNat_zero, pow_zero, Nat.div_one, Nat.mod_eq_of_lt hlt, List.any_cons, List.any_nil, Bool.or_false]

/-- A word that a table of words read holds for an element. -/
def elemWord (b : Lanes) (t : Tab (Word × Bool)) (p : Nat) : Word × Bool :=
  Tab.get t (wordKey (bSsp b) (srcBit b p / 64)) (0, false)

section RawElems

variable {b : Lanes} (hraw : bSfmt b = fmtRaw) (hscen : bScen b = false) {p : Nat} (halign : srcBit b p % 64 = 0)

include hraw hscen halign

/-- An unscaled element of whole words is read from its word alone, -/
theorem srcWords_raw : srcWords b p = [srcBit b p / 64] := by
  have hwidth : widthOf (bSfmt b) = 64 := by rw [hraw]; rfl
  rw [srcWords, hwidth, bitWords_aligned halign, hscen]
  rfl

/-- and its code is that word. -/
theorem elemFrom_raw (t : Tab (Word × Bool)) : elemFrom b t p =
    ((elemWord b t p).1.toNat, decodeElem (bSfmt b) (elemWord b t p).1.toNat, (elemWord b t p).2) := by
  have hwidth : widthOf (bSfmt b) = 64 := by rw [hraw]; rfl
  simp only [elemFrom, hwidth, bitsFrom_aligned t halign, hscen, Bool.false_eq_true, if_false]
  rfl

end RawElems

/-! ### Beats of words (R182) -/

/-- A beat of TFMT BITS carries words: `c` of them, lane by lane, poisoned where one of them is. -/
structure CarriesWords (r : Tok) (gen : BitVec 8) (c : Nat) (ws : Nat → Word × Bool) : Prop where
  kind : r.kind = 0
  fmt : r.fmt = 3
  gen_eq : r.gen = gen
  mask : ∀ i < 8, r.mask.getLsbD i = decide (i < c)
  lanes : ∀ i < c, r.lanes.get i = (ws i).1
  psn : r.psn = true ↔ ∃ i < c, (ws i).2 = true

theorem formBeat_carries {b : Lanes} (hbits : bTfmt b = 3) (gen : BitVec 8) {c : Nat} (hc : c ≤ 8) (ws : Nat → Word × Bool)
    (v : Nat → Val) :
    CarriesWords (formBeat b gen ((List.range c).map fun i => ((ws i).1.toNat, v i, (ws i).2))) gen c ws := by
  have hlane : ∀ (raw : Nat) (v : Val), beatLane b raw v = w64 raw := fun raw v => by simp only [beatLane, hbits]
  have hform : formBeat b gen ((List.range c).map fun i => ((ws i).1.toNat, v i, (ws i).2)) =
      dataTok (Lanes.ofFn fun i => if i < c then (ws i).1 else 0)
        ⟨maskOf fun i => decide (i < c), (List.range c).any fun i => (ws i).2, gen⟩ 3 := by
    have hlanes : ∀ i, (match ((List.range c).map fun i => ((ws i).1.toNat, v i, (ws i).2))[i]? with
        | some (raw, v, _) => beatLane b raw v
        | none => (0 : Word)) = if i < c then (ws i).1 else 0 := fun i => by
      by_cases hi : i < c
      · simp [hi, hlane, w64]
      · simp [hi]
    have hpairs : (decide (bTfmt b = 4) || decide (bTfmt b = 5)) = false := by rw [hbits]; rfl
    simp only [formBeat, hpairs, Bool.false_eq_true, if_false, List.length_map, List.length_range, List.any_map]
    rw [hbits]
    exact congrArg (fun g => dataTok (Lanes.ofFn g) _ 3) (funext hlanes)
  rw [hform]
  refine ⟨rfl, rfl, rfl, fun i hi => getLsbD_maskOf _ hi, fun i hi => ?_, ?_⟩
  · rw [dataTok_get _ _ _ (Nat.lt_of_lt_of_le hi hc), getLsbD_maskOf _ (Nat.lt_of_lt_of_le hi hc),
      Lanes.get_ofFn _ (Nat.lt_of_lt_of_le hi hc)]
    simp [hi]
  · simp [dataTok]

/-! ### AGRD's beats on chip (R182) -/

/-- Outside tier-miss mode no element lies in a page that misses. -/
theorem State.missPage_off (s : State) (g : Agent) {b : Lanes} (h : bTierm b = false) (p : Nat) : s.missPage g b p = none := by
  simp [State.missPage, h]

/-- The elements of a beat from a position on. -/
def beatPositions (b : Lanes) (p : Nat) : List Nat := (List.range (beatCount b (perBeat (bTfmt b)) p)).map (p + ·)

theorem beatPositions_ne_nil {b : Lanes} {p : Nat} (h : p < bN b) : (beatPositions b p).isEmpty = false := by
  have hn0 : 0 < bN0 b := by
    rcases Nat.eq_zero_or_pos (bN0 b) with h0 | h0
    · rw [bN, h0, Nat.zero_mul, Nat.zero_mul] at h
      exact absurd h (Nat.not_lt_zero p)
    · exact h0
  have hper : 0 < perBeat (bTfmt b) := by
    unfold perBeat
    split
    · decide
    · split <;> decide
  have hrun := Nat.mod_lt p hn0
  have hcount : beatCount b (perBeat (bTfmt b)) p ≠ 0 := by
    unfold beatCount
    omega
  simp [beatPositions, List.isEmpty_eq_false_iff, hcount]

section Whole

variable (s : State) (k n : Nat) {st : Stream} (htier : bTierm st.blk = false) (hlt : st.pos < bN st.blk)

include htier

/-- Outside tier-miss mode a beat takes its elements whole. -/
theorem State.takeWhile_seen : (beatPositions st.blk st.pos).takeWhile
    (fun p => (s.missPage (s.streamAgent k n st) st.blk p).isNone) = beatPositions st.blk st.pos := by
  rw [List.takeWhile_eq_self_iff]
  intro p _
  rw [s.missPage_off _ htier]
  rfl

include hlt

theorem State.rdBeat_noUnit (hsp : bSsp st.blk = 0) (hacr : (s.streamAgent k n st).acr = none) :
    s.rdBeat k n st = s.failStream k n st.slot 0x46 st.gen (w64 st.ts) 0 (bUser st.blk) := by
  have htake := s.takeWhile_seen k n htier
  have hne := beatPositions_ne_nil hlt
  unfold beatPositions at htake hne
  simp only [State.rdBeat, htake, hne, hsp, hacr, Option.isNone_none, decide_true, Bool.and_self, Bool.not_false, if_true]

theorem State.rdBeat_ok (hsp : bSsp st.blk ≠ 0) {ws : Tab (Word × Bool)} {page : Option (Nat × Nat × Nat)} {s1 : State}
    (hfetch : s.fetch (s.streamAgent k n st) (bSsp st.blk) ((beatPositions st.blk st.pos).flatMap (srcWords st.blk)) =
      .ok ws page s1) : s.rdBeat k n st = (s1.modStream k n fun y => { y with page := page }).passFormed k n st.out
        (st.form ws (beatPositions st.blk st.pos) none) := by
  have htake := s.takeWhile_seen k n htier
  have hne := beatPositions_ne_nil hlt
  unfold beatPositions at htake hne hfetch ⊢
  simp only [State.rdBeat, htake, List.drop_length, List.head?_nil, Option.bind_none, Option.map_none, hne, hfetch,
    decide_eq_false hsp, Bool.false_and, Bool.false_eq_true, if_false]

end Whole

theorem length_beatPositions (b : Lanes) (p : Nat) : (beatPositions b p).length = beatCount b (perBeat (bTfmt b)) p := by
  simp [beatPositions]

theorem State.streamAgent_core (s : State) (k n : Nat) (st : Stream) : (s.streamAgent k n st).core = tileCore k := by
  unfold State.streamAgent
  split <;> rfl

theorem State.streamAgent_acr (s : State) (k n : Nat) (st : Stream) :
    (s.streamAgent k n st).acr = s.agAcr st.unit st.ts st.gen := by
  unfold State.streamAgent
  split <;> rfl

theorem Undamped.modStream {s : State} {k : Nat} (h : Undamped s k) (n : Nat) (g : Stream → Stream) :
    Undamped (s.modStream k n g) k := by
  have htile : ((s.modStream k n g).tile k).region = (s.tile k).region := by
    rw [State.modStream_eq, State.tile_modPool]
    rfl
  intro r y hr hy
  exact h r y (htile ▸ hr) hy

/-- The words of a beat's elements, all in whole words on chip, are there for its stream, each under its own number. -/
theorem State.fetch_beat {s : State} {k n : Nat} {st : Stream} (hsp : bSsp st.blk ≠ 0) (hraw : bSfmt st.blk = fmtRaw)
    (hscen : bScen st.blk = false) {ps : List Nat} (halign : ∀ p ∈ ps, srcBit st.blk p % 64 = 0)
    (hread : ∀ p ∈ ps, (s.chipRead (tileCore k) (bSsp st.blk) (srcBit st.blk p / 64)).isSome = true) :
    ∃ t, s.fetch (s.streamAgent k n st) (bSsp st.blk) (ps.flatMap (srcWords st.blk)) = .ok t none s ∧
      ∀ p ∈ ps, elemWord st.blk t p = s.chipWord (tileCore k) (bSsp st.blk) (srcBit st.blk p / 64).toNat := by
  have hcore := s.streamAgent_core k n st
  obtain ⟨t, hfetch, hget⟩ := State.fetch_chip (g := s.streamAgent k n st) hsp (ps.flatMap (srcWords st.blk)) (by
    intro w hw
    obtain ⟨p, hp, hwp⟩ := List.mem_flatMap.mp hw
    rw [srcWords_raw hraw hscen (halign p hp), List.mem_singleton] at hwp
    rw [hwp, hcore]
    exact hread p hp)
  refine ⟨t, hfetch, fun p hp => ?_⟩
  rw [← hcore]
  refine hget _ (List.mem_flatMap.mpr ⟨p, hp, ?_⟩)
  rw [srcWords_raw hraw hscen (halign p hp)]
  exact List.mem_singleton_self _

section Live

variable {s : State} {k : Nat} {n : Fin 4} {st : Stream} (hst : (s.tile k).ag.stream n.val = st) (hrun : st.st = .running)
  (hwake : s.wakeDue = false) (hformed : st.formed = none) (hmiss : st.missDue = none) (hstop : st.stop = false)
  (hend : st.endDue = false) (hspace : ((s.tile k).ag.out st.out).space = true)

include hst hrun hwake hformed hmiss hstop hend hspace

/-- An AGRD stream with elements to go takes its next beat. -/
theorem streamBeat_rdBeat (hchase : st.chase = false) (hlt : st.pos < bN st.blk) (hleft : st.left ≠ some 0) :
    exec (.streamBeat k n) s = .next (s.rdBeat k n st) := by
  have hnext : st.next = .beat := by
    rw [Stream.next_plain hformed hmiss hstop hend, hchase, if_neg Bool.false_ne_true, if_neg (Nat.not_le.mpr hlt), if_neg hleft]
  rw [streamBeat_read hst hrun hwake hspace hnext hformed, hchase, if_neg Bool.false_ne_true]

/-- A beat of words on chip (R176, R182). -/
theorem streamBeat_words (hchase : st.chase = false) (hlt : st.pos < bN st.blk) (hleft : st.left ≠ some 0)
    (hcalm : Undamped s k) (hsp : bSsp st.blk ≠ 0) (htier : bTierm st.blk = false) (hbits : bTfmt st.blk = 3)
    (hraw : bSfmt st.blk = fmtRaw) (hscen : bScen st.blk = false) (ws : Nat → Word × Bool)
    (hws : ∀ i < beatCount st.blk 8 st.pos, srcBit st.blk (st.pos + i) % 64 = 0 ∧
      s.chipRead (tileCore k) (bSsp st.blk) (srcBit st.blk (st.pos + i) / 64) = some (ws i)) :
    ∃ r : Tok, exec (.streamBeat k n) s = .next (((s.modStream k n fun y => { y with page := none }).streamSend k st.out r).modStream
        k n (Stream.past ⟨r, st.pos + beatCount st.blk 8 st.pos, st.left.map (· - 1), st.node, false, none⟩)) ∧
      CarriesWords r st.gen (beatCount st.blk 8 st.pos) ws := by
  have hper : perBeat (bTfmt st.blk) = 8 := by rw [hbits]; rfl
  have hpos : ∀ p ∈ beatPositions st.blk st.pos, ∃ i < beatCount st.blk 8 st.pos, st.pos + i = p := fun p hp => by
    simpa only [beatPositions, hper, List.mem_map, List.mem_range] using hp
  obtain ⟨t, hfetch, hget⟩ := State.fetch_beat (s := s) (k := k) (n := n) hsp hraw hscen
    (ps := beatPositions st.blk st.pos)
    (fun p hp => by obtain ⟨i, hi, rfl⟩ := hpos p hp; exact (hws i hi).1)
    (fun p hp => by obtain ⟨i, hi, rfl⟩ := hpos p hp; rw [(hws i hi).2]; rfl)
  have helem : (beatPositions st.blk st.pos).map (elemFrom st.blk t) = (List.range (beatCount st.blk 8 st.pos)).map fun i =>
      ((ws i).1.toNat, decodeElem (bSfmt st.blk) (ws i).1.toNat, (ws i).2) := by
    rw [beatPositions, hper, List.map_map]
    refine List.map_congr_left fun i hi => ?_
    obtain ⟨halign, hread⟩ := hws i (List.mem_range.mp hi)
    have hword : elemWord st.blk t (st.pos + i) = ws i := by
      rw [hget _ (by rw [beatPositions, hper]; exact List.mem_map_of_mem hi), State.chipWord_of_read hread]
    rw [Function.comp_apply, elemFrom_raw hraw hscen halign, hword]
  refine ⟨formBeat st.blk st.gen ((beatPositions st.blk st.pos).map (elemFrom st.blk t)), ?_, ?_⟩
  · rw [streamBeat_rdBeat hst hrun hwake hformed hmiss hstop hend hspace hchase hlt hleft,
      State.rdBeat_ok s k n htier hlt hsp hfetch]
    simp only [State.passFormed_undamped (hcalm.modStream n.val _), Stream.form, length_beatPositions, hper]
  · rw [helem]
    exact formBeat_carries hbits st.gen (Nat.min_le_left ..) ws _

/-- A global beat wants an unfinished unit of its thread (R180, R205). -/
theorem streamBeat_noUnit (hchase : st.chase = false) (hlt : st.pos < bN st.blk) (hleft : st.left ≠ some 0)
    (hsp : bSsp st.blk = 0) (htier : bTierm st.blk = false) (hacr : s.agAcr st.unit st.ts st.gen = none) :
    exec (.streamBeat k n) s = .next (s.failStream k n st.slot 0x46 st.gen (w64 st.ts) 0 (bUser st.blk)) := by
  rw [streamBeat_rdBeat hst hrun hwake hformed hmiss hstop hend hspace hchase hlt hleft,
    State.rdBeat_noUnit s k n htier hlt hsp (by rw [State.streamAgent_acr, hacr])]

end Live

/-! ### AGCH's nodes (R181) -/

/-- The words of a node of whole words, from its first word on. -/
def nodeWords (node : Nat) : List Int := (List.range 8).map fun i => ((node / 8 : Nat) : Int) + (i : Nat)

theorem nodeBits {node : Nat} (h : node % 8 = 0) (i : Nat) :
    (8 * (node : Int) + 64 * (i : Nat)) % 64 = 0 ∧ (8 * (node : Int) + 64 * (i : Nat)) / 64 = ((node / 8 : Nat) : Int) + (i : Nat) := by
  omega

/-- A node's token: its eight words. -/
def nodeTok (b : Lanes) (gen : BitVec 8) (ws : Nat → Word × Bool) : Tok :=
  dataTok (Lanes.ofList ((List.range 8).map fun i => (ws i).1)) ⟨0xFF, (List.range 8).any fun i => (ws i).2, gen⟩
    (BitVec.ofNat 4 (bTfmt b))

theorem Lanes.get_ofRange (g : Nat → Word) {i : Nat} (h : i < 8) : (Lanes.ofList ((List.range 8).map g)).get i = g i := by
  interval_cases i <;> rfl

theorem getLsbD_fullMask {i : Nat} (h : i < 8) : (0xFF : BitVec 8).getLsbD i = true := by
  interval_cases i <;> rfl

theorem nodeTok_get (b : Lanes) (gen : BitVec 8) (ws : Nat → Word × Bool) {i : Nat} (h : i < 8) :
    (nodeTok b gen ws).lanes.get i = (ws i).1 := by
  rw [nodeTok, dataTok_get _ _ _ h, if_pos (getLsbD_fullMask h), Lanes.get_ofRange _ h]

/-- What a stream holds after a node whose link word is `v`. -/
def Stream.pastNode (st : Stream) (t : Tok) (v : Word) : Formed :=
  ⟨t, st.pos + 1, if v = 0 then some 0 else st.left.map (· - 1), (v + st.step).toNat % 2 ^ 52, decide (v = 0) && st.endTok, none⟩

/-- A node on chip is read whole. -/
theorem State.chBeat_chip {s : State} {k n : Nat} {st : Stream} (hsp : bSsp st.blk ≠ 0) (hnode : st.node % 8 = 0)
    (hlink : st.link < 8) {ws : Nat → Word × Bool}
    (hws : ∀ i < 8, s.chipRead (tileCore k) (bSsp st.blk) (((st.node / 8 : Nat) : Int) + (i : Nat)) = some (ws i)) :
    s.chBeat k n st = (s.modStream k n fun y => { y with page := none }).passFormed k n st.out
      (st.pastNode (nodeTok st.blk st.gen ws) (ws st.link).1) := by
  have hwords : ((List.range 8).flatMap fun i => bitWords (8 * (st.node : Int) + 64 * (i : Nat)) 64) = nodeWords st.node := by
    rw [nodeWords, List.map_eq_flatMap]
    refine List.flatMap_congr fun i _ => ?_
    rw [bitWords_aligned (nodeBits hnode i).1, (nodeBits hnode i).2]
  have hcore := s.streamAgent_core k n st
  obtain ⟨t, hfetch, hget⟩ := State.fetch_chip (g := s.streamAgent k n st) hsp (nodeWords st.node) (by
    intro w hw
    obtain ⟨i, hi, rfl⟩ := List.mem_map.mp hw
    rw [hcore, hws i (List.mem_range.mp hi)]
    rfl)
  have hbits : (List.range 8).map (fun i => bitsFrom (bSsp st.blk) t (8 * (st.node : Int) + 64 * (i : Nat)) 64) =
      (List.range 8).map fun i => ((ws i).1.toNat, (ws i).2) := by
    refine List.map_congr_left fun i hi => ?_
    have hword := hget _ (List.mem_map_of_mem (f := fun i : Nat => ((st.node / 8 : Nat) : Int) + (i : Nat)) hi)
    rw [bitsFrom_aligned t (nodeBits hnode i).1, (nodeBits hnode i).2, hword, hcore,
      State.chipWord_of_read (hws i (List.mem_range.mp hi))]
  have hloc : (decide (bSsp st.blk = 0) && (s.streamAgent k n st).acr.isNone) = false := by simp [hsp]
  have hlanes : ((List.range 8).map fun i => ((ws i).1.toNat, (ws i).2)).map (fun x => w64 x.1) =
      (List.range 8).map fun i => (ws i).1 := by
    simp only [List.map_map, Function.comp_def, w64, BitVec.ofNat_toNat, BitVec.setWidth_eq]
  rw [State.chBeat]
  simp only [hloc, Bool.false_eq_true, if_false, hwords, hfetch, hbits, hlanes, List.any_map, Lanes.get_ofRange _ hlink,
    decide_eq_true_eq]
  rfl

theorem streamBeat_node {s : State} {k : Nat} {n : Fin 4} {st : Stream} (hst : (s.tile k).ag.stream n.val = st)
    (hrun : st.st = .running) (hwake : s.wakeDue = false) (hformed : st.formed = none) (hmiss : st.missDue = none)
    (hstop : st.stop = false) (hend : st.endDue = false) (hchase : st.chase = true) (hleft : st.left ≠ some 0)
    (hspace : ((s.tile k).ag.out st.out).space = true) (hcalm : Undamped s k) (hsp : bSsp st.blk ≠ 0)
    (hnode : st.node % 8 = 0) (hlink : st.link < 8) {ws : Nat → Word × Bool}
    (hws : ∀ i < 8, s.chipRead (tileCore k) (bSsp st.blk) (((st.node / 8 : Nat) : Int) + (i : Nat)) = some (ws i)) :
    exec (.streamBeat k n) s = .next (((s.modStream k n fun y => { y with page := none }).streamSend k st.out
      (nodeTok st.blk st.gen ws)).modStream k n (Stream.past (st.pastNode (nodeTok st.blk st.gen ws) (ws st.link).1))) := by
  have hnext : st.next = .beat := by
    rw [Stream.next_plain hformed hmiss hstop hend, if_pos hchase, if_neg hleft]
  rw [streamBeat_read hst hrun hwake hspace hnext hformed, if_pos hchase, State.chBeat_chip hsp hnode hlink hws,
    State.passFormed_undamped (hcalm.modStream n.val _)]
  rfl

/-! ### A miss sent -/

/-- The state once the token and the event of a tier miss have gone out. -/
def State.missSent (s : State) (k n : Nat) (st : Stream) (m : Tok) : State :=
  ((s.streamSend k st.out m).post (s.missEvent k st m)).modStream k n (Stream.skip m st)

theorem State.missSent_mem (s : State) (k n : Nat) (st : Stream) (m : Tok) : (s.missSent k n st m).mem = s.mem :=
  State.streamSend_mem s k st.out m

theorem State.missSent_held (s : State) (k n : Nat) (st : Stream) (m : Tok) :
    (s.missSent k n st m).evq.held = s.evq.held ++ [s.missEvent k st m] := by
  rw [← State.streamSend_evq s k st.out m]
  rfl

theorem State.missSent_stream {s : State} {k n : Nat} {st : Stream} (hst : (s.tile k).ag.stream n = st)
    (hrun : st.st = .running) (m : Tok) : ((s.missSent k n st m).tile k).ag.stream n = Stream.skip m st st := by
  have hlen : n < (s.tile k).ag.streams.length := PoolSt.stream_lt (by rw [hst]; exact hrun)
  have hstreams : (((s.streamSend k st.out m).post (s.missEvent k st m)).tile k).ag.streams = (s.tile k).ag.streams :=
    State.streamSend_streams s k st.out m
  rw [State.missSent, State.modStream_eq, State.ag_modPool, PoolSt.stream_modStream _ (by rw [hstreams]; exact hlen),
    PoolSt.stream, hstreams, ← PoolSt.stream, hst]

theorem streamBeat_miss {s : State} {k : Nat} {n : Fin 4} {st : Stream} (hst : (s.tile k).ag.stream n.val = st)
    (hrun : st.st = .running) (hwake : s.wakeDue = false) (hspace : ((s.tile k).ag.out st.out).space = true) {m : Tok}
    (hformed : st.formed = none) (hmiss : st.missDue = some m) : ∃ (t : State) (e : Event),
      exec (.streamBeat k n) s = .next t ∧ t.evq.held = s.evq.held ++ [e] ∧ e.code = 0x41 ∧ e.w3 = m.lanes.l0 ∧
        e.w4 = w64 st.pos ∧ t.mem = s.mem ∧ ((t.tile k).ag.stream n.val).missDue = none ∧
        st.pos ≤ ((t.tile k).ag.stream n.val).pos ∧
        (∀ p, st.pos ≤ p → p < ((t.tile k).ag.stream n.val).pos → InPage st.blk m.lanes.l0.toNat m.lanes.l1.toNat p) ∧
        (bN st.blk ≤ ((t.tile k).ag.stream n.val).pos ∨
          ¬InPage st.blk m.lanes.l0.toNat m.lanes.l1.toNat ((t.tile k).ag.stream n.val).pos) := by
  obtain ⟨hle, hpage, hout⟩ := pastPage_spec st.blk m.lanes.l0.toNat m.lanes.l1.toNat (bN st.blk - st.pos) st.pos (by omega)
  refine ⟨s.missSent k n st m, s.missEvent k st m, streamBeat_sendMiss hst hrun hwake hspace hformed hmiss,
    s.missSent_held .., rfl, rfl, rfl, s.missSent_mem .., ?_⟩
  rw [State.missSent_stream hst hrun]
  exact ⟨rfl, hle, hpage, hout⟩

end Sys2Proof.Machine

/-! ## Writes and gathers of the AG pool (R183, R184, R186) -/

namespace Sys2Proof.Machine

open Sys2Proof

/-! ### What the parts of a write leave -/

/-- Queues of accesses, the power of the tiles and what holds their banks stay. -/
structure SameAccs (s t : State) : Prop where
  agq : ∀ j, (t.tile j).ag.agq = (s.tile j).ag.agq
  gated : ∀ j, (t.tile j).gated = (s.tile j).gated
  holds : ∀ j, (t.tile j).eng.holds = (s.tile j).eng.holds

namespace SameAccs

theorem refl (s : State) : SameAccs s s := ⟨fun _ => rfl, fun _ => rfl, fun _ => rfl⟩

theorem trans {s t u : State} (h : SameAccs s t) (h' : SameAccs t u) : SameAccs s u :=
  ⟨fun j => (h'.agq j).trans (h.agq j), fun j => (h'.gated j).trans (h.gated j), fun j => (h'.holds j).trans (h.holds j)⟩

/-- A tile written over by one of the same queue, power and hold. -/
theorem setTile (s : State) (k : Nat) {x : Tile} (hq : x.ag.agq = (s.tile k).ag.agq) (hg : x.gated = (s.tile k).gated)
    (hh : x.eng.holds = (s.tile k).eng.holds) : SameAccs s (s.setTile k x) := by
  refine ⟨fun j => ?_, fun j => ?_, fun j => ?_⟩ <;>
  · by_cases hj : j = k
    · subst hj
      rwa [State.tile_setTile]
    · rw [s.tile_setTile_ne x hj]

theorem ofWordsNoted {s t : State} (h : WordsNoted s t) : SameAccs s t := by
  refine ⟨fun j => ?_, fun j => ?_, fun j => ?_⟩ <;>
  · obtain ⟨cs, hs, hj⟩ := h.tile j
    rw [hj]
    rfl

theorem setMem (s : State) (m : Mem) : SameAccs s (s.setMem m) := ⟨fun _ => rfl, fun _ => rfl, fun _ => rfl⟩

theorem modStream (s : State) (k n : Nat) (g : Stream → Stream) : SameAccs s (s.modStream k n g) :=
  setTile s k rfl rfl rfl

theorem putWord (s : State) (w : Nat) (mask : BitVec 8) (v : Word) (psn : Bool) : SameAccs s (s.putWord w mask v psn) := by
  unfold State.putWord
  dsimp only
  split
  · split
    · exact (setMem s _).trans (setTile _ _ rfl rfl rfl)
    · exact setMem s _
  · exact setMem s _

theorem engWord {s t : State} (h : SameAccs s t) (core sp : Nat) (w : Int) : t.engWord core sp w = s.engWord core sp w := by
  simp only [State.engWord, State.engByte, h.gated]

theorem wordHeld {s t : State} (h : SameAccs s t) (w : Nat) : t.wordHeld w = s.wordHeld w := by
  simp only [State.wordHeld, h.holds]

end SameAccs

/-- Memory's bytes and poison stay with the accesses. -/
structure DataKept (s t : State) : Prop where
  accs : SameAccs s t
  byte : ∀ a, t.mem.byte a = s.mem.byte a
  psn : ∀ w, t.mem.isPsn w = s.mem.isPsn w
  wf : s.mem.wf = true → t.mem.wf = true

namespace DataKept

theorem refl (s : State) : DataKept s s := ⟨.refl s, fun _ => rfl, fun _ => rfl, id⟩

theorem trans {s t u : State} (h : DataKept s t) (h' : DataKept t u) : DataKept s u :=
  ⟨h.accs.trans h'.accs, fun a => (h'.byte a).trans (h.byte a), fun w => (h'.psn w).trans (h.psn w), h'.wf ∘ h.wf⟩

theorem ofWordsNoted {s t : State} (h : WordsNoted s t) : DataKept s t := ⟨.ofWordsNoted h, h.byte, h.isPsn, h.wf⟩

theorem modStream (s : State) (k n : Nat) (g : Stream → Stream) : DataKept s (s.modStream k n g) :=
  ⟨.modStream s k n g, fun _ => rfl, fun _ => rfl, id⟩

theorem passWords (s : State) (k n : Nat) (b : Lanes) (p : Nat) : DataKept s (s.passWords k n b p) :=
  (modStream s k n _).trans (ofWordsNoted (WordsNoted.foldl (fun t _ => WordsNoted.wordDone t _ _ _ _) _ _))

theorem noteWords (s : State) (k : Nat) (q : AgAcc) (p : Nat) : DataKept s (s.noteWords k q p) := by
  unfold State.noteWords
  dsimp only
  split
  · exact modStream s k _ _
  · exact ofWordsNoted (WordsNoted.foldl (fun t _ => WordsNoted.wordDone t _ _ _ _) _ _)

theorem word {s t : State} (h : DataKept s t) (w : Nat) : t.mem.word w = s.mem.word w := by
  simp only [Mem.word, h.byte]

end DataKept

/-! ### A whole word written on chip -/

/-- A rising list holds nothing below its bound. -/
theorem natsFrom_le {lo : Nat} {xs : List Nat} (h : natsFrom lo xs = true) : ∀ x ∈ xs, lo ≤ x := by
  induction xs generalizing lo with
  | nil => simp
  | cons x rest ih =>
    simp only [natsFrom, Bool.and_eq_true, decide_eq_true_eq] at h
    exact List.forall_mem_cons.mpr ⟨h.1, fun y hy => le_trans h.1 (Nat.le_of_succ_le (ih h.2 y hy))⟩

theorem contains_delNat {lo : Nat} {xs : List Nat} (a : Nat) (h : natsFrom lo xs = true) : (delNat xs a).contains a = false := by
  induction xs generalizing lo with
  | nil => rfl
  | cons x rest ih =>
    simp only [natsFrom, Bool.and_eq_true, decide_eq_true_eq] at h
    unfold delNat
    split
    · rename_i hx
      subst hx
      rw [← Bool.not_eq_true, List.contains_iff_mem]
      exact fun hx => Nat.not_succ_le_self x (natsFrom_le h.2 x hx)
    · rename_i hx
      rw [List.contains_cons, ih h.2, Bool.or_false, beq_eq_false_iff_ne]
      exact fun hxa => hx hxa.symm

theorem Mem.isPsn_setPsn {m : Mem} (w : Nat) (p : Bool) (h : m.wf = true) : (m.setPsn w p).isPsn w = p := by
  obtain ⟨-, -, hp⟩ := m.wf_iff.mp h
  cases p
  · exact contains_delNat w hp
  · exact contains_putNat _ _

theorem Mem.isPsn_writeWord_self {m : Mem} (w : Nat) (v : Word) (p : Bool) (h : m.wf = true) :
    (m.writeWord w v p).isPsn w = p := by
  unfold Mem.writeWord Mem.write
  rw [if_pos rfl]
  exact Mem.isPsn_setPsn w p (Mem.putBytes_wf w 0xFF v 0 8 h)

theorem State.putWord_mem (s : State) (w : Nat) (mask : BitVec 8) (v : Word) (psn : Bool) :
    (s.putWord w mask v psn).mem = s.mem.write w mask v psn := by
  unfold State.putWord
  dsimp only
  split
  · split <;> rfl
  · rfl

/-- A whole word's share of an element is the whole element. -/
theorem wordShare_aligned {bit : Int} (h : bit % 64 = 0) (v : Word) :
    wordShare bit 64 v.toNat (bit / 64) = (0xFF, v, BitVec.allOnes 64) := by
  have hoff : bit - 64 * (bit / 64) = 0 := by omega
  have hv : v.toNat % 2 ^ 64 = v.toNat := Nat.mod_eq_of_lt v.isLt
  simp only [wordShare, hoff, le_refl, if_true, Int.toNat_zero, pow_zero, Nat.mul_one, hv, w64, BitVec.ofNat_toNat,
    BitVec.setWidth_eq]
  rfl

theorem mergeBits_allOnes (old v : Word) : mergeBits old v (BitVec.allOnes 64) = v := by
  rw [mergeBits, BitVec.not_allOnes, BitVec.and_zero, BitVec.and_allOnes, BitVec.zero_or]

/-- An element of a whole word whose bank holds no write is stored. -/
theorem State.chipStore_aligned {s : State} (who : HeldBy) {core sp w : Nat} {bit : Int} (h : bit % 64 = 0)
    (hw : s.engWord core sp (bit / 64) = some w) (hheld : s.wordHeld w = false) (v : Word) (psn : Bool) :
    s.chipStore who core sp bit 64 v.toNat psn (bitWords bit 64) = some (s.putWord w 0xFF v psn) := by
  simp only [bitWords_aligned h, State.chipStore, hw, wordShare_aligned h, mergeBits_allOnes, hheld, Bool.false_eq_true, if_false]

theorem State.putElem_raw {s : State} (who : HeldBy) {g : Agent} {b : Lanes} {p w : Nat} (hsp : bSsp b ≠ 0)
    (hraw : bSfmt b = fmtRaw) (h : srcBit b p % 64 = 0) (hw : s.engWord g.core (bSsp b) (srcBit b p / 64) = some w)
    (hheld : s.wordHeld w = false) (v : Word) (psn : Bool) :
    s.putElem who g b p v.toNat psn = .ok (s.putWord w 0xFF v psn) := by
  have hwidth : widthOf (bSfmt b) = 64 := by rw [hraw]; rfl
  simp only [State.putElem, if_neg hsp, hwidth, s.chipStore_aligned who h hw hheld]

theorem State.countTag_mem (s : State) (core ntile ctag : Nat) : (s.countTag core ntile ctag).mem = s.mem := by
  unfold State.countTag
  split <;> rfl

/-- A word completed whose bank holds no write is full (R186). -/
theorem State.wordDone_full {s : State} (who : HeldBy) {core w x : Nat} {b : Lanes} (hw : s.engWord core (bSsp b) w = some x)
    (hheld : s.wordHeld x = false) : (s.wordDone who core b w).mem.isFull x = true := by
  simp only [State.wordDone, hw, hheld, Bool.false_eq_true, if_false, State.countTag_mem]
  exact contains_putNat _ _

/-! ### The queue of accesses -/

theorem exec_streamWrite (k : Nat) (s : State) : exec (.streamWrite k) s = execStreamWrite k s := rfl

theorem nextAcc_cons {q : AgAcc} {more : List AgAcc} (h : ∀ y ∈ q :: more, y.hold = none) :
    nextAcc (q :: more) = some (0, q) := by
  have hheld : (q :: more).filter (fun q => q.hold.isSome) = [] := by
    rw [List.filter_eq_nil_iff]
    intro y hy
    rw [h y hy]
    exact Bool.false_ne_true
  have hq : q.hold = none := h q (List.mem_cons_self ..)
  simp only [nextAcc, hheld, List.zipIdx_cons, List.find?_cons, hq]
  rfl

theorem State.markActive_ag (s : State) (k j : Nat) : ((s.markActive k).tile j).ag = (s.tile j).ag := by
  rw [State.tile, State.markActive_tiles]
  rfl

/-- The queue once the head access has done an element. -/
def accsLeft (q : AgAcc) (more : List AgAcc) : List AgAcc := if q.items = [] then more else q :: more

theorem State.stepAcc_accs {s : State} {k : Nat} {q0 : AgAcc} {more : List AgAcc} (h : (s.tile k).ag.agq = q0 :: more) (q : AgAcc) :
    ((s.stepAcc k 0 q).tile k).ag.agq = accsLeft q more := by
  unfold State.stepAcc accsLeft
  by_cases hitems : q.items = []
  · rw [if_pos (by rw [hitems]; rfl), if_pos hitems]
    split
    · rw [State.ag_modPool, PoolSt.fill, State.dropAgAcc, State.ag_modPool, h]
      rfl
    · rw [State.dropAgAcc, State.ag_modPool, h]
      rfl
  · rw [if_neg (by rwa [List.isEmpty_iff]), if_neg hitems, State.setAgAcc, State.ag_modPool, h]
    rfl

theorem State.stepAcc_mem (s : State) (k i : Nat) (q : AgAcc) : (s.stepAcc k i q).mem = s.mem := by
  unfold State.stepAcc
  dsimp only
  split
  · split <;> rfl
  · rfl

/-! ### A write's element -/

/-- The step of a write's element after its data: words that its run has passed are completed (R186). -/
def State.afterWrite (s : State) (k : Nat) (q : AgAcc) (p : Nat) : State :=
  ((if q.kind = .agwr then (s.stepAcc k 0 q).passWords k q.stream q.blk (p + 1) else s.stepAcc k 0 q)).markActive k

/-- Words that a run has passed before its next element. -/
def State.beforeWrite (s : State) (k : Nat) (q : AgAcc) (p : Nat) : State :=
  if q.kind = .agwr then s.passWords k q.stream q.blk p else s

theorem State.beforeWrite_kept (s : State) (k : Nat) (q : AgAcc) (p : Nat) : DataKept s (s.beforeWrite k q p) := by
  unfold State.beforeWrite
  split
  · exact .passWords s k _ _ _
  · exact .refl s

section Writes

variable {s : State} {k : Nat} {q : AgAcc} {more : List AgAcc} (hq : (s.tile k).ag.agq = q :: more) (p : Nat)
  (rest : List (Nat × Nat × Nat))

include hq

/-- The step's queue, -/
theorem State.afterWrite_accs : ((s.afterWrite k { q with items := rest } p).tile k).ag.agq =
    if rest = [] then more else { q with items := rest } :: more := by
  unfold State.afterWrite
  rw [State.markActive_ag]
  split
  · rw [(DataKept.passWords _ k _ _ _).accs.agq, State.stepAcc_accs hq]
    rfl
  · rw [State.stepAcc_accs hq]
    rfl

omit hq in
/-- bytes -/
theorem State.afterWrite_byte (a : Nat) : (s.afterWrite k q p).mem.byte a = s.mem.byte a := by
  unfold State.afterWrite
  rw [State.markActive_mem]
  split
  · rw [(DataKept.passWords _ k _ _ _).byte, State.stepAcc_mem]
  · rw [State.stepAcc_mem]

omit hq in
theorem State.afterWrite_word (w : Nat) : (s.afterWrite k q p).mem.word w = s.mem.word w := by
  simp only [Mem.word, State.afterWrite_byte]

omit hq in
/-- and poison; -/
theorem State.afterWrite_psn (w : Nat) : (s.afterWrite k q p).mem.isPsn w = s.mem.isPsn w := by
  unfold State.afterWrite
  rw [State.markActive_mem]
  split
  · rw [(DataKept.passWords _ k _ _ _).psn, State.stepAcc_mem]
  · rw [State.stepAcc_mem]

omit hq in
/-- a scatter leaves memory whole. -/
theorem State.afterWrite_mem (h : q.kind ≠ .agwr) : (s.afterWrite k q p).mem = s.mem := by
  unfold State.afterWrite
  rw [State.markActive_mem, if_neg h, State.stepAcc_mem]

end Writes

section Element

variable {s : State} {k : Nat} {q : AgAcc} {p lane : Nat} (j : Nat) (rest : List (Nat × Nat × Nat))

/-- An invalid lane is passed over. -/
theorem State.writeNext_invalid (hlane : q.dat.mask.getLsbD lane = false) :
    s.writeNext k 0 q p lane j rest = (s.beforeWrite k q p).afterWrite k { q with items := rest } p := by
  unfold State.writeNext State.beforeWrite State.afterWrite
  simp only [hlane, Bool.not_false, if_true, decide_eq_true_eq]

/-- The state that the element of a valid lane has been stored and noted in. -/
def State.elemStored (s : State) (k : Nat) (q : AgAcc) (p lane w : Nat) : State :=
  ((s.beforeWrite k q p).putWord w 0xFF (q.dat.lanes.get lane) q.dat.psn).noteWords k q p

variable {w : Nat} (hsp : bSsp q.blk ≠ 0) (hraw : bSfmt q.blk = fmtRaw) (halign : srcBit q.blk p % 64 = 0)
  (hw : s.engWord (tileCore k) (bSsp q.blk) (srcBit q.blk p / 64) = some w) (hheld : s.wordHeld w = false)

include hsp hraw halign hw hheld

theorem State.writeNext_valid (hlane : q.dat.mask.getLsbD lane = true) :
    s.writeNext k 0 q p lane j rest = (s.elemStored k q p lane w).afterWrite k { q with items := rest } p := by
  have hcode : writeCode q.blk q.dat lane j = ((q.dat.lanes.get lane).toNat, false) := by rw [writeCode, if_pos hraw]
  have hkept := s.beforeWrite_kept k q p
  have hput := State.putElem_raw (s := s.beforeWrite k q p) (.stream k q.stream q.gen)
    (g := (s.beforeWrite k q p).accAgent k q) hsp hraw halign (by rw [hkept.accs.engWord]; exact hw)
    (by rw [hkept.accs.wordHeld]; exact hheld) (q.dat.lanes.get lane) q.dat.psn
  unfold State.beforeWrite at hput
  unfold State.writeNext State.elemStored State.beforeWrite State.afterWrite
  simp only [hlane, Bool.not_true, Bool.false_eq_true, if_false, decide_eq_true_eq, hcode, hput, Bool.false_and]

omit hsp hraw halign hw hheld in
theorem State.elemStored_accs : SameAccs s (s.elemStored k q p lane w) :=
  ((s.beforeWrite_kept k q p).accs.trans (.putWord ..)).trans (DataKept.noteWords _ k q p).accs

omit hsp hraw halign hw hheld in
theorem State.elemStored_byte {a : Nat} (ha : a / 8 ≠ w) : (s.elemStored k q p lane w).mem.byte a = s.mem.byte a := by
  rw [State.elemStored, (DataKept.noteWords _ k q p).byte, State.putWord_mem, Mem.byte_write_out _ _ _ _ _ (by omega),
    (s.beforeWrite_kept k q p).byte]

omit hsp hraw halign hw hheld in
/-- The word reads as its lane, with the poison of its beat. -/
theorem State.elemStored_word (hwf : s.mem.wf = true) : (s.elemStored k q p lane w).mem.word w = q.dat.lanes.get lane ∧
    (s.elemStored k q p lane w).mem.isPsn w = q.dat.psn := by
  have hbefore := (s.beforeWrite_kept k q p).wf hwf
  have hnote := DataKept.noteWords ((s.beforeWrite k q p).putWord w 0xFF (q.dat.lanes.get lane) q.dat.psn) k q p
  rw [State.elemStored, hnote.word, hnote.psn, State.putWord_mem]
  exact ⟨Mem.word_writeWord_self w _ _ hbefore, Mem.isPsn_writeWord_self w _ _ hbefore⟩

/-- A scatter's word is full (R186). -/
theorem State.elemStored_full (hkind : q.kind = .agsct) : (s.elemStored k q p lane w).mem.isFull w = true := by
  have hwidth : widthOf (bSfmt q.blk) = 64 := by rw [hraw]; rfl
  have haccs := (s.beforeWrite_kept k q p).accs.trans (.putWord _ w 0xFF (q.dat.lanes.get lane) q.dat.psn)
  have hpos : 0 ≤ srcBit q.blk p / 64 := by
    by_contra hneg
    have hneg8 : 8 * (srcBit q.blk p / 64) < 0 := by omega
    simp [State.engWord, State.engByte, hneg8] at hw
  have hkey : ((srcBit q.blk p / 64).toNat : Int) = srcBit q.blk p / 64 := Int.toNat_of_nonneg hpos
  rw [State.elemStored, State.noteWords, if_neg (by rw [hkind]; decide)]
  simp only [hwidth, bitWords_aligned halign, List.map_cons, List.map_nil, List.foldl_cons, List.foldl_nil, wordKey,
    if_neg hsp]
  refine State.wordDone_full _ ?_ ?_
  · rw [hkey, haccs.engWord]
    exact hw
  · rw [haccs.wordHeld]
    exact hheld

end Element

/-- STREAM_WRITE of a write's element (R183, R186). -/
theorem streamWrite_element {s : State} {k : Nat} {q : AgAcc} {more : List AgAcc} {p lane j : Nat}
    {rest : List (Nat × Nat × Nat)} {w : Nat} (hwake : s.wakeDue = false) (hagq : (s.tile k).ag.agq = q :: more)
    (hhold : ∀ y ∈ (s.tile k).ag.agq, y.hold = none) (hitems : q.items = (p, lane, j) :: rest)
    (hkind : q.kind = .agsct ∨ q.kind = .agwr) (hsp : bSsp q.blk ≠ 0) (hraw : bSfmt q.blk = fmtRaw)
    (halign : srcBit q.blk p % 64 = 0) (hw : s.engWord (tileCore k) (bSsp q.blk) (srcBit q.blk p / 64) = some w)
    (hheld : s.wordHeld w = false) (hwf : s.mem.wf = true) : ∃ t, exec (.streamWrite k) s = .next t ∧
      (t.tile k).ag.agq = (if rest = [] then more else { q with items := rest } :: more) ∧
      (∀ a, a / 8 ≠ w ∨ q.dat.mask.getLsbD lane = false → t.mem.byte a = s.mem.byte a) ∧
      (q.dat.mask.getLsbD lane = true → t.mem.word w = q.dat.lanes.get lane ∧ t.mem.isPsn w = q.dat.psn ∧
        (q.kind = .agsct → t.mem.isFull w = true)) := by
  have hgather : q.kind ≠ .aggth := by rcases hkind with h | h <;> rw [h] <;> decide
  have hexec : exec (.streamWrite k) s = .next (s.writeNext k 0 q p lane j rest) := by
    rw [exec_streamWrite, execStreamWrite, hwake, if_neg Bool.false_ne_true, hagq, nextAcc_cons (hagq ▸ hhold)]
    simp only [hitems, if_neg hgather]
  refine ⟨_, hexec, ?_⟩
  cases hlane : q.dat.mask.getLsbD lane
  case false =>
    rw [State.writeNext_invalid j rest hlane]
    have hkept := s.beforeWrite_kept k q p
    refine ⟨State.afterWrite_accs ((hkept.accs.agq k).trans hagq) p rest, fun a _ => ?_, fun h => absurd h Bool.false_ne_true⟩
    rw [State.afterWrite_byte, hkept.byte]
  case true =>
    rw [State.writeNext_valid j rest hsp hraw halign hw hheld hlane]
    refine ⟨State.afterWrite_accs ((State.elemStored_accs.agq k).trans hagq) p rest, fun a ha => ?_, fun _ => ?_⟩
    · rw [State.afterWrite_byte, State.elemStored_byte (ha.resolve_right (by decide))]
    · obtain ⟨hword, hpsn⟩ := State.elemStored_word (k := k) (q := q) (p := p) (lane := lane) (w := w) hwf
      refine ⟨(State.afterWrite_word ..).trans hword, (State.afterWrite_psn ..).trans hpsn, fun hsct => ?_⟩
      rw [State.afterWrite_mem p (q := { q with items := rest }) (by rw [hsct]; decide)]
      exact State.elemStored_full hsp hraw halign hw hheld hsct

/-! ### A gather's element -/

/-- STREAM_WRITE of a gather's element (R183). -/
theorem streamWrite_gather {s : State} {k : Nat} {q : AgAcc} {more : List AgAcc} {p lane j : Nat}
    {rest : List (Nat × Nat × Nat)} {v : Word} {psn : Bool} (hwake : s.wakeDue = false)
    (hagq : (s.tile k).ag.agq = q :: more) (hhold : ∀ y ∈ (s.tile k).ag.agq, y.hold = none)
    (hitems : q.items = (p, lane, j) :: rest) (hkind : q.kind = .aggth) (hsp : bSsp q.blk ≠ 0)
    (hraw : bSfmt q.blk = fmtRaw) (hscen : bScen q.blk = false) (hbits : bTfmt q.blk = 3)
    (halign : srcBit q.blk p % 64 = 0)
    (hread : s.chipRead (tileCore k) (bSsp q.blk) (srcBit q.blk p / 64) = some (v, psn)) :
    exec (.streamWrite k) s =
      .next ((s.stepAcc k 0 { q with items := rest, res := putLane q.res lane v psn true }).markActive k) := by
  have hwords : srcWords q.blk p = [srcBit q.blk p / 64] := srcWords_raw hraw hscen halign
  obtain ⟨t, hfetch, hget⟩ := State.fetch_chip (s := s) (g := s.accAgent k q) hsp (srcWords q.blk p) (by
    intro w hmem
    rw [hwords, List.mem_singleton] at hmem
    rw [hmem, show (s.accAgent k q).core = tileCore k from rfl, hread]
    rfl)
  have helem : elemWord q.blk t p = (v, psn) := by
    rw [elemWord, hget _ (by rw [hwords]; exact List.mem_singleton_self _)]
    exact State.chipWord_of_read hread
  have hlane : ∀ x, beatLane q.blk v.toNat x = v := fun x => by
    simp only [beatLane, hbits, w64, BitVec.ofNat_toNat, BitVec.setWidth_eq]
  have hloc : (decide (bSsp q.blk = 0) && (s.accAgent k q).acr.isNone) = false := by simp [hsp]
  rw [exec_streamWrite, execStreamWrite, hwake, if_neg Bool.false_ne_true, hagq, nextAcc_cons (hagq ▸ hhold)]
  simp only [hitems, if_pos hkind, State.gatherNext, hloc, Bool.false_eq_true, if_false, hfetch,
    elemFrom_raw hraw hscen halign, helem, hlane]

/-- A gather's last element ends the access: its result waits for nothing more. -/
theorem PoolSt.fill_val (x : PoolSt) (ticket due : Nat) (r : Tok) :
    ∀ e ∈ (x.fill ticket due fun _ => some r).inflight, e.ticket = ticket → e.val = some r := by
  intro e he hticket
  obtain ⟨e0, -, rfl⟩ := List.mem_map.mp he
  by_cases h : e0.ticket = ticket
  · simp only [if_pos h]
  · rw [if_neg h] at hticket
    exact absurd hticket h

theorem State.stepAcc_result (s : State) (k : Nat) {q : AgAcc} (hkind : q.kind = .aggth) (hitems : q.items = []) :
    ∀ e ∈ ((s.stepAcc k 0 q).tile k).ag.inflight, e.ticket = q.ticket → e.val = some q.res := by
  unfold State.stepAcc
  rw [if_pos (by rw [hitems]; rfl)]
  simp only [if_pos hkind]
  rw [State.ag_modPool]
  exact PoolSt.fill_val _ _ _ _

/-! ### The obligation -/

/-- Settles O43: each step of a stream by what the stream does next (`Stream.next`), each element of the queue by
the word that it names. -/
theorem streamSteps : Obligations.StreamSteps := by
  unfold Obligations.StreamSteps
  intro s k n x st b core live space calm
  have hst : (s.tile k).ag.stream n.val = st := rfl
  refine ⟨?finish, ?sendEnd, ?words, ?noUnit, ?node, ?miss, ?formed, ?write, ?gather⟩
  case finish =>
    rintro ⟨hrun, hwake, hformed, hmiss, hstop, hend, hchase⟩ hpos htok
    refine streamBeat_finish hst hrun hwake ?_
    rw [Stream.next_plain hformed hmiss hstop hend, hchase, if_neg Bool.false_ne_true, if_pos hpos, htok,
      if_neg Bool.false_ne_true]
  case sendEnd =>
    rintro ⟨hrun, hwake, hformed, hmiss, hstop, hend, hchase⟩ hpos htok hspace
    refine streamBeat_sendEnd hst hrun hwake hspace ?_
    rw [Stream.next_plain hformed hmiss hstop hend, hchase, if_neg Bool.false_ne_true, if_pos hpos, if_pos htok]
  case words =>
    rintro ws ⟨hrun, hwake, hformed, hmiss, hstop, hend, hchase⟩ hpos hleft hspace hcalm hsp htier hbits hraw hscen c hws
    obtain ⟨r, hexec, hr⟩ := streamBeat_words hst hrun hwake hformed hmiss hstop hend hspace hchase hpos hleft hcalm hsp
      htier hbits hraw hscen ws hws
    exact ⟨r, hexec, hr.kind, hr.fmt, hr.gen_eq, hr.mask, hr.lanes, hr.psn⟩
  case noUnit =>
    rintro ⟨hrun, hwake, hformed, hmiss, hstop, hend, hchase⟩ hpos hleft hspace hsp htier hacr
    exact streamBeat_noUnit hst hrun hwake hformed hmiss hstop hend hspace hchase hpos hleft hsp htier hacr
  case node =>
    rintro ws ⟨hrun, hwake, hformed, hmiss, hstop, hend, hchase⟩ hleft hspace hcalm hsp hnode hlink hws v
    exact ⟨nodeTok st.blk st.gen ws, streamBeat_node hst hrun hwake hformed hmiss hstop hend hchase hleft hspace hcalm hsp
      hnode hlink hws, rfl, rfl, rfl, fun i hi => nodeTok_get _ _ _ hi⟩
  case miss =>
    intro m hrun hwake hformed hmiss hspace inPage
    exact streamBeat_miss hst hrun hwake hspace hformed hmiss
  case formed =>
    intro m hrun hwake hm hspace hcalm
    exact streamBeat_formed hst hrun hwake hspace hm hcalm
  case write =>
    intro q more p lane j rest w hwake hagq hhold hitems hkind hsp hraw halign hw hheld hwf
    exact streamWrite_element hwake hagq hhold hitems hkind hsp hraw halign hw hheld hwf
  case gather =>
    intro q more p lane j rest v psn hwake hagq hhold hitems hkind hsp hraw hscen hbits halign hlane hread
    have hexec := streamWrite_gather hwake hagq hhold hitems hkind hsp hraw hscen hbits halign hread
    refine ⟨_, putLane q.res lane v psn true, hexec, ?_, rfl, rfl, rfl, fun hrest => ?_, fun hrest => ⟨?_, ?_⟩⟩
    · rw [State.markActive_mem, State.stepAcc_mem]
    · rw [State.markActive_ag, State.stepAcc_accs hagq, accsLeft, if_neg hrest]
    · rw [State.markActive_ag, State.stepAcc_accs hagq, accsLeft, if_pos hrest]
    · rw [State.markActive_ag]
      exact s.stepAcc_result k hkind hrest

end Sys2Proof.Machine

/-! ## Copies (R187, R189 to R195) -/

namespace Sys2Proof.Machine

open Sys2Proof

/-! ### Templates and queues of a core -/

section Parts

variable (y : Core) (n q : Nat)

theorem Core.tmpl_modTmpl (g : Template → Template) : (y.modTmpl n g).tmpl n = g (y.tmpl n) := Tab.get_set_self ..

theorem Core.tmpl_modTmpl_ne {m : Nat} (g : Template → Template) (h : m ≠ n) : (y.modTmpl n g).tmpl m = y.tmpl m :=
  Tab.get_set_ne _ _ _ h

theorem Core.queue_modTmpl (g : Template → Template) (m : Nat) : (y.modTmpl n g).queue m = y.queue m := rfl

theorem Core.queue_modQueue (g : CopyQueue → CopyQueue) : (y.modQueue q g).queue q = g (y.queue q) := Tab.get_set_self ..

theorem Core.queue_modQueue_ne {m : Nat} (g : CopyQueue → CopyQueue) (h : m ≠ q) : (y.modQueue q g).queue m = y.queue m :=
  Tab.get_set_ne _ _ _ h

theorem Core.tmpl_bindQueue (m : Nat) : (y.bindQueue q n).tmpl m = y.tmpl m := rfl

/-- A queue bound to a template, with WPRST applied (R187). -/
theorem Core.queue_bindQueue : (y.bindQueue q n).queue q =
    { y.queue q with bound := some n, wp := if bWprst (y.tmpl n).blk then 0 else (y.queue q).wp } :=
  Core.queue_modQueue ..

theorem Core.queue_bindQueue_ne {m : Nat} (h : m ≠ q) : (y.bindQueue q n).queue m = y.queue m := Core.queue_modQueue_ne _ _ _ h

end Parts

/-! ### The copy instructions (R190) -/

/-- Memory and every other core stand as they did. -/
def WorksInCore (c : Nat) (s t : State) : Prop := t.mem = s.mem ∧ ∀ j, j ≠ c → t.core j = s.core j

section CopyOps

variable {f : Fields} {s : State} {h : Hdr} {a b : Word}

/-- A firing that changes its core leaves memory and every other core. -/
theorem next_setCore {o : Op} (g : Core → Core) (hdoes : Does o f s { consumed f with
      eff := fun t => t.setCore (tileCore s.focus.tile) (g (t.core (tileCore s.focus.tile))) }) :
    ∃ t, exec (o.mk f) s = .next t ∧ WorksInCore (tileCore s.focus.tile) s t ∧
      t.core (tileCore s.focus.tile) = g (s.core (tileCore s.focus.tile)) := by
  have hcore := s.commit_core (s.seen o f) (consumed f) rfl rfl
  refine ⟨_, hdoes.trans (congrArg _ (s.commit_eff _ _ rfl)), ⟨?_, fun j hj => ?_⟩, ?_⟩
  · exact s.commit_mem _ (consumed f) rfl rfl
  · exact (State.core_setCore_ne _ _ hj).trans (hcore j)
  · rw [State.core_setCore]
    exact congrArg g (hcore _)

/-- A firing stopped by a fault. -/
theorem next_raise {o : Op} {body : Ctx → Except Flt Done} (he : exec (o.mk f) s = issue o f s body) (hf : Fires o f s)
    (hh : (s.seen o f).header = .ok h) {code : Nat} {w3 w4 w5 : Word}
    (hb : body (s.seen o f) = .error ((s.seen o f).flt code w3 w4 w5)) : exec (o.mk f) s =
      .next ((s.markActive s.focus.tile).raise s.focus.tile s.focus.pool s.focus.slot code h.gen w3 w4 w5) := by
  refine he.trans ((issue_error hf hb).trans ?_)
  rw [State.raiseFlt, Ctx.flt, Ctx.gen_of_header hh]
  rfl

/-- The program that an armed block names (R196). -/
def State.armedProg (s : State) (core : Nat) (blk : Lanes) : List (BitVec 32) :=
  if bPmen blk then s.pmProgram (coreCluster core) (bPmp blk) else []

/-- A core with a template armed, and bound under bit 16 of B (R190). -/
def Core.arm (y : Core) (blk : Lanes) (prog : List (BitVec 32)) (b : Word) : Core :=
  let y1 := y.modTmpl (b.extractLsb' 0 6).toNat fun z => { z with blk := blk, prog := prog, armed := true, count := 0 }
  if b.getLsbD 16 then y1.bindQueue (b.extractLsb' 8 6).toNat (b.extractLsb' 0 6).toNat else y1

section Arm

variable (y : Core) (blk : Lanes) (prog : List (BitVec 32))

theorem Core.tmpl_arm (m : Nat) : (y.arm blk prog b).tmpl m = (y.modTmpl (b.extractLsb' 0 6).toNat fun z =>
    { z with blk := blk, prog := prog, armed := true, count := 0 }).tmpl m := by
  unfold Core.arm
  dsimp only
  split
  · exact Core.tmpl_bindQueue ..
  · rfl

theorem Core.armed_unbound (h : b.getLsbD 16 = false) : y.arm blk prog b = y.modTmpl (b.extractLsb' 0 6).toNat fun z =>
    { z with blk := blk, prog := prog, armed := true, count := 0 } := by
  rw [Core.arm, h, if_neg Bool.false_ne_true]

theorem Core.queue_arm (h : b.getLsbD 16 = true) : (y.arm blk prog b).queue (b.extractLsb' 8 6).toNat =
    { y.queue (b.extractLsb' 8 6).toNat with
      bound := some (b.extractLsb' 0 6).toNat
      wp := if bWprst blk then 0 else (y.queue (b.extractLsb' 8 6).toNat).wp } := by
  rw [Core.arm, if_pos h, Core.queue_bindQueue, Core.tmpl_modTmpl, Core.queue_modTmpl]

end Arm

theorem tarm_arms (hf : Fires .tarm f s) (hh : (s.seen .tarm f).header = .ok h) (hb : (s.seen .tarm f).intB = .ok b)
    (hc : checkCopy (maskLanes (s.seen .tarm f).a) = none)
    (hpm : bPmen (maskLanes (s.seen .tarm f).a) = true →
      pmCheck (s.armedProg (tileCore s.focus.tile) (maskLanes (s.seen .tarm f).a)) = none) :
    ∃ t, exec (.tarm f) s = .next t ∧ WorksInCore (tileCore s.focus.tile) s t ∧ t.core (tileCore s.focus.tile) =
      (s.core (tileCore s.focus.tile)).arm (maskLanes (s.seen .tarm f).a)
        (s.armedProg (tileCore s.focus.tile) (maskLanes (s.seen .tarm f).a)) b := by
  have hprog : (if bPmen (maskLanes (s.seen .tarm f).a) then
      pmCheck (s.armedProg (tileCore s.focus.tile) (maskLanes (s.seen .tarm f).a)) else none) = none := by
    split
    · exact hpm ‹_›
    · rfl
  refine next_setCore (o := .tarm) (fun y => y.arm (maskLanes (s.seen .tarm f).a)
    (s.armedProg (tileCore s.focus.tile) (maskLanes (s.seen .tarm f).a)) b)
    (does_of_issue (show exec (.tarm f) s = execTarm f s from rfl) hf ?_)
  unfold State.armedProg at hprog
  have hk : (s.seen .tarm f).k = s.focus.tile := rfl
  simp only [hb, hh, ok_bind, hc, hk, hprog, State.armedProg, Core.arm, fld_extract b 5 0 (by decide),
    fld_extract b 13 8 (by decide)]
  rfl

theorem tarm_badBlock (hf : Fires .tarm f s) (hh : (s.seen .tarm f).header = .ok h) (hb : (s.seen .tarm f).intB = .ok b)
    {i : Nat} (hc : checkCopy (maskLanes (s.seen .tarm f).a) = some i) : exec (.tarm f) s =
      .next ((s.markActive s.focus.tile).raise s.focus.tile s.focus.pool s.focus.slot 0x44 h.gen (w64 i) 0
        (bUser (maskLanes (s.seen .tarm f).a))) := by
  refine next_raise (o := .tarm) (show exec (.tarm f) s = execTarm f s from rfl) hf hh ?_
  simp only [hb, hh, ok_bind, hc]
  rfl

theorem tarm_badProg (hf : Fires .tarm f s) (hh : (s.seen .tarm f).header = .ok h) (hb : (s.seen .tarm f).intB = .ok b)
    (hc : checkCopy (maskLanes (s.seen .tarm f).a) = none) (hen : bPmen (maskLanes (s.seen .tarm f).a) = true) {i : Nat}
    (hpm : pmCheck (s.armedProg (tileCore s.focus.tile) (maskLanes (s.seen .tarm f).a)) = some i) : exec (.tarm f) s =
      .next ((s.markActive s.focus.tile).raise s.focus.tile s.focus.pool s.focus.slot 0x45 h.gen
        (w64 (bPmp (maskLanes (s.seen .tarm f).a) + i * 256))
        (((s.armedProg (tileCore s.focus.tile) (maskLanes (s.seen .tarm f).a)).getD i 0).setWidth 64) 0) := by
  refine next_raise (o := .tarm) (show exec (.tarm f) s = execTarm f s from rfl) hf hh ?_
  rw [State.armedProg, if_pos hen] at hpm ⊢
  have hk : (s.seen .tarm f).k = s.focus.tile := rfl
  simp only [hb, hh, ok_bind, hc, hen, hk, if_true, hpm]

theorem tbind_binds (hf : Fires .tbind f s) (hh : (s.seen .tbind f).header = .ok h) (ha : (s.seen .tbind f).intA = .ok a)
    (hb : (s.seen .tbind f).intB = .ok b)
    (harm : ((s.core (tileCore s.focus.tile)).tmpl (a.extractLsb' 0 6).toNat).armed = true) :
    ∃ t, exec (.tbind f) s = .next t ∧ WorksInCore (tileCore s.focus.tile) s t ∧ t.core (tileCore s.focus.tile) =
      (s.core (tileCore s.focus.tile)).bindQueue (b.extractLsb' 0 6).toNat (a.extractLsb' 0 6).toNat := by
  refine next_setCore (o := .tbind) (·.bindQueue (b.extractLsb' 0 6).toNat (a.extractLsb' 0 6).toNat)
    (does_of_issue (show exec (.tbind f) s = execTbind f s from rfl) hf ?_)
  have hk : (s.seen .tbind f).k = s.focus.tile := rfl
  simp only [ha, hb, hh, ok_bind, hk, fld_extract a 5 0 (by decide), fld_extract b 5 0 (by decide), harm, Bool.not_true,
    Bool.false_eq_true, if_false]
  rfl

theorem tbind_refused (hf : Fires .tbind f s) (hh : (s.seen .tbind f).header = .ok h) (ha : (s.seen .tbind f).intA = .ok a)
    (hb : (s.seen .tbind f).intB = .ok b)
    (harm : ((s.core (tileCore s.focus.tile)).tmpl (a.extractLsb' 0 6).toNat).armed = false) : exec (.tbind f) s =
      .next ((s.markActive s.focus.tile).raise s.focus.tile s.focus.pool s.focus.slot 0x44 h.gen 8 0 0) := by
  refine next_raise (o := .tbind) (show exec (.tbind f) s = execTbind f s from rfl) hf hh ?_
  have hk : (s.seen .tbind f).k = s.focus.tile := rfl
  simp only [ha, hb, hh, ok_bind, hk, fld_extract a 5 0 (by decide), harm, Bool.not_false, if_true]
  rfl

/-! ### The output of a template's SPACE tokens (R194) -/

/-- A template gives its output back. -/
def PoolSt.disown (x : PoolSt) (n o : Nat) : PoolSt :=
  { x with outs := x.outs.modify o fun y => if y.owner = some (.template n) then { y with owner := none } else y }

theorem State.core_modPool (s : State) (k : Nat) (p : Pool) (g : PoolSt → PoolSt) (c : Nat) :
    (s.modPool k p g).core c = s.core c := rfl

/-- Memory, the other cores and the outputs that a pool has stand as they did. -/
structure SameButOuts (core : Nat) (s t : State) : Prop where
  works : WorksInCore core s t
  outs : ∀ j, (t.tile j).ag.outs.length = (s.tile j).ag.outs.length

theorem SameButOuts.trans {core : Nat} {s t u : State} (h : SameButOuts core s t) (h' : SameButOuts core t u) :
    SameButOuts core s u :=
  ⟨⟨h'.works.1.trans h.works.1, fun j hj => (h'.works.2 j hj).trans (h.works.2 j hj)⟩,
    fun j => (h'.outs j).trans (h.outs j)⟩

theorem SameButOuts.setCore (core : Nat) (s : State) (y : Core) : SameButOuts core s (s.setCore core y) :=
  ⟨⟨rfl, fun _ hj => s.core_setCore_ne y hj⟩, fun _ => rfl⟩

theorem SameButOuts.modPool (core : Nat) (s : State) (k : Nat) {g : PoolSt → PoolSt}
    (hg : ∀ x, (g x).outs.length = x.outs.length) : SameButOuts core s (s.modPool k .ag g) := by
  refine ⟨⟨rfl, fun _ _ => rfl⟩, fun j => ?_⟩
  by_cases hj : j = k
  · subst hj
    rw [State.ag_modPool]
    exact hg _
  · exact congrArg (fun t : Tile => t.ag.outs.length) (s.tile_setTile_ne _ hj)

theorem freeSpaceOut_keeps (s : State) (core n : Nat) : SameButOuts core s (s.freeSpaceOut core n) := by
  unfold State.freeSpaceOut
  split
  · exact (SameButOuts.modPool core s _ fun _ => List.length_modify ..).trans (.setCore core _ _)
  · exact ⟨⟨rfl, fun _ _ => rfl⟩, fun _ => rfl⟩

theorem freeSpaceOut_tmpl (s : State) (core n : Nat) : (((s.freeSpaceOut core n).core core).tmpl n).spaceOut = none := by
  unfold State.freeSpaceOut
  split
  · rw [State.core_setCore, Core.tmpl_modTmpl]
  · assumption

/-- A template takes an output for its SPACE tokens. -/
def State.takeSpaceOut (s : State) (core n k o : Nat) : State :=
  let s2 := s.modPool k .ag (·.own o (.template n))
  s2.setCore core ((s2.core core).modTmpl n fun x => { x with spaceOut := some (k, o) })

theorem takeSpaceOut_keeps (s : State) (core n k o : Nat) : SameButOuts core s (s.takeSpaceOut core n k o) :=
  (SameButOuts.modPool core s k fun _ => List.length_modify ..).trans (.setCore core _ _)

theorem takeSpaceOut_tmpl (s : State) (core n k o : Nat) :
    (((s.takeSpaceOut core n k o).core core).tmpl n).spaceOut = some (k, o) := by
  rw [State.takeSpaceOut, State.core_setCore, Core.tmpl_modTmpl]

theorem takeSpaceOut_owner (s : State) (core n k : Nat) {o : Nat} (h : o < (s.tile k).ag.outs.length) :
    (((s.takeSpaceOut core n k o).tile k).ag.out o).owner = some (.template n) := by
  have hag : ((s.takeSpaceOut core n k o).tile k).ag = (s.tile k).ag.own o (.template n) := State.ag_modPool ..
  rw [hag]
  exact congrArg OutPort.owner (PoolSt.out_modify _ h)

/-- A firing that only consumes leaves the AG pool its outputs. -/
theorem commit_consumed_outs (s : State) (o : Op) (f : Fields) (j : Nat) :
    ((s.commit (s.seen o f) (consumed f)).tile j).ag.outs.length = (s.tile j).ag.outs.length := by
  by_cases hj : j = s.focus.tile
  · subst hj
    refine (congrArg (fun t : Tile => t.ag.outs.length) (s.commit_tile (s.seen o f) (consumed f) rfl rfl)).trans ?_
    show (((s.tile s.focus.tile).modPool (s.seen o f).p fun x => x.fire (s.seen o f) (consumed f)).ag).outs.length = _
    cases (s.seen o f).p
    case ag => exact congrArg List.length (PoolSt.fire_outs ..)
    all_goals rfl
  · rw [s.commit_tile_ne (s.seen o f) (consumed f) rfl rfl hj]

/-- The output that TMC leaves a template. -/
def State.spaceGiven (s : State) (core n k o : Nat) (b : Word) : State :=
  if b.getLsbD 0 then (s.freeSpaceOut core n).takeSpaceOut core n k o else s.freeSpaceOut core n

theorem spaceGiven_keeps (s : State) (core n k o : Nat) (b : Word) : SameButOuts core s (s.spaceGiven core n k o b) := by
  unfold State.spaceGiven
  split
  · exact (freeSpaceOut_keeps s core n).trans (takeSpaceOut_keeps ..)
  · exact freeSpaceOut_keeps s core n

theorem spaceGiven_tmpl (s : State) (core n k o : Nat) (b : Word) :
    (((s.spaceGiven core n k o b).core core).tmpl n).spaceOut = if b.getLsbD 0 then some (k, o) else none := by
  unfold State.spaceGiven
  split
  · exact takeSpaceOut_tmpl ..
  · exact freeSpaceOut_tmpl ..

theorem spaceGiven_owner (s : State) (core n k : Nat) {o : Nat} (h : o < (s.tile k).ag.outs.length) {b : Word}
    (hb : b.getLsbD 0 = true) : (((s.spaceGiven core n k o b).tile k).ag.out o).owner = some (.template n) := by
  rw [State.spaceGiven, if_pos hb]
  exact takeSpaceOut_owner _ core n k (by rwa [(freeSpaceOut_keeps s core n).outs])

theorem tmc_next (hf : Fires .tmc f s) (hh : (s.seen .tmc f).header = .ok h) (ha : (s.seen .tmc f).intA = .ok a)
    (hb : (s.seen .tmc f).intB = .ok b) : exec (.tmc f) s = .next ((s.commit (s.seen .tmc f) (consumed f)).spaceGiven
      (tileCore s.focus.tile) (a.extractLsb' 0 6).toNat s.focus.tile (f.md.toNat % 4) b) := by
  have hdoes : Does .tmc f s { consumed f with
      eff := fun t => t.spaceGiven (tileCore s.focus.tile) (a.extractLsb' 0 6).toNat s.focus.tile (f.md.toNat % 4) b } := by
    refine does_of_issue (show exec (.tmc f) s = execTmc f s from rfl) hf ?_
    have hk : (s.seen .tmc f).k = s.focus.tile := rfl
    simp only [ha, hb, hh, ok_bind, hk, fld_extract a 5 0 (by decide)]
    rfl
  exact hdoes.trans (congrArg _ (s.commit_eff _ _ rfl))

theorem tmc_gives (hf : Fires .tmc f s) (hh : (s.seen .tmc f).header = .ok h) (ha : (s.seen .tmc f).intA = .ok a)
    (hb : (s.seen .tmc f).intB = .ok b) : ∃ t, exec (.tmc f) s = .next t ∧ WorksInCore (tileCore s.focus.tile) s t ∧
      ((t.core (tileCore s.focus.tile)).tmpl (a.extractLsb' 0 6).toNat).spaceOut =
        (if b.getLsbD 0 then some (s.focus.tile, f.md.toNat % 4) else none) ∧
      (b.getLsbD 0 = true → f.md.toNat % 4 < (s.tile s.focus.tile).ag.outs.length →
        ((t.tile s.focus.tile).ag.out (f.md.toNat % 4)).owner = some (.template (a.extractLsb' 0 6).toNat)) := by
  have hcommit : SameButOuts (tileCore s.focus.tile) s (s.commit (s.seen .tmc f) (consumed f)) :=
    ⟨⟨s.commit_mem _ (consumed f) rfl rfl, fun j _ => s.commit_core _ (consumed f) rfl rfl j⟩,
      commit_consumed_outs s .tmc f⟩
  refine ⟨_, tmc_next hf hh ha hb, (hcommit.trans (spaceGiven_keeps ..)).works, spaceGiven_tmpl .., fun hgive ho => ?_⟩
  exact spaceGiven_owner _ _ _ _ (by rwa [hcommit.outs]) hgive

end CopyOps

end Sys2Proof.Machine

/-! ## The steps of a copy engine (R191 to R195) -/

namespace Sys2Proof.Machine

open Sys2Proof

/-! ### The run of an engine -/

/-- A core with an engine changed. -/
def Core.modEng (y : Core) (e : Nat) (g : CopyEng → CopyEng) : Core := { y with engs := y.engs.modify e g }

theorem Core.eng_modEng {y : Core} {e : Nat} (g : CopyEng → CopyEng) (h : e < y.engs.length) :
    (y.modEng e g).eng e = g (y.eng e) := by
  rw [Core.eng, Core.modEng, modify_eq_set_getD _ _ _ ⟨none, 63⟩, List.getD_eq_getElem?_getD, List.getElem?_set_self h]
  rfl

/-- An engine that runs a copy is one of its core. -/
theorem Core.eng_lt {y : Core} {e : Nat} {r : CopyRun} (h : (y.eng e).run = some r) : e < y.engs.length := by
  by_contra he
  rw [Core.eng, List.getD_eq_default _ _ (Nat.le_of_not_lt he)] at h
  cases h

theorem State.modRun_eq (s : State) (c e : Nat) (g : CopyRun → CopyRun) :
    s.modRun c e g = s.setCore c ((s.core c).modEng e fun x => { x with run := x.run.map g }) := rfl

theorem State.run_modRun {s : State} {c e : Nat} {r : CopyRun} (h : ((s.core c).eng e).run = some r) (g : CopyRun → CopyRun) :
    (((s.modRun c e g).core c).eng e).run = some (g r) := by
  rw [State.modRun_eq, State.core_setCore, Core.eng_modEng _ (Core.eng_lt h), h]
  rfl

theorem State.queue_modRun (s : State) (c e : Nat) (g : CopyRun → CopyRun) (q : Nat) :
    ((s.modRun c e g).core c).queue q = (s.core c).queue q := by
  rw [State.modRun_eq, State.core_setCore]
  rfl

/-! ### COPY_START (R191, R192, R194) -/

theorem exec_copyStart (c : Fin 64) (e : Fin 4) (s : State) : exec (.copyStart c e) s = execCopyStart c e s := rfl

/-- The copy of the head of a queue as its engine starts it. -/
def Core.started (y : Core) (q n : Nat) (p : Posted) (order : Nat) : CopyRun :=
  ⟨q, n, paramBlock (y.tmpl n).blk p.tok, (y.tmpl n).prog, p, 0, 0,
    if bPmen (paramBlock (y.tmpl n).blk p.tok) then some ⟨0, 0, [], 0, 0, 0, false⟩ else none, false, [], [], [],
    (y.tmpl n).count + 1, none, false, order⟩

/-- A core whose engine has started a copy. -/
def Core.start (y : Core) (e q n : Nat) (p : Posted) (order : Nat) : Core :=
  (y.modTmpl n fun x => { x with count := (y.tmpl n).count + 1 }).modEng e fun _ => ⟨some (y.started q n p order), q⟩

theorem Core.eng_start {y : Core} {e : Nat} (he : e < y.engs.length) (q n : Nat) (p : Posted) (order : Nat) :
    (y.start e q n p order).eng e = ⟨some (y.started q n p order), q⟩ :=
  Core.eng_modEng (y := y.modTmpl n _) _ he

theorem copyStart_next {s : State} {c : Fin 64} {e : Fin 4} {q n : Nat} {p : Posted} {rest : List Posted}
    (hidle : ((s.core c.val).eng e.val).run = none) (hq : (s.core c.val).nextQueue e.val = some q)
    (htoks : ((s.core c.val).queue q).toks = p :: rest) (hbound : ((s.core c.val).queue q).bound = some n)
    (hspace : bMcn (paramBlock ((s.core c.val).tmpl n).blk p.tok) = 0 ∨ ((s.core c.val).tmpl n).spaceOut ≠ none) :
    exec (.copyStart c e) s = .next ((s.takeOrder.2).setCore c.val ((s.core c.val).start e.val q n p s.order)) := by
  have hout : (decide (1 < branches (paramBlock ((s.core c.val).tmpl n).blk p.tok)) &&
      ((s.core c.val).tmpl n).spaceOut.isNone) = false := by
    rcases hspace with h | h
    · simp [branches, h]
    · simp [Option.isNone_eq_false_iff, Option.isSome_iff_ne_none, h]
  rw [exec_copyStart, execCopyStart]
  simp only [hidle, Option.isSome_none, Bool.false_eq_true, if_false, hq, htoks, hbound, hout]
  rfl

/-! ### BRANCH_COMPLETE (R194) -/

theorem exec_branchComplete (c : Fin 64) (e : Fin 4) (s : State) : exec (.branchComplete c e) s = execBranchComplete c e s := rfl

theorem State.core_sendOut (s : State) (k : Nat) (p : Pool) (n : Nat) (t : Tok) (c : Nat) : (s.sendOut k p n t).core c = s.core c := by
  unfold State.sendOut
  split
  · unfold State.modChan
    split <;> rfl
  · rfl

theorem State.core_markActive (s : State) (k c : Nat) : (s.markActive k).core c = s.core c := by
  unfold State.markActive
  split
  · unfold State.modRegion
    split <;> rfl
  · rfl

theorem State.core_streamSend (s : State) (k o : Nat) (t : Tok) (c : Nat) : (s.streamSend k o t).core c = s.core c := by
  rw [State.streamSend, State.core_markActive, State.core_sendOut]
  rfl

/-- SIDE of a SPACE token: the branch, and the firing count. -/
theorem spaceSide_eq (j count : Nat) :
    spaceSide j count = BitVec.ofNat 4 j ++ (0 : BitVec 4) ++ BitVec.ofNat 16 count := by
  refine BitVec.eq_of_toNat_eq ?_
  have hzero : (0 : BitVec 4).toNat = 0 := rfl
  rw [BitVec.toNat_append, BitVec.toNat_append, ← Nat.shiftLeft_add_eq_or_of_lt (BitVec.isLt _),
    ← Nat.shiftLeft_add_eq_or_of_lt (BitVec.isLt _), hzero]
  simp only [spaceSide, BitVec.toNat_ofNat, Nat.shiftLeft_eq]
  omega

theorem branchComplete_next {s : State} {c : Fin 64} {e : Fin 4} {r : CopyRun} {j : Nat} {rest : List Nat} {d o : Nat}
    (hrun : ((s.core c.val).eng e.val).run = some r) (hspaces : r.spaces = j :: rest)
    (hout : ((s.core c.val).tmpl r.tmpl).spaceOut = some (d, o)) (hspace : ((s.tile d).ag.out o).space = true) :
    exec (.branchComplete c e) s = .next ((s.streamSend d o (ctlTok 4 (spaceSide j r.count) false 0)).modRun c.val e.val
      fun v => { v with spaces := rest }) := by
  rw [exec_branchComplete, execBranchComplete]
  simp only [hrun, hspaces, hout, hspace, if_true]

/-! ### COPY_END (R192) -/

theorem exec_copyEnd (c : Fin 64) (e : Fin 4) (s : State) : exec (.copyEnd c e) s = execCopyEnd c e s := rfl

/-- A core whose engine has ended the copy of a queue's head. -/
def Core.ended (y : Core) (e q : Nat) : Core :=
  (y.modEng e fun x => { x with run := none }).modQueue q fun x => { x with toks := x.toks.drop 1 }

theorem copyEnd_next {s : State} {c : Fin 64} {e : Fin 4} {r : CopyRun} (hrun : ((s.core c.val).eng e.val).run = some r)
    (hmoved : r.moved = true) (hpend : r.pend = []) (howed : r.owed = []) (hspaces : r.spaces = [])
    (hheld : s.branchHeld c.val e.val none = false) :
    exec (.copyEnd c e) s = .next (s.setCore c.val ((s.core c.val).ended e.val r.queue)) := by
  rw [exec_copyEnd, execCopyEnd]
  simp only [hrun, hmoved, hpend, howed, hspaces, hheld, List.isEmpty_nil, Bool.not_false, Bool.and_self, if_true]
  rfl

theorem Core.run_ended {y : Core} {e : Nat} {r : CopyRun} (h : (y.eng e).run = some r) (q : Nat) :
    ((y.ended e q).eng e).run = none :=
  congrArg CopyEng.run (Core.eng_modEng (fun x => { x with run := none }) (Core.eng_lt h))

theorem Core.toks_ended (y : Core) (e q : Nat) : ((y.ended e q).queue q).toks = (y.queue q).toks.drop 1 :=
  congrArg CopyQueue.toks (Core.queue_modQueue ..)

/-! ### A word copied (R186, R187, R193) -/

theorem State.core_putWord (s : State) (w : Nat) (mask : BitVec 8) (v : Word) (psn : Bool) (c : Nat) :
    (s.putWord w mask v psn).core c = s.core c := by
  unfold State.putWord
  dsimp only
  split
  · split <;> rfl
  · rfl

theorem State.heldWrites_putWord (s : State) (w : Nat) (mask : BitVec 8) (v : Word) (psn : Bool) (j : Nat) :
    ((s.putWord w mask v psn).tile j).eng.heldWrites = (s.tile j).eng.heldWrites := by
  unfold State.putWord
  dsimp only
  split
  next k i _ =>
    split
    · by_cases hj : j = k
      · subst hj
        rw [State.tile_setTile]
      · rw [State.tile_setTile_ne _ _ hj]
        rfl
    · rfl
  · rfl

theorem State.core_countTag (s : State) (core ntile ctag c : Nat) : (s.countTag core ntile ctag).core c = s.core c := by
  unfold State.countTag
  split <;> rfl

/-- A word written leaves the words that banks hold of a copy. -/
theorem State.wordOpen_putWord (s : State) (w : Nat) (mask : BitVec 8) (v : Word) (psn : Bool) (c e : Nat) (b : Lanes)
    (x : Int) : (s.putWord w mask v psn).wordOpen c e b x = s.wordOpen c e b x := by
  simp only [State.wordOpen, (SameAccs.putWord s w mask v psn).engWord, State.heldWrites_putWord]

theorem State.wordOpen_modRun (s : State) (c e : Nat) (g : CopyRun → CopyRun) (b : Lanes) (x : Int) :
    (s.modRun c e g).wordOpen c e b x = s.wordOpen c e b x := rfl

/-- The words of an element that is a whole word, and that the next element of its run does not touch. -/
theorem doneWords_aligned {bit : Int} (h : bit % 64 = 0) {next : Option Int}
    (hnext : ∀ n, next = some n → n % 64 = 0 ∧ n ≠ bit) :
    ((bitWords bit 64).filter fun w => !(next.elim ([] : List Int) fun n => bitWords n 64).contains w) = [bit / 64] := by
  rw [bitWords_aligned h]
  cases hn : next with
  | none => rfl
  | some n =>
    obtain ⟨halign, hne⟩ := hnext n hn
    have hword : n / 64 ≠ bit / 64 := by omega
    simp [bitWords_aligned halign, hword.symm]

section Single

variable {s : State} {c q d : Nat} {b : Lanes} {w : Int} (hmcn : bMcn b = 0) (hsp : bDsp b ≠ 4)
  (hw : s.engWord c (bDsp b) w = some d)

include hmcn hsp hw

/-- A word of a copy without branches is full, counted by its tag and in WP. -/
theorem State.copyWordDone_single : s.copyWordDone c q b w =
    let s1 := (s.putFull d true).countTag c (bNtile b) (bCtag b)
    s1.setCore c ((s1.core c).modQueue q fun x => { x with wp := (x.wp + 1) % 2 ^ 48 }) := by
  have hword : branchWord b w 0 = w := by simp [branchWord]
  simp only [State.copyWordDone, branches, hmcn, Nat.zero_add, List.range_one, List.foldl_cons, List.foldl_nil, hword, hw,
    if_neg hsp]

theorem State.copyWordDone_noted : DataKept s (s.copyWordDone c q b w) := by
  rw [State.copyWordDone_single hmcn hsp hw]
  exact (DataKept.ofWordsNoted ((WordsNoted.putFull s d true).trans (.countTag _ c _ _))).trans
    ⟨⟨fun _ => rfl, fun _ => rfl, fun _ => rfl⟩, fun _ => rfl, fun _ => rfl, id⟩

theorem State.copyWordDone_full : (s.copyWordDone c q b w).mem.isFull d = true := by
  rw [State.copyWordDone_single hmcn hsp hw]
  simp only [State.setCore_mem, State.countTag_mem]
  exact contains_putNat _ _

theorem State.copyWordDone_wp : (((s.copyWordDone c q b w).core c).queue q).wp = (((s.core c).queue q).wp + 1) % 2 ^ 48 := by
  rw [State.copyWordDone_single hmcn hsp hw]
  simp only [State.core_setCore, Core.queue_modQueue, State.core_countTag]
  rfl

end Single

/-- A word completed and no other waiting: the copy has nothing pending. -/
theorem State.settleCopy_single {s : State} {c e : Nat} {r : CopyRun} {w : Int} (hrun : ((s.core c).eng e).run = some r)
    (hpend : r.pend = [w]) (hopen : s.wordOpen c e r.blk w = false) :
    ∃ g, s.settleCopy c e = (s.copyWordDone c r.queue r.blk w).modRun c e g := by
  unfold State.settleCopy
  simp only [hrun, hpend, State.flushWords, hopen, Bool.false_eq_true, if_false]
  exact ⟨_, rfl⟩

section CopiedWord

variable {s : State} {c e : Nat} {r : CopyRun} {w : Word} {p : Bool} {d : Nat}

/-- The state in which an element's word has been written, and waits to be completed. -/
def State.wordWritten (s : State) (c e d : Nat) (r : CopyRun) (w : Word) (p : Bool) : State :=
  (s.putWord d 0xFF w p).modRun c e fun x => { x with pend := x.pend ++ [dstBit r.blk r.pos / 64] }

theorem State.wordWritten_accs (s : State) (c e d : Nat) (r : CopyRun) (w : Word) (p : Bool) :
    SameAccs s (s.wordWritten c e d r w p) :=
  (SameAccs.putWord s d 0xFF w p).trans ⟨fun _ => rfl, fun _ => rfl, fun _ => rfl⟩

theorem State.wordWritten_mem (s : State) (c e d : Nat) (r : CopyRun) (w : Word) (p : Bool) :
    (s.wordWritten c e d r w p).mem = s.mem.writeWord d w p := s.putWord_mem d 0xFF w p

theorem State.wordWritten_queue (s : State) (c e d : Nat) (r : CopyRun) (w : Word) (p : Bool) (q : Nat) :
    ((s.wordWritten c e d r w p).core c).queue q = (s.core c).queue q := by
  rw [State.wordWritten, State.queue_modRun, State.core_putWord]

/-- A copied word is completed at once, as no bank holds one of its copy (R187). -/
theorem State.settleCopy_written (hrun : ((s.core c).eng e).run = some r) (hpend : r.pend = [])
    (hopen : s.wordOpen c e r.blk (dstBit r.blk r.pos / 64) = false) : ∃ g, (s.wordWritten c e d r w p).settleCopy c e =
      ((s.wordWritten c e d r w p).copyWordDone c r.queue r.blk (dstBit r.blk r.pos / 64)).modRun c e g := by
  have hrun' : (((s.wordWritten c e d r w p).core c).eng e).run =
      some { r with pend := r.pend ++ [dstBit r.blk r.pos / 64] } :=
    State.run_modRun (by rwa [State.core_putWord]) _
  have hopen' : (s.wordWritten c e d r w p).wordOpen c e r.blk (dstBit r.blk r.pos / 64) = false := by
    rw [State.wordWritten, State.wordOpen_modRun, State.wordOpen_putWord, hopen]
  obtain ⟨g, hsettle⟩ := State.settleCopy_single hrun' (by rw [hpend]; rfl) hopen'
  exact ⟨g, hsettle⟩

variable (hdfmt : bDfmt r.blk = fmtRaw) (hmcn : bMcn r.blk = 0) (hdsp : bDsp r.blk = 2 ∨ bDsp r.blk = 3)
  (hdst : dstBit r.blk r.pos % 64 = 0) (hd : s.engWord c (bDsp r.blk) (dstBit r.blk r.pos / 64) = some d)
  (hheld : s.wordHeld d = false)

include hdfmt hmcn hdsp hdst hd hheld

theorem State.copyPut_raw {next : Option Int} (hnext : ∀ n, next = some n → n % 64 = 0 ∧ n ≠ dstBit r.blk r.pos) :
    s.copyPut c e r (dstBit r.blk r.pos) next w.toNat p = .ok ((s.wordWritten c e d r w p).settleCopy c e) := by
  have hwidth : widthOf (bDfmt r.blk) = 64 := by rw [hdfmt]; rfl
  have hkv : bDsp r.blk ≠ 1 := by omega
  have hbranch : branchBit r.blk (dstBit r.blk r.pos) 0 = dstBit r.blk r.pos := by simp [branchBit]
  have hstore : s.storeBranches c e r.blk (dstBit r.blk r.pos) w.toNat p [0] = .ok (s.putWord d 0xFF w p) := by
    simp only [State.storeBranches, hbranch, hwidth, s.chipStore_aligned _ hdst hd hheld]
  simp only [State.copyPut, if_neg hkv, branches, hmcn, Nat.zero_add, List.range_one, hstore, hwidth,
    doneWords_aligned hdst hnext]
  rfl

variable (hsfmt : bSfmt r.blk = fmtRaw) (hscen : bScen r.blk = false) (hssp : bSsp r.blk ≠ 0)
  (hsrc : srcBit r.blk r.pos % 64 = 0) (hdst' : dstBit r.blk (r.pos + 1) % 64 = 0)
  (hread : s.chipRead c (bSsp r.blk) (srcBit r.blk r.pos / 64) = some (w, p))
  (hmove : r.pos % bN0 r.blk + 1 < bN0 r.blk → dstBit r.blk (r.pos + 1) ≠ dstBit r.blk r.pos)

include hsfmt hscen hssp hsrc hdst' hread hmove

/-- An element of a copy from RAW64 to RAW64 on chip (R193). -/
theorem State.copyElem_raw : ∃ g, (s.copyElem c e r).2 =
    ((s.wordWritten c e d r w (p || r.tok.tok.psn)).settleCopy c e).modRun c e g := by
  have hwords : srcWords r.blk r.pos = [srcBit r.blk r.pos / 64] := srcWords_raw hsfmt hscen hsrc
  obtain ⟨t, hfetch, hget⟩ := State.fetch_chip (s := s) (g := copyAgent c e r) hssp (srcWords r.blk r.pos) (by
    intro x hx
    rw [hwords, List.mem_singleton] at hx
    rw [hx, show (copyAgent c e r).core = c from rfl, hread]
    rfl)
  have helem : elemWord r.blk t r.pos = (w, p) := by
    rw [elemWord, hget _ (by rw [hwords]; exact List.mem_singleton_self _)]
    exact State.chipWord_of_read hread
  have hcode : ∀ v, copyCode r.blk w.toNat v = (w.toNat, false) := fun v => by simp [copyCode, hsfmt, hdfmt]
  have hput := State.copyPut_raw (e := e) (w := w) (p := p || r.tok.tok.psn) hdfmt hmcn hdsp hdst hd hheld
    (next := if r.pos % bN0 r.blk + 1 < bN0 r.blk then some (dstBit r.blk (r.pos + 1)) else none) (by
      intro n hn
      split at hn
      · cases hn
        exact ⟨hdst', hmove ‹_›⟩
      · cases hn)
  simp only [State.copyElem, hfetch, elemFrom_raw hsfmt hscen hsrc, helem, hcode, hput, State.copyWrote,
    Bool.false_eq_true, if_false, if_true]
  exact ⟨_, rfl⟩

/-- The word moves unchanged, full and counted. -/
theorem State.copyElem_word (hrun : ((s.core c).eng e).run = some r) (hpend : r.pend = [])
    (hopen : s.wordOpen c e r.blk (dstBit r.blk r.pos / 64) = false) (hwf : s.mem.wf = true) :
    (s.copyElem c e r).2.mem.word d = w ∧ (s.copyElem c e r).2.mem.isPsn d = (p || r.tok.tok.psn) ∧
      (s.copyElem c e r).2.mem.isFull d = true ∧
      (∀ x, x / 8 ≠ d → (s.copyElem c e r).2.mem.byte x = s.mem.byte x) ∧
      (((s.copyElem c e r).2.core c).queue r.queue).wp = (((s.core c).queue r.queue).wp + 1) % 2 ^ 48 := by
  obtain ⟨g, helem⟩ := State.copyElem_raw hdfmt hmcn hdsp hdst hd hheld hsfmt hscen hssp hsrc hdst' hread hmove (e := e)
  obtain ⟨g', hsettle⟩ := State.settleCopy_written (d := d) (w := w) (p := p || r.tok.tok.psn) hrun hpend hopen
  have hd' : (s.wordWritten c e d r w (p || r.tok.tok.psn)).engWord c (bDsp r.blk) (dstBit r.blk r.pos / 64) = some d := by
    rw [(s.wordWritten_accs ..).engWord, hd]
  have hpm : bDsp r.blk ≠ 4 := by omega
  have hkept := State.copyWordDone_noted (q := r.queue) hmcn hpm hd'
  have hmem : (s.copyElem c e r).2.mem = ((s.wordWritten c e d r w (p || r.tok.tok.psn)).copyWordDone c r.queue r.blk
      (dstBit r.blk r.pos / 64)).mem := by
    rw [helem, hsettle]
    rfl
  rw [hmem, hkept.word, hkept.psn, State.wordWritten_mem]
  refine ⟨Mem.word_writeWord_self d w _ hwf, Mem.isPsn_writeWord_self d w _ hwf, State.copyWordDone_full hmcn hpm hd',
    fun x hx => ?_, ?_⟩
  · rw [hkept.byte, State.wordWritten_mem, Mem.writeWord, Mem.byte_write_out _ _ _ _ _ (by omega)]
  · rw [helem, hsettle, State.queue_modRun, State.queue_modRun, State.copyWordDone_wp hmcn hpm hd', State.wordWritten_queue]

end CopiedWord

/-! ### The obligation -/

/-- Settles O44: the copy instructions by what they make of their core, and the steps of an engine each by the run that
it holds. -/
theorem copies : Obligations.Copies := by
  unfold Obligations.Copies
  intro f s h a b k core y fires others
  refine ⟨?tarm, ?tbind, ?tmc, fun c e => ⟨?start, ?word, ?branch, ?finish⟩⟩
  case tarm =>
    rintro ⟨hf, hh⟩ hb
    refine ⟨fun hc hpm => ?_, fun i hc => tarm_badBlock hf hh hb hc, fun i hc hen hpm => tarm_badProg hf hh hb hc hen hpm⟩
    obtain ⟨t, hexec, hworks, hcore⟩ := tarm_arms hf hh hb hc hpm
    refine ⟨t, hexec, hworks, ?_⟩
    rw [hcore, Core.tmpl_arm, Core.tmpl_modTmpl]
    refine ⟨rfl, rfl, rfl, rfl, fun m hm => ?_, fun h16 => Core.armed_unbound _ _ _ h16, fun h16 => ?_⟩
    · rw [Core.tmpl_arm, Core.tmpl_modTmpl_ne _ _ _ hm]
    · rw [Core.queue_arm _ _ _ h16]
      exact ⟨rfl, rfl⟩
  case tbind =>
    rintro ⟨hf, hh⟩ ha hb
    refine ⟨fun harm => ?_, tbind_refused hf hh ha hb⟩
    obtain ⟨t, hexec, hworks, hcore⟩ := tbind_binds hf hh ha hb harm
    refine ⟨t, hexec, hworks, ?_⟩
    rw [hcore, Core.queue_bindQueue]
    exact ⟨rfl, rfl, rfl, fun m hm => Core.queue_bindQueue_ne _ _ _ hm⟩
  case tmc =>
    rintro ⟨hf, hh⟩ ha hb
    exact tmc_gives hf hh ha hb
  case start =>
    intro q n p rest hidle hq htoks hbound blk hspace he
    refine ⟨_, (s.core c.val).started q n p s.order, copyStart_next hidle hq htoks hbound hspace, ?_⟩
    rw [State.core_setCore, Core.eng_start he]
    exact ⟨rfl, rfl, rfl, rfl, rfl, rfl, rfl, rfl, rfl, rfl, rfl, rfl, rfl, rfl, rfl⟩
  case word =>
    intro r w p d hrun _ _ hpend hopen hsfmt hdfmt hscen hmcn hssp hdsp hsrc hdst hdst' hread hd hheld hmove hwf
    exact State.copyElem_word hdfmt hmcn hdsp hdst hd hheld hsfmt hscen hssp hsrc hdst' hread hmove hrun hpend hopen hwf
  case branch =>
    intro r j rest d o hrun hspaces hout hspace _
    refine ⟨_, branchComplete_next hrun hspaces hout hspace, ?_, ?_⟩
    · exact State.run_modRun (by rwa [State.core_streamSend]) _
    · rw [spaceSide_eq]
      rfl
  case finish =>
    intro r hrun hmoved hpend howed hspaces hheld
    refine ⟨_, copyEnd_next hrun hmoved hpend howed hspaces hheld, ?_, ?_, rfl⟩
    · rw [State.core_setCore]
      exact Core.run_ended hrun _
    · rw [State.core_setCore]
      exact Core.toks_ended ..

end Sys2Proof.Machine

/-! ## Task accesses (R204, R273, R287 to R290, R329) -/

namespace Sys2Proof.Machine

open Sys2Proof

/-! ### Words by their bytes -/

/-- Eight bytes joined, the least first. -/
def joinBytes (b : Nat → Byte) : Word :=
  ((List.range 8).map b).foldr (fun (x : Byte) (acc : Word) => (acc <<< 8) ||| x.setWidth 64) 0

theorem shiftLeft_or_byte (acc : Word) (x : Byte) : (acc <<< 8) ||| x.setWidth 64 = acc.setWidth 56 ++ x := by
  refine BitVec.eq_of_getLsbD_eq fun n hn => ?_
  rw [BitVec.getLsbD_append, BitVec.getLsbD_or, BitVec.getLsbD_shiftLeft, BitVec.getLsbD_setWidth, BitVec.getLsbD_setWidth]
  by_cases h : n < 8
  · simp [h, hn]
  · simp [h, hn, BitVec.getLsbD_of_ge x n (Nat.le_of_not_lt h), show n - 8 < 56 by omega]

theorem byteOf_joinBytes (b : Nat → Byte) {i : Nat} (hi : i < 8) : byteOf (joinBytes b) i = b i := by
  have hjoin : joinBytes b = b 7 ++ b 6 ++ b 5 ++ b 4 ++ b 3 ++ b 2 ++ b 1 ++ b 0 := by
    simp only [joinBytes, show List.range 8 = [0, 1, 2, 3, 4, 5, 6, 7] from rfl, List.map_cons, List.map_nil, List.foldr_cons,
      List.foldr_nil, shiftLeft_or_byte]
    ext n hn
    simp only [BitVec.getElem_append, BitVec.getElem_setWidth, BitVec.getLsbD_append, BitVec.getLsbD_setWidth]
    grind
  rw [hjoin, byteOf_join b hi]

theorem word_eq_of_bytes {v w : Word} (h : ∀ i < 8, byteOf v i = byteOf w i) : v = w := by
  refine BitVec.eq_of_getLsbD_eq fun n hn => ?_
  have hbit : ∀ x : Word, (byteOf x (n / 8)).getLsbD (n % 8) = x.getLsbD n := fun x => by
    rw [byteOf, BitVec.getLsbD_extractLsb', Nat.div_add_mod, decide_eq_true (Nat.mod_lt n (by decide)), Bool.true_and]
  rw [← hbit v, ← hbit w, h _ (by omega)]

theorem joinBytes_eq {b : Nat → Byte} {v : Word} (h : ∀ i < 8, b i = byteOf v i) : joinBytes b = v :=
  word_eq_of_bytes fun i hi => (byteOf_joinBytes b hi).trans (h i hi)

theorem Mem.byteOf_word (m : Mem) (w : Nat) {i : Nat} (hi : i < 8) : byteOf (m.word w) i = m.byte (8 * w + i) :=
  byteOf_join (fun i => m.byte (8 * w + i)) hi

/-! ### Folds over a slice's entries -/

theorem foldl_of_fixed {α β : Type} {g : β → α → β} {b : β} {l : List α} (h : ∀ x ∈ l, g b x = b) : l.foldl g b = b := by
  induction l with
  | nil => rfl
  | cons x rest ih =>
    rw [List.foldl_cons, h x (List.mem_cons_self ..)]
    exact ih fun y hy => h y (List.mem_cons_of_mem _ hy)

/-- A fold that one value fixes, and that each element leaves as it is or takes to that value, ends there. -/
theorem foldl_of_reach {α β : Type} {g : β → α → β} {a b : β} {l : List α} (hb : ∀ x ∈ l, g b x = b)
    (ha : ∀ x ∈ l, g a x = a ∨ g a x = b) (hx : ∃ x ∈ l, g a x = b) : l.foldl g a = b := by
  induction l with
  | nil =>
    obtain ⟨x, hx, -⟩ := hx
    cases hx
  | cons x rest ih =>
    have hrest : ∀ y ∈ rest, g b y = b := fun y hy => hb y (List.mem_cons_of_mem _ hy)
    rw [List.foldl_cons]
    by_cases hgx : g a x = b
    · rw [hgx]
      exact foldl_of_fixed hrest
    · rw [(ha x (List.mem_cons_self ..)).resolve_right hgx]
      refine ih hrest (fun y hy => ha y (List.mem_cons_of_mem _ hy)) ?_
      obtain ⟨y, hy, hgy⟩ := hx
      rcases List.mem_cons.mp hy with rfl | hy
      · exact absurd hgy hgx
      · exact ⟨y, hy, hgy⟩

/-! ### The bytes that a load finds (R289) -/

theorem BEntry.is_iff (e : BEntry) (a : Acr) (line : Nat) :
    e.is a line = true ↔ e.lseq = a.lseq ∧ e.unit = a.unit ∧ e.gen = a.gen ∧ e.ts = a.ts ∧ e.line = line := by
  simp [BEntry.is, BEntry.ofRun, and_assoc]

theorem inLineage_self (m : Tab GenEnt) (g : BitVec 8) : inLineage m g g = true := by
  simp [inLineage, reaches]

theorem Cand.later_self (c : Cand) : c.later c = c := ite_self c

section Candidates

variable {s : State} {sl : Nat} {a : Acr} {line byte : Nat}

/-- A byte that no entry of the line stores has no candidate. -/
theorem State.candidate_none (h : ∀ e ∈ s.entries sl, e.line = line → Tab.get? e.bytes byte = none) :
    s.candidate sl a line byte = none := by
  unfold State.candidate
  refine foldl_of_fixed fun e he => ?_
  dsimp only
  split
  next hcond =>
    simp only [Bool.and_eq_true, decide_eq_true_eq] at hcond
    rw [h e he hcond.1.1.2]
  next => rfl

/-- A byte stored by the access's own entry, the only one of its line, is the candidate. -/
theorem State.candidate_own {e : BEntry} (he : e ∈ s.entries sl) (his : e.is a line = true) (hjob : e.job = a.job)
    (honly : ∀ e' ∈ s.entries sl, e'.line = line → e' = e) {v : Byte} {o : Nat} (hb : Tab.get? e.bytes byte = some (v, o)) :
    s.candidate sl a line byte = some ⟨v, s.entPos e, o, e.psn.contains (byte / 8)⟩ := by
  obtain ⟨hlseq, hunit, hgen, hts, hline⟩ := (e.is_iff a line).mp his
  have hcond : (decide (e.job = a.job) && decide (e.line = line) && inLineage (s.homeMirror sl) e.gen a.gen &&
      (decide (e.lseq = a.lseq) && decide (e.unit = a.unit) && decide (e.ts = a.ts) || (s.entPos e).lt (s.acrPos a))) = true := by
    simp [hjob, hline, hgen, inLineage_self, hlseq, hunit, hts]
  have hother : ∀ x ∈ s.entries sl, x = e ∨ (decide (x.job = a.job) && decide (x.line = line) &&
      inLineage (s.homeMirror sl) x.gen a.gen &&
      (decide (x.lseq = a.lseq) && decide (x.unit = a.unit) && decide (x.ts = a.ts) || (s.entPos x).lt (s.acrPos a))) = false :=
    fun x hx => by
      by_cases hxline : x.line = line
      · exact .inl (honly x hx hxline)
      · exact .inr (by simp [hxline])
  unfold State.candidate
  refine foldl_of_reach (fun x hx => ?_) (fun x hx => ?_) ⟨e, he, ?_⟩
  · rcases hother x hx with rfl | hx
    · simp only [hcond, if_true, hb, Option.elim_some, Cand.later_self]
    · simp only [hx, Bool.false_eq_true, if_false]
  · rcases hother x hx with rfl | hx
    · exact .inr (by simp only [hcond, if_true, hb, Option.elim_none])
    · exact .inl (by simp only [hx, Bool.false_eq_true, if_false])
  · simp only [hcond, if_true, hb, Option.elim_none]

end Candidates

/-- The value of a byte as an access of its line sees it. -/
def State.seenByte (s : State) (sl : Nat) (a : Acr) (pa i : Nat) : Byte :=
  (s.candidate sl a (pa / 64) (pa % 64 / 8 * 8 + i)).elim (s.mem.byte (8 * (pa / 8) + i)) Cand.val

theorem State.taskWord_value (s : State) (sl : Nat) (a : Acr) (pa : Nat) :
    (s.taskWord sl a pa).1 = joinBytes (s.seenByte sl a pa) := by
  unfold State.taskWord joinBytes
  dsimp only
  congr 1
  refine List.map_congr_left fun i hi => ?_
  rw [List.getD_eq_getElem?_getD, List.getElem?_map, List.getElem?_range (List.mem_range.mp hi)]
  unfold State.seenByte
  simp only [Option.map_some, Option.getD_some]
  cases s.candidate sl a (pa / 64) (pa % 64 / 8 * 8 + i) <;> rfl

/-- A word that no entry of the line stores reads as memory, with no source (R289). -/
theorem State.taskWord_committed {s : State} {sl : Nat} {a : Acr} {pa : Nat}
    (h : ∀ i < 8, s.candidate sl a (pa / 64) (pa % 64 / 8 * 8 + i) = none) :
    (s.taskWord sl a pa).1 = s.mem.word (pa / 8) ∧ (s.taskWord sl a pa).2.2 = none := by
  constructor
  · rw [State.taskWord_value]
    refine joinBytes_eq fun i hi => ?_
    rw [State.seenByte, h i hi, Mem.byteOf_word _ _ hi]
    rfl
  · unfold State.taskWord
    dsimp only
    rw [if_pos]
    exact List.any_eq_true.mpr ⟨none, List.mem_map.mpr ⟨0, by decide, h 0 (by decide)⟩, rfl⟩

/-- A word whose bytes an entry stores reads as they say. -/
theorem State.taskWord_stored {s : State} {sl : Nat} {a : Acr} {pa : Nat} {v : Word}
    (h : ∀ i < 8, ∃ c, s.candidate sl a (pa / 64) (pa % 64 / 8 * 8 + i) = some c ∧ c.val = byteOf v i) :
    (s.taskWord sl a pa).1 = v := by
  rw [State.taskWord_value]
  refine joinBytes_eq fun i hi => ?_
  obtain ⟨c, hc, hval⟩ := h i hi
  rw [State.seenByte, hc, ← hval]
  rfl

/-! ### The entry of an access (R287, R288) -/

/-- A new entry of an access. -/
def Acr.entry (a : Acr) (line : Nat) : BEntry := ⟨a.job, a.lseq, a.unit, a.ts, a.gen, line, [], [], []⟩

theorem Acr.entry_is (a : Acr) (line : Nat) : (a.entry line).is a line = true := by
  simp [BEntry.is_iff, Acr.entry]

/-- No entry of a slice is of a line. -/
def State.lineFree (s : State) (sl line : Nat) : Prop := ∀ e ∈ s.entries sl, e.line ≠ line

/-- An access's entry is the last of its slice, and the only one of its line. -/
def State.Sole (s : State) (sl : Nat) (a : Acr) (line : Nat) (x : BEntry) : Prop :=
  x.is a line = true ∧ ∃ es, s.entries sl = es ++ [x] ∧ ∀ e ∈ es, e.line ≠ line

theorem State.entries_setEntries (s : State) (sl : Nat) (es : List BEntry) : (s.setEntries sl es).entries sl = es :=
  Tab.get_set_self ..

section Entry

variable {s : State} {sl : Nat} {a : Acr} {line : Nat}

theorem takeEntry_new (hfree : s.lineFree sl line) (hroom : s.roomFor sl a = .ok s) :
    s.takeEntry sl a line = .ok (s.setEntries sl (s.entries sl ++ [a.entry line])) := by
  have hnone : ((s.entries sl).any fun e => e.is a line) = false := by
    rw [List.any_eq_false]
    intro e he his
    exact hfree e he ((e.is_iff a line).mp his).2.2.2.2
  rw [State.takeEntry, hnone, if_neg Bool.false_ne_true, hroom]
  rfl

theorem takeEntry_own {e : BEntry} (he : e ∈ s.entries sl) (his : e.is a line = true) : s.takeEntry sl a line = .ok s := by
  rw [State.takeEntry, if_pos (List.any_eq_true.mpr ⟨e, he, his⟩)]

theorem sole_new (hfree : s.lineFree sl line) :
    (s.setEntries sl (s.entries sl ++ [a.entry line])).Sole sl a line (a.entry line) :=
  ⟨a.entry_is line, s.entries sl, s.entries_setEntries .., hfree⟩

namespace State.Sole

variable {x : BEntry}

theorem mem (h : s.Sole sl a line x) : x ∈ s.entries sl := by
  obtain ⟨-, es, hes, -⟩ := h
  rw [hes]
  exact List.mem_append_right _ (List.mem_singleton_self x)

theorem only (h : s.Sole sl a line x) : ∀ e ∈ s.entries sl, e.line = line → e = x := by
  obtain ⟨-, es, hes, hfree⟩ := h
  intro e he hline
  rw [hes, List.mem_append, List.mem_singleton] at he
  exact he.resolve_left fun hmem => hfree e hmem hline

/-- The entry changed is the only one still. -/
theorem modEntry (h : s.Sole sl a line x) {g : BEntry → BEntry} (hg : (g x).is a line = true) :
    (s.modEntry sl a line g).Sole sl a line (g x) := by
  obtain ⟨his, es, hes, hfree⟩ := h
  refine ⟨hg, es, ?_, hfree⟩
  have hold : es.map (fun e => if e.is a line then g e else e) = es := by
    conv_rhs => rw [← List.map_id es]
    refine List.map_congr_left fun e he => ?_
    rw [if_neg fun h => hfree e he ((e.is_iff a line).mp h).2.2.2.2, id]
  rw [State.modEntry, State.entries_setEntries, hes, List.map_append, hold, List.map_singleton, if_pos his]

/-- A store into it makes nothing wrong. -/
theorem conflicts (h : s.Sole sl a line x) (word : Nat) : s.conflicts sl a line word = [] := by
  obtain ⟨hlseq, hunit, -⟩ := (x.is_iff a line).mp h.1
  unfold State.conflicts
  dsimp only
  refine (congrArg List.eraseDups (List.filterMap_eq_nil_iff.mpr fun e he => ?_)).trans rfl
  by_cases hline : e.line = line
  · rw [h.only e he hline]
    simp [hlseq, hunit]
  · simp [hline]

end State.Sole

end Entry

/-! ### A task load and a task store of one word (R289, R290) -/

/-- The words of the line of a physical address. -/
def lineWord (pa : Nat) : Nat := pa % 64 / 8

/-- An entry with the read mark of a word. -/
def BEntry.mark (e : BEntry) (word : Nat) (src : Option Pos) : BEntry := { e with marks := Tab.set e.marks word src }

theorem State.abortAll_nil (s : State) (fuel : Nat) : s.abortAll fuel [] = s := by
  cases fuel <;> rfl

section Access

variable {s s1 : State} {a : Acr} {pa : Nat}

theorem taskLoad_done (hlive : s.discards (homeSlice pa) a = false)
    (htake : s.takeEntry (homeSlice pa) (s.atSlice (homeSlice pa) a) (pa / 64) = .ok s1) : ∃ psn, s.taskLoad a pa =
      .done (s1.taskWord (homeSlice pa) (s.atSlice (homeSlice pa) a) pa).1 psn
        (s1.modEntry (homeSlice pa) (s.atSlice (homeSlice pa) a) (pa / 64)
          (·.mark (lineWord pa) (s1.taskWord (homeSlice pa) (s.atSlice (homeSlice pa) a) pa).2.2)) := by
  unfold State.taskLoad
  simp only [hlive, Bool.false_eq_true, if_false, htake]
  exact ⟨_, rfl⟩

theorem taskStore_done (hlive : s.discards (homeSlice pa) a = false)
    (htake : s.takeEntry (homeSlice pa) (s.atSlice (homeSlice pa) a) (pa / 64) = .ok s1) {x : BEntry}
    (hsole : s1.Sole (homeSlice pa) (s.atSlice (homeSlice pa) a) (pa / 64) x) (v : Word) (psn : Bool) :
    s.taskStore a pa 0xFF v psn = .done v psn (s1.takeOrder.2.modEntry (homeSlice pa) (s.atSlice (homeSlice pa) a) (pa / 64)
      (·.store (lineWord pa) 0xFF v psn s1.order)) := by
  have hsole' : (s1.takeOrder.2.modEntry (homeSlice pa) (s.atSlice (homeSlice pa) a) (pa / 64)
      (·.store (lineWord pa) 0xFF v psn s1.order)).Sole (homeSlice pa) (s.atSlice (homeSlice pa) a) (pa / 64)
      (x.store (lineWord pa) 0xFF v psn s1.order) :=
    State.Sole.modEntry (s := s1.takeOrder.2) hsole (by
      have his := hsole.1
      rw [BEntry.is_iff] at his ⊢
      exact his)
  have hnone := hsole'.conflicts (lineWord pa)
  unfold lineWord at hnone
  unfold State.taskStore
  simp only [hlive, Bool.false_eq_true, if_false, htake]
  rw [show s1.takeOrder.1 = s1.order from rfl, hnone, State.abortAll_nil]
  rfl

end Access

/-- A whole word stored in an entry: each of its bytes, with the order of the store. -/
theorem BEntry.get?_store (e : BEntry) (word : Nat) (v : Word) (psn : Bool) (o : Nat) {i : Nat} (hi : i < 8) :
    Tab.get? (e.store word 0xFF v psn o).bytes (8 * word + i) = some (byteOf v i, o) := by
  have hfold : ∀ n ≤ 8, ∀ i < n, Tab.get? ((List.range n).foldl (fun t i =>
      if (0xFF : BitVec 8).getLsbD i then Tab.set t (8 * word + i) (byteOf v i, o) else t) e.bytes) (8 * word + i) =
      some (byteOf v i, o) := by
    intro n
    induction n with
    | zero => exact fun _ i hi => absurd hi (Nat.not_lt_zero i)
    | succ n ih =>
      intro hn i hi
      rw [List.range_succ, List.foldl_append, List.foldl_cons, List.foldl_nil, if_pos (getLsbD_fullMask (by omega))]
      by_cases hin : i = n
      · rw [hin, Tab.get?_set_self]
      · rw [Tab.get?_set_ne _ _ (by omega), ih (by omega) i (by omega)]
  exact hfold 8 le_rfl i hi

/-! ### What a translation leaves (R203, R204) -/

/-- A state that has translated an address: only its caches, and the free choices taken, may differ. -/
def State.SameButCaches (s t : State) : Prop := t = { s with dies := t.dies, ucaches := t.ucaches, freeCtr := t.freeCtr }

theorem tlbTouch_caches (s : State) (d : Nat) (uc : Option Nat) (e : TlbEnt) : s.SameButCaches (s.tlbTouch d uc e) := by
  unfold State.tlbTouch
  cases uc <;> rfl

theorem translate_caches (s : State) (d : Nat) (uc : Option Nat) (job va : Nat) (wr : Bool) :
    s.SameButCaches (s.translate d uc job va wr).2 := by
  have hinstall : ∀ t, s.SameButCaches t → s.SameButCaches (match s.walk job va wr with
      | .ok pa sh w tier => t.tlbTouch d uc ⟨job, va / 2 ^ sh * 2 ^ sh, sh, pa / 2 ^ sh * 2 ^ sh, w, tier⟩
      | .fault _ _ => t) := fun t ht => by
    split
    · exact (tlbTouch_caches t d uc _).trans (by rw [ht])
    · exact ht
  have hfree : s.SameButCaches s.takeFree.2 := rfl
  unfold State.translate
  dsimp only
  split
  · split
    · exact hinstall s rfl
    · split
      · exact (tlbTouch_caches s.takeFree.2 d uc _).trans (by rw [hfree])
      · exact hinstall _ hfree
  · exact hinstall s rfl

theorem reach_caches {s s1 : State} {d : Nat} {uc : Option Nat} {job va : Nat} {wr : Bool} {x : Reach}
    (h : s.reach d uc job va wr = (x, s1)) : s.SameButCaches s1 := by
  have hsnd : (s.reach d uc job va wr).2 = (s.translate d uc job va wr).2 := by
    unfold State.reach
    split
    next heq => rw [heq]
    next heq => rw [heq]
  rw [show s1 = (s.reach d uc job va wr).2 by rw [h], hsnd]
  exact translate_caches s d uc job va wr

namespace State.SameButCaches

variable {s t : State} (h : s.SameButCaches t)

include h

theorem mem : t.mem = s.mem := (congrArg State.mem h).trans rfl

theorem entries (sl : Nat) : t.entries sl = s.entries sl := congrArg (fun b => Tab.get b sl []) ((congrArg State.bisque h).trans rfl)

theorem evq : t.evq = s.evq := (congrArg State.evq h).trans rfl

theorem tile (k : Nat) : t.tile k = s.tile k := congrArg (fun b => Tab.get b k Tile.reset) ((congrArg State.tiles h).trans rfl)

theorem reqAcr (k : Nat) (r : Req) : t.reqAcr k r = s.reqAcr k r := (congrArg (fun u : State => u.reqAcr k r) h).trans rfl

end State.SameButCaches

/-! ### A request's last access -/

/-- A request with nothing left to access has its results. -/
theorem putReq_result (s : State) (k : Nat) {r : Req} (h : r.accs = []) :
    ∀ e ∈ ((s.putReq k r).tile k).pe.inflight, e.ticket = r.ticket → e.val = some (r.answer e.dst) := by
  intro e he hticket
  have htile : ((s.putReq k r).tile k).pe.inflight = (s.tile k).pe.inflight.map fun e =>
      if e.ticket = r.ticket then { e with val := some (r.answer e.dst), gen := r.gen } else e := by
    rw [State.putReq, State.tile_modPool, h]
    show (PoolSt.releasePlace _ _).inflight = _
    unfold PoolSt.releasePlace
    split <;> rfl
  rw [htile] at he
  obtain ⟨e0, -, rfl⟩ := List.mem_map.mp he
  by_cases h0 : e0.ticket = r.ticket
  · simp only [if_pos h0]
  · rw [if_neg h0] at hticket
    exact absurd hticket h0

/-- The result of a request at a destination that takes it whole. -/
theorem Req.answer_whole (r : Req) {d : Dst} (ha : ∀ m, d ≠ .areg m) (hp : ∀ m, d ≠ .pred m) : r.answer d = r.res := by
  unfold Req.answer
  split
  · exact absurd rfl (hp _)
  · exact absurd rfl (ha _)
  · rfl

/-- The state once a request's last access has been made. -/
def State.answered (s : State) (k : Nat) (r : Req) (tok : Tok) : State :=
  (s.putReq k { r with accs := [], res := tok }).markActive k

section Answered

variable (s : State) (k : Nat) (r : Req) (tok : Tok)

theorem State.answered_mem : (s.answered k r tok).mem = s.mem := (State.markActive_mem ..).trans rfl

theorem State.answered_entries (sl : Nat) : (s.answered k r tok).entries sl = s.entries sl := by
  have hactive := congrArg State.bisque ((s.putReq k { r with accs := [], res := tok }).markActive_rest k)
  exact congrArg (fun b => Tab.get b sl []) hactive

/-- Its results in flight hold what it loaded. -/
theorem State.answered_result (lane : Nat) : ∀ e ∈ ((s.answered k r tok).tile k).pe.inflight, e.ticket = r.ticket →
    ∃ y, e.val = some y ∧
      ((∀ m, e.dst ≠ .areg m) → (∀ m, e.dst ≠ .pred m) → y.lanes.get lane = tok.lanes.get lane) := by
  intro e he hticket
  have htile : (s.answered k r tok).tile k = (s.putReq k { r with accs := [], res := tok }).tile k := by
    rw [State.answered, State.tile, State.markActive_tiles]
    rfl
  rw [htile] at he
  refine ⟨_, putReq_result s k (r := { r with accs := [], res := tok }) rfl e he hticket, fun ha hp => ?_⟩
  rw [Req.answer_whole _ ha hp]

end Answered

theorem putLane_get (t : Tok) {i : Nat} (hi : i < 8) (v : Word) (psn seen : Bool) : (putLane t i v psn seen).lanes.get i = v := by
  show (t.lanes.set i v).get i = v
  rw [Lanes.set, Lanes.get_ofFn _ hi, if_pos rfl]

/-- A request's results in flight hold a word in a lane. -/
def State.ResultIs (t : State) (k : Nat) (r : Req) (lane : Nat) (v : Word) : Prop :=
  ∀ e ∈ (t.tile k).pe.inflight, e.ticket = r.ticket → ∃ y, e.val = some y ∧
    ((∀ m, e.dst ≠ .areg m) → (∀ m, e.dst ≠ .pred m) → y.lanes.get lane = v)

/-- An entry of the access meets a property. -/
def State.Mine (t : State) (sl : Nat) (g : Acr) (line : Nat) (p : BEntry → Prop) : Prop :=
  ∃ e ∈ t.entries sl, e.is g line = true ∧ p e

theorem answered_resultIs (t : State) (k : Nat) (r : Req) {lane : Nat} (hlane : lane < 8) (v : Word) (psn : Bool) :
    (t.answered k r (putLane r.res lane v psn true)).ResultIs k r lane v := fun e he hticket => by
  obtain ⟨y, hval, hlanes⟩ := State.answered_result t k r _ lane e he hticket
  exact ⟨y, hval, fun ha hp => (hlanes ha hp).trans (putLane_get _ hlane v psn true)⟩

theorem answered_mine {t : State} {k : Nat} {r : Req} {sl line : Nat} {g : Acr} {y : BEntry} (h : t.Sole sl g line y) (tok : Tok)
    {p : BEntry → Prop} (hp : p y) : (t.answered k r tok).Mine sl g line p :=
  ⟨y, by rw [State.answered_entries]; exact h.mem, h.1, hp⟩

/-! ### One word of a line (R273, R289, R290) -/

theorem exec_taskLoad {s : State} {k n : Nat} {r : Req} (hr : (s.tile k).pe.reqs[n]? = some r) (hop : r.op = .gld) :
    exec (.taskLoad k n) s = .next (s.globalNext k r) := by
  show execTaskLoad k n s = _
  rw [execTaskLoad, hr]
  simp only [if_pos hop]

theorem exec_storeEntry {s : State} {k n : Nat} {r : Req} (hr : (s.tile k).pe.reqs[n]? = some r)
    (hop : r.op = .gst ∨ r.op = .gatom) : exec (.storeEntry k n) s = .next (s.globalNext k r) := by
  show execStoreEntry k n s = _
  rw [execStoreEntry, hr]
  simp only [Bool.or_eq_true, decide_eq_true_eq, if_pos hop]

/-- A global access that is neither held nor behind an earlier one goes on. -/
theorem req_ready {s : State} {k : Nat} {r : Req} {x : Acc} (hspace : x.space = 5) (hheld : r.held = none)
    (hbehind : s.orderedBehind k r x = false) :
    (x.space != 5 || r.held.isSome || s.orderedBehind k r x) = false := by
  rw [hspace, hheld, hbehind]
  rfl

section Line

variable {s s1 : State} {k : Nat} {r : Req} {x : Acc} {pa sh : Nat} {tier : Bool} (haccs : r.accs = [x])
  (hspace : x.space = 5) (hlane : x.lane < 8) (hheld : r.held = none) (hbehind : s.orderedBehind k r x = false)
  (hbeat : r.beat = false)
  (hreach : s.reach (tileDie k) none (s.reqAcr k r).job x.addr (r.op != .gld) = (.line pa sh tier, s1))
  (hlive : s1.discards (homeSlice pa) (s.reqAcr k r) = false)

/-- The access as the home slice of its line enters it. -/
def State.homeAcr (s s1 : State) (k : Nat) (r : Req) (pa : Nat) : Acr := s1.atSlice (homeSlice pa) (s.reqAcr k r)

section Performed

include haccs hspace hheld hbehind hreach

/-- An access performed at its line is the request's last. -/
theorem globalNext_done {v : Word} {psn : Bool} {s2 : State} {tok : Tok}
    (htask : s1.taskAcc k r x pa = (.done v psn s2, tok)) : s.globalNext k r = s2.answered k r tok := by
  have hready := req_ready hspace hheld hbehind
  simp only [State.globalNext, haccs, hready, hreach, htask, Bool.false_eq_true, if_false]
  rfl

include hbeat

theorem globalNext_load (hop : r.op = .gld) {v : Word} {psn : Bool} {s2 : State}
    (hload : s1.taskLoad (s.reqAcr k r) pa = .done v psn s2) :
    s.globalNext k r = s2.answered k r (putLane r.res x.lane v psn true) := by
  refine globalNext_done haccs hspace hheld hbehind hreach (v := v) (psn := psn) ?_
  simp only [State.taskAcc, (reach_caches hreach).reqAcr, hop, hbeat, Bool.false_eq_true, if_false, hload]

theorem globalNext_store (hop : r.op = .gst) {v : Word} {psn : Bool} {s2 : State}
    (hstore : s1.taskStore (s.reqAcr k r) pa 0xFF (r.dat.lanes.get x.lane) r.dat.psn = .done v psn s2) :
    s.globalNext k r = s2.answered k r r.res := by
  refine globalNext_done haccs hspace hheld hbehind hreach (v := v) (psn := psn) ?_
  simp only [State.taskAcc, (reach_caches hreach).reqAcr, hop, hbeat, Bool.false_eq_true, if_false, hstore]

omit hbeat in
theorem globalNext_atom (hop : r.op = .gatom) {m v : Word} {psn p : Bool} {s2 s3 : State}
    (hload : s1.taskLoad (s.reqAcr k r) pa = .done m psn s2)
    (hstore : s2.taskStore (s.reqAcr k r) pa 0xFF (atomOp r.md m (r.dat.lanes.get x.lane)) (psn || r.dat.psn) = .done v p s3) :
    s.globalNext k r = s3.answered k r (putLane r.res x.lane m (psn || r.dat.psn) true) := by
  refine globalNext_done haccs hspace hheld hbehind hreach (v := v) (psn := p) ?_
  simp only [State.taskAcc, (reach_caches hreach).reqAcr, hop, State.taskAtom, hload, hstore]

end Performed

section Bare

variable (hfree : ∀ e ∈ s.entries (homeSlice pa), e.line ≠ pa / 64)
  (hroom : s1.roomFor (homeSlice pa) (s.homeAcr s1 k r pa) = .ok s1)

include hreach hlive hfree hroom

/-- The state in which the access has taken its entry. -/
def State.entered (s s1 : State) (k : Nat) (r : Req) (pa : Nat) : State :=
  s1.setEntries (homeSlice pa) (s1.entries (homeSlice pa) ++ [(s.homeAcr s1 k r pa).entry (pa / 64)])

omit hlive hroom in
theorem entered_sole : (s.entered s1 k r pa).Sole (homeSlice pa) (s.homeAcr s1 k r pa) (pa / 64)
    ((s.homeAcr s1 k r pa).entry (pa / 64)) :=
  sole_new (by rw [State.lineFree, (reach_caches hreach).entries]; exact hfree)

omit hlive in
theorem takeEntry_entered : s1.takeEntry (homeSlice pa) (s.homeAcr s1 k r pa) (pa / 64) = .ok (s.entered s1 k r pa) :=
  takeEntry_new (by rw [State.lineFree, (reach_caches hreach).entries]; exact hfree) hroom

/-- The state in which the load has left its read mark (R289). -/
def State.marked (s s1 : State) (k : Nat) (r : Req) (pa : Nat) : State :=
  (s.entered s1 k r pa).modEntry (homeSlice pa) (s.homeAcr s1 k r pa) (pa / 64) (·.mark (lineWord pa) none)

omit hlive hroom in
theorem marked_sole : (s.marked s1 k r pa).Sole (homeSlice pa) (s.homeAcr s1 k r pa) (pa / 64)
    (((s.homeAcr s1 k r pa).entry (pa / 64)).mark (lineWord pa) none) :=
  (entered_sole hreach hfree).modEntry (g := (·.mark (lineWord pa) none)) (Acr.entry_is _ _)

/-- A load of a line without entries takes its committed word, and leaves a read mark of no source. -/
theorem taskLoad_bare : ∃ psn, s1.taskLoad (s.reqAcr k r) pa = .done (s.mem.word (pa / 8)) psn (s.marked s1 k r pa) := by
  obtain ⟨psn, hload⟩ := taskLoad_done hlive (takeEntry_entered hreach hfree hroom)
  have hnone : ∀ i < 8, (s.entered s1 k r pa).candidate (homeSlice pa) (s.homeAcr s1 k r pa) (pa / 64)
      (pa % 64 / 8 * 8 + i) = none := fun i _ =>
    State.candidate_none fun e he hline => by rw [(entered_sole hreach hfree).only e he hline]; rfl
  obtain ⟨hval, hsrc⟩ := State.taskWord_committed hnone
  have hmem : (s.entered s1 k r pa).mem = s.mem := (reach_caches hreach).mem
  unfold State.homeAcr at hval hsrc
  rw [hval, hsrc, hmem] at hload
  exact ⟨psn, hload⟩

/-- A store to it enters its word, with the next order. -/
theorem taskStore_entered (v : Word) (psn : Bool) : ∃ t, s1.taskStore (s.reqAcr k r) pa 0xFF v psn = .done v psn t ∧
    t.mem = s.mem ∧ t.Sole (homeSlice pa) (s.homeAcr s1 k r pa) (pa / 64)
      (((s.homeAcr s1 k r pa).entry (pa / 64)).store (lineWord pa) 0xFF v psn s1.order) := by
  have hsole := entered_sole hreach hfree
  exact ⟨_, taskStore_done hlive (takeEntry_entered hreach hfree hroom) hsole v psn, (reach_caches hreach).mem,
    State.Sole.modEntry (s := (s.entered s1 k r pa).takeOrder.2) hsole (Acr.entry_is _ _)⟩

omit hroom in
/-- So does the store of an atomic, after its load (R290). -/
theorem taskStore_marked (v : Word) (psn : Bool) : ∃ t,
    (s.marked s1 k r pa).taskStore (s.reqAcr k r) pa 0xFF v psn = .done v psn t ∧ t.mem = s.mem ∧
      t.Sole (homeSlice pa) (s.homeAcr s1 k r pa) (pa / 64)
        ((((s.homeAcr s1 k r pa).entry (pa / 64)).mark (lineWord pa) none).store (lineWord pa) 0xFF v psn s1.order) := by
  have hsole := marked_sole hreach hfree
  exact ⟨_, taskStore_done (s := s.marked s1 k r pa) hlive (takeEntry_own hsole.mem hsole.1) hsole v psn,
    (reach_caches hreach).mem,
    State.Sole.modEntry (s := (s.marked s1 k r pa).takeOrder.2) hsole (Acr.entry_is _ _)⟩

end Bare

section Instructions

variable {n : Nat} (hr : (s.tile k).pe.reqs[n]? = some r)

include haccs hspace hlane hheld hbehind hbeat hreach hlive hr

theorem gld_bare (hop : r.op = .gld) (hfree : ∀ e ∈ s.entries (homeSlice pa), e.line ≠ pa / 64)
    (hroom : s1.roomFor (homeSlice pa) (s.homeAcr s1 k r pa) = .ok s1) : ∃ t, exec (.taskLoad k n) s = .next t ∧
      t.mem = s.mem ∧ t.ResultIs k r x.lane (s.mem.word (pa / 8)) ∧
      t.Mine (homeSlice pa) (s.homeAcr s1 k r pa) (pa / 64) fun e => Tab.get? e.marks (lineWord pa) = some none := by
  obtain ⟨psn, hload⟩ := taskLoad_bare hreach hlive hfree hroom
  refine ⟨_, (exec_taskLoad hr hop).trans (congrArg _ (globalNext_load haccs hspace hheld hbehind hbeat hreach hop hload)),
    ?_, answered_resultIs _ k r hlane _ _, answered_mine (marked_sole hreach hfree) _ (Tab.get?_set_self ..)⟩
  rw [State.answered_mem]
  exact (reach_caches hreach).mem

theorem gld_own (hop : r.op = .gld) {e : BEntry} {v : Word} (he : e ∈ s.entries (homeSlice pa))
    (his : e.is (s.homeAcr s1 k r pa) (pa / 64) = true) (hjob : e.job = (s.homeAcr s1 k r pa).job)
    (honly : ∀ e' ∈ s.entries (homeSlice pa), e'.line = pa / 64 → e' = e)
    (hbytes : ∀ i < 8, ∃ o, Tab.get? e.bytes (8 * lineWord pa + i) = some (byteOf v i, o)) :
    ∃ t, exec (.taskLoad k n) s = .next t ∧ t.mem = s.mem ∧ t.ResultIs k r x.lane v := by
  have hentries := (reach_caches hreach).entries (homeSlice pa)
  rw [← hentries] at he
  obtain ⟨psn, hload⟩ := taskLoad_done hlive (takeEntry_own he his)
  have hval : (s1.taskWord (homeSlice pa) (s1.atSlice (homeSlice pa) (s.reqAcr k r)) pa).1 = v := by
    refine State.taskWord_stored fun i hi => ?_
    obtain ⟨o, ho⟩ := hbytes i hi
    rw [lineWord, Nat.mul_comm 8] at ho
    exact ⟨_, State.candidate_own he his hjob (by rwa [hentries]) ho, rfl⟩
  rw [hval] at hload
  refine ⟨_, (exec_taskLoad hr hop).trans (congrArg _ (globalNext_load haccs hspace hheld hbehind hbeat hreach hop hload)),
    ?_, answered_resultIs _ k r hlane _ _⟩
  rw [State.answered_mem]
  exact (reach_caches hreach).mem

omit hlane in
theorem gst_bare (hop : r.op = .gst) (hfree : ∀ e ∈ s.entries (homeSlice pa), e.line ≠ pa / 64)
    (hroom : s1.roomFor (homeSlice pa) (s.homeAcr s1 k r pa) = .ok s1) : ∃ t, exec (.storeEntry k n) s = .next t ∧
      t.mem = s.mem ∧ t.Mine (homeSlice pa) (s.homeAcr s1 k r pa) (pa / 64) fun e =>
        ∀ i < 8, Tab.get? e.bytes (8 * lineWord pa + i) = some (byteOf (r.dat.lanes.get x.lane) i, s1.order) := by
  obtain ⟨t, hstore, hmem, hsole⟩ := taskStore_entered hreach hlive hfree hroom (r.dat.lanes.get x.lane) r.dat.psn
  refine ⟨_, (exec_storeEntry hr (.inl hop)).trans
    (congrArg _ (globalNext_store haccs hspace hheld hbehind hbeat hreach hop hstore)), ?_,
    answered_mine hsole _ fun i hi => BEntry.get?_store _ _ _ _ _ hi⟩
  rw [State.answered_mem, hmem]

omit hbeat in
theorem gatom_bare (hop : r.op = .gatom) (hfree : ∀ e ∈ s.entries (homeSlice pa), e.line ≠ pa / 64)
    (hroom : s1.roomFor (homeSlice pa) (s.homeAcr s1 k r pa) = .ok s1) : ∃ t, exec (.storeEntry k n) s = .next t ∧
      t.mem = s.mem ∧ t.ResultIs k r x.lane (s.mem.word (pa / 8)) ∧
      t.Mine (homeSlice pa) (s.homeAcr s1 k r pa) (pa / 64) fun e => ∀ i < 8, Tab.get? e.bytes (8 * lineWord pa + i) =
        some (byteOf (atomOp r.md (s.mem.word (pa / 8)) (r.dat.lanes.get x.lane)) i, s1.order) := by
  obtain ⟨psn, hload⟩ := taskLoad_bare hreach hlive hfree hroom
  obtain ⟨t, hstore, hmem, hsole⟩ := taskStore_marked hreach hlive hfree
    (atomOp r.md (s.mem.word (pa / 8)) (r.dat.lanes.get x.lane)) (psn || r.dat.psn)
  refine ⟨_, (exec_storeEntry hr (.inr hop)).trans
    (congrArg _ (globalNext_atom haccs hspace hheld hbehind hreach hop hload hstore)), ?_,
    answered_resultIs _ k r hlane _ _, answered_mine hsole _ fun i hi => BEntry.get?_store _ _ _ _ _ hi⟩
  rw [State.answered_mem, hmem]

end Instructions

end Line

/-! ### An access whose walk fails (R204) -/

section Walk

variable {s s1 : State} {k n : Nat} {r : Req} {x : Acc} {rest : List Acc} {c l : Nat} (haccs : r.accs = x :: rest)
  (hspace : x.space = 5) (hheld : r.held = none) (hbehind : s.orderedBehind k r x = false)
  (hreach : s.reach (tileDie k) none (s.reqAcr k r).job x.addr (r.op != .gld) = (.fault c l, s1))

/-- The state in which the hold of a failed walk stands, and is reported; its number comes first. -/
def State.walkHeld (s s1 : State) (k : Nat) (r : Req) (x : Acc) (c l : Nat) : Nat × State :=
  s1.xlate (.req k r.ticket) (s.reqAcr k r).job (s.reqAcr k r).lseq x.addr c l (s1.placeOf k .pe r.slot) (w64 x.lane) 0

/-- The event of a failed walk (R206). -/
def State.walkEvent (s s1 : State) (k : Nat) (r : Req) (x : Acc) (c : Nat) : Event :=
  mkEvent s1 0x40 (some (s.reqAcr k r).lseq) (s.reqAcr k r).job (s1.placeOf k .pe r.slot) (w64 x.addr ||| place c 60)
    (w64 x.lane) 0 0 0

include haccs hspace hheld hbehind hreach in
theorem globalNext_fault : s.globalNext k r =
    (s.walkHeld s1 k r x c l).2.holdReq k r (s.walkHeld s1 k r x c l).1 := by
  have hready := req_ready hspace hheld hbehind
  simp only [State.globalNext, haccs, hready, hreach, Bool.false_eq_true, if_false]
  rfl

/-- A request held is the one of its ticket still. -/
theorem holdReq_mem {t : State} (h : r ∈ (t.tile k).pe.reqs) (m : Nat) :
    { r with held := some m } ∈ ((t.holdReq k r m).tile k).pe.reqs := by
  have hreqs : ((t.holdReq k r m).tile k).pe.reqs = (t.tile k).pe.reqs.map fun q =>
      if q.ticket = r.ticket then { r with held := some m } else q := by
    rw [State.holdReq, State.tile_modPool]
    rfl
  rw [hreqs]
  exact List.mem_map.mpr ⟨r, h, if_pos rfl⟩

include haccs hspace hheld hbehind hreach in
/-- It is held at its place, with its event and its hold. -/
theorem walk_held (hr : r ∈ (s.tile k).pe.reqs) : ∃ e m, (s.globalNext k r).mem = s.mem ∧
    (s.globalNext k r).evq.held = s.evq.held ++ [e] ∧ e.code = 0x40 ∧ e.w3 = w64 x.addr ||| w64 (c * 2 ^ 60) ∧
    Tab.get? (s.globalNext k r).holds m =
      some ⟨(s.reqAcr k r).job, (s.reqAcr k r).lseq, x.addr, some l, .req k r.ticket, false⟩ ∧
    { r with held := some m } ∈ ((s.globalNext k r).tile k).pe.reqs := by
  have hcaches := reach_caches hreach
  rw [globalNext_fault haccs hspace hheld hbehind hreach]
  refine ⟨s.walkEvent s1 k r x c, (s.walkHeld s1 k r x c l).1, hcaches.mem, ?_, rfl, rfl, Tab.get?_set_self ..,
    holdReq_mem ?_ _⟩
  · rw [← hcaches.evq]
    rfl
  · rw [← hcaches.tile] at hr
    exact hr

end Walk

/-! ### KV openings (R329) -/

section KvOpening

variable {s : State} {k n : Nat} {r : Req} (hr : (s.tile k).pe.reqs[n]? = some r) (hop : r.op = .kvrowOpen)
  (hwait : r.waiting ≠ none)

include hr hop hwait

theorem exec_kvOpenProceed : exec (.kvOpenProceed k n) s =
    .next (if s.kvDead (tileDie k) r.gen then s.modPool k .pe fun x => x.dropReq r.ticket else s.kvOpen k r) := by
  have hsome : (decide (r.op = .kvrowOpen) && r.waiting.isSome) = true := by
    rw [hop, Option.isSome_iff_ne_none.mpr hwait]
    rfl
  show execKvOpenProceed k n s = _
  rw [execKvOpenProceed, hr]
  simp only [hsome, if_true]

/-- A request dropped is gone from its pool. -/
theorem kvOpen_discarded (hdead : s.kvDead (tileDie k) r.gen = true) : ∃ t, exec (.kvOpenProceed k n) s = .next t ∧
    t.mem = s.mem ∧ t.dies = s.dies ∧ ∀ q ∈ (t.tile k).pe.reqs, q.ticket ≠ r.ticket := by
  refine ⟨_, (exec_kvOpenProceed hr hop hwait).trans (congrArg _ (if_pos hdead)), rfl, rfl, fun q hq => ?_⟩
  rw [State.tile_modPool] at hq
  obtain ⟨-, hne⟩ := List.mem_filter.mp hq
  exact bne_iff_ne.mp hne

variable (hlive : s.kvDead (tileDie k) r.gen = false) {key j : Nat} {y : KvArea} (hrow : s.kvRow k r = some (key, y, j))

include hlive hrow

/-- A slot that has become free is opened under the tag and position of the request. -/
theorem kvOpen_proceeds (hfree : Tab.get? (s.die (tileDie k)).kvSlots (kvSlotKey key j) = none) :
    ∃ t, exec (.kvOpenProceed k n) s = .next t ∧ t.mem = s.mem ∧
      Tab.get? (t.die (tileDie k)).kvSlots (kvSlotKey key j) =
        some ⟨s.kvTag (tileDie k) r.gen, (r.opb.lanes.l0.extractLsb' 0 32).toNat, []⟩ := by
  have hopen : s.kvOpen k r = (((s.setDie (tileDie k) { s.die (tileDie k) with
      kvSlots := Tab.set (s.die (tileDie k)).kvSlots (kvSlotKey key j)
        ⟨s.kvTag (tileDie k) r.gen, fld r.opb.lanes.l0 31 0, []⟩ }).putReq k
      { r with accs := [], waiting := none }).markActive k) := by
    simp only [State.kvOpen, hrow, State.kvOpenTest, hfree]
  refine ⟨_, (exec_kvOpenProceed hr hop hwait).trans (congrArg _ (if_neg (by rw [hlive]; exact Bool.false_ne_true))), ?_, ?_⟩
  · rw [hopen, State.markActive_mem]
    rfl
  · have hdies : ∀ u : State, (u.markActive k).die (tileDie k) = u.die (tileDie k) := fun u => by
      have hrest := congrArg State.dies (u.markActive_rest k)
      exact congrArg (fun b => Tab.get b (tileDie k) Die.reset) hrest
    rw [hopen, hdies, ← fld_extract _ 31 0 (by decide)]
    show Tab.get? ((State.setDie _ _ _).die _).kvSlots _ = _
    rw [State.die_setDie, Tab.get?_set_self]

/-- A slot of an unfinished other tag keeps the request waiting. -/
theorem kvOpen_waits {z : KvSlot} (hslot : Tab.get? (s.die (tileDie k)).kvSlots (kvSlotKey key j) = some z)
    (hlive' : s.kvTag (tileDie k) z.tag ≠ 0) (hother : s.kvTag (tileDie k) z.tag ≠ s.kvTag (tileDie k) r.gen) :
    exec (.kvOpenProceed k n) s = .next s := by
  refine (exec_kvOpenProceed hr hop hwait).trans (congrArg _ ?_)
  rw [if_neg (by rw [hlive]; exact Bool.false_ne_true)]
  simp only [State.kvOpen, hrow, State.kvOpenTest, hslot, bne_iff_ne, ne_eq, hlive', not_false_eq_true, if_true,
    if_neg hother, Option.isSome_iff_ne_none.mpr hwait]

end KvOpening

/-! ### The obligation -/

/-- Settles O45: the access of one word by the entry that it takes or finds in its slice, a failed walk by the hold that
it leaves, and a KV opening by the tag of its slot. -/
theorem taskAccesses : Obligations.TaskAccesses := by
  unfold Obligations.TaskAccesses
  intro s k n r hr _ u
  refine ⟨?line, ?fault, ?dead, ?slot⟩
  case line =>
    intro x pa sh tier s1 haccs hspace hlane hheld hbehind hbeat hreach hlive sl g line word done result mine holds bare
    refine ⟨?load, ?own, ?store, ?atom⟩
    case load =>
      rintro hop ⟨hfree, hroom⟩
      obtain ⟨t, hexec, hmem, hresult, hmark⟩ :=
        gld_bare haccs hspace hlane hheld hbehind hbeat hreach hlive hr hop hfree hroom
      exact ⟨t, ⟨hexec, fun a => by rw [hmem]⟩, hresult, hmark⟩
    case own =>
      intro e v hop he his hjob honly hbytes
      obtain ⟨t, hexec, hmem, hresult⟩ :=
        gld_own haccs hspace hlane hheld hbehind hbeat hreach hlive hr hop he his hjob honly hbytes
      exact ⟨t, ⟨hexec, fun a => by rw [hmem]⟩, hresult⟩
    case store =>
      rintro hop ⟨hfree, hroom⟩
      obtain ⟨t, hexec, hmem, hstored⟩ := gst_bare haccs hspace hheld hbehind hbeat hreach hlive hr hop hfree hroom
      exact ⟨t, ⟨hexec, fun a => by rw [hmem]⟩, hstored⟩
    case atom =>
      rintro hop ⟨hfree, hroom⟩
      obtain ⟨t, hexec, hmem, hresult, hstored⟩ :=
        gatom_bare haccs hspace hlane hheld hbehind hreach hlive hr hop hfree hroom
      exact ⟨t, ⟨hexec, fun a => by rw [hmem]⟩, hresult, hstored⟩
  case fault =>
    intro x rest c l s1 haccs hspace hheld hbehind hreach i hi
    have hexec : exec i s = .next (s.globalNext k r) := by
      rcases hi with ⟨rfl, hop⟩ | ⟨rfl, hop⟩
      · exact exec_taskLoad hr hop
      · exact exec_storeEntry hr hop
    obtain ⟨e, m, hmem, hevq, hcode, hw3, hhold, hreq⟩ :=
      walk_held haccs hspace hheld hbehind hreach (List.mem_of_getElem? hr)
    exact ⟨_, e, m, hexec, hmem, hevq, hcode, hw3, hhold, _, hreq, rfl, rfl, rfl⟩
  case dead => exact kvOpen_discarded hr
  case slot =>
    intro key j y hop hwait hlive hrow d at'
    exact ⟨kvOpen_proceeds hr hop hwait hlive hrow, fun z => kvOpen_waits hr hop hwait hlive hrow⟩

end Sys2Proof.Machine

/-! ## Values as extended numbers (R158 to R161, R213 to R217) -/

namespace Sys2Proof.Machine

open Sys2Proof

/-! ### What a value stands for -/

theorem Val.ext_eq_nan {x : Val} : x.ext = .nan ↔ x = .nan := by cases x <;> simp [Val.ext]

theorem Val.ext_eq_inf {x : Val} {n : Bool} : x.ext = .inf n ↔ x = .inf n := by cases x <;> simp [Val.ext]

theorem Val.ext_eq_num {x : Val} {q : ℚ} : x.ext = .num q ↔ ∃ m e, x = .fin m e ∧ (m : ℚ) * (2 : ℚ) ^ e = q := by
  cases x <;> simp [Val.ext]

theorem Val.isNan_iff {x : Val} : x.isNan = true ↔ x.ext = .nan := by cases x <;> simp [Val.ext, Val.isNan]

/-- The encoding of a value is the encoding of the number it stands for (R161). -/
theorem Val.toWf_eq_word (v : Val) {rm : ℕ} (hrm : rm < 4) : v.toWf rm = v.ext.word rm := by
  match v with
  | .nan => rfl
  | .inf true => rfl
  | .inf false => rfl
  | .fin m e => exact roundingIsExact m e rm hrm

theorem Val.toWf_zero (v : Val) : v.toWf 0 = v.ext.word 0 := v.toWf_eq_word (by decide)

/-- A value rounded to WF and read back. -/
theorem Val.ext_ofWf_toWf (v : Val) {rm : ℕ} (hrm : rm < 4) : (Val.ofWf (v.toWf rm)).ext = v.ext.round rm := by
  rw [v.toWf_eq_word hrm, Ext.round]

theorem Val.ext_rw (v : Val) : v.rw.ext = v.ext.round 0 := v.ext_ofWf_toWf (by decide)

theorem Val.ext_int (n : ℤ) : (Val.int n).ext = .num n := by simp [Val.int, Val.ext]

/-! ### Exact arithmetic (R215, R218) -/

/-- A dyadic value on a grid below its own. -/
theorem dyadic_grid (m : ℤ) {e g : ℤ} (h : g ≤ e) :
    ((m * 2 ^ (e - g).toNat : ℤ) : ℚ) * (2 : ℚ) ^ g = (m : ℚ) * (2 : ℚ) ^ e := by
  obtain ⟨k, rfl⟩ := Int.le.dest h
  rw [add_sub_cancel_left, Int.toNat_natCast, zpow_add₀ two_ne_zero, zpow_natCast]
  push_cast
  ring

theorem dyAdd_value (m e n f : ℤ) :
    ((dyAdd m e n f).1 : ℚ) * (2 : ℚ) ^ (dyAdd m e n f).2 = (m : ℚ) * (2 : ℚ) ^ e + (n : ℚ) * (2 : ℚ) ^ f := by
  rw [← dyadic_grid m (min_le_left e f), ← dyadic_grid n (min_le_right e f), ← add_mul, ← Int.cast_add]
  rfl

theorem dyLt_iff {m e n f : ℤ} : dyLt m e n f = true ↔ (m : ℚ) * (2 : ℚ) ^ e < (n : ℚ) * (2 : ℚ) ^ f := by
  rw [← dyadic_grid m (min_le_left e f), ← dyadic_grid n (min_le_right e f), mul_lt_mul_iff_left₀ (by positivity),
    Int.cast_lt]
  exact decide_eq_true_iff

theorem Val.ext_neg (x : Val) : x.neg.ext = x.ext.neg := by cases x <;> simp [Val.neg, Val.ext, Ext.neg]

theorem Val.ext_abs (x : Val) : x.abs.ext = x.ext.abs := by
  cases x with
  | nan => rfl
  | inf n => rfl
  | fin m e => exact congrArg Ext.num (abs_dyadic m e).symm

theorem Val.ext_add (x y : Val) : (x.add y).ext = x.ext.add y.ext := by
  cases x <;> cases y <;> try rfl
  case inf.inf a b => cases a <;> cases b <;> rfl
  case fin.fin m e n f => exact congrArg Ext.num (dyAdd_value m e n f)

theorem Val.ext_sub (x y : Val) : (x.sub y).ext = x.ext.add y.ext.neg := by rw [Val.sub, Val.ext_add, Val.ext_neg]

theorem dyadic_neg {m e : ℤ} : (m : ℚ) * (2 : ℚ) ^ e < 0 ↔ m < 0 := by
  rw [← neg_pos, ← neg_mul, ← Int.cast_neg, dyadic_pos, neg_pos]

theorem Val.ext_mul (x y : Val) : (x.mul y).ext = x.ext.mul y.ext := by
  cases x <;> cases y <;> try rfl
  case inf.fin a m e =>
    simp only [Val.mul, apply_ite Val.ext, Bool.bne_eq_xor]
    simp only [Val.ext, Ext.mul, dyadic_eq_zero, dyadic_neg]
  case fin.inf m e b =>
    simp only [Val.mul, apply_ite Val.ext, Bool.bne_eq_xor]
    simp only [Val.ext, Ext.mul, dyadic_eq_zero, dyadic_neg]
  case fin.fin m e n f =>
    refine congrArg Ext.num ?_
    rw [zpow_add₀ two_ne_zero]
    push_cast
    ring

theorem Val.ext_scale {x : Val} {q : ℚ} (h : x.ext = .num q) (n : ℤ) : (x.scale n).ext = .num (q * (2 : ℚ) ^ n) := by
  obtain ⟨m, e, rfl, rfl⟩ := Val.ext_eq_num.mp h
  refine congrArg Ext.num ?_
  rw [zpow_add₀ two_ne_zero, mul_assoc]

theorem Val.floor_eq {x : Val} {q : ℚ} (h : x.ext = .num q) : x.floor = ⌊q⌋ := by
  obtain ⟨m, e, rfl, rfl⟩ := Val.ext_eq_num.mp h
  exact rndInt_eq_roundInt m e 2

/-! ### The ranking order (R214) -/

/-- The key of the ranking order, in the lexicographic order. -/
def Ext.rank (x : Ext) : ℕ ×ₗ ℚ := toLex x.key

theorem Ext.below_iff {x y : Ext} : x.below y ↔ x.rank < y.rank := Prod.Lex.lt_iff.symm

theorem Ext.rank_injective : Function.Injective Ext.rank := by
  intro x y h
  have hkey : x.key = y.key := h
  match x, y with
  | .nan, .nan => rfl
  | .num p, .num q => exact congrArg Ext.num (Prod.ext_iff.mp hkey).2
  | .inf true, .inf true => rfl
  | .inf false, .inf false => rfl
  | .nan, .num _ | .nan, .inf true | .nan, .inf false | .num _, .nan | .num _, .inf true | .num _, .inf false
  | .inf true, .nan | .inf true, .num _ | .inf true, .inf false | .inf false, .nan | .inf false, .num _
  | .inf false, .inf true => simp [Ext.key] at hkey

theorem Val.lt_iff {x y : Val} (hx : x.ext ≠ .nan) (hy : y.ext ≠ .nan) : x.lt y = true ↔ x.ext.below y.ext := by
  match x, y with
  | .nan, _ => exact absurd rfl hx
  | _, .nan => exact absurd rfl hy
  | .inf true, .inf true | .inf true, .inf false | .inf true, .fin _ _ | .inf false, .inf true | .inf false, .inf false
  | .inf false, .fin _ _ | .fin _ _, .inf true | .fin _ _, .inf false => simp [Val.lt, Val.ext, Ext.below, Ext.key]
  | .fin m e, .fin n f => simp [Val.lt, Val.ext, Ext.below, Ext.key, dyLt_iff]

theorem Ext.nan_rank_le (x : Ext) : Ext.nan.rank ≤ x.rank := by
  refine Prod.Lex.le_iff.mpr ?_
  match x with
  | .nan => exact .inr ⟨rfl, le_rfl⟩
  | .inf true | .inf false | .num _ => exact .inl (by simp [Ext.rank, Ext.key])

theorem Ext.not_below_nan (x : Ext) : ¬x.below .nan := fun h => (Ext.below_iff.mp h).not_ge x.nan_rank_le

theorem Ext.nan_below {x : Ext} (h : x ≠ .nan) : Ext.nan.below x :=
  Ext.below_iff.mpr (lt_of_le_of_ne x.nan_rank_le fun he => h (Ext.rank_injective he).symm)

theorem Ext.eq_iff_not_below {x y : Ext} : x = y ↔ ¬x.below y ∧ ¬y.below x := by
  rw [Ext.below_iff, Ext.below_iff, not_lt, not_lt, ← Ext.rank_injective.eq_iff, le_antisymm_iff, and_comm]

theorem Val.keyLt_iff {x y : Val} : x.keyLt y = true ↔ x.ext.below y.ext := by
  unfold Val.keyLt
  split
  case isTrue hy => simp [Val.isNan_iff.mp hy, Ext.not_below_nan]
  case isFalse hy =>
    rw [Val.isNan_iff] at hy
    split
    case isTrue hx => simp [Val.isNan_iff.mp hx, Ext.nan_below hy]
    case isFalse hx => exact Val.lt_iff (mt Val.isNan_iff.mpr hx) hy

theorem Val.same_iff {x y : Val} : x.same y = true ↔ (¬(x.ext = .nan ∨ y.ext = .nan)) ∧ x.ext = y.ext := by
  simp only [Val.same, Bool.and_eq_true, Bool.not_eq_true', ← Bool.not_eq_true, Val.isNan_iff, not_or, and_assoc]
  refine and_congr_right fun hx => and_congr_right fun hy => ?_
  rw [Val.lt_iff hx hy, Val.lt_iff hy hx, Ext.eq_iff_not_below]

end Sys2Proof.Machine

/-! ## WF arithmetic, selections and parts (R213 to R218) -/

namespace Sys2Proof.Machine

open Sys2Proof

/-! ### A WF instruction lane by lane -/

theorem ofWf_zero : Val.ofWf 0 = .fin 0 (-48) := by decide

/-- A lane that is not there stands for zero. -/
theorem ext_ofWf_zero : (Val.ofWf 0).ext = .num 0 := by rw [ofWf_zero, Val.ext, Int.cast_zero, zero_mul]

/-- A data token of a lane function has the header and, in each valid lane, the value of the function. -/
theorem dataTok_ofFn (g : Nat → Word) (h : Hdr) (fmt : BitVec 4) :
    HasHead (dataTok (Lanes.ofFn g) h fmt) h fmt ∧
      ∀ i < 8, (dataTok (Lanes.ofFn g) h fmt).lanes.get i = if h.mask.getLsbD i then g i else 0 :=
  ⟨⟨rfl, rfl, rfl, rfl⟩, fun i hi => by rw [dataTok_get _ _ _ hi, Lanes.get_ofFn _ hi]⟩

/-- The token of a lane-wise WF instruction has the header of its sources, FMT WF and, in each valid lane, the function
of theirs. -/
theorem wfOp_result {o : Op} {f : Fields} {s : State} {op : (rm : Nat) → (x y z : Val) → Word} {a b d : Tok} {h : Hdr}
    {lat : Nat} (he : exec (o.mk f) s = wfOp o f s op) (hl : opLatency o = some lat) (hf : Fires o f s)
    (hs : Sources (s.seen o f) .wf a b d h) :
    ∃ r, Does o f s (resulting f lat r) ∧ HasHead r h 0 ∧ ∀ i < 8, r.lanes.get i = if h.mask.getLsbD i then
      op (f.md.toNat % 4) (Val.ofWf (a.lanes.get i)) (Val.ofWf (b.lanes.get i))
        (Val.ofWf (if o.shape = .c then d.lanes.get i else 0)) else 0 := by
  obtain ⟨hhead, hlanes⟩ := dataTok_ofFn (fun i => op (f.md.toNat % 4) (Val.ofWf (a.lanes.get i))
    (Val.ofWf (b.lanes.get i)) (Val.ofWf ((if o.shape = .c then d else zeroTok).lanes.get i))) h 0
  refine ⟨_, does_of_issue he hf (d := resulting f lat _) ?_, hhead, fun i hi => ?_⟩
  · rw [hs.readA, hs.readB, hs.header, ← s.seen_result f hl]
    by_cases hc : o.shape = .c
    · simp only [if_pos hc, ok_bind, hs.readD hc]
    · simp only [if_neg hc, ok_bind]
  · rw [hlanes i hi, third_lane o d hi]

/-- The lanes that are valid, where nothing is said of the others. -/
theorem valid_lanes {r : Tok} {m : BitVec 8} {g : Nat → Word}
    (h : ∀ i < 8, r.lanes.get i = if m.getLsbD i then g i else 0) : ∀ i < 8, m.getLsbD i = true → r.lanes.get i = g i :=
  fun i hi hv => (h i hi).trans (if_pos hv)

/-! ### Arithmetic (R215, R218) -/

theorem Val.ext_rnd (x : Val) (rm : Nat) :
    (x.rnd rm).ext = match x.ext with
      | .num q => .num (roundInt rm q)
      | v => v := by
  cases x with
  | nan => rfl
  | inf n => rfl
  | fin m e => exact congrArg Ext.num (by rw [rndInt_eq_roundInt, zpow_zero, mul_one])

/-- The exact value of the arithmetic instructions, before the rounding. -/
def exactFloat (o : Op) (rm : Nat) (x y z : Val) : Val :=
  match o with
  | .fadd => x.add y
  | .fsub => x.sub y
  | .fmul => x.mul y
  | .fma => (x.mul y).add z
  | .fneg => x.neg
  | .fabs => x.abs
  | _ => x.rnd rm

theorem exec_float {o : Op} (f : Fields) (s : State) (ho : o ∈ floatOps) :
    exec (o.mk f) s = wfOp o f s fun rm x y z =>
      (exactFloat o rm x y z).toWf (if o ∈ [.fneg, .fabs, .frnd] then 0 else rm) := by
  simp only [floatOps, List.mem_cons, List.not_mem_nil, or_false] at ho
  rcases ho with rfl | rfl | rfl | rfl | rfl | rfl | rfl <;> rfl

/-- An exact value is its line of the table. -/
theorem ext_exactFloat {o : Op} (ho : o ∈ floatOps) (rm : Nat) (x y z : Val) :
    (exactFloat o rm x y z).ext = floatTable o rm x.ext y.ext z.ext := by
  simp only [floatOps, List.mem_cons, List.not_mem_nil, or_false] at ho
  rcases ho with rfl | rfl | rfl | rfl | rfl | rfl | rfl
  · exact x.ext_add y
  · exact x.ext_sub y
  · exact x.ext_mul y
  · exact ((x.mul y).ext_add z).trans (by rw [x.ext_mul]; rfl)
  · exact x.ext_neg
  · exact x.ext_abs
  · exact x.ext_rnd rm

theorem floatOps_latency {o : Op} (ho : o ∈ floatOps) : opLatency o = some 4 := by
  revert o
  decide

theorem floatOps_md {o : Op} (ho : o ∈ floatOps) {md : Nat} (hmd : md ∈ o.mds) : md % 4 = md := by
  have hall : ∀ o ∈ floatOps, ∀ md ∈ o.mds, md % 4 = md := by decide
  exact hall o ho md hmd

/-- Settles O23: an arithmetic instruction rounds its exact value, which is its line of the table, lane by lane. -/
theorem floatResults : Obligations.FloatResults := by
  intro o f s a b d h ho hmd hf hs
  obtain ⟨r, hdoes, hhead, hlanes⟩ := wfOp_result (exec_float f s ho) (floatOps_latency ho) hf hs
  have hrm : (if o ∈ [.fneg, .fabs, .frnd] then 0 else f.md.toNat % 4) < 4 := by
    split
    · decide
    · exact Nat.mod_lt _ (by decide)
  refine ⟨r, hdoes, hhead, fun i hi => ?_⟩
  rw [hlanes i hi, Val.toWf_eq_word _ hrm, ext_exactFloat ho, floatOps_md ho hmd]
  simp only [apply_ite Val.ofWf, apply_ite Val.ext, ext_ofWf_zero, Tok.ext]

/-! ### Selections and tests (R216, R217) -/

theorem Val.fmin_word (x y : Val) :
    ((x.ext = .nan ∨ y.ext = .nan) → (x.fmin y).toWf 0 = wfNaN) ∧
      (x.ext ≠ .nan → y.ext ≠ .nan → y.ext.below x.ext → (x.fmin y).toWf 0 = y.ext.word 0) ∧
      (x.ext ≠ .nan → y.ext ≠ .nan → ¬y.ext.below x.ext → (x.fmin y).toWf 0 = x.ext.word 0) := by
  have hnan : (x.isNan || y.isNan) = true ↔ x.ext = .nan ∨ y.ext = .nan := by
    rw [Bool.or_eq_true, Val.isNan_iff, Val.isNan_iff]
  unfold Val.fmin
  refine ⟨fun h => ?_, fun hx hy hlt => ?_, fun hx hy hlt => ?_⟩
  · rw [if_pos (hnan.mpr h)]
    rfl
  · rw [if_neg (mt hnan.mp (not_or.mpr ⟨hx, hy⟩)), if_pos ((Val.lt_iff hy hx).mpr hlt), Val.toWf_zero]
  · rw [if_neg (mt hnan.mp (not_or.mpr ⟨hx, hy⟩)), if_neg (mt (Val.lt_iff hy hx).mp hlt), Val.toWf_zero]

theorem Val.ext_fmax (x y : Val) :
    (x.ext.below y.ext → (x.fmax y).ext = y.ext) ∧ (¬x.ext.below y.ext → (x.fmax y).ext = x.ext) := by
  unfold Val.fmax
  exact ⟨fun h => by rw [if_pos (Val.keyLt_iff.mpr h)], fun h => by rw [if_neg (mt Val.keyLt_iff.mp h)]⟩

/-- FCLAMP bounds x below by y and above by z, y taking precedence (R216). -/
theorem Val.fclamp_word (x y z : Val) :
    let nan := x.ext = .nan ∨ y.ext = .nan ∨ z.ext = .nan
    (nan → (x.fclamp y z).toWf 0 = wfNaN) ∧
      (¬nan → (z.ext.below y.ext ∨ x.ext.below y.ext) → (x.fclamp y z).toWf 0 = y.ext.word 0) ∧
      (¬nan → ¬z.ext.below y.ext → z.ext.below x.ext → (x.fclamp y z).toWf 0 = z.ext.word 0) ∧
      (¬nan → ¬x.ext.below y.ext → ¬z.ext.below x.ext → (x.fclamp y z).toWf 0 = x.ext.word 0) := by
  intro nan
  have hnan : (x.isNan || y.isNan || z.isNan) = true ↔ nan := by
    rw [Bool.or_eq_true, Bool.or_eq_true, Val.isNan_iff, Val.isNan_iff, Val.isNan_iff, or_assoc]
  unfold Val.fclamp
  refine ⟨fun h => by rw [if_pos (hnan.mpr h)]; rfl, ?_⟩
  by_cases h : nan
  · exact ⟨fun hn => absurd h hn, fun hn => absurd h hn, fun hn => absurd h hn⟩
  · obtain ⟨hx, hy, hz⟩ : x.ext ≠ .nan ∧ y.ext ≠ .nan ∧ z.ext ≠ .nan := by simpa [nan, not_or] using h
    rw [if_neg (mt hnan.mp h)]
    have hlt : ∀ {u v : Val}, u.ext ≠ .nan → v.ext ≠ .nan → (u.lt v = true ↔ u.ext.rank < v.ext.rank) :=
      fun hu hv => (Val.lt_iff hu hv).trans Ext.below_iff
    simp only [hlt hz hy, hlt hz hx, Val.toWf_zero, Ext.below_iff]
    refine ⟨fun _ hlow => ?_, fun _ hzy hzx => ?_, fun _ hxy hzx => ?_⟩
    · by_cases hzy : z.ext.rank < y.ext.rank
      · rw [if_pos hzy]
      · have hxy := hlow.resolve_left hzy
        have hzx : ¬z.ext.rank < x.ext.rank := fun hzx => hzy (hzx.trans hxy)
        rw [if_neg hzy, if_neg hzx, if_pos ((hlt hx hy).mpr hxy)]
    · rw [if_neg hzy, if_pos hzx, if_neg (mt (hlt hz hy).mp hzy)]
    · have hzy : ¬z.ext.rank < y.ext.rank := fun hzy => hzx (hzy.trans_le (not_lt.mp hxy))
      rw [if_neg hzy, if_neg hzx, if_neg (mt (hlt hx hy).mp hxy)]

theorem fcmpFn_iff {md : BitVec 3} (hmd : md.toNat < 6) (x y : Val) :
    fcmpFn md.toNat x y = true ↔ floatTest md x.ext y.ext := by
  have hun : (x.isNan || y.isNan) = true ↔ x.ext = .nan ∨ y.ext = .nan := by
    rw [Bool.or_eq_true, Val.isNan_iff, Val.isNan_iff]
  have hord : ∀ {p : Bool} {q : Prop}, (x.ext ≠ .nan → y.ext ≠ .nan → (p = true ↔ q)) →
      ((!(x.isNan || y.isNan) && p) = true ↔ ¬(x.ext = .nan ∨ y.ext = .nan) ∧ q) := fun h => by
    rw [Bool.and_eq_true, Bool.not_eq_true', ← Bool.not_eq_true, hun]
    exact and_congr_right fun hn => h (fun hx => hn (.inl hx)) (fun hy => hn (.inr hy))
  rcases md_cases md with rfl | rfl | rfl | rfl | rfl | rfl | rfl | rfl
  · exact Val.same_iff
  · have hsame : (!x.same y) = true ↔ ¬(¬(x.ext = .nan ∨ y.ext = .nan) ∧ x.ext = y.ext) := by
      rw [Bool.not_eq_true', ← Bool.not_eq_true, Val.same_iff]
    exact hsame.trans (not_and_or.trans (or_congr_left not_not))
  · exact hord fun hx hy => Val.lt_iff hx hy
  · exact hord fun hx hy => by rw [Bool.not_eq_true', ← Bool.not_eq_true, Val.lt_iff hy hx]
  · exact hun
  · exact Val.keyLt_iff
  all_goals exact absurd hmd (by decide)

/-- The token of a comparison: lanes of flags, or the bit of a predicate. -/
def compareTok (d : Dst) (h : Hdr) (hold : Nat → Bool) : Tok :=
  if d.isPred then predRes (h.mask != 0 && (List.range 8).all fun i => !h.mask.getLsbD i || hold i) h
  else dataTok (Lanes.ofFn fun i => flagWord (hold i)) h 1

theorem cmpDone_eq {o : Op} {lat : Nat} (hl : opLatency o = some lat) (f : Fields) (s : State) (h : Hdr)
    (hold : Nat → Bool) : cmpDone (s.seen o f) h hold = resulting f lat (compareTok f.d h hold) := by
  unfold cmpDone
  rw [s.seen_result f hl, s.seen_result f hl, ← apply_ite (resulting f lat)]
  rfl

theorem fcmp_does {f : Fields} {s : State} {a b d : Tok} {h : Hdr} (hf : Fires .fcmp f s)
    (hs : Sources (s.seen .fcmp f) .wf a b d h) :
    Does .fcmp f s (resulting f 4 (compareTok f.d h fun i =>
      fcmpFn f.md.toNat (Val.ofWf (a.lanes.get i)) (Val.ofWf (b.lanes.get i)))) := by
  refine does_of_issue (show exec (.fcmp f) s = execFcmp f s from rfl) hf ?_
  rw [hs.readA, hs.readB, hs.header, ← cmpDone_eq (o := .fcmp) rfl f s]
  rfl

/-- Settles O24: each choice is a case of the function's own lemma, and FCMP's condition its line of `floatTest`. -/
theorem floatSelections : Obligations.FloatSelections := by
  intro f s a b d h
  refine ⟨fun _ hf hs => ?_, fun _ hf hs => ?_, fun _ hf hs => ?_,
    fun hmd hf hs => ⟨_, fcmp_does hf hs, fun hd => ?_, fun hd => ?_⟩⟩
  · obtain ⟨r, hdoes, hhead, hlanes⟩ := wfOp_result (o := .fmin) (op := fun _ x y _ => (x.fmin y).toWf 0) rfl rfl hf hs
    refine ⟨r, hdoes, hhead, fun i hi hv => ?_⟩
    rw [valid_lanes hlanes i hi hv]
    exact Val.fmin_word _ _
  · obtain ⟨r, hdoes, hhead, hlanes⟩ := wfOp_result (o := .fmax) (op := fun _ x y _ => (x.fmax y).toWf 0) rfl rfl hf hs
    refine ⟨r, hdoes, hhead, fun i hi hv => ?_⟩
    obtain ⟨hbelow, hnot⟩ := Val.ext_fmax (Val.ofWf (a.lanes.get i)) (Val.ofWf (b.lanes.get i))
    rw [valid_lanes hlanes i hi hv, Val.toWf_zero]
    exact ⟨fun hlt => congrArg (Ext.word 0) (hbelow hlt), fun hlt => congrArg (Ext.word 0) (hnot hlt)⟩
  · obtain ⟨r, hdoes, hhead, hlanes⟩ :=
      wfOp_result (o := .fclamp) (op := fun _ x y z => (x.fclamp y z).toWf 0) rfl rfl hf hs
    refine ⟨r, hdoes, hhead, fun i hi hv => ?_⟩
    rw [valid_lanes hlanes i hi hv]
    exact Val.fclamp_word _ _ _
  · rw [compareTok, if_neg (by simp [hd])]
    obtain ⟨hhead, hlanes⟩ := dataTok_ofFn (fun i => flagWord (fcmpFn f.md.toNat (Val.ofWf (a.lanes.get i))
      (Val.ofWf (b.lanes.get i)))) h 1
    refine ⟨hhead, fun i hi hv => ?_⟩
    rw [valid_lanes hlanes i hi hv]
    exact flagWord_holds (fcmpFn_iff hmd _ _)
  · rw [compareTok, if_pos hd, predRes_eq]
    refine (Bool.eq_iff_iff.mp (getLsbD_outcome _)).trans (everyValid_iff.trans ?_)
    exact and_congr_right fun _ => forall₃_congr fun i _ _ => fcmpFn_iff hmd _ _

/-! ### Scale, exponent and mantissa (R218) -/

theorem Val.scale_word (x : Val) (n : ℤ) :
    (x.scale n).toWf 0 = match x.ext with
      | .num q => roundQ 0 (q * (2 : ℚ) ^ n)
      | v => v.word 0 := by
  rw [Val.toWf_zero]
  cases x with
  | nan => rfl
  | inf n => rfl
  | fin m e => rw [Val.ext_scale rfl]; rfl

theorem Val.fxp_word (x : Val) :
    x.fxp = match x.ext with
      | .num q => if q = 0 then BitVec.intMin 64 else BitVec.ofInt 64 (Int.log 2 |q|)
      | _ => BitVec.intMax 64 := by
  cases x with
  | nan => rfl
  | inf n => rfl
  | fin m e =>
    simp only [Val.fxp, Val.ext, dyadic_eq_zero]
    split
    case isTrue hm => rfl
    case isFalse hm => rw [ilog2_eq_log hm]

theorem Val.fmant_word (x : Val) :
    x.fmant.toWf 0 = match x.ext with
      | .num q => roundQ 0 (q / (2 : ℚ) ^ (Int.log 2 |q|))
      | v => v.word 0 := by
  cases x with
  | nan => rfl
  | inf n => cases n <;> rfl
  | fin m e =>
    by_cases hm : m = 0
    · subst hm
      simp [Val.fmant, Val.isZero, Val.toWf, roundWf, Val.ext, roundQ]
    · have hlog : (Val.fin m e).log = Int.log 2 |(m : ℚ) * (2 : ℚ) ^ e| := ilog2_eq_log hm e
      rw [Val.fmant, if_neg (by simpa [Val.isZero] using hm), Val.scale_word, hlog]
      simp only [Val.ext, zpow_neg, div_eq_mul_inv]

/-- Settles O25: each result is that of the value's own lemma, in the lanes that the header leaves valid. -/
theorem scaleAndParts : Obligations.ScaleAndParts := by
  intro f s a b h _
  refine ⟨fun hf ha hb hh => ?_, fun hf ha hh => ?_, fun hf ha hb hh => ?_⟩
  · obtain ⟨hhead, hlanes⟩ := dataTok_ofFn (fun i => ((Val.ofWf (a.lanes.get i)).scale
      (min (max (b.lanes.get i).toInt (-(2 ^ 20))) (2 ^ 20))).toWf 0) h 0
    refine ⟨_, does_of_issue (show exec (.fscl f) s = execFscl f s from rfl) hf ?_, hhead, fun i hi hv => ?_⟩
    · rw [ha, hb, hh, ← s.seen_result f (o := .fscl) rfl]
      rfl
    · exact (valid_lanes hlanes i hi hv).trans (Val.scale_word _ _)
  · obtain ⟨hhead, hlanes⟩ := dataTok_ofFn (fun i => (Val.ofWf (a.lanes.get i)).fxp) h 1
    refine ⟨_, does_of_issue (show exec (.fxp f) s = execFxp f s from rfl) hf ?_, hhead, fun i hi hv => ?_⟩
    · rw [ha, hh, ← s.seen_result f (o := .fxp) rfl]
      rfl
    · exact (valid_lanes hlanes i hi hv).trans (Val.fxp_word _)
  · have hs : Sources (s.seen .fmant f) .wf a b zeroTok h := ⟨ha, hb, nofun, hh⟩
    obtain ⟨r, hdoes, hhead, hlanes⟩ := wfOp_result (o := .fmant) (op := fun _ x _ _ => x.fmant.toWf 0) rfl rfl hf hs
    exact ⟨r, hdoes, hhead, fun i hi hv => (valid_lanes hlanes i hi hv).trans (Val.fmant_word _)⟩

end Sys2Proof.Machine

/-! ## The transcendental instructions (R219, R220) -/

namespace Sys2Proof.Machine

open Sys2Proof

/-! ### Numbers that WF holds -/

theorem ofWf_wfWord {e m : ℤ} (he : -8191 ≤ e ∧ e ≤ 8191) (hm : -2 ^ 49 ≤ m ∧ m < 2 ^ 49) :
    Val.ofWf (wfWord e m) = .fin m (e - 48) := by
  have hE : wfE (wfWord e m) = e := by
    rw [wfE, wfWord, BitVec.extractLsb'_append_eq_left, BitVec.toInt_ofInt, Int.bmod_eq_of_le_mul_two] <;> omega
  have hS : wfS (wfWord e m) = m := by
    rw [wfS, wfWord, BitVec.extractLsb'_append_eq_right, BitVec.toInt_ofInt, Int.bmod_eq_of_le_mul_two] <;> omega
  rw [Val.ofWf, hE, hS, if_neg (by omega)]

/-- A power of two in range is its own encoding. -/
theorem roundQ_two_zpow {n : ℤ} (hn : -8191 ≤ n ∧ n ≤ 8191) : roundQ 0 ((2 : ℚ) ^ n) = wfWord n (2 ^ 48) := by
  have hpos : (0 : ℚ) < 2 ^ n := by positivity
  have hlog : Int.log 2 ((2 : ℚ) ^ n) = n := by exact_mod_cast Int.log_zpow (R := ℚ) one_lt_two n
  have hsig : (2 : ℚ) ^ n / (2 : ℚ) ^ (n - 48) = ((2 ^ 48 : ℤ) : ℚ) := by
    rw [← zpow_sub₀ two_ne_zero, sub_sub_cancel]
    norm_num
  have hcarry : ¬(2 ^ 48 : ℤ) = 2 ^ 49 ∧ ¬(2 ^ 48 : ℤ) = -2 ^ 48 := by decide
  have hrange : ¬8191 < n ∧ ¬n < -8191 := by omega
  simp only [roundQ, if_neg hpos.ne', if_pos hpos, hlog, hsig, roundInt_intCast, if_neg hcarry.1, if_neg hcarry.2,
    if_neg hrange.1, if_neg hrange.2, wfWord]

theorem Ext.round_two_zpow {n : ℤ} (hn : -8191 ≤ n ∧ n ≤ 8191) :
    Ext.round 0 (.num ((2 : ℚ) ^ n)) = .num ((2 : ℚ) ^ n) := by
  have hsig : ((2 ^ 48 : ℤ) : ℚ) * (2 : ℚ) ^ (n - 48) = (2 : ℚ) ^ n := by
    rw [Int.cast_pow, Int.cast_ofNat, ← zpow_natCast, ← zpow_add₀ two_ne_zero]
    congr 1
    push_cast
    ring
  rw [Ext.round, Ext.word, roundQ_two_zpow hn, ofWf_wfWord hn (by norm_num), Val.ext, hsig]

theorem Ext.round_one : Ext.round 0 (.num 1) = .num 1 := Ext.round_two_zpow (n := 0) (by decide)

theorem Ext.round_zero : Ext.round 0 (.num 0) = .num 0 := by
  rw [Ext.round, Ext.word, roundQ, if_pos rfl, ext_ofWf_zero]

/-! ### FEXP2 at an integer -/

theorem rw_mul_zero {z c : Val} (hz : z.ext = .num 0) (hc : ∃ q, c.ext = .num q) : (z.mul c).rw.ext = .num 0 := by
  obtain ⟨q, hq⟩ := hc
  rw [Val.ext_rw, Val.ext_mul, hz, hq, Ext.mul, zero_mul, Ext.round_zero]

theorem rw_add_zero {c t : Val} (ht : t.ext = .num 0) : (c.add t).rw.ext = c.rw.ext := by
  rw [Val.ext_rw, Val.ext_rw, Val.ext_add, ht]
  cases c.ext <;> simp [Ext.add]

/-- The polynomial of R219 at zero is its constant term. -/
theorem cubic_zero {z c0 c1 c2 c3 : Val} (hz : z.ext = .num 0) (h1 : ∃ q, c1.rw.ext = .num q)
    (h2 : ∃ q, c2.rw.ext = .num q) (h3 : ∃ q, c3.ext = .num q) : (cubic z c0 c1 c2 c3).ext = c0.rw.ext := by
  have ht1 := rw_mul_zero hz h3
  have ht2 := rw_mul_zero hz (c := (c2.add (z.mul c3).rw).rw) (by rwa [rw_add_zero ht1])
  have ht3 := rw_mul_zero hz (c := (c1.add (z.mul (c2.add (z.mul c3).rw).rw).rw).rw) (by rwa [rw_add_zero ht2])
  exact rw_add_zero ht3

theorem tabE2_zero : (tabE2 0).ext = .num 1 := by
  have h : tabE2 0 = .fin (2 ^ 48) (-48) := by decide +kernel
  rw [h, Val.ext]
  norm_num

/-- The constants of FEXP2's polynomial are finite. -/
theorem exp2_constants : (∃ q, cLN2.rw.ext = .num q) ∧ (∃ q, cEXP2.rw.ext = .num q) ∧ ∃ q, cEXP3.ext = .num q := by
  refine ⟨⟨_, rfl⟩, ⟨_, rfl⟩, ⟨_, rfl⟩⟩

/-- FEXP2 of an integer in range is the power of two (R220). -/
theorem fexp2_int {x : Val} {n : ℤ} (hn : -8191 ≤ n ∧ n ≤ 8191) (hx : x.ext = .num n) :
    (fexp2 x).ext = .num ((2 : ℚ) ^ n) := by
  obtain ⟨m, e, rfl, hv⟩ := Val.ext_eq_num.mp hx
  have hfloor : rndInt m e 2 = n := (rndInt_eq_roundInt m e 2).trans (by rw [hv, roundInt_intCast])
  have hg : ((Val.fin m e).sub (.int n)).ext = .num 0 := by
    rw [Val.ext_sub, hx, Val.ext_int, Ext.neg, Ext.add, add_neg_cancel]
  have hj : (((Val.fin m e).sub (.int n)).scale 6).floor = 0 := by
    rw [Val.floor_eq (Val.ext_scale hg 6), zero_mul, Int.floor_zero]
  have hr : (((Val.fin m e).sub (.int n)).sub (.fin 0 (-6))).ext = .num 0 := by
    rw [Val.ext_sub, hg, Val.ext, Int.cast_zero, zero_mul, Ext.neg, Ext.add, neg_zero, add_zero]
  obtain ⟨h1, h2, h3⟩ := exp2_constants
  have hp : (cubic (((Val.fin m e).sub (.int n)).sub (.fin 0 (-6))) (.int 1) cLN2 cEXP2 cEXP3).ext = .num 1 := by
    rw [cubic_zero hr h1 h2 h3, Val.ext_rw, Val.ext_int, Int.cast_one, Ext.round_one]
  have hm : ((tabE2 0).mul (cubic (((Val.fin m e).sub (.int n)).sub (.fin 0 (-6))) (.int 1) cLN2 cEXP2 cEXP3)).rw.ext =
      .num 1 := by
    rw [Val.ext_rw, Val.ext_mul, tabE2_zero, hp, Ext.mul, mul_one, Ext.round_one]
  simp only [fexp2, hfloor, hj, Int.toNat_zero]
  rw [Val.ext_rw, Val.ext_scale hm, one_mul, Ext.round_two_zpow hn]

/-! ### Special values (R220) -/

theorem nan_special : ∀ g ∈ [frcp, frsq, fsqrt, fexp2, flog2, fexp, ftanh], (g .nan).ext = .nan := by
  have hexp : (fexp .nan).ext = .nan := by decide +kernel
  simp only [List.forall_mem_cons, List.not_mem_nil, false_imp_iff, implies_true, and_true]
  exact ⟨rfl, rfl, rfl, rfl, rfl, hexp, rfl⟩

theorem posInf_special : (frcp (.inf false)).ext = .num 0 ∧ (frsq (.inf false)).ext = .num 0 ∧
    (fsqrt (.inf false)).ext = .inf false ∧ (fexp2 (.inf false)).ext = .inf false ∧
    (flog2 (.inf false)).ext = .inf false ∧ (fexp (.inf false)).ext = .inf false ∧
    (ftanh (.inf false)).ext = .num 1 := by
  decide +kernel

theorem negInf_special : (frcp (.inf true)).ext = .num 0 ∧ (frsq (.inf true)).ext = .nan ∧
    (fsqrt (.inf true)).ext = .nan ∧ (fexp2 (.inf true)).ext = .num 0 ∧ (flog2 (.inf true)).ext = .nan ∧
    (fexp (.inf true)).ext = .num 0 ∧
    (ftanh (.inf true)).ext = .num (-1) := by
  decide +kernel

/-- FEXP of zero is FEXP2 of zero. -/
theorem fexp_zero {x : Val} (hx : x.ext = .num 0) : (fexp x).ext = .num 1 := by
  have harg : (x.mul cL2E).rw.ext = .num (0 : ℤ) := rw_mul_zero hx ⟨_, rfl⟩
  exact fexp2_int (n := 0) (by decide) harg

theorem Val.isNeg_iff {m e : ℤ} : (Val.fin m e).isNeg = true ↔ (m : ℚ) * (2 : ℚ) ^ e < 0 := by
  rw [dyadic_neg]
  exact decide_eq_true_iff

theorem zero_special {m e : ℤ} (h : (m : ℚ) * (2 : ℚ) ^ e = 0) : (frcp (.fin m e)).ext = .inf false ∧
    (frsq (.fin m e)).ext = .inf false ∧ (fsqrt (.fin m e)).ext = .num 0 ∧ (flog2 (.fin m e)).ext = .inf true := by
  obtain rfl := dyadic_eq_zero.mp h
  simp [frcp, frsq, fsqrt, flog2, Val.isNan, Val.isNeg, Val.isZero, Val.ext]

theorem negative_special {m e : ℤ} (h : (m : ℚ) * (2 : ℚ) ^ e < 0) : (frsq (.fin m e)).ext = .nan ∧
    (fsqrt (.fin m e)).ext = .nan ∧ (flog2 (.fin m e)).ext = .nan := by
  have hm := dyadic_neg.mp h
  simp [frsq, fsqrt, flog2, Val.isNan, Val.isNeg, Val.ext, hm, hm.ne]

/-- FTANH returns a small number as it stands. -/
theorem ftanh_small {m e : ℤ} (h : |(m : ℚ) * (2 : ℚ) ^ e| < 1 / 2 ^ 16) : ftanh (.fin m e) = .fin m e := by
  have hlt : dyLt m.natAbs e 1 (-16) = true := dyLt_iff.mpr (by
    rw [Int.cast_natCast, ← abs_dyadic]
    exact h.trans_eq (by norm_num))
  simp only [ftanh, Val.lt, hlt, if_true]

/-- FTANH of 32 or more is one. -/
theorem ftanh_large {m e : ℤ} (h : 32 ≤ (m : ℚ) * (2 : ℚ) ^ e) : (ftanh (.fin m e)).ext = .num 1 := by
  have hpos : ¬(Val.fin m e).isNeg = true := fun hneg => absurd (Val.isNeg_iff.mp hneg) (by linarith)
  have habs : (m.natAbs : ℚ) * (2 : ℚ) ^ e = (m : ℚ) * (2 : ℚ) ^ e := by
    rw [← abs_dyadic, abs_of_nonneg (by linarith)]
  have hsmall : ¬dyLt m.natAbs e 1 (-16) = true := fun hlt => by
    have hval := dyLt_iff.mp hlt
    rw [Int.cast_natCast, habs] at hval
    norm_num at hval
    linarith
  have hlarge : ¬dyLt m.natAbs e 32 0 = true := fun hlt => by
    have hval := dyLt_iff.mp hlt
    rw [Int.cast_natCast, habs] at hval
    norm_num at hval
    linarith
  simp only [ftanh, Val.lt, Val.int, if_neg hsmall, if_neg hpos, hlarge]
  simp [Val.ext]

/-- Settles O26: each instruction is `wfOp` of its function, and the special values are read off the functions by the
kind of value. -/
theorem transcendentals : Obligations.Transcendentals := by
  refine ⟨fun o g f s a b d h ho hf hs => ?_, fun x => ?_⟩
  · have hexec : exec (o.mk f) s = wfOp o f s (fun _ x _ _ => (g x).toWf 0) ∧ opLatency o = some 12 := by
      simp only [List.mem_cons, List.not_mem_nil, or_false, Prod.mk.injEq] at ho
      rcases ho with ⟨rfl, rfl⟩ | ⟨rfl, rfl⟩ | ⟨rfl, rfl⟩ | ⟨rfl, rfl⟩ | ⟨rfl, rfl⟩ | ⟨rfl, rfl⟩ | ⟨rfl, rfl⟩ <;>
        exact ⟨rfl, rfl⟩
    obtain ⟨r, hdoes, hhead, hlanes⟩ := wfOp_result hexec.1 hexec.2 hf hs
    exact ⟨r, hdoes, hhead, fun i hi hv => (valid_lanes hlanes i hi hv).trans (Val.toWf_zero _)⟩
  · refine ⟨fun hx => ?nan, fun hx => ?posInf, fun hx => ?negInf, fun hx => ?zero, fun q hq hx => ?negative,
      fun q hx hq => ?small, fun q hx hq => ?large, fun n hlo hhi hx => fexp2_int ⟨hlo, hhi⟩ hx⟩
    case nan =>
      obtain rfl := Val.ext_eq_nan.mp hx
      exact nan_special
    case posInf =>
      obtain rfl := Val.ext_eq_inf.mp hx
      exact posInf_special
    case negInf =>
      obtain rfl := Val.ext_eq_inf.mp hx
      exact negInf_special
    case zero =>
      have hexp2 : (fexp2 x).ext = .num 1 := fexp2_int (n := 0) (by decide) (by exact_mod_cast hx)
      have hexp := fexp_zero hx
      obtain ⟨m, e, rfl, hv⟩ := Val.ext_eq_num.mp hx
      obtain ⟨hrcp, hrsq, hsqrt, hlog2⟩ := zero_special hv
      exact ⟨hrcp, hrsq, hsqrt, hexp2, hlog2, hexp⟩
    case negative =>
      obtain ⟨m, e, rfl, rfl⟩ := Val.ext_eq_num.mp hx
      exact negative_special hq
    case small =>
      obtain ⟨m, e, rfl, rfl⟩ := Val.ext_eq_num.mp hx
      exact ftanh_small hq
    case large =>
      obtain ⟨m, e, rfl, rfl⟩ := Val.ext_eq_num.mp hx
      exact ftanh_large hq

end Sys2Proof.Machine

/-! ## Conversions (R221 to R223) -/

namespace Sys2Proof.Machine

open Sys2Proof

/-! ### Integers and WF (R221) -/

theorem roundWf_int (n : ℤ) {rm : ℕ} (hrm : rm < 4) : roundWf n 0 rm = roundQ rm n := by
  rw [roundingIsExact n 0 rm hrm, zpow_zero, mul_one]

theorem cvtif_does {f : Fields} {s : State} {a : Tok} {h : Hdr} (hf : Fires .cvtif f s)
    (ha : (s.seen .cvtif f).convA .int = .ok a) (hh : (s.seen .cvtif f).header = .ok h) :
    Does .cvtif f s (resulting f 4 (dataTok (Lanes.ofFn fun i => roundWf
      (if f.md.getLsbD 2 then ((a.lanes.get i).toNat : ℤ) else (a.lanes.get i).toInt) 0 (f.md.toNat % 4)) h 0)) := by
  refine does_of_issue (show exec (.cvtif f) s = execCvtif f s from rfl) hf ?_
  rw [ha, hh, ← s.seen_result f (o := .cvtif) rfl]
  rfl

theorem clampS_eq (n : ℕ) (x : ℤ) : clampS n x = max (-2 ^ (n - 1)) (min (2 ^ (n - 1) - 1) x) := by
  have hpos : (0 : ℤ) < 2 ^ (n - 1) := by positivity
  unfold clampS
  omega

theorem cvtfi_eq (bits rm : ℕ) (x : Val) : cvtfi bits rm x = match x.ext with
    | .nan => 0
    | .inf true => BitVec.ofInt 64 (-2 ^ (bits - 1))
    | .inf false => BitVec.ofInt 64 (2 ^ (bits - 1) - 1)
    | .num q => BitVec.ofInt 64 (max (-2 ^ (bits - 1)) (min (2 ^ (bits - 1) - 1) (roundInt rm q))) := by
  match x with
  | .nan => rfl
  | .inf true => rfl
  | .inf false => rfl
  | .fin m e =>
    simp only [cvtfi, Val.ext]
    rw [clampS_eq, rndInt_eq_roundInt]

theorem cvtfi_does {f : Fields} {s : State} {a : Tok} {h : Hdr} (hf : Fires .cvtfi f s)
    (ha : (s.seen .cvtfi f).convA .wf = .ok a) (hh : (s.seen .cvtfi f).header = .ok h) :
    Does .cvtfi f s (resulting f 4 (dataTok (Lanes.ofFn fun i => cvtfi (if f.md.getLsbD 2 then 32 else 64)
      (f.md.toNat % 4) (Val.ofWf (a.lanes.get i))) h (if f.md.getLsbD 2 then 2 else 1))) := by
  refine does_of_issue (show exec (.cvtfi f) s = execCvtfi f s from rfl) hf ?_
  rw [ha, hh, ← s.seen_result f (o := .cvtfi) rfl]
  rfl

/-! ### Aligned blocks (R164) -/

/-- An aligned block: an S12 scale, and significands that `bits` bits hold (R163). -/
structure BlockFits (bits : Nat) (b : ℤ × List ℤ) : Prop where
  scale : -2048 ≤ b.1 ∧ b.1 ≤ 2047
  elems : ∀ q ∈ b.2, -(2 ^ (bits - 1)) ≤ q ∧ q ≤ 2 ^ (bits - 1) - 1

/-- The block at a scale, where its significands fit: the step that align_block repeats. -/
def blockAt (v : List Val) (bits rm : Nat) (f x0 : ℤ) : Option (ℤ × List ℤ) :=
  let x := max x0 (-2047)
  let lo : ℤ := -(2 ^ (bits - 1))
  let hi : ℤ := 2 ^ (bits - 1) - 1
  if 2047 < x then some (2047, (alignQ v f 2047 rm).map fun q => min (max q lo) hi)
  else
    let q := alignQ v f x rm
    if q.all (fun a => lo ≤ a && a ≤ hi) then some (x, q) else none

/-- A value that is not finite makes the block NaN. -/
def Val.isFin : Val → Bool
  | .fin _ _ => true
  | _ => false

theorem Val.isFin_eq_false {x : Val} : x.isFin = false ↔ x.ext = .nan ∨ ∃ n, x.ext = .inf n := by
  cases x <;> simp [Val.isFin, Val.ext]

theorem any_not_isFin (v : List Val) :
    (v.any fun x => match x with | .fin _ _ => false | _ => true) = true ↔ ∃ x ∈ v, x.isFin = false := by
  rw [List.any_eq_true]
  refine exists_congr fun x => and_congr_right fun _ => ?_
  cases x <;> simp [Val.isFin]

theorem getD_cases {α : Type} (o : Option α) (d : α) : o.getD d = d ∨ o = some (o.getD d) := by
  cases o with
  | none => exact .inl rfl
  | some x => exact .inr rfl

/-- With saturation, align_block gives the NaN block, the zero block, or a block that fits at some scale. -/
theorem alignBlock_cases (v : List Val) (bits rm : Nat) :
    (∃ x, (x = -2048 ∨ x = -2047 ∧ ∀ y ∈ v, y.isFin = true) ∧
      alignBlock v bits rm true = (x, v.map fun _ => 0)) ∨
    (∀ y ∈ v, y.isFin = true) ∧
      ∃ x0, blockAt v bits rm (if bits = 8 then 6 else 2) x0 = some (alignBlock v bits rm true) := by
  unfold alignBlock
  dsimp only
  split
  case isTrue => exact .inl ⟨-2048, .inl rfl, rfl⟩
  case isFalse hfin =>
    have hall : ∀ y ∈ v, y.isFin = true := fun y hy =>
      (Bool.eq_false_or_eq_true y.isFin).resolve_right fun h => hfin ((any_not_isFin v).mpr ⟨y, hy, h⟩)
    split
    case isTrue => exact .inl ⟨-2047, .inr ⟨rfl, hall⟩, rfl⟩
    case isFalse =>
      split
      case h_1 r hr => exact .inr ⟨hall, _, hr⟩
      case h_2 =>
        split
        case h_1 r hr => exact .inr ⟨hall, _, hr⟩
        case h_2 => exact (getD_cases _ _).imp (fun h => ⟨-2048, .inl rfl, h⟩) fun h => ⟨hall, _, h⟩

theorem blockAt_fits {v : List Val} {bits rm : Nat} {f x0 : ℤ} {b : ℤ × List ℤ} (h : blockAt v bits rm f x0 = some b) :
    BlockFits bits b := by
  have hpos : (0 : ℤ) < 2 ^ (bits - 1) := by positivity
  unfold blockAt at h
  dsimp only at h
  split at h
  case isTrue =>
    obtain rfl := Option.some.inj h
    refine ⟨by dsimp only; omega, fun q hq => ?_⟩
    obtain ⟨p, -, rfl⟩ := List.mem_map.mp hq
    omega
  case isFalse hx =>
    obtain ⟨hall, hb⟩ := Option.ite_none_right_eq_some.mp h
    obtain rfl := Option.some.inj hb
    refine ⟨by dsimp only; omega, fun q hq => ?_⟩
    simpa using List.all_eq_true.mp hall q hq

theorem alignBlock_fits (v : List Val) (bits rm : Nat) : BlockFits bits (alignBlock v bits rm true) := by
  have hpos : (0 : ℤ) < 2 ^ (bits - 1) := by positivity
  rcases alignBlock_cases v bits rm with ⟨x, hx, hb⟩ | ⟨-, x0, hb⟩
  · rw [hb]
    refine ⟨by dsimp only; omega, fun q hq => ?_⟩
    obtain ⟨p, -, rfl⟩ := List.mem_map.mp hq
    omega
  · exact blockAt_fits hb

/-- A value that is NaN or infinite makes the block NaN (R164). -/
theorem alignBlock_nan {v : List Val} {x : Val} (hx : x ∈ v) (h : x.ext = .nan ∨ ∃ n, x.ext = .inf n) (bits rm : Nat) :
    (alignBlock v bits rm true).1 = -2048 := by
  have hbad : ¬∀ y ∈ v, y.isFin = true := fun hall =>
    Bool.false_ne_true ((Val.isFin_eq_false.mpr h).symm.trans (hall x hx))
  rcases alignBlock_cases v bits rm with ⟨x, hx, hb⟩ | ⟨hall, -⟩
  · rw [hb]
    exact hx.resolve_right fun h => hbad h.2
  · exact absurd hall hbad

/-! ### Packed lanes and scales -/

theorem ofInt_setWidth {n : Nat} (hn : n ≤ 64) (q : ℤ) : (BitVec.ofInt 64 q).setWidth n = BitVec.ofInt n q := by
  have hdvd : ((2 ^ n : ℕ) : ℤ) ∣ (2 ^ 64 : ℕ) := Int.natCast_dvd_natCast.mpr (pow_dvd_pow 2 hn)
  refine BitVec.eq_of_toNat_eq (Int.natCast_inj.mp ?_)
  rw [BitVec.toNat_setWidth, BitVec.toNat_ofInt, BitVec.toNat_ofInt, Int.natCast_mod,
    Int.toNat_of_nonneg (Int.emod_nonneg _ (by positivity)), Int.toNat_of_nonneg (Int.emod_nonneg _ (by positivity)),
    Int.emod_emod_of_dvd _ hdvd]

/-- Element i of a packed lane. -/
theorem packLane_bit {n : Nat} (hn : 0 < n) (hn' : n ≤ 64) (qs : List ℤ) {i j : Nat} (hj : j < n)
    (hi : n * i + j < 64) : (packLane qs n).getLsbD (n * i + j) = (BitVec.ofInt n (qs.getD i 0)).getLsbD j := by
  induction qs generalizing i with
  | nil => simp [packLane]
  | cons q qs ih =>
    have hstep : packLane (q :: qs) n =
        (packLane qs n <<< n) ||| (BitVec.ofInt 64 q &&& BitVec.ofNat 64 (2 ^ n - 1)) := rfl
    rw [hstep, BitVec.getLsbD_or, BitVec.getLsbD_and, ones_bit n _ hi, BitVec.getLsbD_shiftLeft]
    cases i with
    | zero =>
      rw [← ofInt_setWidth hn', BitVec.getLsbD_setWidth]
      simp [hj]
    | succ i =>
      have hlow : n * (i + 1) + j - n = n * i + j := by rw [Nat.mul_succ]; omega
      have hhigh : ¬n * (i + 1) + j < n := by rw [Nat.mul_succ]; omega
      rw [hlow, ih (by rw [Nat.mul_succ] at hi; omega)]
      simp [hhigh, hi]

/-- An element of a packed lane read back. -/
theorem packLane_elem {n i : Nat} (hn : 0 < n) (qs : List ℤ) (hi : n * i + n ≤ 64)
    (hq : ∀ q ∈ qs, -(2 ^ (n - 1)) ≤ q ∧ q ≤ 2 ^ (n - 1) - 1) :
    ((packLane qs n).extractLsb' (n * i) n).toInt = qs.getD i 0 := by
  have hbits : (packLane qs n).extractLsb' (n * i) n = BitVec.ofInt n (qs.getD i 0) := by
    refine BitVec.eq_of_getLsbD_eq fun j hj => ?_
    rw [BitVec.getLsbD_extractLsb', packLane_bit hn (by omega) qs hj (by omega)]
    simp [hj]
  have hpos : (0 : ℤ) < 2 ^ (n - 1) := by positivity
  have hrange : -(2 ^ (n - 1)) ≤ qs.getD i 0 ∧ qs.getD i 0 ≤ 2 ^ (n - 1) - 1 := by
    rcases Nat.lt_or_ge i qs.length with hlt | hge
    · rw [List.getD_eq_getElem _ _ hlt]
      exact hq _ (List.getElem_mem hlt)
    · rw [List.getD_eq_default _ _ hge]
      omega
  have hpow : (2 : ℤ) ^ n = 2 * 2 ^ (n - 1) := by rw [← pow_succ']; congr 1; omega
  rw [hbits, BitVec.toInt_ofInt, Int.bmod_eq_of_le_mul_two] <;> push_cast <;> omega

theorem sideOfScales_low {x : ℤ} (hx : -2048 ≤ x ∧ x ≤ 2047) (y : ℤ) :
    ((sideOfScales x y).extractLsb' 0 12).toInt = x := by
  rw [sideOfScales, BitVec.extractLsb'_append_eq_right, BitVec.toInt_ofInt, Int.bmod_eq_of_le_mul_two] <;> omega

theorem sideOfScales_high (x : ℤ) {y : ℤ} (hy : -2048 ≤ y ∧ y ≤ 2047) :
    ((sideOfScales x y).extractLsb' 12 12).toInt = y := by
  rw [sideOfScales, BitVec.extractLsb'_append_eq_left, BitVec.toInt_ofInt, Int.bmod_eq_of_le_mul_two] <;> omega

theorem tokScale_eq (t : Tok) (g : Nat) : tokScale t g = (t.side.extractLsb' (if g < 4 then 0 else 12) 12).toInt := by
  rw [tokScale, sext_toInt 12 _ (by decide), ← Nat.shiftRight_eq_div_pow]
  rfl

/-- An element of a lane of FMT ALN8, as a value. -/
theorem alnLane_elem {t : Tok} {g i : Nat} (hfmt : t.fmt = 4) (hv : t.mask.getLsbD g = true) (hi : i < 8) :
    (alnLane t g).getD i (.fin 0 0) = alnVal ((t.lanes.get g).extractLsb' (8 * i) 8).toInt (tokScale t g) 8 := by
  have helem : (laneElems (t.lanes.get g) 8)[i]? = some ((t.lanes.get g).extractLsb' (8 * i) 8).toInt := by
    rw [laneElems, List.getElem?_map, List.getElem?_range (by omega), Option.map_some, sext_toInt 8 _ (by decide),
      ← Nat.shiftRight_eq_div_pow]
    rfl
  rw [alnLane, if_pos hfmt, List.getD_eq_getElem?_getD, List.getElem?_map, helem, Option.map_some, Option.getD_some,
    if_pos hv]

theorem alnVal_word (q x : ℤ) :
    (alnVal q x 8).toWf 0 = if x = -2048 then wfNaN else roundQ 0 ((q : ℚ) * (2 : ℚ) ^ (x - 6)) := by
  unfold alnVal
  split
  case isTrue => rfl
  case isFalse => exact Val.toWf_zero _

/-! ### QBLK, DQBLK and FMTQ (R222, R223) -/

/-- The block that QBLK makes of the lanes of A (R222). -/
def qblkBlock (md : BitVec 3) (a : Tok) : ℤ × List ℤ :=
  alignBlock ((List.range 8).map fun i => Val.ofWf (a.lanes.get i)) (if md.getLsbD 0 then 4 else 8) (md.toNat / 2) true

/-- The result of QBLK: the block in lane 0 and its scale in SIDE. -/
def qblkTok (md : BitVec 3) (a : Tok) (h : Hdr) : Tok :=
  let bits := if md.getLsbD 0 then 4 else 8
  { dataTok (Lanes.ofList [packLane (qblkBlock md a).2 bits]) { h with mask := if h.mask = 0 then 0 else 1 }
      (if bits = 8 then 4 else 5) with
    side := sideOfScales (qblkBlock md a).1 (-2047) }

theorem qblk_does {f : Fields} {s : State} {a : Tok} {h : Hdr} (hf : Fires .qblk f s)
    (ha : (s.seen .qblk f).convA .wf = .ok a) (hh : (s.seen .qblk f).header = .ok h) :
    Does .qblk f s (resulting f 4 (qblkTok f.md a h)) := by
  refine does_of_issue (show exec (.qblk f) s = execQblk f s from rfl) hf ?_
  rw [ha, hh, ← s.seen_result f (o := .qblk) rfl]
  rfl

theorem qblkTok_fmt (md : BitVec 3) (a : Tok) (h : Hdr) : (qblkTok md a h).fmt = if md.getLsbD 0 then 5 else 4 := by
  show (if (if md.getLsbD 0 then 4 else 8) = 8 then 4 else 5 : BitVec 4) = _
  cases md.getLsbD 0 <;> rfl

theorem qblkTok_elem {md : BitVec 3} {a : Tok} {h : Hdr} (hm : h.mask ≠ 0) {i : Nat} (hi : i < 8) :
    let bits := if md.getLsbD 0 then 4 else 8
    ((qblkTok md a h).lanes.l0.extractLsb' (bits * i) bits).toInt = (qblkBlock md a).2.getD i 0 := by
  intro bits
  have hbits : bits = 4 ∨ bits = 8 := by
    show (if md.getLsbD 0 then 4 else 8) = 4 ∨ (if md.getLsbD 0 then 4 else 8) = 8
    split
    · exact .inl rfl
    · exact .inr rfl
  have hlane : (qblkTok md a h).lanes.l0 = packLane (qblkBlock md a).2 bits := by
    show (if (if h.mask = 0 then 0 else 1 : BitVec 8).getLsbD 0 then packLane (qblkBlock md a).2 bits else 0) = _
    rw [if_neg hm]
    rfl
  have hfit : bits * i + bits ≤ 64 := by
    rcases hbits with hb | hb <;> rw [hb] <;> omega
  rw [hlane]
  exact packLane_elem (by omega) _ hfit (alignBlock_fits _ _ _).elems

theorem dqblk_does {f : Fields} {s : State} {a : Tok} {h : Hdr} (hf : Fires .dqblk f s)
    (ha : (s.seen .dqblk f).convA .aligned = .ok a) (hh : (s.seen .dqblk f).header = .ok h) (hfmt : a.fmt = 4) :
    Does .dqblk f s (resulting f 4 (dataTok (Lanes.ofFn fun i => ((alnLane a f.md.toNat).getD i (.fin 0 0)).toWf 0)
      { h with mask := if a.mask.getLsbD f.md.toNat then 0xFF else 0 } 0)) := by
  refine does_of_issue (show exec (.dqblk f) s = execDqblk f s from rfl) hf ?_
  rw [ha, hh, ← s.seen_result f (o := .dqblk) rfl]
  exact if_neg (by simp [hfmt])

theorem fmtq_word (c : Nat) (x : Val) :
    (x.ext = .nan → (fmtq c x).toWf 0 = wfNaN) ∧
      (x.ext ≠ .nan → (fmtq c x).toWf 0 = (decodeElem c (encodeElem c x 0 false).1).ext.word 0) := by
  unfold fmtq
  exact ⟨fun h => by rw [if_pos (Val.isNan_iff.mpr h)]; rfl,
    fun h => by rw [if_neg (mt Val.isNan_iff.mp h), Val.toWf_zero]⟩

/-- Settles O27: the integer conversions lane by lane, QBLK by the block that align_block gives, DQBLK by the elements of
the lane, and FMTQ by its code. -/
theorem conversions : Obligations.Conversions := by
  intro f s a b h
  have hrm : f.md.toNat % 4 < 4 := Nat.mod_lt _ (by decide)
  refine ⟨fun hf ha hh => ?cvtif, fun hf ha hh => ?cvtfi, fun hf ha hh => ?qblk, fun hf ha hh hfmt => ?dqblk,
    fun hf ha hb hh => ?fmtq⟩
  case cvtif =>
    obtain ⟨hhead, hlanes⟩ := dataTok_ofFn (fun i => roundWf
      (if f.md.getLsbD 2 then ((a.lanes.get i).toNat : ℤ) else (a.lanes.get i).toInt) 0 (f.md.toNat % 4)) h 0
    refine ⟨_, cvtif_does hf ha hh, hhead, fun i hi hv => ?_⟩
    rw [valid_lanes hlanes i hi hv, roundWf_int _ hrm, apply_ite Int.cast, Int.cast_natCast]
  case cvtfi =>
    obtain ⟨hhead, hlanes⟩ := dataTok_ofFn (fun i => cvtfi (if f.md.getLsbD 2 then 32 else 64) (f.md.toNat % 4)
      (Val.ofWf (a.lanes.get i))) h (if f.md.getLsbD 2 then 2 else 1)
    exact ⟨_, cvtfi_does hf ha hh, hhead, fun i hi hv => (valid_lanes hlanes i hi hv).trans (cvtfi_eq _ _ _)⟩
  case qblk =>
    refine ⟨_, (qblkBlock f.md a).1, (qblkBlock f.md a).2, qblk_does hf ha hh, rfl, qblkTok_fmt _ _ _,
      sideOfScales_low (alignBlock_fits _ _ _).scale _, sideOfScales_high _ (by decide), rfl,
      fun hm i hi => qblkTok_elem hm hi, ?_⟩
    rintro ⟨i, hi, hbad⟩
    exact alignBlock_nan (x := Val.ofWf (a.lanes.get i)) (List.mem_map.mpr ⟨i, List.mem_range.mpr hi, rfl⟩) hbad _ _
  case dqblk =>
    obtain ⟨hhead, hlanes⟩ := dataTok_ofFn (fun i => ((alnLane a f.md.toNat).getD i (.fin 0 0)).toWf 0)
      { h with mask := if a.mask.getLsbD f.md.toNat then 0xFF else 0 } 0
    refine ⟨_, dqblk_does hf ha hh hfmt, hhead, fun hv i hi => ?_⟩
    rw [valid_lanes hlanes i hi ((getLsbD_allLanes _ hi).trans hv), alnLane_elem hfmt hv hi, alnVal_word, tokScale_eq]
  case fmtq =>
    have hs : Sources (s.seen .fmtq f) .wf a b zeroTok h := ⟨ha, hb, nofun, hh⟩
    obtain ⟨r, hdoes, hhead, hlanes⟩ :=
      wfOp_result (o := .fmtq) (op := fun _ x _ _ => (fmtq (fmtqCode f.md.toNat) x).toWf 0) rfl rfl hf hs
    refine ⟨r, hdoes, hhead, fun i hi hv => ?_⟩
    obtain ⟨hnan, hgrid⟩ := fmtq_word (fmtqCode f.md.toNat) (Val.ofWf (a.lanes.get i))
    rw [valid_lanes hlanes i hi hv]
    exact ⟨hnan, fun hx => ⟨_, rfl, hgrid hx⟩⟩

end Sys2Proof.Machine

/-! ## Reductions and ranked pairs (R214, R224) -/

namespace Sys2Proof.Machine

open Sys2Proof

/-! ### The best of a list of values (R216, R224) -/

section Best

variable {α : Type} [LinearOrder α] {k : Ext → α} {op : Val → Val → Val}

/-- A fold of a choice by a key is the best of its list and its start. -/
theorem foldl_best (hop : ∀ x y, k (op x y).ext = max (k x.ext) (k y.ext)) (l : List Val) (x : Val) :
    k x.ext ≤ k (l.foldl op x).ext ∧ (∀ y ∈ l, k y.ext ≤ k (l.foldl op x).ext) ∧
      (k (l.foldl op x).ext = k x.ext ∨ ∃ y ∈ l, k (l.foldl op x).ext = k y.ext) := by
  induction l generalizing x with
  | nil => exact ⟨le_rfl, nofun, .inl rfl⟩
  | cons y l ih =>
    obtain ⟨hstart, hall, hfrom⟩ := ih (op x y)
    rw [hop] at hstart hfrom
    refine ⟨(le_max_left _ _).trans hstart, List.forall_mem_cons.mpr ⟨(le_max_right _ _).trans hstart, hall⟩, ?_⟩
    rcases hfrom with hfrom | ⟨z, hz, hfrom⟩
    · rcases max_choice (k x.ext) (k y.ext) with hx | hy
      · exact .inl (hfrom.trans hx)
      · exact .inr ⟨y, List.mem_cons_self, hfrom.trans hy⟩
    · exact .inr ⟨z, List.mem_cons_of_mem y hz, hfrom⟩

/-- From a start that nothing is worse than, it is a member of the list. -/
theorem foldl_best_mem (hk : Function.Injective k) (hop : ∀ x y, k (op x y).ext = max (k x.ext) (k y.ext))
    {l : List Val} (hl : l ≠ []) {x : Val} (hx : ∀ y : Ext, k x.ext ≤ k y) : ∃ y ∈ l, (l.foldl op x).ext = y.ext := by
  obtain ⟨-, hall, hfrom | ⟨y, hy, hfrom⟩⟩ := foldl_best hop l x
  · obtain ⟨y, hy⟩ := List.exists_mem_of_ne_nil l hl
    exact ⟨y, hy, hk (le_antisymm (hfrom.trans_le (hx _)) (hall y hy))⟩
  · exact ⟨y, hy, hk hfrom⟩

end Best

theorem rank_fmax (x y : Val) : (x.fmax y).ext.rank = max x.ext.rank y.ext.rank := by
  obtain ⟨hbelow, hnot⟩ := x.ext_fmax y
  rw [Ext.below_iff] at hbelow hnot
  rcases lt_or_ge x.ext.rank y.ext.rank with h | h
  · rw [hbelow h, max_eq_right h.le]
  · rw [hnot h.not_gt, max_eq_left h]

/-- The ranking order reversed. -/
def Ext.rankDown (x : Ext) : (ℕ ×ₗ ℚ)ᵒᵈ := OrderDual.toDual x.rank

theorem Ext.rankDown_le {x y : Ext} : x.rankDown ≤ y.rankDown ↔ y.rank ≤ x.rank := Iff.rfl

theorem Ext.rankDown_injective : Function.Injective Ext.rankDown := Ext.rank_injective

/-- The lower of two values, the first of equals: the choice that RMIN repeats. -/
theorem rankDown_min (x y : Val) :
    (if y.keyLt x then y else x).ext.rankDown = max x.ext.rankDown y.ext.rankDown := by
  have hlt : y.keyLt x = true ↔ y.ext.rank < x.ext.rank := Val.keyLt_iff.trans Ext.below_iff
  rcases lt_or_ge y.ext.rank x.ext.rank with h | h
  · rw [if_pos (hlt.mpr h), max_eq_right (Ext.rankDown_le.mpr h.le)]
  · rw [if_neg (mt hlt.mp h.not_gt), max_eq_left (Ext.rankDown_le.mpr h)]

theorem Ext.rank_le_posInf (x : Ext) : x.rank ≤ (Ext.inf false).rank := by
  refine Prod.Lex.le_iff.mpr ?_
  match x with
  | .inf false => exact .inr ⟨rfl, le_rfl⟩
  | .nan | .inf true | .num _ => exact .inl (by simp [Ext.rank, Ext.key])

theorem mem_validVals {t : Tok} {x : Val} :
    x ∈ validVals t ↔ ∃ i < 8, t.mask.getLsbD i = true ∧ Val.ofWf (t.lanes.get i) = x := by
  simp [validVals, and_assoc]

theorem validVals_ne_nil {t : Tok} (h : t.mask ≠ 0) : validVals t ≠ [] := by
  obtain ⟨i, hi, hv⟩ := mask_ne_zero_iff.mp h
  exact List.ne_nil_of_mem (mem_validVals.mpr ⟨i, hi, hv, rfl⟩)

/-! ### Lane reductions (R224) -/

theorem splat_get (w : Word) {i : Nat} (hi : i < 8) : (Lanes.splat w).get i = w := by interval_cases i <;> rfl

/-- The result of a reduction stands where R224 places it. -/
theorem reduceTok_placed (m : BitVec 8) (h : Hdr) (bc : Bool) (v : Val) :
    let r := reduceTok { h with mask := m } bc v
    r.fmt = 0 ∧ r.psn = h.psn ∧ r.gen = h.gen ∧ (m = 0 → r.mask = 0 ∧ ∀ i < 8, r.lanes.get i = 0) ∧
      (m ≠ 0 → r.mask = (if bc then 0xFF else 1) ∧
        ∀ i < 8, r.lanes.get i = if bc = true ∨ i = 0 then v.ext.word 0 else 0) := by
  by_cases hm : m = 0
  · rw [reduceTok, if_pos hm]
    refine ⟨rfl, rfl, rfl, fun _ => ⟨hm, fun i hi => ?_⟩, fun h => absurd hm h⟩
    rw [dataTok_get _ _ _ hi, Lanes.zero, splat_get _ hi, ite_self]
  · rw [reduceTok, if_neg hm]
    cases bc with
    | true =>
      refine ⟨rfl, rfl, rfl, fun h => absurd h hm, fun _ => ⟨rfl, fun i hi => (dataTok_get _ _ _ hi).trans ?_⟩⟩
      have hmask : (0xFF : BitVec 8).getLsbD i = true := getLsbD_allLanes true hi
      rw [if_pos hmask, splat_get _ hi, if_pos (.inl rfl), Val.toWf_zero]
    | false =>
      refine ⟨rfl, rfl, rfl, fun h => absurd h hm, fun _ => ⟨rfl, fun i hi => (dataTok_get _ _ _ hi).trans ?_⟩⟩
      have hmask : (1 : BitVec 8).getLsbD i = (i == 0 && true) := getLsbD_laneZero true hi
      have hlane : (Lanes.ofList [v.toWf 0]).get i = [v.toWf 0].getD i 0 := Lanes.get_ofFn _ hi
      rw [hmask, hlane]
      cases i with
      | zero => exact v.toWf_zero
      | succ i => simp

theorem reduceOp_does {o : Op} {f : Fields} {s : State} {op : Tok → Val} {a : Tok} {h : Hdr}
    (he : exec (o.mk f) s = reduceOp o f s op) (hl : opLatency o = some 6) (hf : Fires o f s)
    (ha : (s.seen o f).convA .wf = .ok a) (hh : (s.seen o f).header = .ok h) :
    Does o f s (resulting f 6 (reduceTok { h with mask := a.mask } (f.md.getLsbD 2) (op a))) := by
  refine does_of_issue he hf ?_
  rw [ha, hh, ← s.seen_result f hl]
  rfl

/-- The tree of R224 on what the values stand for. -/
theorem ext_rsum (v : Nat → Val) {rm : Nat} (hrm : rm < 4) : (rsum v rm).ext = treeSum rm fun i => (v i).ext := by
  simp only [rsum, treeSum, Val.ext_ofWf_toWf _ hrm, Val.ext_add]

/-! ### Pairs in ranking order (R214) -/

/-- The ranking order of pairs: the higher key first, and of equal keys the lower id. -/
def VPair.rank (p : VPair) : (ℕ ×ₗ ℚ) ×ₗ ℕᵒᵈ := toLex (p.v.ext.rank, OrderDual.toDual p.id.toNat)

theorem VPair.above_iff {p q : VPair} : p.above q = true ↔ q.rank < p.rank := by
  have hid : p.id.ult q.id = true ↔ OrderDual.toDual q.id.toNat < OrderDual.toDual p.id.toNat := BitVec.ult_iff_toNat_lt
  rw [VPair.above, Bool.or_eq_true, Bool.and_eq_true, Bool.not_eq_true', ← Bool.not_eq_true, Val.keyLt_iff,
    Val.keyLt_iff, Ext.below_iff, Ext.below_iff, hid, VPair.rank, VPair.rank, Prod.Lex.toLex_lt_toLex]
  constructor
  · rintro (h | ⟨hle, h⟩)
    · exact .inl h
    · exact (not_lt.mp hle).lt_or_eq.imp_right fun he => ⟨he, h⟩
  · rintro (h | ⟨he, h⟩)
    · exact .inl h
    · exact .inr ⟨he.not_gt, h⟩

theorem VPair.not_above_iff {p q : VPair} : p.above q = false ↔ p.rank ≤ q.rank := by
  rw [← Bool.not_eq_true, VPair.above_iff, not_lt]

theorem insertPair_perm (p : VPair) (l : List VPair) : (insertPair p l).Perm (p :: l) := by
  induction l with
  | nil => exact .rfl
  | cons q l ih =>
    unfold insertPair
    split
    · exact .rfl
    · exact (ih.cons q).trans (.swap p q l)

theorem insertPair_pairwise {p : VPair} {l : List VPair} (h : l.Pairwise fun p q => q.above p = false) :
    (insertPair p l).Pairwise fun p q => q.above p = false := by
  induction l with
  | nil => exact List.pairwise_singleton _ _
  | cons q l ih =>
    obtain ⟨hq, hl⟩ := List.pairwise_cons.mp h
    unfold insertPair
    split
    case isTrue hpq =>
      refine List.pairwise_cons.mpr ⟨fun u hu => ?_, h⟩
      have hle := VPair.above_iff.mp hpq
      rcases List.mem_cons.mp hu with rfl | hu
      · exact VPair.not_above_iff.mpr hle.le
      · exact VPair.not_above_iff.mpr ((VPair.not_above_iff.mp (hq u hu)).trans hle.le)
    case isFalse hpq =>
      refine List.pairwise_cons.mpr ⟨fun u hu => ?_, ih hl⟩
      rcases List.mem_cons.mp ((insertPair_perm p l).mem_iff.mp hu) with rfl | hu
      · exact Bool.not_eq_true _ ▸ hpq
      · exact hq u hu

theorem foldl_insertPair (ps l : List VPair) (h : l.Pairwise fun p q => q.above p = false) :
    RankedFrom (ps ++ l) (ps.foldl (fun acc p => insertPair p acc) l) := by
  induction ps generalizing l with
  | nil => exact ⟨.rfl, h⟩
  | cons p ps ih =>
    obtain ⟨hperm, hsorted⟩ := ih (insertPair p l) (insertPair_pairwise h)
    exact ⟨hperm.trans (((insertPair_perm p l).append_left ps).trans List.perm_middle), hsorted⟩

/-- `ranked` puts candidates in ranking order. -/
theorem rankedFrom_ranked (ps : List VPair) : RankedFrom ps (ranked ps) := by
  have h := foldl_insertPair ps [] List.Pairwise.nil
  rwa [List.append_nil] at h

/-- A VID result holds its pairs. -/
theorem hasPairs_pairTokOf (h : Hdr) (p : Nat → Option VPair) : HasPairs (pairTokOf h p) p := by
  refine ⟨rfl, fun n hn => ?_⟩
  have hmask : ∀ i < 8, (pairTokOf h p).mask.getLsbD i = (p (i / 2)).isSome := fun i hi => getLsbD_maskOf _ hi
  have hlane : ∀ i < 8, (pairTokOf h p).lanes.get i =
      if (p (i / 2)).isSome then (p (i / 2)).elim 0 fun q => if i % 2 = 0 then q.v.toWf 0 else q.id else 0 := by
    intro i hi
    rw [← hmask i hi]
    exact (dataTok_get _ _ _ hi).trans (by rw [Lanes.get_ofFn _ hi]; rfl)
  have heven : 2 * n / 2 = n ∧ 2 * n % 2 = 0 := by omega
  have hodd : (2 * n + 1) / 2 = n := by omega
  rw [hmask _ (by omega), hmask _ (by omega), hlane _ (by omega), hlane _ (by omega), heven.1, hodd]
  refine ⟨fun q hq => ?_, fun hq => ?_⟩
  · simp [hq, heven.2, Val.toWf_zero]
  · simp [hq]

theorem rargmx_does {f : Fields} {s : State} {a : Tok} {h : Hdr} (hf : Fires .rargmx f s)
    (ha : (s.seen .rargmx f).convA (if (s.seen .rargmx f).a.fmt = 6 then .vid else .wf) = .ok a)
    (hh : (s.seen .rargmx f).header = .ok h) :
    let l := ranked (if (s.seen .rargmx f).a.fmt = 6 then pairsOf a else lanePairs a 0)
    Does .rargmx f s (resulting f 6 (pairTokOf h fun n => if n = 0 then l.head? else none)) := by
  refine does_of_issue (show exec (.rargmx f) s = execRargmx f s from rfl) hf ?_
  simp only [beq_iff_eq]
  rw [ha, hh, ← s.seen_result f (o := .rargmx) rfl]
  rfl

/-- Settles O28: the tree by `ext_rsum`, the choices by `foldl_best`, RARGMX by the ranked list of its candidates. -/
theorem reductions : Obligations.Reductions := by
  intro f s a h
  refine ⟨fun hf ha hh => ?_, fun hf ha hh => ?_, fun hf ha hh => ?_, fun hf ha hh => ?_⟩
  · refine ⟨_, reduceOp_does (o := .rsum) (op := fun a => rsum (fun i => Val.ofWf (a.lanes.get i)) (f.md.toNat % 4))
      rfl rfl hf ha hh, ?_⟩
    have hplaced := reduceTok_placed a.mask h (f.md.getLsbD 2)
      (rsum (fun i => Val.ofWf (a.lanes.get i)) (f.md.toNat % 4))
    rw [ext_rsum _ (Nat.mod_lt _ (by decide))] at hplaced
    exact hplaced
  · refine ⟨_, _, reduceOp_does (o := .rmax) (op := fun a => (validVals a).foldl Val.fmax .nan) rfl rfl hf ha hh,
      reduceTok_placed a.mask h _ _, fun hm => ?_⟩
    obtain ⟨-, hall, -⟩ := foldl_best rank_fmax (validVals a) .nan
    obtain ⟨y, hy, heq⟩ := foldl_best_mem Ext.rank_injective rank_fmax (validVals_ne_nil hm)
      (x := .nan) Ext.nan_rank_le
    obtain ⟨j, hj, hv, rfl⟩ := mem_validVals.mp hy
    refine ⟨j, hj, hv, congrArg (Ext.word 0) heq, fun i hi hvi hlt => ?_⟩
    have hle := hall _ (mem_validVals.mpr ⟨i, hi, hvi, rfl⟩)
    rw [heq] at hle
    exact (Ext.below_iff.mp hlt).not_ge hle
  · have hexec : exec (.rmin f) s = reduceOp .rmin f s fun a =>
        (validVals a).foldl (fun x y => if y.keyLt x then y else x) (.inf false) := rfl
    refine ⟨_, _, reduceOp_does (o := .rmin) hexec rfl hf ha hh,
      reduceTok_placed a.mask h _ _, fun hm => ?_⟩
    obtain ⟨-, hall, -⟩ := foldl_best rankDown_min (validVals a) (.inf false)
    obtain ⟨y, hy, heq⟩ := foldl_best_mem Ext.rankDown_injective rankDown_min (validVals_ne_nil hm)
      (x := .inf false) Ext.rank_le_posInf
    obtain ⟨j, hj, hv, rfl⟩ := mem_validVals.mp hy
    refine ⟨j, hj, hv, congrArg (Ext.word 0) heq, fun i hi hvi hlt => ?_⟩
    have hle := hall _ (mem_validVals.mpr ⟨i, hi, hvi, rfl⟩)
    rw [heq, Ext.rankDown_le] at hle
    exact (Ext.below_iff.mp hlt).not_ge hle
  · exact ⟨_, _, rargmx_does hf ha hh, rankedFrom_ranked _, hasPairs_pairTokOf _ _⟩

end Sys2Proof.Machine

/-! ## Online softmax (R225 to R229) -/

namespace Sys2Proof.Machine

open Sys2Proof

/-! ### States -/

/-- The lanes of a softmax state in a token (R225). -/
theorem Soft.tok_lanes (x : Soft) (h : Hdr) :
    (x.tok h).fmt = 0 ∧ (x.tok h).mask = 0x1F ∧ (x.tok h).psn = h.psn ∧ (x.tok h).gen = h.gen ∧
      ∀ i < 8, (x.tok h).lanes.get i = (([x.m, x.s, x.ad, x.aa, x.key].map fun v => v.ext.word 0).getD i 0) := by
  have hmask : ∀ i < 8, (0x1F : BitVec 8).getLsbD i = decide (i < 5) := by decide
  refine ⟨rfl, rfl, rfl, rfl, fun i hi => (dataTok_get _ _ _ hi).trans ?_⟩
  rw [hmask i hi, Lanes.ofList, Lanes.get_ofFn _ hi]
  simp only [Val.toWf_zero, decide_eq_true_iff]
  split
  case isTrue => rfl
  case isFalse h5 => exact (List.getD_eq_default _ _ (not_lt.mp h5)).symm

theorem Soft.max_ne_nan {d : Soft} (h : d.isNan = false) : d.m.ext ≠ .nan := fun hm => by
  simp [Soft.isNan, Val.isNan_iff.mpr hm] at h

/-- The model's expdiff is that of R226. -/
theorem expDiff_expdiff (a b : Val) : ExpDiff a.ext b.ext (expdiff a b) := by
  unfold expdiff
  refine ⟨fun ha => ?_, fun ha => ⟨(a.sub b).rw, by rw [Val.ext_rw, Val.ext_sub], if_neg (mt Val.ext_eq_inf.mpr ha)⟩⟩
  rw [if_pos (Val.ext_eq_inf.mp ha)]
  simp only [← Val.ext_eq_inf, apply_ite Val.ext, Val.ext_int, apply_ite Ext.num]
  norm_cast

/-! ### SMUP (R226) -/

theorem badScore_iff (a : Tok) :
    ((validVals a).any fun v => v.isNan || decide (v = .inf false)) = true ↔ BadScore a := by
  simp only [List.any_eq_true, mem_validVals, Bool.or_eq_true, Val.isNan_iff, decide_eq_true_iff, ← Val.ext_eq_inf]
  constructor
  · rintro ⟨_, ⟨i, hi, hv, rfl⟩, hbad⟩
    exact ⟨i, hi, hv, hbad⟩
  · rintro ⟨i, hi, hv, hbad⟩
    exact ⟨_, ⟨i, hi, hv, rfl⟩, hbad⟩

/-- The maximum of a state and the valid lanes of a beat (R226). -/
def smupMax (d : Soft) (a : Tok) : Val :=
  let mx := (validVals a).foldl Val.fmax (.inf true)
  if d.m.keyLt mx then mx else d.m

/-- What lane i of a beat adds to the sum, under the maximum m (R226). -/
def smupTerm (a : Tok) (m : Val) (i : Nat) : Val :=
  let x := Val.ofWf (a.lanes.get i)
  if !a.mask.getLsbD i || x = .inf true then .int 0 else fexp2 (x.sub m).rw

theorem smup_nan {d : Soft} {a : Tok} (h : d.isNan = true ∨ BadScore a) : smup d a = Soft.nan d.key := by
  rw [← badScore_iff, ← Bool.or_eq_true] at h
  exact if_pos h

theorem smup_eq {d : Soft} {a : Tok} (hd : d.isNan = false) (ha : ¬BadScore a) :
    let m := smupMax d a
    smup d a = ⟨m, ((d.s.mul (expdiff d.m m)).rw.add (rsum (smupTerm a m) 0)).rw, expdiff d.m m, .int 0, d.key⟩ := by
  have hgood : ¬(d.isNan || (validVals a).any fun v => v.isNan || decide (v = .inf false)) = true := by
    rw [Bool.or_eq_true, badScore_iff]
    exact not_or.mpr ⟨by simp [hd], ha⟩
  exact if_neg hgood

theorem Ext.negInf_rank_le {x : Ext} (h : x ≠ .nan) : (Ext.inf true).rank ≤ x.rank := by
  refine Prod.Lex.le_iff.mpr ?_
  match x with
  | .nan => exact absurd rfl h
  | .inf true => exact .inr ⟨rfl, le_rfl⟩
  | .inf false | .num _ => exact .inl (by simp [Ext.rank, Ext.key])

/-- The maximum has the highest key of the state and the valid lanes, and is one of them. -/
theorem rank_smupMax {d : Soft} (hd : d.isNan = false) (a : Tok) :
    d.m.ext.rank ≤ (smupMax d a).ext.rank ∧
      (∀ i < 8, a.mask.getLsbD i = true → (Tok.ext a i).rank ≤ (smupMax d a).ext.rank) ∧
      ((smupMax d a).ext = d.m.ext ∨
        ∃ i < 8, a.mask.getLsbD i = true ∧ (smupMax d a).ext = Tok.ext a i ∧ d.m.ext.below (Tok.ext a i)) := by
  obtain ⟨-, hall, hfrom⟩ := foldl_best rank_fmax (validVals a) (.inf true)
  have hlane : ∀ i < 8, a.mask.getLsbD i = true →
      (Tok.ext a i).rank ≤ ((validVals a).foldl Val.fmax (.inf true)).ext.rank :=
    fun i hi hv => hall _ (mem_validVals.mpr ⟨i, hi, hv, rfl⟩)
  have hneg : (Ext.inf true).rank ≤ d.m.ext.rank := Ext.negInf_rank_le (Soft.max_ne_nan hd)
  unfold smupMax
  dsimp only
  split
  case isTrue hlt =>
    have hbelow := Val.keyLt_iff.mp hlt
    refine ⟨(Ext.below_iff.mp hbelow).le, hlane, .inr ?_⟩
    rcases hfrom with hstart | ⟨y, hy, heq⟩
    · rw [Ext.below_iff, hstart] at hbelow
      exact absurd hneg hbelow.not_ge
    · obtain ⟨i, hi, hv, rfl⟩ := mem_validVals.mp hy
      have hext := Ext.rank_injective heq
      exact ⟨i, hi, hv, hext, (congrArg (Ext.below d.m.ext) hext).mp hbelow⟩
  case isFalse hlt =>
    have hle : ((validVals a).foldl Val.fmax (.inf true)).ext.rank ≤ d.m.ext.rank :=
      not_lt.mp (mt (fun h => Val.keyLt_iff.mpr (Ext.below_iff.mpr h)) hlt)
    exact ⟨le_rfl, fun i hi hv => (hlane i hi hv).trans hle, .inl rfl⟩

theorem smupOf_smup (d : Soft) (a : Tok) : SmupOf d a (smup d a) := by
  by_cases hbad : d.isNan = true ∨ BadScore a
  · have hnan := smup_nan hbad
    have hno : d.isNan = false → BadScore a := fun hd => hbad.resolve_left (by simp [hd])
    exact ⟨by rw [hnan]; rfl, fun _ => hnan, fun hd ha => absurd (hno hd) ha, fun hd ha => absurd (hno hd) ha,
      fun hd ha => absurd (hno hd) ha, fun hd ha => absurd (hno hd) ha⟩
  · obtain ⟨hd, ha⟩ : d.isNan = false ∧ ¬BadScore a := by simpa using hbad
    obtain ⟨hold, hlanes, hfrom⟩ := rank_smupMax hd a
    rw [smup_eq hd ha]
    refine ⟨rfl, fun h => absurd h hbad, fun _ _ hmax => ?maxOld, fun _ _ j hj hv hlt hmax => ?maxNew,
      fun _ _ => ⟨expDiff_expdiff _ _, by simp [Val.ext_int]⟩, fun _ _ => ?sum⟩
    case maxOld =>
      exact hfrom.resolve_right fun ⟨i, hi, hvi, _, hbelow⟩ => hmax i hi hvi hbelow
    case maxNew =>
      have hle := hlanes j hj hv
      rcases hfrom with heq | ⟨i, hi, hvi, heq, -⟩
      · rw [heq] at hle
        exact absurd hle (Ext.below_iff.mp hlt).not_ge
      · have hge := not_lt.mp (mt Ext.below_iff.mpr (hmax i hi hvi))
        rw [heq] at hle
        exact heq.trans (Ext.rank_injective (le_antisymm hge hle))
    case sum =>
      refine ⟨smupTerm a (smupMax d a), fun i _ hno => ?_, fun i _ hv hinf => ?_, ?_⟩
      · have hcond : (!a.mask.getLsbD i || decide (Val.ofWf (a.lanes.get i) = .inf true)) = true := by
          simpa [Tok.ext, Val.ext_eq_inf] using hno
        rw [smupTerm, if_pos hcond, Val.ext_int, Int.cast_zero]
      · have hcond : ¬(!a.mask.getLsbD i || decide (Val.ofWf (a.lanes.get i) = .inf true)) = true := by
          simpa [Tok.ext, Val.ext_eq_inf, hv] using hinf
        exact ⟨_, by rw [Val.ext_rw, Val.ext_sub]; rfl, if_neg hcond⟩
      · rw [Val.ext_rw, Val.ext_add, Val.ext_rw, Val.ext_mul, ext_rsum _ (by decide)]

/-! ### SMUP of an empty state -/

theorem Soft.empty_ext (key : Val) : (Soft.empty key).s.ext = .num 0 ∧ (Soft.empty key).ad.ext = .num 1 ∧
    (Soft.empty key).aa.ext = .num 0 := by
  simp [Soft.empty, Val.ext_int]

/-- States that stand for the same numbers have one token. -/
theorem Soft.tok_congr {x y : Soft} (hm : x.m.ext = y.m.ext) (hs : x.s.ext = y.s.ext) (had : x.ad.ext = y.ad.ext)
    (haa : x.aa.ext = y.aa.ext) (hkey : x.key = y.key) (h : Hdr) : x.tok h = y.tok h := by
  simp only [Soft.tok, List.map_cons, Val.toWf_zero, hm, hs, had, haa, hkey, List.map_nil]

theorem empty_sum : (((Ext.mul (.num 0) (.num 1)).round 0).add (treeSum 0 fun _ => .num 0)).round 0 = .num 0 := by
  simp [treeSum, Ext.add, Ext.mul, Ext.round_zero]

theorem not_badScore {a : Tok} (h : a.mask = 0) : ¬BadScore a := fun ⟨i, _, hv, _⟩ => by simp [h] at hv

/-- A beat without a valid lane leaves the empty state. -/
theorem smupOf_empty (key : Val) {a : Tok} (h : a.mask = 0) : SmupOf (Soft.empty key) a (Soft.empty key) := by
  have hv : ∀ i, ¬a.mask.getLsbD i = true := fun i => by simp [h]
  obtain ⟨hs, had, haa⟩ := Soft.empty_ext key
  refine ⟨rfl, fun hbad => absurd (hbad.resolve_left Bool.false_ne_true) (not_badScore h), fun _ _ _ => rfl,
    fun _ _ j _ hj => absurd hj (hv j), fun _ _ => ⟨expDiff_expdiff (.inf true) (.inf true), ?_⟩,
    fun _ _ => ⟨fun _ => .int 0, fun _ _ _ => ?_, fun i _ hi => absurd hi (hv i), ?_⟩⟩
  · exact haa
  · rw [Val.ext_int, Int.cast_zero]
  · simp only [hs, had, Val.ext_int, Int.cast_zero, empty_sum]

/-- The state that SMUP computes then stands for the empty one. -/
theorem smup_empty_tok (key : Val) {a : Tok} (h : a.mask = 0) (hdr : Hdr) :
    (smup (Soft.empty key) a).tok hdr = (Soft.empty key).tok hdr := by
  have hnan : (Soft.empty key).isNan = false := rfl
  have hv : ∀ i, a.mask.getLsbD i = false := fun i => by simp [h]
  obtain ⟨hs, had, haa⟩ := Soft.empty_ext key
  obtain ⟨hkey, -, hold, -, hscale, hsum⟩ := smupOf_smup (Soft.empty key) a
  have hm := hold hnan (not_badScore h) fun i _ hi => absurd hi (by simp [hv])
  obtain ⟨⟨hscale, -⟩, hinput⟩ := hscale hnan (not_badScore h)
  have hone : (smup (Soft.empty key) a).ad.ext = .num 1 := (hscale rfl).trans (congrArg Ext.num (if_pos hm))
  obtain ⟨t, hzero, -, hsum⟩ := hsum hnan (not_badScore h)
  have hterm : treeSum 0 (fun i => (t i).ext) = treeSum 0 fun _ => .num 0 := by
    have ht : ∀ i < 8, (t i).ext = .num 0 := fun i hi => hzero i hi (.inl (hv i))
    simp only [treeSum, ht 0 (by decide), ht 1 (by decide), ht 2 (by decide), ht 3 (by decide), ht 4 (by decide),
      ht 5 (by decide), ht 6 (by decide), ht 7 (by decide)]
  rw [hterm, hone, hs, empty_sum] at hsum
  exact Soft.tok_congr hm (hsum.trans hs.symm) (hone.trans had.symm) (hinput.trans haa.symm) hkey hdr

theorem smup_does {f : Fields} {s : State} {a b d : Tok} {h : Hdr} (hmd : f.md = 0) (hf : Fires .smup f s)
    (hs : Sources (s.seen .smup f) .wf a b d h) :
    Does .smup f s (resulting f 6 ((smup (Soft.of d) a).tok h)) := by
  refine does_of_issue (show exec (.smup f) s = execSmup f s from rfl) hf ?_
  dsimp only
  rw [hs.readA, hs.readB, hs.readD rfl, hs.header, ← s.seen_result f (o := .smup) rfl, hmd]
  rfl

theorem smupInit_does {f : Fields} {s : State} {a b : Tok} {h : Hdr} (hmd : f.md = 1) (hf : Fires .smup f s)
    (ha : (s.seen .smup f).convA .wf = .ok a) (hb : (s.seen .smup f).convB .wf = .ok b)
    (hh : (s.seen .smup f).headerOf ([f.a, f.b].filterMap fun x =>
      if isHeaderSrc x then some ((s.seen .smup f).x.source x) else none) = .ok h) :
    Does .smup f s (resulting f 6 ((smup (Soft.empty (Val.ofWf b.lanes.l0)) a).tok h)) := by
  refine does_of_issue (show exec (.smup f) s = execSmup f s from rfl) hf ?_
  dsimp only
  rw [ha, hb, hh, ← s.seen_result f (o := .smup) rfl, hmd]
  rfl

/-! ### SMRG (R227, R228) -/

theorem smrgOf_smrg (d a : Soft) (key : Val) : SmrgOf d a key (smrg d a key) := by
  by_cases hbad : d.isNan = true ∨ a.isNan = true
  · have hnan : smrg d a key = Soft.nan key := if_pos (Bool.or_eq_true _ _ ▸ hbad)
    have hno : d.isNan = false → a.isNan ≠ false := fun hd ha => by simp [hd, ha] at hbad
    exact ⟨by rw [hnan]; rfl, fun _ => hnan, fun hd ha => absurd ha (hno hd), fun hd ha => absurd ha (hno hd),
      fun hd ha => absurd ha (hno hd)⟩
  · obtain ⟨hd, ha⟩ : d.isNan = false ∧ a.isNan = false := by simpa using hbad
    have heq : smrg d a key =
        let m := if d.m.lt a.m then a.m else d.m
        ⟨m, ((d.s.mul (expdiff d.m m)).rw.add (a.s.mul (expdiff a.m m)).rw).rw, expdiff d.m m, expdiff a.m m, key⟩ :=
      if_neg (by simp [hd, ha])
    have hlt : d.m.lt a.m = true ↔ d.m.ext.below a.m.ext := Val.lt_iff (Soft.max_ne_nan hd) (Soft.max_ne_nan ha)
    rw [heq]
    refine ⟨rfl, fun h => absurd h hbad, fun _ _ => ⟨fun h => ?_, fun h => ?_⟩,
      fun _ _ => ⟨expDiff_expdiff _ _, expDiff_expdiff _ _⟩, fun _ _ => ?_⟩
    · exact congrArg Val.ext (if_pos (hlt.mpr h))
    · exact congrArg Val.ext (if_neg (mt hlt.mp h))
    · rw [Val.ext_rw, Val.ext_add, Val.ext_rw, Val.ext_mul, Val.ext_rw, Val.ext_mul]

theorem smrg_does {f : Fields} {s : State} {a d : Tok} {h : Hdr} (hf : Fires .smrg f s)
    (ha : (s.seen .smrg f).convA .wf = .ok a) (hd : (s.seen .smrg f).convD .wf = .ok d)
    (hh : (s.seen .smrg f).header = .ok h) :
    Does .smrg f s (resulting f 6 ((smrg (Soft.of d) (Soft.of a) (Soft.of d).key).tok h)) := by
  refine does_of_issue (show exec (.smrg f) s = execSmrg f s from rfl) hf ?_
  rw [ha, hd, hh, ← s.seen_result f (o := .smrg) rfl]
  rfl

/-! ### The search of SMRG.ORD (R228) -/

theorem hasKey_iff {t : Tok} {q : Ext} : HasKey t q ↔ ∃ v, softKey t = some v ∧ v.ext = q := by
  unfold HasKey softKey
  cases isFmtTag t with
  | true => simp
  | false => simp

theorem Val.follows_iff {x y : Val} : x.follows y = true ↔ ∃ q, y.ext = .num q ∧ x.ext = .num (q + 1) := by
  match x, y with
  | .fin m e, .fin n f =>
    have hone : ((dyAdd n f 1 0).1 : ℚ) * (2 : ℚ) ^ (dyAdd n f 1 0).2 = (n : ℚ) * (2 : ℚ) ^ f + 1 := by
      rw [dyAdd_value, Int.cast_one, zpow_zero, mul_one]
    show (!dyLt m e (dyAdd n f 1 0).1 (dyAdd n f 1 0).2 && !dyLt (dyAdd n f 1 0).1 (dyAdd n f 1 0).2 m e) = true ↔ _
    rw [Bool.and_eq_true, Bool.not_eq_true', Bool.not_eq_true', ← Bool.not_eq_true, ← Bool.not_eq_true, dyLt_iff,
      dyLt_iff, hone, not_lt, not_lt]
    constructor
    · rintro ⟨hge, hle⟩
      exact ⟨_, rfl, congrArg Ext.num (le_antisymm hle hge)⟩
    · rintro ⟨q, hy, hx⟩
      rw [Ext.num.inj hx, Ext.num.inj hy]
      exact ⟨le_rfl, le_rfl⟩
  | .nan, _ | .inf _, _ | .fin _ _, .nan | .fin _ _, .inf _ => simp [Val.follows, Val.ext]

theorem nextKey_iff {d t : Tok} {k : Val} (hk : softKey d = some k) :
    NextKey d t ↔ ((softKey t).any fun x => x.follows k) = true := by
  simp only [NextKey, hasKey_iff, hk, Option.some.injEq, exists_eq_left', Option.any_eq_true, Val.follows_iff]
  constructor
  · rintro ⟨q, hq, v, hv, hvq⟩
    exact ⟨v, hv, q, hq, hvq⟩
  · rintro ⟨v, hv, q, hq, hvq⟩
    exact ⟨q, hq, v, hv, hvq⟩

theorem getElem?_takeWhile {α : Type} {p : α → Bool} {l : List α} {n : Nat}
    (h : ∀ m ≤ n, ∃ u, l[m]? = some u ∧ p u = true) : (l.takeWhile p)[n]? = l[n]? := by
  induction n generalizing l with
  | zero =>
    obtain ⟨u, hu, hp⟩ := h 0 le_rfl
    cases l with
    | nil => rfl
    | cons v l =>
      obtain rfl := Option.some.inj hu
      rw [List.takeWhile_cons_of_pos hp]
      rfl
  | succ n ih =>
    obtain ⟨u, hu, hp⟩ := h 0 (Nat.zero_le _)
    cases l with
    | nil => rfl
    | cons v l =>
      obtain rfl := Option.some.inj hu
      rw [List.takeWhile_cons_of_pos hp, List.getElem?_cons_succ, List.getElem?_cons_succ]
      exact ih fun m hm => h (m + 1) (Nat.succ_le_succ hm)

/-- The first entry of a list that passes a test, with its place. -/
theorem find?_zipIdx {α : Type} {p : α → Bool} {l : List α} {n : Nat} {t : α} (hn : l[n]? = some t) (ht : p t = true)
    (hbefore : ∀ m < n, ∀ u, l[m]? = some u → p u = false) : (l.zipIdx.find? fun t => p t.1) = some (t, n) := by
  obtain ⟨hlt, rfl⟩ := List.getElem?_eq_some_iff.mp hn
  refine List.find?_eq_some_iff_getElem.mpr ⟨ht, n, by simpa using hlt, by simp, fun m hm => ?_⟩
  rw [List.getElem_zipIdx, hbefore m hm _ (List.getElem?_eq_getElem (hm.trans hlt))]
  rfl

theorem ordMatch_eq {c : Ctx} {i : Fin 4} {n : Nat} {t : Tok} (ha : c.f.a = .inp i)
    (h : OldestNext c.d (c.x.inp i.val).queue n t) : c.ordMatch = some (i.val, n, t) := by
  obtain ⟨hn, hkind, hnext, hbefore⟩ := h
  obtain ⟨q, hd, -⟩ := id hnext
  obtain ⟨k, hk, -⟩ := hasKey_iff.mp hd
  have hdata : ∀ m ≤ n, ∃ u, (c.x.inp i.val).queue[m]? = some u ∧ (u.kind == 0) = true := by
    intro m hm
    rcases hm.lt_or_eq with hlt | rfl
    · obtain ⟨u, hu, hk, -⟩ := hbefore m hlt
      exact ⟨u, hu, by simp [hk]⟩
    · exact ⟨t, hn, by simp [hkind]⟩
  have hwhile : ∀ m ≤ n, ((c.x.inp i.val).queue.takeWhile fun t => t.kind == 0)[m]? = (c.x.inp i.val).queue[m]? :=
    fun m hm => getElem?_takeWhile fun l hl => hdata l (hl.trans hm)
  have hfind := find?_zipIdx (p := fun t => (softKey t).any fun x => x.follows k) ((hwhile n le_rfl).trans hn)
    ((nextKey_iff hk).mp hnext) fun m hm u hu => by
      obtain ⟨v, hv, -, hno⟩ := hbefore m hm
      rw [hwhile m hm.le, hv] at hu
      obtain rfl := Option.some.inj hu
      exact Bool.eq_false_iff.mpr (mt (nextKey_iff hk).mpr hno)
  have hinput : c.f.a.input? = some i := by rw [ha]; rfl
  simp only [Ctx.ordMatch, hinput, hk, hfind, Option.map_some]

/-- What SMRG.ORD does with the beat that it finds: the beat leaves its place in the input, whose credit starts back. -/
theorem smrgOrd_does {f : Fields} {s : State} {i : Fin 4} {n : Nat} {t a d : Tok} {h : Hdr} (hin : f.a = .inp i)
    (hf : Fires .smrgOrd f s) (hnext : OldestNext (s.seen .smrgOrd f).d ((s.seen .smrgOrd f).x.inp i.val).queue n t)
    (hd : (s.seen .smrgOrd f).convD .wf = .ok d) (ha : (s.seen .smrgOrd f).conv none t .wf = .ok a)
    (hh : (s.seen .smrgOrd f).headerOf [t, (s.seen .smrgOrd f).d] = .ok h) :
    Does .smrgOrd f s
      { resulting f 6 ((smrg (Soft.of d) (Soft.of a) (Soft.of a).key).tok h) with
        pops := []
        tile := fun t' => t'.modPool s.focus.pool fun x =>
          { x with ins := x.ins.modify i fun q => { q with queue := q.queue.eraseIdx n } }
        eff := fun s1 => s1.creditFor (s.seen .smrgOrd f).x i } := by
  refine does_of_issue (show exec (.smrgOrd f) s = execSmrgOrd f s from rfl) hf ?_
  rw [ordMatch_eq (c := s.seen .smrgOrd f) hin hnext]
  dsimp only
  rw [hd, ha, hh, ← s.seen_result f (o := .smrgOrd) rfl]
  rfl

/-! ### SMFIN (R229) -/

/-- The values of lanes 0 and 1 of SMFIN's result. -/
def smfinVals (x : Soft) : List Val := if x.isNan then [.nan, .nan] else [frcp x.s, (x.m.add (flog2 x.s)).rw]

theorem smfin_does {f : Fields} {s : State} {a : Tok} {h : Hdr} (hf : Fires .smfin f s)
    (ha : (s.seen .smfin f).convA .wf = .ok a) (hh : (s.seen .smfin f).header = .ok h) :
    Does .smfin f s (resulting f 6 (dataTok (Lanes.ofList ((smfinVals (Soft.of a)).map fun v => v.toWf 0))
      { h with mask := 3 } 0)) := by
  refine does_of_issue (show exec (.smfin f) s = execSmfin f s from rfl) hf ?_
  rw [ha, hh, ← s.seen_result f (o := .smfin) rfl]
  rfl

theorem smfin_lanes (x : Soft) (h : Hdr) :
    let r := dataTok (Lanes.ofList ((smfinVals x).map fun v => v.toWf 0)) { h with mask := 3 } 0
    (x.isNan = true → r.lanes.get 0 = wfNaN ∧ r.lanes.get 1 = wfNaN) ∧
      (x.isNan = false → r.lanes.get 0 = (frcp x.s).ext.word 0 ∧
        r.lanes.get 1 = ((x.m.ext.add (flog2 x.s).ext).round 0).word 0) := by
  intro r
  have hlane : ∀ i < 2, r.lanes.get i = ((smfinVals x).map fun v => v.toWf 0).getD i 0 := by
    intro i hi
    have hmask : ∀ i < 2, (3 : BitVec 8).getLsbD i = true := by decide
    refine (dataTok_get _ _ _ (by omega)).trans ((if_pos (hmask i hi)).trans ?_)
    exact Lanes.get_ofFn _ (by omega)
  rw [hlane 0 (by decide), hlane 1 (by decide)]
  unfold smfinVals
  refine ⟨fun hx => ?_, fun hx => ?_⟩
  · rw [if_pos hx]
    exact ⟨rfl, rfl⟩
  · rw [if_neg (by simp [hx]), ← Val.ext_add, ← Val.ext_rw]
    exact ⟨Val.toWf_zero _, Val.toWf_zero _⟩

/-- Settles O29: SMUP, SMRG and SMRG.ORD by what `smup` and `smrg` make of the states, and SMFIN by its two lanes. -/
theorem softmaxStates : Obligations.SoftmaxStates := by
  intro f s a b d h lanesOf old part init
  refine ⟨fun hmd hf hs => ?smup, fun hmd hf ha hb hh => ?init, fun hf ha hd hh => ?smrg,
    fun i n t hin hf hnext hd ha hh => ?ord, fun hf ha hh => ?fin⟩
  case smup => exact ⟨_, _, smup_does hmd hf hs, Soft.tok_lanes _ _, smupOf_smup _ _⟩
  case init =>
    have hdoes := smupInit_does hmd hf ha hb hh
    by_cases hm : a.mask = 0
    · rw [smup_empty_tok _ hm] at hdoes
      exact ⟨_, _, hdoes, Soft.tok_lanes _ _, smupOf_empty _ hm, fun _ => rfl⟩
    · exact ⟨_, _, hdoes, Soft.tok_lanes _ _, smupOf_smup _ _, fun h0 => absurd h0 hm⟩
  case smrg => exact ⟨_, _, smrg_does hf ha hd hh, Soft.tok_lanes _ _, smrgOf_smrg _ _ _⟩
  case ord => exact ⟨_, _, Soft.tok_lanes _ _, smrgOf_smrg _ _ _, smrgOrd_does hin hf hnext hd ha hh⟩
  case fin =>
    obtain ⟨hnan, hfin⟩ := smfin_lanes (Soft.of a) h
    exact ⟨_, smfin_does hf ha hh, ⟨rfl, rfl, rfl, rfl⟩, hnan, hfin⟩

end Sys2Proof.Machine

/-! ## Hashing and sampling (R230 to R235) -/

namespace Sys2Proof.Machine

open Sys2Proof

/-! ### HASH and GUMB (R230, R232) -/

theorem hash_does {f : Fields} {s : State} {h : Hdr} (hf : Fires .hash f s) (hh : (s.seen .hash f).header = .ok h) :
    Does .hash f s (resulting f 12 (dataTok (Lanes.ofFn fun i =>
      hash64 ((maskLanes (s.seen .hash f).a).get i) ((maskLanes (s.seen .hash f).b).get i)) h 3)) := by
  refine does_of_issue (show exec (.hash f) s = execHash f s from rfl) hf ?_
  rw [hh, ← s.seen_result f (o := .hash) rfl]
  rfl

theorem gumb_does {f : Fields} {s : State} {a : Tok} {h : Hdr} (hf : Fires .gumb f s)
    (ha : (s.seen .gumb f).convA .wf = .ok a) (hh : (s.seen .gumb f).header = .ok h) :
    Does .gumb f s (resulting f 12 (dataTok (Lanes.ofFn fun i =>
      (gumb (Val.ofWf (a.lanes.get i)) ((maskLanes (s.seen .gumb f).b).get i)).toWf 0) h 0)) := by
  refine does_of_issue (show exec (.gumb f) s = execGumb f s from rfl) hf ?_
  rw [ha, hh, ← s.seen_result f (o := .gumb) rfl]
  rfl

/-- GUMB passes on what is not finite. -/
theorem gumb_special {x : Val} (h : ∀ q, x.ext ≠ .num q) (w : Word) : gumb x w = x := by
  cases x with
  | nan => rfl
  | inf n => rfl
  | fin m e => exact absurd rfl (h _)

/-! ### TOPKI (R233) -/

theorem topki_does {f : Fields} {s : State} {a b d : Tok} {h : Hdr} (hf : Fires .topki f s)
    (ha : (s.seen .topki f).convA (if f.md.getLsbD 1 then .vid else .wf) = .ok a)
    (hb : (s.seen .topki f).convB .int = .ok b)
    (hd : if f.md.getLsbD 0 then d = zeroTok ∧ (s.seen .topki f).headerOf ([f.a, f.b].filterMap fun x =>
        if isHeaderSrc x then some ((s.seen .topki f).x.source x) else none) = .ok h
      else (s.seen .topki f).convD .vid = .ok d ∧ (s.seen .topki f).header = .ok h) :
    let l := ranked ((if f.md.getLsbD 1 then pairsOf a else lanePairs a b.lanes.l0) ++ pairsOf d)
    Does .topki f s (resulting f 12 (pairTokOf h fun n => l[n]?)) := by
  refine does_of_issue (show exec (.topki f) s = execTopki f s from rfl) hf ?_
  dsimp only
  rw [ha, intB_of_convB hb, ← s.seen_result f (o := .topki) rfl]
  cases hmd : f.md.getLsbD 0 with
  | true =>
    rw [hmd, if_pos rfl] at hd
    obtain ⟨rfl, hh⟩ := hd
    simp only [hh, ok_bind, if_true]
  | false =>
    rw [hmd, if_neg Bool.false_ne_true] at hd
    obtain ⟨hd, hh⟩ := hd
    simp only [hd, hh, ok_bind, Bool.false_eq_true, if_false]

/-! ### TKOUT (R234) -/

/-- The header of a lane for each valid pair. -/
def pairHdr (a : Tok) (h : Hdr) : Hdr := { h with mask := maskOf fun i => i < 4 && (pairOf a i).isSome }

/-- The result of TKOUT: ids, values or the best pair of a state. -/
def tkoutTok (md : BitVec 3) (a : Tok) (h : Hdr) : Tok :=
  match md.toNat with
  | 0 => dataTok (Lanes.ofFn fun i => (pairOf a i).elim 0 (·.id)) (pairHdr a h) 1
  | 1 => dataTok (Lanes.ofFn fun i => (pairOf a i).elim 0 fun q => q.v.toWf 0) (pairHdr a h) 0
  | _ => pairTokOf h fun n => if n = 0 then pairOf a 0 else none

theorem tkout_does {f : Fields} {s : State} {a : Tok} {h : Hdr} (hf : Fires .tkout f s)
    (ha : (s.seen .tkout f).convA .vid = .ok a) (hh : (s.seen .tkout f).header = .ok h) :
    Does .tkout f s (resulting f 12 (tkoutTok f.md a h)) := by
  refine does_of_issue (show exec (.tkout f) s = execTkout f s from rfl) hf ?_
  rw [ha, hh, ← s.seen_result f (o := .tkout) rfl]
  rfl

theorem tkoutTok_ids (a : Tok) (h : Hdr) :
    tkoutTok 0 a h = dataTok (Lanes.ofFn fun i => (pairOf a i).elim 0 (·.id)) (pairHdr a h) 1 := rfl

theorem tkoutTok_values (a : Tok) (h : Hdr) :
    tkoutTok 1 a h = dataTok (Lanes.ofFn fun i => (pairOf a i).elim 0 fun q => q.v.toWf 0) (pairHdr a h) 0 := rfl

theorem tkoutTok_best (a : Tok) (h : Hdr) :
    tkoutTok 2 a h = pairTokOf h fun n => if n = 0 then pairOf a 0 else none := rfl

/-- A lane of a token that takes one thing of each valid pair. -/
theorem pairLanes {a : Tok} {h : Hdr} {fmt : BitVec 4} (g : VPair → Word) {n : Nat} (hn : n < 8) :
    let r := dataTok (Lanes.ofFn fun i => (pairOf a i).elim 0 g) (pairHdr a h) fmt
    (r.mask.getLsbD n = true ↔ n < 4 ∧ (pairOf a n).isSome = true) ∧
      ∀ q, n < 4 → pairOf a n = some q → r.lanes.get n = g q := by
  have hmask : (pairHdr a h).mask.getLsbD n = (decide (n < 4) && (pairOf a n).isSome) :=
    getLsbD_maskOf _ hn
  refine ⟨?_, fun q hn4 hq => (dataTok_get _ _ _ hn).trans ?_⟩
  · refine (Bool.eq_iff_iff.mp hmask).trans ?_
    rw [Bool.and_eq_true, decide_eq_true_iff]
  · rw [if_pos (hmask.trans (by simp [hn4, hq])), Lanes.get_ofFn _ hn, hq, Option.elim_some]

/-! ### ARGMC (R235) -/

theorem argmc_does {f : Fields} {s : State} {a b : Tok} {h : Hdr} (hf : Fires .argmc f s)
    (ha : (s.seen .argmc f).convA .vid = .ok a) (hb : (s.seen .argmc f).convB .vid = .ok b)
    (hh : (s.seen .argmc f).header = .ok h) :
    Does .argmc f s (resulting f 12 (pairTokOf h fun n =>
      if n < 4 then bestPair (pairOf a n) (pairOf b n) else none)) := by
  refine does_of_issue (show exec (.argmc f) s = execArgmc f s from rfl) hf ?_
  rw [ha, hb, hh, ← s.seen_result f (o := .argmc) rfl]
  rfl

/-- The better of two pairs is one of them, and neither ranks above it. -/
theorem bestPair_best (x y : Option VPair) :
    match bestPair x y with
    | none => x = none ∧ y = none
    | some q => (x = some q ∨ y = some q) ∧ (∀ u, x = some u → u.above q = false) ∧
        (∀ u, y = some u → u.above q = false) := by
  have hself : ∀ p : VPair, p.above p = false := fun p => VPair.not_above_iff.mpr le_rfl
  match x, y with
  | none, none => exact ⟨rfl, rfl⟩
  | some p, none => exact ⟨.inl rfl, fun u hu => Option.some.inj hu ▸ hself p, nofun⟩
  | none, some q => exact ⟨.inr rfl, nofun, fun u hu => Option.some.inj hu ▸ hself q⟩
  | some p, some q =>
    cases hqp : q.above p with
    | true =>
      rw [bestPair, if_pos hqp]
      have hpq : p.above q = false := VPair.not_above_iff.mpr (VPair.above_iff.mp hqp).le
      exact ⟨.inr rfl, fun u hu => Option.some.inj hu ▸ hpq, fun u hu => Option.some.inj hu ▸ hself q⟩
    | false =>
      rw [bestPair, if_neg (by simp [hqp])]
      exact ⟨.inl rfl, fun u hu => Option.some.inj hu ▸ hself p, fun u hu => Option.some.inj hu ▸ hqp⟩

/-- Settles O30: HASH and GUMB lane by lane, and of the pairs TOPKI by the ranked list, TKOUT by `pairLanes` and ARGMC
by `bestPair_best`. -/
theorem sampling : Obligations.Sampling := by
  intro f s a b d h
  refine ⟨fun hf hh => ?hash, fun hf ha hh => ?gumb, fun hmd hf ha hb hd => ?topki, fun hmd hf ha hh => ?tkout,
    fun hf ha hb hh => ?argmc⟩
  case hash =>
    obtain ⟨hhead, hlanes⟩ := dataTok_ofFn (fun i => hash64 ((maskLanes (s.seen .hash f).a).get i)
      ((maskLanes (s.seen .hash f).b).get i)) h 3
    refine ⟨_, hash_does hf hh, hhead, fun i hi hv => ?_⟩
    rw [valid_lanes hlanes i hi hv, maskLanes_get _ hi, maskLanes_get _ hi]
  case gumb =>
    obtain ⟨hhead, hlanes⟩ := dataTok_ofFn (fun i =>
      (gumb (Val.ofWf (a.lanes.get i)) ((maskLanes (s.seen .gumb f).b).get i)).toWf 0) h 0
    refine ⟨_, gumb_does hf ha hh, hhead, fun i hi hv => ?_⟩
    rw [valid_lanes hlanes i hi hv, maskLanes_get _ hi, Val.toWf_zero]
    exact ⟨rfl, fun hx => by rw [gumb_special hx]; rfl⟩
  case topki =>
    exact ⟨_, _, topki_does hf ha hb hd, rfl, rfl, rankedFrom_ranked _, hasPairs_pairTokOf _ _⟩
  case tkout =>
    have hmd3 : f.md = 0 ∨ f.md = 1 ∨ f.md = 2 := by
      rcases md_cases f.md with hm | hm | hm | hm | hm | hm | hm | hm
      · exact .inl hm
      · exact .inr (.inl hm)
      · exact .inr (.inr hm)
      all_goals exact absurd (hm ▸ hmd) (by decide)
    refine ⟨_, tkout_does hf ha hh, ?_⟩
    rcases hmd3 with hm | hm | hm
    · rw [hm, tkoutTok_ids]
      exact ⟨rfl, rfl, fun h2 => absurd h2 (by decide), fun _ => ⟨rfl, fun n hn => pairLanes (·.id) hn⟩⟩
    · rw [hm, tkoutTok_values]
      refine ⟨rfl, rfl, fun h2 => absurd h2 (by decide), fun _ => ⟨rfl, fun n hn => ?_⟩⟩
      obtain ⟨hmask, hlane⟩ := pairLanes (a := a) (h := h) (fmt := 0) (fun q => q.v.toWf 0) hn
      exact ⟨hmask, fun q hn4 hq => (hlane q hn4 hq).trans q.v.toWf_zero⟩
    · rw [hm, tkoutTok_best]
      exact ⟨rfl, rfl, fun _ => hasPairs_pairTokOf _ _, fun h2 => absurd rfl h2⟩
  case argmc =>
    refine ⟨_, _, argmc_does hf ha hb hh, rfl, rfl, hasPairs_pairTokOf _ _, fun n hn => ?_⟩
    simp only [if_pos hn]
    exact bestPair_best _ _

end Sys2Proof.Machine

/-! ## The matrix engine: its instructions (R238, R240 to R242, R246, R247, R252) -/

namespace Sys2Proof.Machine

open Sys2Proof

/-! ### Fields of an operand -/

/-- A word below 2^l has no bit from bit l on. -/
theorem fld_top_eq_zero {w : Word} {l : Nat} (h : w.toNat < 2 ^ l) : fld w 63 l = 0 := by
  rw [fld, Nat.div_eq_of_lt h, Nat.zero_mod]

/-- A word below 2^(h + 1) is its field from bit h down. -/
theorem fld_low_eq_toNat {w : Word} {h : Nat} (hw : w.toNat < 2 ^ (h + 1)) : fld w h 0 = w.toNat := by
  rw [fld_low, Nat.mod_eq_of_lt hw]

theorem fld_eq_zero_iff {w : Word} {h l : Nat} : fld w h l = 0 ↔ ∀ i < h + 1 - l, w.getLsbD (l + i) = false := by
  constructor
  · intro hz i hi
    have hbit := testBit_fld w h l i
    rw [hz, Nat.zero_testBit, decide_eq_true hi, Bool.true_and] at hbit
    exact hbit.symm
  · intro hbits
    refine Nat.eq_of_testBit_eq fun i => ?_
    rw [testBit_fld, Nat.zero_testBit]
    by_cases hi : i < h + 1 - l
    · rw [hbits i hi, Bool.and_false]
    · rw [decide_eq_false hi, Bool.false_and]

theorem and_eq_zero_iff {w m : Word} : w &&& m = 0 ↔ ∀ i < 64, m.getLsbD i = true → w.getLsbD i = false := by
  constructor
  · intro hz i _ hm
    have hbit := congrArg (fun x : Word => x.getLsbD i) hz
    simpa [hm] using hbit
  · intro hbits
    refine BitVec.eq_of_getLsbD_eq fun i hi => ?_
    rw [BitVec.getLsbD_and, show (0 : Word).getLsbD i = false from BitVec.getLsbD_zero]
    cases hm : m.getLsbD i with
    | false => rw [Bool.and_false]
    | true => rw [hbits i hi hm, Bool.false_and]

/-- A number of a range that starts at 1 passes the checks of its upper bits and of its ends. -/
theorem inRange_passes {w : Word} {l m n : Nat} (hw : w.toNat < 2 ^ l) (h1 : 1 ≤ w.toNat) (hle : m ≤ n) :
    (fld w 63 l != 0 || decide (w.toNat = 0) || decide (n < m)) = false := by
  rw [fld_top_eq_zero hw, decide_eq_false (Nat.one_le_iff_ne_zero.mp h1), decide_eq_false (Nat.not_lt.mpr hle)]
  rfl

/-! ### Firings that set the engine -/

/-- A firing changes the tile's engine by `g` and nothing beyond the tile. -/
structure EngOnly (d : Done) (g : MxEng → MxEng) : Prop where
  eng : ∀ t, (d.tile t).eng = g t.eng
  eff : d.eff = id
  after : d.after = none

theorem EngOnly.commit {d : Done} {g : MxEng → MxEng} (hd : EngOnly d g) (o : Op) (f : Fields) (s : State) :
    WorksInTile s.focus.tile s (s.commit (s.seen o f) d) ∧
      ((s.commit (s.seen o f) d).tile s.focus.tile).eng = g (s.tile s.focus.tile).eng := by
  refine ⟨⟨s.commit_mem _ _ hd.eff hd.after, fun j hj => s.commit_tile_ne (s.seen o f) d hd.eff hd.after hj⟩, ?_⟩
  have htile := s.commit_tile (s.seen o f) d hd.eff hd.after
  refine (congrArg Tile.eng htile).trans ?_
  rw [hd.eng, Tile.modPool_eng]
  rfl

/-- An instruction works in its tile alone and leaves the engine `e`. -/
def LeavesEng (o : Op) (f : Fields) (s : State) (e : MxEng) : Prop :=
  ∃ t, exec (o.mk f) s = .next t ∧ (t.tile s.focus.tile).eng = e ∧ WorksInTile s.focus.tile s t

theorem EngOnly.leaves {d : Done} {g : MxEng → MxEng} (hd : EngOnly d g) {o : Op} {f : Fields} {s : State}
    (h : Does o f s d) : LeavesEng o f s (g (s.tile s.focus.tile).eng) := by
  obtain ⟨hframe, heng⟩ := hd.commit o f s
  exact ⟨_, h, heng, hframe⟩

/-- A firing that consumes by its operand fields and changes the engine. -/
def inEng (f : Fields) (g : MxEng → MxEng) : Done := { consumed f with tile := fun t => t.modEng g }

theorem engOnly_inEng (f : Fields) (g : MxEng → MxEng) : EngOnly (inEng f g) g := ⟨fun _ => rfl, rfl, rfl⟩

/-! ### MXCFG (R240) -/

/-- The bits of MXCFG's A that must be zero, and the three fields that hold them. -/
theorem mxcfg_reserved_iff {a : Word} :
    a &&& 0xFFFFFFFFFFFF18E0 = 0 ↔ fld a 63 16 = 0 ∧ fld a 12 11 = 0 ∧ fld a 7 5 = 0 := by
  have hmask : ∀ i < 64, (0xFFFFFFFFFFFF18E0 : Word).getLsbD i = true ↔ 16 ≤ i ∨ i = 11 ∨ i = 12 ∨ 5 ≤ i ∧ i ≤ 7 := by
    decide
  rw [and_eq_zero_iff, fld_eq_zero_iff, fld_eq_zero_iff, fld_eq_zero_iff]
  constructor
  · intro h
    exact ⟨fun i hi => h _ (by omega) ((hmask _ (by omega)).mpr (by omega)),
      fun i hi => h _ (by omega) ((hmask _ (by omega)).mpr (by omega)),
      fun i hi => h _ (by omega) ((hmask _ (by omega)).mpr (by omega))⟩
  · rintro ⟨hhigh, hmid, hlow⟩ i hi hm
    rcases (hmask i hi).mp hm with h | h | h | h
    · simpa [Nat.add_sub_cancel' h] using hhigh (i - 16) (by omega)
    · simpa [h] using hmid 0 (by omega)
    · simpa [h] using hmid 1 (by omega)
    · simpa [Nat.add_sub_cancel' h.1] using hlow (i - 5) (by omega)

/-- KBM1 is odd where its lowest bit, bit 8 of A, is 1. -/
theorem mxcfg_odd (a : Word) : fld a 10 8 % 2 = if a.getLsbD 8 then 1 else 0 := by
  have hbit := testBit_fld a 10 8 0
  rw [Nat.testBit_zero, Nat.add_zero, show decide (0 < 10 + 1 - 8) = true from rfl, Bool.true_and] at hbit
  rw [← hbit]
  rcases Nat.mod_two_eq_zero_or_one (fld a 10 8) with h | h <;> simp [h]

/-- The configuration that MXCFG's operands hold. -/
def mxCfgRead (a b : Word) : MxCfg :=
  ⟨(a.extractLsb' 0 5).toNat, (a.extractLsb' 8 3).toNat, a.getLsbD 13, (a.extractLsb' 14 2).toNat, b.toNat⟩

theorem mxCfgOf_good {a b : Word} (hzero : a &&& 0xFFFFFFFFFFFF18E0 = 0) (hcol : b.toNat % 8 = 0)
    (hfit : b.toNat + 8 * ((a.extractLsb' 0 5).toNat + 1) ≤ 256) (ha4 : a.getLsbD 13 = true → a.getLsbD 8 = true) :
    mxCfgOf a b = .ok (mxCfgRead a b) := by
  obtain ⟨hhigh, hmid, hlow⟩ := mxcfg_reserved_iff.mp hzero
  have hb : fld b 63 8 = 0 := fld_top_eq_zero (by omega)
  have hb' : fld b 7 0 = b.toNat := fld_low_eq_toNat (by omega)
  have hnc : fld a 4 0 = (a.extractLsb' 0 5).toNat := fld_extract a 4 0 (by decide)
  have hodd : (bit a 13 && decide (fld a 10 8 % 2 = 0)) = false := by
    rw [mxcfg_odd, bit]
    cases h13 : a.getLsbD 13 with
    | false => rfl
    | true => rw [ha4 h13]; rfl
  rw [mxCfgOf, hhigh, hmid, hlow, hb, hb', hnc, hodd, fld_extract a 10 8 (by decide), fld_extract a 15 14 (by decide)]
  simp only [bne_self_eq_false, Bool.or_self, Bool.false_eq_true, if_false, hcol, Bool.false_or,
    decide_eq_true_eq, if_neg (Nat.not_lt.mpr hfit)]
  rfl

theorem mxCfgOf_reserved {a : Word} (b : Word) (h : a &&& 0xFFFFFFFFFFFF18E0 ≠ 0) : mxCfgOf a b = .error 0 := by
  rw [mxCfgOf, if_pos]
  by_contra hno
  simp only [Bool.or_eq_true, not_or, bne_iff_ne, ne_eq, not_not] at hno
  obtain ⟨⟨⟨hhigh, hmid⟩, hlow⟩, -⟩ := hno
  exact h (mxcfg_reserved_iff.mpr ⟨hhigh, hmid, hlow⟩)

section Operands

variable {f : Fields} {s : State} {h : Hdr} {a b : Word}

theorem mxcfg_does {cfg : MxCfg} (hf : Fires .mxcfg f s) (ha : (s.seen .mxcfg f).intA = .ok a)
    (hb : (s.seen .mxcfg f).intB = .ok b) (hh : (s.seen .mxcfg f).header = .ok h) (hcfg : mxCfgOf a b = .ok cfg) :
    Does .mxcfg f s (inEng f fun e => { e with cfg := cfg }) := by
  refine does_of_issue (show exec (.mxcfg f) s = execMxcfg f s from rfl) hf ?_
  simp only [ha, hb, hh, hcfg, ok_bind]
  rfl

theorem mxcfg_refused (hf : Fires .mxcfg f s) (ha : (s.seen .mxcfg f).intA = .ok a)
    (hb : (s.seen .mxcfg f).intB = .ok b) (hh : (s.seen .mxcfg f).header = .ok h)
    (hzero : a &&& 0xFFFFFFFFFFFF18E0 ≠ 0) : exec (.mxcfg f) s =
      .next ((s.markActive s.focus.tile).raise s.focus.tile s.focus.pool s.focus.slot 0x50 h.gen (BitVec.ofNat 64 0x20) a 0) := by
  refine next_raise (o := .mxcfg) (show exec (.mxcfg f) s = execMxcfg f s from rfl) hf hh ?_
  simp only [ha, hb, hh, ok_bind, mxCfgOf_reserved b hzero, if_true]
  rfl

/-! ### MXMODE (R238) -/

theorem MxEng.setMode_same (e : MxEng) : e.setMode e.mode = e := if_pos rfl

theorem MxEng.setMode_zero {e : MxEng} (h : e.mode ≠ 0) : e.setMode 0 = { e with mode := 0 } := if_neg h

theorem MxEng.setMode_one {e : MxEng} (h : e.mode ≠ 1) :
    e.setMode 1 = { e with mode := 1, work := some (.recompute, 257) } := if_neg h

theorem MxEng.setMode_two {e : MxEng} (h : e.mode ≠ 2) :
    e.setMode 2 = { e with mode := 2, rules := [], outRows := [], gst := .ready } := if_neg h

theorem mxmode_does (hf : Fires .mxmode f s) (ha : (s.seen .mxmode f).intA = .ok a)
    (hh : (s.seen .mxmode f).header = .ok h) (hlt : a.toNat < 3) :
    Does .mxmode f s (inEng f fun e => e.setMode a.toNat) := by
  refine does_of_issue (show exec (.mxmode f) s = execMxmode f s from rfl) hf ?_
  simp only [ha, hh, ok_bind, if_neg (Nat.not_le.mpr hlt)]
  rfl

theorem mxmode_leaves (hf : Fires .mxmode f s) (ha : (s.seen .mxmode f).intA = .ok a)
    (hh : (s.seen .mxmode f).header = .ok h) (hlt : a.toNat < 3) :
    LeavesEng .mxmode f s ((s.tile s.focus.tile).eng.setMode a.toNat) :=
  (engOnly_inEng f fun e => e.setMode a.toNat).leaves (mxmode_does hf ha hh hlt)

end Operands

/-! ### MXSCB (R241) -/

/-- One scale written. -/
def MxEng.putScale (e : MxEng) (x : Nat × Int) : MxEng :=
  { e with scales := Tab.set e.scales x.1 x.2, badScales := e.badScales.filter fun m => m != x.1 }

theorem MxEng.scale_putScale_self (e : MxEng) (n : Nat) (v : Int) : (e.putScale (n, v)).scale n = v := by
  simp [MxEng.scale, MxEng.putScale]

theorem MxEng.scale_putScale_ne (e : MxEng) {x : Nat × Int} {n : Nat} (h : n ≠ x.1) : (e.putScale x).scale n = e.scale n := by
  simp [MxEng.scale, MxEng.putScale, Tab.get_set_ne _ _ _ h, h]

/-- Scales written one after another: a scale that is not among them stays. -/
theorem MxEng.scale_foldl_ne (xs : List (Nat × Int)) (e : MxEng) {n : Nat} (h : ∀ x ∈ xs, n ≠ x.1) :
    (xs.foldl MxEng.putScale e).scale n = e.scale n := by
  induction xs generalizing e with
  | nil => rfl
  | cons x rest ih =>
    rw [List.foldl_cons, ih _ fun y hy => h y (List.mem_cons_of_mem _ hy), e.scale_putScale_ne (h x (List.mem_cons_self ..))]

/-- One that is, and that all its writes agree on, holds their value. -/
theorem MxEng.scale_foldl_mem (xs : List (Nat × Int)) (e : MxEng) {n : Nat} {v : Int} (hsame : ∀ x ∈ xs, n = x.1 → x.2 = v)
    (hmem : ∃ x ∈ xs, n = x.1) : (xs.foldl MxEng.putScale e).scale n = v := by
  induction xs generalizing e with
  | nil => obtain ⟨x, hx, -⟩ := hmem; cases hx
  | cons x rest ih =>
    rw [List.foldl_cons]
    by_cases hrest : ∃ y ∈ rest, n = y.1
    · exact ih _ (fun y hy => hsame y (List.mem_cons_of_mem _ hy)) hrest
    · rw [MxEng.scale_foldl_ne rest _ fun y hy hn => hrest ⟨y, hy, hn⟩]
      obtain ⟨y, hy, hn⟩ := hmem
      rcases List.mem_cons.mp hy with rfl | hy
      · obtain ⟨m, w⟩ := y
        obtain rfl : n = m := hn
        rw [e.scale_putScale_self]
        exact hsame _ (List.mem_cons_self ..) rfl
      · exact absurd ⟨y, hy, hn⟩ hrest

/-- The scales that a token holds for MXSCB, with their indices. -/
def scaleWrites (s0 : Nat) (a : Tok) : List (Nat × Int) :=
  (List.range 8).flatMap fun i =>
    if a.mask.getLsbD i then
      (List.range 4).map fun j => (s0 + 4 * i + j, sextBits ((a.lanes.get i).toNat / 2 ^ (12 * j)) 12)
    else []

theorem mem_scaleWrites {s0 : Nat} {a : Tok} {x : Nat × Int} : x ∈ scaleWrites s0 a ↔ ∃ i < 8, ∃ j < 4,
    a.mask.getLsbD i = true ∧ x = (s0 + 4 * i + j, ((a.lanes.get i).extractLsb' (12 * j) 12).toInt) := by
  have hval : ∀ (w : Word) (j : Nat), sextBits (w.toNat / 2 ^ (12 * j)) 12 = (w.extractLsb' (12 * j) 12).toInt := by
    intro w j
    rw [sext_toInt 12 _ (by decide), ← Nat.shiftRight_eq_div_pow]
    rfl
  simp only [scaleWrites, List.mem_flatMap, List.mem_range, hval]
  refine exists_congr fun i => and_congr_right fun _ => ?_
  cases a.mask.getLsbD i <;> simp [eq_comm]

theorem MxEng.setScales_eq (e : MxEng) (s0 : Nat) (a : Tok) :
    e.setScales s0 a = (scaleWrites s0 a).foldl MxEng.putScale e := by
  rw [scaleWrites, List.foldl_flatMap]
  refine congrArg (fun g => (List.range 8).foldl g e) (funext fun e => funext fun i => ?_)
  split
  · rw [List.foldl_map]
    rfl
  · rfl

theorem MxEng.scale_setScales (e : MxEng) (s0 : Nat) (a : Tok) {i j : Nat} (hi : i < 8) (hj : j < 4)
    (hv : a.mask.getLsbD i = true) :
    (e.setScales s0 a).scale (s0 + 4 * i + j) = ((a.lanes.get i).extractLsb' (12 * j) 12).toInt := by
  rw [MxEng.setScales_eq]
  refine MxEng.scale_foldl_mem _ e (fun x hx hn => ?_) ⟨_, mem_scaleWrites.mpr ⟨i, hi, j, hj, hv, rfl⟩, rfl⟩
  obtain ⟨i', hi', j', hj', -, rfl⟩ := mem_scaleWrites.mp hx
  obtain ⟨rfl, rfl⟩ : i = i' ∧ j = j' := by
    dsimp only at hn
    omega
  rfl

theorem MxEng.scale_setScales_ne (e : MxEng) (s0 : Nat) (a : Tok) {n : Nat}
    (h : ∀ i < 8, ∀ j < 4, a.mask.getLsbD i = true → n ≠ s0 + 4 * i + j) : (e.setScales s0 a).scale n = e.scale n := by
  rw [MxEng.setScales_eq]
  refine MxEng.scale_foldl_ne _ e fun x hx => ?_
  obtain ⟨i, hi, j, hj, hv, rfl⟩ := mem_scaleWrites.mp hx
  exact h i hi j hj hv

theorem MxEng.chk_setScales (e : MxEng) (s0 : Nat) (a : Tok) : (e.setScales s0 a).chk = e.chk := by
  rw [MxEng.setScales_eq]
  induction scaleWrites s0 a generalizing e with
  | nil => rfl
  | cons x rest ih => exact (ih _).trans rfl

theorem mxscb_does {f : Fields} {s : State} {h : Hdr} {b : Word} (hf : Fires .mxscb f s)
    (hb : (s.seen .mxscb f).intB = .ok b) (hh : (s.seen .mxscb f).header = .ok h) (hlt : b.toNat < 2048)
    (hrow : b.toNat % 32 = 0) : Does .mxscb f s (inEng f fun e => e.setScales b.toNat (s.seen .mxscb f).a) := by
  refine does_of_issue (show exec (.mxscb f) s = execMxscb f s from rfl) hf ?_
  simp only [hb, hh, ok_bind, fld_top_eq_zero (l := 11) hlt, fld_low_eq_toNat (h := 10) hlt, hrow, bne_self_eq_false,
    Bool.or_self, Bool.false_eq_true, if_false]
  rfl

/-! ### MXOUT (R241) -/

/-- The lanes of MXOUT.st. -/
def MxEng.status (e : MxEng) : Lanes :=
  Lanes.ofList [w64 e.passesDone, w64 e.mismatches, w64 e.mode, w64 e.bucket, w64 e.gst.code]

theorem MxEng.status_get (e : MxEng) : e.status.get 0 = BitVec.ofNat 64 e.passesDone ∧
    e.status.get 1 = BitVec.ofNat 64 e.mismatches ∧ e.status.get 2 = BitVec.ofNat 64 e.mode := ⟨rfl, rfl, rfl⟩

section Readout

variable {f : Fields} {s : State} {h : Hdr} {a : Word} (hf : Fires .mxout f s) (ha : (s.seen .mxout f).intA = .ok a)
  (hh : (s.seen .mxout f).header = .ok h)
include hf ha hh

theorem mxout_scales (hmd : f.md = 0) (hi : fld a 10 0 ≤ 2040) :
    Does .mxout f s (resulting f 2 (dataTok (Lanes.ofFn fun j =>
      BitVec.ofInt 64 ((s.tile s.focus.tile).eng.scale (fld a 10 0 + j))) { h with mask := 0xFF } 1)) := by
  refine does_of_issue (show exec (.mxout f) s = execMxout f s from rfl) hf ?_
  rw [ha, hh, hmd, ← s.seen_result f (o := .mxout) rfl]
  exact if_neg (Nat.not_lt.mpr hi)

theorem mxout_checksums (hmd : f.md = 1) (hi : fld a 7 0 ≤ 248) :
    Does .mxout f s (resulting f 2 (dataTok (Lanes.ofFn fun j =>
      BitVec.ofInt 64 ((s.tile s.focus.tile).eng.chkOf (fld a 7 0 + j))) { h with mask := 0xFF } 1)) := by
  refine does_of_issue (show exec (.mxout f) s = execMxout f s from rfl) hf ?_
  rw [ha, hh, hmd, ← s.seen_result f (o := .mxout) rfl]
  exact if_neg (Nat.not_lt.mpr hi)

theorem mxout_status (hmd : f.md = 2) :
    Does .mxout f s (resulting f 2 (dataTok (s.tile s.focus.tile).eng.status { h with mask := 0x1F } 1)) := by
  refine does_of_issue (show exec (.mxout f) s = execMxout f s from rfl) hf ?_
  rw [ha, hh, hmd, ← s.seen_result f (o := .mxout) rfl]
  rfl

end Readout

/-! ### MXZ (R241) -/

/-- The engine when MXZ fires. -/
def MxEng.startZeroing (e : MxEng) : MxEng := { e with work := some (.zeroing, 257) }

/-- The side arrays cleared. -/
def MxEng.emptied (e : MxEng) : MxEng := { e with chk := [], scales := [], badScales := [] }

theorem mxz_does {f : Fields} {s : State} (hf : Fires .mxz f s) :
    Does .mxz f s { inEng f MxEng.startZeroing with eff := fun t => t.zeroBank s.focus.tile } :=
  does_of_issue (show exec (.mxz f) s = execMxz f s from rfl) hf rfl

theorem State.zeroBank_eng (s : State) (k : Nat) : ((s.zeroBank k).tile k).eng = (s.tile k).eng.emptied :=
  congrArg Tile.eng (State.tile_setTile _ k _)

theorem State.zeroBank_byte (s : State) (k a : Nat) : (s.zeroBank k).mem.byte a =
    if bankBase k ≤ a ∧ a < bankBase k + 65536 then 0 else s.mem.byte a :=
  Mem.byte_clear s.mem (bankBase k) (bankBase k + 65536) a

theorem mxz_next {f : Fields} {s : State} (hf : Fires .mxz f s) :
    ∃ t, exec (.mxz f) s = .next t ∧ (t.tile s.focus.tile).eng = (s.tile s.focus.tile).eng.startZeroing.emptied ∧
      ∀ a, t.mem.byte a = if bankBase s.focus.tile ≤ a ∧ a < bankBase s.focus.tile + 65536 then 0 else s.mem.byte a := by
  obtain ⟨⟨hmem, -⟩, heng⟩ := (engOnly_inEng f MxEng.startZeroing).commit .mxz f s
  refine ⟨_, mxz_does hf, ?_⟩
  rw [State.commit_eff _ _ _ (by rfl)]
  refine ⟨(State.zeroBank_eng _ _).trans (congrArg MxEng.emptied heng), fun a => (State.zeroBank_byte _ _ _).trans ?_⟩
  exact congrArg (fun m : Mem => if bankBase s.focus.tile ≤ a ∧ a < bankBase s.focus.tile + 65536 then 0 else m.byte a) hmem

/-! ### MXACC and MXCHK (R246, R247) -/

theorem mxacc_does {f : Fields} {s : State} {a b d : Tok} {h : Hdr} (hf : Fires .mxacc f s)
    (hs : Sources (s.seen .mxacc f) .wf a b d h) :
    Does .mxacc f s (resulting f 2 (dataTok (Lanes.ofFn fun i =>
      fusedSum [Val.ofWf (d.lanes.get i), Val.ofWf (a.lanes.get i), Val.ofWf (b.lanes.get i)] (f.md.toNat % 4)) h 0)) := by
  refine does_of_issue (show exec (.mxacc f) s = execMxacc f s from rfl) hf ?_
  dsimp only
  rw [hs.readA, hs.readB, hs.readD rfl, hs.header, ← s.seen_result f (o := .mxacc) rfl]
  rfl

/-- What MXCHK does: the scrub starts, and its result waits for it. -/
def scrubDone (f : Fields) (k0 m n : Nat) (h : Hdr) : Done :=
  { consumed f with
    outs := outsOf f
    res := [⟨f.d, none, m + 4, n⟩]
    tile := fun t => (t.modPool .mx fun x => { x with tickets := n }).modEng fun e =>
      { e with work := some (.scrub k0 m h.psn h.gen n, m + 4) } }

theorem engOnly_scrubDone (f : Fields) (k0 m n : Nat) (h : Hdr) :
    EngOnly (scrubDone f k0 m n h) fun e => { e with work := some (.scrub k0 m h.psn h.gen n, m + 4) } :=
  ⟨fun _ => rfl, rfl, rfl⟩

theorem mxchk_does {f : Fields} {s : State} {h : Hdr} {a b : Word} (hf : Fires .mxchk f s)
    (ha : (s.seen .mxchk f).intA = .ok a) (hb : (s.seen .mxchk f).intB = .ok b)
    (hh : (s.seen .mxchk f).header = .ok h) (halt : a.toNat < 256) (hb1 : 1 ≤ b.toNat) (hab : a.toNat + b.toNat ≤ 256) :
    Does .mxchk f s (scrubDone f a.toNat b.toNat ((s.seen .mxchk f).x.tickets + 1) h) := by
  have hrange := inRange_passes (w := b) (l := 9) (by omega) hb1 hab
  refine does_of_issue (show exec (.mxchk f) s = execMxchk f s from rfl) hf ?_
  simp only [ha, hb, hh, ok_bind, fld_top_eq_zero (l := 8) halt, fld_low_eq_toNat (h := 7) halt,
    fld_low_eq_toNat (w := b) (h := 8) (by omega), hrange, bne_self_eq_false, Bool.false_eq_true, if_false]
  rfl

/-! ### Draft hints (R252) -/

theorem draft_fields (a b : Word) : fld a 15 0 = (a.extractLsb' 0 16).toNat ∧ fld a 20 16 = (a.extractLsb' 16 5).toNat ∧
    fld b 23 0 = (b.extractLsb' 0 24).toNat ∧ fld b 47 24 = (b.extractLsb' 24 24).toNat ∧
    fld b 63 48 = (b.extractLsb' 48 16).toNat :=
  ⟨fld_extract a 15 0 (by decide), fld_extract a 20 16 (by decide), fld_extract b 23 0 (by decide),
    fld_extract b 47 24 (by decide), fld_extract b 63 48 (by decide)⟩

section DraftFields

variable {a b : Word} (cyc idx : Nat) (ha : a.toNat < 2 ^ 21) (hr1 : 1 ≤ (a.extractLsb' 16 5).toNat)
  (hr16 : (a.extractLsb' 16 5).toNat ≤ 16) (hlen : 1 ≤ (b.extractLsb' 0 24).toNat)
include ha hr1 hr16 hlen

theorem draftOf_once (hb : b.toNat < 2 ^ 24) : draftOf a b false cyc idx =
    .ok ⟨cyc + max (a.extractLsb' 0 16).toNat 64 + 2 * (idx % 16), (a.extractLsb' 16 5).toNat,
      (b.extractLsb' 0 24).toNat, 1, 1⟩ := by
  obtain ⟨honset, hrate, hlength, -, -⟩ := draft_fields a b
  simp only [draftOf, honset, hrate, hlength, fld_top_eq_zero ha, fld_top_eq_zero hb, bne_self_eq_false,
    Nat.one_le_iff_ne_zero.mp hr1, Nat.one_le_iff_ne_zero.mp hlen, Nat.not_lt.mpr hr16, decide_false, Bool.or_self,
    Bool.false_eq_true, if_false]

theorem draftOf_repeating (hper : 1 ≤ (b.extractLsb' 24 24).toNat) (hcnt : 1 ≤ (b.extractLsb' 48 16).toNat) :
    draftOf a b true cyc idx =
      .ok ⟨cyc + max (a.extractLsb' 0 16).toNat 64 + 2 * (idx % 16), (a.extractLsb' 16 5).toNat,
        (b.extractLsb' 0 24).toNat, (b.extractLsb' 24 24).toNat, (b.extractLsb' 48 16).toNat⟩ := by
  obtain ⟨honset, hrate, hlength, hperiod, hcount⟩ := draft_fields a b
  simp only [draftOf, honset, hrate, hlength, hperiod, hcount, fld_top_eq_zero ha, bne_self_eq_false,
    Nat.one_le_iff_ne_zero.mp hr1, Nat.one_le_iff_ne_zero.mp hlen, Nat.one_le_iff_ne_zero.mp hper,
    Nat.one_le_iff_ne_zero.mp hcnt, Nat.not_lt.mpr hr16, decide_false, Bool.or_self, Bool.false_eq_true, if_false, if_true]

end DraftFields

theorem draftOp_does {o : Op} {repeating : Bool} {f : Fields} {s : State} {h : Hdr} {a b : Word} {d : Draft}
    (he : exec (o.mk f) s = draftOp o repeating f s) (hf : Fires o f s) (ha : (s.seen o f).intA = .ok a)
    (hb : (s.seen o f).intB = .ok b) (hh : (s.seen o f).header = .ok h)
    (hd : draftOf a b repeating (s.core (tileCore s.focus.tile)).cyc (tileIdx s.focus.tile) = .ok d) :
    Does o f s (inEng f fun e => { e with draft := some d }) := by
  have hd' : draftOf a b repeating (s.seen o f).cyc (tileIdx (s.seen o f).k) = .ok d := hd
  refine does_of_issue he hf ?_
  simp only [ha, hb, hh, ok_bind, hd']
  rfl

/-! ### MXROW (R242) -/

/-- The count of undeclared bursts and its event change jobs, launches and events alone (R255). -/
theorem State.countUndecl_keeps (s : State) (c : Ctx) :
    (s.countUndecl c).tiles = s.tiles ∧ (s.countUndecl c).mem = s.mem := by
  unfold State.countUndecl
  split
  · dsimp only
    split <;> exact ⟨rfl, rfl⟩
  · exact ⟨rfl, rfl⟩

theorem mxrow_refused {f : Fields} {s : State} (hf : Fires .mxrow f s) (hmode : (s.tile s.focus.tile).eng.mode ≠ 1) :
    exec (.mxrow f) s = .next ((s.markActive s.focus.tile).raise s.focus.tile s.focus.pool s.focus.slot 0x51
      (s.seen .mxrow f).gen (BitVec.ofNat 64 ((s.tile s.focus.tile).eng.mode + 0x23 * 256)) 0 0) :=
  (show exec (.mxrow f) s = execMxrow f s from rfl).trans (issue_error hf (e := (s.seen .mxrow f).mxMode) (if_pos hmode))

/-- The pass that an MXROW starts. -/
def rowPass (e : MxEng) (f : Fields) (h : Hdr) (row : List Tok) (out slot : Nat) : Pass :=
  ⟨e.nextId, e.cfg, row, h.gen, h.psn, f.b.consumes?.map (·.val), out, f.md.getLsbD 0, slot, 0, e.cfg.cycles + 1, [], [],
    none, none, 0⟩

/-- The engine with a pass started and paid for. -/
def MxEng.startPass (e : MxEng) (q : Pass) (slot : Nat) : MxEng :=
  { e with
    passes := e.passes ++ [q]
    nextId := e.nextId + 1
    bucket := e.bucket - 16 * e.cfg.cycles
    waitRows := Tab.del e.waitRows slot }

/-- A pool whose outputs of a list a pass owns. -/
def PoolSt.ownedBy (x : PoolSt) (q : Nat) (ns : List Nat) : PoolSt :=
  { x with outs := ns.foldl (fun os n => os.modify n fun o => { o with owner := some (.pass q) }) x.outs }

/-- What MXROW does with a row and its pass. -/
def rowDone (c : Ctx) (row : List Tok) (q : Pass) : Done where
  pops := row.map fun _ => inputNum c.f.a
  tile := fun t => (t.modEng fun e => e.startPass q c.slot).modPool .mx fun x =>
    x.ownedBy q.id (if q.x2 then [q.out, (q.out + 1) % 4] else [q.out])
  eff := fun s => if c.rowCounted then s.countUndecl c else s

theorem Ctx.rowBeats_inp {c : Ctx} {i : Fin 4} (ha : c.f.a = .inp i) :
    c.rowBeats = (c.x.inp i).queue.take c.t.eng.cfg.nA := by
  rw [Ctx.rowBeats, ha]

section Row

variable {f : Fields} {s : State} {h : Hdr} {i n : Fin 4} {row : List Tok} (hf : Fires .mxrow f s) (ha : f.a = .inp i)
  (hd : f.d = .out n) (hrow : row = ((s.seen .mxrow f).x.inp i).queue.take (s.tile s.focus.tile).eng.cfg.nA)
  (hmode : (s.tile s.focus.tile).eng.mode = 1)
  (hfmt : ∀ x ∈ row, x.fmt = if (s.tile s.focus.tile).eng.cfg.a4 then 5 else 4)
  (hh : (s.seen .mxrow f).headerOf row = .ok h)
include hf ha hd hrow hmode hfmt hh

/-- A row of the format that the configuration asks for starts a pass over its beats. -/
theorem mxrow_does : Does .mxrow f s
    (rowDone (s.seen .mxrow f) row (rowPass (s.tile s.focus.tile).eng f h row n.val s.focus.slot)) := by
  have hbeats : (s.seen .mxrow f).rowBeats = row := (Ctx.rowBeats_inp ha).trans hrow.symm
  have hfind : row.find? (fun t => t.fmt != if (s.tile s.focus.tile).eng.cfg.a4 then 5 else 4) = none :=
    List.find?_eq_none.mpr fun x hx => by simp [hfmt x hx]
  have hout : (outsOf f).headD 0 = n.val := by rw [outsOf, hd]; rfl
  refine does_of_issue (show exec (.mxrow f) s = execMxrow f s from rfl) hf ?_
  simp only [show (s.seen .mxrow f).t = s.tile s.focus.tile from rfl, hbeats, hmode, hfind, hh, ok_bind, hout, ne_eq,
    not_true_eq_false, if_false]
  rfl

theorem mxrow_next : ∃ t, exec (.mxrow f) s = .next t ∧ t.mem = s.mem ∧ (t.tile s.focus.tile).eng =
    (s.tile s.focus.tile).eng.startPass (rowPass (s.tile s.focus.tile).eng f h row n.val s.focus.slot) s.focus.slot := by
  refine ⟨_, mxrow_does hf ha hd hrow hmode hfmt hh, ?_⟩
  generalize rowPass (s.tile s.focus.tile).eng f h row n.val s.focus.slot = q
  have hd : EngOnly { rowDone (s.seen .mxrow f) row q with eff := id } fun e => e.startPass q s.focus.slot :=
    ⟨fun _ => rfl, rfl, rfl⟩
  obtain ⟨⟨hmem, -⟩, heng⟩ := hd.commit .mxrow f s
  rw [State.commit_eff _ _ _ (by rfl)]
  generalize s.commit (s.seen .mxrow f) { rowDone (s.seen .mxrow f) row q with eff := id } = u at hmem heng
  have hkeeps : ((rowDone (s.seen .mxrow f) row q).eff u).tiles = u.tiles ∧
      ((rowDone (s.seen .mxrow f) row q).eff u).mem = u.mem := by
    rw [rowDone]
    dsimp only
    split
    · exact u.countUndecl_keeps _
    · exact ⟨rfl, rfl⟩
  rw [State.tile, hkeeps.1, hkeeps.2]
  exact ⟨hmem, heng⟩

end Row

/-! ### The obligation -/

/-- Settles O39: each instruction by what its firing makes of the engine or sends to D. -/
theorem matrixInstructions : Obligations.MatrixInstructions := by
  intro f s h a b
  refine ⟨fun ⟨hf, hh⟩ ha hb => ⟨fun ⟨hzero, hcol, hfit, ha4⟩ => ?mxcfg, mxcfg_refused hf ha hb hh⟩,
    fun ⟨hf, hh⟩ ha => ⟨fun heq hlt => ?same, fun hne h0 => ?mode0, fun hne h1 => ?mode1, fun hne h2 => ?mode2⟩,
    fun ⟨hf, hh⟩ hb hlt hrow => ?mxscb,
    fun ⟨hf, hh⟩ ha => ⟨fun hmd hi => ?scales, fun hmd hi => ?checksums, fun hmd => ?status⟩,
    fun hf _ => ?mxz, fun ta tb td hf hs => ?mxacc, fun ⟨hf, hh⟩ ha hb halt hb1 hab => ?mxchk,
    fun o ho ⟨hf, hh⟩ ha hb => ?draft,
    fun i n row hf ha hd hrow => ⟨mxrow_refused hf, fun hmode hfmt hh => ?mxrow⟩⟩
  case mxcfg =>
    exact (engOnly_inEng f fun e => { e with cfg := mxCfgRead a b }).leaves
      (mxcfg_does hf ha hb hh (mxCfgOf_good hzero hcol hfit ha4))
  case same =>
    have hleaves := mxmode_leaves hf ha hh hlt
    rwa [heq, MxEng.setMode_same] at hleaves
  case mode0 =>
    have hleaves := mxmode_leaves hf ha hh (by rw [h0]; decide)
    rwa [h0, show (0 : Word).toNat = 0 from rfl, MxEng.setMode_zero hne] at hleaves
  case mode1 =>
    have hleaves := mxmode_leaves hf ha hh (by rw [h1]; decide)
    rwa [h1, show (1 : Word).toNat = 1 from rfl, MxEng.setMode_one hne] at hleaves
  case mode2 =>
    obtain ⟨t, hexec, heng, hframe⟩ := mxmode_leaves hf ha hh (by rw [h2]; decide)
    rw [h2, show (2 : Word).toNat = 2 from rfl, MxEng.setMode_two hne] at heng
    exact ⟨t, hexec, by rw [heng]; exact ⟨rfl, rfl, rfl⟩, hframe⟩
  case mxscb =>
    obtain ⟨t, hexec, heng, hframe⟩ := (engOnly_inEng f _).leaves (mxscb_does hf hb hh hlt hrow)
    refine ⟨t, hexec, ?_, hframe⟩
    rw [heng]
    exact ⟨fun i hi j hj hv => MxEng.scale_setScales _ _ _ hi hj hv, fun n hn => MxEng.scale_setScales_ne _ _ _ hn,
      MxEng.chk_setScales _ _ _⟩
  case scales =>
    rw [← fld_extract a 10 0 (by decide)] at hi ⊢
    refine ⟨_, mxout_scales hf ha hh hmd hi, rfl, rfl, fun i hi8 => ?_⟩
    rw [dataTok_get _ _ _ hi8, Lanes.get_ofFn _ hi8, if_pos (getLsbD_fullMask hi8)]
  case checksums =>
    rw [← fld_extract a 7 0 (by decide)] at hi ⊢
    refine ⟨_, mxout_checksums hf ha hh hmd hi, rfl, rfl, fun i hi8 => ?_⟩
    rw [dataTok_get _ _ _ hi8, Lanes.get_ofFn _ hi8, if_pos (getLsbD_fullMask hi8)]
  case status =>
    refine ⟨_, mxout_status hf ha hh hmd, rfl, ?_⟩
    have hvalid : ∀ i < 5, (0x1F : BitVec 8).getLsbD i = true := by decide
    obtain ⟨hpasses, hmismatches, hmode⟩ := (s.tile s.focus.tile).eng.status_get
    rw [dataTok_get _ _ _ (by decide), dataTok_get _ _ _ (by decide), dataTok_get _ _ _ (by decide), hpasses, hmismatches,
      hmode]
    exact ⟨if_pos (hvalid 0 (by decide)), if_pos (hvalid 1 (by decide)), if_pos (hvalid 2 (by decide))⟩
  case mxz =>
    obtain ⟨t, hexec, heng, hbyte⟩ := mxz_next hf
    refine ⟨t, hexec, by rw [heng]; rfl, by rw [heng]; rfl, fun n => by rw [heng]; rfl, fun i hi => ?_, fun x hx => ?_⟩
    · rw [hbyte, if_pos ⟨Nat.le_add_right _ _, Nat.add_lt_add_left hi _⟩]
    · rw [hbyte, if_neg (by omega)]
  case mxacc =>
    obtain ⟨hhead, hlanes⟩ := dataTok_ofFn (fun i =>
      fusedSum [Val.ofWf (td.lanes.get i), Val.ofWf (ta.lanes.get i), Val.ofWf (tb.lanes.get i)] (f.md.toNat % 4)) h 0
    exact ⟨_, mxacc_does hf hs, hhead, valid_lanes hlanes⟩
  case mxchk =>
    obtain ⟨t, hexec, heng, hframe⟩ := (engOnly_scrubDone ..).leaves (mxchk_does hf ha hb hh halt hb1 hab)
    exact ⟨t, hexec, ⟨_, heng⟩, hframe⟩
  case draft =>
    intro onset r len per cnt start ha21 hr1 hr16 hlen
    have hleaves {rep : Bool} {d : Draft} (he : exec (o.mk f) s = draftOp o rep f s)
        (hd : draftOf a b rep (s.core (tileCore s.focus.tile)).cyc (tileIdx s.focus.tile) = .ok d) :
        ∃ t, exec (o.mk f) s = .next t ∧ (t.tile s.focus.tile).eng.draft = some d ∧ WorksInTile s.focus.tile s t := by
      obtain ⟨t, hexec, heng, hframe⟩ := (engOnly_inEng f _).leaves (draftOp_does he hf ha hb hh hd)
      exact ⟨t, hexec, by rw [heng], hframe⟩
    refine ⟨?_, ?_⟩
    · rintro rfl hb24
      exact hleaves (show exec (.draft f) s = execDraft f s from rfl) (draftOf_once _ _ ha21 hr1 hr16 hlen hb24)
    · rintro rfl hper hcnt
      exact hleaves (show exec (.draftx f) s = execDraftx f s from rfl)
        (draftOf_repeating _ _ ha21 hr1 hr16 hlen hper hcnt)
  case mxrow =>
    obtain ⟨t, hexec, hmem, heng⟩ := mxrow_next hf ha hd hrow hmode hfmt hh
    exact ⟨t, _, hexec, congrArg MxEng.passes heng, rfl, rfl, rfl, rfl, rfl, rfl, rfl, congrArg MxEng.bucket heng, hmem⟩

end Sys2Proof.Machine

/-! ## The matrix engine: its steps (R237, R239, R243 to R245, R247) -/

namespace Sys2Proof.Machine

open Sys2Proof

/-! ### Rows of the bank (R236) -/

theorem getD_map_range {α : Type} (g : Nat → α) (d : α) {n i : Nat} (h : i < n) : ((List.range n).map g).getD i d = g i := by
  rw [List.getD_eq_getElem?_getD, List.getElem?_map, List.getElem?_range h]
  rfl

/-- Rows of `n` entries each, one after another. -/
theorem flatMap_range_rows {α : Type} (g : Nat → α) (m n : Nat) :
    (List.range m).flatMap (fun i => (List.range n).map fun j => g (n * i + j)) = (List.range (n * m)).map g := by
  induction m with
  | zero => rfl
  | succ m ih =>
    rw [List.range_succ, List.flatMap_append, ih, Nat.mul_succ, List.range_add, List.map_append, List.map_map]
    simp

/-- The sum that a fold of a list indexed from 0 forms. -/
theorem foldl_add_map_range (g : Nat → ℤ) (n : Nat) :
    ((List.range n).map g).foldl (· + ·) 0 = ∑ i ∈ Finset.range n, g i :=
  List.sum_eq_foldl.symm

/-- A byte of a row of a tile's bank, as the significand that it holds. -/
def State.bankByte (s : State) (k row n : Nat) : ℤ := (s.mem.byte (bankBase k + 256 * row + n)).toInt

theorem laneElems_eq (w : Word) : laneElems w 8 = (List.range 8).map fun i => (byteOf w i).toInt := by
  refine congrArg (fun g => (List.range 8).map g) (funext fun i => ?_)
  rw [sext_toInt 8 _ (by decide), ← Nat.shiftRight_eq_div_pow]
  rfl

theorem State.bankRow_eq (s : State) (k row : Nat) : s.bankRow k row = (List.range 256).map (s.bankByte k row) := by
  rw [show (256 : Nat) = 8 * 32 from rfl, ← flatMap_range_rows, State.bankRow, State.bankWords, Mem.words, List.flatMap_map]
  refine congrArg (fun g => (List.range 32).flatMap g) (funext fun i => ?_)
  rw [laneElems_eq]
  refine List.map_congr_left fun j hj => ?_
  rw [Mem.byteOf_word _ _ (List.mem_range.mp hj), State.bankByte]
  refine congrArg (fun a => (s.mem.byte a).toInt) ?_
  rw [bankBase]
  omega

theorem State.bankRow_sum (s : State) (k row : Nat) :
    (s.bankRow k row).foldl (· + ·) 0 = ∑ n ∈ Finset.range 256, s.bankByte k row n := by
  rw [State.bankRow_eq, foldl_add_map_range]

/-! ### The block sums of a pass (R243, R245) -/

/-- The sum of K-block j in a column. -/
def State.blockTerm (s : State) (k : Nat) (q : Pass) (j n : Nat) : ℤ :=
  ∑ r ∈ Finset.range 32, q.elems.getD (32 * j + r) 0 * s.bankByte k (32 * j + r) n

/-- The right-hand side of a K-block's check. -/
def State.blockCheck (s : State) (k : Nat) (q : Pass) (j : Nat) : ℤ :=
  ∑ r ∈ Finset.range 32, q.elems.getD (32 * j + r) 0 * (s.tile k).eng.chkOf (32 * j + r)

/-- One row of A times one row of the bank added to the sums, and to the check. -/
def State.addTerm (s : State) (k : Nat) (q : Pass) (j : Nat) (acc : List ℤ × ℤ) (r : Nat) : List ℤ × ℤ :=
  let x := q.elems.getD (32 * j + r) 0
  if x = 0 then acc
  else (addRows acc.1 ((s.bankRow k (32 * j + r)).map fun b => x * b), acc.2 + x * (s.tile k).eng.chkOf (32 * j + r))

theorem State.blockSums_foldl (s : State) (k : Nat) (q : Pass) (j : Nat) :
    s.blockSums k q j = (List.range 32).foldl (s.addTerm k q j) (List.replicate 256 0, 0) := rfl

theorem State.addTerm_map (s : State) (k : Nat) (q : Pass) (j r : Nat) (g : Nat → ℤ) (c : ℤ) :
    s.addTerm k q j ((List.range 256).map g, c) r =
      ((List.range 256).map fun n => g n + q.elems.getD (32 * j + r) 0 * s.bankByte k (32 * j + r) n,
        c + q.elems.getD (32 * j + r) 0 * (s.tile k).eng.chkOf (32 * j + r)) := by
  by_cases hx : q.elems.getD (32 * j + r) 0 = 0
  · simp only [State.addTerm, hx, if_true, zero_mul, add_zero]
  · rw [State.addTerm, if_neg hx, State.bankRow_eq, addRows, List.map_map, List.zipWith_map, List.zipWith_self]
    rfl

theorem State.blockSums_eq (s : State) (k : Nat) (q : Pass) (j : Nat) :
    s.blockSums k q j = ((List.range 256).map (s.blockTerm k q j), s.blockCheck k q j) := by
  have hrows : ∀ m, (List.range m).foldl (s.addTerm k q j) (List.replicate 256 0, 0) =
      ((List.range 256).map fun n => ∑ r ∈ Finset.range m, q.elems.getD (32 * j + r) 0 * s.bankByte k (32 * j + r) n,
        ∑ r ∈ Finset.range m, q.elems.getD (32 * j + r) 0 * (s.tile k).eng.chkOf (32 * j + r)) := by
    intro m
    induction m with
    | zero => simp only [List.range_zero, List.foldl_nil, Finset.range_zero, Finset.sum_empty, List.map_const',
        List.length_range]
    | succ m ih =>
      rw [List.range_succ, List.foldl_append, ih, List.foldl_cons, List.foldl_nil, State.addTerm_map]
      simp only [Finset.sum_range_succ]
  rw [State.blockSums_foldl, hrows 32]
  rfl

/-! ### The end of the serial phase (R243, R245) -/

theorem State.latchPass_sum (s : State) (k : Nat) (q : Pass) {i j : Nat} (hi : i < 8 * (q.cfg.ncbm1 + 1))
    (hj : j ≤ q.cfg.kbm1) (hcol : q.cfg.col0 + i < 256) :
    ((s.latchPass k q).sums.getD i []).getD j 0 = s.blockTerm k q j (q.cfg.col0 + i) := by
  have hj' : j < q.cfg.kbm1 + 1 := Nat.lt_succ_of_le hj
  simp only [State.latchPass, State.blockSums_eq, List.map_map, Function.comp_def]
  rw [getD_map_range _ _ hi, getD_map_range _ _ hj', getD_map_range _ _ hcol]

theorem State.latchPass_scale (s : State) (k : Nat) (q : Pass) {i j : Nat} (hi : i < 8 * (q.cfg.ncbm1 + 1))
    (hj : j ≤ q.cfg.kbm1) :
    ((s.latchPass k q).scales.getD i []).getD j 0 = (s.tile k).eng.scale (8 * (q.cfg.col0 + i) + j) := by
  simp only [State.latchPass, List.map_map, Function.comp_def]
  rw [getD_map_range _ _ hi, getD_map_range _ _ (Nat.lt_succ_of_le hj)]

/-- No check fails where every K-block's sums over all columns add up to its right-hand side (R245). -/
theorem State.latchPass_badBlk (s : State) (k : Nat) (q : Pass) : (s.latchPass k q).badBlk = none ↔
    ∀ j ≤ q.cfg.kbm1, ∑ n ∈ Finset.range 256, s.blockTerm k q j n = s.blockCheck k q j := by
  simp only [State.latchPass, List.find?_eq_none, List.mem_range, Nat.lt_succ_iff]
  refine forall_congr' fun j => forall_congr' fun hj => ?_
  rw [getD_map_range _ _ (Nat.lt_succ_of_le hj), State.blockSums_eq]
  simp only [foldl_add_map_range, bne_iff_ne, ne_eq, not_not]

/-- Where the bank holds no access, its release leaves the tile and memory. -/
theorem State.releaseHeld_none {s : State} {k : Nat} (h : (s.tile k).eng.heldWrites = []) :
    (s.releaseHeld k).tile k = s.tile k ∧ (s.releaseHeld k).mem = s.mem := by
  have heq : s.releaseHeld k = s.setTile k (s.tile k) := by
    rw [State.releaseHeld]
    dsimp only
    rw [h, List.foldl_nil, ← h]
  rw [heq, State.tile_setTile]
  exact ⟨rfl, rfl⟩

/-- The state with the passes of a tile's engine put in place. -/
def State.setPasses (s : State) (k : Nat) (ps : List Pass) : State :=
  s.setTile k ((s.tile k).modEng fun e => { e with passes := ps })

theorem State.setPasses_tile (s : State) (k : Nat) (ps : List Pass) :
    (s.setPasses k ps).tile k = (s.tile k).modEng fun e => { e with passes := ps } := State.tile_setTile ..

theorem modFirst_cons {α : Type} (x : α) (rest : List α) (test : α → Bool) (g : α → α) :
    modFirst (x :: rest) test g = if test x then g x :: rest else x :: modFirst rest test g := rfl

theorem exec_passSerialEnd {s : State} {k : Nat} {q : Pass} {rest : List Pass} (hp : (s.tile k).eng.passes = q :: rest)
    (hphase : q.phase = 0) (hleft : q.left = 0) : exec (.passSerialEnd k) s = .next (
      let s1 := s.setPasses k (s.latchPass k q :: rest)
      if (s1.tile k).eng.work.isSome then s1 else s1.releaseHeld k) := by
  have hended : (q.serial && decide (q.left = 0)) = true := by simp [Pass.serial, hphase, hleft]
  rw [show exec (.passSerialEnd k) s = execPassSerialEnd k s from rfl, execPassSerialEnd]
  simp only [hp, List.find?_cons, hended, Tile.modEng, modFirst_cons, if_true, State.setPasses]
  rfl

theorem passSerialEnd_next {s : State} {k : Nat} {q : Pass} {rest : List Pass} (hp : (s.tile k).eng.passes = q :: rest)
    (hphase : q.phase = 0) (hleft : q.left = 0) (hheld : (s.tile k).eng.heldWrites = []) :
    ∃ t, exec (.passSerialEnd k) s = .next t ∧ (t.tile k).eng.passes = s.latchPass k q :: rest ∧ t.mem = s.mem := by
  refine ⟨_, exec_passSerialEnd hp hphase hleft, ?_⟩
  have htile := s.setPasses_tile k (s.latchPass k q :: rest)
  obtain ⟨hkept, hmem⟩ := State.releaseHeld_none (s := s.setPasses k (s.latchPass k q :: rest)) (k := k)
    (by rw [htile]; exact hheld)
  dsimp only
  split
  · rw [htile]
    exact ⟨rfl, rfl⟩
  · rw [hkept, htile, hmem]
    exact ⟨rfl, rfl⟩

/-! ### The check of a pass (R243, R245) -/

/-- The state once the sums of a pass have been checked, before any event (R245). -/
def State.passChecked (s : State) (k : Nat) (q : Pass) (rest : List Pass) : State :=
  s.setTile k ((s.tile k).modEng fun e => { e with
    passes := { q with phase := 2, psn := q.psn || q.badBlk.isSome } :: rest
    mismatches := if q.badBlk.isSome then (e.mismatches + 1) % 2 ^ 48 else e.mismatches })

theorem State.passChecked_tile (s : State) (k : Nat) (q : Pass) (rest : List Pass) :
    ((s.passChecked k q rest).tile k).eng = { (s.tile k).eng with
      passes := { q with phase := 2, psn := q.psn || q.badBlk.isSome } :: rest
      mismatches := if q.badBlk.isSome then ((s.tile k).eng.mismatches + 1) % 2 ^ 48 else (s.tile k).eng.mismatches } :=
  congrArg Tile.eng (State.tile_setTile ..)

/-- An event of the engine joins the events held, and changes nothing more. -/
theorem State.mxEvent_posts (s : State) (k slot code : Nat) (w3 w4 : Word) :
    ∃ v : Event, s.mxEvent k slot code w3 w4 = s.post v ∧ v.code = code ∧ v.w3 = w3 := ⟨_, rfl, rfl, rfl⟩

section Check

variable {s : State} {k : Nat} {q : Pass} {rest : List Pass} (hp : (s.tile k).eng.passes = q :: rest)
  (hphase : q.phase = 1) (hscale : q.badScale = none)
include hp hphase hscale

theorem passCheck_good (hbad : q.badBlk = none) : exec (.passCheck k) s = .next (s.passChecked k q rest) := by
  rw [show exec (.passCheck k) s = execPassCheck k s from rfl, execPassCheck]
  simp only [hp, List.find?_cons, hphase, decide_true, Tile.modEng, modFirst_cons, if_true, hscale, hbad, State.passChecked]

theorem passCheck_bad {j : Nat} (hbad : q.badBlk = some j) :
    ∃ v : Event, exec (.passCheck k) s = .next ((s.passChecked k q rest).post v) ∧ v.code = 0x52 ∧
      v.w3 = BitVec.ofNat 64 (j * 256) := by
  obtain ⟨v, hpost, hcode, hw3⟩ := (s.passChecked k q rest).mxEvent_posts k q.slot 0x52 (w64 (j * 256))
    (w64 (s.tile k).eng.passesDone)
  refine ⟨v, ?_, hcode, hw3⟩
  rw [← hpost, show exec (.passCheck k) s = execPassCheck k s from rfl, execPassCheck]
  simp only [hp, List.find?_cons, hphase, decide_true, Tile.modEng, modFirst_cons, if_true, hscale, hbad, State.passChecked]

end Check

/-! ### A beat on an output of the MX pool (R116, R120, R121) -/

/-- A token sent on an output of the MX pool, with the unit of space that it takes. -/
def State.mxSend (s : State) (k n : Nat) (t : Tok) : State := (s.spendOut k .mx n).sendOut k .mx n t

theorem State.mxSend_tile (s : State) (k n : Nat) (t : Tok) : (s.mxSend k n t).tile k =
    (s.tile k).modPool .mx fun x => { x with outs := x.outs.modify n OutPort.spend } := by
  rw [State.mxSend, State.tile, State.sendOut_tiles]
  exact State.tile_modPool ..

theorem State.mxSend_mem (s : State) (k n : Nat) (t : Tok) : (s.mxSend k n t).mem = s.mem := State.sendOut_mem ..

theorem OutPort.spend_chan (o : OutPort) : o.spend.chan = o.chan := by
  unfold OutPort.spend
  split
  · rfl
  · split <;> rfl

theorem State.mxSend_chan {s : State} {k n ch : Nat} {y : Chan} (t : Tok) (hc : ((s.tile k).mx.out n).chan = some ch)
    (hy : Tab.get? s.chans ch = some y) :
    Tab.get? (s.mxSend k n t).chans ch = some (y.push (.tok { sentTok t with tag := y.tag } 0)) := by
  have hc' : (((s.tile k).pool .mx).out n).chan = some ch := hc
  refine State.sendOut_chan t ?_ hy
  rw [State.spendOut, State.tile_modPool, Tile.pool_modPool, PoolSt.out_modify _ (PoolSt.out_lt_of_chan hc'),
    OutPort.spend_chan, hc']

theorem State.markActive_tile (s : State) (k j : Nat) : (s.markActive k).tile j = s.tile j := by
  rw [State.tile, State.markActive_tiles]
  rfl

/-! ### A result beat (R243, R244) -/

/-- GEN 0 is the elder of every tag. -/
theorem youngerAt_zero (m : Tab GenEnt) (rs : List (BitVec 8)) (g : BitVec 8) : youngerAt m rs g 0 = some g := by
  simp [youngerAt, younger, inLineage]

/-- A pass that waits for no accumulator beat sends as soon as its output has space. -/
theorem Tile.beatReady_bare {t : Tile} {q : Pass} {rest : List Pass} (hp : t.eng.passes = q :: rest)
    (hphase : q.phase = 2) (hleft : q.left = 0) (hacc : q.acc = none) (hspace : (t.mx.out q.outNum).space = true) :
    t.beatReady = true := by
  simp [Tile.beatReady, hp, hphase, hleft, hspace, Pass.accInput, hacc]

/-- The result beat of a pass without an accumulator. -/
def Pass.bareBeat (q : Pass) : Tok := q.result zeroTok ⟨0xFF, q.psn, q.gen⟩

theorem Pass.bareBeat_lane (q : Pass) {i : Nat} (hi : i < 8) : q.bareBeat.lanes.get i =
    macroDot (q.sums.getD (8 * q.beat + i) []) ((List.range (q.cfg.kbm1 + 1)).map q.xa)
      (q.scales.getD (8 * q.beat + i) []) (if q.cfg.a4 then 2 else 6) 0 q.cfg.rm := by
  have hzero : zeroTok.lanes.get i = 0 := splat_get 0 hi
  rw [Pass.bareBeat, Pass.result, dataTok_get _ _ _ hi, if_pos (getLsbD_fullMask hi), Lanes.get_ofFn _ hi, hzero]

/-- A pass with its next beat sent. -/
def Pass.sent (q : Pass) : Pass := { q with beat := q.beat + 1, left := if q.x2 && q.beat % 2 = 0 then 0 else 1 }

/-- The state with a result beat sent and its pass gone on. -/
def State.beatSent (s : State) (k : Nat) (q : Pass) (rest : List Pass) : State :=
  (s.mxSend k q.outNum q.bareBeat).setPasses k (q.sent :: rest)

theorem State.beatSent_eng (s : State) (k : Nat) (q : Pass) (rest : List Pass) :
    ((s.beatSent k q rest).tile k).eng = { (s.tile k).eng with passes := q.sent :: rest } := by
  rw [State.beatSent, State.setPasses_tile, State.mxSend_tile]
  rfl

theorem Tile.endPass_eng (t : Tile) (id : Nat) : (t.endPass id true).eng = { t.eng with
    passes := t.eng.passes.filter fun q => q.id != id
    passesDone := (t.eng.passesDone + 1) % 2 ^ 48 } := rfl

section Beat

variable {s : State} {k : Nat} {q : Pass} {rest : List Pass} (hp : (s.tile k).eng.passes = q :: rest)
  (hphase : q.phase = 2) (hleft : q.left = 0) (hacc : q.acc = none)
  (hspace : ((s.tile k).mx.out q.outNum).space = true)
include hp hphase hleft hacc hspace

theorem exec_passBeat : exec (.passBeat k) s = .next ((
      let s1 := s.beatSent k q rest
      if q.beat = q.cfg.ncbm1 then s1.setTile k ((s1.tile k).endPass q.id true) else s1).markActive k) := by
  have hpasses : (((s.spendOut k .mx q.outNum).sendOut k .mx q.outNum q.bareBeat).tile k).eng.passes = q :: rest := by
    rw [← State.mxSend, State.mxSend_tile]
    exact hp
  have hconv : convLanes .wf zeroTok = some (zeroTok.lanes, 0) := rfl
  have hbeat : q.result zeroTok ⟨0xFF, q.psn || zeroTok.psn, q.gen⟩ = q.bareBeat := by
    rw [show zeroTok.psn = false from rfl, Bool.or_false]
    rfl
  rw [show exec (.passBeat k) s = execPassBeat k s from rfl, execPassBeat]
  simp only [hp, Tile.beatReady_bare hp hphase hleft hacc hspace, if_true, Pass.accInput, hacc, Option.map_none,
    Option.elim_none, Option.isSome_none, Bool.false_eq_true, if_false, hconv, youngerAt_zero, hbeat]
  simp only [Tile.modEng, hpasses, modFirst_cons, decide_true, if_true]
  rfl

/-- The beat is on its channel; its pass goes on, or is counted with its last beat. -/
theorem passBeat_next {ch : Nat} {y : Chan} (hchan : ((s.tile k).mx.out q.outNum).chan = some ch)
    (hy : Tab.get? s.chans ch = some y) (hids : ∀ p ∈ rest, p.id ≠ q.id) : ∃ t, exec (.passBeat k) s = .next t ∧
      Tab.get? t.chans ch = some (y.push (.tok { sentTok q.bareBeat with tag := y.tag } 0)) ∧ t.mem = s.mem ∧
      (t.tile k).eng = if q.beat = q.cfg.ncbm1 then
          { (s.tile k).eng with passes := rest, passesDone := ((s.tile k).eng.passesDone + 1) % 2 ^ 48 }
        else { (s.tile k).eng with passes := q.sent :: rest } := by
  have hsent := State.mxSend_chan q.bareBeat hchan hy
  have hmem : (s.beatSent k q rest).mem = s.mem := State.mxSend_mem ..
  have hrest : (q.sent :: rest).filter (fun p => p.id != q.id) = rest := by
    rw [List.filter_cons_of_neg (by simp [Pass.sent]), List.filter_eq_self]
    exact fun p hp => bne_iff_ne.mpr (hids p hp)
  refine ⟨_, exec_passBeat hp hphase hleft hacc hspace, ?_⟩
  rw [State.markActive_chans, State.markActive_mem, State.markActive_tile]
  dsimp only
  split
  · refine ⟨hsent, hmem, ?_⟩
    rw [State.tile_setTile, Tile.endPass_eng, State.beatSent_eng, hrest]
  · exact ⟨hsent, hmem, State.beatSent_eng ..⟩

end Beat

/-! ### The end of the engine's work (R238, R241, R247) -/

/-- Work that ends while the bank holds no access leaves the engine free, and the rest as it was. -/
theorem State.endWork_none {s : State} {k : Nat} (h : (s.tile k).eng.heldWrites = []) :
    (s.endWork k).tile k = (s.tile k).modEng (fun e => { e with work := none }) ∧ (s.endWork k).mem = s.mem := by
  have htile : (s.setTile k ((s.tile k).modEng fun e => { e with work := none })).tile k =
      (s.tile k).modEng fun e => { e with work := none } := State.tile_setTile ..
  obtain ⟨hkept, hmem⟩ := State.releaseHeld_none (k := k)
    (s := s.setTile k ((s.tile k).modEng fun e => { e with work := none })) (by rw [htile]; exact h)
  rw [State.endWork]
  split
  · exact ⟨htile, rfl⟩
  · exact ⟨hkept.trans htile, hmem⟩

theorem exec_mxBusyEnd {s : State} {k : Nat} (h : (s.tile k).eng.work = some (.recompute, 0) ∨
      (s.tile k).eng.work = some (.zeroing, 0) ∨ ∃ k0 m psn g n, (s.tile k).eng.work = some (.scrub k0 m psn g n, 0)) :
    exec (.mxBusyEnd k) s = .next (s.endWork k) := by
  rw [show exec (.mxBusyEnd k) s = execMxBusyEnd k s from rfl, execMxBusyEnd]
  rcases h with h | h | ⟨_, _, _, _, _, h⟩ <;> rw [h] <;> rfl

/-! ### The end of a scrub (R247) -/

/-- Results that work brings stay where they go, and under their tickets. -/
theorem PoolSt.fill_dests (x : PoolSt) (ticket due : Nat) (g : Dst → Option Tok) :
    (x.fill ticket due g).inflight.map (fun e => (e.dst, e.ticket)) = x.inflight.map fun e => (e.dst, e.ticket) := by
  rw [PoolSt.fill, List.map_map]
  refine List.map_congr_left fun e _ => ?_
  dsimp only [Function.comp_apply]
  split
  · split <;> rfl
  · rfl

/-- Each result of the ticket has the value that its destination takes. -/
theorem PoolSt.fill_each (x : PoolSt) (ticket due : Nat) (v : Dst → Tok) :
    ∀ e ∈ (x.fill ticket due fun d => some (v d)).inflight, e.ticket = ticket → e.val = some (v e.dst) := by
  intro e he hticket
  obtain ⟨e0, -, rfl⟩ := List.mem_map.mp he
  by_cases h : e0.ticket = ticket
  · simp only [if_pos h]
  · rw [if_neg h] at hticket
    exact absurd hticket h

theorem State.badRows_eq_nil {s : State} {k k0 m : Nat} : s.badRows k k0 m = [] ↔
    ∀ r, k0 ≤ r → r < k0 + m → ∑ i ∈ Finset.range 256, s.bankByte k r i = (s.tile k).eng.chkOf r := by
  simp only [State.badRows, List.filter_eq_nil_iff, List.mem_map, List.mem_range, State.bankRow_sum, bne_iff_ne, ne_eq,
    not_not]
  constructor
  · exact fun h r hlo hhi => h r ⟨r - k0, by omega, by omega⟩
  · rintro h r ⟨i, hi, rfl⟩
    exact h _ (by omega) (by omega)

/-- What a scrub sends to a destination (R247). -/
def scrubTok (bad : List Nat) (h : Hdr) (d : Dst) : Tok :=
  if d.isPred then predRes bad.isEmpty { h with mask := 0xFF }
  else dataTok (Lanes.ofList [w64 bad.length, (bad.head?).elim ones w64]) { h with mask := 3 } 1

theorem scrubTok_pred {bad : List Nat} (h : Hdr) {d : Dst} (hd : d.isPred = true) :
    (scrubTok bad h d).lanes.l0.getLsbD 0 = true ↔ bad = [] := by
  rw [scrubTok, if_pos hd, predRes_eq]
  exact (Bool.eq_iff_iff.mp (getLsbD_outcome bad.isEmpty)).trans List.isEmpty_iff

theorem scrubTok_count {bad : List Nat} (h : Hdr) {d : Dst} (hd : d.isPred = false) (hlen : bad.length < 2 ^ 64) :
    (scrubTok bad h d).lanes.l0 = 0 ↔ bad = [] := by
  have hlane : (scrubTok bad h d).lanes.get 0 = BitVec.ofNat 64 bad.length := by
    rw [scrubTok, if_neg (by rw [hd]; decide), dataTok_get _ _ _ (by decide)]
    exact if_pos (show (3 : BitVec 8).getLsbD 0 = true by decide)
  rw [show (scrubTok bad h d).lanes.l0 = (scrubTok bad h d).lanes.get 0 from rfl, hlane, ← List.length_eq_zero_iff,
    ← BitVec.toNat_inj, BitVec.toNat_ofNat, Nat.mod_eq_of_lt hlen]
  rfl

/-- The state in which a scrub's results have their values. -/
def State.scrubbed (s : State) (k k0 m : Nat) (h : Hdr) (n : Nat) : State :=
  s.modPool k .mx fun x => x.fill n (s.core (tileCore k)).cyc fun d => some (scrubTok (s.badRows k k0 m) h d)

theorem exec_scrubEnd {s : State} {k k0 m n : Nat} {psn : Bool} {g : BitVec 8}
    (h : (s.tile k).eng.work = some (.scrub k0 m psn g n, 1)) :
    exec (.scrubEnd k) s = .next (s.scrubbed k k0 m ⟨0xFF, psn, g⟩ n) := by
  rw [show exec (.scrubEnd k) s = execScrubEnd k s from rfl, execScrubEnd, h]
  rfl

/-! ### The obligation -/

/-- Settles O40: each step by what it makes of the first pass or of the engine's work, with the rows of the bank read byte
by byte (`State.bankRow_eq`) and the sums of a K-block added up row by row (`State.blockSums_eq`). -/
theorem matrixSteps : Obligations.MatrixSteps := by
  intro s k q rest e byteAt term
  refine ⟨fun hp hphase hleft hheld _ hcol => ?serial, fun hp hphase hscale => ?check,
    fun ch y hp hphase hleft hacc hspace hchan _ hy hids => ?beat, fun hwork hheld => ?busy,
    fun k0 m g n hfit hwork => ?scrub⟩
  case serial =>
    obtain ⟨t, hexec, hpasses, hmem⟩ := passSerialEnd_next hp hphase hleft hheld
    exact ⟨t, _, hexec, hpasses, rfl, rfl, hmem, fun i hi j hj =>
      ⟨s.latchPass_sum k q hi hj (by omega), s.latchPass_scale k q hi hj⟩, s.latchPass_badBlk k q⟩
  case check =>
    have heng := s.passChecked_tile k q rest
    cases hbad : q.badBlk with
    | none =>
      refine ⟨_, _, passCheck_good hp hphase hscale hbad, congrArg MxEng.passes heng, rfl, rfl, ?_, rfl, fun _ => ⟨?_, rfl⟩,
        fun j hj => nomatch hj⟩
      · rw [hbad]
      · rw [heng, hbad]
        rfl
    | some j =>
      obtain ⟨v, hexec, hcode, hw3⟩ := passCheck_bad hp hphase hscale hbad
      refine ⟨_, _, hexec, congrArg MxEng.passes heng, rfl, rfl, ?_, rfl, (fun h => nomatch h), ?_⟩
      · rw [hbad]
      · rintro _ ⟨rfl⟩
        rw [State.tile_post, heng, hbad]
        exact ⟨rfl, v, rfl, hcode, hw3⟩
  case beat =>
    obtain ⟨t, hexec, hsent, hmem, heng⟩ := passBeat_next hp hphase hleft hacc hspace hchan hy hids
    refine ⟨t, sentTok q.bareBeat, hexec, hsent, rfl, rfl, rfl, rfl, hmem, fun i hi => q.bareBeat_lane hi, fun hne => ?_,
      fun heq => ?_⟩
    · rw [heng, if_neg hne]
      exact ⟨_, rfl, rfl⟩
    · rw [heng, if_pos heq]
      exact ⟨rfl, rfl⟩
  case busy =>
    obtain ⟨htile, hmem⟩ := State.endWork_none hheld
    exact ⟨_, exec_mxBusyEnd hwork, congrArg Tile.eng htile, hmem⟩
  case scrub =>
    have htile : (s.scrubbed k k0 m ⟨0xFF, false, g⟩ n).tile k = (s.tile k).modPool .mx fun x =>
        x.fill n (s.core (tileCore k)).cyc fun d => some (scrubTok (s.badRows k k0 m) ⟨0xFF, false, g⟩ d) :=
      State.tile_modPool ..
    have hlen : (s.badRows k k0 m).length < 2 ^ 64 := by
      have hle : (s.badRows k k0 m).length ≤ m := (List.length_filter_le ..).trans (by simp)
      omega
    refine ⟨_, exec_scrubEnd hwork, ?_⟩
    rw [htile]
    refine ⟨rfl, rfl, PoolSt.fill_dests .., fun x hx hticket => ⟨_, PoolSt.fill_each _ _ _ _ x hx hticket, ?_, ?_⟩⟩
    · exact fun hd => (scrubTok_pred _ hd).trans State.badRows_eq_nil
    · exact fun hd => (scrubTok_count _ hd hlen).trans State.badRows_eq_nil

end Sys2Proof.Machine

/-! ## Grammar matrices (R249 to R251) -/

namespace Sys2Proof.Machine

open Sys2Proof

/-! ### Instructions that set the window, the input and the depth (R250) -/

section Window

variable {f : Fields} {s : State} {h : Hdr} {a b : Word}

theorem grld_does (hf : Fires .grld f s) (ha : (s.seen .grld f).intA = .ok a) (hb : (s.seen .grld f).intB = .ok b)
    (hh : (s.seen .grld f).header = .ok h) (hb1 : 1 ≤ b.toNat) (hab : a.toNat + b.toNat ≤ 8192) (halt : a.toNat < 8192) :
    Does .grld f s (inEng f fun e => { e with gstart := a.toNat, glen := b.toNat }) := by
  have hrange := inRange_passes (w := b) (l := 14) (by omega) hb1 hab
  refine does_of_issue (show exec (.grld f) s = execGrld f s from rfl) hf ?_
  simp only [ha, hb, hh, ok_bind, fld_top_eq_zero (l := 13) halt, fld_low_eq_toNat (h := 12) halt,
    fld_low_eq_toNat (w := b) (h := 13) (by omega), hrange, bne_self_eq_false, Bool.false_eq_true, if_false]
  rfl

theorem grdepth_does (hf : Fires .grdepth f s) (ha : (s.seen .grdepth f).intA = .ok a)
    (hh : (s.seen .grdepth f).header = .ok h) (ha1 : 1 ≤ a.toNat) (halt : a.toNat < 16) :
    Does .grdepth f s (inEng f fun e => { e with depthLim := a.toNat }) := by
  refine does_of_issue (show exec (.grdepth f) s = execGrdepth f s from rfl) hf ?_
  simp only [ha, hh, ok_bind, fld_top_eq_zero (l := 4) halt, fld_low_eq_toNat (h := 3) halt, bne_self_eq_false,
    Nat.one_le_iff_ne_zero.mp ha1, decide_false, Bool.or_self, Bool.false_eq_true, if_false]
  rfl

/-- What a beat of XV keeps of A (R250). -/
def xvTok (t : Tok) : Tok := { t with tag := 0, side := 0, kind := 0 }

/-- A beat of XV written. -/
def MxEng.putXv (e : MxEng) (i : Nat) (t : Tok) : MxEng := { e with xv := Tab.set e.xv i (xvTok t) }

theorem MxEng.xvBeat_putXv (e : MxEng) (i : Nat) (t : Tok) : (e.putXv i t).xvBeat i = xvTok t := Tab.get_set_self ..

theorem MxEng.xvBeat_putXv_ne (e : MxEng) {i j : Nat} (t : Tok) (h : j ≠ i) : (e.putXv i t).xvBeat j = e.xvBeat j :=
  Tab.get_set_ne _ _ _ h

/-- What GRX does: the old beat goes to D, and A takes its place. -/
def exchanged (c : Ctx) (i : Nat) (t : Tok) : Done :=
  { c.result (c.t.eng.xvBeat i) with tile := fun u => u.modEng fun e => e.putXv i t }

theorem engOnly_exchanged (c : Ctx) (i : Nat) (t : Tok) : EngOnly (exchanged c i t) fun e => e.putXv i t :=
  ⟨fun _ => rfl, rfl, rfl⟩

theorem grx_does {t : Tok} (hf : Fires .grx f s) (ha : (s.seen .grx f).convA .wf = .ok t)
    (hb : (s.seen .grx f).intB = .ok b) (hh : (s.seen .grx f).header = .ok h) (hblt : b.toNat < 128) :
    Does .grx f s (exchanged (s.seen .grx f) b.toNat t) := by
  refine does_of_issue (show exec (.grx f) s = execGrx f s from rfl) hf ?_
  simp only [ha, hb, hh, ok_bind, fld_top_eq_zero (l := 7) hblt, fld_low_eq_toNat (h := 6) hblt, bne_self_eq_false,
    Bool.false_eq_true, if_false]
  rfl

/-! ### GRRUN and GREMIT (R250, R251) -/

/-- The engine with a run started under a header. -/
def MxEng.startRun (e : MxEng) (rm n id slot time : Nat) (waits : List Nat) (h : Hdr) : MxEng :=
  { e with
    work := some (.grammar rm n id slot time waits, time + 1)
    gst := .running
    rules := []
    outRows := []
    ggen := h.gen
    gpsn := h.psn }

/-- What GRRUN does: the run starts, and its result waits for it. -/
def runDone (c : Ctx) (rm n : Nat) (run : Except GrFault GrRun) (h : Hdr) : Done :=
  let id := c.x.tickets + 1
  { c.plain with
    outs := outsOf c.f
    res := [⟨c.f.d, none, runCycles run + 1, id⟩]
    tile := fun t => (t.modPool .mx fun x => { x with tickets := id }).modEng fun e =>
      e.startRun rm n id c.slot (runCycles run) (runWaits run) h }

theorem engOnly_runDone (c : Ctx) (rm n : Nat) (run : Except GrFault GrRun) (h : Hdr) :
    EngOnly (runDone c rm n run h) fun e =>
      e.startRun rm n (c.x.tickets + 1) c.slot (runCycles run) (runWaits run) h := ⟨fun _ => rfl, rfl, rfl⟩

theorem grrun_does (hf : Fires .grrun f s) (ha : (s.seen .grrun f).intA = .ok a) (hb : (s.seen .grrun f).intB = .ok b)
    (hmode : (s.tile s.focus.tile).eng.mode = 2) (halt : a.toNat < 4) (hb1 : 1 ≤ b.toNat) (hble : b.toNat ≤ 1024)
    (hh : (s.seen .grrun f).headerOf ((s.seen .grrun f).headerToks ++
      (List.range ((b.toNat + 7) / 8)).map (s.tile s.focus.tile).eng.xvBeat) = .ok h) :
    Does .grrun f s (runDone (s.seen .grrun f) a.toNat b.toNat (s.grRun s.focus.tile a.toNat b.toNat) h) := by
  have hrange := inRange_passes (w := b) (l := 11) (by omega) hb1 hble
  refine does_of_issue (show exec (.grrun f) s = execGrrun f s from rfl) hf ?_
  simp only [ha, hb, ok_bind, show (s.seen .grrun f).t = s.tile s.focus.tile from rfl, hmode, ne_eq, not_true_eq_false,
    if_false, fld_top_eq_zero (l := 2) halt, fld_low_eq_toNat (h := 1) halt, fld_low_eq_toNat (w := b) (h := 10) (by omega),
    hrange, bne_self_eq_false, Bool.false_eq_true, hh]
  rfl

/-- What GREMIT does: the stream starts on its output, which it then owns. -/
def emitDone (f : Fields) (n out : Nat) : Done :=
  { consumed f with
    tile := fun t => (t.modEng fun e => { e with gremit := some ⟨n, out, f.md.getLsbD 0, 0, e.ggen, e.gpsn⟩ }).modPool .mx
      fun x => { x with outs := x.outs.modify out fun o => { o with owner := some .gremit } } }

theorem engOnly_emitDone (f : Fields) (n out : Nat) : EngOnly (emitDone f n out) fun e =>
    { e with gremit := some ⟨n, out, f.md.getLsbD 0, 0, e.ggen, e.gpsn⟩ } := ⟨fun _ => rfl, rfl, rfl⟩

theorem gremit_does {n : Fin 4} (hf : Fires .gremit f s) (ha : (s.seen .gremit f).intA = .ok a)
    (hh : (s.seen .gremit f).header = .ok h) (hd : f.d = .out n) (ha1 : 1 ≤ a.toNat) (hale : a.toNat ≤ 1024) :
    Does .gremit f s (emitDone f a.toNat n.val) := by
  have hrange := inRange_passes (w := a) (l := 11) (by omega) ha1 hale
  have hout : (outsOf f).headD 0 = n.val := by rw [outsOf, hd]; rfl
  refine does_of_issue (show exec (.gremit f) s = execGremit f s from rfl) hf ?_
  simp only [ha, hh, ok_bind, fld_low_eq_toNat (w := a) (h := 10) (by omega), hrange, hout, Bool.false_eq_true, if_false]
  rfl

end Window

/-! ### The end of a run (R251) -/

/-- The words that a run sends: rules, depth and words read. -/
def GrRun.words3 (r : GrRun) : List Word := [w64 r.count, w64 r.deepest, w64 r.words]

/-- The result of a run. -/
def GrRun.tok (r : GrRun) (e : MxEng) : Tok := dataTok (Lanes.ofList r.words3) ⟨7, e.gpsn, e.ggen⟩ 1

theorem Lanes.ofFn_congr {g g' : Nat → Word} (h : ∀ i < 8, g i = g' i) : Lanes.ofFn g = Lanes.ofFn g' := by
  simp [Lanes.ofFn, h]

/-- The three lanes of a run's result are valid, and the others are zero all the same. -/
theorem GrRun.tok_lanes (r : GrRun) (e : MxEng) : (r.tok e).lanes = Lanes.ofList r.words3 := by
  have hvalid : ∀ i < 8, (7 : BitVec 8).getLsbD i = decide (i < 3) := by decide
  rw [GrRun.tok, dataTok, Lanes.ofList]
  dsimp only
  refine Lanes.ofFn_congr fun i hi => ?_
  rw [hvalid i hi, Lanes.get_ofFn _ hi]
  by_cases h3 : i < 3
  · rw [if_pos (decide_eq_true h3)]
  · rw [if_neg (by simp [h3]), List.getD_eq_default]
    exact Nat.le_of_not_lt h3

/-- The engine with what a run has left, in the state that its end gives it. -/
def MxEng.runLeft (e : MxEng) (g : GrSt) (r : GrRun) : MxEng := { e with gst := g, rules := r.rules, outRows := r.outRows }

/-- The state in which a run's result has its value. -/
def State.runFilled (s : State) (k id : Nat) (t : Tok) : State :=
  s.modPool k .mx fun x => x.fill id (s.core (tileCore k)).cyc fun _ => some t

/-- The state in which a faulted run's result will never come. -/
def State.runDropped (s : State) (k id : Nat) : State :=
  s.modPool k .mx fun x => { x with inflight := x.inflight.filter fun r => r.ticket != id }

/-- A run over, with what it leaves of the engine. -/
def State.runOver (s : State) (k : Nat) (g : GrSt) (r : GrRun) : State :=
  (s.setTile k ((s.tile k).modEng fun e => e.runLeft g r)).endWork k

theorem State.runOver_tile {s : State} {k : Nat} (g : GrSt) (r : GrRun) (h : (s.tile k).eng.heldWrites = []) :
    (s.runOver k g r).tile k = (s.tile k).modEng (fun e => { e.runLeft g r with work := none }) ∧
      (s.runOver k g r).mem = s.mem := by
  have htile : (s.setTile k ((s.tile k).modEng fun e => e.runLeft g r)).tile k =
      (s.tile k).modEng fun e => e.runLeft g r := State.tile_setTile ..
  obtain ⟨hover, hmem⟩ := State.endWork_none (s := s.setTile k ((s.tile k).modEng fun e => e.runLeft g r)) (k := k)
    (by rw [htile]; exact h)
  exact ⟨hover.trans (by rw [htile]; rfl), hmem⟩

section RunEnd

variable {s : State} {k rm n id slot c left : Nat} {w : List Nat}
  (hwork : (s.tile k).eng.work = some (.grammar rm n id slot c w, left))
include hwork

theorem grammarRunEnd_completes {r : GrRun} (hrun : s.grRun k rm n = .ok r) (hleft : left = 1) :
    exec (.grammarRunEnd k) s = .next (s.runFilled k id (r.tok (s.tile k).eng)) := by
  subst hleft
  rw [show exec (.grammarRunEnd k) s = execGrammarRunEnd k s from rfl, execGrammarRunEnd]
  simp only [hwork, hrun, lt_irrefl, if_false, if_true]
  rfl

theorem grammarRunEnd_over {r : GrRun} (hrun : s.grRun k rm n = .ok r) (hleft : left = 0) :
    exec (.grammarRunEnd k) s = .next ((s.runFilled k id (r.tok (s.tile k).eng)).runOver k .done r) := by
  subst hleft
  rw [show exec (.grammarRunEnd k) s = execGrammarRunEnd k s from rfl, execGrammarRunEnd]
  simp only [hwork, hrun, Nat.not_lt_zero, zero_ne_one, if_false]
  rfl

theorem grammarRunEnd_faults {g : GrFault} (hrun : s.grRun k rm n = .error g) (hleft : left = 0) :
    exec (.grammarRunEnd k) s = .next (((s.runDropped k id).runOver k .faulted g.run).raise k .mx slot g.code
      (s.tile k).eng.ggen g.w3 g.w4 0) := by
  subst hleft
  rw [show exec (.grammarRunEnd k) s = execGrammarRunEnd k s from rfl, execGrammarRunEnd]
  simp only [hwork, hrun, Nat.not_lt_zero, zero_ne_one, if_false]
  rfl

end RunEnd

/-- A pool without a fault record stops with the one it takes (R340); memory and the rest of the tile stay. -/
theorem State.raise_stops {s : State} {k : Nat} {p : Pool} (h : ((s.tile k).pool p).frec = none) (slot code : Nat)
    (g : BitVec 8) (w3 w4 w5 : Word) : ∃ r : FaultRec, r.code = code ∧ r.w3 = w3 ∧ r.w4 = w4 ∧
      (s.raise k p slot code g w3 w4 w5).tile k = (s.tile k).modPool p (·.stop r) ∧
      (s.raise k p slot code g w3 w4 w5).mem = s.mem := by
  have hdeliver : ∀ (t : State) (r : FaultRec), (t.deliverFault k p r).tile k = t.tile k := by
    intro t r
    unfold State.deliverFault
    dsimp only
    split
    · rfl
    · split <;> simp [State.holdLaunch, State.report]
  refine ⟨⟨code, g, slot, w3, w4, w5, s.deliversNow k p g⟩, rfl, rfl, rfl, ?_, (keepsPorts_raise ..).mem⟩
  rw [State.raise, h, Option.isSome_none, if_neg Bool.false_ne_true]
  dsimp only
  split
  · rw [hdeliver, State.tile_modPool]
  · exact State.tile_modPool ..

/-! ### GREMIT beats (R250) -/

/-- The state with a beat of output rows sent. -/
def State.rowsSent (s : State) (k : Nat) (g : Gremit) : State := s.mxSend k g.out ((s.tile k).eng.rowBeat g)

theorem gremitBeat_next {s : State} {k : Nat} {g : Gremit} (hg : (s.tile k).eng.gremit = some g)
    (hspace : ((s.tile k).mx.out g.out).space = true) (hlast : 8 * g.beat < g.nrow) :
    ∃ t : Tile, exec (.gremitBeat k) s = .next (((s.rowsSent k g).setTile k t).markActive k) := by
  have hmore : g.beat < (g.nrow + 7) / 8 := by omega
  rw [show exec (.gremitBeat k) s = execGremitBeat k s from rfl, execGremitBeat]
  simp only [hg, hspace, Bool.not_true, Bool.false_eq_true, if_false, if_pos hmore]
  exact ⟨_, rfl⟩

theorem MxEng.rowBeat_lane (e : MxEng) (g : Gremit) {i : Nat} (hi : i < 8) :
    ((e.rowBeat g).mask.getLsbD i = true ↔ 8 * g.beat + i < g.nrow) ∧
      (8 * g.beat + i < g.nrow → (e.rowBeat g).lanes.get i = e.rowVal (8 * g.beat + i)) := by
  have hmask : (e.rowBeat g).mask.getLsbD i = decide (8 * g.beat + i < g.nrow) := getLsbD_maskOf _ hi
  refine ⟨by rw [hmask, decide_eq_true_iff], fun h => ?_⟩
  exact (dataTok_get _ _ _ hi).trans ((if_pos (hmask.trans (decide_eq_true h))).trans (Lanes.get_ofFn _ hi))

/-! ### The obligation -/

/-- Settles O41: each instruction by what its firing makes of the engine; the end of a run by its result, or its fault; a
beat of rows by the token that is sent. -/
theorem grammars : Obligations.Grammars := by
  intro f s h a b k
  refine ⟨fun ⟨hf, hh⟩ ha hb hb1 hab halt => ?grld, fun t ⟨hf, hh⟩ ha hb hblt => ?grx, fun ⟨hf, hh⟩ ha ha1 halt => ?grdepth,
    fun hf ha hb hmode halt hb1 hble hh => ?grrun, fun n ⟨hf, hh⟩ ha hd ha1 hale => ?gremit,
    fun rm n id slot c w left hwork => ⟨fun r hrun hleft hheld => ?ended, fun x hrun hleft hheld hrunning hfrec => ?faulted⟩,
    fun m ch y hm hspace hchan _ hy hlast => ?beat⟩
  case grld => exact (engOnly_inEng f _).leaves (grld_does hf ha hb hh hb1 hab halt)
  case grx =>
    obtain ⟨u, hexec, heng, hframe⟩ := (engOnly_exchanged ..).leaves (grx_does hf ha hb hh hblt)
    refine ⟨u, hexec, ?_, hframe⟩
    rw [heng]
    exact ⟨MxEng.xvBeat_putXv .., fun i hi => MxEng.xvBeat_putXv_ne _ _ hi⟩
  case grdepth => exact (engOnly_inEng f _).leaves (grdepth_does hf ha hh ha1 halt)
  case grrun =>
    obtain ⟨t, hexec, heng, hframe⟩ := (engOnly_runDone ..).leaves (grrun_does hf ha hb hmode halt hb1 hble hh)
    refine ⟨t, hexec, ?_, hframe⟩
    rw [heng]
    exact ⟨rfl, rfl, rfl, rfl, _, _, _, rfl⟩
  case gremit =>
    obtain ⟨t, hexec, heng, hframe⟩ := (engOnly_emitDone ..).leaves (gremit_does hf ha hh hd ha1 hale)
    exact ⟨t, hexec, congrArg MxEng.gremit heng, hframe⟩
  case ended =>
    have htile : (s.runFilled k id (r.tok (s.tile k).eng)).tile k = (s.tile k).modPool .mx fun x =>
        x.fill id (s.core (tileCore k)).cyc fun _ => some (r.tok (s.tile k).eng) := State.tile_modPool ..
    have hdests := PoolSt.fill_dests (s.tile k).mx id (s.core (tileCore k)).cyc fun _ => some (r.tok (s.tile k).eng)
    have hval := PoolSt.fill_val (s.tile k).mx id (s.core (tileCore k)).cyc (r.tok (s.tile k).eng)
    have hlanes := r.tok_lanes (s.tile k).eng
    rcases Nat.le_one_iff_eq_zero_or_eq_one.mp hleft with h0 | h1
    · obtain ⟨hover, hmem⟩ := State.runOver_tile .done r (s := s.runFilled k id (r.tok (s.tile k).eng)) (k := k)
        (by rw [htile]; exact hheld)
      refine ⟨_, grammarRunEnd_over hwork hrun h0, hmem, ?_⟩
      rw [hover, htile]
      exact ⟨hdests, fun x hx hid => ⟨_, hval x hx hid, hlanes⟩, fun h1 => by omega, fun _ => ⟨rfl, rfl, rfl⟩⟩
    · refine ⟨_, grammarRunEnd_completes hwork hrun h1, rfl, ?_⟩
      rw [htile]
      exact ⟨hdests, fun x hx hid => ⟨_, hval x hx hid, hlanes⟩, fun _ => rfl, fun h0 => by omega⟩
  case faulted =>
    have htile : (s.runDropped k id).tile k = (s.tile k).modPool .mx fun x =>
        { x with inflight := x.inflight.filter fun r => r.ticket != id } := State.tile_modPool ..
    obtain ⟨hover, hmem⟩ := State.runOver_tile .faulted x.run (s := s.runDropped k id) (k := k) (by rw [htile]; exact hheld)
    rw [htile] at hover
    obtain ⟨r, hcode, hw3, hw4, hstop, hmem'⟩ := State.raise_stops (s := (s.runDropped k id).runOver k .faulted x.run)
      (k := k) (p := .mx) (by rw [hover]; exact hfrec) slot x.code (s.tile k).eng.ggen x.w3 x.w4 0
    refine ⟨_, r, grammarRunEnd_faults hwork hrun hleft, ?_⟩
    rw [hstop, hover]
    refine ⟨rfl, rfl, rfl, fun y hy => ?_, hmem'.trans hmem, ?_, rfl, hcode, hw3, hw4⟩
    · exact bne_iff_ne.mp (List.mem_filter.mp hy).2
    · show (PoolSt.stop (s.tile k).mx r).run = .faulted
      rw [PoolSt.stop, hrunning]
      rfl
  case beat =>
    obtain ⟨t, hexec⟩ := gremitBeat_next hm hspace hlast
    refine ⟨_, sentTok ((s.tile k).eng.rowBeat m), hexec, ?_, rfl, rfl, rfl, ?_, fun i hi =>
      (s.tile k).eng.rowBeat_lane m hi⟩
    · rw [State.markActive_chans]
      exact State.mxSend_chan _ hchan hy
    · rw [State.markActive_mem]
      exact State.mxSend_mem ..

end Sys2Proof.Machine

/-! ## Requests of the memory instructions (R257, R260 to R265, R267, R271, R273, R328) -/

namespace Sys2Proof.Machine

open Sys2Proof

/-! ### Lanes and lists of accesses -/

/-- No lane from 8 on is valid, so that the lanes of a source read alike at every index. -/
theorem maskLanes_get_all (t : Tok) (i : Nat) : (maskLanes t).get i = laneRead t i := by
  by_cases hi : i < 8
  · exact maskLanes_get t hi
  · have hmask : t.mask.getLsbD i = false := BitVec.getLsbD_of_ge _ _ (Nat.le_of_not_lt hi)
    have hget : ∀ l : Lanes, l.get i = 0 := fun l => by
      obtain ⟨n, rfl⟩ : ∃ n, i = n + 8 := ⟨i - 8, by omega⟩
      rfl
    rw [hget, laneRead, hmask]
    rfl

theorem laneOf_eq_laneRead (t : Tok) (i : Nat) : laneOf t i = (laneRead t i).toNat := by
  rw [laneOf, maskLanes_get_all]

theorem error_bind {ε α β : Type} (e : ε) (g : α → Except ε β) : (Except.error e >>= g) = .error e := rfl

/-- A list whose items all pass is their values. -/
theorem mapM_passes {ε α β : Type} {g : α → Except ε β} {e : α → β} {l : List α} (h : ∀ i ∈ l, g i = .ok (e i)) :
    l.mapM g = .ok (l.map e) := by
  induction l with
  | nil => rfl
  | cons i rest ih =>
    rw [List.mapM_cons, h i (List.mem_cons_self ..), ih fun j hj => h j (List.mem_cons_of_mem _ hj)]
    rfl

theorem nodup_eraseDups {α : Type} [BEq α] [LawfulBEq α] (l : List α) : l.eraseDups.Nodup := by
  induction hn : l.length using Nat.strong_induction_on generalizing l with
  | _ n ih =>
    cases l with
    | nil => exact List.nodup_nil
    | cons a rest =>
      have hlen : (rest.filter fun b => !b == a).length < n :=
        (Nat.lt_succ_of_le (List.length_filter_le _ _)).trans_eq hn
      rw [List.eraseDups_cons, List.nodup_cons, List.mem_eraseDups]
      exact ⟨fun hmem => by simp at hmem, ih _ hlen _ rfl⟩

/-- A word's low bits with a number above them. -/
theorem w64_or_place_above {a l : Nat} (b : Nat) (ha : a < 2 ^ l) : w64 a ||| place b l = BitVec.ofNat 64 (a + b * 2 ^ l) := by
  rw [w64, place, ← BitVec.ofNat_or, Nat.or_comm, ← Nat.shiftLeft_eq, ← Nat.shiftLeft_add_eq_or_of_lt ha,
    Nat.shiftLeft_eq, Nat.add_comm]

/-! ### Address checks (R260, R281, R317, R330) -/

section Checks

variable {s : State} {c : Ctx} {sp w n : Nat}

theorem Ctx.noPsn_both (ha : c.a.psn = false) (hb : c.b.psn = false) : c.noPsn true true = .ok () := by
  rw [Ctx.noPsn, ha, hb]
  rfl

theorem Ctx.noPsn_first (ha : c.a.psn = false) : c.noPsn true false = .ok () := by
  rw [Ctx.noPsn, ha]
  rfl

theorem Ctx.noPsn_second (hb : c.b.psn = false) : c.noPsn false true = .ok () := by
  rw [Ctx.noPsn, hb]
  rfl

theorem State.inRange_passes (lane : Nat) (h : OnChip s c.k sp w n) : s.inRange c sp w n lane = .ok () := by
  obtain ⟨hsize, hgated⟩ := h
  have hon : (decide (sp = 1) && [w, w + n - 1].any fun v => (s.tile (scratchTile c.k v)).gated) = false := by
    by_cases hsp : sp = 1
    · obtain ⟨hfirst, hlast⟩ := hgated hsp
      simp [hfirst, hlast]
    · rw [decide_eq_false hsp, Bool.false_and]
  rw [State.inRange, if_neg (Nat.not_lt.mpr hsize), hon]
  rfl

/-- A word of a lane slice (R264). -/
theorem OnChip.slice {k : Nat} (h : w < 256) : OnChip s k 4 w 1 := ⟨h, fun h4 => absurd h4 (by decide)⟩

theorem State.inRange_beyond (lane : Nat) (h : spaceWords sp < w + n) :
    s.inRange c sp w n lane = .error (c.bankRange sp w 0 lane) := by
  rw [State.inRange, if_pos h]

/-- Word 3 of BANK_RANGE is the address with the space above it. -/
theorem Ctx.bankRange_first (hw : w < 2 ^ 32) (hsp : sp < 4) :
    c.bankRange sp w 0 0 = c.flt 0x60 (BitVec.ofNat 64 (w + sp * 2 ^ 32)) 0 0 := by
  rw [Ctx.bankRange, Nat.mod_eq_of_lt hw, Nat.mod_eq_of_lt hsp, w64_or_place_above sp hw,
    show place 0 36 = 0#64 from rfl, BitVec.or_zero]
  rfl

theorem State.beatOk_passes (h : OnChip s c.k sp w 8) (hw : w % 8 = 0) : s.beatOk c sp w = .ok () := by
  rw [State.beatOk, State.inRange_passes 0 h, ok_bind, hw]
  rfl

theorem State.beatOk_beyond (h : spaceWords sp < w + 8) : s.beatOk c sp w = .error (c.bankRange sp w 0 0) := by
  rw [State.beatOk, State.inRange_beyond 0 h]
  rfl

theorem State.beatOk_unaligned (h : OnChip s c.k sp w 8) (hw : w % 8 ≠ 0) :
    s.beatOk c sp w = .error (c.flt 0x61 (w64 w) 0 0) := by
  rw [State.beatOk, State.inRange_passes 0 h, ok_bind, if_pos (bne_iff_ne.mpr hw)]

theorem State.noKv_passes {ws : List Nat} (h : ∀ w ∈ ws, NoKvWord s c.k sp w) : s.noKv c sp ws = .ok () := by
  unfold State.noKv
  by_cases hsp : sp = 3
  · have hfind : (ws.find? fun w => ((s.die (tileDie c.k)).kvAt w).isSome) = none := by
      rw [List.find?_eq_none]
      intro w hw
      rw [h w hw hsp]
      exact Bool.false_ne_true
    rw [if_pos hsp, hfind]
  · rw [if_neg hsp]

theorem State.noKv_one (h : NoKvWord s c.k sp w) : s.noKv c sp [w] = .ok () :=
  State.noKv_passes fun v hv => by rwa [List.mem_singleton.mp hv]

/-- The words of a beat, and those of its valid lanes, are eight in a row. -/
theorem State.noKv_beat {l : List Nat} (hl : ∀ i ∈ l, i < 8) (h : ∀ i < 8, NoKvWord s c.k sp (w + i)) :
    s.noKv c sp (l.map (w + ·)) = .ok () :=
  State.noKv_passes fun v hv => by
    obtain ⟨i, hi, rfl⟩ := List.mem_map.mp hv
    exact h i (hl i hi)

theorem State.wordAccs_passes {lanes : List Nat} {addr : Nat → Nat}
    (h : ∀ i ∈ lanes, OnChip s c.k sp (addr i % 2 ^ 32) 1) :
    s.wordAccs c sp lanes addr = .ok (lanes.map fun i => ⟨i, sp, addr i % 2 ^ 32⟩) :=
  mapM_passes fun i hi => by simp only [State.inRange_passes i (h i hi), ok_bind]

theorem Ctx.globalAlign_passes {va m : Nat} (lane : Nat) (h : va % m = 0) : c.globalAlign va lane m = .ok () := by
  rw [Ctx.globalAlign, h]
  rfl

theorem Ctx.globalAccs_passes {lanes : List Nat} {addr : Nat → Nat} (h : ∀ i ∈ lanes, addr i % 2 ^ 52 % 8 = 0) :
    c.globalAccs lanes addr = .ok (lanes.map fun i => ⟨i, 5, addr i % 2 ^ 52⟩) :=
  mapM_passes fun i hi => by simp only [Ctx.globalAlign_passes i (h i hi), ok_bind]

theorem Ctx.noPoison_passes {a b : Bool} (ha : c.a.psn = false) (hb : c.b.psn = false) : c.noPoison a b = .ok () := by
  rw [Ctx.noPoison, ha, hb, Bool.and_false, Bool.and_false]
  rfl

end Checks

theorem maskList_eq (m : BitVec 8) : maskList m = lanesOf m := rfl

theorem mem_lanesOf {m : BitVec 8} {i : Nat} : i ∈ lanesOf m ↔ i < 8 ∧ m.getLsbD i = true := by
  rw [lanesOf, List.mem_filter, List.mem_range]

/-! ### A firing that takes a request place (R257) -/

@[simp] theorem State.seen_k (s : State) (o : Op) (f : Fields) : (s.seen o f).k = s.focus.tile := rfl

@[simp] theorem State.seen_o (s : State) (o : Op) (f : Fields) : (s.seen o f).o = o := rfl

@[simp] theorem State.seen_f (s : State) (o : Op) (f : Fields) : (s.seen o f).f = f := rfl

/-- Two bodies that agree on what the firing sees. -/
theorem issue_congr {o : Op} {f : Fields} {s : State} {body body' : Ctx → Except Flt Done}
    (hb : body (s.seen o f) = body' (s.seen o f)) : issue o f s body = issue o f s body' := by
  unfold issue
  dsimp only
  rw [hb]

/-- A body that ends in a request asks for it. -/
theorem asks_of_issue {o : Op} {f : Fields} {s : State} {h : Hdr} {body : Ctx → Except Flt Done} {ds : List Dst}
    {accs : List Acc} {beat : Bool} {dat opb res : Tok} (he : exec (o.mk f) s = issue o f s body) (hf : Fires o f s)
    (hb : body (s.seen o f) = .ok ((s.seen o f).request ((s.seen o f).req h accs beat dat opb res) ds)) :
    Asks o f s h ((s.seen o f).req h accs beat dat opb res) ds :=
  ⟨does_of_issue he hf hb, rfl, rfl, rfl, rfl, rfl, rfl, rfl, rfl⟩

/-! ### A beat loaded, and its faults (R260, R261, R265, R267) -/

/-- The beat that LD, LDF, LDE and FEQ address. -/
def Ctx.loadBeat (c : Ctx) : Nat := ((laneRead c.a 0).toNat + (laneRead c.b 0).toNat) % 2 ^ 32

/-- The request that they take. -/
def Ctx.beatReq (c : Ctx) (h : Hdr) : Req :=
  c.req h [⟨0, c.f.md.toNat % 4, c.loadBeat⟩] true zeroTok zeroTok
    (dataTok Lanes.zero { h with mask := 0xFF } (if c.o = .feq then 1 else 3))

/-- LD of a beat, LDF, LDE and FEQ as one: LD alone reads KV areas. -/
def State.beatLoad (s : State) (c : Ctx) : Except Flt Done := do
  let h ← c.header
  c.noPsn true true
  s.beatOk c (c.f.md.toNat % 4) c.loadBeat
  if c.o ≠ .ld then s.noKv c (c.f.md.toNat % 4) ((List.range 8).map (c.loadBeat + ·))
  .ok (c.request (c.beatReq h) [c.f.d])

section BeatLoad

variable {o : Op} {f : Fields} {s : State} {h : Hdr}

theorem exec_beatLoad (ho : o ∈ ([.ld, .ldf, .lde, .feq] : List Op)) (hmd : f.md.getLsbD 2 = false ∨ o = .feq) :
    exec (o.mk f) s = issue o f s s.beatLoad := by
  simp only [List.mem_cons, List.not_mem_nil, or_false] at ho
  rcases ho with rfl | rfl | rfl | rfl
  · have hbeat : f.md.getLsbD 2 = false := hmd.resolve_right (by decide)
    refine (show exec (.ld f) s = execLd f s from rfl).trans (issue_congr ?_)
    simp only [hbeat, Bool.false_eq_true, if_false, laneOf_eq_laneRead]
    rfl
  · refine (show exec (.ldf f) s = syncLoad .ldf f s from rfl).trans (issue_congr ?_)
    simp only [laneOf_eq_laneRead]
    rfl
  · refine (show exec (.lde f) s = syncLoad .lde f s from rfl).trans (issue_congr ?_)
    simp only [laneOf_eq_laneRead]
    rfl
  · refine (show exec (.feq f) s = execFeq f s from rfl).trans (issue_congr ?_)
    simp only [laneOf_eq_laneRead]
    rfl

variable (hh : (s.seen o f).header = .ok h)
include hh

theorem beatLoad_psnA (ha : (s.seen o f).a.psn = true) :
    s.beatLoad (s.seen o f) = .error ((s.seen o f).flt 0x65 (BitVec.ofNat 64 o.code) 0 0) := by
  rw [State.beatLoad, hh, ok_bind, Ctx.noPsn, ha]
  rfl

theorem beatLoad_psnB (ha : (s.seen o f).a.psn = false) (hb : (s.seen o f).b.psn = true) :
    s.beatLoad (s.seen o f) = .error ((s.seen o f).flt 0x65 (BitVec.ofNat 64 (o.code + 256)) 0 0) := by
  rw [State.beatLoad, hh, ok_bind, Ctx.noPsn, ha, hb]
  rfl

variable (ha : (s.seen o f).a.psn = false) (hb : (s.seen o f).b.psn = false)
include ha hb

/-- An address that fails its check stops the load. -/
theorem beatLoad_refused {e : Flt} (he : s.beatOk (s.seen o f) (f.md.toNat % 4) (s.seen o f).loadBeat = .error e) :
    s.beatLoad (s.seen o f) = .error e := by
  simp only [State.beatLoad, hh, ok_bind, Ctx.noPsn_both ha hb, State.seen_f, he]
  rfl

theorem beatLoad_asks (ho : o ∈ ([.ld, .ldf, .lde, .feq] : List Op)) (hmd : f.md.getLsbD 2 = false ∨ o = .feq)
    (hf : Fires o f s) (hw : (s.seen o f).loadBeat % 8 = 0)
    (hon : OnChip s s.focus.tile (f.md.toNat % 4) (s.seen o f).loadBeat 8)
    (hkv : o ≠ .ld → ∀ i < 8, NoKvWord s s.focus.tile (f.md.toNat % 4) ((s.seen o f).loadBeat + i)) :
    Asks o f s h ((s.seen o f).beatReq h) [f.d] := by
  refine asks_of_issue (exec_beatLoad ho hmd) hf ?_
  simp only [State.beatLoad, hh, ok_bind, Ctx.noPsn_both ha hb, State.seen_f, State.seen_o,
    State.beatOk_passes (c := s.seen o f) hon hw]
  by_cases hld : o = .ld
  · simp only [hld]
    rfl
  · simp only [ne_eq, hld, State.noKv_beat (c := s.seen o f) (fun i hi => List.mem_range.mp hi) (hkv hld)]
    rfl

end BeatLoad

/-- Settles O32: the checks of the address come one after the other, and the first that fails raises its fault. -/
theorem addressFaults : Obligations.AddressFaults := by
  intro o f s h ho hmd hf hh c k sp w stop
  have hstop : ∀ {code : Nat} {w3 : Word}, s.beatLoad c = .error (c.flt code w3 0 0) → stop code w3 :=
    next_raise (exec_beatLoad ho hmd) hf hh
  refine ⟨fun ha => hstop (beatLoad_psnA hh ha), fun ha hb => hstop (beatLoad_psnB hh ha hb), fun ha hb hsize => hstop ?_,
    fun ha hb hon hw => hstop (beatLoad_refused hh ha hb (State.beatOk_unaligned hon hw))⟩
  rw [← Ctx.bankRange_first (Nat.mod_lt _ (by decide)) (Nat.mod_lt _ (by decide))]
  exact beatLoad_refused hh ha hb (State.beatOk_beyond hsize)

/-! ### Loads of lanes, elements and nodes (R261 to R264) -/

section Loads

variable {f : Fields} {s : State} {h : Hdr}

theorem ld_asks (hf : Fires .ld f s) (hh : (s.seen .ld f).header = .ok h) (hmd : f.md.getLsbD 2 = true)
    (ha : (s.seen .ld f).a.psn = false) (hb : (s.seen .ld f).b.psn = false) (hon : ∀ i ∈ lanesOf (s.seen .ld f).a.mask,
      OnChip s s.focus.tile (f.md.toNat % 4)
        (((laneRead (s.seen .ld f).a i).toNat + (laneRead (s.seen .ld f).b 0).toNat) % 2 ^ 32) 1) :
    Asks .ld f s h ((s.seen .ld f).req h ((lanesOf (s.seen .ld f).a.mask).map fun i => ⟨i, f.md.toNat % 4,
      ((laneRead (s.seen .ld f).a i).toNat + (laneRead (s.seen .ld f).b 0).toNat) % 2 ^ 32⟩) false zeroTok zeroTok
      (bitsRes h (s.seen .ld f).a.mask)) [f.d] := by
  refine asks_of_issue (show exec (.ld f) s = execLd f s from rfl) hf ?_
  simp only [hh, ok_bind, Ctx.noPsn_both ha hb, hmd, if_true, laneOf_eq_laneRead, maskList_eq,
    State.wordAccs_passes (c := s.seen .ld f) hon]

theorem ldch_asks {n : Fin 8} (hn : f.a = .areg n) (hf : Fires .ldch f s) (hh : (s.seen .ldch f).header = .ok h)
    (ha : (s.seen .ldch f).a.psn = false) (hb : (s.seen .ldch f).b.psn = false)
    (hw : (laneRead (s.seen .ldch f).a 0).toNat % 2 ^ 32 % 8 = 0)
    (hon : OnChip s s.focus.tile (f.md.toNat % 4) ((laneRead (s.seen .ldch f).a 0).toNat % 2 ^ 32) 8) :
    Asks .ldch f s h ((s.seen .ldch f).req h
      [⟨0, f.md.toNat % 4, (laneRead (s.seen .ldch f).a 0).toNat % 2 ^ 32⟩] true zeroTok
      { (s.seen .ldch f).b with lanes := maskLanes (s.seen .ldch f).b } (bitsRes h 0xFF)) [f.d, .areg n] := by
  refine asks_of_issue (show exec (.ldch f) s = execLdch f s from rfl) hf ?_
  simp only [hh, ok_bind, Ctx.noPsn_both ha hb, laneOf_eq_laneRead,
    State.beatOk_passes (c := s.seen .ldch f) hon hw, hn]

theorem mem_elemWords {e v : Nat} {l : List Nat} : v ∈ elemWords e l ↔ ∃ i ∈ l, v = (e + i) / 2 := by
  rw [elemWords, List.mem_eraseDups, List.mem_map]
  exact ⟨fun ⟨i, hi, h⟩ => ⟨i, hi, h.symm⟩, fun ⟨i, hi, h⟩ => ⟨i, hi, h.symm⟩⟩

/-- Accesses of some words of a space. -/
theorem map_addr_words (sp : Nat) (ws : List Nat) : (ws.map fun w => (⟨0, sp, w⟩ : Acc)).map (·.addr) = ws := by
  rw [List.map_map]
  exact List.map_id _

theorem space_of_words {sp : Nat} {ws : List Nat} : ∀ x ∈ ws.map fun w => (⟨0, sp, w⟩ : Acc), x.space = sp := by
  intro x hx
  obtain ⟨w, -, rfl⟩ := List.mem_map.mp hx
  rfl

theorem ldx_asks (hf : Fires .ldx f s) (hh : (s.seen .ldx f).header = .ok h) (ha : (s.seen .ldx f).a.psn = false)
    (hb : (s.seen .ldx f).b.psn = false) {e : Nat}
    (he : ((laneRead (s.seen .ldx f).a 0).toNat + (laneRead (s.seen .ldx f).b 0).toNat) % 2 ^ 32 = e)
    (hon : OnChip s s.focus.tile (f.md.toNat % 4) (e / 2) ((e + 7) / 2 - e / 2 + 1)) :
    Asks .ldx f s h ((s.seen .ldx f).req h ((elemWords e (List.range 8)).map fun w => ⟨0, f.md.toNat % 4, w⟩) false
      zeroTok (elemTok e) (dataTok Lanes.zero { h with mask := 0xFF } (if f.md.getLsbD 2 then 1 else 2))) [f.d] := by
  refine asks_of_issue (show exec (.ldx f) s = execLdx f s from rfl) hf ?_
  simp only [hh, ok_bind, Ctx.noPsn_both ha hb, laneOf_eq_laneRead, he, State.elemsOk,
    State.inRange_passes (c := s.seen .ldx f) 0 hon]

theorem lls_asks (hf : Fires .lls f s) (hh : (s.seen .lls f).header = .ok h) (ha : (s.seen .lls f).a.psn = false)
    (hb : (s.seen .lls f).b.psn = false) (hlt : ∀ i ∈ lanesOf (s.seen .lls f).a.mask,
      ((laneRead (s.seen .lls f).a i).toNat + (laneRead (s.seen .lls f).b 0).toNat) % 2 ^ 32 < 256) :
    Asks .lls f s h ((s.seen .lls f).req h ((lanesOf (s.seen .lls f).a.mask).map fun i => ⟨i, 4,
      ((laneRead (s.seen .lls f).a i).toNat + (laneRead (s.seen .lls f).b 0).toNat) % 2 ^ 32⟩) false zeroTok zeroTok
      (bitsRes h (s.seen .lls f).a.mask)) [f.d] := by
  refine asks_of_issue (show exec (.lls f) s = execLls f s from rfl) hf ?_
  simp only [hh, ok_bind, Ctx.noPsn_both ha hb, laneOf_eq_laneRead, maskList_eq,
    State.sliceAccs, State.wordAccs_passes (c := s.seen .lls f) fun i hi => OnChip.slice (hlt i hi)]

end Loads

/-! ### Stores, full-empty bits and atomics (R261, R262, R264, R265, R267, R270) -/

section Stores

variable {f : Fields} {s : State} {h : Hdr}

/-- ST of a beat, STF and STE: the words checked for KV areas are those of the beat, or of its valid lanes. -/
theorem beatStore_asks {o : Op} (ho : o ∈ ([.st, .stf, .ste] : List Op)) (hmd : f.md.getLsbD 2 = false) (hf : Fires o f s)
    (hh : (s.seen o f).header = .ok h) (hb : (s.seen o f).b.psn = false) {w : Nat}
    (he : (laneRead (s.seen o f).b 0).toNat % 2 ^ 32 = w) (hw : w % 8 = 0) (hon : OnChip s s.focus.tile (f.md.toNat % 4) w 8)
    (hkv : ∀ i < 8, NoKvWord s s.focus.tile (f.md.toNat % 4) (w + i)) :
    Asks o f s h ((s.seen o f).req h (if (s.seen o f).a.mask = 0 then [] else [⟨0, f.md.toNat % 4, w⟩]) true (s.seen o f).a
      zeroTok zeroTok) [] := by
  have hpsn : (s.seen o f).noPsn false true = .ok () := Ctx.noPsn_second hb
  have hbeat : s.beatOk (s.seen o f) (f.md.toNat % 4) w = .ok () := State.beatOk_passes hon hw
  have hlanes : ∀ l : List Nat, (∀ i ∈ l, i < 8) → s.noKv (s.seen o f) (f.md.toNat % 4) (l.map (w + ·)) = .ok () :=
    fun l hl => State.noKv_beat hl hkv
  simp only [List.mem_cons, List.not_mem_nil, or_false] at ho
  rcases ho with rfl | rfl | rfl
  · refine asks_of_issue (show exec (.st f) s = execSt f s from rfl) hf ?_
    simp only [hh, ok_bind, hpsn, hmd, Bool.false_eq_true, if_false, laneOf_eq_laneRead, he, hbeat,
      hlanes _ fun i hi => mem_maskList_lt hi]
  · refine asks_of_issue (show exec (.stf f) s = syncStore .stf f s from rfl) hf ?_
    simp only [hh, ok_bind, hpsn, laneOf_eq_laneRead, he, hbeat, hlanes _ fun i hi => List.mem_range.mp hi]
  · refine asks_of_issue (show exec (.ste f) s = syncStore .ste f s from rfl) hf ?_
    simp only [hh, ok_bind, hpsn, laneOf_eq_laneRead, he, hbeat, hlanes _ fun i hi => List.mem_range.mp hi]

theorem st_asks (hf : Fires .st f s) (hh : (s.seen .st f).header = .ok h) (hmd : f.md.getLsbD 2 = true)
    (hb : (s.seen .st f).b.psn = false) (hon : ∀ i ∈ lanesOf ((s.seen .st f).a.mask &&& (s.seen .st f).b.mask),
      OnChip s s.focus.tile (f.md.toNat % 4) ((laneRead (s.seen .st f).b i).toNat % 2 ^ 32) 1 ∧
        NoKvWord s s.focus.tile (f.md.toNat % 4) ((laneRead (s.seen .st f).b i).toNat % 2 ^ 32)) :
    Asks .st f s h ((s.seen .st f).req h ((lanesOf ((s.seen .st f).a.mask &&& (s.seen .st f).b.mask)).map fun i =>
      ⟨i, f.md.toNat % 4, (laneRead (s.seen .st f).b i).toNat % 2 ^ 32⟩) false (s.seen .st f).a zeroTok zeroTok) [] := by
  refine asks_of_issue (show exec (.st f) s = execSt f s from rfl) hf ?_
  have hkv : s.noKv (s.seen .st f) (f.md.toNat % 4) (((lanesOf ((s.seen .st f).a.mask &&& (s.seen .st f).b.mask)).map
      fun i => (⟨i, f.md.toNat % 4, (laneRead (s.seen .st f).b i).toNat % 2 ^ 32⟩ : Acc)).map (·.addr)) = .ok () :=
    State.noKv_passes fun v hv => by
      simp only [List.mem_map, exists_exists_and_eq_and] at hv
      obtain ⟨i, hi, rfl⟩ := hv
      exact (hon i hi).2
  simp only [hh, ok_bind, Ctx.noPsn_second hb, hmd, if_true, laneOf_eq_laneRead,
    maskList_eq, State.wordAccs_passes (c := s.seen .st f) fun i hi => (hon i hi).1, hkv]

theorem stx_asks {t : Tok} (hf : Fires .stx f s) (hh : (s.seen .stx f).header = .ok h) (hb : (s.seen .stx f).b.psn = false)
    (hconv : (s.seen .stx f).convA .int = .ok t) {e : Nat} (he : (laneRead (s.seen .stx f).b 0).toNat % 2 ^ 32 = e)
    (hon : OnChip s s.focus.tile (f.md.toNat % 4) (e / 2) ((e + 7) / 2 - e / 2 + 1))
    (hkv : ∀ i < 8, NoKvWord s s.focus.tile (f.md.toNat % 4) ((e + i) / 2)) :
    Asks .stx f s h ((s.seen .stx f).req h ((elemWords e (lanesOf t.mask)).map fun w => ⟨0, f.md.toNat % 4, w⟩) false t
      (elemTok e) zeroTok) [] := by
  refine asks_of_issue (show exec (.stx f) s = execStx f s from rfl) hf ?_
  have hwords : s.noKv (s.seen .stx f) (f.md.toNat % 4) (elemWords e (lanesOf t.mask)) = .ok () :=
    State.noKv_passes fun v hv => by
      obtain ⟨i, hi, rfl⟩ := mem_elemWords.mp hv
      exact hkv i (mem_lanesOf.mp hi).1
  simp only [hconv, hh, ok_bind, Ctx.noPsn_second hb, laneOf_eq_laneRead, he,
    State.elemsOk, State.inRange_passes (c := s.seen .stx f) 0 hon, maskList_eq, hwords]

theorem sls_asks (hf : Fires .sls f s) (hh : (s.seen .sls f).header = .ok h) (hb : (s.seen .sls f).b.psn = false)
    (hlt : ∀ i ∈ lanesOf ((s.seen .sls f).a.mask &&& (s.seen .sls f).b.mask),
      (laneRead (s.seen .sls f).b i).toNat % 2 ^ 32 < 256) :
    Asks .sls f s h ((s.seen .sls f).req h ((lanesOf ((s.seen .sls f).a.mask &&& (s.seen .sls f).b.mask)).map fun i =>
      ⟨i, 4, (laneRead (s.seen .sls f).b i).toNat % 2 ^ 32⟩) false (s.seen .sls f).a zeroTok zeroTok) [] := by
  refine asks_of_issue (show exec (.sls f) s = execSls f s from rfl) hf ?_
  simp only [hh, ok_bind, Ctx.noPsn_second hb, laneOf_eq_laneRead, maskList_eq,
    State.sliceAccs, State.wordAccs_passes (c := s.seen .sls f) fun i hi => OnChip.slice (hlt i hi)]

theorem feclr_asks (hf : Fires .feclr f s) (hh : (s.seen .feclr f).header = .ok h) (ha : (s.seen .feclr f).a.psn = false)
    (hb : (s.seen .feclr f).b.psn = false) {w n : Nat} (hw : (laneRead (s.seen .feclr f).a 0).toNat % 2 ^ 32 = w)
    (hn : (laneRead (s.seen .feclr f).b 0).toNat = n) (h1 : 1 ≤ n) (hle : n ≤ 1024)
    (hon : OnChip s s.focus.tile (f.md.toNat % 4) w n)
    (hkv : ∀ i < n, NoKvWord s s.focus.tile (f.md.toNat % 4) (w + i)) :
    Asks .feclr f s h ((s.seen .feclr f).req h (((List.range n).map (w + ·)).map fun a => ⟨0, f.md.toNat % 4, a⟩) false
      zeroTok zeroTok zeroTok) [] := by
  refine asks_of_issue (show exec (.feclr f) s = execFeclr f s from rfl) hf ?_
  have hwords : s.noKv (s.seen .feclr f) (f.md.toNat % 4) ((List.range n).map (w + ·)) = .ok () :=
    State.noKv_passes fun v hv => by
      obtain ⟨i, hi, rfl⟩ := List.mem_map.mp hv
      exact hkv i (List.mem_range.mp hi)
  have hcount : (decide (n = 0) || decide (2048 ≤ n)) = false := by
    rw [decide_eq_false (by omega), decide_eq_false (by omega)]
    rfl
  simp only [hh, ok_bind, Ctx.noPsn_both ha hb, laneOf_eq_laneRead, hw, hn, hcount,
    Nat.mod_eq_of_lt (show n < 2048 by omega), Bool.false_eq_true, if_false,
    State.inRange_passes (c := s.seen .feclr f) 0 hon, hwords]

theorem atomCls_eq (md : BitVec 3) : atomCls md.toNat = if md = 7 then .wf else .int := by
  revert md
  decide

/-- The access of a lane of SATOM: a word of the space that bits 63:62 of its address name. -/
def satomAcc (t : Tok) (i : Nat) : Acc :=
  ⟨i, ((laneRead t i).extractLsb' 62 2).toNat, ((laneRead t i).extractLsb' 0 32).toNat⟩

theorem satom_asks {t : Tok} (hf : Fires .satom f s) (hh : (s.seen .satom f).header = .ok h)
    (ha : (s.seen .satom f).a.psn = false) (hconv : (s.seen .satom f).convB (if f.md = 7 then .wf else .int) = .ok t)
    (hon : ∀ i ∈ lanesOf ((s.seen .satom f).a.mask &&& (s.seen .satom f).b.mask),
      (laneRead (s.seen .satom f).a i).extractLsb' 32 30 = 0 ∧
        OnChip s s.focus.tile (satomAcc (s.seen .satom f).a i).space (satomAcc (s.seen .satom f).a i).addr 1 ∧
        NoKvWord s s.focus.tile (satomAcc (s.seen .satom f).a i).space (satomAcc (s.seen .satom f).a i).addr) :
    Asks .satom f s h ((s.seen .satom f).req h ((lanesOf ((s.seen .satom f).a.mask &&& (s.seen .satom f).b.mask)).map
      (satomAcc (s.seen .satom f).a)) false t zeroTok (dataTok Lanes.zero
        { h with mask := (s.seen .satom f).a.mask &&& (s.seen .satom f).b.mask } (if f.md = 7 then 0 else 1))) [f.d] := by
  refine asks_of_issue (show exec (.satom f) s = execSatom f s from rfl) hf ?_
  simp only [atomCls_eq, hconv, hh, ok_bind, Ctx.noPsn_first ha, maskList_eq,
    maskLanes_get_all]
  rw [mapM_passes (e := satomAcc (s.seen .satom f).a) fun i hi => ?_]
  · rfl
  · obtain ⟨hmid, hrange, hkv⟩ := hon i hi
    have h62 : fld (laneRead (s.seen .satom f).a i) 63 62 = (satomAcc (s.seen .satom f).a i).space :=
      fld_extract _ 63 62 (by decide)
    have h0 : fld (laneRead (s.seen .satom f).a i) 31 0 = (satomAcc (s.seen .satom f).a i).addr :=
      fld_extract _ 31 0 (by decide)
    have h32 : fld (laneRead (s.seen .satom f).a i) 61 32 = 0 :=
      (fld_extract _ 61 32 (by decide)).trans (congrArg BitVec.toNat hmid)
    simp only [h62, h0, h32, bne_self_eq_false, Bool.false_eq_true, if_false, ok_bind,
      State.inRange_passes (c := s.seen .satom f) i hrange, State.noKv_one (c := s.seen .satom f) hkv]
    rfl

end Stores

/-- Settles O31: each instruction passes its checks and asks for the accesses that its operands name. -/
theorem onChipRequests : Obligations.OnChipRequests := by
  intro f s h k sp a b ready noPsnA noPsnB
  refine ⟨?beats, ?lanes, ?nodes, ?halves, ?slices, ?stores, ?laneStores, ?halfStores, ?sliceStores, ?bits, ?atomics⟩
  case beats =>
    intro o ho hmd ⟨hf, hh⟩ ha hb w hw hon hkv
    exact ⟨_, beatLoad_asks hh ha hb ho hmd hf hw hon hkv, rfl, rfl⟩
  case lanes =>
    intro ⟨hf, hh⟩ hmd ha hb w hon
    exact ⟨_, ld_asks hf hh hmd ha hb hon, rfl, rfl⟩
  case nodes =>
    intro n hn ⟨hf, hh⟩ ha hb w hw hon
    exact ⟨_, ldch_asks hn hf hh ha hb hw hon, rfl, rfl, fun i _ => maskLanes_get_all _ i⟩
  case halves =>
    intro ⟨hf, hh⟩ ha hb e hon
    refine ⟨_, ldx_asks hf hh ha hb rfl hon, space_of_words, ?_, fun w => ?_⟩
    · exact (map_addr_words ..).symm ▸ nodup_eraseDups _
    · refine (iff_of_eq (congrArg (w ∈ ·) (map_addr_words ..))).trans (mem_elemWords.trans ?_)
      simp only [List.mem_range]
      rfl
  case slices =>
    intro ⟨hf, hh⟩ ha hb w hlt
    exact ⟨_, lls_asks hf hh ha hb hlt, rfl⟩
  case stores =>
    intro o ho hmd ⟨hf, hh⟩ hb w hw hon hkv
    exact ⟨_, beatStore_asks ho hmd hf hh hb rfl hw hon hkv, rfl, rfl, rfl⟩
  case laneStores =>
    intro ⟨hf, hh⟩ hmd hb l w hon
    exact ⟨_, st_asks hf hh hmd hb hon, rfl, rfl, rfl⟩
  case halfStores =>
    intro t ⟨hf, hh⟩ hb hconv e hon hkv
    refine ⟨_, stx_asks hf hh hb hconv rfl hon hkv, rfl, space_of_words, fun w => ?_⟩
    refine (iff_of_eq (congrArg (w ∈ ·) (map_addr_words ..))).trans (mem_elemWords.trans ?_)
    simp only [mem_lanesOf, and_assoc]
    rfl
  case sliceStores =>
    intro ⟨hf, hh⟩ hb l hlt
    exact ⟨_, sls_asks hf hh hb hlt, rfl, rfl⟩
  case bits =>
    intro ⟨hf, hh⟩ ha hb w n h1 hle hon hkv
    exact ⟨_, feclr_asks hf hh ha hb rfl rfl h1 hle hon hkv, List.map_map⟩
  case atomics =>
    intro t ⟨hf, hh⟩ ha hconv l x q w hon
    exact ⟨_, satom_asks hf hh ha hconv hon, rfl, rfl⟩

/-! ### Global accesses (R271, R273) -/

section Global

variable {f : Fields} {s : State} {h0 h : Hdr} {u : TsBind}

/-- A firing of a global memory instruction has the unit that TSGET bound, and the header that its GEN joins. -/
structure GlobalReady (o : Op) (f : Fields) (s : State) (h0 h : Hdr) (u : TsBind) : Prop where
  fires : Fires o f s
  header : (s.seen o f).header = .ok h0
  unit : s.boundUnit (s.seen o f) = .ok u
  joins : (s.seen o f).globalHdr h0 u = .ok h

theorem gld_beat_asks (hr : GlobalReady .gld f s h0 h u) (ha : (s.seen .gld f).a.psn = false)
    (hb : (s.seen .gld f).b.psn = false) (hmd : f.md.getLsbD 2 = false) {va : Nat}
    (he : ((laneRead (s.seen .gld f).a 0).toNat + (laneRead (s.seen .gld f).b 0).toNat) % 2 ^ 52 = va) (hva : va % 64 = 0) :
    Asks .gld f s h ((s.seen .gld f).req h [⟨0, 5, va⟩] true zeroTok zeroTok (bitsRes h 0xFF)) [f.d] := by
  refine asks_of_issue (show exec (.gld f) s = execGld f s from rfl) hr.fires ?_
  simp only [hr.header, hr.unit, hr.joins, ok_bind, Ctx.noPsn_both ha hb, hmd, Bool.false_eq_true, if_false,
    laneOf_eq_laneRead, he, Ctx.globalAlign_passes 0 hva]

theorem gld_lanes_asks (hr : GlobalReady .gld f s h0 h u) (ha : (s.seen .gld f).a.psn = false)
    (hb : (s.seen .gld f).b.psn = false) (hmd : f.md.getLsbD 2 = true) (hva : ∀ i ∈ lanesOf (s.seen .gld f).a.mask,
      ((laneRead (s.seen .gld f).a i).toNat + (laneRead (s.seen .gld f).b 0).toNat) % 2 ^ 52 % 8 = 0) :
    Asks .gld f s h ((s.seen .gld f).req h ((lanesOf (s.seen .gld f).a.mask).map fun i => ⟨i, 5,
      ((laneRead (s.seen .gld f).a i).toNat + (laneRead (s.seen .gld f).b 0).toNat) % 2 ^ 52⟩) false zeroTok zeroTok
      (bitsRes h (s.seen .gld f).a.mask)) [f.d] := by
  refine asks_of_issue (show exec (.gld f) s = execGld f s from rfl) hr.fires ?_
  simp only [hr.header, hr.unit, hr.joins, ok_bind, Ctx.noPsn_both ha hb, hmd, if_true, laneOf_eq_laneRead, maskList_eq,
    Ctx.globalAccs_passes (c := s.seen .gld f) hva]

theorem gst_beat_asks (hr : GlobalReady .gst f s h0 h u) (hb : (s.seen .gst f).b.psn = false)
    (hmd : f.md.getLsbD 2 = false) {va : Nat} (he : (laneRead (s.seen .gst f).b 0).toNat % 2 ^ 52 = va) (hva : va % 64 = 0) :
    Asks .gst f s h ((s.seen .gst f).req h (if (s.seen .gst f).a.mask = 0 then [] else [⟨0, 5, va⟩]) true (s.seen .gst f).a
      zeroTok zeroTok) [] := by
  refine asks_of_issue (show exec (.gst f) s = execGst f s from rfl) hr.fires ?_
  simp only [hr.header, hr.unit, hr.joins, ok_bind, Ctx.noPsn_second hb, hmd, Bool.false_eq_true, if_false,
    laneOf_eq_laneRead, he, Ctx.globalAlign_passes 0 hva]

theorem gst_lanes_asks (hr : GlobalReady .gst f s h0 h u) (hb : (s.seen .gst f).b.psn = false)
    (hmd : f.md.getLsbD 2 = true) (hva : ∀ i ∈ lanesOf ((s.seen .gst f).a.mask &&& (s.seen .gst f).b.mask),
      (laneRead (s.seen .gst f).b i).toNat % 2 ^ 52 % 8 = 0) :
    Asks .gst f s h ((s.seen .gst f).req h ((lanesOf ((s.seen .gst f).a.mask &&& (s.seen .gst f).b.mask)).map fun i =>
      ⟨i, 5, (laneRead (s.seen .gst f).b i).toNat % 2 ^ 52⟩) false (s.seen .gst f).a zeroTok zeroTok) [] := by
  refine asks_of_issue (show exec (.gst f) s = execGst f s from rfl) hr.fires ?_
  simp only [hr.header, hr.unit, hr.joins, ok_bind, Ctx.noPsn_second hb, hmd, if_true, laneOf_eq_laneRead, maskList_eq,
    Ctx.globalAccs_passes (c := s.seen .gst f) hva]

theorem gatom_asks {t : Tok} (hr : GlobalReady .gatom f s h0 h u) (ha : (s.seen .gatom f).a.psn = false)
    (hconv : (s.seen .gatom f).convB (if f.md = 7 then .wf else .int) = .ok t)
    (hva : ∀ i ∈ lanesOf ((s.seen .gatom f).a.mask &&& (s.seen .gatom f).b.mask),
      (laneRead (s.seen .gatom f).a i).toNat % 2 ^ 52 % 8 = 0) :
    Asks .gatom f s h ((s.seen .gatom f).req h ((lanesOf ((s.seen .gatom f).a.mask &&& (s.seen .gatom f).b.mask)).map
      fun i => ⟨i, 5, (laneRead (s.seen .gatom f).a i).toNat % 2 ^ 52⟩) false t zeroTok (dataTok Lanes.zero
        { h with mask := (s.seen .gatom f).a.mask &&& (s.seen .gatom f).b.mask } (if f.md = 7 then 0 else 1))) [f.d] := by
  refine asks_of_issue (show exec (.gatom f) s = execGatom f s from rfl) hr.fires ?_
  simp only [atomCls_eq, hconv, hr.header, hr.unit, hr.joins, ok_bind, Ctx.noPsn_first ha, laneOf_eq_laneRead, maskList_eq,
    Ctx.globalAccs_passes (c := s.seen .gatom f) hva]

end Global

/-! ### KV rows (R317, R328) -/

section Rows

variable {f : Fields} {s : State} {h : Hdr} {x y : Word}

/-- The operands of KVROW_CFG are those of an area that R328 admits. -/
def rowsDefined (h : Hdr) (x y : Word) : Prop :=
  h.gen = 0 ∧ x.extractLsb' 26 38 = 0 ∧ x.getLsbD 23 = false ∧ x.extractLsb' 0 3 = 0 ∧ y.extractLsb' 22 2 = 0 ∧
    y.extractLsb' 48 16 = 0 ∧ 1 ≤ (y.extractLsb' 0 16).toNat ∧ (y.extractLsb' 0 16).toNat ≤ 4096 ∧
    (x.extractLsb' 0 23).toNat + 2 * ((y.extractLsb' 16 6).toNat + 1) * (y.extractLsb' 0 16).toNat ≤ 2 ^ 23

theorem rowsDefined_passes (hd : rowsDefined h x y) :
    (h.gen != 0 || fld x 23 23 != 0 || fld x 63 26 != 0 || fld y 23 22 != 0 || fld y 63 48 != 0 || fld x 2 0 != 0 ||
      decide (fld y 15 0 = 0) || decide (4096 < fld y 15 0) ||
      decide (2 ^ 23 < fld x 22 0 + 2 * (fld y 21 16 + 1) * fld y 15 0)) = false := by
  obtain ⟨hgen, hx26, hx23, hx0, hy22, hy48, h1, hle, hsize⟩ := hd
  have hfld : ∀ (w : Word) (hi lo n : Nat), lo ≤ hi → hi + 1 - lo = n → fld w hi lo = (w.extractLsb' lo n).toNat :=
    fun w hi lo n hlo hn => hn ▸ fld_extract w hi lo hlo
  have hbit : fld x 23 23 = 0 := fld_eq_zero_iff.mpr fun i hi => by
    obtain rfl : i = 0 := by omega
    exact hx23
  rw [hgen, hbit, hfld x 63 26 38 (by decide) rfl, hfld y 23 22 2 (by decide) rfl, hfld y 63 48 16 (by decide) rfl,
    hfld x 2 0 3 (by decide) rfl, hfld y 15 0 16 (by decide) rfl, hfld x 22 0 23 (by decide) rfl,
    hfld y 21 16 6 (by decide) rfl, hx26, hx0, hy22, hy48, decide_eq_false (by omega), decide_eq_false (by omega),
    decide_eq_false (by omega)]
  rfl

theorem kvrowCfg_asks (hf : Fires .kvrowCfg f s) (hh : (s.seen .kvrowCfg f).header = .ok h)
    (hx : (s.seen .kvrowCfg f).intA = .ok x) (hy : (s.seen .kvrowCfg f).intB = .ok y)
    (ha : (s.seen .kvrowCfg f).a.psn = false) (hb : (s.seen .kvrowCfg f).b.psn = false) (hd : rowsDefined h x y) :
    Asks .kvrowCfg f s h ((s.seen .kvrowCfg f).req h [⟨0, 6, kvSlotKey (fld x 25 24) 0⟩] false zeroTok (pairTok x y)
      zeroTok) [] := by
  refine asks_of_issue (show exec (.kvrowCfg f) s = execKvrowCfg f s from rfl) hf ?_
  simp only [hx, hy, hh, ok_bind, Ctx.noPoison_passes ha hb, rowsDefined_passes hd, Bool.false_eq_true, if_false]

theorem kvrowOpen_asks (hf : Fires .kvrowOpen f s) (hh : (s.seen .kvrowOpen f).header = .ok h)
    (hx : (s.seen .kvrowOpen f).intA = .ok x) (hy : (s.seen .kvrowOpen f).intB = .ok y)
    (ha : (s.seen .kvrowOpen f).a.psn = false) (hb : (s.seen .kvrowOpen f).b.psn = false) :
    Asks .kvrowOpen f s h ((s.seen .kvrowOpen f).req h [⟨0, 6, kvSlotKey (fld x 25 24) (fld x 15 0)⟩] false zeroTok
      (pairTok x y) zeroTok) [] := by
  refine asks_of_issue (show exec (.kvrowOpen f) s = execKvrowOpen f s from rfl) hf ?_
  simp only [hx, hy, hh, ok_bind, Ctx.noPoison_passes ha hb]

theorem kvrowPut_asks (hf : Fires .kvrowPut f s) (hh : (s.seen .kvrowPut f).header = .ok h)
    (hy : (s.seen .kvrowPut f).intB = .ok y) (ha : (s.seen .kvrowPut f).a.psn = false)
    (hb : (s.seen .kvrowPut f).b.psn = false) :
    Asks .kvrowPut f s h ((s.seen .kvrowPut f).req h [⟨0, 6, kvSlotKey (fld y 25 24) (fld y 15 0)⟩] false
      (s.seen .kvrowPut f).a (pairTok (maskLanes (s.seen .kvrowPut f).a).l0 y) zeroTok) [] := by
  refine asks_of_issue (show exec (.kvrowPut f) s = execKvrowPut f s from rfl) hf ?_
  simp only [hy, hh, ok_bind, Ctx.noPoison_passes ha hb]

end Rows

/-- Settles O34: with its unit bound a global access passes its alignment check; a KVROW asks for one access of its row. -/
theorem globalAndRowRequests : Obligations.GlobalAndRowRequests := by
  intro f s h0 h u a b ready
  have hready : ∀ o, ready o → GlobalReady o f s h0 h u := fun o ⟨hf, hh, hu, hj⟩ => ⟨hf, hh, hu, hj⟩
  refine ⟨?loads, ?stores, ?atomics, ?rows⟩
  case loads =>
    intro hr ha hb
    exact ⟨fun hmd hva => ⟨_, gld_beat_asks (hready _ hr) ha hb hmd rfl hva, rfl, rfl⟩,
      fun hmd hva => ⟨_, gld_lanes_asks (hready _ hr) ha hb hmd hva, rfl⟩⟩
  case stores =>
    intro hr hb l
    exact ⟨fun hmd hva => ⟨_, gst_beat_asks (hready _ hr) hb hmd rfl hva, rfl, rfl⟩,
      fun hmd hva => ⟨_, gst_lanes_asks (hready _ hr) hb hmd hva, rfl, rfl⟩⟩
  case atomics =>
    intro t hr ha hconv l hva
    exact ⟨_, gatom_asks (hready _ hr) ha hconv hva, rfl, rfl⟩
  case rows =>
    intro o x y ho hf hh hx hy ha hb hcfg
    simp only [List.mem_cons, List.not_mem_nil, or_false] at ho
    rcases ho with rfl | rfl | rfl
    · exact ⟨_, _, kvrowCfg_asks hf hh (hx (by decide)) hy ha hb (hcfg rfl), rfl, rfl⟩
    · exact ⟨_, _, kvrowOpen_asks hf hh (hx (by decide)) hy ha hb, rfl, rfl⟩
    · exact ⟨_, _, kvrowPut_asks hf hh hy ha hb, rfl, rfl⟩

end Sys2Proof.Machine

/-! ## What a pool reports, and how it pauses and stops (R279, R280, R348) -/

namespace Sys2Proof.Machine

open Sys2Proof

/-! ### Events of a pool (R279) -/

/-- A pool's events stay as they are when it fires. -/
theorem PoolSt.fire_evts (x : PoolSt) (c : Ctx) (d : Done) : (x.fire c d).evts = x.evts := by
  have h := congrArg PoolSt.evts (PoolSt.fire_rest x c d)
  exact h

theorem PoolSt.fire_run (x : PoolSt) (c : Ctx) (d : Done) : (x.fire c d).run = x.run := by
  have h := congrArg PoolSt.run (PoolSt.fire_rest x c d)
  exact h

/-- GEN 0 needs no ratification. -/
theorem asRatified_zero (rs : List (BitVec 8)) : asRatified rs 0 = 0 := by
  unfold asRatified
  split <;> rfl

/-- Pool events put in place. -/
def State.withEvts (s : State) (k : Nat) (p : Pool) (es : List HeldEvt) : State := s.modPool k p fun x => { x with evts := es }

theorem State.withEvts_pool (s : State) (k : Nat) (p : Pool) (es : List HeldEvt) :
    ((s.withEvts k p es).tile k).pool p = { (s.tile k).pool p with evts := es } := by
  rw [State.withEvts, State.tile_modPool, Tile.pool_modPool]

/-- The event that an EVT posts. -/
def State.poolEvent (s : State) (k : Nat) (p : Pool) (e : HeldEvt) : Event :=
  mkEvent s 0x64 ((s.blockOf k).map (·.lseq)) ((s.blockOf k).elim 0 (·.job)) (s.placeOf k p e.slot) e.w3 e.w4
    (w64 e.gen.toNat) 0 0

theorem State.postHeld_room {s : State} (h : 2 * s.evq.held.length ≤ 4096) (k : Nat) (p : Pool) (e : HeldEvt) :
    s.postHeld k p e = s.post (s.poolEvent k p e) :=
  if_neg (Nat.not_lt.mpr (show s.evq.held.length ≤ 4096 / 2 by omega))

/-- An event of GEN 0, alone in its pool, is posted at once. -/
theorem State.evt_eq_post {s : State} {k : Nat} {p : Pool} {e : HeldEvt} (hevts : ((s.tile k).pool p).evts = [])
    (hgen : e.gen = 0) (hroom : 2 * s.evq.held.length ≤ 4096) :
    s.evt k p e = ((s.withEvts k p [e]).withEvts k p []).post (((s.withEvts k p [e]).withEvts k p []).poolEvent k p e) := by
  have hpool := s.withEvts_pool k p [e]
  have hjoin : (s.modPool k p fun x => { x with evts := x.evts ++ [e] }) = s.withEvts k p [e] := by
    have hq : ((s.tile k).pool p).evts ++ [e] = [e] := by rw [hevts, List.nil_append]
    rw [State.withEvts, State.modPool, State.modPool, Tile.modPool, Tile.modPool, hq]
  rw [← State.postHeld_room (show 2 * ((s.withEvts k p [e]).withEvts k p []).evq.held.length ≤ 4096 from hroom), State.evt,
    hjoin, hpool]
  simp only [List.length_singleton, State.flushEvts, hpool, hgen, asRatified_zero, if_true]
  rfl

/-- It joins the events held, and leaves how the pool runs and memory. -/
theorem State.evt_alone {s : State} {k : Nat} {p : Pool} {e : HeldEvt} (hevts : ((s.tile k).pool p).evts = [])
    (hgen : e.gen = 0) (hroom : 2 * s.evq.held.length ≤ 4096) :
    ∃ v : Event, (s.evt k p e).evq.held = s.evq.held ++ [v] ∧ v.code = 0x64 ∧ v.w3 = e.w3 ∧ v.w4 = e.w4 ∧ v.w5 = 0 ∧
      (((s.evt k p e).tile k).pool p).run = ((s.tile k).pool p).run ∧ (s.evt k p e).mem = s.mem := by
  rw [State.evt_eq_post hevts hgen hroom]
  refine ⟨_, rfl, rfl, rfl, rfl, congrArg (fun g : BitVec 8 => w64 g.toNat) hgen, ?_, rfl⟩
  rw [State.tile_post, State.withEvts_pool, State.withEvts_pool]

/-- The event that an EVT leaves in its pool. -/
def evtOf (c : Ctx) (g : BitVec 8) : HeldEvt := ⟨g, laneRead c.a 0, laneRead c.b 0, c.slot⟩

section Reports

variable {f : Fields} {s : State} {h : Hdr}

theorem evt_next (hf : Fires .evt f s) (hh : (s.seen .evt f).header = .ok h) :
    exec (.evt f) s = .next ((s.commit (s.seen .evt f) (consumed f)).evt s.focus.tile s.focus.pool
      (evtOf (s.seen .evt f) h.gen)) := by
  have hdoes : Does .evt f s { consumed f with
      eff := fun t => t.evt s.focus.tile s.focus.pool (evtOf (s.seen .evt f) h.gen) } := by
    refine does_of_issue (show exec (.evt f) s = execEvt f s from rfl) hf ?_
    rw [hh]
    rfl
  exact hdoes.trans (congrArg _ (s.commit_eff _ _ rfl))

theorem trap_does (hf : Fires .trap f s) (hh : (s.seen .trap f).header = .ok h) :
    Does .trap f s { consumed f with
      after := some ⟨0x63, s.focus.slot, h.gen, laneRead (s.seen .trap f).a 0, BitVec.ofNat 64 h.gen.toNat, 0⟩ } := by
  have hflt : (s.seen .trap f).flt 0x63 (maskLanes (s.seen .trap f).a).l0 (w64 h.gen.toNat) 0 =
      ⟨0x63, s.focus.slot, h.gen, laneRead (s.seen .trap f).a 0, BitVec.ofNat 64 h.gen.toNat, 0⟩ := by
    rw [Ctx.flt, Ctx.gen_of_header hh]
    rfl
  refine does_of_issue (show exec (.trap f) s = execTrap f s from rfl) hf ?_
  rw [hh, ← hflt]
  rfl

/-- Channels and intra-tile links (R348). -/
theorem PoolSt.yieldOuts_eq (x : PoolSt) :
    x.yieldOuts = [0, 1, 2, 3].filter fun n => decide (1 ≤ (x.out n).code ∧ (x.out n).code ≤ 4) := by
  simp only [PoolSt.yieldOuts, linkCode, Bool.decide_and]

theorem yield_does (hf : Fires .yield f s) {outs : List Nat}
    (houts : ((s.tile s.focus.tile).pool s.focus.pool).yieldOuts = outs) :
    Does .yield f s { consumed f with
      outs := outs
      res := (s.seen .yield f).send outs (ctlTok 7 (yieldSide s.focus.tile s.focus.pool s.focus.slot) false 0)
      tile := fun t => t.modPool s.focus.pool fun x => { x with run := .yielded } } := by
  subst houts
  exact does_of_issue (show exec (.yield f) s = execYield f s from rfl) hf rfl

theorem halt_does (hf : Fires .halt f s) :
    Does .halt f s { consumed f with tile := fun t => t.modPool .pe fun x => { x with run := .halted } } :=
  does_of_issue (show exec (.halt f) s = execHalt f s from rfl) hf rfl

end Reports

/-- Settles O13: the event of GEN 0, alone in its pool, leaves it at once; the others are what their firing does. -/
theorem poolsReportAndStop : Obligations.PoolsReportAndStop := by
  intro f s h k p
  refine ⟨trap_does, ?evt, ?yield, ?halt⟩
  case evt =>
    intro hf hh hgen hevts hroom
    have hfired : ((s.commit (s.seen .evt f) (consumed f)).tile k).pool p =
        ((s.tile k).pool p).fire (s.seen .evt f) (consumed f) :=
      (congrArg (·.pool p) (s.commit_tile (s.seen .evt f) (consumed f) rfl rfl)).trans
        (Tile.pool_modPool (s.tile k) p fun x => x.fire (s.seen .evt f) (consumed f))
    have hevq : (s.commit (s.seen .evt f) (consumed f)).evq = s.evq := by
      have h := congrArg State.evq (s.commit_rest (s.seen .evt f) (consumed f) rfl rfl)
      exact h
    obtain ⟨e, hheld, hcode, hw3, hw4, hw5, hrun, hmem⟩ :=
      State.evt_alone (s := s.commit (s.seen .evt f) (consumed f)) (e := evtOf (s.seen .evt f) h.gen)
        (by rw [hfired, PoolSt.fire_evts, hevts]) hgen (by rw [hevq]; exact hroom)
    rw [hevq] at hheld
    rw [hfired, PoolSt.fire_run] at hrun
    exact ⟨_, e, evt_next hf hh, hheld, hcode, hw3, hw4, hw5, hrun, hmem.trans (s.commit_mem _ (consumed f) rfl rfl)⟩
  case yield =>
    intro hf
    exact yield_does hf (PoolSt.yieldOuts_eq _)
  case halt =>
    intro hp hf
    rw [hp]
    exact halt_does hf

end Sys2Proof.Machine

/-! ## Accesses of memory (R258 to R270) -/

namespace Sys2Proof.Machine

open Sys2Proof

/-! ### Full-empty bits and poison after a write -/

theorem mem_delNat_of_ne {xs : List Nat} {a m : Nat} (h : m ≠ a) : m ∈ delNat xs a ↔ m ∈ xs := by
  induction xs with
  | nil => rfl
  | cons x rest ih =>
    unfold delNat
    split
    · rename_i hx
      rw [List.mem_cons, or_iff_right fun hm => h (hm.trans hx)]
    · rw [List.mem_cons, List.mem_cons, ih]

/-- A number put into a list or taken from it leaves the others. -/
theorem contains_putNat_ne (xs : List Nat) {a m : Nat} (h : m ≠ a) : (putNat xs a).contains m = xs.contains m :=
  Bool.eq_iff_iff.mpr (by rw [List.contains_iff_mem, List.contains_iff_mem, mem_putNat, or_iff_left h])

theorem contains_delNat_ne (xs : List Nat) {a m : Nat} (h : m ≠ a) : (delNat xs a).contains m = xs.contains m :=
  Bool.eq_iff_iff.mpr (by rw [List.contains_iff_mem, List.contains_iff_mem, mem_delNat_of_ne h])

section Bits

variable {m : Mem} (w : Nat) (mask : BitVec 8) (v : Word) (p : Bool)

theorem Mem.isFull_setFull (b : Bool) (h : m.wf = true) (x : Nat) :
    (m.setFull w b).isFull x = if x = w then b else m.isFull x := by
  obtain ⟨-, hfull, -⟩ := m.wf_iff.mp h
  by_cases hx : x = w
  · rw [if_pos hx, hx]
    cases b
    · exact contains_delNat w hfull
    · exact contains_putNat _ _
  · rw [if_neg hx]
    cases b
    · exact contains_delNat_ne _ hx
    · exact contains_putNat_ne _ hx

theorem Mem.isPsn_setPsn_ne (m : Mem) {x : Nat} (h : x ≠ w) : (m.setPsn w p).isPsn x = m.isPsn x := by
  cases p
  · exact contains_delNat_ne _ h
  · exact contains_putNat_ne _ h

theorem Mem.putBytes_full (m : Mem) (i n : Nat) : (m.putBytes w mask v i n).full = m.full := by
  induction n generalizing m i with
  | zero => rfl
  | succ n ih =>
    unfold Mem.putBytes
    rw [ih]
    split <;> rfl

theorem Mem.putBytes_poison (m : Mem) (i n : Nat) : (m.putBytes w mask v i n).poison = m.poison := by
  induction n generalizing m i with
  | zero => rfl
  | succ n ih =>
    unfold Mem.putBytes
    rw [ih]
    split <;> rfl

theorem Mem.write_full (m : Mem) : (m.write w mask v p).full = m.full := by
  have h := Mem.putBytes_full w mask v m 0 8
  unfold Mem.write
  dsimp only
  split
  · exact h
  · split <;> exact h

theorem Mem.isPsn_putBytes (m : Mem) (i n x : Nat) : (m.putBytes w mask v i n).isPsn x = m.isPsn x :=
  congrArg (·.contains x) (Mem.putBytes_poison w mask v m i n)

/-- A write leaves the poison of every other word. -/
theorem Mem.isPsn_write_ne (m : Mem) {x : Nat} (h : x ≠ w) : (m.write w mask v p).isPsn x = m.isPsn x := by
  unfold Mem.write
  dsimp only
  split
  · rw [Mem.isPsn_setPsn_ne w p _ h, Mem.isPsn_putBytes]
  · split
    · rw [Mem.isPsn_setPsn_ne w true _ h, Mem.isPsn_putBytes]
    · rw [Mem.isPsn_putBytes]

/-- A write of some bytes adds its poison to the word's (R260). -/
theorem Mem.isPsn_write_part (h : m.wf = true) (hfull : mask ≠ 0xFF) (hsome : mask ≠ 0) :
    (m.write w mask v p).isPsn w = (m.isPsn w || p) := by
  unfold Mem.write
  dsimp only
  rw [if_neg hfull]
  cases p
  · exact (Mem.isPsn_putBytes w mask v m 0 8 w).trans (Bool.or_false _).symm
  · rw [Bool.true_and, if_pos (bne_iff_ne.mpr hsome), Bool.or_true]
    exact Mem.isPsn_setPsn w true (Mem.putBytes_wf w mask v 0 8 h)

end Bits

/-! ### The lanes and words of an access (R258, R261, R262, R264) -/

section Touched

variable {s : State} {k : Nat} {r : Req} {x : Acc}

theorem mem_touches (hspace : x.space < 5) {i v : Nat} : (i, v) ∈ s.touches k r x ↔
    if r.beat then i < 8 ∧ (r.writes = true → r.dat.mask.getLsbD i = true) ∧ v = flatWord k x + i
    else if r.op = .ldx ∨ r.op = .stx then
      i < 8 ∧ (r.op = .ldx ∨ r.dat.mask.getLsbD i = true) ∧ (r.opb.lanes.l0.toNat + i) / 2 = x.addr ∧ v = flatWord k x
    else i = x.lane ∧ v = flatWord k x := by
  unfold State.touches
  dsimp only
  rw [if_neg (by omega : ¬x.space = 5), if_neg (by omega : ¬x.space = 6)]
  split
  · simp only [List.mem_map, List.mem_filter, List.mem_range, Bool.or_eq_true, Bool.not_eq_true', Prod.mk.injEq]
    constructor
    · rintro ⟨j, ⟨hj, hmask⟩, rfl, rfl⟩
      exact ⟨hj, fun hw => hmask.resolve_left (by rw [hw]; decide), rfl⟩
    · rintro ⟨hi, hmask, rfl⟩
      refine ⟨i, ⟨hi, ?_⟩, rfl, rfl⟩
      cases hw : r.writes
      · exact .inl rfl
      · exact .inr (hmask hw)
  · have hhalf : (decide (r.op = .ldx) || decide (r.op = .stx)) = true ↔ r.op = .ldx ∨ r.op = .stx := by
      rw [Bool.or_eq_true, decide_eq_true_iff, decide_eq_true_iff]
    split
    next h =>
      rw [if_pos (hhalf.mp h)]
      simp only [List.mem_map, List.mem_filter, List.mem_range, Bool.or_eq_true, Bool.and_eq_true, decide_eq_true_eq,
        Prod.mk.injEq]
      constructor
      · rintro ⟨j, ⟨hj, hmask, haddr⟩, rfl, rfl⟩
        exact ⟨hj, hmask, haddr, rfl⟩
      · rintro ⟨hi, hmask, haddr, rfl⟩
        exact ⟨i, ⟨hi, hmask, haddr⟩, rfl, rfl⟩
    next h => rw [if_neg (mt hhalf.mpr h), List.mem_singleton, Prod.mk.injEq]

/-- A lane is touched once. -/
theorem touches_nodup (hspace : x.space < 5) : ((s.touches k r x).map Prod.fst).Nodup := by
  have hfilter : ∀ (p : Nat → Bool) (g : Nat → Nat),
      ((((List.range 8).filter p).map fun i => (i, g i)).map Prod.fst).Nodup := fun p g => by
    rw [List.map_map]
    exact (List.map_id _).symm ▸ List.nodup_range.filter p
  unfold State.touches
  dsimp only
  rw [if_neg (by omega : ¬x.space = 5), if_neg (by omega : ¬x.space = 6)]
  split
  · exact hfilter _ _
  · split
    · exact hfilter _ _
    · exact List.nodup_singleton _

/-- A word access of one lane touches its word. -/
theorem touches_lane (hspace : x.space < 5) (hbeat : r.beat = false) (hldx : r.op ≠ .ldx) (hstx : r.op ≠ .stx) :
    s.touches k r x = [(x.lane, flatWord k x)] := by
  unfold State.touches
  dsimp only
  rw [if_neg (by omega : ¬x.space = 5), if_neg (by omega : ¬x.space = 6), hbeat, if_neg Bool.false_ne_true,
    if_neg (by simp [hldx, hstx])]

/-- What an access that does not store touches. -/
theorem mem_touches_laneWord (hspace : x.space < 5) (hlane : x.lane < 8) (hw : r.writes = false) {i v : Nat} :
    (i, v) ∈ s.touches k r x ↔ LaneWord k r x i v := by
  have hstx : r.op ≠ .stx := fun h => by rw [Req.writes, h] at hw; cases hw
  rw [mem_touches hspace, LaneWord, hw]
  by_cases hbeat : r.beat = true
  · simp [hbeat]
  · by_cases hldx : r.op = .ldx
    · simp only [hbeat, Bool.false_eq_true, if_false, hldx, true_or, if_true, true_and]
      tauto
    · simp only [hbeat, Bool.false_eq_true, if_false, hldx, hstx, or_self]
      constructor
      · rintro ⟨rfl, rfl⟩
        exact ⟨hlane, rfl, rfl⟩
      · rintro ⟨-, rfl, rfl⟩
        exact ⟨rfl, rfl⟩

/-- What a store touches. -/
theorem mem_touches_laneStored (hspace : x.space < 5) (hlane : x.lane < 8)
    (hop : r.op ∈ ([.st, .stx, .sls, .ste, .stf] : List Op)) (hsls : r.op = .sls → r.beat = false) {i v : Nat} :
    (i, v) ∈ s.touches k r x ↔ LaneStored k r x i v := by
  have hldx : r.op ≠ .ldx := fun h => by rw [h] at hop; exact absurd hop (by decide)
  have hw : r.beat = true → r.writes = true := fun hb => by
    simp only [List.mem_cons, List.not_mem_nil, or_false] at hop
    unfold Req.writes
    rcases hop with h | h | h | h | h
    case inr.inr.inl => rw [hsls h] at hb; cases hb
    all_goals rw [h]
  rw [mem_touches hspace, LaneStored, LaneWord]
  by_cases hbeat : r.beat = true
  · simp only [hbeat, if_true, hw hbeat, true_or, true_implies]
    tauto
  · by_cases hstx : r.op = .stx
    · simp only [hbeat, Bool.false_eq_true, if_false, hstx, or_true, if_true, true_implies, reduceCtorEq, false_or]
      tauto
    · simp only [hbeat, Bool.false_eq_true, if_false, hldx, hstx, or_self, false_implies, and_true]
      constructor
      · rintro ⟨rfl, rfl⟩
        exact ⟨hlane, rfl, rfl⟩
      · rintro ⟨-, rfl, rfl⟩
        exact ⟨rfl, rfl⟩

end Touched

/-! ### A request with its next access performed (R257, R258) -/

/-- A request with its place kept stands in its pool. -/
theorem putReq_stands (t : State) (k : Nat) {r u : Req} (hr : r ∈ (t.tile k).pe.reqs) (hticket : r.ticket = u.ticket)
    (haccs : u.accs ≠ []) : u ∈ ((t.putReq k u).tile k).pe.reqs := by
  have hreqs : ((t.putReq k u).tile k).pe.reqs = (t.tile k).pe.reqs.map fun q => if q.ticket = u.ticket then u else q := by
    rw [State.putReq, State.tile_modPool]
    show (if u.accs.isEmpty = true then _ else _ : PoolSt).reqs = _
    rw [if_neg (by rwa [List.isEmpty_iff])]
    rfl
  rw [hreqs]
  exact List.mem_map.mpr ⟨r, hr, if_pos hticket⟩

/-- A request with nothing left to access has its results in flight, where they were. -/
theorem putReq_inflight (t : State) (k : Nat) {u : Req} (haccs : u.accs = []) :
    ((t.putReq k u).tile k).pe.inflight = (t.tile k).pe.inflight.map fun e =>
      if e.ticket = u.ticket then { e with val := some (u.answer e.dst), gen := u.gen } else e := by
  rw [State.putReq, State.tile_modPool, haccs]
  show (PoolSt.releasePlace _ _).inflight = _
  unfold PoolSt.releasePlace
  split <;> rfl

theorem putReq_eng (t : State) (k : Nat) (u : Req) (j : Nat) : ((t.putReq k u).tile j).eng = (t.tile j).eng := by
  by_cases hj : j = k
  · rw [hj, State.putReq, State.tile_modPool, Tile.modPool_eng]
  · rw [State.putReq, State.tile_modPool_ne _ _ _ hj]

/-- The next node that LDCH brings (R263). -/
theorem Req.answer_areg (r : Req) (m : Fin 8) : (r.answer (.areg m)).lanes.l0 = nextNode r r.res := by
  have hlow : fld r.opb.lanes.l0 2 0 = r.opb.lanes.l0.toNat % 8 := fld_low _ 2
  have hlink : fld (r.res.lanes.get (r.opb.lanes.l0.toNat % 8)) 31 0 =
      ((r.res.lanes.get (r.opb.lanes.l0.toNat % 8)).setWidth 32).toNat := fld_address _
  have hoff : fld r.opb.lanes.l0 63 32 = (r.opb.lanes.l0.extractLsb' 32 32).toNat := fld_extract _ 63 32 (by decide)
  have hzero : ∀ y : BitVec 32, y.toNat = 0 ↔ y = 0 := fun y =>
    ⟨fun h => BitVec.eq_of_toNat_eq h, fun h => congrArg BitVec.toNat h⟩
  unfold Req.answer nextNode
  dsimp only
  rw [scalarRes_eq, hlow, hlink, hoff]
  show (if _ then _ else _) = _
  simp only [hzero]
  split
  · rfl
  · refine BitVec.eq_of_toNat_eq ?_
    rw [w64, BitVec.toNat_ofNat, ← BitVec.toNat_add, BitVec.toNat_setWidth]

/-- FEQ's outcome as a predicate: no lane is zero (R267). -/
theorem Req.answer_pred (r : Req) (m : Fin 8) :
    (r.answer (.pred m)).lanes.l0.getLsbD 0 = true ↔ ∀ i < 8, r.res.lanes.get i ≠ 0 := by
  have hall : ((List.range 8).all fun i => r.res.lanes.get i != 0) = true ↔ ∀ i < 8, r.res.lanes.get i ≠ 0 := by
    simp only [List.all_eq_true, List.mem_range, bne_iff_ne, ne_eq]
  have hbit : ∀ b : Bool, (if b then 1 else 0 : Word).getLsbD 0 = b := by decide
  unfold Req.answer
  dsimp only
  rw [← hall, predRes_eq]
  exact iff_of_eq (congrArg (· = true) (hbit _))

/-- The state once the next access of a request has been made, `held` of its writes being held. -/
def State.performed (t : State) (k : Nat) (r : Req) (rest : List Acc) (tok : Tok) (held : Nat) : State :=
  (t.putReq k { r with accs := rest, res := tok, inHold := r.inHold + held, waiting := none }).markActive k

section PerformedReq

variable {s t : State} {k : Nat} {r : Req} {rest : List Acc} {tok : Tok} (held : Nat)

theorem State.performed_mem (t : State) (k : Nat) (r : Req) (rest : List Acc) (tok : Tok) :
    (t.performed k r rest tok held).mem = t.mem := (State.markActive_mem ..).trans rfl

theorem State.performed_eng (t : State) (k : Nat) (r : Req) (rest : List Acc) (tok : Tok) (j : Nat) :
    ((t.performed k r rest tok held).tile j).eng = (t.tile j).eng := by
  rw [State.performed, State.markActive_tile, putReq_eng]

/-- It stands with the accesses left, or has its results. -/
theorem performed_leaves (hr : r ∈ (s.tile k).pe.reqs) (hpe : (t.tile k).pe = (s.tile k).pe) {q : Tok → Prop} (hq : q tok) :
    Leaves s (t.performed k r rest tok held) k r rest q := by
  have htile : (t.performed k r rest tok held).tile k = _ := State.markActive_tile ..
  refine ⟨fun hrest => ?_, fun hrest => ⟨tok, hq, fun e he hticket => ?_⟩⟩
  · rw [htile]
    exact ⟨_, putReq_stands (r := r) t k (by rwa [hpe]) rfl hrest, rfl, rfl, rfl, hq⟩
  · rw [htile, putReq_inflight t k hrest, hpe]
    refine ⟨_, List.mem_map.mpr ⟨e, he, if_pos hticket⟩, hticket, rfl, rfl, _, rfl, fun ha hp => ?_, fun m hm => ?_,
      fun m hm => ?_⟩
    · exact Req.answer_whole _ ha hp
    · rw [hm]
      exact Req.answer_areg _ m
    · rw [hm]
      exact Req.answer_pred _ m

end PerformedReq

/-! ### When an access is made (R258, R259, R265, R266) -/

/-- The state once the next access has been made. -/
def State.afterAcc (s : State) (k : Nat) (r : Req) (x : Acc) (rest : List Acc) : State :=
  (s.doAcc k r false x).1.performed k r rest (s.doAcc k r false x).2.1 (s.doAcc k r false x).2.2

/-- The turn of a request's next access has come. -/
structure ItsTurn (s : State) (k : Nat) (r : Req) (x : Acc) : Prop where
  stands : r.waiting = none
  front : s.orderedBehind k r x = false
  unheld : s.standsHeld k r = false
  awake : s.wakeDue = false

section Steps

variable {s : State} {k n : Nat} {r : Req} {x : Acc} {rest : List Acc}

theorem State.afterAcc_eq {t : State} {tok : Tok} {held : Nat} (h : s.doAcc k r false x = (t, tok, held)) :
    s.afterAcc k r x rest = t.performed k r rest tok held := by
  rw [State.afterAcc, h]

/-- No word of an access that reads and writes at one instant is held. -/
def Unheld (s : State) (k : Nat) (r : Req) (x : Acc) : Prop :=
  (r.whole && (s.touches k r x).any fun y => s.wordHeld y.2) = false

variable (hr : (s.tile k).pe.reqs[n]? = some r) (haccs : r.accs = x :: rest) (hheld : Unheld s k r x)

include haccs hheld in
/-- An access whose condition holds is performed. -/
theorem performFirst_eq : s.performFirst k r false = s.afterAcc k r x rest := by
  unfold Unheld at hheld
  unfold State.performFirst
  rw [haccs]
  simp only [Bool.not_false, Bool.true_and, hheld, Bool.false_eq_true, if_false]
  rfl

include hr haccs hheld in
theorem memPerform_tries (hspace : x.space < 5) (hturn : ItsTurn s k r x) :
    exec (.memPerform k n) s = .next (s.tryFirst k r false) := by
  obtain ⟨hstands, hfront, hunheld, hawake⟩ := hturn
  unfold Unheld at hheld
  rw [show exec (.memPerform k n) s = execMemPerform k n s from rfl, execMemPerform, hr]
  simp only [haccs, hstands, hfront, hunheld, hawake, hheld, decide_eq_false (show ¬x.space = 5 by omega),
    (show ¬x.space = 6 by omega), Option.isSome_none, Bool.or_self, Bool.false_eq_true, if_false]

include hr haccs hheld in
theorem memPerform_performs (hspace : x.space < 5) (hturn : ItsTurn s k r x) (hfe : s.feHolds k r x = true) :
    exec (.memPerform k n) s = .next (s.afterAcc k r x rest) := by
  rw [memPerform_tries hr haccs hheld hspace hturn, ← performFirst_eq haccs hheld, State.tryFirst, haccs]
  simp only [hfe, if_true]

include hr haccs hheld in
/-- A request whose full-empty condition does not hold waits, with its order of arrival (R266). -/
theorem memPerform_waits (hspace : x.space < 5) (hturn : ItsTurn s k r x) (hfe : s.feHolds k r x = false) :
    ∃ t, exec (.memPerform k n) s = .next t ∧ t.mem = s.mem ∧
      ∃ q ∈ (t.tile k).pe.reqs, q.ticket = r.ticket ∧ q.accs = r.accs ∧ q.waiting = some s.order := by
  have htry : s.tryFirst k r false = s.takeOrder.2.putReq k { r with waiting := some s.order } := by
    rw [State.tryFirst, haccs]
    simp only [hfe, Bool.false_eq_true, if_false]
    rfl
  refine ⟨_, (memPerform_tries hr haccs hheld hspace hturn).trans (congrArg _ htry), rfl, _,
    putReq_stands (r := r) s.takeOrder.2 k (List.mem_of_getElem? hr) rfl ?_, rfl, rfl, rfl⟩
  rw [show ({ r with waiting := some s.order } : Req).accs = r.accs from rfl, haccs]
  exact List.cons_ne_nil _ _

include hr haccs hheld in
/-- The first of the waiting requests that can proceed does (R266). -/
theorem feWake_performs (hwaits : r.waiting ≠ none) (hop : r.op ≠ .kvrowOpen) (hfe : s.feHolds k r x = true)
    (hfirst : ∀ o ∈ s.rivals k r, r.waiting.getD 0 ≤ o) :
    exec (.feWake k n) s = .next (s.afterAcc k r x rest) := by
  have hcan : s.canWake k r = true := by
    rw [State.canWake, haccs, Option.isSome_iff_ne_none.mpr hwaits]
    simp only [hfe, Bool.and_true, State.canWake.isMemOpKv, decide_eq_false hop, Bool.not_false]
  have hall : ((s.rivals k r).all fun o => decide (r.waiting.getD 0 ≤ o)) = true :=
    List.all_eq_true.mpr fun o ho => decide_eq_true (hfirst o ho)
  rw [show exec (.feWake k n) s = execFeWake k n s from rfl, execFeWake, hr, ← performFirst_eq haccs hheld]
  simp only [hcan, hall, Bool.and_self, if_true]

end Steps

/-! ### Lanes read into a result (R258, R260, R262) -/

/-- Lanes put into a result, each with what `g` gives: a word, its poison, and whether it is seen. -/
def putLanes (g : Nat × Nat → Word × Bool × Bool) (l : List (Nat × Nat)) (t : Tok) : Tok :=
  l.foldl (fun t x => putLane t x.1 (g x).1 (g x).2.1 (g x).2.2) t

section PutLanes

variable (g : Nat × Nat → Word × Bool × Bool) (l : List (Nat × Nat)) (t : Tok)

theorem putLane_get_ne (t : Tok) {i j : Nat} (hj : j < 8) (h : j ≠ i) (v : Word) (psn seen : Bool) :
    (putLane t i v psn seen).lanes.get j = t.lanes.get j := by
  show (t.lanes.set i v).get j = _
  rw [Lanes.set, Lanes.get_ofFn _ hj, if_neg h]

theorem putLane_mask (t : Tok) (i : Nat) {j : Nat} (hj : j < 8) (v : Word) (psn seen : Bool) :
    (putLane t i v psn seen).mask.getLsbD j = (t.mask.getLsbD j && (seen || decide (j ≠ i))) := by
  show (if seen then t.mask else _).getLsbD j = _
  cases seen
  · rw [if_neg Bool.false_ne_true, BitVec.getLsbD_and, BitVec.getLsbD_not, BitVec.getLsbD_ofNat, Nat.testBit_two_pow,
      decide_eq_true hj, Bool.true_and, Bool.true_and, Bool.false_or, ← decide_not]
    exact congrArg _ (decide_eq_decide.mpr ne_comm)
  · rw [if_pos rfl, Bool.true_or, Bool.and_true]

theorem putLanes_rest : (putLanes g l t).fmt = t.fmt ∧ (putLanes g l t).gen = t.gen ∧
    (putLanes g l t).psn = (t.psn || l.any fun x => (g x).2.1) := by
  induction l generalizing t with
  | nil => exact ⟨rfl, rfl, (Bool.or_false _).symm⟩
  | cons x rest ih =>
    obtain ⟨hfmt, hgen, hpsn⟩ := ih (putLane t x.1 (g x).1 (g x).2.1 (g x).2.2)
    exact ⟨hfmt, hgen, hpsn.trans (Bool.or_assoc ..)⟩

theorem putLanes_mask (h : ∀ x ∈ l, (g x).2.2 = true) : (putLanes g l t).mask = t.mask := by
  induction l generalizing t with
  | nil => rfl
  | cons x rest ih =>
    refine (ih (putLane t x.1 (g x).1 (g x).2.1 (g x).2.2) fun y hy => h y (List.mem_cons_of_mem _ hy)).trans ?_
    rw [h x (List.mem_cons_self ..)]
    rfl

theorem putLanes_out {i : Nat} (hi : i < 8) (h : i ∉ l.map Prod.fst) :
    (putLanes g l t).lanes.get i = t.lanes.get i ∧ (putLanes g l t).mask.getLsbD i = t.mask.getLsbD i := by
  induction l generalizing t with
  | nil => exact ⟨rfl, rfl⟩
  | cons x rest ih =>
    rw [List.map_cons, List.mem_cons, not_or] at h
    obtain ⟨hlane, hmask⟩ := ih (putLane t x.1 (g x).1 (g x).2.1 (g x).2.2) h.2
    refine ⟨hlane.trans (putLane_get_ne t hi h.1 ..), hmask.trans ?_⟩
    rw [putLane_mask t _ hi, decide_eq_true h.1, Bool.or_true, Bool.and_true]

theorem putLanes_in {x : Nat × Nat} (hx : x ∈ l) (hlt : x.1 < 8) (hnodup : (l.map Prod.fst).Nodup) :
    (putLanes g l t).lanes.get x.1 = (g x).1 ∧
      (putLanes g l t).mask.getLsbD x.1 = (t.mask.getLsbD x.1 && (g x).2.2) := by
  induction l generalizing t with
  | nil => exact absurd hx (List.not_mem_nil)
  | cons y rest ih =>
    rw [List.map_cons, List.nodup_cons] at hnodup
    obtain rfl | hrest := List.mem_cons.mp hx
    · obtain ⟨hlane, hmask⟩ := putLanes_out g rest (putLane t x.1 (g x).1 (g x).2.1 (g x).2.2) hlt hnodup.1
      refine ⟨hlane.trans (putLane_get t hlt ..), hmask.trans ?_⟩
      rw [putLane_mask t _ hlt, decide_eq_false (not_not.mpr rfl), Bool.or_false]
    · have hne : x.1 ≠ y.1 := fun h => hnodup.1 (h ▸ List.mem_map_of_mem hrest)
      obtain ⟨hlane, hmask⟩ := ih (putLane t y.1 (g y).1 (g y).2.1 (g y).2.2) hrest hnodup.2
      refine ⟨hlane, hmask.trans ?_⟩
      rw [putLane_mask t _ hlt, decide_eq_true hne, Bool.or_true, Bool.and_true]

end PutLanes

/-! ### Loads -/

/-- What a load puts into the lane of a touched word. -/
def State.loadLane (s : State) (k : Nat) (r : Req) (x : Nat × Nat) : Word × Bool × Bool :=
  let y := s.loadWord k r x.2
  (if r.op = .ldx && y.2.2 then ldxLane y.1 (r.opb.lanes.l0.toNat + x.1) (r.md / 4 = 1) else y.1, y.2.1, y.2.2)

theorem loadAcc_eq (s : State) (k : Nat) (r : Req) (x : Acc) :
    s.loadAcc k r x = putLanes (s.loadLane k r) (s.touches k r x) r.res := rfl

theorem loadWord_seen {s : State} {k : Nat} {r : Req} {v : Nat} (h : WordSeen s k r v) :
    s.loadWord k r v = (s.mem.word v, s.mem.isPsn v, true) := by
  unfold State.loadWord
  dsimp only
  rw [if_neg]
  simp only [Bool.and_eq_true, Bool.or_eq_true, decide_eq_true_eq, Bool.not_eq_true', and_assoc, or_assoc]
  rintro ⟨hop, hlo, hhi, hkv⟩
  rw [h hop hlo hhi] at hkv
  cases hkv

theorem loadWord_unseen {s : State} {k : Nat} {r : Req} {v : Nat} (h : ¬WordSeen s k r v) :
    s.loadWord k r v = (0, false, false) := by
  unfold WordSeen at h
  simp only [Classical.not_imp, Bool.not_eq_true] at h
  obtain ⟨hop, hlo, hhi, hkv⟩ := h
  unfold State.loadWord
  dsimp only
  rw [if_pos]
  simp only [Bool.and_eq_true, Bool.or_eq_true, decide_eq_true_eq, Bool.not_eq_true', and_assoc, or_assoc]
  exact ⟨hop, hlo, hhi, hkv⟩

theorem loadLane_seen {s : State} {k : Nat} {r : Req} {i v : Nat} (h : WordSeen s k r v) :
    s.loadLane k r (i, v) = (loadedLane s r i v, s.mem.isPsn v, true) := by
  unfold State.loadLane loadedLane ldxLane
  simp only [loadWord_seen h, Bool.and_true, decide_eq_true_eq]

theorem loadLane_unseen {s : State} {k : Nat} {r : Req} {i v : Nat} (h : ¬WordSeen s k r v) :
    s.loadLane k r (i, v) = (0, false, false) := by
  unfold State.loadLane
  simp only [loadWord_unseen h, Bool.and_false, Bool.false_eq_true, if_false]

/-- The words of an access of a load read into its result. -/
theorem loadAcc_loaded {s : State} {k : Nat} {r : Req} {x : Acc} (hspace : x.space < 5) (hlane : x.lane < 8)
    (hw : r.writes = false) : Loaded s k r x (s.loadAcc k r x) := by
  have htouch : ∀ {i v}, (i, v) ∈ s.touches k r x ↔ LaneWord k r x i v := mem_touches_laneWord hspace hlane hw
  have hnodup : ((s.touches k r x).map Prod.fst).Nodup := touches_nodup hspace
  obtain ⟨hfmt, hgen, hpsn⟩ := putLanes_rest (s.loadLane k r) (s.touches k r x) r.res
  rw [loadAcc_eq]
  refine ⟨fun i v hiv => ?_, fun i hi hno => ?_, ?_, hfmt, hgen⟩
  · obtain ⟨hget, hmask⟩ := putLanes_in (s.loadLane k r) _ r.res (htouch.mpr hiv) hiv.1 hnodup
    refine ⟨fun hseen => ?_, fun hseen => ?_⟩
    · rw [loadLane_seen hseen] at hget hmask
      exact ⟨hget, hmask.trans (Bool.and_true _)⟩
    · rw [loadLane_unseen hseen] at hget hmask
      exact ⟨hget, hmask.trans (Bool.and_false _)⟩
  · refine putLanes_out _ _ _ hi fun hmem => ?_
    obtain ⟨⟨j, v⟩, hjv, rfl⟩ := List.mem_map.mp hmem
    exact hno v (htouch.mp hjv)
  · rw [hpsn, Bool.or_eq_true, List.any_eq_true]
    refine or_congr Iff.rfl ⟨fun ⟨⟨i, v⟩, hiv, hp⟩ => ?_, fun ⟨i, v, hiv, hseen, hp⟩ => ⟨(i, v), htouch.mpr hiv, ?_⟩⟩
    · by_cases hseen : WordSeen s k r v
      · rw [loadLane_seen hseen] at hp
        exact ⟨i, v, htouch.mp hiv, hseen, hp⟩
      · rw [loadLane_unseen hseen] at hp
        cases hp
    · rw [loadLane_seen hseen]
      exact hp

/-! ### Words and halves written (R261, R262, R264, R265) -/

/-- The bytes of its word that a store writes for a lane. -/
def storeMask (r : Req) (i : Nat) : BitVec 8 :=
  if r.op = .stx then (if (r.opb.lanes.l0.toNat + i) % 2 = 1 then 0xF0 else 0x0F) else 0xFF

/-- The word that those bytes are taken from. -/
def storeData (r : Req) (i : Nat) : Word :=
  let v := r.dat.lanes.get i
  if r.op = .stx then
    (if (r.opb.lanes.l0.toNat + i) % 2 = 1 then stxHalf v (r.md / 4 = 1) <<< 32 else stxHalf v (r.md / 4 = 1))
  else v

/-- A store that leaves its words full (R265). -/
def fills (r : Req) : Bool := r.op = .stf || r.op = .ste

/-- Memory with the lane of a store written to its word. -/
def storeMem (r : Req) (m : Mem) (y : Nat × Nat) : Mem :=
  let m' := m.write y.2 (storeMask r y.1) (storeData r y.1) r.dat.psn
  if fills r then m'.setFull y.2 true else m'

/-- The state with it written. -/
def State.storeLane (r : Req) (s : State) (y : Nat × Nat) : State :=
  s.writeNow y.2 (storeMask r y.1) (storeData r y.1) r.dat.psn (fills r)

/-- A lane's write covers a byte. -/
def Covers (r : Req) (y : Nat × Nat) (a : Nat) : Prop := a / 8 = y.2 ∧ (storeMask r y.1).getLsbD (a % 8) = true

section StoreMem

variable {r : Req} {m : Mem} (y : Nat × Nat) (l : List (Nat × Nat))

theorem storeMask_getLsbD (r : Req) (i : Nat) {j : Nat} (hj : j < 8) :
    (storeMask r i).getLsbD j = true ↔ (r.op = .stx → j / 4 = (r.opb.lanes.l0.toNat + i) % 2) := by
  have hall : ∀ j < 8, ((0xFF : BitVec 8).getLsbD j = true) ∧ ((0xF0 : BitVec 8).getLsbD j = true ↔ j / 4 = 1) ∧
      ((0x0F : BitVec 8).getLsbD j = true ↔ j / 4 = 0) := by decide
  obtain ⟨hfull, hhigh, hlow⟩ := hall j hj
  unfold storeMask
  by_cases hstx : r.op = .stx
  · rw [if_pos hstx]
    by_cases hodd : (r.opb.lanes.l0.toNat + i) % 2 = 1
    · rw [if_pos hodd, hhigh, hodd]
      exact ⟨fun h _ => h, fun h => h hstx⟩
    · rw [if_neg hodd, hlow, Nat.mod_two_ne_one.mp hodd]
      exact ⟨fun h _ => h, fun h => h hstx⟩
  · rw [if_neg hstx]
    exact iff_of_true hfull fun h => absurd h hstx

theorem storeMem_wf (h : m.wf = true) : (storeMem r m y).wf = true := by
  unfold storeMem
  dsimp only
  split
  · exact Mem.setFull_wf _ _ (Mem.write_wf _ _ _ _ h)
  · exact Mem.write_wf _ _ _ _ h

/-- Filling a word changes no byte. -/
theorem storeMem_byte : (storeMem r m y).byte = (m.write y.2 (storeMask r y.1) (storeData r y.1) r.dat.psn).byte := by
  unfold storeMem
  dsimp only
  split <;> rfl

theorem storeMem_isPsn (v : Nat) : (storeMem r m y).isPsn v =
    (m.write y.2 (storeMask r y.1) (storeData r y.1) r.dat.psn).isPsn v := by
  unfold storeMem
  dsimp only
  split <;> rfl

theorem storeMem_byte_in {a : Nat} (h : m.wf = true) (hc : Covers r y a) :
    (storeMem r m y).byte a = byteOf (storeData r y.1) (a % 8) := by
  obtain ⟨hword, hbit⟩ := hc
  have ha : 8 * y.2 + a % 8 = a := by omega
  have hin := Mem.byte_write_in y.2 (storeMask r y.1) (storeData r y.1) r.dat.psn h (Nat.mod_lt a (by decide))
  rw [if_pos hbit, ha] at hin
  rw [storeMem_byte, hin]

theorem storeMem_byte_out {a : Nat} (h : m.wf = true) (hc : ¬Covers r y a) : (storeMem r m y).byte a = m.byte a := by
  rw [storeMem_byte]
  by_cases hword : a / 8 = y.2
  · have hbit : ¬(storeMask r y.1).getLsbD (a % 8) = true := fun hb => hc ⟨hword, hb⟩
    have ha : a = 8 * y.2 + a % 8 := by omega
    rw [ha, Mem.byte_write_in _ _ _ _ h (by omega), if_neg hbit]
  · exact Mem.byte_write_out _ _ _ _ _ (by omega)

/-- A byte after some lanes have been written: every lane that covers it gives it the same value. -/
theorem storeMem_foldl_byte {a : Nat} {b : Byte} (h : m.wf = true)
    (hb : ∀ y ∈ l, Covers r y a → byteOf (storeData r y.1) (a % 8) = b) (hsome : (∃ y ∈ l, Covers r y a) ∨ m.byte a = b) :
    (l.foldl (storeMem r) m).byte a = b := by
  induction l generalizing m with
  | nil => exact hsome.resolve_left fun ⟨_, hy, _⟩ => absurd hy List.not_mem_nil
  | cons y rest ih =>
    refine ih (storeMem_wf y h) (fun z hz => hb z (List.mem_cons_of_mem _ hz)) ?_
    by_cases hrest : ∃ z ∈ rest, Covers r z a
    · exact .inl hrest
    · right
      by_cases hc : Covers r y a
      · exact (storeMem_byte_in y h hc).trans (hb y (List.mem_cons_self ..) hc)
      · refine (storeMem_byte_out y h hc).trans (hsome.resolve_left fun ⟨z, hz, hcz⟩ => ?_)
        obtain rfl | hz := List.mem_cons.mp hz
        · exact hc hcz
        · exact hrest ⟨z, hz, hcz⟩

theorem storeMem_foldl_wf (h : m.wf = true) : (l.foldl (storeMem r) m).wf = true :=
  foldl_wf (storeMem r) (fun _ y hm => storeMem_wf y hm) l h

/-- Words that a store fills are full, and the others as before. -/
theorem storeMem_foldl_isFull (h : m.wf = true) (v : Nat) :
    (l.foldl (storeMem r) m).isFull v = true ↔ m.isFull v = true ∨ (fills r = true ∧ ∃ y ∈ l, y.2 = v) := by
  induction l generalizing m with
  | nil => simp
  | cons y rest ih =>
    have hstep : (storeMem r m y).isFull v = true ↔ m.isFull v = true ∨ (fills r = true ∧ y.2 = v) := by
      have hwrite : (m.write y.2 (storeMask r y.1) (storeData r y.1) r.dat.psn).isFull v = m.isFull v :=
        congrArg (·.contains v) (Mem.write_full ..)
      unfold storeMem
      dsimp only
      split
      next hfills =>
        rw [Mem.isFull_setFull y.2 true (Mem.write_wf _ _ _ _ h), hwrite, hfills]
        by_cases hv : v = y.2
        · simp [hv]
        · simp [hv, Ne.symm hv]
      next hfills => rw [hwrite, or_iff_left fun hand => hfills hand.1]
    rw [List.foldl_cons, ih (storeMem_wf y h), hstep, List.exists_mem_cons_iff]
    tauto

/-- Words written whole take the poison of the data, -/
theorem storeMem_foldl_psn (h : m.wf = true) (hstx : r.op ≠ .stx) {v : Nat}
    (hv : (∃ y ∈ l, y.2 = v) ∨ m.isPsn v = r.dat.psn) : (l.foldl (storeMem r) m).isPsn v = r.dat.psn := by
  induction l generalizing m with
  | nil => exact hv.resolve_left fun ⟨_, hy, _⟩ => absurd hy List.not_mem_nil
  | cons y rest ih =>
    refine ih (storeMem_wf y h) ?_
    by_cases hyv : y.2 = v
    · right
      rw [storeMem_isPsn, ← hyv, storeMask, if_neg hstx]
      exact Mem.isPsn_writeWord_self _ _ _ h
    · rcases hv with ⟨z, hz, hzv⟩ | hm
      · obtain rfl | hz := List.mem_cons.mp hz
        · exact absurd hzv hyv
        · exact .inl ⟨z, hz, hzv⟩
      · exact .inr (by rw [storeMem_isPsn, Mem.isPsn_write_ne _ _ _ _ _ (Ne.symm hyv), hm])

/-- and words of which a half is written add it to theirs (R260). -/
theorem storeMem_foldl_psn_half (h : m.wf = true) (hstx : r.op = .stx) (v : Nat) :
    (l.foldl (storeMem r) m).isPsn v = (m.isPsn v || (r.dat.psn && l.any fun y => decide (y.2 = v))) := by
  induction l generalizing m with
  | nil => simp
  | cons y rest ih =>
    have hmask : storeMask r y.1 ≠ 0xFF ∧ storeMask r y.1 ≠ 0 := by
      unfold storeMask
      rw [if_pos hstx]
      split <;> decide
    rw [List.foldl_cons, ih (storeMem_wf y h), storeMem_isPsn, List.any_cons]
    by_cases hyv : y.2 = v
    · rw [← hyv, Mem.isPsn_write_part _ _ _ _ h hmask.1 hmask.2, decide_eq_true rfl]
      cases r.dat.psn <;> simp
    · rw [Mem.isPsn_write_ne _ _ _ _ _ (Ne.symm hyv), decide_eq_false hyv, Bool.false_or]

end StoreMem

/-! ### Halves of a word (R262) -/

theorem half_eq_of_bytes {a b : Word} {lo : Nat} (h : ∀ j, lo ≤ j → j < lo + 4 → byteOf a j = byteOf b j) :
    a.extractLsb' (8 * lo) 32 = b.extractLsb' (8 * lo) 32 := by
  refine BitVec.eq_of_getLsbD_eq fun n hn => ?_
  have hbit : ∀ x : Word, (x.extractLsb' (8 * lo) 32).getLsbD n = (byteOf x (lo + n / 8)).getLsbD (n % 8) := fun x => by
    rw [byteOf, BitVec.getLsbD_extractLsb', BitVec.getLsbD_extractLsb', decide_eq_true hn,
      decide_eq_true (Nat.mod_lt n (by decide))]
    congr 2
    omega
  rw [hbit, hbit, h _ (by omega) (by omega)]

/-- What STX stores of a lane is its low half, or that saturated. -/
theorem stxHalf_low (r : Req) (i : Nat) :
    (stxHalf (r.dat.lanes.get i) (r.md / 4 = 1)).extractLsb' 0 32 = storedHalf r i := by
  have hlow : ∀ x : Word, (w64 (x.toNat % 2 ^ 32)).extractLsb' 0 32 = x.setWidth 32 := fun x => by
    rw [← setWidth_eq_low]
    refine BitVec.eq_of_toNat_eq ?_
    rw [BitVec.toNat_setWidth, w64, BitVec.toNat_ofNat, BitVec.toNat_setWidth]
    omega
  unfold stxHalf storedHalf
  dsimp only
  rw [hlow]
  by_cases hsat : r.md / 4 = 1
  · have hclamp : clampS 32 (r.dat.lanes.get i).toInt = max (-2 ^ 31) (min (2 ^ 31 - 1) (r.dat.lanes.get i).toInt) := by
      unfold clampS
      omega
    rw [if_pos (decide_eq_true hsat), if_pos hsat, hclamp]
    refine BitVec.eq_of_toNat_eq ?_
    rw [BitVec.toNat_setWidth, BitVec.toNat_ofInt, BitVec.toNat_ofInt]
    omega
  · rw [if_neg (by rw [decide_eq_false hsat]; decide), if_neg hsat]

/-- The half of its word that STX writes for a lane. -/
theorem storeData_half {r : Req} (hstx : r.op = .stx) (i : Nat) :
    (storeData r i).extractLsb' (if (r.opb.lanes.l0.toNat + i) % 2 = 0 then 0 else 32) 32 = storedHalf r i := by
  have hshift : ∀ x : Word, (x <<< 32).extractLsb' 32 32 = x.extractLsb' 0 32 := fun x => by
    refine BitVec.eq_of_getLsbD_eq fun n hn => ?_
    rw [BitVec.getLsbD_extractLsb', BitVec.getLsbD_extractLsb', BitVec.getLsbD_shiftLeft,
      decide_eq_false (show ¬32 + n < 32 by omega), decide_eq_true (show 32 + n < 64 by omega), Nat.add_sub_cancel_left,
      Nat.zero_add]
    rfl
  unfold storeData
  dsimp only
  rw [if_pos hstx]
  by_cases hodd : (r.opb.lanes.l0.toNat + i) % 2 = 1
  · rw [if_pos hodd, if_neg (by omega), hshift, stxHalf_low]
  · rw [if_neg hodd, if_pos (Nat.mod_two_ne_one.mp hodd), stxHalf_low]

/-! ### An access of a store (R261, R262, R264, R265) -/

/-- A write leaves every PE pool. -/
theorem State.putWord_pe (s : State) (w : Nat) (mask : BitVec 8) (v : Word) (psn : Bool) (j : Nat) :
    ((s.putWord w mask v psn).tile j).pe = (s.tile j).pe := by
  unfold State.putWord
  dsimp only
  split
  next k i _ =>
    split
    · by_cases hj : j = k
      · subst hj
        rw [State.tile_setTile]
      · rw [State.tile_setTile_ne _ _ hj]
        rfl
    · rfl
  · rfl

theorem State.storeLane_pe (r : Req) (s : State) (y : Nat × Nat) (j : Nat) :
    ((s.storeLane r y).tile j).pe = (s.tile j).pe := by
  unfold State.storeLane State.writeNow
  dsimp only
  split
  · exact State.putWord_pe ..
  · exact State.putWord_pe ..

theorem State.storeLane_mem (r : Req) (s : State) (y : Nat × Nat) : (s.storeLane r y).mem = storeMem r s.mem y := by
  unfold State.storeLane State.writeNow storeMem
  dsimp only
  split
  · exact congrArg (fun m : Mem => m.setFull y.2 true) (State.putWord_mem ..)
  · exact State.putWord_mem ..

theorem State.storeLane_accs (r : Req) (s : State) (y : Nat × Nat) : SameAccs s (s.storeLane r y) := by
  unfold State.storeLane State.writeNow
  dsimp only
  split
  · exact (SameAccs.putWord ..).trans (SameAccs.setMem ..)
  · exact SameAccs.putWord ..

theorem foldl_storeLane (r : Req) (l : List (Nat × Nat)) (s : State) :
    (l.foldl (State.storeLane r) s).mem = l.foldl (storeMem r) s.mem ∧
      ∀ j, ((l.foldl (State.storeLane r) s).tile j).pe = (s.tile j).pe := by
  induction l generalizing s with
  | nil => exact ⟨rfl, fun _ => rfl⟩
  | cons y rest ih =>
    obtain ⟨hmem, hpe⟩ := ih (s.storeLane r y)
    rw [State.storeLane_mem] at hmem
    exact ⟨hmem, fun j => (hpe j).trans (State.storeLane_pe r s y j)⟩

/-- One lane of a store as `storeAcc` makes it. -/
def State.storeStep (k : Nat) (r : Req) (turn : Bool) (sn : State × Nat) (y : Nat × Nat) : State × Nat :=
  let v := r.dat.lanes.get y.1
  let hi : Bool := (r.opb.lanes.l0.toNat + y.1) % 2 = 1
  let (s1, n) :=
    if r.op = .stx then
      let h := stxHalf v (r.md / 4 = 1)
      if hi then sn.1.storeWord k r turn y.2 0xF0 (h <<< 32) false else sn.1.storeWord k r turn y.2 0x0F h false
    else sn.1.storeWord k r turn y.2 0xFF v (fills r)
  (s1, sn.2 + n)

theorem storeAcc_eq (s : State) (k : Nat) (r : Req) (turn : Bool) (x : Acc) :
    s.storeAcc k r turn x = (s.touches k r x).foldl (State.storeStep k r turn) (s, 0) := rfl

theorem storeStep_free {k : Nat} {r : Req} {t : State} {n : Nat} {y : Nat × Nat} (h : t.wordHeld y.2 = false) :
    State.storeStep k r false (t, n) y = (t.storeLane r y, n) := by
  have hword : ∀ (mask : BitVec 8) (v : Word) (full : Bool),
      t.storeWord k r false y.2 mask v full = (t.writeNow y.2 mask v r.dat.psn full, 0) := fun mask v full => by
    rw [State.storeWord, h]
    rfl
  unfold State.storeStep State.storeLane storeMask storeData fills
  dsimp only
  by_cases hstx : r.op = .stx
  · rw [if_pos hstx, if_pos hstx, if_pos hstx, hstx]
    by_cases hodd : (r.opb.lanes.l0.toNat + y.1) % 2 = 1
    · rw [if_pos (decide_eq_true hodd), if_pos hodd, if_pos hodd, hword]
      rfl
    · rw [if_neg (by rw [decide_eq_false hodd]; decide), if_neg hodd, if_neg hodd, hword]
      rfl
  · rw [if_neg hstx, if_neg hstx, if_neg hstx, hword]
    rfl

/-- Where no word is held, the lanes are written at once. -/
theorem storeSteps_free {k : Nat} {r : Req} (l : List (Nat × Nat)) {t : State} {n : Nat}
    (h : ∀ y ∈ l, t.wordHeld y.2 = false) :
    l.foldl (State.storeStep k r false) (t, n) = (l.foldl (State.storeLane r) t, n) := by
  induction l generalizing t with
  | nil => rfl
  | cons y rest ih =>
    rw [List.foldl_cons, List.foldl_cons, storeStep_free (h y (List.mem_cons_self ..))]
    exact ih fun z hz => ((State.storeLane_accs r t y).wordHeld z.2).trans (h z (List.mem_cons_of_mem _ hz))

/-- What a store leaves of memory. -/
structure Stored (s : State) (k : Nat) (r : Req) (x : Acc) (m : Mem) : Prop where
  whole : r.op ≠ .stx → ∀ i v, LaneStored k r x i v → m.word v = r.dat.lanes.get i ∧ m.isPsn v = r.dat.psn
  half : r.op = .stx → ∀ i v, LaneStored k r x i v →
    (m.word v).extractLsb' (if (r.opb.lanes.l0.toNat + i) % 2 = 0 then 0 else 32) 32 = storedHalf r i ∧
      m.isPsn v = (s.mem.isPsn v || r.dat.psn)
  byte : ∀ a, (∀ i v, LaneStored k r x i v → a / 8 = v → r.op = .stx ∧ a % 8 / 4 ≠ (r.opb.lanes.l0.toNat + i) % 2) →
    m.byte a = s.mem.byte a
  full : ∀ v, m.isFull v = true ↔
    s.mem.isFull v = true ∨ ((r.op = .stf ∨ r.op = .ste) ∧ ∃ i, LaneStored k r x i v)

/-- A lane is told by its word, and for the halves of LDX and STX by its half. -/
theorem LaneWord.lane_unique {k : Nat} {r : Req} {x : Acc} {i j v : Nat} (hi : LaneWord k r x i v) (hj : LaneWord k r x j v)
    (hhalf : r.op = .ldx ∨ r.op = .stx → (r.opb.lanes.l0.toNat + i) % 2 = (r.opb.lanes.l0.toNat + j) % 2) : i = j := by
  obtain ⟨-, hi⟩ := hi
  obtain ⟨-, hj⟩ := hj
  by_cases hbeat : r.beat = true
  · rw [if_pos hbeat] at hi hj
    omega
  · rw [if_neg hbeat] at hi hj
    by_cases hop : r.op = .ldx ∨ r.op = .stx
    · have := hhalf hop
      rw [if_pos hop] at hi hj
      omega
    · rw [if_neg hop] at hi hj
      exact hi.2.trans hj.2.symm

theorem fills_iff {r : Req} : fills r = true ↔ r.op = .stf ∨ r.op = .ste := by
  rw [fills, Bool.or_eq_true, decide_eq_true_iff, decide_eq_true_iff]

/-- The lanes of a store written one after the other. -/
theorem storeMem_stored {s : State} {k : Nat} {r : Req} {x : Acc} {l : List (Nat × Nat)} (hwf : s.mem.wf = true)
    (hldx : r.op ≠ .ldx) (hl : ∀ {i v}, (i, v) ∈ l ↔ LaneStored k r x i v) : Stored s k r x (l.foldl (storeMem r) s.mem) := by
  -- a byte of a stored lane is that of its data: any lane that covers it is the same lane
  have hbyte : ∀ {i v j}, LaneStored k r x i v → j < 8 → (r.op = .stx → j / 4 = (r.opb.lanes.l0.toNat + i) % 2) →
      byteOf ((l.foldl (storeMem r) s.mem).word v) j = byteOf (storeData r i) j := fun {i v j} hiv hj hhalf => by
    have hdiv : (8 * v + j) / 8 = v := by omega
    have hmod : (8 * v + j) % 8 = j := by omega
    rw [Mem.byteOf_word _ _ hj]
    refine storeMem_foldl_byte l hwf (fun y hy hc => ?_) (.inl ⟨(i, v), hl.mpr hiv, hdiv, ?_⟩)
    · obtain ⟨hword, hbit⟩ := hc
      rw [hmod, storeMask_getLsbD r y.1 hj] at hbit
      obtain ⟨i', v'⟩ := y
      obtain rfl : v = v' := hdiv.symm.trans hword
      obtain rfl : i' = i := (hl.mp hy).1.lane_unique hiv.1 fun hop =>
        (hbit (hop.resolve_left hldx)).symm.trans (hhalf (hop.resolve_left hldx))
      rw [hmod]
    · rw [hmod]
      exact (storeMask_getLsbD r i hj).mpr hhalf
  refine ⟨fun hstx i v hiv => ⟨?_, ?_⟩, fun hstx i v hiv => ⟨?_, ?_⟩, fun a ha => ?_, fun v => ?_⟩
  · refine word_eq_of_bytes fun j hj => (hbyte hiv hj fun h => absurd h hstx).trans ?_
    rw [storeData, if_neg hstx]
  · exact storeMem_foldl_psn l hwf hstx (.inl ⟨(i, v), hl.mpr hiv, rfl⟩)
  · rw [← storeData_half hstx]
    split
    · exact half_eq_of_bytes (lo := 0) fun j hlo hhi => hbyte hiv (by omega) fun _ => by omega
    · exact half_eq_of_bytes (lo := 4) fun j hlo hhi => hbyte hiv (by omega) fun _ => by omega
  · rw [storeMem_foldl_psn_half l hwf hstx, List.any_eq_true.mpr ⟨(i, v), hl.mpr hiv, decide_eq_true rfl⟩, Bool.and_true]
  · refine storeMem_foldl_byte l hwf (fun y hy hc => ?_) (.inr rfl)
    obtain ⟨hword, hbit⟩ := hc
    obtain ⟨hstx, hne⟩ := ha y.1 y.2 (hl.mp hy) hword
    exact absurd ((storeMask_getLsbD r y.1 (Nat.mod_lt a (by decide))).mp hbit hstx) hne
  · rw [storeMem_foldl_isFull l hwf, fills_iff]
    refine or_congr Iff.rfl (and_congr Iff.rfl ⟨fun ⟨y, hy, hv⟩ => ⟨y.1, hl.mp (hv ▸ hy)⟩, fun ⟨i, hi⟩ =>
      ⟨(i, v), hl.mpr hi, rfl⟩⟩)

/-! ### What an access does, by its instruction (R258, R265, R267, R269) -/

section DoAcc

variable {s : State} {k : Nat} {r : Req} {x : Acc}

theorem doAcc_load (turn : Bool) (hop : r.op ∈ ([.ld, .ldx, .ldch, .lls, .ldf] : List Op)) :
    s.doAcc k r turn x = (s, s.loadAcc k r x, 0) := by
  simp only [List.mem_cons, List.not_mem_nil, or_false] at hop
  rcases hop with h | h | h | h | h <;> rw [State.doAcc, Req.writes, h] <;> rfl

theorem doAcc_lde (turn : Bool) (hop : r.op = .lde) :
    s.doAcc k r turn x = (s.fullAcc k r x false, s.loadAcc k r x, 0) := by
  rw [State.doAcc, hop]

theorem doAcc_store (turn : Bool) (hop : r.op ∈ ([.st, .stx, .sls, .ste, .stf] : List Op)) :
    s.doAcc k r turn x = ((s.storeAcc k r turn x).1, r.res, (s.storeAcc k r turn x).2) := by
  simp only [List.mem_cons, List.not_mem_nil, or_false] at hop
  rcases hop with h | h | h | h | h <;> rw [State.doAcc, Req.writes, h] <;> rfl

theorem doAcc_feq (turn : Bool) (hop : r.op = .feq) : s.doAcc k r turn x = (s, s.feqAcc k r x, 0) := by
  rw [State.doAcc, hop]

theorem doAcc_feclr (turn : Bool) (hop : r.op = .feclr) :
    s.doAcc k r turn x = (s.fullAcc k r x (r.md / 4 = 1), r.res, 0) := by
  rw [State.doAcc, hop]

theorem doAcc_satom (turn : Bool) (hop : r.op = .satom) : s.doAcc k r turn x =
    (s.putWord (flatWord k x) 0xFF (atomOp r.md (s.mem.word (flatWord k x)) (r.dat.lanes.get x.lane))
        (s.mem.isPsn (flatWord k x) || r.dat.psn),
      putLane r.res x.lane (s.mem.word (flatWord k x)) (s.mem.isPsn (flatWord k x) || r.dat.psn) true, 0) := by
  rw [State.doAcc, hop]

/-! ### Full-empty conditions (R265) -/

theorem feHolds_load (hop : r.op = .ldf ∨ r.op = .lde) :
    s.feHolds k r x = (s.touches k r x).all fun y => s.mem.isFull y.2 := by
  rcases hop with h | h <;> rw [State.feHolds, h]

theorem feHolds_stf (hop : r.op = .stf) : s.feHolds k r x = (s.touches k r x).all fun y => !s.mem.isFull y.2 := by
  rw [State.feHolds, hop]

/-- The other instructions have none. -/
theorem feHolds_always (hldf : r.op ≠ .ldf) (hlde : r.op ≠ .lde) (hstf : r.op ≠ .stf) : s.feHolds k r x = true := by
  unfold State.feHolds
  dsimp only
  split
  next h => exact absurd h hldf
  next h => exact absurd h hlde
  next h => exact absurd h hstf
  next => rfl

/-- An access of an instruction that is not made whole is never held whole. -/
theorem unheld_of_parts (hsatom : r.op ≠ .satom) (hstf : r.op ≠ .stf) : Unheld s k r x := by
  rw [Unheld, Req.whole, decide_eq_false hsatom, decide_eq_false hstf]
  rfl

theorem unheld_of_free (h : ∀ y ∈ s.touches k r x, s.wordHeld y.2 = false) : Unheld s k r x := by
  have hany : ((s.touches k r x).any fun y => s.wordHeld y.2) = false :=
    List.any_eq_false.mpr fun y hy => by rw [h y hy]; exact Bool.false_ne_true
  rw [Unheld, hany, Bool.and_false]

/-- An access that neither waits nor reads and writes at one instant is made in its turn. -/
theorem memPerform_plain {n : Nat} {rest : List Acc} (hr : (s.tile k).pe.reqs[n]? = some r) (haccs : r.accs = x :: rest)
    (hspace : x.space < 5) (hturn : ItsTurn s k r x) (hop : r.op ∉ ([.ldf, .lde, .stf, .satom] : List Op)) :
    exec (.memPerform k n) s = .next (s.afterAcc k r x rest) := by
  simp only [List.mem_cons, List.not_mem_nil, or_false, not_or] at hop
  obtain ⟨hldf, hlde, hstf, hsatom⟩ := hop
  exact memPerform_performs hr haccs (unheld_of_parts hsatom hstf) hspace hturn (feHolds_always hldf hlde hstf)

end DoAcc

/-! ### Full-empty bits of an access -/

theorem foldl_putFull_isFull (l : List (Nat × Nat)) (full : Bool) {s : State} (h : s.mem.wf = true) (v : Nat) :
    (l.foldl (fun s y => s.putFull y.2 full) s).mem.isFull v =
      if l.any (fun y => decide (y.2 = v)) then full else s.mem.isFull v := by
  induction l generalizing s with
  | nil => rfl
  | cons y rest ih =>
    have hstep : (s.putFull y.2 full).mem.isFull v = if v = y.2 then full else s.mem.isFull v :=
      Mem.isFull_setFull y.2 full h v
    rw [List.foldl_cons, ih (Mem.setFull_wf _ _ h), hstep, List.any_cons]
    by_cases hv : y.2 = v
    · rw [if_pos hv.symm, decide_eq_true hv, Bool.true_or, if_pos rfl, ite_self]
    · rw [if_neg (Ne.symm hv), decide_eq_false hv, Bool.false_or]

theorem fullAcc_noted (s : State) (k : Nat) (r : Req) (x : Acc) (full : Bool) : WordsNoted s (s.fullAcc k r x full) :=
  WordsNoted.foldl (fun t (y : Nat × Nat) => WordsNoted.putFull t y.2 full) (s.touches k r x) s

/-- What FEQ puts into the lane of a word (R267). -/
def State.feqLane (s : State) (r : Req) (y : Nat × Nat) : Word × Bool × Bool :=
  (if s.mem.isFull y.2 != decide (r.md / 4 = 1) then BitVec.allOnes 64 else 0, false, true)

theorem WordsNoted.pe {s t : State} (h : WordsNoted s t) (j : Nat) : (t.tile j).pe = (s.tile j).pe := by
  obtain ⟨cs, hs, hj⟩ := h.tile j
  rw [hj]
  rfl

/-! ### Performed accesses as the statements tell them -/

section Performed

variable {s : State} {k n : Nat} {r : Req} {x : Acc} {rest : List Acc}

/-- What a load leaves. -/
structure LoadLeaves (s t : State) (k : Nat) (r : Req) (x : Acc) (rest : List Acc) : Prop where
  byte : ∀ a, t.mem.byte a = s.mem.byte a
  full : ∀ v, t.mem.isFull v = true ↔ s.mem.isFull v = true ∧ ¬(r.op = .lde ∧ ∃ i, LaneWord k r x i v)
  leaves : Leaves s t k r rest (Loaded s k r x)

variable (hr : r ∈ (s.tile k).pe.reqs) (hspace : x.space < 5) (hlane : x.lane < 8)
include hr

include hspace hlane in
theorem load_leaves (hop : r.op ∈ ([.ld, .ldx, .ldch, .lls, .ldf, .lde] : List Op)) (hwf : s.mem.wf = true) :
    LoadLeaves s (s.afterAcc k r x rest) k r x rest := by
  have hwrites : r.writes = false := by
    simp only [List.mem_cons, List.not_mem_nil, or_false] at hop
    rcases hop with h | h | h | h | h | h <;> rw [Req.writes, h]
  have hloaded : Loaded s k r x (s.loadAcc k r x) := loadAcc_loaded hspace hlane hwrites
  by_cases hlde : r.op = .lde
  · have hnoted := fullAcc_noted s k r x false
    rw [State.afterAcc_eq (doAcc_lde false hlde)]
    refine ⟨fun a => ?_, fun v => ?_, performed_leaves 0 hr (hnoted.pe k) hloaded⟩
    · rw [State.performed_mem, hnoted.byte]
    · rw [State.performed_mem, State.fullAcc, foldl_putFull_isFull _ _ hwf]
      have htouched : ((s.touches k r x).any fun y => decide (y.2 = v)) = true ↔ ∃ i, LaneWord k r x i v := by
        rw [List.any_eq_true]
        refine ⟨fun ⟨⟨i, u⟩, hiu, hv⟩ => ?_, fun ⟨i, hi⟩ =>
          ⟨(i, v), (mem_touches_laneWord hspace hlane hwrites).mpr hi, decide_eq_true rfl⟩⟩
        obtain rfl : u = v := of_decide_eq_true hv
        exact ⟨i, (mem_touches_laneWord hspace hlane hwrites).mp hiu⟩
      by_cases hv : ∃ i, LaneWord k r x i v
      · rw [if_pos (htouched.mpr hv)]
        exact iff_of_false Bool.false_ne_true fun h => h.2 ⟨hlde, hv⟩
      · rw [if_neg (mt htouched.mp hv)]
        exact ⟨fun h => ⟨h, fun h' => hv h'.2⟩, fun h => h.1⟩
  · have hmem : r.op ∈ ([.ld, .ldx, .ldch, .lls, .ldf] : List Op) := by
      simp only [List.mem_cons, List.not_mem_nil, or_false] at hop ⊢
      tauto
    rw [State.afterAcc_eq (doAcc_load false hmem)]
    refine ⟨fun a => ?_, fun v => ?_, performed_leaves 0 hr rfl hloaded⟩
    · rw [State.performed_mem]
    · rw [State.performed_mem]
      exact ⟨fun h => ⟨h, fun h' => hlde h'.1⟩, fun h => h.1⟩

include hspace hlane in
theorem store_leaves (hop : r.op ∈ ([.st, .stx, .sls, .ste, .stf] : List Op)) (hsls : r.op = .sls → r.beat = false)
    (hwf : s.mem.wf = true) (hfree : ∀ y ∈ s.touches k r x, s.wordHeld y.2 = false) :
    Stored s k r x (s.afterAcc k r x rest).mem ∧ Leaves s (s.afterAcc k r x rest) k r rest (· = r.res) := by
  have hldx : r.op ≠ .ldx := fun h => by rw [h] at hop; exact absurd hop (by decide)
  have hdo := doAcc_store (s := s) (k := k) (x := x) false hop
  rw [storeAcc_eq, storeSteps_free _ hfree] at hdo
  obtain ⟨hmem, hpe⟩ := foldl_storeLane r (s.touches k r x) s
  rw [State.afterAcc_eq hdo, State.performed_mem, hmem]
  exact ⟨storeMem_stored hwf hldx (mem_touches_laneStored hspace hlane hop hsls), performed_leaves 0 hr (hpe k) rfl⟩

include hspace in
/-- A lane's store at a bank that holds writes joins them (R239). -/
theorem heldStore_leaves (hop : r.op = .st) (hbeat : r.beat = false) {b i : Nat} (hbank : bankOf (flatWord k x) = some (b, i))
    (hheld : s.wordHeld (flatWord k x) = true) :
    (s.afterAcc k r x rest).mem = s.mem ∧ Leaves s (s.afterAcc k r x rest) k r rest (· = r.res) ∧
      ((s.afterAcc k r x rest).tile b).eng.heldWrites = (s.tile b).eng.heldWrites ++
        [⟨flatWord k x, .req k r.ticket, .store 0xFF (r.dat.lanes.get x.lane) r.dat.psn false⟩] := by
  have hnoted := WordsNoted.queueHeld s (flatWord k x) (.req k r.ticket) (.store 0xFF (r.dat.lanes.get x.lane) r.dat.psn false)
  have hdo : s.doAcc k r false x = (s.queueHeld (flatWord k x) (.req k r.ticket)
      (.store 0xFF (r.dat.lanes.get x.lane) r.dat.psn false), r.res, 1) := by
    rw [doAcc_store false (by rw [hop]; decide), storeAcc_eq,
      touches_lane hspace hbeat (by rw [hop]; decide) (by rw [hop]; decide)]
    simp only [List.foldl_cons, List.foldl_nil, State.storeStep, hop, reduceCtorEq, if_false, State.storeWord, hheld, fills]
    rfl
  rw [State.afterAcc_eq hdo]
  refine ⟨?_, performed_leaves 1 hr (hnoted.pe k) rfl, ?_⟩
  · rw [State.performed_mem, State.queueHeld, hbank]
    rfl
  · rw [State.performed_eng, State.queueHeld, hbank]
    simp only [State.tile_setTile]

include hspace hlane in
/-- FEQ reads full-empty bits (R267). -/
theorem feq_leaves (hop : r.op = .feq) (hbeat : r.beat = true) : (s.afterAcc k r x rest).mem = s.mem ∧
    Leaves s (s.afterAcc k r x rest) k r rest fun y => y.fmt = r.res.fmt ∧ y.mask = r.res.mask ∧ y.psn = r.res.psn ∧
      ∀ i < 8, y.lanes.get i =
        if s.mem.isFull (flatWord k x + i) != decide (r.md / 4 = 1) then BitVec.allOnes 64 else 0 := by
  have hwrites : r.writes = false := by rw [Req.writes, hop]
  obtain ⟨hfmt, -, hpsn⟩ := putLanes_rest (s.feqLane r) (s.touches k r x) r.res
  rw [State.afterAcc_eq (doAcc_feq false hop)]
  refine ⟨State.performed_mem .., performed_leaves 0 hr rfl ⟨hfmt,
    putLanes_mask (s.feqLane r) (s.touches k r x) r.res fun _ _ => rfl, ?_, fun i hi => ?_⟩⟩
  · exact hpsn.trans (by simp [State.feqLane])
  · have hi' : LaneWord k r x i (flatWord k x + i) := ⟨hi, by rw [if_pos hbeat]⟩
    exact (putLanes_in (s.feqLane r) _ r.res ((mem_touches_laneWord hspace hlane hwrites).mpr hi') hi
      (touches_nodup hspace)).1

include hspace in
/-- FECLR writes them (R267). -/
theorem feclr_leaves (hop : r.op = .feclr) (hbeat : r.beat = false) (hwf : s.mem.wf = true) :
    (∀ a, (s.afterAcc k r x rest).mem.byte a = s.mem.byte a) ∧
      (∀ v, (s.afterAcc k r x rest).mem.isFull v =
        if v = flatWord k x then decide (r.md / 4 = 1) else s.mem.isFull v) ∧
      Leaves s (s.afterAcc k r x rest) k r rest (· = r.res) := by
  have hnoted := fullAcc_noted s k r x (r.md / 4 = 1)
  rw [State.afterAcc_eq (doAcc_feclr false hop)]
  refine ⟨fun a => ?_, fun v => ?_, performed_leaves 0 hr (hnoted.pe k) rfl⟩
  · rw [State.performed_mem, hnoted.byte]
  · rw [State.performed_mem, State.fullAcc, touches_lane hspace hbeat (by rw [hop]; decide) (by rw [hop]; decide)]
    exact Mem.isFull_setFull _ _ hwf v

include hlane in
/-- SATOM returns the old word and writes the new one (R269, R270). -/
theorem satom_leaves (hop : r.op = .satom) (hwf : s.mem.wf = true) :
    (∀ a, a / 8 ≠ flatWord k x → (s.afterAcc k r x rest).mem.byte a = s.mem.byte a) ∧
      (s.afterAcc k r x rest).mem.word (flatWord k x) =
        atomOp r.md (s.mem.word (flatWord k x)) (r.dat.lanes.get x.lane) ∧
      (∀ v, (s.afterAcc k r x rest).mem.isFull v = s.mem.isFull v) ∧
      Leaves s (s.afterAcc k r x rest) k r rest fun y => y.lanes.get x.lane = s.mem.word (flatWord k x) ∧
        (∀ i < 8, i ≠ x.lane → y.lanes.get i = r.res.lanes.get i) ∧ y.mask = r.res.mask := by
  rw [State.afterAcc_eq (doAcc_satom false hop)]
  refine ⟨fun a ha => ?_, ?_, fun v => ?_, performed_leaves 0 hr (State.putWord_pe ..)
    ⟨putLane_get _ hlane .., fun i hi hne => putLane_get_ne _ hi hne .., rfl⟩⟩
  · rw [State.performed_mem, State.putWord_mem]
    exact Mem.byte_write_out _ _ _ _ _ (by omega)
  · rw [State.performed_mem, State.putWord_mem]
    exact Mem.word_writeWord_self _ _ _ hwf
  · rw [State.performed_mem, State.putWord_mem]
    exact congrArg (·.contains v) (Mem.write_full ..)

end Performed

/-! ### Conditions told by the lanes of an access -/

section Conditions

variable {s : State} {k : Nat} {r : Req} {x : Acc} (hspace : x.space < 5) (hlane : x.lane < 8)
include hspace hlane

theorem feHolds_load_iff (hop : r.op = .ldf ∨ r.op = .lde) :
    s.feHolds k r x = true ↔ ∀ i v, LaneWord k r x i v → s.mem.isFull v = true := by
  have hwrites : r.writes = false := by rcases hop with h | h <;> rw [Req.writes, h]
  rw [feHolds_load hop, List.all_eq_true]
  exact ⟨fun h i v hiv => h (i, v) ((mem_touches_laneWord hspace hlane hwrites).mpr hiv),
    fun h y hy => h y.1 y.2 ((mem_touches_laneWord hspace hlane hwrites).mp hy)⟩

theorem feHolds_stf_iff (hop : r.op = .stf) :
    s.feHolds k r x = true ↔ ∀ i v, LaneStored k r x i v → s.mem.isFull v = false := by
  have htouch : ∀ {i v}, (i, v) ∈ s.touches k r x ↔ LaneStored k r x i v :=
    mem_touches_laneStored hspace hlane (by rw [hop]; decide) fun h => by rw [hop] at h; cases h
  rw [feHolds_stf hop, List.all_eq_true]
  simp only [Bool.not_eq_true']
  exact ⟨fun h i v hiv => h (i, v) (htouch.mpr hiv), fun h y hy => h y.1 y.2 (htouch.mp hy)⟩

theorem touches_free (hop : r.op ∈ ([.st, .stx, .sls, .ste, .stf] : List Op)) (hsls : r.op = .sls → r.beat = false)
    (hfree : ∀ i v, LaneStored k r x i v → s.wordHeld v = false) : ∀ y ∈ s.touches k r x, s.wordHeld y.2 = false :=
  fun y hy => hfree y.1 y.2 ((mem_touches_laneStored hspace hlane hop hsls).mp hy)

end Conditions

/-- Settles O33: in its turn, or woken first, a request's next access is made, and what it leaves is told by its instruction;
a request whose full-empty condition does not hold waits. -/
theorem accessesArePerformed : Obligations.AccessesArePerformed := by
  intro s k n r x rest hget haccs hspace hlane hsls hwf _ w turn waits free stored
  have hr : r ∈ (s.tile k).pe.reqs := List.mem_of_getElem? hget
  have hturn : turn → ItsTurn s k r x := fun ⟨hstands, hfront, hunheld, hawake⟩ => ⟨hstands, hfront, hunheld, hawake⟩
  have hne : ∀ {o : Op} {l : List Op}, r.op ∈ l → o ∉ l → r.op ≠ o := fun hl ho h => ho (h ▸ hl)
  have hsync : r.op = .ldf ∨ r.op = .lde → r.op ∈ ([.ld, .ldx, .ldch, .lls, .ldf, .lde] : List Op) := by
    rintro (h | h) <;> rw [h] <;> decide
  have hstores : r.op = .stf → r.op ∈ ([.st, .stx, .sls, .ste, .stf] : List Op) := fun h => by rw [h]; decide
  have hloads : r.op ∈ ([.ld, .ldx, .ldch, .lls, .ldf, .lde] : List Op) → Unheld s k r x := fun hop =>
    unheld_of_parts (hne hop (by decide)) (hne hop (by decide))
  have hfree : r.op ∈ ([.st, .stx, .sls, .ste, .stf] : List Op) → free → ∀ y ∈ s.touches k r x, s.wordHeld y.2 = false :=
    fun hop => touches_free hspace hlane hop hsls
  refine ⟨?loads, ?loadsWait, ?loadsWake, ?stores, ?storesWait, ?storesWake, ?storesHeld, ?feq, ?feclr, ?satom⟩
  case loads =>
    intro hop ht hfull
    have hfe : s.feHolds k r x = true := by
      by_cases hcond : r.op = .ldf ∨ r.op = .lde
      · exact (feHolds_load_iff hspace hlane hcond).mpr (hfull hcond)
      · exact feHolds_always (mt .inl hcond) (mt .inr hcond) (hne hop (by decide))
    have hleft := load_leaves (rest := rest) hr hspace hlane hop hwf
    exact ⟨_, memPerform_performs hget haccs (hloads hop) hspace (hturn ht) hfe, hleft.byte, hleft.full, hleft.leaves⟩
  case loadsWait =>
    intro hop ht ⟨i, v, hiv, hempty⟩
    have hfe : s.feHolds k r x = false := Bool.eq_false_iff.mpr fun hfe => by
      rw [(feHolds_load_iff hspace hlane hop).mp hfe i v hiv] at hempty
      cases hempty
    exact memPerform_waits hget haccs (hloads (hsync hop)) hspace (hturn ht) hfe
  case loadsWake =>
    intro hop hwaits hfull hfirst
    have hleft := load_leaves (rest := rest) hr hspace hlane (hsync hop) hwf
    exact ⟨_, feWake_performs hget haccs (hloads (hsync hop)) hwaits (hne (hsync hop) (by decide))
      ((feHolds_load_iff hspace hlane hop).mpr hfull) hfirst, hleft.byte, hleft.full, hleft.leaves⟩
  case stores =>
    intro hop ht hf hempty
    have hfe : s.feHolds k r x = true := by
      by_cases hcond : r.op = .stf
      · exact (feHolds_stf_iff hspace hlane hcond).mpr (hempty hcond).2
      · exact feHolds_always (hne hop (by decide)) (hne hop (by decide)) hcond
    obtain ⟨hleft, hleaves⟩ := store_leaves (rest := rest) hr hspace hlane hop hsls hwf (hfree hop hf)
    exact ⟨_, memPerform_performs hget haccs (unheld_of_free (hfree hop hf)) hspace (hturn ht) hfe,
      ⟨hleft.whole, hleft.half, hleft.byte, hleft.full⟩, hleaves⟩
  case storesWait =>
    intro hop _ ht hf ⟨i, v, hiv, hfull⟩
    have hfe : s.feHolds k r x = false := Bool.eq_false_iff.mpr fun hfe => by
      rw [(feHolds_stf_iff hspace hlane hop).mp hfe i v hiv] at hfull
      cases hfull
    exact memPerform_waits hget haccs (unheld_of_free (hfree (hstores hop) hf)) hspace (hturn ht) hfe
  case storesWake =>
    intro hop _ hwaits hf hempty hfirst
    obtain ⟨hleft, hleaves⟩ := store_leaves (rest := rest) hr hspace hlane (hstores hop) hsls hwf (hfree (hstores hop) hf)
    exact ⟨_, feWake_performs hget haccs (unheld_of_free (hfree (hstores hop) hf)) hwaits
      (hne (hstores hop) (by decide)) ((feHolds_stf_iff hspace hlane hop).mpr hempty) hfirst,
      ⟨hleft.whole, hleft.half, hleft.byte, hleft.full⟩, hleaves⟩
  case storesHeld =>
    intro b i hop hbeat hbank ht hheld
    exact ⟨_, memPerform_plain hget haccs hspace (hturn ht) (by rw [hop]; decide),
      heldStore_leaves hr hspace hop hbeat hbank hheld⟩
  case feq =>
    intro hop hbeat ht
    exact ⟨_, memPerform_plain hget haccs hspace (hturn ht) (by rw [hop]; decide), feq_leaves hr hspace hlane hop hbeat⟩
  case feclr =>
    intro hop hbeat ht
    exact ⟨_, memPerform_plain hget haccs hspace (hturn ht) (by rw [hop]; decide), feclr_leaves hr hspace hop hbeat hwf⟩
  case satom =>
    intro hop hbeat ht hheld
    have hmem : r.op ∈ ([.satom] : List Op) := by rw [hop]; decide
    have hunheld : Unheld s k r x := unheld_of_free fun y hy => by
      rw [touches_lane hspace hbeat (hne hmem (by decide)) (hne hmem (by decide))] at hy
      rwa [List.mem_singleton.mp hy]
    exact ⟨_, memPerform_performs hget haccs hunheld hspace (hturn ht)
      (feHolds_always (hne hmem (by decide)) (hne hmem (by decide)) (hne hmem (by decide))),
      satom_leaves hr hlane hop hwf⟩

end Sys2Proof.Machine

/-! ## The halted state (R404) -/

namespace Sys2Proof.Machine

open Sys2Proof

/-- What a step of a halted device leaves: its halt, its tiles, memory, channels, launches, regions and root (R404). -/
structure SameHalted (s t : State) : Prop where
  halted : t.trust.halted = s.trust.halted
  tiles : t.tiles = s.tiles
  mem : t.mem = s.mem
  chans : t.chans = s.chans
  launches : t.launches = s.launches
  regions : t.regions = s.regions
  root : t.root = s.root

theorem SameHalted.refl (s : State) : SameHalted s s := ⟨rfl, rfl, rfl, rfl, rfl, rfl, rfl⟩

/-- Clocks put in place change the cores alone. -/
theorem foldl_setCore (cs : List (Fin 64 × Bool × Core)) (s : State) :
    cs.foldl (fun s c => s.setCore c.1.val c.2.2) s =
      { s with cores := (cs.foldl (fun s c => s.setCore c.1.val c.2.2) s).cores } := by
  refine List.foldlRecOn (motive := fun t : State => t = { s with cores := t.cores }) _ _ rfl fun t ht c _ => ?_
  exact congrArg (fun u : State => u.setCore c.1.val c.2.2) ht

/-- Laying out a cycle of the reference clock moves clocks and events alone. -/
theorem refill_sameHalted (s : State) : SameHalted s s.refill := by
  unfold State.refill
  dsimp only
  rw [foldl_setCore]
  split <;> exact ⟨rfl, rfl, rfl, rfl, rfl, rfl, rfl⟩

/-- An event written to the host's ring touches the queue and host memory. -/
theorem eventWrite_sameHalted {s t : State} (h : execEventWrite s = .next t) : SameHalted s t := by
  unfold execEventWrite at h
  split at h
  · split at h <;> cases h <;> exact ⟨rfl, rfl, rfl, rfl, rfl, rfl, rfl⟩
  · cases h
    exact .refl s

/-- A further class-A alarm erases keys that are gone and silences links. -/
theorem alarmA_sameHalted {s t : State} (a : Fin 3) (hs : s.trust.halted = true) (h : execAlarmA a s = .next t) :
    SameHalted s t := by
  have hrest := State.modLinksOf_rest (s.report 0xC0 none 0 ones (w64 a.val) 0 0) ((List.range 52).filter flitLink)
    LinkDir.silent
  unfold execAlarmA at h
  dsimp only at h
  rw [hrest] at h
  cases h
  exact ⟨hs.symm, rfl, rfl, rfl, rfl, rfl, rfl⟩

/-- A halted device fires no slot. -/
theorem beginFire_halted {s : State} (hs : s.trust.halted = true) (k : Nat) (p : Pool) : s.beginFire k p = .next s := by
  have hidle : s.configured k = false := by rw [State.configured, State.computes, hs]; rfl
  have hmute : s.mayFire k p = false := by rw [State.mayFire, hidle]; rfl
  rw [State.beginFire, hmute, hidle]
  rfl

/-- The steps that a halted device takes (R404). -/
theorem takes_halted {s : State} (hs : s.trust.halted = true) {i : Instr} (h : s.takes i = true) :
    (∃ att ok, i = .coldReset att ok) ∨ i = .eventWrite ∨ ∃ a, i = .alarmA a := by
  unfold State.takes at h
  rw [if_pos hs] at h
  cases i with
  | coldReset att ok => exact .inl ⟨att, ok, rfl⟩
  | eventWrite => exact .inr (.inl rfl)
  | alarmA a => exact .inr (.inr ⟨a, rfl⟩)
  | _ => cases h

/-- A step of a halted device, other than a cold reset, by the head of its schedule. -/
theorem step_sameHalted {s t : State} (hs : s.trust.halted = true)
    (hcold : ∀ att ok, s.agenda.head? ≠ some (.op (.coldReset att ok))) (h : step s = .next t) : SameHalted s t := by
  unfold step at h
  split at h
  case h_1 =>
    cases h
    exact refill_sameHalted s
  case h_2 k p rest _ =>
    rw [beginFire_halted (s := { s with agenda := rest }) hs] at h
    cases h
    exact ⟨rfl, rfl, rfl, rfl, rfl, rfl, rfl⟩
  case h_3 c rest _ =>
    have hidle : s.computes = false := by rw [State.computes, hs]; rfl
    rw [hidle] at h
    cases h
    exact ⟨rfl, rfl, rfl, rfl, rfl, rfl, rfl⟩
  case h_4 i rest hagenda =>
    split at h
    case isFalse =>
      cases h
      exact ⟨rfl, rfl, rfl, rfl, rfl, rfl, rfl⟩
    case isTrue htakes =>
      have same (u : SameHalted { s with agenda := rest } t) : SameHalted s t :=
        ⟨u.halted, u.tiles, u.mem, u.chans, u.launches, u.regions, u.root⟩
      obtain ⟨att, ok, rfl⟩ | rfl | ⟨a, rfl⟩ := takes_halted hs htakes
      · exact absurd (by rw [hagenda]; rfl) (hcold att ok)
      · exact same (eventWrite_sameHalted h)
      · exact same (alarmA_sameHalted a hs h)

/-- Settles O60: a halted device takes no step but a cold reset, an event write or a further alarm. -/
theorem haltedUntilColdReset : Obligations.HaltedUntilColdReset := by
  intro s t hs hcold hstep
  obtain ⟨hhalted, htiles, hmem, hchans, hlaunches, hregions, hroot⟩ := step_sameHalted hs hcold hstep
  exact ⟨hhalted.trans hs, htiles, hmem, hchans, hlaunches, hregions, hroot⟩

end Sys2Proof.Machine

/-! ## Memory stays canonical (log entry 4)

### What leaves memory as it is -/

namespace Sys2Proof.Machine

open Sys2Proof

@[simp] theorem foldl_mem {α : Type} (g : State → α → State) (h : ∀ s x, (g s x).mem = s.mem) (xs : List α) (s : State) :
    
    (xs.foldl g s).mem = s.mem := by
  induction xs generalizing s with
  | nil => rfl
  | cons x rest ih => rw [List.foldl_cons, ih, h]

@[simp] theorem State.report_mem (s : State) (code : Nat) (lseq : Option Nat) (job : Nat) (w2 w3 w4 w5 : Word) :
    (s.report code lseq job w2 w3 w4 w5).mem = s.mem := rfl

@[simp] theorem State.postEvt_mem (s : State) (e : Event) : (s.postEvt e).mem = s.mem := by
  simp [State.postEvt, apply_ite State.mem]

@[simp] theorem State.holdLaunch_mem (s : State) (lseq : Nat) : (s.holdLaunch lseq).mem = s.mem := by
  simp [State.holdLaunch]

@[simp] theorem State.deliverFault_mem (s : State) (k : Nat) (p : Pool) (r : FaultRec) :
    (s.deliverFault k p r).mem = s.mem := by
  unfold State.deliverFault
  dsimp only
  (repeat' split) <;> simp

@[simp] theorem State.raise_mem (s : State) (k : Nat) (p : Pool) (slot : Nat) (code : Nat) (gen : BitVec 8)
    (w3 w4 w5 : Word) : (s.raise k p slot code gen w3 w4 w5).mem = s.mem := by
  simp [State.raise, apply_ite State.mem]

@[simp] theorem State.tlbTouch_mem (s : State) (d : Nat) (uc : Option Nat) (e : TlbEnt) :
    (s.tlbTouch d uc e).mem = s.mem := by
  unfold State.tlbTouch
  split <;> simp

@[simp] theorem State.translate_mem (s : State) (d : Nat) (uc : Option Nat) (job va : Nat) (wr : Bool) :
    (s.translate d uc job va wr).2.mem = s.mem := by
  unfold State.translate
  dsimp only
  (repeat' split) <;> simp

@[simp] theorem State.addHold_mem (s : State) (h : Hold) : (s.addHold h).2.mem = s.mem := rfl

@[simp] theorem State.xlate_mem (s : State) (site : HoldSite) (job lseq va cause level : Nat) (w2 w4 w5 : Word) :
    (s.xlate site job lseq va cause level w2 w4 w5).2.mem = s.mem := rfl

@[simp] theorem State.reach_mem (s : State) (d : Nat) (uc : Option Nat) (job va : Nat) (wr : Bool) :
    (s.reach d uc job va wr).2.mem = s.mem := by
  have h := s.translate_mem d uc job va wr
  unfold State.reach
  split <;> rename_i heq <;> rw [heq] at h <;> exact h

@[simp] theorem State.countBeats_mem (s : State) (k : Nat) (p : Pool) : (s.countBeats k p).mem = s.mem := rfl

@[simp] theorem State.noteRows_mem (s : State) (k : Nat) (undecl : Bool) : (s.noteRows k undecl).mem = s.mem := by
  simp [State.noteRows, apply_ite State.mem]

@[simp] theorem State.creditFor_mem (s : State) (x : PoolSt) (i : Nat) : (s.creditFor x i).mem = s.mem := by
  unfold State.creditFor
  dsimp only
  (repeat' split) <;> simp

@[simp] theorem State.raiseFlt_mem (s : State) (c : Ctx) (e : Flt) : (s.raiseFlt c e).mem = s.mem := by
  simp [State.raiseFlt]

@[simp] theorem State.postHeld_mem (s : State) (k : Nat) (p : Pool) (e : HeldEvt) : (s.postHeld k p e).mem = s.mem := by
  simp [State.postHeld]

@[simp] theorem State.flushEvts_mem (s : State) (k : Nat) (p : Pool) (n : Nat) : (s.flushEvts k p n).mem = s.mem := by
  induction n generalizing s with
  | zero => rfl
  | succ n ih =>
    unfold State.flushEvts
    dsimp only
    split
    · rfl
    · split <;> simp [ih]

@[simp] theorem State.evt_mem (s : State) (k : Nat) (p : Pool) (e : HeldEvt) : (s.evt k p e).mem = s.mem := by
  simp [State.evt]

@[simp] theorem State.spendOut_mem (s : State) (k : Nat) (p : Pool) (n : Nat) : (s.spendOut k p n).mem = s.mem := rfl

@[simp] theorem State.poisonCtl_mem (s : State) (k : Nat) (p : Pool) (e : InFlight) (psn : Bool) :
    (s.poisonCtl k p e psn).mem = s.mem := by
  simp [State.poisonCtl, apply_ite State.mem]

@[simp] theorem State.deliver_mem (s : State) (k : Nat) (p : Pool) (e : InFlight) (t : Tok) :
    (s.deliver k p e t).mem = s.mem := by
  unfold State.deliver
  split <;> simp [State.sendOut_mem]

@[simp] theorem State.complete_mem (s : State) (k : Nat) (p : Pool) (i : Nat) : (s.complete k p i).mem = s.mem := by
  unfold State.complete
  dsimp only
  (repeat' split) <;> simp

@[simp] theorem State.completeDue_mem (s : State) (k : Nat) (p : Pool) (i n : Nat) :
    (s.completeDue k p i n).mem = s.mem := by
  induction n generalizing s i with
  | zero => rfl
  | succ n ih =>
    unfold State.completeDue
    split <;> simp [ih]

@[simp] theorem State.queueHeld_mem (s : State) (w : Nat) (who : HeldBy) (op : HeldOp) :
    (s.queueHeld w who op).mem = s.mem := by
  unfold State.queueHeld
  split <;> simp

@[simp] theorem State.modUnit_mem (s : State) (lseq i : Nat) (f : UnitSt → UnitSt) :
    (s.modUnit lseq i f).mem = s.mem := by
  simp [State.modUnit]

@[simp] theorem State.issueSquash_mem (s : State) (tags : List Nat) : (s.issueSquash tags).mem = s.mem := by
  simp [State.issueSquash, apply_ite State.mem]

@[simp] theorem State.setEntries_mem (s : State) (sl : Nat) (es : List BEntry) : (s.setEntries sl es).mem = s.mem := rfl

@[simp] theorem State.replaceLater_mem (s : State) (lseq unit : Nat) (g : BitVec 8) :
    (s.replaceLater lseq unit g).mem = s.mem := rfl

@[simp] theorem State.abortRun_mem (s : State) (lseq unit : Nat) (g : BitVec 8) :
    (s.abortRun lseq unit g).mem = s.mem := by
  unfold State.abortRun
  dsimp only
  (repeat' split) <;> simp

@[simp] theorem State.abortAll_mem (s : State) (fuel : Nat) (rs : List (Nat × Nat × BitVec 8)) :
    (s.abortAll fuel rs).mem = s.mem := by
  induction fuel generalizing s rs with
  | zero => rfl
  | succ fuel ih =>
    cases rs with
    | nil => rfl
    | cons r rest =>
      unfold State.abortAll
      dsimp only
      split <;> simp [ih]

@[simp] theorem State.abort_mem (s : State) (lseq unit : Nat) (g : BitVec 8) : (s.abort lseq unit g).mem = s.mem := by
  simp [State.abort]

@[simp] theorem State.modEntry_mem (s : State) (sl : Nat) (a : Acr) (line : Nat) (f : BEntry → BEntry) :
    (s.modEntry sl a line f).mem = s.mem := rfl

@[simp] theorem State.putReq_mem (s : State) (k : Nat) (r : Req) : (s.putReq k r).mem = s.mem := rfl

@[simp] theorem State.failReq_mem (s : State) (k : Nat) (r : Req) (code : Nat) (w3 w4 w5 : Word) :
    (s.failReq k r code w3 w4 w5).mem = s.mem := by
  simp [State.failReq]

@[simp] theorem State.kvCfg_mem (s : State) (k : Nat) (r : Req) : (s.kvCfg k r).mem = s.mem := by
  unfold State.kvCfg
  dsimp only
  (repeat' split) <;> simp [State.markActive_mem]

@[simp] theorem State.kvOpen_mem (s : State) (k : Nat) (r : Req) : (s.kvOpen k r).mem = s.mem := by
  unfold State.kvOpen
  dsimp only
  (repeat' split) <;> simp [State.markActive_mem]

@[simp] theorem State.holdReq_mem (s : State) (k : Nat) (r : Req) (n : Nat) : (s.holdReq k r n).mem = s.mem := rfl

@[simp] theorem State.overflowReq_mem (s : State) (k : Nat) (r : Req) (pa : Nat) :
    (s.overflowReq k r pa).mem = s.mem := by
  simp [State.overflowReq]

/-- The state that a task access leaves has the memory `m`. -/
def TaskRes.HasMem (m : Mem) : TaskRes → Prop
  | .done _ _ s => s.mem = m
  | _ => True

/-- The state in which an entry has been found room has the memory `m`. -/
def Room.HasMem (m : Mem) : Room → Prop
  | .ok s => s.mem = m
  | _ => True

theorem State.roomFor_mem (s : State) (sl : Nat) (a : Acr) : (s.roomFor sl a).HasMem s.mem := by
  unfold State.roomFor
  dsimp only
  (repeat' split) <;> simp [Room.HasMem]

theorem State.takeEntry_mem (s : State) (sl : Nat) (a : Acr) (line : Nat) : (s.takeEntry sl a line).HasMem s.mem := by
  have h := s.roomFor_mem sl a
  unfold State.takeEntry
  split
  · rfl
  · split <;> rename_i heq <;> rw [heq] at h
    · exact h
    · trivial
    · trivial

theorem State.taskLoad_mem (s : State) (a : Acr) (pa : Nat) : (s.taskLoad a pa).HasMem s.mem := by
  have h := s.takeEntry_mem (homeSlice pa) (s.atSlice (homeSlice pa) a) (pa / 64)
  unfold State.taskLoad
  dsimp only
  split
  · rfl
  · split <;> rename_i heq <;> rw [heq] at h
    · exact (State.modEntry_mem ..).trans h
    · trivial
    · trivial

theorem State.taskStore_mem (s : State) (a : Acr) (pa : Nat) (mask : BitVec 8) (v : Word) (psn : Bool) :
    (s.taskStore a pa mask v psn).HasMem s.mem := by
  have h := s.takeEntry_mem (homeSlice pa) (s.atSlice (homeSlice pa) a) (pa / 64)
  unfold State.taskStore
  dsimp only
  split
  · rfl
  · split <;> rename_i heq <;> rw [heq] at h
    · exact (State.abortAll_mem ..).trans ((State.modEntry_mem ..).trans h)
    · trivial
    · trivial

theorem State.taskLoads_mem (s : State) (a : Acr) (pa : Nat) (lanes : List Nat) (t : Tok) :
    (s.taskLoads a pa lanes t).1.HasMem s.mem := by
  induction lanes generalizing s t with
  | nil => rfl
  | cons i rest ih =>
    have h := s.taskLoad_mem a (pa + 8 * i)
    unfold State.taskLoads
    split
    · rename_i heq
      rw [heq] at h
      rw [← show _ = s.mem from h]
      exact ih ..
    · exact h

theorem State.taskStores_mem (s : State) (a : Acr) (pa : Nat) (dat : Tok) (lanes : List Nat) :
    (s.taskStores a pa dat lanes).HasMem s.mem := by
  induction lanes generalizing s with
  | nil => rfl
  | cons i rest ih =>
    have h := s.taskStore_mem a (pa + 8 * i) 0xFF (dat.lanes.get i) dat.psn
    unfold State.taskStores
    split
    · rename_i heq
      rw [heq] at h
      rw [← show _ = s.mem from h]
      exact ih ..
    · exact h

theorem State.taskAtom_mem (s : State) (a : Acr) (pa : Nat) (r : Req) (lane : Nat) :
    (s.taskAtom a pa r lane).1.HasMem s.mem := by
  have h := s.taskLoad_mem a pa
  unfold State.taskAtom
  split
  · rename_i heq
    rw [heq] at h
    rw [← show _ = s.mem from h]
    exact State.taskStore_mem ..
  · exact h

theorem State.taskAcc_mem (s : State) (k : Nat) (r : Req) (a : Acc) (pa : Nat) :
    (s.taskAcc k r a pa).1.HasMem s.mem := by
  unfold State.taskAcc
  dsimp only
  split
  · exact State.taskAtom_mem ..
  · split
    · exact State.taskStores_mem ..
    · exact State.taskStore_mem ..
  · split
    · exact State.taskLoads_mem ..
    · have h := s.taskLoad_mem (s.reqAcr k r) pa
      split
      · rename_i heq
        rw [heq] at h
        exact h
      · exact h

@[simp] theorem State.globalNext_mem (s : State) (k : Nat) (r : Req) : (s.globalNext k r).mem = s.mem := by
  unfold State.globalNext
  split
  · rfl
  · rename_i a rest _
    dsimp only
    split
    · rfl
    · have h := s.reach_mem (tileDie k) none (s.reqAcr k r).job a.addr (r.op != .gld)
      split <;> rename_i heq <;> rw [heq] at h
      · rename_i pa _ _ s1
        have hacc := s1.taskAcc_mem k r a pa
        split
        · rename_i hres
          rw [hres] at hacc
          simpa [State.markActive_mem, show _ = s1.mem from hacc] using h
        · simpa using h
        · rfl
      · simpa using h
      · simpa using h

@[simp] theorem State.locateFresh_mem (s : State) (g : Agent) (va : Nat) (wr : Bool) :
    (s.locateFresh g va wr).2.1.mem = s.mem := by
  have h := s.reach_mem g.die (some g.uc) g.job va wr
  unfold State.locateFresh
  split <;> rename_i heq <;> rw [heq] at h <;> exact h

@[simp] theorem State.locate_mem (s : State) (g : Agent) (va : Nat) (wr : Bool) :
    (s.locate g va wr).2.1.mem = s.mem := by
  unfold State.locate
  dsimp only
  (repeat' split) <;> simp

@[simp] theorem State.modStream_mem (s : State) (k n : Nat) (f : Stream → Stream) :
    (s.modStream k n f).mem = s.mem := rfl

@[simp] theorem State.disown_mem (s : State) (k n : Nat) : (s.disown k n).mem = s.mem := rfl

@[simp] theorem State.undamp_mem (s : State) (rid : Option Nat) (key : Nat) : (s.undamp rid key).mem = s.mem := by
  cases rid <;> simp [State.undamp]

@[simp] theorem State.endStream_mem (s : State) (k n : Nat) (after : StreamSt) :
    (s.endStream k n after).mem = s.mem := by
  simp [State.endStream]

@[simp] theorem State.failStream_mem (s : State) (k n : Nat) (slot code : Nat) (gen : BitVec 8) (w3 w4 w5 : Word) :
    (s.failStream k n slot code gen w3 w4 w5).mem = s.mem := by
  simp [State.failStream]

@[simp] theorem State.damp_mem (s : State) (rid : Option Nat) (key : Nat) : (s.damp rid key).2.mem = s.mem := by
  unfold State.damp
  split
  · rfl
  · (repeat' split) <;> rfl

@[simp] theorem State.holdStream_mem (s : State) (k n : Nat) (st : Stream) (va p : Nat) (fault : Option (Nat × Nat)) :
    (s.holdStream k n st va p fault).mem = s.mem := by
  unfold State.holdStream
  split <;> simp

@[simp] theorem State.overflowStream_mem (s : State) (k n : Nat) (st : Stream) (pa : Nat) :
    (s.overflowStream k n st pa).mem = s.mem := by
  simp [State.overflowStream]

/-- The state that a fetch leaves has the memory `m`. -/
def Got.HasMem (m : Mem) : Got → Prop
  | .ok _ _ s => s.mem = m
  | .fault _ _ _ s => s.mem = m
  | .quarantined _ s => s.mem = m
  | .overflow _ s => s.mem = m
  | _ => True

theorem Got.HasMem.of_ok {m : Mem} {x : Got} {ws : Tab (Word × Bool)} {page : Option (Nat × Nat × Nat)} {s : State}
    (h : x.HasMem m) (hx : x = .ok ws page s) : s.mem = m := by
  subst hx
  exact h

/-- The state in which words have been located has the memory `m`. -/
def Located.HasMem (m : Mem) : Located → Prop
  | .ok _ _ s => s.mem = m
  | .fault _ _ _ s => s.mem = m
  | .quarantined _ s => s.mem = m

theorem State.chipFetch_mem (s : State) (core space : Nat) (ws : List Int) (t : Tab (Word × Bool)) :
    (s.chipFetch core space ws t).HasMem s.mem := by
  induction ws generalizing t with
  | nil => rfl
  | cons w rest ih =>
    unfold State.chipFetch
    split
    · exact ih _
    · trivial

theorem State.globalRead_mem (s : State) (g : Agent) (ps : List (Nat × Nat)) (t : Tab (Word × Bool)) :
    (s.globalRead g ps t).HasMem s.mem := by
  induction ps generalizing s t with
  | nil => rfl
  | cons p rest ih =>
    unfold State.globalRead
    split
    · exact ih ..
    · rename_i a _
      have h := s.taskLoad_mem a p.2
      split <;> rename_i heq <;> rw [heq] at h
      · rw [← show _ = s.mem from h]
        exact ih ..
      · rfl
      · trivial

theorem State.locateAll_mem (s : State) (g : Agent) (wr : Bool) (ws : List Int) (t : Tab Nat) :
    (s.locateAll g wr ws t).HasMem s.mem := by
  induction ws generalizing s g t with
  | nil => rfl
  | cons w rest ih =>
    unfold State.locateAll
    split
    · exact ih ..
    · have h := s.locate_mem g (wordVa w) wr
      split <;> rename_i heq <;> rw [heq] at h
      · rw [← show _ = s.mem from h]
        exact ih ..
      · exact h
      · exact h

theorem State.fetch_mem (s : State) (g : Agent) (space : Nat) (ws : List Int) : (s.fetch g space ws).HasMem s.mem := by
  unfold State.fetch
  split
  · have h := s.locateAll_mem g false ws []
    split <;> rename_i heq <;> rw [heq] at h
    · rw [← show _ = s.mem from h]
      exact State.globalRead_mem ..
    · exact h
    · exact h
  · exact State.chipFetch_mem ..

theorem State.streamTrouble_mem {s : State} {x : Got} (k n : Nat) (st : Stream) (p : Nat) (addr : Nat → Int)
    (h : x.HasMem s.mem) : (s.streamTrouble k n st p addr x).mem = s.mem := by
  cases x with
  | ok => rfl
  | range => simp [State.streamTrouble]
  | fault va c l s1 => simpa [State.streamTrouble, Got.HasMem] using h
  | quarantined va s1 => simpa [State.streamTrouble, Got.HasMem] using h
  | overflow pa s1 => simpa [State.streamTrouble, Got.HasMem] using h
  | wait => rfl

@[simp] theorem State.passFormed_mem (s : State) (k n out : Nat) (fm : Formed) :
    (s.passFormed k n out fm).mem = s.mem := by
  unfold State.passFormed
  dsimp only
  (repeat' split) <;> simp [State.streamSend_mem]

theorem State.rdTrouble_mem {s : State} {x : Got} (k n : Nat) (st : Stream) (g : Agent) (ps : List Nat)
    (h : x.HasMem s.mem) : (s.rdTrouble k n st g ps x).mem = s.mem := by
  unfold State.rdTrouble
  dsimp only
  have hgot (c : Bool) (sp : Nat) (ws : List Int) : (if c then s.fetch g sp ws else .wait).HasMem s.mem := by
    cases c
    · trivial
    · exact s.fetch_mem g sp ws
  split
  · rename_i heq
    simp [(hgot _ _ _).of_ok heq]
  · exact State.streamTrouble_mem _ _ _ _ _ h

@[simp] theorem State.rdBeat_mem (s : State) (k n : Nat) (st : Stream) : (s.rdBeat k n st).mem = s.mem := by
  unfold State.rdBeat
  dsimp only
  split
  · simp
  · split
    · simp
    · have h := s.fetch_mem (s.streamAgent k n st) (bSsp st.blk)
      split
      · rename_i heq
        simp [(h _).of_ok heq]
      · exact State.rdTrouble_mem _ _ _ _ _ (h _)

@[simp] theorem State.chBeat_mem (s : State) (k n : Nat) (st : Stream) : (s.chBeat k n st).mem = s.mem := by
  unfold State.chBeat
  dsimp only
  split
  · simp
  · have h := s.fetch_mem (s.streamAgent k n st) (bSsp st.blk)
    split
    · rename_i heq
      simp [(h _).of_ok heq]
    · exact State.streamTrouble_mem _ _ _ _ _ (h _)

@[simp] theorem State.setAgAcc_mem (s : State) (k i : Nat) (q : AgAcc) : (s.setAgAcc k i q).mem = s.mem := rfl

@[simp] theorem State.dropAgAcc_mem (s : State) (k i : Nat) : (s.dropAgAcc k i).mem = s.mem := rfl

@[simp] theorem State.convNan_mem (s : State) (k : Nat) (q : AgAcc) (i : Nat) : (s.convNan k q i).mem = s.mem := rfl

@[simp] theorem State.holdAcc_mem (s : State) (k i : Nat) (q : AgAcc) (va p : Nat) (fault : Option (Nat × Nat)) :
    (s.holdAcc k i q va p fault).mem = s.mem := by
  unfold State.holdAcc
  dsimp only
  split <;> simp

@[simp] theorem State.failAcc_mem (s : State) (k i : Nat) (q : AgAcc) (code : Nat) (w3 w4 w5 : Word) :
    (s.failAcc k i q code w3 w4 w5).mem = s.mem := by
  simp [State.failAcc]

@[simp] theorem State.gatherNext_mem (s : State) (k i : Nat) (q : AgAcc) (p lane : Nat)
    (rest : List (Nat × Nat × Nat)) : 
    (s.gatherNext k i q p lane rest).mem = s.mem := by
  unfold State.gatherNext
  dsimp only
  split
  · simp
  · have h := s.fetch_mem (s.accAgent k q) (bSsp q.blk) (srcWords q.blk p)
    split <;> rename_i heq <;> rw [heq] at h
    · simpa [State.markActive_mem, State.stepAcc_mem, Got.HasMem] using h
    · simp
    · simpa [Got.HasMem] using h
    · simpa [Got.HasMem] using h
    · simpa [Got.HasMem] using h

@[simp] theorem State.freeSpaceOut_mem (s : State) (core t : Nat) : (s.freeSpaceOut core t).mem = s.mem := by
  unfold State.freeSpaceOut
  split <;> simp

@[simp] theorem State.modRun_mem (s : State) (core e : Nat) (f : CopyRun → CopyRun) :
    (s.modRun core e f).mem = s.mem := rfl

@[simp] theorem State.copyEvent_mem (s : State) (core : Nat) (r : CopyRun) (code : Nat) (w3 w4 w5 : Word) :
    (s.copyEvent core r code w3 w4 w5).mem = s.mem := rfl

@[simp] theorem State.failCopy_mem (s : State) (core e : Nat) (r : CopyRun) (code : Nat) (w3 w4 w5 : Word) :
    (s.failCopy core e r code w3 w4 w5).mem = s.mem := rfl

@[simp] theorem State.holdCopy_mem (s : State) (core e : Nat) (r : CopyRun) (va p : Nat) (fault : Option (Nat × Nat)) :
    (s.holdCopy core e r va p fault).mem = s.mem := by
  unfold State.holdCopy
  dsimp only
  (repeat' split) <;> simp

@[simp] theorem State.copyNan_mem (s : State) (core e : Nat) (r : CopyRun) (fmt i : Nat) :
    (s.copyNan core e r fmt i).mem = s.mem := by
  simp [State.copyNan, apply_ite State.mem]

theorem State.copyTrouble_mem {s : State} {x : Got} (core e : Nat) (r : CopyRun) (p : Nat) (h : x.HasMem s.mem) :
    (s.copyTrouble core e r p x).mem = s.mem := by
  cases x with
  | range => simp [State.copyTrouble]
  | fault va c l s1 => simpa [State.copyTrouble, Got.HasMem] using h
  | quarantined va s1 => simpa [State.copyTrouble, Got.HasMem] using h
  | _ => rfl

@[simp] theorem State.pmLoad_mem (s : State) (core e : Nat) (r : CopyRun) (m : PmRun) (w : BitVec 32) :
    (s.pmLoad core e r m w).mem = s.mem := by
  unfold State.pmLoad
  dsimp only
  have h := s.fetch_mem (copyAgent core e r) (bSsp r.blk)
  split
  · rename_i heq
    simp [(h _).of_ok heq]
  · exact State.copyTrouble_mem _ _ _ _ (h _)

@[simp] theorem State.pmHalt_mem (s : State) (core e : Nat) (r : CopyRun) (m : PmRun) :
    (s.pmHalt core e r m).mem = s.mem := rfl

@[simp] theorem State.countUndecl_mem (s : State) (c : Ctx) : (s.countUndecl c).mem = s.mem := by
  unfold State.countUndecl
  dsimp only
  (repeat' split) <;> simp

@[simp] theorem State.mxEvent_mem (s : State) (k slot code : Nat) (w3 w4 : Word) :
    (s.mxEvent k slot code w3 w4).mem = s.mem := rfl

@[simp] theorem State.recompute_mem (s : State) (k : Nat) : (s.recompute k).mem = s.mem := rfl

@[simp] theorem State.recomputeRow_mem (s : State) (k : Nat) : (s.recomputeRow k).mem = s.mem := by
  unfold State.recomputeRow
  split
  · split <;> rfl
  · rfl

@[simp] theorem State.dropHold_mem (s : State) (h : Option Nat) : (s.dropHold h).mem = s.mem := by
  unfold State.dropHold
  split <;> simp

@[simp] theorem State.dropReqs_mem (s : State) (k : Nat) (p : Pool) (test : Req → Bool) :
    (s.dropReqs k p test).mem = s.mem := by
  simp [State.dropReqs]

@[simp] theorem State.dropAccs_mem (s : State) (k : Nat) (test : AgAcc → Bool) : (s.dropAccs k test).mem = s.mem := by
  simp [State.dropAccs]

@[simp] theorem State.idleStreams_mem (s : State) (k : Nat) (test : Stream → Bool) :
    (s.idleStreams k test).mem = s.mem := by
  simp [State.idleStreams, apply_ite State.mem]

@[simp] theorem State.dropHeld_mem (s : State) (test : HeldWrite → Bool) : (s.dropHeld test).mem = s.mem := rfl

@[simp] theorem State.ratifyPool_mem (s : State) (k : Nat) (p : Pool) (tags : List Tag) :
    (s.ratifyPool k p tags).mem = s.mem := by
  unfold State.ratifyPool
  dsimp only
  rw [State.flushEvts_mem]
  split
  · split <;> simp
  · simp

@[simp] theorem State.relabelHeld_mem (s : State) (k : Nat) (fs : List Tag) : (s.relabelHeld k fs).mem = s.mem := rfl

@[simp] theorem State.markOuts_mem (s : State) (k : Nat) (p : Pool) (n : Nat) (m : Msg) :
    (s.markOuts k p n m).mem = s.mem := by
  simp [State.markOuts, apply_ite State.mem]

@[simp] theorem State.modInput_mem (s : State) (ch k : Nat) (p : Pool) (i : Nat) (f : InPort → InPort) :
    (s.modInput ch k p i f).mem = s.mem := rfl

@[simp] theorem State.dropped_mem (s : State) (ch n : Nat) (arrived : Bool) : (s.dropped ch n arrived).mem = s.mem := by
  unfold State.dropped
  split
  · rfl
  · split
    · rfl
    · split
      · split <;> rfl
      · split
        · split <;> simp
        · rfl
        · rfl

@[simp] theorem State.mapLinks_mem (s : State) (ch : Nat) (f : Tok → Tok) : (s.mapLinks ch f).mem = s.mem := rfl

@[simp] theorem State.queueSeg_mem (s : State) (l : Nat) (dir : Bool) (x : Seg) :
    (s.queueSeg l dir x).mem = s.mem := rfl

@[simp] theorem State.storeCredit_mem (s : State) (e n : Nat) : (s.storeCredit e n).mem = s.mem := by
  simp [State.storeCredit, apply_ite State.mem]

@[simp] theorem State.egressBack_mem (s : State) (e : Nat) (pull : Bool) (n : Nat) :
    (s.egressBack e pull n).mem = s.mem := by
  simp [State.egressBack, apply_ite State.mem]

@[simp] theorem State.squashStore_mem (s : State) (e : Nat) (dead : List Tag) (pull : Option Nat) :
    (s.squashStore e dead pull).mem = s.mem := by
  unfold State.squashStore
  dsimp only
  (repeat' split) <;> simp

@[simp] theorem State.freeStore_mem (s : State) (e : Nat) (fs : List Tag) : (s.freeStore e fs).mem = s.mem := by
  simp [State.freeStore, apply_ite State.mem]

@[simp] theorem State.squashEnd_mem (s : State) (ch : Nat) (y : Chan) (dead : List Tag) :
    (s.squashEnd ch y dead).mem = s.mem := by
  unfold State.squashEnd
  dsimp only
  (repeat' split) <;> simp

@[simp] theorem State.squashChan_mem (s : State) (ch : Nat) (y : Chan) (dead : List Tag) (n : Nat) :
    (s.squashChan ch y dead n).mem = s.mem := by
  unfold State.squashChan
  dsimp only
  (repeat' split) <;> simp

@[simp] theorem State.freeEnd_mem (s : State) (ch : Nat) (y : Chan) (fs : List Tag) :
    (s.freeEnd ch y fs).mem = s.mem := by
  unfold State.freeEnd
  dsimp only
  (repeat' split) <;> simp

@[simp] theorem State.freeChan_mem (s : State) (ch : Nat) (y : Chan) (tags : List Tag) (n : Nat) :
    (s.freeChan ch y tags n).mem = s.mem := by
  simp [State.freeChan]

@[simp] theorem State.chanMsg_mem (s : State) (ch n : Nat) (m : Msg) : (s.chanMsg ch n m).mem = s.mem := by
  unfold State.chanMsg
  dsimp only
  (repeat' split) <;> simp

@[simp] theorem State.idlePorts_mem (s : State) (n : Nat) (m : Msg) : (s.idlePorts n m).mem = s.mem := by
  have hstores : ∀ es : List (Nat × Word × Word), (es.foldl (fun s e => match m.kind with
      | .squash => s.squashStore e.1 m.tags none
      | .free => s.freeStore e.1 (m.tags.filter fun g => decide ((s.root.ent g.toNat).st = .ratified))
      | _ => s) s).mem = s.mem := fun es => foldl_mem _ (fun s e => by split <;> simp) es s
  unfold State.idlePorts
  dsimp only
  split
  · rw [foldl_mem _ fun s e => by split <;> simp]
    exact hstores _
  · exact hstores _

@[simp] theorem State.recheck_mem (s : State) (sl : Nat) (es : List BEntry) : (s.recheck sl es).mem = s.mem :=
  foldl_mem _ (fun s e => foldl_mem _ (fun s w => by dsimp only; split <;> simp) _ s) es s

@[simp] theorem State.sliceMsg_mem (s : State) (sl : Nat) (m : Msg) : (s.sliceMsg sl m).mem = s.mem := by
  unfold State.sliceMsg
  dsimp only
  (repeat' split) <;> simp

@[simp] theorem State.heapMsg_mem (s : State) (m : Msg) : (s.heapMsg m).mem = s.mem := by
  simp [State.heapMsg, apply_ite State.mem]

@[simp] theorem State.savedInputs_mem (s : State) (k : Nat) (p : Pool) (m : Msg) (fs : List Tag) :
    (s.savedInputs k p m fs).mem = s.mem :=
  foldl_mem _ (fun s i => by dsimp only; split <;> simp) _ s

theorem State.specSend_mem {s s1 : State} {node job : Nat} {t : Tok} (h : s.specSend node job t = some s1) :
    s1.mem = s.mem := by
  unfold State.specSend at h
  obtain ⟨e, -, h⟩ := Option.bind_eq_some_iff.mp h
  dsimp only at h
  split at h <;> cases h
  simp

@[simp] theorem State.setEp_mem (s : State) (e : Endpoint) (n : Nat) : (s.setEp e n).mem = s.mem := rfl

@[simp] theorem State.markerEnd_mem (s : State) (ch n : Nat) (y : Chan) : (s.markerEnd ch n y).mem = s.mem := by
  unfold State.markerEnd
  dsimp only
  split
  · generalize s.sharedSeq _ n = q
    cases q <;> simp
  · rfl

@[simp] theorem State.rootReq_mem (s : State) (c : Ctx) (g : BitVec 8) (a0 a1 b0 b1 : Word) :
    (s.rootReq c g a0 a1 b0 b1).mem = s.mem := rfl

@[simp] theorem State.ratifyGen_mem (s : State) (t : Nat) : (s.ratifyGen t).mem = s.mem := by
  simp [State.ratifyGen, apply_ite State.mem]

theorem State.takeRoot_mem {s s1 : State} {ops : List Op} {q : RootReq} (h : s.takeRoot ops = some (q, s1)) :
    s1.mem = s.mem := by
  unfold State.takeRoot at h
  split at h
  · split at h <;> cases h
    rfl
  · cases h

theorem State.forwardReq_mem {s s1 : State} {node : Nat} {q : RootReq} (h : s.forwardReq node q = some s1) :
    s1.mem = s.mem := State.specSend_mem h

@[simp] theorem State.noDomain_mem (s : State) (q : RootReq) : (s.noDomain q).mem = s.mem := rfl

@[simp] theorem State.dropNodes_mem (s : State) (gone : HeapNode → Bool) : (s.dropNodes gone).mem = s.mem := rfl

@[simp] theorem State.servePeers_mem (s : State) : s.servePeers.mem = s.mem :=
  foldl_mem _ (fun _ _ => by rfl) _ _

@[simp] theorem State.issueFrees_mem (s : State) : (s.issueFrees).mem = s.mem := by
  simp [State.issueFrees]

@[simp] theorem State.issueLaunch_mem (s : State) (t : Nat) (e : GenEnt) (ratifies : Bool) :
    (s.issueLaunch t e ratifies).mem = s.mem := by
  simp [State.issueLaunch]

@[simp] theorem State.launchAbort_mem (s : State) (t : Nat) (lseq unit tok : Nat) :
    (s.launchAbort t lseq unit tok).mem = s.mem := by
  unfold State.launchAbort
  split <;> simp

@[simp] theorem State.endSpeculation_mem (s0 : State) (lseq : Nat) : (s0.endSpeculation lseq).mem = s0.mem := by
  simp [State.endSpeculation]

@[simp] theorem State.gateNow_mem (s : State) (k : Nat) : (s.gateNow k).mem = s.mem := rfl

@[simp] theorem State.creditInputs_mem (s : State) (k : Nat) : (s.creditInputs k).mem = s.mem :=
  foldl_mem _ (fun s i => by cases i.chan <;> simp) _ s

@[simp] theorem State.dropStores_mem (s : State) (scope : List Nat) (lseq : Nat) :
    (s.dropStores scope lseq).mem = s.mem :=
  State.abortAll_mem ..

@[simp] theorem State.dropHolds_mem (s : State) (lseq : Nat) : (s.dropHolds lseq).mem = s.mem :=
  foldl_mem _ (fun s h => by split <;> simp [State.abortLoad_mem]) _ s

@[simp] theorem State.dropChannels_mem (s : State) (lseq : Nat) : (s.dropChannels lseq).mem = s.mem := by
  simp [State.dropChannels]

@[simp] theorem State.dropFrames_mem (s : State) (lseq : Nat) : (s.dropFrames lseq).mem = s.mem := by
  simp [State.dropFrames]

@[simp] theorem State.modGraph_mem (s : State) (j p i : Nat) (f : Graph → Graph) :
    (s.modGraph j p i f).mem = s.mem := rfl

@[simp] theorem State.modPhase_mem (s : State) (j p : Nat) (f : Phase → Phase) : (s.modPhase j p f).mem = s.mem := rfl

@[simp] theorem State.retirePhase_mem (s : State) (j p : Nat) : (s.retirePhase j p).mem = s.mem := rfl

@[simp] theorem State.retireGraph_mem (s : State) (j p i : Nat) : (s.retireGraph j p i).mem = s.mem := rfl

@[simp] theorem State.postRetired_mem (s : State) (l : Launch) (gdone pdone : Bool) :
    (s.postRetired l gdone pdone).mem = s.mem := by
  simp [State.postRetired, apply_ite State.mem]

@[simp] theorem State.dropEvents_mem (s : State) (lseq : Nat) : (s.dropEvents lseq).mem = s.mem :=
  foldl_mem _ (fun _ _ => by rfl) _ s

@[simp] theorem State.retire_mem (s : State) (lseq : Nat) (cause : Option Nat) (level : Nat) :
    (s.retire lseq cause level).mem = s.mem := by
  unfold State.retire
  dsimp only
  (repeat' split) <;> simp

@[simp] theorem State.finishTeardowns_mem (s : State) : s.finishTeardowns.mem = s.mem :=
  foldl_mem _ (fun _ _ => by rfl) _ s

@[simp] theorem State.settleSusp_mem (s : State) : s.settleSusp.mem = s.mem := foldl_mem _ (fun _ _ => by rfl) _ s

@[simp] theorem State.dropPackets_mem (s : State) (c : Scope) : (s.dropPackets c).2.mem = s.mem := rfl

@[simp] theorem State.cancelWork_mem (s : State) (c : Scope) : (s.cancelWork c).mem = s.mem := by
  unfold State.cancelWork
  dsimp only
  rw [foldl_mem _ fun s x => by simp, foldl_mem _ fun s g => by simp]

@[simp] theorem State.ratifyOldest_mem (s : State) (job : Nat) : (s.ratifyOldest job).mem = s.mem := by
  unfold State.ratifyOldest
  split <;> simp

@[simp] theorem State.leaveEgress_mem (s : State) (bid : Nat) : (s.leaveEgress bid).mem = s.mem :=
  foldl_mem _ (fun s c => by dsimp only; split <;> simp) _ s

@[simp] theorem State.dropChans_mem (s : State) (bid : Nat) : (s.dropChans bid).mem = s.mem := rfl

@[simp] theorem State.dissolve_mem (s : State) (rid : Nat) : (s.dissolve rid).mem = s.mem := by
  unfold State.dissolve
  dsimp only
  (repeat' split) <;> simp [State.gate_mem, State.abortLoad_mem]

@[simp] theorem State.portCheck_mem (s : State) (k : Nat) (p : Pool) : (s.portCheck k p).mem = s.mem := by
  unfold State.portCheck
  split <;> simp

@[simp] theorem State.enter_mem (s : State) (ch k : Nat) (p : Pool) (i : Nat) (t : Tok) :
    (s.enter ch k p i t).mem = s.mem := rfl

@[simp] theorem State.enterBeats_mem (s : State) (ch : Nat) (y : Chan) (k : Nat) (p : Pool) (i : Nat) (t : Tok) (n : Nat) :
    
    (s.enterBeats ch y k p i t n).2.mem = s.mem := by
  induction n generalizing s with
  | zero => rfl
  | succ n ih =>
    unfold State.enterBeats
    dsimp only
    split
    · rfl
    · split <;> split <;> simp [ih]

@[simp] theorem State.storeBeat_mem (s : State) (ch : Nat) (y : Chan) (e : Nat) : (s.storeBeat ch y e).mem = s.mem := by
  unfold State.storeBeat
  dsimp only
  (repeat' split) <;> simp

@[simp] theorem State.modOutput_mem (s : State) (ch k : Nat) (p : Pool) (o : Nat) (f : OutPort → OutPort) :
    (s.modOutput ch k p o f).mem = s.mem := rfl

@[simp] theorem State.takeEarly_mem (s : State) (ch : Nat) : (s.takeEarly ch).mem = s.mem := by
  unfold State.takeEarly
  dsimp only
  (repeat' split) <;> simp

@[simp] theorem State.dropCredits_mem (s : State) (ch : Nat) : (s.dropCredits ch).mem = s.mem := rfl

@[simp] theorem State.setCredits_mem (s : State) (ch depth : Nat) : (s.setCredits ch depth).mem = s.mem := by
  unfold State.setCredits
  dsimp only
  (repeat' split) <;> simp

@[simp] theorem State.noteWait_mem (s : State) (bid : Nat) : (s.noteWait bid).mem = s.mem := by
  unfold State.noteWait
  split
  · split <;> rfl
  · rfl

@[simp] theorem State.placeToken_mem (s : State) (bid : Nat) (t : Tok) : (s.placeToken bid t).mem = s.mem := by
  simp [State.placeToken]

@[simp] theorem State.endAborted_mem (s : State) (lseq i : Nat) (g : BitVec 8) :
    (s.endAborted lseq i g).mem = s.mem := by
  unfold State.endAborted
  split
  · split <;> simp
  · rfl

@[simp] theorem State.finishOldest_mem (s : State) (l : Launch) (blk : Nat) (b : Block) :
    (s.finishOldest l blk b).mem = s.mem := by
  simp [State.finishOldest, apply_ite State.mem]

@[simp] theorem State.finishRun_mem (s : State) (l : Launch) (blk : Nat) (g : BitVec 8) :
    (s.finishRun l blk g).mem = s.mem := by
  simp [State.finishRun, apply_ite State.mem]

@[simp] theorem State.takePacket_mem (s : State) (q : Nat) (x : LaunchQ) (ws : List Word) :
    (s.takePacket q x ws).mem = s.mem := by
  unfold State.takePacket
  dsimp only
  split <;> simp

@[simp] theorem State.readPacket_mem (s : State) (q : Nat) : (s.readPacket q).mem = s.mem := by
  unfold State.readPacket
  dsimp only
  (repeat' split) <;> simp

@[simp] theorem State.joinWork_mem (s : State) (l : Launch) : (s.joinWork l).mem = s.mem := by
  unfold State.joinWork
  dsimp only
  (repeat' split) <;> simp

@[simp] theorem State.newRegion_mem (s : State) (p : Spot) (wm1 hm1 : Nat) : (s.newRegion p wm1 hm1).mem = s.mem :=
  foldl_mem _ (fun _ _ => by rfl) _ (s.setRegion (regionKey p wm1 hm1) (Region.fresh p wm1 hm1))

@[simp] theorem State.placeBlock_mem (s : State) (l : Launch) (t : ImgTab) (x : Taken) :
    (s.placeBlock l t x).mem = s.mem := by
  simp [State.placeBlock, apply_ite State.mem]

@[simp] theorem State.createUnits_mem (s : State) (l : Launch) (taken : List Taken) (cs : List Circuit)
    (tags : Tab (Nat × Nat)) : (s.createUnits l taken cs tags).mem = s.mem := by
  unfold State.createUnits
  dsimp only
  rw [foldl_mem _ fun _ _ => by rfl, State.modLaunch_mem]
  split <;> rfl

@[simp] theorem State.commitPlace_mem (s : State) (d : Nat) (l : Launch) (t : ImgTab) (taken : List Taken) :
    (s.commitPlace d l t taken).mem = s.mem := by
  simp [State.commitPlace, apply_ite State.mem]

@[simp] theorem State.recDone_mem (s : State) (d : Nat) : (s.recDone d).mem = s.mem := rfl

@[simp] theorem State.clearImages_mem (s : State) (d : Nat) : (s.clearImages d).mem = s.mem := rfl

@[simp] theorem State.desync_mem (s : State) (d : Nat) (l : Launch) : (s.desync d l).mem = s.mem := rfl

@[simp] theorem State.requestPre_mem (s : State) (rid why : Nat) : (s.requestPre rid why).mem = s.mem := by
  simp [State.requestPre]

@[simp] theorem State.chose_mem (s : State) (rid : Nat) (r : Region) (w : Nat) : (s.chose rid r w).mem = s.mem := by
  unfold State.chose
  dsimp only
  (repeat' split) <;> simp [State.dropShadows_mem, State.abortLoad_mem]

@[simp] theorem State.fetchWords_mem (s : State) (d job va n : Nat) : (s.fetchWords d job va n).2.mem = s.mem := by
  induction n generalizing s va with
  | zero => rfl
  | succ n ih =>
    have h := s.reach_mem d none job (va % 2 ^ 52) false
    unfold State.fetchWords
    dsimp only
    split <;> rename_i heq <;> rw [heq] at h
    · exact (ih _ _).trans h
    · exact h
    · exact h

@[simp] theorem State.fetchMem_mem (s : State) (d job va : Nat) : (s.fetchMem d job va).2.mem = s.mem := by
  have h := s.fetchWords_mem d job va 67
  unfold State.fetchMem
  split <;> rename_i heq <;> rw [heq] at h
  · exact h
  · dsimp only
    split
    · exact h
    · split <;> exact h

@[simp] theorem State.fetchImage_mem (s : State) (d job va : Nat) : (s.fetchImage d job va).2.mem = s.mem := by
  unfold State.fetchImage
  dsimp only
  (repeat' split) <;> simp

@[simp] theorem State.joinEnds_mem (s : State) (ch : Nat) : (s.joinEnds ch).mem = s.mem := by
  unfold State.joinEnds
  dsimp only
  (repeat' split) <;> simp

@[simp] theorem State.joinTile_mem (s : State) (k : Nat) : (s.joinTile k).mem = s.mem := by
  simp [State.joinTile]

@[simp] theorem State.tileChans_mem (s : State) (k bid : Nat) (img : TileImg) : (s.tileChans k bid img).mem = s.mem :=
  foldl_mem _ (fun s e => by dsimp only; (repeat' split) <;> simp) _ s

@[simp] theorem State.placePermits_mem (s : State) (k : Nat) (img : TileImg) (e : BlkEntry) :
    (s.placePermits k img e).mem = s.mem := by
  simp [State.placePermits, apply_ite State.mem]

@[simp] theorem State.becomeResident_mem (s : State) (rid bid : Nat) : (s.becomeResident rid bid).mem = s.mem := by
  simp [State.becomeResident]

@[simp] theorem State.rekey_mem (s : State) (owner : Nat) (m : Nat × Nat) : (s.rekey owner m).mem = s.mem := by
  unfold State.rekey
  split
  · rfl
  · exact foldl_mem _ (fun _ _ => by rfl) _ _

@[simp] theorem State.passChan_mem (s : State) (m : Nat × Nat) : (s.passChan m).mem = s.mem := by
  simp [State.passChan]

@[simp] theorem State.dropEgress_mem (s : State) (tab : ImgTab) (bid : Nat) (img : TileImg) (k : Nat) :
    (s.dropEgress tab bid img k).mem = s.mem :=
  foldl_mem _ (fun s e => by dsimp only; (repeat' split) <;> simp) _ s

@[simp] theorem State.takeSwaps_mem (s : State) (k : Nat) : (s.takeSwaps k).mem = s.mem := by
  simp [State.takeSwaps]

@[simp] theorem State.passIntra_mem (s : State) (k a b : Nat) (img : TileImg) : (s.passIntra k a b img).mem = s.mem :=
  foldl_mem _ (fun s e => by dsimp only; (repeat' split) <;> simp) _ s

@[simp] theorem State.waveEnds_mem (s : State) (k bid : Nat) (img : TileImg) : (s.waveEnds k bid img).mem = s.mem := by
  simp [State.waveEnds, apply_ite State.mem]

@[simp] theorem State.emitSwaps_mem (s : State) (k : Nat) (t : Tok) : (s.emitSwaps k t).mem = s.mem :=
  foldl_mem _ (fun s e => by split <;> simp [State.sendOut_mem]) _ s

@[simp] theorem State.forgetBlock_mem (s : State) (bid : Nat) (at' : Die → Bool) :
    (s.forgetBlock bid at').mem = s.mem := rfl

@[simp] theorem State.dropXl_mem (s : State) (i : Inv) : (s.dropXl i).mem = s.mem := rfl

@[simp] theorem State.completeXinv_mem (s : State) : (s.completeXinv).mem = s.mem := by
  unfold State.completeXinv
  split <;> simp

@[simp] theorem State.unhold_mem (s : State) (n : Nat) (h : Hold) : (s.unhold n h).mem = s.mem := by
  unfold State.unhold
  split <;> simp

@[simp] theorem State.freeWords_mem (s : State) (n : Nat) : (s.freeWords n).2.mem = s.mem := rfl

@[simp] theorem State.saveFull_mem (s : State) (b : Block) (gone : Bool) : (s.saveFull b gone).mem = s.mem := rfl

@[simp] theorem State.reissue_mem (s : State) (ks : List Nat) : (s.reissue ks).mem = s.mem :=
  foldl_mem _ (fun _ _ => by rfl) _ s

@[simp] theorem State.hbmError_mem (s : State) (pa : Nat) (ue : Bool) : (s.hbmError pa ue).mem = s.mem := by
  simp [State.hbmError, apply_ite State.mem]

@[simp] theorem State.postUe_mem (s : State) (k : Option Nat) (p : Option Pool) (unit : Nat) (w4 : Word) :
    (s.postUe k p unit w4).mem = s.mem := rfl

@[simp] theorem State.postUeFree_mem (s : State) (k : Option Nat) (p : Option Pool) (unit : Nat) :
    (s.postUeFree k p unit).mem = s.mem := rfl

@[simp] theorem State.postUeAny_mem (s : State) (k : Option Nat) : (s.postUeAny k).mem = s.mem := rfl

@[simp] theorem State.askFence_mem (s : State) (k : Nat) : (s.askFence k).mem = s.mem := by
  simp [State.askFence, apply_ite State.mem]

@[simp] theorem State.bankError_mem (s : State) (k : Nat) : (s.bankError k).mem = s.mem := by
  simp [State.bankError, apply_ite State.mem]

@[simp] theorem State.bisqueUe_mem (s : State) (sl i : Nat) : (s.bisqueUe sl i).mem = s.mem := by
  unfold State.bisqueUe
  split <;> simp

@[simp] theorem State.moves_mem (s : State) (y : Chan) : (s.moves y).mem = s.mem := by
  unfold State.moves
  dsimp only
  (repeat' split) <;> simp [State.markActive_mem]

@[simp] theorem State.gather_mem (s : State) (l : Nat) (dir : Bool) : (s.gather l dir).mem = s.mem :=
  foldl_mem _ (fun s c => by
    split
    · dsimp only
      split
      · rfl
      · rw [foldl_mem _ fun _ _ => by rfl]
        simp
    · rfl) _ s

@[simp] theorem State.sendFlit_mem (s : State) (l : Nat) (dir : Bool) : (s.sendFlit l dir).mem = s.mem := by
  simp [State.sendFlit, apply_ite State.mem]

@[simp] theorem State.crossed_mem (s : State) (l : Nat) (dir : Bool) (x : Seg) : (s.crossed l dir x).mem = s.mem := by
  unfold State.crossed
  dsimp only
  (repeat' split) <;> simp

@[simp] theorem State.egressRequest_mem (s : State) (e n : Nat) : (s.egressRequest e n).mem = s.mem := by
  unfold State.egressRequest
  dsimp only
  (repeat' split) <;> simp

@[simp] theorem State.early_mem (s : State) (p xcid c r : Nat) : (s.early p xcid c r).mem = s.mem := rfl

@[simp] theorem State.portSeg_mem (s : State) (p : Nat) (x : Seg) : (s.portSeg p x).mem = s.mem := by
  unfold State.portSeg
  cases x with
  | tok sn dn xc t r => dsimp only; (repeat' split) <;> rfl
  | marker sn dn xc n => dsimp only; (repeat' split) <;> rfl
  | credit sn dn xc n => dsimp only; (repeat' split) <;> simp
  | request sn dn xc n => dsimp only; (repeat' split) <;> simp

/-- The kernel cannot evaluate `msgBits t`, on which the kind is matched, so it is named before the definition is
unfolded. -/
@[simp] theorem State.takeHomeMsg_mem (s : State) (lseq : Nat) (t : Tok) : (s.takeHomeMsg lseq t).mem = s.mem := by
  obtain ⟨f, hf⟩ : ∃ f, f = State.takeHomeMsg := ⟨_, rfl⟩
  obtain ⟨bits, hbits⟩ : ∃ bits, bits = msgBits := ⟨_, rfl⟩
  rw [← hf]
  delta State.takeHomeMsg at hf
  rw [← hbits] at hf
  subst hf
  dsimp only
  split <;> rfl

@[simp] theorem State.takePeerReq_mem (s : State) (d : Domain) (t : Tok) : (s.takePeerReq d t).mem = s.mem := by
  unfold State.takePeerReq
  dsimp only
  split <;> simp

theorem State.takeSpec_mem {s s1 : State} {node : Nat} {t : Tok} (h : s.takeSpec node t = some s1) :
    s1.mem = s.mem := by
  unfold State.takeSpec at h
  split at h
  · split at h <;> cases h
    simp
  · split at h <;> cases h
    rfl
  · split at h <;> cases h
    generalize s.root.domain = dom
    cases dom <;> simp
  · cases h

@[simp] theorem State.specStore_mem (s : State) (e n : Nat) : (s.specStore e n).mem = s.mem := by
  induction n generalizing s with
  | zero => rfl
  | succ n ih =>
    unfold State.specStore
    split
    · split
      · rename_i h
        simp [ih, State.takeSpec_mem h]
      · rfl
    · rw [ih]
    · rfl

@[simp] theorem State.serveSpec_mem (s : State) : s.serveSpec.mem = s.mem :=
  foldl_mem _ (fun s e => by simp) _ s

@[simp] theorem State.discard_mem (s : State) (l : Nat) (dir : Bool) (f : Flit) : (s.discard l dir f).mem = s.mem := rfl

@[simp] theorem State.takeRetry_mem (s : State) (l : Nat) (dir : Bool) : (s.takeRetry l dir).mem = s.mem := by
  unfold State.takeRetry
  dsimp only
  (repeat' split) <;> simp

@[simp] theorem State.acks_mem (s : State) (l : Nat) (dir : Bool) (aseq : BitVec 16) :
    (s.acks l dir aseq).mem = s.mem := by
  simp [State.acks, apply_ite State.mem]

@[simp] theorem State.receiveInner_mem (s : State) (l : Nat) (dir tagOk : Bool) :
    (s.receiveInner l dir tagOk).mem = s.mem := by
  unfold State.receiveInner
  dsimp only
  (repeat' split) <;> simp

@[simp] theorem State.receivePort_mem (s : State) (l : Nat) (f : Flit) (tagOk : Bool) :
    (s.receivePort l f tagOk).mem = s.mem := by
  simp [State.receivePort, apply_ite State.mem]

@[simp] theorem State.linkDown_mem (s : State) (l : Nat) : (s.linkDown l).mem = s.mem := rfl

@[simp] theorem State.laneEvents_mem (s : State) (l : Nat) (old new : List (Nat × Nat)) :
    (s.laneEvents l old new).mem = s.mem := by
  simp [State.laneEvents, apply_ite State.mem]

@[simp] theorem State.xmapEnd_mem (s : State) (e : Nat) (w : Word × Word) : (s.xmapEnd e w).mem = s.mem := rfl

@[simp] theorem State.xmapBegin_mem (s : State) (e : Nat) (w : Word × Word) : (s.xmapBegin e w).mem = s.mem := by
  simp [State.xmapBegin, apply_ite State.mem]

@[simp] theorem State.shareBallast_mem (s : State) (n : Nat) (ks : List Nat) : (s.shareBallast n ks).mem = s.mem := by
  induction ks generalizing s n with
  | nil => rfl
  | cons k ks ih => simp [State.shareBallast, ih]

@[simp] theorem State.gateDueTiles_mem (s : State) (c : Nat) : (s.gateDueTiles c).mem = s.mem :=
  foldl_mem _ State.gateNow_mem _ s

@[simp] theorem State.postAlarmB_mem (s : State) (c i : Nat) : (s.postAlarmB c i).mem = s.mem := rfl

@[simp] theorem State.coldAlarm_mem (s : State) (c : Nat) : (s.coldAlarm c).mem = s.mem := rfl

@[simp] theorem State.measure_mem (s : State) : (s.measure).mem = s.mem := rfl

@[simp] theorem State.modLinksOf_mem (s : State) (ls : List Nat) (f : LinkDir → LinkDir) :
    (s.modLinksOf ls f).mem = s.mem :=
  foldl_mem _ (fun _ _ => by rfl) ls s

@[simp] theorem State.iodPortsDown_mem (s : State) (c : Nat) : (s.iodPortsDown c).mem = s.mem := by
  unfold State.iodPortsDown
  split
  · exact foldl_mem _ (fun _ _ => by rfl) _ s
  · rfl

@[simp] theorem State.alarmB_mem (s : State) (c idx : Nat) : (s.alarmB c idx).mem = s.mem := by
  simp [State.alarmB]

@[simp] theorem State.resetBegin_mem (s : State) (c : Nat) (host : Bool) : (s.resetBegin c host).mem = s.mem := by
  simp [State.resetBegin, apply_ite State.mem]

@[simp] theorem State.resetPre_mem (s : State) (rid : Nat) : (s.resetPre rid).mem = s.mem := by
  unfold State.resetPre
  split
  · rfl
  · split
    · simp
    · split <;> simp

@[simp] theorem State.modLinks_mem (s : State) (c : Nat) (f : LinkDir → LinkDir) : (s.modLinks c f).mem = s.mem := by
  simp [State.modLinks]

@[simp] theorem State.reattest_mem (s : State) (c : Nat) : (s.reattest c).mem = s.mem := by
  simp [State.reattest]

@[simp] theorem State.postFw_mem (s : State) (version : BitVec 32) (r : Nat) : (s.postFw version r).mem = s.mem := rfl

@[simp] theorem State.fwVerified_mem (s : State) (addr : BitVec 64) (c : FwCheck) :
    (s.fwVerified addr c).mem = s.mem := by
  simp [State.fwVerified, apply_ite State.mem]

@[simp] theorem State.spareTile_mem (s : State) (k : Nat) : (s.spareTile k).mem = s.mem := by
  simp [State.spareTile, apply_ite State.mem]

@[simp] theorem State.loseTile_mem (s : State) (k : Nat) : (s.loseTile k).mem = s.mem :=
  foldl_mem _ (fun _ _ => by rfl) _ (s.setCore (tileCore k) { s.core (tileCore k) with exhausted := true })

@[simp] theorem State.stackEvent_mem (s : State) (m c code : Nat) (w4 : Word) (x : Bool × Nat × Bool) :
    (s.stackEvent m c code w4 x).mem = s.mem := rfl

@[simp] theorem State.thermSave_mem (s : State) : (s.thermSave).mem = s.mem := by
  unfold State.thermSave
  split <;> simp

@[simp] theorem State.railsOff_mem (s : State) : s.railsOff.mem = s.mem := by
  unfold State.railsOff
  dsimp only
  rw [foldl_mem _ State.gateNow_mem]
  exact foldl_mem _ (fun s r => by split <;> simp [State.abortLoad_mem, State.dropShadows_mem]) _ s

@[simp] theorem State.attestAgain_mem (ok : BitVec 26) (s : State) (c : Nat) : (s.attestAgain ok c).mem = s.mem := by
  simp [State.attestAgain, apply_ite State.mem]

@[simp] theorem State.thermLoad_mem (s : State) (rid bid : Nat) : (s.thermLoad rid bid).mem = s.mem := by
  unfold State.thermLoad
  dsimp only
  (repeat' split) <;> simp [State.dropShadows_mem, State.abortLoad_mem]

@[simp] theorem State.endPool_mem (s : State) (k : Nat) (p : Pool) : (s.endPool k p).mem = s.mem := by
  simp [State.endPool]

@[simp] theorem State.refill_mem (s : State) : s.refill.mem = s.mem := (refill_sameHalted s).mem

end Sys2Proof.Machine
/-! ## Memory stays canonical (log entry 4)

### What keeps memory canonical: the accesses of banks and engines -/

namespace Sys2Proof.Machine

open Sys2Proof

theorem foldl_mem_wf {α : Type} {g : State → α → State} (hg : ∀ s x, s.mem.wf = true → (g s x).mem.wf = true)
    (xs : List α) {s : State} (h : s.mem.wf = true) : (xs.foldl g s).mem.wf = true := by
  induction xs generalizing s with
  | nil => exact h
  | cons x rest ih => exact ih (hg s x h)

variable {s : State} (h : s.mem.wf = true)
include h

@[simp] theorem State.putWord_wf (w : Nat) (mask : BitVec 8) (v : Word) (psn : Bool) :
    (s.putWord w mask v psn).mem.wf = true := by
  rw [State.putWord_mem]
  exact Mem.write_wf w mask v psn h

@[simp] theorem State.putFull_wf (w : Nat) (full : Bool) : (s.putFull w full).mem.wf = true := Mem.setFull_wf w full h

@[simp] theorem State.writeNow_wf (w : Nat) (mask : BitVec 8) (v : Word) (psn full : Bool) :
    (s.writeNow w mask v psn full).mem.wf = true := by
  unfold State.writeNow
  dsimp only
  split <;> simp [h]

@[simp] theorem State.storeWord_wf (k : Nat) (r : Req) (turn : Bool) (w : Nat) (mask : BitVec 8) (v : Word)
    (full : Bool) : (s.storeWord k r turn w mask v full).1.mem.wf = true := by
  unfold State.storeWord
  split <;> simp [h]

@[simp] theorem State.storeAcc_wf (k : Nat) (r : Req) (turn : Bool) (a : Acc) :
    (s.storeAcc k r turn a).1.mem.wf = true := by
  refine List.foldlRecOn (motive := fun sn : State × Nat => sn.1.mem.wf = true) _ _ h fun sn hsn x _ => ?_
  dsimp only
  split
  · split <;> exact State.storeWord_wf hsn ..
  · exact State.storeWord_wf hsn ..

@[simp] theorem State.fullAcc_wf (k : Nat) (r : Req) (a : Acc) (full : Bool) : (s.fullAcc k r a full).mem.wf = true :=
  foldl_mem_wf (fun _ x hs => State.putFull_wf hs x.2 full) _ h

@[simp] theorem State.doAcc_wf (k : Nat) (r : Req) (turn : Bool) (a : Acc) : (s.doAcc k r turn a).1.mem.wf = true := by
  unfold State.doAcc
  split
  · exact h
  · exact State.fullAcc_wf h ..
  · exact State.fullAcc_wf h ..
  · exact State.putWord_wf h ..
  · split
    · exact State.storeAcc_wf h ..
    · exact h

@[simp] theorem State.performFirst_wf (k : Nat) (r : Req) (turn : Bool) : (s.performFirst k r turn).mem.wf = true := by
  unfold State.performFirst
  split
  · simp [h]
  · split <;> simp [h, State.markActive_mem]

@[simp] theorem State.tryFirst_wf (k : Nat) (r : Req) (turn : Bool) : (s.tryFirst k r turn).mem.wf = true := by
  unfold State.tryFirst
  split
  · simp [h]
  · split <;> simp [h]

@[simp] theorem State.kvWrite_wf (base : Nat) (r : Req) : (s.kvWrite base r).mem.wf = true :=
  foldl_mem_wf (fun _ _ hs => State.putWord_wf (State.putWord_wf hs ..) ..) _ h

@[simp] theorem State.kvPut_wf (k : Nat) (r : Req) : (s.kvPut k r).mem.wf = true := by
  unfold State.kvPut
  dsimp only
  split
  · simp [h]
  · (repeat' split) <;> simp [h, State.markActive_mem]

@[simp] theorem State.wakeUp_wf (n : Nat) : (s.wakeUp n).mem.wf = true := by
  induction n generalizing s with
  | zero => exact h
  | succ n ih =>
    unfold State.wakeUp
    split
    · exact ih (State.performFirst_wf h ..)
    · exact h

@[simp] theorem State.applyHeld_wf (x : HeldWrite) : (s.applyHeld x).mem.wf = true := by
  unfold State.applyHeld
  refine State.wakeUp_wf ?_ _
  dsimp only
  split
  · rw [State.modPool_mem]
    (repeat' split) <;> simp [h, State.countTag_mem]
  · (repeat' split) <;> simp [h, State.countTag_mem]

@[simp] theorem State.releaseHeld_wf (k : Nat) : (s.releaseHeld k).mem.wf = true :=
  foldl_mem_wf (fun _ x hs => State.applyHeld_wf hs x) _ h

@[simp] theorem State.wordDone_wf (who : HeldBy) (core : Nat) (b : Lanes) (w : Nat) :
    (s.wordDone who core b w).mem.wf = true := by
  unfold State.wordDone
  split
  · split <;> simp [h, State.countTag_mem]
  · simp [h, State.countTag_mem]

theorem State.chipStore_wf {who : HeldBy} {core space wd raw : Nat} {bit : Int} {psn : Bool} {ws : List Int}
    {s1 : State} (hs : s.chipStore who core space bit wd raw psn ws = some s1) : s1.mem.wf = true := by
  induction ws generalizing s with
  | nil =>
    cases hs
    exact h
  | cons w rest ih =>
    unfold State.chipStore at hs
    split at hs
    · refine ih ?_ hs
      split <;> simp [h]
    · cases hs

@[simp] theorem State.passWords_wf (k n : Nat) (b : Lanes) (p : Nat) : (s.passWords k n b p).mem.wf = true :=
  foldl_mem_wf (fun _ _ hs => State.wordDone_wf hs ..) _ h

@[simp] theorem State.noteWords_wf (k : Nat) (q : AgAcc) (p : Nat) : (s.noteWords k q p).mem.wf = true := by
  unfold State.noteWords
  dsimp only
  split
  · simp [h]
  · exact foldl_mem_wf (fun _ _ hs => State.wordDone_wf hs ..) _ h

end Sys2Proof.Machine

/-! ### What keeps memory canonical: streams and copies -/

namespace Sys2Proof.Machine

open Sys2Proof

/-- The state that a write of an element leaves has canonical memory. -/
def PutRes.Canon : PutRes → Prop
  | .ok s => s.mem.wf = true
  | .fault _ _ _ s => s.mem.wf = true
  | .quarantined _ s => s.mem.wf = true
  | .overflow _ s => s.mem.wf = true
  | _ => True

/-- The state that an element written by a copy leaves has canonical memory. -/
def CopyPut.Canon : CopyPut → Prop
  | .ok s => s.mem.wf = true
  | _ => True

variable {s : State} (h : s.mem.wf = true)
include h

theorem State.globalStore_canon (a : Acr) (bit : Int) (wd raw : Nat) (psn : Bool) (ws : List (Int × Nat)) :
    (s.globalStore a bit wd raw psn ws).Canon := by
  induction ws generalizing s with
  | nil => exact h
  | cons w rest ih =>
    unfold State.globalStore
    dsimp only
    have hst := s.taskStore_mem a w.2
    split
    · rename_i heq
      have hmem := (congrArg (TaskRes.HasMem s.mem) heq).mp (hst _ _ _)
      exact ih ((congrArg Mem.wf hmem).trans h)
    · exact h
    · trivial

theorem State.putElem_canon (who : HeldBy) (g : Agent) (b : Lanes) (p raw : Nat) (psn : Bool) :
    (s.putElem who g b p raw psn).Canon := by
  unfold State.putElem
  dsimp only
  split
  · split
    · trivial
    · have hloc := s.locateAll_mem g true (bitWords (srcBit b p) (widthOf (bSfmt b))) []
      split <;> rename_i heq <;> rw [heq] at hloc
      · have hstore := State.globalStore_canon ((congrArg Mem.wf hloc).trans h)
        split
        · exact (congrArg Mem.wf hloc).trans h
        · exact hstore ..
      · exact (congrArg Mem.wf hloc).trans h
      · exact (congrArg Mem.wf hloc).trans h
  · split
    · rename_i heq
      exact State.chipStore_wf h heq
    · trivial

@[simp] theorem State.writeNext_wf (k i : Nat) (q : AgAcc) (p lane j : Nat) (rest : List (Nat × Nat × Nat)) :
    (s.writeNext k i q p lane j rest).mem.wf = true := by
  have hafter (u : State) (hu : u.mem.wf = true) (v : AgAcc) :
      ((if decide (q.kind = .agwr) then (u.stepAcc k i v).passWords k q.stream q.blk (p + 1)
        else u.stepAcc k i v).markActive k).mem.wf = true := by
    have hstep : (u.stepAcc k i v).mem.wf = true := by rw [State.stepAcc_mem]; exact hu
    rw [State.markActive_mem]
    split
    · exact State.passWords_wf hstep ..
    · exact hstep
  have hbefore : (if decide (q.kind = .agwr) then s.passWords k q.stream q.blk p else s).mem.wf = true := by
    split
    · exact State.passWords_wf h ..
    · exact h
  unfold State.writeNext
  dsimp only
  split
  · exact hafter _ hbefore _
  · have hput (who : HeldBy) (g : Agent) (b : Lanes) (n raw : Nat) (psn : Bool) :=
      State.putElem_canon hbefore who g b n raw psn
    split <;> rename_i heq
    · rename_i s1
      have hs1 : s1.mem.wf = true := (congrArg PutRes.Canon heq).mp (hput ..)
      have hnoted : (s1.noteWords k q p).mem.wf = true := State.noteWords_wf hs1 ..
      split
      · exact hafter _ (by simpa using hnoted) _
      · exact hafter _ hnoted _
    · simp [h]
    · simpa [PutRes.Canon] using (congrArg PutRes.Canon heq).mp (hput ..)
    · simpa [PutRes.Canon] using (congrArg PutRes.Canon heq).mp (hput ..)
    · simpa [PutRes.Canon] using (congrArg PutRes.Canon heq).mp (hput ..)
    · simp [h]
    · exact h

theorem State.storeBranches_wf {core e raw : Nat} {b : Lanes} {bit : Int} {psn : Bool} {js : List Nat} {s1 : State}
    (hs : s.storeBranches core e b bit raw psn js = .ok s1) : s1.mem.wf = true := by
  induction js generalizing s with
  | nil =>
    cases hs
    exact h
  | cons j rest ih =>
    unfold State.storeBranches at hs
    dsimp only at hs
    split at hs
    · rename_i heq
      exact ih (State.chipStore_wf h heq) hs
    · cases hs

@[simp] theorem State.copyWordDone_wf (core q : Nat) (b : Lanes) (w : Int) :
    (s.copyWordDone core q b w).mem.wf = true := by
  refine foldl_mem_wf (fun u j hu => ?_) _ h
  dsimp only
  rw [State.countTag_mem]
  split
  · split <;> simp [hu]
  · exact hu

@[simp] theorem State.flushWords_wf (core e q : Nat) (b : Lanes) (ws : List Int) :
    (s.flushWords core e q b ws).2.mem.wf = true := by
  induction ws generalizing s with
  | nil => exact h
  | cons w rest ih =>
    unfold State.flushWords
    split
    · exact h
    · exact ih (State.copyWordDone_wf h ..)

@[simp] theorem State.settleCopy_wf (core e : Nat) : (s.settleCopy core e).mem.wf = true := by
  unfold State.settleCopy
  split
  · simp [h]
  · exact h

theorem State.copyPut_canon (core e : Nat) (r : CopyRun) (bit : Int) (next : Option Int) (raw : Nat) (psn : Bool) :
    (s.copyPut core e r bit next raw psn).Canon := by
  unfold State.copyPut
  dsimp only
  split
  · trivial
  · split
    · trivial
    · rename_i heq
      refine State.settleCopy_wf ?_ ..
      rw [State.modRun_mem]
      exact State.storeBranches_wf h heq

theorem State.copyWrote_wf (core e : Nat) (r : CopyRun) (p : Nat) (nan : Bool) {x : CopyPut} (hx : x.Canon) :
    (s.copyWrote core e r p nan x).2.mem.wf = true := by
  cases x with
  | ok s1 =>
    have hs1 : s1.mem.wf = true := hx
    unfold State.copyWrote
    dsimp only
    split <;> simp [hs1]
  | range a => simp [State.copyWrote, h]
  | kv w => simp [State.copyWrote, h]

@[simp] theorem State.copyElem_wf (core e : Nat) (r : CopyRun) : (s.copyElem core e r).2.mem.wf = true := by
  have hgot := s.fetch_mem (copyAgent core e r) (bSsp r.blk) (srcWords r.blk r.pos)
  unfold State.copyElem
  dsimp only
  split
  · rename_i heq
    have hs1 := (congrArg Mem.wf (hgot.of_ok heq)).trans h
    have hwrote (nan : Bool) (bit : Int) (next : Option Int) (raw : Nat) (psn : Bool) :=
      State.copyWrote_wf hs1 core e r r.pos nan (State.copyPut_canon hs1 core e r bit next raw psn)
    rw [apply_ite Prod.snd, apply_ite State.mem, apply_ite Mem.wf, State.modRun_mem]
    simp only [hwrote, ite_self]
  · exact (congrArg Mem.wf (State.copyTrouble_mem core e r r.pos hgot)).trans h

@[simp] theorem State.copyElems_wf (core e n : Nat) : (s.copyElems core e n).mem.wf = true := by
  induction n generalizing s with
  | zero => exact h
  | succ n ih =>
    unfold State.copyElems
    split
    · split
      · exact h
      · split
        · simp [h]
        · dsimp only
          split
          · exact ih (State.copyElem_wf h ..)
          · exact State.copyElem_wf h ..
    · exact h

@[simp] theorem State.pmEmit_wf (core e : Nat) (r : CopyRun) (vs : List PmVal) (n : Nat) :
    (s.pmEmit core e r vs n).2.mem.wf = true := by
  induction vs generalizing s r n with
  | nil => exact h
  | cons v rest ih =>
    have hwrote (nan : Bool) (bit : Int) (next : Option Int) (raw : Nat) (psn : Bool) :=
      State.copyWrote_wf h core e r n nan (State.copyPut_canon h core e r bit next raw psn)
    unfold State.pmEmit
    dsimp only
    rw [apply_ite Prod.snd, apply_ite State.mem, apply_ite Mem.wf, ih (hwrote ..), hwrote]
    exact ite_self _

@[simp] theorem State.pmStore_wf (core e : Nat) (r : CopyRun) (m : PmRun) : (s.pmStore core e r m).mem.wf = true := by
  unfold State.pmStore
  dsimp only
  split <;> simp [h]

@[simp] theorem State.pmStep_wf (core e : Nat) (r : CopyRun) (m : PmRun) : (s.pmStep core e r m).mem.wf = true := by
  unfold State.pmStep
  dsimp only
  (repeat' split) <;> simp [h]

@[simp] theorem State.millCycle_wf (cluster : Nat) : (s.millCycle cluster).mem.wf = true := by
  unfold State.millCycle
  (repeat' split) <;> simp [h]

@[simp] theorem State.copyCycle_wf (core e : Nat) : (s.copyCycle core e).mem.wf = true := by
  unfold State.copyCycle
  dsimp only
  (repeat' split) <;> simp [h]

/-! Matrix engines -/

@[simp] theorem State.zeroBank_wf (k : Nat) : (s.zeroBank k).mem.wf = true := by
  obtain ⟨hcells, hfull, hpoison⟩ := (Mem.wf_iff _).mp h
  exact (Mem.wf_iff _).mpr ⟨filter_cells_wf _ hcells, hfull, filter_nats_wf _ hpoison⟩

@[simp] theorem State.endWork_wf (k : Nat) : (s.endWork k).mem.wf = true := by
  unfold State.endWork
  dsimp only
  split <;> simp [h]

end Sys2Proof.Machine
/-! ### What keeps memory canonical: speculation, launches and regions -/

namespace Sys2Proof.Machine

open Sys2Proof

variable {s : State} (h : s.mem.wf = true)
include h

@[simp] theorem State.squashEng_wf (k : Nat) (dead : List Tag) : (s.squashEng k dead).mem.wf = true := by
  have hreleased (t : Tile) :
      (if t.eng.holds then s.setTile k t else (s.setTile k t).releaseHeld k).mem.wf = true := by
    split <;> simp [h]
  exact hreleased _

@[simp] theorem State.squashPool_wf (k : Nat) (p : Pool) (dead : List Tag) : (s.squashPool k p dead).mem.wf = true := by
  unfold State.squashPool
  dsimp only
  rw [State.flushEvts_mem, State.modPool_mem]
  cases p <;> simp [h]

@[simp] theorem State.poolMsg_wf (k : Nat) (p : Pool) (m : Msg) : (s.poolMsg k p m).mem.wf = true := by
  unfold State.poolMsg
  dsimp only
  (repeat' split) <;> simp [h]

@[simp] theorem State.savedTile_wf (k n : Nat) (m : Msg) : (s.savedTile k n m).mem.wf = true :=
  foldl_mem_wf (fun u p hu => by simp [hu]) _ h

@[simp] theorem State.savedMsg_wf (n q : Nat) (m : Msg) : (s.savedMsg n q m).mem.wf = true := by
  unfold State.savedMsg
  split
  · exact h
  · dsimp only
    exact List.foldlRecOn (motive := fun acc : List (Nat × Tile) × State => acc.2.mem.wf = true) _ _ h
      fun acc hacc kt _ => State.savedTile_wf (s := acc.2.setTile kt.1 kt.2) hacc ..

@[simp] theorem State.applyMsg_wf (e : Endpoint) (n : Nat) (m : Msg) : (s.applyMsg e n m).mem.wf = true := by
  unfold State.applyMsg
  dsimp only
  split
  case h_9 =>
    split
    · rename_i heq
      rw [State.setEp_mem, State.specSend_mem heq, h]
    · exact h
  all_goals simp [h]

@[simp] theorem State.takeMsg_wf (e : Endpoint) (kd : MsgKind) : (s.takeMsg e kd).mem.wf = true := by
  unfold State.takeMsg
  (repeat' split) <;> simp [h]

@[simp] theorem State.catchUp_wf (e : Endpoint) (n : Nat) : (s.catchUp e n).mem.wf = true := by
  induction n generalizing s with
  | zero => exact h
  | succ n ih =>
    unfold State.catchUp
    split
    · exact ih (State.applyMsg_wf h ..)
    · exact h

@[simp] theorem State.launchNode_wf (d : Domain) (t : Nat) (rl : Bool) (n : HeapNode) :
    (s.launchNode d t rl n).mem.wf = true := by
  unfold State.launchNode
  dsimp only
  refine foldl_mem_wf (fun u w hu => by simp [hu]) _ ?_
  simp [h]

@[simp] theorem State.launchNext_wf (t : Nat) : (s.launchNext t).mem.wf = true := by
  unfold State.launchNext
  dsimp only
  (repeat' split) <;> simp [h]

@[simp] theorem State.lose_wf (k : Nat) : (s.lose k).mem.wf = true := Mem.clear_wf _ _ (Mem.clear_wf _ _ h)

@[simp] theorem State.withdrawTile_wf (k : Nat) : (s.withdrawTile k).mem.wf = true := by
  unfold State.withdrawTile
  dsimp only
  split <;> simp [h]

@[simp] theorem State.withdraw_wf (scope : List Nat) (lseq : Nat) : (s.withdraw scope lseq).mem.wf = true := by
  unfold State.withdraw
  dsimp only
  rw [State.modLaunch_mem, State.dropFrames_mem, State.dropChannels_mem]
  refine foldl_mem_wf (fun u k hu => State.withdrawTile_wf hu k) _ ?_
  simp [h]

@[simp] theorem State.cascade_wf (fuel : Nat) : (s.cascade fuel).mem.wf = true := by
  induction fuel generalizing s with
  | zero => exact h
  | succ fuel ih =>
    unfold State.cascade
    split
    · exact ih (by simp [h])
    · exact h

@[simp] theorem State.cascadeAll_wf : s.cascadeAll.mem.wf = true := State.cascade_wf h _

@[simp] theorem State.cancelLaunch_wf (lseq cause : Nat) : (s.cancelLaunch lseq cause).mem.wf = true := by
  unfold State.cancelLaunch
  split <;> simp [h]

@[simp] theorem State.cancelScope_wf (c : Scope) : (s.cancelScope c).2.2.mem.wf = true := by
  unfold State.cancelScope
  dsimp only
  refine State.cascadeAll_wf (foldl_mem_wf (fun u l hu => by simp [hu]) _ ?_)
  (repeat' split) <;> simp [h]

@[simp] theorem State.cancel_wf (v : Word) : (s.cancel v).mem.wf = true := by
  unfold State.cancel
  dsimp only
  rw [State.settleSusp_mem, State.finishTeardowns_mem, State.report_mem]
  split <;> simp [h]

@[simp] theorem State.cancelWrite_wf (v : Word) : (s.cancelWrite v).mem.wf = true := by
  unfold State.cancelWrite
  split <;> simp [h]

@[simp] theorem State.commitUnit_wf (l : Launch) (i : Nat) : (s.commitUnit l i).mem.wf = true := by
  have happly (es : List BEntry) : (es.foldl (fun m e => e.apply m) s.mem).wf = true :=
    List.foldlRecOn (motive := fun m : Mem => m.wf = true) _ _ h fun m hm e _ => BEntry.apply_wf e hm
  unfold State.commitUnit
  dsimp only
  split <;> simp [happly]

@[simp] theorem State.vacate_wf (bid : Nat) : (s.vacate bid).mem.wf = true := by
  refine foldl_mem_wf (fun u k hu => ?_) _ h
  dsimp only
  split <;> simp [hu, State.gate_mem]

@[simp] theorem State.leaveBlock_wf (bid : Nat) : (s.leaveBlock bid).mem.wf = true := by
  unfold State.leaveBlock
  split
  · exact h
  · dsimp only
    (repeat' split) <;> simp [h, State.abortLoad_mem, State.dropShadows_mem]

@[simp] theorem State.killWave_wf (rid cause : Nat) : (s.killWave rid cause).mem.wf = true := by
  unfold State.killWave
  split
  · exact foldl_mem_wf (fun u l hu => State.cancelLaunch_wf hu ..) _ h
  · exact h

@[simp] theorem State.strandCheck_wf (k : Nat) : (s.strandCheck k).mem.wf = true := by
  unfold State.strandCheck
  dsimp only
  (repeat' split) <;> simp [h]

@[simp] theorem State.arrived_wf (k : Nat) (p : Pool) : (s.arrived k p).mem.wf = true := by
  unfold State.arrived
  simp [h, State.markActive_mem]

@[simp] theorem State.tokenEnd_wf (ch : Nat) (y : Chan) (t0 : Tok) (r : Nat) (others : List Item) :
    (s.tokenEnd ch y t0 r others).mem.wf = true := by
  unfold State.tokenEnd
  dsimp only
  (repeat' split) <;> simp [h]

@[simp] theorem State.release_wf (l : Launch) (t : ImgTab) : (s.release l t).mem.wf = true := by
  unfold State.release
  dsimp only
  (repeat' split) <;> simp [h]

@[simp] theorem State.tryPlace_wf (d lseq : Nat) : (s.tryPlace d lseq).2.mem.wf = true := by
  unfold State.tryPlace
  (repeat' split) <;> simp [h]

@[simp] theorem State.retryHeld_wf (d : Nat) : (s.retryHeld d).mem.wf = true := by
  refine foldl_mem_wf (fun u l hu => ?_) _ h
  dsimp only
  split <;> simp [hu]

@[simp] theorem State.writeDavail_wf (v : BitVec 8) : (s.writeDavail v).mem.wf = true :=
  foldl_mem_wf (fun u d hu => State.retryHeld_wf (s := u.setDie d _) hu d) _ h

@[simp] theorem State.failLoad_wf (rid : Nat) (r : Region) (bid code : Nat) (a : BadAt) (w3 : Word) :
    (s.failLoad rid r bid code a w3).mem.wf = true := by
  unfold State.failLoad
  dsimp only
  (repeat' split) <;> simp [h, State.abortLoad_mem]

@[simp] theorem State.wake_wf (k : Nat) : (s.wake k).mem.wf = true := by
  unfold State.wake
  dsimp only
  (repeat' split) <;> simp [h]

@[simp] theorem State.writeShadow_wf (r : Region) (bid : Nat) (img : TileImg) :
    (s.writeShadow r bid img).mem.wf = true := by
  unfold State.writeShadow
  dsimp only
  split <;> simp [h]

@[simp] theorem State.finishLoad_wf (rid : Nat) (r : Region) (l : LoadSt) (b : Block) (tab : ImgTab) :
    (s.finishLoad rid r l b tab).mem.wf = true := by
  unfold State.finishLoad
  dsimp only
  (repeat' split)
  · simp [h]
  · simp [h]
  · exact foldl_mem_wf (fun u k hu => State.strandCheck_wf hu k) _ (by simp [h])

@[simp] theorem State.failShadow_wf (rid : Nat) (r : Region) (bid k : Nat) (img : TileImg) :
    (s.failShadow rid r bid k img).mem.wf = true := by
  unfold State.failShadow
  split
  · dsimp only
    refine State.failLoad_wf ?_ ..
    split <;> simp [h, State.dropShadows_mem]
  · exact h

end Sys2Proof.Machine
/-! ### What keeps memory canonical: loads, waves, saves and resets -/

namespace Sys2Proof.Machine

open Sys2Proof

theorem Mem.filterPoison_wf {m : Mem} (p : Nat → Bool) (h : m.wf = true) :
    ({ m with poison := m.poison.filter p } : Mem).wf = true := by
  obtain ⟨hcells, hfull, hpoison⟩ := (Mem.wf_iff _).mp h
  exact (Mem.wf_iff _).mpr ⟨hcells, hfull, filter_nats_wf p hpoison⟩

variable {s : State} (h : s.mem.wf = true)
include h

@[simp] theorem State.loadStep_wf (rid : Nat) (r : Region) (l : LoadSt) : (s.loadStep rid r l).mem.wf = true := by
  unfold State.loadStep
  split
  · rename_i b x tab _ _
    dsimp only
    have hfetch := s.fetchImage_mem r.die b.job (imageVa x tab ((imageRange tab b.entry).1 + l.imgs.length))
    split
    · exact State.failShadow_wf h ..
    · split
      · exact State.finishLoad_wf h ..
      · have hwf {u : State} (hu : u.mem = s.mem) : u.mem.wf = true := (congrArg Mem.wf hu).trans h
        split <;> rename_i s1 heq <;> rw [heq] at hfetch <;> have h1 := hwf hfetch
        · simp [h1]
        · simp [h1]
        · exact State.failLoad_wf h1 ..
        · exact State.failLoad_wf h1 ..
        · split
          · exact State.failLoad_wf h1 ..
          · simp [h1]
  · simp [h, State.abortLoad_mem]

@[simp] theorem State.liveTile_wf (k bid : Nat) (img : TileImg) (ins : Pool → List InPort)
    (outs : Pool → List OutPort) : (s.liveTile k bid img ins outs).mem.wf = true := by
  unfold State.liveTile
  dsimp only
  split <;> simp [h]

@[simp] theorem State.install_wf (k bid : Nat) (img : TileImg) : (s.install k bid img).mem.wf = true := by
  unfold State.install
  dsimp only
  split <;> simp [h]

@[simp] theorem State.switchTile_wf (k bid : Nat) : (s.switchTile k bid).mem.wf = true := by
  unfold State.switchTile
  (repeat' split) <;> simp [h, State.gate_mem]

@[simp] theorem State.waveTile_wf (k a b : Nat) (img : TileImg) (tab : ImgTab) :
    (s.waveTile k a b img tab).mem.wf = true := by
  unfold State.waveTile
  dsimp only
  (repeat' split) <;> simp [h]

@[simp] theorem State.leaveWave_wf (rid a b : Nat) : (s.leaveWave rid a b).mem.wf = true := by
  unfold State.leaveWave
  dsimp only
  (repeat' split) <;> simp [h]

@[simp] theorem State.shapeDiffers_wf (rid tile a b : Nat) : (s.shapeDiffers rid tile a b).mem.wf = true := by
  unfold State.shapeDiffers
  simp [h]

@[simp] theorem State.raiseQwc_wf (rid : Nat) (r : Region) (b : Block) : (s.raiseQwc rid r b).mem.wf = true := by
  unfold State.raiseQwc
  dsimp only
  split
  · simp [h]
  · rw [State.report_mem]
    dsimp only
    rw [State.setMem_mem]
    exact Mem.putWords_wf _ _ (by simp [h])

@[simp] theorem State.tileRecord_wf (a k : Nat) : (s.tileRecord a k).mem.wf = true := by
  unfold State.tileRecord
  dsimp only
  rw [State.setMem_mem]
  iterate 8 refine Mem.putWords_wf _ _ ?_
  iterate 3 refine Mem.clear_wf _ _ ?_
  simp [h]

@[simp] theorem State.writeFrame_wf (n : Nat) (r : Region) (b : Block) (ks : List Nat) :
    (s.writeFrame n r b ks).mem.wf = true := by
  have hstart (a : Nat) (ws : List Word) :
      (s.setMem ((s.mem.clear a (a + 65536)).putWords a ws)).mem.wf = true :=
    Mem.putWords_wf _ _ (Mem.clear_wf _ _ h)
  unfold State.writeFrame
  dsimp only
  generalize s.host.saveBase.toNat + 8 * 2 ^ 20 + n * (65 * 2 ^ 20) = a
  have hrecords (ws : List Word) :
      (ks.zipIdx.foldl (fun s k => s.tileRecord (a + 65536 + 65536 * k.2) k.1)
        (s.setMem ((s.mem.clear a (a + 65536)).putWords a ws))).mem.wf = true :=
    foldl_mem_wf (fun _ _ hu => State.tileRecord_wf hu ..) _ (hstart a ws)
  exact Mem.filterPoison_wf _ (hrecords _)

@[simp] theorem State.writeFull_wf (n : Nat) : (s.writeFull n).mem.wf = true := by
  exact Mem.filterPoison_wf _ h

@[simp] theorem State.saveBlock_wf (rid : Nat) (r : Region) (bid : Nat) (b : Block) (n : Nat) :
    (s.saveBlock rid r bid b n).mem.wf = true := by
  unfold State.saveBlock
  dsimp only
  have hended (ks : List Nat) : (ks.foldl State.endHolds s).mem = s.mem := foldl_mem _ (fun _ _ => by rfl) _ s
  rw [State.modRegion_mem, State.modBlock_mem]
  refine State.vacate_wf ?_ bid
  split <;> simp [h, hended]

@[simp] theorem State.restoreBlock_wf (rid bid n : Nat) (f : Saved) : (s.restoreBlock rid bid n f).mem.wf = true := by
  have hswitched (ks : List Nat) : (ks.foldl (fun s k => s.switchTile k bid) s).mem.wf = true :=
    foldl_mem_wf (fun _ k hu => State.switchTile_wf hu k bid) ks h
  have hcleared {m : Mem} (hm : m.wf = true) (banks : Bool) (ks : List Nat) :
      (ks.foldl (fun (m : Mem) k =>
        let m1 := m.clear (laneBase k 0) (laneBase k 8)
        if banks then m1.clear (bankBase k) (bankBase (k + 1)) else m1) m).wf = true := by
    refine List.foldlRecOn (motive := fun m : Mem => m.wf = true) _ _ hm fun m hm k _ => ?_
    have hlanes := Mem.clear_wf (laneBase k 0) (laneBase k 8) hm
    dsimp only
    split
    · exact Mem.clear_wf _ _ hlanes
    · exact hlanes
  have hscanned (banks : Bool) (kts : List (Nat × Tile)) (u : State) :
      (kts.foldl (State.scanTile · banks ·) u).mem = u.mem := foldl_mem _ (fun _ _ => by rfl) kts u
  unfold State.restoreBlock
  dsimp only
  rw [State.becomeResident_mem, State.modBlock_mem]
  dsimp only
  rw [State.reissue_mem, foldl_mem State.joinTile State.joinTile_mem, hscanned, State.setMem_mem]
  exact Mem.overlay_wf _ (hcleared (hswitched _) ..)

@[simp] theorem State.shadowUe_wf (k : Nat) : (s.shadowUe k).mem.wf = true := by
  unfold State.shadowUe
  dsimp only
  (repeat' split) <;> simp [h]

omit h in
@[simp] theorem State.coldStart_wf (attest : BitVec 26) (fwOk : Bool) : (s.coldStart attest fwOk).mem.wf = true := by
  have hfuses : s.fuses.mem.wf = true := reset_mem_wf
  unfold State.coldStart
  dsimp only
  split
  · exact hfuses
  · split
    · exact hfuses
    · refine State.writeDavail_wf ?_ _
      rw [foldl_mem State.coldAlarm State.coldAlarm_mem]
      exact hfuses

@[simp] theorem State.resetHeld_wf (c : Nat) : (s.resetHeld c).mem.wf = true :=
  foldl_mem_wf (fun _ l hu => State.cancelLaunch_wf hu l 0xC2) _ h

@[simp] theorem State.resetLeave_wf (c : Nat) : (s.resetLeave c).mem.wf = true := by
  have hpre (rs : List Nat) (u : State) : (rs.foldl State.resetPre u).mem = u.mem :=
    foldl_mem _ (fun u r => State.resetPre_mem u r) rs u
  unfold State.resetLeave
  dsimp only
  rw [hpre]
  split <;> simp [h]

@[simp] theorem State.dieLoses_wf (d : Nat) : (s.dieLoses d).mem.wf = true := by
  unfold State.dieLoses
  dsimp only
  rw [State.setMem_mem]
  iterate 4 refine Mem.clear_wf _ _ ?_
  refine foldl_mem_wf (fun u i hu => by dsimp only; exact hu) _ ?_
  refine foldl_mem_wf (fun u e hu => by rw [State.abort_mem]; exact hu) _ ?_
  refine foldl_mem_wf (fun u k hu => by rw [State.gateNow_mem]; exact hu) _ ?_
  refine foldl_mem_wf (fun u r hu => ?_) _ h
  split <;> simp [hu, State.abortLoad_mem, State.dropShadows_mem]

@[simp] theorem State.resetEnter_wf (c : Nat) : (s.resetEnter c).mem.wf = true := by
  unfold State.resetEnter
  dsimp only
  split <;> simp [h]

@[simp] theorem State.resetRound_wf (r : DieReset) : (s.resetRound r).mem.wf = true := by
  have hpre (rs : List Nat) (u : State) : (rs.foldl State.resetPre u).mem = u.mem :=
    foldl_mem _ (fun u r => State.resetPre_mem u r) rs u
  unfold State.resetRound
  dsimp only
  (repeat' split) <;> simp only [h, hpre, State.resetLeave_wf, State.resetHeld_wf, State.resetEnter_wf]

@[simp] theorem State.cancelHeld_wf (cause : Nat) : (s.cancelHeld cause).mem.wf = true :=
  foldl_mem_wf (g := fun s (kl : Nat × Launch) => s.cancelLaunch kl.1 cause)
    (fun _ kl hu => State.cancelLaunch_wf hu kl.1 cause) _ h

@[simp] theorem State.thermStep_wf : s.thermStep.mem.wf = true := by
  unfold State.thermStep
  dsimp only
  split <;> simp [h]

@[simp] theorem State.railsOn_wf (us : Nat) (ok : BitVec 26) : (s.railsOn us ok).mem.wf = true :=
  foldl_mem_wf (fun _ v hu => State.cancel_wf hu v) _
    (foldl_mem_wf (fun u c hu => by rw [State.attestAgain_mem]; exact hu) _ h)

@[simp] theorem State.lookAt_wf (k : Nat) (p : Pool) : (s.lookAt k p).mem.wf = true := by
  unfold State.lookAt
  dsimp only
  split <;> simp [h]

@[simp] theorem State.endTile_wf (cyc k : Nat) : (s.endTile cyc k).mem.wf = true := by
  unfold State.endTile
  simp [h]

@[simp] theorem State.endCycle_wf (c : Nat) : (s.endCycle c).mem.wf = true := by
  have htiles (cyc : Nat) (ks : List Nat) : (ks.foldl (fun s k => s.endTile cyc k) s).mem.wf = true :=
    foldl_mem_wf (fun _ k hu => State.endTile_wf hu cyc k) ks h
  have hcopies {u : State} (hu : u.mem.wf = true) :
      ([0, 1, 2, 3].foldl (fun s e => s.copyCycle c e) u).mem.wf = true :=
    foldl_mem_wf (fun _ e hu => State.copyCycle_wf hu c e) _ hu
  have hmill {u : State} (hu : u.mem.wf = true) :
      (if c % 2 = 0 then u.millCycle (c / 2) else u).mem.wf = true := by
    split <;> simp [hu]
  unfold State.endCycle
  dsimp only
  rw [State.setCore_mem]
  exact hmill (hcopies (htiles ..))

end Sys2Proof.Machine
/-! ### What keeps memory canonical: the instructions of a pool -/

namespace Sys2Proof.Machine

open Sys2Proof

/-- Whatever an instruction leaves has canonical memory. -/
def LeavesCanonical (o : Host.Outcome State Fault Refusal) : Prop := ∀ t, o = .next t → t.mem.wf = true

@[simp] theorem leavesCanonical_next (t : State) : LeavesCanonical (.next t) ↔ t.mem.wf = true :=
  ⟨fun h => h t rfl, fun h _ ht => Host.Outcome.next.inj ht ▸ h⟩

/-- A firing that completes changes the state beyond its tile in a way that keeps memory canonical. -/
def Done.KeepsCanonical (d : Done) : Prop := ∀ s : State, s.mem.wf = true → (d.eff s).mem.wf = true

/-- An instruction's definition, when it completes, keeps memory canonical. -/
def KeepsCanonical (x : Except Flt Done) : Prop := ∀ d, x = .ok d → d.KeepsCanonical

@[simp] theorem keepsCanonical_error (e : Flt) : KeepsCanonical (.error e) := fun _ h => nomatch h

@[simp] theorem keepsCanonical_ok (d : Done) : KeepsCanonical (.ok d) ↔ d.KeepsCanonical :=
  ⟨fun h => h d rfl, fun h _ hd => Except.ok.inj hd ▸ h⟩

@[simp] theorem keepsCanonical_bind {α : Type} (x : Except Flt α) (f : α → Except Flt Done) :
    KeepsCanonical (x >>= f) ↔ ∀ a, x = .ok a → KeepsCanonical (f a) := by
  cases x with
  | error e => exact iff_of_true (keepsCanonical_error e) fun _ h => nomatch h
  | ok a => exact ⟨fun h _ ha => Except.ok.inj ha ▸ h, fun h => h a rfl⟩

@[simp] theorem keepsCanonical_ite {p : Prop} [Decidable p] (x y : Except Flt Done) :
    KeepsCanonical (if p then x else y) ↔ (p → KeepsCanonical x) ∧ (¬p → KeepsCanonical y) := by
  split <;> simp [*]

@[simp] theorem Done.keepsCanonical_mk (res : List Res) (pops takes outs : List Nat) (tile : Tile → Tile)
    (eff : State → State) (after : Option Flt) :
    Done.KeepsCanonical ⟨res, pops, takes, outs, tile, eff, after⟩ ↔
      ∀ s : State, s.mem.wf = true → (eff s).mem.wf = true :=
  Iff.rfl

theorem Done.keepsCanonical_of_local {d : Done} (h : d.eff = id) : d.KeepsCanonical := fun s hs => by rw [h]; exact hs

@[simp] theorem Ctx.plain_eff (c : Ctx) : c.plain.eff = id := rfl

@[simp] theorem Ctx.result_eff (c : Ctx) (t : Tok) : (c.result t).eff = id := rfl

@[simp] theorem Ctx.plain_keepsCanonical (c : Ctx) : c.plain.KeepsCanonical := Done.keepsCanonical_of_local rfl

@[simp] theorem Ctx.result_keepsCanonical (c : Ctx) (t : Tok) : (c.result t).KeepsCanonical :=
  Done.keepsCanonical_of_local rfl

@[simp] theorem Ctx.laneRes_keepsCanonical (c : Ctx) (hd : Hdr) (m : BitVec 8) (g : Nat → Word) :
    (c.laneRes hd m g).KeepsCanonical := Done.keepsCanonical_of_local rfl

@[simp] theorem Ctx.request_keepsCanonical (c : Ctx) (r : Req) (ds : List Dst) : (c.request r ds).KeepsCanonical :=
  Done.keepsCanonical_of_local rfl

@[simp] theorem Ctx.request_eff (c : Ctx) (r : Req) (ds : List Dst) : (c.request r ds).eff = id := rfl

@[simp] theorem Ctx.startStream_keepsCanonical (c : Ctx) (g : Stream → Stream) : (c.startStream g).KeepsCanonical :=
  Done.keepsCanonical_of_local rfl

@[simp] theorem cmpDone_keepsCanonical (c : Ctx) (hd : Hdr) (hold : Nat → Bool) :
    (cmpDone c hd hold).KeepsCanonical := by
  unfold cmpDone
  split <;> simp

@[simp] theorem Ctx.ask_keepsCanonical (c : Ctx) (hd : Hdr) (sends : Bool) (a0 a1 b0 b1 : Word) :
    (c.ask hd sends a0 a1 b0 b1).KeepsCanonical := by
  unfold Ctx.ask
  split
  · simp
  · split <;> simp

variable {s : State} (h : s.mem.wf = true)
include h

theorem State.commit_wf (c : Ctx) {d : Done} (hd : d.KeepsCanonical) : (s.commit c d).mem.wf = true := by
  have hcredits (t : Tile) : (d.pops.foldl (fun s i => s.creditFor c.x i) (s.setTile c.k t)).mem.wf = true := by
    refine foldl_mem_wf (fun u i hu => ?_) _ h
    rw [State.creditFor_mem]
    exact hu
  have heff (t : Tile) := hd _ (((congrArg Mem.wf (State.markActive_mem _ c.k)).trans (hcredits t)))
  unfold State.commit
  dsimp only
  split
  · rw [State.raiseFlt_mem]
    exact heff _
  · exact heff _

theorem issue_leavesCanonical {o : Op} {f : Fields} {body : Ctx → Except Flt Done}
    (hb : ∀ c, KeepsCanonical (body c)) : LeavesCanonical (issue o f s body) := by
  unfold issue
  dsimp only
  split
  · split
    · rename_i d hd
      exact (leavesCanonical_next _).mpr (State.commit_wf h _ (hb _ d hd))
    · simp [h, State.markActive_mem]
  · simp [h]

theorem issueStream_leavesCanonical {o : Op} {f : Fields} {body : Ctx → Except Flt Done}
    (hb : ∀ c, KeepsCanonical (body c)) : LeavesCanonical (issueStream o f s body) := by
  unfold issueStream
  dsimp only
  split
  · split
    · rename_i d hd
      exact (leavesCanonical_next _).mpr (State.commit_wf h _ (hb _ d hd))
    · split <;> simp [h, State.markActive_mem]
  · simp [h]

end Sys2Proof.Machine
/-! ### What keeps memory canonical: instructions with an effect beyond their tile, and shared bodies -/

namespace Sys2Proof.Machine

open Sys2Proof

variable {s : State} (h : s.mem.wf = true)
include h

theorem intOp_leavesCanonical (o : Op) (f : Fields) (fmt : Ctx → Tok → BitVec 4)
    (op : Word → Word → Word → Word) : LeavesCanonical (intOp o f s fmt op) :=
  issue_leavesCanonical h fun c => by simp

theorem arithOp_leavesCanonical (o : Op) (f : Fields) (op : Nat → Bool → Int → Int → Int → Int) :
    LeavesCanonical (arithOp o f s op) := by
  unfold arithOp
  exact intOp_leavesCanonical h _ _ _ _

theorem addrOp_leavesCanonical (o : Op) (f : Fields) (op : Nat → Nat → Nat → Nat) :
    LeavesCanonical (addrOp o f s op) :=
  issue_leavesCanonical h fun c => by simp

theorem wfOp_leavesCanonical (o : Op) (f : Fields) (op : Nat → Val → Val → Val → Word) :
    LeavesCanonical (wfOp o f s op) :=
  issue_leavesCanonical h fun c => by simp

theorem reduceOp_leavesCanonical (o : Op) (f : Fields) (op : Tok → Val) : LeavesCanonical (reduceOp o f s op) :=
  issue_leavesCanonical h fun c => by simp

theorem syncLoad_leavesCanonical (o : Op) (f : Fields) : LeavesCanonical (syncLoad o f s) :=
  issue_leavesCanonical h fun c => by simp

theorem syncStore_leavesCanonical (o : Op) (f : Fields) : LeavesCanonical (syncStore o f s) :=
  issue_leavesCanonical h fun c => by simp

theorem draftOp_leavesCanonical (o : Op) (repeating : Bool) (f : Fields) : LeavesCanonical (draftOp o repeating f s) :=
  issue_leavesCanonical h fun c => by
    simp only [keepsCanonical_bind]
    intro a _ b _ _ _
    split <;> simp

theorem execReq_leavesCanonical (f : Fields) : LeavesCanonical (execReq f s) :=
  issue_leavesCanonical h fun c => by
    simp only [keepsCanonical_ok, Done.keepsCanonical_mk]
    intro u hu
    split <;> simp [hu]

theorem execSmrgOrd_leavesCanonical (f : Fields) : LeavesCanonical (execSmrgOrd f s) :=
  issue_leavesCanonical h fun c => by split <;> simp

theorem execTsget_leavesCanonical (f : Fields) : LeavesCanonical (execTsget f s) :=
  issue_leavesCanonical h fun c => by
    simp only [keepsCanonical_bind]
    intro a _ hd _
    (repeat' split) <;> simp

theorem execTsnew_leavesCanonical (f : Fields) : LeavesCanonical (execTsnew f s) :=
  issue_leavesCanonical h fun c => by
    simp only [keepsCanonical_bind]
    intro a _ b _ hd _
    (repeat' split) <;> simp

theorem execCsrw_leavesCanonical (f : Fields) : LeavesCanonical (execCsrw f s) :=
  issue_leavesCanonical h fun c => by
    simp only [keepsCanonical_bind]
    intro a _ b _ hd _ r _
    (repeat' split) <;> simp

theorem execMxcfg_leavesCanonical (f : Fields) : LeavesCanonical (execMxcfg f s) :=
  issue_leavesCanonical h fun c => by
    simp only [keepsCanonical_bind]
    intro a _ b _ hd _
    (repeat' split) <;> simp

theorem execMxrow_leavesCanonical (f : Fields) : LeavesCanonical (execMxrow f s) :=
  issue_leavesCanonical h fun c => by
    dsimp only
    split
    · simp
    · split
      · simp
      · simp only [keepsCanonical_bind, keepsCanonical_ok, Done.keepsCanonical_mk]
        intro hd _ u hu
        split <;> simp [hu]

theorem execMxout_leavesCanonical (f : Fields) : LeavesCanonical (execMxout f s) :=
  issue_leavesCanonical h fun c => by
    simp only [keepsCanonical_bind]
    intro a _ hd _
    split <;> simp

theorem execMxz_leavesCanonical (f : Fields) : LeavesCanonical (execMxz f s) :=
  issue_leavesCanonical h fun c => (keepsCanonical_ok _).mpr fun _ hu => State.zeroBank_wf hu c.k

theorem execTarm_leavesCanonical (f : Fields) : LeavesCanonical (execTarm f s) :=
  issue_leavesCanonical h fun c => by
    simp only [keepsCanonical_bind]
    intro b _ hd _
    split
    · simp
    · split <;> simp

theorem execTmc_leavesCanonical (f : Fields) : LeavesCanonical (execTmc f s) :=
  issue_leavesCanonical h fun c => by
    simp only [keepsCanonical_bind, keepsCanonical_ok, Done.keepsCanonical_mk]
    intro a _ b _ hd _ u hu
    split <;> simp [hu]

theorem execAgset_leavesCanonical (f : Fields) : LeavesCanonical (execAgset f s) :=
  issueStream_leavesCanonical h fun c => by
    simp only [keepsCanonical_bind]
    intro b _ hd _
    split
    · simp
    · exact (keepsCanonical_ok _).mpr fun u hu => foldl_mem_wf (fun _ _ hw => State.wordDone_wf hw ..) _ hu

end Sys2Proof.Machine
/-! ### What keeps memory canonical: the steps of the device -/

namespace Sys2Proof.Machine

open Sys2Proof

@[simp] theorem guessBody_mem (d : Domain) (q : RootReq) (s : State) : (guessBody d q s).mem = s.mem := by
  unfold guessBody
  dsimp only
  (repeat' split) <;> simp

@[simp] theorem ratifyBody_mem (d : Domain) (q : RootReq) (s : State) : (ratifyBody d q s).mem = s.mem := by
  unfold ratifyBody
  dsimp only
  (repeat' split) <;> simp

@[simp] theorem pushBody_mem (d : Domain) (q : RootReq) (s : State) : (pushBody d q s).mem = s.mem := by
  unfold pushBody
  dsimp only
  split <;> rfl

/-- The root changes memory only where the body of a request does. -/
theorem State.rootHandle_mem {s : State} (ops : List Op) {body : Domain → RootReq → State → State}
    (hb : ∀ d q s, (body d q s).mem = s.mem) : (s.rootHandle ops body).mem = s.mem := by
  unfold State.rootHandle
  split
  · rfl
  · rename_i q s1 heq
    have h1 := State.takeRoot_mem heq
    dsimp only
    split
    · exact h1
    · split
      · cases hf : s1.forwardReq _ q with
        | none => rfl
        | some s2 => exact (State.forwardReq_mem hf).trans h1
      · split
        · exact (hb ..).trans h1
        · exact h1
        · simp [h1]

theorem Option.elim_mem {α : Type} (o : Option α) {s : State} {f : α → State} (hf : ∀ a, (f a).mem = s.mem) :
    (o.elim s f).mem = s.mem := by
  cases o with
  | none => rfl
  | some a => exact hf a

variable {s : State} (h : s.mem.wf = true)
include h

theorem execPacketFetch_leavesCanonical (q : Fin 16) : LeavesCanonical (execPacketFetch q s) := by
  unfold execPacketFetch
  rw [leavesCanonical_next]
  split <;> simp [h]

theorem execXinvComplete_leavesCanonical  : LeavesCanonical (execXinvComplete s) :=
  (leavesCanonical_next _).mpr (by simp [h])

theorem execRootGuess_leavesCanonical  : LeavesCanonical (execRootGuess s) :=
  (leavesCanonical_next _).mpr (by rw [State.rootHandle_mem _ guessBody_mem, h])

theorem execRootRatify_leavesCanonical  : LeavesCanonical (execRootRatify s) :=
  (leavesCanonical_next _).mpr (by rw [State.rootHandle_mem _ ratifyBody_mem, h])

theorem execRootSqreq_leavesCanonical  : LeavesCanonical (execRootSqreq s) :=
  (leavesCanonical_next _).mpr (by
    rw [State.rootHandle_mem, h]
    intro d q u
    dsimp only
    split <;> simp)

theorem execMsgLaunch_leavesCanonical (ep : Endpoint) : LeavesCanonical (execMsgLaunch ep s) :=
  (leavesCanonical_next _).mpr (by simp [h])

theorem execMsgRatify_leavesCanonical (ep : Endpoint) : LeavesCanonical (execMsgRatify ep s) :=
  (leavesCanonical_next _).mpr (by simp [h])

theorem execMsgSquash_leavesCanonical (ep : Endpoint) : LeavesCanonical (execMsgSquash ep s) :=
  (leavesCanonical_next _).mpr (by simp [h])

theorem execMsgFree_leavesCanonical (ep : Endpoint) : LeavesCanonical (execMsgFree ep s) :=
  (leavesCanonical_next _).mpr (by simp [h])

theorem execJobTeardown_leavesCanonical (j : Fin 64) (v : Word) : LeavesCanonical (execJobTeardown j v s) := by
  unfold execJobTeardown
  rw [leavesCanonical_next]
  split <;> simp [h]

theorem execResultComplete_leavesCanonical (tile : Nat) (pool : Pool) (idx : Nat) :
    LeavesCanonical (execResultComplete tile pool idx s) :=
  (leavesCanonical_next _).mpr (by simp [h])

theorem execQwcAck_leavesCanonical (v : Word) : LeavesCanonical (execQwcAck v s) :=
  (leavesCanonical_next _).mpr (by simp [h])

theorem execEvqHeadWrite_leavesCanonical (v : Word) : LeavesCanonical (execEvqHeadWrite v s) :=
  (leavesCanonical_next _).mpr (by simp [h])

theorem execCancelLaunch_leavesCanonical (v : Word) : LeavesCanonical (execCancelLaunch v s) := by
  unfold execCancelLaunch
  rw [leavesCanonical_next]
  split <;> simp [h]

theorem execCancelGraph_leavesCanonical (v : Word) : LeavesCanonical (execCancelGraph v s) := by
  unfold execCancelGraph
  rw [leavesCanonical_next]
  split <;> simp [h]

theorem execCancelPhase_leavesCanonical (v : Word) : LeavesCanonical (execCancelPhase v s) := by
  unfold execCancelPhase
  rw [leavesCanonical_next]
  split <;> simp [h]

theorem execCancelJob_leavesCanonical (v : Word) : LeavesCanonical (execCancelJob v s) := by
  unfold execCancelJob
  rw [leavesCanonical_next]
  split <;> simp [h]

theorem execBar2Read_leavesCanonical (off : Nat) : LeavesCanonical (execBar2Read off s) :=
  (leavesCanonical_next _).mpr (by simp [h])

omit h in
theorem execColdReset_leavesCanonical (attest : BitVec 26) (fwOk : Bool) :
    LeavesCanonical (execColdReset attest fwOk s) :=
  (leavesCanonical_next _).mpr (State.coldStart_wf attest fwOk)

theorem execAlarmB_leavesCanonical (chiplet : Fin 26) (idx : Fin 16) :
    LeavesCanonical (execAlarmB chiplet idx s) :=
  (leavesCanonical_next _).mpr (by simp [h])

theorem execDieAttested_leavesCanonical (chiplet : Fin 26) : LeavesCanonical (execDieAttested chiplet s) := by
  unfold execDieAttested
  rw [leavesCanonical_next]
  split <;> simp [h]

theorem execFwRecovery_leavesCanonical  : LeavesCanonical (execFwRecovery s) := by
  unfold execFwRecovery
  rw [leavesCanonical_next]
  split <;> simp [h]

theorem execCxlPortReturn_leavesCanonical (p : Fin 8) : LeavesCanonical (execCxlPortReturn p s) :=
  (leavesCanonical_next _).mpr (by simp [h])

theorem execFunctionReset_leavesCanonical  : LeavesCanonical (execFunctionReset s) :=
  (leavesCanonical_next _).mpr (by simp [h])

theorem execAcceptLaunch_leavesCanonical  : LeavesCanonical (execAcceptLaunch s) := by
  unfold execAcceptLaunch
  dsimp only
  (repeat' split) <;> simp [h]

theorem execReleaseLaunch_leavesCanonical  : LeavesCanonical (execReleaseLaunch s) := by
  unfold execReleaseLaunch
  dsimp only
  (repeat' split) <;> simp [h]

theorem execDavailChange_leavesCanonical (v : BitVec 8) : LeavesCanonical (execDavailChange v s) := by
  unfold execDavailChange
  dsimp only
  (repeat' split) <;> simp [h]

theorem execStreamWrite_leavesCanonical (tile : Nat) : LeavesCanonical (execStreamWrite tile s) := by
  unfold execStreamWrite
  (repeat' split) <;> simp [h, State.stepAcc_mem]

theorem execThermCrit_leavesCanonical (die : Fin 8) (temp : BitVec 8) :
    LeavesCanonical (execThermCrit die temp s) := by
  unfold execThermCrit
  dsimp only
  (repeat' split) <;> simp [h]

theorem execFlitReceive_leavesCanonical (l : Nat) (dir : Bool) (ext : Option Flit) (tagOk : Bool) :
    LeavesCanonical (execFlitReceive l dir ext tagOk s) := by
  unfold execFlitReceive
  dsimp only
  (repeat' split)
  case isFalse.isTrue.isTrue => cases ext <;> simp [h]
  all_goals simp [h]

theorem execRetryRequest_leavesCanonical (l : Nat) (dir : Bool) (aseq : BitVec 16) :
    LeavesCanonical (execRetryRequest l dir aseq s) := by
  unfold execRetryRequest
  (repeat' split) <;> simp [h]

theorem execTileFence_leavesCanonical (tile : Nat) : LeavesCanonical (execTileFence tile s) := by
  unfold execTileFence
  dsimp only
  (repeat' split) <;> simp [h]

theorem execFeatAcceptWrite_leavesCanonical (f : Fin 4) (v : Word) :
    LeavesCanonical (execFeatAcceptWrite f v s) := by
  unfold execFeatAcceptWrite
  dsimp only
  (repeat' split) <;> simp [h]

theorem execEnable_leavesCanonical (v : Word) : LeavesCanonical (execEnable v s) := by
  unfold execEnable
  dsimp only
  (repeat' split) <;> simp [h]

theorem execJobCreate_leavesCanonical (j : Fin 64) (v : Word) : LeavesCanonical (execJobCreate j v s) := by
  unfold execJobCreate
  dsimp only
  (repeat' split) <;> simp [h]

theorem execJobSuspend_leavesCanonical (v : Word) : LeavesCanonical (execJobSuspend v s) := by
  unfold execJobSuspend
  dsimp only
  (repeat' split) <;> simp [h]

theorem execJobResume_leavesCanonical (v : Word) : LeavesCanonical (execJobResume v s) := by
  unfold execJobResume
  dsimp only
  (repeat' split) <;> simp [h]

theorem execCxlDown_leavesCanonical (p : Fin 8) : LeavesCanonical (execCxlDown p s) := by
  unfold execCxlDown
  dsimp only
  (repeat' split) <;> simp [h]

theorem execRegisterWrite_leavesCanonical (off : Nat) (v : Word) :
    LeavesCanonical (execRegisterWrite off v s) := by
  unfold execRegisterWrite
  dsimp only
  (repeat' split) <;> simp [h]

theorem execPlaceLaunch_leavesCanonical (die : Fin 8) : LeavesCanonical (execPlaceLaunch die s) := by
  unfold execPlaceLaunch
  dsimp only
  (repeat' split) <;> simp [h]

theorem execApplyRetirementRecord_leavesCanonical (die : Fin 8) :
    LeavesCanonical (execApplyRetirementRecord die s) := by
  have hleft {u : State} (hu : u.mem.wf = true) (bs : List Nat) : (bs.foldl State.leaveBlock u).mem.wf = true :=
    foldl_mem_wf (fun _ b hu => State.leaveBlock_wf hu b) bs hu
  unfold execApplyRetirementRecord
  dsimp only
  split
  · rw [leavesCanonical_next, State.settleSusp_mem, State.finishTeardowns_mem]
    refine State.retryHeld_wf ?_ _
    split
    · rw [State.endSpeculation_mem]
      exact hleft (by simp [h]) _
    · exact hleft (by simp [h]) _
  · simp [h]

theorem execApplyInvalidation_leavesCanonical (die : Fin 8) : LeavesCanonical (execApplyInvalidation die s) := by
  unfold execApplyInvalidation
  (repeat' split) <;> simp [h]

theorem execThreadTokenEnqueue_leavesCanonical (lseq : Nat) :
    LeavesCanonical (execThreadTokenEnqueue lseq s) := by
  unfold execThreadTokenEnqueue
  dsimp only
  (repeat' split) <;> simp [h]

theorem execChooseBlock_leavesCanonical (rid : Nat) : LeavesCanonical (execChooseBlock rid s) := by
  unfold execChooseBlock
  dsimp only
  (repeat' split)
  case h_1.isFalse.isFalse => rw [leavesCanonical_next, Option.elim_mem _ fun _ => State.chose_mem .., h]
  all_goals simp [h]

theorem execShadowLoad_leavesCanonical (rid : Nat) : LeavesCanonical (execShadowLoad rid s) := by
  unfold execShadowLoad
  (repeat' split) <;> simp [h]

theorem execSwitch_leavesCanonical (tile : Nat) : LeavesCanonical (execSwitch tile s) := by
  unfold execSwitch
  dsimp only
  (repeat' split) <;> simp [h]

theorem execTokenArrive_leavesCanonical (ch : Nat) : LeavesCanonical (execTokenArrive ch s) := by
  unfold execTokenArrive
  (repeat' split) <;> simp [h]

theorem execCreditReturn_leavesCanonical (ch : Nat) : LeavesCanonical (execCreditReturn ch s) := by
  unfold execCreditReturn
  dsimp only
  (repeat' split) <;> simp [h]

theorem execUnitFinish_leavesCanonical (lseq : Nat) (blk : Nat) :
    LeavesCanonical (execUnitFinish lseq blk s) := by
  unfold execUnitFinish
  dsimp only
  (repeat' split) <;> simp [h]

theorem execXlateReplay_leavesCanonical (hold : Nat) : LeavesCanonical (execXlateReplay hold s) := by
  unfold execXlateReplay
  (repeat' split) <;> simp [h]

theorem execCopyEnd_leavesCanonical (core : Fin 64) (eng : Fin 4) :
    LeavesCanonical (execCopyEnd core eng s) := by
  unfold execCopyEnd
  dsimp only
  (repeat' split) <;> simp [h]

theorem execBranchComplete_leavesCanonical (core : Fin 64) (eng : Fin 4) :
    LeavesCanonical (execBranchComplete core eng s) := by
  unfold execBranchComplete
  dsimp only
  (repeat' split) <;> simp [h, State.streamSend_mem]

theorem execMemPerform_leavesCanonical (tile idx : Nat) : LeavesCanonical (execMemPerform tile idx s) := by
  unfold execMemPerform
  (repeat' split) <;> simp [h]

theorem execFeWake_leavesCanonical (tile idx : Nat) : LeavesCanonical (execFeWake tile idx s) := by
  unfold execFeWake
  (repeat' split) <;> simp [h]

theorem execStoreEntry_leavesCanonical (tile idx : Nat) : LeavesCanonical (execStoreEntry tile idx s) := by
  unfold execStoreEntry
  (repeat' split) <;> simp [h]

theorem execTaskLoad_leavesCanonical (tile idx : Nat) : LeavesCanonical (execTaskLoad tile idx s) := by
  unfold execTaskLoad
  (repeat' split) <;> simp [h]

theorem execRootDhpush_leavesCanonical  : LeavesCanonical (execRootDhpush s) := by
  unfold execRootDhpush
  split
  · rw [leavesCanonical_next, State.rootHandle_mem _ pushBody_mem, h]
  · rename_i q s1 heq
    have h1 : s1.mem.wf = true := (congrArg Mem.wf (State.takeRoot_mem heq)).trans h
    dsimp only
    (repeat' split) <;> simp [h1]

theorem execSquashMarker_leavesCanonical (ch : Nat) : LeavesCanonical (execSquashMarker ch s) := by
  unfold execSquashMarker
  (repeat' split) <;> simp [h]

theorem execFreeComplete_leavesCanonical (seq : Nat) : LeavesCanonical (execFreeComplete seq s) := by
  have hsend (u : State) (hu : u.mem.wf = true) (node job : Nat) (t : Tok) :
      ((u.specSend node job t).getD s).mem.wf = true := by
    cases hs : u.specSend node job t with
    | none => exact h
    | some s1 => exact (congrArg Mem.wf (State.specSend_mem hs)).trans hu
  unfold execFreeComplete
  dsimp only
  split
  · simp [h]
  · split
    · split
      · exact (leavesCanonical_next _).mpr (hsend { s with root := { s.root with
          frees := s.root.frees.erase seq
          gens := _ } } h ..)
      · simp [h]
    · simp [h]

theorem execKvOpenProceed_leavesCanonical (tile idx : Nat) : LeavesCanonical (execKvOpenProceed tile idx s) := by
  unfold execKvOpenProceed
  (repeat' split) <;> simp [h]

theorem execMxBusyEnd_leavesCanonical (tile : Nat) : LeavesCanonical (execMxBusyEnd tile s) := by
  unfold execMxBusyEnd
  (repeat' split) <;> simp [h]

theorem execScrubEnd_leavesCanonical (tile : Nat) : LeavesCanonical (execScrubEnd tile s) := by
  unfold execScrubEnd
  dsimp only
  (repeat' split) <;> simp [h]

theorem execQwc_leavesCanonical (rid : Nat) : LeavesCanonical (execQwc rid s) := by
  unfold execQwc
  (repeat' split) <;> simp [h]

theorem execPreemptRequest_leavesCanonical (rid : Nat) : LeavesCanonical (execPreemptRequest rid s) := by
  unfold execPreemptRequest
  (repeat' split) <;> simp [h]

theorem execDrainEnd_leavesCanonical (rid : Nat) : LeavesCanonical (execDrainEnd rid s) := by
  unfold execDrainEnd
  (repeat' split) <;> simp [h]

theorem execYieldOverrun_leavesCanonical (rid : Nat) : LeavesCanonical (execYieldOverrun rid s) := by
  unfold execYieldOverrun
  dsimp only
  (repeat' split) <;> simp [h]

theorem execRestoreBlock_leavesCanonical (rid : Nat) : LeavesCanonical (execRestoreBlock rid s) := by
  unfold execRestoreBlock
  (repeat' split) <;> simp [h]

theorem execEventWrite_leavesCanonical  : LeavesCanonical (execEventWrite s) := by
  unfold execEventWrite
  dsimp only
  (repeat' split) <;> simp [h]

theorem execDamperWindow_leavesCanonical (rid : Nat) : LeavesCanonical (execDamperWindow rid s) := by
  unfold execDamperWindow
  dsimp only
  (repeat' split) <;> simp [h]

theorem execSoftUe_leavesCanonical (site : UeSite) : LeavesCanonical (execSoftUe site s) := by
  have hpsn (w : Nat) := Mem.setPsn_wf w true h
  unfold execSoftUe
  dsimp only
  split
  · rw [leavesCanonical_next]
    split
    · generalize (ueMem _).2.2 = o
      cases o <;> simp [hpsn]
    · simp [hpsn]
  all_goals (repeat' split) <;> simp [h, hpsn]

theorem execSealReread_leavesCanonical (q : Fin 16) : LeavesCanonical (execSealReread q s) := by
  unfold execSealReread
  dsimp only
  (repeat' split) <;> simp [h]

theorem execWavefrontSwap_leavesCanonical (tile : Nat) : LeavesCanonical (execWavefrontSwap tile s) := by
  have hpassed (u : State) (cs : List (Nat × Nat)) : (cs.foldl State.passChan u).mem = u.mem :=
    foldl_mem _ State.passChan_mem cs u
  unfold execWavefrontSwap
  dsimp only
  (repeat' split) <;> simp only [leavesCanonical_next, h, hpassed, State.shapeDiffers_wf, State.markActive_mem,
    State.waveTile_wf, State.leaveWave_wf, State.becomeResident_mem, State.modRegion_mem]

theorem execDepthToken_leavesCanonical (tile : Nat) (pool : Pool) (inp : Fin 4) :
    LeavesCanonical (execDepthToken tile pool inp s) := by
  have hset (q : Option Nat) (u : State) (n : Nat) : (q.elim u fun ch => u.setCredits ch n).mem = u.mem :=
    Option.elim_mem _ fun _ => State.setCredits_mem ..
  unfold execDepthToken
  dsimp only
  (repeat' split) <;> simp [h, hset, State.markActive_mem]

theorem execRequestReturn_leavesCanonical (ch : Nat) : LeavesCanonical (execRequestReturn ch s) := by
  unfold execRequestReturn
  dsimp only
  (repeat' split) <;> simp [h]

theorem execEpochEnd_leavesCanonical (tile : Nat) (pool : Pool) :
    LeavesCanonical (execEpochEnd tile pool s) := by
  unfold execEpochEnd
  dsimp only
  (repeat' split) <;> simp [h]

theorem execStreamBeat_leavesCanonical (tile : Nat) (stream : Fin 4) :
    LeavesCanonical (execStreamBeat tile stream s) := by
  unfold execStreamBeat
  dsimp only
  (repeat' split) <;> simp [h, State.markActive_mem, State.streamSend_mem]

theorem execCopyStart_leavesCanonical (core : Fin 64) (eng : Fin 4) :
    LeavesCanonical (execCopyStart core eng s) := by
  unfold execCopyStart
  dsimp only
  (repeat' split) <;> simp [h]

theorem execUnitCommit_leavesCanonical  : LeavesCanonical (execUnitCommit s) := by
  unfold execUnitCommit
  dsimp only
  (repeat' split) <;> simp [h]

theorem execLaunchGeneration_leavesCanonical  : LeavesCanonical (execLaunchGeneration s) := by
  unfold execLaunchGeneration
  dsimp only
  (repeat' split) <;> simp [h]

theorem execPassSerialEnd_leavesCanonical (tile : Nat) : LeavesCanonical (execPassSerialEnd tile s) := by
  unfold execPassSerialEnd
  dsimp only
  (repeat' split) <;> simp [h]

theorem execPassCheck_leavesCanonical (tile : Nat) : LeavesCanonical (execPassCheck tile s) := by
  unfold execPassCheck
  dsimp only
  (repeat' split) <;> simp [h]

theorem execPassBeat_leavesCanonical (tile : Nat) : LeavesCanonical (execPassBeat tile s) := by
  have hmarked (u : State) : (u.markActive tile).mem = u.mem := State.markActive_mem u tile
  unfold execPassBeat
  dsimp only
  split
  · split
    · split
      · simp [h]
      · split
        · simp [h]
        · rw [leavesCanonical_next, hmarked]
          (repeat' split) <;> simp [h, State.sendOut_mem]
    · simp [h]
  · simp [h]

theorem execGrammarRunEnd_leavesCanonical (tile : Nat) : LeavesCanonical (execGrammarRunEnd tile s) := by
  unfold execGrammarRunEnd
  dsimp only
  (repeat' split) <;> simp [h]

theorem execGremitBeat_leavesCanonical (tile : Nat) : LeavesCanonical (execGremitBeat tile s) := by
  unfold execGremitBeat
  dsimp only
  (repeat' split) <;> simp [h, State.markActive_mem, State.sendOut_mem]

theorem execThermResume_leavesCanonical (back : RailsBack) : LeavesCanonical (execThermResume back s) := by
  unfold execThermResume
  dsimp only
  (repeat' split) <;> simp [h]

theorem execKeySwitch_leavesCanonical (l : Nat) (dir : Bool) : LeavesCanonical (execKeySwitch l dir s) := by
  unfold execKeySwitch
  dsimp only
  (repeat' split) <;> simp [h]

theorem execKeyRetire_leavesCanonical (l : Nat) (dir : Bool) (tx : Bool) :
    LeavesCanonical (execKeyRetire l dir tx s) := by
  unfold execKeyRetire
  dsimp only
  (repeat' split) <;> simp [h]

theorem execClockStep_leavesCanonical (c : Fin 64) : LeavesCanonical (execClockStep c s) := by
  unfold execClockStep
  dsimp only
  (repeat' split) <;> simp [h]

theorem execControlPeriod_leavesCanonical (p eb : Nat) : LeavesCanonical (execControlPeriod p eb s) := by
  unfold execControlPeriod
  dsimp only
  (repeat' split) <;> simp [h]

theorem execBallastSlice_leavesCanonical (core : Fin 64) : LeavesCanonical (execBallastSlice core s) := by
  unfold execBallastSlice
  dsimp only
  (repeat' split) <;> simp [h]

theorem execDieReset_leavesCanonical (v : Word) (host : Bool) : LeavesCanonical (execDieReset v host s) := by
  unfold execDieReset
  dsimp only
  (repeat' split) <;> simp [h]

theorem execDieFailed_leavesCanonical (chiplet : Fin 26) : LeavesCanonical (execDieFailed chiplet s) := by
  have hcancelled {u : State} (hu : u.mem.wf = true) (ls : List Nat) :
      (ls.foldl (fun s l => s.cancelLaunch l 0xC4) u).mem.wf = true :=
    foldl_mem_wf (fun _ l hu => State.cancelLaunch_wf hu l 0xC4) ls hu
  unfold execDieFailed
  dsimp only
  (repeat' split)
  · exact (leavesCanonical_next _).mpr (hcancelled h _)
  · exact (leavesCanonical_next _).mpr (hcancelled (by simp [h]) _)
  · simp [h]

theorem execFwHandover_leavesCanonical  : LeavesCanonical (execFwHandover s) := by
  unfold execFwHandover
  dsimp only
  (repeat' split) <;> simp [h]

theorem execLqCfgWrite_leavesCanonical (q : Fin 16) (v : Word) : LeavesCanonical (execLqCfgWrite q v s) := by
  unfold execLqCfgWrite
  dsimp only
  (repeat' split) <;> simp [h]

theorem execLqNotify_leavesCanonical (q : Fin 16) (v : Word) (port ro : Bool) :
    LeavesCanonical (execLqNotify q v port ro s) := by
  unfold execLqNotify
  dsimp only
  (repeat' split) <;> simp [h]

theorem execXinv_leavesCanonical (v : Word) : LeavesCanonical (execXinv v s) := by
  unfold execXinv
  simp [h]

theorem execSoftCe_leavesCanonical (site : CeSite) : LeavesCanonical (execSoftCe site s) := by
  have hcounted (u : State) : (site.hbm.elim u fun pa => u.hbmError pa false).mem = u.mem :=
    Option.elim_mem _ fun _ => State.hbmError_mem ..
  unfold execSoftCe
  dsimp only
  split <;> simp [h, hcounted]

theorem execLinkRetrain_leavesCanonical (l : Nat) (dir : Bool) (bad : List Nat) (ok : Bool) :
    LeavesCanonical (execLinkRetrain l dir bad ok s) := by
  unfold execLinkRetrain
  dsimp only
  (repeat' split) <;> simp [h]

theorem execKeyInstall_leavesCanonical (l : Nat) (dir : Bool) : LeavesCanonical (execKeyInstall l dir s) := by
  unfold execKeyInstall
  dsimp only
  (repeat' split) <;> simp [h]

theorem execXmapWrite_leavesCanonical (e : Fin 1024) (hi : Bool) (v : Word) :
    LeavesCanonical (execXmapWrite e hi v s) := by
  unfold execXmapWrite
  dsimp only
  (repeat' split) <;> simp [h]

theorem execBar2Write_leavesCanonical (off : Nat) (bytes : List Byte) :
    LeavesCanonical (execBar2Write off bytes s) :=
  (leavesCanonical_next _).mpr (Mem.filterPoison_wf _ (Mem.bar2Put_wf off bytes h))

theorem execClkCtlWrite_leavesCanonical (c : Fin 64) (v : Word) : LeavesCanonical (execClkCtlWrite c v s) := by
  unfold execClkCtlWrite
  dsimp only
  (repeat' split) <;> simp [h]

theorem execSpdmRequest_leavesCanonical (msg : SpdmMsg) : LeavesCanonical (execSpdmRequest msg s) := by
  unfold execSpdmRequest
  dsimp only
  (repeat' split) <;> simp [h]

theorem execAlarmA_leavesCanonical (src : Fin 3) : LeavesCanonical (execAlarmA src s) := by
  unfold execAlarmA
  simp [h]

theorem execFwGo_leavesCanonical (v : Word) (check : FwCheck) : LeavesCanonical (execFwGo v check s) := by
  unfold execFwGo
  dsimp only
  (repeat' split) <;> simp [h]

theorem execFwDone_leavesCanonical (flashOk : Bool) : LeavesCanonical (execFwDone flashOk s) := by
  unfold execFwDone
  dsimp only
  (repeat' split) <;> simp [h]

theorem execRowRepaired_leavesCanonical (stack : Fin 16) (chan : Fin 32) (row : Nat) :
    LeavesCanonical (execRowRepaired stack chan row s) := by
  unfold execRowRepaired
  dsimp only
  (repeat' split) <;> simp [h]

theorem execHbmSpared_leavesCanonical (stack : Fin 16) (chan : Fin 32) :
    LeavesCanonical (execHbmSpared stack chan s) := by
  unfold execHbmSpared
  dsimp only
  (repeat' split) <;> simp [h]

theorem execHbmExhausted_leavesCanonical (stack : Fin 16) (chan : Fin 32) :
    LeavesCanonical (execHbmExhausted stack chan s) := by
  unfold execHbmExhausted
  dsimp only
  (repeat' split) <;> simp [h]

theorem execLinkUp_leavesCanonical (l : Nat) : LeavesCanonical (execLinkUp l s) := by
  unfold execLinkUp
  dsimp only
  (repeat' split) <;> simp [h]

end Sys2Proof.Machine
/-! ### Memory stays canonical -/

namespace Sys2Proof.Machine

open Sys2Proof

/-- Every instruction leaves canonical memory. A pool's instruction has no effect beyond its tile that writes memory,
but for the few named; the steps of the device are told one by one. -/
theorem exec_leavesCanonical {s : State} (h : s.mem.wf = true) (i : Instr) : LeavesCanonical (exec i s) := by
  cases i
  all_goals unfold exec
  case sealReread q => exact execSealReread_leavesCanonical h q
  case wavefrontSwap tile => exact execWavefrontSwap_leavesCanonical h tile
  case depthToken tile pool inp => exact execDepthToken_leavesCanonical h tile pool inp
  case requestReturn ch => exact execRequestReturn_leavesCanonical h ch
  case epochEnd tile pool => exact execEpochEnd_leavesCanonical h tile pool
  case streamBeat tile stream => exact execStreamBeat_leavesCanonical h tile stream
  case copyStart core eng => exact execCopyStart_leavesCanonical h core eng
  case unitCommit => exact execUnitCommit_leavesCanonical h
  case launchGeneration => exact execLaunchGeneration_leavesCanonical h
  case passSerialEnd tile => exact execPassSerialEnd_leavesCanonical h tile
  case passCheck tile => exact execPassCheck_leavesCanonical h tile
  case passBeat tile => exact execPassBeat_leavesCanonical h tile
  case grammarRunEnd tile => exact execGrammarRunEnd_leavesCanonical h tile
  case gremitBeat tile => exact execGremitBeat_leavesCanonical h tile
  case thermResume back => exact execThermResume_leavesCanonical h back
  case keySwitch l dir => exact execKeySwitch_leavesCanonical h l dir
  case keyRetire l dir tx => exact execKeyRetire_leavesCanonical h l dir tx
  case clockStep c => exact execClockStep_leavesCanonical h c
  case controlPeriod p eb => exact execControlPeriod_leavesCanonical h p eb
  case ballastSlice core => exact execBallastSlice_leavesCanonical h core
  case dieReset v host => exact execDieReset_leavesCanonical h v host
  case dieFailed chiplet => exact execDieFailed_leavesCanonical h chiplet
  case fwHandover => exact execFwHandover_leavesCanonical h
  case lqCfgWrite q v => exact execLqCfgWrite_leavesCanonical h q v
  case lqNotify q v port ro => exact execLqNotify_leavesCanonical h q v port ro
  case xinv v => exact execXinv_leavesCanonical h v
  case softCe site => exact execSoftCe_leavesCanonical h site
  case linkRetrain l dir bad ok => exact execLinkRetrain_leavesCanonical h l dir bad ok
  case keyInstall l dir => exact execKeyInstall_leavesCanonical h l dir
  case xmapWrite e hi v => exact execXmapWrite_leavesCanonical h e hi v
  case bar2Write off bytes => exact execBar2Write_leavesCanonical h off bytes
  case clkCtlWrite c v => exact execClkCtlWrite_leavesCanonical h c v
  case spdmRequest msg => exact execSpdmRequest_leavesCanonical h msg
  case alarmA src => exact execAlarmA_leavesCanonical h src
  case fwGo v check => exact execFwGo_leavesCanonical h v check
  case fwDone flashOk => exact execFwDone_leavesCanonical h flashOk
  case rowRepaired stack chan row => exact execRowRepaired_leavesCanonical h stack chan row
  case hbmSpared stack chan => exact execHbmSpared_leavesCanonical h stack chan
  case hbmExhausted stack chan => exact execHbmExhausted_leavesCanonical h stack chan
  case linkUp l => exact execLinkUp_leavesCanonical h l
  case packetFetch q => exact execPacketFetch_leavesCanonical h q
  case xinvComplete => exact execXinvComplete_leavesCanonical h
  case rootGuess => exact execRootGuess_leavesCanonical h
  case rootRatify => exact execRootRatify_leavesCanonical h
  case rootSqreq => exact execRootSqreq_leavesCanonical h
  case msgLaunch ep => exact execMsgLaunch_leavesCanonical h ep
  case msgRatify ep => exact execMsgRatify_leavesCanonical h ep
  case msgSquash ep => exact execMsgSquash_leavesCanonical h ep
  case msgFree ep => exact execMsgFree_leavesCanonical h ep
  case jobTeardown j v => exact execJobTeardown_leavesCanonical h j v
  case resultComplete tile pool idx => exact execResultComplete_leavesCanonical h tile pool idx
  case qwcAck v => exact execQwcAck_leavesCanonical h v
  case evqHeadWrite v => exact execEvqHeadWrite_leavesCanonical h v
  case cancelLaunch v => exact execCancelLaunch_leavesCanonical h v
  case cancelGraph v => exact execCancelGraph_leavesCanonical h v
  case cancelPhase v => exact execCancelPhase_leavesCanonical h v
  case cancelJob v => exact execCancelJob_leavesCanonical h v
  case bar2Read off => exact execBar2Read_leavesCanonical h off
  case coldReset attest fwOk => exact execColdReset_leavesCanonical attest fwOk
  case alarmB chiplet idx => exact execAlarmB_leavesCanonical h chiplet idx
  case dieAttested chiplet => exact execDieAttested_leavesCanonical h chiplet
  case fwRecovery => exact execFwRecovery_leavesCanonical h
  case cxlPortReturn p => exact execCxlPortReturn_leavesCanonical h p
  case functionReset => exact execFunctionReset_leavesCanonical h
  case acceptLaunch => exact execAcceptLaunch_leavesCanonical h
  case releaseLaunch => exact execReleaseLaunch_leavesCanonical h
  case davailChange v => exact execDavailChange_leavesCanonical h v
  case streamWrite tile => exact execStreamWrite_leavesCanonical h tile
  case thermCrit die temp => exact execThermCrit_leavesCanonical h die temp
  case flitReceive l dir ext tagOk => exact execFlitReceive_leavesCanonical h l dir ext tagOk
  case retryRequest l dir aseq => exact execRetryRequest_leavesCanonical h l dir aseq
  case tileFence tile => exact execTileFence_leavesCanonical h tile
  case featAcceptWrite f v => exact execFeatAcceptWrite_leavesCanonical h f v
  case enable v => exact execEnable_leavesCanonical h v
  case jobCreate j v => exact execJobCreate_leavesCanonical h j v
  case jobSuspend v => exact execJobSuspend_leavesCanonical h v
  case jobResume v => exact execJobResume_leavesCanonical h v
  case cxlDown p => exact execCxlDown_leavesCanonical h p
  case registerWrite off v => exact execRegisterWrite_leavesCanonical h off v
  case placeLaunch die => exact execPlaceLaunch_leavesCanonical h die
  case applyRetirementRecord die => exact execApplyRetirementRecord_leavesCanonical h die
  case applyInvalidation die => exact execApplyInvalidation_leavesCanonical h die
  case threadTokenEnqueue lseq => exact execThreadTokenEnqueue_leavesCanonical h lseq
  case chooseBlock rid => exact execChooseBlock_leavesCanonical h rid
  case shadowLoad rid => exact execShadowLoad_leavesCanonical h rid
  case switch tile => exact execSwitch_leavesCanonical h tile
  case tokenArrive ch => exact execTokenArrive_leavesCanonical h ch
  case creditReturn ch => exact execCreditReturn_leavesCanonical h ch
  case unitFinish lseq blk => exact execUnitFinish_leavesCanonical h lseq blk
  case xlateReplay hold => exact execXlateReplay_leavesCanonical h hold
  case copyEnd core eng => exact execCopyEnd_leavesCanonical h core eng
  case branchComplete core eng => exact execBranchComplete_leavesCanonical h core eng
  case memPerform tile idx => exact execMemPerform_leavesCanonical h tile idx
  case feWake tile idx => exact execFeWake_leavesCanonical h tile idx
  case storeEntry tile idx => exact execStoreEntry_leavesCanonical h tile idx
  case taskLoad tile idx => exact execTaskLoad_leavesCanonical h tile idx
  case rootDhpush => exact execRootDhpush_leavesCanonical h
  case squashMarker ch => exact execSquashMarker_leavesCanonical h ch
  case freeComplete seq => exact execFreeComplete_leavesCanonical h seq
  case kvOpenProceed tile idx => exact execKvOpenProceed_leavesCanonical h tile idx
  case mxBusyEnd tile => exact execMxBusyEnd_leavesCanonical h tile
  case scrubEnd tile => exact execScrubEnd_leavesCanonical h tile
  case qwc rid => exact execQwc_leavesCanonical h rid
  case preemptRequest rid => exact execPreemptRequest_leavesCanonical h rid
  case drainEnd rid => exact execDrainEnd_leavesCanonical h rid
  case yieldOverrun rid => exact execYieldOverrun_leavesCanonical h rid
  case restoreBlock rid => exact execRestoreBlock_leavesCanonical h rid
  case eventWrite => exact execEventWrite_leavesCanonical h
  case damperWindow rid => exact execDamperWindow_leavesCanonical h rid
  case softUe site => exact execSoftUe_leavesCanonical h site
  case req f => exact execReq_leavesCanonical h f
  case smrgOrd f => exact execSmrgOrd_leavesCanonical h f
  case tsget f => exact execTsget_leavesCanonical h f
  case tsnew f => exact execTsnew_leavesCanonical h f
  case csrw f => exact execCsrw_leavesCanonical h f
  case mxcfg f => exact execMxcfg_leavesCanonical h f
  case mxrow f => exact execMxrow_leavesCanonical h f
  case mxout f => exact execMxout_leavesCanonical h f
  case mxz f => exact execMxz_leavesCanonical h f
  case tarm f => exact execTarm_leavesCanonical h f
  case tmc f => exact execTmc_leavesCanonical h f
  case agset f => exact execAgset_leavesCanonical h f
  case iadd f => exact arithOp_leavesCanonical h _ _ _
  case isub f => exact arithOp_leavesCanonical h _ _ _
  case imul f => exact arithOp_leavesCanonical h _ _ _
  case imulh f => exact arithOp_leavesCanonical h _ _ _
  case imad f => exact arithOp_leavesCanonical h _ _ _
  case ineg f => exact arithOp_leavesCanonical h _ _ _
  case iabs f => exact arithOp_leavesCanonical h _ _ _
  case imin f => exact arithOp_leavesCanonical h _ _ _
  case imax f => exact arithOp_leavesCanonical h _ _ _
  case iclamp f => exact arithOp_leavesCanonical h _ _ _
  case iadds f => exact arithOp_leavesCanonical h _ _ _
  case isubs f => exact arithOp_leavesCanonical h _ _ _
  case and f => exact intOp_leavesCanonical h _ _ _ _
  case or f => exact intOp_leavesCanonical h _ _ _ _
  case xor f => exact intOp_leavesCanonical h _ _ _ _
  case andn f => exact intOp_leavesCanonical h _ _ _ _
  case not f => exact intOp_leavesCanonical h _ _ _ _
  case popc f => exact intOp_leavesCanonical h _ _ _ _
  case bfx f => exact intOp_leavesCanonical h _ _ _ _
  case bfi f => exact intOp_leavesCanonical h _ _ _ _
  case sext f => exact intOp_leavesCanonical h _ _ _ _
  case shl f =>
    unfold execShl
    exact intOp_leavesCanonical h _ _ _ _
  case shr f =>
    unfold execShr
    exact intOp_leavesCanonical h _ _ _ _
  case sar f =>
    unfold execSar
    exact intOp_leavesCanonical h _ _ _ _
  case rot f =>
    unfold execRot
    exact intOp_leavesCanonical h _ _ _ _
  case clz f =>
    unfold execClz
    exact intOp_leavesCanonical h _ _ _ _
  case mova f => exact addrOp_leavesCanonical h _ _ _
  case adda f => exact addrOp_leavesCanonical h _ _ _
  case wrapa f => exact addrOp_leavesCanonical h _ _ _
  case fadd f => exact wfOp_leavesCanonical h _ _ _
  case fsub f => exact wfOp_leavesCanonical h _ _ _
  case fmul f => exact wfOp_leavesCanonical h _ _ _
  case fma f => exact wfOp_leavesCanonical h _ _ _
  case fneg f => exact wfOp_leavesCanonical h _ _ _
  case fabs f => exact wfOp_leavesCanonical h _ _ _
  case fmin f => exact wfOp_leavesCanonical h _ _ _
  case fmax f => exact wfOp_leavesCanonical h _ _ _
  case fclamp f => exact wfOp_leavesCanonical h _ _ _
  case fmant f => exact wfOp_leavesCanonical h _ _ _
  case frnd f => exact wfOp_leavesCanonical h _ _ _
  case frcp f => exact wfOp_leavesCanonical h _ _ _
  case frsq f => exact wfOp_leavesCanonical h _ _ _
  case fsqrt f => exact wfOp_leavesCanonical h _ _ _
  case fexp2 f => exact wfOp_leavesCanonical h _ _ _
  case flog2 f => exact wfOp_leavesCanonical h _ _ _
  case fexp f => exact wfOp_leavesCanonical h _ _ _
  case ftanh f => exact wfOp_leavesCanonical h _ _ _
  case fmtq f => exact wfOp_leavesCanonical h _ _ _
  case rsum f => exact reduceOp_leavesCanonical h _ _ _
  case rmax f => exact reduceOp_leavesCanonical h _ _ _
  case rmin f => exact reduceOp_leavesCanonical h _ _ _
  case ldf f => exact syncLoad_leavesCanonical h _ _
  case lde f => exact syncLoad_leavesCanonical h _ _
  case stf f => exact syncStore_leavesCanonical h _ _
  case ste f => exact syncStore_leavesCanonical h _ _
  case draft f => exact draftOp_leavesCanonical h _ _ _
  case draftx f => exact draftOp_leavesCanonical h _ _ _
  case agrd f => exact issueStream_leavesCanonical h fun c => by simp
  case agch f => exact issueStream_leavesCanonical h fun c => by simp
  case agwr f => exact issueStream_leavesCanonical h fun c => by simp
  case aggth f => exact issueStream_leavesCanonical h fun c => by simp
  case agsct f => exact issueStream_leavesCanonical h fun c => by simp
  case agstop f => exact issueStream_leavesCanonical h fun c => by simp
  case agpos f => exact issueStream_leavesCanonical h fun c => by simp
  all_goals exact issue_leavesCanonical h fun c => by simp

theorem State.fireSlot_leavesCanonical {s : State} (h : s.mem.wf = true) (k : Nat) (p : Pool) (n : Nat) :
    LeavesCanonical (s.fireSlot k p n) := by
  unfold State.fireSlot
  split
  · exact exec_leavesCanonical (s := { s with focus := ⟨k, p, n⟩ }) h _
  · exact fun _ ht => nomatch ht

theorem State.beginFire_leavesCanonical {s : State} (h : s.mem.wf = true) (k : Nat) (p : Pool) :
    LeavesCanonical (s.beginFire k p) := by
  have hlook := State.lookAt_wf h k p
  unfold State.beginFire
  dsimp only
  split
  · split
    · exact State.fireSlot_leavesCanonical hlook k p _
    · exact (leavesCanonical_next _).mpr hlook
  · split <;> simp [h]

theorem step_leavesCanonical {s : State} (h : s.mem.wf = true) : LeavesCanonical (step s) := by
  unfold step
  split
  case h_1 => simp [h]
  case h_2 k p rest _ =>
    exact State.beginFire_leavesCanonical (s := { s with agenda := rest }) h k p
  case h_3 c rest _ =>
    have hcycle : ({ s with agenda := rest }.endCycle c).mem.wf = true :=
      State.endCycle_wf (s := { s with agenda := rest }) h c
    rw [leavesCanonical_next, apply_ite State.mem, apply_ite Mem.wf, hcycle]
    exact ite_eq_left_iff.mpr fun _ => h
  case h_4 i rest _ =>
    split
    · exact exec_leavesCanonical (s := { s with agenda := rest }) h i
    · exact (leavesCanonical_next _).mpr h

/-- Settles O59: no step writes memory but by operations that keep its canonical form, or puts anything but the memory
of the reset state in its place. -/
theorem memoryStaysCanonical : Obligations.MemoryStaysCanonical := fun _ t h ht => step_leavesCanonical h t ht

end Sys2Proof.Machine

/-! ## Taking a fault (R340, R341, R135) -/

namespace Sys2Proof.Machine

open Sys2Proof

section Raise

variable {s : State} {k : Nat} {p : Pool} (slot code : Nat) (g : BitVec 8) (w3 w4 w5 : Word)

/-- The record that a pool without one takes. -/
def State.recordOf (s : State) (k : Nat) (p : Pool) (slot code : Nat) (g : BitVec 8) (w3 w4 w5 : Word) : FaultRec :=
  ⟨code, g, slot, w3, w4, w5, s.deliversNow k p g⟩

/-- The state with the pool stopped by that record. -/
def State.stopped (s : State) (k : Nat) (p : Pool) (slot code : Nat) (g : BitVec 8) (w3 w4 w5 : Word) : State :=
  s.modPool k p (·.stop (s.recordOf k p slot code g w3 w4 w5))

theorem State.raise_recorded (h : ((s.tile k).pool p).frec ≠ none) : s.raise k p slot code g w3 w4 w5 = s := by
  rw [State.raise, if_pos (Option.isSome_iff_ne_none.mpr h)]

theorem State.raise_unrecorded (h : ((s.tile k).pool p).frec = none) : s.raise k p slot code g w3 w4 w5 =
    if s.deliversNow k p g then
      (s.stopped k p slot code g w3 w4 w5).deliverFault k p (s.recordOf k p slot code g w3 w4 w5)
    else s.stopped k p slot code g w3 w4 w5 := by
  rw [State.raise, h, Option.isSome_none, if_neg Bool.false_ne_true]
  rfl

/-- Delivery changes the event queue and the launches alone. -/
theorem State.deliverFault_rest (s : State) (k : Nat) (p : Pool) (r : FaultRec) :
    (s.deliverFault k p r).tiles = s.tiles ∧ (s.deliverFault k p r).mem = s.mem ∧
      (s.deliverFault k p r).chans = s.chans := by
  unfold State.deliverFault
  dsimp only
  split
  · exact ⟨rfl, rfl, rfl⟩
  · split <;> simp [State.holdLaunch, State.report]

theorem State.raise_rest (h : ((s.tile k).pool p).frec = none) :
    (s.raise k p slot code g w3 w4 w5).tiles = (s.stopped k p slot code g w3 w4 w5).tiles ∧
      (s.raise k p slot code g w3 w4 w5).mem = s.mem ∧ (s.raise k p slot code g w3 w4 w5).chans = s.chans := by
  rw [State.raise_unrecorded _ _ _ _ _ _ h]
  split
  · exact State.deliverFault_rest ..
  · exact ⟨rfl, rfl, rfl⟩

theorem State.raise_tile (h : ((s.tile k).pool p).frec = none) (j : Nat) :
    (s.raise k p slot code g w3 w4 w5).tile j = (s.stopped k p slot code g w3 w4 w5).tile j := by
  rw [State.tile, (State.raise_rest _ _ _ _ _ _ h).1]
  rfl

theorem State.raise_pool (h : ((s.tile k).pool p).frec = none) :
    ((s.raise k p slot code g w3 w4 w5).tile k).pool p =
      ((s.tile k).pool p).stop (s.recordOf k p slot code g w3 w4 w5) := by
  rw [State.raise_tile _ _ _ _ _ _ h, State.stopped, State.tile_modPool, Tile.pool_modPool]

/-- A pool that has a record does not run. -/
theorem PoolSt.stop_run (x : PoolSt) (r : FaultRec) : (x.stop r).run ≠ .running := by
  unfold PoolSt.stop
  dsimp only
  cases x.run <;> decide

theorem State.raise_mayFire (h : ((s.tile k).pool p).frec = none) :
    (s.raise k p slot code g w3 w4 w5).mayFire k p = false := by
  rw [State.mayFire, State.raise_pool _ _ _ _ _ _ h]
  simp [PoolSt.stop_run]

theorem State.deliversNow_iff : s.deliversNow k p g = true ↔ g = 0 ∨ ((s.tile k).pool p).ratified.contains g = true ∨
    (Tab.get (s.die (tileDie k)).mirror g.toNat GenEnt.reset).st = .ratified := by
  unfold State.deliversNow asRatified
  cases hr : ((s.tile k).pool p).ratified.contains g <;> simp

theorem State.deliversNow_eq_false (h0 : g ≠ 0) (hr : ((s.tile k).pool p).ratified.contains g = false)
    (hm : (Tab.get (s.die (tileDie k)).mirror g.toNat GenEnt.reset).st ≠ .ratified) : s.deliversNow k p g = false := by
  rw [Bool.eq_false_iff, ne_eq, State.deliversNow_iff, hr]
  exact not_or_intro h0 (not_or_intro Bool.false_ne_true hm)

theorem State.stopped_blockOf : (s.stopped k p slot code g w3 w4 w5).blockOf k = s.blockOf k := by
  unfold State.blockOf State.stopped
  rw [State.tile_modPool]
  cases p <;> rfl

theorem State.stopped_placeOf : (s.stopped k p slot code g w3 w4 w5).placeOf k p slot = s.placeOf k p slot := by
  rw [State.placeOf, State.stopped_blockOf, State.placeOf]

end Raise

/-- No launch of the tile's block has retired. -/
def State.launchStands (s : State) (k : Nat) : Prop :=
  ∀ b l, s.blockOf k = some b → Tab.get? s.launches b.lseq = some l → l.st ≠ .retired

/-- The delivery of a fault of a launch that stands: its event is posted and the launch is held. -/
theorem State.deliverFault_posts {s : State} {k : Nat} (hlive : s.launchStands k) (p : Pool) (r : FaultRec) :
    (∃ e : Event, (s.deliverFault k p r).evq.held = s.evq.held ++ [e] ∧ e.code = r.code ∧ e.w2 = s.placeOf k p r.slot ∧
      e.w3 = r.w3 ∧ e.w4 = r.w4 ∧ e.w5 = r.w5) ∧
    ∀ b l, s.blockOf k = some b → Tab.get? s.launches b.lseq = some l →
      Tab.get? (s.deliverFault k p r).launches b.lseq = some { l with faulted := true } := by
  have hstands : ((s.blockOf k).map (·.lseq)).any s.isRetired = false := by
    cases hb : s.blockOf k with
    | none => rfl
    | some b =>
      cases hl : Tab.get? s.launches b.lseq with
      | none => simp [State.isRetired, hl]
      | some l => simpa [State.isRetired, hl] using hlive b l hb hl
  rw [State.deliverFault, hstands, if_neg Bool.false_ne_true]
  dsimp only
  cases hb : s.blockOf k with
  | none => exact ⟨⟨_, rfl, rfl, rfl, rfl, rfl, rfl⟩, fun _ _ h => nomatch h⟩
  | some b =>
    refine ⟨⟨_, congrArg EventQ.held (State.modLaunch_evq ..), rfl, rfl, rfl, rfl, rfl⟩, fun b' l hb' hl => ?_⟩
    cases hb'
    exact State.launch_modLaunch _ hl

/-- What a pool without a record keeps and loses when it takes a fault. -/
theorem State.raise_stopsPool {s : State} {k : Nat} {p : Pool} (slot code : Nat) (g : BitVec 8) (w3 w4 w5 : Word)
    (h : ((s.tile k).pool p).frec = none) :
    let x := (s.tile k).pool p
    let t := s.raise k p slot code g w3 w4 w5
    (∃ b, (t.tile k).pool p = { x with
      run := if x.run = .halted ∨ x.run = .yielded then x.run else .faulted
      frec := some ⟨code, g, slot, w3, w4, w5, b⟩ }) ∧
    (∀ q, q ≠ p → (t.tile k).pool q = (s.tile k).pool q) ∧ (∀ j, j ≠ k → t.tile j = s.tile j) ∧
    (t.tile k).ps = (s.tile k).ps ∧ (t.tile k).eng = (s.tile k).eng := by
  have htile := State.raise_tile slot code g w3 w4 w5 h
  have hself : (s.stopped k p slot code g w3 w4 w5).tile k =
    (s.tile k).modPool p (·.stop (s.recordOf k p slot code g w3 w4 w5)) := State.tile_modPool ..
  refine ⟨⟨s.deliversNow k p g, ?_⟩, fun q hq => ?_, fun j hj => ?_, ?_, ?_⟩
  · rw [State.raise_pool slot code g w3 w4 w5 h]
    simp only [PoolSt.stop, Bool.or_eq_true, decide_eq_true_eq]
    rfl
  · rw [htile, hself, Tile.pool_modPool_ne _ _ hq]
  · rw [htile]
    exact State.tile_modPool_ne _ _ _ hj
  · rw [htile, hself]
    cases p <;> rfl
  · rw [htile, hself]
    cases p <;> rfl

/-- An integer instruction reads A first (R135). -/
theorem exec_integer {o : Op} (ho : o ∈ sizedOps ++ bitOps) (f : Fields) (s : State) :
    ∃ fmt op, exec (o.mk f) s = intOp o f s fmt op := by
  rcases List.mem_append.mp ho with ho | ho
  · simp only [sizedOps, List.mem_cons, List.not_mem_nil, or_false] at ho
    refine ⟨fmtW f.md, exactLane o f.md, ?_⟩
    rcases ho with rfl | rfl | rfl | rfl | rfl | rfl | rfl | rfl | rfl | rfl | rfl | rfl | rfl | rfl | rfl | rfl <;> rfl
  · exact ⟨_, _, exec_bits f s ho⟩

theorem intOp_unreadable {o : Op} {f : Fields} {s : State} {e : Flt} {fmt : Ctx → Tok → BitVec 4}
    {op : Word → Word → Word → Word} (hf : Fires o f s) (he : (s.seen o f).convA .int = .error e) :
    intOp o f s fmt op =
      .next ((s.markActive s.focus.tile).raise s.focus.tile s.focus.pool e.slot e.code e.gen e.w3 e.w4 e.w5) :=
  issue_error hf (congrArg (· >>= _) he)

/-- Settles O57: a pool's record is written once, by `State.stopped`, and delivery touches the event queue and the
launches alone. -/
theorem takingAFault : Obligations.TakingAFault := by
  refine ⟨fun s k p slot code g w3 w4 w5 => ⟨State.raise_recorded slot code g w3 w4 w5, fun h => ?_⟩, ?_⟩
  · obtain ⟨hpool, hpools, htiles, hps, heng⟩ := State.raise_stopsPool slot code g w3 w4 w5 h
    obtain ⟨-, hmem, hchans⟩ := State.raise_rest slot code g w3 w4 w5 h
    have hraise := State.raise_unrecorded slot code g w3 w4 w5 h
    refine ⟨hpool, hpools, htiles, hps, heng, hmem, hchans, State.raise_mayFire _ _ _ _ _ _ h, fun hnow hlive => ?_,
      fun h0 hr hm => ?_⟩
    · have hblock := State.stopped_blockOf (s := s) (k := k) (p := p) slot code g w3 w4 w5
      obtain ⟨hevent, hheld⟩ := State.deliverFault_posts (s := s.stopped k p slot code g w3 w4 w5) (k := k)
        (fun b l hb => hlive b l (hblock.symm.trans hb)) p (s.recordOf k p slot code g w3 w4 w5)
      rw [hraise, if_pos ((State.deliversNow_iff g).mpr hnow)]
      exact ⟨State.stopped_placeOf (s := s) slot code g w3 w4 w5 ▸ hevent, fun b l hb => hheld b l (hblock.trans hb)⟩
    · rw [hraise, State.deliversNow_eq_false g h0 hr hm, if_neg Bool.false_ne_true]
      exact ⟨rfl, rfl⟩
  · intro o f s e ho hf he
    obtain ⟨fmt, op, hexec⟩ := exec_integer ho f s
    exact hexec.trans (intOp_unreadable hf he)

end Sys2Proof.Machine

/-! ## The control period, ballast, the damper's windows and the thermal sequence (R388 to R392, R306, R358, R360) -/

/-! ### What keeps the dies that are too hot -/

namespace Sys2Proof.Machine

open Sys2Proof

theorem foldl_critDies {α : Type} {g : State → α → State}
    (h : ∀ s x, (g s x).thermal.critDies = s.thermal.critDies) (xs : List α) (s : State) :
    (xs.foldl g s).thermal.critDies = s.thermal.critDies := by
  induction xs generalizing s with
  | nil => rfl
  | cons x rest ih => rw [List.foldl_cons, ih, h]

variable (s : State)

@[simp] theorem State.gate_critDies (k : Nat) : (s.gate k).thermal.critDies = s.thermal.critDies := by
  unfold State.gate
  split <;> rfl

@[simp] theorem State.dropShadows_critDies (rid bid : Nat) :
    (s.dropShadows rid bid).thermal.critDies = s.thermal.critDies := by
  refine foldl_critDies (fun s k => ?_) _ s
  dsimp only
  (repeat' split) <;> simp

@[simp] theorem State.abortLoad_critDies (rid : Nat) : (s.abortLoad rid).thermal.critDies = s.thermal.critDies := by
  unfold State.abortLoad
  split
  · rename_i l _
    cases hl : l.hold <;> simp [State.dropHold]
  · rfl

@[simp] theorem State.putWord_critDies (w : Nat) (mask : BitVec 8) (v : Word) (psn : Bool) :
    (s.putWord w mask v psn).thermal.critDies = s.thermal.critDies := by
  unfold State.putWord
  dsimp only
  (repeat' split) <;> rfl

@[simp] theorem State.putFull_critDies (w : Nat) (full : Bool) :
    (s.putFull w full).thermal.critDies = s.thermal.critDies := rfl

@[simp] theorem State.storeWord_critDies (k : Nat) (r : Req) (turn : Bool) (w : Nat) (mask : BitVec 8) (v : Word)
    (full : Bool) : (s.storeWord k r turn w mask v full).1.thermal.critDies = s.thermal.critDies := by
  unfold State.storeWord State.queueHeld State.writeNow
  dsimp only
  (repeat' split) <;> simp

@[simp] theorem State.storeAcc_critDies (k : Nat) (r : Req) (turn : Bool) (a : Acc) :
    (s.storeAcc k r turn a).1.thermal.critDies = s.thermal.critDies := by
  refine List.foldlRecOn (motive := fun sn : State × Nat => sn.1.thermal.critDies = s.thermal.critDies) _ _ rfl
    fun sn hsn x _ => ?_
  dsimp only
  (repeat' split) <;> simp [hsn]

@[simp] theorem State.doAcc_critDies (k : Nat) (r : Req) (turn : Bool) (a : Acc) :
    (s.doAcc k r turn a).1.thermal.critDies = s.thermal.critDies := by
  have hfull (full : Bool) : (s.fullAcc k r a full).thermal.critDies = s.thermal.critDies :=
    foldl_critDies (fun s (x : Nat × Nat) => State.putFull_critDies s x.2 full) _ s
  unfold State.doAcc
  dsimp only
  (repeat' split) <;> simp [hfull]

@[simp] theorem State.markActive_critDies (k : Nat) : (s.markActive k).thermal.critDies = s.thermal.critDies := by
  unfold State.markActive
  split <;> simp

@[simp] theorem State.putReq_critDies (k : Nat) (r : Req) : (s.putReq k r).thermal.critDies = s.thermal.critDies := rfl

@[simp] theorem State.performFirst_critDies (k : Nat) (r : Req) (turn : Bool) :
    (s.performFirst k r turn).thermal.critDies = s.thermal.critDies := by
  unfold State.performFirst State.queueHeld
  dsimp only
  (repeat' split) <;> simp

@[simp] theorem State.tryFirst_critDies (k : Nat) (r : Req) (turn : Bool) :
    (s.tryFirst k r turn).thermal.critDies = s.thermal.critDies := by
  unfold State.tryFirst State.takeOrder
  dsimp only
  (repeat' split) <;> simp

@[simp] theorem State.wakeUp_critDies (n : Nat) : (s.wakeUp n).thermal.critDies = s.thermal.critDies := by
  induction n generalizing s with
  | zero => rfl
  | succ n ih =>
    unfold State.wakeUp
    split
    · rw [ih, State.performFirst_critDies]
    · rfl

@[simp] theorem State.applyHeld_critDies (h : HeldWrite) : (s.applyHeld h).thermal.critDies = s.thermal.critDies := by
  unfold State.applyHeld State.countTag State.writeNow
  dsimp only
  (repeat' split) <;> simp

@[simp] theorem State.releaseHeld_critDies (k : Nat) : (s.releaseHeld k).thermal.critDies = s.thermal.critDies :=
  foldl_critDies State.applyHeld_critDies _ _

@[simp] theorem State.dropped_critDies (ch n : Nat) (arrived : Bool) :
    (s.dropped ch n arrived).thermal.critDies = s.thermal.critDies := by
  unfold State.dropped
  (repeat' split) <;> rfl

@[simp] theorem State.withdrawTile_critDies (k : Nat) : (s.withdrawTile k).thermal.critDies = s.thermal.critDies := by
  have hcredits : (s.creditInputs k).thermal.critDies = s.thermal.critDies :=
    foldl_critDies (fun s i => by cases i.chan <;> simp) _ s
  unfold State.withdrawTile
  dsimp only
  split <;> simp [hcredits, State.dropHeld]

@[simp] theorem State.withdraw_critDies (scope : List Nat) (lseq : Nat) :
    (s.withdraw scope lseq).thermal.critDies = s.thermal.critDies := by
  have hstores : (s.dropStores scope lseq).thermal.critDies = s.thermal.critDies :=
    (congrArg (fun t : State => t.thermal.critDies)
      ((AbortOnly.bisque s _).trans (.abortAll _ (2 * _ + 2) _)).eq :)
  have hholds (s : State) : (s.dropHolds lseq).thermal.critDies = s.thermal.critDies :=
    foldl_critDies (fun s h => by split <;> simp) _ s
  have htiles (ks : List Nat) (s : State) : (ks.foldl State.withdrawTile s).thermal.critDies = s.thermal.critDies :=
    foldl_critDies State.withdrawTile_critDies ks s
  have hchans (s : State) : (s.dropChannels lseq).thermal.critDies = s.thermal.critDies :=
    foldl_critDies (fun s c => by simp) _ s
  have hframes (s : State) : (s.dropFrames lseq).thermal.critDies = s.thermal.critDies :=
    foldl_critDies (fun s b => by simp) _ _
  unfold State.withdraw
  dsimp only
  rw [State.modLaunch_thermal, hframes, hchans, htiles]
  exact (hholds _).trans hstores

@[simp] theorem State.retire_critDies (lseq : Nat) (cause : Option Nat) (level : Nat) :
    (s.retire lseq cause level).thermal.critDies = s.thermal.critDies := by
  have hmark (l : Launch) : (s.markRetired lseq l cause).thermal.critDies = s.thermal.critDies :=
    foldl_critDies (g := fun s k => s.setTile k (s.tile k).quiet) (fun _ _ => rfl) _ s
  have hend (s : State) : (s.endSpeculation lseq).thermal = s.thermal :=
    (congrArg State.thermal (AbortOnly.endSpeculation s lseq).eq :)
  have hrecord (s : State) : (s.recordRetired lseq).thermal = s.thermal := by
    unfold State.recordRetired
    dsimp only
    split
    · rfl
    · exact hend s
  have hpost (s : State) (l : Launch) (g p : Bool) : (s.postRetired l g p).thermal = s.thermal := by
    unfold State.postRetired
    dsimp only
    split <;> rfl
  have hcount (s : State) (l : Launch) : (s.countRetired l cause level).thermal = s.thermal := by
    unfold State.countRetired
    dsimp only
    rw [hpost]
    (repeat' split) <;> rfl
  cases hl : Tab.get? s.launches lseq with
  | none =>
    unfold State.retire
    rw [hl]
  | some l => rw [State.retire_eq cause level hl, hcount, hrecord, hmark]

@[simp] theorem State.cascade_critDies (n : Nat) : (s.cascade n).thermal.critDies = s.thermal.critDies := by
  induction n generalizing s with
  | zero => rfl
  | succ n ih =>
    unfold State.cascade
    split
    · rw [ih, State.retire_critDies, State.withdraw_critDies]
    · rfl

@[simp] theorem State.cancelLaunch_critDies (lseq cause : Nat) :
    (s.cancelLaunch lseq cause).thermal.critDies = s.thermal.critDies := by
  unfold State.cancelLaunch State.cascadeAll
  split <;> simp

@[simp] theorem State.cancelHeld_critDies (cause : Nat) : (s.cancelHeld cause).thermal.critDies = s.thermal.critDies :=
  foldl_critDies (fun s (kl : Nat × Launch) => State.cancelLaunch_critDies s kl.1 cause) _ s

end Sys2Proof.Machine

/-! ### The thermal sequence begins -/

namespace Sys2Proof.Machine

open Sys2Proof

/-- Power goes off with launches, events and what is too hot as they are. -/
theorem State.railsOff_rest (s : State) : s.railsOff.launches = s.launches ∧ s.railsOff.evq = s.evq ∧
    s.railsOff.thermal.critDies = s.thermal.critDies := by
  have hgated (ks : List Nat) (u : State) : WorkOnly u (ks.foldl State.gateNow u) := .foldl (fun _ _ => ⟨rfl⟩) ks u
  have hcool (ks : List Nat) (u : State) : (ks.foldl State.gateNow u).thermal.critDies = u.thermal.critDies :=
    foldl_critDies (g := State.gateNow) (fun _ _ => rfl) ks u
  unfold State.railsOff
  dsimp only
  refine ⟨(hgated _ _).launches.trans (WorkOnly.foldl (fun s r => ?_) _ s).launches,
    (hgated _ _).evq.trans (WorkOnly.foldl (fun s r => ?_) _ s).evq, (hcool _ _).trans (foldl_critDies (fun s r => ?_) _ s)⟩
  rotate_left 2
  · split <;> simp
  all_goals
    split
    · exact (WorkOnly.abortLoad s _).trans ((WorkOnly.modRegion _ _ _).trans (.dropShadows _ _ _))
    · exact WorkOnly.abortLoad s _

/-- Once held launches are cancelled, the sequence saves or goes off, and leaves launches, events and what is too hot. -/
theorem State.thermStep_rest (s : State) : s.thermStep.launches = (s.cancelHeld 0x96).launches ∧
    s.thermStep.evq = (s.cancelHeld 0x96).evq ∧ s.thermStep.thermal.critDies = s.thermal.critDies := by
  have hcrit := s.cancelHeld_critDies 0x96
  unfold State.thermStep
  dsimp only
  generalize s.cancelHeld 0x96 = u at hcrit ⊢
  rw [← hcrit]
  split
  · exact u.railsOff_rest
  · unfold State.thermSave
    split <;> simp

/-- The launches that a fault holds and that have not retired. -/
def State.heldLaunches (s : State) : List Nat :=
  (s.launches.filter fun kl => kl.2.faulted && kl.2.st != .retired).map (·.1)

theorem State.cancelHeld_eq (s : State) (cause : Nat) :
    s.cancelHeld cause = s.heldLaunches.foldl (fun s l => s.cancelLaunch l cause) s := by
  rw [State.heldLaunches, List.foldl_map]
  rfl

theorem State.cancelHeld_retires (s : State) (cause : Nat) : CancelKeeps s (s.cancelHeld cause) ∧
    ∀ n l, Tab.get? s.launches n = some l → l.faulted = true →
      ∃ m, Tab.get? (s.cancelHeld cause).launches n = some m ∧ m.st = .retired := by
  obtain ⟨hkeeps, hretired⟩ := foldl_cancelLaunch cause s.heldLaunches s
  rw [State.cancelHeld_eq]
  refine ⟨hkeeps, fun n l hl hf => ?_⟩
  by_cases hst : l.st = .retired
  · obtain ⟨m, hm, hmst⟩ := hkeeps.stand n l hl
    exact ⟨m, hm, hmst hst⟩
  · refine hretired n (List.mem_map.mpr ⟨(n, l), List.mem_filter.mpr ⟨Tab.mem_of_get? hl, ?_⟩, rfl⟩) l hl
    simp [hf, hst]

/-- THERM_CRIT of a die, and the die noted. -/
def State.tooHot (s : State) (d temp : Nat) : State :=
  let s1 := s.report 0x96 none 0 ones (w64 d ||| place temp 8) 0 0
  { s1 with thermal := { s1.thermal with critDies := putNat s1.thermal.critDies d } }

section ThermCrit

variable {s : State} {d : Fin 8} {temp : BitVec 8} (hoff : s.thermal.off = false)
include hoff

omit hoff in
theorem thermCrit_below (ht : temp.toNat < s.host.thermCrit.toNat) : exec (.thermCrit d temp) s = .next s := by
  rw [show exec (.thermCrit d temp) s = execThermCrit d temp s from rfl, execThermCrit]
  simp [ht]

theorem thermCrit_begins (hresuming : s.thermal.resuming = false) (hd : d.val ∉ s.thermal.critDies)
    (ht : s.host.thermCrit.toNat ≤ temp.toNat) :
    exec (.thermCrit d temp) s = .next (s.tooHot d.val temp.toNat).thermStep := by
  rw [show exec (.thermCrit d temp) s = execThermCrit d temp s from rfl, execThermCrit]
  simp only [hoff, hresuming, Nat.not_lt.mpr ht, List.contains_eq_mem, hd, decide_false, Bool.or_self, Bool.false_eq_true,
    if_false]
  rfl

end ThermCrit

theorem thermStep_sequence (s : State) (d temp : Nat) :
    let t := (s.tooHot d temp).thermStep
    d ∈ t.thermal.critDies ∧ (∃ e ∈ t.evq.held, e.code = 0x96 ∧ e.w2 = BitVec.allOnes 64) ∧
      ∀ n l, Tab.get? s.launches n = some l → l.faulted = true →
        ∃ m, Tab.get? t.launches n = some m ∧ m.st = .retired := by
  obtain ⟨hlaunches, hevq, hcrit⟩ := (s.tooHot d temp).thermStep_rest
  obtain ⟨hkeeps, hretires⟩ := (s.tooHot d temp).cancelHeld_retires 0x96
  refine ⟨?_, ?_, fun n l hl hf => ?_⟩
  · rw [hcrit]
    exact (mem_putNat _ _ _).mpr (.inr rfl)
  · rw [hevq]
    exact ⟨_, hkeeps.held _ (List.mem_append_right _ (List.mem_singleton_self _)), rfl, rfl⟩
  · rw [hlaunches]
    exact hretires n l hl hf

/-! ### The thermal sequence ends -/

/-- Attestation again of chiplets, with no reset under way, posts alarms and quarantines alone. -/
structure AttestedAgain (ok : BitVec 26) (cs : List Nat) (s t : State) : Prop where
  eq : t = { s with
    freeCtr := t.freeCtr
    evq := { s.evq with held := t.evq.held }
    trust := { s.trust with attested := t.trust.attested, quarantined := t.trust.quarantined }
    arb := { s.arb with hold := t.arb.hold } }
  held : ∀ e ∈ s.evq.held, e ∈ t.evq.held
  bit : ∀ c < 26, t.trust.quarantined.getLsbD c =
    (s.trust.quarantined.getLsbD c || decide (c ∈ cs) && !ok.getLsbD c && decide (c ≠ 8))
  alarm : ∀ c ∈ cs, c < 26 → c ≠ 8 → ok.getLsbD c = false → s.trust.quarantined.getLsbD c = false →
    ∃ e ∈ t.evq.held, coldAlarmOf c e

theorem AttestedAgain.nil (ok : BitVec 26) (s : State) : AttestedAgain ok [] s s := by
  refine ⟨rfl, fun _ he => he, fun c _ => by simp, fun c hc => by simp at hc⟩

theorem AttestedAgain.trans {ok : BitVec 26} {c : Nat} {cs : List Nat} {s t u : State} (h : AttestedAgain ok [c] s t)
    (h' : AttestedAgain ok cs t u) : AttestedAgain ok (c :: cs) s u := by
  refine ⟨?_, fun e he => h'.held e (h.held e he), fun d hd => ?_, fun d hd h26 h8 hok hq => ?_⟩
  · have heq := h'.eq
    rw [h.eq] at heq
    exact heq
  · rw [h'.bit d hd, h.bit d hd]
    by_cases hdc : d = c
    · by_cases hm : c ∈ cs <;> simp [hdc, hm]
    · simp [hdc]
  · by_cases hdc : d = c
    · obtain ⟨e, he, hec⟩ := h.alarm d (List.mem_singleton.mpr hdc) h26 h8 hok hq
      exact ⟨e, h'.held e he, hec⟩
    · refine h'.alarm d ((List.mem_cons.mp hd).resolve_left hdc) h26 h8 hok ?_
      rw [h.bit d h26, hq]
      simp [hdc]

/-- A chiplet outside reset attests again: it is left as it is, or posts ALARM_B and is quarantined (R398). -/
theorem attestAgain_attested (ok : BitVec 26) {s : State} {c : Nat} (hr : s.trust.resets = []) (hc : c < 26) :
    AttestedAgain ok [c] s (s.attestAgain ok c) := by
  have hsame (h : ok.getLsbD c = true ∨ c = 8 ∨ s.trust.quarantined.getLsbD c = true) : AttestedAgain ok [c] s s := by
    refine ⟨rfl, fun _ he => he, fun d _ => ?_, fun d hd h26 h8 hok hq => ?_⟩
    · by_cases hd : d = c
      · subst hd
        rcases h with h | h | h <;> simp [h]
      · simp [hd]
    · obtain rfl := List.mem_singleton.mp hd
      simp [h8, hok, hq] at h
  unfold State.attestAgain
  simp only [hr, List.any_nil, Bool.false_and, Bool.false_eq_true, if_false, Bool.not_false, Bool.and_true]
  split
  · rename_i h
    exact hsame (by simpa [or_assoc] using Or.inl h)
  · rename_i hok
    split
    · rename_i h
      exact hsame (.inr (.inr h))
    · simp only [Bool.or_eq_true, decide_eq_true_eq, not_or] at hok
      obtain ⟨hok, h8⟩ := hok
      dsimp only [State.takeFree]
      rw [State.alarmB_eq]
      refine ⟨?_, fun e he => ?_, fun d hd => ?_, fun d hd _ _ _ _ => ?_⟩
      · simp [Trust.quarantine, h8]
      · exact List.mem_append_left _ (List.mem_append_left _ he)
      · dsimp only
        rw [(Trust.quarantine_bits _ hc hd h8).2]
        by_cases hdc : d = c
        · subst hdc
          simp [hok, h8]
        · simp [hdc]
      · obtain rfl := List.mem_singleton.mp hd
        exact ⟨_, List.mem_append_left _ (List.mem_append_right _ (List.mem_singleton_self _)), rfl,
          extract_w64_or_place _ _⟩

theorem foldl_attestAgain (ok : BitVec 26) (cs : List Nat) {s : State} (hr : s.trust.resets = [])
    (hcs : ∀ c ∈ cs, c < 26) : AttestedAgain ok cs s (cs.foldl (State.attestAgain ok) s) := by
  induction cs generalizing s with
  | nil => exact .nil ok s
  | cons c rest ih =>
    have hone := attestAgain_attested ok hr (hcs c List.mem_cons_self)
    have hresets : (s.attestAgain ok c).trust.resets = [] :=
      (congrArg (fun t : State => t.trust.resets) hone.eq).trans hr
    exact hone.trans (ih hresets fun d hd => hcs d (List.mem_cons_of_mem _ hd))

/-- Every chiplet attests again as power returns (R360). -/
def State.powered (s : State) (us : Nat) : State :=
  { s with
    thermal := { s.thermal with off := false, resuming := true, cancels := [], us := us }
    cores := s.cores.map fun (c : Nat × Core) => (c.1, { c.2 with cur := c.2.req }) }

theorem State.railsOn_attested (s : State) (us : Nat) (ok : BitVec 26) (hr : s.trust.resets = [])
    (hc : s.thermal.cancels = []) : AttestedAgain ok (List.range 26) (s.powered us) (s.railsOn us ok) := by
  unfold State.railsOn
  rw [hc]
  exact foldl_attestAgain ok _ hr fun c hc => List.mem_range.mp hc

/-- A saved full block that is first to come back. -/
theorem State.thermFirst_isSome (s : State) {xs : List (Nat × Nat)} (h : xs ≠ []) : ∃ x, s.thermFirst xs = some x := by
  have hsome (ys : List (Nat × Nat)) (x : Nat × Nat) : ∃ y, ys.foldl (fun acc x => match acc with
      | some (y : Nat × Nat) => if thermBefore (s.thermKey x.2) (s.thermKey y.2) then some x else some y
      | none => some x) (some x) = some y := by
    induction ys generalizing x with
    | nil => exact ⟨x, rfl⟩
    | cons a rest ih =>
      rw [List.foldl_cons]
      dsimp only
      split
      · exact ih a
      · exact ih x
  obtain ⟨x, rest, rfl⟩ := List.exists_cons_of_ne_nil h
  exact hsome rest x

/-- Two states agree in what the thermal sequence holds while a load begins. -/
structure PowerStands (s t : State) : Prop where
  cores : t.cores = s.cores
  mem : t.mem = s.mem
  off : t.thermal.off = s.thermal.off
  resuming : t.thermal.resuming = s.thermal.resuming

namespace PowerStands

theorem refl (s : State) : PowerStands s s := ⟨rfl, rfl, rfl, rfl⟩

theorem trans {s t u : State} (h : PowerStands s t) (h' : PowerStands t u) : PowerStands s u :=
  ⟨h'.cores.trans h.cores, h'.mem.trans h.mem, h'.off.trans h.off, h'.resuming.trans h.resuming⟩

theorem modRegion (s : State) (rid : Nat) (f : Region → Region) : PowerStands s (s.modRegion rid f) :=
  ⟨by simp, by simp, by simp, by simp⟩

theorem gate (s : State) (k : Nat) : PowerStands s (s.gate k) := by
  unfold State.gate
  split <;> exact ⟨rfl, rfl, rfl, rfl⟩

theorem dropShadows (s : State) (rid bid : Nat) : PowerStands s (s.dropShadows rid bid) := by
  refine List.foldlRecOn (motive := PowerStands s) _ _ (refl s) fun t ht k _ => ht.trans ?_
  dsimp only
  split
  · split
    · exact gate t k
    · exact ⟨rfl, rfl, rfl, rfl⟩
  · exact refl t

theorem abortLoad (s : State) (rid : Nat) : PowerStands s (s.abortLoad rid) := by
  unfold State.abortLoad
  split
  · rename_i l _
    have hhold : PowerStands s (s.dropHold l.hold) := by cases l.hold <;> exact ⟨rfl, rfl, rfl, rfl⟩
    exact (hhold.trans (modRegion _ rid _)).trans (dropShadows _ rid _)
  · exact refl s

theorem thermLoad (s : State) (rid bid : Nat) : PowerStands s (s.thermLoad rid bid) := by
  unfold State.thermLoad
  split
  · split
    · exact refl s
    · refine trans ?_ ((abortLoad _ rid).trans (modRegion _ rid _))
      split
      · exact (modRegion s rid _).trans (dropShadows _ rid _)
      · exact refl s
  · exact refl s

end PowerStands

theorem WorkOnly.thermLoad (s : State) (rid bid : Nat) : WorkOnly s (s.thermLoad rid bid) := by
  unfold State.thermLoad
  split
  · split
    · exact refl s
    · refine trans ?_ ((abortLoad _ rid).trans (modRegion _ rid _))
      split
      · exact (modRegion s rid _).trans (dropShadows _ rid _)
      · exact refl s
  · exact refl s

theorem Tab.get_map_core (t : Tab Core) (f : Core → Core) (h : f Core.reset = Core.reset) (c : Nat) :
    Tab.get (t.map fun (x : Nat × Core) => (x.1, f x.2)) c Core.reset = f (Tab.get t c Core.reset) := by
  induction t with
  | nil => exact h.symm
  | cons x rest ih =>
    obtain ⟨i, k⟩ := x
    by_cases hi : i = c
    · simp [Tab.get, Tab.get?, hi]
    · simpa [Tab.get, Tab.get?, hi] using ih

theorem thermResume_loads {s : State} (us : Nat) (att : BitVec 26) (hoff : s.thermal.off = true)
    (hr : s.trust.resets = []) (hc : s.thermal.cancels = []) (hsaved : s.fullSaved ≠ []) :
    ∃ rid bid, exec (.thermResume ⟨us, att⟩) s = .next ((s.railsOn us att).thermLoad rid bid) := by
  have heq := (s.railsOn_attested us att hr hc).eq
  have hresuming : (s.railsOn us att).thermal.resuming = true := (congrArg (fun t : State => t.thermal.resuming) heq :)
  have hfull : (s.railsOn us att).fullSaved = s.fullSaved := (congrArg State.fullSaved heq :)
  obtain ⟨⟨rid, bid⟩, hfirst⟩ := (s.railsOn us att).thermFirst_isSome (hfull ▸ hsaved)
  refine ⟨rid, bid, ?_⟩
  rw [show exec (.thermResume ⟨us, att⟩) s = execThermResume ⟨us, att⟩ s from rfl, execThermResume]
  simp only [hoff, if_true, hresuming, Bool.not_true, Bool.false_eq_true, if_false, hfirst]

theorem thermResume_ends {s : State} (back : RailsBack) (hoff : s.thermal.off = false)
    (hresuming : s.thermal.resuming = true) (hsaved : s.fullSaved = []) :
    ∃ (t : State) (e : Event), exec (.thermResume back) s = .next t ∧ t.evq.held = s.evq.held ++ [e] ∧ e.code = 0x97 ∧
      e.w3 = BitVec.ofNat 64 s.thermal.us ∧ t.thermal.resuming = false ∧ t.thermal.critDies = [] ∧ t.mem = s.mem ∧
      t.tiles = s.tiles := by
  rw [show exec (.thermResume back) s = execThermResume back s from rfl, execThermResume]
  simp only [hoff, Bool.false_eq_true, if_false, hresuming, Bool.not_true, hsaved]
  exact ⟨_, _, rfl, rfl, rfl, rfl, rfl, rfl, rfl, rfl⟩

theorem thermResume_attests {s : State} (us : Nat) (att : BitVec 26) (hoff : s.thermal.off = true)
    (hr : s.trust.resets = []) (hc : s.thermal.cancels = []) (hsaved : s.fullSaved ≠ []) :
    ∃ t, exec (.thermResume ⟨us, att⟩) s = .next t ∧ t.thermal.off = false ∧ t.thermal.resuming = true ∧ t.mem = s.mem ∧
      (∀ c, (t.core c).cur = (s.core c).req) ∧
      ∀ c : Fin 26, c.val ≠ 8 → s.trust.quarantined.getLsbD c.val = false →
        (att.getLsbD c.val = true → t.trust.quarantined.getLsbD c.val = false) ∧
        (att.getLsbD c.val = false → t.trust.quarantined.getLsbD c.val = true ∧
          ∃ e ∈ t.evq.held, e.code = 0xC1 ∧ e.w3.extractLsb' 0 5 = BitVec.ofNat 5 c.val) := by
  obtain ⟨rid, bid, hexec⟩ := thermResume_loads us att hoff hr hc hsaved
  have hrails := s.railsOn_attested us att hr hc
  have hload := PowerStands.thermLoad (s.railsOn us att) rid bid
  have hwork := WorkOnly.thermLoad (s.railsOn us att) rid bid
  refine ⟨_, hexec, hload.off.trans ?_, hload.resuming.trans ?_, hload.mem.trans ?_, fun c => ?_, fun c h8 hq => ⟨?_, ?_⟩⟩
  · exact (congrArg (fun t : State => t.thermal.off) hrails.eq :)
  · exact (congrArg (fun t : State => t.thermal.resuming) hrails.eq :)
  · exact (congrArg State.mem hrails.eq :)
  · have hcores : (s.railsOn us att).cores = (s.powered us).cores := (congrArg State.cores hrails.eq :)
    rw [State.core, hload.cores, hcores]
    exact congrArg Core.cur (Tab.get_map_core s.cores (fun k => { k with cur := k.req }) rfl c)
  all_goals
    intro hatt
    rw [hwork.trust, hrails.bit c.val c.isLt, show (s.powered us).trust = s.trust from rfl, hq, hatt]
  · simp
  · refine ⟨by simp [h8], ?_⟩
    obtain ⟨e, he, hec⟩ := hrails.alarm c.val (List.mem_range.mpr c.isLt) c.isLt h8 hatt hq
    exact ⟨e, hwork.evq ▸ he, hec⟩

end Sys2Proof.Machine

/-! ### The control period, ballast and the damper -/

namespace Sys2Proof.Machine

open Sys2Proof

/-- The power after the control period's step, whose f stands while firmware is handed over (R388, R405). -/
def State.powerAfter (s : State) (p eb : Nat) : Power :=
  if s.trust.fwState = 3 then { s.power.period p eb with f := s.power.f } else s.power.period p eb

theorem State.powerAfter_reserve (s : State) (p eb : Nat) : (s.powerAfter p eb).reserve = s.power.nextReserve p eb := by
  unfold State.powerAfter
  split <;> rfl

theorem State.powerAfter_cap (s : State) (p eb : Nat) : (s.powerAfter p eb).cap = s.power.cap := by
  unfold State.powerAfter
  split <;> rfl

theorem State.powerAfter_alarm (s : State) (p eb : Nat) : (s.powerAfter p eb).alarm =
    ((s.power.alarm || decide (s.power.nextReserve p eb = 0)) && decide (s.power.nextReserve p eb < 250000)) := by
  unfold State.powerAfter
  split <;> rfl

theorem State.powerAfter_f (s : State) (p eb : Nat) :
    (s.trust.fwState = 3 → (s.powerAfter p eb).f = s.power.f) ∧
      (s.trust.fwState ≠ 3 → (s.powerAfter p eb).f = s.power.nextF p (s.power.nextReserve p eb)) := by
  unfold State.powerAfter
  exact ⟨fun h => by rw [if_pos h], fun h => by rw [if_neg h]; rfl⟩

/-- The step of R388 rounds its fall up. -/
theorem ceil_fall (f d p : Nat) (hp : 0 < p) : (f * d + p - 1) / p = ⌈((f * d : Nat) : ℚ) / p⌉₊ := by
  refine eq_of_forall_ge_iff fun m => ?_
  have hp' : (0 : ℚ) < p := Nat.cast_pos.mpr hp
  rw [Nat.div_le_iff_le_mul_add_pred hp, Nat.ceil_le, div_le_iff₀ hp', ← Nat.cast_mul, Nat.cast_le, Nat.mul_comm m p]
  omega

theorem nextF_cases (w : Power) (p r : Nat) (hr : 0 < r) :
    (w.capt < p → w.nextF p r = max 1 (w.f - ⌈((w.f * (p - w.capt) : Nat) : ℚ) / p⌉₊)) ∧
      (p ≤ w.capt → w.capt ≤ p + 50 → w.nextF p r = w.f) ∧
      (p + 50 < w.capt → w.nextF p r = if w.alarm = true ∧ r < 250000 then w.f else min 256 (w.f + 8)) := by
  unfold Power.nextF
  rw [if_neg (Nat.pos_iff_ne_zero.mp hr)]
  refine ⟨fun h => ?_, fun h h' => ?_, fun h => ?_⟩
  · rw [if_pos h, ceil_fall _ _ _ (Nat.zero_lt_of_lt h)]
  · rw [if_neg (Nat.not_lt.mpr h), if_neg]
    simp
    omega
  · rw [if_neg (by omega)]
    have hlow : p < w.capt - 50 := by omega
    cases w.alarm <;> by_cases hlow' : r < 250000 <;> simp [hlow, hlow', reserveHalf]

theorem controlPeriod_step (s : State) (p eb : Nat) : ∃ t, exec (.controlPeriod p eb) s = .next t ∧
    t.power = s.powerAfter p eb ∧ t.tiles = s.tiles ∧ t.mem = s.mem ∧ t.cores = s.cores ∧
    (s.power.nextReserve p eb = 0 → s.power.alarm = false → ∃ e : Event, t.evq.held = s.evq.held ++ [e] ∧ e.code = 0xB0 ∧
      e.w2 = BitVec.allOnes 64 ∧ e.w4 = BitVec.ofNat 64 eb) ∧
    (0 < s.power.nextReserve p eb ∨ s.power.alarm = true → t.evq = s.evq) := by
  refine ⟨_, rfl, ?_⟩
  split
  · rename_i h
    have hdue : (s.power.period p eb).reserve = 0 ∧ s.power.alarm = false := by simpa using h
    obtain ⟨hzero, halarm⟩ := hdue
    refine ⟨rfl, rfl, rfl, rfl, fun _ _ => ⟨_, rfl, rfl, rfl, rfl⟩, fun hno => ?_⟩
    exact hno.elim (fun h => absurd hzero (Nat.pos_iff_ne_zero.mp h)) fun h => by simp [halarm] at h
  · rename_i h
    refine ⟨rfl, rfl, rfl, rfl, fun hzero halarm => absurd ?_ h, fun _ => rfl⟩
    have hdue : (s.power.period p eb).reserve = 0 ∧ s.power.alarm = false := ⟨hzero, halarm⟩
    simpa using hdue

/-- A core's slice ended with its ballast (R391). -/
def Core.sliced (k : Core) : Core :=
  { k with
    lastLoad := max k.load (k.lastLoad - Config.pwrSlope)
    ballast := k.lastLoad - Config.pwrSlope - k.load
    load := 0 }

/-- The ballast of a slice fills its load up to the floor. -/
theorem Core.load_add_ballast (k : Core) : k.load + k.sliced.ballast = k.sliced.lastLoad := by
  unfold Core.sliced
  dsimp only
  omega

/-- What a slice's end leaves of the tiles and of the rest. -/
structure BallastOnly (s t : State) : Prop where
  pools : ∀ j, (t.tile j).pe = (s.tile j).pe ∧ (t.tile j).mx = (s.tile j).mx ∧ (t.tile j).ag = (s.tile j).ag
  ballast : ∀ j, (t.tile j).eng.ballast ≤ max 32 (s.tile j).eng.ballast
  rest : t.mem = s.mem ∧ t.evq = s.evq ∧ t.regions = s.regions ∧ t.cores = s.cores

namespace BallastOnly

theorem refl (s : State) : BallastOnly s s :=
  ⟨fun _ => ⟨rfl, rfl, rfl⟩, fun _ => Nat.le_max_right _ _, rfl, rfl, rfl, rfl⟩

theorem trans {s t u : State} (h : BallastOnly s t) (h' : BallastOnly t u) : BallastOnly s u := by
  obtain ⟨hmem, hevq, hregions, hcores⟩ := h.rest
  obtain ⟨hmem', hevq', hregions', hcores'⟩ := h'.rest
  refine ⟨fun j => ?_, fun j => ?_, hmem'.trans hmem, hevq'.trans hevq, hregions'.trans hregions, hcores'.trans hcores⟩
  · obtain ⟨hpe, hmx, hag⟩ := h.pools j
    obtain ⟨hpe', hmx', hag'⟩ := h'.pools j
    exact ⟨hpe'.trans hpe, hmx'.trans hmx, hag'.trans hag⟩
  · have hfirst := h.ballast j
    have hthen := h'.ballast j
    omega

/-- One tile written with its pools and with no more ballast than a slice gives. -/
theorem setTile {s t : State} {k : Nat} {x : Tile} (ht : t.tiles = (s.setTile k x).tiles)
    (hpools : x.pe = (s.tile k).pe ∧ x.mx = (s.tile k).mx ∧ x.ag = (s.tile k).ag)
    (hballast : x.eng.ballast ≤ max 32 (s.tile k).eng.ballast)
    (hrest : t.mem = s.mem ∧ t.evq = s.evq ∧ t.regions = s.regions ∧ t.cores = s.cores) : BallastOnly s t := by
  have htile (j : Nat) : t.tile j = (s.setTile k x).tile j := congrArg (Tab.get · j Tile.reset) ht
  refine ⟨fun j => ?_, fun j => ?_, hrest⟩
  all_goals
    rw [htile]
    by_cases hj : j = k
  · rw [hj, State.tile_setTile]
    exact hpools
  · rw [State.tile_setTile_ne _ _ hj]
    exact ⟨rfl, rfl, rfl⟩
  · rw [hj, State.tile_setTile]
    exact hballast
  · rw [State.tile_setTile_ne _ _ hj]
    exact Nat.le_max_right _ _

theorem gateNow (s : State) (k : Nat) : BallastOnly s (s.gateNow k) :=
  setTile (s := s) (k := k) rfl ⟨rfl, rfl, rfl⟩ (Nat.le_max_right _ _) ⟨rfl, rfl, rfl, rfl⟩

theorem foldl_gateNow (ks : List Nat) (s : State) : BallastOnly s (ks.foldl State.gateNow s) := by
  induction ks generalizing s with
  | nil => exact refl s
  | cons k rest ih => exact (gateNow s k).trans (ih _)

theorem shareBallast (s : State) (n : Nat) (ks : List Nat) : BallastOnly s (s.shareBallast n ks) := by
  induction ks generalizing s n with
  | nil => exact refl s
  | cons k rest ih =>
    have hshare : min n (32 - (s.tile k).eng.macros) ≤ 32 := by omega
    have hone : BallastOnly s (s.setTile k ((s.tile k).modEng fun e =>
        { e with ballast := min n (32 - (s.tile k).eng.macros), macros := 0 })) :=
      setTile rfl ⟨rfl, rfl, rfl⟩ (hshare.trans (Nat.le_max_left _ _)) ⟨rfl, rfl, rfl, rfl⟩
    exact hone.trans (ih _ _)

end BallastOnly

theorem State.shareBallast_gate (s : State) (n : Nat) (ks : List Nat) (j : Nat) :
    ((s.shareBallast n ks).tile j).gated = (s.tile j).gated ∧
      ((s.shareBallast n ks).tile j).gateDue = (s.tile j).gateDue := by
  induction ks generalizing s n with
  | nil => exact ⟨rfl, rfl⟩
  | cons k rest ih =>
    unfold State.shareBallast
    dsimp only
    obtain ⟨hgated, hdue⟩ := ih (s.setTile k _) (n - min n (32 - (s.tile k).eng.macros))
    rw [hgated, hdue]
    by_cases hj : j = k
    · rw [hj, State.tile_setTile]
      exact ⟨rfl, rfl⟩
    · rw [State.tile_setTile_ne _ _ hj]
      exact ⟨rfl, rfl⟩

theorem State.gateNow_gated (s : State) (k j : Nat) (h : j = k ∨ (s.tile j).gated = true) :
    ((s.gateNow k).tile j).gated = true := by
  by_cases hj : j = k
  · subst hj
    exact congrArg Tile.gated (Tab.get_set_self ..)
  · exact (congrArg Tile.gated (Tab.get_set_ne _ _ _ hj)).trans (h.resolve_left hj)

theorem State.foldl_gateNow_gated (ks : List Nat) (s : State) (j : Nat) (h : j ∈ ks ∨ (s.tile j).gated = true) :
    ((ks.foldl State.gateNow s).tile j).gated = true := by
  induction ks generalizing s with
  | nil => exact h.resolve_left (by simp)
  | cons k rest ih =>
    refine ih _ ?_
    rcases h with h | h
    · exact (List.mem_cons.mp h).symm.imp_right fun hj => s.gateNow_gated k j (.inl hj)
    · exact .inr (s.gateNow_gated k j (.inr h))

/-- A tile that waits to be gated is listed. -/
theorem State.gateDue_listed {s : State} {j : Nat} (h : (s.tile j).gateDue = true) :
    ∃ x, (j, x) ∈ s.tiles ∧ x.gateDue = true := by
  cases hx : Tab.get? s.tiles j with
  | none =>
    rw [State.tile, Tab.get, hx] at h
    cases h
  | some x =>
    rw [State.tile, Tab.get, hx] at h
    exact ⟨x, Tab.mem_of_get? hx, h⟩

theorem ballastSlice_next {s : State} {c : Fin 64} (h : (s.core c.val).cyc % 32 = 0) :
    let n := (s.core c.val).sliced.ballast
    let u := (s.shareBallast n (s.ballastTiles c.val)).setCore c.val (s.core c.val).sliced
    exec (.ballastSlice c) s = .next (if n = 0 then u.gateDueTiles c.val else u) := by
  rw [show exec (.ballastSlice c) s = execBallastSlice c s from rfl, execBallastSlice]
  simp only [h, ne_eq, not_true_eq_false, if_false]
  rfl

theorem ballastSlice_slice (s : State) (c : Fin 64) (h : (s.core c.val).cyc % 32 = 0) :
    ∃ t, exec (.ballastSlice c) s = .next t ∧ t.core c.val = (s.core c.val).sliced ∧
      (∀ d, d ≠ c.val → t.core d = s.core d) ∧ t.mem = s.mem ∧ t.evq = s.evq ∧ t.regions = s.regions ∧
      ∀ j, (t.tile j).pe = (s.tile j).pe ∧ (t.tile j).mx = (s.tile j).mx ∧ (t.tile j).ag = (s.tile j).ag ∧
        (t.tile j).eng.ballast ≤ max 32 (s.tile j).eng.ballast ∧
        ((s.core c.val).sliced.ballast ≠ 0 → (t.tile j).gated = (s.tile j).gated) ∧
        ((s.core c.val).sliced.ballast = 0 → tileCore j = c.val → (s.tile j).gateDue = true →
          (t.tile j).gated = true) := by
  let n := (s.core c.val).sliced.ballast
  let w := s.shareBallast n (s.ballastTiles c.val)
  let u := w.setCore c.val (s.core c.val).sliced
  let t := if n = 0 then u.gateDueTiles c.val else u
  have hshare : BallastOnly s w := .shareBallast s n _
  have hgated : BallastOnly u t := by
    dsimp only [t]
    split
    · exact .foldl_gateNow _ u
    · exact .refl u
  obtain ⟨hmem, hevq, hregions, hcores⟩ := hshare.rest
  obtain ⟨hmem', hevq', hregions', hcores'⟩ := hgated.rest
  have hcore (d : Nat) : t.core d = u.core d := congrArg (Tab.get · d Core.reset) hcores'
  refine ⟨t, ballastSlice_next h, ?_, fun d hd => ?_, hmem'.trans hmem, hevq'.trans hevq, hregions'.trans hregions,
    fun j => ?_⟩
  · rw [hcore]
    exact State.core_setCore ..
  · rw [hcore]
    exact (State.core_setCore_ne _ _ hd).trans (congrArg (Tab.get · d Core.reset) hcores)
  · obtain ⟨hpe, hmx, hag⟩ := hshare.pools j
    obtain ⟨hpe', hmx', hag'⟩ := hgated.pools j
    have hballast := hshare.ballast j
    have hballast' := hgated.ballast j
    obtain ⟨hg, hdue⟩ := s.shareBallast_gate n (s.ballastTiles c.val) j
    refine ⟨hpe'.trans hpe, hmx'.trans hmx, hag'.trans hag, ?_, fun hn => ?_, fun hn hj hd => ?_⟩
    · exact hballast'.trans (max_le (Nat.le_max_left _ _) hballast)
    · rw [show t = u from if_neg hn]
      exact hg
    · rw [show t = u.gateDueTiles c.val from if_pos hn]
      obtain ⟨x, hx, hxd⟩ := State.gateDue_listed (s := w) (hdue.trans hd)
      refine State.foldl_gateNow_gated _ u j (.inl (List.mem_map.mpr ⟨(j, x), List.mem_filter.mpr ⟨hx, ?_⟩, rfl⟩))
      simp [hj, hxd]

/-- The damper's window of a job (R392): none without a damper at full f. -/
theorem State.damperOf_eq (s : State) (j : Nat) : s.damperOf j =
    (if (s.job j).dampN = 0 ∧ s.power.f = 256 then 0
      else max 1 ((if (s.job j).dampN = 0 then 8 * (s.job j).dampW else (s.job j).dampN) * s.power.f / 256),
      (s.job j).dampW) := by
  simp only [State.damperOf, Bool.and_eq_true, decide_eq_true_eq]

theorem damperWindow_next {s : State} {rid bid : Nat} {r : Region} {b : Block} (hr : Tab.get? s.regions rid = some r)
    (hres : r.resident = some bid) (hb : Tab.get? s.blocks bid = some b) (hdue : r.winAt + r.dampW ≤ r.cyc s) :
    exec (.damperWindow rid) s =
      .next (s.setRegion rid (r.nextWindow (s.damperOf b.job).1 (s.damperOf b.job).2)) := by
  rw [show exec (.damperWindow rid) s = execDamperWindow rid s from rfl, execDamperWindow]
  simp only [hr, hres, if_neg (Nat.not_lt.mpr hdue), hb]
  rfl

theorem Region.nextWindow_waits (r : Region) (n w : Nat) :
    (n ≠ 0 → (r.nextWindow n w).admitted = min n r.dampWait.length ∧ (r.nextWindow n w).dampWait = r.dampWait.drop n ∧
      (r.nextWindow n w).dampOk = r.dampOk ++ r.dampWait.take n) ∧ (n = 0 → (r.nextWindow n w).dampWait = []) := by
  unfold Region.nextWindow
  exact ⟨fun h => by simp [h], fun h => by simp [h]⟩

/-- Settles O53, part by part: the control period by `nextF_cases`, a slice by `ballastSlice_slice`, the damper's window by
`Region.nextWindow`, and the thermal sequence by `thermStep_sequence` and `thermResume_attests`. -/
theorem powerAndHeat : Obligations.PowerAndHeat := by
  intro s
  refine ⟨fun p eb => ?_, fun c hc => ?_, fun rid bid r b hr hres hb hdue => ?_, fun d temp hoff hresuming hd => ?_,
    fun us att => ⟨thermResume_attests us att, thermResume_ends _⟩⟩
  · obtain ⟨t, hexec, hpower, htiles, hmem, hcores, hevent, hquiet⟩ := controlPeriod_step s p eb
    obtain ⟨hstays, hmoves⟩ := s.powerAfter_f p eb
    have hreserve := s.powerAfter_reserve p eb
    have halarm := s.powerAfter_alarm p eb
    have hcases := nextF_cases s.power p (s.power.nextReserve p eb)
    rw [← hpower] at hstays hmoves hreserve halarm
    refine ⟨t, hexec, hreserve, ?_, htiles, hmem, hcores, hstays, fun hr => ⟨?_, fun hm => ?_⟩, fun hm hr hlt => ?_,
      fun hm hr hle hle' => ?_, fun hm hr hlt => ?_, fun hr => ?_, hevent, hquiet⟩
    · rw [hpower]
      exact s.powerAfter_cap p eb
    · rw [halarm, show s.power.nextReserve p eb = 0 from hr]
      simp
    · exact (hmoves hm).trans (if_pos (show s.power.nextReserve p eb = 0 from hr))
    · exact (hmoves hm).trans ((hcases hr).1 hlt)
    · exact (hmoves hm).trans ((hcases hr).2.1 hle hle')
    · exact (hmoves hm).trans ((hcases hr).2.2 hlt)
    · have hne : s.power.nextReserve p eb ≠ 0 := Nat.pos_iff_ne_zero.mp hr
      rw [halarm, decide_eq_false hne, Bool.or_false]
      rfl
  · obtain ⟨t, hexec, hcore, hother, hrest⟩ := ballastSlice_slice s c hc
    refine ⟨t, hexec, ?_, ?_, ?_, ?_, ?_, hother, ?_⟩
    all_goals rw [hcore]
    · rfl
    · exact Core.load_add_ballast _
    · rfl
    · rfl
    · rfl
    · exact hrest
  · have hwaits := r.nextWindow_waits (s.damperOf b.job).1 (s.damperOf b.job).2
    rw [s.damperOf_eq b.job] at hwaits
    obtain ⟨hadmits, hnone⟩ := hwaits
    refine ⟨_, _, damperWindow_next hr hres hb hdue, Tab.get?_set_self _ _ _, rfl, ?_, ?_, rfl, rfl, rfl, ?_, ?_⟩
    all_goals rw [s.damperOf_eq b.job]
    · rfl
    · rfl
    · exact hadmits
    · exact hnone
  · exact ⟨thermCrit_below, fun ht => ⟨_, thermCrit_begins hoff hresuming hd ht, thermStep_sequence s d.val temp.toNat⟩⟩

end Sys2Proof.Machine

/-! ## Firmware images, and the repair of tiles and HBM (R399, R405, R406, R408 to R410) -/

/-! ### Firmware -/

namespace Sys2Proof.Machine

open Sys2Proof

theorem exec_fwGo (v : Word) (k : FwCheck) (s : State) : exec (.fwGo v k) s = execFwGo v k s := rfl

theorem exec_fwHandover (s : State) : exec .fwHandover s = execFwHandover s := rfl

theorem exec_fwDone (ok : Bool) (s : State) : exec (.fwDone ok) s = execFwDone ok s := rfl

/-- The result of a verification (R405). -/
theorem fwResultOf_eq (k : FwCheck) (fused : Nat) : fwResultOf k fused =
    if k.formOk = false then 3 else if k.sigOk = false then 1 else if k.rollback < fused then 2 else 0 := by
  simp [fwResultOf]

theorem fwGo_ignored {s : State} {v : Word} (k : FwCheck)
    (h : v.getLsbD 0 = false ∨ s.trust.fwState ≠ 0 ∨ s.feature 6 = false ∧ s.trust.recovery = false) :
    exec (.fwGo v k) s = .next s := by
  rw [exec_fwGo, execFwGo]
  refine if_pos ?_
  rcases h with h | h | ⟨hf, hr⟩
  · simp [show bit v 0 = false from h]
  · simp [h]
  · simp [hf, hr]

theorem fwGo_stages {s : State} {v : Word} (k : FwCheck) (hv : v.getLsbD 0 = true) (hstate : s.trust.fwState = 0)
    (hallowed : s.feature 6 = true ∨ s.trust.recovery = true) :
    exec (.fwGo v k) s = .next { s with trust := { s.trust with
      fwState := 1
      fwStaged := some (v &&& 0xFFFFFFFFFF000, k) } } := by
  rw [exec_fwGo, execFwGo]
  refine if_neg ?_
  rcases hallowed with h | h <;> simp [show bit v 0 = true from hv, hstate, h]

section Handover

variable {s : State} {a : BitVec 64} {k : FwCheck}

/-- An update refused with its result, and posted unless the device recovers (R405). -/
def State.fwRefused (s : State) (k : FwCheck) (r : Nat) : State :=
  let s1 := { s with trust := { s.trust with
    fwState := 0
    fwStaged := none
    fwResult := r } }
  if s.trust.recovery then s1 else s1.postFw k.version r

theorem State.fwRefused_result (s : State) (k : FwCheck) (r : Nat) :
    let t := s.fwRefused k r
    t.mem = s.mem ∧ t.tiles = s.tiles ∧
      t.trust = { s.trust with fwState := 0, fwStaged := none, fwResult := r } ∧
      (s.trust.recovery = false → ∃ e ∈ t.evq.held, e.code = 0xC9 ∧ e.w4 = BitVec.ofNat 64 r) := by
  dsimp only
  unfold State.fwRefused
  dsimp only
  split
  · rename_i h
    exact ⟨rfl, rfl, rfl, fun h' => nomatch h.symm.trans h'⟩
  · exact ⟨rfl, rfl, rfl, fun _ => ⟨_, List.mem_append_right _ (List.mem_singleton_self _), rfl, rfl⟩⟩

/-- An alarm of IOD[0] quarantines nothing (R398). -/
theorem Trust.quarantine_iod0 (t : Trust) : t.quarantine 8 = t := rfl

theorem State.fwVerified_eq (s : State) (a : BitVec 64) (k : FwCheck) : s.fwVerified a k =
    let r := fwResultOf k s.trust.fused
    if r = 0 then { s with trust := { s.trust with
      fwState := if s.trust.recovery then 4 else 2
      fwStaged := some (a, k) } }
    else if r = 1 then (s.fwRefused k r).alarmB 8 4 else s.fwRefused k r := rfl

/-- A verification writes the state of the update, and posts what it refuses; a bad signature is an alarm of IOD[0]. -/
theorem fwVerified_result (s : State) (a : BitVec 64) (k : FwCheck) :
    let t := s.fwVerified a k
    let r := fwResultOf k s.trust.fused
    t.mem = s.mem ∧ t.tiles = s.tiles ∧ t.trust.fwVersion = s.trust.fwVersion ∧
      (r = 0 → t.trust.fwState = (if s.trust.recovery then 4 else 2) ∧ t.trust.fwStaged = some (a, k) ∧ t.evq = s.evq) ∧
      (r ≠ 0 → t.trust.fwState = 0 ∧ t.trust.fwResult = r ∧ t.trust.fwStaged = none ∧
        (s.trust.recovery = false → ∃ e ∈ t.evq.held, e.code = 0xC9 ∧ e.w4 = BitVec.ofNat 64 r) ∧
        (r = 1 → ∃ e ∈ t.evq.held, e.code = 0xC1 ∧ e.w3 = BitVec.ofNat 64 (8 + 256 * 4))) := by
  dsimp only
  rw [State.fwVerified_eq]
  generalize fwResultOf k s.trust.fused = r
  dsimp only
  obtain ⟨hmem, htiles, htrust, hposted⟩ := s.fwRefused_result k r
  by_cases h0 : r = 0
  · rw [if_pos h0]
    exact ⟨rfl, rfl, rfl, fun _ => ⟨rfl, rfl, rfl⟩, fun h => absurd h0 h⟩
  · rw [if_neg h0]
    by_cases h1 : r = 1
    · rw [if_pos h1, State.alarmB_eq, Trust.quarantine_iod0, htrust]
      refine ⟨hmem, htiles, rfl, fun h => absurd h h0, fun _ => ⟨rfl, rfl, rfl, fun hrec => ?_, fun _ => ?_⟩⟩
      · obtain ⟨e, he, hec⟩ := hposted hrec
        exact ⟨e, List.mem_append_left _ (List.mem_append_left _ he), hec⟩
      · exact ⟨_, List.mem_append_left _ (List.mem_append_right _ (List.mem_singleton_self _)), rfl,
          w64_or_place 4 (by decide)⟩
    · rw [if_neg h1, htrust]
      exact ⟨hmem, htiles, rfl, fun h => absurd h h0, fun _ => ⟨rfl, rfl, rfl, hposted, fun h => absurd h h1⟩⟩

theorem handover_verifies (hstate : s.trust.fwState = 1) (hstaged : s.trust.fwStaged = some (a, k)) :
    exec .fwHandover s = .next (s.fwVerified a k) := by
  rw [exec_fwHandover, execFwHandover]
  simp only [hstate, hstaged]

theorem handover_waits (hstate : s.trust.fwState = 2) (hstaged : s.trust.fwStaged = some (a, k)) :
    exec .fwHandover s = .next (if s.fwQuiet then { s with trust := { s.trust with fwState := 3 } } else s) := by
  rw [exec_fwHandover, execFwHandover]
  simp only [hstate, hstaged]

/-- The firmware of an image hands over (R405). -/
def State.fwRuns (s : State) (k : FwCheck) : State :=
  { s with trust := { s.trust.runs k.version k.image k.manifest with
    fwState := 4
    session := 0 } }

theorem handover_runs (hstate : s.trust.fwState = 3) (hstaged : s.trust.fwStaged = some (a, k)) :
    exec .fwHandover s = .next (s.fwRuns k) := by
  rw [exec_fwHandover, execFwHandover]
  simp only [hstate, hstaged]
  rfl

end Handover

/-- The trust once an image has been written to flash, or has not (R405). -/
def Trust.flashed (t : Trust) (k : FwCheck) (ok : Bool) : Trust :=
  { t with
    fwState := 0
    fwResult := if ok then 0 else 4
    fwStaged := none
    flash := if ok then ⟨k.version, k.image, k.manifest, true⟩ else { t.flash with good := false }
    fused := if ok then max t.fused k.rollback else t.fused }

section Done

variable {s : State} {a : BitVec 64} {k : FwCheck} (hstate : s.trust.fwState = 4)
  (hstaged : s.trust.fwStaged = some (a, k))
include hstate hstaged

theorem fwDone_next (ok : Bool) : exec (.fwDone ok) s =
    let u := { s with trust := s.trust.flashed k ok }
    if s.trust.recovery = false then .next (u.postFw k.version (if ok then 0 else 4))
    else if ok then .next (u.takeFree.2.coldStart (u.takeFree.1.setWidth 26) true) else .next u := by
  rw [exec_fwDone, execFwDone]
  simp only [hstate, hstaged, Bool.not_eq_true']
  rfl

end Done

/-- A cold start whose flash image is whole keeps it, the fuses and the host's memory, and leaves memory with nothing listed. -/
theorem State.coldStart_keeps (s : State) (att : BitVec 26) (hgood : s.trust.flash.good = true)
    (hfw : s.trust.fwState ≠ 4) :
    let t := s.coldStart att true
    t.trust.fused = s.trust.fused ∧ t.trust.flash = s.trust.flash ∧ t.trust.recovery = false ∧ t.mem.cells = [] ∧
      t.hostMem = s.hostMem := by
  dsimp only
  have hflash := State.fuses_flash hgood hfw
  cases h8 : att.getLsbD 8
  · unfold State.coldStart
    dsimp only
    rw [h8]
    exact ⟨rfl, hflash, rfl, rfl, rfl⟩
  · obtain ⟨n, es, ds, heq, -, -⟩ := s.coldStart_runs h8 hgood hfw
    rw [heq]
    have hrest := s.coldTrust_rest att
    exact ⟨(congrArg Trust.fused hrest :), (congrArg Trust.flash hrest :).trans hflash,
      (congrArg Trust.recovery hrest :), rfl, rfl⟩

/-- What the end of an update leaves (R405). -/
theorem fwDone_result {s : State} {a : BitVec 64} {k : FwCheck} (hstate : s.trust.fwState = 4)
    (hstaged : s.trust.fwStaged = some (a, k)) (ok : Bool) : ∃ t, exec (.fwDone ok) s = .next t ∧
      t.trust.fused = (if ok then max s.trust.fused k.rollback else s.trust.fused) ∧
      (ok = true → t.trust.flash = ⟨k.version, k.image, k.manifest, true⟩) ∧
      (ok = false → t.trust.flash.good = false) ∧
      (s.trust.recovery = false → t.trust.fwState = 0 ∧ t.trust.fwResult = (if ok then 0 else 4) ∧ t.mem = s.mem ∧
        t.tiles = s.tiles ∧ ∃ e : Event, t.evq.held = s.evq.held ++ [e] ∧ e.code = 0xC9 ∧ e.w3 = k.version.zeroExtend 64) ∧
      (s.trust.recovery = true → ok = true → t.trust.recovery = false ∧ t.mem.cells = [] ∧ t.hostMem = s.hostMem) := by
  have hversion : w64 k.version.toNat = k.version.zeroExtend 64 := BitVec.ofNat_toNat ..
  have hgood (h : ok = false) : (s.trust.flashed k ok).flash.good = false := by rw [h]; rfl
  have hflash (h : ok = true) : (s.trust.flashed k ok).flash = ⟨k.version, k.image, k.manifest, true⟩ := if_pos h
  rw [fwDone_next hstate hstaged]
  dsimp only
  by_cases hrec : s.trust.recovery = false
  · rw [if_pos hrec]
    exact ⟨_, rfl, rfl, hflash, hgood, fun _ => ⟨rfl, rfl, rfl, rfl, _, rfl, rfl, hversion⟩,
      fun h => nomatch hrec.symm.trans h⟩
  · rw [if_neg hrec]
    by_cases hok : ok = true
    · rw [if_pos hok]
      obtain ⟨hfused, hflash', hrec', hmem, hhost⟩ :=
        ({ s with trust := s.trust.flashed k ok } : State).takeFree.2.coldStart_keeps
          (({ s with trust := s.trust.flashed k ok } : State).takeFree.1.setWidth 26)
          (congrArg FlashImg.good (hflash hok)) (by decide : (0 : Nat) ≠ 4)
      refine ⟨_, rfl, hfused, fun h => hflash'.trans (hflash h), fun h => ?_, fun h => absurd h hrec,
        fun _ _ => ⟨hrec', hmem, hhost⟩⟩
      exact absurd h (by simp [hok])
    · rw [if_neg hok]
      exact ⟨_, rfl, rfl, hflash, hgood, fun h => absurd h hrec, fun _ h => absurd h hok⟩

end Sys2Proof.Machine

/-! ### Repair of tiles -/

namespace Sys2Proof.Machine

open Sys2Proof

theorem exec_tileFence (k : Nat) (s : State) : exec (.tileFence k) s = execTileFence k s := rfl

/-- The fence that was asked for is done. -/
def State.fenceDone (s : State) (k : Nat) : State :=
  { s with trust := { s.trust with
    fencing := delNat s.trust.fencing k
    bankUe := delNat s.trust.bankUe k } }

section TileFence

variable {s : State} {k : Nat}

theorem tileFence_unasked (h : k ∉ s.trust.fencing) : exec (.tileFence k) s = .next s := by
  rw [exec_tileFence, execTileFence]
  exact if_pos (by simpa using h)

theorem tileFence_repairs (h : k ∈ s.trust.fencing) (hregion : (s.tile k).region = none) : exec (.tileFence k) s =
    .next ((if (s.core (tileCore k)).sparesUsed < 4 then s.spareTile k else s.loseTile k).fenceDone k) := by
  rw [exec_tileFence, execTileFence, if_neg (by simpa using h)]
  simp only [hregion, Option.filter_none]
  rfl

theorem State.recompute_fenced (s : State) (k : Nat) : ((s.recompute k).tile k).fenced = (s.tile k).fenced := by
  rw [State.recompute, State.tile_setTile, Tile.modEng]

theorem State.spareTile_result (s : State) (k : Nat) :
    ((s.spareTile k).core (tileCore k)).sparesUsed = (s.core (tileCore k)).sparesUsed + 1 ∧
      ((s.spareTile k).tile k).fenced = true ∧ (s.spareTile k).mem = s.mem ∧ (s.spareTile k).trust = s.trust ∧
      ∃ e : Event, (s.spareTile k).evq.held = s.evq.held ++ [e] ∧ e.code = 0xC5 ∧
        e.w3 = BitVec.ofNat 64 ((s.core (tileCore k)).sparesUsed + 1) := by
  unfold State.spareTile
  dsimp only
  split
  case isTrue =>
    exact ⟨congrArg Core.sparesUsed (State.core_setCore ..), congrArg Tile.fenced (State.tile_setTile ..), rfl, rfl, _, rfl,
      rfl, rfl⟩
  case isFalse =>
    exact ⟨congrArg Core.sparesUsed (State.core_setCore ..),
      (State.recompute_fenced ..).trans (congrArg Tile.fenced (State.tile_setTile ..)), rfl, rfl, _, rfl, rfl, rfl⟩

/-- A tile lost at a die. -/
def State.loseAt (k : Nat) (s : State) (d : Nat) : State :=
  s.setDie d { s.die d with fencedTiles := putNat (s.die d).fencedTiles k }

theorem foldl_loseAt (k : Nat) (ds : List Nat) (s : State) :
    (ds.foldl (State.loseAt k) s).cores = s.cores ∧ (ds.foldl (State.loseAt k) s).mem = s.mem ∧
      (ds.foldl (State.loseAt k) s).tiles = s.tiles ∧ ∀ d, d ∈ ds ∨ k ∈ (s.die d).fencedTiles → k ∈ ((ds.foldl (State.loseAt k) s).die d).fencedTiles := by
  induction ds generalizing s with
  | nil => exact ⟨rfl, rfl, rfl, fun d h => h.resolve_left (by simp)⟩
  | cons a rest ih =>
    obtain ⟨hcores, hmem, htiles, hlost⟩ := ih (s.loseAt k a)
    refine ⟨hcores, hmem, htiles, fun d h => hlost d ?_⟩
    by_cases hd : d = a
    · refine .inr ?_
      rw [hd, State.loseAt, State.die_setDie]
      exact (mem_putNat _ _ _).mpr (.inr rfl)
    · rw [State.loseAt, State.die_setDie_ne _ _ hd]
      exact h.imp_left fun h => (List.mem_cons.mp h).resolve_left hd

theorem State.loseTile_eq (s : State) (k : Nat) : s.loseTile k = (List.range 8).foldl (State.loseAt k)
    (s.setCore (tileCore k) { s.core (tileCore k) with exhausted := true }) := by
  unfold State.loseTile State.loseAt
  rfl

theorem State.loseTile_result (s : State) (k : Nat) :
    ((s.loseTile k).core (tileCore k)).exhausted = true ∧ (s.loseTile k).mem = s.mem ∧ (s.loseTile k).tiles = s.tiles ∧
      ∀ d < 8, k ∈ ((s.loseTile k).die d).fencedTiles := by
  rw [State.loseTile_eq]
  have hcore := State.core_setCore s (tileCore k) { s.core (tileCore k) with exhausted := true }
  have hmem : (s.setCore (tileCore k) { s.core (tileCore k) with exhausted := true }).mem = s.mem := rfl
  have htiles : (s.setCore (tileCore k) { s.core (tileCore k) with exhausted := true }).tiles = s.tiles := rfl
  generalize s.setCore (tileCore k) { s.core (tileCore k) with exhausted := true } = u at hcore hmem htiles ⊢
  obtain ⟨hcores, hmem', htiles', hlost⟩ := foldl_loseAt k (List.range 8) u
  refine ⟨?_, hmem'.trans hmem, htiles'.trans htiles, fun d hd => hlost d (.inl (List.mem_range.mpr hd))⟩
  rw [State.core, hcores, ← State.core, hcore]

end TileFence

end Sys2Proof.Machine

/-! ### Repair of HBM -/

namespace Sys2Proof.Machine

open Sys2Proof

theorem exec_rowRepaired (m : Fin 16) (c : Fin 32) (row : Nat) (s : State) :
    exec (.rowRepaired m c row) s = execRowRepaired m c row s := rfl

theorem exec_hbmSpared (m : Fin 16) (c : Fin 32) (s : State) : exec (.hbmSpared m c) s = execHbmSpared m c s := rfl

theorem exec_hbmExhausted (m : Fin 16) (c : Fin 32) (s : State) :
    exec (.hbmExhausted m c) s = execHbmExhausted m c s := rfl

/-- An event of a stack changes trust and the queue alone. -/
theorem State.stackEvent_result (s : State) (m : Fin 16) (c : Fin 32) (code : Nat) (w4 : Word) (x : Bool × Nat × Bool) :
    let t := s.stackEvent m.val c.val code w4 x
    t.stack m.val = x ∧ t.mem = s.mem ∧ t.tiles = s.tiles ∧ t.trust.rowSpares = s.trust.rowSpares ∧
      ∃ e : Event, t.evq.held = s.evq.held ++ [e] ∧ e.code = code ∧ e.w3 = BitVec.ofNat 64 (m.val + 256 * c.val) ∧
        e.w4 = w4 :=
  ⟨Tab.get_set_self .., rfl, rfl, rfl, _, rfl, rfl, w64_or_place c.val (by omega), rfl⟩

section Row

variable {s : State} (m : Fin 16) (c : Fin 32) (row : Nat)

/-- A row that its errors fail, of a group with a spare row (R409). -/
def RowMends (s : State) (ch : Nat) (y : Nat × Nat × Nat) : Prop :=
  (2 ≤ y.1 ∨ 256 ≤ y.2.1) ∧ Tab.get s.trust.rowSpares (groupKey ch y.2.2) 0 < Config.spareRows

theorem rowMends_iff (s : State) (ch : Nat) (y : Nat × Nat × Nat) :
    RowMends s ch y ↔ (!rowFails y || s.trust.groupFull ch y.2.2) = false := by
  simp only [RowMends, rowFails, Trust.groupFull, Bool.or_eq_false_iff, Bool.not_eq_false', Bool.or_eq_true,
    decide_eq_true_eq, decide_eq_false_iff_not, Nat.not_le]

theorem rowRepaired_none
    (h : ∀ y, Tab.get? s.trust.rows (rowKey (chanKey m.val c.val) row) = some y → ¬RowMends s (chanKey m.val c.val) y) :
    exec (.rowRepaired m c row) s = .next s := by
  rw [exec_rowRepaired, execRowRepaired]
  dsimp only
  cases hy : Tab.get? s.trust.rows (rowKey (chanKey m.val c.val) row) with
  | none => rfl
  | some y =>
    have hstays := h y hy
    rw [rowMends_iff, Bool.not_eq_false] at hstays
    exact if_pos hstays

theorem rowRepaired_mends {y : Nat × Nat × Nat}
    (hy : Tab.get? s.trust.rows (rowKey (chanKey m.val c.val) row) = some y) (h : RowMends s (chanKey m.val c.val) y) :
    ∃ (t : State) (e : Event), exec (.rowRepaired m c row) s = .next t ∧
      t.stack m.val = ((s.stack m.val).1, ((s.stack m.val).2.1 + 1) % 256, (s.stack m.val).2.2) ∧
      t.evq.held = s.evq.held ++ [e] ∧ e.code = 0xC6 ∧ e.w3 = BitVec.ofNat 64 (m.val + 256 * c.val) ∧
      e.w4 = BitVec.ofNat 64 row ∧ t.mem = s.mem ∧ t.tiles = s.tiles ∧
      Tab.get t.trust.rowSpares (groupKey (chanKey m.val c.val) y.2.2) 0 =
        Tab.get s.trust.rowSpares (groupKey (chanKey m.val c.val) y.2.2) 0 + 1 := by
  let g := groupKey (chanKey m.val c.val) y.2.2
  let u : State := { s with trust := { s.trust with
    rows := Tab.del s.trust.rows (rowKey (chanKey m.val c.val) row)
    rowSpares := Tab.set s.trust.rowSpares g (Tab.get s.trust.rowSpares g 0 + 1) } }
  obtain ⟨hstack, hmem, htiles, hspares, e, hheld, hcode, hw3, hw4⟩ := u.stackEvent_result m c 0xC6 (w64 row)
    ((s.stack m.val).1, ((s.stack m.val).2.1 + 1) % 256, (s.stack m.val).2.2)
  refine ⟨_, e, ?_, hstack, hheld, hcode, hw3, hw4, hmem, htiles, ?_⟩
  · rw [exec_rowRepaired, execRowRepaired]
    simp only [hy, (rowMends_iff s _ y).mp h, Bool.false_eq_true, if_false]
    rfl
  · rw [hspares]
    exact Tab.get_set_self ..

end Row

section Channel

variable {s : State} (m : Fin 16) (c : Fin 32)

theorem channel_stands (h : s.trust.chanFails (chanKey m.val c.val) = false) :
    exec (.hbmSpared m c) s = .next s ∧ exec (.hbmExhausted m c) s = .next s := by
  rw [exec_hbmSpared, execHbmSpared, exec_hbmExhausted, execHbmExhausted]
  simp only [h, Bool.not_false, Bool.or_true, if_true, Bool.and_false, Bool.false_eq_true, if_false, and_self]

theorem chanFails_of_errors (h : 4096 < (Tab.get s.trust.chanCe (chanKey m.val c.val) []).length) :
    s.trust.chanFails (chanKey m.val c.val) = true := by
  simp [Trust.chanFails, h]

theorem hbmSpared_spares (h : s.trust.chanFails (chanKey m.val c.val) = true) (hx : (s.stack m.val).1 = false) :
    ∃ (t : State) (e : Event), exec (.hbmSpared m c) s = .next t ∧
      t.stack m.val = (true, (s.stack m.val).2.1, (s.stack m.val).2.2) ∧ t.evq.held = s.evq.held ++ [e] ∧ e.code = 0xC7 ∧
      e.w3 = BitVec.ofNat 64 (m.val + 256 * c.val) ∧ t.mem = s.mem ∧ t.tiles = s.tiles := by
  let v := s.trust.chanAfresh (chanKey m.val c.val)
  let u : State := { s with trust := { v with
    rowSpares := v.rowSpares.filter fun g => groupChan g.1 != chanKey m.val c.val } }
  obtain ⟨hstack, hmem, htiles, -, e, hheld, hcode, hw3, -⟩ := u.stackEvent_result m c 0xC7 0
    (true, (s.stack m.val).2.1, (s.stack m.val).2.2)
  refine ⟨_, e, ?_, hstack, hheld, hcode, hw3, hmem, htiles⟩
  rw [exec_hbmSpared, execHbmSpared]
  simp only [h, hx, Bool.not_true, Bool.or_self, Bool.false_eq_true, if_false]
  rfl

theorem hbmExhausted_exhausts (h : s.trust.chanFails (chanKey m.val c.val) = true) (hx : (s.stack m.val).1 = true) :
    ∃ (t : State) (e : Event), exec (.hbmExhausted m c) s = .next t ∧
      t.stack m.val = (true, (s.stack m.val).2.1, true) ∧ t.evq.held = s.evq.held ++ [e] ∧ e.code = 0xC8 ∧
      e.w3 = BitVec.ofNat 64 (m.val + 256 * c.val) ∧ t.mem = s.mem ∧ t.tiles = s.tiles := by
  let u : State := { s with trust := s.trust.chanAfresh (chanKey m.val c.val) }
  obtain ⟨hstack, hmem, htiles, -, e, hheld, hcode, hw3, -⟩ := u.stackEvent_result m c 0xC8 0
    (true, (s.stack m.val).2.1, true)
  refine ⟨_, e, ?_, hstack, hheld, hcode, hw3, hmem, htiles⟩
  rw [exec_hbmExhausted, execHbmExhausted]
  simp only [h, hx, Bool.and_self, if_true]
  rfl

end Channel

/-- Settles O56, part by part: an image by `fwVerified_result` and `fwDone_result`, a tile by `State.spareTile_result` and
`State.loseTile_result`, HBM by `State.stackEvent_result`. -/
theorem firmwareAndRepair : Obligations.FirmwareAndRepair := by
  intro s
  refine ⟨fun v k => ⟨fwGo_ignored k, fun hv hstate hallowed => ?_, fun a hstate hstaged => ?_⟩,
    fun a k hstaged => ⟨fun hstate hquiet => ?_, fun hstate hbusy => ?_, fun hstate => ?_,
      fun hstate ok => fwDone_result hstate hstaged ok⟩,
    fun k _ => ⟨tileFence_unasked, fun hk hregion => ⟨fun hn => ?_, fun hn => ?_⟩⟩,
    fun m c => ⟨fun row => ⟨rowRepaired_none m c row, fun y => rowRepaired_mends m c row⟩, channel_stands m c,
      chanFails_of_errors m c, hbmSpared_spares m c, hbmExhausted_exhausts m c⟩⟩
  · exact ⟨_, _, fwGo_stages k hv hstate hallowed, rfl, rfl, rfl, rfl, rfl⟩
  · refine ⟨_, handover_verifies hstate hstaged, ?_⟩
    rw [← fwResultOf_eq]
    exact fwVerified_result s a k
  · rw [handover_waits hstate hstaged, if_pos hquiet]
    exact ⟨_, rfl, rfl, rfl, rfl, rfl⟩
  · rw [handover_waits hstate hstaged, if_neg (by simp [hbusy])]
  · exact ⟨_, _, handover_runs hstate hstaged, rfl, rfl, rfl, rfl, rfl, rfl, rfl, rfl, rfl, rfl, rfl⟩
  · obtain ⟨hspares, hfenced, hmem, htrust, e, hheld, hcode, hw3⟩ := s.spareTile_result k
    have hexec := tileFence_repairs hk hregion
    rw [if_pos hn] at hexec
    refine ⟨_, e, hexec, hspares, hfenced, hmem, hheld, hcode, hw3, fun hsorted hmem => ?_⟩
    rw [State.fenceDone, htrust] at hmem
    have hgone := contains_delNat k hsorted
    simp [hmem] at hgone
  · obtain ⟨hexhausted, hmem, htiles, hlost⟩ := s.loseTile_result k
    have hexec := tileFence_repairs hk hregion
    rw [if_neg (Nat.not_lt.mpr hn)] at hexec
    exact ⟨_, hexec, hexhausted, hmem, htiles, hlost⟩

end Sys2Proof.Machine

/-! ## Flits, retries, retrains, key rollovers, XMAP and CXL ports (R371 to R376, R381, R384, R400, R401) -/

/-! ### Flits and retries (R371, R373) -/

namespace Sys2Proof.Machine

open Sys2Proof

theorem exec_flitReceive (l : Nat) (dir : Bool) (ext : Option Flit) (ok : Bool) (s : State) :
    exec (.flitReceive l dir ext ok) s = execFlitReceive l dir ext ok s := rfl

theorem exec_retryRequest (l : Nat) (dir : Bool) (aseq : BitVec 16) (s : State) :
    exec (.retryRequest l dir aseq) s = execRetryRequest l dir aseq s := rfl

theorem opposite_ne (l : Nat) (dir : Bool) : ¬(l = l ∧ dir = !dir) := by cases dir <;> simp

theorem opposite_ne' (l : Nat) (dir : Bool) : ¬(l = l ∧ (!dir) = dir) := by cases dir <;> simp

/-- The memory and the links stand, but for the segments that wait to be sent. -/
structure LinksStand (s t : State) : Prop where
  mem : t.mem = s.mem
  link : ∀ l dir, { t.link l dir with pending := [] } = { s.link l dir with pending := [] }

namespace LinksStand

theorem refl (s : State) : LinksStand s s := ⟨rfl, fun _ _ => rfl⟩

theorem trans {s t u : State} (h : LinksStand s t) (h' : LinksStand t u) : LinksStand s u :=
  ⟨h'.mem.trans h.mem, fun l dir => (h'.link l dir).trans (h.link l dir)⟩

theorem of_links {s t : State} (hmem : t.mem = s.mem) (hlinks : t.links = s.links) : LinksStand s t :=
  ⟨hmem, fun l dir => by rw [State.link, State.link, hlinks]⟩

theorem queueSeg (s : State) (l : Nat) (dir : Bool) (x : Seg) : LinksStand s (s.queueSeg l dir x) := by
  refine ⟨rfl, fun m e => ?_⟩
  unfold State.queueSeg
  by_cases h : m = l ∧ e = dir
  · obtain ⟨rfl, rfl⟩ := h
    rw [State.link_setLink]
  · rw [State.link_setLink_ne _ _ h]

theorem markActive (s : State) (k : Nat) : LinksStand s (s.markActive k) :=
  of_links (State.markActive_mem s k) (congrArg State.links (State.markActive_rest s k) :)

theorem moves (s : State) (y : Chan) : LinksStand s (s.moves y) := by
  have hsrc : LinksStand s (s.srcActive y) := by
    obtain ⟨k, h⟩ | h := s.srcActive_cases y
    · exact h ▸ markActive s k
    · exact h.symm ▸ refl s
  unfold State.moves
  dsimp only
  split
  · exact hsrc.trans (markActive _ _)
  · exact hsrc

/-- A segment that crosses moves items of channels, counts of outputs and segments that wait. -/
theorem crossed (s : State) (l : Nat) (dir : Bool) (x : Seg) : LinksStand s (s.crossed l dir x) := by
  have hsame {t : State} (hmem : t.mem = s.mem) (hlinks : t.links = s.links) : LinksStand s t := of_links hmem hlinks
  unfold State.crossed
  dsimp only
  cases x
  case tok =>
    dsimp only
    split
    · exact refl s
    · exact trans (t := s.setChan _ _) (hsame rfl rfl) (moves _ _)
  case marker =>
    dsimp only
    split
    · exact refl s
    · exact trans (t := s.setChan _ _) (hsame rfl rfl) (moves _ _)
  all_goals
    dsimp only
    split
    · exact refl s
    · split
      · split
        · exact queueSeg _ _ _ _
        · repeat' split
          all_goals exact hsame rfl rfl
      · repeat' split
        all_goals exact hsame rfl rfl

end LinksStand

end Sys2Proof.Machine

/-! ### A flit at its receiver, and a retry at its sender -/

namespace Sys2Proof.Machine

open Sys2Proof

section Flit

variable {s : State} {l : Nat} {dir : Bool} {f : Flit} {rest : List Flit}

/-- A flit of the body that stands on the wire is what a receiver between chiplets looks at. -/
theorem flitReceive_next (hruns : s.linkRuns l dir = true) (hport : isPort l = false)
    (hwire : (s.link l dir).wire = f :: rest) (ok : Bool) :
    exec (.flitReceive l dir .none ok) s = .next (s.receiveInner l dir ok) := by
  rw [exec_flitReceive, execFlitReceive]
  simp only [hruns, hport, hwire, Bool.not_true, Bool.false_eq_true, if_false, List.isEmpty_cons, Bool.false_and]

/-- A receiver between chiplets once it has taken a flit (R373). -/
def LinkDir.taken (d : LinkDir) (f : Flit) (rest : List Flit) (tab : List Int) : LinkDir :=
  { d.accept f tab with
    wire := rest
    segs := d.segs.filter fun x => x.1 != f.fseq }

/-- A flit in order of a key that the receiver has is taken, and its segments go on. -/
theorem State.receiveInner_accepts (hwire : (s.link l dir).wire = f :: rest) (htype : f.ftype ≠ 2)
    (hseq : f.fseq = (s.link l dir).expect) (hopens : (s.link l dir).opens f.kp = true) {xs : List Seg}
    (hsegs : (s.link l dir).segs = [(f.fseq, xs)]) :
    ∃ d : LinkDir, d.expect = (s.link l dir).expect + 1 ∧ d.wire = rest ∧ d.attempts = 0 ∧
      s.receiveInner l dir true = xs.foldl (fun s x => s.crossed l dir x) ((s.setLink l dir d).acks l (!dir) f.aseq) := by
  have hxs : (((s.link l dir).segs.find? fun x => x.1 = f.fseq).map (·.2)).getD [] = xs := by simp [hsegs]
  refine ⟨(s.link l dir).taken f rest (fillBody false (s.feature 4) s.tagOf (s.link l dir).rxTab (0, 0) xs).2.2.1,
    congrArg (· + 1) hseq, rfl, rfl, ?_⟩
  unfold State.receiveInner
  dsimp only
  rw [hwire]
  dsimp only
  rw [hxs, if_neg (by simpa using htype), if_neg (by simp [hseq, hopens])]
  rfl

theorem LinksStand.foldl_crossed (l : Nat) (dir : Bool) (xs : List Seg) (s : State) :
    LinksStand s (xs.foldl (fun s x => s.crossed l dir x) s) := by
  induction xs generalizing s with
  | nil => exact refl s
  | cons x xs ih => exact (crossed s l dir x).trans (ih _)

/-- The last link of a channel's path puts its tokens into the channel's queue. -/
theorem State.crossed_tok (s : State) {ch : Nat} {y : Chan} (hy : Tab.get? s.chans ch = some y) (hpath : y.path = [(l, dir)])
    (r : Tok) (n : Nat) :
    Tab.get? (s.crossed l dir (.tok ch 0 0 r n)).chans ch = some { y with items := y.items ++ [.tok r n] } := by
  have hmoves (u : State) : (u.moves y).chans = u.chans := by
    unfold State.moves
    dsimp only
    split
    · rw [State.markActive_chans, State.srcActive_chans]
    · exact State.srcActive_chans ..
  simp only [State.crossed, hy, hpath, List.findIdx?_cons, BEq.rfl, if_true, Option.getD_some, List.length_cons,
    List.length_nil, Nat.lt_irrefl, if_false, hmoves]
  exact Tab.get?_set_self ..

theorem flitReceive_accepts (hruns : s.linkRuns l dir = true) (hport : isPort l = false)
    (hwire : (s.link l dir).wire = f :: rest) (htype : f.ftype ≠ 2) (xs : List Seg)
    (hsegs : (s.link l dir).segs = [(f.fseq, xs)]) (hseq : f.fseq = (s.link l dir).expect)
    (hopens : (s.link l dir).opens f.kp = true) :
    ∃ t, exec (.flitReceive l dir .none true) s = .next t ∧ t.mem = s.mem ∧
      (t.link l dir).expect = (s.link l dir).expect + 1 ∧ (t.link l dir).wire = rest ∧ (t.link l dir).attempts = 0 ∧
      (t.link l (!dir)).aseq = f.aseq ∧
      ∀ ch r n y, xs = [.tok ch 0 0 r n] → Tab.get? s.chans ch = some y → y.path = [(l, dir)] →
        Tab.get? t.chans ch = some { y with items := y.items ++ [.tok r n] } := by
  obtain ⟨d, hexpect, hrest, hattempts, hrec⟩ := State.receiveInner_accepts hwire htype hseq hopens hsegs
  refine ⟨_, flitReceive_next hruns hport hwire true, ?_⟩
  have hacks : (s.setLink l dir d).acks l (!dir) f.aseq =
      (s.setLink l dir d).setLink l (!dir) { (s.setLink l dir d).link l (!dir) with aseq := f.aseq } := by
    rw [State.acks, hport]
    rfl
  rw [hrec, hacks]
  have hhere := State.link_setLink_ne (s.setLink l dir d)
    { (s.setLink l dir d).link l (!dir) with aseq := f.aseq } (opposite_ne l dir)
  rw [State.link_setLink] at hhere
  have hback := State.link_setLink (s.setLink l dir d) l (!dir) { (s.setLink l dir d).link l (!dir) with aseq := f.aseq }
  have hmem : ((s.setLink l dir d).setLink l (!dir) { (s.setLink l dir d).link l (!dir) with aseq := f.aseq }).mem =
    s.mem := rfl
  have hchans : ((s.setLink l dir d).setLink l (!dir) { (s.setLink l dir d).link l (!dir) with aseq := f.aseq }).chans =
    s.chans := rfl
  have haseq := congrArg LinkDir.aseq hback
  generalize (s.setLink l dir d).setLink l (!dir) _ = u at hhere haseq hmem hchans ⊢
  have hstand := LinksStand.foldl_crossed l dir xs u
  have hlink := hstand.link l dir
  rw [hhere] at hlink
  refine ⟨hstand.mem.trans hmem, (congrArg LinkDir.expect hlink :).trans hexpect,
    (congrArg LinkDir.wire hlink :).trans hrest, (congrArg LinkDir.attempts hlink :).trans hattempts,
    (congrArg LinkDir.aseq (hstand.link l (!dir)) :).trans haseq, fun ch r n y hxs hy hpath => ?_⟩
  rw [hxs]
  exact u.crossed_tok (hchans ▸ hy) hpath r n

/-- A flit that is not taken is discarded with those that follow, and a retry request goes back. -/
theorem flitReceive_discards (hruns : s.linkRuns l dir = true) (hport : isPort l = false)
    (hwire : (s.link l dir).wire = f :: rest) (htype : f.ftype ≠ 2) (ok : Bool)
    (hbad : ok = false ∨ f.fseq ≠ (s.link l dir).expect ∨ (s.link l dir).opens f.kp = false) :
    ∃ t, exec (.flitReceive l dir .none ok) s = .next t ∧ t.mem = s.mem ∧ t.chans = s.chans ∧
      (t.link l dir).expect = (s.link l dir).expect ∧
      (t.link l dir).wire = (s.link l dir).wire.filter (fun g => g.ftype == 2) ∧
      (t.link l dir).retryAsked = true ∧ (t.link l dir).window = (s.link l dir).window ∧
      ∃ q ∈ (t.link l (!dir)).wire, q.ftype = 2 ∧
        ((∀ g ∈ (s.link l (!dir)).wire, g.ftype ≠ 2) → q.aseq = (s.link l dir).expect - 1) := by
  have hdiscard : s.receiveInner l dir ok = s.discard l dir f := by
    unfold State.receiveInner
    dsimp only
    rw [hwire]
    have hbad' : (!ok || f.fseq != (s.link l dir).expect || !(s.link l dir).opens f.kp) = true := by
      rcases hbad with h | h | h <;> simp [h]
    simp only [beq_iff_eq, htype, if_false, hbad', if_true]
  refine ⟨_, flitReceive_next hruns hport hwire ok, ?_⟩
  rw [hdiscard, State.discard]
  rw [State.link_setLink_ne _ _ (opposite_ne l dir), State.link_setLink, State.link_setLink]
  refine ⟨rfl, rfl, rfl, rfl, rfl, rfl, ?_⟩
  cases hany : (s.link l (!dir)).wire.any fun g => g.ftype == 2
  case true =>
    obtain ⟨q, hq, hq2⟩ := List.any_eq_true.mp hany
    rw [beq_iff_eq] at hq2
    exact ⟨q, by simpa using hq, hq2, fun hnone => absurd hq2 (hnone q hq)⟩
  case false =>
    rw [hport]
    exact ⟨_, List.mem_append_right _ (List.mem_singleton_self _), rfl, fun _ => rfl⟩

/-- The sender between chiplets replays its window from the request at the head of the other direction's wire. -/
theorem retryRequest_replays (hruns : s.linkRuns l dir = true) (hport : isPort l = false)
    (hwire : (s.link l (!dir)).wire = f :: rest) (htype : f.ftype = 2) (hattempts : (s.link l dir).attempts < 8) :
    ∃ t, exec (.retryRequest l dir f.aseq) s = .next t ∧ t.mem = s.mem ∧ t.chans = s.chans ∧
      (t.link l dir).wire = (s.link l dir).wire.filter (fun g => g.ftype == 2) ++ (s.link l dir).replay f.aseq ∧
      (t.link l dir).aseq = f.aseq ∧ (t.link l dir).retryAsked = false ∧ (t.link l dir).window = (s.link l dir).window ∧
      (t.link l (!dir)).wire = rest := by
  refine ⟨s.takeRetry l dir, ?_, ?_⟩
  · rw [exec_retryRequest, execRetryRequest]
    simp only [hruns, hport, hwire, Bool.not_true, Bool.false_eq_true, if_false, if_true]
  · rw [State.takeRetry]
    simp only [hwire, htype, Nat.not_le.mpr hattempts, bne_self_eq_false, Bool.false_or, decide_false, Bool.false_eq_true,
      if_false]
    rw [State.link_setLink, State.link_setLink_ne _ _ (opposite_ne' l dir), State.link_setLink]
    exact ⟨rfl, rfl, rfl, rfl, rfl, rfl, rfl⟩

/-- A port replays for the other package. -/
theorem retryRequest_port (hruns : s.linkRuns l false = true) (hport : isPort l = true) (aseq : BitVec 16)
    (hattempts : (s.link l false).attempts < 7) :
    ∃ t, exec (.retryRequest l false aseq) s = .next t ∧ t.mem = s.mem ∧ t.chans = s.chans ∧
      (t.link l false).wire = (s.link l false).replay aseq ∧ (t.link l false).expect = aseq + 1 ∧
      (t.link l false).window = (s.link l false).window := by
  refine ⟨s.setLink l false ((s.link l false).outsideRetry aseq), ?_, rfl, rfl, ?_⟩
  · rw [exec_retryRequest, execRetryRequest]
    simp only [hruns, hport, Bool.not_true, Bool.false_eq_true, if_false, if_true]
  · rw [State.link_setLink]
    refine ⟨if_pos ?_, rfl, rfl⟩
    split <;> omega

end Flit

end Sys2Proof.Machine

/-! ### Retrains and lanes (R373, R374, R381) -/

namespace Sys2Proof.Machine

open Sys2Proof

theorem exec_linkRetrain (l : Nat) (dir : Bool) (bad : List Nat) (ok : Bool) (s : State) :
    exec (.linkRetrain l dir bad ok) s = execLinkRetrain l dir bad ok s := rfl

theorem exec_linkUp (l : Nat) (s : State) : exec (.linkUp l) s = execLinkUp l s := rfl

/-! #### The numbered elements of a list under a function that may fail -/

section Numbered

variable {α β : Type} {f : α × Nat → Option β}

theorem mapM_zipIdx_some {xs : List α} {n : Nat} {ys : List β} (h : (xs.zipIdx n).mapM f = some ys) {i : Nat} {x : α}
    (hx : xs[i]? = some x) : ∃ y, f (x, n + i) = some y ∧ ys[i]? = some y := by
  induction xs generalizing n ys i with
  | nil => simp at hx
  | cons a rest ih =>
    rw [List.zipIdx_cons, List.mapM_cons] at h
    obtain ⟨b, hb, h⟩ := Option.bind_eq_some_iff.mp h
    obtain ⟨bs, hbs, h⟩ := Option.bind_eq_some_iff.mp h
    obtain rfl : b :: bs = ys := Option.some.inj h
    cases i with
    | zero =>
      obtain rfl : a = x := by simpa using hx
      exact ⟨b, hb, rfl⟩
    | succ j =>
      obtain ⟨y, hy, hget⟩ := ih hbs hx
      exact ⟨y, by rwa [Nat.add_comm j 1, ← Nat.add_assoc], hget⟩

theorem mapM_zipIdx_none {xs : List α} {n : Nat} (h : (xs.zipIdx n).mapM f = none) :
    ∃ i x, xs[i]? = some x ∧ f (x, n + i) = none := by
  induction xs generalizing n with
  | nil => simp at h
  | cons a rest ih =>
    rw [List.zipIdx_cons, List.mapM_cons] at h
    cases hb : f (a, n) with
    | none => exact ⟨0, a, rfl, hb⟩
    | some b =>
      cases hbs : (rest.zipIdx (n + 1)).mapM f with
      | none =>
        obtain ⟨i, x, hx, hf⟩ := ih hbs
        exact ⟨i + 1, x, hx, by rwa [Nat.add_comm i 1, ← Nat.add_assoc]⟩
      | some bs => simp [hb, hbs] at h

end Numbered

/-- A module has lanes and spares left for the lanes found failed in it (R374). -/
def LaneRoom (l : Nat) (x : Nat × Nat) (bad : Nat) : Prop :=
  if isPort l then x.2 + (4 - x.1) + bad ≤ 2 else x.2 + bad ≤ 4

theorem spareLanes_none {l : Nat} {x : Nat × Nat} {bad : Nat} (h : spareLanes l x.1 x.2 bad = none) :
    ¬LaneRoom l x bad := by
  unfold spareLanes at h
  unfold LaneRoom
  cases hport : isPort l
  case false =>
    rw [hport] at h
    simpa using h
  case true =>
    rw [hport] at h
    dsimp only at h
    rw [if_pos rfl] at h ⊢
    repeat' split at h
    all_goals simp at h
    omega

theorem spareLanes_some {l : Nat} {x y : Nat × Nat} {bad : Nat} (h : spareLanes l x.1 x.2 bad = some y) : LaneRoom l x bad ∧
    (isPort l = false → y = (x.1, x.2 + bad)) ∧
    (isPort l = true → y = let n := x.2 + (4 - x.1) + bad; if n ≤ 1 then (4, n) else (3, 1)) := by
  unfold spareLanes at h
  unfold LaneRoom
  cases hport : isPort l
  case false =>
    rw [hport, if_neg (by decide)] at h
    split at h
    case isTrue hroom => exact ⟨hroom, fun _ => (Option.some.inj h).symm, fun h => nomatch h⟩
    case isFalse => nomatch h
  case true =>
    rw [hport, if_pos rfl] at h
    dsimp only at h ⊢
    rw [if_pos rfl]
    generalize x.2 + (4 - x.1) + bad = n at h ⊢
    by_cases h0 : n ≤ 2
    · refine ⟨h0, fun h => absurd h (by decide), fun _ => ?_⟩
      interval_cases n <;> simpa using h.symm
    · simp [show n ≠ 0 by omega, show n ≠ 1 by omega, show n ≠ 2 by omega] at h

/-- Where the modules have room for the failures, each has its lanes and spares (R374). -/
theorem spareMods_some {l : Nat} {mods ms : List (Nat × Nat)} {bad : List Nat} (h : spareMods l mods bad = some ms)
    {i : Nat} {x : Nat × Nat} (hx : mods[i]? = some x) : ∃ y, ms[i]? = some y ∧ LaneRoom l x (bad.count i) ∧
      (isPort l = false → y = (x.1, x.2 + bad.count i)) ∧
      (isPort l = true → y = let n := x.2 + (4 - x.1) + bad.count i; if n ≤ 1 then (4, n) else (3, 1)) := by
  obtain ⟨y, hy, hget⟩ := mapM_zipIdx_some h hx
  rw [Nat.zero_add] at hy
  exact ⟨y, hget, spareLanes_some hy⟩

theorem spareMods_none {l : Nat} {mods : List (Nat × Nat)} {bad : List Nat} (h : spareMods l mods bad = none) :
    ¬∀ i x, mods[i]? = some x → LaneRoom l x (bad.count i) := by
  intro hroom
  obtain ⟨i, x, hx, hnone⟩ := mapM_zipIdx_none h
  rw [Nat.zero_add] at hnone
  exact spareLanes_none hnone (hroom i x hx)

/-- Memory, channels and tiles stand, and events follow those that are queued. -/
structure EventsFollow (s t : State) : Prop where
  mem : t.mem = s.mem
  chans : t.chans = s.chans
  tiles : t.tiles = s.tiles
  held : ∃ es, t.evq.held = s.evq.held ++ es

namespace EventsFollow

theorem refl (s : State) : EventsFollow s s := ⟨rfl, rfl, rfl, [], (List.append_nil _).symm⟩

theorem trans {s t u : State} (h : EventsFollow s t) (h' : EventsFollow t u) : EventsFollow s u := by
  obtain ⟨es, hes⟩ := h.held
  obtain ⟨es', hes'⟩ := h'.held
  exact ⟨h'.mem.trans h.mem, h'.chans.trans h.chans, h'.tiles.trans h.tiles, es ++ es', by rw [hes', hes, List.append_assoc]⟩

theorem mem_held {s t : State} (h : EventsFollow s t) {e : Event} (he : e ∈ s.evq.held) : e ∈ t.evq.held := by
  obtain ⟨es, hes⟩ := h.held
  rw [hes]
  exact List.mem_append_left _ he

theorem setLink (s : State) (l : Nat) (dir : Bool) (d : LinkDir) : EventsFollow s (s.setLink l dir d) :=
  ⟨rfl, rfl, rfl, [], (List.append_nil _).symm⟩

theorem report (s : State) (code : Nat) (w3 : Word) : EventsFollow s (s.report code none 0 ones w3 0 0) :=
  ⟨rfl, rfl, rfl, _, rfl⟩

end EventsFollow

/-- A link that goes down does so in both directions, with its event (R373). -/
theorem State.linkDown_link (s : State) (l : Nat) (dir : Bool) :
    (s.linkDown l).link l dir = { s.link l dir with up := false } := by
  have heq : (s.linkDown l).link l dir = ((s.setLink l false { s.link l false with up := false }).setLink l true
    { (s.setLink l false { s.link l false with up := false }).link l true with up := false }).link l dir := rfl
  rw [heq]
  cases dir with
  | false => rw [State.link_setLink_ne (d := false) (e := true) _ _ (by simp), State.link_setLink]
  | true => rw [State.link_setLink, State.link_setLink_ne (d := true) (e := false) _ _ (by simp)]

theorem State.linkDown_follow (s : State) (l : Nat) :
    EventsFollow s (s.linkDown l) ∧ ∃ x ∈ (s.linkDown l).evq.held, x.code = 0xA1 :=
  ⟨⟨rfl, rfl, rfl, _, rfl⟩, _, List.mem_append_right _ (List.mem_singleton_self _), rfl⟩

/-- One module whose lane map has changed, or has not (R374). -/
def State.laneEvent (l : Nat) (s : State) (m : (Nat × Nat) × (Nat × Nat)) : State :=
  if m.1 = m.2 then s else s.report 0xA2 none 0 ones (w64 l ||| place m.2.1 8 ||| place m.2.2 16) 0 0

theorem low8_lanes (l a b : Nat) : (w64 l ||| place a 8 ||| place b 16).extractLsb' 0 8 = BitVec.ofNat 8 l := by
  refine BitVec.eq_of_getLsbD_eq fun i hi => ?_
  simp only [BitVec.getLsbD_extractLsb', BitVec.getLsbD_or, getLsbD_place, BitVec.getLsbD_ofNat, w64]
  simp [hi, show i < 64 by omega, show ¬8 ≤ i by omega, show ¬16 ≤ i by omega]

theorem foldl_laneEvent (l : Nat) (ms : List ((Nat × Nat) × (Nat × Nat))) (s : State) :
    EventsFollow s (ms.foldl (State.laneEvent l) s) ∧ (ms.foldl (State.laneEvent l) s).links = s.links ∧
      ∀ m ∈ ms, m.1 ≠ m.2 → ∃ v ∈ (ms.foldl (State.laneEvent l) s).evq.held, v.code = 0xA2 ∧
        v.w3.extractLsb' 0 8 = BitVec.ofNat 8 l := by
  induction ms generalizing s with
  | nil => exact ⟨.refl s, rfl, by simp⟩
  | cons m rest ih =>
    obtain ⟨hfollow, hlinks, hevents⟩ := ih (s.laneEvent l m)
    rw [List.foldl_cons]
    by_cases hm : m.1 = m.2
    · have hsame : s.laneEvent l m = s := if_pos hm
      rw [hsame] at hfollow hlinks hevents ⊢
      refine ⟨hfollow, hlinks, fun n hn hne => hevents n ?_ hne⟩
      exact (List.mem_cons.mp hn).resolve_left fun h => hne (h ▸ hm)
    · have hpost : s.laneEvent l m = s.report 0xA2 none 0 ones (w64 l ||| place m.2.1 8 ||| place m.2.2 16) 0 0 := if_neg hm
      rw [hpost] at hfollow hlinks hevents ⊢
      refine ⟨(EventsFollow.report s 0xA2 _).trans hfollow, hlinks, fun n hn hne => ?_⟩
      obtain rfl | hn := List.mem_cons.mp hn
      · exact ⟨_, hfollow.mem_held (List.mem_append_right _ (List.mem_singleton_self _)), rfl, low8_lanes ..⟩
      · exact hevents n hn hne

end Sys2Proof.Machine

namespace Sys2Proof.Machine

open Sys2Proof

section Retrain

variable {s : State} {l : Nat} {dir : Bool} (bad : List Nat)

/-- The link is looked at again (R373). -/
def State.retrainSeen (s : State) (l : Nat) (dir : Bool) : State :=
  s.report 0xA0 none 0 ones (w64 l) (w64 (s.link l dir).expect.toNat) 0

/-- A link direction after a retrain that leaves it its lanes (R373, R374). -/
def LinkDir.retrained (d : LinkDir) (l : Nat) (dir ok : Bool) (mods : List (Nat × Nat)) : LinkDir :=
  { d with
    retrains := d.retrains + 1
    mods := mods
    failedTrains := if ok then 0 else d.failedTrains + 1
    attempts := if ok then 0 else d.attempts
    wire := if ok && isPort l && !dir then d.replay d.aseq else d.wire }

/-- The state once a link direction has its new lanes, with an event of each module that changed (R374). -/
def State.lanesMapped (s : State) (l : Nat) (dir ok : Bool) (mods : List (Nat × Nat)) : State :=
  ((s.link l dir).mods.zip mods).foldl (State.laneEvent l)
    ((s.retrainSeen l dir).setLink l dir ((s.link l dir).retrained l dir ok mods))

variable (hruns : s.linkRuns l dir = true) (hattempts : 8 ≤ (s.link l dir).attempts)
include hruns hattempts

theorem linkRetrain_lost {ok : Bool} (h : spareMods l (s.link l dir).mods bad = none) :
    exec (.linkRetrain l dir bad ok) s = .next (((s.retrainSeen l dir).setLink l dir
      { s.link l dir with retrains := (s.link l dir).retrains + 1 }).linkDown l) := by
  rw [exec_linkRetrain, execLinkRetrain]
  simp only [hruns, Nat.not_lt.mpr hattempts, Bool.not_true, Bool.or_self, decide_false, Bool.false_eq_true, if_false, h]
  rfl

theorem linkRetrain_mapped {ok : Bool} {mods : List (Nat × Nat)} (h : spareMods l (s.link l dir).mods bad = some mods) :
    exec (.linkRetrain l dir bad ok) s = .next (if 4 ≤ ((s.link l dir).retrained l dir ok mods).failedTrains then
      (s.lanesMapped l dir ok mods).linkDown l else s.lanesMapped l dir ok mods) := by
  rw [exec_linkRetrain, execLinkRetrain]
  simp only [hruns, Nat.not_lt.mpr hattempts, Bool.not_true, Bool.or_self, decide_false, Bool.false_eq_true, if_false, h]
  rfl

end Retrain

theorem State.retrainSeen_follow (s : State) (l : Nat) (dir : Bool) : ∃ e : Event,
    (s.retrainSeen l dir).evq.held = s.evq.held ++ [e] ∧ e.code = 0xA0 ∧ e.w3 = BitVec.ofNat 64 l ∧
      (s.retrainSeen l dir).mem = s.mem ∧ (s.retrainSeen l dir).chans = s.chans ∧ (s.retrainSeen l dir).tiles = s.tiles :=
  ⟨_, rfl, rfl, rfl, rfl, rfl, rfl⟩

theorem State.lanesMapped_result (s : State) (l : Nat) (dir ok : Bool) (mods : List (Nat × Nat)) :
    EventsFollow (s.retrainSeen l dir) (s.lanesMapped l dir ok mods) ∧
      (s.lanesMapped l dir ok mods).link l dir = (s.link l dir).retrained l dir ok mods ∧
      ∀ m ∈ (s.link l dir).mods.zip mods, m.1 ≠ m.2 → ∃ v ∈ (s.lanesMapped l dir ok mods).evq.held, v.code = 0xA2 ∧
        v.w3.extractLsb' 0 8 = BitVec.ofNat 8 l := by
  obtain ⟨hfollow, hlinks, hevents⟩ := foldl_laneEvent l ((s.link l dir).mods.zip mods)
    ((s.retrainSeen l dir).setLink l dir ((s.link l dir).retrained l dir ok mods))
  refine ⟨(EventsFollow.setLink _ l dir _).trans hfollow, ?_, hevents⟩
  rw [State.link, State.lanesMapped, hlinks, ← State.link, State.link_setLink]

/-- Each module of a direction that keeps its lanes, with the event of one that has changed (R374). -/
theorem State.lanesMapped_modules (s : State) {l : Nat} {dir : Bool} (ok : Bool) {bad : List Nat} {mods : List (Nat × Nat)}
    (hmods : spareMods l (s.link l dir).mods bad = some mods) {t : State} (hd : (t.link l dir).mods = mods)
    (hfollow : EventsFollow (s.lanesMapped l dir ok mods) t) {i : Nat} {x : Nat × Nat}
    (hx : (s.link l dir).mods[i]? = some x) :
    (isPort l = false → (t.link l dir).mods[i]? = some (x.1, x.2 + bad.count i)) ∧
      (isPort l = true → (t.link l dir).mods[i]? =
        some (let n := x.2 + (4 - x.1) + bad.count i; if n ≤ 1 then (4, n) else (3, 1))) ∧
      (0 < bad.count i → isPort l = false →
        ∃ v ∈ t.evq.held, v.code = 0xA2 ∧ v.w3.extractLsb' 0 8 = BitVec.ofNat 8 l) := by
  obtain ⟨y, hget, -, hinner, houter⟩ := spareMods_some hmods hx
  obtain ⟨-, -, hevents⟩ := s.lanesMapped_result l dir ok mods
  rw [hd, hget]
  refine ⟨fun h => congrArg some (hinner h), fun h => congrArg some (houter h), fun hbad hport => ?_⟩
  have hpair : (x, y) ∈ (s.link l dir).mods.zip mods :=
    List.mem_of_getElem? (i := i) (by rw [List.getElem?_zip_eq_some]; exact ⟨hx, hget⟩)
  have hne : x ≠ y := fun h => by
    have hspares := congrArg Prod.snd (h.trans (hinner hport))
    simp only at hspares
    omega
  obtain ⟨v, hv, hvc⟩ := hevents (x, y) hpair hne
  exact ⟨v, hfollow.mem_held hv, hvc⟩

/-- A link that has failed eight times: its lanes, its keys and its events (R373, R374). -/
theorem linkRetrain_result {s : State} {l : Nat} {dir : Bool} (hruns : s.linkRuns l dir = true) (bad : List Nat) (ok : Bool)
    (hattempts : 8 ≤ (s.link l dir).attempts) :
    let d := s.link l dir
    let room : Prop := ∀ i x, d.mods[i]? = some x → LaneRoom l x (bad.count i)
    ∃ (t : State) (e : Event), exec (.linkRetrain l dir bad ok) s = .next t ∧
      t.evq.held[s.evq.held.length]? = some e ∧ e.code = 0xA0 ∧ e.w3 = BitVec.ofNat 64 l ∧ t.mem = s.mem ∧
      t.chans = s.chans ∧ t.tiles = s.tiles ∧ (t.link l dir).txTab = d.txTab ∧ (t.link l dir).rxTab = d.rxTab ∧
      (t.link l dir).txKey = d.txKey ∧ (t.link l dir).retrains = d.retrains + 1 ∧
      (room → (ok = true ∨ d.failedTrains < 3) → (t.link l dir).up = d.up) ∧
      (room → (t.link l dir).failedTrains = (if ok then 0 else d.failedTrains + 1) ∧
        ∀ i x, d.mods[i]? = some x →
          (isPort l = false → (t.link l dir).mods[i]? = some (x.1, x.2 + bad.count i)) ∧
          (isPort l = true → (t.link l dir).mods[i]? =
            some (let n := x.2 + (4 - x.1) + bad.count i; if n ≤ 1 then (4, n) else (3, 1))) ∧
          (0 < bad.count i → isPort l = false →
            ∃ v ∈ t.evq.held, v.code = 0xA2 ∧ v.w3.extractLsb' 0 8 = BitVec.ofNat 8 l)) ∧
      (¬room ∨ (ok = false ∧ 3 ≤ d.failedTrains) → (t.link l true).up = false ∧ (t.link l false).up = false ∧
        ∃ x ∈ t.evq.held, x.code = 0xA1) := by
  dsimp only
  obtain ⟨e, hheld, hcode, hw3, hmem, hchans, htiles⟩ := s.retrainSeen_follow l dir
  have hfirst {t : State} (h : EventsFollow (s.retrainSeen l dir) t) : t.evq.held[s.evq.held.length]? = some e := by
    obtain ⟨es, hes⟩ := h.held
    rw [hes, hheld]
    simp
  have hdown (u : State) : ((u.linkDown l).link l true).up = false ∧ ((u.linkDown l).link l false).up = false := by
    rw [State.linkDown_link, State.linkDown_link]
    exact ⟨rfl, rfl⟩
  cases hmods : spareMods l (s.link l dir).mods bad with
  | none =>
    have hnoroom := spareMods_none hmods
    obtain ⟨hfollow, hevent⟩ := State.linkDown_follow ((s.retrainSeen l dir).setLink l dir
      { s.link l dir with retrains := (s.link l dir).retrains + 1 }) l
    have hfollow' := (EventsFollow.setLink (s.retrainSeen l dir) l dir
      { s.link l dir with retrains := (s.link l dir).retrains + 1 }).trans hfollow
    refine ⟨_, e, linkRetrain_lost bad hruns hattempts hmods, hfirst hfollow', hcode, hw3, hfollow'.mem.trans hmem,
      hfollow'.chans.trans hchans, hfollow'.tiles.trans htiles, ?_⟩
    obtain ⟨hup, hup'⟩ := hdown ((s.retrainSeen l dir).setLink l dir
      { s.link l dir with retrains := (s.link l dir).retrains + 1 })
    rw [State.linkDown_link, State.link_setLink]
    exact ⟨rfl, rfl, rfl, rfl, fun h => absurd h hnoroom, fun h => absurd h hnoroom, fun _ => ⟨hup, hup', hevent⟩⟩
  | some mods =>
    have hroom : ∀ i x, (s.link l dir).mods[i]? = some x → LaneRoom l x (bad.count i) := fun i x hx => by
      obtain ⟨-, -, hroom, -⟩ := spareMods_some hmods hx
      exact hroom
    obtain ⟨hfollow, hlink, -⟩ := s.lanesMapped_result l dir ok mods
    have hnext := linkRetrain_mapped bad hruns hattempts (ok := ok) hmods
    by_cases hfour : 4 ≤ ((s.link l dir).retrained l dir ok mods).failedTrains
    · rw [if_pos hfour] at hnext
      obtain ⟨hdowned, hevent⟩ := (s.lanesMapped l dir ok mods).linkDown_follow l
      have hfollow' := hfollow.trans hdowned
      have hlink' := (s.lanesMapped l dir ok mods).linkDown_link l dir
      rw [hlink] at hlink'
      refine ⟨_, e, hnext, hfirst hfollow', hcode, hw3, hfollow'.mem.trans hmem, hfollow'.chans.trans hchans,
        hfollow'.tiles.trans htiles, (congrArg LinkDir.txTab hlink' :), (congrArg LinkDir.rxTab hlink' :),
        (congrArg LinkDir.txKey hlink' :), (congrArg LinkDir.retrains hlink' :), fun _ hgood => ?_,
        fun _ => ⟨(congrArg LinkDir.failedTrains hlink' :), fun i x =>
          s.lanesMapped_modules ok hmods (congrArg LinkDir.mods hlink' :) hdowned⟩,
        fun _ => ⟨(hdown _).1, (hdown _).2, hevent⟩⟩
      simp only [LinkDir.retrained] at hfour
      split at hfour
      · omega
      · rename_i hok
        have := hgood.resolve_left hok
        omega
    · rw [if_neg hfour] at hnext
      refine ⟨_, e, hnext, hfirst hfollow, hcode, hw3, hfollow.mem.trans hmem, hfollow.chans.trans hchans,
        hfollow.tiles.trans htiles, (congrArg LinkDir.txTab hlink :), (congrArg LinkDir.rxTab hlink :),
        (congrArg LinkDir.txKey hlink :), (congrArg LinkDir.retrains hlink :), fun _ _ => (congrArg LinkDir.up hlink :),
        fun _ => ⟨(congrArg LinkDir.failedTrains hlink :), fun i x =>
          s.lanesMapped_modules ok hmods (congrArg LinkDir.mods hlink :) (.refl _)⟩, fun hbad => ?_⟩
      rcases hbad with hbad | ⟨hok, hthree⟩
      · exact absurd hroom hbad
      · simp only [LinkDir.retrained, hok, Bool.false_eq_true, if_false] at hfour
        omega

end Sys2Proof.Machine

/-! ### Key rollovers, and a link from reset (R381, R400, R401) -/

namespace Sys2Proof.Machine

open Sys2Proof

theorem exec_keyInstall (l : Nat) (dir : Bool) (s : State) : exec (.keyInstall l dir) s = execKeyInstall l dir s := rfl

theorem exec_keySwitch (l : Nat) (dir : Bool) (s : State) : exec (.keySwitch l dir) s = execKeySwitch l dir s := rfl

theorem exec_keyRetire (l : Nat) (dir tx : Bool) (s : State) : exec (.keyRetire l dir tx) s = execKeyRetire l dir tx s := rfl

section Keys

variable {s : State} {l : Nat} {dir : Bool} (hruns : s.linkRuns l dir = true)
include hruns

theorem keyInstall_installs (hnext : (s.link l dir).rxNext = none) (hold : (s.link l dir).txOld = none)
    (hacked : (s.link l dir).acked = false) :
    ∃ t, exec (.keyInstall l dir) s = .next t ∧ t.mem = s.mem ∧ t.chans = s.chans ∧
      (t.link l dir).rxNext = some ((s.link l dir).rxKey + 1) ∧ (t.link l dir).rxKey = (s.link l dir).rxKey ∧
      (t.link l dir).acked = true ∧ (t.link l dir).txKey = (s.link l dir).txKey := by
  rw [exec_keyInstall, execKeyInstall]
  simp only [hruns, hnext, hold, hacked, Bool.not_true, Option.isSome_none, Bool.or_self, Bool.false_eq_true, if_false]
  refine ⟨_, rfl, rfl, rfl, ?_⟩
  rw [State.link_setLink]
  exact ⟨rfl, rfl, rfl, rfl⟩

omit hruns in
theorem keyInstall_waits
    (h : (s.link l dir).rxNext ≠ none ∨ (s.link l dir).txOld ≠ none ∨ (s.link l dir).acked = true) :
    exec (.keyInstall l dir) s = .next s := by
  rw [exec_keyInstall, execKeyInstall]
  refine if_pos ?_
  rcases h with h | h | h
  · simp [Option.isSome_iff_ne_none.mpr h]
  · simp [Option.isSome_iff_ne_none.mpr h]
  · simp [h]

theorem keySwitch_switches (hacked : (s.link l dir).acked = true) (hport : isPort l = false ∨ dir = false) :
    ∃ t, exec (.keySwitch l dir) s = .next t ∧ t.mem = s.mem ∧ t.chans = s.chans ∧
      (t.link l dir).txKp = (!(s.link l dir).txKp) ∧ (t.link l dir).txKey = (s.link l dir).txKey + 1 ∧
      (t.link l dir).txOld = some (s.link l dir).txKey ∧ (t.link l dir).window = (s.link l dir).window ∧
      (t.link l dir).wire = (s.link l dir).wire ∧ (t.link l dir).switchAt = some (s.link l dir).fseq ∧
      (t.link l dir).used = 0 := by
  have hout : (isPort l && dir) = false := by rcases hport with h | h <;> simp [h]
  rw [exec_keySwitch, execKeySwitch]
  simp only [hruns, hacked, hout, Bool.not_true, Bool.or_self, Bool.false_eq_true, if_false]
  refine ⟨_, rfl, rfl, rfl, ?_⟩
  rw [State.link_setLink]
  exact ⟨rfl, rfl, rfl, rfl, rfl, rfl, rfl⟩

omit hruns in
theorem keySwitch_waits (h : (s.link l dir).acked = false ∨ isPort l = true ∧ dir = true) :
    exec (.keySwitch l dir) s = .next s := by
  rw [exec_keySwitch, execKeySwitch]
  refine if_pos ?_
  rcases h with h | ⟨h, hd⟩
  · simp [h]
  · simp [h, hd]

theorem keyRetire_next (tx : Bool) : exec (.keyRetire l dir tx) s =
    if (if tx then (s.link l dir).txPast else (s.link l dir).rxPast) = false then .next s
    else if tx then .next (s.setLink l dir { s.link l dir with
      txOld := none
      switchAt := if (s.link l dir).rxNext.isNone then none else (s.link l dir).switchAt })
    else .next (s.setLink l dir { s.link l dir with
      rxKey := (s.link l dir).rxNext.getD (s.link l dir).rxKey
      rxNext := none
      rxKp := !(s.link l dir).rxKp
      acked := (s.link l dir).acked && !(isPort l && dir)
      switchAt := if (s.link l dir).txOld.isNone then none else (s.link l dir).switchAt }) := by
  rw [exec_keyRetire, execKeyRetire]
  simp only [hruns, Bool.not_true, Bool.false_or, Bool.not_eq_true']

variable {n : BitVec 16} (hn : (s.link l dir).switchAt = some n)
include hn

theorem keyRetire_rx_early (h : (s.link l dir).expect = n) : exec (.keyRetire l dir false) s = .next s := by
  have hpast : (s.link l dir).rxPast = false := by simp [LinkDir.rxPast, hn, h, -BitVec.toNat_sub]
  rw [keyRetire_next hruns, if_neg Bool.false_ne_true, if_pos hpast]

theorem keyRetire_tx_early (h : (s.link l dir).aseq + 1 = n) : exec (.keyRetire l dir true) s = .next s := by
  have hlast : (s.link l dir).aseq - n = 0xFFFF := by
    rw [← h]
    generalize (s.link l dir).aseq = a
    bv_omega
  have hpast : (s.link l dir).txPast = false := by simp [LinkDir.txPast, hn, hlast, -BitVec.toNat_sub]
  rw [keyRetire_next hruns, if_pos rfl, if_pos hpast]

theorem keyRetire_tx (h : (s.link l dir).aseq = n) (hold : (s.link l dir).txOld ≠ none) :
    ∃ t, exec (.keyRetire l dir true) s = .next t ∧ t.mem = s.mem ∧ t.chans = s.chans ∧ (t.link l dir).txOld = none ∧
      (t.link l dir).txKey = (s.link l dir).txKey := by
  have hpast : (s.link l dir).txPast = true := by simp [LinkDir.txPast, hn, h, Option.isSome_iff_ne_none.mpr hold, -BitVec.toNat_sub]
  rw [keyRetire_next hruns, if_pos rfl, if_neg (by simp [hpast]), if_pos rfl]
  refine ⟨_, rfl, rfl, rfl, ?_⟩
  rw [State.link_setLink]
  exact ⟨rfl, rfl⟩

theorem keyRetire_rx (h : (s.link l dir).expect = n + 1) {k : Nat} (hk : (s.link l dir).rxNext = some k) :
    ∃ t, exec (.keyRetire l dir false) s = .next t ∧ t.mem = s.mem ∧ t.chans = s.chans ∧ (t.link l dir).rxKey = k ∧
      (t.link l dir).rxNext = none ∧ (t.link l dir).rxKp = !(s.link l dir).rxKp := by
  have hpast : (s.link l dir).rxPast = true := by simp [LinkDir.rxPast, hn, h, hk, -BitVec.toNat_sub]
  rw [keyRetire_next hruns, if_neg Bool.false_ne_true, if_neg (by simp [hpast]), if_neg Bool.false_ne_true]
  refine ⟨_, rfl, rfl, rfl, ?_⟩
  rw [State.link_setLink]
  exact ⟨congrArg (Option.getD · _) hk, rfl, rfl⟩

end Keys

/-- A direction that is down starts from reset; the other one is left to its own (R381). -/
def State.upAgain (s : State) (l : Nat) (dir : Bool) : State :=
  if (s.link l dir).up then s else s.setLink l dir (s.link l dir).restart

theorem State.upAgain_result (s : State) (l : Nat) (dir : Bool) :
    EventsFollow s (s.upAgain l dir) ∧ (s.upAgain l dir).link l (!dir) = s.link l (!dir) ∧
      ((s.link l dir).up = false → (s.upAgain l dir).link l dir = (s.link l dir).restart) := by
  unfold State.upAgain
  split
  · rename_i h
    exact ⟨.refl s, rfl, fun h' => nomatch h.symm.trans h'⟩
  · exact ⟨EventsFollow.setLink .., State.link_setLink_ne _ _ (opposite_ne' l dir), fun _ => State.link_setLink ..⟩

theorem linkUp_next {s : State} {l : Nat} (h : flitLink l = true) :
    exec (.linkUp l) s = .next ((s.upAgain l false).upAgain l true) := by
  rw [exec_linkUp, execLinkUp]
  simp only [h, if_true]
  rfl

theorem freshTab_get {i : Nat} (h : i < 16) : freshTab[i]? = some (-(i : Int)) := by
  unfold freshTab
  rw [List.getElem?_map, List.getElem?_range h]
  rfl

theorem linkUp_restarts {s : State} {l : Nat} {dir : Bool} (hflit : flitLink l = true) (hdown : (s.link l dir).up = false) :
    ∃ t, exec (.linkUp l) s = .next t ∧ t.mem = s.mem ∧ t.chans = s.chans ∧ t.tiles = s.tiles ∧
      t.link l dir = (s.link l dir).restart := by
  obtain ⟨hfollow, hother, hhere⟩ := s.upAgain_result l false
  obtain ⟨hfollow', hother', hhere'⟩ := (s.upAgain l false).upAgain_result l true
  have hboth := hfollow.trans hfollow'
  refine ⟨_, linkUp_next hflit, hboth.mem, hboth.chans, hboth.tiles, ?_⟩
  cases dir with
  | false => exact hother'.trans (hhere hdown)
  | true =>
    have hstill : (s.upAgain l false).link l true = s.link l true := hother
    rw [hstill] at hhere'
    exact hhere' hdown

end Sys2Proof.Machine

/-! ### XMAP and CXL ports (R375, R376, R384) -/

namespace Sys2Proof.Machine

open Sys2Proof

theorem exec_xmapWrite (e : Fin 1024) (hi : Bool) (v : Word) (s : State) :
    exec (.xmapWrite e hi v) s = execXmapWrite e hi v s := rfl

theorem exec_cxlDown (p : Fin 8) (s : State) : exec (.cxlDown p) s = execCxlDown p s := rfl

theorem exec_cxlPortReturn (p : Fin 8) (s : State) : exec (.cxlPortReturn p) s = execCxlPortReturn p s := rfl

/-! #### What the stores of speculation circuits leave (R332, R378) -/

/-- Memory, tiles and XMAP stand, and no store of a circuit fills. -/
structure StoresDrain (s t : State) : Prop where
  mem : t.mem = s.mem
  tiles : t.tiles = s.tiles
  xmap : t.xmap = s.xmap
  stores : ∀ e, Tab.get? s.stores e = none → Tab.get? t.stores e = none

namespace StoresDrain

theorem refl (s : State) : StoresDrain s s := ⟨rfl, rfl, rfl, fun _ h => h⟩

theorem trans {s t u : State} (h : StoresDrain s t) (h' : StoresDrain t u) : StoresDrain s u :=
  ⟨h'.mem.trans h.mem, h'.tiles.trans h.tiles, h'.xmap.trans h.xmap, fun e he => h'.stores e (h.stores e he)⟩

theorem of_same {s t : State} (hmem : t.mem = s.mem) (htiles : t.tiles = s.tiles) (hxmap : t.xmap = s.xmap)
    (hstores : t.stores = s.stores) : StoresDrain s t :=
  ⟨hmem, htiles, hxmap, fun e h => by rw [hstores, h]⟩

theorem foldl {α : Type} {g : State → α → State} (hg : ∀ s x, StoresDrain s (g s x)) (xs : List α) (s : State) :
    StoresDrain s (xs.foldl g s) := by
  induction xs generalizing s with
  | nil => exact refl s
  | cons x xs ih => exact (hg s x).trans (ih _)

theorem storeCredit (s : State) (e n : Nat) : StoresDrain s (s.storeCredit e n) := by
  unfold State.storeCredit
  dsimp only
  split
  · exact refl s
  · exact of_same rfl rfl rfl rfl

/-- The kernel cannot evaluate `msgBits t`, on which the kind is matched, so it is named before the definition is
unfolded. -/
theorem takeHomeMsg (s : State) (lseq : Nat) (t : Tok) : StoresDrain s (s.takeHomeMsg lseq t) := by
  obtain ⟨f, hf⟩ : ∃ f, f = State.takeHomeMsg := ⟨_, rfl⟩
  obtain ⟨bits, hbits⟩ : ∃ bits, bits = msgBits := ⟨_, rfl⟩
  rw [← hf]
  delta State.takeHomeMsg at hf
  rw [← hbits] at hf
  subst hf
  dsimp only
  split <;> exact of_same rfl rfl rfl rfl

theorem takePeerReq (s : State) (d : Domain) (t : Tok) : StoresDrain s (s.takePeerReq d t) := by
  unfold State.takePeerReq
  dsimp only
  split
  · exact of_same rfl rfl rfl rfl
  · exact refl s

theorem takeSpec {s s1 : State} {node : Nat} {t : Tok} (h : s.takeSpec node t = some s1) : StoresDrain s s1 := by
  unfold State.takeSpec at h
  split at h
  · split at h <;> cases h
    exact takeHomeMsg ..
  · split at h <;> cases h
    exact of_same rfl rfl rfl rfl
  · split at h <;> cases h
    generalize s.root.domain = dom
    cases dom with
    | none => exact refl s
    | some d => exact takePeerReq s d t
  · cases h

/-- The store that a token leaves was not empty. -/
theorem setStores {s s1 : State} {e : Nat} (h : StoresDrain s s1) (hfull : Tab.get? s.stores e ≠ none) (its : List Item) :
    StoresDrain s { s1 with stores := Tab.set s1.stores e its } := by
  refine ⟨h.mem, h.tiles, h.xmap, fun j hj => ?_⟩
  have hne : j ≠ e := fun heq => hfull (heq ▸ hj)
  exact (Tab.get?_set_ne _ _ hne).trans (h.stores j hj)

theorem specStore (s : State) (e n : Nat) : StoresDrain s (s.specStore e n) := by
  induction n generalizing s with
  | zero => exact refl s
  | succ n ih =>
    have hfull {x : Item} {rest : List Item} (h : Tab.get s.stores e [] = x :: rest) : Tab.get? s.stores e ≠ none := by
      intro hnone
      rw [Tab.get, hnone] at h
      cases h
    unfold State.specStore
    split
    case h_1 heq =>
      split
      case h_1 hs =>
        exact ((setStores (takeSpec hs) (hfull heq) _).trans (storeCredit _ e 1)).trans (ih _)
      case h_2 => exact refl s
    case h_2 heq => exact (setStores (refl s) (hfull heq) _).trans (ih _)
    case h_3 => exact refl s

theorem serveSpec (s : State) : StoresDrain s s.serveSpec := foldl (fun s _ => specStore s _ _) _ s

theorem servePeers (s : State) : StoresDrain s s.servePeers := by
  unfold State.servePeers
  dsimp only
  refine trans ?_ (foldl (fun s p => ?_) _ _)
  · exact of_same rfl rfl rfl rfl
  · exact of_same rfl rfl rfl rfl

end StoresDrain

end Sys2Proof.Machine

/-! #### A write to an entry, and the CXL ports -/

namespace Sys2Proof.Machine

open Sys2Proof

/-- A word cut above its low 28 bits. -/
theorem and_high28 (v : Word) : v &&& ~~~w64 (2 ^ 28 - 1) = (v >>> 28) <<< 28 := by
  refine BitVec.eq_of_getLsbD_eq fun i hi => ?_
  rw [BitVec.getLsbD_and, BitVec.getLsbD_not, BitVec.getLsbD_shiftLeft, BitVec.getLsbD_ushiftRight, w64,
    BitVec.getLsbD_ofNat, Nat.testBit_two_pow_sub_one]
  by_cases h : i < 28
  · simp [h, hi]
  · rw [show 28 + (i - 28) = i by omega]
    simp [h, hi]

/-- An entry of XMAP once one of its words is written (R375). -/
def State.xmapNew (s : State) (e : Nat) (hi : Bool) (v : Word) : Word × Word :=
  (if hi then (Tab.get s.xmap e (0, 0)).1 else v, if hi then (v >>> 28) <<< 28 else (Tab.get s.xmap e (0, 0)).2)

/-- A write to XMAP is refused: the job of the entry runs, or a field or the depth of the port is too large (R375). -/
def State.xmapRefuses (s : State) (e : Nat) (new : Word × Word) : Bool :=
  let old := Tab.get s.xmap e (0, 0)
  (bit old.1 63 && s.jobBusy (fld old.1 61 56)) || (bit new.1 63 && s.jobBusy (fld new.1 61 56)) || !xmapOk new ||
    decide (16384 < depthSum (Tab.set s.xmap e new) (fld new.1 55 48))

theorem xmapWrite_next (s : State) (e : Fin 1024) (hi : Bool) (v : Word) : exec (.xmapWrite e hi v) s =
    let old := Tab.get s.xmap e.val (0, 0)
    let new := s.xmapNew e.val hi v
    let s1 := { s with xmap := Tab.set s.xmap e.val new }
    if s.xmapRefuses e.val new then .next s
    else .next (if bit old.1 63 && !bit new.1 63 then s1.xmapEnd e.val old
      else if !bit old.1 63 && bit new.1 63 then s1.xmapBegin e.val new else s1).servePeers.serveSpec := by
  rw [exec_xmapWrite, execXmapWrite]
  simp only [State.xmapRefuses, State.xmapNew, Bool.or_eq_true, decide_eq_true_eq, ← and_high28]
  cases hi <;> rfl

theorem State.not_jobBusy {s : State} {job : Nat} (h : ∀ x ∈ s.launches, x.2.job = job → x.2.st = .retired) :
    s.jobBusy job = false := by
  rw [State.jobBusy, List.any_eq_false]
  intro x hx
  by_cases hj : x.2.job = job
  · simp [h x hx hj]
  · simp [hj]

theorem State.jobBusy_of {s : State} {n : Nat} {l : Launch} (h : (n, l) ∈ s.launches) (hst : l.st ≠ .retired) :
    s.jobBusy l.job = true := by
  rw [State.jobBusy, List.any_eq_true]
  exact ⟨_, h, by simp [hst]⟩

theorem fld_port (w : Word) : fld w 55 48 = (w.extractLsb' 48 8).toNat := fld_extract w 55 48 (by omega)

theorem fld_job (w : Word) : fld w 61 56 = (w.extractLsb' 56 6).toNat := fld_extract w 61 56 (by omega)

theorem fld_depth (w : Word) : fld w 41 29 = (w.extractLsb' 29 13).toNat := fld_extract w 41 29 (by omega)

/-- The depth of an entry is above the bits that a write to its high word drops. -/
theorem depth_high28 (v : Word) : ((v >>> 28) <<< 28).extractLsb' 29 13 = v.extractLsb' 29 13 := by
  refine BitVec.eq_of_getLsbD_eq fun i hi => ?_
  rw [BitVec.getLsbD_extractLsb', BitVec.getLsbD_extractLsb', BitVec.getLsbD_shiftLeft, BitVec.getLsbD_ushiftRight]
  rw [show 28 + (29 + i - 28) = 29 + i by omega]
  simp [hi, show 29 + i < 64 by omega, show ¬29 + i < 28 by omega]

section Xmap

variable {s : State} (e : Fin 1024) (hi : Bool) (v : Word)

theorem State.xmapNew_depth : (s.xmapNew e.val hi v).2.extractLsb' 29 13 =
    (if hi then v else (Tab.get s.xmap e.val (0, 0)).2).extractLsb' 29 13 := by
  cases hi
  · rfl
  · exact depth_high28 v

theorem xmapWrite_port (h : 35 < ((s.xmapNew e.val hi v).1.extractLsb' 48 8).toNat) :
    exec (.xmapWrite e hi v) s = .next s := by
  rw [← fld_port] at h
  have hbad : xmapOk (s.xmapNew e.val hi v) = false := by simp [xmapOk, Nat.not_le.mpr h]
  rw [xmapWrite_next]
  refine if_pos ?_
  simp only [State.xmapRefuses, hbad, Bool.not_false, Bool.or_true, Bool.true_or]

theorem xmapWrite_busy {n : Nat} {l : Launch} (hl : (n, l) ∈ s.launches) (hst : l.st ≠ .retired)
    (hjob : l.job = ((s.xmapNew e.val hi v).1.extractLsb' 56 6).toNat) (hvalid : (s.xmapNew e.val hi v).1.getLsbD 63 = true) :
    exec (.xmapWrite e hi v) s = .next s := by
  have hbusy := State.jobBusy_of hl hst
  rw [hjob, ← fld_job] at hbusy
  rw [xmapWrite_next]
  refine if_pos ?_
  simp only [State.xmapRefuses, show bit (s.xmapNew e.val hi v).1 63 = true from hvalid, hbusy, Bool.and_self, Bool.or_true,
    Bool.true_or]

/-- A field of an entry that is not valid is taken, and nothing begins or ends. -/
theorem xmapWrite_invalid (hnew : (s.xmapNew e.val hi v).1.getLsbD 63 = false)
    (hold : (Tab.get s.xmap e.val (0, 0)).1.getLsbD 63 = false)
    (hport : ((s.xmapNew e.val hi v).1.extractLsb' 48 8).toNat ≤ 35)
    (hmul : ((s.xmapNew e.val hi v).2.extractLsb' 29 13).toNat % 16 = 0)
    (hdepth : ((s.xmapNew e.val hi v).2.extractLsb' 29 13).toNat ≤ 4096)
    (hsum : depthSum (Tab.set s.xmap e.val (s.xmapNew e.val hi v)) ((s.xmapNew e.val hi v).1.extractLsb' 48 8).toNat ≤
      16384) :
    ∃ t, exec (.xmapWrite e hi v) s = .next t ∧ t.mem = s.mem ∧ t.tiles = s.tiles ∧
      Tab.get t.xmap e.val (0, 0) = s.xmapNew e.val hi v := by
  have hnew' : bit (s.xmapNew e.val hi v).1 63 = false := hnew
  have hold' : bit (Tab.get s.xmap e.val (0, 0)).1 63 = false := hold
  have htaken : s.xmapRefuses e.val (s.xmapNew e.val hi v) = false := by
    rw [← fld_port] at hport hsum
    rw [← fld_depth] at hmul hdepth
    have hok : xmapOk (s.xmapNew e.val hi v) = true := by simp [xmapOk, hnew', hport, hmul, hdepth]
    simp only [State.xmapRefuses, hold', hnew', hok, Bool.false_and, Bool.not_true, Bool.or_self, Bool.false_or,
      decide_eq_false_iff_not]
    exact Nat.not_lt.mpr hsum
  have hdrain := (StoresDrain.servePeers { s with xmap := Tab.set s.xmap e.val (s.xmapNew e.val hi v) }).trans
    (StoresDrain.serveSpec _)
  rw [xmapWrite_next]
  simp only [htaken, hold', hnew', Bool.false_eq_true, if_false, Bool.not_false, Bool.and_false, Bool.and_true]
  refine ⟨_, rfl, hdrain.mem, hdrain.tiles, ?_⟩
  rw [hdrain.xmap]
  exact Tab.get_set_self ..

/-- An entry that is cleared loses its store. -/
theorem xmapWrite_clears (hvalid : (Tab.get s.xmap e.val (0, 0)).1.getLsbD 63 = true)
    (hidle : ∀ x ∈ s.launches, x.2.job = ((Tab.get s.xmap e.val (0, 0)).1.extractLsb' 56 6).toNat → x.2.st = .retired)
    (hhigh : (Tab.get s.xmap e.val (0, 0)).2 = 0) (hsum : depthSum (Tab.set s.xmap e.val (0, 0)) 0 ≤ 16384) :
    ∃ t, exec (.xmapWrite e false 0) s = .next t ∧ t.mem = s.mem ∧ Tab.get? t.stores e.val = none := by
  have hnew : s.xmapNew e.val false 0 = (0, 0) := congrArg (Prod.mk 0) hhigh
  have hfree := State.not_jobBusy hidle
  rw [← fld_job] at hfree
  have htaken : s.xmapRefuses e.val (0, 0) = false := by
    have hok : xmapOk (0, 0) = true := by decide
    have hport : fld (0 : Word) 55 48 = 0 := by decide
    have hbit : bit (0 : Word) 63 = false := by decide
    simp only [State.xmapRefuses, hfree, hok, hport, hbit, Bool.and_false, Bool.false_and, Bool.not_true, Bool.or_self,
      Bool.false_or, decide_eq_false_iff_not]
    exact Nat.not_lt.mpr hsum
  have hdrain := (StoresDrain.servePeers (({ s with xmap := Tab.set s.xmap e.val (0, 0) } : State).xmapEnd e.val
    (Tab.get s.xmap e.val (0, 0)))).trans (StoresDrain.serveSpec _)
  refine ⟨_, ?_, hdrain.mem, hdrain.stores _ (Tab.get?_del_self ..)⟩
  rw [xmapWrite_next, hnew]
  dsimp only
  rw [htaken, show bit (Tab.get s.xmap e.val (0, 0)).1 63 = true from hvalid, show bit (0 : Word) 63 = false from by decide]
  rfl

end Xmap

theorem cxlDown_reports {s : State} {p : Fin 8} (h : p.val ∉ s.trust.cxlDown) :
    ∃ (t : State) (x : Event), exec (.cxlDown p) s = .next t ∧ t.evq.held = s.evq.held ++ [x] ∧ x.code = 0xA4 ∧
      x.w3 = BitVec.ofNat 64 (64 + p.val) ∧ p.val ∈ t.trust.cxlDown ∧ t.mem = s.mem ∧ t.tiles = s.tiles := by
  rw [exec_cxlDown, execCxlDown, if_neg (by simpa using h)]
  exact ⟨_, _, rfl, rfl, rfl, rfl, (mem_putNat _ _ _).mpr (.inr rfl), rfl, rfl⟩

theorem cxlPortReturn_returns (s : State) (p : Fin 8) :
    ∃ t, exec (.cxlPortReturn p) s = .next t ∧ t.mem = s.mem ∧ t.tiles = s.tiles ∧ t.evq = s.evq ∧
      (natsFrom 0 s.trust.cxlDown = true → p.val ∉ t.trust.cxlDown) ∧
      ∀ q, q ≠ p.val → (q ∈ t.trust.cxlDown ↔ q ∈ s.trust.cxlDown) := by
  refine ⟨_, rfl, rfl, rfl, rfl, fun hsorted hmem => ?_, fun q hq => mem_delNat_of_ne hq⟩
  have hgone := contains_delNat p.val hsorted
  rw [← Bool.not_eq_true, List.contains_iff_mem] at hgone
  exact hgone hmem

/-- Settles O54, part by part: flits by `flitReceive_accepts` and `flitReceive_discards`, retrains by `linkRetrain_result`,
key rollovers by `keyRetire_next`, XMAP by `xmapWrite_next`. -/
theorem links : Obligations.Links := by
  intro s
  refine ⟨fun l dir hruns => ⟨fun f rest hport hwire htype => ⟨fun xs hsegs hseq hopens => ?_, fun ok hbad => ?_⟩,
      fun aseq => ⟨fun q rest hport hwire htype haseq hattempts => ?_, fun hport hdir hattempts => ?_⟩,
      fun bad ok hattempts => linkRetrain_result hruns bad ok hattempts, keyInstall_installs hruns, keyInstall_waits,
      keySwitch_switches hruns, keySwitch_waits, fun n hn => ⟨keyRetire_rx_early hruns hn, keyRetire_tx_early hruns hn,
        keyRetire_tx hruns hn, fun h k hk => keyRetire_rx hruns hn h hk⟩⟩,
    fun l dir hflit hdown => ?_,
    fun e hi v => ⟨xmapWrite_port e hi v, fun ⟨n, l, hl, hst, hjob⟩ hvalid => xmapWrite_busy e hi v hl hst hjob hvalid,
      fun hnew hold hport hmul hdepth hsum => ?_, fun hhi hvalid hv hidle hhigh hsum => xmapWrite_clears e hvalid hidle hhigh hsum⟩,
    fun p => ⟨cxlDown_reports, cxlPortReturn_returns s p⟩⟩
  · exact flitReceive_accepts hruns hport hwire htype xs hsegs hseq hopens
  · exact flitReceive_discards hruns hport hwire htype ok hbad
  · subst haseq
    exact retryRequest_replays hruns hport hwire htype hattempts
  · subst hdir
    exact retryRequest_port hruns hport aseq hattempts
  · obtain ⟨t, hexec, hmem, hchans, htiles, hlink⟩ := linkUp_restarts hflit hdown
    refine ⟨t, hexec, hmem, hchans, htiles, ?_⟩
    rw [hlink]
    exact ⟨rfl, rfl, rfl, rfl, rfl, fun i hi => ⟨freshTab_get hi, freshTab_get hi⟩⟩
  · rw [← State.xmapNew_depth] at hmul hdepth
    exact xmapWrite_invalid e hi v hnew hold hport hmul hdepth hsum

end Sys2Proof.Machine

/-! ## A frame that is not in order, on a launch table out of key order (R31, R32, R352) -/

namespace Sys2Proof.Machine

open Sys2Proof

/-- Block 0 of launch 3 of `outOfOrder`, which frame 0 holds. -/
def spoiltBlock : Block := { headlessBlock with saved := some 0 }

/-- A region of one tile that has armed the block. -/
def spoiltRegion : Region := { headlessRegion with armed := some 768, loading := none }

/-- The frame of the block. -/
def spoiltFrame : Saved := ⟨768, 0, [], State.reset.mem, 0⟩

/-- The device `outOfOrder`, whose table lists launch 5 before launch 3, with the block saved in frame 0, of which the first word
is poisoned. -/
def spoiltSave : State :=
  { outOfOrder with
    mem := { outOfOrder.mem with poison := [2 ^ 20] }
    regions := [(0, spoiltRegion)]
    blocks := [(768, spoiltBlock)]
    frames := [(0, spoiltFrame)] }

/-- The block cannot be restored. Its launch is cancelled with cause 0x98, and the write of its entry leaves the old one behind
launch 5, where the cascade of R32 finds it accepted and awaiting cancelled work, and retires key 3 once more. With its two
launches in key order the same device gives 0x98. -/
theorem spoiltSave_cause :
    ∃ t, exec (.restoreBlock 0) spoiltSave = .next t ∧
      (Tab.get? t.launches 3).map (·.cause) = some (some 0xFFFE) := by
  refine ⟨_, rfl, ?_⟩
  decide +kernel

/-- Refutes O52: the statement ranges over launch tables whose keys do not rise, and on `spoiltSave` a block whose frame is not
in order has its launch cancelled with CAUSE 0xFFFE, where the statement has 0x98. -/
theorem not_interruption : ¬Obligations.Interruption := by
  unfold Obligations.Interruption
  intro h
  obtain ⟨-, hrestore, -⟩ := h spoiltSave
  obtain ⟨-, hbad⟩ := hrestore 0 768 0 spoiltRegion spoiltBlock spoiltFrame rfl (by decide +kernel) rfl rfl rfl
  obtain ⟨t, y, ht, -, hy, -, hcause⟩ := hbad awaitingLaunch (by decide +kernel) rfl (by decide)
  obtain ⟨t', ht', hfffe⟩ := spoiltSave_cause
  obtain rfl : t = t' := Host.Outcome.next.inj (ht.symm.trans ht')
  have hy3 : Tab.get? t.launches 3 = some y := hy
  rw [hy3, Option.map_some, hcause] at hfffe
  exact absurd hfffe (by decide)

end Sys2Proof.Machine

/-! ## Messages at their endpoints (R311, R312, R323, R324, R326) -/

namespace Sys2Proof.Machine

open Sys2Proof

theorem exec_msgLaunch (e : Endpoint) (s : State) : exec (.msgLaunch e) s = .next (s.takeMsg e .launch) := rfl

theorem exec_msgRatify (e : Endpoint) (s : State) : exec (.msgRatify e) s = .next (s.takeMsg e .ratify) := rfl

theorem exec_msgSquash (e : Endpoint) (s : State) : exec (.msgSquash e) s = .next (s.takeMsg e .squash) := rfl

theorem exec_msgFree (e : Endpoint) (s : State) : exec (.msgFree e) s = .next (s.takeMsg e .free) := rfl

theorem exec_squashMarker (ch : Nat) (s : State) : exec (.squashMarker ch) s = execSquashMarker ch s := rfl

theorem exec_freeComplete (n : Nat) (s : State) : exec (.freeComplete n) s = execFreeComplete n s := rfl

theorem State.takeMsg_applies {s : State} {e : Endpoint} {m : Msg} (h : s.nextMsg e = some m) :
    s.takeMsg e m.kind = s.applyMsg e (s.seqOf e + 1) m := by
  rw [State.takeMsg, h]
  exact if_pos rfl

theorem State.epAt_setEp (s : State) (e : Endpoint) (n : Nat) : (s.setEp e n).epAt e = n := by
  simp [State.epAt, State.setEp]

/-! ### A die's mirror -/

theorem State.applyMsg_mirror (s : State) (d n : Nat) (m : Msg) :
    (s.applyMsg (.mirror d) n m).seqOf (.mirror d) = n ∧
      ((s.applyMsg (.mirror d) n m).die d).mirror = mirrorMsg (s.die d).mirror m ∧
      (s.applyMsg (.mirror d) n m).mem = s.mem :=
  ⟨State.epAt_setEp .., congrArg Die.mirror (State.die_setDie ..), rfl⟩

/-- Each of the tags has the state that a message gives. -/
theorem setStates_st (st : GenSt) (ks : List Nat) (g : Tab GenEnt) {k : Nat}
    (h : k ∈ ks ∨ (Tab.get g k GenEnt.reset).st = st) : (Tab.get (setStates g ks st) k GenEnt.reset).st = st := by
  induction ks generalizing g with
  | nil => exact h.resolve_left (by simp)
  | cons a rest ih =>
    refine ih _ ?_
    by_cases hk : k = a
    · exact .inr (by rw [hk, Tab.get_set_self])
    · rw [Tab.get_set_ne _ _ _ hk]
      exact h.imp_left fun h => (List.mem_cons.mp h).resolve_left hk

/-- None of the tags stays. -/
theorem foldl_del_get? {α : Type} (ks : List Nat) (t : Tab α) {k : Nat} (h : k ∈ ks ∨ Tab.get? t k = none) :
    Tab.get? (ks.foldl Tab.del t) k = none := by
  induction ks generalizing t with
  | nil => exact h.resolve_left (by simp)
  | cons a rest ih =>
    refine ih _ ?_
    by_cases hk : k = a
    · exact .inr (by rw [hk, Tab.get?_del_self])
    · rw [Tab.get?_del_ne _ hk]
      exact h.imp_left fun h => (List.mem_cons.mp h).resolve_left hk

theorem orphan_get?_none (tags : List (BitVec 8)) {g : Tab GenEnt} {k : Nat} (h : Tab.get? g k = none) :
    Tab.get? (orphan tags g) k = none := by
  induction g with
  | nil => rfl
  | cons x rest ih =>
    unfold Tab.get? at h
    split at h
    · cases h
    · rename_i hx
      exact (if_neg hx).trans (ih h)

theorem Msg.mem_keys {m : Msg} {g : BitVec 8} (h : g ∈ m.tags) : g.toNat ∈ m.keys := List.mem_map_of_mem h

section Mirror

variable {m : Msg} (g : Tab GenEnt)

theorem mirrorMsg_launch (hk : m.kind = .launch) {t : BitVec 8} {e : GenEnt} (ht : m.tags = [t]) (he : m.ent = some e) :
    Tab.get (mirrorMsg g m) t.toNat GenEnt.reset = { e with st := if m.ratifies then .ratified else .live } := by
  simp [mirrorMsg, hk, he, Msg.keys, ht]

theorem mirrorMsg_ratify (hk : m.kind = .ratify) {t : BitVec 8} (ht : t ∈ m.tags) :
    (Tab.get (mirrorMsg g m) t.toNat GenEnt.reset).st = .ratified := by
  simp only [mirrorMsg, hk]
  exact setStates_st _ _ _ (.inl (Msg.mem_keys ht))

theorem mirrorMsg_squash (hk : m.kind = .squash) {t : BitVec 8} (ht : t ∈ m.tags) :
    (Tab.get (mirrorMsg g m) t.toNat GenEnt.reset).st = .squashing := by
  simp only [mirrorMsg, hk]
  exact setStates_st _ _ _ (.inl (Msg.mem_keys ht))

theorem mirrorMsg_free (hk : m.kind = .free) {t : BitVec 8} (ht : t ∈ m.tags) :
    Tab.get? (mirrorMsg g m) t.toNat = none := by
  simp only [mirrorMsg, hk]
  exact orphan_get?_none _ (foldl_del_get? _ _ (.inl (Msg.mem_keys ht)))

end Mirror

/-! ### A PE pool (R259, R324) -/

theorem PoolSt.dropReq_reqs (x : PoolSt) (ticket : Nat) :
    (x.dropReq ticket).reqs = x.reqs.filter fun r => r.ticket != ticket := by
  have hdiscard (es : List InFlight) (x : PoolSt) : (es.foldl PoolSt.discard x).reqs = x.reqs := by
    induction es generalizing x with
    | nil => rfl
    | cons e rest ih =>
      refine (ih _).trans ?_
      unfold PoolSt.discard
      split <;> rfl
  exact congrArg (List.filter _) (hdiscard _ _)

/-- A request that is singled out does not outlive the drop. -/
theorem State.dropReqs_reqs (s : State) (k : Nat) (p : Pool) (test : Req → Bool) :
    ∀ r ∈ (((s.dropReqs k p test).tile k).pool p).reqs, test r = false := by
  let step (s : State) (r : Req) : State := (s.dropHold r.held).modPool k p fun x => x.dropReq r.ticket
  have hstep (s : State) (q : Req) : (((step s q).tile k).pool p).reqs =
      ((s.tile k).pool p).reqs.filter fun r => r.ticket != q.ticket := by
    have htile : (s.dropHold q.held).tile k = s.tile k := by
      cases q.held <;> rfl
    simp only [step, State.tile_modPool, Tile.pool_modPool, PoolSt.dropReq_reqs, htile]
  have hfold (qs : List Req) (s : State) : ∀ r ∈ (((qs.foldl step s).tile k).pool p).reqs,
      r ∈ ((s.tile k).pool p).reqs ∧ ∀ q ∈ qs, r.ticket ≠ q.ticket := by
    induction qs generalizing s with
    | nil => exact fun r hr => ⟨hr, by simp⟩
    | cons q rest ih =>
      intro r hr
      obtain ⟨hmem, hne⟩ := ih (step s q) r hr
      rw [hstep, List.mem_filter, bne_iff_ne] at hmem
      refine ⟨hmem.1, fun x hx => ?_⟩
      obtain rfl | hx := List.mem_cons.mp hx
      · exact hmem.2
      · exact hne x hx
  intro r hr
  obtain ⟨hmem, hne⟩ := hfold _ s r hr
  by_contra htest
  exact hne r (List.mem_filter.mpr ⟨hmem, by simpa using htest⟩) rfl

theorem State.postHeld_tile (s : State) (k : Nat) (p : Pool) (e : HeldEvt) (j : Nat) :
    (s.postHeld k p e).tile j = s.tile j := by
  unfold State.postHeld State.postEvt
  split <;> rfl

/-- Events that are sent leave the pool's values, its requests and its dead tags. -/
theorem State.flushEvts_pool (s : State) (k : Nat) (p : Pool) (n : Nat) :
    let x := ((s.flushEvts k p n).tile k).pool p
    x.v = ((s.tile k).pool p).v ∧ x.reqs = ((s.tile k).pool p).reqs ∧ x.dead = ((s.tile k).pool p).dead := by
  dsimp only
  induction n generalizing s with
  | zero => exact ⟨rfl, rfl, rfl⟩
  | succ n ih =>
    unfold State.flushEvts
    dsimp only
    split
    · exact ⟨rfl, rfl, rfl⟩
    · rename_i e rest _
      split
      · have hpool : (((s.modPool k p fun y => { y with evts := rest }).postHeld k p e).tile k).pool p =
            { (s.tile k).pool p with evts := rest } := by
          rw [State.postHeld_tile, State.tile_modPool, Tile.pool_modPool]
        obtain ⟨hv, hreqs, hdead⟩ := ih ((s.modPool k p fun y => { y with evts := rest }).postHeld k p e)
        rw [hpool] at hv hreqs hdead
        exact ⟨hv, hreqs, hdead⟩
      · exact ⟨rfl, rfl, rfl⟩

/-- A pool of the processing element under a squash, but for the requests that go (R324). -/
def PoolSt.squashed (dead : List (BitVec 8)) (x : PoolSt) : PoolSt :=
  let y : PoolSt := { x with
    v := x.v.map fun (r : VReg) => if dead.contains r.tok.gen then { r with present := false } else r
    evts := x.evts.filter fun e => !dead.contains e.gen
    dead := x.dead ++ dead }
  if decide (y.run = PoolRun.faulted) && y.frec.any (fun (r : FaultRec) => !r.posted && dead.contains r.gen) then y.resume
  else y

theorem PoolSt.squashed_parts (dead : List (BitVec 8)) (x : PoolSt) :
    (∀ r ∈ (x.squashed dead).v, r.present = true → dead.contains r.tok.gen = false) ∧
      (x.squashed dead).reqs = x.reqs ∧ (x.squashed dead).dead = x.dead ++ dead := by
  have hgone : ∀ r ∈ x.v.map (fun (r : VReg) => if dead.contains r.tok.gen then { r with present := false } else r),
      r.present = true → dead.contains r.tok.gen = false := by
    intro r hr hpresent
    obtain ⟨q, -, rfl⟩ := List.mem_map.mp hr
    split at hpresent
    · cases hpresent
    · rename_i h
      rw [if_neg h]
      exact Bool.not_eq_true _ ▸ h
  unfold PoolSt.squashed
  dsimp only
  split
  · exact ⟨hgone, rfl, rfl⟩
  · exact ⟨hgone, rfl, rfl⟩

theorem State.squashPool_pe (s : State) (k : Nat) (dead : List (BitVec 8)) : ∃ u : State,
    s.squashPool k .pe dead = (u.modPool k .pe (PoolSt.squashed dead)).flushEvts k .pe
      (((u.modPool k .pe (PoolSt.squashed dead)).tile k).pool .pe).evts.length ∧
    (∀ r ∈ ((u.tile k).pool .pe).reqs, (dead.contains r.gen && (!r.accs.isEmpty || 0 < r.inHold)) = false) ∧
    u.mem = s.mem := by
  refine ⟨(s.dropHeld (HeldWrite.ofReqs k (((s.tile k).pool .pe).reqs.filter fun r =>
    dead.contains r.gen && (!r.accs.isEmpty || decide (0 < r.inHold))))).dropReqs k .pe fun r =>
      dead.contains r.gen && (!r.accs.isEmpty || decide (0 < r.inHold)), rfl, State.dropReqs_reqs _ k .pe _, ?_⟩
  rw [State.dropReqs_mem, State.dropHeld_mem]

/-- A PE pool that applies a squash loses the values and the unperformed requests of its generations (R259, R324). -/
theorem State.squashPool_result (s : State) (k : Nat) (dead : List (BitVec 8)) :
    let t := s.squashPool k .pe dead
    (∀ r ∈ (t.tile k).pe.v, r.present = true → dead.contains r.tok.gen = false) ∧
      (∀ r ∈ (t.tile k).pe.reqs, dead.contains r.gen = true → r.accs = [] ∧ r.inHold = 0) ∧
      (∀ g ∈ dead, (t.tile k).pe.dead.contains g = true) ∧ t.mem = s.mem := by
  obtain ⟨u, heq, hreqs, hmem⟩ := s.squashPool_pe k dead
  obtain ⟨hv', hreqs', hdead'⟩ := (u.modPool k .pe (PoolSt.squashed dead)).flushEvts_pool k .pe
    (((u.modPool k .pe (PoolSt.squashed dead)).tile k).pool .pe).evts.length
  rw [← heq, State.tile_modPool, Tile.pool_modPool] at hv' hreqs' hdead'
  obtain ⟨hv, hr, hd⟩ := ((u.tile k).pool .pe).squashed_parts dead
  have hpool : ((s.squashPool k .pe dead).tile k).pe = ((s.squashPool k .pe dead).tile k).pool .pe := rfl
  dsimp only
  rw [hpool, hv', hreqs', hdead', hr, hd]
  refine ⟨hv, fun r hr hg => ?_, fun g hg => ?_, ?_⟩
  · have hkept := hreqs r hr
    rw [hg, Bool.true_and, Bool.or_eq_false_iff, Bool.not_eq_false', List.isEmpty_iff, decide_eq_false_iff_not] at hkept
    exact ⟨hkept.1, Nat.eq_zero_of_not_pos hkept.2⟩
  · exact List.contains_iff_mem.mpr (List.mem_append_right _ hg)
  · rw [heq, State.flushEvts_mem, State.modPool_mem, hmem]

theorem State.markOuts_tile (s : State) (k : Nat) (p : Pool) (n : Nat) (m : Msg) (j : Nat) :
    (s.markOuts k p n m).tile j = s.tile j := by
  have hfold (cs : List Nat) (s : State) :
      (cs.foldl (fun s c => s.modChan c fun y => y.push (.marker n)) s).tiles = s.tiles := by
    induction cs generalizing s with
    | nil => rfl
    | cons c rest ih =>
      refine (ih _).trans ?_
      unfold State.modChan
      dsimp only
      split <;> rfl
  unfold State.markOuts
  split
  · rw [State.tile, hfold, ← State.tile]
  · rfl

theorem State.applyMsg_squashPe (s : State) (k n : Nat) {m : Msg} (hk : m.kind = .squash) :
    let t := s.applyMsg (.pool k .pe) n m
    t.seqOf (.pool k .pe) = n ∧ (∀ r ∈ (t.tile k).pe.v, r.present = true → m.tags.contains r.tok.gen = false) ∧
      (∀ r ∈ (t.tile k).pe.reqs, m.tags.contains r.gen = true → r.accs = [] ∧ r.inHold = 0) ∧
      (∀ g ∈ m.tags, (t.tile k).pe.dead.contains g = true) ∧ t.mem = s.mem := by
  have happly : s.applyMsg (.pool k .pe) n m =
      ((s.poolMsg k .pe m).markOuts k .pe n m).modPool k .pe fun x => { x with seq := n } := rfl
  have hmsg : s.poolMsg k .pe m = s.squashPool k .pe m.tags := by
    rw [State.poolMsg, hk]
  obtain ⟨hv, hreqs, hdead, hmem⟩ := s.squashPool_result k m.tags
  dsimp only
  rw [happly, hmsg]
  generalize s.squashPool k .pe m.tags = u at hv hreqs hdead hmem ⊢
  have hpool : (((u.markOuts k .pe n m).modPool k .pe fun x => { x with seq := n }).tile k).pool .pe =
      { (u.tile k).pe with seq := n } := by
    rw [State.tile_modPool, State.markOuts_tile, Tile.pool_modPool]
    rfl
  have hmem' : ((u.markOuts k .pe n m).modPool k .pe fun x => { x with seq := n }).mem = u.mem := by
    rw [State.modPool_mem, State.markOuts_mem]
  generalize (u.markOuts k .pe n m).modPool k .pe _ = t at hpool hmem' ⊢
  have hpe : (t.tile k).pe = { (u.tile k).pe with seq := n } := hpool
  rw [State.seqOf, hpool, hpe]
  exact ⟨rfl, hv, hreqs, hdead, hmem'.trans hmem⟩

/-! ### A channel's end, and a FREE that all have acknowledged (R312, R326) -/

/-- A channel's end keeps the highest marker. -/
theorem squashMarker_keeps {s : State} {ch n : Nat} {y : Chan} {rest : List Item} (hy : Tab.get? s.chans ch = some y)
    (hitems : y.items = .marker n :: rest) :
    ∃ t, exec (.squashMarker ch) s = .next t ∧
      Tab.get? t.chans ch = some { y with items := rest, marked := max y.marked n } ∧ t.mem = s.mem := by
  have hend (z : Chan) : Tab.get? (s.markerEnd ch n z).chans ch = some { z with marked := max z.marked n } := by
    have hset : Tab.get? (s.setChan ch { z with marked := max z.marked n }).chans ch =
      some { z with marked := max z.marked n } := Tab.get?_set_self ..
    unfold State.markerEnd
    dsimp only
    split
    · cases s.sharedSeq _ n <;> exact hset
    · exact hset
  refine ⟨s.markerEnd ch n { y with items := rest }, ?_, hend _, State.markerEnd_mem ..⟩
  rw [exec_squashMarker, execSquashMarker, hy]
  dsimp only
  rw [hitems]

theorem freeComplete_frees {s : State} {m : Msg} {n : Nat} (hlog : s.root.log[n]? = some m) (hk : m.kind = .free)
    (hhome : m.home = none) (hfrees : s.root.frees.contains n = true) (hacked : s.acked n = true) :
    ∃ t, exec (.freeComplete n) s = .next t ∧ (∀ g ∈ m.tags, Tab.get? t.root.gens g.toNat = none) ∧ t.mem = s.mem := by
  refine ⟨{ s with root := { s.root with
    frees := s.root.frees.erase n
    gens := m.keys.foldl Tab.del s.root.gens } }, ?_, fun g hg => foldl_del_get? _ _ (.inl (Msg.mem_keys hg)), rfl⟩
  rw [exec_freeComplete, execFreeComplete, hlog]
  simp only [hfrees, hacked, hk, hhome, Bool.and_self, if_true]

/-- Settles O38: mirrors by `mirrorMsg`'s four kinds, a PE pool by `State.squashPool_result`, a channel's end by
`squashMarker_keeps`, and the end of a FREE by `freeComplete_frees`. -/
theorem messagesReachEndpoints : Obligations.MessagesReachEndpoints := by
  intro s m
  refine ⟨fun d hnext => ?_, fun k hnext hk => ?_, fun ch y n rest => squashMarker_keeps, fun n => freeComplete_frees⟩
  · have htake := State.takeMsg_applies hnext
    obtain ⟨hseq, hmirror, hmem⟩ := s.applyMsg_mirror d (s.seqOf (.mirror d) + 1) m
    refine ⟨fun hk g e hg he => ?_, fun hk => ?_, fun hk => ?_, fun hk => ?_⟩
    all_goals rw [hk] at htake
    · rw [exec_msgLaunch, htake]
      exact ⟨_, rfl, hseq, hmirror ▸ mirrorMsg_launch _ hk hg he, hmem⟩
    · rw [exec_msgRatify, htake]
      exact ⟨_, rfl, hseq, fun g hg => hmirror ▸ mirrorMsg_ratify _ hk hg, hmem⟩
    · rw [exec_msgSquash, htake]
      exact ⟨_, rfl, hseq, fun g hg => hmirror ▸ mirrorMsg_squash _ hk hg, hmem⟩
    · rw [exec_msgFree, htake]
      exact ⟨_, rfl, hseq, fun g hg => hmirror ▸ mirrorMsg_free _ hk hg, hmem⟩
  · have htake := State.takeMsg_applies hnext
    rw [hk] at htake
    rw [exec_msgSquash, htake]
    exact ⟨_, rfl, s.applyMsg_squashPe k _ hk⟩

end Sys2Proof.Machine

/-! ## Requests at the root, and the launch of generations (R312, R313, R315, R318 to R322) -/

/-! ### Requests -/

namespace Sys2Proof.Machine

open Sys2Proof

theorem exec_rootGuess (s : State) : exec .rootGuess s = .next (s.rootHandle [.guess] guessBody) := rfl

theorem exec_rootRatify (s : State) : exec .rootRatify s = .next (s.rootHandle [.ratify] ratifyBody) := rfl

theorem exec_rootSqreq (s : State) : exec .rootSqreq s = execRootSqreq s := rfl

theorem exec_rootDhpush (s : State) : exec .rootDhpush s = execRootDhpush s := rfl

/-- The state once the request at the head of the root's queue has been taken. -/
def State.rootServed (s : State) (rest : List RootReq) : State := { s with root := { s.root with reqs := rest } }

theorem Root.current_zero (r : Root) : r.current 0 = 0 := ite_self 0

/-- A node that the heap has room for (R313). -/
theorem Root.push_appends (r : Root) (v id : Nat) (p : Word) (h : r.heap.length < 64) :
    r.push 0 v id p = { r with pushes := r.pushes + 1, heap := r.heap ++ [⟨0, v, id, cumpTimes wfOne p, r.pushes⟩] } :=
  if_pos h

theorem fld_low32 (w : Word) : fld w 31 0 = (w.extractLsb' 0 32).toNat := fld_extract w 31 0 (by omega)

theorem fld_low8 (w : Word) : fld w 7 0 = (w.extractLsb' 0 8).toNat := fld_extract w 7 0 (by omega)

theorem toNat_zero8 : (0 : BitVec 8).toNat = 0 := rfl

theorem toNat_eq_zero8 {x : BitVec 8} : x.toNat = 0 ↔ x = 0 :=
  ⟨fun h => BitVec.eq_of_toNat_eq (h.trans toNat_zero8.symm), fun h => h ▸ toNat_zero8⟩

/-- A request of GEN 0 for the domain's launch stands at the head of the queue, and the heap has applied every message. -/
structure AtRoot (s : State) (q : RootReq) (rest : List RootReq) (d : Domain) : Prop where
  reqs : s.root.reqs = q :: rest
  gen : q.gen = 0
  heap : s.epAt .heap = s.root.log.length
  joined : s.root.joined = none
  domain : s.root.domain = some d
  lseq : d.lseq = q.lseq

section Request

variable {s : State} {q : RootReq} {rest : List RootReq} {d : Domain} {ops : List Op}

theorem State.takeRoot_takes (hreqs : s.root.reqs = q :: rest) (hop : ops.contains q.op = true)
    (hheap : s.epAt .heap = s.root.log.length) :
    s.takeRoot ops = some ({ q with gen := BitVec.ofNat 8 (s.root.current q.gen.toNat) }, s.rootServed rest) := by
  unfold State.takeRoot
  rw [hreqs]
  exact if_pos (by rw [hop, hheap, decide_eq_true rfl]; rfl)

theorem State.takeRoot_other (hreqs : s.root.reqs = q :: rest) (hop : ops.contains q.op = false) :
    s.takeRoot ops = none := by
  unfold State.takeRoot
  rw [hreqs]
  exact if_neg (by rw [hop]; simp)

/-- A request of GEN 0 for the domain's launch is handled (R317). -/
theorem State.rootHandle_handles (h : AtRoot s q rest d) (hop : ops.contains q.op = true)
    (body : Domain → RootReq → State → State) : s.rootHandle ops body = body d q (s.rootServed rest) := by
  have hq : { q with gen := BitVec.ofNat 8 (s.root.current q.gen.toNat) } = q := by
    have hgen := h.gen
    cases q
    simp only at hgen
    rw [hgen, toNat_zero8, Root.current_zero]
    rfl
  have hjoined : (s.rootServed rest).root.joined = none := h.joined
  have hdomain : (s.rootServed rest).root.domain = some d := h.domain
  unfold State.rootHandle
  rw [State.takeRoot_takes h.reqs hop h.heap, hq]
  simp only [h.gen, hjoined, Root.domainOf, hdomain, h.lseq, bne_self_eq_false, Bool.false_and, Bool.false_eq_true, if_false,
    Option.filter_none, if_true]

/-- A guess that nothing stands for enters the heap (R318). -/
theorem rootGuess_pushes (h : AtRoot s q rest d) (hop : q.op = .guess) (hmd : q.md = 0)
    (hv : (q.b0.extractLsb' 0 32).toNat < s.unitsOf d.lseq)
    (hkids : s.root.kids d.lseq 0 (q.b0.extractLsb' 0 32).toNat = [])
    (hqueued : s.root.queued 0 (q.b0.extractLsb' 0 32).toNat = [])
    (hnone : ∀ n ∈ s.root.heap, ¬(n.parent = 0 ∧ n.pos = (q.b0.extractLsb' 0 32).toNat ∧
      n.tokid = (q.a1.extractLsb' 0 32).toNat)) (hroom : s.root.heap.length < 64) :
    ∃ t, exec .rootGuess s = .next t ∧ t.root.reqs = rest ∧
      t.root.heap = s.root.heap ++ [⟨0, (q.b0.extractLsb' 0 32).toNat, (q.a1.extractLsb' 0 32).toNat,
        cumpTimes wfOne q.a0, s.root.pushes⟩] ∧ t.mem = s.mem := by
  rw [exec_rootGuess, State.rootHandle_handles h (by rw [hop]; rfl)]
  have hzero : q.gen.toNat = 0 := congrArg BitVec.toNat h.gen
  unfold guessBody
  dsimp only
  rw [fld_low32, fld_low32]
  generalize (q.b0.extractLsb' 0 32).toNat = v at hv hkids hqueued hnone ⊢
  generalize (q.a1.extractLsb' 0 32).toNat = id at hnone ⊢
  have hunits : (s.rootServed rest).unitsOf d.lseq = s.unitsOf d.lseq := rfl
  have hkids' : (s.rootServed rest).root.kids d.lseq 0 v = [] := hkids
  have hqueued' : (s.rootServed rest).root.queued 0 v = [] := hqueued
  have hheap : ((s.rootServed rest).root.heap.any fun n =>
      decide (n.parent.toNat = 0) && decide (n.pos = v) && decide (n.tokid = id)) = false := by
    rw [List.any_eq_false]
    intro n hn hthere
    simp only [Bool.and_eq_true, decide_eq_true_eq] at hthere
    obtain ⟨⟨hp, hpos⟩, hid⟩ := hthere
    exact hnone n hn ⟨toNat_eq_zero8.mp hp, hpos, hid⟩
  simp only [hzero, hunits, Nat.not_le.mpr hv, hmd, hkids', hqueued', hheap, List.any_nil, Nat.zero_mod, Nat.zero_ne_one,
    Bool.or_self, Bool.false_eq_true, if_false]
  rw [Root.push_appends (s.rootServed rest).root _ _ _ hroom]
  exact ⟨_, rfl, rfl, rfl, rfl⟩

theorem descendants_nil (g : Tab GenEnt) : descendants g [] = [] := by
  simp [descendants]

theorem State.issueSquash_nil (s : State) : s.issueSquash [] = s := by
  simp [State.issueSquash, descendants_nil]

/-- A ratification of a token that nothing was launched for queues a relaunch, and the heap loses its siblings (R319). -/
theorem rootRatify_relaunches (h : AtRoot s q rest d) (hop : q.op = .ratify)
    (hv : (q.b0.extractLsb' 0 32).toNat < s.unitsOf d.lseq) (hid : (q.a1.extractLsb' 0 32).toNat ≠ 0xFFFFFFFF)
    (hkids : s.root.kids d.lseq 0 (q.b0.extractLsb' 0 32).toNat = [])
    (hqueued : s.root.queued 0 (q.b0.extractLsb' 0 32).toNat = []) :
    ∃ t, exec .rootRatify s = .next t ∧ t.root.reqs = rest ∧
      t.root.relaunch = s.root.relaunch ++ [⟨0, (q.b0.extractLsb' 0 32).toNat, (q.a1.extractLsb' 0 32).toNat, wfOne,
        s.root.pushes⟩] ∧
      (∀ n, n ∈ t.root.heap ↔ n ∈ s.root.heap ∧ ¬(n.parent = 0 ∧ n.pos = (q.b0.extractLsb' 0 32).toNat)) ∧
      t.mem = s.mem := by
  rw [exec_rootRatify, State.rootHandle_handles h (by rw [hop]; rfl)]
  have hzero : q.gen.toNat = 0 := congrArg BitVec.toNat h.gen
  unfold ratifyBody
  dsimp only
  rw [fld_low32, fld_low32]
  generalize (q.b0.extractLsb' 0 32).toNat = v at hv hkids hqueued ⊢
  generalize (q.a1.extractLsb' 0 32).toNat = id at hid ⊢
  have hunits : (s.rootServed rest).unitsOf d.lseq = s.unitsOf d.lseq := rfl
  have hkids' : (s.rootServed rest).root.kids d.lseq 0 v = [] := hkids
  have hqueued' : (s.rootServed rest).root.queued 0 v = [] := hqueued
  simp only [hzero, hunits, Nat.not_le.mpr hv, hid, hkids', hqueued', List.filter_nil, List.map_nil, List.append_nil,
    List.find?_nil, if_false, State.issueSquash_nil, List.isEmpty_nil, Bool.not_true, Bool.false_eq_true]
  refine ⟨_, rfl, rfl, ?_, fun n => ?_, rfl⟩
  · rw [h.gen]
    rfl
  · have hgone : (n.parent.toNat = 0) = (n.parent = 0) := propext toNat_eq_zero8
    refine List.mem_filter.trans (and_congr_right fun _ => ?_)
    rw [Bool.not_eq_true', Bool.and_eq_false_iff, decide_eq_false_iff_not, decide_eq_false_iff_not, hgone, not_and_or]

theorem reaches_self (g : Tab GenEnt) (n t : Nat) : reaches g t (n + 1) t = true := if_pos rfl

theorem mem_descendants_self (g : Tab GenEnt) {t : Nat} (h0 : t ≠ 0) (h : t < 256) : t ∈ descendants g [t] := by
  simp [descendants, h0, h, reaches_self]

theorem Root.ent_setSt_self (r : Root) (t : Nat) (st : GenSt) : ((r.setSt t st).ent t).st = st := by
  simp [Root.setSt, Root.ent]

theorem Root.ent_setSt_ne (r : Root) {t a : Nat} (st : GenSt) (h : t ≠ a) : (r.setSt a st).ent t = r.ent t :=
  Tab.get_set_ne _ _ _ h

theorem foldl_setSt_ent (st : GenSt) (ts : List Nat) (r : Root) {t : Nat} (h : t ∈ ts ∨ (r.ent t).st = st) :
    ((ts.foldl (fun r t => r.setSt t st) r).ent t).st = st := by
  induction ts generalizing r with
  | nil => exact h.resolve_left (by simp)
  | cons a rest ih =>
    refine ih _ ?_
    by_cases ht : t = a
    · exact .inr (ht ▸ r.ent_setSt_self t st)
    · rw [r.ent_setSt_ne st ht]
      exact h.imp_left fun h => (List.mem_cons.mp h).resolve_left ht

theorem foldl_setSt_rest (st : GenSt) (ts : List Nat) (r : Root) :
    ts.foldl (fun r t => r.setSt t st) r = { r with gens := (ts.foldl (fun r t => r.setSt t st) r).gens } := by
  induction ts generalizing r with
  | nil => rfl
  | cons a rest ih => exact ih _

/-- A squash that names a live generation marks it, and tells of it (R312, R323). -/
theorem State.issueSquash_squashes (s : State) {x : Nat} (h0 : x ≠ 0) (hx : x < 256) (hlive : (s.root.ent x).st = .live) :
    ∃ m, ((s.issueSquash [x]).root.ent x).st = .squashing ∧ (s.issueSquash [x]).root.log = s.root.log ++ [m] ∧
      m.kind = .squash ∧ BitVec.ofNat 8 x ∈ m.tags ∧ (s.issueSquash [x]).root.reqs = s.root.reqs := by
  let live := (descendants s.root.gens [x]).filter fun t => (s.root.ent t).st = .live
  have hmem : x ∈ live := List.mem_filter.mpr ⟨mem_descendants_self _ h0 hx, decide_eq_true hlive⟩
  have hrest := foldl_setSt_rest .squashing live s.root
  let m : Msg := ⟨.squash, (s.root.ent (live.headD 0)).job, live.map (BitVec.ofNat 8), none, false, none⟩
  have hsquash : s.issueSquash [x] =
      { s with root := (live.foldl (fun r t => r.setSt t .squashing) s.root).issue m } := by
    unfold State.issueSquash
    exact if_neg fun h => List.ne_nil_of_mem hmem (List.isEmpty_iff.mp h)
  rw [hsquash]
  exact ⟨m, foldl_setSt_ent _ _ _ (.inl hmem), congrArg (· ++ [m]) (congrArg Root.log hrest :), rfl,
    List.mem_map_of_mem hmem, (congrArg Root.reqs hrest :)⟩

theorem rootSqreq_squashes (h : AtRoot s q rest d) (hop : q.op = .sqreq) {x : Nat} (hx : x = (q.a0.extractLsb' 0 8).toNat)
    (h0 : x ≠ 0) (hlive : (s.root.ent x).st = .live) :
    ∃ t m, exec .rootSqreq s = .next t ∧ t.root.reqs = rest ∧ (t.root.ent x).st = .squashing ∧
      t.root.log = s.root.log ++ [m] ∧ m.kind = .squash ∧ BitVec.ofNat 8 x ∈ m.tags ∧ t.mem = s.mem := by
  have hlt : x < 256 := hx ▸ BitVec.isLt _
  have hlive' : ((s.rootServed rest).root.ent x).st = .live := hlive
  obtain ⟨m, hst, hlog, hkind, htags, hreqs⟩ := (s.rootServed rest).issueSquash_squashes h0 hlt hlive'
  refine ⟨(s.rootServed rest).issueSquash [x], m, ?_, hreqs, hst, hlog, hkind, htags, State.issueSquash_mem ..⟩
  rw [exec_rootSqreq, execRootSqreq, State.rootHandle_handles h (by rw [hop]; rfl)]
  dsimp only
  rw [fld_low8, ← hx, if_pos hlive']

/-- A push under no parent enters the heap (R322). -/
theorem rootDhpush_pushes (h : AtRoot s q rest d) (hop : q.op = .dhpush) (hparent : q.b1 = 0)
    (hroom : s.root.heap.length < 64) :
    ∃ t, exec .rootDhpush s = .next t ∧ t.root.reqs = rest ∧
      t.root.heap = s.root.heap ++ [⟨0, (q.b0.extractLsb' 0 32).toNat, (q.a1.extractLsb' 0 32).toNat,
        cumpTimes wfOne q.a0, s.root.pushes⟩] ∧ t.mem = s.mem := by
  have hzero : fld (0 : Word) 7 0 = 0 := by decide
  rw [exec_rootDhpush, execRootDhpush, State.takeRoot_other h.reqs (by rw [hop]; rfl),
    State.rootHandle_handles h (by rw [hop]; rfl)]
  unfold pushBody
  simp only [hparent, hzero, Root.current_zero, decide_true, Bool.true_or, if_true]
  rw [Root.push_appends (s.rootServed rest).root _ _ _ hroom, fld_low32, fld_low32]
  exact ⟨_, rfl, rfl, rfl, rfl⟩

/-- The packages served as peers are looked at anew; the rest of the root stands, and so does memory (R332, R378). -/
theorem State.servePeers_root (s : State) :
    s.servePeers.root = { s.root with peers := s.servePeers.root.peers, peerAck := s.servePeers.root.peerAck } := by
  have hfold (ps : List Nat) (s : State) :
      (ps.foldl (fun s p => s.setEp (.peer p) s.root.log.length) s).root = s.root := by
    induction ps generalizing s with
    | nil => rfl
    | cons p rest ih => exact ih _
  unfold State.servePeers
  dsimp only
  rw [hfold]

/-- DHPUSH.CFG makes the domain (R314, R322). -/
theorem rootDhpush_configures (hop : q.op = .dhpushCfg) (hreqs : s.root.reqs = q :: rest)
    (hheap : s.epAt .heap = s.root.log.length) (hover : s.launchOver q.lseq = false) :
    ∃ t x, exec .rootDhpush s = .next t ∧ t.root.reqs = rest ∧ t.root.domain = some x ∧ x.lseq = q.lseq ∧
      x.die = (q.a0.extractLsb' 24 3).toNat ∧ x.base = (q.a0.extractLsb' 0 23).toNat ∧
      x.log2 = (q.a0.extractLsb' 32 4).toNat ∧ x.budget = (q.b0.extractLsb' 0 8).toNat ∧ x.rseq = 0 ∧ t.mem = s.mem := by
  let x : Domain := ⟨q.lseq, q.job, q.unit, fld q.a0 26 24, fld q.a0 22 0, fld q.a0 35 32, fld q.b0 7 0, 0⟩
  let u : State := { s.rootServed rest with root := { (s.rootServed rest).root with domain := some x } }
  have hover' : (s.rootServed rest).launchOver q.lseq = false := hover
  have hroot := u.servePeers_root
  refine ⟨u.servePeers, x, ?_, ?_, ?_, rfl, fld_extract _ 26 24 (by omega), fld_extract _ 22 0 (by omega),
    fld_extract _ 35 32 (by omega), fld_low8 _, rfl, State.servePeers_mem u⟩
  · rw [exec_rootDhpush, execRootDhpush, State.takeRoot_takes hreqs (by rw [hop]; rfl) hheap]
    simp only [hover', hop, Bool.false_eq_true, if_false, if_true]
    rfl
  · rw [hroot]
    rfl
  · rw [hroot]

end Request

end Sys2Proof.Machine

/-! ### Words written one after another -/

namespace Sys2Proof.Machine

open Sys2Proof

/-- A word of a launch record is written, and left full (R315). -/
def Mem.putRecord (a : Nat) (m : Mem) (w : Word × Nat) : Mem :=
  (m.write (a + w.2) 0xFF w.1 false).setFull (a + w.2) true

theorem Mem.word_congr {m m' : Mem} {w : Nat} (h : ∀ i < 8, m'.byte (8 * w + i) = m.byte (8 * w + i)) :
    m'.word w = m.word w := by
  unfold Mem.word
  rw [h 7 (by omega), h 6 (by omega), h 5 (by omega), h 4 (by omega), h 3 (by omega), h 2 (by omega), h 1 (by omega),
    show 8 * w = 8 * w + 0 from rfl, h 0 (by omega)]

theorem Mem.isFull_putRecord {m : Mem} (a : Nat) (w : Word × Nat) (h : m.wf = true) (x : Nat) :
    (Mem.putRecord a m w).isFull x = if x = a + w.2 then true else m.isFull x := by
  unfold Mem.putRecord
  rw [Mem.isFull_setFull _ true (Mem.write_wf _ _ _ _ h)]
  exact ite_congr rfl (fun _ => rfl) fun _ => congrArg (·.contains x) (Mem.write_full ..)

theorem Mem.word_putRecord {m : Mem} (a : Nat) (w : Word × Nat) (h : m.wf = true) :
    (Mem.putRecord a m w).word (a + w.2) = w.1 := Mem.word_writeWord_self _ _ false h

theorem Mem.byte_putRecord (m : Mem) (a : Nat) (w : Word × Nat) {y : Nat} (h : y / 8 ≠ a + w.2) :
    (Mem.putRecord a m w).byte y = m.byte y := Mem.byte_write_out m _ _ _ _ (by omega)

/-- A record's words stand in a row, each full, and nothing else has changed. -/
theorem Mem.foldl_putRecord (a : Nat) (ws : List Word) (k : Nat) {m : Mem} (h : m.wf = true) :
    let t := (ws.zipIdx k).foldl (Mem.putRecord a) m
    (∀ i w, ws[i]? = some w → t.word (a + k + i) = w ∧ t.isFull (a + k + i) = true) ∧
      (∀ y, (∀ i < ws.length, y / 8 ≠ a + k + i) → t.byte y = m.byte y) ∧
      ∀ x, (∀ i < ws.length, x ≠ a + k + i) → t.isFull x = m.isFull x := by
  induction ws generalizing k m with
  | nil => exact ⟨fun i w hw => by simp at hw, fun _ _ => rfl, fun _ _ => rfl⟩
  | cons v rest ih =>
    obtain ⟨hwords, hbytes, hfull⟩ := ih (k + 1) (m := Mem.putRecord a m (v, k)) (Mem.setFull_wf _ _ (Mem.write_wf _ _ _ _ h))
    rw [List.zipIdx_cons, List.foldl_cons]
    refine ⟨fun i w hw => ?_, fun y hy => ?_, fun x hx => ?_⟩
    · cases i with
      | zero =>
        obtain rfl : v = w := by simpa using hw
        constructor
        · rw [Mem.word_congr fun i hi => hbytes (8 * (a + k + 0) + i) fun j _ => by omega]
          exact Mem.word_putRecord a (v, k) h
        · rw [hfull _ fun j _ => by omega]
          exact (Mem.isFull_putRecord a (v, k) h _).trans (if_pos rfl)
      | succ j =>
        rw [show a + k + (j + 1) = a + (k + 1) + j by omega]
        exact hwords j w hw
    · rw [hbytes y fun i hi => by have := hy (i + 1) (by simpa using hi); omega]
      exact Mem.byte_putRecord m a (v, k) (by simpa using hy 0 (by simp))
    · rw [hfull x fun i hi => by have := hx (i + 1) (by simpa using hi); omega]
      exact (Mem.isFull_putRecord a (v, k) h _).trans (if_neg (by simpa using hx 0 (by simp)))

end Sys2Proof.Machine

/-! ### The launch of a generation (R312, R315) -/

namespace Sys2Proof.Machine

open Sys2Proof

theorem exec_launchGeneration (s : State) : exec .launchGeneration s = execLaunchGeneration s := rfl

theorem State.nextMsg_log {s : State} {e : Endpoint} {m : Msg} (h : s.nextMsg e = some m) :
    s.root.log[s.seqOf e]? = some m := by
  unfold State.nextMsg at h
  obtain ⟨x, hx, h⟩ := Option.bind_eq_some_iff.mp h
  dsimp only at h
  split at h
  · exact hx.trans h
  · cases h

/-- The heap takes nothing from a LAUNCH. -/
theorem State.applyMsg_heapLaunch (s : State) (n : Nat) {m : Msg} (hk : m.kind = .launch) :
    s.applyMsg .heap n m = s.setEp .heap n := by
  have hheap : s.heapMsg m = s := by
    unfold State.heapMsg nodesMsg
    rw [hk]
    rfl
  have hports : s.idlePorts n m = s := by
    unfold State.idlePorts
    simp only [hk, MsgKind.marks, Bool.false_eq_true, if_false, List.foldl_fixed]
  have happly : s.applyMsg .heap n m = ((s.heapMsg m).idlePorts n m).setEp .heap n := rfl
  rw [happly, hheap, hports]

theorem State.catchUp_heapLaunch {s : State} (h : ∀ m, s.root.log[s.epAt .heap]? = some m → m.kind = .launch) :
    (s.catchUp .heap 1).root = s.root ∧ (s.catchUp .heap 1).mem = s.mem := by
  unfold State.catchUp
  split
  · rename_i m hm
    rw [State.applyMsg_heapLaunch _ _ (h m (State.nextMsg_log hm))]
    exact ⟨rfl, rfl⟩
  · exact ⟨rfl, rfl⟩

theorem State.catchUp_mirror (s : State) (d n : Nat) :
    (s.catchUp (.mirror d) n).root = s.root ∧ (s.catchUp (.mirror d) n).mem = s.mem := by
  induction n generalizing s with
  | zero => exact ⟨rfl, rfl⟩
  | succ n ih =>
    unfold State.catchUp
    split
    · exact ih _
    · exact ⟨rfl, rfl⟩

/-- The message of a LAUNCH. -/
def launchMsg (t : Nat) (e : GenEnt) (ratifies : Bool) : Msg := ⟨.launch, e.job, [BitVec.ofNat 8 t], some e, ratifies, none⟩

theorem State.issueLaunch_root (s : State) (t : Nat) (e : GenEnt) : (s.issueLaunch t e false).root =
    { s.root with
      gens := Tab.set s.root.gens t { e with st := .live }
      log := s.root.log ++ [launchMsg t e false] } := by
  unfold State.issueLaunch State.modUnit State.modLaunch
  dsimp only
  split <;> rfl

theorem State.issueLaunch_epAt (s : State) (t : Nat) (e : GenEnt) (ep : Endpoint) :
    (s.issueLaunch t e false).epAt ep = s.epAt ep := by
  unfold State.issueLaunch State.modUnit State.modLaunch
  dsimp only
  split <;> rfl

theorem State.putWord_root (s : State) (w : Nat) (mask : BitVec 8) (v : Word) (psn : Bool) :
    (s.putWord w mask v psn).root = s.root := by
  unfold State.putWord
  dsimp only
  split
  · split <;> rfl
  · rfl

/-- A word of a launch record in the ring (R315). -/
def State.putRecord (a : Nat) (s : State) (w : Word × Nat) : State :=
  (s.putWord (a + w.2) 0xFF w.1 false).putFull (a + w.2) true

theorem State.foldl_putRecord (a : Nat) (ws : List (Word × Nat)) (s : State) :
    (ws.foldl (State.putRecord a) s).root = s.root ∧
      (ws.foldl (State.putRecord a) s).mem = ws.foldl (Mem.putRecord a) s.mem := by
  induction ws generalizing s with
  | nil => exact ⟨rfl, rfl⟩
  | cons w rest ih =>
    obtain ⟨hroot, hmem⟩ := ih (State.putRecord a s w)
    refine ⟨hroot.trans (State.putWord_root ..), hmem.trans ?_⟩
    exact congrArg (fun m : Mem => rest.foldl (Mem.putRecord a) (m.setFull (a + w.2) true)) (State.putWord_mem ..)

/-- The entry of a node that is launched for a domain (R312). -/
def Domain.entry (d : Domain) (n : HeapNode) : GenEnt :=
  ⟨.live, false, n.parent, n.pos, n.tokid, n.cump, d.lseq, d.job, some d.rseq, false⟩

/-- A node launched under a tag, once the heap has applied every message: its entry, and its record in the ring. -/
theorem State.launchNode_result {s : State} (hheap : s.epAt .heap = s.root.log.length) (d : Domain) (t : Nat)
    (n : HeapNode) :
    (s.launchNode d t false n).root = { s.root with
      gens := Tab.set s.root.gens t (d.entry n)
      log := s.root.log ++ [launchMsg t (d.entry n) false]
      domain := some { d with rseq := d.rseq + 1 } } ∧
    (s.launchNode d t false n).mem =
      (recordWords t false n d.rseq).zipIdx.foldl (Mem.putRecord (d.slot d.rseq)) s.mem := by
  let s1 := s.issueLaunch t (d.entry n) false
  have hlast : ∀ m, s1.root.log[s1.epAt .heap]? = some m → m.kind = .launch := fun m hm => by
    rw [State.issueLaunch_epAt, hheap, State.issueLaunch_root] at hm
    simp only [List.getElem?_concat_length] at hm
    exact (Option.some.inj hm) ▸ rfl
  obtain ⟨hroot, hmem⟩ := State.catchUp_heapLaunch hlast
  obtain ⟨hroot', hmem'⟩ := (s1.catchUp .heap 1).catchUp_mirror d.die s1.root.log.length
  let s2 := (s1.catchUp .heap 1).catchUp (.mirror d.die) s1.root.log.length
  let s3 : State := { s2 with root := { s2.root with domain := some { d with rseq := d.rseq + 1 } } }
  obtain ⟨hroot'', hmem''⟩ := State.foldl_putRecord (d.slot d.rseq) (recordWords t false n d.rseq).zipIdx s3
  have hnode : s.launchNode d t false n = (recordWords t false n d.rseq).zipIdx.foldl (State.putRecord (d.slot d.rseq)) s3 := by
    unfold State.launchNode
    simp only [Bool.false_and]
    rfl
  have hs2 : s2.root = s1.root := hroot'.trans hroot
  have hs3 : s3.root = { s1.root with domain := some { d with rseq := d.rseq + 1 } } :=
    congrArg (fun r : Root => { r with domain := some { d with rseq := d.rseq + 1 } }) hs2
  have hs3' : s3.mem = s.mem := (hmem'.trans hmem).trans (State.issueLaunch_mem ..)
  rw [hnode, hroot'', hmem'', hs3, hs3', State.issueLaunch_root]
  exact ⟨rfl, rfl⟩

section Launch

variable {s : State} {n : HeapNode} {d : Domain}

/-- Of an empty table of generations nothing is freed, and its lowest tag is 1. -/
theorem State.issueFrees_none (h : s.root.gens = []) : s.issueFrees = s := by
  simp [State.issueFrees, h]

theorem Root.freeTag_first {r : Root} (h : r.gens = []) : r.freeTag = some 1 := by
  simp [Root.freeTag, h, Tab.freeFrom]

/-- The launch unit takes the one node of the heap. -/
theorem launchGeneration_next (hgens : s.root.gens = []) (hheap : s.root.heap = [n]) (hrelaunch : s.root.relaunch = [])
    (habort : s.root.abortQ = []) (hdomain : s.root.domain = some d) (hep : s.epAt .heap = s.root.log.length)
    (hclear : ∀ i < 8, s.mem.isFull (d.slot d.rseq + i) = false) (hbudget : 1 ≤ d.budget) (hspec : s.specOn = true) :
    exec .launchGeneration s = .next ((s.dropNodes fun x => decide (x = n)).launchNode d 1 false n) := by
  have hslot : s.slotClear d d.rseq = true := by
    rw [State.slotClear, List.all_eq_true]
    intro i hi
    rw [hclear i (List.mem_range.mp hi)]
    rfl
  have hlive : s.root.liveCount d.lseq < d.budget := by
    rw [Root.liveCount, hgens]
    exact hbudget
  have hnode : highestNode s.root.heap = some n := by
    rw [hheap]
    rfl
  rw [exec_launchGeneration, execLaunchGeneration, State.issueFrees_none hgens, if_neg (not_not.mpr hep), Root.freeTag_first hgens]
  simp only [State.launchNext, habort, hdomain, hslot, hrelaunch, hlive, hspec, hnode, Bool.not_true, Bool.false_eq_true,
    if_false, decide_true, Bool.and_self, if_true]

theorem launchGeneration_launches (hgens : s.root.gens = []) (hheap : s.root.heap = [n]) (hrelaunch : s.root.relaunch = [])
    (habort : s.root.abortQ = []) (hdomain : s.root.domain = some d) (hep : s.epAt .heap = s.root.log.length)
    (hclear : ∀ i < 8, s.mem.isFull (d.slot d.rseq + i) = false) (hbudget : 1 ≤ d.budget) (hspec : s.specOn = true)
    (hwf : s.mem.wf = true) :
    ∃ t, exec .launchGeneration s = .next t ∧ t.root.heap = [] ∧ (t.root.ent 1).st = .live ∧
      (t.root.ent 1).pos = n.pos ∧ (t.root.ent 1).tokid = n.tokid ∧ (t.root.ent 1).parent = n.parent ∧
      t.root.domain = some { d with rseq := d.rseq + 1 } ∧
      (∀ i < 8, t.mem.isFull (d.slot d.rseq + i) = true) ∧
      t.mem.word (d.slot d.rseq + 1) = BitVec.ofNat 64 n.pos ∧ t.mem.word (d.slot d.rseq + 2) = BitVec.ofNat 64 n.tokid ∧
      t.mem.word (d.slot d.rseq + 3) = n.cump ∧
      ∀ a, (∀ i < 8, a / 8 ≠ d.slot d.rseq + i) → t.mem.byte a = s.mem.byte a := by
  have hep' : (s.dropNodes fun x => decide (x = n)).epAt .heap = (s.dropNodes fun x => decide (x = n)).root.log.length := hep
  obtain ⟨hroot, hmem⟩ := State.launchNode_result hep' d 1 n
  have hent : ((s.dropNodes fun x => decide (x = n)).launchNode d 1 false n).root.ent 1 = d.entry n := by
    rw [hroot]
    exact Tab.get_set_self ..
  have hmem' : ((s.dropNodes fun x => decide (x = n)).launchNode d 1 false n).mem =
    (recordWords 1 false n d.rseq).zipIdx.foldl (Mem.putRecord (d.slot d.rseq)) s.mem := hmem
  obtain ⟨hwords, hbytes, -⟩ := Mem.foldl_putRecord (d.slot d.rseq) (recordWords 1 false n d.rseq) 0 hwf
  rw [← hmem'] at hwords hbytes
  refine ⟨_, launchGeneration_next hgens hheap hrelaunch habort hdomain hep hclear hbudget hspec, ?_, ?_, ?_, ?_, ?_, ?_,
    fun i hi => ?_, (hwords 1 _ rfl).1, (hwords 2 _ rfl).1, (hwords 3 _ rfl).1, hbytes⟩
  · rw [hroot]
    have hgone : s.root.heap.filter (fun x => !decide (x = n)) = [] := by simp [hheap]
    exact hgone
  · rw [hent]
    rfl
  · rw [hent]
    rfl
  · rw [hent]
    rfl
  · rw [hent]
    rfl
  · rw [hroot]
  · have hlen : i < (recordWords 1 false n d.rseq).length := hi
    exact (hwords i _ (List.getElem?_eq_getElem hlen)).2

end Launch

/-- Settles O37, request by request (`State.rootHandle_handles` takes each to its handler), and the launch by
`launchGeneration_launches`. -/
theorem rootHandlesRequests : Obligations.RootHandlesRequests := by
  intro s q rest d
  have hat (h : s.root.reqs = q :: rest ∧ q.gen = 0 ∧ s.epAt .heap = s.root.log.length ∧ s.root.joined = none ∧
      s.root.domain = some d ∧ d.lseq = q.lseq) : AtRoot s q rest d := by
    obtain ⟨hreqs, hgen, hheap, hjoined, hdomain, hlseq⟩ := h
    exact ⟨hreqs, hgen, hheap, hjoined, hdomain, hlseq⟩
  exact ⟨fun hop hmd hmine => rootGuess_pushes (hat hmine) hop hmd,
    fun hop hmine => rootRatify_relaunches (hat hmine) hop,
    fun x hop hmine => rootSqreq_squashes (hat hmine) hop,
    fun hop hmine => rootDhpush_pushes (hat hmine) hop,
    rootDhpush_configures,
    fun n => launchGeneration_launches⟩

end Sys2Proof.Machine

/-! ## The speculation instructions (R317 to R322) -/

namespace Sys2Proof.Machine

open Sys2Proof

theorem exec_guess (f : Fields) (s : State) : exec (.guess f) s = execGuess f s := rfl

theorem exec_ratify (f : Fields) (s : State) : exec (.ratify f) s = execRatify f s := rfl

theorem exec_genget (f : Fields) (s : State) : exec (.genget f) s = execGenget f s := rfl

theorem exec_sqreq (f : Fields) (s : State) : exec (.sqreq f) s = execSqreq f s := rfl

theorem exec_dhpush (f : Fields) (s : State) : exec (.dhpush f) s = execDhpush f s := rfl

theorem exec_dhpushCfg (f : Fields) (s : State) : exec (.dhpushCfg f) s = execDhpushCfg f s := rfl

theorem exec_dhpushJoin (f : Fields) (s : State) : exec (.dhpushJoin f) s = execDhpushJoin f s := rfl

/-! ### A firing that sends a request -/

/-- A firing that consumes by its operand fields puts a request of its generation at the end of the root's queue (R317). -/
def Sends (o : Op) (f : Fields) (s : State) (h : Hdr) (a0 a1 b0 b1 : Word) : Prop :=
  ∃ t q, exec (o.mk f) s = .next t ∧ t.root.reqs = s.root.reqs ++ [q] ∧ q.op = o ∧ q.md = f.md.toNat ∧ q.gen = h.gen ∧
    q.lseq = (s.blockOf s.focus.tile).elim 0 (·.lseq) ∧ q.a0 = a0 ∧ q.a1 = a1 ∧ q.b0 = b0 ∧ q.b1 = b1 ∧
    t.root.gens = s.root.gens ∧ t.root.log = s.root.log ∧ t.mem = s.mem ∧ ∀ j, j ≠ s.focus.tile → t.tile j = s.tile j

/-- A firing leaves the block of its tile. -/
theorem State.blockOf_consumed (s : State) (o : Op) (f : Fields) :
    (s.commit (s.seen o f) (consumed f)).blockOf s.focus.tile = s.blockOf s.focus.tile := by
  have htile : (s.commit (s.seen o f) (consumed f)).tile s.focus.tile =
      (s.tile s.focus.tile).modPool s.focus.pool fun x => x.fire (s.seen o f) (consumed f) :=
    s.commit_tile (s.seen o f) (consumed f) rfl rfl
  have hblocks : (s.commit (s.seen o f) (consumed f)).blocks = s.blocks :=
    (congrArg State.blocks (s.commit_rest (s.seen o f) (consumed f) rfl rfl) :)
  rw [State.blockOf, State.blockOf, htile, Tile.modPool_block, hblocks]

section Ask

variable {o : Op} {f : Fields} {s : State} {h : Hdr} {body : Ctx → Except Flt Done} {a0 a1 b0 b1 : Word}

theorem sends_of_ask (he : exec (o.mk f) s = issue o f s body) (hf : Fires o f s) (hpsn : h.psn = false)
    (hb : body (s.seen o f) = .ok ((s.seen o f).ask h true a0 a1 b0 b1)) : Sends o f s h a0 a1 b0 b1 := by
  have hask : (s.seen o f).ask h true a0 a1 b0 b1 =
      { consumed f with eff := fun t => t.rootReq (s.seen o f) h.gen a0 a1 b0 b1 } := by
    unfold Ctx.ask
    rw [hpsn]
    rfl
  have hroot : (s.commit (s.seen o f) (consumed f)).root = s.root :=
    (congrArg State.root (s.commit_rest (s.seen o f) (consumed f) rfl rfl) :)
  rw [hask] at hb
  have hnext : exec (o.mk f) s =
      .next ((s.commit (s.seen o f) (consumed f)).rootReq (s.seen o f) h.gen a0 a1 b0 b1) :=
    (does_of_issue he hf hb).trans (congrArg _ (s.commit_eff _ _ rfl))
  have hblock := s.blockOf_consumed o f
  have hmem := s.commit_mem (s.seen o f) (consumed f) rfl rfl
  have htile {j : Nat} (hj : j ≠ s.focus.tile) := s.commit_tile_ne (s.seen o f) (consumed f) rfl rfl hj
  generalize s.commit (s.seen o f) (consumed f) = u at hroot hnext hblock hmem htile
  have hreqs := congrArg Root.reqs hroot
  refine ⟨_, _, hnext, congrArg (· ++ [_]) hreqs, rfl, rfl, rfl,
    congrArg (fun b : Option Block => b.elim 0 (·.lseq)) hblock, rfl, rfl, rfl, rfl, (congrArg Root.gens hroot :),
    (congrArg Root.log hroot :), hmem, fun j hj => htile hj⟩

/-- Without leave to send, the firing consumes and no more. -/
theorem Ctx.ask_silent (s : State) (hpsn : h.psn = false) :
    (s.seen o f).ask h false a0 a1 b0 b1 = consumed f := by
  unfold Ctx.ask
  rw [hpsn]
  rfl

end Ask

/-! ### GUESS and RATIFY (R318, R319) -/

section Proposal

variable {f : Fields} {s : State} {h : Hdr} {o : Op}

/-- A proposal names the position after its own, or is of no generation. -/
theorem Ctx.checkPos_ok {c : Ctx} {v : Nat} (hv : h.gen = 0 ∨ v = (c.ent h.gen.toNat).pos + 1) : c.checkPos h v = .ok () := by
  unfold Ctx.checkPos
  refine if_neg ?_
  rcases hv with hv | hv <;> simp [hv]

theorem Ctx.checkPos_fails {c : Ctx} {v : Nat} (hlt : v < 2 ^ 32) (hpsn : h.psn = false) (hgen : h.gen ≠ 0)
    (hv : v ≠ (c.ent h.gen.toNat).pos + 1) : c.checkPos h v =
      .error (c.flt 0x80 (BitVec.ofNat 64 (v + h.gen.toNat * 2 ^ 32)) (BitVec.ofNat 64 (c.ent h.gen.toNat).pos) 0) := by
  have hw3 : w64 v ||| place h.gen.toNat 32 = BitVec.ofNat 64 (v + h.gen.toNat * 2 ^ 32) := w64_or_place_above _ hlt
  have hbad : (!h.psn && h.gen != 0 && v != (c.ent h.gen.toNat).pos + 1) = true := by
    rw [hpsn, bne_iff_ne.mpr hgen, bne_iff_ne.mpr hv]
    rfl
  unfold Ctx.checkPos
  rw [← hw3]
  exact if_pos hbad

variable {p id b : Word}

/-- The body of a proposal, which RATIFY sends always and GUESS with SPEC. -/
def Ctx.propose (sends : Bool) (c : Ctx) : Except Flt Done := do
  let (p, id) ← c.vid
  let b ← c.intB
  let h ← c.header
  c.checkPos h (fld b 31 0)
  .ok (c.ask h sends p id b 0)

theorem exec_proposal (ho : o ∈ ([.guess, .ratify] : List Op)) :
    exec (o.mk f) s = issue o f s (Ctx.propose (decide (o = .ratify) || s.specOn)) := by
  rcases List.mem_pair.mp ho with rfl | rfl
  · exact exec_guess f s
  · exact exec_ratify f s

variable (hf : Fires o f s) (hvid : (s.seen o f).vid = .ok (p, id)) (hb : (s.seen o f).intB = .ok b)
  (hh : (s.seen o f).header = .ok h)
include hvid hb hh

theorem Ctx.propose_eq (sends : Bool) : Ctx.propose sends (s.seen o f) = (do
    (s.seen o f).checkPos h (b.extractLsb' 0 32).toNat
    .ok ((s.seen o f).ask h sends p id b 0)) := by
  unfold Ctx.propose
  rw [hvid, hb, hh, ← fld_low32]
  rfl

theorem Ctx.propose_ok (sends : Bool)
    (hv : h.gen = 0 ∨ (b.extractLsb' 0 32).toNat = ((s.seen o f).ent h.gen.toNat).pos + 1) :
    Ctx.propose sends (s.seen o f) = .ok ((s.seen o f).ask h sends p id b 0) := by
  rw [Ctx.propose_eq hvid hb hh, Ctx.checkPos_ok hv]
  rfl

include hf

theorem proposal_sends (ho : o ∈ ([.guess, .ratify] : List Op)) (hpsn : h.psn = false)
    (hv : h.gen = 0 ∨ (b.extractLsb' 0 32).toNat = ((s.seen o f).ent h.gen.toNat).pos + 1)
    (hspec : o = .ratify ∨ s.specOn = true) : Sends o f s h p id b 0 := by
  have hsends : (decide (o = .ratify) || s.specOn) = true := by simpa using hspec
  have hbody := Ctx.propose_ok hvid hb hh true hv
  rw [← hsends] at hbody
  refine sends_of_ask (exec_proposal ho) hf hpsn ?_
  rw [hbody, hsends]

theorem guess_silent (ho : o = .guess) (hpsn : h.psn = false)
    (hv : h.gen = 0 ∨ (b.extractLsb' 0 32).toNat = ((s.seen o f).ent h.gen.toNat).pos + 1) (hspec : s.specOn = false) :
    Does o f s (consumed f) := by
  have hbody := Ctx.propose_ok hvid hb hh s.specOn hv
  subst ho
  rw [hspec, Ctx.ask_silent s hpsn, ← hspec] at hbody
  exact does_of_issue (exec_guess f s) hf hbody

theorem proposal_position (ho : o ∈ ([.guess, .ratify] : List Op)) (hpsn : h.psn = false) (hgen : h.gen ≠ 0)
    (hv : (b.extractLsb' 0 32).toNat ≠ ((s.seen o f).ent h.gen.toNat).pos + 1) :
    exec (o.mk f) s = .next ((s.markActive s.focus.tile).raise s.focus.tile s.focus.pool s.focus.slot 0x80 h.gen
      (BitVec.ofNat 64 ((b.extractLsb' 0 32).toNat + h.gen.toNat * 2 ^ 32))
      (BitVec.ofNat 64 ((s.seen o f).ent h.gen.toNat).pos) 0) := by
  refine next_raise (exec_proposal ho) hf hh ?_
  rw [Ctx.propose_eq hvid hb hh, Ctx.checkPos_fails (BitVec.isLt _) hpsn hgen hv]
  rfl

end Proposal

/-! ### GENGET (R320) -/

/-- What GENGET reads of a generation (R320). -/
def State.gotGen (s : State) (c : Ctx) (h : Hdr) (g : BitVec 8) : Tok :=
  match s.mint c.mirror ((s.blockOf c.k).elim 0 (·.job)) g.toNat with
  | some ws => dataTok (Lanes.ofList ws) ⟨0x3F, h.psn, g⟩ 1
  | none => dataTok Lanes.zero ⟨0, h.psn, 0⟩ 1

section Genget

variable {s : State} (c : Ctx) (h : Hdr) {g : BitVec 8}

theorem State.gotGen_head : (s.gotGen c h g).psn = h.psn ∧ (s.gotGen c h g).fmt = 1 := by
  unfold State.gotGen
  split <;> exact ⟨rfl, rfl⟩

/-- The lanes of a minted token, of which the first six are valid. -/
theorem minted_get (ws : List Word) (psn : Bool) {i : Nat} (hi : i < 6) :
    (dataTok (Lanes.ofList ws) ⟨0x3F, psn, g⟩ 1).lanes.get i = ws.getD i 0 := by
  have hvalid : (0x3F : BitVec 8).getLsbD i = true := by
    revert i
    decide
  rw [dataTok_get _ _ _ (by omega), if_pos hvalid]
  exact Lanes.get_ofFn _ (by omega)

theorem State.gotGen_zero (h0 : g = 0) : (s.gotGen c h g).mask = 0x3F ∧
    (s.gotGen c h g).lanes.l0 = BitVec.allOnes 64 ∧ (s.gotGen c h g).lanes.get 5 = 2 := by
  have hmint : s.mint c.mirror ((s.blockOf c.k).elim 0 (·.job)) g.toNat =
      some [ones, ones, ones, ones, ones, w64 (GenSt.code .ratified)] := by
    unfold State.mint
    exact if_pos (toNat_eq_zero8.mpr h0)
  unfold State.gotGen
  rw [hmint]
  exact ⟨rfl, minted_get _ h.psn (i := 0) (by decide), minted_get _ h.psn (i := 5) (by decide)⟩

theorem State.gotGen_live (h0 : g ≠ 0) (hst : (c.ent g.toNat).st = .live)
    (hjob : (c.ent g.toNat).job = (s.blockOf c.k).elim 0 (·.job)) :
    (s.gotGen c h g).mask = 0x3F ∧ (s.gotGen c h g).gen = g ∧
      (s.gotGen c h g).lanes.get 1 = BitVec.ofNat 64 (c.ent g.toNat).pos ∧
      (s.gotGen c h g).lanes.get 3 = BitVec.ofNat 64 (c.ent g.toNat).tokid ∧
      (s.gotGen c h g).lanes.get 4 = BitVec.ofNat 64 (c.ent g.toNat).parent.toNat ∧ (s.gotGen c h g).lanes.get 5 = 1 := by
  obtain ⟨ts, hmint⟩ : ∃ ts, s.mint c.mirror ((s.blockOf c.k).elim 0 (·.job)) g.toNat =
      some [ts, w64 (c.ent g.toNat).pos, w64 (c.ent g.toNat).lseq, w64 (c.ent g.toNat).tokid,
        w64 (c.ent g.toNat).parent.toNat, w64 (GenSt.code .live)] := by
    have hthere : ((decide ((c.ent g.toNat).st = .live) || decide ((c.ent g.toNat).st = .ratified)) &&
        decide ((c.ent g.toNat).job = (s.blockOf c.k).elim 0 (·.job))) = true := by simp [hst, hjob]
    unfold State.mint
    dsimp only
    rw [if_neg fun hz => h0 (toNat_eq_zero8.mp hz)]
    exact ⟨_, (if_pos hthere).trans (by rw [← hst]; rfl)⟩
  unfold State.gotGen
  rw [hmint]
  exact ⟨rfl, rfl, minted_get _ h.psn (i := 1) (by decide), minted_get _ h.psn (i := 3) (by decide),
    minted_get _ h.psn (i := 4) (by decide), minted_get _ h.psn (i := 5) (by decide)⟩

theorem State.gotGen_gone (h0 : g ≠ 0) (hst : (c.ent g.toNat).st = .free ∨ (c.ent g.toNat).st = .squashing) :
    (s.gotGen c h g).mask = 0 ∧ (s.gotGen c h g).gen = 0 := by
  have hmint : s.mint c.mirror ((s.blockOf c.k).elim 0 (·.job)) g.toNat = none := by
    have hgone : ((decide ((c.ent g.toNat).st = .live) || decide ((c.ent g.toNat).st = .ratified)) &&
        decide ((c.ent g.toNat).job = (s.blockOf c.k).elim 0 (·.job))) = false := by
      rcases hst with hst | hst <;> simp [hst]
    unfold State.mint
    dsimp only
    rw [if_neg fun hz => h0 (toNat_eq_zero8.mp hz)]
    exact if_neg (Bool.eq_false_iff.mp hgone)
  unfold State.gotGen
  rw [hmint]
  exact ⟨rfl, rfl⟩

end Genget

section GengetFires

variable {f : Fields} {s : State} {h : Hdr} {a : Word} (hf : Fires .genget f s)
  (ha : f.md.getLsbD 0 = false → (s.seen .genget f).intA = .ok a) (hh : (s.seen .genget f).header = .ok h)
include hf ha hh

/-- GENGET gives what it reads, and stops its pool where a source is poisoned (R317, R320). -/
theorem genget_does : Does .genget f s { resulting f 8 (s.gotGen (s.seen .genget f) h
      (if f.md.getLsbD 0 then (s.seen .genget f).a.gen else a.setWidth 8)) with
    after := if h.psn then some ((s.seen .genget f).flt 0x21 (w64 (dstCode f.d)) 0 0) else none } := by
  refine does_of_issue (exec_genget f s) hf ?_
  cases hmd : f.md.getLsbD 0
  case false =>
    simp only [Bool.false_eq_true, if_false, ha hmd, hh, ok_bind]
    rw [s.seen_result f (o := .genget) rfl]
    rfl
  case true =>
    simp only [if_true, hh, ok_bind]
    rw [s.seen_result f (o := .genget) rfl]
    rfl

theorem genget_result :
    let g := if f.md.getLsbD 0 then (s.seen .genget f).a.gen else a.setWidth 8
    let e := (s.seen .genget f).ent g.toNat
    ∃ r, (h.psn = false → Does .genget f s (resulting f 8 r)) ∧
      (h.psn = true → Does .genget f s { resulting f 8 r with
        after := some ⟨0x21, s.focus.slot, (s.seen .genget f).gen, BitVec.ofNat 64 (dstCode f.d), 0, 0⟩ }) ∧
      r.psn = h.psn ∧ r.fmt = 1 ∧
      (g = 0 → r.mask = 0x3F ∧ r.lanes.l0 = BitVec.allOnes 64 ∧ r.lanes.get 5 = 2) ∧
      (g ≠ 0 → e.st = .live → e.job = (s.blockOf s.focus.tile).elim 0 (·.job) → r.mask = 0x3F ∧ r.gen = g ∧
        r.lanes.get 1 = BitVec.ofNat 64 e.pos ∧ r.lanes.get 3 = BitVec.ofNat 64 e.tokid ∧
        r.lanes.get 4 = BitVec.ofNat 64 e.parent.toNat ∧ r.lanes.get 5 = 1) ∧
      (g ≠ 0 → (e.st = .free ∨ e.st = .squashing) → r.mask = 0 ∧ r.gen = 0) := by
  have hdoes := genget_does hf ha hh
  dsimp only
  generalize (if f.md.getLsbD 0 then (s.seen .genget f).a.gen else a.setWidth 8) = g at hdoes ⊢
  refine ⟨s.gotGen (s.seen .genget f) h g, fun hpsn => ?_, fun hpsn => ?_, (State.gotGen_head _ h).1, (State.gotGen_head _ h).2,
    State.gotGen_zero _ h, State.gotGen_live _ h, State.gotGen_gone _ h⟩
  · rw [hpsn] at hdoes
    exact hdoes
  · rw [hpsn] at hdoes
    exact hdoes

end GengetFires

/-! ### SQREQ and DHPUSH (R321, R322) -/

section Pushes

variable {f : Fields} {s : State} {h : Hdr} {a b p id : Word}

theorem sqreq_sends (hf : Fires .sqreq f s) (ha : (s.seen .sqreq f).intA = .ok a) (hh : (s.seen .sqreq f).header = .ok h)
    (hpsn : h.psn = false) (hlin : inLineage (s.seen .sqreq f).mirror (a.setWidth 8) h.gen = false) :
    Sends .sqreq f s h a (laneRead (s.seen .sqreq f).a 1) 0 0 := by
  refine sends_of_ask (exec_sqreq f s) hf hpsn ?_
  rw [ha, hh]
  simp only [ok_bind, hlin, Bool.and_false, Bool.false_eq_true, if_false]
  rfl

theorem dhpush_sends {t : Tok} (hf : Fires .dhpush f s) (hvid : (s.seen .dhpush f).vid = .ok (p, id))
    (hb : (s.seen .dhpush f).convB .int = .ok t) (hh : (s.seen .dhpush f).header = .ok h) (hpsn : h.psn = false)
    (hspec : s.specOn = true) (hlin : inLineage (s.seen .dhpush f).mirror ((t.lanes.get 1).setWidth 8) h.gen = true) :
    Sends .dhpush f s h p id t.lanes.l0 (((t.lanes.get 1).setWidth 8).setWidth 64) := by
  have hparent : w64 ((t.lanes.get 1).setWidth 8).toNat = ((t.lanes.get 1).setWidth 8).setWidth 64 := BitVec.ofNat_toNat ..
  refine sends_of_ask (exec_dhpush f s) hf hpsn ?_
  rw [hvid, hb, hh, ← hparent]
  simp only [ok_bind, hlin, hspec, Bool.not_true, Bool.and_false, Bool.false_eq_true, if_false]
  rfl

/-- The bits of a DHPUSH.CFG that must be zero. -/
theorem fld_of_and_zero {w m : Word} {hi lo : Nat} (h : w &&& m = 0)
    (hm : ∀ i < hi + 1 - lo, m.getLsbD (lo + i) = true) : fld w hi lo = 0 := by
  rw [fld_eq_zero_iff]
  intro i hi'
  have hbit := congrArg (BitVec.getLsbD · (lo + i)) h
  simpa [hm i hi'] using hbit

theorem dhpushCfg_sends (hf : Fires .dhpushCfg f s) (ha : (s.seen .dhpushCfg f).intA = .ok a)
    (hb : (s.seen .dhpushCfg f).intB = .ok b) (hh : (s.seen .dhpushCfg f).header = .ok h) (hpsn : h.psn = false)
    (hgen : h.gen = 0) (hfree : s.domainTaken = false) (hzero : a &&& 0xFFFFFFF0F8800007 = 0)
    (hlo : 1 ≤ (a.extractLsb' 32 4).toNat) (hhi : (a.extractLsb' 32 4).toNat ≤ 8) (hblo : 1 ≤ b.toNat)
    (hbhi : b.toNat ≤ 254)
    (hfits : (a.extractLsb' 0 23).toNat + 8 * 2 ^ (a.extractLsb' 32 4).toNat ≤ 2 ^ 23) :
    Sends .dhpushCfg f s h a 0 b 0 := by
  have hlog : fld a 35 32 = (a.extractLsb' 32 4).toNat := fld_extract a 35 32 (by omega)
  have hbase : fld a 22 0 = (a.extractLsb' 0 23).toNat := fld_extract a 22 0 (by omega)
  have hbudget : fld b 7 0 = b.toNat := fld_low_eq_toNat (by omega)
  have hhigh : fld b 63 8 = 0 := by
    rw [fld, Nat.div_eq_of_lt (by omega), Nat.zero_mod]
  have h31 : fld a 31 27 = 0 := fld_of_and_zero hzero (by decide)
  have h63 : fld a 63 36 = 0 := fld_of_and_zero hzero (by decide)
  have h23 : fld a 23 23 = 0 := fld_of_and_zero hzero (by decide)
  have h2 : fld a 2 0 = 0 := fld_of_and_zero hzero (by decide)
  refine sends_of_ask (exec_dhpushCfg f s) hf hpsn ?_
  rw [ha, hb, hh]
  simp only [ok_bind, hgen, h31, h63, h23, h2, hhigh, hlog, hbase, hbudget, hfree, bne_self_eq_false, Bool.false_or]
  generalize (a.extractLsb' 32 4).toNat = l at hlo hhi hfits ⊢
  generalize (a.extractLsb' 0 23).toNat = base at hfits ⊢
  refine if_neg ?_
  simp only [Bool.and_eq_true, Bool.or_eq_true, decide_eq_true_eq, Bool.or_false]
  omega

theorem dhpushJoin_sends (hf : Fires .dhpushJoin f s) (ha : (s.seen .dhpushJoin f).intA = .ok a)
    (hh : (s.seen .dhpushJoin f).header = .ok h) (hpsn : h.psn = false) (hgen : h.gen = 0) (hfree : s.domainTaken = false)
    (hnode : a.toNat < 1024)
    (hin : (s.specEntry a.toNat ((s.blockOf s.focus.tile).elim 0 (·.job)) true).isSome = true)
    (hout : (s.specEntry a.toNat ((s.blockOf s.focus.tile).elim 0 (·.job)) false).isSome = true) :
    Sends .dhpushJoin f s h a 0 0 0 := by
  have hlow : fld a 9 0 = a.toNat := fld_low_eq_toNat hnode
  have hhigh : fld a 63 10 = 0 := by
    rw [fld, Nat.div_eq_of_lt (show a.toNat < 2 ^ 10 from hnode), Nat.zero_mod]
  have hin' := Option.isNone_eq_false_iff.mpr hin
  have hout' := Option.isNone_eq_false_iff.mpr hout
  have hk : (s.seen .dhpushJoin f).k = s.focus.tile := rfl
  refine sends_of_ask (exec_dhpushJoin f s) hf hpsn ?_
  rw [ha, hh]
  simp only [ok_bind, hgen, hhigh, hlow, hk, hin', hout', hfree, bne_self_eq_false, Bool.or_self, Bool.and_false,
    Bool.false_eq_true, if_false]

end Pushes

/-- Settles O36: each instruction by what it asks of the root (`sends_of_ask`), GENGET by what it reads (`State.gotGen`). -/
theorem speculationRequests : Obligations.SpeculationRequests := by
  intro f s h a b p id
  refine ⟨fun o ho hvid hpsn => ?_, genget_result, sqreq_sends, fun t => dhpush_sends, dhpushCfg_sends, dhpushJoin_sends⟩
  obtain ⟨hf, hv, hb, hh⟩ := hvid
  exact ⟨fun hpos hspec => proposal_sends hf hv hb hh ho hpsn hpos hspec,
    fun hpos hguess hspec => guess_silent hf hv hb hh hguess hpsn hpos hspec,
    fun hgen hpos => proposal_position hf hv hb hh ho hpsn hgen hpos⟩

end Sys2Proof.Machine
